-- ==== Sys2Proof/Word.lean ====
section
/-!
DEFINITION. The word types of the Limnan KZ-16 and the plainest arithmetic on them (spec 00 R16, R17; 02 R67).
-/
namespace Sys2Proof

/-- One byte. -/
abbrev Byte := BitVec 8
/-- One 16-bit element. -/
abbrev Half := BitVec 16
/-- One 32-bit register. -/
abbrev Word := BitVec 32
/-- One 64-bit pair, instruction word or generic address. -/
abbrev DWord := BitVec 64

/-- A 9-bit operand field of an instruction word (R42). -/
abbrev Code := BitVec 9

/-- Bits `hi` down to `lo` of a number, as R17 writes `x<hi:lo>`. -/
def bits (x hi lo : Nat) : Nat := (x / 2 ^ lo) % 2 ^ (hi + 1 - lo)

/-- Ceiling division, ⌈a/b⌉. -/
def ceilDiv (a b : Nat) : Nat := (a + b - 1) / b

end Sys2Proof
end

