-- ==== Sys2Proof/Config.lean ====
section
/-!
DEFINITION. The constants the package fixes (spec 00 Tables 0.1-0.3) and the values the spec leaves open, each an
opaque constant with no body (assumption log 5, 10, 12): nothing can prove a value of one.
-/
namespace Sys2Proof.Config

/-- Compute dies (R1). -/
def dies : Nat := 16
/-- Cores of a die (R1). -/
def coresPerDie : Nat := 32
/-- Cores of the chip (R3). -/
def cores : Nat := 512
/-- Scratchpad and L1 storage of a core in bytes (R3). -/
def coreStorage : Nat := 1280 * 1024
/-- Launch slots of the chip (R251). -/
def launchSlots : Nat := 256
/-- Granules of 8 registers in one lane of a quarter (R155). -/
def laneGranules : Nat := 160

/-- FREE: bits a memory location, register or result holds where the spec states none; the argument is the counter
`State.fresh` of the machine, which every use advances (log 5). -/
opaque freeWord : Nat → BitVec 64

/-- FREE: the raw result of an approximated function-unit instruction before R239's bound is imposed. The arguments are
the operation's number, the result type's number and the bits of the exact operand (R238: a fixed function of the
operand bits); log 10. -/
opaque fuRaw : Nat → Nat → Int → Nat → Nat

/-- FREE: a byte of device memory after a conventional reset made a new encryption key (R496): a function of the key
generation and the address (log 5). -/
opaque rekeyedByte : Nat → Nat → BitVec 8

/-- FREE: digest of firmware image `i` (R494 measurements 1 and 2); log 12. -/
opaque firmwareDigest : Nat → BitVec 384

/-- FREE: the certificate chain, digests, signatures and key shares of SPDM answers (R494), by a counter; log 12. -/
opaque spdmBits : Nat → BitVec 384

/-- FREE: the alias key that a boot derives for its firmware (R493), by a counter; log 12. -/
opaque aliasKey : Nat → BitVec 384

end Sys2Proof.Config
end

