-- ==== Sys2Proof/Syntax.lean ====
section
/-!
DEFINITION. The instructions and device steps of the KZ-16: one constructor of `Instr` per row of the spec's table of
operations and events. A word instruction carries the fields of its form (spec 01 R23, R26, R28, R32, R35); a device
step carries the step's parameters.
-/
namespace Sys2Proof

/-- Type codes (R24, Table 1.3), in the order of their codes 0x0-0xF. -/
inductive Ty where
  | b32 | i32 | b16x2 | i16x2 | b64 | i64 | f32 | f16x2 | bf16x2 | b8x4 | i8x4
  | b8 | i8 | b16 | i16 | b128
deriving DecidableEq, Repr

/-- Rounding codes (R24): 00 RNE, 01 RZ, 10 RD, 11 RU. -/
inductive Rnd where
  | rne | rz | rd | ru
deriving DecidableEq, Repr

/-- Memory order codes (Table 1.4) in the order of their codes. Code 00 is `.weak` for an ordinary access and `.ar` for
an RMW and for FENCE; it is written `weak` here for all. -/
inductive Order where
  | weak | strong | acq | rel
deriving DecidableEq, Repr

/-- Scopes (Table 1.4), codes 000-100. PFETCH reads the first two codes as its level (R151). -/
inductive Scope where
  | grp | team | die | dev | sys
deriving DecidableEq, Repr

/-- Guard field of a word (R36): `gn` negates predicate `gp`. -/
structure Guard where
  gn : Bool
  gp : BitVec 3
deriving DecidableEq, Repr

/-- F-form word with the arithmetic MOD9 layout (R23, R24). -/
structure FWord where
  la  : BitVec 4
  g   : Guard
  d   : Code
  a   : Code
  b   : Code
  c   : Code
  ty  : Ty
  rnd : Rnd
  f2  : Bool
  f1  : Bool
  f0  : Bool
deriving DecidableEq, Repr

/-- F-form word with the memory MOD9 layout (R26). -/
structure MWord where
  la    : BitVec 4
  g     : Guard
  d     : Code
  a     : Code
  b     : Code
  c     : Code
  ty    : Ty
  order : Order
  scope : Scope
deriving DecidableEq, Repr

/-- I-form word (R32). -/
structure IWord where
  g     : Guard
  d     : Code
  mod10 : BitVec 10
  imm   : BitVec 32
deriving DecidableEq, Repr

/-- Slot opcodes of a P-form word (R51, Table 1.11), codes 0x00-0x11. -/
inductive SlotOp where
  | empty | iadd | isub | imin | imax | andS | orS | xorS | shl | shr | sar | mov
  | fadd | fsub | fmul | fmin | fmax | fsgn
deriving DecidableEq, Repr

/-- One slot of a P-form word (R28). -/
structure PSlot where
  op  : SlotOp
  da  : Code
  b   : Code
  ty  : Ty
  rnd : Rnd
  f0  : Bool
deriving DecidableEq, Repr

/-- P-form word (R28). -/
structure PWord where
  slot0 : PSlot
  slot1 : PSlot
deriving DecidableEq, Repr

/-- E-form word (R35). -/
structure EWord where
  la : BitVec 4
  g  : Guard
  fl : Bool
  o1 : Code
  o2 : Code
  o3 : Code
  o4 : Code
  o5 : Code
deriving DecidableEq, Repr

/-- Identity of a resident thread (R153): core of the chip (32 × die + core), quarter, row, lane. -/
structure ThreadId where
  core : Nat
  qtr  : Nat
  row  : Nat
  lane : Nat
deriving DecidableEq, Repr

/-- Access intent of a translation or page request (R297). -/
inductive Intent where
  | read | write | exec
deriving DecidableEq, Repr

/-- Answer to a PRI page request (R226). -/
inductive PriResult where
  | success | invalid | failure
deriving DecidableEq, Repr

/-- What a virtual page translates to (R225): device memory at a DPA, or host memory at an HPA. -/
inductive PageTarget where
  | dev (dpa : Nat)
  | host (hpa : Nat)
deriving DecidableEq, Repr

/-- Page sizes of a translation (R225). -/
inductive PageSize where
  | kib4 | mib2 | gib1
deriving DecidableEq, Repr

/-- A completed ATS translation of one page (R225). -/
structure Translation where
  target : PageTarget
  r : Bool
  w : Bool
  x : Bool
  size : PageSize := .kib4
deriving DecidableEq, Repr

/-- A host access over CXL.mem or to its own memory (R215, R216): a read, a write, or a locked RMW. -/
inductive HostOp where
  | read (bytes : Nat)
  | write (bytes : List Byte)
  | add (bytes : Nat) (v : DWord)
  | exch (bytes : Nat) (v : DWord)
  | cas (bytes : Nat) (expect new : DWord)
deriving DecidableEq, Repr

/-- One link entry as a flit or LINKQ carries it (Table 13.1). -/
structure LinkEntry where
  v     : Bool
  lup   : Bool
  pport : Nat
  seq   : Nat
  pchip : Nat
deriving DecidableEq, Repr

/-- A usable edge (a, k, b, k′) of the pod link map (R454). -/
structure Edge where
  a  : Nat
  k  : Nat
  b  : Nat
  k2 : Nat
deriving DecidableEq, Repr

/-- What a REQ of a pod-wide domain says (R407): the period asked for and the chip that asks. -/
structure PodRequest where
  g    : Nat
  chip : Nat
deriving DecidableEq, Repr

/-- The sender of a collective message and the epoch that the message is of (R469, R475). -/
structure CollFrom where
  chip  : Nat
  epoch : Nat
deriving DecidableEq, Repr

/-- The epoch of a collective that a message is of (R475). -/
structure CollRound where
  cid   : Nat
  epoch : Nat
deriving DecidableEq, Repr

/-- The fields a JOIN message carries (R461). -/
structure JoinMsg where
  src     : Nat
  cid     : Nat
  op      : Nat
  ty      : Nat
  rop     : Nat
  root    : Nat
  nelem   : Nat
  lchunk  : Nat
  maxtree : Nat
  part    : Nat
deriving DecidableEq, Repr

/-- The instructions and device steps of the KZ-16. -/
inductive Instr where
  /-- IADD (R80): Integer add per element, with optional saturation. -/
  | iadd (f : FWord)
  /-- ISUB (R80): Integer subtract per element, with optional saturation. -/
  | isub (f : FWord)
  /-- IMUL (R81): Low bits of the integer product per element. -/
  | imul (f : FWord)
  /-- IMULHI (R81): High 32 bits of the 64-bit product. -/
  | imulhi (f : FWord)
  /-- IMULW (R81): Full 64-bit product written to an even register pair. -/
  | imulw (f : FWord)
  /-- IMAD (R81): Integer multiply-add per element, with optional saturation. -/
  | imad (f : FWord)
  /-- IMIN (R80): Signed or unsigned minimum per element. -/
  | imin (f : FWord)
  /-- IMAX (R80): Signed or unsigned maximum per element. -/
  | imax (f : FWord)
  /-- IABSD (R80): Absolute difference per element, read as unsigned. -/
  | iabsd (f : FWord)
  /-- IDOT4 (R82): Four-byte dot product added to a 32-bit accumulator. -/
  | idot4 (f : FWord)
  /-- AND (R83): Bitwise AND over the full width. -/
  | andW (f : FWord)
  /-- OR (R83): Bitwise OR over the full width. -/
  | orW (f : FWord)
  /-- XOR (R83): Bitwise XOR over the full width. -/
  | xorW (f : FWord)
  /-- ANDN (R83): A AND NOT B over the full width. -/
  | andn (f : FWord)
  /-- SHL (R84): Logical shift left per element, with optional wrap of the count. -/
  | shl (f : FWord)
  /-- SHR (R84): Logical shift right per element. -/
  | shr (f : FWord)
  /-- SAR (R84): Arithmetic shift right per element. -/
  | sar (f : FWord)
  /-- FSHF (R85): Extracts a 32-bit window of {B, A}, with rotate or sign fill. -/
  | fshf (f : FWord)
  /-- BFE (R86): Bit-field extract. -/
  | bfe (f : FWord)
  /-- BFI (R86): Bit-field insert. -/
  | bfi (f : FWord)
  /-- POPC (R87): Population count. -/
  | popc (f : FWord)
  /-- CLZ (R87): Count of leading zeros. -/
  | clz (f : FWord)
  /-- BREV (R87): Bit reversal. -/
  | brev (f : FWord)
  /-- PRMT (R88): Byte permutation in gen, rev, rot or spl mode. -/
  | prmt (f : FWord)
  /-- ISETP (R89): Integer compare, combined with a predicate into a predicate. -/
  | isetp (f : FWord)
  /-- PSETP (R90): Combines three predicates with a selected function. -/
  | psetp (f : FWord)
  /-- SEL (R91): Selects A or B by a predicate. -/
  | sel (f : FWord)
  /-- MOV (R91): Register move, including special-register and queue operands. -/
  | mov (f : FWord)
  /-- LEA (R92): Forms a 64-bit address as base plus shifted offset. -/
  | lea (f : FWord)
  /-- IADDC (R93): Add or subtract with a carry predicate. -/
  | iaddc (f : FWord)
  /-- MOVIX (R78): Writes, accumulates or reads an index register. -/
  | movix (f : FWord)
  /-- FADD (R96): Floating-point add, rounded once. -/
  | fadd (f : FWord)
  /-- FSUB (R96): Floating-point subtract, rounded once. -/
  | fsub (f : FWord)
  /-- FMUL (R96): Floating-point multiply, rounded once. -/
  | fmul (f : FWord)
  /-- FFMA (R96): Fused multiply-add with a single rounding. -/
  | ffma (f : FWord)
  /-- FMIN (R97): Floating-point minimum with the NaN rules. -/
  | fmin (f : FWord)
  /-- FMAX (R97): Floating-point maximum with the NaN rules. -/
  | fmax (f : FWord)
  /-- FSGN (R98): Applies a sign derived from B to A. -/
  | fsgn (f : FWord)
  /-- FSETP (R99): f32 compare into a predicate. -/
  | fsetp (f : FWord)
  /-- FCLASS (R100): Writes a one-hot class mask of A. -/
  | fclass (f : FWord)
  /-- FRND (R101): Rounds to an integral value in the same format. -/
  | frnd (f : FWord)
  /-- FSCALE (R102): Computes A times 2^n, rounded once. -/
  | fscale (f : FWord)
  /-- FXTR (R103): Extracts the exponent or the significand. -/
  | fxtr (f : FWord)
  /-- FDOT2 (R104): Two-element half-precision dot product with an f32 accumulate. -/
  | fdot2 (f : FWord)
  /-- CVT (R105): Converts between the accepted type pairs. -/
  | cvt (f : FWord)
  /-- PACK (R107): Narrows two sources into one register. -/
  | pack (f : FWord)
  /-- UNPK (R108): Widens one half of a register. -/
  | unpk (f : FWord)
  /-- PAIR_WORD (R31): Issues a P-form word: both slots read their sources, then both write. -/
  | pairWord (p : PWord)
  /-- MOVI (R94): Writes a 32-bit immediate. -/
  | movi (w : IWord)
  /-- IADDI (R94): Adds a 32-bit immediate. -/
  | iaddi (w : IWord)
  /-- ANDI (R94): ANDs with a 32-bit immediate. -/
  | andi (w : IWord)
  /-- ORI (R94): ORs with a 32-bit immediate. -/
  | ori (w : IWord)
  /-- XORI (R94): XORs with a 32-bit immediate. -/
  | xori (w : IWord)
  /-- ISETPI (R34): Compares A with a 23-bit immediate into a predicate. -/
  | isetpi (w : IWord)
  /-- LDI (R145): Generic load with an immediate offset. -/
  | ldi (w : IWord)
  /-- STI (R145): Generic store with an immediate offset. -/
  | sti (w : IWord)
  /-- LDSI (R145): Scratchpad load with an immediate offset. -/
  | ldsi (w : IWord)
  /-- STSI (R145): Scratchpad store with an immediate offset. -/
  | stsi (w : IWord)
  /-- BRA (R188): PC-relative branch. -/
  | bra (w : IWord)
  /-- CALL (R188): PC-relative call that writes a link pair. -/
  | call (w : IWord)
  /-- RET (R188): Jumps to the address in a register pair. -/
  | ret (w : IWord)
  /-- JMPI (R33): Indirect jump, checked for a landing point. -/
  | jmpi (w : IWord)
  /-- CALLI (R33): Indirect call, checked for a landing point, that writes a link pair. -/
  | calli (w : IWord)
  /-- LANDPT (R187): Marks an indirect target and has no effect. -/
  | landpt (w : IWord)
  /-- EXIT (R189): Retires the item or traps SECTION; the lane then waits for refill or goes idle. -/
  | exitW (w : IWord)
  /-- YIELD (R167): Moves the thread to PC + 8 with a fresh stamp. -/
  | yield (w : IWord)
  /-- NAP (R190): Parks the thread for a count of cycles. -/
  | nap (w : IWord)
  /-- WAITZ (R191): Reads a word repeatedly until it is zero. -/
  | waitz (w : IWord)
  /-- WAITNE (R191): Reads a word repeatedly until it differs from a comparand. -/
  | waitne (w : IWord)
  /-- BAR (R183): Arrives at a named barrier and parks. -/
  | bar (w : IWord)
  /-- BARARV (R183): Arrives at a named barrier and continues. -/
  | bararv (w : IWord)
  /-- CVSIGN (R177): Signs a convergence register and continues. -/
  | cvsign (w : IWord)
  /-- CVWAIT (R177): Signs a convergence register and parks in CVW. -/
  | cvwait (w : IWord)
  /-- TKN (R184): Takes, joins or passes the issue-priority token. -/
  | tkn (w : IWord)
  /-- NOP (R187): Has no effect. -/
  | nop (w : IWord)
  /-- LD (R143): Generic load. -/
  | ld (m : MWord)
  /-- ST (R143): Generic store. -/
  | st (m : MWord)
  /-- LDS (R143): Team scratchpad load. -/
  | lds (m : MWord)
  /-- STS (R143): Team scratchpad store. -/
  | sts (m : MWord)
  /-- LDV (R144): Loads 2 to 16 consecutive words. -/
  | ldv (m : MWord)
  /-- STV (R144): Stores 2 to 16 consecutive words. -/
  | stv (m : MWord)
  /-- LDP (R143): Peer scratchpad load. -/
  | ldp (m : MWord)
  /-- STP (R143): Peer scratchpad store. -/
  | stp (m : MWord)
  /-- ATOM (R147): Generic atomic RMW with a returned old value. -/
  | atom (m : MWord)
  /-- ACAS (R148): Generic compare-and-swap. -/
  | acas (m : MWord)
  /-- RED (R149): Reduction with no return, through the buffer or as a release RMW. -/
  | red (m : MWord)
  /-- ATOMS (R147): Atomic RMW on the team scratchpad. -/
  | atoms (m : MWord)
  /-- ATOMP (R147): Atomic RMW on a peer scratchpad. -/
  | atomp (m : MWord)
  /-- FENCE (R150): Memory fence of kind ar, acq or rel at a scope. -/
  | fence (m : MWord)
  /-- PFETCH (R151): Requests a line into the L1 or the home slice. -/
  | pfetch (m : MWord)
  /-- SHFL (R193): Reads another participant lane's value. -/
  | shfl (f : FWord)
  /-- VOTE (R194): Combines a predicate over the participants. -/
  | vote (f : FWord)
  /-- GRED (R195): Group reduction over a fixed tree. -/
  | gred (f : FWord)
  /-- GSCAN (R196): Group prefix scan. -/
  | gscan (f : FWord)
  /-- MATCH (R197): Writes the mask of participants with an equal value. -/
  | matchW (f : FWord)
  /-- ELECT (R197): Sets a predicate in the lowest participant. -/
  | elect (f : FWord)
  /-- ACTMASK (R197): Writes the issuing or the live lane mask. -/
  | actmask (f : FWord)
  /-- QTRY (R198): Tries a queue pop or push without parking. -/
  | qtry (f : FWord)
  /-- RCP (R243): Reciprocal. -/
  | rcp (f : FWord)
  /-- RSQRT (R243): Reciprocal square root. -/
  | rsqrt (f : FWord)
  /-- SQRT (R243): Square root. -/
  | sqrt (f : FWord)
  /-- EXP2 (R244): 2^x. -/
  | exp2 (f : FWord)
  /-- LOG2 (R245): log2 x. -/
  | log2 (f : FWord)
  /-- SINPI (R246): sin(pi x). -/
  | sinpi (f : FWord)
  /-- COSPI (R246): cos(pi x). -/
  | cospi (f : FWord)
  /-- SCPI (R246): Writes sinpi and cospi to a register pair. -/
  | scpi (f : FWord)
  /-- TANH (R247): Hyperbolic tangent. -/
  | tanh (f : FWord)
  /-- FDIV (R248): Correctly rounded f32 division. -/
  | fdiv (f : FWord)
  /-- EXD (R244): 2^(a - b) with the difference formed exactly. -/
  | exd (f : FWord)
  /-- TCOPY (R352): Issues a copy of a tensor tile into scratchpad. -/
  | tcopy (e : EWord)
  /-- TKICK (R354): Issues a list of copy request records. -/
  | tkick (e : EWord)
  /-- TSTORE (R352): Issues a copy of a scratchpad tile to a tensor. -/
  | tstore (e : EWord)
  /-- TGATHER (R353): Issues a gather of indexed rows into scratchpad. -/
  | tgather (e : EWord)
  /-- OMAP (R381): Loads an operand-map slot from a record. -/
  | omap (e : EWord)
  /-- MMA (R382): Signs for a versioned matrix accumulation into a tile. -/
  | mma (e : EWord)
  /-- MMAS (R370): Signs for a speculative accumulation into a shadow tile. -/
  | mmas (e : EWord)
  /-- ACCZ (R382): Signs to zero a tile, and optionally free it. -/
  | accz (e : EWord)
  /-- ACCLD (R374): Signs to load a tile from scratchpad. -/
  | accld (e : EWord)
  /-- ACCST (R375): Signs to store a tile as f32 or as a canonical A block. -/
  | accst (e : EWord)
  /-- ACCRD (R376): Per-thread request to read one tile element at a version. -/
  | accrd (e : EWord)
  /-- ACCROW (R373): Signs to scale tile rows by an f32 vector. -/
  | accrow (e : EWord)
  /-- ACCRMAX (R373): Signs to write the row maxima of a tile. -/
  | accrmax (e : EWord)
  /-- SPCOMMIT (R371): Signs to merge a shadow tile into its tile. -/
  | spcommit (e : EWord)
  /-- SPDROP (R371): Signs to discard a shadow tile. -/
  | spdrop (e : EWord)
  /-- ACCVER (R377): Writes a snapshot of a tile's ownership and version. -/
  | accver (e : EWord)
  /-- KVLD (R437): Issues a KV work packet. -/
  | kvld (e : EWord)
  /-- KVAPP (R431): Appends one token's K and V rows and sets the layer mark. -/
  | kvapp (e : EWord)
  /-- SEQCMT (R432): Commits a step: increments LEN and clears MARKS. -/
  | seqcmt (e : EWord)
  /-- SEQABORT (R432): Clears MARKS and returns LEN. -/
  | seqabort (e : EWord)
  /-- SCOREADD (R444): Adds to a position's score as a strong reduction. -/
  | scoreadd (e : EWord)
  /-- TOPK (R445): Selects the top positions by score. -/
  | topk (e : EWord)
  /-- KVNODE (R448): Writes one table node with one slot replaced. -/
  | kvnode (e : EWord)
  /-- KVCOPY (R447): Issues a copy of listed positions to a new record. -/
  | kvcopy (e : EWord)
  /-- PGALLOC (R449): Pops a page from a pool. -/
  | pgalloc (e : EWord)
  /-- PGFREE (R449): Pushes a page onto a pool. -/
  | pgfree (e : EWord)
  /-- RSENTER (R386): Enters a reader section of a domain. -/
  | rsenter (e : EWord)
  /-- RSLEAVE (R386): Leaves a reader section of a domain. -/
  | rsleave (e : EWord)
  /-- PUBLISH (R412): Release store that marks the word as published. -/
  | publish (e : EWord)
  /-- RETIRE (R413): Enqueues a retire entry and returns its tag. -/
  | retire (e : EWord)
  /-- GPSYNC (R414): Waits for a full grace period of a domain. -/
  | gpsync (e : EWord)
  /-- GPSTAT (R415): Writes a snapshot of the grace-detector state. -/
  | gpstat (e : EWord)
  /-- CLAUNCH (R477): Checks and accepts a collective and sends JOIN. -/
  | claunch (e : EWord)
  /-- CSTATUS (R478): Writes a collective's progress state word. -/
  | cstatus (e : EWord)
  /-- CABORT (R479): Aborts a live collective. -/
  | cabort (e : EWord)
  /-- CRESUME (R480): Counts toward the resume round of a paused collective. -/
  | cresume (e : EWord)
  /-- LINKQ (R481): Reads a link entry, the map epoch or the chip number. -/
  | linkq (e : EWord)
  /-- SUBSCR (R229): Subscribes a memory range into a scratchpad mirror. -/
  | subscr (e : EWord)
  /-- UNSUBSCR (R230): Ends a subscription. -/
  | unsubscr (e : EWord)
  /-- CARVE (R208): Checks and accepts a new vault way mask for the die. -/
  | carve (e : EWord)
  /-- MSEND (R232): Places a message in the core's send buffer. -/
  | msend (e : EWord)
  /-- RINGSET (R233): Registers or releases a message ring index. -/
  | ringset (e : EWord)
  /-- RINGADV (R234): Advances a ring's HEAD as a release. -/
  | ringadv (e : EWord)
  /-- LAUNCH (R282): Enqueues a copy of a launch record onto a queue. -/
  | launch (e : EWord)
  /-- ITEMQ (R283): Writes the launch's or team's count of remaining items. -/
  | itemq (e : EWord)
  /-- DRAIN (R284): Drains the issuing team or launch. -/
  | drain (e : EWord)
  /-- CCADD (R285): Adds to a completion counter as a release at sys scope and prompts dependence reads. -/
  | ccadd (e : EWord)
  /-- TRAP (R314): Raises SWTRAP with a code. -/
  | trap (e : EWord)
  /-- RETT (R315): Returns from handler mode and re-injects the replay queue. -/
  | rett (e : EWord)
  /-- RQRD (R316): Reads a field of a replay entry. -/
  | rqrd (e : EWord)
  /-- RQWR (R316): Writes SKIP or a captured operand of a replay entry. -/
  | rqwr (e : EWord)
  /-- CAUSECLR (R317): Clears the thread's bit in a cause mask. -/
  | causeclr (e : EWord)
  /-- CSRRD (R318): Reads a CSR. -/
  | csrrd (e : EWord)
  /-- CSRWR (R318): Writes a CSR, checked for privilege. -/
  | csrwr (e : EWord)
  /-- BKPT (R319): Breakpoint: halts for an attached debugger or raises BKPT. -/
  | bkpt (e : EWord)
  /-- SETMODE (R320): Sets the launch's promise, fairness interval or watchdog interval. -/
  | setmode (e : EWord)
  /-- PREEMPT (R321): Requests spatial pre-emption of a launch's cores. -/
  | preempt (e : EWord)
  /-- ILLEGAL_WORD (R52): A word that fails decode raises ILL with a sub-code. -/
  | illegalWord (sub : Nat)
  /-- TRAP_ENTRY (R291): A raising thread settles its unfinished instructions, writes TSTAT and TPC, and enters the handler. -/
  | trapEntry (t : ThreadId)
  /-- PAGE_RESPONSE (R297): A PRI response replays the parked accesses and resumes paused engines, or raises PAGE. -/
  | pageResponse (pasid vpn : Nat) (intent : Intent) (res : PriResult)
  /-- PARKED_SHARE_SWITCH (R299): When the fault-parked share holds for PARKWIN cycles, one team is saved. -/
  | parkedShareSwitch (core : Nat)
  /-- TEAM_SAVE (R301): Stops, settles, merges and captures a team into the save pool. -/
  | teamSave (core slot : Nat)
  /-- TEAM_RESTORE (R304): Re-places a saved team and restores its state and registrations. -/
  | teamRestore (image core : Nat)
  /-- RED_MERGE (R122): Merges a reduction-buffer line at its home, one atomic RMW per word. -/
  | redMerge (core line : Nat)
  /-- FAIRNESS_DUE (R166): An entry's WAIT reaches the fairness interval and DUE is set. -/
  | fairnessDue (core qtr lslot : Nat) (pc : DWord)
  /-- STAMP_RENUMBER (R159): When the stamp counter would wrap, the quarter renumbers its stamps. -/
  | stampRenumber (core qtr : Nat)
  /-- NAP_EXPIRE (R190): The NAP count elapses and the thread resumes. -/
  | napExpire (t : ThreadId)
  /-- WAIT_REREAD (R191): A waiting thread's word is read again after a write report or 2,048 cycles. -/
  | waitReread (t : ThreadId)
  /-- ITEM_ASSIGN (R268): Gives an exited thread its next item or makes its lane idle. -/
  | itemAssign (t : ThreadId)
  /-- QTAIL_WRITE (R250): A host write of QTAIL enqueues records or is refused with code 9. -/
  | qtailWrite (q : Nat) (v : Word)
  /-- QPUSH_WRITE (R250): A host write of QPUSH starts an enqueue and sets BUSY. -/
  | qpushWrite (q : Nat) (v : DWord)
  /-- QPUSH_COMPLETE (R250): The staging record is copied to the slot at TAIL and RES is written. -/
  | qpushComplete (q : Nat)
  /-- TAKE_RECORD (R251): Takes the record at HEAD when a slot is free, rejecting an invalid one. -/
  | takeRecord (q : Nat)
  /-- DEP_READ (R260): Reads an unmet dependence counter, at most 4,096 cycles after the last read. -/
  | depRead (lslot j : Nat)
  /-- LAUNCH_BEGIN (R264): A launch with met dependences begins; a COSCHED launch is tested. -/
  | launchBegin (lslot : Nat)
  /-- PLACE_TEAM (R265): Places a team on a fitting core in its start state. -/
  | placeTeam (lslot core : Nat)
  /-- TEAM_RETIRE (R273): A team with all lanes idle and no engine operation outstanding releases its resources. -/
  | teamRetire (core slot : Nat)
  /-- LAUNCH_END (R261): Writes the status word, bumps CC, frees the slot and signals faults. -/
  | launchEnd (lslot : Nat)
  /-- WATCHDOG_EXPIRE (R276): The watchdog reaches WDOG: the launch faults, its threads trap or halt. -/
  | watchdogExpire (lslot : Nat)
  /-- LCTL_DRAIN (R272): LCTL command 1 drains a launch. -/
  | lctlDrain (lslot : Nat)
  /-- LCTL_ABORT (R274): LCTL command 2 aborts a launch. -/
  | lctlAbort (lslot : Nat)
  /-- LCTL_RELEASE_RESERVE (R278): LCTL command 3 ends a queue's core reserve. -/
  | lctlReleaseReserve (q : Nat)
  /-- PRECTL_GO (R305): A host write of PRECTL.GO starts spatial pre-emption. -/
  | prectlGo (v : Word)
  /-- DBG_HALT (R309): Debug command 1 halts every thread of a launch. -/
  | dbgHalt (lslot : Nat)
  /-- DBG_RESUME (R311): Debug command 2 resumes halted threads by their halt reason. -/
  | dbgResume (lslot : Nat)
  /-- DBG_STEP (R309): Debug command 3 lets one thread issue one word. -/
  | dbgStep (t : ThreadId)
  /-- DBG_FREEZE (R310): Debug command 4 freezes a core's engines at transfer boundaries. -/
  | dbgFreeze (core : Nat)
  /-- CGATE_WRITE (R489): Gates or ungates cores of a die. -/
  | cgateWrite (die : Nat) (v : Word)
  /-- DBG_SNAPSHOT (R312): Debug command 6 copies an object into the read window. -/
  | dbgSnapshot (sel : Word)
  /-- DBG_ATTACH (R311): Debug command 7 attaches the debugger to a launch. -/
  | dbgAttach (lslot : Nat)
  /-- DBG_DETACH (R309): Debug command 8 detaches the debugger. -/
  | dbgDetach (lslot : Nat)
  /-- REGISTER_WRITE (R18): A write to a register with no row of its own, under its access type and conditions. -/
  | registerWrite (off : Nat) (wide : Bool) (v : DWord)
  /-- CARVE_SWITCH (R208): After the drain, clears the new ways, switches the mask and writes the status. -/
  | carveSwitch (die : Nat)
  /-- SUBSCR_MIRROR_COMPLETE (R229): The subscription's initial copy completes and the handle is written. -/
  | subscrMirrorComplete (core handle : Nat)
  /-- SUB_UPDATE_APPLY (R210): A subscriber applies an update in sequence order, holding early ones. -/
  | subUpdateApply (core handle : Nat)
  /-- ATS_INVALIDATION (R227): An ATS invalidation removes TLB entries and lapses subscriptions. -/
  | atsInvalidation (pasid vpn pages : Nat)
  /-- MSG_DELIVER (R222): A message is discarded, held, or appended to a ring slot. -/
  | msgDeliver (core idx : Nat)
  /-- HOST_MEM_ACCESS (R215): A host CXL.mem read or write to an HDM line, ordered against device RMWs. -/
  | hostMemAccess (addr : Nat) (op : HostOp)
  /-- HOST_SNOOP (R216): A host snoop to the host-line cache, answered after any RMW in progress. -/
  | hostSnoop (line : Nat) (op : HostOp) (off : Nat)
  /-- HLC_EVICT (R217): The host-line cache evicts a line, at the device's choice. -/
  | hlcEvict (line : Nat)
  /-- COPY_ACCEPT (R323): A copy command gets an entry, registers its ranges and arms its completion object. -/
  | copyAccept (t : ThreadId)
  /-- COPY_RETIRE (R324): A copy command retires after its last write and completion update. -/
  | copyRetire (core idx : Nat)
  /-- TKICK_RECORD_START (R354): Reads, checks and starts the next list record after the previous retires. -/
  | tkickRecordStart (core idx : Nat)
  /-- MATRIX_QUEUE_ISSUE (R363): A latched matrix command is checked and enters the matrix queue. -/
  | matrixQueueIssue (core slot cv qtr : Nat)
  /-- MATRIX_START (R364): A queued matrix command starts when its version and resources allow. -/
  | matrixStart (core qtr idx : Nat)
  /-- MATRIX_RETIRE (R365): A matrix command writes, increments versions and clears its ranges. -/
  | matrixRetire (core qtr idx : Nat)
  /-- ACCRD_READ (R376): An accepted ACCRD reads its element once the version matches. -/
  | accrdRead (t : ThreadId)
  /-- GP_START (R393): With demand, the chip node starts a grace period and sends the flip. -/
  | gpStart (d : Nat)
  /-- GP_FLIP_DONE (R393): The last core acknowledgement sets GST to waiting. -/
  | gpFlipDone (d : Nat)
  /-- GP_COMPLETE (R394): Old-phase counters reach zero; C advances. -/
  | gpComplete (d : Nat)
  /-- RETIRE_RELEASE (R401): Releases an eligible retire entry and performs its action. -/
  | retireRelease (d : Nat)
  /-- DOMCFG_WRITE (R384): Enables or disables a reader domain under its conditions. -/
  | domcfgWrite (d : Nat) (v : Word)
  /-- KV_PACKET_ACCEPT (R438): A KV packet takes an entry, registers ranges, arms COMP and fixes VLEN. -/
  | kvPacketAccept (t : ThreadId)
  /-- KV_BLOCK_WRITE (R439): The walker writes one row block of the tile. -/
  | kvBlockWrite (core idx : Nat)
  /-- KV_FAULT_RECORD (R441): A fault record is placed once the ring has room; vector 66 is sent. -/
  | kvFaultRecord (core idx : Nat)
  /-- KFQRES_WRITE (R441): A service report resumes or fails the packets waiting on a tag. -/
  | kfqresWrite (v : DWord)
  /-- COLL_JOIN (R461): The coordinator receives a JOIN and starts, pauses or fails the collective. -/
  | collJoin (j : JoinMsg)
  /-- COLL_START (R469): A participant receives START, derives trees and runs unfinished chunks. -/
  | collStart (cid epoch : Nat) (fin : List Nat) (edges : List Edge)
  /-- COLL_PAUSE (R469): A participant receives PAUSE, abandons chunks and sends its D bitmap. -/
  | collPause (cid : Nat) (src : CollFrom)
  /-- COLL_BITMAP (R469): The coordinator collects D bitmaps and recomputes trees. -/
  | collBitmap (cid epoch src : Nat) (done : List Nat)
  /-- COLL_RESUME_MSG (R471): The coordinator counts a participant's CRESUME in a held pause. -/
  | collResumeMsg (cid : Nat) (src : CollFrom)
  /-- COLL_REPORT (R462): The coordinator receives a participant's all-done report. -/
  | collReport (cid epoch src : Nat)
  /-- COLL_FINISH (R462): A participant receives FINISH and writes STATE 4. -/
  | collFinish (round : CollRound)
  /-- CHUNK_DATA (R466): A chip receives an up or down chunk value, combines it, writes output and sets marks. -/
  | chunkData (cid epoch chunk : Nat) (up : Bool) (src : Nat) (vals : List (Option Word)) (bad : List Nat)
  /-- LINK_UP (R453): A Sahlys link trains, exchanges chip numbers and sends known flits. -/
  | linkUp (link pchip pport : Nat)
  /-- LINK_DOWN (R453): A link fails; the end updates LUP and sends its link-state flit. -/
  | linkDown (link : Nat)
  /-- LINK_STATE_FLIT (R453): A received link-state flit is applied and forwarded, or dropped. -/
  | linkStateFlit (link origin seq : Nat) (entries : List LinkEntry)
  /-- PSTATE_REQUEST (R488): A REQ write starts a die's frequency change. -/
  | pstateRequest (die : Nat) (v : Word)
  /-- PSTATE_CHANGE_DONE (R488): The clock change ends, CUR updates and issue resumes. -/
  | pstateChangeDone (die : Nat)
  /-- CORE_UNGATE_DONE (R489): An ungated core becomes able to receive teams. -/
  | coreUngateDone (core : Nat)
  /-- TRANSLATION_COMPLETION (R225): The host's ATS translation completion for an outstanding request arrives and fills the TLBs, or leads to a fault. -/
  | translationCompletion (pasid vpn : Nat) (res : Option Translation)
  /-- BIRSP (R215): The host's BIRsp to a back-invalidate snoop arrives, and the home may then perform the waiting device write or RMW. -/
  | birsp (half : Nat)
  /-- CXL_CACHE_RESPONSE (R216): The host answers a device-to-host CXL.cache request such as RdOwn, granting the line so that the host-line cache can fill or perform the RMW. -/
  | cxlCacheResponse (line : Nat) (exclusive : Bool) (ok : Bool)
  /-- ACCESS_REPLY (R302): A home, slice, scratchpad or host-line cache returns the reply or acknowledgement of an access that has left the core, and the waiting instruction finishes. -/
  | accessReply (t : ThreadId) (idx : Nat)
  /-- COPY_TRANSFER (R342): The copy engine writes a portion of a command's destination bytes and reduces REMAIN by a release at CSCOPE. -/
  | copyTransfer (core idx : Nat)
  /-- PREEMPT_DONE (R305): All saves of a pre-emption have ended and the status is written. -/
  | preemptDone
  /-- INVALIDATION_COMPLETION (R227): Invalidation Completion is sent once the affected accesses have been performed. -/
  | invalidationCompletion
  /-- POD_REQ (R408): The coordinator receives a member's demand for a period. -/
  | podReq (d : Nat) (src : PodRequest)
  /-- POD_FLIP (R408): A member receives FLIP and runs its flip. -/
  | podFlip (d g : Nat)
  /-- POD_FACK (R407): The coordinator receives a member's flip acknowledgement. -/
  | podFack (d g src : Nat)
  /-- POD_QUIET (R408): The coordinator receives QUIET, sending DONE when all have quiesced. -/
  | podQuiet (d g src : Nat)
  /-- POD_DONE (R408): A member receives DONE, sets C and releases its entries. -/
  | podDone (d g : Nat)
  /-- COLL_FAIL (R460): A participant receives FAIL and the collective ends failed. -/
  | collFail (cid code : Nat)
  /-- COLL_ABORT_MSG (R479): A participant receives an abort and ends the collective with REMOTE. -/
  | collAbortMsg (cid src : Nat)
  /-- PORT_DOWN (R484): A CXL port goes down and requests routed to it fail. -/
  | portDown (port : Nat)
  /-- PORT_UP (R484): A CXL port retrains and serves later accesses. -/
  | portUp (port : Nat)
  /-- CXL_CACHE_TIMEOUT (R484): A CXL.cache request without response in 2 ms fails with HOSTLINK. -/
  | cxlCacheTimeout (line : Nat)
  /-- FEATURE_COMMIT (R486): FEATCTL.COMMIT fixes the accepted feature word and sets DONE. -/
  | featureCommit
  /-- DBG_THAW (R309): Debug command 5 thaws a core's engines. -/
  | dbgThaw (core : Nat)
  /-- THERMAL_WARNING (R491): A sensor reaches WARNT; WARN is set and vector 67 sent. -/
  | thermalWarning (temp : Nat)
  /-- THERMAL_TRIP (R492): A sensor reaches 105 C; the device stops and TRIP is set. -/
  | thermalTrip (temp : Nat)
  /-- SECURITY_ALARM (R495): A sensor fault erases keys or locks by policy. -/
  | securityAlarm (src : Nat)
  /-- SECPOL_WRITE (R496): Writes the alarm policy once per reset. -/
  | secpolWrite (v : Word)
  /-- CONVENTIONAL_RESET (R493): Reset or power-up: secure boot verifies the firmware and state resets. -/
  | conventionalReset (svn : Nat) (signed : Bool)
  /-- GET_VERSION (R494): SPDM GET_VERSION request. -/
  | getVersion
  /-- GET_CAPABILITIES (R494): SPDM GET_CAPABILITIES request. -/
  | getCapabilities
  /-- NEGOTIATE_ALGORITHMS (R494): SPDM NEGOTIATE_ALGORITHMS request. -/
  | negotiateAlgorithms (algs : Nat)
  /-- GET_DIGESTS (R494): SPDM GET_DIGESTS request. -/
  | getDigests
  /-- GET_CERTIFICATE (R494): SPDM GET_CERTIFICATE request. -/
  | getCertificate (off len : Nat)
  /-- CHALLENGE (R494): SPDM CHALLENGE request. -/
  | challenge (nonce : Nat)
  /-- GET_MEASUREMENTS (R494): SPDM GET_MEASUREMENTS request for the listed measurements. -/
  | getMeasurements (index : Nat)
  /-- KEY_EXCHANGE (R494): SPDM KEY_EXCHANGE request. -/
  | keyExchange (share : Nat)
  /-- FINISH (R494): SPDM FINISH request. -/
  | spdmFinish (verify : Bool)
  /-- SOFT_ERROR (R203): A soft error in slice or stack data is corrected and counted, or it marks the affected words poisoned at the coherence point. -/
  | softError (addr : Nat) (correctable : Bool)
  /-- POWER_LOSS (R490): Module power is removed, volatile state is lost and the sensors stop watching, while fuses, flash and an alarm erasure persist. -/
  | powerLoss
  /-- IDE_KM_REQUEST (R482): An IDE_KM request over SPDM that sets the IDE keys of a port. -/
  | ideKmRequest (port : Nat) (key : Nat)
deriving DecidableEq, Repr

end Sys2Proof
end

