-- ==== Sys2Proof/Machine/Encoding.lean ====
section
/-!
DEFINITION. The opcode maps (spec 01 R50, R51) and, for every opcode, the fields and MOD values its entry accepts
(R25, R49, R141, R192, R236, R228, R281, R313, R351, R380, R411, R450, R476). `rsvd` is the check of sub-code RSVD,
`md` that of sub-code MOD (Table 1.12).
-/
namespace Sys2Proof

/-- The field's value is below 2^k: every bit at and above bit `k` is zero. -/
def small (c : Code) (k : Nat) : Bool := c.toNat < 2 ^ k

/-- F2:F0 as a number (R24). -/
def FWord.fl (w : FWord) : Nat := w.f2.toNat * 4 + w.f1.toNat * 2 + w.f0.toNat

/-- Requirements of one F-form opcode. -/
structure FReq where
  rsvd : FWord → Bool
  md   : FWord → Bool

def cZero (w : FWord) : Bool := w.c = 0
def bcZero (w : FWord) : Bool := w.b = 0 && w.c = 0

/-- Requirements given by a list of types, whether every rounding code is accepted, and the accepted flag values. -/
def fPlain (tys : List Ty) (anyRnd : Bool) (fls : List Nat) (rsvd : FWord → Bool) : FReq :=
  { rsvd, md := fun w => tys.contains w.ty && (anyRnd || w.rnd = .rne) && fls.contains w.fl }

/-- VOTE's mode F1:F0 (R194). -/
def voteMode (w : FWord) : Nat := w.fl % 4

/-- Type, rounding and operation of GRED and GSCAN (R192, R195). -/
def gredOk (w : FWord) : Bool :=
  [Ty.b32, .i32, .f32].contains w.ty && (w.ty = .f32 || w.rnd = .rne) &&
    w.c.toNat % 8 ≤ 5 && (w.c.toNat % 8 ≤ 2 || w.ty = .b32)

/-- Type of a 4-bit type code (Table 1.3). -/
def Ty.ofCode (c : Nat) : Ty :=
  match c % 16 with
  | 0 => .b32 | 1 => .i32 | 2 => .b16x2 | 3 => .i16x2 | 4 => .b64 | 5 => .i64 | 6 => .f32 | 7 => .f16x2
  | 8 => .bf16x2 | 9 => .b8x4 | 10 => .i8x4 | 11 => .b8 | 12 => .i8 | 13 => .b16 | 14 => .i16 | _ => .b128

/-- 4-bit code of a type (Table 1.3). -/
def Ty.code (t : Ty) : Nat :=
  match t with
  | .b32 => 0 | .i32 => 1 | .b16x2 => 2 | .i16x2 => 3 | .b64 => 4 | .i64 => 5 | .f32 => 6 | .f16x2 => 7
  | .bf16x2 => 8 | .b8x4 => 9 | .i8x4 => 10 | .b8 => 11 | .i8 => 12 | .b16 => 13 | .i16 => 14 | .b128 => 15

/-- Source type of a CVT word (R27). -/
def cvtSrc (w : FWord) : Ty := Ty.ofCode w.c.toNat

/-- CVT's B is used only by f32 to f16x2 and bf16x2 (Table 2.9). -/
def cvtUsesB (w : FWord) : Bool := cvtSrc w = .f32 && (w.ty = .f16x2 || w.ty = .bf16x2)

/-- Table 2.9 as (F0 defined, rounds); `none` for a pair that CVT does not accept. -/
def cvtPair (src dst : Ty) : Option (Bool × Bool) :=
  match src, dst with
  | .f32, .i32 | .f32, .b32 | .f32, .i64 | .f32, .b64 => some (false, true)
  | .i32, .f32 | .b32, .f32 | .i64, .f32 | .b64, .f32 => some (false, true)
  | .f32, .f16x2 | .f32, .bf16x2 => some (true, true)
  | .f16x2, .f32 | .bf16x2, .f32 => some (true, false)
  | .f16x2, .bf16x2 | .bf16x2, .f16x2 => some (true, true)
  | .i16x2, .f16x2 | .i16x2, .bf16x2 | .b16x2, .f16x2 | .b16x2, .bf16x2 => some (false, true)
  | .f16x2, .i16x2 | .f16x2, .b16x2 | .bf16x2, .i16x2 | .bf16x2, .b16x2 => some (false, true)
  | .i32, .i64 | .b32, .b64 => some (false, false)
  | .i64, .i32 | .b64, .b32 => some (true, false)
  | _, _ => none

/-- MOD values CVT accepts: the pair, its rounding codes (R25) and its F0 (R105). -/
def cvtOk (w : FWord) : Bool :=
  match cvtPair (cvtSrc w) w.ty with
  | some (f0, rnds) => (w.fl = 0 || (f0 && w.fl = 1)) && (rnds || w.rnd = .rne)
  | none => false

/-- Types of Table 3.2: every code is a memory size. -/
def rmwTypes (op : Nat) : List Ty :=
  match op with
  | 0 | 1 | 2 => [.b32, .i32, .b64, .i64, .f32, .f16x2, .bf16x2]
  | 3 | 4 | 5 | 6 => [.b32, .b64]
  | 7 | 8 | 15 => [.b32]
  | _ => []

/-- Requirements of one F-form opcode with the memory layout (Table 3.15). -/
structure MReq where
  rsvd : MWord → Bool
  md   : MWord → Bool

/-- Order values of a load or store: a b128 access accepts only weak (R114). -/
def plainOrder (os : List Order) (w : MWord) : Bool :=
  os.contains w.order && (w.ty ≠ .b128 || w.order = .weak)

/-- The operation and type of an RMW (Table 3.17), `ops` being those the instruction accepts. -/
def rmwOk (ops : List Nat) (w : MWord) : Bool :=
  ops.contains (w.c.toNat % 16) && (rmwTypes (w.c.toNat % 16)).contains w.ty

/-- Requirements of each memory opcode (Table 3.15, R114, R144, R146, R150, R151). -/
def mReq (op : Nat) : Option MReq :=
  match op with
  | 0x180 | 0x182 | 0x186 => some { rsvd := fun w => w.c = 0, md := plainOrder [.weak, .strong, .acq] }
  | 0x181 | 0x183 | 0x187 => some { rsvd := fun w => w.c = 0, md := plainOrder [.weak, .strong, .rel] }
  | 0x184 | 0x185 => some { rsvd := fun _ => true
                            md := fun w => w.ty = .b32 && [Order.weak, .strong].contains w.order
                              && 0x1C2 ≤ w.c.toNat && w.c.toNat ≤ 0x1D0 }
  | 0x188 => some { rsvd := fun w => small w.c 4, md := rmwOk [0, 1, 2, 3, 4, 5, 6, 7, 8] }
  | 0x189 => some { rsvd := fun _ => true, md := fun w => [Ty.b32, .i32, .b64, .i64].contains w.ty }
  | 0x18A => some { rsvd := fun w => w.b = 0 && small w.c 4
                    md := fun w => rmwOk [0, 1, 2, 3, 4, 5] w && [Order.strong, .rel].contains w.order }
  | 0x18B | 0x18C => some { rsvd := fun w => small w.c 4, md := rmwOk [0, 1, 2, 3, 4, 5, 6, 7, 8, 15] }
  | 0x18D => some { rsvd := fun w => w.d = 0 && w.a = 0 && w.b = 0 && w.c = 0 && w.ty = .b32
                    md := fun w => w.order ≠ .strong }
  | 0x18E => some { rsvd := fun w => w.d = 0 && w.c = 0 && w.ty = .b32 && w.order = .weak
                    md := fun w => w.scope = .grp || w.scope = .team }
  | _ => none

/-- Requirements of one I-form opcode. -/
structure IReq where
  rsvd : IWord → Bool
  md   : IWord → Bool

def IWord.immBits (w : IWord) (hi lo : Nat) : Nat := bits w.imm.toNat hi lo
/-- MOD10 bit 9 clear, where [8:0] names an operand (Table 1.7b). -/
def mod9ok (w : IWord) : Bool := w.mod10.toNat < 512
/-- Type, order and scope of an I-form memory modifier IMM32[31:23] (Table 1.7b, R145). -/
def immTy (w : IWord) : Ty := Ty.ofCode (w.immBits 31 28)
def immOrder (w : IWord) : Order :=
  match w.immBits 27 26 with | 0 => .weak | 1 => .strong | 2 => .acq | _ => .rel
def immScopeOk (w : IWord) : Bool := w.immBits 25 23 ≤ 4
def immScope (w : IWord) : Scope :=
  match w.immBits 25 23 with | 0 => .grp | 1 => .team | 2 => .die | 3 => .dev | _ => .sys
/-- The modifier of LDI, STI, LDSI and STSI is accepted (R145, Table 3.15). -/
def immMemOk (os : List Order) (w : IWord) : Bool :=
  os.contains (immOrder w) && (immTy w ≠ .b128 || immOrder w = .weak) && immScopeOk w
/-- Every field but the guard is zero (R199). -/
def iZero (w : IWord) : Bool := w.d = 0 && w.mod10 = 0 && w.imm = 0

/-- Requirements of each I-form opcode (Table 1.7b, R34, R145, R183, R190, R191, R199). -/
def iReq (op : Nat) : Option IReq :=
  match op with
  | 0x00 => some { rsvd := fun w => w.mod10 = 0, md := fun _ => true }
  | 0x01 | 0x02 | 0x03 | 0x04 => some { rsvd := mod9ok, md := fun _ => true }
  | 0x05 => some { rsvd := fun w => small w.d 4 && mod9ok w && w.immBits 26 23 = 0
                   md := fun w => w.immBits 31 28 ≤ 5 }
  | 0x06 | 0x08 => some { rsvd := mod9ok, md := immMemOk [.weak, .strong, .acq] }
  | 0x07 | 0x09 => some { rsvd := mod9ok, md := immMemOk [.weak, .strong, .rel] }
  | 0x10 => some { rsvd := fun w => w.d = 0 && w.mod10 = 0, md := fun _ => true }
  | 0x11 => some { rsvd := fun w => w.mod10 = 0, md := fun _ => true }
  | 0x12 | 0x13 => some { rsvd := fun w => w.d = 0 && mod9ok w && w.imm = 0, md := fun _ => true }
  | 0x14 => some { rsvd := fun w => mod9ok w && w.imm = 0, md := fun _ => true }
  | 0x15 | 0x16 | 0x17 | 0x1F | 0x20 => some { rsvd := iZero, md := fun _ => true }
  | 0x18 => some { rsvd := fun w => w.d = 0 && w.mod10 = 0 && w.immBits 31 16 = 0, md := fun _ => true }
  | 0x19 => some { rsvd := fun w => w.d = 0
                   md := fun w => [Ty.b32, .i32, .b64, .i64].contains (immTy w)
                     && [Order.weak, .strong, .acq].contains (immOrder w) && immScopeOk w }
  | 0x1A => some { rsvd := fun _ => true
                   md := fun w => [Ty.b32, .i32, .b64, .i64].contains (immTy w)
                     && [Order.weak, .strong, .acq].contains (immOrder w) && immScopeOk w }
  | 0x1B | 0x1C => some { rsvd := fun w => w.d = 0 && w.mod10 = 0 && w.immBits 15 4 = 0 && w.immBits 31 29 = 0
                          md := fun _ => true }
  | 0x1D | 0x1E => some { rsvd := fun w => w.d = 0 && w.mod10 = 0 && w.immBits 31 4 = 0, md := fun _ => true }
  | _ => none

/-- Access of a CSR number (Table 8.7, R307); `none` for a number not in the table. -/
inductive CsrAccess where
  | ro | rw | w1c
deriving DecidableEq, Repr

def csrAccess (n : Nat) : Option CsrAccess :=
  if n = 0x000 || n = 0x027 then some .w1c
  else if n = 0x001 || n = 0x008 || n = 0x009 || n = 0x012 || n = 0x026 then some .ro
  else if n = 0x010 || n = 0x011 || n = 0x020 || n = 0x021 || n = 0x024 || n = 0x025 then some .rw
  else if 0x040 ≤ n && n < 0x070 then some .ro
  else none

/-- Requirements of one E-form opcode. -/
structure EReq where
  rsvd : EWord → Bool
  md   : EWord → Bool

/-- Slots `k+1` to 5 are zero. -/
def EWord.zeroFrom (w : EWord) (k : Nat) : Bool :=
  (k ≥ 1 || w.o1 = 0) && (k ≥ 2 || w.o2 = 0) && (k ≥ 3 || w.o3 = 0) && (k ≥ 4 || w.o4 = 0) && (k ≥ 5 || w.o5 = 0)

/-- An entry that uses slots 1 to `k` and FL when `fl`; `md` checks its immediates. -/
def ePlain (fl : Bool) (k : Nat) (md : EWord → Bool := fun _ => true) : EReq :=
  { rsvd := fun w => (fl || !w.fl) && w.zeroFrom k, md }

/-- Requirements of each E-form opcode (Tables 5.7, 7.7, 8.11, 9.7, 10.6, 11.8, 12.15, 13.7). -/
def eReq (op : Nat) : Option EReq :=
  match op with
  | 0x00 | 0x02 | 0x03 => some (ePlain false 5)
  | 0x01 => some (ePlain false 3)
  | 0x10 => some (ePlain false 2 fun w => small w.o1 4)
  | 0x11 => some { rsvd := fun w => small w.o1 5 && small w.o2 8 && small w.o4 7, md := fun _ => true }
  | 0x12 => some { rsvd := fun w => !w.fl && small w.o1 5 && small w.o2 8 && small w.o4 7, md := fun _ => true }
  | 0x13 => some { rsvd := fun w => small w.o1 5 && w.o2 = 0 && small w.o4 4 && w.o5 = 0, md := fun _ => true }
  | 0x14 | 0x17 | 0x18 => some { rsvd := fun w => !w.fl && small w.o1 5 && w.o2 = 0 && small w.o4 4, md := fun _ => true }
  | 0x15 => some { rsvd := fun w => small w.o1 5 && (w.fl || w.o2 = 0) && small w.o4 4
                   md := fun w => (!w.fl || (w.o1.toNat % 2 = 0 && 2 ≤ w.o2.toNat && w.o2.toNat ≤ 8)) }
  | 0x16 => some { ePlain false 4 with rsvd := fun w => !w.fl && small w.o2 5 && w.zeroFrom 4 }
  | 0x19 => some { rsvd := fun w => small w.o1 5 && w.o2 = 0 && small w.o4 4, md := fun _ => true }
  | 0x1A => some { rsvd := fun w => !w.fl && small w.o1 5 && w.o2 = 0 && w.o3 = 0 && small w.o4 4, md := fun _ => true }
  | 0x1B => some { ePlain false 2 with rsvd := fun w => !w.fl && small w.o2 5 && w.zeroFrom 2 }
  | 0x20 => some (ePlain false 1)
  | 0x21 => some (ePlain false 5)
  | 0x22 | 0x23 => some (ePlain false 3)
  | 0x24 | 0x25 | 0x26 | 0x27 => some (ePlain false 4)
  | 0x28 | 0x29 => some (ePlain false 2 fun w => small w.o2 6)
  | 0x30 | 0x31 => some (ePlain false 1 fun w => small w.o1 3)
  | 0x32 => some (ePlain true 3 fun w => 2 ≤ w.o3.toNat && w.o3.toNat ≤ 4)
  | 0x33 => some (ePlain false 5)
  | 0x34 => some (ePlain false 2 fun w => small w.o2 3)
  | 0x35 => some (ePlain false 4 fun w => small w.o2 3 && small w.o3 3)
  | 0x40 | 0x41 | 0x42 | 0x43 => some (ePlain false 2)
  | 0x44 => some (ePlain false 3 fun w => w.o3.toNat ≤ 13)
  | 0x50 => some (ePlain false 4)
  | 0x51 | 0x52 => some (ePlain false 2)
  | 0x53 => some (ePlain true 3)
  | 0x54 => some { rsvd := fun w => w.o4 = 0 && w.o5 = 0 && (!w.fl || (w.o2 = 0 && w.o3 = 0))
                   md := fun w => small w.o1 3 && (w.fl || (1 ≤ w.o3.toNat && w.o3.toNat ≤ 8)) }
  | 0x55 => some (ePlain false 2 fun w => small w.o1 3)
  | 0x60 => some (ePlain false 3 fun w => small w.o3 6)
  | 0x61 => some (ePlain true 1)
  | 0x62 => some (ePlain true 0)
  | 0x63 => some (ePlain false 2)
  | 0x70 | 0x77 => some (ePlain false 1)
  | 0x71 => some (ePlain true 0)
  | 0x72 => some (ePlain false 3 fun w => small w.o2 4 && small w.o3 4)
  | 0x73 => some (ePlain false 3 fun w => small w.o1 4 && (w.o2.toNat = 4 || (8 ≤ w.o2.toNat && w.o2.toNat ≤ 15)))
  | 0x74 => some (ePlain false 1 fun w => w.o1.toNat ≤ 23)
  | 0x75 => some (ePlain false 2 fun w => (csrAccess w.o2.toNat).isSome)
  | 0x76 => some (ePlain false 2 fun w => csrAccess w.o1.toNat = some .rw || csrAccess w.o1.toNat = some .w1c)
  | 0x78 => some (ePlain false 3 fun w => w.o2.toNat ≤ 2)
  | 0x79 => some (ePlain false 4 fun w => small w.o4 6)
  | _ => none

/-- Type, rounding and F0 values of a P-form slot opcode (Table 2.10). -/
def slotOk (s : PSlot) : Bool :=
  match s.op with
  | .empty => true
  | .iadd | .isub | .shl | .shr | .sar => [Ty.b32, .i32, .b16x2, .i16x2].contains s.ty && s.rnd = .rne
  | .imin | .imax | .andS | .orS | .xorS => [Ty.b32, .i32, .b16x2, .i16x2].contains s.ty && s.rnd = .rne && !s.f0
  | .mov => s.ty = .b32 && s.rnd = .rne && !s.f0
  | .fadd | .fsub | .fmul => [Ty.f32, .f16x2, .bf16x2].contains s.ty
  | .fmin | .fmax => [Ty.f32, .f16x2, .bf16x2].contains s.ty && s.rnd = .rne && !s.f0
  | .fsgn => [Ty.f32, .f16x2, .bf16x2].contains s.ty && s.rnd = .rne

/-- Every field of an empty slot is zero (R31). -/
def slotRsvd (s : PSlot) : Bool :=
  s.op ≠ .empty || (s.da = 0 && s.b = 0 && s.ty = .b32 && s.rnd = .rne && !s.f0)

/-- Requirements of each F-form opcode with the arithmetic layout (Tables 1.10, 2.5, 2.6, 2.9, 4.8, 6.2). -/
def fReq (op : Nat) : Option FReq :=
  match op with
  | 0x001 => some (fPlain [.b32, .i32, .b16x2, .i16x2, .b8x4, .i8x4, .b64, .i64] false [0,1] (cZero)) -- IADD
  | 0x002 => some (fPlain [.b32, .i32, .b16x2, .i16x2, .b8x4, .i8x4, .b64, .i64] false [0,1] (cZero)) -- ISUB
  | 0x003 => some (fPlain [.b32, .i32, .b16x2, .i16x2, .b64, .i64] false [0] (cZero)) -- IMUL
  | 0x004 => some (fPlain [.b32, .i32] false [0] (cZero)) -- IMULHI
  | 0x005 => some (fPlain [.b32, .i32] false [0] (cZero)) -- IMULW
  | 0x006 => some (fPlain [.b32, .i32, .b16x2, .i16x2] false [0,1] (fun _ => true)) -- IMAD
  | 0x007 => some (fPlain [.b32, .i32, .b16x2, .i16x2, .b8x4, .i8x4, .b64, .i64] false [0] (cZero)) -- IMIN
  | 0x008 => some (fPlain [.b32, .i32, .b16x2, .i16x2, .b8x4, .i8x4, .b64, .i64] false [0] (cZero)) -- IMAX
  | 0x009 => some (fPlain [.b32, .i32, .b16x2, .i16x2, .b8x4, .i8x4] false [0] (cZero)) -- IABSD
  | 0x00A => some (fPlain [.b8x4, .i8x4] false [0,1] (fun _ => true)) -- IDOT4
  | 0x010 => some (fPlain [.b32, .i32, .b16x2, .i16x2, .b8x4, .i8x4, .b64, .i64] false [0] (cZero)) -- AND
  | 0x011 => some (fPlain [.b32, .i32, .b16x2, .i16x2, .b8x4, .i8x4, .b64, .i64] false [0] (cZero)) -- OR
  | 0x012 => some (fPlain [.b32, .i32, .b16x2, .i16x2, .b8x4, .i8x4, .b64, .i64] false [0] (cZero)) -- XOR
  | 0x013 => some (fPlain [.b32, .i32, .b16x2, .i16x2, .b8x4, .i8x4, .b64, .i64] false [0] (cZero)) -- ANDN
  | 0x014 => some (fPlain [.b32, .i32, .b16x2, .i16x2, .b64, .i64] false [0,1] (cZero)) -- SHL
  | 0x015 => some (fPlain [.b32, .i32, .b16x2, .i16x2, .b64, .i64] false [0,1] (cZero)) -- SHR
  | 0x016 => some (fPlain [.b32, .i32, .b16x2, .i16x2, .b64, .i64] false [0,1] (cZero)) -- SAR
  | 0x017 => some (fPlain [.b32] false [0,1,2] (fun _ => true)) -- FSHF
  | 0x018 => some (fPlain [.b32, .i32, .b64, .i64] false [0] (fun _ => true)) -- BFE
  | 0x019 => some (fPlain [.b32, .b64] false [0] (fun _ => true)) -- BFI
  | 0x01A => some (fPlain [.b32, .b64] false [0] (bcZero)) -- POPC
  | 0x01B => some (fPlain [.b32, .b64] false [0] (bcZero)) -- CLZ
  | 0x01C => some (fPlain [.b32, .b64] false [0] (bcZero)) -- BREV
  | 0x01D => some (fPlain [.b32] false [0,1,2,3] (fun w => if w.fl % 4 = 1 then w.b = 0 && w.c = 0 else if w.fl % 4 = 3 then w.b = 0 else true)) -- PRMT
  | 0x020 => some (fPlain [.b32, .i32, .b64, .i64] false [0,1,2,3,4,5] (fun w => small w.d 4 && small w.c 6)) -- ISETP
  | 0x021 => some (fPlain [.b32] false [0,1,2,3,4] (fun w => small w.d 4 && small w.a 5 && small w.b 5 && small w.c 5)) -- PSETP
  | 0x022 => some (fPlain [.b32, .b64] false [0] (fun w => small w.c 5)) -- SEL
  | 0x023 => some (fPlain [.b32, .b64, .b128] false [0] (bcZero)) -- MOV
  | 0x024 => some (fPlain [.b32, .i32, .b64, .i64] false [0,1,2,3,4,5,6,7] (cZero)) -- LEA
  | 0x025 => some (fPlain [.b32] false [0,1,2,3] (fun w => small w.c 4)) -- IADDC
  | 0x026 => some (fPlain [.b32] false [0,1,2] (fun w => w.c = 0 && if w.f0 then small w.a 3 && w.b = 0 else small w.d 3)) -- MOVIX
  | 0x080 => some (fPlain [.f32, .f16x2, .bf16x2] true [0,1] (cZero)) -- FADD
  | 0x081 => some (fPlain [.f32, .f16x2, .bf16x2] true [0,1] (cZero)) -- FSUB
  | 0x082 => some (fPlain [.f32, .f16x2, .bf16x2] true [0,1] (cZero)) -- FMUL
  | 0x083 => some (fPlain [.f32, .f16x2, .bf16x2] true [0,1] (fun _ => true)) -- FFMA
  | 0x084 => some (fPlain [.f32, .f16x2, .bf16x2] false [0] (cZero)) -- FMIN
  | 0x085 => some (fPlain [.f32, .f16x2, .bf16x2] false [0] (cZero)) -- FMAX
  | 0x086 => some (fPlain [.f32, .f16x2, .bf16x2] false [0,1,2] (cZero)) -- FSGN
  | 0x087 => some (fPlain [.f32] false [0,1,2,3,4,5,6,7] (fun w => small w.d 4 && small w.c 6)) -- FSETP
  | 0x088 => some (fPlain [.f32, .f16x2, .bf16x2] false [0] (bcZero)) -- FCLASS
  | 0x089 => some (fPlain [.f32, .f16x2, .bf16x2] true [0] (bcZero)) -- FRND
  | 0x08A => some (fPlain [.f32, .f16x2, .bf16x2] true [0] (cZero)) -- FSCALE
  | 0x08B => some (fPlain [.f32, .f16x2, .bf16x2] false [0,1] (bcZero)) -- FXTR
  | 0x08C => some (fPlain [.f16x2, .bf16x2] true [0,1] (fun _ => true)) -- FDOT2
  | 0x100 => some { rsvd := fun w => small w.c 4 && (cvtUsesB w || w.b = 0), md := cvtOk } -- CVT
  | 0x101 => some (fPlain [.i16x2, .b16x2, .i8x4, .b8x4] false [0,1] (cZero)) -- PACK
  | 0x102 => some (fPlain [.i16x2, .b16x2, .i8x4, .b8x4] false [0,1] (bcZero)) -- UNPK
  | 0x140 => some (fPlain [.f32, .f16x2, .bf16x2] false [0] (bcZero)) -- RCP
  | 0x141 => some (fPlain [.f32, .f16x2, .bf16x2] false [0] (bcZero)) -- RSQRT
  | 0x142 => some (fPlain [.f32, .f16x2, .bf16x2] false [0] (bcZero)) -- SQRT
  | 0x143 => some (fPlain [.f32, .f16x2, .bf16x2] false [0] (bcZero)) -- EXP2
  | 0x144 => some (fPlain [.f32, .f16x2, .bf16x2] false [0] (bcZero)) -- LOG2
  | 0x145 => some (fPlain [.f32] false [0] (bcZero)) -- SINPI
  | 0x146 => some (fPlain [.f32] false [0] (bcZero)) -- COSPI
  | 0x147 => some (fPlain [.f32] false [0] (bcZero)) -- SCPI
  | 0x148 => some (fPlain [.f32, .f16x2, .bf16x2] false [0] (bcZero)) -- TANH
  | 0x149 => some (fPlain [.f32] true [0] (cZero)) -- FDIV
  | 0x14A => some (fPlain [.f32, .f16x2, .bf16x2] false [0] (cZero)) -- EXD
  | 0x1C0 => some (fPlain [.b32, .b64] false [0,1,2,3,4,5,6,7] (fun w => small w.c 4)) -- SHFL
  | 0x1C1 => some { rsvd := fun w => small w.a 5 && w.b = 0 && (if voteMode w = 2 then small w.c 4 else w.c = 0) && (voteMode w < 2 || small w.d 4), md := fun w => w.rnd = .rne && w.ty = (if voteMode w = 0 then .b64 else .b32) } -- VOTE
  | 0x1C2 => some { rsvd := fun w => w.b = 0 && small w.c 3, md := fun w => gredOk w && (w.fl = 0 || w.fl = 4) } -- GRED
  | 0x1C3 => some { rsvd := fun w => w.b = 0 && small w.c 3, md := fun w => gredOk w && (w.fl = 0 || w.fl = 1 || w.fl = 4 || w.fl = 5) } -- GSCAN
  | 0x1C4 => some (fPlain [.b32, .b64] false [0,4] (bcZero)) -- MATCH
  | 0x1C5 => some (fPlain [.b32] false [0,4] (fun w => small w.d 4 && w.a = 0 && w.b = 0 && w.c = 0)) -- ELECT
  | 0x1C6 => some (fPlain [.b32] false [0,1] (fun w => w.a = 0 && w.b = 0 && w.c = 0)) -- ACTMASK
  | 0x1C7 => some (fPlain [.b32] false [0,1] (fun w => w.b = 0 && small w.c 4)) -- QTRY
  | _ => none

/-- Constructor of each F-form opcode with the arithmetic layout (R50). -/
def mkF (op : Nat) (w : FWord) : Option Instr :=
  match op with
  | 0x001 => some (.iadd w)
  | 0x002 => some (.isub w)
  | 0x003 => some (.imul w)
  | 0x004 => some (.imulhi w)
  | 0x005 => some (.imulw w)
  | 0x006 => some (.imad w)
  | 0x007 => some (.imin w)
  | 0x008 => some (.imax w)
  | 0x009 => some (.iabsd w)
  | 0x00A => some (.idot4 w)
  | 0x010 => some (.andW w)
  | 0x011 => some (.orW w)
  | 0x012 => some (.xorW w)
  | 0x013 => some (.andn w)
  | 0x014 => some (.shl w)
  | 0x015 => some (.shr w)
  | 0x016 => some (.sar w)
  | 0x017 => some (.fshf w)
  | 0x018 => some (.bfe w)
  | 0x019 => some (.bfi w)
  | 0x01A => some (.popc w)
  | 0x01B => some (.clz w)
  | 0x01C => some (.brev w)
  | 0x01D => some (.prmt w)
  | 0x020 => some (.isetp w)
  | 0x021 => some (.psetp w)
  | 0x022 => some (.sel w)
  | 0x023 => some (.mov w)
  | 0x024 => some (.lea w)
  | 0x025 => some (.iaddc w)
  | 0x026 => some (.movix w)
  | 0x080 => some (.fadd w)
  | 0x081 => some (.fsub w)
  | 0x082 => some (.fmul w)
  | 0x083 => some (.ffma w)
  | 0x084 => some (.fmin w)
  | 0x085 => some (.fmax w)
  | 0x086 => some (.fsgn w)
  | 0x087 => some (.fsetp w)
  | 0x088 => some (.fclass w)
  | 0x089 => some (.frnd w)
  | 0x08A => some (.fscale w)
  | 0x08B => some (.fxtr w)
  | 0x08C => some (.fdot2 w)
  | 0x100 => some (.cvt w)
  | 0x101 => some (.pack w)
  | 0x102 => some (.unpk w)
  | 0x140 => some (.rcp w)
  | 0x141 => some (.rsqrt w)
  | 0x142 => some (.sqrt w)
  | 0x143 => some (.exp2 w)
  | 0x144 => some (.log2 w)
  | 0x145 => some (.sinpi w)
  | 0x146 => some (.cospi w)
  | 0x147 => some (.scpi w)
  | 0x148 => some (.tanh w)
  | 0x149 => some (.fdiv w)
  | 0x14A => some (.exd w)
  | 0x1C0 => some (.shfl w)
  | 0x1C1 => some (.vote w)
  | 0x1C2 => some (.gred w)
  | 0x1C3 => some (.gscan w)
  | 0x1C4 => some (.matchW w)
  | 0x1C5 => some (.elect w)
  | 0x1C6 => some (.actmask w)
  | 0x1C7 => some (.qtry w)
  | _ => none

/-- Constructor of each F-form opcode with the memory layout (R50). -/
def mkM (op : Nat) (w : MWord) : Option Instr :=
  match op with
  | 0x180 => some (.ld w)
  | 0x181 => some (.st w)
  | 0x182 => some (.lds w)
  | 0x183 => some (.sts w)
  | 0x184 => some (.ldv w)
  | 0x185 => some (.stv w)
  | 0x186 => some (.ldp w)
  | 0x187 => some (.stp w)
  | 0x188 => some (.atom w)
  | 0x189 => some (.acas w)
  | 0x18A => some (.red w)
  | 0x18B => some (.atoms w)
  | 0x18C => some (.atomp w)
  | 0x18D => some (.fence w)
  | 0x18E => some (.pfetch w)
  | _ => none

/-- Constructor of each I-form opcode (R51, Table 1.7b). -/
def mkI (op : Nat) (w : IWord) : Option Instr :=
  match op with
  | 0x000 => some (.movi w)
  | 0x001 => some (.iaddi w)
  | 0x002 => some (.andi w)
  | 0x003 => some (.ori w)
  | 0x004 => some (.xori w)
  | 0x005 => some (.isetpi w)
  | 0x006 => some (.ldi w)
  | 0x007 => some (.sti w)
  | 0x008 => some (.ldsi w)
  | 0x009 => some (.stsi w)
  | 0x010 => some (.bra w)
  | 0x011 => some (.call w)
  | 0x012 => some (.ret w)
  | 0x013 => some (.jmpi w)
  | 0x014 => some (.calli w)
  | 0x015 => some (.landpt w)
  | 0x016 => some (.exitW w)
  | 0x017 => some (.yield w)
  | 0x018 => some (.nap w)
  | 0x019 => some (.waitz w)
  | 0x01A => some (.waitne w)
  | 0x01B => some (.bar w)
  | 0x01C => some (.bararv w)
  | 0x01D => some (.cvsign w)
  | 0x01E => some (.cvwait w)
  | 0x01F => some (.tkn w)
  | 0x020 => some (.nop w)
  | _ => none

/-- Constructor of each E-form opcode (R51, Table 1.11). -/
def mkE (op : Nat) (w : EWord) : Option Instr :=
  match op with
  | 0x000 => some (.tcopy w)
  | 0x001 => some (.tkick w)
  | 0x002 => some (.tstore w)
  | 0x003 => some (.tgather w)
  | 0x010 => some (.omap w)
  | 0x011 => some (.mma w)
  | 0x012 => some (.mmas w)
  | 0x013 => some (.accz w)
  | 0x014 => some (.accld w)
  | 0x015 => some (.accst w)
  | 0x016 => some (.accrd w)
  | 0x017 => some (.accrow w)
  | 0x018 => some (.accrmax w)
  | 0x019 => some (.spcommit w)
  | 0x01A => some (.spdrop w)
  | 0x01B => some (.accver w)
  | 0x020 => some (.kvld w)
  | 0x021 => some (.kvapp w)
  | 0x022 => some (.seqcmt w)
  | 0x023 => some (.seqabort w)
  | 0x024 => some (.scoreadd w)
  | 0x025 => some (.topk w)
  | 0x026 => some (.kvnode w)
  | 0x027 => some (.kvcopy w)
  | 0x028 => some (.pgalloc w)
  | 0x029 => some (.pgfree w)
  | 0x030 => some (.rsenter w)
  | 0x031 => some (.rsleave w)
  | 0x032 => some (.publish w)
  | 0x033 => some (.retire w)
  | 0x034 => some (.gpsync w)
  | 0x035 => some (.gpstat w)
  | 0x040 => some (.claunch w)
  | 0x041 => some (.cstatus w)
  | 0x042 => some (.cabort w)
  | 0x043 => some (.cresume w)
  | 0x044 => some (.linkq w)
  | 0x050 => some (.subscr w)
  | 0x051 => some (.unsubscr w)
  | 0x052 => some (.carve w)
  | 0x053 => some (.msend w)
  | 0x054 => some (.ringset w)
  | 0x055 => some (.ringadv w)
  | 0x060 => some (.launch w)
  | 0x061 => some (.itemq w)
  | 0x062 => some (.drain w)
  | 0x063 => some (.ccadd w)
  | 0x070 => some (.trap w)
  | 0x071 => some (.rett w)
  | 0x072 => some (.rqrd w)
  | 0x073 => some (.rqwr w)
  | 0x074 => some (.causeclr w)
  | 0x075 => some (.csrrd w)
  | 0x076 => some (.csrwr w)
  | 0x077 => some (.bkpt w)
  | 0x078 => some (.setmode w)
  | 0x079 => some (.preempt w)
  | _ => none

/-- The form of an instruction word with its opcode and fields; a device step has no word. -/
inductive Form where
  | f (op : Nat) (w : FWord)
  | m (op : Nat) (w : MWord)
  | i (op : Nat) (w : IWord)
  | p (w : PWord)
  | e (op : Nat) (w : EWord)
  | step

/-- Form and opcode of each constructor (R50, R51). -/
def form (i : Instr) : Form :=
  match i with
  | .iadd w => .f 0x001 w
  | .isub w => .f 0x002 w
  | .imul w => .f 0x003 w
  | .imulhi w => .f 0x004 w
  | .imulw w => .f 0x005 w
  | .imad w => .f 0x006 w
  | .imin w => .f 0x007 w
  | .imax w => .f 0x008 w
  | .iabsd w => .f 0x009 w
  | .idot4 w => .f 0x00A w
  | .andW w => .f 0x010 w
  | .orW w => .f 0x011 w
  | .xorW w => .f 0x012 w
  | .andn w => .f 0x013 w
  | .shl w => .f 0x014 w
  | .shr w => .f 0x015 w
  | .sar w => .f 0x016 w
  | .fshf w => .f 0x017 w
  | .bfe w => .f 0x018 w
  | .bfi w => .f 0x019 w
  | .popc w => .f 0x01A w
  | .clz w => .f 0x01B w
  | .brev w => .f 0x01C w
  | .prmt w => .f 0x01D w
  | .isetp w => .f 0x020 w
  | .psetp w => .f 0x021 w
  | .sel w => .f 0x022 w
  | .mov w => .f 0x023 w
  | .lea w => .f 0x024 w
  | .iaddc w => .f 0x025 w
  | .movix w => .f 0x026 w
  | .fadd w => .f 0x080 w
  | .fsub w => .f 0x081 w
  | .fmul w => .f 0x082 w
  | .ffma w => .f 0x083 w
  | .fmin w => .f 0x084 w
  | .fmax w => .f 0x085 w
  | .fsgn w => .f 0x086 w
  | .fsetp w => .f 0x087 w
  | .fclass w => .f 0x088 w
  | .frnd w => .f 0x089 w
  | .fscale w => .f 0x08A w
  | .fxtr w => .f 0x08B w
  | .fdot2 w => .f 0x08C w
  | .cvt w => .f 0x100 w
  | .pack w => .f 0x101 w
  | .unpk w => .f 0x102 w
  | .pairWord w => .p w
  | .movi w => .i 0x000 w
  | .iaddi w => .i 0x001 w
  | .andi w => .i 0x002 w
  | .ori w => .i 0x003 w
  | .xori w => .i 0x004 w
  | .isetpi w => .i 0x005 w
  | .ldi w => .i 0x006 w
  | .sti w => .i 0x007 w
  | .ldsi w => .i 0x008 w
  | .stsi w => .i 0x009 w
  | .bra w => .i 0x010 w
  | .call w => .i 0x011 w
  | .ret w => .i 0x012 w
  | .jmpi w => .i 0x013 w
  | .calli w => .i 0x014 w
  | .landpt w => .i 0x015 w
  | .exitW w => .i 0x016 w
  | .yield w => .i 0x017 w
  | .nap w => .i 0x018 w
  | .waitz w => .i 0x019 w
  | .waitne w => .i 0x01A w
  | .bar w => .i 0x01B w
  | .bararv w => .i 0x01C w
  | .cvsign w => .i 0x01D w
  | .cvwait w => .i 0x01E w
  | .tkn w => .i 0x01F w
  | .nop w => .i 0x020 w
  | .ld w => .m 0x180 w
  | .st w => .m 0x181 w
  | .lds w => .m 0x182 w
  | .sts w => .m 0x183 w
  | .ldv w => .m 0x184 w
  | .stv w => .m 0x185 w
  | .ldp w => .m 0x186 w
  | .stp w => .m 0x187 w
  | .atom w => .m 0x188 w
  | .acas w => .m 0x189 w
  | .red w => .m 0x18A w
  | .atoms w => .m 0x18B w
  | .atomp w => .m 0x18C w
  | .fence w => .m 0x18D w
  | .pfetch w => .m 0x18E w
  | .shfl w => .f 0x1C0 w
  | .vote w => .f 0x1C1 w
  | .gred w => .f 0x1C2 w
  | .gscan w => .f 0x1C3 w
  | .matchW w => .f 0x1C4 w
  | .elect w => .f 0x1C5 w
  | .actmask w => .f 0x1C6 w
  | .qtry w => .f 0x1C7 w
  | .rcp w => .f 0x140 w
  | .rsqrt w => .f 0x141 w
  | .sqrt w => .f 0x142 w
  | .exp2 w => .f 0x143 w
  | .log2 w => .f 0x144 w
  | .sinpi w => .f 0x145 w
  | .cospi w => .f 0x146 w
  | .scpi w => .f 0x147 w
  | .tanh w => .f 0x148 w
  | .fdiv w => .f 0x149 w
  | .exd w => .f 0x14A w
  | .tcopy w => .e 0x000 w
  | .tkick w => .e 0x001 w
  | .tstore w => .e 0x002 w
  | .tgather w => .e 0x003 w
  | .omap w => .e 0x010 w
  | .mma w => .e 0x011 w
  | .mmas w => .e 0x012 w
  | .accz w => .e 0x013 w
  | .accld w => .e 0x014 w
  | .accst w => .e 0x015 w
  | .accrd w => .e 0x016 w
  | .accrow w => .e 0x017 w
  | .accrmax w => .e 0x018 w
  | .spcommit w => .e 0x019 w
  | .spdrop w => .e 0x01A w
  | .accver w => .e 0x01B w
  | .kvld w => .e 0x020 w
  | .kvapp w => .e 0x021 w
  | .seqcmt w => .e 0x022 w
  | .seqabort w => .e 0x023 w
  | .scoreadd w => .e 0x024 w
  | .topk w => .e 0x025 w
  | .kvnode w => .e 0x026 w
  | .kvcopy w => .e 0x027 w
  | .pgalloc w => .e 0x028 w
  | .pgfree w => .e 0x029 w
  | .rsenter w => .e 0x030 w
  | .rsleave w => .e 0x031 w
  | .publish w => .e 0x032 w
  | .retire w => .e 0x033 w
  | .gpsync w => .e 0x034 w
  | .gpstat w => .e 0x035 w
  | .claunch w => .e 0x040 w
  | .cstatus w => .e 0x041 w
  | .cabort w => .e 0x042 w
  | .cresume w => .e 0x043 w
  | .linkq w => .e 0x044 w
  | .subscr w => .e 0x050 w
  | .unsubscr w => .e 0x051 w
  | .carve w => .e 0x052 w
  | .msend w => .e 0x053 w
  | .ringset w => .e 0x054 w
  | .ringadv w => .e 0x055 w
  | .launch w => .e 0x060 w
  | .itemq w => .e 0x061 w
  | .drain w => .e 0x062 w
  | .ccadd w => .e 0x063 w
  | .trap w => .e 0x070 w
  | .rett w => .e 0x071 w
  | .rqrd w => .e 0x072 w
  | .rqwr w => .e 0x073 w
  | .causeclr w => .e 0x074 w
  | .csrrd w => .e 0x075 w
  | .csrwr w => .e 0x076 w
  | .bkpt w => .e 0x077 w
  | .setmode w => .e 0x078 w
  | .preempt w => .e 0x079 w
  | .illegalWord .. => .step
  | .trapEntry .. => .step
  | .pageResponse .. => .step
  | .parkedShareSwitch .. => .step
  | .teamSave .. => .step
  | .teamRestore .. => .step
  | .redMerge .. => .step
  | .fairnessDue .. => .step
  | .stampRenumber .. => .step
  | .napExpire .. => .step
  | .waitReread .. => .step
  | .itemAssign .. => .step
  | .qtailWrite .. => .step
  | .qpushWrite .. => .step
  | .qpushComplete .. => .step
  | .takeRecord .. => .step
  | .depRead .. => .step
  | .launchBegin .. => .step
  | .placeTeam .. => .step
  | .teamRetire .. => .step
  | .launchEnd .. => .step
  | .watchdogExpire .. => .step
  | .lctlDrain .. => .step
  | .lctlAbort .. => .step
  | .lctlReleaseReserve .. => .step
  | .prectlGo .. => .step
  | .preemptDone .. => .step
  | .dbgHalt .. => .step
  | .dbgResume .. => .step
  | .dbgStep .. => .step
  | .dbgFreeze .. => .step
  | .dbgThaw .. => .step
  | .dbgSnapshot .. => .step
  | .dbgAttach .. => .step
  | .dbgDetach .. => .step
  | .registerWrite .. => .step
  | .carveSwitch .. => .step
  | .subscrMirrorComplete .. => .step
  | .subUpdateApply .. => .step
  | .atsInvalidation .. => .step
  | .invalidationCompletion .. => .step
  | .msgDeliver .. => .step
  | .hostMemAccess .. => .step
  | .hostSnoop .. => .step
  | .hlcEvict .. => .step
  | .copyAccept .. => .step
  | .copyRetire .. => .step
  | .tkickRecordStart .. => .step
  | .matrixQueueIssue .. => .step
  | .matrixStart .. => .step
  | .matrixRetire .. => .step
  | .accrdRead .. => .step
  | .gpStart .. => .step
  | .gpFlipDone .. => .step
  | .gpComplete .. => .step
  | .retireRelease .. => .step
  | .domcfgWrite .. => .step
  | .podReq .. => .step
  | .podFlip .. => .step
  | .podFack .. => .step
  | .podQuiet .. => .step
  | .podDone .. => .step
  | .kvPacketAccept .. => .step
  | .kvBlockWrite .. => .step
  | .kvFaultRecord .. => .step
  | .kfqresWrite .. => .step
  | .collJoin .. => .step
  | .collStart .. => .step
  | .collPause .. => .step
  | .collBitmap .. => .step
  | .collResumeMsg .. => .step
  | .collReport .. => .step
  | .collFinish .. => .step
  | .collFail .. => .step
  | .collAbortMsg .. => .step
  | .chunkData .. => .step
  | .linkUp .. => .step
  | .linkDown .. => .step
  | .linkStateFlit .. => .step
  | .portDown .. => .step
  | .portUp .. => .step
  | .cxlCacheTimeout .. => .step
  | .featureCommit .. => .step
  | .pstateRequest .. => .step
  | .pstateChangeDone .. => .step
  | .cgateWrite .. => .step
  | .coreUngateDone .. => .step
  | .thermalWarning .. => .step
  | .thermalTrip .. => .step
  | .securityAlarm .. => .step
  | .secpolWrite .. => .step
  | .conventionalReset .. => .step
  | .getVersion .. => .step
  | .getCapabilities .. => .step
  | .negotiateAlgorithms .. => .step
  | .getDigests .. => .step
  | .getCertificate .. => .step
  | .challenge .. => .step
  | .getMeasurements .. => .step
  | .keyExchange .. => .step
  | .spdmFinish .. => .step
  | .softError .. => .step
  | .powerLoss .. => .step
  | .translationCompletion .. => .step
  | .birsp .. => .step
  | .cxlCacheResponse .. => .step
  | .accessReply .. => .step
  | .copyTransfer .. => .step
  | .ideKmRequest .. => .step

end Sys2Proof
end

