-- ==== Sys2Proof/WellFormed.lean ====
section
/-!
DEFINITION. Which terms of `Instr` stand for an instruction word that decodes, and which parameters a device step can
carry. A word instruction is well formed when it passes every check of Table 1.12 but FEAT, which depends on the state.
-/
namespace Sys2Proof

/-- GN = 1 with GP = 0 is no guard (R36). -/
def Guard.ok (g : Guard) : Bool := !(g.gn && g.gp = 0)

/-- Opcodes of the F-form that may carry a nonzero LA (R38). -/
def laFree (op : Nat) : Bool := (0x140 ≤ op && op ≤ 0x14A) || (0x180 ≤ op && op ≤ 0x18E)

/-- A thread identity lies on the chip (R153). -/
def ThreadId.ok (t : ThreadId) : Bool := t.core < Config.cores && t.qtr < 4 && t.row < 32 && t.lane < 64

/-- Parameters a device step can carry: every named unit exists on the chip. -/
def stepOk (i : Instr) : Bool :=
  match i with
  | .illegalWord sub => sub < 8
  | .trapEntry t | .napExpire t | .waitReread t | .itemAssign t | .dbgStep t | .copyAccept t | .accrdRead t
  | .kvPacketAccept t | .accessReply t _ => t.ok
  | .pageResponse pasid .. | .translationCompletion pasid .. | .atsInvalidation pasid .. => pasid < 2 ^ 20
  | .parkedShareSwitch core | .dbgFreeze core | .dbgThaw core | .coreUngateDone core | .placeTeam _ core
  | .teamRestore _ core | .redMerge core _ | .msgDeliver core _ => core < Config.cores
  | .teamSave core slot | .teamRetire core slot => core < Config.cores && slot < 1024
  | .fairnessDue core qtr .. | .stampRenumber core qtr => core < Config.cores && qtr < 4
  | .matrixQueueIssue core slot cv qtr => core < Config.cores && slot < 1024 && cv < 16 && qtr < 4
  | .matrixStart core qtr idx | .matrixRetire core qtr idx => core < Config.cores && qtr < 4 && idx < 8
  | .copyRetire core idx | .tkickRecordStart core idx | .kvBlockWrite core idx | .kvFaultRecord core idx
  | .copyTransfer core idx => core < Config.cores && idx < 16
  | .subscrMirrorComplete core h | .subUpdateApply core h => core < Config.cores && h < 8
  | .qtailWrite q _ | .qpushWrite q _ | .qpushComplete q | .takeRecord q | .lctlReleaseReserve q => q < 64
  | .depRead lslot j => lslot < Config.launchSlots && j < 4
  | .launchBegin l | .launchEnd l | .watchdogExpire l | .lctlDrain l | .lctlAbort l | .dbgHalt l | .dbgResume l
  | .dbgAttach l | .dbgDetach l => l < Config.launchSlots
  | .carveSwitch die | .pstateRequest die _ | .pstateChangeDone die | .cgateWrite die _ => die < Config.dies
  | .gpStart d | .gpFlipDone d | .gpComplete d | .retireRelease d | .domcfgWrite d _ | .podReq d _ | .podFlip d _
  | .podFack d .. | .podQuiet d .. | .podDone d _ => d < 8
  | .linkUp k p q => k < 12 && p < 256 && q < 12
  | .linkDown k => k < 12
  | .linkStateFlit k o _ es => k < 12 && o < 256 && es.length = 12
  | .portDown p | .portUp p | .ideKmRequest p _ => p < 2
  | .securityAlarm src => src < 4
  | .chunkData _ _ _ _ src _ _ | .collBitmap _ _ src _ | .collReport _ _ src | .collAbortMsg _ src => src < 256
  | .collPause _ src | .collResumeMsg _ src => src.chip < 256
  | .collJoin j => j.src < 256 && j.part < 2 ^ 256
  | _ => true

/-- The term stands for an instruction word that passes the ILL checks of its entry, or for a step that can occur. -/
def Instr.wf (i : Instr) : Bool :=
  match form i with
  | .f op w => w.g.ok && (laFree op || w.la = 0) && (fReq op).any fun r => r.rsvd w && r.md w
  | .m op w => w.g.ok && (mReq op).any fun r => r.rsvd w && r.md w
  | .i op w => w.g.ok && (iReq op).any fun r => r.rsvd w && r.md w
  | .e op w => w.g.ok && (eReq op).any fun r => r.rsvd w && r.md w
  | .p w => slotRsvd w.slot0 && slotRsvd w.slot1 && slotOk w.slot0 && slotOk w.slot1
      && !(w.slot0.op = .empty && w.slot1.op = .empty)
  | .step => stepOk i

end Sys2Proof
end

