-- ==== Sys2Proof/Decode.lean ====
section
/-!
DEFINITION. The decoder of 64-bit instruction words (spec 01 R22-R38, R49-R54), total on any bytes and rejecting by the
sub-code of Table 1.12, and after it the encoder.
-/
namespace Sys2Proof

/-- Why a word is refused: the sub-codes of Table 1.12, in their order, and `short` for fewer than eight bytes. -/
inductive IllSub where
  | zero | opc | feat | guard | la | rsvd | mod | empty | short
deriving DecidableEq, Repr

/-- Sub-code number of Table 1.12. -/
def IllSub.code (s : IllSub) : Nat :=
  match s with
  | .zero => 0 | .opc => 1 | .feat => 2 | .guard => 3 | .la => 4 | .rsvd => 5 | .mod => 6 | .empty => 7 | .short => 8

/-- Rounding code (R24). -/
def Rnd.ofCode (c : Nat) : Rnd := match c % 4 with | 0 => .rne | 1 => .rz | 2 => .rd | _ => .ru
def Rnd.code (r : Rnd) : Nat := match r with | .rne => 0 | .rz => 1 | .rd => 2 | .ru => 3

/-- Order code (Table 1.4). -/
def Order.ofCode (c : Nat) : Order := match c % 4 with | 0 => .weak | 1 => .strong | 2 => .acq | _ => .rel
def Order.code (o : Order) : Nat := match o with | .weak => 0 | .strong => 1 | .acq => 2 | .rel => 3

/-- Scope code (Table 1.4); 101-111 are illegal. -/
def Scope.ofCode (c : Nat) : Option Scope :=
  match c % 8 with | 0 => some .grp | 1 => some .team | 2 => some .die | 3 => some .dev | 4 => some .sys | _ => none
def Scope.code (s : Scope) : Nat := match s with | .grp => 0 | .team => 1 | .die => 2 | .dev => 3 | .sys => 4

/-- P-form type code (Table 1.6); 111 is illegal. -/
def slotTyOfCode (c : Nat) : Option Ty :=
  match c % 8 with
  | 0 => some .b32 | 1 => some .i32 | 2 => some .b16x2 | 3 => some .i16x2 | 4 => some .f32 | 5 => some .f16x2
  | 6 => some .bf16x2 | _ => none
def slotTyCode (t : Ty) : Nat :=
  match t with
  | .b32 => 0 | .i32 => 1 | .b16x2 => 2 | .i16x2 => 3 | .f32 => 4 | .f16x2 => 5 | .bf16x2 => 6 | _ => 7

/-- P-form slot opcode (Table 1.11); 0x12-0x7F are unassigned. -/
def SlotOp.ofCode (c : Nat) : Option SlotOp :=
  match c with
  | 0x00 => some .empty | 0x01 => some .iadd | 0x02 => some .isub | 0x03 => some .imin | 0x04 => some .imax
  | 0x05 => some .andS | 0x06 => some .orS | 0x07 => some .xorS | 0x08 => some .shl | 0x09 => some .shr
  | 0x0A => some .sar | 0x0B => some .mov | 0x0C => some .fadd | 0x0D => some .fsub | 0x0E => some .fmul
  | 0x0F => some .fmin | 0x10 => some .fmax | 0x11 => some .fsgn | _ => none
def SlotOp.code (o : SlotOp) : Nat :=
  match o with
  | .empty => 0x00 | .iadd => 0x01 | .isub => 0x02 | .imin => 0x03 | .imax => 0x04 | .andS => 0x05 | .orS => 0x06
  | .xorS => 0x07 | .shl => 0x08 | .shr => 0x09 | .sar => 0x0A | .mov => 0x0B | .fadd => 0x0C | .fsub => 0x0D
  | .fmul => 0x0E | .fmin => 0x0F | .fmax => 0x10 | .fsgn => 0x11

/-- A field of a word, as a bit vector of its width. -/
def field (x lo n : Nat) : BitVec n := BitVec.ofNat n (x / 2 ^ lo)
/-- One bit of a word. -/
def flag (x k : Nat) : Bool := x / 2 ^ k % 2 = 1

def guardAt (x gnBit : Nat) : Guard := { gn := flag x gnBit, gp := field x (gnBit - 3) 3 }

/-- F-form fields with the arithmetic layout (Table 1.2, R24). -/
def fFields (x : Nat) : FWord :=
  { la := field x 49 4, g := guardAt x 48, d := field x 36 9, a := field x 27 9, b := field x 18 9, c := field x 9 9,
    ty := Ty.ofCode (x / 2 ^ 5), rnd := Rnd.ofCode (x / 2 ^ 3), f2 := flag x 2, f1 := flag x 1, f0 := flag x 0 }

/-- F-form fields with the memory layout (R26), with `sc` as scope. -/
def mFields (x : Nat) (sc : Scope) : MWord :=
  { la := field x 49 4, g := guardAt x 48, d := field x 36 9, a := field x 27 9, b := field x 18 9, c := field x 9 9,
    ty := Ty.ofCode (x / 2 ^ 5), order := Order.ofCode (x / 2 ^ 3), scope := sc }

/-- I-form fields (Table 1.7a). -/
def iFields (x : Nat) : IWord :=
  { g := guardAt x 54, d := field x 42 9, mod10 := field x 32 10, imm := field x 0 32 }

/-- E-form fields (R35). -/
def eFields (x : Nat) : EWord :=
  { la := field x 50 4, g := guardAt x 49, fl := flag x 45, o1 := field x 36 9, o2 := field x 27 9, o3 := field x 18 9,
    o4 := field x 9 9, o5 := field x 0 9 }

/-- One slot of a P-form word from its 31 bits (Table 1.5). -/
def slotFields (y : Nat) (op : SlotOp) (ty : Ty) : PSlot :=
  { op, da := field y 15 9, b := field y 6 9, ty, rnd := Rnd.ofCode (y / 2), f0 := flag y 0 }

/-- The first check that fails, in sub-code order (Table 1.12). -/
def gate (guard la rsvd md : Bool) (i : Option Instr) : Except IllSub Instr :=
  if !guard then .error .guard
  else if !la then .error .la
  else if !rsvd then .error .rsvd
  else if !md then .error .mod
  else match i with
    | some i => .ok i
    | none => .error .opc

def decodeF (x : Nat) : Except IllSub Instr :=
  let op := x / 2 ^ 53 % 512
  let w := fFields x
  match fReq op with
  | some r => gate w.g.ok (laFree op || w.la = 0) (r.rsvd w) (r.md w) (mkF op w)
  | none =>
    let sc := Scope.ofCode x
    let m := mFields x (sc.getD .grp)
    match mReq op with
    | some r => gate m.g.ok true (r.rsvd m) (sc.isSome && r.md m) (mkM op m)
    | none => .error .opc

def decodeI (x : Nat) : Except IllSub Instr :=
  let op := x / 2 ^ 55 % 128
  let w := iFields x
  match iReq op with
  | some r => gate w.g.ok true (r.rsvd w) (r.md w) (mkI op w)
  | none => .error .opc

def decodeE (x : Nat) : Except IllSub Instr :=
  let op := x / 2 ^ 54 % 256
  let w := eFields x
  match eReq op with
  | some r => gate w.g.ok true (r.rsvd w) (r.md w) (mkE op w)
  | none => .error .opc

def decodeP (x : Nat) : Except IllSub Instr :=
  let y0 := x / 2 ^ 31 % 2 ^ 31
  let y1 := x % 2 ^ 31
  match SlotOp.ofCode (y0 / 2 ^ 24), SlotOp.ofCode (y1 / 2 ^ 24) with
  | some p0, some p1 =>
    let t0 := slotTyOfCode (y0 / 2 ^ 3)
    let t1 := slotTyOfCode (y1 / 2 ^ 3)
    let s0 := slotFields y0 p0 (t0.getD .b128)
    let s1 := slotFields y1 p1 (t1.getD .b128)
    if !(slotRsvd s0 && slotRsvd s1) then .error .rsvd
    else if !(t0.isSome && t1.isSome && slotOk s0 && slotOk s1) then .error .mod
    else if p0 = .empty && p1 = .empty then .error .empty
    else .ok (.pairWord { slot0 := s0, slot1 := s1 })
  | _, _ => .error .opc

/-- Decode one instruction word (R22), all features taken as accepted. -/
def decodeWord (w : DWord) : Except IllSub Instr :=
  let x := w.toNat
  if x = 0 then .error .zero
  else match x / 2 ^ 62 % 4 with
    | 0 => decodeF x
    | 1 => decodeP x
    | 2 => decodeI x
    | _ => decodeE x

/-- The feature bit (Table 14.4) that gates an E-form opcode (Table 1.13). -/
def gatedOp (op : Nat) : Option Nat :=
  if op = 0x12 || op = 0x19 || op = 0x1A then some 2
  else if op = 0x50 || op = 0x51 then some 3
  else if op = 0x53 || op = 0x54 || op = 0x55 then some 4
  else if 0x40 ≤ op && op ≤ 0x44 then some 5
  else none

/-- Decode with the accepted feature word (R54): a gated opcode whose feature is not accepted is refused with FEAT,
which is a lower sub-code than those of its fields. -/
def decodeFor (features : Nat) (w : DWord) : Except IllSub Instr :=
  let x := w.toNat
  match if x / 2 ^ 62 % 4 = 3 then gatedOp (x / 2 ^ 54 % 256) else none with
  | some bit => if flag features bit then decodeWord w else .error .feat
  | none => decodeWord w

/-- Little-endian value of a list of bytes (R16). -/
def leValue (bs : List Byte) : Nat := bs.foldr (fun b acc => b.toNat + 256 * acc) 0

/-- The `n` little-endian bytes of a value (R16). -/
def leBytes (n v : Nat) : List Byte := (List.range n).map fun k => BitVec.ofNat 8 (v / 256 ^ k)

/-- Decode the word at the head of a list of bytes; the rest of the list is returned. -/
def decodeBytes (bs : List Byte) : Except IllSub (Instr × List Byte) :=
  if bs.length < 8 then .error .short
  else match decodeWord (BitVec.ofNat 64 (leValue (bs.take 8))) with
    | .ok i => .ok (i, bs.drop 8)
    | .error e => .error e

/-- The instruction the decoder reads from the first word of the table's numbering (bits above `nbits` are zero). -/
def decodeTableWord (nbits w : Nat) : Option Instr :=
  match decodeBytes (leBytes 8 (w % 2 ^ nbits)) with
  | .ok (i, _) => some i
  | .error _ => none

/-! ### Encoder -/

def Guard.enc (g : Guard) (gnBit : Nat) : Nat := g.gn.toNat * 2 ^ gnBit + g.gp.toNat * 2 ^ (gnBit - 3)

def FWord.enc (w : FWord) : Nat :=
  w.la.toNat * 2 ^ 49 + w.g.enc 48 + w.d.toNat * 2 ^ 36 + w.a.toNat * 2 ^ 27 + w.b.toNat * 2 ^ 18 + w.c.toNat * 2 ^ 9
    + w.ty.code * 2 ^ 5 + w.rnd.code * 2 ^ 3 + w.fl

def MWord.enc (w : MWord) : Nat :=
  w.la.toNat * 2 ^ 49 + w.g.enc 48 + w.d.toNat * 2 ^ 36 + w.a.toNat * 2 ^ 27 + w.b.toNat * 2 ^ 18 + w.c.toNat * 2 ^ 9
    + w.ty.code * 2 ^ 5 + w.order.code * 2 ^ 3 + w.scope.code

def IWord.enc (w : IWord) : Nat := w.g.enc 54 + w.d.toNat * 2 ^ 42 + w.mod10.toNat * 2 ^ 32 + w.imm.toNat

def EWord.enc (w : EWord) : Nat :=
  w.la.toNat * 2 ^ 50 + w.g.enc 49 + w.fl.toNat * 2 ^ 45 + w.o1.toNat * 2 ^ 36 + w.o2.toNat * 2 ^ 27
    + w.o3.toNat * 2 ^ 18 + w.o4.toNat * 2 ^ 9 + w.o5.toNat

def PSlot.enc (s : PSlot) : Nat :=
  s.op.code * 2 ^ 24 + s.da.toNat * 2 ^ 15 + s.b.toNat * 2 ^ 6 + slotTyCode s.ty * 2 ^ 3 + s.rnd.code * 2 + s.f0.toNat

/-- The word of an instruction (R22, R23, R28, R32, R35); a device step has none. -/
def encode (i : Instr) : Option DWord :=
  match form i with
  | .f op w => some (BitVec.ofNat 64 (op * 2 ^ 53 + w.enc))
  | .m op w => some (BitVec.ofNat 64 (op * 2 ^ 53 + w.enc))
  | .i op w => some (BitVec.ofNat 64 (2 * 2 ^ 62 + op * 2 ^ 55 + w.enc))
  | .p w => some (BitVec.ofNat 64 (2 ^ 62 + w.slot0.enc * 2 ^ 31 + w.slot1.enc))
  | .e op w => some (BitVec.ofNat 64 (3 * 2 ^ 62 + op * 2 ^ 54 + w.enc))
  | .step => none

end Sys2Proof
end

