-- ==== Sys2Proof/Machine/Flags.lean ====
section
/-!
DEFINITION. Floating-point formats, the one rounding of an exact value, and the sticky flags of %fpx
(spec 02 R67-R75, R96-R106).
-/
namespace Sys2Proof.Machine

/-- Sticky flags (Table 2.2): NV, DZ, OF, UF, NX in bits 0-4. -/
abbrev FFlags := BitVec 5
def fNV : FFlags := 0x01
def fDZ : FFlags := 0x02
def fOF : FFlags := 0x04
def fUF : FFlags := 0x08
def fNX : FFlags := 0x10

/-- A binary format: exponent and fraction widths, and whether subnormals are flushed (R68). -/
structure Fmt where
  ebits : Nat
  fbits : Nat
  flush : Bool
deriving DecidableEq, Repr

def Fmt.f32 : Fmt := { ebits := 8, fbits := 23, flush := false }
def Fmt.f16 : Fmt := { ebits := 5, fbits := 10, flush := false }
def Fmt.bf16 : Fmt := { ebits := 8, fbits := 7, flush := true }
/-- E5M2 has the shape of an f16's top byte (Table 9.2). -/
def Fmt.e5m2 : Fmt := { ebits := 5, fbits := 2, flush := false }

def Fmt.bias (f : Fmt) : Nat := 2 ^ (f.ebits - 1) - 1
/-- Exponent of the smallest normal value. -/
def Fmt.emin (f : Fmt) : Int := 1 - (f.bias : Int)
/-- Pattern of +inf. -/
def Fmt.inf (f : Fmt) : Nat := (2 ^ f.ebits - 1) * 2 ^ f.fbits
def Fmt.signBit (f : Fmt) : Nat := 2 ^ (f.ebits + f.fbits)
/-- Width of an element in bits. -/
def Fmt.width (f : Fmt) : Nat := 1 + f.ebits + f.fbits
/-- The canonical quiet NaN (R69). -/
def Fmt.nan (f : Fmt) : Nat := f.inf + 2 ^ (f.fbits - 1)
def Fmt.maxFin (f : Fmt) : Nat := f.inf - 1
/-- Pattern of 1.0. -/
def Fmt.one (f : Fmt) : Nat := f.bias * 2 ^ f.fbits
def Fmt.signed (f : Fmt) (neg : Bool) (b : Nat) : Nat := if neg then f.signBit + b else b

/-- An operand's value: a NaN, an infinity, or (-1)^neg × m × 2^e. -/
inductive FVal where
  | nan (signalling : Bool)
  | inf (neg : Bool)
  | fin (neg : Bool) (m : Nat) (e : Int)
deriving DecidableEq, Repr

/-- Value of a pattern without any flush. -/
def Fmt.valueOf (f : Fmt) (b : Nat) : FVal :=
  let neg := b / f.signBit % 2 = 1
  let ex := b / 2 ^ f.fbits % 2 ^ f.ebits
  let fr := b % 2 ^ f.fbits
  if ex = 2 ^ f.ebits - 1 then
    if fr = 0 then .inf neg else .nan (fr / 2 ^ (f.fbits - 1) = 0)
  else if ex = 0 then .fin neg fr (f.emin - f.fbits)
  else .fin neg (2 ^ f.fbits + fr) ((ex : Int) - f.bias - f.fbits)

/-- Value of an operand: a flushing format reads a subnormal as a zero of its sign (R68). -/
def Fmt.read (f : Fmt) (b : Nat) : FVal :=
  match f.valueOf b with
  | .fin neg m e => if f.flush && m < 2 ^ f.fbits then .fin neg 0 e else .fin neg m e
  | x => x

def FVal.isNan (x : FVal) : Bool := match x with | .nan _ => true | _ => false
def FVal.isSnan (x : FVal) : Bool := match x with | .nan s => s | _ => false
def FVal.isZero (x : FVal) : Bool := match x with | .fin _ m _ => m = 0 | _ => false
def FVal.neg (x : FVal) : Bool := match x with | .fin n _ _ => n | .inf n => n | .nan _ => false

/-- Flag NV when any operand is a signalling NaN (R69). -/
def snanFlag (xs : List FVal) : FFlags := if xs.any FVal.isSnan then fNV else 0

/-- A delivered pattern and the flags it raises. -/
structure FRes where
  val   : Nat
  flags : FFlags := 0
deriving DecidableEq, Repr

/-- Result on overflow (Table 2.3). -/
def overflowRes (f : Fmt) (r : Rnd) (neg : Bool) : Nat :=
  let toInf := match r with | .rne => true | .rz => false | .rd => neg | .ru => !neg
  f.signed neg (if toInf then f.inf else f.maxFin)

/-- floor(log2 (n/d)) for positive n, d. -/
def log2Q (n d : Nat) : Int :=
  let l : Int := (Nat.log2 n : Int) - Nat.log2 d
  let ge := if 0 ≤ l then d * 2 ^ l.toNat ≤ n else d ≤ n * 2 ^ (-l).toNat
  if ge then l else l - 1

/-- n/d ÷ 2^q as numerator and denominator. -/
def scaleQ (n d : Nat) (q : Int) : Nat × Nat :=
  if 0 ≤ q then (n, d * 2 ^ q.toNat) else (n * 2 ^ (-q).toNat, d)

/-- Integer nearest to n/d in the mode, for a value of sign `neg`; true when inexact. -/
def roundInt (r : Rnd) (neg : Bool) (n d : Nat) : Nat × Bool :=
  let k := n / d
  let rem := n % d
  let up := match r with
    | .rne => 2 * rem > d || (2 * rem = d && k % 2 = 1)
    | .rz => false
    | .rd => neg && rem ≠ 0
    | .ru => !neg && rem ≠ 0
  (if up then k + 1 else k, rem ≠ 0)

/-- The one rounding of the exact value (-1)^neg × n/d, n and d positive (R68, R71, R73). -/
def roundQ (f : Fmt) (r : Rnd) (neg : Bool) (n d : Nat) : FRes :=
  let e := log2Q n d
  let q : Int := max e f.emin - f.fbits
  let (sn, sd) := scaleQ n d q
  let (k, inexact) := roundInt r neg sn sd
  let b := (q - (f.emin - f.fbits)).toNat * 2 ^ f.fbits + k
  if b ≥ f.inf then { val := overflowRes f r neg, flags := fOF ||| fNX }
  else
    let (un, ud) := scaleQ n d (e - f.fbits)
    let tiny := e < f.emin && !(e = f.emin - 1 && (roundInt r neg un ud).1 = 2 ^ (f.fbits + 1))
    if f.flush && b ≠ 0 && b < 2 ^ f.fbits then { val := f.signed neg 0, flags := fUF ||| fNX }
    else { val := f.signed neg b,
           flags := (if inexact then fNX else 0) ||| (if tiny && inexact then fUF else 0) }

/-- Round m × 2^e for an integer m; a zero takes the sign `zneg`. -/
def roundDyadic (f : Fmt) (r : Rnd) (zneg : Bool) (m e : Int) : FRes :=
  if m = 0 then { val := f.signed zneg 0 }
  else if 0 ≤ e then roundQ f r (m < 0) (m.natAbs * 2 ^ e.toNat) 1
  else roundQ f r (m < 0) m.natAbs (2 ^ (-e).toNat)

/-- Signed integer mantissa of a finite value. -/
def FVal.mant (x : FVal) : Int :=
  match x with | .fin n m _ => if n then -(m : Int) else m | _ => 0
def FVal.expo (x : FVal) : Int := match x with | .fin _ _ e => e | _ => 0

/-- Sum of m1 × 2^e1 and m2 × 2^e2 as one such pair. -/
def addDyadic (m1 e1 m2 e2 : Int) : Int × Int :=
  let e := min e1 e2
  (m1 * 2 ^ (e1 - e).toNat + m2 * 2 ^ (e2 - e).toNat, e)

/-- Exact x × y + z, rounded once (R96, FADD and FMUL being special cases of it in the callers). -/
def fmaVal (f : Fmt) (r : Rnd) (x y z : FVal) : FRes :=
  let sn := snanFlag [x, y, z]
  let pneg := x.neg != y.neg
  let pinf := match x, y with
    | .inf _, .fin _ m _ => if m = 0 then none else some true
    | .fin _ m _, .inf _ => if m = 0 then none else some true
    | .inf _, .inf _ => some true
    | _, _ => some false
  if pinf.isNone then { val := f.nan, flags := fNV }            -- 0 × inf, whatever C is
  else if x.isNan || y.isNan || z.isNan then { val := f.nan, flags := sn }
  else if pinf = some true then
    match z with
    | .inf zn => if zn = pneg then { val := f.signed pneg f.inf } else { val := f.nan, flags := fNV }
    | _ => { val := f.signed pneg f.inf }
  else match z with
    | .inf zn => { val := f.signed zn f.inf }
    | _ =>
      let pm := x.mant * y.mant
      let (m, e) := addDyadic pm (x.expo + y.expo) z.mant z.expo
      -- an exact zero sum: the common sign of two zeros, else +0, or −0 in RD (R73)
      let zneg := if pm = 0 && z.mant = 0 && pneg = z.neg then pneg else r = .rd
      roundDyadic f r zneg m e

/-- Negate an operand's value. -/
def FVal.negate (x : FVal) : FVal :=
  match x with | .fin n m e => .fin (!n) m e | .inf n => .inf (!n) | x => x

def FVal.one : FVal := .fin false 1 0

/-- x + y rounded once (R96). -/
def addVal (f : Fmt) (r : Rnd) (x y : FVal) : FRes := fmaVal f r x .one y

/-- x × y rounded once; a zero product takes the XOR of the signs (R73, R96). -/
def mulVal (f : Fmt) (r : Rnd) (x y : FVal) : FRes :=
  fmaVal f r x y (.fin (x.neg != y.neg) 0 0)

/-- x ÷ y as R248 gives. -/
def divVal (f : Fmt) (r : Rnd) (x y : FVal) : FRes :=
  let sn := snanFlag [x, y]
  let neg := x.neg != y.neg
  match x, y with
  | .nan _, _ | _, .nan _ => { val := f.nan, flags := sn }
  | .inf _, .inf _ => { val := f.nan, flags := fNV }
  | .inf _, .fin .. => { val := f.signed neg f.inf }
  | .fin .., .inf _ => { val := f.signed neg 0 }
  | .fin _ mx ex, .fin _ my ey =>
    if my = 0 then
      if mx = 0 then { val := f.nan, flags := fNV } else { val := f.signed neg f.inf, flags := fDZ }
    else if mx = 0 then { val := f.signed neg 0 }
    else
      let (n, d) := scaleQ mx my (ey - ex)
      roundQ f r neg n d

/-- Compare two finite or infinite values; −0 equals +0. `none` when unordered. -/
def cmpVal (x y : FVal) : Option Ordering :=
  match x, y with
  | .nan _, _ | _, .nan _ => none
  | .inf a, .inf b => some (if a = b then .eq else if a then .lt else .gt)
  | .inf a, _ => some (if a then .lt else .gt)
  | _, .inf b => some (if b then .gt else .lt)
  | .fin .., .fin .. =>
    let e := min x.expo y.expo
    some (compare (x.mant * 2 ^ (x.expo - e).toNat) (y.mant * 2 ^ (y.expo - e).toNat))

/-- FMIN and FMAX (R97) on patterns: −0 is ordered below +0, a lone NaN is ignored, and a flushing format flushes. -/
def minmaxBits (f : Fmt) (isMin : Bool) (a b : Nat) : FRes :=
  let x := f.read a
  let y := f.read b
  let pat := fun (v : FVal) (p : Nat) => if v.isZero then f.signed v.neg 0 else p
  let flags := snanFlag [x, y]
  if x.isNan && y.isNan then { val := f.nan, flags }
  else if x.isNan then { val := pat y b, flags }
  else if y.isNan then { val := pat x a, flags }
  else
    let xLess := match cmpVal x y with
      | some .lt => true
      | some .eq => x.neg && !y.neg
      | _ => false
    { val := if xLess = isMin then pat x a else pat y b, flags }

/-- The floating-point .sat clamp to [0, 1] (R75). -/
def clamp01 (f : Fmt) (x : FRes) : FRes :=
  match f.valueOf x.val with
  | .nan _ => { x with val := 0 }
  | .inf n => { x with val := if n then 0 else f.one }
  | .fin n m _ => if n || m = 0 then { x with val := 0 } else if x.val ≥ f.one then { x with val := f.one } else x

/-- Round an operand's value to an integer in the mode: sign, magnitude, inexact. -/
def toIntVal (r : Rnd) (neg : Bool) (m : Nat) (e : Int) : Nat × Bool :=
  let (n, d) := scaleQ m 1 (-e)
  roundInt r neg n d

/-- Float to integer with range [lo, hi] (R106): the value and flags. -/
def floatToInt (r : Rnd) (x : FVal) (lo hi : Int) : Int × FFlags :=
  match x with
  | .nan _ => (0, fNV)
  | .inf n => (if n then lo else hi, fNV)
  | .fin n m e =>
    let (k, inex) := toIntVal r n m e
    let v : Int := if n then -(k : Int) else k
    if v > hi then (hi, fNV) else if v < lo then (lo, fNV) else (v, if inex then fNX else 0)

/-- An integer to a format, rounded once (Table 2.9). -/
def intToFloat (f : Fmt) (r : Rnd) (v : Int) : FRes := roundDyadic f r false v 0

/-- Convert an operand's value to another format, rounded once; infinities and NaNs keep their class (R105). With
`satfin` a finite overflow becomes the largest finite value. -/
def convVal (f : Fmt) (r : Rnd) (satfin : Bool) (x : FVal) : FRes :=
  match x with
  | .nan s => { val := f.nan, flags := if s then fNV else 0 }
  | .inf n => { val := f.signed n f.inf }
  | .fin n m e =>
    let res := if m = 0 then { val := f.signed n 0 } else roundDyadic f r n (if n then -(m : Int) else m) e
    if satfin && res.flags &&& fOF ≠ 0 then { res with val := f.signed n f.maxFin } else res

/-- FRND (R101): round to an integral value of the same format, keeping the sign; never NX. -/
def frndBits (f : Fmt) (r : Rnd) (a : Nat) : FRes :=
  match f.read a with
  | .nan s => { val := f.nan, flags := if s then fNV else 0 }
  | .inf n => { val := f.signed n f.inf }
  | .fin n m e =>
    if m = 0 then { val := f.signed n 0 }
    else if 0 ≤ e then { val := a }
    else
      let (k, _) := toIntVal r n m e
      { val := (roundDyadic f .rne n (if n then -(k : Int) else k) 0).val }

/-- FSCALE (R102): A × 2^n rounded once. The exponent is clamped to ±1,000, beyond which every finite nonzero value of
these formats overflows or underflows alike. -/
def fscaleBits (f : Fmt) (r : Rnd) (a : Nat) (n : Int) : FRes :=
  match f.read a with
  | .nan s => { val := f.nan, flags := if s then fNV else 0 }
  | .inf s => { val := f.signed s f.inf }
  | .fin s m e =>
    if m = 0 then { val := f.signed s 0 }
    else roundDyadic f r s (if s then -(m : Int) else m) (e + max (-1000) (min 1000 n))

/-- floor(log2 |x|) of a finite nonzero value. -/
def expoOf (m : Nat) (e : Int) : Int := (Nat.log2 m : Int) + e

/-- FXTR's exponent form (Table 2.8) for an element of `w` bits. -/
def fxtrExp (f : Fmt) (w : Nat) (a : Nat) : Int × FFlags :=
  let lo : Int := -(2 ^ (w - 1))
  match f.read a with
  | .nan _ => (lo, fNV)
  | .inf _ => (2 ^ (w - 1) - 1, 0)
  | .fin _ m e => if m = 0 then (lo, fDZ) else (expoOf m e, 0)

/-- FXTR's .mant form (Table 2.8). -/
def fxtrMant (f : Fmt) (a : Nat) : FRes :=
  match f.read a with
  | .nan s => { val := f.nan, flags := if s then fNV else 0 }
  | .inf n => { val := f.signed n f.inf }
  | .fin n m _ =>
    if m = 0 then { val := f.signed n 0 }
    else { val := (roundDyadic f .rne n (if n then -(m : Int) else m) (-(Nat.log2 m : Int))).val }

/-- FCLASS's one-hot mask (R100). -/
def fclassBits (f : Fmt) (a : Nat) : Nat :=
  match f.read a with
  | .nan s => if s then 2 ^ 8 else 2 ^ 9
  | .inf n => if n then 2 ^ 0 else 2 ^ 7
  | .fin n m _ =>
    if m = 0 then (if n then 2 ^ 3 else 2 ^ 4)
    else if m < 2 ^ f.fbits then (if n then 2 ^ 2 else 2 ^ 5)
    else (if n then 2 ^ 1 else 2 ^ 6)

/-- FSGN (R98) with the selected sign; a NaN A gives NaN and a flushing format flushes A first. -/
def fsgnBits (f : Fmt) (neg xor : Bool) (a b : Nat) : Nat :=
  let sa := a / f.signBit % 2 = 1
  let sb := b / f.signBit % 2 = 1
  let s := if xor then sa != sb else if neg then !sb else sb
  match f.read a with
  | .nan _ => f.nan
  | .fin _ 0 _ => f.signed s 0
  | _ => f.signed s (a % f.signBit)

/-- FDOT2 (R104): A.0 × B.0 + A.1 × B.1 + C, exact, rounded once to f32. -/
def fdot2 (r : Rnd) (a0 b0 a1 b1 c : FVal) : FRes :=
  let f := Fmt.f32
  let sn := snanFlag [a0, b0, a1, b1, c]
  let zeroInf := fun (x y : FVal) => match x, y with
    | .inf _, .fin _ 0 _ | .fin _ 0 _, .inf _ => true
    | _, _ => false
  let isInf := fun (x : FVal) => match x with | .inf _ => true | _ => false
  let infProd := fun (x y : FVal) => (isInf x || isInf y) && !x.isNan && !y.isNan
  let infs := ((if infProd a0 b0 then [a0.neg != b0.neg] else []) ++
    (if infProd a1 b1 then [a1.neg != b1.neg] else []) ++ (if isInf c then [c.neg] else []))
  if zeroInf a0 b0 || zeroInf a1 b1 || (infs.contains true && infs.contains false) then { val := f.nan, flags := fNV }
  else if [a0, b0, a1, b1, c].any FVal.isNan then { val := f.nan, flags := sn }
  else
    match infs with
    | s :: _ => { val := f.signed s f.inf }
    | [] =>
      let p0 := a0.mant * b0.mant
      let p1 := a1.mant * b1.mant
      let (m1, e1) := addDyadic p0 (a0.expo + b0.expo) p1 (a1.expo + b1.expo)
      let (m, e) := addDyadic m1 e1 c.mant c.expo
      let s0 := a0.neg != b0.neg
      let s1 := a1.neg != b1.neg
      let zneg := if p0 = 0 && p1 = 0 && c.mant = 0 && s0 = s1 && s0 = c.neg then s0 else r = .rd
      roundDyadic f r zneg m e

/-- FSETP's result and flags (Table 2.7). -/
def fsetpRes (cond : Nat) (x y : FVal) : Bool × FFlags :=
  let nan := x.isNan || y.isNan
  let sn := snanFlag [x, y]
  let c := cmpVal x y
  match cond with
  | 0 => (c = some .eq, sn)
  | 1 => (c ≠ some .eq, sn)
  | 2 => (c = some .lt, if nan then fNV else 0)
  | 3 => (c = some .lt || c = some .eq, if nan then fNV else 0)
  | 4 => (c = some .gt, if nan then fNV else 0)
  | 5 => (c = some .gt || c = some .eq, if nan then fNV else 0)
  | 6 => (!nan, sn)
  | _ => (nan, sn)

end Sys2Proof.Machine
end

