-- ==== Sys2Proof/Machine/State.lean ====
section
/-!
DEFINITION. The state of one KZ-16 module as plain data (INVENTORY.md, '## State'), the reasons a step can stop, and the
state after reset. Records of threads, groups, teams and launches exist while those are resident; records of quarters,
cores and dies that are not listed stand for the reset record of that unit.
-/
namespace Sys2Proof.Machine

/-- A step that stops with a named reason. -/
inductive Fault where
  /-- Raised by TAKE_RECORD and the enqueue steps for a queue whose QBASE or LOGSZ was written while HEAD ≠ TAIL: R249
  calls its behaviour undefined. Safe: the model stops where the hardware goes on in an unstated way. -/
  | queueUndefined (q : Nat)
deriving DecidableEq, Repr

/-- A step without a meaning. -/
inductive Refusal where
  /-- Raised by an arm of `exec` that has no meaning yet. Safe. -/
  | notModelled (mnemonic : String)
deriving DecidableEq, Repr

/-! ### Threads and groups -/

/-- A register after index resolution (R40, R43): v, s, h, a queue, a predicate or an index register. -/
inductive RegRef where
  | v (n : Nat) | s (n : Nat) | h (n : Nat) | q (k : Nat) | p (n : Nat) | ix (k : Nat)
deriving DecidableEq, Repr

/-- Causes of Table 8.1, in the order of their bits. -/
inductive Cause where
  | ill | pair | laviol | operand | regbound | align | page | prot | landing | range | atype | sectionC | conv | queue
  | kvfault | vault | token | swtrap | bkpt | watchdog | ecc | spec | coll | hostlink
deriving DecidableEq, Repr

/-- A page an access waits for (R226, R297). -/
structure PageKey where
  pasid  : Nat
  vpn    : Nat
  intent : Intent
deriving DecidableEq, Repr

/-- A wait for an ATS translation completion (`ats`) or for a PRI page response (R225, R226). -/
structure PageWait where
  key : PageKey
  ats : Bool
deriving DecidableEq, Repr

/-- An issued and unfinished instruction, or a replay entry (R294, R295, Table 8.3). `queued` marks an entry that stands
in the replay queue, `page` the request it waits on, `retry` is one more than the page whose request was last answered
with Success (0 for none), `line` the host line it waits on, `aux` what an engine instruction keeps between its attempts. `id` tells the entries of a thread apart and `tag` those of one issue; `val`
holds the result of a lane whose s, h or queue destination waits for its group (R165, R181); `hand` marks an instruction
that the handler issued. -/
structure Entry where
  id     : Nat := 0
  tag    : Nat := 0
  word   : DWord
  pc     : DWord
  st     : Nat
  cause  : Option Cause := none
  sub    : Nat := 0
  skip   : Bool := false
  fa     : DWord := 0
  opv    : List Word
  dst    : List RegRef
  queued : Bool := false
  hand   : Bool := false
  parks  : Bool := false       -- its thread is parked on it and cannot go on before it finishes (log 18)
  page   : Option PageWait := none
  retry  : Nat := 0
  line   : Option Nat := none
  aux    : List Nat := []
  val    : Option (List Word) := none
deriving DecidableEq, Repr

/-- An open lookahead window of an instruction X (R39, R40): words left, and X's registers and queues. -/
structure Window where
  left   : Nat
  reads  : List RegRef
  writes : List RegRef
deriving DecidableEq, Repr

/-- Why a thread is parked in ENG (Table 4.3 code 9). -/
inductive EngWait where
  | entry                      -- one of its unfinished instructions waits on an engine condition
  | assign (since : Nat)       -- its next item (R269); the cycle of its EXIT
  | acting (lead : ThreadId) (id : Nat)   -- the acting lane's action, by its entry (R497)
deriving DecidableEq, Repr

/-- Wait states of Table 4.3 but HALT, which overlays them (`Thread.halt`). -/
inductive Wait where
  | ready
  | bar (b : Nat)
  | cvw (k : Nat)              -- signed; the phase is not complete
  | cvDeferred (k : Nat)       -- a second signature waits for the next phase (R178)
  | gop
  | que
  | poll (until_ : Nat)        -- WAITZ, WAITNE; the next read is due by this cycle
  | nap (until_ : Nat)
  | fault
  | rng
  | eng (why : EngWait)
deriving DecidableEq, Repr

/-- Why a thread stands in HALT (R309, R311). -/
inductive HaltReason where
  | command | bkpt | cause (c : Cause) | double (c : Cause) | watchdog
deriving DecidableEq, Repr

/-- A raised cause whose handler entry waits for the thread's unfinished instructions (R291 step 2). -/
structure Pending where
  cause : Cause
  q     : Bool
  tpc   : DWord
deriving DecidableEq, Repr

/-- An arrival at a barrier that is not counted yet (R183): barrier, thread count, the cycle of the BAR or BARARV, and
whether a handler made it. -/
structure LateArrival where
  bar   : Nat
  n     : Nat
  since : Nat
  hand  : Bool
deriving DecidableEq, Repr

/-- A resident thread (Table 4.1, R385, Table 8.2). `reinj` marks a thread whose re-injection (R296) is not over; `resume`
and `outer` are the waits that a thread goes on with once it is no longer parked on an access, and after its handler
(log 35), `resumeDue` a debugger's resume that a saved thread has still to make (R311), `gone` a thread that has found no
item and only handles a cause of one of its last accesses (log 35). -/
structure Thread where
  tid      : ThreadId
  slot     : Nat
  lslot    : Nat
  tidx     : Nat
  grp      : Nat
  rel      : Nat
  role     : Nat
  declared : Nat
  pc       : DWord
  v        : List Word
  p        : List Bool
  ix       : List Half
  fpx      : BitVec 5 := 0
  item     : Word := 0
  itemage  : Word := 0
  ph       : List Bool
  depth    : List Nat
  wait     : Wait := .ready
  halt     : Option HaltReason := none
  idle     : Bool := false
  windows  : List Window := []
  unf      : List Entry := []
  tpc      : DWord := 0
  tq       : Bool := false
  dbl      : Bool := false
  code     : BitVec 9 := 0
  sub      : BitVec 8 := 0
  nestin   : BitVec 8 := 0
  handler  : Bool := false
  pending  : Option Pending := none
  stepping : Bool := false
  actDst   : List RegRef := []
  fetchWait : Option PageWait := none
  fetchRetry : Nat := 0
  fetchLine : Option Nat := none
  kvDue     : Bool := false
  reinj     : Bool := false
  late      : List LateArrival := []
  resume    : Wait := .ready
  outer     : Wait := .ready
  resumeDue : Bool := false
  gone      : Bool := false
deriving DecidableEq, Repr

/-- A logical group (Table 4.1, R286). `masks` holds the lane mask of each cause 0-23. -/
structure Group where
  core  : Nat
  slot  : Nat
  grp   : Nat
  s     : List Word
  h     : List Word
  masks : List DWord
deriving DecidableEq, Repr

/-! ### Teams -/

/-- What a thread parked on a deferred signature does in the next phase (R178). -/
inductive SignKind where
  | sign
  | wait
  | op (word : DWord) (opv : List Word)
deriving DecidableEq, Repr

/-- A convergence-register instance (Table 4.4); `qtr` is 0 for the kinds team and role. `full` marks a phase whose last
signature has come and whose latched operation has not issued yet (R179, R363). -/
structure CvInst where
  cv       : Nat
  qtr      : Nat
  kind     : Nat
  role     : Nat
  signed   : Nat := 0
  gen      : Nat := 0
  full     : Bool := false
  op       : Option (DWord × List Word) := none
  signers  : List ThreadId := []
  opThreads : List ThreadId := []
  deferred : List (ThreadId × SignKind) := []
deriving DecidableEq, Repr

/-- A named barrier (R183). -/
structure Bar where
  arrivals : Nat := 0
  target   : Nat := 0
  auto     : Bool := false
  phase    : Nat := 0
deriving DecidableEq, Repr

/-- A loaded operand map (Table 10.2). -/
structure OMap where
  w     : Nat
  split : Bool
  kind  : Nat
  off   : Nat
  rt    : Nat
  kt    : Nat
  sel   : Nat
deriving DecidableEq, Repr

/-- A resident team. `queues` holds each queue's entries, oldest first; an entry is one optional value per lane. -/
structure Team where
  core     : Nat
  slot     : Nat
  lslot    : Nat
  tnum     : Nat
  base     : Nat
  scratch  : Nat
  width    : Nat
  size     : Nat
  nq       : Nat
  cvs      : List CvInst
  queues   : List (List (List (Option Word)))
  bars     : List Bar
  batch    : List Nat := []
  draining : Bool := false
  omaps    : List (Option OMap)
deriving DecidableEq, Repr

/-! ### Quarters -/

/-- PC-table entry (Table 4.2). -/
structure PcEntry where
  lslot : Nat
  pc    : DWord
  stamp : Nat
  wait  : Nat := 0
  due   : Bool := false
deriving DecidableEq, Repr

/-- A group as the issue-priority token names it (Table 4.5). -/
structure GroupKey where
  slot : Nat
  grp  : Nat
deriving DecidableEq, Repr

/-- Accumulator tile (Table 10.3): 256 elements, poison marks by element. -/
structure AccTile where
  idx    : Nat
  owner  : Option Nat := none
  ver    : BitVec 16 := 0
  data   : List Word := List.replicate 256 0
  poison : List Nat := []
deriving DecidableEq, Repr

/-- Shadow tile (Table 10.4). -/
structure Shadow where
  idx    : Nat
  bound  : Option (Nat × Nat × BitVec 16) := none   -- team slot, tile, token
  data   : List Word := List.replicate 256 0
  poison : List Nat := []
deriving DecidableEq, Repr

/-- A command in the matrix queue (R363, R379). `maps` are the copied operand maps; `threads` the signers; `pass` counts
the passes of a running MMA or MMAS that a freeze found made (R379). -/
structure MCmd where
  idx     : Nat
  word    : DWord
  opv     : List Word
  slot    : Nat
  threads : List ThreadId
  maps    : List OMap := []
  running : Bool := false
  pass    : Nat := 0
deriving DecidableEq, Repr

/-- A quarter. In serial mode `serialT` is the serial thread and `serialN` counts what it has issued (R170). -/
structure Quarter where
  core      : Nat
  qtr       : Nat
  entries   : List PcEntry := []
  overflow  : List ThreadId := []
  serial    : Bool := false
  serialClk : Nat := 0
  serialN   : Nat := 0
  serialT   : Option ThreadId := none
  stampCtr  : Nat := 0
  holder    : Option GroupKey := none
  partner   : Option GroupKey := none
  acc       : List AccTile := []
  shadows   : List Shadow := []
  mq        : List MCmd := []
deriving DecidableEq, Repr

/-! ### Cores and dies -/

/-- An L1 line (R117): 32 words, with a valid, a dirty and a poison bit per word, and the published marks that came with
words of it (R132). `whole` lists the 8-byte pairs whose two words are of one moment (R124). -/
structure L1Line where
  line   : Nat
  data   : List Word
  valid  : List Bool
  dirty  : List Bool
  poison : List Bool
  marks  : List (Nat × Scope) := []
  whole  : List Nat := []
deriving DecidableEq, Repr

/-- A buffered contribution (R122): the word's address, operation, type code and combined value. -/
structure Contribution where
  addr : Nat
  op   : Nat
  ty   : Ty
  val  : Nat
deriving DecidableEq, Repr

/-- Range-table entry (Table 3.4). `owner` is the team slot, `eng` the ENG code, `spc` the SP code. -/
structure RangeEntry where
  base  : Nat
  len   : Nat
  owner : Nat
  eng   : Nat
  spc   : Nat
  dst   : Bool
  tag   : Nat
deriving DecidableEq, Repr

/-- A shape record's fields (Table 9.1). -/
structure Shape where
  mw : Nat
  cscope : Nat
  satf : Bool
  tr : Bool
  split : Bool
  sg : Nat
  sfmt : Nat
  w : Nat
  sl : Nat
  fmt : Nat
  rows : Nat
  k : Nat
  tk : Nat
  trows : Nat
  rstride : Nat
  soff : Int
  sstride : Nat
  spstride : Nat
deriving DecidableEq, Repr

/-- A copy-engine command's operands (Table 9.7, Table 9.8). `opc`: 0 TCOPY, 1 TSTORE, 2 TGATHER. -/
structure CopyArgs where
  opc   : Nat
  soff  : Nat
  gaddr : DWord
  shape : DWord
  comp  : Nat
  arg   : DWord
deriving DecidableEq, Repr

/-- A request list in progress (R354); `own` is the list's own source entry while it is registered (R343), `raw` the next
record once it has been read. -/
structure ListArgs where
  off  : Nat
  n    : Nat
  comp : Nat
  next : Nat
  own  : Option RangeEntry := none
  raw  : Option Nat := none
deriving DecidableEq, Repr

/-- An away entry that a walker waits on (R440), with what its fault record holds (Table 12.10). -/
structure Away where
  entry : Nat
  seq   : Nat
  layer : Nat
  head  : Nat
  page  : Nat
  swtag : Nat
deriving DecidableEq, Repr

/-- A KV packet in progress (R435-R442): `started` once SREC and VLEN are taken, `stop` the away entry it waits on, `tag`
its fault record's tag once placed, `code` the status it ended with, `age` the issuing thread's %itemage, `space` the
first word of the space record. -/
structure KvArgs where
  pkt     : Nat
  space   : Nat
  age     : Word
  started : Bool := false
  stop    : Option Away := none
  tag     : Option Nat := none
  code    : Nat := 0
deriving DecidableEq, Repr

/-- A KVCOPY in progress (R446, R447): the space record's first word, the root's directory, its operands and descriptor. -/
structure KvCopyArgs where
  space : Nat
  dir  : Nat
  seq  : Nat
  dst  : DWord
  desc : Nat
  list : Nat
  n    : Nat
  pd   : Nat
  comp : Nat
  late : Bool := false  -- the score bytes are counted when the records can be read
  stop : Option Away := none
  tag  : Option Nat := none
  code : Nat := 0
deriving DecidableEq, Repr

/-- What a copy-engine entry runs. -/
inductive CopyJob where
  | tile (a : CopyArgs) (sh : Shape)
  | list (l : ListArgs) (cur : Option (CopyArgs × Shape))
  | kv (k : KvArgs)
  | kvcopy (k : KvCopyArgs)
deriving DecidableEq, Repr

/-- A copy-engine command entry (Table 9.6). `unit` counts the boundaries passed (R349), `done` the destination bytes
written, `left` the counted bytes still in REMAIN for this command, `wait` the page it waits on, `rng` its range entries;
`ended` marks a command whose last unit is written or that has failed (`err`, at `fa`), `early` one that its engine accepted
before the CARVE in progress (R208), `held` a list whose next record is held on a range (Table 9.6). Within a list, `unit_` to `fa`
describe the current record. -/
structure CopyCmd where
  idx   : Nat
  slot  : Nat
  tid   : ThreadId
  pc    : DWord
  word  : DWord
  opv   : List Word
  job   : CopyJob
  unit_ : Nat := 0
  done  : Nat := 0
  left  : Nat := 0
  ended : Bool := false
  wait  : Option PageWait := none
  retry : Nat := 0
  line  : Option Nat := none
  err   : Bool := false
  fa    : DWord := 0
  rng   : List RangeEntry := []
  early : Bool := false
  held  : Bool := false
deriving DecidableEq, Repr

/-- An update on its way to a subscriber (R210), with the published mark it carries (R412), the core whose write it
carries (0 for another agent, else the core's number plus 1), the poisoned words among its bytes (R203) and the threads
whose strong loads it goes before (R131), each with whether its loads at the scopes grp and team do too. -/
structure SubUpd where
  seq   : Nat
  src   : Nat
  addr  : Nat
  bytes : List Byte
  mark  : Option Scope := none
  bad   : List Nat := []
  due   : List (ThreadId × Bool) := []
deriving DecidableEq, Repr

/-- A physical piece of a subscribed range: its address, its offset in the range, its length. -/
structure SubPart where
  pa  : Nat
  off : Nat
  len : Nat
deriving DecidableEq, Repr

/-- A subscription (R209-R212). `parts` are the physical pieces of the range, `va` its virtual base, `seq` the last
update applied, `early` the updates sent and not yet applied. `live` ends at a lapse; `ready` marks a complete mirror. -/
structure Sub where
  handle : Nat
  slot   : Nat
  pasid  : Nat
  va     : Nat
  parts  : List SubPart
  len    : Nat
  mirror : Nat
  seq    : Nat := 0
  live   : Bool := true
  ready  : Bool := false
  early  : List SubUpd := []
deriving DecidableEq, Repr

/-- A registered ring (R220, R233). -/
structure Ring where
  idx  : Nat
  slot : Nat
  off  : Nat
  logn : Nat
deriving DecidableEq, Repr

/-- A message in a send buffer (R223). `order` names its launch; `after` names the sender's earlier accesses that a `rel`
message goes after (R222), each by its thread and the tag of its entry. -/
structure Msg where
  dst     : Nat
  ring    : Nat
  payload : List Byte
  seq     : Nat
  slot    : Nat
  order   : Nat
  counted : Bool := false
  after   : List (ThreadId × Nat) := []
  rel     : Bool := false
deriving DecidableEq, Repr

/-- A core. -/
structure CoreSt where
  id        : Nat
  carve     : Nat := 0
  l1        : List L1Line := []
  red       : List Contribution := []
  ranges    : List RangeEntry := []
  copy      : List CopyCmd := []
  subs      : List Sub := []
  rings     : List Ring := []
  sendBuf   : List Msg := []
  msgCount  : Nat := 0
  phase     : List Bool := List.replicate 8 false
  cnt0      : List Nat := List.replicate 8 0
  cnt1      : List Nat := List.replicate 8 0
  parkPct   : Nat := 50
  parkWin   : Nat := 20000
  parkCount : Nat := 0
  ringDrop  : Word := 0
  gated     : Bool := false
  ungating  : Bool := false
  frozen    : Bool := false
deriving DecidableEq, Repr

/-- A word of a row that a KVAPP has written and that walkers of other dies may still read as it was (R434): the writing core,
and the record of the row's sequence. -/
structure LagWord where
  addr : Nat
  old  : Word
  new  : Word
  core : Nat
  seq  : Nat
deriving DecidableEq, Repr

/-- A word in a die's walker cache (R425): its address, what the cache holds of it, and the virtual address it was read at. -/
structure WalkWord where
  addr  : Nat
  val   : Nat
  pasid : Nat := 0
  va    : Nat := 0
deriving DecidableEq, Repr

/-- A CARVE between its acceptance and its switch (R208). -/
structure CarveOp where
  new  : BitVec 20
  lead : ThreadId
deriving DecidableEq, Repr

/-- A die. -/
structure Die where
  id       : Nat
  mask     : BitVec 20 := 0
  carve    : Option CarveOp := none
  vapbase  : DWord := 0
  pcur     : Nat := 3
  preq     : Nat := 3
  pchange  : Option Nat := none
  ibase    : Nat := 0           -- the issue clock's count when the reference clock stood at `iclk`
  iclk     : Nat := 0
  cgate    : Word := 0
  parked0  : List Nat := List.replicate 8 0
  parked1  : List Nat := List.replicate 8 0
  walk     : List WalkWord := []
deriving DecidableEq, Repr

/-! ### Dispatcher -/

/-- A launch record (Table 7.3). -/
structure Record where
  kdesc : DWord
  args : DWord
  items : Nat
  teams : Nat
  launchId : Word
  pasid : Nat
  wdog : Nat
  cosched : Bool
  serial : Bool
  diemask : BitVec 16
  maxcores : Nat
  cc : DWord
  ccinc : Nat
  dep : List (DWord × DWord)
  status : DWord
  teammap : DWord
deriving DecidableEq, Repr

/-- Role fields of a kernel descriptor (Table 7.4). -/
structure Role where
  gran : Nat
  decl : Nat
  thr  : Nat
deriving DecidableEq, Repr

/-- A kernel descriptor (Table 7.4). -/
structure Desc where
  refill   : Nat
  trapvec  : Nat
  tv       : Bool
  prom     : Bool
  nq       : Nat
  gw       : Nat
  teamSize : Nat
  carve    : Nat
  fair     : Nat
  scratch  : Nat
  roles    : List Role
  cv       : List (Nat × Nat)   -- (kind, role index)
deriving DecidableEq, Repr

/-- Phases of a launch between taking and ending. -/
inductive LPhase where
  | waiting     -- dependences unmet or not yet begun (R260)
  | running
  | ending (step : Nat)   -- R261: the steps already made
deriving DecidableEq, Repr

/-- A launch (R251-R280). `endWait` is the translation the dispatcher waits on for it, `noMap` marks a team map that does
not translate. -/
structure Launch where
  slot     : Nat
  queue    : Nat
  order    : Nat
  rcd      : Record
  desc     : Option Desc := none
  phase    : LPhase := .waiting
  depMet   : List Bool := [false, false, false, false]
  depDue   : List Bool := [true, true, true, true]
  next     : Nat := 0
  returned : List Nat := []
  retired  : Nat := 0
  placed   : Nat := 0
  wdog     : Nat := 0
  wdogLim  : Nat := 0
  prom     : Bool := false
  fair     : Nat := 512
  faulted  : Bool := false
  draining : Bool := false
  aborted  : Bool := false
  code     : Nat := 0
  attached : Bool := false
  endWait  : Option PageWait := none
  endRetry : Nat := 0
  endLine  : Option Nat := none  -- the host line that the dispatcher's work for the launch waits on
  noMap    : Bool := false
deriving DecidableEq, Repr

/-- A launch queue's registers (Table 7.1). `undef` marks a queue whose behaviour R249 leaves undefined; `lastOrd` is the
order of the launch taken from it last (0 for none). -/
structure QueueSt where
  q      : Nat
  qbase  : DWord := 0
  qctl   : Word := 0
  tail   : Word := 0
  head   : Word := 0
  fault  : Bool := false
  fcode  : Nat := 0
  qpush  : DWord := 0
  busy   : Bool := false
  res    : Nat := 0
  undef  : Bool := false
  lastOrd : Nat := 0
deriving DecidableEq, Repr

/-- A saved team (R301-R304): its image; `share` marks a save under R299, `units` its 64 KiB units of the pool. -/
structure Image where
  id      : Nat
  die     : Nat
  core    : Nat
  lslot   : Nat
  team    : Team
  groups  : List Group
  threads : List Thread
  scratch : List Byte
  bad     : List Nat            -- offsets of poisoned scratchpad words
  ranges  : List RangeEntry
  subs    : List Sub
  rings   : List Ring
  copies  : List CopyCmd
  tiles   : List (Nat × AccTile)
  shads   : List (Nat × Shadow)
  cmds    : List (Nat × MCmd)
  share   : Bool
  units   : Nat
deriving DecidableEq, Repr

/-- A pre-emption in progress (R305): its queue, its victim launch (slot and order), the acting thread of a PREEMPT, the
teams (core, slot) to save, the cores to vacate and the reserves these had before; `saved` once a team has been saved,
`full` when the pool had no room for one, `kept` the cores where a team stays. -/
structure Preempt where
  queue   : Nat
  lslot   : Nat
  order   : Nat
  lead    : Option ThreadId
  pend    : List (Nat × Nat)
  vacate  : List Nat
  old     : List (Nat × Nat) := []
  saved   : Bool := false
  full    : Bool := false
  kept    : List Nat := []
deriving DecidableEq, Repr

/-! ### Grace detector, pools, collective engine, host link -/

/-- Chip-node state of a domain (Table 11.3) with its configuration, and the coordinator's data of R408. -/
structure Domain where
  d     : Nat
  en    : Bool := false
  pod   : Bool := false
  s     : Word := 0
  c     : Word := 0
  gst   : Nat := 0
  facks : List Nat := []
  quiets : List Nat := []
  podRun : Bool := false
deriving DecidableEq, Repr

/-- A retire-queue entry (Table 11.6). `place` is its storage place in the queue's memory (R398), `done` counts the pages its
action has pushed, `wait` the translation and `line` the host line that it waits on. -/
structure RetireEntry where
  addr  : DWord
  pasid : Nat
  len   : Nat
  cword : DWord
  tag   : Word
  ctl   : Word
  place : Nat := 0
  done  : Nat := 0
  wait  : Option PageWait := none
  line  : Option Nat := none
  retry : Nat := 0
deriving DecidableEq, Repr

/-- A page pool's registers (Table 12.5). -/
structure Pool where
  p     : Nat
  cfg   : Word := 0
  count : Word := 0
  head  : DWord := 0
deriving DecidableEq, Repr

/-- A collective record's fields (Table 13.2). -/
structure CollRec where
  cscope : Nat
  hold : Bool
  maxtree : Nat
  root : Nat
  rop : Nat
  ty : Nat
  op : Nat
  cid : Nat
  nelem : Nat
  lchunk : Nat
  input : DWord
  output : DWord
  prog : DWord
  part : Nat
deriving DecidableEq, Repr

/-- Values of a chunk's elements, `bad` the poisoned ones. -/
structure ChunkVals where
  vals : List (Option Word)
  bad  : List Nat := []
deriving DecidableEq, Repr

/-- A chunk at work on this chip in the current epoch (R466): the children's values received so far, whether the up value
is sent, and the result once known. -/
structure ChunkWork where
  chunk : Nat
  tree  : Nat
  got   : List (Nat × ChunkVals) := []
  up    : Bool := false
  res   : Option ChunkVals := none
deriving DecidableEq, Repr

/-- A chunk value that reached this chip before the START of its epoch. -/
structure EarlyChunk where
  epoch : Nat
  chunk : Nat
  up    : Bool
  src   : Nat
  vals  : ChunkVals
deriving DecidableEq, Repr

/-- What the coordinator of a collective holds (R461, R462, R469, R471). -/
structure Coord where
  cid     : Nat
  first   : JoinMsg
  joined  : List Nat
  bad     : Bool := false
  epoch   : Nat := 0
  started : Bool := false
  pausing : Bool := false
  bitmaps : List (Nat × List Nat) := []
  resumes : List Nat := []
  reports : List Nat := []
  ended   : Bool := false
deriving DecidableEq, Repr

/-- A live collective in its slot (R459, R460): `r` and `d` hold its marked chunks, `starts` the STARTs received, `waits`
the translations its engine waits on and `lines` the host lines; `owed` the write of its record that a START (true) or a PAUSE
(false) still has to make; `pauseAt` the epoch of a PAUSE that came before its START; `pre` a collective accepted before the CARVE in progress (R208). A state of 4 or more
marks an end whose state word is still to be written. -/
structure Coll where
  slot   : Nat
  gen    : Nat
  rcd    : CollRec
  core   : Nat
  team   : Nat
  lslot  : Nat
  pasid  : Nat
  state  : Nat := 1
  code   : Nat := 0
  ntree  : Nat := 0
  starts : Nat := 0
  r      : List Nat := []
  d      : List Nat := []
  trees  : List (List Edge) := []
  work   : List ChunkWork := []
  early  : List EarlyChunk := []
  reported : Bool := false
  waits  : List PageWait := []
  lines  : List Nat := []
  owed   : Option Bool := none
  pauseAt : Option Nat := none
  retry  : Nat := 0
  pre    : Bool := false
deriving DecidableEq, Repr

/-- A message this chip sends over the Sahlys links (R453, R461, R475, Table 11.7). -/
inductive LinkMsg where
  | linkState (link origin seq : Nat) (entries : List LinkEntry)
  | join (dst : Nat) (j : JoinMsg)
  | start (dst cid epoch : Nat) (fin : List Nat) (edges : List Edge)
  | pause (dst cid epoch : Nat)
  | bitmap (dst cid epoch : Nat) (done : List Nat)
  | resume (dst cid epoch : Nat)
  | report (dst cid epoch : Nat)
  | finish (dst cid epoch : Nat)
  | fail (dst cid code : Nat)
  | abort (dst cid : Nat)
  | chunk (dst cid epoch chunk : Nat) (up : Bool) (vals : List (Option Word)) (bad : List Nat)
  | podReq (dst d g : Nat)
  | podFlip (dst d g : Nat)
  | podFack (dst d g : Nat)
  | podQuiet (dst d g : Nat)
  | podDone (dst d g : Nat)
deriving DecidableEq, Repr

/-- The engine's link map (R451-R454). Chip rows that are not listed have no report (V = 0). -/
structure LinkMap where
  rows   : List (Nat × Nat × List LinkEntry) := []   -- origin chip, its last sequence number, its 12 entries
  mySeq  : Nat := 0
  epoch  : Word := 0
deriving DecidableEq, Repr

/-- An SPDM answer (R494): the request's name and the bits sent. -/
structure SpdmAnswer where
  kind : String
  bits : List Nat
deriving DecidableEq, Repr

/-- What the device has sent to the host: MSI-X vectors (R485), ATS and PRI requests, CXL.cache requests (of those that R482
lists the model sends RdShared before a read and RdOwn before a write, log 56), back-invalidate snoops, invalidation completions, SPDM answers, and a breakpoint's signal to the debugger (R319). -/
inductive HostMsg where
  | msix (vector : Nat)
  | ats (pasid vpn : Nat)
  | pri (k : PageKey)
  | rdOwn (line : Nat)
  | rdShared (line : Nat)
  | cleanEvict (line : Nat)
  | dirtyEvict (line : Nat)
  | biSnp (half : Nat)
  | memData (bytes : List Byte) (poison : Bool)
  | snoopData (bytes : List Byte)
  | invDone
  | spdm (a : SpdmAnswer)
  | debugger (t : ThreadId)
deriving DecidableEq, Repr

/-- A host line in the host-line cache (R216): exclusive or modified when `own`, modified when `dirty` too. -/
structure HlcLine where
  line  : Nat
  own   : Bool
  dirty : Bool := false
deriving DecidableEq, Repr

/-- A TLB that an entry stands in (R225): a core's own, or the one a die shares. -/
inductive Tlb where
  | core (c : Nat) | die (d : Nat)
deriving DecidableEq, Repr

/-- A TLB entry (R225). -/
structure TlbEntry where
  tlb   : Tlb
  pasid : Nat
  vpn   : Nat
  tr    : Translation
deriving DecidableEq, Repr

/-- A translation request (R225): the page, the base die that sends it, and the TLBs that wait for its answer. -/
structure AtsRequest where
  pasid : Nat
  vpn   : Nat
  base  : Nat
  tlbs  : List Tlb
deriving DecidableEq, Repr

/-- An entry of a slice's reduction directory (R204): a line, and the cores with contributions to it. -/
structure RedEntry where
  line  : Nat
  cores : List Nat
deriving DecidableEq, Repr

/-- An ATS invalidation whose completion is still to be sent (R227): physical pages of the removed entries. -/
structure InvalWait where
  pages : List (Nat × Nat)
deriving DecidableEq, Repr

/-- A published word (R132): its address and the scope of the PUBLISH that marked it. -/
structure PubMark where
  addr  : Nat
  scope : Scope
deriving DecidableEq, Repr

/-- Security and identity state (R490, R493-R496). `erased` persists without power. -/
structure Security where
  ready    : Bool := false
  erased   : Bool := false
  locked   : Bool := false
  policy   : Bool := false
  polSet   : Bool := false
  alarm    : Bool := false
  src      : BitVec 4 := 0
  svn      : Nat := 0
  fwver    : Nat := 0
  keyGen   : Nat := 0
  spdm     : Nat := 0
  powered  : Bool := true
  faults   : BitVec 4 := 0
  aliasKey : Option Nat := none
deriving DecidableEq, Repr

/-- The issue group being executed (R162). -/
structure IssueGroup where
  core    : Nat
  qtr     : Nat
  lslot   : Nat
  pc      : DWord
  threads : List ThreadId
deriving DecidableEq, Repr

/-- The state of the module. -/
structure State where
  mem      : List Host.Cell := []
  poison   : List Nat := []
  published : List PubMark := []
  threads  : List Thread := []
  groups   : List Group := []
  teams    : List Team := []
  quarters : List Quarter := []
  cores    : List CoreSt := []
  dies     : List Die := []
  launches : List Launch := []
  queues   : List QueueSt := []
  lctl     : Word := 0
  order    : Nat := 0
  reserved : List (Nat × Nat) := []          -- (core, queue) (R278)
  rrobin   : List Nat := [0, 0, 0, 0]        -- order of the launch served last at each priority level (R253)
  prectl   : Word := 0
  prestat  : Word := 0
  preempt  : Option Preempt := none
  saving   : List (Nat × Nat × Bool) := []   -- teams whose save has begun (core, slot, under R299)
  savebase : DWord := 0
  savesize : DWord := 0
  images   : List Image := []
  nextImage : Nat := 0
  drvpasid : Word := 0
  fltloc   : Word := 0
  dbgcmd   : Word := 0
  dbgsel   : Word := 0
  dbgwin   : List Byte := []
  rqbase   : DWord := 0
  podcfg   : Word := 0
  podmask  : Nat := 0
  rqerr    : Word := 0
  rqerrtag : Word := 0
  domains  : List Domain := []
  retire   : List RetireEntry := []
  pools    : List Pool := []
  kfqbase  : DWord := 0
  kfqctl   : Word := 4
  kfqtail  : Word := 0
  kfqhead  : Word := 0
  kfqres   : DWord := 0
  linkMap  : LinkMap := {}
  colls    : List Coll := []
  coords   : List Coord := []
  collGen  : List Nat := List.replicate 16 0
  step_    : Nat := 0                        -- DEVID.STEP
  featoff  : DWord := 0x7F
  featacc  : DWord := 0
  featDone : Bool := false
  thermWarn : Bool := false
  thermTrip : Bool := false
  warnt    : Nat := 95
  tmax     : Nat := 0
  sec      : Security := {}
  portUp   : List Bool := [true, true]
  ideKeys  : List Nat := [0, 0]
  tlb      : List TlbEntry := []
  ats      : List AtsRequest := []           -- the first 256 of a base die are sent
  pri      : List PageKey := []              -- page request groups, the first 1,024 sent
  invals   : List InvalWait := []
  hlc      : List HlcLine := []
  hlcReq   : List HlcLine := []              -- CXL.cache requests without a response
  hostHeld : List Nat := []                  -- 64-byte halves the host may hold (R215)
  bisnp    : List Nat := []
  subSeq   : List (List SubPart × Nat) := [] -- last sequence number of each subscribed physical range (R210)
  redDir   : List RedEntry := []             -- oldest first; a slice holds 256 (R204)
  corrected : Nat := 0                       -- soft errors corrected (R203)
  clock    : Nat := 0
  cur      : IssueGroup := { core := 0, qtr := 0, lslot := 0, pc := 0, threads := [] }
  second   : Option IssueGroup := none       -- the second pick of this cycle (R163)
  inbox    : List Instr := []
  lag      : List LagWord := []   -- rows of KVAPPs that other dies may not see yet (R434)
  choices  : List Nat := []
  fresh    : Nat := 0
  hostOut  : List HostMsg := []
  linkOut  : List LinkMsg := []
deriving DecidableEq, Repr

/-- The machine right after reset: no launch, no resident team, every register at its reset value (Tables 7.1-14.6); the
values the spec leaves open are those of assumption log 2. -/
def State.reset : State := {}

end Sys2Proof.Machine
end

