-- ==== Sys2Proof/Machine/Mem.lean ====
section
/-!
DEFINITION. Memory in one canonical form, the physical address map, and what a step does to memory (spec 05 R200-R207;
assumption log 1 and 15).
-/
namespace Sys2Proof.Machine

/-- First physical byte of die `d`'s vault offset 0 (log 15: one flat numbering of every location of the module). -/
def vaultBase (d : Nat) : Nat := 2 ^ 41 + d * 2 ^ 29
/-- First physical byte of core `c`'s scratchpad storage. -/
def scratchBase (c : Nat) : Nat := 2 ^ 42 + c * 2 ^ 21
/-- First physical byte of host memory. -/
def hostBase : Nat := 2 ^ 64

def isHost (a : Nat) : Bool := hostBase ≤ a
def isScratch (a : Nat) : Bool := 2 ^ 42 ≤ a && a < hostBase
def isVault (a : Nat) : Bool := 2 ^ 41 ≤ a && a < 2 ^ 42
def isDevice (a : Nat) : Bool := a < 2 ^ 40

/-- What an address that memory does not list reads as: 0x00 (log 1), but for device memory whose encryption key was
renewed by a conventional reset (R496), which reads as free bytes. -/
def memDefault (gen a : Nat) : Byte :=
  if gen = 0 then 0 else if isDevice a then Config.rekeyedByte gen a else 0

/-- The byte at an address. -/
def memGet (gen : Nat) (m : List Host.Cell) (a : Nat) : Byte :=
  match m with
  | [] => memDefault gen a
  | (k, v) :: r => if k = a then v else memGet gen r a

/-- Store one byte; `d` is what the address reads as when it is not listed. -/
def memPut (d : Byte) (m : List Host.Cell) (a : Nat) (v : Byte) : List Host.Cell :=
  match m with
  | [] => if v = d then [] else [(a, v)]
  | (k, x) :: r =>
    if k < a then (k, x) :: memPut d r a v
    else if k = a then (if v = d then r else (a, v) :: r)
    else if v = d then (k, x) :: r else (a, v) :: (k, x) :: r

/-- Addresses rise strictly, from `lo` on, and no entry equals what its address reads as when it is not listed. -/
def memWfFrom (gen lo : Nat) (m : List Host.Cell) : Bool :=
  match m with
  | [] => true
  | (k, v) :: r => decide (lo ≤ k) && decide (v ≠ memDefault gen k) && memWfFrom gen (k + 1) r

/-- Memory is in canonical form. -/
def memWf (gen : Nat) (m : List Host.Cell) : Bool := memWfFrom gen 0 m

/-- The canonical form of a state's memory. -/
def State.memOk (s : State) : Bool := memWf s.sec.keyGen s.mem

/-- The byte of memory at a physical address in a state. -/
def State.byte (s : State) (a : Nat) : Byte := memGet s.sec.keyGen s.mem a

/-- One effect of a step on memory: a byte stored, or a scratchpad or vault span set to zero (R208, R266). -/
inductive MemOp where
  | byte (a : Nat) (v : Byte)
  | clear (a n : Nat)
deriving DecidableEq, Repr

/-- One effect applied. A span is cleared by dropping its entries: outside device memory an unlisted address reads 0. -/
def memApply (gen : Nat) (m : List Host.Cell) (o : MemOp) : List Host.Cell :=
  match o with
  | .byte a v => memPut (memDefault gen a) m a v
  | .clear a n => m.filter fun c => !(decide (a ≤ c.1) && decide (c.1 < a + n) && !isDevice c.1)

/-- The effects of a step, newest first, applied oldest first. -/
def memCommit (gen : Nat) (m : List Host.Cell) (log : List MemOp) : List Host.Cell :=
  match log with
  | [] => m
  | o :: older => memApply gen (memCommit gen m older) o

/-- The byte at an address after the effects of `log`, newest first. -/
def memView (gen : Nat) (m : List Host.Cell) (log : List MemOp) (a : Nat) : Byte :=
  match log with
  | [] => memGet gen m a
  | .byte k v :: r => if k = a then v else memView gen m r a
  | .clear k n :: r => if k ≤ a ∧ a < k + n ∧ !isDevice a then 0 else memView gen m r a

end Sys2Proof.Machine
end

