-- ==== Sys2Proof/Machine/Ops.lean ====
section
/-!
DEFINITION. The named operations every meaning is built from: how a step runs, access to the units of the state,
memory at its coherence points, translation, arrival at a PC (04 R158-R170), and taking an exception and returning from
it (08 R286-R293).
-/
namespace Sys2Proof.Machine

/-! ### How a step runs -/

/-- The state a step works on: `log` holds its effects on memory, newest first; `actor` is the core that acts, plus 1;
`rekey` marks a new memory key (R496). -/
structure Work where
  st    : State
  actor : Nat := 0
  log   : List MemOp := []
  rekey : Bool := false

/-- A computation of one step. -/
abbrev W := StateM Work

/-- The state a step ends in: memory changes only by the effects of the step's log. -/
def finish (s : State) (w : Work) : State :=
  let gen := s.sec.keyGen + w.rekey.toNat
  { w.st with
    mem := memCommit gen (if w.rekey then s.mem.filter (fun c => isHost c.1) else s.mem) w.log
    sec := { w.st.sec with keyGen := gen } }

/-- A step that goes on to the next state. -/
def run (b : W Unit) (s : State) : Host.Outcome State Fault Refusal := .next (finish s (b { st := s }).2)

/-- Why an access or an engine's issue does not complete now: it waits (`wait` for a reply, `eng` for an engine
condition, `rng` for registered ranges, named by base and length), waits for a page, or raises a cause with sub-code and fault address. -/
inductive Stop where
  | wait
  | eng
  | rng (on : List (Nat × Nat))
  | line (l : Nat) (fa : DWord)
  | page (w : PageWait) (fa : DWord)
  | cause (c : Cause) (sub : Nat) (fa : DWord)
deriving DecidableEq, Repr

/-- A computation that can stop; what it did before stays done. -/
abbrev P := ExceptT Stop W

/-- Run a computation and see how it stopped. -/
def tryP {α : Type} (x : P α) : P (Except Stop α) := ExceptT.lift x.run

def getSt : W State := do return (← get).st
def upd (f : State → State) : W Unit := modify fun w => { w with st := f w.st }
def raiseP {α : Type} (c : Cause) (fa : DWord := 0) (sub : Nat := 0) : P α := throw (.cause c sub fa)

/-! ### Units -/

/-- Replace the first element `same` accepts, or add one at the end. -/
def upsert {α : Type} (same : α → Bool) (x : α) (xs : List α) : List α :=
  match xs with
  | [] => [x]
  | y :: ys => if same y then x :: ys else y :: upsert same x ys

def dieOf (core : Nat) : Nat := core / 32

def State.thread? (s : State) (t : ThreadId) : Option Thread := s.threads.find? fun x => x.tid = t
def State.group? (s : State) (c sl g : Nat) : Option Group :=
  s.groups.find? fun x => x.core = c && x.slot = sl && x.grp = g
def State.team? (s : State) (c sl : Nat) : Option Team := s.teams.find? fun x => x.core = c && x.slot = sl
def State.launch? (s : State) (l : Nat) : Option Launch := s.launches.find? fun x => x.slot = l
def State.quarter (s : State) (c q : Nat) : Quarter :=
  (s.quarters.find? fun x => x.core = c && x.qtr = q).getD { core := c, qtr := q }
def State.die (s : State) (d : Nat) : Die := (s.dies.find? fun x => x.id = d).getD { id := d }
/-- Cycles of a die's issue clock in 14 reference cycles (Table 14.5, R48). -/
def issueRate (pstate : Nat) : Nat := match pstate with | 0 => 14 | 1 => 12 | 2 => 9 | _ => 6
/-- The count of a die's issue clock, in which counts of cycles are given (chapter 0); it stands still while the clock
changes (R488). -/
def State.issueClock (s : State) (d : Nat) : Nat :=
  let x := s.die d
  if x.pchange.isSome then x.ibase else x.ibase + ((s.clock - x.iclk) * issueRate x.pcur + 13) / 14
def State.queue (s : State) (q : Nat) : QueueSt := (s.queues.find? fun x => x.q = q).getD { q }
def State.domain (s : State) (d : Nat) : Domain := (s.domains.find? fun x => x.d = d).getD { d }
/-- A core that no list names stands in its reset record, with the phase bit that every flip has reached (R384, R393). -/
def State.core (s : State) (c : Nat) : CoreSt :=
  (s.cores.find? fun x => x.id = c).getD
    { id := c, phase := (List.range 8).map fun d => flag (s.domain d).s.toNat 0 }
def State.pool (s : State) (p : Nat) : Pool := (s.pools.find? fun x => x.p = p).getD { p }

def State.setThread (s : State) (t : ThreadId) (f : Thread → Thread) : State :=
  { s with threads := s.threads.map fun x => if x.tid = t then f x else x }

def modThread (t : ThreadId) (f : Thread → Thread) : W Unit := upd fun s => s.setThread t f
def modGroup (c sl g : Nat) (f : Group → Group) : W Unit :=
  upd fun s => { s with groups := s.groups.map fun x => if x.core = c && x.slot = sl && x.grp = g then f x else x }
def modTeam (c sl : Nat) (f : Team → Team) : W Unit :=
  upd fun s => { s with teams := s.teams.map fun x => if x.core = c && x.slot = sl then f x else x }
def modLaunch (l : Nat) (f : Launch → Launch) : W Unit :=
  upd fun s => { s with launches := s.launches.map fun x => if x.slot = l then f x else x }
def modQuarter (c q : Nat) (f : Quarter → Quarter) : W Unit :=
  upd fun s => { s with quarters := upsert (fun x => x.core = c && x.qtr = q) (f (s.quarter c q)) s.quarters }
def modCore (c : Nat) (f : CoreSt → CoreSt) : W Unit :=
  upd fun s => { s with cores := upsert (fun x => x.id = c) (f (s.core c)) s.cores }
def modDie (d : Nat) (f : Die → Die) : W Unit :=
  upd fun s => { s with dies := upsert (fun x => x.id = d) (f (s.die d)) s.dies }
def modQueue (q : Nat) (f : QueueSt → QueueSt) : W Unit :=
  upd fun s => { s with queues := upsert (fun x => x.q = q) (f (s.queue q)) s.queues }
def modDomain (d : Nat) (f : Domain → Domain) : W Unit :=
  upd fun s => { s with domains := upsert (fun x => x.d = d) (f (s.domain d)) s.domains }
def modPool (p : Nat) (f : Pool → Pool) : W Unit :=
  upd fun s => { s with pools := upsert (fun x => x.p = p) (f (s.pool p)) s.pools }

/-- Threads of a team, and those of them that are live (R171). -/
def State.teamThreads (s : State) (c sl : Nat) : List Thread := s.threads.filter fun t => t.tid.core = c && t.slot = sl
def State.liveThreads (s : State) (c sl : Nat) : List Thread := (s.teamThreads c sl).filter fun t => !t.idle
/-- Threads of a launch. -/
def State.launchThreads (s : State) (l : Nat) : List Thread := s.threads.filter fun t => t.lslot = l

/-- PASID of a launch. -/
def State.pasidOf (s : State) (l : Nat) : Nat := match s.launch? l with | some x => x.rcd.pasid | none => 0
/-- Virtual address of a launch's kernel descriptor. -/
def State.kdescOf (s : State) (l : Nat) : DWord := match s.launch? l with | some x => x.rcd.kdesc | none => 0
/-- The accepted feature bit `k` is in force (R486, R487). -/
def State.feature (s : State) (k : Nat) : Bool := s.featDone && flag s.featacc.toNat k
/-- The accepted feature word, 0 before DONE. -/
def State.features (s : State) : Nat := if s.featDone then s.featacc.toNat else 0

def Thread.nest (t : Thread) : Nat := t.depth.foldl (· + ·) 0

/-! ### Choices, free values, messages -/

/-- A choice of the device among `n` (log 4): the head of `choices` modulo n; 0 when none is left. One alternative is no
choice. -/
def choose (n : Nat) : W Nat := do
  if n ≤ 1 then return 0
  let s ← getSt
  match s.choices with
  | [] => return 0
  | c :: cs => do
    upd fun s => { s with choices := cs }
    return c % n

/-- The next value of the counter of free values (log 5). -/
def freshN : W Nat := do
  let s ← getSt
  upd fun s => { s with fresh := s.fresh + 1 }
  return s.fresh

def sendHost (m : HostMsg) : W Unit := upd fun s => { s with hostOut := s.hostOut ++ [m] }
/-- MSI-X vector (R485). -/
def msix (v : Nat) : W Unit := sendHost (.msix v)
def sendLink (m : LinkMsg) : W Unit := upd fun s => { s with linkOut := s.linkOut ++ [m] }

/-! ### Bytes at the coherence points -/

def readByte (a : Nat) : W Byte := do
  let w ← get
  return memView w.st.sec.keyGen w.st.mem w.log a

def readBytes (a n : Nat) : W (List Byte) := do
  let w ← get
  return (List.range n).map fun k => memView w.st.sec.keyGen w.st.mem w.log (a + k)

/-- Little-endian value of `n` bytes (R16). -/
def readNat (a n : Nat) : W Nat := do return leValue (← readBytes a n)

/-- A byte of the span lies in a poisoned word (R203). -/
def State.poisoned (s : State) (a n : Nat) : Bool := s.poison.any fun w => w < a + n && a < w + 4
def isPoisoned (a n : Nat) : W Bool := do return (← getSt).poisoned a n

/-- Live subscriptions that mirror a byte of the span (R209). -/
def State.subsOf (s : State) (a n : Nat) : List (Nat × Sub) :=
  s.cores.flatMap fun c => (c.subs.filter fun u =>
    u.live && u.parts.any fun p => p.pa < a + n && a < p.pa + p.len).map (c.id, ·)

/-- Number an update of each subscribed range that a write within one line touches and send it to every subscriber
(R210); the poison of the words that it leaves poisoned travels with it (R203). -/
def multicast (a : Nat) (bs : List Byte) (mark : Option Scope) : W Unit := do
  let s ← getSt
  let subs := s.subsOf a bs.length
  let ranges := (subs.map fun x => x.2.parts).eraseDups
  for r in ranges do
    let s ← getSt
    let old := ((s.subSeq.find? fun x => x.1 = r).map (·.2)).getD 0
    let n := (old + 1) % 2 ^ 32
    let u : SubUpd := { seq := n, src := (← get).actor, addr := a, bytes := bs, mark
                        bad := s.poison.filter fun w => w < a + bs.length && a < w + 4 }
    upd fun s => { s with
      subSeq := upsert (fun x => x.1 = r) (r, n) s.subSeq
      cores := s.cores.map fun c => { c with subs := c.subs.map fun b =>
        if b.live && b.parts = r then { b with early := b.early ++ [u] } else b } }

/-- Mark the words of a span poisoned (R203). -/
def poisonAt (a n : Nat) : W Unit :=
  upd fun s => { s with poison :=
    (((List.range (n / 4 + 1)).map fun k => a / 4 * 4 + 4 * k).filter fun w => w < a + n && !s.poison.contains w)
      ++ s.poison }

/-- A span cut at the boundaries of device lines. -/
def linePieces (fuel a : Nat) (bs : List Byte) : List (Nat × List Byte) :=
  match fuel with
  | 0 => []
  | fuel + 1 =>
    let k := 128 - a % 128
    if bs.isEmpty then [] else (a, bs.take k) :: linePieces fuel (a + k) (bs.drop k)

/-- The 64-byte host lines that a span touches are modified in the host-line cache (R216). -/
def dirtyHostLines (a n : Nat) : W Unit :=
  upd fun s => { s with
    hlc := s.hlc.map fun h =>
      let b := hostBase + 64 * h.line
      if b < a + n && a < b + 64 then { h with dirty := true } else h }

/-- A write performed at its coherence point (R125): bytes stored, poison of wholly written words cleared, or set where
the data are poisoned (`bad`, R203), published marks of touched words cleared (R132), subscribers updated, one update a
line (R210). -/
def storeAt (a : Nat) (bs : List Byte) (mark : Option Scope := none) (bad : Bool := false) : W Unit := do
  let n := bs.length
  modify fun w => { w with
    log := (((List.range n).zip bs).map fun x => MemOp.byte (a + x.1) x.2).reverse ++ w.log
    st := { w.st with
      poison := w.st.poison.filter fun p => !(a ≤ p && p + 4 ≤ a + n)
      published := w.st.published.filter fun p => !(p.addr < a + n && a < p.addr + 4) } }
  if bad then poisonAt a n
  if isHost a then dirtyHostLines a n
  if isDevice a then
    for p in linePieces (n / 128 + 2) a bs do multicast p.1 p.2 mark

def storeNat (a n v : Nat) : W Unit := storeAt a (leBytes n v)
/-- What a computation does, done on behalf of a core, or of an agent that is none (R211). -/
def asAgent {α : Type} (core : Option Nat) (x : P α) : P α := do
  let old := (← get).actor
  modify fun w => { w with actor := match core with | some c => c + 1 | none => 0 }
  let r ← tryP x
  modify fun w => { w with actor := old }
  match r with
  | .ok v => return v
  | .error e => throw e
def asCore {α : Type} (core : Nat) (x : P α) : P α := asAgent (some core) x
/-- Set a scratchpad or vault span to zero. -/
def clearSpan (a n : Nat) : W Unit :=
  modify fun w => { w with log := .clear a n :: w.log
                           st := { w.st with poison := w.st.poison.filter fun p => !(a ≤ p && p < a + n)
                                             published := w.st.published.filter fun p => !(a ≤ p.addr && p.addr < a + n) } }

/-! ### Host link (05 R215, R216; 14 R483, R484) -/

/-- The host may hold the 64-byte half of this device address: send BISnp once, and wait for BIRsp (R215). -/
def needHalf (a : Nat) : P Unit := do
  if isDevice a then
    let h := a / 64
    let s ← getSt
    if s.hostHeld.contains h then
      if !s.bisnp.contains h then
        upd fun s => { s with bisnp := h :: s.bisnp }
        sendHost (.biSnp h)
      throw .wait

/-- The port of a host line is up (R483). -/
def State.portOf (s : State) (a : Nat) : Bool := (s.portUp[(a - hostBase) / 4096 % 2]?).getD true

/-- Hold the host line in the host-line cache, in the exclusive or modified state when `own` (R216); a line that a down
port serves fails with HOSTLINK, and vector 0 is sent (R484, R485). -/
def needLine (a : Nat) (own : Bool) (fa : DWord) : P Unit := do
  if isHost a then
    let l := (a - hostBase) / 64
    let s ← getSt
    match s.hlc.find? fun x => x.line = l with
    | some x => if x.own || !own then return
    | none => pure ()
    if !s.portOf a then
      msix 0
      raiseP .hostlink fa
    match s.hlcReq.find? fun x => x.line = l with
    | some x => if x.own || !own then throw (.line l fa)
    | none => pure ()
    upd fun s => { s with hlcReq := { line := l, own } :: s.hlcReq }
    sendHost (if own then .rdOwn l else .rdShared l)
    throw (.line l fa)

/-- The conditions of a read or a write at a span's coherence point. -/
def needSpan (a n : Nat) (write : Bool) (fa : DWord) : P Unit := do
  for k in List.range ((a + n - 1) / 64 + 1 - a / 64) do
    if write then needHalf (a / 64 * 64 + 64 * k)
    needLine (a / 64 * 64 + 64 * k) write fa

/-! ### Translation (05 R206, R225, R226) -/

/-- Kinds of result of one translation. -/
inductive Trans where
  | ok (pa : Nat)
  | vault
  | miss
  | perm
deriving DecidableEq, Repr

/-- Mask of ways of die `d` that an access may use now: those carved and not being returned (R208). -/
def State.usableWays (s : State) (d : Nat) : Nat :=
  let x := s.die d
  match x.carve with
  | some c => x.mask.toNat &&& c.new.toNat
  | none => x.mask.toNat

def permits (t : Translation) (i : Intent) : Bool :=
  match i with | .read => t.r | .write => t.w | .exec => t.x

/-- Pages of 4 KiB in a page. -/
def pagesIn (z : PageSize) : Nat := match z with | .kib4 => 1 | .mib2 => 512 | .gib1 => 262144

/-- The die of a TLB. -/
def Tlb.dieNo (t : Tlb) : Nat := match t with | .core c => dieOf c | .die d => d
/-- Entries of a TLB (R225). -/
def Tlb.room (t : Tlb) : Nat := match t with | .core _ => 64 | .die _ => 16384

/-- The entry's page holds the 4 KiB page `vpn`. -/
def TlbEntry.covers (e : TlbEntry) (pasid vpn : Nat) : Bool :=
  e.pasid = pasid && vpn / pagesIn e.tr.size = e.vpn / pagesIn e.tr.size

/-- What a TLB, else the one its die shares, holds of a page (R225). -/
def State.tlbEntry (s : State) (t : Tlb) (pasid vpn : Nat) : Option TlbEntry :=
  match s.tlb.find? fun e => e.tlb = t && e.covers pasid vpn with
  | some e => some e
  | none => s.tlb.find? fun e => e.tlb = .die t.dieNo && e.covers pasid vpn

/-- Physical address of a virtual one in the page of an entry. -/
def TlbEntry.phys (e : TlbEntry) (va : Nat) : Nat :=
  let z := 4096 * pagesIn e.tr.size
  match e.tr.target with
  | .dev p => (p / z * z + va % z) % 2 ^ 40
  | .host p => hostBase + p / z * z + va % z

/-- A translation enters a TLB; without room it takes the place of the oldest entry (log 56). -/
def fillTlb (e : TlbEntry) (es : List TlbEntry) : List TlbEntry :=
  let mine := (es.filter fun x => x.tlb = e.tlb && !(x.pasid = e.pasid && x.vpn = e.vpn)).take (e.tlb.room - 1)
  e :: mine ++ es.filter fun x => x.tlb ≠ e.tlb

/-- Translation of one virtual address for the agents that use TLB `t`: a core, or the engines of a die. `ways` are the
ways of the die's vault that the access may use. -/
def State.transWays (s : State) (ways : Nat) (t : Tlb) (pasid va : Nat) (i : Intent) : Trans :=
  let die := t.dieNo
  let vb := (s.die die).vapbase.toNat
  let base := vb / 2 ^ 33 * 2 ^ 33
  if vb % 2 = 1 && base ≤ va && va < base + 2 ^ 33 then
    let d := (va - base) / 2 ^ 29
    let o := (va - base) % 2 ^ 29
    if d ≠ die || o ≥ 400 * 2 ^ 20 || !flag ways (o / 20971520) then .vault
    else .ok (vaultBase d + o)
  else
    match s.tlbEntry t pasid (va / 4096) with
    | none => .miss
    | some e => if permits e.tr i then .ok (e.phys va) else .perm

def State.trans (s : State) (t : Tlb) (pasid va : Nat) (i : Intent) : Trans :=
  s.transWays (s.usableWays t.dieNo) t pasid va i

def AtsRequest.isFor (x : AtsRequest) (pasid vpn : Nat) : Bool := x.pasid = pasid && x.vpn = vpn

/-- Ask the host for a translation, or join the page's request that is on its way already. Each base die has 256
outstanding requests (R225); a further one is sent when one of them is answered. -/
def requestAts (t : Tlb) (pasid vpn : Nat) : W Unit := do
  let s ← getSt
  let base := t.dieNo / 4
  if s.ats.any (AtsRequest.isFor · pasid vpn) then
    upd fun s => { s with
      ats := s.ats.map fun x =>
        if x.isFor pasid vpn && !x.tlbs.contains t then { x with tlbs := x.tlbs ++ [t] } else x }
  else
    upd fun s => { s with ats := s.ats ++ [{ pasid, vpn, base, tlbs := [t] }] }
    if (s.ats.filter fun x => x.base = base).length < 256 then sendHost (.ats pasid vpn)

/-- The request has been sent to the host: it is among the first 256 of its base die. -/
def State.atsSent (s : State) (pasid vpn : Nat) : Bool :=
  (List.range 4).any fun b => ((s.ats.filter fun x => x.base = b).take 256).any fun x => x.isFor pasid vpn

/-- TLBs that the answer of a request fills: those that wait, and the shared ones of their dies. -/
def State.atsTlbs (s : State) (pasid vpn : Nat) : List Tlb :=
  let ts := (s.ats.filter fun x => x.isFor pasid vpn).flatMap AtsRequest.tlbs
  (ts ++ ts.map fun t => Tlb.die t.dieNo).eraseDups

/-- Remove an answered translation request; the next one of its base die that waits is sent. -/
def answerAts (pasid vpn : Nat) : W Unit := do
  let s ← getSt
  match s.ats.find? fun x => x.isFor pasid vpn with
  | none => return
  | some x => do
    upd fun s => { s with ats := s.ats.erase x }
    match ((s.ats.erase x).filter fun y => y.base = x.base)[255]? with
    | some y => sendHost (.ats y.pasid y.vpn)
    | none => return

/-- Send a page request, unless its group is on its way already; the chip holds 1,024 outstanding groups, and a further
one is sent when one frees (R297). -/
def requestPage (k : PageKey) : W Unit := do
  let s ← getSt
  if s.pri.contains k then return
  upd fun s => { s with pri := s.pri ++ [k] }
  if s.pri.length < 1024 then sendHost (.pri k)

/-- Remove an answered page request group; the next one that waits is sent. -/
def answerPage (k : PageKey) : W Unit := do
  let s ← getSt
  upd fun s => { s with pri := s.pri.erase k }
  match (s.pri.erase k)[1023]? with
  | some k => sendHost (.pri k)
  | none => return

/-- Translation and page requests leave through port 0; while it is down they fail with HOSTLINK, and vector 0 is sent (R484,
R485). -/
def needPort0 (fa : DWord) : P Unit := do
  if !(((← getSt).portUp[0]?).getD true) then
    msix 0
    raiseP .hostlink fa

/-- Translate for an access; `retry` is one more than the page whose request was last answered with Success, 0 for none: a
second failure of that page traps (R226); `early` marks the access of a command that was accepted before the CARVE in
progress, which completes normally (R208). -/
def translate (t : Tlb) (pasid : Nat) (va : DWord) (i : Intent) (retry : Nat) (early : Bool := false) : P Nat := do
  let s ← getSt
  let key : PageKey := { pasid, vpn := va.toNat / 4096, intent := i }
  let ways := if early then (s.die t.dieNo).mask.toNat else s.usableWays t.dieNo
  match s.transWays ways t pasid va.toNat i with
  | .ok pa => return pa
  | .vault => raiseP .vault va
  | .miss => do
    needPort0 va
    requestAts t pasid (va.toNat / 4096)
    throw (.page { key, ats := true } va)
  | .perm => do
    if retry = va.toNat / 4096 + 1 then raiseP .page va 3
    needPort0 va
    requestPage key
    throw (.page { key, ats := false } va)

/-! ### PC table (04 R158-R170) -/

/-- Renumber the stamps of live entries from 0 in their existing order (R159). -/
def renumber (q : Quarter) : Quarter :=
  let older := fun (x y : PcEntry) => x.stamp < y.stamp || (x.stamp = y.stamp && x.pc.toNat < y.pc.toNat)
  { q with entries := q.entries.map fun e => { e with stamp := (q.entries.filter fun x => older x e).length }
           stampCtr := q.entries.length }

/-- A fresh stamp (R159). -/
def freshStamp (c q : Nat) : W Nat := do
  let s ← getSt
  if (s.quarter c q).stampCtr ≥ 2 ^ 32 - 1 then modQuarter c q renumber
  let n := ((← getSt).quarter c q).stampCtr + 1
  modQuarter c q fun x => { x with stampCtr := n }
  return n

/-- Non-idle threads of a quarter that belong to the entry (R158). -/
def State.members (s : State) (q : Quarter) (e : PcEntry) : List Thread :=
  s.threads.filter fun t => t.tid.core = q.core && t.tid.qtr = q.qtr && t.lslot = e.lslot && t.pc = e.pc && !t.idle
    && !q.overflow.contains t.tid

/-- Free the entries that no thread belongs to, and drop overflow marks of threads that are gone or idle. -/
def freeEntries (c q : Nat) : W Unit := do
  let s ← getSt
  modQuarter c q fun x => { x with
    entries := x.entries.filter fun e => !(s.members x e).isEmpty
    overflow := x.overflow.filter fun t => (s.thread? t).any fun th => !th.idle }

/-- (launch slot, PC) of a thread. -/
def Thread.place (t : Thread) : Nat × DWord := (t.lslot, t.pc)

/-- Distinct-PC count of a quarter (R169). -/
def State.distinctPcs (s : State) (q : Quarter) : Nat :=
  q.entries.length + ((q.overflow.filterMap fun t => (s.thread? t).map Thread.place).eraseDups).length

/-- Leave serial mode when the distinct-PC count falls to 48 or below (R170): entries in order of the oldest arrival. -/
def leaveSerial (c q : Nat) : W Unit := do
  let s ← getSt
  let x := s.quarter c q
  if x.serial && s.distinctPcs x ≤ 48 then
    let places := (x.overflow.filterMap fun t => (s.thread? t).map Thread.place).eraseDups
    modQuarter c q fun x => { x with serial := false, overflow := [], serialClk := 0, serialN := 0 }
    for p in places do
      let st ← freshStamp c q
      modQuarter c q fun x => { x with entries := x.entries ++ [{ lslot := p.1, pc := p.2, stamp := st }] }

/-- Threads of one quarter and launch, whose PCs have been set, join the entry of their PC with a stamp (R159, R169);
`force` gives the entry that stamp whatever its earlier value (YIELD). -/
def joinEntry (c q lslot : Nat) (pc : DWord) (stamp : Nat) (force : Bool) (ts : List ThreadId) : W Unit := do
  let x := (← getSt).quarter c q
  if x.entries.any fun e => e.lslot = lslot && e.pc = pc then
    modQuarter c q fun x => { x with
      overflow := x.overflow.filter fun t => !ts.contains t
      entries := x.entries.map fun e =>
        if e.lslot = lslot && e.pc = pc then { e with stamp := if force then stamp else min e.stamp stamp } else e }
  else if x.serial || x.entries.length ≥ 64 then
    modQuarter c q fun x => { x with
      overflow := x.overflow ++ ts.filter fun t => !x.overflow.contains t
      serialClk := if x.serial then x.serialClk else 0
      serialN := if x.serial then x.serialN else 0
      serial := true }
  else
    modQuarter c q fun x => { x with
      overflow := x.overflow.filter fun t => !ts.contains t
      entries := x.entries ++ [{ lslot, pc, stamp }] }

/-- After threads of a quarter moved, parked or went idle: free entries, leave serial mode. -/
def settleQuarter (c q : Nat) : W Unit := do
  freeEntries c q
  leaveSerial c q

/-- A thread arrives at a PC with a fresh stamp (R159, item 4). -/
def arriveFresh (t : ThreadId) (pc : DWord) : W Unit := do
  match (← getSt).thread? t with
  | none => return
  | some th => do
    modThread t fun x => { x with pc }
    if !th.idle then
      freeEntries t.core t.qtr
      let st ← freshStamp t.core t.qtr
      joinEntry t.core t.qtr th.lslot pc st false [t]
      leaveSerial t.core t.qtr

/-- Arrivals of an issue group (R159): `moves` gives each thread's next PC, `old` the stamp of the issuing entry;
`yield` marks YIELD. -/
def arrive (old : Nat) (yield : Bool) (seq : DWord) (moves : List (ThreadId × DWord)) : W Unit := do
  let s ← getSt
  match moves with
  | [] => return
  | (t0, _) :: _ => do
    let c := t0.core
    let q := t0.qtr
    let lslot := s.cur.lslot
    for m in moves do modThread m.1 fun x => { x with pc := m.2 }
    freeEntries c q
    let pcs := (moves.map (·.2)).eraseDups
    let at_ := fun pc => (moves.filter fun m => m.2 = pc).map (·.1)
    if yield then
      let st ← freshStamp c q
      for pc in pcs do joinEntry c q lslot pc st true (at_ pc)
    else if pcs.length = 1 then
      for pc in pcs do joinEntry c q lslot pc old false (at_ pc)
    else
      if pcs.contains seq then joinEntry c q lslot seq old false (at_ seq)
      let st ← freshStamp c q
      for pc in pcs.filter (· ≠ seq) do joinEntry c q lslot pc st false (at_ pc)
    leaveSerial c q

/-- Stamp of the entry that the current issue group was picked from. An overflow thread has none: it arrives with the
value of the quarter's counter, so behind every entry (DESIGN CHOICE, log 9: R170 states no stamp). -/
def State.curStamp (s : State) : Nat :=
  let q := s.quarter s.cur.core s.cur.qtr
  ((q.entries.find? fun e => e.lslot = s.cur.lslot && e.pc = s.cur.pc).map (·.stamp)).getD q.stampCtr

/-! ### Issued and unfinished instructions (R294) -/

/-- Classes of Table 8.3: 0 memory, 1 function unit, 2 E-form. -/
def classOf (i : Instr) : Option Nat :=
  match form i with
  | .f op _ => if 0x140 ≤ op && op ≤ 0x14A then some 1 else none
  | .m _ _ => some 0
  | .i op _ => if (6 ≤ op && op ≤ 9) || op = 0x19 || op = 0x1A then some 0 else none
  | .e _ _ => some 2
  | _ => none

/-- Instruction of an entry. -/
def Entry.instr? (e : Entry) : Option Instr := match decodeWord e.word with | .ok i => some i | .error _ => none
def Entry.isFu (e : Entry) : Bool := match e.instr? with | some i => classOf i = some 1 | none => false

/-! ### Taking an exception (08 R286-R293) -/

/-- Bit number of a cause (Table 8.1). -/
def Cause.bit (c : Cause) : Nat :=
  match c with
  | .ill => 0 | .pair => 1 | .laviol => 2 | .operand => 3 | .regbound => 4 | .align => 5 | .page => 6 | .prot => 7
  | .landing => 8 | .range => 9 | .atype => 10 | .sectionC => 11 | .conv => 12 | .queue => 13 | .kvfault => 14
  | .vault => 15 | .token => 16 | .swtrap => 17 | .bkpt => 18 | .watchdog => 19 | .ecc => 20 | .spec => 21
  | .coll => 22 | .hostlink => 23

/-- Mask of cause `k` in a group. -/
def Group.mask (g : Group) (k : Nat) : DWord := (g.masks[k]?).getD 0
/-- Cause bitmap (R286): bit k reads 1 exactly while mask k is nonzero. -/
def Group.bitmap (g : Group) : DWord :=
  (List.range 24).foldl (fun acc k => if g.mask k = 0 then acc else acc ||| (1#64 <<< k)) 0

def setMaskBit (th : Thread) (k : Nat) (v : Bool) : W Unit :=
  modGroup th.tid.core th.slot th.grp fun g =>
    { g with masks := g.masks.mapIdx fun j m =>
        if j = k then (if v then m ||| (1#64 <<< th.rel) else m &&& ~~~(1#64 <<< th.rel)) else m }

/-- Wait on an issued and unfinished instruction that still has to finish before a trap entry (R291 step 2). -/
def Thread.settled (t : Thread) : Bool := t.unf.all fun e => e.st ≠ 0 || e.queued

/-- FLTLOC and vector 0 for a thread that halts under R289 or R290 (R308). -/
def reportHalt (th : Thread) (dbl : Bool) : W Unit := do
  let t := th.tid
  upd fun s => { s with fltloc := BitVec.ofNat 32 (2 ^ 31 + dbl.toNat * 2 ^ 30 + t.core / 32 * 2 ^ 26
    + t.core % 32 * 2 ^ 21 + t.qtr * 2 ^ 19 + t.row * 2 ^ 14 + t.lane * 2 ^ 8 + th.lslot % 256) }
  msix 0

/-- A wait that goes on after a park on an access, or after a handler, that came meanwhile (log 35). -/
def Wait.kept (w : Wait) : Bool :=
  match w with | .bar _ | .cvw _ | .cvDeferred _ | .nap _ | .eng (.acting ..) | .eng (.assign _) => true | _ => false

/-- Park a thread on one of its accesses; the wait it leaves goes on later. -/
def Thread.parkAt (x : Thread) (w : Wait) : Thread :=
  { x with wait := w, resume := if x.wait.kept then x.wait else x.resume }
/-- The thread is no longer parked on an access. -/
def Thread.goOn (x : Thread) : Thread := { x with wait := x.resume, resume := .ready }
/-- The wait `w` of a thread ends, whatever the thread does meanwhile. -/
def Thread.endWait (x : Thread) (w : Wait) : Thread :=
  { x with wait := if x.wait = w then .ready else x.wait
           resume := if x.resume = w then .ready else x.resume
           outer := if x.outer = w then .ready else x.outer }

/-- Enter the handler (R291), or halt (R289, R290), for a thread with a pending cause whose instructions have all
finished or stand in the replay queue. -/
def trapEnter (t : ThreadId) : W Unit := do
  let s ← getSt
  match s.thread? t with
  | none => return
  | some th =>
    match th.pending with
    | none => return
    | some p => do
      if th.halt.isSome then return
      if th.handler then
        modThread t fun x => { x with dbl := true, halt := some (.double p.cause), windows := [] }
        reportHalt th true
      else if !th.settled then return
      else
        let tpc := if p.q then th.pc else p.tpc
        let desc := (s.launch? th.lslot).bind Launch.desc
        let tv := (desc.map Desc.tv).getD false
        modThread t fun x => { x with windows := [], tq := p.q, dbl := false, nestin := BitVec.ofNat 8 th.nest,
                                      tpc, pending := none }
        if tv then
          modThread t fun x => { x with
            handler := true, wait := .ready, resume := .ready
            outer := if x.wait.kept then x.wait else x.resume }
          let vec := (desc.map Desc.trapvec).getD 0
          arriveFresh t (s.kdescOf th.lslot + BitVec.ofNat 64 (8 * vec))
        else
          modThread t fun x => { x with halt := some (.cause p.cause), outer := if x.wait.kept then x.wait else x.resume }
          reportHalt th false

/-- A trap finds function-unit instructions of the thread issued and unfinished: the device lets each complete, or leaves it
in the replay queue (R237). -/
def leaveFu (t : ThreadId) : W Unit := do
  match (← getSt).thread? t with
  | none => return
  | some th =>
    for e in th.unf do
      if e.st = 0 && !e.queued && e.val.isNone && e.isFu && !th.handler then
        if (← choose 2) = 1 then
          modThread t fun x => { x with unf := x.unf.map fun y => if y.id = e.id then { y with queued := true } else y }

/-- An access of an idle lane raises a cause: the lane's thread is live for its handler (log 35). -/
def revive (t : ThreadId) : W Unit := do
  match (← getSt).thread? t with
  | none => return
  | some th =>
    if th.idle then
      modThread t fun x => { x with idle := false, gone := true, wait := .eng (.assign 0) }
      arriveFresh t th.pc

/-- A thread raises a cause (R286-R291). `q` marks a raising instruction that stands in the replay queue; `tpc` is the
address of the raising word, or the address that could not be fetched. -/
def raise (t : ThreadId) (c : Cause) (q : Bool) (tpc : DWord) : W Unit := do
  match (← getSt).thread? t with
  | none => return
  | some th => do
    revive t
    setMaskBit th c.bit true
    modThread t fun x => { x with
      windows := []
      pending := match x.pending with
        | some p => some { p with q := p.q || q }
        | none => some { cause := c, q, tpc } }
    leaveFu t
    trapEnter t

/-- ILL with its sub-code (R52, Table 8.2). -/
def raiseIll (t : ThreadId) (sub : Nat) (tpc : DWord) : W Unit := do
  modThread t fun x => { x with sub := BitVec.ofNat 8 sub }
  raise t .ill false tpc

/-- TSTAT as CSR 0x012 reads it (Table 8.2). -/
def Thread.tstat (t : Thread) : Word :=
  BitVec.ofNat 32 (t.tq.toNat * 2 ^ 31 + t.dbl.toNat * 2 ^ 30 + t.code.toNat * 2 ^ 21 + t.sub.toNat * 2 ^ 13
    + (t.unf.filter fun e => e.queued).length * 2 ^ 8 + t.nestin.toNat)

/-- Return to the interrupted program (R315): the thread leaves handler mode, its windows close (R41), and it resumes at
TPC with a fresh stamp, waiting on where a wait was left (log 35). The
replay queue is re-injected first (`Sys2Proof.Machine.reinject`). -/
def resumeAt (t : ThreadId) (pc : DWord) : W Unit := do
  modThread t fun x => { x with
    wait := x.outer, resume := .ready, outer := .ready, handler := false, windows := []
    unf := x.unf.map fun e => { e with hand := false } }
  arriveFresh t pc

/-- A thread holds driver privilege (R306). -/
def State.driverPriv (s : State) (th : Thread) : Bool :=
  flag s.drvpasid.toNat 31 && s.drvpasid.toNat % 2 ^ 20 = s.pasidOf th.lslot
/-- Handler or driver privilege (R55, R306). -/
def State.anyPriv (s : State) (th : Thread) : Bool := th.handler || s.driverPriv th

end Sys2Proof.Machine
end

