-- ==== Sys2Proof/Machine/Operands.lean ====
section
/-!
DEFINITION. Every operand form: the code space of spec 01 R42-R49, the operands each instruction names, the checks of
R43, R44, R53, and the values operands read and write.
-/
namespace Sys2Proof.Machine

/-- Registers a type spans (R43). -/
def tyRegs (t : Ty) : Nat := match t with | .b64 | .i64 => 2 | .b128 => 4 | _ => 1

/-- How an operand field is used: an ordinary operand; one that a queue code may not name; a link, target or return
pair, which only v and s registers may hold (R188); the run of `n` v registers of LDV and STV (R144); the queue name of
QTRY (R198); DA of a P-form slot, a v register (R29); B of a P-form slot. -/
inductive OpKind where
  | plain | noQueue | link | run (n : Nat) | queueName | slotDA | slotB
deriving DecidableEq, Repr

/-- One operand field: its code, the type it is read or written with, and whether it is a destination. A P-form DA that
is also a source has `also`. -/
structure Opd where
  code : Code
  ty   : Ty
  dst  : Bool := false
  kind : OpKind := .plain
  also : Bool := false
deriving DecidableEq, Repr

/-- What an instruction names: operands in the order D, A, B, C or O1 to O5, predicates read and written, index registers
read and written. -/
structure Uses where
  ops  : List Opd := []
  pr   : List Nat := []
  pw   : List Nat := []
  ixr  : List Nat := []
  ixw  : List Nat := []
deriving DecidableEq, Repr

/-- Registers an operand spans. -/
def Opd.width (o : Opd) : Nat := match o.kind with | .run n => n | _ => tyRegs o.ty

/-! ### The operands of each instruction -/

def dOp (c : Code) (t : Ty) (kind : OpKind := .plain) : Opd := { code := c, ty := t, dst := true, kind }
def sOp (c : Code) (t : Ty) (kind : OpKind := .plain) : Opd := { code := c, ty := t, kind }
def pn (c : Code) : Nat := c.toNat % 16

def use1 (w : FWord) (dt at_ : Ty) : Uses := { ops := [dOp w.d dt, sOp w.a at_] }
def use2 (w : FWord) (dt at_ bt : Ty) : Uses := { ops := [dOp w.d dt, sOp w.a at_, sOp w.b bt] }
def use3 (w : FWord) (dt at_ bt ct : Ty) : Uses := { ops := [dOp w.d dt, sOp w.a at_, sOp w.b bt, sOp w.c ct] }

/-- Type a shift count is read as (R84). -/
def shiftTy (t : Ty) : Ty := match t with | .b16x2 | .i16x2 => .b16x2 | _ => .b32
/-- Type FSCALE's n is read as (R102). -/
def scaleTy (t : Ty) : Ty := match t with | .f32 => .i32 | _ => .i16x2
/-- Type PACK reads its sources as, and UNPK writes (R107, R108). -/
def wideTy (t : Ty) : Ty := match t with | .i16x2 => .i32 | .b16x2 => .b32 | .i8x4 => .i16x2 | _ => .b16x2
/-- Type of IDOT4's C and D (R82). -/
def dotTy (t : Ty) : Ty := match t with | .i8x4 => .i32 | _ => .b32

/-- Operands of an F-form word with the arithmetic layout. -/
def usesF (op : Nat) (w : FWord) : Uses :=
  let t := w.ty
  if op = 0x005 then use2 w .b64 t t
  else if op = 0x006 || op = 0x083 then use3 w t t t t
  else if op = 0x00A then use3 w (dotTy t) t t (dotTy t)
  else if op = 0x014 || op = 0x015 || op = 0x016 then use2 w t t (shiftTy t)
  else if op = 0x017 then use3 w .b32 .b32 .b32 .b32
  else if op = 0x018 || op = 0x019 then use3 w t t t .b32
  else if op = 0x01A || op = 0x01B then use1 w .b32 t
  else if op = 0x01C || op = 0x023 || op = 0x089 || op = 0x08B || op = 0x088 then use1 w t t
  else if op = 0x01D then
    match w.fl with
    | 0 | 2 => use3 w .b32 .b32 .b32 .b32
    | 1 => use1 w .b32 .b32
    | _ => { ops := [dOp w.d .b32, sOp w.a .b32, sOp w.c .b32] }
  else if op = 0x020 || op = 0x087 then { ops := [sOp w.a t, sOp w.b t], pr := [pn w.c], pw := [pn w.d] }
  else if op = 0x021 then { pr := [pn w.a, pn w.b, pn w.c], pw := [pn w.d] }
  else if op = 0x022 then { use2 w t t t with pr := [pn w.c] }
  else if op = 0x024 then use2 w .b64 .b64 t
  else if op = 0x025 then { use2 w .b32 .b32 .b32 with pr := if w.f1 then [pn w.c] else [], pw := [pn w.c] }
  else if op = 0x026 then
    if w.f0 then { ops := [dOp w.d .b32], ixr := [w.a.toNat % 8] }
    else { ops := [sOp w.a .b32, sOp w.b .b32], ixr := if w.f1 then [w.d.toNat % 8] else [], ixw := [w.d.toNat % 8] }
  else if op = 0x08A then use2 w t t (scaleTy t)
  else if op = 0x08C then use3 w .f32 t t .f32
  else if op = 0x100 then
    if cvtUsesB w then use2 w t .f32 .f32 else use1 w t (cvtSrc w)
  else if op = 0x101 then use2 w t (wideTy t) (wideTy t)
  else if op = 0x102 then use1 w (wideTy t) t
  else if op = 0x147 then use1 w .b64 t
  else if op = 0x149 || op = 0x14A then use2 w t t t
  else if 0x140 ≤ op && op ≤ 0x148 then use1 w t t
  else if op = 0x1C0 then
    { ops := [dOp w.d t .noQueue, sOp w.a t .noQueue, sOp w.b .b32 .noQueue], pw := [pn w.c] }
  else if op = 0x1C1 then
    match voteMode w with
    | 0 => { ops := [dOp w.d .b64 .noQueue], pr := [pn w.a] }
    | 1 => { ops := [dOp w.d .b32 .noQueue], pr := [pn w.a] }
    | 2 => { pr := [pn w.a], pw := [pn w.d, pn w.c] }
    | _ => { pr := [pn w.a], pw := [pn w.d] }
  else if op = 0x1C2 || op = 0x1C3 then { ops := [dOp w.d t .noQueue, sOp w.a t .noQueue] }
  else if op = 0x1C4 then { ops := [dOp w.d .b64 .noQueue, sOp w.a t .noQueue] }
  else if op = 0x1C5 then { pw := [pn w.d] }
  else if op = 0x1C6 then { ops := [dOp w.d .b64 .noQueue] }
  else if op = 0x1C7 then
    if w.f0 then { ops := [sOp w.d .b32 .queueName, sOp w.a .b32 .noQueue], pw := [pn w.c] }
    else { ops := [dOp w.d .b32 .noQueue, sOp w.a .b32 .queueName], pw := [pn w.c] }
  else use2 w t t t

/-- Count of LDV and STV (R144). -/
def runCount (w : MWord) : Nat := w.c.toNat - 0x1C0

/-- Operands of an F-form word with the memory layout (Table 3.15). -/
def usesM (op : Nat) (w : MWord) : Uses :=
  match op with
  | 0x180 | 0x186 => { ops := [dOp w.d w.ty, sOp w.a .b64, sOp w.b .i32] }
  | 0x181 | 0x187 => { ops := [sOp w.d w.ty, sOp w.a .b64, sOp w.b .i32] }
  | 0x182 => { ops := [dOp w.d w.ty, sOp w.a .b32, sOp w.b .i32] }
  | 0x183 => { ops := [sOp w.d w.ty, sOp w.a .b32, sOp w.b .i32] }
  | 0x184 => { ops := [dOp w.d .b32 (.run (runCount w)), sOp w.a .b64, sOp w.b .i32] }
  | 0x185 => { ops := [sOp w.d .b32 (.run (runCount w)), sOp w.a .b64, sOp w.b .i32] }
  | 0x188 => { ops := [dOp w.d w.ty, sOp w.a .b64, sOp w.b w.ty] }
  | 0x189 => { ops := [dOp w.d w.ty, sOp w.a .b64, sOp w.b w.ty, sOp w.c w.ty] }
  | 0x18A => { ops := [sOp w.d w.ty, sOp w.a .b64] }
  | 0x18B => { ops := [dOp w.d w.ty, sOp w.a .b32, sOp w.b (if w.c = 15 then .b64 else w.ty)] }
  | 0x18C => { ops := [dOp w.d w.ty, sOp w.a .b64, sOp w.b (if w.c = 15 then .b64 else w.ty)] }
  | 0x18E => { ops := [sOp w.a .b64, sOp w.b .i32] }
  | _ => {}

/-- Operand field of MOD10[8:0] (R32). -/
def iOperand (w : IWord) : Code := BitVec.ofNat 9 w.mod10.toNat

/-- Operands of an I-form word (Table 1.7b). -/
def usesI (op : Nat) (w : IWord) : Uses :=
  match op with
  | 0x00 => { ops := [dOp w.d .b32] }
  | 0x01 | 0x02 | 0x03 | 0x04 => { ops := [dOp w.d .b32, sOp (iOperand w) .b32] }
  | 0x05 => { ops := [sOp (iOperand w) .b32], pw := [pn w.d] }
  | 0x06 => { ops := [dOp w.d (immTy w), sOp (iOperand w) .b64] }
  | 0x07 => { ops := [sOp w.d (immTy w), sOp (iOperand w) .b64] }
  | 0x08 => { ops := [dOp w.d (immTy w), sOp (iOperand w) .b32] }
  | 0x09 => { ops := [sOp w.d (immTy w), sOp (iOperand w) .b32] }
  | 0x11 => { ops := [dOp w.d .b64 .link] }
  | 0x12 | 0x13 => { ops := [sOp (iOperand w) .b64 .link] }
  | 0x14 => { ops := [dOp w.d .b64 .link, sOp (iOperand w) .b64 .link] }
  | 0x19 => { ops := [sOp (iOperand w) (if w.mod10.toNat ≥ 512 then .b32 else .b64)] }
  | 0x1A => { ops := [sOp w.d (immTy w), sOp (iOperand w) (if w.mod10.toNat ≥ 512 then .b32 else .b64)] }
  | _ => {}

/-- Operands of one P-form slot (R28, R109); the MOV slot does not read DA. -/
def usesSlot (s : PSlot) : List Opd :=
  match s.op with
  | .empty => []
  | .mov => [{ code := s.da, ty := s.ty, dst := true, kind := .slotDA }, sOp s.b s.ty .slotB]
  | .shl | .shr | .sar =>
    [{ code := s.da, ty := s.ty, dst := true, kind := .slotDA, also := true }, sOp s.b (shiftTy s.ty) .slotB]
  | _ => [{ code := s.da, ty := s.ty, dst := true, kind := .slotDA, also := true }, sOp s.b s.ty .slotB]

def eD (c : Code) (t : Ty := .b32) : Opd := dOp c t .noQueue
def eS (c : Code) (t : Ty := .b32) : Opd := sOp c t .noQueue

/-- Operands of an E-form word (Tables 5.7, 7.7, 8.11, 9.7, 10.6, 11.8, 12.15, 13.7). -/
def usesE (op : Nat) (w : EWord) : Uses :=
  match op with
  | 0x00 | 0x02 => { ops := [eS w.o1, eS w.o2 .b64, eS w.o3 .b64, eS w.o4, eS w.o5 .b64] }
  | 0x01 => { ops := [eS w.o1, eS w.o2, eS w.o3] }
  | 0x03 => { ops := [eS w.o1, eS w.o2 .b64, eS w.o3 .b64, eS w.o4, eS w.o5] }
  | 0x10 => { ops := [eS w.o2 .b64] }
  | 0x11 | 0x12 => { ops := [eS w.o3, eS w.o5] }
  | 0x13 => { ops := [eS w.o3] }
  | 0x14 | 0x15 | 0x17 | 0x18 => { ops := [eS w.o3, eS w.o5] }
  | 0x16 => { ops := [eD w.o1, eS w.o3, eS w.o4] }
  | 0x19 => { ops := [eS w.o3, eS w.o5] }
  | 0x1A => { ops := [eS w.o5] }
  | 0x1B => { ops := [eD w.o1] }
  | 0x20 => { ops := [eS w.o1] }
  | 0x21 => { ops := [eD w.o1, eS w.o2 .b64, eS w.o3, eS w.o4, eS w.o5] }
  | 0x22 | 0x23 => { ops := [eD w.o1, eS w.o2 .b64, eS w.o3] }
  | 0x24 => { ops := [eS w.o1 .b64, eS w.o2, eS w.o3, eS w.o4] }
  | 0x25 => { ops := [eD w.o1, eS w.o2 .b64, eS w.o3, eS w.o4] }
  | 0x26 => { ops := [eS w.o1 .b64, eS w.o2 .b64, eS w.o3, eS w.o4 .b64] }
  | 0x27 => { ops := [eS w.o1 .b64, eS w.o2, eS w.o3 .b64, eS w.o4] }
  | 0x28 => { ops := [eD w.o1 .b64] }
  | 0x29 => { ops := [eS w.o1 .b64] }
  | 0x32 => { ops := [eS w.o1 .b64, eS w.o2 (if w.fl then .b32 else .b64)] }
  | 0x33 => { ops := [eD w.o1, eS w.o2 .b64, eS w.o3 .b64, eS w.o4 .b64, eS w.o5] }
  | 0x34 => { ops := [eD w.o1] }
  | 0x35 => { ops := [eD w.o1, eS w.o4] }
  | 0x40 => { ops := [eD w.o1, eS w.o2 .b64] }
  | 0x41 | 0x42 | 0x43 | 0x44 => { ops := [eD w.o1, eS w.o2] }
  | 0x50 => { ops := [eD w.o1, eS w.o2 .b64, eS w.o3, eS w.o4] }
  | 0x51 | 0x52 => { ops := [eD w.o1, eS w.o2] }
  | 0x53 => { ops := [eS w.o1 .b64, eS w.o2, eS w.o3] }
  | 0x54 => { ops := if w.fl then [] else [eS w.o2] }
  | 0x55 => { ops := [eS w.o2] }
  | 0x60 => { ops := [eD w.o1, eS w.o2 .b64] }
  | 0x61 => { ops := [eD w.o1] }
  | 0x63 => { ops := [eS w.o1 .b64, eS w.o2] }
  | 0x72 | 0x75 => { ops := [eD w.o1] }
  | 0x73 => { ops := [eS w.o3] }
  | 0x76 => { ops := [eS w.o2] }
  | 0x78 => { ops := [eD w.o1, eS w.o3] }
  | 0x79 => { ops := [eD w.o1, eS w.o2, eS w.o3] }
  | _ => {}

/-- The guard of a word; P-form words have none (R36). -/
def guardOf (i : Instr) : Guard :=
  match form i with
  | .f _ w => w.g | .m _ w => w.g | .i _ w => w.g | .e _ w => w.g | _ => { gn := false, gp := 0 }

/-- Everything an instruction names. The guard predicate counts as read, but for the guard "always" (R40). -/
def usesOf (i : Instr) : Uses :=
  let u := match form i with
    | .f op w => usesF op w
    | .m op w => usesM op w
    | .i op w => usesI op w
    | .e op w => usesE op w
    | .p w => { ops := usesSlot w.slot0 ++ usesSlot w.slot1 }
    | .step => {}
  { u with pr := (guardOf i).gp.toNat :: u.pr }

/-- LA of a word (R38). -/
def laOf (i : Instr) : Nat :=
  match form i with | .f _ w => w.la.toNat | .m _ w => w.la.toNat | .e _ w => w.la.toNat | _ => 0

/-! ### Checks (R43, R44, R53) -/

def isV (c : Nat) : Bool := c ≤ 0x13F
def isS (c : Nat) : Bool := 0x140 ≤ c && c ≤ 0x17F
def isIx (c : Nat) : Bool := 0x180 ≤ c && c ≤ 0x187
def isQ (c : Nat) : Bool := 0x188 ≤ c && c ≤ 0x18F
def isH (c : Nat) : Bool := 0x190 ≤ c && c ≤ 0x19F
def isSpecial (c : Nat) : Bool := 0x1A0 ≤ c && c ≤ 0x1B0
def isInt (c : Nat) : Bool := 0x1C0 ≤ c && c ≤ 0x1DF
def isFp (c : Nat) : Bool := 0x1E0 ≤ c && c ≤ 0x1EF

/-- Register number `n` is misaligned for `w` registers. -/
def misPair (w n : Nat) : Bool := (w = 2 && n % 2 ≠ 0) || (w = 4 && n % 4 ≠ 0)

/-- An inline FP constant supplies a value for these types (R46). -/
def fpOk (t : Ty) : Bool := match t with | .f32 | .b32 | .i32 | .f16x2 | .bf16x2 => true | _ => false

/-- The field traps OPERAND at decode. A link or target pair may be named through an index register, whose number is
checked when it is resolved (DESIGN CHOICE, log 57: R188 does not say whether v[ix] is a v code). -/
def Opd.badOperand (o : Opd) : Bool :=
  let c := o.code.toNat
  let w := tyRegs o.ty
  match o.kind with
  | .run _ => !(isV c || isIx c)
  | .queueName => !isQ c
  | .slotDA => !(isV c || isIx c)
  | .slotB => isQ c || isH c || (0x1B1 ≤ c && c ≤ 0x1BF) || 0x1F0 ≤ c || (isFp c && !fpOk o.ty)
  | .link => !((isV c || isIx c || isS c)) || (isV c && misPair w c) || (isS c && misPair w c)
  | k =>
    if isV c then misPair w c
    else if isIx c then false
    else if isS c || isH c then w = 4 || misPair w c
    else if isQ c then w ≠ 1 || k = .noQueue
    else if o.dst then true
    else if isSpecial c then w ≠ 1
    else if isInt c then w = 4
    else if isFp c then !fpOk o.ty
    else true

/-- The field traps PROT at decode: an h register outside handler mode (R43). -/
def Opd.badProt (o : Opd) (handler : Bool) : Bool :=
  isH o.code.toNat && !handler && (match o.kind with | .plain | .noQueue => true | _ => false)

/-- The field traps REGBOUND at decode: a directly named register past the declared count. -/
def Opd.badBound (o : Opd) (declared : Nat) : Bool :=
  isV o.code.toNat && (match o.kind with | .queueName => false | _ => o.code.toNat + o.width > declared)

/-- Index register of an index operand. -/
def Opd.index (o : Opd) : Option Nat :=
  if isIx o.code.toNat then some (o.code.toNat - 0x180) else none

/-- v register number of a v or index operand of a thread. -/
def Opd.vnum (o : Opd) (th : Thread) : Option Nat :=
  if isV o.code.toNat then some o.code.toNat
  else (o.index).map fun k => ((th.ix[k]?).getD 0).toNat

/-- The cause that a resolved index operand raises, by the order of checks that R43 gives for one operand: OPERAND for its
alignment, then REGBOUND (DEDUCED, log 57: R53 names the two in the other order and takes the fields in turn). -/
def Opd.indexCause (o : Opd) (th : Thread) : Option Cause :=
  match o.index with
  | none => none
  | some k =>
    let n := ((th.ix[k]?).getD 0).toNat
    if (match o.kind with | .run _ => false | _ => misPair (tyRegs o.ty) n) then some .operand
    else if n + o.width > th.declared then some .regbound
    else none

/-- Registers an operand of a thread touches, after index resolution (R40). -/
def Opd.regs (o : Opd) (th : Thread) : List RegRef :=
  let c := o.code.toNat
  match o.vnum th with
  | some n => (List.range o.width).map fun j => .v (n + j)
  | none =>
    if isS c then (List.range o.width).map fun j => .s (c - 0x140 + j)
    else if isQ c then [.q (c - 0x188)]
    else if isH c then (List.range o.width).map fun j => .h (c - 0x190 + j)
    else []

def preds (ps : List Nat) : List RegRef := (ps.filter (· ≠ 0)).map .p

/-- Registers, queues and predicates an instruction reads, and writes, for a thread. -/
def Uses.reads (u : Uses) (th : Thread) : List RegRef :=
  (u.ops.flatMap fun o => (if o.dst && !o.also then [] else o.regs th) ++ (o.index.map RegRef.ix).toList)
    ++ preds u.pr ++ u.ixr.map .ix
def Uses.writes (u : Uses) (th : Thread) : List RegRef :=
  (u.ops.flatMap fun o => if o.dst then o.regs th else []) ++ preds u.pw ++ u.ixw.map .ix

def RegRef.isQueue (r : RegRef) : Bool := match r with | .q _ => true | _ => false

/-- LAVIOL (R40): the word reads a register that X writes, writes one that X reads or writes, or names a queue that X
names, for an X whose window is open. -/
def laviol (u : Uses) (th : Thread) : Bool :=
  let rd := u.reads th
  let wr := u.writes th
  th.windows.any fun x =>
    rd.any (fun r => x.writes.contains r) || wr.any (fun r => x.writes.contains r || x.reads.contains r)
      || (rd ++ wr).any fun r => r.isQueue && (x.reads.contains r || x.writes.contains r)

/-- Banks a P-form slot reads: DA counts as a source (R30). -/
def slotBanks (s : PSlot) (num : Opd → Option Nat) : List Nat :=
  (usesSlot s).filterMap fun o => (num o).map (· % 4)
/-- Destination register of a P-form slot. -/
def slotDest (s : PSlot) (num : Opd → Option Nat) : Option Nat :=
  ((usesSlot s).head?).bind num

/-- The pairing rules of R30, on the register numbers that `num` gives. -/
def pairConflict (w : PWord) (num : Opd → Option Nat) : Bool :=
  (slotBanks w.slot0 num).any (fun b => (slotBanks w.slot1 num).contains b)
    || (match slotDest w.slot0 num, slotDest w.slot1 num with
        | some a, some b => a = b
        | _, _ => false)

/-- Directly named register number. -/
def Opd.direct (o : Opd) : Option Nat := if isV o.code.toNat then some o.code.toNat else none

/-! ### Values -/

/-- Values of Table 1.9 as (FP32, FP16, BF16) patterns. -/
def fpConst (k : Nat) : Nat × Nat × Nat :=
  match k with
  | 0 => (0x3F000000, 0x3800, 0x3F00) | 1 => (0x3F800000, 0x3C00, 0x3F80)
  | 2 => (0x40000000, 0x4000, 0x4000) | 3 => (0x40800000, 0x4400, 0x4080)
  | 4 => (0xBF000000, 0xB800, 0xBF00) | 5 => (0xBF800000, 0xBC00, 0xBF80)
  | 6 => (0xC0000000, 0xC000, 0xC000) | 7 => (0xC0800000, 0xC400, 0xC080)
  | 8 => (0x3F317218, 0x398C, 0x3F31) | 9 => (0x3FB8AA3B, 0x3DC5, 0x3FB9)
  | 10 => (0x40490FDB, 0x4248, 0x4049) | 11 => (0x3EA2F983, 0x3518, 0x3EA3)
  | 12 => (0x7F800000, 0x7C00, 0x7F80) | 13 => (0xFF800000, 0xFC00, 0xFF80)
  | 14 => (0x7F7FFFFF, 0x7BFF, 0x7F7F) | _ => (0x00800000, 0x0000, 0x0080)

/-- Inline integer n as a value of a type (R45). -/
def inlineInt (n : Nat) (t : Ty) : Nat :=
  match t with
  | .b16x2 | .i16x2 => n * 0x10001
  | .b8x4 | .i8x4 => n * 0x1010101
  | .f32 => (intToFloat .f32 .rne n).val
  | .f16x2 => (intToFloat .f16 .rne n).val * 0x10001
  | .bf16x2 => (intToFloat .bf16 .rne n).val * 0x10001
  | _ => n

/-- Inline FP constant k as a value of a type (R46). -/
def inlineFp (k : Nat) (t : Ty) : Nat :=
  match t with
  | .f16x2 => (fpConst k).2.1 * 0x10001
  | .bf16x2 => (fpConst k).2.2 * 0x10001
  | _ => (fpConst k).1

/-- Value of the special register with code `c` (Table 1.8). -/
def special (s : State) (th : Thread) (c : Nat) : Nat :=
  let tm := s.team? th.tid.core th.slot
  let l := s.launch? th.lslot
  match c with
  | 0x1A0 => th.tid.lane
  | 0x1A1 => th.tid.row
  | 0x1A2 => th.grp
  | 0x1A3 => (tm.map Team.tnum).getD 0
  | 0x1A4 => th.item.toNat
  | 0x1A5 => th.itemage.toNat
  | 0x1A6 => th.role
  | 0x1A7 => th.tid.qtr
  | 0x1A8 => th.tid.core % 32
  | 0x1A9 => th.tid.core / 32
  | 0x1AA => (tm.map Team.width).getD 0
  | 0x1AB => (tm.map Team.size).getD 0
  | 0x1AC => (l.map fun x => x.rcd.launchId.toNat).getD 0
  | 0x1AD => s.clock % 2 ^ 32
  | 0x1AE => s.clock / 2 ^ 32 % 2 ^ 32
  | 0x1AF => th.nest
  | _ => th.fpx.toNat

/-- Value of consecutive 32-bit registers, the lowest register the low word (R43). -/
def wordsValue (ws : List Word) : Nat := ws.foldr (fun w acc => w.toNat + 2 ^ 32 * acc) 0
/-- `n` registers that hold a value. -/
def valueWords (n v : Nat) : List Word := (List.range n).map fun k => BitVec.ofNat 32 (v / 2 ^ (32 * k))
/-- `n` consecutive elements of a register list. -/
def slice (xs : List Word) (k n : Nat) : List Word := (List.range n).map fun j => (xs[k + j]?).getD 0

/-- Value a source operand reads (R43), queues apart; `popped` is the value popped for a queue source. -/
def readOpd (s : State) (th : Thread) (o : Opd) (popped : Word) : Nat :=
  let c := o.code.toNat
  match o.vnum th with
  | some n => wordsValue (slice th.v n o.width)
  | none =>
    let g := s.group? th.tid.core th.slot th.grp
    if isS c then wordsValue (slice ((g.map Group.s).getD []) (c - 0x140) o.width)
    else if isH c then wordsValue (slice ((g.map Group.h).getD []) (c - 0x190) o.width)
    else if isQ c then popped.toNat
    else if isSpecial c then special s th c
    else if isInt c then inlineInt (c - 0x1C0) o.ty
    else if isFp c then inlineFp (c - 0x1E0) o.ty
    else 0

/-- The value of predicate k; p0 is constant true (R36, R49). -/
def Thread.pred (t : Thread) (k : Nat) : Bool := k = 0 || (t.p[k]?).getD false

/-- The guard of an instruction for a thread (R36). -/
def guardTrue (g : Guard) (t : Thread) : Bool := t.pred g.gp.toNat != g.gn

/-- Replace `n` elements of a list from position `k`. -/
def setSlice (xs : List Word) (k : Nat) (ws : List Word) : List Word :=
  match ws with
  | [] => xs
  | w :: r => setSlice (xs.set k w) (k + 1) r

end Sys2Proof.Machine
end

