-- ==== Sys2Proof/Machine/Teams.lean ====
section
/-!
DEFINITION. What the threads of one team share: convergence registers, named barriers, the issue-priority token,
group-wide waits and idle lanes (spec 04 R171-R185).
-/
namespace Sys2Proof.Machine

/-- A thread leaves a wait state. -/
def wake (t : ThreadId) : W Unit := modThread t fun x => { x with wait := .ready }
def park (t : ThreadId) (w : Wait) : W Unit := modThread t fun x => { x with wait := w }
/-- The wait `w` of a thread ends (`Thread.endWait`). -/
def endWaitOf (t : ThreadId) (w : Wait) : W Unit := modThread t fun x => x.endWait w
/-- The wait `a` of a thread becomes the wait `b`, also where it stands under another. -/
def Thread.turnWait (x : Thread) (a b : Wait) : Thread :=
  let f := fun w => if w = a then b else w
  { x with wait := f x.wait, resume := f x.resume, outer := f x.outer }

/-! ### Issue-priority token (R184, R185) -/

/-- The group has a live thread on the quarter. -/
def State.groupLive (s : State) (c q : Nat) (g : GroupKey) : Bool :=
  s.threads.any fun t => t.tid.core = c && t.tid.qtr = q && t.slot = g.slot && t.grp = g.grp && !t.idle

/-- When the holder group has no live thread the partner becomes holder; when neither remains the token is free. -/
def tokenFix (c q : Nat) : W Unit := do
  let s ← getSt
  modQuarter c q fun x =>
    let partner := x.partner.filter (s.groupLive c q)
    match x.holder.filter (s.groupLive c q) with
    | some h => { x with holder := some h, partner }
    | none => { x with holder := partner, partner := none }

/-- TKN by group `g` (Table 4.6a): the new state, or `none` for TOKEN. -/
def tokenStep (x : Quarter) (g : GroupKey) : Option Quarter :=
  match x.holder, x.partner with
  | none, _ => some { x with holder := some g, partner := none }
  | some h, none => if h = g then some x else some { x with partner := some g }
  | some h, some p =>
    if h = g then some { x with holder := some p, partner := some h }
    else if p = g then some x else none

/-! ### Named barriers (R183) -/

def Team.bar (tm : Team) (b : Nat) : Bar := (tm.bars[b]?).getD {}

/-- An arrival of the thread at barrier `b` that is not counted yet: its program's, or its handler's. -/
def Thread.uncounted (x : Thread) (b : Nat) (hand : Bool) : Bool := x.late.any fun a => a.bar = b && a.hand = hand
/-- The phase of barrier `b` has completed: a thread that waits for it goes on, but for one whose arrival has still to be
counted, which waits for the next phase. -/
def Thread.endBar (x : Thread) (b : Nat) : Thread :=
  let f := fun (hand : Bool) (w : Wait) => if w = .bar b && !x.uncounted b hand then Wait.ready else w
  { x with wait := f x.handler x.wait, resume := f x.handler x.resume, outer := f false x.outer }

/-- Complete the phase of barrier `b` when its arrivals have reached the target. -/
def barCheck (c sl b : Nat) : W Unit := do
  let s ← getSt
  match s.team? c sl with
  | none => return
  | some tm =>
    let x := tm.bar b
    let target := if x.auto then (s.liveThreads c sl).length else x.target
    if x.arrivals > 0 && target ≤ x.arrivals then
      modTeam c sl fun tm => { tm with bars := tm.bars.set b { phase := x.phase + 1 } }
      for t in s.teamThreads c sl do modThread t.tid (·.endBar b)
    else modTeam c sl fun tm => { tm with bars := tm.bars.set b { x with target } }

/-- Arrivals at barrier `b` in one cycle, with their thread counts: the first of a phase sets the target. -/
def barArrive (c sl b : Nat) (ns : List Nat) : W Unit := do
  match ns with
  | [] => return
  | n :: _ => do
    modTeam c sl fun tm =>
      let x := tm.bar b
      { tm with
        bars := tm.bars.set b
          (if x.arrivals = 0 then { x with arrivals := ns.length, target := n, auto := n = 0 }
           else { x with arrivals := x.arrivals + ns.length }) }
    barCheck c sl b

/-! ### Convergence registers (R175-R180) -/

/-- Kinds quarter and qrole have one instance per quarter. -/
def cvQtr (kind qtr : Nat) : Nat := if kind ≥ 3 then qtr else 0

/-- The set of an instance (R176). -/
def State.cvSet (s : State) (c sl : Nat) (x : CvInst) : List Thread :=
  (s.liveThreads c sl).filter fun t =>
    (x.kind ≠ 0) && (x.kind = 1 || x.kind = 3 || t.role = x.role) && (x.kind < 3 || t.tid.qtr = x.qtr)

def Team.cvInst? (tm : Team) (k qtr : Nat) : Option CvInst :=
  tm.cvs.find? fun x => x.cv = k && x.qtr = cvQtr x.kind qtr

def modCv (c sl k qtr : Nat) (f : CvInst → CvInst) : W Unit :=
  modTeam c sl fun tm => { tm with
    cvs := tm.cvs.map fun x =>
      if x.cv = k && x.qtr = cvQtr x.kind qtr then f x else x }

/-- Count one signature of a thread; an engine operation is latched, and one that differs from the latched word or
operands is not counted (R177). Answers whether it was counted. -/
def cvCount (c sl k qtr : Nat) (t : ThreadId) (kind : SignKind) : W Bool := do
  match ((← getSt).team? c sl).bind (·.cvInst? k qtr) with
  | none => return false
  | some x =>
    match kind with
    | .op w opv =>
      match x.op with
      | some l =>
        if l = (w, opv) then
          modCv c sl k qtr fun x => { x with signed := x.signed + 1, signers := x.signers ++ [t]
                                             opThreads := x.opThreads ++ [t] }
          return true
        else return false
      | none =>
        modCv c sl k qtr fun x => { x with signed := x.signed + 1, signers := x.signers ++ [t]
                                           opThreads := x.opThreads ++ [t], op := some (w, opv) }
        return true
    | _ =>
      modCv c sl k qtr fun x => { x with signed := x.signed + 1, signers := x.signers ++ [t] }
      return true

/-- CONV of a deferred engine operation, which stands in the replay queue (R180, Table 8.1). -/
def convDeferred (t : ThreadId) (k : Nat) (kind : SignKind) : W Unit := do
  match kind with
  | .op w _ => do
    endWaitOf t (.cvDeferred k)
    modThread t fun x => { x with unf := x.unf.map fun e =>
      if e.st = 0 && e.word = w then { e with st := 2, cause := some .conv, queued := true } else e }
    raise t .conv true 0
  | _ => return

/-- End of a phase (R179, steps 2 to 4): resume the signers, clear SIGNED and OP, count GEN, and let deferred
signers sign the new phase in arrival order (R178). -/
def cvEnd (c sl k qtr : Nat) : W Unit := do
  let s ← getSt
  match (s.team? c sl).bind (·.cvInst? k qtr) with
  | none => return
  | some x => do
    for t in x.signers do endWaitOf t (.cvw k)
    modCv c sl k qtr fun x => { x with signed := 0, signers := [], op := none, opThreads := [], full := false,
                                       deferred := [], gen := (x.gen + 1) % 2 ^ 15 }
    for d in x.deferred do
      let ok ← cvCount c sl k qtr d.1 d.2
      if ok then
        match d.2 with
        | .sign => endWaitOf d.1 (.cvDeferred k)
        | _ => modThread d.1 fun x => x.turnWait (.cvDeferred k) (.cvw k)
      else convDeferred d.1 k d.2

/-- SIGNED equals the size of the set (R179). -/
def State.cvFull (s : State) (c sl : Nat) (x : CvInst) : Bool := x.signed > 0 && x.signed = (s.cvSet c sl x).length

/-- Complete phases while they are complete. A phase with a latched operation stays complete and ends when the operation
issues (MATRIX_QUEUE_ISSUE). `fuel` bounds the phases that deferred signers can complete at once. -/
def cvCheck (c sl k qtr fuel : Nat) : W Unit := do
  match fuel with
  | 0 => return
  | fuel + 1 => do
    let s ← getSt
    match (s.team? c sl).bind (·.cvInst? k qtr) with
    | none => return
    | some x =>
      if s.cvFull c sl x && !x.full then
        if x.op.isNone then
          cvEnd c sl k qtr
          cvCheck c sl k qtr fuel
        else modCv c sl k qtr fun x => { x with full := true }

/-- A thread signs cvk (R177, R178, R180). Answers `false` when the signature raises CONV. -/
def cvSign (th : Thread) (k : Nat) (kind : SignKind) : W Bool := do
  let s ← getSt
  let c := th.tid.core
  match (s.team? c th.slot).bind (·.cvInst? k th.tid.qtr) with
  | none => return false
  | some x =>
    if !((s.cvSet c th.slot x).any fun t => t.tid = th.tid) then return false
    else if x.signers.contains th.tid || x.full then
      modCv c th.slot k th.tid.qtr fun x => { x with deferred := x.deferred ++ [(th.tid, kind)] }
      park th.tid (.cvDeferred k)
      return true
    else
      let ok ← cvCount c th.slot k th.tid.qtr th.tid kind
      if ok then
        match kind with
        | .sign => pure ()
        | _ => park th.tid (.cvw k)
        cvCheck c th.slot k th.tid.qtr 4
      return ok

/-! ### Group-wide waits (R173) -/

/-- All live threads of a group. -/
def State.groupThreads (s : State) (c sl g : Nat) : List Thread :=
  s.threads.filter fun t => t.tid.core = c && t.slot = sl && t.grp = g && !t.idle

/-- When every live thread of a group is parked in GOP: at one PC they issue, at several each raises CONV. A thread with a
raised cause goes to its handler first. -/
def gopCheck (c sl g : Nat) : W Unit := do
  let ts := (← getSt).groupThreads c sl g
  if !ts.isEmpty && ts.all (fun t => t.wait = .gop && t.halt.isNone && t.pending.isNone) then
    for t in ts do wake t.tid
    if ((ts.map Thread.pc).eraseDups).length > 1 then
      for t in ts do raise t.tid .conv false t.pc

/-- Wake the threads of a team that wait on a queue operand (R182); one that still cannot complete parks again. -/
def wakeQueues (c sl : Nat) : W Unit :=
  upd fun s => { s with
    threads := s.threads.map fun t =>
      if t.tid.core = c && t.slot = sl && t.wait = .que then { t with wait := .ready } else t }

/-- What a team re-evaluates when one of its lanes becomes idle (R171, R176, R183, R185). -/
def teamCheck (c sl : Nat) : W Unit := do
  match (← getSt).team? c sl with
  | none => return
  | some tm => do
    for b in List.range 16 do barCheck c sl b
    for x in tm.cvs do cvCheck c sl x.cv x.qtr 4
    for g in ((← getSt).liveThreads c sl |>.map Thread.grp).eraseDups do gopCheck c sl g
    for q in List.range 4 do tokenFix c q

/-- A lane becomes idle (R171). -/
def makeIdle (t : ThreadId) : W Unit := do
  match (← getSt).thread? t with
  | none => return
  | some th => do
    modThread t fun x => { x with idle := true, wait := .ready, windows := [] }
    settleQuarter t.core t.qtr
    teamCheck t.core th.slot

end Sys2Proof.Machine
end

