-- ==== Sys2Proof/Machine/Issue.lean ====
section
/-!
DEFINITION. The issue of an instruction word by the current issue group: decode and run-time checks, queues, results,
lookahead windows, and the life of an issued and unfinished instruction (spec 01 R36-R44, R53; 02 R76; 04 R165, R181,
R182; 08 R294-R297).
-/
namespace Sys2Proof.Machine

/-! ### Checks -/

/-- Instructions that only handler mode may issue (R313). -/
def handlerOnly (i : Instr) : Bool :=
  match i with | .rett _ | .rqrd _ | .rqwr _ | .causeclr _ => true | _ => false
/-- Instructions that need handler or driver privilege at decode (R55). -/
def privOnly (i : Instr) : Bool :=
  match i with | .carve _ | .setmode _ | .preempt _ => true | _ => false

/-- Thread count of BAR and BARARV (R199). -/
def barCount (w : IWord) : Nat := w.immBits 28 16

/-- Decode checks of R53 for one thread, whatever its guard: the first cause that applies, with ILL's sub-code. -/
def decodeCause (s : State) (i : Instr) (u : Uses) (th : Thread) : Option (Cause × Nat) :=
  let tooMany := match i with
    | .bar w | .bararv w => decide (barCount w > ((s.team? th.tid.core th.slot).map Team.size).getD 0)
    | _ => false
  let pair := match i with | .pairWord w => pairConflict w Opd.direct | _ => false
  if tooMany then some (.ill, 6)
  else if pair then some (.pair, 0)
  else if u.ops.any (·.badProt th.handler) || (handlerOnly i && !th.handler) || (privOnly i && !s.anyPriv th) then
    some (.prot, 0)
  else if u.ops.any Opd.badOperand then some (.operand, 0)
  else if u.ops.any (·.badBound th.declared) then some (.regbound, 0)
  else if laviol u th then some (.laviol, 0)
  else none

/-- Run-time checks of R53 before queue stalls, for a thread with a true guard: index operands field by field, the pair of a
P word, and queue numbers. -/
def runCause (s : State) (i : Instr) (u : Uses) (th : Thread) : Option (Cause × Nat) :=
  match u.ops.findSome? (·.indexCause th) with
  | some c => some (c, 0)
  | none =>
    let pair := match i with | .pairWord w => pairConflict w (·.vnum th) | _ => false
    let nq := ((s.team? th.tid.core th.slot).map Team.nq).getD 0
    if pair then some (.pair, 0)
    else if u.ops.any fun o => isQ o.code.toNat && o.code.toNat - 0x188 ≥ nq then some (.queue, 0)
    else none

/-! ### Queues (R181, R182) -/

/-- Queue numbers an instruction pops, in the order of its sources, and pushes. QTRY's named queue is not among them. -/
def Uses.pops (u : Uses) : List Nat :=
  (u.ops.filter fun o => isQ o.code.toNat && !o.dst && o.kind ≠ .queueName).map fun o => o.code.toNat - 0x188
def Uses.pushes (u : Uses) : List Nat :=
  (u.ops.filter fun o => isQ o.code.toNat && o.dst && o.kind ≠ .queueName).map fun o => o.code.toNat - 0x188

def Team.queueAt (tm : Team) (k : Nat) : List (List (Option Word)) := (tm.queues[k]?).getD []

/-- Pushes to qk that issued instructions of the team have still to make: their places count as taken, also for a
QTRY.push (DESIGN CHOICE, log 57). -/
def State.pendingPushes (s : State) (c sl k : Nat) : Nat :=
  (((s.teamThreads c sl).flatMap fun t =>
    (t.unf.filter fun e => e.st < 2 && e.dst.contains (.q k)).map fun e => (t.grp, e.tag)).eraseDups).length

/-- Every pop finds an entry and every push a free entry, pops first (R182). `ahead` groups of the team issue the same word
before this one and have still to push. -/
def State.queuesReady (s : State) (tm : Team) (u : Uses) (ahead : Nat) : Bool :=
  (u.pops ++ u.pushes).all fun k =>
    let n := (tm.queueAt k).length
    u.pops.count k ≤ n && n - u.pops.count k + (ahead + 1) * u.pushes.count k + s.pendingPushes tm.core tm.slot k ≤ 8

def modQueueOf (c sl k : Nat) (f : List (List (Option Word)) → List (List (Option Word))) : W Unit :=
  modTeam c sl fun tm => { tm with queues := tm.queues.set k (f (tm.queueAt k)) }

/-- Pop one entry of qk. -/
def popQueue (c sl k : Nat) : W (List (Option Word)) := do
  let e := (((← getSt).team? c sl).bind fun tm => (tm.queueAt k).head?).getD []
  modQueueOf c sl k (·.drop 1)
  wakeQueues c sl
  return e

/-- Push one entry to qk: position j holds lane j's value with its presence bit, or 0 without. -/
def pushQueue (c sl k : Nat) (vals : List (Nat × Word)) : W Unit := do
  let w := (((← getSt).team? c sl).map Team.width).getD 0
  modQueueOf c sl k fun q =>
    q ++ [(List.range w).map fun j => (vals.find? fun x => x.1 = j).map (·.2)]
  wakeQueues c sl

/-! ### The threads of an issue -/

/-- What the checks leave: threads that act, with the values of their source operands in field order; threads whose guard
is false; threads that raise a cause. -/
structure Issued where
  act  : List (Thread × List Nat)
  pass : List ThreadId
  bad  : List (ThreadId × Cause × Nat)

/-- Groups of a list of threads, in increasing %grp order. -/
def groupsOf (ts : List Thread) : List (Nat × Nat) :=
  let keys := (ts.map fun t => (t.slot, t.grp)).eraseDups
  (List.range 512).flatMap fun g => keys.filter fun k => k.2 = g

/-- Values of the source operands, queue sources taking the popped values in order. -/
def readSources (s : State) (th : Thread) (ops : List Opd) (popped : List Word) : List Nat :=
  match ops with
  | [] => []
  | o :: r =>
    if o.dst && !o.also then readSources s th r popped
    else if isQ o.code.toNat && o.kind ≠ .queueName then
      (popped.headD 0).toNat :: readSources s th r (popped.drop 1)
    else readSources s th r popped |> (readOpd s th o 0 :: ·)

/-- Threads of the current issue group, in increasing lane order. -/
def State.curThreads (s : State) : List Thread := s.cur.threads.filterMap s.thread?

/-- One group's queue operands: pop its entries, or park its threads in QUE when they cannot complete (R182). -/
def groupQueues (u : Uses) (c : Nat) (k : Nat × Nat) (ahead : Nat) (ts : List Thread) : W (List (Thread × List Nat)) := do
  let s ← getSt
  match s.team? c k.1 with
  | none => return []
  | some tm =>
    if !s.queuesReady tm u ahead then
      for t in ts do park t.tid .que
      return []
    else
      let mut entries : List (List (Option Word)) := []
      for q in u.pops do entries := entries ++ [← popQueue c k.1 q]
      let es := entries
      return ts.map fun t => (t, readSources s t u.ops (es.map fun e => ((e[t.rel]?).getD none).getD 0))

/-- PFETCH raises no run-time cause: a thread that one applies to passes the word (R151). -/
def dropsCauses (i : Instr) : Bool := match i with | .pfetch _ => true | _ => false

/-- The checks of R53, and each group's queue operands, for the current issue group. -/
def checkIssue (i : Instr) : W Issued := do
  let s ← getSt
  let u := usesOf i
  let ts := s.curThreads
  let bad1 := ts.filterMap fun t => (decodeCause s i u t).map fun c => (t.tid, c.1, c.2)
  let ok1 := ts.filter fun t => (decodeCause s i u t).isNone
  let pass := (ok1.filter fun t => !guardTrue (guardOf i) t).map Thread.tid
  let on := ok1.filter fun t => guardTrue (guardOf i) t
  let causes := on.filterMap fun t => (runCause s i u t).map fun c => (t.tid, c.1, c.2)
  let drop := dropsCauses i
  let ok2 := on.filter fun t => (runCause s i u t).isNone
  let mut act : List (Thread × List Nat) := []
  if u.pops.isEmpty && u.pushes.isEmpty then
    act := ok2.map fun t => (t, readSources s t u.ops [])
  else
    for k in groupsOf ok2 do
      let ahead := ((groupsOf (act.map (·.1))).filter fun g => g.1 = k.1).length
      act := act ++ (← groupQueues u s.cur.core k ahead (ok2.filter fun t => (t.slot, t.grp) = k))
  return { act, pass := pass ++ (if drop then causes.map (·.1) else []), bad := bad1 ++ if drop then [] else causes }

/-- Raise the causes of an issue: the word is not issued for those threads and stands in no replay queue. -/
def raiseAll (pc : DWord) (bad : List (ThreadId × Cause × Nat)) : W Unit := do
  for b in bad do
    if b.2.1 = .ill then raiseIll b.1 b.2.2 pc else raise b.1 b.2.1 false pc

/-- Lookahead windows after one more issued word, with the window that the word opens (R39). -/
def stepWindows (la : Nat) (new : Option Window) (ws : List Window) : List Window :=
  let old := (ws.map fun x => { x with left := x.left - 1 }).filter fun x => x.left > 0
  if la > 0 then old ++ new.toList else old

/-- Bookkeeping of the threads that issued a word: windows, and the end of a debugger's single step (R309). A word whose
guard is false for a thread opens no window for it (DESIGN CHOICE, log 57: R39 does not say). -/
def issuedBy (i : Instr) (acted : List Thread) (all : List ThreadId) : W Unit := do
  let u := usesOf i
  let la := laOf i
  for t in all do
    let new := (acted.find? fun x => x.tid = t).map fun x => { left := la, reads := u.reads x, writes := u.writes x }
    modThread t fun x => { x with
      windows := stepWindows la new x.windows
      halt := if x.stepping && x.halt.isNone then some .command else x.halt
      stepping := false }

/-- A quarter from which the group `g` has issued: WAIT and DUE of its entry clear (R166). -/
def Quarter.clearWait (g : IssueGroup) (q : Quarter) : Quarter :=
  if q.core = g.core && q.qtr = g.qtr then
    { q with entries := q.entries.map fun e =>
        if e.lslot = g.lslot && e.pc = g.pc then { e with wait := 0, due := false } else e }
  else q

/-- The current issue group has issued, unless `nobody` of it has. -/
def clearWait (nobody : Bool) : W Unit :=
  upd fun s => { s with quarters := if nobody then s.quarters else s.quarters.map (Quarter.clearWait s.cur) }

/-- Nobody issues: every thread has parked in GOP or QUE, or waits for its fetch (R173, R182). -/
def Issued.nobody (r : Issued) : Bool := r.act.isEmpty && r.pass.isEmpty && r.bad.isEmpty

/-- The end of an issue: bookkeeping, arrivals at `pcOf`, then the causes. -/
def endIssue (i : Instr) (r : Issued) (pcOf : Thread → DWord) (yield : Bool := false) : W Unit := do
  let s ← getSt
  let pc := s.cur.pc
  let acted := r.act.map (·.1)
  let all := acted.map Thread.tid ++ r.pass
  issuedBy i acted all
  let moves := (acted.map fun t => (t.tid, pcOf t)) ++ r.pass.map fun t => (t, pc + 8)
  if yield && !acted.isEmpty then
    let stamp := s.curStamp
    arrive stamp false (pc + 8) (r.pass.map fun t => (t, pc + 8))
    arrive stamp true (pc + 8) (acted.map fun t => (t.tid, pcOf t))
  else arrive s.curStamp false (pc + 8) moves
  clearWait r.nobody
  raiseAll pc r.bad

/-! ### Results -/

/-- What an instruction writes for one thread: the values of its destination operands in order, predicates, index
registers and flags. -/
structure Res where
  d  : List (List Word) := []
  p  : List (Nat × Bool) := []
  ix : List (Nat × Half) := []
  fl : FFlags := 0
deriving DecidableEq, Repr

def setPred (p : List Bool) (k : Nat) (b : Bool) : List Bool := if k = 0 then p else p.set k b

/-- v registers that destination operands name receive their values. -/
def writeV (th : Thread) (ops : List Opd) (vals : List (List Word)) (v : List Word) : List Word :=
  match ops, vals with
  | o :: os, x :: xs =>
    match o.vnum th with
    | some n => writeV th os xs (setSlice v n x)
    | none => writeV th os xs v
  | _, _ => v

/-- A thread's own registers after a result. -/
def applyRes (u : Uses) (r : Res) (th : Thread) : Thread :=
  { th with
    v := writeV th (u.ops.filter (·.dst)) r.d th.v
    p := r.p.foldl (fun p x => setPred p x.1 x.2) th.p
    ix := r.ix.foldl (fun x k => x.set k.1 k.2) th.ix
    fpx := th.fpx ||| r.fl }

/-- Write consecutive s or h registers of a group. -/
def writeGroup (c sl g code : Nat) (ws : List Word) : W Unit :=
  modGroup c sl g fun x =>
    if isS code then { x with s := setSlice x.s (code - 0x140) ws }
    else { x with h := setSlice x.h (code - 0x190) ws }

/-- s, h and queue destinations of one group: the value of its lowest acting lane (R165), one queue entry (R181). -/
def writeShared (u : Uses) (c : Nat) (k : Nat × Nat) (rs : List (Thread × Res)) : W Unit := do
  let mine := rs.filter fun x => (x.1.slot, x.1.grp) = k
  let low := mine.foldl (fun (b : Option (Thread × Res)) x =>
    match b with | some y => if x.1.rel < y.1.rel then some x else b | none => some x) none
  for o in (u.ops.filter (·.dst)).zipIdx do
    let code := o.1.code.toNat
    let val := fun (r : Res) => (r.d[o.2]?).getD []
    if isS code || isH code then
      match low with | some x => writeGroup c k.1 k.2 code (val x.2) | none => pure ()
    else if isQ code && o.1.kind ≠ .queueName then
      pushQueue c k.1 (code - 0x188) (mine.map fun x => (x.1.rel, (val x.2).headD 0))

/-- Write the results of an issue. -/
def writeResults (u : Uses) (rs : List (Thread × Res)) : W Unit := do
  let c := (← getSt).cur.core
  for x in rs do modThread x.1.tid (applyRes u x.2)
  if (u.ops.filter (·.dst)).any fun o => !(isV o.code.toNat || isIx o.code.toNat) then
    for k in groupsOf (rs.map (·.1)) do writeShared u c k rs

/-- An instruction of the vector unit (R76): every acting thread reads its sources, then every result is written. -/
def issueVec (i : Instr) (eval : State → Thread → List Nat → Res) : W Unit := do
  let r ← checkIssue i
  let s ← getSt
  writeResults (usesOf i) (r.act.map fun x => (x.1, eval s x.1 x.2))
  endIssue i r fun _ => s.cur.pc + 8

/-! ### Issued and unfinished instructions (R294-R297) -/

/-- Causes that leave the raising memory, engine or function-unit instruction in the replay queue (Table 8.1). -/
def Cause.queuedBy (c : Cause) : Bool :=
  match c with
  | .align | .page | .prot | .range | .atype | .conv | .kvfault | .vault | .ecc | .spec | .coll | .hostlink => true
  | _ => false

/-- The entry stays in the replay queue when it raises the cause: at KVLD a SECTION too (R437). -/
def Entry.queues (e : Entry) (c : Cause) : Bool :=
  c.queuedBy || (c = .sectionC && match e.instr? with | some (.kvld _) => true | _ => false)

def modEntry (t : ThreadId) (id : Nat) (f : Entry → Entry) : W Unit :=
  modThread t fun x => { x with unf := x.unf.map fun e => if e.id = id then f e else e }
def dropEntry (t : ThreadId) (id : Nat) : W Unit :=
  modThread t fun x => { x with unf := x.unf.filter fun e => e.id ≠ id }
def Thread.entry? (t : Thread) (id : Nat) : Option Entry := t.unf.find? fun e => e.id = id

/-- Destination registers of a thread's own. -/
def RegRef.isV (r : RegRef) : Bool := match r with | .v _ => true | _ => false

/-- Write v registers. -/
def writeRefs (v : List Word) (dst : List RegRef) (vals : List Word) : List Word :=
  match dst, vals with
  | .v n :: ds, x :: xs => writeRefs (v.set n x) ds xs
  | _ :: ds, _ :: xs => writeRefs v ds xs
  | _, _ => v

/-- Write s and h registers of a group. -/
def writeRefsG (g : Group) (dst : List RegRef) (vals : List Word) : Group :=
  match dst, vals with
  | .s n :: ds, x :: xs => writeRefsG { g with s := g.s.set n x } ds xs
  | .h n :: ds, x :: xs => writeRefsG { g with h := g.h.set n x } ds xs
  | _ :: ds, _ :: xs => writeRefsG g ds xs
  | _, _ => g

/-- Lanes of a group that still work on an issue. -/
def State.mates (s : State) (th : Thread) (tag : Nat) : List (Thread × Entry) :=
  (s.threads.filter fun t => t.tid.core = th.tid.core && t.slot = th.slot && t.grp = th.grp).flatMap fun t =>
    (t.unf.filter fun e => e.tag = tag).map (t, ·)

/-- The instruction has a queue destination. -/
def Entry.pushes (e : Entry) : Bool := match e.dst with | .q _ :: _ => true | _ => false

/-- An instruction with a queue destination still has to push for a lower group of its issue (R181). -/
def State.pushOpen (s : State) (th : Thread) (e : Entry) : Bool :=
  e.pushes && s.threads.any fun x => x.tid.core = th.tid.core && x.slot = th.slot && x.grp < th.grp
    && x.unf.any fun y => y.tag = e.tag && y.pc = e.pc && y.dst = e.dst && y.st < 2

/-- When every lane of a group's issue with an s, h or queue destination has its result or has raised, the lowest lane's value
is written, or one entry is pushed, after those of the lower groups of the issue (R165, R181). -/
def shareGroup (th : Thread) (tag : Nat) : W Unit := do
  let s ← getSt
  let ms := s.mates th tag
  if ms.any fun m => m.2.st < 2 && m.2.val.isNone then return
  let done := ms.filter fun m => m.2.val.isSome
  let low := done.foldl (fun (b : Option (Thread × Entry)) x =>
    match b with | some y => if x.1.rel < y.1.rel then some x else b | none => some x) none
  match low with
  | none => return
  | some m => do
    if s.pushOpen th m.2 then return
    match m.2.dst with
    | .q k :: _ => pushQueue th.tid.core th.slot k (done.map fun x => (x.1.rel, (x.2.val.getD []).headD 0))
    | dst => modGroup th.tid.core th.slot th.grp fun g => writeRefsG g dst (m.2.val.getD [])
    for x in done do dropEntry x.1.tid x.2.id

/-- Share the results of a group's issue, then those of the later groups that its push has let go on. -/
def shareResults (th : Thread) (tag : Nat) : W Unit := do
  shareGroup th tag
  let later := (← getSt).threads.filter fun x => x.tid.core = th.tid.core && x.slot = th.slot && th.grp < x.grp
    && x.unf.any fun y => y.tag = tag && y.val.isSome && y.pushes
  if !later.isEmpty then
    for k in groupsOf later do
      match later.find? fun x => x.grp = k.2 with
      | some x => shareGroup x tag
      | none => pure ()

/-- The thread is parked on this entry and on no other. -/
def Thread.unparks (x : Thread) (id : Nat) : Bool :=
  match x.wait with
  | .fault => !x.unf.any fun e => e.id ≠ id && e.parks && e.page.isSome
  | .eng .entry | .rng | .poll _ => (x.entry? id).any Entry.parks
  | _ => false

/-- The instruction of an entry that a thread is parked on has finished or failed: the thread goes on. -/
def unpark (t : ThreadId) (id : Nat) : W Unit :=
  modThread t fun x => { x with
    unf := x.unf.map fun e => if e.id = id then { e with parks := false } else e
    wait := if x.unparks id then x.resume else x.wait
    resume := if x.unparks id then .ready else x.resume }

/-- A thread parks on one of its unfinished instructions. -/
def parkOn (t : ThreadId) (id : Nat) (w : Wait) : W Unit :=
  modThread t fun x => { x.parkAt w with
    unf := x.unf.map fun e => if e.id = id then { e with parks := true } else e }

/-- An instruction finishes: it writes its registers and leaves the list of unfinished instructions. -/
def finishEntry (t : ThreadId) (id : Nat) (vals : List Word) : W Unit := do
  match (← getSt).thread? t with
  | none => return
  | some th =>
    match th.entry? id with
    | none => return
    | some e => do
      unpark t id
      if e.dst.all RegRef.isV then
        modThread t fun x => { x with v := writeRefs x.v e.dst vals }
        dropEntry t id
      else
        modEntry t id fun e => { e with val := some vals }
        shareResults th e.tag
      trapEnter t

/-- What happens to an unfinished instruction after an attempt to perform it. -/
def settleEntry (t : ThreadId) (id : Nat) (r : Except Stop (List Word)) : W Unit := do
  match (← getSt).thread? t with
  | none => return
  | some th =>
    match th.entry? id with
    | none => return
    | some e =>
      match r with
      | .ok vals => finishEntry t id vals
      | .error .wait => modEntry t id fun e => { e with page := none, line := none }
      | .error .eng => parkOn t id (.eng .entry)
      | .error (.rng on) => do
        parkOn t id .rng
        modEntry t id fun e => { e with aux := on.flatMap fun x => [x.1, x.2] }
      | .error (.line l fa) => modEntry t id fun e => { e with page := none, line := some l, fa }
      | .error (.page w fa) => do
        modEntry t id fun e => { e with page := some w, fa, st := if w.ats then 0 else 1, queued := !w.ats }
        -- WAITZ and WAITNE leave WAIT for FAULT while a page request is out (R297)
        match th.wait with
        | .poll _ => if e.parks && !w.ats then park t .fault
        | _ => pure ()
      | .error (.cause c sub fa) =>
        unpark t id
        if e.queues c then
          modEntry t id fun e => { e with st := 2, cause := some c, sub, fa, queued := true, page := none }
          shareResults th e.tag
          raise t c true e.pc
        else
          dropEntry t id
          shareResults th e.tag
          raise t c false e.pc

/-- Attempt an unfinished instruction. -/
def attempt (perf : ThreadId → Entry → P (List Word)) (t : ThreadId) (id : Nat) : W Unit := do
  match ((← getSt).thread? t).bind (·.entry? id) with
  | none => return
  | some e => do
    let r ← (perf t e).run
    settleEntry t id r

/-- A new entry of a thread for the word being issued. -/
def newEntry (s : State) (i : Instr) (th : Thread) (opv : List Word) : Entry :=
  { id := (th.unf.foldl (fun m e => max m e.id) 0) + 1, tag := s.clock, word := (encode i).getD 0, pc := s.cur.pc, st := 0, hand := th.handler
    opv := opv ++ List.replicate (8 - opv.length) 0
    dst := (usesOf i).ops.flatMap fun o => if o.dst then o.regs th else [] }

/-- Take one element of a list out, as the device chooses, until none is left (R135). -/
def inSomeOrder {α : Type} (fuel : Nat) (xs : List α) (f : α → W Unit) : W Unit := do
  match fuel with
  | 0 => return
  | fuel + 1 =>
    if xs.isEmpty then return
    let k ← choose xs.length
    match xs[k]? with
    | some x => f x
    | none => pure ()
    inSomeOrder fuel (xs.eraseIdx k) f

/-- Issue an instruction of the classes of R294: capture its operands in an entry per acting thread, move on, then
attempt each at once, or, where `later` allows it and the device so chooses, leave it for a later reply. -/
def issueEntries (i : Instr) (later : Bool) (capture : State → Thread → List Nat → List Word)
    (perf : ThreadId → Entry → P (List Word)) : W Unit := do
  let r ← checkIssue i
  let s ← getSt
  let es := r.act.map fun x => (x.1.tid, newEntry s i x.1 (capture s x.1 x.2))
  for e in es do modThread e.1 fun x => { x with unf := x.unf ++ [e.2] }
  endIssue i r fun _ => s.cur.pc + 8
  inSomeOrder es.length es fun e => do
    let defer ← if later then choose 2 else pure 0
    if defer = 0 then attempt perf e.1 e.2.id

/-! ### Instructions that act once per group (R497) -/

/-- The thread waits for the action of an entry of its group's acting lane. -/
def Thread.waitsActing (t : Thread) (lead : ThreadId) (id : Nat) : Bool :=
  t.wait = .eng (.acting lead id) || t.resume = .eng (.acting lead id) || t.outer = .eng (.acting lead id)

/-- The other acting lanes of a group stop waiting for the action of an entry; with a value they receive it in their
destination. -/
def releaseWaiters (lead : ThreadId) (id : Nat) (vals : Option (List Word)) : W Unit :=
  upd fun s => { s with
    threads := s.threads.map fun t =>
      if t.waitsActing lead id then
        { t.endWait (.eng (.acting lead id)) with
          actDst := []
          v := match vals with | some x => writeRefs t.v t.actDst x | none => t.v }
      else t }

/-- A thread whose engine instruction has not been performed parks until it has (R323, R497). -/
def parkStop (t : ThreadId) (id : Nat) (r : Except Stop (List Word)) : W Unit := do
  match r with
  | .error .wait | .error (.line ..) => parkOn t id (.eng .entry)
  | .error (.page w _) => parkOn t id (if w.ats then .eng .entry else .fault)
  | _ => return

/-- Attempt an engine instruction of one thread; the thread stays parked until it is performed. -/
def attemptCmd (perf : ThreadId → Entry → P (List Word)) (t : ThreadId) (id : Nat) : W Unit := do
  match ((← getSt).thread? t).bind (·.entry? id) with
  | none => return
  | some e => do
    let r ← (perf t e).run
    parkStop t id r
    settleEntry t id r

/-- Issue an instruction that acts once per thread and is performed before the thread's later words. -/
def issueCmd (i : Instr) (capture : State → Thread → List Nat → List Word)
    (perf : ThreadId → Entry → P (List Word)) : W Unit := do
  let r ← checkIssue i
  let s ← getSt
  let es := r.act.map fun x => (x.1.tid, newEntry s i x.1 (capture s x.1 x.2))
  for e in es do modThread e.1 fun x => { x with unf := x.unf ++ [e.2] }
  endIssue i r fun _ => s.cur.pc + 8
  inSomeOrder es.length es fun e => attemptCmd perf e.1 e.2.id

/-- Attempt a group's action through its acting lane. When the cause leaves no entry in the replay queue (QUEUE of RINGSET and
RINGADV), the waiting lanes resume at once with their destinations unwritten (DESIGN CHOICE, log 57: R497 says how they
resume only where an entry stands). -/
def attemptActing (perf : ThreadId → Entry → P (List Word)) (t : ThreadId) (id : Nat) : W Unit := do
  match ((← getSt).thread? t).bind (·.entry? id) with
  | none => return
  | some e => do
    let r ← (perf t e).run
    match r with
    | .ok vals => releaseWaiters t id (some vals)
    | .error (.cause c _ _) => if !c.queuedBy then releaseWaiters t id none   -- no entry is left to wait for
    | _ => pure ()
    parkStop t id r
    settleEntry t id r

/-- Issue an instruction that acts once per logical group: the lowest acting lane holds the entry; the group's other
acting lanes wait in ENG until its action completes (R497). -/
def issueActing (i : Instr) (capture : State → Thread → List Nat → List Word)
    (perf : ThreadId → Entry → P (List Word)) : W Unit := do
  let r ← checkIssue i
  let s ← getSt
  endIssue i r fun _ => s.cur.pc + 8
  let ts := r.act.map (·.1)
  for k in groupsOf ts do
    let mine := r.act.filter fun x => (x.1.slot, x.1.grp) = k
    let low := mine.foldl (fun (b : Option (Thread × List Nat)) x =>
      match b with | some y => if x.1.rel < y.1.rel then some x else b | none => some x) none
    match low with
    | none => pure ()
    | some x => do
      let e := newEntry s i x.1 (capture s x.1 x.2)
      modThread x.1.tid fun t => { t with unf := t.unf ++ [e] }
      for y in mine do
        if y.1.tid ≠ x.1.tid then
          let dst := (usesOf i).ops.flatMap fun o => if o.dst then o.regs y.1 else []
          modThread y.1.tid fun t => { t with wait := .eng (.acting x.1.tid e.id), actDst := dst }
      attemptActing perf x.1.tid e.id

/-- Operand values laid out from OPV0 up, a pair low word first (R295). -/
def opvOf (u : Uses) (vals : List Nat) : List Word :=
  (((u.ops.filter fun o => !o.dst).zip vals).flatMap fun x => valueWords (tyRegs x.1.ty) x.2)

def captureE (i : Instr) (_ : State) (_ : Thread) (vals : List Nat) : List Word := opvOf (usesOf i) vals

/-- Captured operand words of an entry. -/
def Entry.w (e : Entry) (k : Nat) : Nat := ((e.opv[k]?).getD 0).toNat
def Entry.d (e : Entry) (k : Nat) : DWord := BitVec.ofNat 64 (e.w k + 2 ^ 32 * e.w (k + 1))

/-- Register references a word would touch that an unfinished instruction of the thread still has to write. In handler
mode the entries of the interrupted program hold no register. -/
def Thread.blocked (t : Thread) (u : Uses) : Bool :=
  let regs := u.reads t ++ u.writes t
  t.unf.any fun e => e.st < 2 && !(t.handler && !e.hand) && e.dst.any fun r => regs.contains r

/-- A register that a group shares. -/
def RegRef.shared (r : RegRef) : Bool := match r with | .s _ | .h _ => true | _ => false

/-- An s or h register that a word would touch is still to be written by an instruction of another lane of the group, so
writes of these stand in issue order (R160, R165). A handler does not wait for what stands in the replay queues of its
group-mates, which comes after their own returns (log 35). -/
def State.blockedByMates (s : State) (t : Thread) (u : Uses) : Bool :=
  let regs := (u.reads t ++ u.writes t).filter RegRef.shared
  !regs.isEmpty && s.threads.any fun x =>
    x.tid ≠ t.tid && x.tid.core = t.tid.core && x.slot = t.slot && x.grp = t.grp && x.unf.any fun e =>
      e.st < 2 && !(t.handler && e.queued) && e.dst.any fun r => regs.contains r

/-! ### Arrivals at barriers (R183) -/

def Entry.isAccrd (e : Entry) : Bool := match e.instr? with | some (.accrd _) => true | _ => false
/-- The entry is a memory access or command that has not been performed. -/
def Entry.open_ (e : Entry) : Bool := e.val.isNone && !e.isFu && !e.isAccrd

/-- Every access of the thread that is earlier than an arrival has been performed; an arrival that a handler makes goes
after the handler's own accesses. -/
def Thread.arrived (t : Thread) (a : LateArrival) : Bool :=
  t.unf.all fun e => a.since ≤ e.tag || (a.hand && !e.hand) || !e.open_

/-- Count the arrivals of a team whose earlier accesses have been performed, all of one cycle together (R183). -/
def countTeam (tm : Team) : W Unit := do
  let ts := (← getSt).teamThreads tm.core tm.slot
  for b in List.range 16 do
    let ns := ts.flatMap fun t => (t.late.filter fun a => a.bar = b && t.arrived a).map LateArrival.n
    if !ns.isEmpty then
      for t in ts do modThread t.tid fun x => { x with late := x.late.filter fun a => !(a.bar = b && x.arrived a) }
      barArrive tm.core tm.slot b ns

/-- Count the arrivals of every team. -/
def countArrivals : W Unit := do
  let s ← getSt
  if s.threads.any fun t => !t.late.isEmpty then
    for tm in s.teams do countTeam tm

end Sys2Proof.Machine
end

