-- ==== Sys2Proof/Machine/Vector.lean ====
section
/-!
DEFINITION. The instructions of the vector unit (spec 02): what each computes from its operands, and its meaning.
-/
namespace Sys2Proof.Machine

/-! ### Elements (R67) -/

/-- Element width of a type in bits. -/
def elW (t : Ty) : Nat :=
  match t with
  | .b64 | .i64 => 64 | .b16x2 | .i16x2 | .f16x2 | .bf16x2 | .b16 | .i16 => 16 | .b8x4 | .i8x4 | .b8 | .i8 => 8
  | .b128 => 128 | _ => 32
/-- Elements of a type. -/
def elN (t : Ty) : Nat := 32 * tyRegs t / elW t
def signedTy (t : Ty) : Bool := match t with | .i32 | .i16x2 | .i64 | .i8x4 | .i8 | .i16 => true | _ => false

/-- Element e of a value. -/
def el (w x e : Nat) : Nat := x / 2 ^ (w * e) % 2 ^ w
/-- Two's complement reading of `w` bits. -/
def sgn (w x : Nat) : Int := if x % 2 ^ w ≥ 2 ^ (w - 1) then (x % 2 ^ w : Int) - 2 ^ w else (x % 2 ^ w : Nat)
/-- An element's value by the signedness of the type. -/
def elVal (t : Ty) (x : Nat) : Int := if signedTy t then sgn (elW t) x else (x : Int)
/-- The low `w` bits of an exact value. -/
def low (w : Nat) (x : Int) : Nat := (x % (2 ^ w : Int)).toNat
/-- Smallest and largest value of an element (R74). -/
def minEl (t : Ty) : Int := if signedTy t then -(2 ^ (elW t - 1)) else 0
def maxEl (t : Ty) : Int := if signedTy t then 2 ^ (elW t - 1) - 1 else 2 ^ elW t - 1
def clampTo (lo hi x : Int) : Int := if x < lo then lo else if x > hi then hi else x
/-- An exact result delivered as an element, clamped with .sat, else modulo 2^W (R74). -/
def deliver (t : Ty) (sat : Bool) (x : Int) : Nat := low (elW t) (if sat then clampTo (minEl t) (maxEl t) x else x)

/-- Build a value from its elements. -/
def mapEl (w n : Nat) (f : Nat → Nat) : Nat := (List.range n).foldl (fun acc e => acc + f e % 2 ^ w * 2 ^ (w * e)) 0

/-- Integer function of two operands, element by element. -/
def int2 (t : Ty) (sat : Bool) (f : Int → Int → Int) (a b : Nat) : Nat :=
  mapEl (elW t) (elN t) fun e => deliver t sat (f (elVal t (el (elW t) a e)) (elVal t (el (elW t) b e)))
def int3 (t : Ty) (sat : Bool) (f : Int → Int → Int → Int) (a b c : Nat) : Nat :=
  mapEl (elW t) (elN t) fun e =>
    deliver t sat (f (elVal t (el (elW t) a e)) (elVal t (el (elW t) b e)) (elVal t (el (elW t) c e)))

/-- A result that is one register, pair or quad. -/
def res1 (t : Ty) (v : Nat) (fl : FFlags := 0) : Res := { d := [valueWords (tyRegs t) v], fl }

/-- Operand k of a list of source values. -/
def arg (vs : List Nat) (k : Nat) : Nat := (vs[k]?).getD 0

/-! ### Integer functions (R80-R88) -/

def evalIadd (t : Ty) (sat : Bool) (a b : Nat) : Nat := int2 t sat (· + ·) a b
def evalIsub (t : Ty) (sat : Bool) (a b : Nat) : Nat := int2 t sat (· - ·) a b
def evalImin (t : Ty) (a b : Nat) : Nat := int2 t false (fun x y => if x ≤ y then x else y) a b
def evalImax (t : Ty) (a b : Nat) : Nat := int2 t false (fun x y => if x ≥ y then x else y) a b
def evalIabsd (t : Ty) (a b : Nat) : Nat := int2 t false (fun x y => if x ≥ y then x - y else y - x) a b
def evalImul (t : Ty) (a b : Nat) : Nat := int2 t false (· * ·) a b
/-- Exact product of two 32-bit operands, as 64 bits (IMULW, IMULHI). -/
def evalProduct (t : Ty) (a b : Nat) : Nat := low 64 (elVal t a * elVal t b)
def evalImad (t : Ty) (sat : Bool) (a b c : Nat) : Nat := int3 t sat (fun x y z => x * y + z) a b c

/-- IDOT4 (R82). -/
def evalIdot4 (t : Ty) (sat : Bool) (a b c : Nat) : Nat :=
  let ct : Ty := dotTy t
  let dot := (List.range 4).foldl (fun acc e => acc + elVal t (el 8 a e) * elVal t (el 8 b e)) (0 : Int)
  deliver ct sat (elVal ct c + dot)

/-- Bitwise functions over the full width (R83). -/
def evalLogic (op : Nat) (t : Ty) (a b : Nat) : Nat :=
  let m := 2 ^ (32 * tyRegs t)
  match op with
  | 0 => a &&& b
  | 1 => a ||| b
  | 2 => a ^^^ b
  | _ => a &&& (m - 1 - b % m)

/-- Shifts (R84): 0 SHL, 1 SHR, 2 SAR. -/
def evalShift (op : Nat) (t : Ty) (wrap : Bool) (a b : Nat) : Nat :=
  let w := elW t
  mapEl w (elN t) fun e =>
    let x := el w a e
    let n0 := if elN t = 1 then b % 2 ^ 32 else el w b e
    let n := if wrap then n0 % w else n0
    match op with
    | 0 => if n ≥ w then 0 else x * 2 ^ n
    | 1 => if n ≥ w then 0 else x / 2 ^ n
    | _ => low w (if n ≥ w then (if x ≥ 2 ^ (w - 1) then -1 else 0) else sgn w x / 2 ^ n)

/-- FSHF (R85). -/
def evalFshf (rot sx : Bool) (a b c : Nat) : Nat :=
  let x := a + 2 ^ 32 * b
  let s := c % 64
  if rot then (x / 2 ^ s ||| x * 2 ^ (64 - s)) % 2 ^ 32
  else low 32 ((if sx then sgn 64 x else (x : Int)) / 2 ^ s)

/-- BFE (R86). -/
def evalBfe (t : Ty) (a b c : Nat) : Nat :=
  let w := elW t
  let pos := b % 256
  let len := min (c % 256) w
  if len = 0 then 0
  else
    let x := low len (elVal t a / 2 ^ pos)
    if signedTy t then low w (sgn len x) else x

/-- BFI (R86). -/
def evalBfi (t : Ty) (a b c : Nat) : Nat :=
  let w := elW t
  let pos := c % 256
  let len := min (c / 256 % 256) w
  let mask := (2 ^ len - 1) * 2 ^ pos % 2 ^ w
  (a &&& (2 ^ w - 1 - mask)) ||| (b * 2 ^ pos % 2 ^ w &&& mask)

/-- POPC, CLZ, BREV (R87). -/
def evalPopc (w a : Nat) : Nat := (List.range w).foldl (fun n k => n + a / 2 ^ k % 2) 0
def evalClz (w a : Nat) : Nat := if a % 2 ^ w = 0 then w else w - 1 - Nat.log2 (a % 2 ^ w)
def evalBrev (w a : Nat) : Nat := (List.range w).foldl (fun n k => n + a / 2 ^ k % 2 * 2 ^ (w - 1 - k)) 0

/-- PRMT (R88): mode 0 gen, 1 rev, 2 rot, 3 spl. -/
def evalPrmt (mode a b c : Nat) : Nat :=
  let x := a + 2 ^ 32 * b
  mapEl 8 4 fun i =>
    match mode with
    | 0 =>
      let ctl := el 8 c i
      let y := el 8 x (ctl % 8)
      match ctl / 16 % 4 with | 0 => y | 1 => 0 | 2 => 0xFF | _ => 255 - y
    | 1 => el 8 a (3 - i)
    | 2 => el 8 x ((c % 8 + i) % 8)
    | _ => el 8 a (c % 4)

/-- Integer conditions (R89): 0 eq, 1 ne, 2 lt, 3 le, 4 gt, 5 ge. -/
def intCond (cond : Nat) (x y : Int) : Bool :=
  match cond with | 0 => x = y | 1 => x ≠ y | 2 => x < y | 3 => x ≤ y | 4 => x > y | _ => x ≥ y

/-- A comparison combined with the predicate of field C (R89). -/
def combine (th : Thread) (c : Code) (x : Bool) : Bool :=
  let q := th.pred (pn c) != flag c.toNat 5
  if flag c.toNat 4 then x || q else x && q

/-- A predicate with the negation in bit 4 of its field (R90, R91). -/
def predField (th : Thread) (c : Code) : Bool := th.pred (pn c) != flag c.toNat 4

/-- PSETP's functions (R90). -/
def evalPsetp (fn : Nat) (a b c : Bool) : Bool :=
  match fn with
  | 0 => a && b && c
  | 1 => a || b || c
  | 2 => (a != b) != c
  | 3 => if c then a else b
  | _ => (a && b) || (a && c) || (b && c)

/-- LEA (R92). -/
def evalLea (t : Ty) (sh a b : Nat) : Nat := low 64 ((a : Int) + elVal t b * 2 ^ sh)

/-- IADDC (R93): the 33-bit sum. -/
def evalIaddc (sub cin carry : Bool) (a b : Nat) : Nat :=
  let ci := if cin then carry.toNat else sub.toNat
  a + (if sub then 2 ^ 32 - 1 - b else b) + ci

/-! ### Floating-point functions (R95-R108) -/

/-- Element format of a type. -/
def fmtOf (t : Ty) : Fmt := match t with | .f16x2 => .f16 | .bf16x2 => .bf16 | _ => .f32

/-- Results of every element as one value with the flags of all (R70). -/
def fEls (t : Ty) (f : Nat → FRes) : Res :=
  let w := elW t
  let rs := (List.range (elN t)).map f
  { d := [valueWords 1 ((rs.zipIdx).foldl (fun acc x => acc + x.1.val * 2 ^ (w * x.2)) 0)]
    fl := rs.foldl (fun acc x => acc ||| x.flags) 0 }

def satIf (f : Fmt) (sat : Bool) (x : FRes) : FRes := if sat then clamp01 f x else x
/-- Operand value of element e. -/
def fArg (t : Ty) (x e : Nat) : FVal := (fmtOf t).read (el (elW t) x e)

def evalFadd (t : Ty) (r : Rnd) (sat : Bool) (a b : Nat) : Res :=
  fEls t fun e => satIf (fmtOf t) sat (addVal (fmtOf t) r (fArg t a e) (fArg t b e))
def evalFsub (t : Ty) (r : Rnd) (sat : Bool) (a b : Nat) : Res :=
  fEls t fun e => satIf (fmtOf t) sat (addVal (fmtOf t) r (fArg t a e) (fArg t b e).negate)
def evalFmul (t : Ty) (r : Rnd) (sat : Bool) (a b : Nat) : Res :=
  fEls t fun e => satIf (fmtOf t) sat (mulVal (fmtOf t) r (fArg t a e) (fArg t b e))
def evalFfma (t : Ty) (r : Rnd) (sat : Bool) (a b c : Nat) : Res :=
  fEls t fun e => satIf (fmtOf t) sat (fmaVal (fmtOf t) r (fArg t a e) (fArg t b e) (fArg t c e))
def evalFminmax (t : Ty) (isMin : Bool) (a b : Nat) : Res :=
  fEls t fun e => minmaxBits (fmtOf t) isMin (el (elW t) a e) (el (elW t) b e)
def evalFsgn (t : Ty) (neg xor : Bool) (a b : Nat) : Res :=
  fEls t fun e => { val := fsgnBits (fmtOf t) neg xor (el (elW t) a e) (el (elW t) b e) }
def evalFclass (t : Ty) (a : Nat) : Res := fEls t fun e => { val := fclassBits (fmtOf t) (el (elW t) a e) }
def evalFrnd (t : Ty) (r : Rnd) (a : Nat) : Res := fEls t fun e => frndBits (fmtOf t) r (el (elW t) a e)
def evalFscale (t : Ty) (r : Rnd) (a b : Nat) : Res :=
  fEls t fun e => fscaleBits (fmtOf t) r (el (elW t) a e) (sgn (elW t) (el (elW t) b e))
def evalFxtr (t : Ty) (mant : Bool) (a : Nat) : Res :=
  fEls t fun e =>
    if mant then fxtrMant (fmtOf t) (el (elW t) a e)
    else
      let x := fxtrExp (fmtOf t) (elW t) (el (elW t) a e)
      { val := low (elW t) x.1, flags := x.2 }
def evalFdot2 (t : Ty) (r : Rnd) (sat : Bool) (a b c : Nat) : Res :=
  let x := satIf .f32 sat (fdot2 r (fArg t a 0) (fArg t b 0) (fArg t a 1) (fArg t b 1) (Fmt.f32.read c))
  res1 .f32 x.val x.flags

/-- CVT (Table 2.9): source type `st`, destination type `dt`. -/
def evalCvt (st dt : Ty) (r : Rnd) (f0 : Bool) (a b : Nat) : Res :=
  let isF := fun (t : Ty) => match t with | .f32 | .f16x2 | .bf16x2 => true | _ => false
  if isF st && !isF dt then
    if st = .f32 then
      let x := floatToInt r (Fmt.f32.read a) (minEl dt) (maxEl dt)
      res1 dt (low (elW dt) x.1) x.2
    else fEls dt fun e =>
      let x := floatToInt r (fArg st a e) (minEl dt) (maxEl dt)
      { val := low 16 x.1, flags := x.2 }
  else if !isF st && isF dt then
    if dt = .f32 then
      let x := intToFloat .f32 r (elVal st a)
      res1 .f32 x.val x.flags
    else fEls dt fun e => intToFloat (fmtOf dt) r (elVal st (el 16 a e))
  else if isF st then
    if dt = .f32 then
      let x := convVal .f32 r false (fArg st a f0.toNat)
      res1 .f32 x.val x.flags
    else if st = .f32 then fEls dt fun e => convVal (fmtOf dt) r f0 (Fmt.f32.read (if e = 0 then a else b))
    else fEls dt fun e => convVal (fmtOf dt) r f0 (fArg st a e)
  else if tyRegs dt = 2 then res1 dt (low 64 (elVal st a))
  else res1 dt (deliver dt f0 (elVal st a))

/-- PACK (R107). -/
def evalPack (t : Ty) (sat : Bool) (a b : Nat) : Nat :=
  let src := wideTy t
  if elN t = 2 then
    mapEl 16 2 fun e => deliver t sat (elVal src (if e = 0 then a else b))
  else mapEl 8 4 fun e => deliver t sat (elVal src (el 16 (if e < 2 then a else b) (e % 2)))

/-- UNPK (R108). -/
def evalUnpk (t : Ty) (hi : Bool) (a : Nat) : Nat :=
  if elN t = 2 then low 32 (elVal t (el 16 a hi.toNat))
  else mapEl 16 2 fun j => low 16 (elVal t (el 8 a (2 * hi.toNat + j)))

/-! ### Meanings -/

/-- An instruction whose result is a function of the source values alone. -/
def vecPure (i : Instr) (f : List Nat → Res) : W Unit := issueVec i fun _ _ vs => f vs

/-- IADD (R80). -/
def execIadd (w : FWord) (s : State) : Host.Outcome State Fault Refusal :=
  run (vecPure (.iadd w) fun v => res1 w.ty (evalIadd w.ty w.f0 (arg v 0) (arg v 1))) s

/-- ISUB (R80). -/
def execIsub (w : FWord) (s : State) : Host.Outcome State Fault Refusal :=
  run (vecPure (.isub w) fun v => res1 w.ty (evalIsub w.ty w.f0 (arg v 0) (arg v 1))) s

/-- IMUL (R81). -/
def execImul (w : FWord) (s : State) : Host.Outcome State Fault Refusal :=
  run (vecPure (.imul w) fun v => res1 w.ty (evalImul w.ty (arg v 0) (arg v 1))) s

/-- IMULHI (R81). -/
def execImulhi (w : FWord) (s : State) : Host.Outcome State Fault Refusal :=
  run (vecPure (.imulhi w) fun v => res1 w.ty (evalProduct w.ty (arg v 0) (arg v 1) / 2 ^ 32)) s

/-- IMULW (R81). -/
def execImulw (w : FWord) (s : State) : Host.Outcome State Fault Refusal :=
  run (vecPure (.imulw w) fun v => res1 .b64 (evalProduct w.ty (arg v 0) (arg v 1))) s

/-- IMAD (R81). -/
def execImad (w : FWord) (s : State) : Host.Outcome State Fault Refusal :=
  run (vecPure (.imad w) fun v => res1 w.ty (evalImad w.ty w.f0 (arg v 0) (arg v 1) (arg v 2))) s

/-- IMIN (R80). -/
def execImin (w : FWord) (s : State) : Host.Outcome State Fault Refusal :=
  run (vecPure (.imin w) fun v => res1 w.ty (evalImin w.ty (arg v 0) (arg v 1))) s

/-- IMAX (R80). -/
def execImax (w : FWord) (s : State) : Host.Outcome State Fault Refusal :=
  run (vecPure (.imax w) fun v => res1 w.ty (evalImax w.ty (arg v 0) (arg v 1))) s

/-- IABSD (R80). -/
def execIabsd (w : FWord) (s : State) : Host.Outcome State Fault Refusal :=
  run (vecPure (.iabsd w) fun v => res1 w.ty (evalIabsd w.ty (arg v 0) (arg v 1))) s

/-- IDOT4 (R82). -/
def execIdot4 (w : FWord) (s : State) : Host.Outcome State Fault Refusal :=
  run (vecPure (.idot4 w) fun v => res1 .b32 (evalIdot4 w.ty w.f0 (arg v 0) (arg v 1) (arg v 2))) s

/-- AND (R83). -/
def execAnd (w : FWord) (s : State) : Host.Outcome State Fault Refusal :=
  run (vecPure (.andW w) fun v => res1 w.ty (evalLogic 0 w.ty (arg v 0) (arg v 1))) s

/-- OR (R83). -/
def execOr (w : FWord) (s : State) : Host.Outcome State Fault Refusal :=
  run (vecPure (.orW w) fun v => res1 w.ty (evalLogic 1 w.ty (arg v 0) (arg v 1))) s

/-- XOR (R83). -/
def execXor (w : FWord) (s : State) : Host.Outcome State Fault Refusal :=
  run (vecPure (.xorW w) fun v => res1 w.ty (evalLogic 2 w.ty (arg v 0) (arg v 1))) s

/-- ANDN (R83). -/
def execAndn (w : FWord) (s : State) : Host.Outcome State Fault Refusal :=
  run (vecPure (.andn w) fun v => res1 w.ty (evalLogic 3 w.ty (arg v 0) (arg v 1))) s

/-- SHL (R84). -/
def execShl (w : FWord) (s : State) : Host.Outcome State Fault Refusal :=
  run (vecPure (.shl w) fun v => res1 w.ty (evalShift 0 w.ty w.f0 (arg v 0) (arg v 1))) s

/-- SHR (R84). -/
def execShr (w : FWord) (s : State) : Host.Outcome State Fault Refusal :=
  run (vecPure (.shr w) fun v => res1 w.ty (evalShift 1 w.ty w.f0 (arg v 0) (arg v 1))) s

/-- SAR (R84). -/
def execSar (w : FWord) (s : State) : Host.Outcome State Fault Refusal :=
  run (vecPure (.sar w) fun v => res1 w.ty (evalShift 2 w.ty w.f0 (arg v 0) (arg v 1))) s

/-- FSHF (R85). -/
def execFshf (w : FWord) (s : State) : Host.Outcome State Fault Refusal :=
  run (vecPure (.fshf w) fun v => res1 .b32 (evalFshf w.f0 w.f1 (arg v 0) (arg v 1) (arg v 2))) s

/-- BFE (R86). -/
def execBfe (w : FWord) (s : State) : Host.Outcome State Fault Refusal :=
  run (vecPure (.bfe w) fun v => res1 w.ty (evalBfe w.ty (arg v 0) (arg v 1) (arg v 2))) s

/-- BFI (R86). -/
def execBfi (w : FWord) (s : State) : Host.Outcome State Fault Refusal :=
  run (vecPure (.bfi w) fun v => res1 w.ty (evalBfi w.ty (arg v 0) (arg v 1) (arg v 2))) s

/-- POPC (R87). -/
def execPopc (w : FWord) (s : State) : Host.Outcome State Fault Refusal :=
  run (vecPure (.popc w) fun v => res1 .b32 (evalPopc (elW w.ty) (arg v 0))) s

/-- CLZ (R87). -/
def execClz (w : FWord) (s : State) : Host.Outcome State Fault Refusal :=
  run (vecPure (.clz w) fun v => res1 .b32 (evalClz (elW w.ty) (arg v 0))) s

/-- BREV (R87). -/
def execBrev (w : FWord) (s : State) : Host.Outcome State Fault Refusal :=
  run (vecPure (.brev w) fun v => res1 w.ty (evalBrev (elW w.ty) (arg v 0))) s

/-- PRMT (R88). In .spl the second source is C. -/
def execPrmt (w : FWord) (s : State) : Host.Outcome State Fault Refusal :=
  run (vecPure (.prmt w) fun v => res1 .b32 (evalPrmt w.fl (arg v 0) (if w.fl = 3 then 0 else (arg v 1)) (arg v (if w.fl = 3 then 1 else 2)))) s

/-- ISETP (R89). -/
def execIsetp (w : FWord) (s : State) : Host.Outcome State Fault Refusal :=
  run (issueVec (.isetp w) fun _ th v =>
    { p := [(pn w.d, combine th w.c (intCond w.fl (elVal w.ty (arg v 0)) (elVal w.ty (arg v 1))))] }) s

/-- PSETP (R90). -/
def execPsetp (w : FWord) (s : State) : Host.Outcome State Fault Refusal :=
  run (issueVec (.psetp w) fun _ th _ =>
    { p := [(pn w.d, evalPsetp w.fl (predField th w.a) (predField th w.b) (predField th w.c))] }) s

/-- SEL (R91). -/
def execSel (w : FWord) (s : State) : Host.Outcome State Fault Refusal :=
  run (issueVec (.sel w) fun _ th v => res1 w.ty (if predField th w.c then (arg v 0) else (arg v 1))) s

/-- MOV (R91). -/
def execMov (w : FWord) (s : State) : Host.Outcome State Fault Refusal :=
  run (vecPure (.mov w) fun v => res1 w.ty (arg v 0)) s

/-- LEA (R92). -/
def execLea (w : FWord) (s : State) : Host.Outcome State Fault Refusal :=
  run (vecPure (.lea w) fun v => res1 .b64 (evalLea w.ty w.fl (arg v 0) (arg v 1))) s

/-- IADDC (R93). -/
def execIaddc (w : FWord) (s : State) : Host.Outcome State Fault Refusal :=
  run (issueVec (.iaddc w) fun _ th v =>
    let x := evalIaddc w.f0 w.f1 (th.pred (pn w.c)) (arg v 0) (arg v 1)
    { res1 .b32 (x % 2 ^ 32) with p := [(pn w.c, flag x 32)] }) s

/-- MOVIX (R78). -/
def execMovix (w : FWord) (s : State) : Host.Outcome State Fault Refusal :=
  run (issueVec (.movix w) fun _ th v =>
    if w.f0 then res1 .b32 ((th.ix[w.a.toNat % 8]?).getD 0).toNat
    else
      let k := w.d.toNat % 8
      let old := if w.f1 then ((th.ix[k]?).getD 0).toNat else 0
      { ix := [(k, BitVec.ofNat 16 (old + (arg v 0) + (arg v 1)))] }) s

/-- FADD (R96). -/
def execFadd (w : FWord) (s : State) : Host.Outcome State Fault Refusal :=
  run (vecPure (.fadd w) fun v => evalFadd w.ty w.rnd w.f0 (arg v 0) (arg v 1)) s

/-- FSUB (R96). -/
def execFsub (w : FWord) (s : State) : Host.Outcome State Fault Refusal :=
  run (vecPure (.fsub w) fun v => evalFsub w.ty w.rnd w.f0 (arg v 0) (arg v 1)) s

/-- FMUL (R96). -/
def execFmul (w : FWord) (s : State) : Host.Outcome State Fault Refusal :=
  run (vecPure (.fmul w) fun v => evalFmul w.ty w.rnd w.f0 (arg v 0) (arg v 1)) s

/-- FFMA (R96). -/
def execFfma (w : FWord) (s : State) : Host.Outcome State Fault Refusal :=
  run (vecPure (.ffma w) fun v => evalFfma w.ty w.rnd w.f0 (arg v 0) (arg v 1) (arg v 2)) s

/-- FMIN (R97). -/
def execFmin (w : FWord) (s : State) : Host.Outcome State Fault Refusal :=
  run (vecPure (.fmin w) fun v => evalFminmax w.ty true (arg v 0) (arg v 1)) s

/-- FMAX (R97). -/
def execFmax (w : FWord) (s : State) : Host.Outcome State Fault Refusal :=
  run (vecPure (.fmax w) fun v => evalFminmax w.ty false (arg v 0) (arg v 1)) s

/-- FSGN (R98). -/
def execFsgn (w : FWord) (s : State) : Host.Outcome State Fault Refusal :=
  run (vecPure (.fsgn w) fun v => evalFsgn w.ty w.f0 w.f1 (arg v 0) (arg v 1)) s

/-- FSETP (R99). -/
def execFsetp (w : FWord) (s : State) : Host.Outcome State Fault Refusal :=
  run (issueVec (.fsetp w) fun _ th v =>
    let x := fsetpRes w.fl (Fmt.f32.read (arg v 0)) (Fmt.f32.read (arg v 1))
    { p := [(pn w.d, combine th w.c x.1)], fl := x.2 }) s

/-- FCLASS (R100). -/
def execFclass (w : FWord) (s : State) : Host.Outcome State Fault Refusal :=
  run (vecPure (.fclass w) fun v => evalFclass w.ty (arg v 0)) s

/-- FRND (R101). -/
def execFrnd (w : FWord) (s : State) : Host.Outcome State Fault Refusal :=
  run (vecPure (.frnd w) fun v => evalFrnd w.ty w.rnd (arg v 0)) s

/-- FSCALE (R102). -/
def execFscale (w : FWord) (s : State) : Host.Outcome State Fault Refusal :=
  run (vecPure (.fscale w) fun v => evalFscale w.ty w.rnd (arg v 0) (arg v 1)) s

/-- FXTR (R103). -/
def execFxtr (w : FWord) (s : State) : Host.Outcome State Fault Refusal :=
  run (vecPure (.fxtr w) fun v => evalFxtr w.ty w.f0 (arg v 0)) s

/-- FDOT2 (R104). -/
def execFdot2 (w : FWord) (s : State) : Host.Outcome State Fault Refusal :=
  run (vecPure (.fdot2 w) fun v => evalFdot2 w.ty w.rnd w.f0 (arg v 0) (arg v 1) (arg v 2)) s

/-- CVT (R105, R106). -/
def execCvt (w : FWord) (s : State) : Host.Outcome State Fault Refusal :=
  run (vecPure (.cvt w) fun v => evalCvt (cvtSrc w) w.ty w.rnd w.f0 (arg v 0) (arg v 1)) s

/-- PACK (R107). -/
def execPack (w : FWord) (s : State) : Host.Outcome State Fault Refusal :=
  run (vecPure (.pack w) fun v => res1 w.ty (evalPack w.ty w.f0 (arg v 0) (arg v 1))) s

/-- UNPK (R108). -/
def execUnpk (w : FWord) (s : State) : Host.Outcome State Fault Refusal :=
  run (vecPure (.unpk w) fun v => res1 (wideTy w.ty) (evalUnpk w.ty w.f0 (arg v 0))) s

/-- Result and flags of a P-form slot (R109): `a` is DA, `b` is B. -/
def evalSlot (x : PSlot) (a b : Nat) : List (List Word) × FFlags :=
  let int := fun (v : Nat) => ([valueWords 1 v], (0 : FFlags))
  let flt := fun (r : Res) => (r.d, r.fl)
  match x.op with
  | .empty => ([], 0)
  | .iadd => int (evalIadd x.ty x.f0 a b)
  | .isub => int (evalIsub x.ty x.f0 a b)
  | .imin => int (evalImin x.ty a b)
  | .imax => int (evalImax x.ty a b)
  | .andS => int (evalLogic 0 x.ty a b)
  | .orS => int (evalLogic 1 x.ty a b)
  | .xorS => int (evalLogic 2 x.ty a b)
  | .shl => int (evalShift 0 x.ty x.f0 a b)
  | .shr => int (evalShift 1 x.ty x.f0 a b)
  | .sar => int (evalShift 2 x.ty x.f0 a b)
  | .mov => int b
  | .fadd => flt (evalFadd x.ty x.rnd x.f0 a b)
  | .fsub => flt (evalFsub x.ty x.rnd x.f0 a b)
  | .fmul => flt (evalFmul x.ty x.rnd x.f0 a b)
  | .fmin => flt (evalFminmax x.ty true a b)
  | .fmax => flt (evalFminmax x.ty false a b)
  | .fsgn => flt (evalFsgn x.ty x.f0 false a b)

/-- Source values a slot takes: none for an empty slot, B alone for MOV, else DA and B. -/
def slotArity (x : PSlot) : Nat := match x.op with | .empty => 0 | .mov => 1 | _ => 2
def slotArgs (x : PSlot) (v : List Nat) : List (List Word) × FFlags :=
  if x.op = .mov then evalSlot x 0 (arg v 0) else evalSlot x (arg v 0) (arg v 1)

/-- Results of both slots of a P-form word, from the values read before either writes (R31). -/
def evalPair (w : PWord) (v : List Nat) : Res :=
  let r0 := slotArgs w.slot0 v
  let r1 := slotArgs w.slot1 (v.drop (slotArity w.slot0))
  { d := r0.1 ++ r1.1, fl := r0.2 ||| r1.2 }

/-- PAIR_WORD (R28-R31, R109). -/
def execPairWord (w : PWord) (s : State) : Host.Outcome State Fault Refusal :=
  run (vecPure (.pairWord w) (evalPair w)) s

/-- MOVI (R94). -/
def execMovi (w : IWord) (s : State) : Host.Outcome State Fault Refusal :=
  run (vecPure (.movi w) fun _ => res1 .b32 w.imm.toNat) s

/-- IADDI (R94). -/
def execIaddi (w : IWord) (s : State) : Host.Outcome State Fault Refusal :=
  run (vecPure (.iaddi w) fun v => res1 .b32 ((arg v 0 + w.imm.toNat) % 2 ^ 32)) s

/-- ANDI (R94). -/
def execAndi (w : IWord) (s : State) : Host.Outcome State Fault Refusal :=
  run (vecPure (.andi w) fun v => res1 .b32 (arg v 0 &&& w.imm.toNat)) s

/-- ORI (R94). -/
def execOri (w : IWord) (s : State) : Host.Outcome State Fault Refusal :=
  run (vecPure (.ori w) fun v => res1 .b32 (arg v 0 ||| w.imm.toNat)) s

/-- XORI (R94). -/
def execXori (w : IWord) (s : State) : Host.Outcome State Fault Refusal :=
  run (vecPure (.xori w) fun v => res1 .b32 (arg v 0 ^^^ w.imm.toNat)) s

/-- ISETPI (R34). -/
def execIsetpi (w : IWord) (s : State) : Host.Outcome State Fault Refusal :=
  run (vecPure (.isetpi w) fun v => 
    let k := low 32 (sgn 23 (w.immBits 22 0))
    let x := if w.immBits 27 27 = 1 then intCond (w.immBits 31 28) (arg v 0 : Nat) (k : Nat)
      else intCond (w.immBits 31 28) (sgn 32 (arg v 0)) (sgn 32 k)
    { p := [(pn w.d, x)] }) s

end Sys2Proof.Machine
end

