-- ==== Sys2Proof/Machine/Lsu.lean ====
section
/-!
DEFINITION. The load-store unit (spec 03): the L1, the reduction buffer, releases and acquires, the range table, and the
memory instructions.
-/
namespace Sys2Proof.Machine

/-! ### The L1 (R117-R119) -/

def CoreSt.line? (c : CoreSt) (a : Nat) : Option L1Line := c.l1.find? fun l => l.line = a / 128
def wordIx (a : Nat) : Nat := a % 128 / 4
def L1Line.bit (xs : List Bool) (a : Nat) : Bool := (xs[wordIx a]?).getD false

/-- The core's L1 copy of the word at `a`: value, dirty, poisoned. -/
def CoreSt.l1Word? (c : CoreSt) (a : Nat) : Option (Word × Bool × Bool) :=
  (c.line? a).bind fun l =>
    if L1Line.bit l.valid a then
      some ((l.data[wordIx a]?).getD 0, L1Line.bit l.dirty a, L1Line.bit l.poison a)
    else none

def emptyLine (k : Nat) : L1Line :=
  { line := k, data := List.replicate 32 0, valid := List.replicate 32 false, dirty := List.replicate 32 false
    poison := List.replicate 32 false }

/-- Bytes of a carve code (Table 7.4). -/
def carveBytes (code : Nat) : Nat := 1024 * (match code with | 0 => 0 | 1 => 256 | 2 => 512 | 3 => 768 | 4 => 1024 | _ => 1152)

/-- Lines of the L1: the core's storage that its scratchpad carve leaves (R3). -/
def CoreSt.l1Room (c : CoreSt) : Nat := (Config.coreStorage - carveBytes c.carve) / 128

/-- Both words of the 8-byte pair that holds word `k` are valid and dirty. -/
def L1Line.dirtyPair (l : L1Line) (k : Nat) : Bool :=
  [k / 2 * 2, k / 2 * 2 + 1].all fun j => (l.valid[j]?).getD false && (l.dirty[j]?).getD false

/-- Both words of the pair are of one moment (R124). -/
def L1Line.wholePair (l : L1Line) (k : Nat) : Bool :=
  l.whole.contains (k / 2) && [k / 2 * 2, k / 2 * 2 + 1].all fun j => (l.valid[j]?).getD false

/-- Put a word into the L1. A pair that a strong store wrote goes home together although a word of it is written again. -/
def l1Put (core a : Nat) (w : Word) (dirty poison : Bool) (mark : Option Scope) : W Unit :=
  modCore core fun c =>
    let l := (c.line? a).getD (emptyLine (a / 128))
    let k := wordIx a
    let l := { l with data := l.data.set k w, valid := l.valid.set k true, dirty := l.dirty.set k dirty
                      poison := l.poison.set k poison
                      marks := (l.marks.filter fun m => m.1 ≠ k) ++ (mark.map fun x => (k, x)).toList
                      whole := if dirty && l.dirtyPair k then l.whole else l.whole.erase (k / 2) }
    { c with l1 := upsert (fun x => x.line = l.line) l c.l1 }

/-- The pair of words at `a` is now of one moment (R124). -/
def l1Join (core a : Nat) : W Unit :=
  modCore core fun c => { c with
    l1 := c.l1.map fun l => if l.line = a / 128 then { l with whole := wordIx a / 2 :: l.whole.erase (wordIx a / 2) } else l }

/-- Drop lines without a valid word. -/
def CoreSt.prune (c : CoreSt) : CoreSt := { c with l1 := c.l1.filter fun l => l.valid.any fun b => b }

/-- Drop the L1 copy of a word. -/
def l1Drop (core a : Nat) : W Unit :=
  modCore core fun c => CoreSt.prune { c with
    l1 := c.l1.map fun l =>
      if l.line = a / 128 then
        { l with valid := l.valid.set (wordIx a) false, dirty := l.dirty.set (wordIx a) false
                 marks := l.marks.filter fun m => m.1 ≠ wordIx a, whole := l.whole.erase (wordIx a / 2) }
      else l }

/-- Copy back one dirty word. -/
def copyBackWord (core a : Nat) (fa : DWord) : P Unit := do
  match ((← getSt).core core).l1Word? a with
  | some (w, true, poison) => do
    needSpan a 4 true fa
    asCore core (storeAt a (leBytes 4 w.toNat) none poison)
    modCore core fun c => { c with
      l1 := c.l1.map fun l => if l.line = a / 128 then { l with dirty := l.dirty.set (wordIx a) false } else l }
  | _ => pure ()

/-- Copy back the core's dirty copy of a word to its coherence point (R117); the copy stays, clean. The dirty pair of a strong
store of 8 bytes is copied back as one (R124). -/
def copyBack (core a : Nat) (fa : DWord) : P Unit := do
  let l := ((← getSt).core core).line? a
  if l.any fun l => l.wholePair (wordIx a) && l.dirtyPair (wordIx a) then
    needSpan (a / 8 * 8) 8 true fa
    copyBackWord core (a / 8 * 8) fa
    copyBackWord core (a / 8 * 8 + 4) fa
  else copyBackWord core a fa

/-- Addresses of the words of a span. -/
def wordsOf (a n : Nat) : List Nat := (List.range ((a + n + 3) / 4 - a / 4)).map fun k => 4 * (a / 4 + k)

/-- Copy back and drop the core's copies of a span's words (R118). -/
def flushSpan (core a n : Nat) (fa : DWord) : P Unit := do
  for w in wordsOf a n do
    copyBack core w fa
    l1Drop core w

/-- Copy back and drop the oldest lines while the core's L1 holds `n` or more. `fuel` bounds their number. -/
def l1Shrink (fuel core n : Nat) (fa : DWord) : P Unit := do
  match fuel with
  | 0 => return
  | fuel + 1 =>
    let ls := ((← getSt).core core).l1
    if ls.length < n then return
    match ls with
    | l :: _ => do
      flushSpan core (128 * l.line) 128 fa
      modCore core fun c => { c with l1 := c.l1.filter fun x => x.line ≠ l.line }
      l1Shrink fuel core n fa
    | [] => return

/-- Make room for a new line of the address (R3). -/
def l1Make (core a : Nat) (fa : DWord) : P Unit := do
  let c := (← getSt).core core
  if (c.line? a).isNone then l1Shrink c.l1.length core c.l1Room fa

/-- Dirty words of a core's L1. -/
def CoreSt.dirtyWords (c : CoreSt) : List Nat :=
  c.l1.flatMap fun l => ((List.range 32).filter fun k => (l.valid[k]?).getD false && (l.dirty[k]?).getD false).map
    fun k => 128 * l.line + 4 * k

/-- Do every part of a release, also after one that cannot be done; then stop where the first part did that still can be,
else where the first part failed (R119). -/
def doAll (ps : List (P Unit)) (failed : Option Stop := none) : P Unit := do
  match ps, failed with
  | [], none => return
  | [], some e => throw e
  | p :: r, f => do
    match ← tryP p with
    | .ok _ => doAll r f
    | .error e => match f, e with
      | some (.cause ..), .cause .. => doAll r f
      | some (.cause ..), _ | none, _ => doAll r (some e)
      | some _, _ => doAll r f

/-- Copy back every dirty word of the core. -/
def copyBackAll (core : Nat) (fa : DWord) : P Unit := do
  doAll (((← getSt).core core).dirtyWords.map fun w => copyBack core w fa)

/-- Offset in a subscribed range of a physical byte. -/
def Sub.offsetOf (u : Sub) (a : Nat) : Option Nat :=
  (u.parts.find? fun p => p.pa ≤ a && a < p.pa + p.len).map fun p => p.off + (a - p.pa)

/-- The line lies in a live subscription of the core. -/
def CoreSt.subOf (c : CoreSt) (a : Nat) : Option Sub := c.subs.find? fun u => u.live && (u.offsetOf a).isSome

/-- Invalidate the clean words of every unsubscribed line, host lines only when `host` (R119). -/
def invalidate (core : Nat) (host : Bool) : W Unit :=
  modCore core fun c => CoreSt.prune { c with
    l1 := c.l1.map fun l =>
      if (isHost (128 * l.line) && !host) || (c.subOf (128 * l.line)).isSome then l
      else { l with valid := (l.valid.zip l.dirty).map fun x => x.1 && x.2
                    whole := l.whole.filter fun k => l.dirtyPair (2 * k) } }

/-- Invalidate every L1 copy of a span (R140). -/
def invalidateSpan (core a n : Nat) : W Unit := do
  for w in wordsOf a n do l1Drop core w

/-! ### RMW functions (R146, R148) -/

/-- `op` of Table 3.17 on old value and operand. -/
def rmwFn (op : Nat) (t : Ty) (old b : Nat) : Nat :=
  let float := match t with | .f32 | .f16x2 | .bf16x2 => true | _ => false
  let fval := fun (r : Res) => wordsValue (r.d.headD [])
  match op with
  | 0 => if float then fval (evalFadd t .rne false old b) else evalIadd t false old b
  | 1 => if float then fval (evalFminmax t true old b) else evalImin t old b
  | 2 => if float then fval (evalFminmax t false old b) else evalImax t old b
  | 3 => old &&& b
  | 4 => old ||| b
  | 5 => old ^^^ b
  | 6 => b
  | 7 => if old ≥ b then 0 else old + 1
  | 8 => if old = 0 || old > b then b else old - 1
  | _ => if old = b % 2 ^ 32 then b / 2 ^ 32 else old

/-- Places of Table 5.3 an RMW can execute at. -/
inductive Place where
  | own | peer | device | host
deriving DecidableEq, Repr

/-- Table 5.4: the combination exists. `op` 16 is ACAS. -/
def rmwExists (op : Nat) (t : Ty) (p : Place) : Bool :=
  let int := match t with | .b32 | .i32 | .b64 | .i64 => true | _ => false
  let w64 := match t with | .b64 | .i64 => true | _ => false
  let packed := match t with | .f16x2 | .bf16x2 => true | _ => false
  match op with
  | 0 => int || (match p with | .own | .device => true | .peer => !packed | .host => false)
  | 1 | 2 => if int then !(w64 && p = .peer)
    else match p with | .own | .device => true | .peer => !packed | .host => false
  | 3 | 4 | 5 | 6 => true
  | 7 | 8 => p ≠ .host
  | 15 => p = .own || p = .peer
  | _ => p = .device || p = .host

/-! ### The reduction buffer (R122, R204) -/

/-- Home slice of a device or vault line, 0-159 on its die, and its set there (R201, R205). -/
def homeSlice (line : Nat) : Nat :=
  if isVault (128 * line) then 128 * line % 2 ^ 29 % 20971520 / 131072 else line % 2 ^ 29 % 160
def homeSet (line : Nat) : Nat := if isVault (128 * line) then line % 1024 else line % 2 ^ 29 / 160 % 1024
/-- Die of a device or vault line's home (R201, R205). -/
def homeDie (line : Nat) : Nat := if isVault (128 * line) then (128 * line - 2 ^ 41) / 2 ^ 29 else line / 2 ^ 29

/-- The core's bit in the line's directory entry clears once it holds no contribution to the line; an entry without a bit
is free (R204). -/
def leaveRed (core line : Nat) : W Unit := do
  if !((← getSt).core core).red.any fun y => y.addr / 128 = line then
    upd fun s => { s with
      redDir := (s.redDir.map fun e => if e.line = line then { e with cores := e.cores.erase core } else e).filter
        fun e => !e.cores.isEmpty }

/-- One contribution performed at its home as an atomic RMW. -/
def mergeOne (core : Nat) (x : Contribution) (fa : DWord) : P Unit := do
  let n := 4 * tyRegs x.ty
  flushSpan core x.addr n fa
  needSpan x.addr n true fa
  if !(← isPoisoned x.addr n) then
    let old ← readNat x.addr n
    asCore core (storeNat x.addr n (rmwFn x.op x.ty old x.val))
  modCore core fun c => { c with red := c.red.erase x }
  leaveRed core (x.addr / 128)

/-- Merge the core's contributions to the line of `a` (R122). -/
def mergeLine (core a : Nat) (fa : DWord) : P Unit := do
  for x in ((← getSt).core core).red do
    if x.addr / 128 = a / 128 then mergeOne core x fa

def mergeAll (core : Nat) (fa : DWord) : P Unit := do
  doAll (((← getSt).core core).red.map fun x => mergeOne core x fa)

/-- Recall the line from every core's reduction buffer before the home serves a read, a strong store or an RMW (R204). -/
def takeBack (a n : Nat) (fa : DWord) : P Unit := do
  for c in (← getSt).cores do
    for x in c.red do
      if a / 128 ≤ x.addr / 128 && x.addr / 128 ≤ (a + n - 1) / 128 then mergeOne c.id x fa

/-- Register a device or vault line with its home before the core's buffer holds it; a slice whose directory of 256
entries is full recalls the line of its oldest entry first (R204). -/
def registerRed (core line : Nat) (fa : DWord) : P Unit := do
  let s ← getSt
  if s.redDir.any (·.line = line) then
    upd fun s => { s with
      redDir := s.redDir.map fun e =>
        if e.line = line && !e.cores.contains core then { e with cores := e.cores ++ [core] } else e }
  else
    let mine := s.redDir.filter fun e => (homeDie e.line, homeSlice e.line) = (homeDie line, homeSlice line)
    match mine with
    | e :: _ => if mine.length ≥ 256 then takeBack (128 * e.line) 128 fa
    | [] => pure ()
    upd fun s => { s with redDir := s.redDir ++ [{ line, cores := [core] }] }

/-- Place a contribution in the buffer: one with the same word, operation and type combines; a new line needs one of the
64 entries, and the oldest line is merged for it. -/
def contribute (core : Nat) (x : Contribution) (fa : DWord) : P Unit := do
  let red := ((← getSt).core core).red
  match red.find? fun y => y.addr = x.addr && y.op = x.op && y.ty = x.ty with
  | some y =>
    modCore core fun c => { c with
      red := c.red.map fun z => if z = y then { y with val := rmwFn x.op x.ty y.val x.val } else z }
  | none => do
    let lines := (red.map fun y => y.addr / 128).eraseDups
    if lines.length ≥ 64 && !lines.contains (x.addr / 128) then
      match red with
      | y :: _ => mergeLine core y.addr fa
      | [] => pure ()
    if isDevice x.addr || isVault x.addr then registerRed core (x.addr / 128) fa
    modCore core fun c => { c with red := c.red ++ [x] }

/-! ### Mirrors (R210, R211) -/

/-- Write bytes into a mirror, with a published mark. -/
def mirrorPut (core : Nat) (u : Sub) (off : Nat) (bs : List Byte) (mark : Option Scope) : W Unit := do
  let a := scratchBase core + u.mirror + off
  storeAt a bs
  match mark with
  | some sc => upd fun s => { s with published := ((wordsOf a bs.length).map fun k => { addr := k, scope := sc }) ++ s.published }
  | none => return

def modSub (core h : Nat) (f : Sub → Sub) : W Unit :=
  modCore core fun c => { c with subs := c.subs.map fun u => if u.handle = h then f u else u }

/-- Apply one update to a subscription of a core (R210), with the poison that it carries (R203). -/
def applyUpdate (core : Nat) (u : Sub) (e : SubUpd) : W Unit := do
  match u.offsetOf e.addr with
  | some off => do
    mirrorPut core u off e.bytes e.mark
    for w in e.bad do
      match u.offsetOf w with
      | some k => poisonAt (scratchBase core + u.mirror + k) 4
      | none => pure ()
  | none => pure ()
  modSub core u.handle fun x => { x with seq := e.seq, early := x.early.erase e }

/-- Apply updates in sequence order until none is left that `till` names. -/
def applyUntil (fuel core h : Nat) (till : SubUpd → Bool) : W Unit := do
  match fuel with
  | 0 => return
  | fuel + 1 =>
    match ((← getSt).core core).subs.find? fun u => u.handle = h && u.live && u.ready with
    | none => return
    | some u =>
      if !u.early.any till then return
      match u.early.find? fun e => e.seq = (u.seq + 1) % 2 ^ 32 with
      | none => return
      | some e => do
        applyUpdate core u e
        applyUntil fuel core h till

/-- A core's mirrors take the updates sent to them, up to the last that `till` names: the writes that happen before an
acquire stand in the mirrors when it is performed (R128). -/
def drainMirrors (core : Nat) (till : SubUpd → Bool) : W Unit := do
  for u in ((← getSt).core core).subs do applyUntil u.early.length core u.handle till

/-- A strong load or RMW of a thread is complete: the updates sent to its core's mirrors by now come before the thread's
later strong loads (R125, R131); `narrow` marks a completion at grp or team scope. -/
def markDue (t : ThreadId) (narrow : Bool) : W Unit := do
  if ((← getSt).core t.core).subs.any fun u => !u.early.isEmpty then
    modCore t.core fun c => { c with
      subs := c.subs.map fun u => { u with early := u.early.map fun e => { e with due := (t, narrow) :: e.due } } }

/-! ### Orders (R116, R119) -/

/-- Die scope or wider. -/
def Scope.wide (s : Scope) : Bool := match s with | .grp | .team => false | _ => true

/-- Rows that a KVAPP has written become visible on every die (R434). -/
def settleLag (p : LagWord → Bool) : W Unit := do
  if (← getSt).lag.any p then upd fun s => { s with lag := s.lag.filter fun y => !p y }

/-- The release action of R119: all of it is done, also what follows a word that fails. One at dev or sys scope makes the rows
of the core's KVAPPs visible on every die (R434). -/
def releaseAct (core : Nat) (sc : Scope) (fa : DWord) : P Unit := do
  if Scope.wide sc then
    doAll [mergeAll core fa, copyBackAll core fa]
    if sc = .dev || sc = .sys then settleLag fun y => y.core = core

/-- The acquire action of R119, and of R128 on the core's mirrors: one at grp or team scope orders what the core's threads
have read, which the updates that they have marked carry. -/
def acquireAct (core : Nat) (sc : Scope) : W Unit := do
  if Scope.wide sc then
    drainMirrors core fun _ => true
    invalidate core (sc = .sys)
  else drainMirrors core fun e => !e.due.isEmpty

/-! ### Reads and writes of a core at a physical address -/

/-- The published mark of a word at its coherence point. -/
def State.markAt (s : State) (a : Nat) : Option Scope := (s.published.find? fun p => p.addr = a).map (·.scope)

/-- Fetch a word from its home: value and poison. -/
def homeWord (a : Nat) : W (Word × Bool) := do
  return (BitVec.ofNat 32 (← readNat a 4), ← isPoisoned a 4)

/-- Install the words of a line that the L1 does not hold; pairs installed together are of one moment (R124). -/
def fillLine (core a : Nat) (fa : DWord) : P Unit := do
  l1Make core a fa
  let c := (← getSt).core core
  let new := ((List.range 32).map fun k => a / 128 * 128 + 4 * k).filter fun w => (c.l1Word? w).isNone
  for w in new do
    let x ← homeWord w
    l1Put core w x.1 false x.2 ((← getSt).markAt w)
  for w in new do if w % 8 = 0 && new.contains (w + 4) then l1Join core w

/-- The L1 serves an 8-byte access whole: both words are dirty, or of one moment (R118, R124). -/
def CoreSt.servesPair (c : CoreSt) (a : Nat) : Bool :=
  (c.line? a).any fun l => l.wholePair (wordIx a) || l.dirtyPair (wordIx a)

/-- A weak load, or a strong load at grp or team scope, of one word: any valid L1 copy may serve a weak load, and serves
a narrow strong one (R117, R118). Answers value, poison and the mark that came with the word. -/
def l1Load (core a : Nat) (useL1 : Bool) : P (Word × Bool × Option Scope) := do
  let s ← getSt
  match (s.core core).l1Word? a with
  | some (w, d, p) =>
    if d || useL1 then
      let m := ((s.core core).line? a).bind fun l => (l.marks.find? fun m => m.1 = wordIx a).map (·.2)
      return (w, p, m)
    else
      let x ← homeWord a
      return (x.1, x.2, s.markAt a)
  | none => do
    let x ← homeWord a
    return (x.1, x.2, s.markAt a)

/-- The subscribed range of this core that serves a generic load (R211), once its mirror is complete. -/
def State.mirrorOf (s : State) (core a : Nat) : Option Sub :=
  ((s.core core).subOf a).bind fun u => if u.ready then some u else none

/-- Address of a mirrored byte in the core's scratchpad; `mirror` is an offset in the core's storage. -/
def mirrorAddr (core : Nat) (u : Sub) (a : Nat) : Nat := scratchBase core + u.mirror + (u.offsetOf a).getD 0

/-- Words of a span at their homes, with poison and marks. -/
def homeWords (ws : List Nat) : W (List (Word × Bool × Option Scope)) := do
  let s ← getSt
  let mut out : List (Word × Bool × Option Scope) := []
  for w in ws do
    let x ← homeWord w
    out := out ++ [(x.1, x.2, s.markAt w)]
  return out

/-- Words of a load of thread `t` at a physical address, with poison and the marks seen (R117-R119, R211). The L1 holds no
copy of a subscribed range. A strong load of 8 bytes that the L1 serves takes from the home the words of a pair that is not
of one moment, but for the core's own dirty ones (R124; log 60). -/
def loadSpan (t : ThreadId) (pa n : Nat) (o : Order) (sc : Scope) (fa : DWord) :
    P (List (Word × Bool × Option Scope)) := do
  let core := t.core
  let ws := wordsOf pa n
  mergeLine core pa fa
  mergeLine core (pa + n - 1) fa
  let s ← getSt
  if isScratch pa then
    let mut out : List (Word × Bool × Option Scope) := []
    for w in ws do
      let x ← homeWord w
      out := out ++ [(x.1, x.2, none)]
    return out
  match s.mirrorOf core pa with
  | some u => do
    -- what a strong load of the thread has to see is applied first (R125, R131)
    if o ≠ .weak && Scope.wide sc then applyUntil u.early.length core u.handle fun e => e.due.any (·.1 = t)
    else if o ≠ .weak then applyUntil u.early.length core u.handle fun e => e.due.contains (t, true)
    let u := ((← getSt).mirrorOf core pa).getD u
    -- a word with an update of this core's own write outstanding waits for it (R211)
    if u.early.any fun e => e.src = core + 1 && (wordsOf e.addr e.bytes.length).any ws.contains then throw .wait
    homeWords (ws.map (mirrorAddr core u))
  | none =>
    if (o ≠ .weak && Scope.wide sc) || ((s.core core).subOf pa).isSome then
      flushSpan core pa n fa
      takeBack pa n fa
      needSpan pa n false fa
      homeWords ws
    else
      if o ≠ .weak && n = 8 && !(s.core core).servesPair pa then
        for w in ws do if ((s.core core).l1Word? w).any fun x => !x.2.1 then l1Drop core w
      let s ← getSt
      let copies := ws.map fun w => (s.core core).l1Word? w
      let clean := copies.any fun x => match x with | some (_, d, _) => !d | none => false
      let useL1 : Bool ← if o = .weak && clean then (do return decide ((← choose 2) = 0)) else pure true
      let fetch := copies.any fun x => match x with | some (_, d, _) => !d && !useL1 | none => true
      if fetch then
        takeBack pa n fa
        needSpan pa n false fa
      let mut out : List (Word × Bool × Option Scope) := []
      for w in ws do out := out ++ [← l1Load core w useL1]
      if copies.any Option.isNone then
        if (← choose 2) = 1 then
          -- the device installs the line that it fetched
          needSpan (pa / 128 * 128) 128 false fa
          fillLine core pa fa
      return out

/-- Bytes of a span from the words that cover it. -/
def spanBytes (pa n : Nat) (ws : List Word) : List Byte :=
  ((ws.flatMap fun w => leBytes 4 w.toNat).drop (pa % 4)).take n

/-- A load is complete: the L1 action of an acquire, or of a published mark that a strong load returned (R119, R132). -/
def loadActs (t : ThreadId) (o : Order) (acq : Bool) (sc : Scope) (got : List (Word × Bool × Option Scope)) : W Unit := do
  let core := t.core
  if acq then acquireAct core sc
  if o ≠ .weak then
    markDue t (!Scope.wide sc)
    for x in got do
      match x.2.2 with
      | some m => acquireAct core m
      | none => pure ()

/-- A store at a physical address (R117, R118). The release of a rel store has been made. -/
def storeSpan (core pa n : Nat) (bs : List Byte) (o : Order) (sc : Scope) (fa : DWord) : P Unit := do
  let s ← getSt
  if isScratch pa then storeAt pa bs
  else
    mergeLine core pa fa
    mergeLine core (pa + n - 1) fa
    if (o ≠ .weak && Scope.wide sc) || ((s.core core).subOf pa).isSome then
      flushSpan core pa n fa
      takeBack pa n fa
      needSpan pa n true fa
      storeAt pa bs
    else if n < 4 then
      let w := pa / 4 * 4
      let x ← match (s.core core).l1Word? w with
        | some (v, _, p) => pure (v, p)
        | none => do
          takeBack w 4 fa
          needSpan w 4 false fa
          homeWord w
      l1Make core w fa
      let old := leBytes 4 x.1.toNat
      let new := old.take (pa % 4) ++ bs ++ old.drop (pa % 4 + n)
      l1Put core w (BitVec.ofNat 32 (leValue new)) true x.2 none
    else
      l1Make core pa fa
      for k in (wordsOf pa n).zipIdx do
        l1Put core k.1 (BitVec.ofNat 32 (leValue ((bs.drop (4 * k.2)).take 4))) true false none
      if o ≠ .weak && n = 8 then l1Join core pa

/-! ### The range table (R136-R140) -/

def RangeEntry.hits (e : RangeEntry) (spc base n : Nat) : Bool := e.spc = spc && e.base < base + n && base < e.base + e.len

/-- Range check of one access of a thread of team `slot` (Table 3.5). An access that meets entries of its own team and of
another team raises RANGE at once (DESIGN CHOICE, log 17: the spec gives no order). -/
def rangeCheck (core slot spc base n : Nat) (write : Bool) (fa : DWord) : P Unit := do
  let hit := ((← getSt).core core).ranges.filter fun e => e.hits spc base n && (e.dst || write)
  if hit.any fun e => e.owner ≠ slot then raiseP .range fa
  if !hit.isEmpty then throw (.rng (hit.map fun e => (e.base, e.len)))

/-! ### Memory instructions -/

/-- Kinds of memory instruction. -/
inductive AccKind where
  | load | store | loadRun (n : Nat) | storeRun (n : Nat) | rmw (op : Nat) | acas | red (op : Nat) | fence
  | prefetch (l1 : Bool) | wait (ne : Bool)
deriving DecidableEq, Repr

/-- What a memory instruction does: `space` 0 generic, 1 team scratchpad, 2 peer scratchpad. -/
structure Acc where
  kind  : AccKind
  space : Nat
  ty    : Ty
  order : Order
  scope : Scope
deriving DecidableEq, Repr

def accM (kind : AccKind) (space : Nat) (w : MWord) : Acc := { kind, space, ty := w.ty, order := w.order, scope := w.scope }
def accI (kind : AccKind) (space : Nat) (w : IWord) : Acc :=
  { kind, space, ty := immTy w, order := immOrder w, scope := immScope w }

/-- The access of a memory word (Table 3.15, R145, R191). -/
def accOf (i : Instr) : Option Acc :=
  match i with
  | .ld w => some (accM .load 0 w) | .st w => some (accM .store 0 w)
  | .lds w => some (accM .load 1 w) | .sts w => some (accM .store 1 w)
  | .ldv w => some (accM (.loadRun (runCount w)) 0 w) | .stv w => some (accM (.storeRun (runCount w)) 0 w)
  | .ldp w => some (accM .load 2 w) | .stp w => some (accM .store 2 w)
  | .atom w => some (accM (.rmw (w.c.toNat % 16)) 0 w) | .acas w => some (accM .acas 0 w)
  | .red w => some (accM (.red (w.c.toNat % 16)) 0 w)
  | .atoms w => some (accM (.rmw (w.c.toNat % 16)) 1 w) | .atomp w => some (accM (.rmw (w.c.toNat % 16)) 2 w)
  | .fence w => some (accM .fence 3 w)
  | .pfetch w => some (accM (.prefetch (w.scope = .grp)) 0 w)
  | .ldi w => some (accI .load 0 w) | .sti w => some (accI .store 0 w)
  | .ldsi w => some (accI .load 1 w) | .stsi w => some (accI .store 1 w)
  | .waitz w => some (accI (.wait false) (w.mod10.toNat / 512) w)
  | .waitne w => some (accI (.wait true) (w.mod10.toNat / 512) w)
  | _ => none

/-- Code 00 of an RMW or FENCE is ar (Table 1.4). -/
def Acc.isRmw (a : Acc) : Bool := match a.kind with | .rmw _ | .acas => true | _ => false
def Acc.isFence (a : Acc) : Bool := a.kind = .fence
def Acc.acq (a : Acc) : Bool := a.order = .acq || ((a.isRmw || a.isFence) && a.order = .weak)
def Acc.rel (a : Acc) : Bool := a.order = .rel || ((a.isRmw || a.isFence) && a.order = .weak)
def Acc.writes (a : Acc) : Bool :=
  match a.kind with | .store | .storeRun _ | .rmw _ | .acas | .red _ => true | _ => false
/-- Bytes of an access (Table 3.2). -/
def Acc.size (a : Acc) : Nat :=
  match a.kind with
  | .loadRun n | .storeRun n => 4 * n
  | _ => match a.ty with | .b8 | .i8 => 1 | .b16 | .i16 => 2 | .b64 | .i64 => 8 | .b128 => 16 | _ => 4
/-- Alignment of an access (R114, R144). -/
def Acc.align (a : Acc) : Nat := match a.kind with | .loadRun _ | .storeRun _ => 4 | _ => a.size

/-- Byte offset of an I-form word (R145). -/
def immOffset (w : IWord) : Int := sgn 23 (w.immBits 22 0)

/-- Effective address as OPV0 and OPV1 hold it: a generic address, the formed scratchpad offset, or the peer address with
its formed offset (R110-R112). A peer offset outside 32 bits sets bit 63, which is a reserved bit. -/
def formAddr (space : Nat) (base : Nat) (off : Int) : Nat :=
  match space with
  | 2 =>
    let o := (base % 2 ^ 32 : Nat) + off
    if 0 ≤ o && o < 2 ^ 32 then base / 2 ^ 32 * 2 ^ 32 + o.toNat else base % 2 ^ 63 + 2 ^ 63
  | _ => low 64 ((base : Int) + off)

/-- Captured operands of a memory word (R295): the address, then data, operand, or compare and new value. -/
def captureMem (i : Instr) (_ : State) (_ : Thread) (v : List Nat) : List Word :=
  let addr := fun (space base : Nat) (off : Int) => valueWords 2 (formAddr space base off)
  match i with
  | .ld _ | .ldv _ | .pfetch _ => addr 0 (arg v 0) (sgn 32 (arg v 1))
  | .lds _ => addr 1 (arg v 0) (sgn 32 (arg v 1))
  | .ldp _ => addr 2 (arg v 0) (sgn 32 (arg v 1))
  | .st w => addr 0 (arg v 1) (sgn 32 (arg v 2)) ++ valueWords (tyRegs w.ty) (arg v 0)
  | .sts w => addr 1 (arg v 1) (sgn 32 (arg v 2)) ++ valueWords (tyRegs w.ty) (arg v 0)
  | .stp w => addr 2 (arg v 1) (sgn 32 (arg v 2)) ++ valueWords (tyRegs w.ty) (arg v 0)
  | .stv w => addr 0 (arg v 1) (sgn 32 (arg v 2)) ++ valueWords (runCount w) (arg v 0)
  | .atom _ => addr 0 (arg v 0) 0 ++ valueWords 2 (arg v 1)
  | .atoms _ => addr 1 (arg v 0) 0 ++ valueWords 2 (arg v 1)
  | .atomp _ => addr 2 (arg v 0) 0 ++ valueWords 2 (arg v 1)
  | .acas _ => addr 0 (arg v 0) 0 ++ valueWords 2 (arg v 1) ++ valueWords 2 (arg v 2)
  | .red _ => addr 0 (arg v 1) 0 ++ valueWords 2 (arg v 0)
  | .ldi w => addr 0 (arg v 0) (immOffset w)
  | .ldsi w => addr 1 (arg v 0) (immOffset w)
  | .sti w => addr 0 (arg v 1) (immOffset w) ++ valueWords (tyRegs (immTy w)) (arg v 0)
  | .stsi w => addr 1 (arg v 1) (immOffset w) ++ valueWords (tyRegs (immTy w)) (arg v 0)
  | .waitz w => addr (w.mod10.toNat / 512) (arg v 0) (immOffset w)
  | .waitne w => addr (w.mod10.toNat / 512) (arg v 1) (immOffset w) ++ valueWords 2 (arg v 0)
  | _ => []

/-- Bits [63:57] of a generic address equal bit 56 (R110). -/
def canonical (ea : Nat) : Bool := ea / 2 ^ 56 % 2 ^ 8 = 0 || ea / 2 ^ 56 % 2 ^ 8 = 255

/-- Regions of a team's scratchpad that a store may not touch (R498), as offsets in the core's storage: mirrors (`mirror`)
and ring headers. -/
def State.protectedAt (s : State) (core base n : Nat) (mirror : Bool) : Bool :=
  let c := s.core core
  (mirror && c.subs.any fun u => u.mirror < base + n && base < u.mirror + u.len)
    || c.rings.any fun r => r.off < base + n && base < r.off + 64

/-- Where an access goes. -/
structure Target where
  pa    : Nat
  place : Place
deriving DecidableEq, Repr

/-- Address formation checks, alignment, translation, range table (R142 steps 3 to 6). An RMW asks for write permission
alone, and a write to a protected mirror or ring header raises PROT before ALIGN (DESIGN CHOICE, log 57: the spec does not
say whether an RMW needs read permission too, nor in which order R498 and R114 are tested). -/
def resolve (th : Thread) (a : Acc) (e : Entry) : P Target := do
  let s ← getSt
  let core := th.tid.core
  let ea := (e.d 0).toNat
  let fa := e.d 0
  let n := a.size
  match a.space with
  | 0 => do
    if !canonical ea then raiseP .prot fa
    if ea % a.align ≠ 0 then raiseP .align fa
    let i : Intent := if a.writes then .write else .read
    let pa ← translate (.core core) (s.pasidOf th.lslot) fa i e.retry
    -- the words of a run may lie on a second page
    let last ← translate (.core core) (s.pasidOf th.lslot) (fa + BitVec.ofNat 64 (n - 1)) i e.retry
    let _ := last
    rangeCheck core th.slot 0 ea n a.writes fa
    return { pa, place := if isHost pa then .host else .device }
  | 1 => do
    let tm := s.team? core th.slot
    let base := (tm.map Team.base).getD 0
    let size := (tm.map Team.scratch).getD 0
    let o := sgn 64 ea
    if o < 0 || o + n > size then raiseP .prot fa
    if a.writes && s.protectedAt core (base + o.toNat) n true then raiseP .prot fa
    if ea % a.align ≠ 0 then raiseP .align fa
    rangeCheck core th.slot 1 (base + o.toNat) n a.writes fa
    return { pa := scratchBase core + base + o.toNat, place := .own }
  | _ => do
    let c := ea / 2 ^ 32 % 512
    let o := ea % 2 ^ 32
    let inside := s.teams.any fun t => t.core = c && t.lslot = th.lslot && t.base ≤ o && o + n ≤ t.base + t.scratch
    if ea / 2 ^ 41 ≠ 0 || o + n > 2 ^ 32 || !inside then raiseP .prot fa
    if a.writes && s.protectedAt c o n false then raiseP .prot fa
    if ea % a.align ≠ 0 then raiseP .align fa
    if c = core then rangeCheck core th.slot 1 o n a.writes fa
    return { pa := scratchBase c + o, place := .peer }

/-- Physical addresses of the words of a run, each translated (R144). -/
def runAddrs (th : Thread) (a : Acc) (e : Entry) (n : Nat) : P (List Nat) := do
  let s ← getSt
  let i : Intent := if a.writes then .write else .read
  let mut out : List Nat := []
  for k in List.range n do
    let pa ← translate (.core th.tid.core) (s.pasidOf th.lslot) (e.d 0 + BitVec.ofNat 64 (4 * k)) i e.retry
    out := out ++ [pa]
  return out

/-- A loaded value as registers (Table 3.2). -/
def extend (t : Ty) (bs : List Byte) : List Word :=
  let v := leValue bs
  match t with
  | .i8 => [BitVec.ofNat 32 (low 32 (sgn 8 v))]
  | .i16 => [BitVec.ofNat 32 (low 32 (sgn 16 v))]
  | _ => valueWords (tyRegs t) v

/-- The RMW of R147 and R148 at its place: old value; ECC when the old value is poisoned. -/
def rmwAt (t : ThreadId) (a : Acc) (tg : Target) (f : Nat → Option Nat) (fa : DWord) : P Nat := do
  let core := t.core
  let n := a.size
  if a.rel then releaseAct core a.scope fa
  if tg.place = .device || tg.place = .host then
    mergeLine core tg.pa fa
    flushSpan core tg.pa n fa
    takeBack tg.pa n fa
    needSpan tg.pa n true fa
  if ← isPoisoned tg.pa n then raiseP .ecc fa
  let old ← readNat tg.pa n
  match f old with
  | some new => storeNat tg.pa n new
  | none => pure ()
  markDue t (!Scope.wide a.scope)
  if a.acq then acquireAct core a.scope
  return old

/-- Data operand of a store, RMW or comparand. -/
def Entry.data (e : Entry) (k n : Nat) : Nat := wordsValue ((List.range n).map fun j => (e.opv[k + j]?).getD 0)

/-- PFETCH (R151): the line is requested into the L1, or into its home slice or the host-line cache alone. -/
def prefetch (l1 : Bool) (th : Thread) (e : Entry) : P Unit := do
  let s ← getSt
  let core := th.tid.core
  let fa := e.d 0
  if canonical fa.toNat then
    match s.trans (.core core) (s.pasidOf th.lslot) fa.toNat .read with
    | .ok pa => do
      needSpan (pa / 128 * 128) 128 false fa
      if l1 && ((s.core core).subOf pa).isNone then
        takeBack (pa / 128 * 128) 128 fa
        fillLine core pa fa
    | .miss => do
      let _ ← translate (.core core) (s.pasidOf th.lslot) fa .read e.retry
    | _ => pure ()

/-- Perform a memory instruction from its captured operands (R142-R151). The words of a run are performed in ascending order
within one step (DESIGN CHOICE, log 57: R144 leaves their order to the device). -/
def performMem (i : Instr) (t : ThreadId) (e : Entry) : P (List Word) := do
  modify fun w => { w with actor := t.core + 1 }
  match accOf i, (← getSt).thread? t with
  | some a, some th => do
    let core := t.core
    let fa := e.d 0
    match a.kind with
    | .fence => do
      if a.rel then releaseAct core a.scope fa
      if a.acq then acquireAct core a.scope
      return []
    | .prefetch l1 => do
      -- no run-time cause: a request that fails is dropped, without a page request (R151)
      match ← tryP (prefetch l1 th e) with
      | .ok _ | .error (.cause ..) => return []
      | .error x => throw x
    | .load => do
      let tg ← resolve th a e
      let got ← loadSpan t tg.pa a.size a.order a.scope fa
      if got.any fun x => x.2.1 then raiseP .ecc fa
      loadActs t a.order a.acq a.scope got
      return extend a.ty (spanBytes tg.pa a.size (got.map (·.1)))
    | .store => do
      let tg ← resolve th a e
      if a.rel then releaseAct core a.scope fa
      storeSpan core tg.pa a.size (leBytes a.size (e.data 2 (tyRegs a.ty))) a.order a.scope fa
      return []
    | .loadRun n => do
      let _ ← resolve th a e
      let pas ← runAddrs th a e n
      let mut out : List Word := []
      for pa in pas do
        let got ← loadSpan t pa 4 a.order a.scope fa
        if got.any fun x => x.2.1 then raiseP .ecc fa
        loadActs t a.order false a.scope got
        out := out ++ got.map (·.1)
      return out
    | .storeRun n => do
      let _ ← resolve th a e
      let pas ← runAddrs th a e n
      -- each word is stored once, also where a later one has to wait
      for pa in pas.zipIdx.drop (e.aux.headD 0) do
        storeSpan core pa.1 4 (leBytes 4 (e.w (2 + pa.2))) a.order a.scope fa
        modEntry t e.id fun x => { x with aux := [pa.2 + 1] }
      return []
    | .rmw op => do
      let tg ← resolve th a e
      if !rmwExists op a.ty tg.place then raiseP .atype fa
      let old ← rmwAt t a tg (fun old => some (rmwFn op a.ty old (e.data 2 2))) fa
      return valueWords (tyRegs a.ty) old
    | .acas => do
      let tg ← resolve th a e
      if !rmwExists 16 a.ty tg.place then raiseP .atype fa
      let n := tyRegs a.ty
      let old ← rmwAt t a tg (fun old => if old = e.data 2 n then some (e.data 4 n) else none) fa
      return valueWords n old
    | .red op => do
      let tg ← resolve th a e
      if !rmwExists op a.ty tg.place then raiseP .atype fa
      let b := e.data 2 (tyRegs a.ty)
      if a.rel then
        let _ ← rmwAt t a tg (fun old => some (rmwFn op a.ty old b)) fa
      else contribute core { addr := tg.pa, op, ty := a.ty, val := b } fa
      return []
    | .wait ne => do
      let tg ← resolve th a e
      let got ← loadSpan t tg.pa a.size a.order a.scope fa
      if got.any fun x => x.2.1 then raiseP .ecc fa
      let v := leValue (spanBytes tg.pa a.size (got.map (·.1)))
      let c := if ne then e.data 2 (tyRegs a.ty) else 0
      if (ne && v ≠ c) || (!ne && v = 0) then
        loadActs t a.order a.acq a.scope got
        return []
      else
        let now := (← getSt).issueClock (dieOf t.core)
        parkOn t e.id (.poll (now + 2048))
        throw .wait
  | _, _ => return []

/-! ### Which unfinished access may be performed next (R125-R131) -/

/-- Physical pieces of an unfinished access; none while a page of it does not translate. -/
def State.spots (s : State) (th : Thread) (a : Acc) (e : Entry) : Option (List (Nat × Nat)) :=
  let core := th.tid.core
  let ea := (e.d 0).toNat
  match a.space with
  | 0 =>
    let tr := fun va => s.trans (.core core) (s.pasidOf th.lslot) va (if a.writes then .write else .read)
    let n := min a.size (4096 - ea % 4096)
    match tr ea, tr (ea + n) with
    | .ok p, q =>
      if n = a.size then some [(p, n)] else match q with
        | .ok q => some [(p, n), (q, a.size - n)]
        | _ => none
    | _, _ => none
  | 1 => some [(scratchBase core + ((s.team? core th.slot).map Team.base).getD 0 + ea, a.size)]
  | 2 => some [(scratchBase (ea / 2 ^ 32 % 512) + ea % 2 ^ 32, a.size)]
  | _ => some []

/-- Two unfinished accesses of a thread touch one location, by whatever mapping (R125). Of a page that does not translate
only the offset is known. -/
def State.overlaps (s : State) (th : Thread) (a b : Acc) (x y : Entry) : Bool :=
  match s.spots th a x, s.spots th b y with
  | some p, some q => p.any fun u => q.any fun v => u.1 < v.1 + v.2 && v.1 < u.1 + u.2
  | _, _ =>
    let p := (x.d 0).toNat % 4096 + 4096
    let q := (y.d 0).toNat % 4096
    a.space = 0 && b.space = 0 && [q, q + 4096, q + 8192].any fun q => p < q + b.size && q < p + a.size

/-- FENCE.acq (`rel` false) and FENCE.rel, which are ar when both hold. -/
def Acc.fenceAcq (a : Acc) : Bool := a.isFence && a.acq
def Acc.fenceRel (a : Acc) : Bool := a.isFence && a.rel
def Acc.reads (a : Acc) : Bool :=
  match a.kind with | .load | .loadRun _ | .rmw _ | .acas | .wait _ => true | _ => false

/-- The younger access may be performed before the older one, which has not been (R125-R129). A PFETCH is in no order
(R151). -/
def State.mayPass (s : State) (th : Thread) (older younger : Acc) (eo ey : Entry) : Bool :=
  match older.kind, younger.kind with
  | .prefetch _, _ | _, .prefetch _ => true
  | _, _ =>
    !(older.acq || (older.fenceRel && (younger.writes || younger.fenceRel)))
      && !(younger.rel || (younger.fenceAcq && older.reads))
      && (!s.overlaps th older younger eo ey
          || (!older.writes && !younger.writes && younger.order = .weak && younger.space = 0))

/-- The memory instruction of an entry, if it is one. -/
def Entry.acc? (e : Entry) : Option (Instr × Acc) :=
  match decodeWord e.word with
  | .ok i => (accOf i).map (i, ·)
  | .error _ => none

/-- Entries of the thread that are older than `e` and still to be performed, those that stand in the replay queue
included. An access of the handler goes after the handler's own alone. -/
def Thread.olderThan (t : Thread) (id : Nat) : List Entry :=
  let hand := (t.entry? id).any Entry.hand
  (t.unf.takeWhile fun e => e.id ≠ id).filter fun e => e.val.isNone && (e.hand || !hand)

/-- Every older access of the thread allows this one to be performed now. -/
def State.mayPerform (s : State) (t : Thread) (e : Entry) : Bool :=
  match e.acc? with
  | none => true
  | some (_, a) => (t.olderThan e.id).all fun o =>
      match o.acc? with
      | some (_, b) => s.mayPass t b a o e
      | none => true

/-- Perform an access once its order allows it. -/
def performOrdered (i : Instr) (t : ThreadId) (e : Entry) : P (List Word) := do
  let now := (← getSt).issueClock (dieOf t.core)
  match accOf i with
  | some { kind := .wait _, .. } => parkOn t e.id (.poll now)
  | _ => pure ()
  let s ← getSt
  match s.thread? t with
  | some th => if !s.mayPerform th e then throw .wait
  | none => pure ()
  performMem i t e

/-- WAITZ and WAITNE: the thread parks until its condition holds (R191). -/
def isWait (i : Instr) : Bool := match i with | .waitz _ | .waitne _ => true | _ => false

/-- Issue a memory instruction. -/
def issueMem (i : Instr) : W Unit := issueEntries i (!isWait i) (captureMem i) (performOrdered i)

def execLd (w : MWord) (s : State) : Host.Outcome State Fault Refusal := run (issueMem (.ld w)) s
def execSt (w : MWord) (s : State) : Host.Outcome State Fault Refusal := run (issueMem (.st w)) s
def execLds (w : MWord) (s : State) : Host.Outcome State Fault Refusal := run (issueMem (.lds w)) s
def execSts (w : MWord) (s : State) : Host.Outcome State Fault Refusal := run (issueMem (.sts w)) s
def execLdv (w : MWord) (s : State) : Host.Outcome State Fault Refusal := run (issueMem (.ldv w)) s
def execStv (w : MWord) (s : State) : Host.Outcome State Fault Refusal := run (issueMem (.stv w)) s
def execLdp (w : MWord) (s : State) : Host.Outcome State Fault Refusal := run (issueMem (.ldp w)) s
def execStp (w : MWord) (s : State) : Host.Outcome State Fault Refusal := run (issueMem (.stp w)) s
def execAtom (w : MWord) (s : State) : Host.Outcome State Fault Refusal := run (issueMem (.atom w)) s
def execAcas (w : MWord) (s : State) : Host.Outcome State Fault Refusal := run (issueMem (.acas w)) s
def execRed (w : MWord) (s : State) : Host.Outcome State Fault Refusal := run (issueMem (.red w)) s
def execAtoms (w : MWord) (s : State) : Host.Outcome State Fault Refusal := run (issueMem (.atoms w)) s
def execAtomp (w : MWord) (s : State) : Host.Outcome State Fault Refusal := run (issueMem (.atomp w)) s
def execFence (w : MWord) (s : State) : Host.Outcome State Fault Refusal := run (issueMem (.fence w)) s
def execPfetch (w : MWord) (s : State) : Host.Outcome State Fault Refusal := run (issueMem (.pfetch w)) s
def execLdi (w : IWord) (s : State) : Host.Outcome State Fault Refusal := run (issueMem (.ldi w)) s
def execSti (w : IWord) (s : State) : Host.Outcome State Fault Refusal := run (issueMem (.sti w)) s
def execLdsi (w : IWord) (s : State) : Host.Outcome State Fault Refusal := run (issueMem (.ldsi w)) s
def execStsi (w : IWord) (s : State) : Host.Outcome State Fault Refusal := run (issueMem (.stsi w)) s
def execWaitz (w : IWord) (s : State) : Host.Outcome State Fault Refusal := run (issueMem (.waitz w)) s
def execWaitne (w : IWord) (s : State) : Host.Outcome State Fault Refusal := run (issueMem (.waitne w)) s

end Sys2Proof.Machine
end

