-- ==== Sys2Proof/Machine/Sequencer.lean ====
section
/-!
DEFINITION. Control flow, waits, barriers, convergence registers and the token as instructions (spec 04 R187-R191,
R199), and the sequencer's own steps: expiry of waits, stamps, traps, and item assignment (07 R267-R270).
-/
namespace Sys2Proof.Machine

/-! ### Fetch -/

/-- Fetch the word at a virtual address for a thread (R164, R225): execute permission, and ECC for a poisoned word
(R203). -/
def fetchAt (th : Thread) (va : DWord) : P DWord := do
  let s ← getSt
  let pa ← translate (.core th.tid.core) (s.pasidOf th.lslot) va .exec th.fetchRetry
  takeBack pa 8 va
  needSpan pa 8 false va
  if ← isPoisoned pa 8 then raiseP .ecc va
  let v ← readNat pa 8
  modThread th.tid fun x => { x with fetchRetry := if x.fetchRetry = va.toNat / 4096 + 1 then 0 else x.fetchRetry }
  return BitVec.ofNat 64 v

/-- A thread whose fetch did not complete: it waits at its word, parked in FAULT while a page request is out (R33, R225,
R226). Answers the cause it raises instead, if any. -/
def fetchStop (t : ThreadId) (x : Stop) : W (Option Cause) := do
  match x with
  | .page w _ => do
    modThread t fun th => { th with fetchWait := some w, wait := if w.ats then th.wait else .fault }
    return none
  | .line l _ => do
    modThread t fun th => { th with fetchLine := some l }
    return none
  | .cause c _ _ => return some c
  | _ => return none

/-! ### Branches (R188) -/

/-- Target of BRA and CALL. -/
def relTarget (pc : DWord) (imm : BitVec 32) : DWord := pc + 8 * imm.signExtend 64

/-- Jump to each thread's own target; a target that is not a multiple of 8 raises ALIGN. -/
def jumpTo (r : Issued) (target : Thread → List Nat → DWord) : Issued :=
  let off := fun (x : Thread × List Nat) => decide ((target x.1 x.2).toNat % 8 ≠ 0)
  { r with act := r.act.filter fun x => !off x
           bad := r.bad ++ (r.act.filter off).map fun x => (x.1.tid, Cause.align, 0) }

/-- End of a branch: each acting thread goes to its own target. -/
def endJump (i : Instr) (r : Issued) (target : Thread → List Nat → DWord) : W Unit :=
  endIssue i r fun th => match r.act.find? fun x => x.1.tid = th.tid with
    | some x => target th x.2
    | none => th.pc

def linkRes (pc : DWord) : Res := res1 .b64 (pc + 8).toNat

def execBra (w : IWord) (s : State) : Host.Outcome State Fault Refusal := run (do
  let r ← checkIssue (.bra w)
  endJump (.bra w) r fun _ _ => relTarget s.cur.pc w.imm) s

def execCall (w : IWord) (s : State) : Host.Outcome State Fault Refusal := run (do
  let r ← checkIssue (.call w)
  writeResults (usesOf (.call w)) (r.act.map fun x => (x.1, linkRes s.cur.pc))
  endJump (.call w) r fun _ _ => relTarget s.cur.pc w.imm) s

/-- The target that a register pair holds. -/
def pairTarget (_ : Thread) (v : List Nat) : DWord := BitVec.ofNat 64 (arg v 0)

def execRet (w : IWord) (s : State) : Host.Outcome State Fault Refusal := run (do
  let r := jumpTo (← checkIssue (.ret w)) pairTarget
  endJump (.ret w) r pairTarget) s

/-- Word(t) is LANDPT. -/
def isLanding (v : DWord) : Bool := match decodeWord v with | .ok (.landpt _) => true | _ => false

/-- JMPI and CALLI: fetch the target word, take the jump where it is LANDPT, and write the link of a CALLI (R33). -/
def jumpChecked (i : Instr) (s : State) : W Unit := do
  let r := jumpTo (← checkIssue i) pairTarget
  let mut go : List (Thread × List Nat) := []
  let mut bad := r.bad
  for x in r.act do
    match ← (fetchAt x.1 (pairTarget x.1 x.2)).run with
    | .ok v =>
      if isLanding v then go := go ++ [x]
      else bad := bad ++ [(x.1.tid, .landing, 0)]
    | .error e =>
      match ← fetchStop x.1.tid e with
      | some c => bad := bad ++ [(x.1.tid, c, 0)]
      | none => pure ()
  let r := { r with act := go, bad := bad }
  match i with
  | .calli _ => writeResults (usesOf i) (r.act.map fun x => (x.1, linkRes s.cur.pc))
  | _ => pure ()
  endJump i r pairTarget

def execJmpi (w : IWord) (s : State) : Host.Outcome State Fault Refusal := run (jumpChecked (.jmpi w) s) s
def execCalli (w : IWord) (s : State) : Host.Outcome State Fault Refusal := run (jumpChecked (.calli w) s) s

/-! ### Words without an effect of their own -/

/-- The threads go to PC + 8. -/
def issuePlain (i : Instr) (s : State) : W Unit := do
  let r ← checkIssue i
  endIssue i r fun _ => s.cur.pc + 8

def execLandpt (w : IWord) (s : State) : Host.Outcome State Fault Refusal := run (issuePlain (.landpt w) s) s
def execNop (w : IWord) (s : State) : Host.Outcome State Fault Refusal := run (issuePlain (.nop w) s) s

/-- R167, R159 item 3. -/
def execYield (w : IWord) (s : State) : Host.Outcome State Fault Refusal := run (do
  let r ← checkIssue (.yield w)
  endIssue (.yield w) r (fun _ => s.cur.pc + 8) true) s

/-! ### EXIT and NAP -/

/-- R189, R7, R269: the item retires and the thread waits in ENG for its assignment; PROT in handler mode, SECTION inside
a reader section. -/
def execExit (w : IWord) (s : State) : Host.Outcome State Fault Refusal := run (do
  let r ← checkIssue (.exitW w)
  let bad := r.act.filterMap fun x =>
    if x.1.handler then some (x.1.tid, Cause.prot, 0)
    else if x.1.nest ≠ 0 then some (x.1.tid, Cause.sectionC, 0) else none
  let act := r.act.filter fun x => !x.1.handler && x.1.nest = 0
  endIssue (.exitW w) { r with act, bad := r.bad ++ bad } fun _ => s.cur.pc
  for x in act do
    modThread x.1.tid fun th => { th with wait := .eng (.assign s.clock), windows := [] }
    modLaunch x.1.lslot fun l => { l with retired := l.retired + 1, wdog := 0 }) s

/-- R190: the device parks the thread for up to 64 cycles more than asked. -/
def execNap (w : IWord) (s : State) : Host.Outcome State Fault Refusal := run (do
  let r ← checkIssue (.nap w)
  endIssue (.nap w) r fun _ => s.cur.pc + 8
  let n := w.imm.toNat % 2 ^ 16
  if n ≠ 0 && !r.act.isEmpty then
    let more ← choose 65
    for x in r.act do park x.1.tid (.nap (s.issueClock (dieOf x.1.tid.core) + n + more))) s

/-! ### Barriers, convergence registers, the token -/

/-- BAR and BARARV (R183): the arrivals of an issue count together, each once its thread's earlier accesses have been
performed. -/
def arriveBar (i : Instr) (w : IWord) (wait : Bool) (s : State) : W Unit := do
  let r ← checkIssue i
  let b := w.imm.toNat % 16
  endIssue i r fun _ => s.cur.pc + 8
  for x in r.act do
    let late : LateArrival := { bar := b, n := barCount w, since := s.clock + 1, hand := x.1.handler }
    modThread x.1.tid fun t => { t with wait := if wait then .bar b else t.wait, late := t.late ++ [late] }
  countArrivals

def execBar (w : IWord) (s : State) : Host.Outcome State Fault Refusal := run (arriveBar (.bar w) w true s) s
def execBararv (w : IWord) (s : State) : Host.Outcome State Fault Refusal := run (arriveBar (.bararv w) w false s) s

/-- CVSIGN and CVWAIT (R177, R178, R180). -/
def signCv (i : Instr) (w : IWord) (kind : SignKind) (s : State) : W Unit := do
  let r ← checkIssue i
  endIssue i r fun _ => s.cur.pc + 8
  for x in r.act do
    if !(← cvSign x.1 (w.imm.toNat % 16) kind) then raise x.1.tid .conv false s.cur.pc

def execCvsign (w : IWord) (s : State) : Host.Outcome State Fault Refusal := run (signCv (.cvsign w) w .sign s) s
def execCvwait (w : IWord) (s : State) : Host.Outcome State Fault Refusal := run (signCv (.cvwait w) w .wait s) s

/-- R184: once per group, in increasing %grp order. -/
def execTkn (w : IWord) (s : State) : Host.Outcome State Fault Refusal := run (do
  let r ← checkIssue (.tkn w)
  let mut bad := r.bad
  for k in groupsOf (r.act.map (·.1)) do
    let x := (← getSt).quarter s.cur.core s.cur.qtr
    match tokenStep x { slot := k.1, grp := k.2 } with
    | some y => modQuarter s.cur.core s.cur.qtr fun _ => y
    | none =>
      bad := bad ++ (r.act.filter fun x => (x.1.slot, x.1.grp) = k).map fun x => (x.1.tid, Cause.token, 0)
  let raised := bad
  let act := r.act.filter fun x => !(raised.any fun b => b.1 = x.1.tid)
  endIssue (.tkn w) { r with act, bad := raised } fun _ => s.cur.pc + 8) s

/-! ### Steps of the sequencer -/

/-- R52: the current issue group's word is illegal. -/
def execIllegalWord (sub : Nat) (s : State) : Host.Outcome State Fault Refusal := run (do
  clearWait false
  for t in s.cur.threads do raiseIll t sub s.cur.pc) s

/-- KVFAULT of an ended packet is due and the thread could issue (R442). -/
def Thread.takesKv (t : Thread) : Bool := t.kvDue && t.wait = .ready && t.halt.isNone && t.pending.isNone && !t.idle

/-- R291: a thread whose raised cause can be taken enters its handler. -/
def execTrapEntry (t : ThreadId) (s : State) : Host.Outcome State Fault Refusal := run (do
  match s.thread? t with
  | none => return
  | some th =>
    if th.takesKv then
      modThread t fun x => { x with kvDue := false }
      raise t .kvfault true th.pc
    else trapEnter t) s

/-- The progress promise of a launch is on, and its interval (R166). -/
def State.promise (s : State) (l : Nat) : Option Nat :=
  match s.launch? l with
  | some x => if x.prom then some x.fair else none
  | none => none

/-- R166: an entry whose WAIT has reached the fairness interval becomes due. -/
def execFairnessDue (core qtr lslot : Nat) (pc : DWord) (s : State) : Host.Outcome State Fault Refusal := run (do
  match s.promise lslot with
  | none => return
  | some n => modQuarter core qtr fun q => { q with
      entries := q.entries.map fun e =>
        if e.lslot = lslot && e.pc = pc && e.wait ≥ n then { e with due := true } else e }) s

/-- R159. -/
def execStampRenumber (core qtr : Nat) (s : State) : Host.Outcome State Fault Refusal := run (do
  if (s.quarter core qtr).stampCtr ≥ 2 ^ 32 - 1 then modQuarter core qtr renumber) s

/-- R190. -/
def execNapExpire (t : ThreadId) (s : State) : Host.Outcome State Fault Refusal := run (do
  match s.thread? t with
  | some th => match th.wait with
    | .nap u => if u ≤ s.issueClock (dieOf t.core) then endWaitOf t th.wait
    | _ => return
  | none => return) s

/-- R191: read the word of a waiting thread again. -/
def execWaitReread (t : ThreadId) (s : State) : Host.Outcome State Fault Refusal := run (do
  match s.thread? t with
  | none => return
  | some th => match th.wait with
    | .poll _ =>
      match th.unf.find? fun e => e.st = 0 && e.page.isNone && (match e.acc? with
        | some (i, _) => isWait i
        | none => false) with
      | some e =>
        match e.acc? with
        | some (i, _) => do
          attempt (performOrdered i) t e.id
          -- a read that waits for a reply is tried again in a later cycle
          let now := s.issueClock (dieOf t.core)
          modThread t fun x => { x with wait := match x.wait with
            | .poll u => .poll (max u (now + 1))
            | w => w }
        | none => return
      | none => return
    | _ => return) s

/-! ### Item assignment (R267, R268) -/

/-- Sorted insertion without repeats. -/
def insertNat (x : Nat) (xs : List Nat) : List Nat :=
  match xs with
  | [] => [x]
  | y :: ys => if x < y then x :: y :: ys else if x = y then y :: ys else y :: insertNat x ys

def sortNat (xs : List Nat) : List Nat := xs.foldl (fun acc x => insertNat x acc) []

/-- Claim(team) of R267; the returned list is kept in increasing order. -/
def claim (c sl l : Nat) : W Unit := do
  match (← getSt).launch? l with
  | none => return
  | some x =>
    if !x.returned.isEmpty then
      modTeam c sl fun tm => { tm with batch := x.returned.take 64 }
      modLaunch l fun x => { x with returned := x.returned.drop 64 }
    else
      let n := min 64 (x.rcd.items - x.next)
      modTeam c sl fun tm => { tm with batch := (List.range n).map (x.next + ·) }
      modLaunch l fun y => { y with next := x.next + n }

/-- What a thread takes with its next item (R269); at team start `age` leaves %itemage 0. -/
def takeItem (t : ThreadId) (n : Nat) (age : Bool) : W Unit :=
  modThread t fun x => { x with
    item := BitVec.ofNat 32 n
    itemage := if age && x.itemage ≠ 0xFFFFFFFF then x.itemage + 1 else x.itemage
    p := x.p.mapIdx fun k b => k = 0 && b
    fpx := 0, wait := .ready }

/-- Assign(th) of R268. Answers whether the thread received an item. -/
def assignItem (t : ThreadId) (age : Bool) : W Bool := do
  let s ← getSt
  match s.thread? t with
  | none => return false
  | some th =>
    match s.team? t.core th.slot, s.launch? th.lslot with
    | some tm, some l => do
      if th.gone || tm.draining || l.draining || l.faulted then
        makeIdle t
        return false
      if tm.batch.isEmpty then claim t.core th.slot th.lslot
      match ((← getSt).team? t.core th.slot).bind fun x => x.batch.head? with
      | none =>
        makeIdle t
        return false
      | some n =>
        modTeam t.core th.slot fun x => { x with batch := x.batch.drop 1 }
        takeItem t n age
        return true
    | _, _ => return false

/-- R268, R269: the next item of an exited thread, or an idle lane. -/
def execItemAssign (t : ThreadId) (s : State) : Host.Outcome State Fault Refusal := run (do
  match s.thread? t with
  | none => return
  | some th =>
    match th.wait with
    | .eng (.assign _) =>
      if ← assignItem t true then
        let refill := (((s.launch? th.lslot).bind Launch.desc).map Desc.refill).getD 0
        arriveFresh t (s.kdescOf th.lslot + BitVec.ofNat 64 refill)
    | _ => return) s

end Sys2Proof.Machine
end

