-- ==== Sys2Proof/Machine/GroupOps.lean ====
section
/-!
DEFINITION. The group instructions (spec 04 R171-R174, R192-R198): operations over the lanes of a logical group.
-/
namespace Sys2Proof.Machine

/-! ### Which threads take part (R171, R173) -/

/-- Every live thread of the group stands at the current word, in the issue group or parked in GOP. -/
def State.groupComplete (s : State) (k : Nat × Nat) : Bool :=
  (s.groupThreads s.cur.core k.1 k.2).all fun t =>
    t.pc = s.cur.pc && !t.handler && t.halt.isNone && t.pending.isNone && (s.cur.threads.contains t.tid || t.wait = .gop)

/-- Threads that carry out a group-wide operation now. A group whose live threads are not all at the word parks in GOP;
`part` and handler mode never wait. -/
def gatherGroups (i : Instr) (part : Bool) : W Unit := do
  let s ← getSt
  let u := usesOf i
  let ts := s.curThreads
  let bad := ts.filter fun t => (decodeCause s i u t).isSome
  let ok := ts.filter fun t => (decodeCause s i u t).isNone
  let free := ok.filter fun t => part || t.handler
  let bound := ok.filter fun t => !(part || t.handler)
  let mut go : List ThreadId := free.map Thread.tid
  let mut held : List (Nat × Nat) := []
  for k in groupsOf bound do
    if s.groupComplete k then
      go := go ++ (s.groupThreads s.cur.core k.1 k.2).map Thread.tid
    else
      held := held ++ [k]
  let act := go
  for t in act do
    modThread t fun x => { x with wait := if x.wait = .gop then .ready else x.wait }
  upd fun s => { s with cur := { s.cur with threads := bad.map Thread.tid ++ act } }
  for k in held do
    for t in bound.filter fun t => (t.slot, t.grp) = k do park t.tid .gop
    gopCheck s.cur.core k.1 k.2

/-- A group-wide operation: every participant of a group reads before any writes (R174). A thread whose guard is true and that
raises a cause of its own is no participant (DESIGN CHOICE, log 57: R171 and R197 speak of the guard alone). `eval` sees the participants of
one group with their source values, and the group width. -/
def issueGroup (i : Instr) (part : Bool) (eval : Nat → List (Thread × List Nat) → Thread × List Nat → Res) : W Unit := do
  gatherGroups i part
  let r ← checkIssue i
  let s ← getSt
  for k in groupsOf (r.act.map (·.1)) do
    let mine := r.act.filter fun x => (x.1.slot, x.1.grp) = k
    let width := ((s.team? s.cur.core k.1).map Team.width).getD 0
    writeResults (usesOf i) (mine.map fun x => (x.1, eval width mine x))
  endIssue i r fun _ => s.cur.pc + 8

/-- First source value of the participant with a group-relative lane. -/
def laneVal (ps : List (Thread × List Nat)) (j : Nat) : Option Nat :=
  (ps.find? fun x => x.1.rel = j).map fun x => arg x.2 0

/-- Mask of the participants that satisfy `f`. -/
def maskWhere (ps : List (Thread × List Nat)) (f : Thread × List Nat → Bool) : Nat :=
  ps.foldl (fun m x => if f x then m ||| 2 ^ x.1.rel else m) 0

/-! ### SHFL (R193) -/

/-- Lane that lane `j` reads. -/
def shflLane (mode : Nat) (j b : Nat) : Int :=
  match mode with
  | 0 => (b : Int)
  | 1 => (j : Int) - b
  | 2 => (j : Int) + b
  | _ => ((j ^^^ b : Nat) : Int)

def evalShfl (w : FWord) (width : Nat) (ps : List (Thread × List Nat)) (x : Thread × List Nat) : Res :=
  let src := shflLane (w.f1.toNat * 2 + w.f0.toNat) x.1.rel (arg x.2 1)
  let got := if 0 ≤ src && src < width then laneVal ps src.toNat else none
  { res1 w.ty (got.getD (arg x.2 0)) with p := [(pn w.c, got.isSome)] }

def execShfl (w : FWord) (s : State) : Host.Outcome State Fault Refusal :=
  run (issueGroup (.shfl w) w.f2 (evalShfl w)) s

/-! ### VOTE (R194) -/

def evalVote (w : FWord) (ps : List (Thread × List Nat)) : Res :=
  let x := fun (y : Thread × List Nat) => predField y.1 w.a
  match w.f1.toNat * 2 + w.f0.toNat with
  | 0 => res1 .b64 (maskWhere ps x)
  | 1 => res1 .b32 (ps.filter x).length
  | 2 => { p := [(pn w.d, ps.all x), (pn w.c, ps.any x)] }
  | _ => { p := [(pn w.d, ps.all x || ps.all fun y => !x y)] }

def execVote (w : FWord) (s : State) : Host.Outcome State Fault Refusal :=
  run (issueGroup (.vote w) w.f2 fun _ ps _ => evalVote w ps) s

/-! ### GRED and GSCAN (R195, R196) -/

/-- Identity elements (Table 4.6). -/
def groupIdentity (op : Nat) (t : Ty) : Nat :=
  match op with
  | 0 => if t = .f32 then 0x80000000 else 0
  | 1 => if t = .f32 then 0x7F800000 else if t = .i32 then 0x7FFFFFFF else 0xFFFFFFFF
  | 2 => if t = .f32 then 0xFF800000 else if t = .i32 then 0x80000000 else 0
  | 3 => 0xFFFFFFFF
  | _ => 0

/-- One operation of GRED or GSCAN, with the flags of an f32 step. -/
def groupOp (op : Nat) (t : Ty) (r : Rnd) (a b : Nat) : Nat × FFlags :=
  let of := fun (x : Res) => (wordsValue (x.d.headD []), x.fl)
  match op with
  | 0 => if t = .f32 then of (evalFadd t r false a b) else (evalIadd t false a b, 0)
  | 1 => if t = .f32 then of (evalFminmax t true a b) else (evalImin t a b, 0)
  | 2 => if t = .f32 then of (evalFminmax t false a b) else (evalImax t a b, 0)
  | 3 => (a &&& b, 0)
  | 4 => (a ||| b, 0)
  | _ => (a ^^^ b, 0)

/-- One level of the fixed tree: x[j] := Op(x[j], x[j+s]) for j = 0, 2s, 4s, … -/
def treeLevel (op : Nat) (t : Ty) (r : Rnd) (xs : List Nat) (fl : FFlags) : List Nat × FFlags :=
  match xs with
  | a :: b :: rest =>
    let y := groupOp op t r a b
    let z := treeLevel op t r rest (fl ||| y.2)
    (y.1 :: z.1, z.2)
  | xs => (xs, fl)

/-- The reduction tree over a list whose length is a power of two. -/
def treeReduce (op : Nat) (t : Ty) (r : Rnd) (fuel : Nat) (xs : List Nat) (fl : FFlags) : Nat × FFlags :=
  match fuel with
  | 0 => (xs.headD 0, fl)
  | fuel + 1 =>
    match xs with
    | _ :: _ :: _ => let y := treeLevel op t r xs fl; treeReduce op t r fuel y.1 y.2
    | xs => (xs.headD 0, fl)

/-- Values of all lanes, with the identity for a lane that takes no part. -/
def laneVals (op : Nat) (t : Ty) (width : Nat) (ps : List (Thread × List Nat)) : List Nat :=
  (List.range width).map fun j => (laneVal ps j).getD (groupIdentity op t)

def evalGred (w : FWord) (width : Nat) (ps : List (Thread × List Nat)) : Res :=
  let op := w.c.toNat % 8
  let y := treeReduce op w.ty w.rnd 6 (laneVals op w.ty width ps) 0
  res1 w.ty y.1 y.2

def execGred (w : FWord) (s : State) : Host.Outcome State Fault Refusal :=
  run (issueGroup (.gred w) w.f2 fun width ps _ => evalGred w width ps) s

/-- Accumulators before and after each lane, with the flags of all steps. -/
def scanVals (op : Nat) (t : Ty) (r : Rnd) (acc : Nat) (fl : FFlags) (xs : List Nat) : List (Nat × Nat) × FFlags :=
  match xs with
  | [] => ([], fl)
  | x :: rest =>
    let y := groupOp op t r acc x
    let z := scanVals op t r y.1 (fl ||| y.2) rest
    ((acc, y.1) :: z.1, z.2)

def evalGscan (w : FWord) (width : Nat) (ps : List (Thread × List Nat)) (x : Thread × List Nat) : Res :=
  let op := w.c.toNat % 8
  let y := scanVals op w.ty w.rnd (groupIdentity op w.ty) 0 (laneVals op w.ty width ps)
  let v := (y.1[x.1.rel]?).getD (0, 0)
  res1 w.ty (if w.f0 then v.1 else v.2) y.2

def execGscan (w : FWord) (s : State) : Host.Outcome State Fault Refusal :=
  run (issueGroup (.gscan w) w.f2 (evalGscan w)) s

/-! ### MATCH, ELECT, ACTMASK (R197) -/

def execMatch (w : FWord) (s : State) : Host.Outcome State Fault Refusal :=
  run (issueGroup (.matchW w) w.f2 fun _ ps x =>
    res1 .b64 (maskWhere ps fun y => arg y.2 0 = arg x.2 0)) s

def execElect (w : FWord) (s : State) : Host.Outcome State Fault Refusal :=
  run (issueGroup (.elect w) w.f2 fun _ ps x =>
    { p := [(pn w.d, ps.all fun y => x.1.rel ≤ y.1.rel)] }) s

/-- ACTMASK never waits; `.live` reads the live lanes of the group. A raising thread is left out of the mask (DESIGN CHOICE,
log 57). -/
def execActmask (w : FWord) (s : State) : Host.Outcome State Fault Refusal := run (do
  let r ← checkIssue (.actmask w)
  for k in groupsOf (r.act.map (·.1)) do
    let mine := r.act.filter fun x => (x.1.slot, x.1.grp) = k
    let lanes := if w.f0 then (s.groupThreads s.cur.core k.1 k.2).map fun t => (t, []) else mine
    writeResults (usesOf (.actmask w)) (mine.map fun x => (x.1, res1 .b64 (maskWhere lanes fun _ => true)))
  endIssue (.actmask w) r fun _ => s.cur.pc + 8) s

/-! ### QTRY (R198) -/

/-- QTRY for one group; a queue that cannot take or give an entry leaves everything but the predicate. -/
def qtryGroup (w : FWord) (c : Nat) (k : Nat × Nat) (mine : List (Thread × List Nat)) : W Unit := do
  let s ← getSt
  match s.team? c k.1 with
  | none => return
  | some tm => do
    let q := (if w.f0 then w.d else w.a).toNat - 0x188
    let n := (tm.queueAt q).length
    let u := usesOf (.qtry w)
    if w.f0 then
      let ok := decide (n + s.pendingPushes c k.1 q < 8)
      if ok then pushQueue c k.1 q (mine.map fun x => (x.1.rel, BitVec.ofNat 32 (arg x.2 1)))
      for x in mine do modThread x.1.tid (applyRes u { p := [(pn w.c, ok)] })
    else if n = 0 then
      for x in mine do modThread x.1.tid (applyRes { u with ops := [] } { p := [(pn w.c, false)] })
    else
      let e ← popQueue c k.1 q
      writeResults u (mine.map fun x =>
        (x.1, { res1 .b32 (((e[x.1.rel]?).getD none).getD 0).toNat with p := [(pn w.c, true)] }))

def execQtry (w : FWord) (s : State) : Host.Outcome State Fault Refusal := run (do
  let r ← checkIssue (.qtry w)
  for k in groupsOf (r.act.map (·.1)) do
    qtryGroup w s.cur.core k (r.act.filter fun x => (x.1.slot, x.1.grp) = k)
  endIssue (.qtry w) r fun _ => s.cur.pc + 8) s

end Sys2Proof.Machine
end

