-- ==== Sys2Proof/Machine/Engine.lean ====
section
/-!
DEFINITION. What the engines share: access to memory at the coherence points, scratchpad spans and the protected regions
of R498, completion objects (spec 09 R340-R342), and the range entries of an operation (spec 03 R137-R140).
-/
namespace Sys2Proof.Machine

/-- Field of `w` bits at bit `lo`. -/
def fld (x lo w : Nat) : Nat := x / 2 ^ lo % 2 ^ w

/-- Quotient rounded up. -/
def ceilDiv (a b : Nat) : Nat := (a + b - 1) / b

/-! ### The team an engine works for -/

/-- Place and scratchpad of the team that an operation belongs to; `early` marks an operation accepted before the CARVE in
progress (R208), `writer` is the core whose writes it makes (R140, R211), none for the dispatcher and the grace detector. -/
structure Eng where
  core  : Nat
  slot  : Nat
  lslot : Nat
  pasid : Nat
  base  : Nat
  size  : Nat
  early : Bool := false
  writer : Option Nat := none
deriving DecidableEq, Repr

/-- The chip node, on base 0, as an agent of an address space. -/
def chipNode (pasid : Nat) : Eng := { core := 0, slot := 0, lslot := 0, pasid, base := 0, size := 0 }

def State.eng (s : State) (c sl : Nat) : Eng :=
  match s.team? c sl with
  | some tm => { core := c, slot := sl, lslot := tm.lslot, pasid := s.pasidOf tm.lslot, base := tm.base, size := tm.scratch
                 writer := some c }
  | none => { core := c, slot := sl, lslot := 0, pasid := 0, base := 0, size := 0, writer := some c }

/-- Physical address of a team-relative scratchpad offset. -/
def Eng.spa (x : Eng) (off : Nat) : Nat := scratchBase x.core + x.base + off

def Ring.size (r : Ring) : Nat := 64 + 256 * 2 ^ r.logn

/-- A span of the core's storage overlaps a protected mirror or ring (R498). -/
def State.protectedSpan (s : State) (core base n : Nat) : Bool :=
  let c := s.core core
  (c.subs.any fun u => u.mirror < base + n && base < u.mirror + u.len)
    || c.rings.any fun r => r.off < base + n && base < r.off + r.size

/-- A span of the team's scratchpad meets a protected mirror (R498). -/
def State.mirrored (s : State) (x : Eng) (off n : Nat) : Bool :=
  (s.core x.core).subs.any fun u => u.mirror < x.base + off + n && x.base + off < u.mirror + u.len

/-- Refuse a write into a protected mirror (R211, R498): a subscription accepted after the operation was. -/
def checkMirror (x : Eng) (off n : Nat) : P Unit := do
  if (← getSt).mirrored x off n then raiseP .prot (BitVec.ofNat 64 off)

/-- A scratchpad operand span is misaligned, outside the team's allocation, or over a protected region. -/
def State.badSpan (s : State) (x : Eng) (off n align : Nat) : Bool :=
  off % align ≠ 0 || off + n > x.size || s.protectedSpan x.core (x.base + off) n

/-- PROT with a scratchpad offset as its failing address. -/
def checkSpan (x : Eng) (off n align : Nat) : P Unit := do
  if (← getSt).badSpan x off n align then raiseP .prot (BitVec.ofNat 64 off)

/-- The address lies in the vault aperture; it lies there in another die's window. -/
def State.inAperture (s : State) (die va : Nat) : Bool :=
  let vb := (s.die die).vapbase.toNat
  let base := vb / 2 ^ 33 * 2 ^ 33
  vb % 2 = 1 && base ≤ va && va < base + 2 ^ 33
def State.otherWindow (s : State) (die va : Nat) : Bool :=
  s.inAperture die va && (va % 2 ^ 33) / 2 ^ 29 ≠ die

/-- Bytes [va, va+n) touch an unusable part of the vault aperture: another die's window, a hole, or a way that is not
carved or is being returned (R13, R205, R208). -/
def State.vaultBad (s : State) (die va n : Nat) : Bool :=
  let vb := (s.die die).vapbase.toNat
  let base := vb / 2 ^ 33 * 2 ^ 33
  if vb % 2 = 1 && base ≤ va && va < base + 2 ^ 33 then
    let d := (va - base) / 2 ^ 29
    let lo := (va - base) % 2 ^ 29
    let hi := lo + n - 1
    d ≠ die || hi ≥ 400 * 2 ^ 20
      || (List.range (hi / 20971520 + 1 - lo / 20971520)).any fun k =>
        !flag (s.usableWays die) (lo / 20971520 + k)
  else false

/-! ### Reads and writes at the coherence points (R344, R345) -/

/-- A span cut at 4 KiB pages. -/
def pieces (fuel va n : Nat) : List (Nat × Nat) :=
  match fuel with
  | 0 => []
  | fuel + 1 =>
    let k := 4096 - va % 4096
    if n = 0 then [] else if n ≤ k then [(va, n)] else (va, k) :: pieces fuel ((va + k) % 2 ^ 64) (n - k)

/-- Physical pieces of a virtual span, with the coherence points ready for the access; PROT for an address that is not
canonical (R110). Before a write the writing core's own copies of the span leave its L1, so that no stale copy is left when the
operation retires (R140). -/
def engPieces (x : Eng) (retry va n : Nat) (write : Bool) : P (List (Nat × Nat)) := do
  let mut out : List (Nat × Nat) := []
  for p in pieces (n / 4096 + 2) (va % 2 ^ 64) n do
    let a := BitVec.ofNat 64 p.1
    if !canonical p.1 then raiseP .prot a
    let pa ← translate (.die (dieOf x.core)) x.pasid a (if write then .write else .read) retry x.early
    match x.writer with
    | some c => if write then flushSpan c pa p.2 a
    | none => pure ()
    takeBack pa p.2 a
    needSpan pa p.2 write a
    out := out ++ [(pa, p.2)]
  return out

/-- Read bytes of generic memory: bytes, and whether any lies in a poisoned word. -/
def engRead (x : Eng) (retry va n : Nat) : P (List Byte × Bool) := do
  let ps ← engPieces x retry va n false
  let mut bs : List Byte := []
  let mut bad := false
  for p in ps do
    bs := bs ++ (← readBytes p.1 p.2)
    bad := bad || (← isPoisoned p.1 p.2)
  return (bs, bad)

/-- A write an engine has ready: virtual address, bytes, poison. -/
structure EngWrite where
  va     : Nat
  bytes  : List Byte
  poison : Bool := false
deriving DecidableEq, Repr

/-- Writes that follow one another within a word are one write of it, so that a word which clean values cover loses its
poison (R203, R345). -/
def joinWrites (ws : List EngWrite) : List EngWrite :=
  ws.foldr (fun w r => match r with
    | y :: r' =>
      let e := w.va + w.bytes.length
      if y.va = e && e % 4 ≠ 0 then { va := w.va, bytes := w.bytes ++ y.bytes, poison := w.poison || y.poison } :: r'
      else w :: r
    | [] => [w]) []

/-- Store bytes at physical pieces. -/
def storePieces (ps : List (Nat × Nat)) (bs : List Byte) (poison : Bool) : W Unit :=
  match ps with
  | [] => return
  | p :: r => do
    storeAt p.1 (bs.take p.2) none poison
    storePieces r (bs.drop p.2) poison

/-- Write generic memory: every translation is made before any byte is written. -/
def engWrites (x : Eng) (retry : Nat) (ws : List EngWrite) : P Unit := do
  let mut out : List (List (Nat × Nat) × EngWrite) := []
  for w in joinWrites ws do out := out ++ [(← engPieces x retry w.va w.bytes.length true, w)]
  asAgent x.writer (do for o in out do storePieces o.1 o.2.bytes o.2.poison)

/-- Read the team's scratchpad: bytes and poison. -/
def spRead (x : Eng) (off n : Nat) : W (List Byte × Bool) := do
  return (← readBytes (x.spa off) n, ← isPoisoned (x.spa off) n)

/-- Write the team's scratchpad, then mark the words at `bad` offsets poisoned; PROT for a protected mirror (R498). -/
def spWrite (x : Eng) (off : Nat) (bs : List Byte) (bad : List Nat) : P Unit := do
  checkMirror x off bs.length
  storeAt (x.spa off) bs
  for b in bad do poisonAt (x.spa b) 4

/-! ### Completion objects (R340-R342, R348) -/

/-- An object can be armed: REMAIN and the word that holds NCMD; PROT on overflow (R341). -/
def armCheck (x : Eng) (off n : Nat) (fa : DWord) : P (Nat × Nat) := do
  let rem ← readNat (x.spa off) 4
  let st ← readNat (x.spa (off + 4)) 4
  if rem + n > 2 ^ 31 - 1 || st % 2 ^ 16 + 1 > 0xFFFF then raiseP .prot fa
  return (rem, st)

/-- Arm an object: counted bytes added to REMAIN and 1 to NCMD as one RMW (R341). -/
def compArm (x : Eng) (off n : Nat) (fa : DWord) : P Unit := do
  let (rem, st) ← armCheck x off n fa
  storeAt (x.spa off) (leBytes 4 (rem + n) ++ leBytes 4 (st / 2 ^ 30 * 2 ^ 30 + st % 2 ^ 16 + 1))

/-- One update of an object: `n` bytes fewer, one command fewer when `last`, ERR and FADDR with the address of a fault,
OOR when `oor`. -/
def compStep (x : Eng) (off n : Nat) (last : Bool) (err : Option DWord) (oor : Bool) : W Unit := do
  let rem ← readNat (x.spa off) 4
  let st ← readNat (x.spa (off + 4)) 4
  let hadErr := st / 2 ^ 31 % 2
  let hadOor := st / 2 ^ 30 % 2
  let ncmd := (st % 2 ^ 16 + 2 ^ 16 - last.toNat) % 2 ^ 16
  let e := if err.isSome then 1 else hadErr
  let o := if oor then 1 else hadOor
  storeAt (x.spa off) (leBytes 4 ((rem + 2 ^ 32 - n % 2 ^ 32) % 2 ^ 32) ++ leBytes 4 (e * 2 ^ 31 + o * 2 ^ 30 + ncmd))
  match err with
  | some fa => if hadErr = 0 then storeAt (x.spa (off + 8)) (leBytes 8 fa.toNat)
  | none => pure ()

/-- A cause that an engine's own work for a thread raises; an idle thread takes none. -/
def raiseFor (t : ThreadId) (c : Cause) : W Unit := do
  match (← getSt).thread? t with
  | some th => if !th.idle then raise t c false th.pc
  | none => pure ()

/-- The last update of a command's object. One that lies in a mirror protected meanwhile is not made, and raises PROT in the
command's thread (R498; log 59). -/
def compEnd (x : Eng) (t : ThreadId) (off n : Nat) (last : Bool) (err : Option DWord) : W Unit := do
  if (← getSt).mirrored x off 16 then raiseFor t .prot
  else compStep x off n last err false

/-! ### Range entries (R137, R139, R140) -/

/-- A new command's entry conflicts with one already present (R139). -/
def RangeEntry.conflicts (new old : RangeEntry) : Bool :=
  old.hits new.spc new.base new.len && (new.dst || old.dst)

/-- An operation's ranges against the range table: RANGE over another team's entries, then a hold in RNG over the team's own
(an operation that meets both raises RANGE at once: DESIGN CHOICE, log 17, the spec gives no order), then a wait in ENG for
free entries. -/
def checkRanges (core slot : Nat) (es : List RangeEntry) : P Unit := do
  let old := ((← getSt).core core).ranges
  for e in es do
    if old.any fun o => e.conflicts o && o.owner ≠ slot then raiseP .range (BitVec.ofNat 64 e.base)
  for e in es do
    let on := old.filter fun o => e.conflicts o
    if !on.isEmpty then throw (.rng (on.map fun o => (o.base, o.len)))
  if old.length + es.length > 32 then throw .eng

/-- Register an operation's ranges. -/
def registerRanges (core slot : Nat) (es : List RangeEntry) : P Unit := do
  checkRanges core slot es
  modCore core fun c => { c with ranges := c.ranges ++ es }

/-- Clear an operation's entries; threads that stalled on a range look again. -/
def clearRanges (core : Nat) (es : List RangeEntry) : W Unit := do
  modCore core fun c => { c with ranges := es.foldl (fun r e => r.erase e) c.ranges }

/-- Virtual addresses, in a PASID, that reach a physical address. -/
def State.vasOf (s : State) (die pasid pa : Nat) : List Nat :=
  let vb := (s.die die).vapbase.toNat
  let vault := if vb % 2 = 1 && vaultBase die ≤ pa && pa < vaultBase die + 2 ^ 29
    then [vb / 2 ^ 33 * 2 ^ 33 + die * 2 ^ 29 + (pa - vaultBase die)] else []
  vault ++ (s.tlb.filter fun e => e.tlb.dieNo = die && e.pasid = pasid).filterMap fun e =>
    let z := 4096 * pagesIn e.tr.size
    let va := e.vpn * 4096 / z * z + pa % z
    if e.phys va = pa then some va else none

/-- Words that the core's L1 holds of a virtual range. -/
def State.l1WordsIn (s : State) (core pasid lo n : Nat) : List Nat :=
  (s.core core).l1.flatMap fun l => ((List.range 32).filter fun k => (l.valid[k]?).getD false).filterMap fun k =>
    let a := 128 * l.line + 4 * k
    if (s.vasOf (dieOf core) pasid a).any fun va => lo < va + 4 && va < lo + n then some a else none

/-- Copy back the core's dirty words of a range that an operation will write, before it writes any. -/
def cleanRange (core pasid lo n : Nat) (fa : DWord) : P Unit := do
  for w in (← getSt).l1WordsIn core pasid lo n do copyBack core w fa

/-- Clean words of the core's L1 of which no translation says what addresses reach them. -/
def State.l1Unknown (s : State) (core pasid : Nat) : List Nat :=
  (s.core core).l1.flatMap fun l =>
    ((List.range 32).filter fun k => (l.valid[k]?).getD false && !(l.dirty[k]?).getD false).filterMap fun k =>
      if (s.vasOf (dieOf core) pasid (128 * l.line + 4 * k)).isEmpty then some (128 * l.line + 4 * k) else none

/-- Invalidate the core's L1 copies of a generic destination range (R140 step 2), those that may lie in it included. -/
def dropRange (core pasid lo n : Nat) : W Unit := do
  let s ← getSt
  for w in s.l1WordsIn core pasid lo n ++ s.l1Unknown core pasid do l1Drop core w

/-- Retirement of an operation's ranges (R140). -/
def retireRanges (x : Eng) (es : List RangeEntry) : W Unit := do
  for e in es do
    if e.spc = 0 && e.dst then dropRange x.core x.pasid e.base e.len
  clearRanges x.core es

/-! ### Saved teams -/

/-- The threads of a saved team that `hit` names have raised a cause, which each takes at its restore. -/
def Image.raiseIn (i : Image) (c : Cause) (q : Bool) (hit : Thread → Bool) : Image :=
  let bits := fun (g : Nat) =>
    (i.threads.filter fun t => hit t && t.grp = g).foldl (fun (m : DWord) t => m ||| (1#64 <<< t.rel)) 0
  { i with
    threads := i.threads.map fun t =>
      if hit t then { t with pending := some (t.pending.getD { cause := c, q, tpc := t.pc }) } else t
    groups := i.groups.map fun g => { g with
      masks := g.masks.mapIdx fun j m => if j = c.bit then m ||| bits g.grp else m } }

/-- Entries of a saved team that fail, each with its sub-code and address: they stay in their replay queues with the cause. -/
def Image.failEntries (i : Image) (c : Cause) (f : Entry → Option (Nat × DWord)) : Image :=
  let j := i.raiseIn c true fun t => t.unf.any fun e => (f e).isSome
  let entry := fun (e : Entry) =>
    match f e with
    | some (sub, fa) => { e with st := 2, cause := some c, sub, fa, page := none }
    | none => e
  { j with threads := j.threads.map fun t => { t with unf := t.unf.map entry } }

/-! ### Waits of an engine -/

/-- po-earlier memory accesses of a thread have been performed, and their release at a scope is made. -/
def performedBefore (t : ThreadId) (id : Nat) (sc : Scope) (fa : DWord) : P Unit := do
  match (← getSt).thread? t with
  | some th => if (th.olderThan id).any fun o => o.acc?.isSome then throw .eng
  | none => pure ()
  releaseAct t.core sc fa

def scopeOf (n : Nat) : Scope := match n with | 0 => .grp | 1 => .team | 2 => .die | 3 => .dev | _ => .sys

end Sys2Proof.Machine
end

