-- ==== Sys2Proof/Machine/Copy.lean ====
section
/-!
DEFINITION. The tensor copy engine (spec 09): shape records, storage formats, scratchpad layouts, conversion, commands
and request lists.
-/
namespace Sys2Proof.Machine

/-! ### Shape records (R325, R326) -/

def parseShape (x : Nat) : Shape :=
  { mw := fld x 24 4, cscope := fld x 21 3, satf := flag x 20, tr := flag x 19, split := flag x 18, sg := fld x 16 2
    sfmt := fld x 14 2, w := fld x 8 4, sl := fld x 4 4, fmt := fld x 0 4, rows := fld x 32 32, k := fld x 64 32
    trows := fld x 96 16, tk := fld x 112 16, rstride := fld x 128 64, soff := sgn 64 (fld x 192 64)
    sstride := fld x 256 32, spstride := fld x 288 32 }

/-- Bytes of an element of formats 0 to 5 (Table 9.2). -/
def fmtSize (fmt : Nat) : Nat := match fmt with | 0 => 4 | 1 | 2 => 2 | _ => 1

/-- Storage bytes of `n` elements of a row (R327, R328). -/
def Shape.storeBytes (h : Shape) (n : Nat) : Nat :=
  if h.fmt = 7 then 16 * ceilDiv (ceilDiv n 32) 16 + 4 * h.mw * ceilDiv n 32
  else if h.fmt = 6 then ceilDiv n 2
  else n * fmtSize h.fmt

/-- Bytes of the elements of a tile row in scratchpad, SL 0 to 3 (Table 9.3). -/
def Shape.elemBytes (h : Shape) : Nat :=
  match h.sl with | 0 => h.storeBytes h.tk | 1 => 4 * h.tk | _ => 2 * h.tk
/-- The same rounded up to words, the packed pitch. -/
def Shape.rowBytes (h : Shape) : Nat := ceilDiv h.elemBytes 4 * 4
def Shape.pitch (h : Shape) : Nat := if h.spstride = 0 then h.rowBytes else h.spstride
def Shape.kt (h : Shape) : Nat := ceilDiv h.tk 32
def Shape.rt (h : Shape) : Nat := ceilDiv h.trows 16
/-- Bytes of one block-tile, without SPLIT. -/
def Shape.blockBytes (h : Shape) : Nat := if h.sl = 4 then 64 * (h.w + 1) else 768
/-- Bytes of one part of a canonical layout. -/
def Shape.partBytes (h : Shape) : Nat := h.rt * h.kt * h.blockBytes
/-- Bytes from the layout's first to its last. -/
def Shape.span (h : Shape) : Nat :=
  if h.sl ≤ 3 then (h.trows - 1) * h.pitch + h.rowBytes else h.partBytes * (if h.split then 2 else 1)
def Shape.align (h : Shape) : Nat := match h.sl with | 4 => 64 | 5 => 256 | _ => 4

/-- A record passes R326, the reserved fields of `x` included. -/
def shapeOk (x : Nat) (h : Shape) : Bool :=
  let line := if h.tr then h.rows * fmtSize h.fmt else h.storeBytes h.k
  let unit := if h.fmt ≤ 5 then fmtSize h.fmt else if h.fmt = 6 then 1 else 16
  fld x 28 4 = 0 && fld x 12 2 = 0 && fld x 320 192 = 0
    && h.fmt ≤ 7 && h.sl ≤ 5 && h.cscope ≤ 4
    && (if h.fmt = 7 then 2 ≤ h.mw && h.mw ≤ 8 else h.mw = 0)
    && (if h.sl ≥ 4 then 2 ≤ h.w && h.w ≤ 8 else h.w = 0)
    && 1 ≤ h.rows && h.rows < 2 ^ 31 && 1 ≤ h.k && h.k < 2 ^ 31 && 1 ≤ h.tk && 1 ≤ h.trows && h.rstride ≤ 2 ^ 40
    && !(h.split && (h.sl < 4 || h.w ≠ 8))
    && !(h.tr && (h.fmt ≥ 6 || h.sfmt ≠ 0))
    && !(h.sfmt ≠ 0 && (h.fmt < 3 || h.fmt > 6 || h.sl = 0))
    && !(h.sl = 0 && h.fmt = 6 && h.tk % 2 = 1)
    && !(h.fmt = 7 && h.tk % 32 ≠ 0)
    && !((if h.tr then h.k else h.rows) > 1 && (h.rstride < line || h.rstride % unit ≠ 0))
    && !(h.spstride ≠ 0 && (h.spstride % 4 ≠ 0 || (h.sl ≤ 3 && h.spstride < h.elemBytes)))

/-- Read a shape record with a weak load at dev scope that bypasses the L1; every refusal is PROT with the record's
address (R347 step 2). SPLIT needs its feature (R487). -/
def readShape (x : Eng) (retry : Nat) (va : DWord) : P Shape := do
  if va.toNat % 64 ≠ 0 || !canonical va.toNat then raiseP .prot va
  let (bs, poisoned) ← engRead x retry va.toNat 64
  if poisoned then raiseP .ecc va
  let v := leValue bs
  let h := parseShape v
  let s ← getSt
  if !shapeOk v h || (h.split && !s.feature 6) then raiseP .prot va
  return h

/-! ### Elements of a tensor (R327-R329, R334) -/

/-- Bytes of element (r, k), FMT 0 to 6 (Table 9.2). -/
def elemAddr (h : Shape) (b r k : Nat) : Nat :=
  if h.fmt = 6 then b + r * h.rstride + k / 2
  else if h.tr then b + k * h.rstride + r * fmtSize h.fmt
  else b + r * h.rstride + k * fmtSize h.fmt

/-- Exponent byte and mantissa run of block `kb` of a packed BFP row (R328). -/
def bfpAddr (h : Shape) (b r kb : Nat) : Nat × Nat :=
  let row := b + r * h.rstride
  (row + kb, row + 16 * ceilDiv (ceilDiv h.k 32) 16 + 4 * h.mw * kb)

/-- E4M3 (Table 9.2): bias 7, no infinity, 0x7F and 0xFF are NaN. -/
def e4m3Val (b : Nat) : FVal :=
  let neg := b / 128 % 2 = 1
  let ex := b / 8 % 16
  let fr := b % 8
  if ex = 15 && fr = 7 then .nan false
  else if ex = 0 then .fin neg fr (-9) else .fin neg (8 + fr) ((ex : Int) - 10)

/-- Exact integer value. -/
def intVal (v : Int) : FVal := .fin (v < 0) v.natAbs 0

/-- Value of a stored pattern of formats 0 to 6. -/
def storedVal (fmt b : Nat) : FVal :=
  match fmt with
  | 0 => Fmt.f32.read b
  | 1 => Fmt.f16.read b
  | 2 => Fmt.bf16.read b
  | 3 => e4m3Val b
  | 4 => Fmt.e5m2.read b
  | 5 => intVal (sgn 8 b)
  | _ => intVal (sgn 4 b)

/-- Value of mantissa `m` of width `w` in a block of exponent `e` (R336); 0xFF marks a NaN block. -/
def blockVal (e : Nat) (m : Int) (w : Nat) : FVal :=
  if e = 0xFF then .nan false else .fin (m < 0) m.natAbs ((e : Int) - 127 - ((w : Int) - 1))

/-- Exact product with a scale (R334). -/
def scaleVal (isInt : Bool) (x s : FVal) : FVal :=
  match x, s with
  | .nan _, _ | _, .nan _ => .nan false
  | .inf a, .inf b => .inf (a != b)
  | .inf a, .fin b m _ => if m = 0 then .nan false else .inf (a != b)
  | .fin a m _, .inf b => if isInt || m = 0 then .nan false else .inf (a != b)
  | .fin a m e, .fin b n f => .fin (a != b) (m * n) (e + f)

def scaleFmt (sfmt : Nat) : Fmt := match sfmt with | 1 => .f32 | 2 => .f16 | _ => .bf16

/-- Scale of element (r, k), with poison (R329). -/
def readScale (x : Eng) (retry : Nat) (h : Shape) (b r k : Nat) : P (FVal × Bool) := do
  let ss : Nat := if h.sfmt = 1 then 4 else 2
  let va := low 64 ((b : Int) + h.soff + r * h.sstride + (k / (32 * 2 ^ h.sg) * ss : Nat))
  let (bs, p) ← engRead x retry va ss
  return ((scaleFmt h.sfmt).read (leValue bs), p)

/-- Stored pattern of element (r, k), FMT 0 to 6, with poison. -/
def readRaw (x : Eng) (retry : Nat) (h : Shape) (b r k : Nat) : P (Nat × Bool) := do
  let (bs, p) ← engRead x retry (elemAddr h b r k) (fmtSize h.fmt)
  let v := leValue bs
  return (if h.fmt = 6 then v / 16 ^ (k % 2) % 16 else v, p)

/-- First and count of the bytes of a packed run that element `i` of width `w` lies in. -/
def runBytes (w i : Nat) : Nat × Nat := (w * i / 8, (w * i + w - 1) / 8 + 1 - w * i / 8)

/-- Exact value of element (r, k), scale included, with the poison of its own words (R334, R345). -/
def readElem (x : Eng) (retry : Nat) (h : Shape) (b r k : Nat) : P (FVal × Bool) := do
  if h.fmt = 7 then
    let a := bfpAddr h b r (k / 32)
    let (eb, p) ← engRead x retry a.1 1
    let (run, _) ← engRead x retry a.2 (4 * h.mw)
    let b := runBytes h.mw (k % 32)
    let (_, q) ← engRead x retry (a.2 + b.1) b.2
    let m := sgn h.mw (leValue run / 2 ^ (h.mw * (k % 32)))
    return (blockVal (leValue eb) m h.mw, p || q)
  else
    let (v, p) ← readRaw x retry h b r k
    let val := storedVal h.fmt v
    if h.sfmt = 0 then return (val, p)
    let (sc, q) ← readScale x retry h b r k
    return (scaleVal (h.fmt ≥ 5) val sc, p || q)

/-! ### Quantisation (R336, R337) -/

/-- Quantise of R336: the block's exponent and its mantissas. -/
def quantise (xs : List FVal) (w bmax : Nat) : Nat × List Int :=
  if xs.any fun x => match x with | .fin .. => false | _ => true then (0xFF, xs.map fun _ => 0)
  else
    let es := xs.filterMap fun x => match x with | .fin _ m e => if m = 0 then none else some (expoOf m e) | _ => none
    match es with
    | [] => (0, xs.map fun _ => 0)
    | e0 :: rest =>
      let e := rest.foldl max e0
      let ex : Int := min (max (e + 128) 0) bmax
      let m := xs.map fun x => match x with
        | .fin neg mm me =>
          let k := (toIntVal .rne neg mm (me + (w : Int) - 1 - (ex - 127))).1
          clampTo (-(2 ^ (w - 1))) (2 ^ (w - 1) - 1) (if neg then -(k : Int) else k)
        | _ => 0
      (ex.toNat, m)

/-- x − y for finite values. -/
def subVal (x y : FVal) : FVal :=
  let d := addDyadic x.mant x.expo (-y.mant) y.expo
  .fin (d.1 < 0) d.1.natAbs d.2

/-- x + y for values of a SPLIT layout (R338). -/
def sumVal (x y : FVal) : FVal :=
  if x.isNan || y.isNan then .nan false
  else
    let d := addDyadic x.mant x.expo y.mant y.expo
    .fin (d.1 < 0) d.1.natAbs d.2

/-- High and low parts of a block at width 8 (R337); without SPLIT one part. -/
def quantiseParts (split : Bool) (xs : List FVal) (w bmax : Nat) : List (Nat × List Int) :=
  let hi := quantise xs w bmax
  if !split then [hi]
  else if hi.1 = 0xFF then [hi, hi]
  else [hi, quantise ((xs.zip hi.2).map fun x => subVal x.1 (blockVal hi.1 x.2 w)) w bmax]

/-! ### Canonical layouts (R331, R332) -/

/-- Canonical A block-tile of 16 rows. -/
def packA (w : Nat) (rows : List (Nat × List Int)) : List Byte :=
  (rows.map fun r => BitVec.ofNat 8 r.1) ++ List.replicate 48 0 ++
    (List.range w).flatMap fun n => rows.flatMap fun r =>
      leBytes 4 (r.2.zipIdx.foldl (fun acc m => acc + low w m.1 / 2 ^ (w - 1 - n) % 2 * 2 ^ m.2) 0)

/-- Canonical B block-tile of 16 columns, each with the exponent byte to be stored. -/
def packB (cols : List (Nat × List Int)) : List Byte :=
  let col := fun c => ((cols[c]?).getD (0, [])).2.map fun m => BitVec.ofNat 8 (low 8 m)
  ((List.range 4).flatMap fun q =>
    ((cols.drop (4 * q)).take 4).map (fun c => BitVec.ofNat 8 c.1) ++ List.replicate 60 0) ++
    (List.range 8).flatMap fun g => col (4 * (g % 4) + 2 * (g / 4)) ++ col (4 * (g % 4) + 2 * (g / 4) + 1)

/-- Exponent byte that canonical B stores (R332, R333). -/
def expB (w e : Nat) (pad : Bool) : Nat := if pad then 0 else if e = 0xFF then 0xFF else e + 8 - w

/-- Offset in a B block-tile of column c's mantissas. -/
def colB (c : Nat) : Nat := 64 * (4 + c / 4 + 4 * (c % 4 / 2)) + 32 * (c % 2)

/-- Word offsets in a block-tile that take values from one tile row (R345). -/
def blockWords (h : Shape) (r : Nat) : List Nat :=
  if h.sl = 4 then r / 4 * 4 :: (List.range h.w).map fun n => 64 * (n + 1) + 4 * r
  else 64 * (r / 4) :: (List.range 8).map fun k => colB r + 4 * k

/-! ### One unit of a load (R330-R337, R343-R345) -/

/-- A tile row's tensor row, if it lies in the tensor; for TGATHER from the index list, with OOR and poison (R353). The rows
from TROWS to the end of a block-tile are padding rows (DEDUCED, log 25: R333 names those from 16 × RT). -/
def tileRow (x : Eng) (a : CopyArgs) (h : Shape) (i : Nat) : P (Option Nat × Bool × Bool) := do
  if i ≥ h.trows then return (none, false, false)
  if a.opc = 2 then
    let (bs, p) ← spRead x (fld a.arg.toNat 0 32 + 4 * i) 4
    let r := leValue bs
    if r < h.rows then return (some r, false, p) else return (none, r ≠ 2 ^ 32 - 1, p)
  else
    let r := fld a.arg.toNat 0 32 + i
    return (if r < h.rows then some r else none, false, false)

def winK (a : CopyArgs) : Nat := if a.opc = 2 then 0 else fld a.arg.toNat 32 32

/-- Exact value of tile element j of a tensor row; out of the tensor it is padding (R333, R346). -/
def tileElem (x : Eng) (retry : Nat) (a : CopyArgs) (h : Shape) (r : Option Nat) (j : Nat) : P (FVal × Bool) := do
  let k := winK a + j
  match r with
  | none => return (.fin false 0 0, false)
  | some r =>
    if j ≥ h.tk || k ≥ h.k then return (.fin false 0 0, false)
    readElem x retry h a.gaddr.toNat r k

/-- Number of units of a command: tile rows for SL 0 to 3 and for TSTORE, block-tiles for SL 4 and 5 (R349). -/
def unitCount (a : CopyArgs) (h : Shape) : Nat := if h.sl ≤ 3 || a.opc = 1 then h.trows else h.rt * h.kt

/-- Destination bytes of one in-tensor TSTORE row (R341). -/
def storeRowBytes (h : Shape) (k0 : Nat) : Nat :=
  let n := min h.tk (h.k - k0)
  if n = 0 then 0
  else if h.fmt = 7 then
    let nb := ceilDiv h.k 32
    ceilDiv n 32 * (1 + 4 * h.mw) + (16 * ceilDiv nb 16 - nb)
  else if h.fmt = 6 then ceilDiv n 2
  else n * fmtSize h.fmt

/-- Counted bytes of a command (R341). -/
def countedBytes (a : CopyArgs) (h : Shape) : Nat :=
  if a.opc = 1 then min h.trows (h.rows - fld a.arg.toNat 0 32) * storeRowBytes h (winK a)
  else if h.sl ≤ 3 then h.trows * h.rowBytes
  else h.span

/-- Counted bytes of unit u. -/
def unitBytes (a : CopyArgs) (h : Shape) (u : Nat) : Nat :=
  if a.opc = 1 then (if fld a.arg.toNat 0 32 + u < h.rows then storeRowBytes h (winK a) else 0)
  else if h.sl ≤ 3 then h.rowBytes
  else h.blockBytes * (if h.split then 2 else 1)

/-- Bits of word `n` of a packed block's run that `cnt` elements of width `w` fill. -/
def runBits (w cnt n : Nat) : Nat := min 32 (w * cnt - 32 * n)

/-- Bytes and poisoned byte positions of a raw tile row (SL 0). Elements at or beyond K read as 0 (R328), in a raw copy too
(DEDUCED, log 25: R334 calls the bytes unchanged). -/
def rawRow (x : Eng) (retry : Nat) (a : CopyArgs) (h : Shape) (r : Option Nat) : P (List Byte × List Nat) := do
  let k0 := winK a
  if h.fmt = 7 then
    let nt := h.tk / 32
    let pad := 16 * ceilDiv nt 16
    let mut es : List Byte := []
    let mut ms : List Byte := []
    let mut bad : List Nat := []
    for t in List.range nt do
      match r with
      | some r =>
        if 32 * t + k0 < h.k then
          let at_ := bfpAddr h a.gaddr.toNat r (k0 / 32 + t)
          let (e, p) ← engRead x retry at_.1 1
          es := es ++ e
          if p then bad := bad ++ [t]
          for n in List.range h.mw do
            let (m, q) ← engRead x retry (at_.2 + 4 * n) 4
            let z := runBits h.mw (h.k - (k0 + 32 * t)) n
            ms := ms ++ leBytes 4 (leValue m % 2 ^ z)
            if q && z > 0 then bad := bad ++ [pad + 4 * h.mw * t + 4 * n]
        else
          es := es ++ [0]
          ms := ms ++ List.replicate (4 * h.mw) 0
      | none =>
        es := es ++ [0]
        ms := ms ++ List.replicate (4 * h.mw) 0
    return (es ++ List.replicate (pad - nt) 0 ++ ms, bad)
  else
    let z := fmtSize h.fmt
    let mut v := 0
    let mut bad : List Nat := []
    for j in List.range h.tk do
      match r with
      | some r =>
        if k0 + j < h.k then
          let (b, p) ← readRaw x retry h a.gaddr.toNat r (k0 + j)
          v := v + b * (if h.fmt = 6 then 16 ^ j else 256 ^ (z * j))
          if p then bad := bad ++ [if h.fmt = 6 then j / 2 else z * j]
      | none => pure ()
    return (leBytes h.elemBytes v, bad)

def layoutFmt (sl : Nat) : Fmt := match sl with | 1 => .f32 | 2 => .f16 | _ => .bf16

/-- Bytes of one block-tile, one list per part: 16 rows of 32 values, each marked when it is a padding row. -/
def blockTile (h : Shape) (rows : List (Bool × List FVal)) : List (List Byte) :=
  let q := rows.map fun r => (r.1, quantiseParts h.split r.2 h.w (if h.sl = 4 then 254 else 246 + h.w))
  (List.range (if h.split then 2 else 1)).map fun part =>
    let blk := q.map fun y =>
      let b := (y.2[part]?).getD (0, [])
      (if h.sl = 4 then b.1 else expB h.w b.1 y.1, b.2)
    if h.sl = 4 then packA h.w blk else packB blk

/-- What a unit of TCOPY or TGATHER writes: (offset, bytes) runs, poisoned offsets, and OOR. -/
def loadUnit (x : Eng) (retry : Nat) (a : CopyArgs) (h : Shape) (u : Nat) :
    P (List (Nat × List Byte) × List Nat × Bool) := do
  if h.sl ≤ 3 then
    let (r, oor, ip) ← tileRow x a h u
    let at_ := a.soff + u * h.pitch
    if h.sl = 0 then
      let (bs, bad) ← rawRow x retry a h r
      let bad := if ip then (List.range (h.rowBytes / 4)).map (4 * ·) else bad
      return ([(at_, bs)], bad.map (at_ + ·), oor)
    let z := if h.sl = 1 then 4 else 2
    let mut bs : List Byte := []
    let mut bad : List Nat := []
    for j in List.range h.tk do
      let (v, p) ← tileElem x retry a h r j
      bs := bs ++ leBytes z (convVal (layoutFmt h.sl) .rne h.satf v).val
      if p || ip then bad := bad ++ [at_ + z * j]
    return ([(at_, bs)], bad, oor)
  else
    let rt := u / h.kt
    let kt := u % h.kt
    let mut rows : List (Bool × List FVal) := []
    let mut bad : List Nat := []
    let mut oor := false
    for i in List.range 16 do
      let (r, o, ip) ← tileRow x a h (16 * rt + i)
      oor := oor || o
      let mut xs : List FVal := []
      let mut p := ip
      for j in List.range 32 do
        let (v, q) ← tileElem x retry a h r (32 * kt + j)
        xs := xs ++ [v]
        p := p || q
      rows := rows ++ [(r.isNone, xs)]
      if p then bad := bad ++ blockWords h i
    let runs := (blockTile h rows).zipIdx.map fun y => (a.soff + y.2 * h.partBytes + u * h.blockBytes, y.1)
    return (runs, runs.flatMap fun y => bad.map (y.1 + ·), oor)

/-! ### One unit of a store (R338, R339) -/

/-- A rounded quotient's exact value. -/
inductive QVal where
  | nan
  | inf (neg : Bool)
  | rat (neg : Bool) (n d : Nat)
deriving DecidableEq, Repr

def QVal.of (x : FVal) : QVal :=
  match x with
  | .nan _ => .nan
  | .inf n => .inf n
  | .fin n m e => let q := scaleQ m 1 (-e); .rat n q.1 q.2

/-- Exact x ÷ s for a finite nonzero scale (R338). -/
def QVal.quot (x s : FVal) : QVal :=
  match x with
  | .nan _ => .nan
  | .inf n => .inf (n != s.neg)
  | .fin n m e =>
    match s with
    | .fin sn sm se => let q := scaleQ m sm (se - e); .rat (n != sn) q.1 q.2
    | _ => .nan

/-- Round to E4M3: 448 on overflow, 0x7F for NaN. -/
def e4m3Of (x : QVal) : Nat :=
  let sg := fun (n : Bool) (b : Nat) => if n then 128 + b else b
  match x with
  | .nan => 0x7F
  | .inf n => sg n 0x7E
  | .rat n a d =>
    if a = 0 then sg n 0
    else
      let q : Int := max (log2Q a d) (-6) - 3
      let sc := scaleQ a d q
      let b := (q + 9).toNat * 8 + (roundInt .rne n sc.1 sc.2).1
      sg n (if b ≥ 0x7F then 0x7E else b)

/-- RNE to an integer, saturating; NaN gives 0. -/
def intOf (lo hi : Int) (x : QVal) : Int :=
  match x with
  | .nan => 0
  | .inf n => if n then lo else hi
  | .rat n a d =>
    let k := (roundInt .rne n a d).1
    clampTo lo hi (if n then -(k : Int) else k)

/-- Round to a binary format. -/
def floatOf (f : Fmt) (satf : Bool) (x : QVal) : Nat :=
  match x with
  | .nan => f.nan
  | .inf n => f.signed n f.inf
  | .rat n a d =>
    if a = 0 then f.signed n 0
    else
      let r := roundQ f .rne n a d
      if satf && r.flags &&& fOF ≠ 0 then f.signed n f.maxFin else r.val

/-- Pattern stored for a value (R339), FMT 0 to 6. -/
def encodeElem (h : Shape) (x : QVal) : Nat :=
  match h.fmt with
  | 0 => floatOf .f32 h.satf x
  | 1 => floatOf .f16 h.satf x
  | 2 => floatOf .bf16 h.satf x
  | 3 => e4m3Of x
  | 4 => floatOf .e5m2 h.satf x
  | 5 => low 8 (intOf (-128) 127 x)
  | _ => low 4 (intOf (-8) 7 x)

/-- Value of tile element (i, j) of one part of a canonical layout at `o`, with poison. -/
def blockElem (x : Eng) (h : Shape) (o i j : Nat) : W (FVal × Bool) := do
  let bt := o + (i / 16 * h.kt + j / 32) * h.blockBytes
  let r := i % 16
  if h.sl = 4 then
    let (eb, p) ← spRead x (bt + r) 1
    let mut m := 0
    let mut bad := p
    for n in List.range h.w do
      let (ws, q) ← spRead x (bt + 64 * (n + 1) + 4 * r) 4
      m := m + leValue ws / 2 ^ (j % 32) % 2 * 2 ^ (h.w - 1 - n)
      bad := bad || q
    return (blockVal (leValue eb) (sgn h.w m) h.w, bad)
  else
    let (eb, p) ← spRead x (bt + 64 * (r / 4) + r % 4) 1
    let (mb, q) ← spRead x (bt + colB r + j % 32) 1
    return (blockVal (leValue eb) (sgn 8 (leValue mb)) 8, p || q)

/-- Exact value of tile element (i, j) as a TSTORE decodes it, SL 1 to 5 (R338). -/
def layoutElem (x : Eng) (a : CopyArgs) (h : Shape) (i j : Nat) : W (FVal × Bool) := do
  if h.sl ≤ 3 then
    let z := if h.sl = 1 then 4 else 2
    let (bs, p) ← spRead x (a.soff + i * h.pitch + z * j) z
    return ((layoutFmt h.sl).read (leValue bs), p)
  else
    let hi ← blockElem x h a.soff i j
    if !h.split then return hi
    let lo ← blockElem x h (a.soff + h.partBytes) i j
    return (sumVal hi.1 lo.1, hi.2 || lo.2)

/-- Pattern and poison that a TSTORE writes for tile element (i, j), FMT 0 to 6. -/
def storeElem (x : Eng) (retry : Nat) (a : CopyArgs) (h : Shape) (r i j : Nat) : P (Nat × Bool) := do
  if h.sl = 0 then
    let z := fmtSize h.fmt
    let (bs, p) ← spRead x (a.soff + i * h.pitch + (if h.fmt = 6 then j / 2 else z * j)) z
    let v := leValue bs
    return (if h.fmt = 6 then v / 16 ^ (j % 2) % 16 else v, p)
  let (v, p) ← layoutElem x a h i j
  if h.sfmt = 0 then return (encodeElem h (.of v), p)
  let (sc, q) ← readScale x retry h a.gaddr.toNat r (winK a + j)
  match sc with
  | .fin _ m _ => return (if m = 0 then 0 else encodeElem h (.quot v sc), p || q)
  | _ => return (0, p || q)

/-- Exponent byte and mantissa words, each with its poison, of packed BFP block `t` of tile row i; `n` elements lie in
the tensor, and those beyond are written as 0 (R328). -/
def storeBlock (x : Eng) (a : CopyArgs) (h : Shape) (i t n : Nat) :
    W ((List Byte × Bool) × List (List Byte × Bool)) := do
  if h.sl = 0 then
    let at_ := a.soff + i * h.pitch
    let (e, p) ← spRead x (at_ + t) 1
    let mut ms : List (List Byte × Bool) := []
    for k in List.range h.mw do
      let (m, q) ← spRead x (at_ + 16 * ceilDiv (h.tk / 32) 16 + 4 * h.mw * t + 4 * k) 4
      let z := runBits h.mw (n - 32 * t) k
      ms := ms ++ [(leBytes 4 (leValue m % 2 ^ z), q && z > 0)]
    return ((e, p), ms)
  else
    let mut xs : List FVal := []
    let mut bad := false
    for j in List.range 32 do
      if 32 * t + j < n then
        let (v, p) ← layoutElem x a h i (32 * t + j)
        xs := xs ++ [v]
        bad := bad || p
      else xs := xs ++ [.fin false 0 0]
    let b := quantise xs h.mw 254
    let run := b.2.zipIdx.foldl (fun acc m => acc + low h.mw m.1 * 2 ^ (h.mw * m.2)) 0
    let ms := leBytes (4 * h.mw) run
    let poison := bad
    return (([BitVec.ofNat 8 b.1], poison), (List.range h.mw).map fun k => ((ms.drop (4 * k)).take 4, poison))

/-- Write tile row i to its in-tensor bytes (R339, R346). A row of which the window holds no element is not written, its
padding bytes included (DEDUCED, log 25: R339 does not name a window at or beyond K). -/
def storeUnit (x : Eng) (retry : Nat) (a : CopyArgs) (h : Shape) (i : Nat) : P Unit := do
  let r := fld a.arg.toNat 0 32 + i
  let k0 := winK a
  let n := min h.tk (h.k - k0)
  if r ≥ h.rows || n = 0 then return
  let b := a.gaddr.toNat
  if h.fmt = 7 then
    let mut es : List EngWrite := []
    let mut ws : List EngWrite := []
    for t in List.range (ceilDiv n 32) do
      let at_ := bfpAddr h b r (k0 / 32 + t)
      let (e, ms) ← storeBlock x a h i t n
      es := es ++ [{ va := at_.1, bytes := e.1, poison := e.2 }]
      ws := ws ++ ms.zipIdx.map fun m => ({ va := at_.2 + 4 * m.2, bytes := m.1.1, poison := m.1.2 } : EngWrite)
    let nb := ceilDiv h.k 32
    let pad : List EngWrite := (List.range (16 * ceilDiv nb 16 - nb)).map fun j => { va := b + r * h.rstride + nb + j, bytes := [0] }
    engWrites x retry (es ++ pad ++ ws)
  else if h.fmt = 6 then
    let mut ws : List EngWrite := []
    for y in List.range (ceilDiv n 2) do
      let va := elemAddr h b r (k0 + 2 * y)
      let (lo, p) ← storeElem x retry a h r i (2 * y)
      if 2 * y + 1 < n then
        let (hi, q) ← storeElem x retry a h r i (2 * y + 1)
        ws := ws ++ [{ va, bytes := leBytes 1 (lo + 16 * hi), poison := p || q }]
      else
        let (old, _) ← engRead x retry va 1
        ws := ws ++ [{ va, bytes := leBytes 1 (lo + leValue old / 16 * 16), poison := p }]
    engWrites x retry ws
  else
    let mut ws : List EngWrite := []
    for j in List.range n do
      let (v, p) ← storeElem x retry a h r i j
      ws := ws ++ [{ va := elemAddr h b r (k0 + j), bytes := leBytes (fmtSize h.fmt) v, poison := p }]
    engWrites x retry ws

/-! ### Issue checks and acceptance (R323, R341, R343, R347) -/

/-- First byte and length of the generic span of a command's in-tensor elements; none when it has no such element. -/
def genericSpan (a : CopyArgs) (h : Shape) : Option (Nat × Nat) :=
  let r0 := fld a.arg.toNat 0 32
  let k0 := winK a
  let r1 := min (r0 + h.trows) h.rows
  let k1 := min (k0 + h.tk) h.k
  if r1 ≤ r0 || k1 ≤ k0 then none
  else
    let b := a.gaddr.toNat
    if h.fmt = 7 then
      let lo := (bfpAddr h b r0 (k0 / 32)).1
      some (lo, (bfpAddr h b (r1 - 1) ((k1 - 1) / 32)).2 + 4 * h.mw - lo)
    else
      let lo := elemAddr h b r0 k0
      some (lo, elemAddr h b (r1 - 1) (k1 - 1) + fmtSize h.fmt - lo)

/-- Generic spans of a gather: the in-tensor elements of each row that its index list names (R353). -/
def gatherSpans (x : Eng) (a : CopyArgs) (h : Shape) : W (List (Nat × Nat)) := do
  let mut out : List (Nat × Nat) := []
  for i in List.range h.trows do
    let (bs, _) ← spRead x (fld a.arg.toNat 0 32 + 4 * i) 4
    let r := leValue bs
    out := out ++ (genericSpan { a with opc := 0, arg := BitVec.ofNat 64 r } { h with trows := 1 }).toList
  return out

/-- A tensor base inside the vault aperture is refused: another die's window, or a span with a byte in a way that is not
carved or is being returned (R347 step 4, R13). -/
def baseVault (x : Eng) (a : CopyArgs) (h : Shape) : W Bool := do
  let s ← getSt
  let d := dieOf x.core
  if !s.inAperture d a.gaddr.toNat then return false
  if s.otherWindow d a.gaddr.toNat then return true
  let spans ← if a.opc = 2 then gatherSpans x a h else pure (genericSpan a h).toList
  return spans.any fun g => s.vaultBad d g.1 g.2

/-- Range entries of a command with tag `tag` (Table 9.5). -/
def copyRanges (x : Eng) (a : CopyArgs) (h : Shape) (tag : Nat) : List RangeEntry :=
  let sp := fun (off n : Nat) (dst : Bool) =>
    { base := x.base + off, len := n, owner := x.slot, eng := if a.opc = 2 then 1 else 0, spc := 1, dst, tag : RangeEntry }
  let gen := fun (dst : Bool) => (genericSpan a h).toList.map fun g =>
    ({ base := g.1, len := g.2, owner := x.slot, eng := 0, spc := 0, dst, tag } : RangeEntry)
  match a.opc with
  | 0 => sp a.soff h.span true :: gen false
  | 1 => gen true ++ [sp a.soff h.span false]
  | _ => [sp a.soff h.span true, sp (fld a.arg.toNat 0 32) (4 * h.trows) false]

/-- Steps 2 to 6 of R347 for one command; acceptance then has its ranges registered and its object armed. `before`
runs the release at CSCOPE. -/
def acceptTile (x : Eng) (retry : Nat) (a : CopyArgs) (tag : Nat) (before : Scope → P Unit) :
    P (Shape × List RangeEntry) := do
  let h ← readShape x retry a.shape
  if (a.opc = 2 && h.tr) || (a.opc ≠ 2 && winK a % 32 ≠ 0) then raiseP .prot a.shape
  checkSpan x a.soff h.span h.align
  checkSpan x a.comp 16 16
  if a.opc = 2 then checkSpan x (fld a.arg.toNat 0 32) (4 * h.trows) 4
  if !canonical a.gaddr.toNat || (h.fmt ≤ 5 && a.gaddr.toNat % fmtSize h.fmt ≠ 0) then raiseP .prot a.gaddr
  if ← baseVault x a h then raiseP .vault a.gaddr
  before (scopeOf h.cscope)
  let es := copyRanges x a h tag
  for e in es do
    if e.spc = 0 && e.dst then cleanRange x.core x.pasid e.base e.len a.gaddr
  registerRanges x.core x.slot es
  match ← tryP (compArm x a.comp (countedBytes a h) a.shape) with
  | .ok _ => return (h, es)
  | .error e => do
    clearRanges x.core es
    throw e

/-- A free command entry (R322); none parks the thread in ENG. -/
def freeCopy (core : Nat) : P Nat := do
  let used := ((← getSt).core core).copy.map CopyCmd.idx
  match (List.range 16).find? fun k => !used.contains k with
  | some k => return k
  | none => throw .eng

def putCopy (core : Nat) (c : CopyCmd) : W Unit :=
  modCore core fun x => { x with copy := upsert (fun y => y.idx = c.idx) c x.copy }
def modCopy (core idx : Nat) (f : CopyCmd → CopyCmd) : W Unit :=
  modCore core fun x => { x with copy := x.copy.map fun y => if y.idx = idx then f y else y }

/-- Operands of a copy command as captured (R295). -/
def copyArgsOf (opc : Nat) (e : Entry) : CopyArgs :=
  { opc, soff := e.w 0, gaddr := e.d 1, shape := e.d 3, comp := e.w 5, arg := e.d 6 }

/-- Accept TCOPY, TSTORE or TGATHER. -/
def acceptCopy (opc : Nat) (t : ThreadId) (e : Entry) : P (List Word) := do
  match (← getSt).thread? t with
  | none => return []
  | some th => do
    let x := (← getSt).eng t.core th.slot
    let a := copyArgsOf opc e
    let used := ((← getSt).core t.core).copy.map CopyCmd.idx
    let idx := ((List.range 16).find? fun k => !used.contains k).getD 16
    let before := fun (sc : Scope) => do
      if idx = 16 then throw .eng
      performedBefore t e.id sc a.shape
    let (h, es) ← acceptTile x e.retry a idx before
    putCopy t.core { idx, slot := th.slot, tid := t, pc := e.pc, word := e.word, opv := e.opv, job := .tile a h
                     left := countedBytes a h, rng := es }
    return []

/-- Accept TKICK: the list's span, its count and its object (R354). -/
def acceptList (t : ThreadId) (e : Entry) : P (List Word) := do
  match (← getSt).thread? t with
  | none => return []
  | some th => do
    let x := (← getSt).eng t.core th.slot
    let l := e.w 0
    let n := e.w 1
    let c := e.w 2
    if n = 0 || n > 256 then raiseP .prot
    checkSpan x l (64 * n) 64
    checkSpan x c 16 16
    let idx ← freeCopy t.core
    performedBefore t e.id .team (BitVec.ofNat 64 l)
    let es : List RangeEntry :=
      [{ base := x.base + l, len := 64 * n, owner := th.slot, eng := 0, spc := 1, dst := false, tag := idx }]
    registerRanges t.core th.slot es
    match ← tryP (compArm x c (64 * n) (BitVec.ofNat 64 c)) with
    | .ok _ => pure ()
    | .error e => do
      clearRanges t.core es
      throw e
    putCopy t.core { idx, slot := th.slot, tid := t, pc := e.pc, word := e.word, opv := e.opv
                     job := .list { off := l, n, comp := c, next := 0, own := es.head? } none }
    return []

/-! ### Running commands -/

/-- What a stop of an engine's attempt means for its command: it waits, or it ends with ERR at the fault's address
(R348). -/
def copyStop (core idx : Nat) (s : Stop) : W Unit :=
  match s with
  | .page w fa => modCopy core idx fun c => { c with wait := some w, fa := if c.err then c.fa else fa }
  | .line l fa => modCopy core idx fun c => { c with line := some l, fa := if c.err then c.fa else fa }
  | .rng _ => modCopy core idx fun c => { c with held := true }
  | .cause _ _ fa => modCopy core idx fun c => { c with ended := true, err := true, fa }
  | _ => return

/-- Run one unit of a tile command (COPY_TRANSFER); the last step of REMAIN is made at retirement (R342). -/
def runUnit (core : Nat) (c : CopyCmd) (a : CopyArgs) (h : Shape) : W Unit := do
  let x := { (← getSt).eng core c.slot with early := c.early }
  let r ← (do
    checkMirror x a.comp 16
    if a.opc = 1 then storeUnit x c.retry a h c.unit_
    else
      let (runs, bad, oor) ← loadUnit x c.retry a h c.unit_
      for y in runs do spWrite x y.1 y.2 []
      for b in bad do poisonAt (x.spa (b / 4 * 4)) 4
      if oor then compStep x a.comp 0 false none true : P Unit).run
  match r with
  | .error e => copyStop core c.idx e
  | .ok _ => do
    let n := unitBytes a h c.unit_
    let last := decide (c.unit_ + 1 ≥ unitCount a h)
    if !last then compStep x a.comp n false none false
    modCopy core c.idx fun c => { c with
      unit_ := c.unit_ + 1, done := c.done + n, left := if last then c.left else c.left - n, ended := last
      wait := none, line := none, retry := 0 }

/-- The tile command that an entry runs now, a list's current record included. -/
def CopyCmd.tile? (c : CopyCmd) : Option (CopyArgs × Shape) :=
  match c.job with
  | .tile a h => some (a, h)
  | .list _ cur => cur
  | _ => none

/-- Retirement of a tile command: the last update of its object, then R140. -/
def retireTile (core : Nat) (c : CopyCmd) (a : CopyArgs) : W Unit := do
  let x := (← getSt).eng core c.slot
  compEnd x c.tid a.comp c.left true (if c.err then some c.fa else none)
  retireRanges x c.rng

/-- End of a request list: the list's own object loses its command, the entry is freed. -/
def retireList (core : Nat) (c : CopyCmd) (l : ListArgs) (err : Option DWord) : W Unit := do
  let x := (← getSt).eng core c.slot
  compEnd x c.tid l.comp (if err.isSome then 64 * (l.n - l.next) else 0) true err
  clearRanges core l.own.toList
  modCore core fun y => { y with copy := y.copy.filter fun z => z.idx ≠ c.idx }

/-- A record that fails ends its list: ERR is set in the record's own object, where its offset is valid, and in the
list's (R354). -/
def failList (core : Nat) (c : CopyCmd) (l : ListArgs) (fa : DWord) : W Unit := do
  let s ← getSt
  let x := s.eng core c.slot
  match l.raw with
  | some v => if !s.badSpan x (fld v 192 32) 16 16 then compStep x (fld v 192 32) 0 false (some fa) false
  | none => pure ()
  retireList core c l (some fa)

/-- A request record (Table 9.8); a reserved field or opcode raises PROT. -/
def parseRequest (x : Nat) : Option CopyArgs :=
  if fld x 2 30 ≠ 0 || fld x 224 32 ≠ 0 || fld x 320 192 ≠ 0 || fld x 0 2 = 3 then none
  else some { opc := fld x 0 2, soff := fld x 32 32, gaddr := BitVec.ofNat 64 (fld x 64 64)
              shape := BitVec.ofNat 64 (fld x 128 64), comp := fld x 192 32, arg := BitVec.ofNat 64 (fld x 256 64) }

/-- Read the next record of a list, once; with the last one the list's own entry is cleared (R343). -/
def readRecord (core : Nat) (c : CopyCmd) (l : ListArgs) : W (ListArgs × Bool) := do
  match l.raw with
  | some _ => return (l, false)
  | none => do
    let x := (← getSt).eng core c.slot
    let (bs, poisoned) ← spRead x (l.off + 64 * l.next) 64
    let last := decide (l.next + 1 = l.n)
    if last then clearRanges core l.own.toList
    let l := { l with raw := some (leValue bs), own := if last then none else l.own }
    modCopy core c.idx fun c => { c with job := .list l none, held := false }
    return (l, poisoned)

/-- TKICK_RECORD_START (R354): read, check and accept the next record; a record that fails ends the list. -/
def execTkickRecordStart (core idx : Nat) (s : State) : Host.Outcome State Fault Refusal := run (do
  match (s.core core).copy.find? fun c => c.idx = idx with
  | none => return
  | some c =>
    match c.job with
    | .list l none => do
      if l.next ≥ l.n then return
      if c.err then
        failList core c l c.fa
        return
      let x := s.eng core c.slot
      let at_ := BitVec.ofNat 64 (l.off + 64 * l.next)
      let (l, poisoned) ← readRecord core c l
      let r ← (do
        checkMirror x l.comp 16
        if poisoned then raiseP .ecc at_
        match parseRequest (l.raw.getD 0) with
        | none => raiseP .prot at_
        | some a => do
          let y ← acceptTile x c.retry a idx fun sc => releaseAct core sc a.shape
          return (a, y) : P (CopyArgs × Shape × List RangeEntry)).run
      match r with
      | .ok (a, h, es) => do
        compStep x l.comp 64 false none false
        modCopy core idx fun c => { c with
          job := .list { l with next := l.next + 1, raw := none } (some (a, h)), left := countedBytes a h, rng := es
          wait := none, line := none, retry := 0, early := false, held := false }
      | .error (.cause _ _ fa) => failList core c l fa
      | .error e => copyStop core idx e
    | _ => return) s

/-- Retry the acceptance of a parked copy command (COPY_ACCEPT, R323). -/
def performCopyOp (i : Instr) (t : ThreadId) (e : Entry) : P (List Word) :=
  match i with
  | .tcopy _ => acceptCopy 0 t e
  | .tstore _ => acceptCopy 1 t e
  | .tgather _ => acceptCopy 2 t e
  | .tkick _ => acceptList t e
  | _ => return []

/-- Instructions of the copy engine. -/

def isCopyOp (i : Instr) : Bool := match i with | .tcopy _ | .tstore _ | .tgather _ | .tkick _ => true | _ => false

def execCopyAccept (t : ThreadId) (s : State) : Host.Outcome State Fault Refusal := run (do
  match s.thread? t with
  | none => return
  | some th =>
    match th.unf.find? fun e => e.st = 0 && !e.queued && e.page.isNone && (e.instr?.map isCopyOp).getD false with
    | some e => match e.instr? with
      | some i => attemptCmd (performCopyOp i) t e.id
      | none => return
    | none => return) s

def issueCopy (i : Instr) : W Unit := issueCmd i (captureE i) (performCopyOp i)

def execTcopy (w : EWord) (s : State) : Host.Outcome State Fault Refusal := run (issueCopy (.tcopy w)) s
def execTkick (w : EWord) (s : State) : Host.Outcome State Fault Refusal := run (issueCopy (.tkick w)) s
def execTstore (w : EWord) (s : State) : Host.Outcome State Fault Refusal := run (issueCopy (.tstore w)) s
def execTgather (w : EWord) (s : State) : Host.Outcome State Fault Refusal := run (issueCopy (.tgather w)) s

end Sys2Proof.Machine
end

