-- ==== Sys2Proof/Machine/Matrix.lean ====
section
/-!
DEFINITION. The matrix engine (spec 10): operand maps, tiles and versions, signed commands, the matrix queue, and the
functions of its commands.
-/
namespace Sys2Proof.Machine

/-! ### Tiles and shadows (R359, R360, R369) -/

def Quarter.tile (q : Quarter) (t : Nat) : AccTile := (q.acc.find? fun x => x.idx = t).getD { idx := t }
def Quarter.setTile (q : Quarter) (t : AccTile) : Quarter := { q with acc := upsert (fun x => x.idx = t.idx) t q.acc }
def Quarter.shadow (q : Quarter) (k : Nat) : Shadow := (q.shadows.find? fun x => x.idx = k).getD { idx := k }
def Quarter.setShadow (q : Quarter) (x : Shadow) : Quarter :=
  { q with shadows := upsert (fun y => y.idx = x.idx) x q.shadows }

/-- The shadow bound to (team slot, tile, token). -/
def Quarter.shadowOf (q : Quarter) (b : Nat × Nat × BitVec 16) : Option Shadow := q.shadows.find? fun x => x.bound = some b
/-- A shadow that is not bound. -/
def Quarter.freeShadow (q : Quarter) : Option Nat := (List.range 8).find? fun k => (q.shadow k).bound.isNone

/-! ### Commands -/

/-- Kinds of matrix command. -/
inductive MKind where
  | mma (z : Bool) | mmas | accz (free : Bool) | accld | accst (a : Bool) (w : Nat) | accrow | accrmax
  | spcommit (repl : Bool) | spdrop
deriving DecidableEq, Repr

/-- A matrix command's fields: tile, convergence register, and for MMA the maps and passes. -/
structure MArgs where
  kind : MKind
  t    : Nat
  cv   : Nat
  amap : Nat := 0
  bmap : Nat := 0
  kb   : Nat := 1
deriving DecidableEq, Repr

/-- The command of a word (Table 10.6). -/
def mArgs (i : Instr) : Option MArgs :=
  let base := fun (kind : MKind) (w : EWord) => { kind, t := w.o1.toNat, cv := w.o4.toNat % 16 : MArgs }
  let mma := fun (kind : MKind) (w : EWord) =>
    { base kind w with amap := w.o2.toNat % 16, bmap := w.o2.toNat / 16 % 16, kb := w.o4.toNat / 16 % 8 + 1 }
  match i with
  | .mma w => some (mma (.mma w.fl) w)
  | .mmas w => some (mma .mmas w)
  | .accz w => some (base (.accz w.fl) w)
  | .accld w => some (base .accld w)
  | .accst w => some (base (.accst w.fl (w.o2.toNat % 16)) w)
  | .accrow w => some (base .accrow w)
  | .accrmax w => some (base .accrmax w)
  | .spcommit w => some (base (.spcommit w.fl) w)
  | .spdrop w => some (base .spdrop w)
  | _ => none

/-- A queued command with its fields. -/
structure MCommand where
  args : MArgs
  v    : BitVec 16      -- expected version
  tok  : BitVec 16
  o    : Nat            -- scratchpad offset
  k0   : Nat
deriving DecidableEq, Repr

def mCommand (word : DWord) (opv : List Word) : Option MCommand :=
  let w := fun k => ((opv[k]?).getD 0).toNat
  ((decodeWord word).toOption.bind mArgs).map fun a =>
    let first := BitVec.ofNat 16 (w 0)
    { args := a, v := first, tok := match a.kind with | .spcommit _ => BitVec.ofNat 16 (w 1) | _ => first
      o := w 1, k0 := w 1 }

def MCmd.cmd? (c : MCmd) : Option MCommand := mCommand c.word c.opv

/-- Accumulator tiles that a command uses: MMAS and SPDROP use none (R370, R371). -/
def MArgs.tiles (a : MArgs) : List Nat :=
  match a.kind with
  | .mmas | .spdrop => []
  | .accst true _ => [a.t, a.t + 1]
  | _ => [a.t]
/-- Tiles that a command names. -/
def MArgs.named (a : MArgs) : List Nat := match a.kind with | .accst true _ => [a.t, a.t + 1] | _ => [a.t]
def MArgs.usesShadow (a : MArgs) : Bool := match a.kind with | .mmas | .spcommit _ | .spdrop => true | _ => false
/-- The command occupies the array (R364). -/
def MArgs.onArray (a : MArgs) : Bool := match a.kind with | .mma _ | .mmas => true | _ => false

/-- Commands queued on a tile (QCNT, R359). -/
def Quarter.queuedOn (q : Quarter) (t : Nat) : Nat :=
  (q.mq.filter fun c => !c.running && (c.cmd?.map fun m => m.args.named.contains t).getD false).length
/-- A command is running on a tile. -/
def Quarter.busyTile (q : Quarter) (t : Nat) : Bool :=
  q.mq.any fun c => c.running && (c.cmd?.map fun m => m.args.tiles.contains t).getD false

/-! ### Operand maps (R356-R358) -/

def parseOMap (x : Nat) : OMap :=
  { w := fld x 8 4, split := flag x 4, kind := fld x 0 1, off := fld x 32 32, rt := fld x 80 16, kt := fld x 64 16
    sel := fld x 96 16 }

def omapOk (x : Nat) (m : OMap) (split : Bool) : Bool :=
  fld x 12 20 = 0 && fld x 5 3 = 0 && fld x 1 3 = 0 && fld x 112 16 = 0 && fld x 128 384 = 0
    && (if m.kind = 0 then 2 ≤ m.w && m.w ≤ 8 && (!m.split || m.w = 8) && m.off % 64 = 0 else m.w = 0 && m.off % 256 = 0)
    && 1 ≤ m.rt && 1 ≤ m.kt && m.sel < m.rt && (!m.split || split)

def OMap.blockBytes (m : OMap) : Nat := if m.kind = 0 then 64 * (m.w + 1) else 768
/-- Offset of the block-tile of K-block k, the high part of a split map (R358). -/
def OMap.block (m : OMap) (k : Nat) : Nat := m.off + (m.sel * m.kt + k) * m.blockBytes
/-- Distance from a high part to its low part. -/
def OMap.low (m : OMap) : Nat := m.rt * m.kt * (if m.kind = 0 then 576 else 768)

/-- Blocks of a command that lie below both KT. -/
def mmaBlocks (m : MCommand) (a b : OMap) : List Nat :=
  ((List.range (3 * m.args.kb)).map (m.k0 + ·)).filter fun k => k < a.kt && k < b.kt

/-- Blocks of `n` passes from pass `p` on: a pass takes three blocks (R358). -/
def passBlocks (m : MCommand) (a b : OMap) (p n : Nat) : List Nat :=
  (mmaBlocks m a b).filter fun k => m.k0 + 3 * p ≤ k && k < m.k0 + 3 * (p + n)

/-- Span of a command on a map: first byte and length (R358). -/
def OMap.span (m : OMap) (ks : List Nat) : Option (Nat × Nat) :=
  match ks with
  | [] => none
  | k :: rest =>
    let last := rest.foldl max k
    let lo := m.block k
    some (lo, m.block last + m.blockBytes + (if m.split then m.low else 0) - lo)

/-! ### Functions of the commands (R366-R375) -/

/-- Row r of an A block-tile at `bt`: exponent, mantissas, poison. -/
def readARow (x : Eng) (w bt r : Nat) : W (Nat × List Int × Bool) := do
  let (eb, p) ← spRead x (bt + r) 1
  let mut planes : List Nat := []
  let mut bad := p
  for n in List.range w do
    let (ws, q) ← spRead x (bt + 64 * (n + 1) + 4 * r) 4
    planes := planes ++ [leValue ws]
    bad := bad || q
  let ps := planes
  let m := (List.range 32).map fun j =>
    sgn w (ps.zipIdx.foldl (fun acc p => acc + p.1 / 2 ^ j % 2 * 2 ^ (w - 1 - p.2)) 0)
  return (leValue eb, m, bad)

/-- Column c of a B block-tile at `bt`. -/
def readBCol (x : Eng) (bt c : Nat) : W (Nat × List Int × Bool) := do
  let (eb, p) ← spRead x (bt + 64 * (c / 4) + c % 4) 1
  let (mb, q) ← spRead x (bt + colB c) 32
  return (leValue eb, mb.map fun b => sgn 8 b.toNat, p || q)

/-- All parts of row r of a map at block k. -/
def OMap.row (m : OMap) (x : Eng) (k r : Nat) : W (List (Nat × List Int × Bool)) := do
  let hi := m.block k
  let one := fun (bt : Nat) => if m.kind = 0 then readARow x m.w bt r else readBCol x bt r
  let h ← one hi
  if m.split then return [h, ← one (hi + m.low)] else return [h]

/-- Exact sum of the scaled products of every pair of parts (R366, R367); `none` for a NaN block. -/
def blockSum (wA : Nat) (a b : List (Nat × List Int × Bool)) : Option (Int × Int) :=
  if (a ++ b).any fun p => p.1 = 0xFF then none
  else some ((a.flatMap fun p => b.map fun q => (p, q)).foldl (fun acc pq =>
    let dot := (pq.1.2.1.zip pq.2.2.1).foldl (fun s m => s + m.1 * m.2) (0 : Int)
    addDyadic acc.1 acc.2 dot ((pq.1.1 : Int) - 127 - ((wA : Int) - 1) + ((pq.2.1 : Int) - 134))) (0, 0))

/-- T + x with one rounding (R366). -/
def accumulate (t : Word) (x : Option (Int × Int)) : Word :=
  match x with
  | none => BitVec.ofNat 32 Fmt.f32.nan
  | some (m, e) => BitVec.ofNat 32 (addVal .f32 .rne (Fmt.f32.read t.toNat) (.fin (m < 0) m.natAbs e)).val

/-- Element data with the positions of its poisoned elements. -/
abbrev TileData := List Word × List Nat

/-- One K-block added into 256 elements. -/
def addBlock (x : Eng) (a b : OMap) (d : TileData) (k : Nat) : W TileData := do
  let mut rows : List (List (Nat × List Int × Bool)) := []
  for r in List.range 16 do rows := rows ++ [← a.row x k r]
  let mut cols : List (List (Nat × List Int × Bool)) := []
  for c in List.range 16 do cols := cols ++ [← b.row x k c]
  let rs := rows
  let cs := cols
  let row := fun e => (rs[e / 16]?).getD []
  let col := fun e => (cs[e % 16]?).getD []
  let bad := (List.range 256).filter fun e => (row e ++ col e).any fun p => p.2.2
  return (d.1.mapIdx fun e t => accumulate t (blockSum a.w (row e) (col e)),
    d.2 ++ bad.filter fun e => !d.2.contains e)

def addBlocks (x : Eng) (a b : OMap) (ks : List Nat) (d : TileData) : W TileData :=
  match ks with
  | [] => return d
  | k :: rest => do addBlocks x a b rest (← addBlock x a b d k)

def zeroTile : TileData := (List.replicate 256 0, [])

/-- f32 pattern with a NaN made canonical. -/
def canonNan (w : Word) : Word := if (Fmt.f32.read w.toNat).isNan then BitVec.ofNat 32 Fmt.f32.nan else w

/-- New contents of an accumulator tile with its version counted. -/
def AccTile.advance (t : AccTile) (d : TileData) : AccTile := { t with data := d.1, poison := d.2, ver := t.ver + 1 }

/-- Make `n` passes of a running MMA or MMAS from its next one on; its version does not move yet. -/
def runPasses (x : Eng) (qtr : Nat) (c : MCmd) (m : MCommand) (n : Nat) : W Unit := do
  let q := (← getSt).quarter x.core qtr
  let t := q.tile m.args.t
  match m.args.kind, c.maps with
  | .mma z, [a, b] => do
    let d ← addBlocks x a b (passBlocks m a b c.pass n) (if z && c.pass = 0 then zeroTile else (t.data, t.poison))
    modQuarter x.core qtr fun q => q.setTile { q.tile m.args.t with data := d.1, poison := d.2 }
  | .mmas, [a, b] =>
    match q.shadowOf (x.slot, m.args.t, m.tok) with
    | some sh => do
      let d ← addBlocks x a b (passBlocks m a b c.pass n) (sh.data, sh.poison)
      modQuarter x.core qtr fun q => q.setShadow { sh with data := d.1, poison := d.2 }
    | none => return
  | _, _ => return

/-- A frozen array stops its running command at a pass boundary that the device chooses (R379). -/
def freezeArray (core qtr : Nat) : W Unit := do
  let s ← getSt
  match (s.quarter core qtr).mq.find? fun c => c.running && (c.cmd?.map fun m => m.args.onArray).getD false with
  | none => return
  | some c =>
    match c.cmd? with
    | none => return
    | some m => do
      let n ← choose (m.args.kb - c.pass)
      if n > 0 then
        runPasses (s.eng core c.slot) qtr c m n
        modQuarter core qtr fun q => { q with
          mq := q.mq.map fun y => if y.idx = c.idx then { y with pass := y.pass + n } else y }

/-- Perform a command's reads and writes and count versions (R365 steps 1 and 2). PROT for a write into a mirror that has
been protected since the command issued (R498). -/
def runCommand (x : Eng) (qtr : Nat) (c : MCmd) (m : MCommand) : P Unit := do
  let q := (← getSt).quarter x.core qtr
  let t := q.tile m.args.t
  let put := fun (d : TileData) => modQuarter x.core qtr fun q => q.setTile ((q.tile m.args.t).advance d)
  let bump := fun (k : Nat) =>
    modQuarter x.core qtr fun q => q.setTile { q.tile k with ver := (q.tile k).ver + 1 }
  let trip := (x.slot, m.args.t, m.tok)
  match m.args.kind with
  | .mma z =>
    match c.maps with
    | [a, b] => put (← addBlocks x a b (passBlocks m a b c.pass m.args.kb)
        (if z && c.pass = 0 then zeroTile else (t.data, t.poison)))
    | _ => return
  | .mmas => runPasses x qtr c m m.args.kb
  | .accz free => do
    put zeroTile
    let later := ((q.mq.dropWhile fun y => y.idx ≠ c.idx).drop 1).any fun y => y.slot = x.slot
      && (y.cmd?.map fun n => n.args.named.contains m.args.t).getD false
    if free && !later then modQuarter x.core qtr fun q => q.setTile { idx := m.args.t }
  | .accld => do
    let mut ws : List Word := []
    let mut bad : List Nat := []
    for e in List.range 256 do
      let (bs, p) ← spRead x (m.o + 4 * e) 4
      ws := ws ++ [canonNan (BitVec.ofNat 32 (leValue bs))]
      if p then bad := bad ++ [e]
    put (ws, bad)
  | .accst false _ => do
    spWrite x m.o (t.data.flatMap fun w => leBytes 4 w.toNat) (t.poison.map fun e => m.o + 4 * e)
    bump m.args.t
  | .accst true w => do
    let t1 := q.tile (m.args.t + 1)
    let row := fun (y : AccTile) r => ((y.data.drop (16 * r)).take 16).map fun v => Fmt.f32.read v.toNat
    let rows := (List.range 16).map fun r => quantise (row t r ++ row t1 r) w 254
    let bad := (List.range 16).filter fun r => (t.poison ++ t1.poison).any fun e => e / 16 = r
    let words := bad.flatMap fun r => (r / 4 * 4 :: (List.range w).map fun n => 64 * (n + 1) + 4 * r).map (m.o + ·)
    spWrite x m.o (packA w rows) words
    bump m.args.t
    bump (m.args.t + 1)
  | .accrow => do
    let mut ws : List (Word × Bool) := []
    for r in List.range 16 do
      let (bs, p) ← spRead x (m.o + 4 * r) 4
      ws := ws ++ [(BitVec.ofNat 32 (leValue bs), p)]
    let sc := ws
    let data := t.data.mapIdx fun e v =>
      BitVec.ofNat 32 (mulVal .f32 .rne (Fmt.f32.read v.toNat)
        (Fmt.f32.read ((sc[e / 16]?).getD (0, false)).1.toNat)).val
    let bad := (List.range 256).filter fun e => t.poison.contains e || ((sc[e / 16]?).getD (0, false)).2
    put (data, bad)
  | .accrmax => do
    let best := fun r => match (t.data.drop (16 * r)).take 16 with
      | w :: rest => rest.foldl (fun acc v => (minmaxBits .f32 false acc v.toNat).val) (minmaxBits .f32 false w.toNat w.toNat).val
      | [] => 0
    spWrite x m.o ((List.range 16).flatMap fun r => leBytes 4 (best r))
      (((List.range 16).filter fun r => t.poison.any fun e => e / 16 = r).map fun r => m.o + 4 * r)
    bump m.args.t
  | .spcommit repl =>
    match q.shadowOf trip with
    | none => bump m.args.t   -- a command ahead of it has freed the shadow; the version counts all the same (R361)
    | some sh => do
      let data := if repl then sh.data
        else (t.data.zip sh.data).map fun v =>
          BitVec.ofNat 32 (addVal .f32 .rne (Fmt.f32.read v.1.toNat) (Fmt.f32.read v.2.toNat)).val
      let poison := if repl then sh.poison else t.poison ++ sh.poison.filter fun e => !t.poison.contains e
      put (data, poison)
      modQuarter x.core qtr fun q => q.setShadow { idx := sh.idx }
  | .spdrop =>
    match q.shadowOf trip with
    | some sh => modQuarter x.core qtr fun q => q.setShadow { idx := sh.idx }
    | none => return

/-! ### Issue into the matrix queue (R363) -/

/-- Scratchpad operand of a command with an offset: bytes at o. -/
def MCommand.oBytes (m : MCommand) : Option Nat :=
  match m.args.kind with
  | .accld | .accst false _ => some 1024
  | .accst true w => some (64 * (w + 1))
  | .accrow | .accrmax => some 64
  | _ => none

def MCommand.oWritten (m : MCommand) : Bool := match m.args.kind with | .accst .. | .accrmax => true | _ => false

/-- Range entries (Table 10.5). -/
def matrixRanges (x : Eng) (m : MCommand) (maps : List OMap) (tag : Nat) : List RangeEntry :=
  let entry := fun (off n : Nat) (dst : Bool) =>
    { base := x.base + off, len := n, owner := x.slot, eng := 2, spc := 1, dst, tag : RangeEntry }
  match m.oBytes with
  | some n => [entry m.o n m.oWritten]
  | none => match maps with
    | [a, b] => ([a, b].filterMap fun y => y.span (mmaBlocks m a b)).map fun s => entry s.1 s.2 false
    | _ => []

/-- Steps 1 to 5 of R363 and entry into the queue. -/
def enterQueue (x : Eng) (qtr : Nat) (word : DWord) (opv : List Word) (threads : List ThreadId) (m : MCommand) :
    P Unit := do
  let s ← getSt
  let q := s.quarter x.core qtr
  if q.mq.length ≥ 8 then throw .eng
  let a := m.args
  let map := fun k => ((s.team? x.core x.slot).bind fun tm => (tm.omaps[k]?).getD none)
  let maps := if a.onArray then [map a.amap, map a.bmap].filterMap id else []
  if a.onArray then
    match map a.amap, map a.bmap with
    | some ma, some mb => if ma.kind ≠ 0 || mb.kind ≠ 1 then raiseP .prot
    | _, _ => raiseP .prot
  for t in a.named do
    if (q.tile t).owner.any fun o => o ≠ x.slot then raiseP .prot
  match m.oBytes with
  | some n => checkSpan x m.o n 64
  | none =>
    match maps with
    | [ma, mb] =>
      for y in [ma, mb] do
        match y.span (mmaBlocks m ma mb) with
        | some sp => checkSpan x sp.1 sp.2 1
        | none => pure ()
    | _ => pure ()
  let trip := (x.slot, a.t, m.tok)
  match a.kind with
  | .spcommit _ | .spdrop => if (q.shadowOf trip).isNone || (q.tile a.t).owner.isNone then raiseP .spec
  | .mmas => if (q.shadowOf trip).isNone && q.freeShadow.isNone then throw .eng
  | _ => pure ()
  let idx := ((List.range 8).find? fun k => !(q.mq.any fun c => c.idx = k)).getD 0
  registerRanges x.core x.slot (matrixRanges x m maps (8 * qtr + idx))
  modQuarter x.core qtr fun q =>
    let q := a.named.foldl (fun q t => if (q.tile t).owner.isNone then q.setTile { q.tile t with owner := some x.slot } else q) q
    let q := match a.kind, q.shadowOf trip, q.freeShadow with
      | .mmas, none, some k => q.setShadow { idx := k, bound := some trip }
      | _, _, _ => q
    { q with mq := q.mq ++ [{ idx, word, opv, slot := x.slot, threads, maps }] }

/-- A signer's entry of the command, made anew for a thread that signed by CVSIGN or CVWAIT. -/
def signerEntry (t : ThreadId) (word pc : DWord) (opv : List Word) : W (Option Nat) := do
  match (← getSt).thread? t with
  | none => return none
  | some th =>
    match th.unf.find? fun e => e.word = word && e.st = 0 with
    | some e => return some e.id
    | none => do
      let id := th.unf.foldl (fun m e => max m e.id) 0 + 1
      let tag := (← getSt).clock
      modThread t fun x => { x with
        unf := x.unf ++ [{ id, tag, word, pc, st := 0, opv, dst := [], hand := x.handler }] }
      return some id

/-- MATRIX_QUEUE_ISSUE (R179, R363): the latched command of a complete phase issues, waits, or raises a cause for every
thread of the set. -/
def execMatrixQueueIssue (core slot cv qtr : Nat) (s : State) : Host.Outcome State Fault Refusal := run (do
  match (s.team? core slot).bind (·.cvInst? cv qtr) with
  | none => return
  | some x =>
    match x.op with
    | none => return
    | some (word, opv) =>
      if !x.full then return
      match mCommand word opv with
      | none => return
      | some m => do
        let pc := (((x.opThreads.head?.bind s.thread?).bind fun t => t.unf.find? fun e => e.word = word).map Entry.pc).getD 0
        match ← (enterQueue (s.eng core slot) x.qtr word opv x.signers m).run with
        | .ok _ => do
          cvEnd core slot cv qtr
          for t in x.opThreads do
            match (s.thread? t).bind fun th => th.unf.find? fun e => e.word = word && e.st = 0 with
            | some e => finishEntry t e.id []
            | none => pure ()
        | .error (.cause c sub fa) => do
          cvEnd core slot cv qtr
          for t in x.signers do
            match ← signerEntry t word pc opv with
            | some id => settleEntry t id (.error (.cause c sub fa))
            | none => pure ()
        | .error _ => return) s

/-! ### Signing (R362) -/

/-- Sign a collective engine operation; the thread then waits in CVW. A register that is not of kind quarter or qrole
raises CONV. A re-injected entry whose signature still counts waits again. -/
def performSign (cv : Nat) (t : ThreadId) (e : Entry) : W (Except Stop Unit) := do
  let s ← getSt
  match s.thread? t with
  | none => return .ok ()
  | some th =>
    match (s.team? t.core th.slot).bind (·.cvInst? cv t.qtr) with
    | none => return .error (.cause .conv 0 0)
    | some x =>
      if x.kind < 3 then return .error (.cause .conv 0 0)
      else if x.opThreads.contains t && x.op = some (e.word, e.opv) then
        modThread t fun x => { x with wait := .cvw cv, resume := .ready }
        return .ok ()
      else if ← cvSign th cv (.op e.word e.opv) then return .ok ()
      else return .error (.cause .conv 0 0)

def attemptSign (cv : Nat) (t : ThreadId) (id : Nat) : W Unit := do
  match ((← getSt).thread? t).bind (·.entry? id) with
  | none => return
  | some e =>
    match ← performSign cv t e with
    | .ok _ => modEntry t id fun e => { e with parks := true }
    | .error x => settleEntry t id (.error x)

/-- Issue a collective matrix command: every acting thread signs. -/
def issueMatrix (i : Instr) : W Unit := do
  match mArgs i with
  | none => return
  | some a => do
    let r ← checkIssue i
    let s ← getSt
    let es := r.act.map fun x => (x.1.tid, newEntry s i x.1 (captureE i s x.1 x.2))
    for e in es do modThread e.1 fun x => { x with unf := x.unf ++ [e.2] }
    endIssue i r fun _ => s.cur.pc + 8
    for e in es do attemptSign a.cv e.1 e.2.id

def execMma (w : EWord) (s : State) : Host.Outcome State Fault Refusal := run (issueMatrix (.mma w)) s
def execMmas (w : EWord) (s : State) : Host.Outcome State Fault Refusal := run (issueMatrix (.mmas w)) s
def execAccz (w : EWord) (s : State) : Host.Outcome State Fault Refusal := run (issueMatrix (.accz w)) s
def execAccld (w : EWord) (s : State) : Host.Outcome State Fault Refusal := run (issueMatrix (.accld w)) s
def execAccst (w : EWord) (s : State) : Host.Outcome State Fault Refusal := run (issueMatrix (.accst w)) s
def execAccrow (w : EWord) (s : State) : Host.Outcome State Fault Refusal := run (issueMatrix (.accrow w)) s
def execAccrmax (w : EWord) (s : State) : Host.Outcome State Fault Refusal := run (issueMatrix (.accrmax w)) s
def execSpcommit (w : EWord) (s : State) : Host.Outcome State Fault Refusal := run (issueMatrix (.spcommit w)) s
def execSpdrop (w : EWord) (s : State) : Host.Outcome State Fault Refusal := run (issueMatrix (.spdrop w)) s

/-! ### Start and retirement (R364, R365) -/

/-- An accepted ACCRD of the team expects version `v` of the tile and has not read it (R376). -/
def State.unreadAccrd (s : State) (core qtr slot t : Nat) (v : BitVec 16) : Bool :=
  s.threads.any fun th => th.tid.core = core && th.tid.qtr = qtr && th.slot = slot && th.unf.any fun e =>
    e.st = 0 && e.aux = [1] && (match e.instr? with
      | some (.accrd w) => w.o2.toNat = t && BitVec.ofNat 16 (e.w 0) = v
      | _ => false)

/-- The commands of a quarter that are ahead of another in the queue. -/
def Quarter.ahead (q : Quarter) (idx : Nat) : List MCmd := q.mq.takeWhile fun c => c.idx ≠ idx

/-- All conditions of R364 but the order among commands that may start. -/
def State.mayStart (s : State) (core qtr : Nat) (c : MCmd) : Bool :=
  let q := s.quarter core qtr
  match c.cmd? with
  | none => false
  | some m =>
    let a := m.args
    let running := q.mq.filter MCmd.running
    let trip := (c.slot, a.t, m.tok)
    let sameShadow := fun (y : MCmd) => (y.cmd?.map fun n =>
      n.args.usesShadow && (y.slot, n.args.t, n.tok) = trip).getD false
    !c.running
      && a.tiles.all (fun t => (q.tile t).ver = m.v && !q.busyTile t && !s.unreadAccrd core qtr c.slot t (q.tile t).ver)
      && (!a.usesShadow || ((q.ahead c.idx).all (fun y => !sameShadow y || y.running) && !running.any sameShadow))
      && (!a.onArray || !(running.any fun y => (y.cmd?.map fun n => n.args.onArray).getD false))

/-- A queued command that no later change of its team can keep from starting: its versions have come, and no command of
its shadow that has not started is ahead of it (R361, R364). -/
def State.willStart (s : State) (core qtr : Nat) (c : MCmd) : Bool :=
  let q := s.quarter core qtr
  match c.cmd? with
  | none => false
  | some m =>
    let same := fun (y : MCmd) => (y.cmd?.map fun n =>
      n.args.usesShadow && (y.slot, n.args.t, n.tok) = (c.slot, m.args.t, m.tok)).getD false
    m.args.tiles.all (fun t => (q.tile t).ver = m.v)
      && (!m.args.usesShadow || (q.ahead c.idx).all fun y => !same y || y.running)

/-- Tiles of a command with the version that it expects of each. -/
def MCmd.expects (c : MCmd) : List (Nat × BitVec 16) :=
  match c.cmd? with
  | some m => m.args.tiles.map fun t => (t, m.v)
  | none => []

/-- Versions that tiles have or that the commands bring, in `fuel` rounds. -/
def comingVers (fuel : Nat) (cs : List MCmd) (have_ : List (Nat × BitVec 16)) : List (Nat × BitVec 16) :=
  match fuel with
  | 0 => have_
  | fuel + 1 =>
    comingVers fuel cs (have_ ++ (cs.filter fun c => c.running || c.expects.all have_.contains).flatMap fun c =>
      c.expects.map fun x => (x.1, x.2 + 1))

/-- Queued commands whose version no command of the queue will bring; `vers` are the tiles' versions (R361). -/
def stranded (vers : List (Nat × BitVec 16)) (cs : List MCmd) : List MCmd :=
  let have_ := comingVers cs.length cs vers
  cs.filter fun c => !c.running && !c.expects.all have_.contains

/-- At a watchdog fault the launch's commands whose version never comes give up their queue entries (R361; log 64). -/
def dropStranded (lslot : Nat) : W Unit := do
  for tm in (← getSt).teams do
    if tm.lslot = lslot then
      for qtr in List.range 4 do
        let s ← getSt
        let q := s.quarter tm.core qtr
        let gone := (stranded ((List.range 32).map fun t => (t, (q.tile t).ver)) (q.mq.filter fun c => c.slot = tm.slot)).map
          MCmd.idx
        if !gone.isEmpty then
          modQuarter tm.core qtr fun q => { q with mq := q.mq.filter fun c => !gone.contains c.idx }
          retireRanges (s.eng tm.core tm.slot) ((s.core tm.core).ranges.filter fun r =>
            r.eng = 2 && r.owner = tm.slot && (gone.map (8 * qtr + ·)).contains r.tag)

/-- Range entries that a recorded command takes (Table 10.5). -/
def MCmd.rangeCount (c : MCmd) : Nat :=
  match c.cmd? with
  | some m => (matrixRanges (chipNode 0) m c.maps 0).length
  | none => 0

/-- The oldest command that may start. -/
def State.nextStart (s : State) (core qtr : Nat) : Option MCmd :=
  (s.quarter core qtr).mq.find? fun c => s.mayStart core qtr c

/-- MATRIX_START (R364). -/
def execMatrixStart (core qtr idx : Nat) (s : State) : Host.Outcome State Fault Refusal := run (do
  match s.nextStart core qtr with
  | some c =>
    if c.idx = idx then
      modQuarter core qtr fun q => { q with mq := q.mq.map fun y => if y.idx = idx then { y with running := true } else y }
  | none => return) s

/-- MATRIX_RETIRE (R365). -/
def execMatrixRetire (core qtr idx : Nat) (s : State) : Host.Outcome State Fault Refusal := run (do
  match (s.quarter core qtr).mq.find? fun c => c.idx = idx && c.running with
  | none => return
  | some c =>
    match c.cmd? with
    | none => return
    | some m => do
      let x := s.eng core c.slot
      match ← (runCommand x qtr c m).run with
      -- PROT goes to the threads that signed the command (DESIGN CHOICE, log 59)
      | .error (.cause k _ _) => for t in c.threads do raiseFor t k
      | _ => pure ()
      modQuarter core qtr fun q => { q with mq := q.mq.filter fun y => y.idx ≠ idx }
      retireRanges x ((s.core core).ranges.filter fun r => r.eng = 2 && r.tag = 8 * qtr + idx && r.owner = c.slot)) s

/-! ### ACCRD, ACCVER, OMAP -/

/-- ACCRD (R376): accepted once, then it reads when the version matches and nothing runs on the tile. -/
def performAccrd (w : EWord) (t : ThreadId) (e : Entry) : P (List Word) := do
  let s ← getSt
  match s.thread? t with
  | none => return []
  | some th => do
    let q := s.quarter t.core t.qtr
    let tl := q.tile w.o2.toNat
    if e.aux ≠ [1] then
      if e.w 1 ≥ 256 || tl.owner ≠ some th.slot then raiseP .prot
      modEntry t e.id fun e => { e with aux := [1] }
    if tl.ver ≠ BitVec.ofNat 16 (e.w 0) || q.busyTile tl.idx then throw .wait
    if tl.poison.contains (e.w 1) then raiseP .ecc
    return [(tl.data[e.w 1]?).getD 0]

def execAccrd (w : EWord) (s : State) : Host.Outcome State Fault Refusal :=
  run (issueEntries (.accrd w) false (captureE (.accrd w)) (performAccrd w)) s

/-- ACCRD_READ (R376): the oldest accepted ACCRD of the thread that can read does. -/
def execAccrdRead (t : ThreadId) (s : State) : Host.Outcome State Fault Refusal := run (do
  match s.thread? t with
  | none => return
  | some th =>
    for e in th.unf do
      match e.instr? with
      | some (.accrd w) => if e.st = 0 && !e.queued then attempt (performAccrd w) t e.id
      | _ => pure ()) s

/-- ACCVER (R377). -/
def accverWord (q : Quarter) (slot t : Nat) : Nat :=
  let tl := q.tile t
  (if tl.owner = some slot then 2 ^ 31 else 0) + (if tl.owner.isNone then 2 ^ 30 else 0) + q.queuedOn t * 2 ^ 16
    + tl.ver.toNat

def execAccver (w : EWord) (s : State) : Host.Outcome State Fault Refusal :=
  run (issueVec (.accver w) fun s th _ =>
    res1 .b32 (accverWord (s.quarter th.tid.core th.tid.qtr) th.slot w.o2.toNat)) s

/-- OMAP (R381). -/
def performOmap (w : EWord) (t : ThreadId) (e : Entry) : P (List Word) := do
  let s ← getSt
  match s.thread? t with
  | none => return []
  | some th => do
    let fa := e.d 0
    if fa.toNat % 64 ≠ 0 then raiseP .align fa
    if !canonical fa.toNat then raiseP .prot fa
    let (bs, p) ← engRead (s.eng t.core th.slot) e.retry fa.toNat 64
    if p then raiseP .ecc fa
    let v := leValue bs
    if !omapOk v (parseOMap v) (s.feature 6) then raiseP .prot fa
    modTeam t.core th.slot fun tm => { tm with omaps := tm.omaps.set w.o1.toNat (some (parseOMap v)) }
    return []

def execOmap (w : EWord) (s : State) : Host.Outcome State Fault Refusal :=
  run (issueActing (.omap w) (captureE (.omap w)) (performOmap w)) s

end Sys2Proof.Machine
end

