-- ==== Sys2Proof/Machine/Kv.lean ====
section
/-!
DEFINITION. The KV walker (spec 12): spaces, tables, append and commit, KV packets, scores, compaction, node building and
page pools; and the transfer and retirement steps of the copy engine, which runs its commands.
-/
namespace Sys2Proof.Machine

/-! ### Spaces (R416-R418): fields of the space record's first word -/

def spDom (w : Nat) : Nat := fld w 20 3
/-- Positions per page P. -/
def spP (w : Nat) : Nat := 16 * 2 ^ fld w 18 2
def spFmt (w : Nat) : Nat := fld w 16 2
/-- Head dimension. -/
def spHd (w : Nat) : Nat := 64 * (fld w 14 2 + 1)
def spHeads (w : Nat) : Nat := fld w 8 6 + 1
def spLayers (w : Nat) : Nat := fld w 0 8 + 1
/-- LH of R416. -/
def spLh (w : Nat) : Nat := spLayers w * spHeads w
/-- Mantissa width of a BFP format. -/
def spMw (w : Nat) : Nat := if spFmt w = 0 then 8 else 4
/-- Exponent bytes of a BFP row, padded to 16. -/
def spExpBytes (w : Nat) : Nat := 16 * ceilDiv (spHd w / 32) 16
/-- Row size RB (Table 12.2). -/
def spRb (w : Nat) : Nat := if spFmt w < 2 then spExpBytes w + 4 * spMw w * (spHd w / 32) else 2 * spHd w

/-- KVFAULT with a code of Table 12.8 at a failing entry or record. -/
def kvFail {α : Type} (code va : Nat) : P α := raiseP .kvfault (BitVec.ofNat 64 va) code

/-- Read `n` bytes of a node, a record or a root at its coherence point (R424); poison raises ECC. -/
def kvRead (x : Eng) (retry va n : Nat) : P Nat := do
  let (bs, poisoned) ← engRead x retry va n
  if poisoned then raiseP .ecc (BitVec.ofNat 64 va)
  return leValue bs

/-! ### The walker cache (R425) -/

/-- What a die's walker cache holds of a span; none unless all of it is there. -/
def Die.cached (d : Die) (pa n : Nat) : Option Nat :=
  let ws := (List.range (n / 8)).map fun k => (d.walk.find? fun y => y.addr = pa + 8 * k).map WalkWord.val
  if ws.all Option.isSome then some ((ws.map fun y => y.getD 0).zipIdx.foldl (fun acc y => acc + y.1 * 2 ^ (64 * y.2)) 0)
  else none

/-- Every die's walker cache gives up what it holds of the lines of a span (R425). -/
def walkDrop (pa n : Nat) : W Unit :=
  upd fun s => { s with
    dies := s.dies.map fun d => { d with
      walk := d.walk.filter fun y => !(pa / 128 ≤ y.addr / 128 && y.addr / 128 ≤ (pa + n - 1) / 128) } }

/-- The walker caches give up what they hold of a virtual range: what they read there, and what a TLB entry maps there. -/
def walkDropRange (pasid lo n : Nat) : W Unit :=
  upd fun s => { s with
    dies := s.dies.map fun d => { d with
      walk := d.walk.filter fun y =>
        let vas := if y.pasid = pasid then y.va :: s.vasOf d.id pasid y.addr else s.vasOf d.id pasid y.addr
        vas.all fun va => !(lo < va + 8 && va < lo + n) } }

/-- Read a root, a directory node, a head map or a page-list node through the die's walker cache (R425). A held entry
serves the read, unless the device has replaced it meanwhile; an entry read at its coherence point is held if `hold` allows
it and the device so chooses. -/
def kvWalk (x : Eng) (retry va n : Nat) (hold : Nat → Bool) : P Nat := do
  let die := dieOf x.core
  if !canonical va then raiseP .prot (BitVec.ofNat 64 va)
  let pa ← translate (.die die) x.pasid (BitVec.ofNat 64 va) .read retry x.early
  match ((← getSt).die die).cached pa n with
  | some v =>
    if (← choose 2) = 0 then return v
    modDie die fun d => { d with walk := d.walk.filter fun y => !(pa ≤ y.addr && y.addr < pa + n) }
  | none => pure ()
  let v ← kvRead x retry va n
  if hold v && (← choose 2) = 1 then
    modDie die fun d => { d with
      walk := (d.walk.filter fun y => !(pa ≤ y.addr && y.addr < pa + n))
        ++ (List.range (n / 8)).map fun k =>
          { addr := pa + 8 * k, val := fld v (64 * k) 64, pasid := x.pasid, va := va + 8 * k } }
  return v

/-- A pointer that is not absent. -/
def kvPresent (p : Nat) : Bool := p ≠ 0
/-- A page entry that is neither absent nor away. -/
def kvPaged (e : Nat) : Bool := fld e 62 2 ≠ 0 && fld e 62 2 ≠ 3

/-- A 64-byte object that PROT guards. -/
def kvObject (x : Eng) (retry va : Nat) : P Nat := do
  if va % 64 ≠ 0 || !canonical va then raiseP .prot (BitVec.ofNat 64 va)
  kvRead x retry va 64

/-- First word of a valid space record (R418). -/
def readSpace (x : Eng) (retry va : Nat) : P Nat := do
  let v ← kvObject x retry va
  let w := fld v 0 32
  if fld w 23 9 ≠ 0 || fld v 32 32 ≠ 0 || fld v 128 384 ≠ 0 || fld w 18 2 = 3 || 2 * spP w * spRb w > 16384 then
    raiseP .prot (BitVec.ofNat 64 va)
  return w

/-- A version root (R419). -/
structure KvRoot where
  version : Nat
  dir     : Nat
  space   : Nat
deriving DecidableEq, Repr

def readRoot (x : Eng) (retry va : Nat) : P KvRoot := do
  if va % 64 ≠ 0 then raiseP .prot (BitVec.ofNat 64 va)
  let v ← kvWalk x retry va 64 fun v => kvPresent (fld v 64 64) && kvPresent (fld v 128 64)
  if fld v 32 32 ≠ 0 || fld v 192 320 ≠ 0 then raiseP .prot (BitVec.ofNat 64 va)
  return { version := fld v 0 32, dir := fld v 64 64, space := fld v 128 64 }

/-- A walking thread stands in a section of the space's domain (R427). -/
def needSection (th : Thread) (w : Nat) : P Unit := do
  if (th.depth[spDom w]?).getD 0 = 0 then raiseP .sectionC

/-! ### Walks (R420-R422) -/

/-- A pointer read from `at_`: absent when 0, malformed when misaligned or not canonical. -/
def kvPointer (p align absent at_ : Nat) : P Nat := do
  if p = 0 then kvFail absent at_
  if p % align ≠ 0 || !canonical p then kvFail 6 at_
  return p

/-- Address of the record of sequence `q`. -/
def walkDir (x : Eng) (retry dir q : Nat) : P Nat := do
  if dir % 8192 ≠ 0 || !canonical dir then kvFail 6 dir
  let a := dir + 8 * (q / 1024)
  let leaf ← kvPointer (← kvWalk x retry a 8 kvPresent) 8192 2 a
  let b := leaf + 8 * (q % 1024)
  kvPointer (← kvWalk x retry b 8 kvPresent) 64 2 b

/-- A sequence record (Table 12.3). -/
structure KvSeq where
  va    : Nat
  len   : Nat
  scap  : Nat
  score : Nat
  hmap  : Nat
  marks : Nat
deriving DecidableEq, Repr

/-- Read a record, LEN and MARKS together, with an acquire at dev scope (R424). -/
def readSeq (x : Eng) (retry va : Nat) : P KvSeq := do
  let v ← kvRead x retry va 64
  acquireAct x.core .dev
  let r : KvSeq := { va, len := fld v 0 23, scap := fld v 32 32, score := fld v 64 64, hmap := fld v 128 64
                     marks := fld v 256 256 }
  if fld v 23 9 ≠ 0 || fld v 192 64 ≠ 0 || r.len > 2 ^ 22 || r.score % 4 ≠ 0 || r.hmap % 8 ≠ 0
      || !canonical r.score || !canonical r.hmap then kvFail 6 va
  return r

/-- A page entry that names a readable page: its address, whether its tier is host, and where the entry stands. -/
structure KvPage where
  va    : Nat
  host  : Bool
  entry : Nat
deriving DecidableEq, Repr

/-- The page entry of page `page` of (layer, head): a page, or an away entry with its SWTAG (R422). -/
def pageEntry (x : Eng) (retry w : Nat) (r : KvSeq) (layer head page : Nat) : P (Except (Nat × Nat) KvPage) := do
  let a := r.hmap + 8 * (layer * spHeads w + head)
  let e ← kvWalk x retry a 8 kvPresent
  if e = 0 then kvFail 3 a
  let base := e - e % 2
  if base % 4096 ≠ 0 || !canonical base then kvFail 6 a
  let leaf ← if e % 2 = 1 then do
      let b := base + 8 * (page / 512)
      kvPointer (← kvWalk x retry b 8 kvPresent) 4096 3 b
    else if page ≥ 512 then kvFail 3 a
    else pure base
  let c := leaf + 8 * (page % 512)
  let v ← kvWalk x retry c 8 kvPaged
  let st := fld v 62 2
  if st = 0 then kvFail 3 c
  if fld v 57 5 ≠ 0 then kvFail 6 c
  if st = 3 then return .error (c, fld v 0 14)
  if fld v 0 14 ≠ 0 then kvFail 6 c
  if st = 2 && !(← getSt).feature 0 then kvFail 4 c
  let lo := fld v 14 43 * 2 ^ 14
  return .ok { va := if fld v 56 1 = 1 then lo + 127 * 2 ^ 57 else lo, host := st = 2, entry := c }

/-- The bytes of a span lie in the tier that the page entry gives. -/
def needTier (x : Eng) (pg : KvPage) (va n : Nat) (i : Intent) (retry : Nat) : P Unit := do
  for p in pieces (n / 4096 + 2) va n do
    match (← getSt).trans (.die (dieOf x.core)) x.pasid p.1 i with
    | .vault => kvFail 6 pg.entry
    | .ok pa => if isHost pa ≠ pg.host || (!pg.host && !isDevice pa) then kvFail 6 pg.entry
    | _ => do
      let _ ← translate (.die (dieOf x.core)) x.pasid (BitVec.ofNat 64 p.1) i retry x.early

/-- Address of the row of a position: K row i at i × RB, V row i at (P + i) × RB (R417). -/
def rowVa (w : Nat) (pg : KvPage) (p : Nat) (v : Bool) : Nat :=
  pg.va + (p % spP w + if v then spP w else 0) * spRb w

/-- A word of a row as a walker on the core's die reads it: one that a KVAPP of another die has written may still read as it
was (R434), until the device shows the new value once. -/
def rowWord (core a : Nat) : W (List Byte) := do
  let bs ← readBytes a 4
  match (← getSt).lag.find? fun y => y.addr = a && dieOf y.core ≠ dieOf core && leBytes 4 y.new.toNat = bs with
  | none => return bs
  | some y =>
    if (← choose 2) = 1 then return leBytes 4 y.old.toNat
    settleLag fun z => z.addr = a
    return bs

def rowWords (core a n : Nat) : W (List Byte) := do
  match n with
  | 0 => return []
  | n + 1 => do
    let bs ← rowWord core a
    return bs ++ (← rowWords core (a + 4) n)

/-- A row: its bytes and the offsets of its poisoned words. -/
def readRow (x : Eng) (retry w : Nat) (pg : KvPage) (p : Nat) (v : Bool) : P (List Byte × List Nat) := do
  let va := rowVa w pg p v
  needTier x pg va (spRb w) .read retry
  let ps ← engPieces x retry va (spRb w) false
  let mut bs : List Byte := []
  let mut bad : List Nat := []
  for q in ps do
    for k in List.range (q.2 / 4) do
      if ← isPoisoned (q.1 + 4 * k) 4 then bad := bad ++ [bs.length + 4 * k]
    bs := bs ++ (← rowWords x.core q.1 (q.2 / 4))
  return (bs, bad)

/-- Exact values of a row's elements (R436), each with its poison. -/
def rowVals (w : Nat) (bs : List Byte) (bad : List Nat) : List (FVal × Bool) :=
  let at_ := fun k => ((bs[k]?).getD 0).toNat
  (List.range (spHd w)).map fun j =>
    if spFmt w < 2 then
      let mw := spMw w
      let run := spExpBytes w + 4 * mw * (j / 32)
      let v := leValue ((bs.drop run).take (4 * mw))
      (blockVal (at_ (j / 32)) (sgn mw (v / 2 ^ (mw * (j % 32)))) mw,
        bad.any fun b => b = j / 32 / 4 * 4 || (run ≤ b && b < run + 4 * mw))
    else
      let f := if spFmt w = 2 then Fmt.f16 else Fmt.bf16
      (f.read (at_ (2 * j) + 256 * at_ (2 * j + 1)), bad.any fun b => b = 2 * j / 4 * 4)

/-- Convert(source) of R431: a row's bytes from head-dimension f32 values. -/
def convertRow (w : Nat) (vals : List Nat) : List Byte :=
  if spFmt w < 2 then
    let mw := spMw w
    let blocks := (List.range (spHd w / 32)).map fun k =>
      quantise (((vals.drop (32 * k)).take 32).map Fmt.f32.read) mw 254
    let es := blocks.map fun b => BitVec.ofNat 8 b.1
    es ++ List.replicate (spExpBytes w - es.length) 0 ++ blocks.flatMap fun b =>
      leBytes (4 * mw) (b.2.zipIdx.foldl (fun acc m => acc + low mw m.1 * 2 ^ (mw * m.2)) 0)
  else
    let f := if spFmt w = 2 then Fmt.f16 else Fmt.bf16
    vals.flatMap fun v => leBytes 2 (convVal f .rne false (Fmt.f32.read v)).val

/-- Write at the coherence points, the issuing core's own copies of the words given up first. -/
def kvWrites (x : Eng) (retry : Nat) (ws : List EngWrite) : P Unit := do
  let mut out : List (List (Nat × Nat) × EngWrite) := []
  for y in ws do
    out := out ++ [(← engPieces x retry y.va y.bytes.length true, y)]
  asCore x.core (do for o in out do storePieces o.1 o.2.bytes o.2.poison)

/-- Words of spans, with their values. -/
def wordsIn (ps : List (Nat × Nat)) : W (List (Nat × Word)) := do
  let s ← getSt
  return ps.flatMap fun p => (List.range (p.2 / 4)).map fun k =>
    (p.1 + 4 * k, BitVec.ofNat 32 (leValue ((List.range 4).map fun j => s.byte (p.1 + 4 * k + j))))

/-- Write the rows of a KVAPP for the sequence whose record stands at `seq`. Other dies see them at once or later, as the
device chooses (R434; log 63). -/
def writeRows (x : Eng) (retry seq : Nat) (ws : List EngWrite) : P Unit := do
  let mut ps : List (Nat × Nat) := []
  for y in ws do ps := ps ++ (← engPieces x retry y.va y.bytes.length true)
  let old ← wordsIn ps
  kvWrites x retry ws
  if (← choose 2) = 1 then
    let new ← wordsIn ps
    let lag : List LagWord := ((old.zip new).filter fun y => y.1.2 ≠ y.2.2).map fun y =>
      { addr := y.1.1, old := y.1.2, new := y.2.2, core := x.core, seq }
    upd fun s => { s with lag := (s.lag.filter fun z => !lag.any fun y => y.addr = z.addr) ++ lag }

/-! ### Away entries and the fault queue (R440, R441) -/

def State.kfqOn (s : State) : Bool := flag s.kfqbase.toNat 0

/-- The away entry and tag of a KVAPP that waits for service. -/
def Entry.appendWait (e : Entry) : Option (Nat × Nat) :=
  match e.instr?, e.aux with
  | some (.kvapp _), [a, g] => if e.st = 0 then some (a, g) else none
  | _, _ => none

/-- Tags of unanswered records that wait on an away entry of an address space. -/
def State.openTag (s : State) (pasid entry : Nat) : Option Nat :=
  let ofCopy := fun (c : CopyCmd) => match c.job with
    | .kv { stop := some a, tag := some t, .. } => if a.entry = entry then some t else none
    | .kvcopy { stop := some a, tag := some t, .. } => if a.entry = entry then some t else none
    | _ => none
  let live := s.cores.findSome? fun c => (c.copy.filter fun k => (s.eng c.id k.slot).pasid = pasid).findSome? ofCopy
  let saved := s.images.findSome? fun i => if s.pasidOf i.lslot = pasid then i.copies.findSome? ofCopy else none
  let sync := (s.threads ++ s.images.flatMap Image.threads).findSome? fun t => if s.pasidOf t.lslot = pasid then
      t.unf.findSome? fun e => (e.appendWait.filter fun x => x.1 = entry).map (·.2)
    else none
  (live <|> saved) <|> sync

/-- Place a fault record, or find the one that already stands for the entry; none while the ring is full. -/
def placeRecord (pasid : Nat) (a : Away) : P (Option Nat) := do
  let s ← getSt
  match s.openTag pasid a.entry with
  | some t => return some t
  | none => do
    let size := 2 ^ (s.kfqctl.toNat % 16)
    if (s.kfqtail - s.kfqhead).toNat ≥ size then return none
    let tag := s.kfqtail.toNat
    let pa := (s.kfqbase.toNat / 2 ^ 12 % 2 ^ 28 * 2 ^ 12 + 32 * (tag % size)) % 2 ^ 40
    takeBack pa 32 0
    needSpan pa 32 true 0
    storeAt pa (leBytes 4 tag ++ leBytes 4 (a.seq % 2 ^ 20) ++ leBytes 4 (a.head * 2 ^ 8 + a.layer) ++ leBytes 4 a.page
      ++ leBytes 8 a.entry ++ leBytes 4 pasid ++ leBytes 4 a.swtag)
    upd fun s => { s with kfqtail := s.kfqtail + 1 }
    msix 66
    return some tag

/-! ### Append and commit (R430-R432) -/

/-- A sequence operand with bits above [19:0] raises PROT (R450). -/
def needSeq (q : Nat) : P Unit := do
  if q ≥ 2 ^ 20 then raiseP .prot

/-- The root, space and section of a walking instruction. -/
def walkHead (x : Eng) (th : Thread) (retry root : Nat) : P (KvRoot × Nat) := do
  let r ← readRoot x retry root
  let w ← readSpace x retry r.space
  needSection th w
  return (r, w)

/-- A span lies in the team's allocation. -/
def needInside (x : Eng) (off n : Nat) : P Unit := do
  if off + n > x.size then raiseP .prot (BitVec.ofNat 64 off)

/-- One indivisible RMW of a record at its home: physical address, and old value of its 64 bytes. -/
def recordRmw (x : Eng) (retry va : Nat) : P (Nat × Nat) := do
  let ps ← engPieces x retry va 64 true
  let pa := (ps.head?.map (·.1)).getD 0
  if ← isPoisoned pa 64 then raiseP .ecc (BitVec.ofNat 64 va)
  return (pa, ← readNat pa 64)

/-- An away entry that a KVAPP meets: its record is placed and the thread waits in ENG for service (R431). -/
def appendAway (x : Eng) (t : ThreadId) (e : Entry) (a : Away) : P (List Word) := do
  match e.aux with
  | [_, _] => throw .eng
  | _ => do
    if !(← getSt).kfqOn then kvFail 5 a.entry
    match ← placeRecord x.pasid a with
    | some tag => modEntry t e.id fun y => { y with aux := [a.entry, tag] }
    | none => pure ()
    throw .eng

/-- A row converted from the f32 values at a scratchpad offset. -/
def sourceRow (x : Eng) (w off : Nat) : P (List Byte) := do
  let (bs, bad) ← spRead x off (4 * spHd w)
  if bad then raiseP .ecc (BitVec.ofNat 64 off)
  return convertRow w ((List.range (spHd w)).map fun j => leValue ((bs.drop (4 * j)).take 4))

/-- KVAPP (R431). Operands r, q, x, o. -/
def performKvapp (t : ThreadId) (th : Thread) (e : Entry) : P (List Word) := do
  let x := (← getSt).eng t.core th.slot
  let q := e.w 2
  let lx := e.w 3
  let o := e.w 4
  let layer := lx % 256
  let head := lx / 256 % 64
  if o % 4 ≠ 0 then raiseP .align (BitVec.ofNat 64 o)
  needSeq q
  if lx ≥ 2 ^ 14 then raiseP .prot
  performedBefore t e.id .die (BitVec.ofNat 64 o)
  let (root, w) ← walkHead x th e.retry (e.d 0).toNat
  if layer ≥ spLayers w || head ≥ spHeads w then raiseP .prot
  let n := 4 * spHd w
  needInside x o (2 * n)
  let r ← readSeq x e.retry (← walkDir x e.retry root.dir q)
  let l := r.len
  if l = 2 ^ 22 then return [0xFFFFFFFF]
  match ← pageEntry x e.retry w r layer head (l / spP w) with
  | .error (entry, swtag) => appendAway x t e { entry, seq := q, layer, head, page := l / spP w, swtag }
  | .ok pg => do
    let k ← sourceRow x w o
    let v ← sourceRow x w (o + n)
    for b in [false, true] do needTier x pg (rowVa w pg l b) (spRb w) .write e.retry
    let (pa, old) ← recordRmw x e.retry r.va
    writeRows x e.retry pa [{ va := rowVa w pg l false, bytes := k }, { va := rowVa w pg l true, bytes := v }]
    releaseAct t.core .die (e.d 0)
    let a := pa + 0x20 + layer / 8
    asCore t.core (storeAt a (leBytes 1 (old / 2 ^ (256 + 8 * (layer / 8)) % 256 ||| 2 ^ (layer % 8))))
    return [BitVec.ofNat 32 l]

/-- SEQCMT and SEQABORT (R432). Operands r, q. -/
def performSeq (commit : Bool) (t : ThreadId) (th : Thread) (e : Entry) : P (List Word) := do
  let x := (← getSt).eng t.core th.slot
  needSeq (e.w 2)
  performedBefore t e.id .dev (e.d 0)
  let (root, _) ← walkHead x th e.retry (e.d 0).toNat
  let r ← readSeq x e.retry (← walkDir x e.retry root.dir (e.w 2))
  let (pa, old) ← recordRmw x e.retry r.va
  let len := fld old 0 23
  if commit then
    if len = 2 ^ 22 then return [0xFFFFFFFF]
    settleLag fun y => y.seq = pa
    asCore t.core (storeAt pa (leBytes 4 (fld old 23 9 * 2 ^ 23 + (len + 1))))
  asCore t.core (storeAt (pa + 0x20) (List.replicate 32 0))
  return [BitVec.ofNat 32 len]

/-! ### KV packets (R435-R442) -/

/-- The program's fields of a packet (Table 12.7). -/
structure Packet where
  root    : Nat
  version : Nat
  seq     : Nat
  cscope  : Nat
  w       : Nat
  split   : Bool
  sl      : Nat
  v       : Bool
  head    : Nat
  layer   : Nat
  p0      : Nat
  n       : Nat
  dst     : Nat
  comp    : Nat
  pitch   : Nat
  restart : Nat
  valid   : Bool
  vlen    : Nat
  srec    : Nat
deriving DecidableEq, Repr

def parsePacket (b : Nat) : Packet :=
  { root := fld b 0 64, version := fld b 64 32, seq := fld b 96 20, cscope := fld b 152 3, w := fld b 148 4
    split := flag b 147, sl := fld b 144 3, v := flag b 143, head := fld b 136 6, layer := fld b 128 8
    p0 := fld b 160 22, n := fld b 192 13, dst := fld b 224 32, comp := fld b 256 32, pitch := fld b 288 32
    restart := fld b 320 13, valid := flag b 383, vlen := fld b 352 23, srec := fld b 384 64 }

/-- Positions of a row block (R436). -/
def Packet.rowBlock (k : Packet) : Nat := if k.v then 32 else 16

/-- Shape of a tile of a head dimension (R436): its layout fields are those of a copy's shape. -/
def Packet.shape (k : Packet) (hd : Nat) : Shape :=
  let tk := if k.v then k.n else hd
  let trows := if k.v then hd else k.n
  { mw := 0, cscope := k.cscope, satf := false, tr := false, split := k.split, sg := 0, sfmt := 0, w := k.w, sl := k.sl
    fmt := 0, rows := trows, k := tk, tk, trows, rstride := 4 * tk, soff := 0, sstride := 0, spstride := k.pitch }

/-- Step 2 of R437, with the limits of R326 for a tile of the given head dimension. -/
def packetOk (b hd : Nat) (split : Bool) : Bool :=
  let k := parsePacket b
  fld b 116 12 = 0 && fld b 155 5 = 0 && fld b 142 1 = 0 && fld b 182 10 = 0 && fld b 205 19 = 0 && fld b 333 19 = 0
    && fld b 375 8 = 0 && fld b 456 24 = 0 && fld b 480 32 = 0
    && 1 ≤ k.n && k.n ≤ 4096 && 1 ≤ k.sl && k.sl ≤ 5 && shapeOk 0 (k.shape hd) && (!k.split || split)
    && k.restart < k.n && k.restart % k.rowBlock = 0 && (!k.valid || k.srec ≠ 0)

/-- Number of row blocks. -/
def Packet.blocks (k : Packet) : Nat := ceilDiv k.n k.rowBlock

/-- Counted bytes of row block u. -/
def Packet.blockCount (k : Packet) (h : Shape) (u : Nat) : Nat :=
  let parts := if h.split then 2 else 1
  if k.v then
    if h.sl ≤ 3 then
      let z := if h.sl = 1 then 4 else 2
      h.trows * (if u + 1 = k.blocks then h.rowBytes - 32 * z * u else 32 * z)
    else h.rt * h.blockBytes * parts
  else if h.sl ≤ 3 then min 16 (k.n - 16 * u) * h.rowBytes
  else h.kt * h.blockBytes * parts

/-- Counted bytes of the positions from row block u on. -/
def Packet.countFrom (k : Packet) (h : Shape) (u : Nat) : Nat :=
  ((List.range k.blocks).filter fun y => u ≤ y).foldl (fun acc y => acc + k.blockCount h y) 0

/-- First start (R438): SREC and VLEN are taken and written to the packet. -/
def firstStart (x : Eng) (retry o : Nat) (k : Packet) (dir : Nat) : P Unit := do
  let va ← walkDir x retry dir k.seq
  let r ← readSeq x retry va
  let vlen := r.len + if flag r.marks k.layer then 1 else 0
  spWrite x (o + 0x30) (leBytes 8 va) []
  spWrite x (o + 0x2C) (leBytes 4 (2 ^ 31 + vlen)) []

/-- A command of the walker ends with a code of Table 12.8, at a failing entry or record (R442, R447). -/
def endKv (core idx code : Nat) (fa : DWord) : W Unit :=
  modCopy core idx fun c =>
    let c := { c with ended := true, err := true, fa, wait := none, line := none }
    match c.job with
    | .kv a => { c with job := .kv { a with code, stop := none, tag := none } }
    | .kvcopy a => { c with job := .kvcopy { a with code, stop := none, tag := none } }
    | _ => c

/-- Write a report of the walker into the team's scratchpad; a protected mirror keeps its bytes (R498, log 59). -/
def spTry (x : Eng) (off : Nat) (bs : List Byte) : W Unit := do
  let _ ← (spWrite x off bs []).run

/-- A packet's RESTART names the first position of the block it stands before. -/
def writeRestart (x : Eng) (o : Nat) (pos : Nat) : W Unit := spTry x (o + 0x28) (leBytes 4 pos)

/-- Write RESTART of the packet that an entry runs. -/
def markRestart (core : Nat) (c : CopyCmd) : W Unit := do
  match c.job with
  | .kv a => do
    let x := (← getSt).eng core c.slot
    let (bs, _) ← spRead x a.pkt 64
    writeRestart x a.pkt (c.unit_ * (parsePacket (leValue bs)).rowBlock)
  | _ => return

/-- What a stop of the walker means for its command: a page or line wait, or its end with a code; a failed page request is
code 5 (R440, R442). -/
def kvStop (core : Nat) (c : CopyCmd) (st : Stop) : W Unit := do
  match st with
  | .page _ _ => do
    markRestart core c
    copyStop core c.idx st
  | .cause .kvfault code fa => endKv core c.idx code fa
  | .cause .ecc _ fa => endKv core c.idx 6 fa
  | .cause _ _ fa => endKv core c.idx 5 fa
  | _ => copyStop core c.idx st

/-- Accept KVLD (R437, R438). -/
def acceptKv (t : ThreadId) (th : Thread) (e : Entry) : P (List Word) := do
  let x := (← getSt).eng t.core th.slot
  let o := e.w 0
  let fo := BitVec.ofNat 64 o
  checkSpan x o 64 64
  let (bs, poisoned) ← spRead x o 64
  if poisoned then raiseP .ecc fo
  let b := leValue bs
  let k := parsePacket b
  let split := (← getSt).feature 6
  -- the limit of SPSTRIDE depends on the head dimension, which the space record gives
  if !packetOk b 1 split then raiseP .prot fo
  let root ← readRoot x e.retry k.root
  if root.version ≠ k.version then kvFail 1 k.root
  let w ← readSpace x e.retry root.space
  if k.layer ≥ spLayers w || k.head ≥ spHeads w || !packetOk b (spHd w) split then raiseP .prot fo
  needSection th w
  let h := k.shape (spHd w)
  checkSpan x k.dst h.span h.align
  checkSpan x k.comp 16 16
  let u := k.restart / k.rowBlock
  let n := k.countFrom h u
  let ranges := fun (idx : Nat) => ([
    { base := x.base + k.dst, len := h.span, owner := th.slot, eng := 0, spc := 1, dst := true, tag := idx },
    { base := x.base + o, len := 64, owner := th.slot, eng := 0, spc := 1, dst := false, tag := idx }] : List RangeEntry)
  checkRanges t.core th.slot (ranges 0)
  let _ ← armCheck x k.comp n fo
  let idx ← freeCopy t.core
  performedBefore t e.id (scopeOf k.cscope) fo
  let es := ranges idx
  registerRanges t.core th.slot es
  compArm x k.comp n fo
  let c : CopyCmd := { idx, slot := th.slot, tid := t, pc := e.pc, word := e.word, opv := e.opv
                       job := .kv { pkt := o, space := w, age := th.itemage, started := k.valid }
                       unit_ := u, left := n, rng := es }
  putCopy t.core c
  if !k.valid then
    match ← tryP (firstStart x 0 o k root.dir) with
    | .ok _ => modCopy t.core idx fun c => { c with job := .kv { pkt := o, space := w, age := th.itemage, started := true } }
    | .error st => kvStop t.core c st
  return []

/-- Rows of the positions of a row block: none for padding. An away entry stops the walker. -/
def blockRows (x : Eng) (retry w : Nat) (k : Packet) (r : KvSeq) (u : Nat) :
    P (Except Away (List (Option (List (FVal × Bool))))) := do
  let mut out : List (Option (List (FVal × Bool))) := []
  for i in List.range k.rowBlock do
    let pos := k.rowBlock * u + i
    let p := k.p0 + pos
    if pos ≥ k.n || p ≥ k.vlen then out := out ++ [none]
    else
      match ← pageEntry x retry w r k.layer k.head (p / spP w) with
      | .error (entry, swtag) =>
        return .error { entry, seq := k.seq, layer := k.layer, head := k.head, page := p / spP w, swtag }
      | .ok pg => do
        let (bs, bad) ← readRow x retry w pg p k.v
        out := out ++ [some (rowVals w bs bad)]
  return .ok out

/-- Value of element j of a row, +0 for padding. -/
def rowElem (row : Option (List (FVal × Bool))) (j : Nat) : FVal × Bool :=
  match row with
  | some xs => (xs[j]?).getD (.fin false 0 0, false)
  | none => (.fin false 0 0, false)

/-- What a row block writes: (offset, bytes) runs and the offsets of its poisoned words (R436, R439). -/
def packetWrites (k : Packet) (h : Shape) (u : Nat) (rows : List (Option (List (FVal × Bool)))) :
    List (Nat × List Byte) × List Nat :=
  let row := fun i => (rows[i]?).getD none
  if h.sl ≤ 3 then
    let z := if h.sl = 1 then 4 else 2
    let lines := if k.v
      then (List.range h.trows).map fun i =>
        (k.dst + i * h.pitch + 32 * z * u, (List.range (min 32 (k.n - 32 * u))).map fun j => rowElem (row j) i)
      else (List.range (min 16 (k.n - 16 * u))).map fun i =>
        (k.dst + (16 * u + i) * h.pitch, (List.range h.tk).map fun j => rowElem (row i) j)
    (lines.map fun y => (y.1, y.2.flatMap fun v => leBytes z (convVal (layoutFmt h.sl) .rne false v.1).val),
      lines.flatMap fun y => (y.2.zipIdx.filter fun v => v.1.2).map fun v => y.1 + z * v.2)
  else
    let tiles := if k.v
      then (List.range h.rt).map fun rt =>
        (rt * h.kt + u, (List.range 16).map fun i =>
          (rows.all Option.isNone, (List.range 32).map fun j => rowElem (row j) (16 * rt + i)))
      else (List.range h.kt).map fun kt =>
        (u * h.kt + kt, (List.range 16).map fun i =>
          ((row i).isNone, (List.range 32).map fun j => rowElem (row i) (32 * kt + j)))
    let runs := tiles.map fun y =>
      let at_ := fun part => k.dst + part * h.partBytes + y.1 * h.blockBytes
      let bad := (y.2.zipIdx.filter fun r => r.1.2.any fun v => v.2).flatMap fun r => blockWords h r.2
      ((blockTile h (y.2.map fun r => (r.1, r.2.map (·.1)))).zipIdx.map fun b => (at_ b.2, b.1),
        (List.range (if h.split then 2 else 1)).flatMap fun p => bad.map (at_ p + ·))
    (runs.flatMap (·.1), runs.flatMap (·.2))

/-- One step of a KV packet: the first start when it has not been made, or one row block (R439, R440). -/
def runPacket (core : Nat) (c : CopyCmd) (a : KvArgs) : W Unit := do
  let x := { (← getSt).eng core c.slot with early := c.early }
  let (bs, _) ← spRead x a.pkt 64
  let k := parsePacket (leValue bs)
  let resume := fun (c : CopyCmd) => { c with wait := none, line := none, retry := 0 }
  if !a.started then
    match ← (do
        let root ← readRoot x c.retry k.root
        firstStart x c.retry a.pkt k root.dir : P Unit).run with
    | .ok _ => modCopy core c.idx fun c => { resume c with job := .kv { a with started := true } }
    | .error st => kvStop core c st
  else
    let h := k.shape (spHd a.space)
    let r ← (do
      let va := k.srec
      let v ← kvRead x c.retry va 64
      let sq : KvSeq := { va, len := 0, scap := 0, score := 0, hmap := fld v 128 64, marks := 0 }
      blockRows x c.retry a.space k sq c.unit_ : P (Except Away (List (Option (List (FVal × Bool)))))).run
    match r with
    | .error st => kvStop core c st
    | .ok (.error aw) =>
      if (← getSt).kfqOn then
        markRestart core c
        modCopy core c.idx fun c => { resume c with job := .kv { a with stop := some aw, tag := none } }
      else endKv core c.idx 5 (BitVec.ofNat 64 aw.entry)
    | .ok (.ok rows) => do
      let (runs, bad) := packetWrites k h c.unit_ rows
      let out ← (do
        checkMirror x k.comp 16
        for y in runs do spWrite x y.1 y.2 []
        for b in bad do poisonAt (x.spa (b / 4 * 4)) 4 : P Unit).run
      match out with
      | .error st => kvStop core c st
      | .ok _ => do
        let n := k.blockCount h c.unit_
        let last := decide (c.unit_ + 1 ≥ k.blocks)
        if !last then compStep x k.comp n false none false
        modCopy core c.idx fun c => { resume c with
          unit_ := c.unit_ + 1, done := c.done + n, left := if last then c.left else c.left - n, ended := last }

/-- The thread that issued an ended packet, unless it has executed EXIT since (R442). -/
def State.issuerOf (s : State) (c : CopyCmd) (a : KvArgs) : Option Thread :=
  (s.thread? c.tid).filter fun th => !(th.idle || th.slot ≠ c.slot || th.itemage ≠ a.age
    || match th.wait with | .eng (.assign _) => true | _ => false)

/-- The KVLD of an ended packet stands in its thread's replay queue, before what the thread issued after it (R442). -/
def queueKvld (th : Thread) (c : CopyCmd) (a : KvArgs) : W Unit := do
  let id := th.unf.foldl (fun m e => max m e.id) 0 + 1
  let e : Entry := { id, tag := (← getSt).clock, hand := th.handler, word := c.word, pc := c.pc, st := 2
                     cause := some .kvfault, sub := a.code, fa := c.fa, opv := c.opv, dst := [], queued := true }
  modThread c.tid fun x => { x with unf := e :: x.unf }

/-- KVFAULT of an ended packet in its issuing thread: at once where it waits in WAIT or RNG, else at its next issue (R442). -/
def faultIssuer (th : Thread) (c : CopyCmd) : W Unit := do
  match th.wait with
  | .poll _ | .rng => raise c.tid .kvfault true c.pc
  | _ => modThread c.tid fun x => { x with kvDue := true }

/-- A cause in the threads of a team that stall in RNG on a range: the stalled access stands in the replay queue (R442,
R473). Answers the threads. -/
def faultStalled (core slot base len : Nat) (cause : Cause) (sub : Nat) (fa : DWord) : W (List ThreadId) := do
  let mut out : List ThreadId := []
  let on := fun (aux : List Nat) => ((List.range (aux.length / 2)).any fun k =>
    (aux[2 * k]?).getD 0 = base && (aux[2 * k + 1]?).getD 0 = len)
  for th in (← getSt).teamThreads core slot do
    if th.wait = .rng then
      match th.unf.find? fun e => e.st = 0 && !e.queued && on e.aux with
      | some e => do
        modEntry th.tid e.id fun e => { e with st := 2, cause := some cause, sub, fa, queued := true }
        raise th.tid cause true e.pc
        out := out ++ [th.tid]
      | none => pure ()
  return out

/-- Retirement of a packet, ended or complete (R439, R442). -/
def retirePacket (core : Nat) (c : CopyCmd) (a : KvArgs) : W Unit := do
  let x := (← getSt).eng core c.slot
  let (bs, _) ← spRead x a.pkt 64
  let k := parsePacket (leValue bs)
  if c.err then
    writeRestart x a.pkt (c.unit_ * k.rowBlock)
    spTry x (a.pkt + 0x38) (leBytes 4 a.code)
  compEnd x c.tid k.comp c.left true (if c.err then some c.fa else none)
  modCore core fun y => { y with copy := y.copy.filter fun z => z.idx ≠ c.idx }
  if c.err then
    let issuer := (← getSt).issuerOf c a
    match issuer with
    | some th => queueKvld th c a
    | none => pure ()
    let stalled ← match c.rng with
      | tile :: _ => faultStalled core c.slot tile.base tile.len .kvfault a.code c.fa
      | [] => pure []
    match issuer with
    | some th => if !stalled.contains c.tid then faultIssuer th c   -- else its stalled access has raised the cause
    | none => pure ()
  retireRanges x c.rng

/-! ### Scores and selection (R444, R445) -/

/-- SCOREADD. Operands r, q, p, v. -/
def performScoreadd (t : ThreadId) (th : Thread) (e : Entry) : P (List Word) := do
  let x := (← getSt).eng t.core th.slot
  needSeq (e.w 2)
  performedBefore t e.id .grp (e.d 0)
  let (root, _) ← walkHead x th e.retry (e.d 0).toNat
  let r ← readSeq x e.retry (← walkDir x e.retry root.dir (e.w 2))
  if r.score = 0 || e.w 3 ≥ r.scap then raiseP .prot (BitVec.ofNat 64 r.va)
  let va := BitVec.ofNat 64 (r.score + 4 * e.w 3)
  let pa ← translate (.core t.core) x.pasid va .write e.retry
  rangeCheck t.core th.slot 0 va.toNat 4 true va
  if !rmwExists 0 .f32 (if isHost pa then .host else .device) then raiseP .atype va
  contribute t.core { addr := pa, op := 0, ty := .f32, val := e.w 4 } va
  return []

/-- Rank of a score: −0 equals +0, and every NaN ranks below every number. -/
def scoreKey (b : Nat) : Int :=
  let mag : Nat := b % 2 ^ 31
  if mag > 0x7F800000 then -(2 ^ 32) else if b ≥ 2 ^ 31 then -(mag : Int) else (mag : Int)

/-- Insert a position into a ranking: higher score first, then lower position, for positions taken in rising order. -/
def rankInsert (x : Int × Nat) (xs : List (Int × Nat)) : List (Int × Nat) :=
  match xs with
  | [] => [x]
  | y :: ys => if x.1 > y.1 then x :: y :: ys else y :: rankInsert x ys

/-- The first `m` of the ranking of (score, position) pairs, in rising position order. -/
def topPositions (m : Nat) (xs : List (Int × Nat)) : List Nat :=
  sortNat (((xs.foldl (fun acc x => (rankInsert x acc).take m) []).map (·.2)))

/-- TOPK. Operands r, q, o. -/
def performTopk (t : ThreadId) (th : Thread) (e : Entry) : P (List Word) := do
  let x := (← getSt).eng t.core th.slot
  needSeq (e.w 2)
  let o := e.w 3
  performedBefore t e.id .grp (e.d 0)
  if o % 16 ≠ 0 then raiseP .prot (BitVec.ofNat 64 o)
  needInside x o 32
  let (bs, poisoned) ← spRead x o 32
  if poisoned then raiseP .ecc (BitVec.ofNat 64 o)
  let d := leValue bs
  let p0 := fld d 0 32
  let n := fld d 32 32
  let k := fld d 64 32
  let mask := fld d 96 32
  let dest := fld d 128 32
  if fld d 160 96 ≠ 0 || n = 0 || n > 65536 || p0 + n > 2 ^ 22 || k = 0 || k > 1024 then raiseP .prot (BitVec.ofNat 64 o)
  if mask ≠ 2 ^ 32 - 1 then
    if mask % 4 ≠ 0 then raiseP .prot (BitVec.ofNat 64 mask)
    needInside x mask (4 * ceilDiv n 32)
  checkSpan x dest (4 * k) 4
  let (root, _) ← walkHead x th e.retry (e.d 0).toNat
  let r ← readSeq x e.retry (← walkDir x e.retry root.dir (e.w 2))
  if r.score = 0 || r.scap < min r.len (p0 + n) then raiseP .prot (BitVec.ofNat 64 r.va)
  let mut es : List (Int × Nat) := []
  for i in List.range (min n (r.len - p0)) do
    let masked : Bool ← if mask = 2 ^ 32 - 1 then pure false else do
      let (ws, bad) ← spRead x (mask + 4 * (i / 32)) 4
      if bad then raiseP .ecc (BitVec.ofNat 64 (mask + 4 * (i / 32)))
      pure (flag (leValue ws) (i % 32))
    if !masked then
      let v ← kvRead x e.retry (r.score + 4 * (p0 + i)) 4
      es := es ++ [(scoreKey v, p0 + i)]
  let top := topPositions k es
  spWrite x dest (top.flatMap (leBytes 4) ++ List.replicate (4 * (k - top.length)) 0xFF) []
  return [BitVec.ofNat 32 top.length]

/-! ### Compaction (R446, R447) -/

/-- Bytes that one position of a KVCOPY counts. -/
def positionBytes (w : Nat) (src dst : KvSeq) (p : Nat) : Nat :=
  spLh w * 2 * spRb w + if src.score ≠ 0 && dst.score ≠ 0 && p < dst.scap then 4 else 0

/-- The records of a KVCOPY: of its source sequence and of its destination. -/
def copyRecords (x : Eng) (retry dir q dst : Nat) : P (KvSeq × KvSeq) := do
  let src ← readSeq x retry (← walkDir x retry dir q)
  return (src, ← readSeq x retry dst)

/-- Counted bytes of a KVCOPY of `n` positions from `pd` on. -/
def copyCount (w : Nat) (src dst : KvSeq) (pd n : Nat) : Nat :=
  (List.range n).foldl (fun acc i => acc + positionBytes w src dst (pd + i)) 0

/-- Accept KVCOPY. Operands r, q, t, o. -/
def acceptKvcopy (t : ThreadId) (th : Thread) (e : Entry) : P (List Word) := do
  let x := (← getSt).eng t.core th.slot
  let q := e.w 2
  let dst := e.d 3
  let o := e.w 5
  let fo := BitVec.ofNat 64 o
  needSeq q
  checkSpan x o 32 16
  let (bs, poisoned) ← spRead x o 32
  if poisoned then raiseP .ecc fo
  let d := leValue bs
  let list := fld d 0 32
  let n := fld d 32 32
  let pd := fld d 64 32
  let comp := fld d 96 32
  if fld d 160 96 ≠ 0 || n = 0 || n > 65536 || pd + n > 2 ^ 22 then raiseP .prot fo
  if dst.toNat % 64 ≠ 0 || !canonical dst.toNat then raiseP .prot dst
  let (root, w) ← walkHead x th e.retry (e.d 0).toNat
  checkSpan x list (4 * n) 4
  checkSpan x comp 16 16
  let ranges := fun (idx : Nat) => ([
    { base := x.base + list, len := 4 * n, owner := th.slot, eng := 0, spc := 1, dst := false, tag := idx }] : List RangeEntry)
  checkRanges t.core th.slot (ranges 0)
  let idx ← freeCopy t.core
  performedBefore t e.id .dev fo
  -- what the records meet is met after acceptance: the score bytes are then counted when they can be read (log 29)
  let recs ← tryP (copyRecords x e.retry root.dir q dst.toNat)
  let (count, late) := match recs with
    | .ok (a, b) => (copyCount w a b pd n, false)
    | .error _ => (n * (spLh w * 2 * spRb w), true)
  let _ ← armCheck x comp count fo
  let es := ranges idx
  registerRanges t.core th.slot es
  compArm x comp count fo
  putCopy t.core { idx, slot := th.slot, tid := t, pc := e.pc, word := e.word, opv := e.opv
                   job := .kvcopy { space := w, dir := root.dir, seq := q, dst, desc := o, list, n, pd, comp, late }
                   left := count, rng := es }
  return []

/-- The rows and score of position i of a KVCOPY: what it writes and counts, or an away entry. -/
def copyPosition (x : Eng) (retry : Nat) (a : KvCopyArgs) (i : Nat) : P (Except Away (List EngWrite × Nat)) := do
  let w := a.space
  let (src, dst) ← copyRecords x retry a.dir a.seq a.dst.toNat
  let (ls, bad) ← spRead x (a.list + 4 * i) 4
  if bad then raiseP .ecc (BitVec.ofNat 64 (a.list + 4 * i))
  let p := leValue ls
  if p ≥ src.len then kvFail 7 src.va
  let pd := a.pd + i
  let mut ws : List EngWrite := []
  for y in List.range (spLh w) do
    let layer := y / spHeads w
    let head := y % spHeads w
    match ← pageEntry x retry w src layer head (p / spP w) with
    | .error (entry, swtag) => return .error { entry, seq := a.seq, layer, head, page := p / spP w, swtag }
    | .ok pg =>
      match ← tryP (pageEntry x retry w dst layer head (pd / spP w)) with
      | .error (.cause .kvfault 3 fa) => raiseP .kvfault fa 7
      | .error st => throw st
      | .ok (.error (entry, _)) => kvFail 7 entry
      | .ok (.ok qg) =>
        for v in [false, true] do
          let (bs, bad) ← readRow x retry w pg p v
          let va := rowVa w qg pd v
          needTier x qg va (spRb w) .write retry
          for k in List.range (spRb w / 4) do
            ws := ws ++ [{ va := va + 4 * k, bytes := (bs.drop (4 * k)).take 4, poison := bad.contains (4 * k) }]
  if src.score ≠ 0 && dst.score ≠ 0 && pd < dst.scap then
    let (bs, bad) ← engRead x retry (src.score + 4 * p) 4
    ws := ws ++ [{ va := dst.score + 4 * pd, bytes := bs, poison := bad }]
  return .ok (ws, positionBytes w src dst pd)

/-- Count the score bytes of a KVCOPY whose records could not be read at its acceptance. -/
def countLate (x : Eng) (c : CopyCmd) (a : KvCopyArgs) : W Unit := do
  match ← (do
      let r ← copyRecords x c.retry a.dir a.seq a.dst.toNat
      checkMirror x a.comp 16
      return r : P (KvSeq × KvSeq)).run with
  | .error st => kvStop x.core c st
  | .ok (src, dst) => do
    let n := copyCount a.space src dst a.pd a.n - a.n * (spLh a.space * 2 * spRb a.space)
    let rem ← readNat (x.spa a.comp) 4
    storeAt (x.spa a.comp) (leBytes 4 ((rem + n) % 2 ^ 32))
    modCopy x.core c.idx fun c => { c with
      wait := none, line := none, retry := 0, left := c.left + n, job := .kvcopy { a with late := false } }

/-- One position of a KVCOPY (R447). -/
def runKvcopy (core : Nat) (c : CopyCmd) (a : KvCopyArgs) : W Unit := do
  let x := { (← getSt).eng core c.slot with early := c.early }
  if a.late then
    countLate x c a
    return
  let resume := fun (c : CopyCmd) => { c with wait := none, line := none, retry := 0 }
  let r ← (do
    match ← copyPosition x c.retry a c.unit_ with
    | .error aw => return .error aw
    | .ok (ws, n) => do
      checkMirror x a.comp 16
      engWrites x c.retry ws
      return .ok n : P (Except Away Nat)).run
  match r with
  | .error st => kvStop core c st
  | .ok (.error aw) =>
    if (← getSt).kfqOn then
      modCopy core c.idx fun c => { resume c with job := .kvcopy { a with stop := some aw, tag := none } }
    else endKv core c.idx 5 (BitVec.ofNat 64 aw.entry)
  | .ok (.ok n) => do
    let last := decide (c.unit_ + 1 ≥ a.n)
    if !last then compStep x a.comp n false none false
    modCopy core c.idx fun c => { resume c with
      unit_ := c.unit_ + 1, done := c.done + n, left := if last then c.left else c.left - n, ended := last }

/-- Retirement of a KVCOPY. -/
def retireKvcopy (core : Nat) (c : CopyCmd) (a : KvCopyArgs) : W Unit := do
  let x := (← getSt).eng core c.slot
  spTry x (a.desc + 0x10) (leBytes 4 a.code)
  compEnd x c.tid a.comp c.left true (if c.err then some c.fa else none)
  modCore core fun y => { y with copy := y.copy.filter fun z => z.idx ≠ c.idx }
  retireRanges x c.rng

/-! ### Node building (R448) -/

/-- Size of a node of kind k (Table 12.14). -/
def nodeSize (k : Nat) : Nat := match k with | 0 | 2 => 64 | 1 => 8192 | _ => 4096

/-- Offset and number of bytes of a slot; none outside the kind's range. -/
def nodeSlot (k slot : Nat) : Option (Nat × Nat) :=
  match k with
  | 0 => match slot with | 0 => some (0, 4) | 1 => some (8, 8) | 2 => some (16, 8) | _ => none
  | 1 => if slot < 1024 then some (8 * slot, 8) else none
  | 2 => match slot with
    | 0 => some (0, 4) | 1 => some (4, 4) | 2 => some (8, 8) | 3 => some (0x10, 8) | 4 => some (0x20, 32) | _ => none
  | 3 => if slot < 512 then some (8 * slot, 8) else none
  | _ => none

/-- A value breaks its kind's limit. -/
def nodeLimit (k slot v : Nat) : Bool := k = 2 && ((slot = 0 && v ≥ 2 ^ 23) || (slot = 4 && v ≠ 0))

/-- KVNODE. Operands s, t, x, v. -/
def performKvnode (t : ThreadId) (th : Thread) (e : Entry) : P (List Word) := do
  let x := (← getSt).eng t.core th.slot
  let src := (e.d 0).toNat
  let dst := (e.d 2).toNat
  let kind := e.w 4 / 2 ^ 28
  let slot := e.w 4 % 2 ^ 28
  let v := (e.d 5).toNat
  let size := nodeSize kind
  match nodeSlot kind slot with
  | none => raiseP .prot (e.d 2)
  | some (off, n) => do
    -- R448 lists what raises PROT before what raises ALIGN (DEDUCED, log 37)
    if nodeLimit kind slot v then raiseP .prot (e.d 2)
    if src ≠ 0 && src ≠ dst && src < dst + size && dst < src + size then raiseP .prot (e.d 2)
    if src % size ≠ 0 then raiseP .align (e.d 0)
    if dst % size ≠ 0 then raiseP .align (e.d 2)
    if !canonical src then raiseP .prot (e.d 0)
    if !canonical dst then raiseP .prot (e.d 2)
    performedBefore t e.id .grp (e.d 2)
    -- LEN is [22:0] of its word; a node written in place keeps the word's other bits
    let new := fun (old : Nat) => if kind = 2 && slot = 0 then leBytes 4 (fld old 23 9 * 2 ^ 23 + v) else leBytes n v
    -- the lines it writes leave the walker caches (R425)
    let lo := if src = dst then dst + off else dst
    let ps ← engPieces x e.retry lo (if src = dst then n else size) true
    if src = dst then
      let old ← readNat ((ps.head?.map (·.1)).getD 0) 4
      kvWrites x e.retry [{ va := dst + off, bytes := new old }]
    else
      let node ← if src = 0 then pure (List.replicate size (0 : Byte)) else do
        let (bs, bad) ← engRead x e.retry src size
        if bad then raiseP .ecc (e.d 0)
        pure bs
      let mid := new (leValue ((node.drop off).take 4))
      kvWrites x e.retry [{ va := dst, bytes := node.take off ++ mid ++ node.drop (off + n) }]
    for p in ps do walkDrop p.1 p.2
    return []

/-! ### Page pools (R428, R429, R449) -/

def Pool.en (p : Pool) : Bool := flag p.cfg.toNat 31
def Pool.pageSize (p : Pool) : Nat := if flag p.cfg.toNat 30 then 16384 else 4096
def Pool.pasid (p : Pool) : Nat := p.cfg.toNat % 2 ^ 20

/-- Push of R429: only the link word is written. -/
def pushPage (x : Eng) (retry k page : Nat) : P Unit := do
  let pool := (← getSt).pool k
  match (← getSt).trans (.die (dieOf x.core)) pool.pasid page .write with
  | .ok pa => if !isDevice pa then raiseP .prot (BitVec.ofNat 64 page)
  | .vault => raiseP .prot (BitVec.ofNat 64 page)
  | _ => pure ()
  engWrites { x with pasid := pool.pasid } retry [{ va := page, bytes := leBytes 8 pool.head.toNat }]
  modPool k fun p => { p with head := BitVec.ofNat 64 page, count := p.count + 1 }

/-- A pool that the issuing launch may use. -/
def needPool (x : Eng) (k : Nat) (fa : DWord) : P Unit := do
  let pool := (← getSt).pool k
  if !pool.en || pool.pasid ≠ x.pasid then raiseP .prot fa

/-- PGALLOC. -/
def performPgalloc (k : Nat) (t : ThreadId) (th : Thread) (e : Entry) : P (List Word) := do
  let x := (← getSt).eng t.core th.slot
  needPool x k 0
  performedBefore t e.id .grp 0
  let pool := (← getSt).pool k
  if pool.head = 0 then return valueWords 2 0
  let next ← kvRead x e.retry pool.head.toNat 8
  modPool k fun p => { p with head := BitVec.ofNat 64 next, count := p.count - 1 }
  acquireAct t.core .dev
  return valueWords 2 pool.head.toNat

/-- PGFREE. Operand a. -/
def performPgfree (k : Nat) (t : ThreadId) (th : Thread) (e : Entry) : P (List Word) := do
  let x := (← getSt).eng t.core th.slot
  needPool x k (e.d 0)
  let page := (e.d 0).toNat
  if page % ((← getSt).pool k).pageSize ≠ 0 then raiseP .align (e.d 0)
  if !canonical page then raiseP .prot (e.d 0)
  performedBefore t e.id .dev (e.d 0)
  pushPage x e.retry k page
  return []

/-! ### The instructions (R450) -/

def performKv (i : Instr) (t : ThreadId) (e : Entry) : P (List Word) := do
  match (← getSt).thread? t with
  | none => return []
  | some th =>
    match i with
    | .kvld _ => acceptKv t th e
    | .kvapp _ => performKvapp t th e
    | .seqcmt _ => performSeq true t th e
    | .seqabort _ => performSeq false t th e
    | .scoreadd _ => performScoreadd t th e
    | .topk _ => performTopk t th e
    | .kvnode _ => performKvnode t th e
    | .kvcopy _ => acceptKvcopy t th e
    | .pgalloc w => performPgalloc (w.o2.toNat % 64) t th e
    | .pgfree w => performPgfree (w.o2.toNat % 64) t th e
    | _ => return []

def isKvOp (i : Instr) : Bool :=
  match i with
  | .kvld _ | .kvapp _ | .seqcmt _ | .seqabort _ | .scoreadd _ | .topk _ | .kvnode _ | .kvcopy _ | .pgalloc _ | .pgfree _ =>
    true
  | _ => false

def issueKv (i : Instr) : W Unit := issueCmd i (captureE i) (performKv i)

def execKvld (w : EWord) (s : State) : Host.Outcome State Fault Refusal := run (issueKv (.kvld w)) s
def execKvapp (w : EWord) (s : State) : Host.Outcome State Fault Refusal := run (issueKv (.kvapp w)) s
def execSeqcmt (w : EWord) (s : State) : Host.Outcome State Fault Refusal := run (issueKv (.seqcmt w)) s
def execSeqabort (w : EWord) (s : State) : Host.Outcome State Fault Refusal := run (issueKv (.seqabort w)) s
def execScoreadd (w : EWord) (s : State) : Host.Outcome State Fault Refusal := run (issueKv (.scoreadd w)) s
def execTopk (w : EWord) (s : State) : Host.Outcome State Fault Refusal := run (issueKv (.topk w)) s
def execKvnode (w : EWord) (s : State) : Host.Outcome State Fault Refusal := run (issueKv (.kvnode w)) s
def execKvcopy (w : EWord) (s : State) : Host.Outcome State Fault Refusal := run (issueKv (.kvcopy w)) s
def execPgalloc (w : EWord) (s : State) : Host.Outcome State Fault Refusal := run (issueKv (.pgalloc w)) s
def execPgfree (w : EWord) (s : State) : Host.Outcome State Fault Refusal := run (issueKv (.pgfree w)) s

/-- Retry the parked engine instruction of a class (KV_PACKET_ACCEPT and the like). -/
def retryParked (t : ThreadId) (mine : Instr → Bool) (perf : Instr → ThreadId → Entry → P (List Word)) : W Unit := do
  match (← getSt).thread? t with
  | none => return
  | some th =>
    match th.unf.find? fun e => e.st = 0 && !e.queued && e.page.isNone && (e.instr?.map mine).getD false with
    | some e => match e.instr? with
      | some i => attemptCmd (perf i) t e.id
      | none => return
    | none => return

/-- KV_PACKET_ACCEPT (R438): a parked KV instruction is tried again. -/
def execKvPacketAccept (t : ThreadId) (s : State) : Host.Outcome State Fault Refusal := run (retryParked t isKvOp performKv) s

/-- KV_BLOCK_WRITE (R439). -/
def execKvBlockWrite (core idx : Nat) (s : State) : Host.Outcome State Fault Refusal := run (do
  match (s.core core).copy.find? fun c => c.idx = idx with
  | some c =>
    match c.job with
    | .kv a => if !c.ended && a.stop.isNone then runPacket core c a
    | _ => return
  | none => return) s

/-- The away entry of a stop that has no record yet. -/
def CopyCmd.unplaced (c : CopyCmd) : Option Away :=
  match c.job with
  | .kv { stop := some aw, tag := none, .. } => some aw
  | .kvcopy { stop := some aw, tag := none, .. } => some aw
  | _ => none

def CopyCmd.withTag (c : CopyCmd) (tag : Nat) : CopyCmd :=
  match c.job with
  | .kv a => { c with job := .kv { a with tag := some tag } }
  | .kvcopy a => { c with job := .kvcopy { a with tag := some tag } }
  | _ => c

/-- KV_FAULT_RECORD (R441): the record of a stopped command, once the ring has room; while EN is clear the stop ends the
command with code 5 (Table 12.9). -/
def execKvFaultRecord (core idx : Nat) (s : State) : Host.Outcome State Fault Refusal := run (do
  match (s.core core).copy.find? fun c => c.idx = idx with
  | none => return
  | some c =>
    match c.unplaced with
    | none => return
    | some aw =>
      if !s.kfqOn then endKv core idx 5 (BitVec.ofNat 64 aw.entry)
      else match ← (placeRecord (s.eng core c.slot).pasid aw).run with
        | .ok (some tag) => modCopy core idx fun c => c.withTag tag
        | _ => return) s

/-- A service report resumes a command that waits on its tag, or ends it with code 5 (R441). -/
def CopyCmd.served (c : CopyCmd) (tag : Nat) (fail : Bool) : CopyCmd :=
  let done := fun (aw : Away) (c : CopyCmd) =>
    if fail then { c with ended := true, err := true, fa := BitVec.ofNat 64 aw.entry } else c
  match c.job with
  | .kv a =>
    match a.stop with
    | some aw => if a.tag = some tag
      then done aw { c with job := .kv { a with stop := none, tag := none, code := if fail then 5 else a.code } } else c
    | none => c
  | .kvcopy a =>
    match a.stop with
    | some aw => if a.tag = some tag
      then done aw { c with job := .kvcopy { a with stop := none, tag := none, code := if fail then 5 else a.code } } else c
    | none => c
  | _ => c

/-- A service report reaches the KVAPPs of a saved team: each looks at its entry again at its restore, or stands in the replay
queue with KVFAULT code 5 (R431). -/
def Image.served (i : Image) (tag : Nat) (fail : Bool) : Image :=
  let mine := fun (e : Entry) => e.appendWait.filter fun x => x.2 = tag
  if fail then i.failEntries .kvfault fun e => (mine e).map fun x => (5, BitVec.ofNat 64 x.1)
  else { i with threads := i.threads.map fun t =>
    { t with unf := t.unf.map fun e => if (mine e).isSome then { e with aux := [] } else e } }

/-- KFQRES_WRITE (R441). -/
def execKfqresWrite (v : DWord) (s : State) : Host.Outcome State Fault Refusal := run (do
  let tag := v.toNat % 2 ^ 32
  let fail := flag v.toNat 32
  upd fun s => { s with
    kfqres := BitVec.ofNat 64 (v.toNat % 2 ^ 33)
    cores := s.cores.map fun c => { c with copy := c.copy.map fun k => k.served tag fail }
    images := s.images.map fun i => { (i.served tag fail) with copies := i.copies.map fun k => k.served tag fail } }
  for th in s.threads do
    for e in th.unf do
      match e.appendWait with
      | some (a, g) =>
        if g = tag then
          if fail then settleEntry th.tid e.id (.error (.cause .kvfault 5 (BitVec.ofNat 64 a)))
          else modEntry th.tid e.id fun y => { y with aux := [] }
      | none => pure ()) s

/-! ### Transfers and retirement of the copy engine -/

/-- COPY_TRANSFER (R342, R344): one unit of a copy command, or one position of a KVCOPY. -/
def execCopyTransfer (core idx : Nat) (s : State) : Host.Outcome State Fault Refusal := run (do
  match (s.core core).copy.find? fun c => c.idx = idx with
  | none => return
  | some c =>
    if c.ended then return
    match c.tile?, c.job with
    | some (a, h), _ => runUnit core c a h
    | none, .kvcopy a => if a.stop.isNone then runKvcopy core c a
    | none, _ => return) s

/-- COPY_RETIRE (R324, R342, R140, R439, R442). -/
def execCopyRetire (core idx : Nat) (s : State) : Host.Outcome State Fault Refusal := run (do
  match (s.core core).copy.find? fun c => c.idx = idx with
  | none => return
  | some c =>
    if !c.ended then return
    match c.job with
    | .tile a _ => do
      retireTile core c a
      modCore core fun y => { y with copy := y.copy.filter fun z => z.idx ≠ idx }
    | .list l (some (a, _)) => do
      retireTile core c a
      modCopy core idx fun c => { c with
        job := .list l none, unit_ := 0, done := 0, left := 0, ended := false, err := false, fa := 0, rng := [] }
      if l.next = l.n then retireList core { c with err := false } l none
    | .kv a => retirePacket core c a
    | .kvcopy a => retireKvcopy core c a
    | _ => return) s

end Sys2Proof.Machine
end

