-- ==== Sys2Proof/Machine/LinkMap.lean ====
section
/-!
DEFINITION. The live link map of the pod (spec 13 R451-R455).
-/
namespace Sys2Proof.Machine

/-- This chip's number (R452). -/
def State.selfChip (s : State) : Nat := s.podcfg.toNat % 256

def noLink : LinkEntry := { v := false, lup := false, pport := 0, seq := 0, pchip := 0 }

/-- The row of a chip: its last sequence number and its entries. -/
def State.linkRow (s : State) (c : Nat) : Option (Nat × List LinkEntry) :=
  (s.linkMap.rows.find? fun r => r.1 = c).map (·.2)
/-- Entry (c, k), V = 0 where the chip has not reported. -/
def State.linkEntry (s : State) (c k : Nat) : LinkEntry := ((s.linkRow c).bind fun r => r.2[k]?).getD noLink

/-- UP of an entry (R454). -/
def State.linkUsable (s : State) (c k : Nat) : Bool :=
  let e := s.linkEntry c k
  let f := s.linkEntry e.pchip e.pport
  e.v && e.lup && f.v && f.lup && f.pchip = c && f.pport = k

/-- The usable edges, each once, from its lower chip. -/
def State.usableEdges (s : State) : List Edge :=
  s.linkMap.rows.flatMap fun r => (List.range 12).filterMap fun k =>
    let e := s.linkEntry r.1 k
    if s.linkUsable r.1 k && (r.1 < e.pchip || (r.1 = e.pchip && k < e.pport))
    then some { a := r.1, k, b := e.pchip, k2 := e.pport } else none

/-- A chip has an entry with UP = 1 (R475). -/
def State.inMap (s : State) (c : Nat) : Bool := (List.range 12).any fun k => s.linkUsable c k

/-- Flits are sent while multi-chip collectives are accepted and DONE is set (R452, Table 14.4). -/
def State.flits (s : State) : Bool := s.feature 5

/-- Own links that are up. -/
def State.ownUp (s : State) : List Nat := (List.range 12).filter fun k => (s.linkEntry s.selfChip k).lup

/-- Send the flit of an origin on a link. -/
def sendFlit (link origin : Nat) : W Unit := do
  let s ← getSt
  match s.linkRow origin with
  | some r => if s.flits then sendLink (.linkState link origin r.1 r.2)
  | none => return

/-- Send the chip's own flit on every link that is up. -/
def sendOwnFlit : W Unit := do
  let s ← getSt
  for k in s.ownUp do sendFlit k s.selfChip

def setRow (c seq : Nat) (es : List LinkEntry) : W Unit :=
  upd fun s => { s with linkMap := { s.linkMap with
    rows := upsert (fun r => r.1 = c) (c, seq, es) s.linkMap.rows, epoch := s.linkMap.epoch + 1 } }

/-- Write one of the chip's own entries; a change of LUP takes the next sequence number and is reported (R453). -/
def setOwnLink (k : Nat) (f : LinkEntry → LinkEntry) : W Unit := do
  let s ← getSt
  let c := s.selfChip
  let old := s.linkEntry c k
  let new := f old
  let change := decide (old.lup ≠ new.lup)
  let seq := if change then (s.linkMap.mySeq + 1) % 2 ^ 16 else s.linkMap.mySeq
  let es := (List.range 12).map fun j => { (if j = k then new else s.linkEntry c j) with v := true, seq }
  upd fun s => { s with linkMap := { s.linkMap with mySeq := seq } }
  setRow c seq es
  if change then sendOwnFlit

/-- A received flit is applied and forwarded, or dropped (R453). Answers whether it was applied. One that the chip itself has
sent before a reset may be newer than what it holds; its sequence number goes on from there (log 32). -/
def applyFlit (link origin seq : Nat) (entries : List LinkEntry) : W Bool := do
  let s ← getSt
  if !s.flits then return false
  let newer := match s.linkRow origin with
    | none => true
    | some r => let d := (seq + 2 ^ 16 - r.1) % 2 ^ 16; 1 ≤ d && d ≤ 32767
  if !newer then return false
  setRow origin seq ((List.range 12).map fun k => { (entries[k]?).getD noLink with v := true, seq })
  if origin = s.selfChip then upd fun s => { s with linkMap := { s.linkMap with mySeq := seq } }
  for k in (← getSt).ownUp do
    if k ≠ link then sendFlit k origin
  return true

end Sys2Proof.Machine
end

