-- ==== Sys2Proof/Machine/Grace.lean ====
section
/-!
DEFINITION. The grace detector and the retire queue (spec 11): reader sections, grace periods, releases, pod-wide
domains, and the grace instructions.
-/
namespace Sys2Proof.Machine

/-! ### Counters (R389, R390) -/

/-- Change counter(core, d, ph). -/
def modCount (core d : Nat) (ph : Bool) (f : Nat → Nat) : W Unit :=
  modCore core fun c =>
    if ph then { c with cnt1 := c.cnt1.set d (f ((c.cnt1[d]?).getD 0)) }
    else { c with cnt0 := c.cnt0.set d (f ((c.cnt0[d]?).getD 0)) }
/-- Change parked(die, d, ph). -/
def modParked (die d : Nat) (ph : Bool) (f : Nat → Nat) : W Unit :=
  modDie die fun x =>
    if ph then { x with parked1 := x.parked1.set d (f ((x.parked1[d]?).getD 0)) }
    else { x with parked0 := x.parked0.set d (f ((x.parked0[d]?).getD 0)) }

def CoreSt.count (c : CoreSt) (d : Nat) (ph : Bool) : Nat := ((if ph then c.cnt1 else c.cnt0)[d]?).getD 0
def Die.parked (x : Die) (d : Nat) (ph : Bool) : Nat := ((if ph then x.parked1 else x.parked0)[d]?).getD 0

/-- No contribution of a phase is held in any counter. -/
def State.phaseQuiet (s : State) (d : Nat) (ph : Bool) : Bool :=
  (s.cores.all fun c => c.count d ph = 0) && s.dies.all fun x => x.parked d ph = 0

/-! ### Grace-period numbers (R393, R402) -/

/-- X ≥ Y of R402. -/
def modGe (x y : Word) : Bool := 0 ≤ (x - y).toInt

def RetireEntry.dom (e : RetireEntry) : Nat := e.ctl.toNat % 8
/-- Retire entries of a domain (PEND). -/
def State.pend (s : State) (d : Nat) : List RetireEntry := s.retire.filter fun e => e.dom = d

/-- The period that an entry waits for, when it is a GPSYNC of a domain that waits. -/
def Entry.sync? (e : Entry) (d : Nat) : Option Word :=
  match e.instr?, e.aux with
  | some (.gpsync w), [g] => if w.o2.toNat % 8 = d && e.st = 0 then some (BitVec.ofNat 32 g) else none
  | _, _ => none
/-- GPSYNCs that wait on a domain in resident teams: thread, entry, and the period waited for. -/
def State.syncs (s : State) (d : Nat) : List (ThreadId × Nat × Word) :=
  s.threads.flatMap fun t => t.unf.filterMap fun e => (e.sync? d).map fun g => (t.tid, e.id, g)
/-- Periods that GPSYNCs of saved teams wait for. -/
def State.savedSyncs (s : State) (d : Nat) : List Word :=
  s.images.flatMap fun i => i.threads.flatMap fun t => t.unf.filterMap fun e => e.sync? d

/-- A GPSYNC waits for a period that has not completed. -/
def State.syncDemand (s : State) (d : Nat) : Bool :=
  ((s.syncs d).map (·.2.2) ++ s.savedSyncs d).any fun g => !modGe (s.domain d).c g

/-- Demand (R393): a pending entry, or a GPSYNC that waits. -/
def State.demand (s : State) (d : Nat) : Bool := !(s.pend d).isEmpty || s.syncDemand d

/-- Demand that remains at a completion, after the releases that the new C allows (R394): an entry whose action is stalled
counts. -/
def State.demandLeft (s : State) (d : Nat) : Bool :=
  ((s.pend d).any fun e => !modGe (s.domain d).c (e.tag + 1) || e.wait.isSome) || s.syncDemand d

/-- Start of a period at this chip node (R393 step 1). -/
def startPeriod (d : Nat) : W Unit := modDomain d fun x => { x with s := x.s + 1, gst := 1 }

/-! ### Pod-wide domains (R407-R409, R475) -/

def State.podMembers (s : State) : List Nat := (List.range 256).filter fun c => flag s.podmask c
/-- The coordinator: the lowest member with a usable edge. -/
def State.podCoord (s : State) : Option Nat := s.podMembers.find? fun c => s.inMap c
def State.coordinates (s : State) : Bool := s.podCoord = some s.selfChip

/-- Send a message to every other member. -/
def toMembers (f : Nat → LinkMsg) : W Unit := do
  let s ← getSt
  for c in s.podMembers do
    if c ≠ s.selfChip then sendLink (f c)

/-- The coordinator starts period S + 1. -/
def podStart (d : Nat) : W Unit := do
  let g := ((← getSt).domain d).s.toNat + 1
  modDomain d fun x => { x with podRun := true, facks := [], quiets := [] }
  toMembers fun c => .podFlip c d (g % 2 ^ 32)
  startPeriod d

/-- A pod-wide domain's demand: REQ to the coordinator, which starts a period when none is in progress. -/
def podDemand (d : Nat) : W Unit := do
  let s ← getSt
  match s.podCoord with
  | none => return
  | some c =>
    if c = s.selfChip then
      if (s.domain d).gst = 0 && !(s.domain d).podRun then podStart d
    else sendLink (.podReq c d (((s.domain d).s + 1).toNat))

/-! ### Reader sections and instructions (R386, R387, R411-R415) -/

/-- An engine operation that the thread started has not retired (R387). -/
def State.enginesOf (s : State) (t : ThreadId) : Bool :=
  ((s.core t.core).copy.any fun c => c.tid = t)
    || s.quarters.any fun q => q.core = t.core && q.mq.any fun m => m.threads.contains t

/-- A disabled domain raises PROT (R384). -/
def needDomain (d : Nat) : P Unit := do
  if !((← getSt).domain d).en then raiseP .prot

/-- The phase bit that an outermost RSENTER reads: while a flip travels, a core that has not set the new bit reads it as
the device chooses (R393). -/
def readPhase (core d : Nat) : W Bool := do
  let s ← getSt
  let old := ((s.core core).phase[d]?).getD false
  let new := flag (s.domain d).s.toNat 0
  if (s.domain d).gst = 1 && old ≠ new then
    if (← choose 2) = 1 then
      modCore core fun c => { c with phase := c.phase.set d new }
      return new
  return old

/-- RSENTER (R411). An outermost one orders the thread's later strong loads after the start of the period (R395 item 2), so the
core's mirrors take every update that has been sent (DESIGN CHOICE, log 60: the rule names only the L1); it invalidates no
L1 line. -/
def performRsenter (d : Nat) (t : ThreadId) (th : Thread) : P (List Word) := do
  needDomain d
  if th.nest = 255 then raiseP .sectionC
  let n := (th.depth[d]?).getD 0
  if n = 0 then
    let ph ← readPhase t.core d
    drainMirrors t.core fun _ => true
    modCount t.core d ph (· + 1)
    modThread t fun x => { x with ph := x.ph.set d ph }
  modThread t fun x => { x with depth := x.depth.set d (n + 1) }
  return []

def performRsleave (d : Nat) (t : ThreadId) (th : Thread) (e : Entry) : P (List Word) := do
  needDomain d
  let n := (th.depth[d]?).getD 0
  if n = 0 then raiseP .sectionC
  if n = 1 then
    if (← getSt).enginesOf t then throw .eng
    performedBefore t e.id .dev 0
    modCount t.core d ((th.ph[d]?).getD false) (· - 1)
  modThread t fun x => { x with depth := x.depth.set d (n - 1) }
  return []

/-- PUBLISH. Operands a, v. -/
def performPublish (w : EWord) (t : ThreadId) (th : Thread) (e : Entry) : P (List Word) := do
  modify fun x => { x with actor := t.core + 1 }
  let sc := scopeOf (w.o3.toNat % 8)
  let a : Acc := { kind := .store, space := 0, ty := if w.fl then .b32 else .b64, order := .rel, scope := sc }
  let fa := e.d 0
  let tg ← resolve th a e
  if tg.place ≠ .device then raiseP .atype fa
  performedBefore t e.id sc fa
  flushSpan t.core tg.pa a.size fa
  takeBack tg.pa a.size fa
  needSpan tg.pa a.size true fa
  storeAt tg.pa (leBytes a.size (e.data 2 (a.size / 4))) (some sc)
  upd fun s => { s with published := ((wordsOf tg.pa a.size).map fun k => { addr := k, scope := sc }) ++ s.published }
  walkDrop tg.pa a.size
  return []

/-- A control word with a reserved field, or operands that R404 refuses. -/
def State.retireBad (s : State) (addr : DWord) (n cword x : Nat) : Bool :=
  let act := x / 2 ^ 8 % 4
  let pool := x / 2 ^ 10 % 64
  let addend := x / 2 ^ 16
  let p := s.pool pool
  x / 2 ^ 3 % 2 ^ 5 ≠ 0 || act = 0 || act = 3 || n = 0 || n ≥ 2 ^ 40 || !canonical addr.toNat
    || (act = 1 && (!p.en || addr.toNat % p.pageSize ≠ 0 || n % p.pageSize ≠ 0 || cword ≠ 0 || addend ≠ 0))
    || (act = 2 && (cword = 0 || cword % 8 ≠ 0 || addend = 0 || pool ≠ 0))

/-- Address of a storage place of the retire queue. -/
def State.rqPlace (s : State) (k : Nat) : Nat := s.rqbase.toNat / 2 ^ 17 % 2 ^ 23 * 2 ^ 17 + 32 * k
/-- The lowest place of the queue that no entry stands in: the storage order is the device's (R398). -/
def State.rqFree (s : State) : Nat :=
  ((List.range (s.retire.length + 1)).find? fun k => s.retire.all fun e => e.place ≠ k).getD 0
/-- An entry as Table 11.6 lays it out. -/
def RetireEntry.bytes (e : RetireEntry) : List Byte :=
  leBytes 8 e.addr.toNat ++ leBytes 8 (e.pasid % 2 ^ 20 * 2 ^ 40 + e.len % 2 ^ 40) ++ leBytes 8 e.cword.toNat
    ++ leBytes 4 e.tag.toNat ++ leBytes 4 e.ctl.toNat

/-- RETIRE (R413). Operands a, n, c, x. They are checked once, at issue (R404). -/
def performRetire (t : ThreadId) (th : Thread) (e : Entry) : P (List Word) := do
  let s ← getSt
  let x := e.w 6
  let d := x % 8
  if e.aux ≠ [1] then
    if !(s.domain d).en || s.retireBad (e.d 0) (e.d 2).toNat (e.d 4).toNat x then raiseP .prot (e.d 0)
    modEntry t e.id fun y => { y with aux := [1] }
  performedBefore t e.id .dev (e.d 0)
  if s.retire.length ≥ 4096 then
    if th.nest ≠ 0 then raiseP .sectionC
    throw .eng
  let tag := (s.domain d).s
  let new : RetireEntry := { addr := e.d 0, pasid := s.pasidOf th.lslot, len := (e.d 2).toNat, cword := e.d 4, tag
                             ctl := BitVec.ofNat 32 x, place := s.rqFree }
  let pa := s.rqPlace new.place
  takeBack pa 32 0
  needSpan pa 32 true 0
  storeAt pa new.bytes
  upd fun s => { s with retire := s.retire ++ [new] }
  if (s.domain d).pod then podDemand d
  else if (s.domain d).gst = 0 then startPeriod d
  return [tag]

/-- GPSYNC (R414): the period waited for is kept from its first attempt. -/
def performGpsync (d : Nat) (t : ThreadId) (th : Thread) (e : Entry) : P (List Word) := do
  needDomain d
  match e.aux with
  | [g] => do
    if !modGe ((← getSt).domain d).c (BitVec.ofNat 32 g) then throw .eng
    return [BitVec.ofNat 32 g]
  | _ => do
    if (th.depth[d]?).getD 0 ≠ 0 then raiseP .sectionC
    performedBefore t e.id .dev 0
    let g := ((← getSt).domain d).s + 1
    modEntry t e.id fun y => { y with aux := [g.toNat] }
    if ((← getSt).domain d).pod then podDemand d
    throw .eng

/-- GPSTAT (Table 11.9). -/
def State.gpstat (s : State) (th : Thread) (d k i : Nat) : Word :=
  let x := s.domain d
  let none_ : Word := 0xFFFFFFFF
  let plain := fun (v : Nat) => if i = 0 then BitVec.ofNat 32 v else none_
  match k with
  | 0 => plain x.s.toNat
  | 1 => plain x.c.toNat
  | 2 => plain (x.gst * 2 ^ 30 + x.s.toNat % 2 * 2 ^ 29 + x.pod.toNat * 2 ^ 28 + (s.pend d).length)
  | 3 => if i ≤ 511 then BitVec.ofNat 32 ((s.core i).count d true * 2 ^ 16 + (s.core i).count d false) else none_
  | 4 => if i ≤ 15 then BitVec.ofNat 32 ((s.die i).parked d false) else none_
  | 5 => if i ≤ 15 then BitVec.ofNat 32 ((s.die i).parked d true) else none_
  | 6 => plain (4096 - s.retire.length)
  | _ => plain (((th.ph[d]?).getD false).toNat * 2 ^ 9 + (th.depth[d]?).getD 0)

def performGrace (i : Instr) (t : ThreadId) (e : Entry) : P (List Word) := do
  match (← getSt).thread? t with
  | none => return []
  | some th =>
    match i with
    | .rsenter w => performRsenter (w.o1.toNat % 8) t th
    | .rsleave w => performRsleave (w.o1.toNat % 8) t th e
    | .publish w => performPublish w t th e
    | .retire _ => performRetire t th e
    | .gpsync w => performGpsync (w.o2.toNat % 8) t th e
    | .gpstat w => do
      needDomain (w.o2.toNat % 8)
      return [(← getSt).gpstat th (w.o2.toNat % 8) (w.o3.toNat % 8) (e.w 0)]
    | _ => return []

def isGraceOp (i : Instr) : Bool :=
  match i with | .rsenter _ | .rsleave _ | .publish _ | .retire _ | .gpsync _ | .gpstat _ => true | _ => false

def issueGrace (i : Instr) : W Unit := issueCmd i (captureE i) (performGrace i)

def execRsenter (w : EWord) (s : State) : Host.Outcome State Fault Refusal := run (issueGrace (.rsenter w)) s
def execRsleave (w : EWord) (s : State) : Host.Outcome State Fault Refusal := run (issueGrace (.rsleave w)) s
def execPublish (w : EWord) (s : State) : Host.Outcome State Fault Refusal := run (issueGrace (.publish w)) s
def execRetire (w : EWord) (s : State) : Host.Outcome State Fault Refusal := run (issueGrace (.retire w)) s
def execGpsync (w : EWord) (s : State) : Host.Outcome State Fault Refusal := run (issueGrace (.gpsync w)) s
def execGpstat (w : EWord) (s : State) : Host.Outcome State Fault Refusal := run (issueGrace (.gpstat w)) s

/-! ### Steps of the chip node (R393, R394) -/

/-- Completion of the period in progress: C := S, the GPSYNCs it serves return, and a new period starts while demand
remains (R394). -/
def completePeriod (d : Nat) : W Unit := do
  modDomain d fun x => { x with c := x.s, gst := 0 }
  for y in (← getSt).syncs d do
    if modGe ((← getSt).domain d).c y.2.2 then attemptCmd (performGpsyncEntry d) y.1 y.2.1
  if (← getSt).demandLeft d then
    if ((← getSt).domain d).pod then podDemand d else startPeriod d
where
  performGpsyncEntry (d : Nat) (t : ThreadId) (e : Entry) : P (List Word) := do
    match (← getSt).thread? t with
    | none => return []
    | some th => performGpsync d t th e

/-- GP_START (R393). -/
def execGpStart (d : Nat) (s : State) : Host.Outcome State Fault Refusal := run (do
  let x := s.domain d
  if x.en && x.gst = 0 && s.demand d then
    if x.pod then podDemand d else startPeriod d) s

/-- The coordinator notes FACK (R407). -/
def noteFack (d src : Nat) : W Unit := modDomain d fun x => { x with facks := insertNat src x.facks }

/-- The coordinator notes QUIET and ends the period once every member is quiet (R408). -/
def noteQuiet (d g src : Nat) : W Unit := do
  let x := (← getSt).domain d
  if !x.podRun || x.s.toNat ≠ g then return
  modDomain d fun x => { x with quiets := insertNat src x.quiets }
  let s ← getSt
  if s.podMembers.all fun c => (s.domain d).quiets.contains c then
    modDomain d fun x => { x with podRun := false }
    toMembers fun c => .podDone c d g
    completePeriod d

/-- Report to the coordinator. -/
def podReport (d : Nat) (quiet : Bool) : W Unit := do
  let s ← getSt
  let g := (s.domain d).s.toNat
  match s.podCoord with
  | none => return
  | some c =>
    if c = s.selfChip then (if quiet then noteQuiet d g c else noteFack d c)
    else sendLink (if quiet then .podQuiet c d g else .podFack c d g)

/-- GP_FLIP_DONE (R393 steps 2 to 4). -/
def execGpFlipDone (d : Nat) (s : State) : Host.Outcome State Fault Refusal := run (do
  if (s.domain d).gst = 1 then
    let bit := flag (s.domain d).s.toNat 0
    upd fun s => { s with cores := s.cores.map fun c => { c with phase := c.phase.set d bit } }
    modDomain d fun x => { x with gst := 2 }
    if (s.domain d).pod then podReport d false) s

/-- GP_COMPLETE (R394). -/
def execGpComplete (d : Nat) (s : State) : Host.Outcome State Fault Refusal := run (do
  let x := s.domain d
  if x.gst = 2 && s.phaseQuiet d (!flag x.s.toNat 0) then
    if x.pod then
      modDomain d fun x => { x with gst := 3 }
      podReport d true
    else completePeriod d) s

/-! ### Releases (R401, R403, R405) -/

/-- The next entry of a domain that its C allows. -/
def State.eligible (s : State) (d : Nat) : Option RetireEntry :=
  match s.pend d with
  | e :: _ => if modGe (s.domain d).c (e.tag + 1) && e.wait.isNone then some e else none
  | [] => none

/-- Push the pages of a range, from the one after the first `done`. -/
def releasePages (fuel : Nat) (e : RetireEntry) : P Unit := do
  match fuel with
  | 0 => return
  | fuel + 1 => do
    let k := e.ctl.toNat / 2 ^ 10 % 64
    let p := (← getSt).pool k
    if e.done * p.pageSize ≥ e.len then return
    if !p.en || p.pasid ≠ e.pasid then raiseP .prot
    pushPage (chipNode e.pasid) e.retry k ((e.addr.toNat + e.done * p.pageSize) % 2 ^ 64)
    let e' := { e with done := e.done + 1 }
    upd fun s => { s with retire := s.retire.replace e e' }
    releasePages fuel e'

/-- ACT 2 (R403): an add that is a release at sys scope. -/
def releaseAdd (e : RetireEntry) : P Unit := do
  let x := chipNode e.pasid
  let va := e.cword.toNat
  let ps ← engPieces x e.retry va 8 true
  for p in ps do
    if ← isPoisoned p.1 8 then raiseP .ecc e.cword
    let old ← readNat p.1 8
    storeNat p.1 8 ((old + e.ctl.toNat / 2 ^ 16) % 2 ^ 64)

/-- RQERR, RQERRTAG and the fault interrupt of a failed action (R405). -/
def releaseFailed (e : RetireEntry) : W Unit := do
  upd fun s => { s with
    rqerr := BitVec.ofNat 32 (2 ^ 31 + e.dom * 2 ^ 16 + min 0xFFFF (s.rqerr.toNat % 2 ^ 16 + 1)), rqerrtag := e.tag }
  msix 0

/-- RETIRE_RELEASE (R401). -/
def execRetireRelease (d : Nat) (s : State) : Host.Outcome State Fault Refusal := run (do
  match s.eligible d with
  | none => return
  | some e => do
    walkDropRange e.pasid e.addr.toNat e.len   -- before the action is performed (R425)
    let r ← (if e.ctl.toNat / 2 ^ 8 % 4 = 1 then releasePages (e.len / 4096 + 1) e else releaseAdd e : P Unit).run
    let cur := ((← getSt).pend d).headD e
    let drop : W Unit := do
      upd fun s => { s with retire := s.retire.erase cur }
      for th in (← getSt).threads do
        for y in th.unf do
          match y.instr? with
          | some (.retire w) => if th.wait = .eng .entry && y.st = 0 then attemptCmd (performGrace (.retire w)) th.tid y.id
          | _ => pure ()
    match r with
    | .ok _ => drop
    | .error (.cause _ _ _) => do
      releaseFailed cur
      drop
    | .error (.page w _) => upd fun s => { s with retire := s.retire.replace cur { cur with wait := some w } }
    | .error (.line l _) => upd fun s => { s with retire := s.retire.replace cur { cur with line := some l } }
    | .error _ => return) s

/-! ### Configuration (R384) -/

/-- No contribution, entry, GPSYNC or period of the domain stands. -/
def State.domainQuiet (s : State) (d : Nat) : Bool :=
  s.phaseQuiet d false && s.phaseQuiet d true && (s.pend d).isEmpty && (s.syncs d).isEmpty && (s.savedSyncs d).isEmpty
    && (s.domain d).gst = 0

/-- DOMCFG_WRITE (R384, R486). -/
def execDomcfgWrite (d : Nat) (v : Word) (s : State) : Host.Outcome State Fault Refusal := run (do
  let en := flag v.toNat 31
  let pod := flag v.toNat 30 && s.feature 1
  if (s.domain d).en then
    if !en && s.domainQuiet d then modDomain d fun x => { x with en := false }
  else
    modDomain d fun x => { x with pod }
    if en && s.featDone && flag s.rqbase.toNat 0 then
      modDomain d fun x => { x with en := true, s := 0, c := 0, gst := 0, facks := [], quiets := [], podRun := false }
      upd fun s => { s with cores := s.cores.map fun c => { c with phase := c.phase.set d false } }) s

/-! ### Pod messages (R408, R409) -/

/-- A pod-wide domain that is enabled here. -/
def State.podOn (s : State) (d : Nat) : Bool := (s.domain d).en && (s.domain d).pod

/-- POD_REQ: a member asks for a period; a request for a period that has started is late (R407). -/
def execPodReq (d : Nat) (src : PodRequest) (s : State) : Host.Outcome State Fault Refusal := run (do
  let x := s.domain d
  if s.podOn d && s.coordinates && x.gst = 0 && !x.podRun && !modGe x.s (BitVec.ofNat 32 src.g) then podStart d) s

/-- POD_FLIP: a member that has already flipped for the period acknowledges it again. -/
def execPodFlip (d g : Nat) (s : State) : Host.Outcome State Fault Refusal := run (do
  let x := s.domain d
  if s.podOn d then
    if x.s.toNat = g then
      if x.gst ≠ 1 then podReport d false
      if x.gst = 0 || x.gst = 3 then podReport d true
    else if x.gst = 0 && (x.s + 1).toNat = g then startPeriod d) s

/-- POD_FACK. -/
def execPodFack (d g src : Nat) (s : State) : Host.Outcome State Fault Refusal := run (do
  if s.podOn d && (s.domain d).s.toNat = g then noteFack d src) s

/-- POD_QUIET. -/
def execPodQuiet (d g src : Nat) (s : State) : Host.Outcome State Fault Refusal := run (do
  if s.podOn d then noteQuiet d g src) s

/-- POD_DONE. -/
def execPodDone (d g : Nat) (s : State) : Host.Outcome State Fault Refusal := run (do
  let x := s.domain d
  if s.podOn d && x.s.toNat = g && x.gst = 3 then
    modDomain d fun x => { x with podRun := false }
    completePeriod d) s

/-- After a change of the map: a new coordinator sends FLIP for the period in progress again, and a member with demand
asks a new coordinator (R409). -/
def podRecoordinate (before : Option Nat) : W Unit := do
  let s ← getSt
  if s.podCoord ≠ before then
    for d in List.range 8 do
      if s.podOn d then
        if s.coordinates then
          if (s.domain d).gst ≠ 0 && !(s.domain d).podRun then
            modDomain d fun x => { x with podRun := true, facks := [], quiets := [] }
            toMembers fun c => .podFlip c d (s.domain d).s.toNat
            if (s.domain d).gst = 3 then podReport d true
          else if (s.domain d).gst = 0 && s.demand d then podDemand d
        else
          modDomain d fun x => { x with podRun := false }
          if (s.domain d).gst = 0 && s.demand d then podDemand d

end Sys2Proof.Machine
end

