-- ==== Sys2Proof/Machine/Collective.lean ====
section
/-!
DEFINITION. The collective engine (spec 13): records, trees, chunks, the coordinator's rounds, the collective instructions,
and the link events that bear on them.
-/
namespace Sys2Proof.Machine

/-! ### Records (R456-R458) -/

def parseColl (b : Nat) : CollRec :=
  { cscope := fld b 23 3, hold := flag b 22, maxtree := fld b 20 2, root := fld b 12 8, rop := fld b 8 2, ty := fld b 4 4
    op := fld b 0 4, cid := fld b 32 32, nelem := fld b 64 32, lchunk := fld b 96 5, input := BitVec.ofNat 64 (fld b 128 64)
    output := BitVec.ofNat 64 (fld b 192 64), prog := BitVec.ofNat 64 (fld b 256 64), part := fld b 512 256 }

/-- Participants in increasing chip number. -/
def partChips (part : Nat) : List Nat := (List.range 256).filter fun c => flag part c
def CollRec.parts (r : CollRec) : List Nat := partChips r.part
/-- M. -/
def CollRec.m (r : CollRec) : Nat := r.parts.length
/-- Element size S. -/
def CollRec.esize (r : CollRec) : Nat := if r.ty = 1 then 2 else 4
/-- Bytes of the full vector. -/
def CollRec.bytes (r : CollRec) : Nat := r.nelem * r.esize
/-- Chunk count NC. -/
def CollRec.nc (r : CollRec) : Nat := ceilDiv r.bytes (2 ^ r.lchunk)
/-- Elements of one segment. -/
def CollRec.seg (r : CollRec) : Nat := r.nelem / r.m
def CollRec.rank (r : CollRec) (chip : Nat) : Nat := (r.parts.filter fun c => c < chip).length
/-- Bytes of the input and output buffers of a chip (Table 13.3); none where the input is ignored. -/
def CollRec.inBytes (r : CollRec) (chip : Nat) : Option Nat :=
  match r.op with
  | 2 => some (r.seg * r.esize)
  | 3 => if chip = r.root then some r.bytes else none
  | _ => some r.bytes
def CollRec.outBytes (r : CollRec) : Nat := if r.op = 1 then r.seg * r.esize else r.bytes
/-- Bytes of the progress record (Table 13.4). -/
def CollRec.progBytes (r : CollRec) : Nat := 0x40 + 4 * ceilDiv r.nc 16

def apart (a n b m : Nat) : Bool := a + n ≤ b || b + m ≤ a

/-- PROT cases of R458. -/
def collBad (b : Nat) (r : CollRec) (self : Nat) : Bool :=
  let inp := r.inBytes self
  fld b 26 6 ≠ 0 || fld b 10 2 ≠ 0 || fld b 101 27 ≠ 0 || fld b 320 192 ≠ 0 || fld b 768 256 ≠ 0
    || (r.cscope ≠ 3 && r.cscope ≠ 4) || r.op > 3 || r.ty > 2 || r.rop = 3 || (r.op ≥ 2 && r.rop ≠ 0)
    || (r.op ≠ 3 && r.root ≠ 0) || r.nelem = 0 || r.lchunk < 12 || r.lchunk > 20 || r.m < 2
    || (r.op = 3 && !r.parts.contains r.root)
    || ((r.op = 1 || r.op = 2) && (r.nelem % r.m ≠ 0 || r.esize * r.seg % 2 ^ r.lchunk ≠ 0))
    || r.nc > 1048576
    || (inp.isSome && (r.input.toNat % r.esize ≠ 0 || !canonical r.input.toNat))
    || r.output.toNat % r.esize ≠ 0 || !canonical r.output.toNat || r.prog.toNat % 64 ≠ 0 || !canonical r.prog.toNat
    || !apart r.output.toNat r.outBytes r.prog.toNat r.progBytes
    || (match inp with
        | some n => !apart r.input.toNat n r.output.toNat r.outBytes || !apart r.input.toNat n r.prog.toNat r.progBytes
        | none => false)

/-! ### Trees (R463, R464) -/

/-- Order of the edge list: lower chip, higher chip, link number at the lower chip. -/
def edgeBefore (x y : Edge) : Bool :=
  x.a < y.a || (x.a = y.a && (x.b < y.b || (x.b = y.b && x.k ≤ y.k)))
def insertEdge (e : Edge) (es : List Edge) : List Edge :=
  match es with
  | [] => [e]
  | x :: xs => if edgeBefore e x then e :: x :: xs else x :: insertEdge e xs
def sortEdges (es : List Edge) : List Edge := es.foldl (fun acc e => insertEdge e acc) []

/-- A tree under construction: its edges, and a label per chip that names its set. -/
structure Forest where
  edges  : List Edge := []
  labels : List (Nat × Nat)
deriving DecidableEq, Repr

def Forest.find (f : Forest) (c : Nat) : Nat := ((f.labels.find? fun x => x.1 = c).map (·.2)).getD c
def Forest.add (f : Forest) (e : Edge) : Forest :=
  let la := f.find e.a
  let lb := f.find e.b
  { edges := f.edges ++ [e], labels := f.labels.map fun x => if x.2 = lb then (x.1, la) else x }

/-- Give an edge to the tree that it joins and that holds fewest edges, the lowest on a tie. -/
def placeEdge (ts : List Forest) (e : Edge) : List Forest :=
  let cand := ts.zipIdx.filter fun x => x.1.find e.a ≠ x.1.find e.b
  let best := cand.foldl (fun (b : Option (Forest × Nat)) x =>
    match b with | some y => if x.1.edges.length < y.1.edges.length then some x else b | none => some x) none
  match best with
  | some x => ts.set x.2 (x.1.add e)
  | none => ts

/-- Trees(Vp, Ed, maxt) for nt and below; Ed is sorted. -/
def treesDown (vp : List Nat) (ed : List Edge) (nt : Nat) : Option (List (List Edge)) :=
  match nt with
  | 0 => none
  | k + 1 =>
    let ts := ed.foldl placeEdge (List.replicate (k + 1) { labels := vp.map fun c => (c, c) })
    if ts.all fun t => t.edges.length + 1 = vp.length then some (ts.map Forest.edges) else treesDown vp ed k

/-- R463. -/
def deriveTrees (vp : List Nat) (ed : List Edge) (maxt : Nat) : Option (List (List Edge)) :=
  treesDown vp (sortEdges ed) (min maxt (ed.length / (vp.length - 1)))

/-- Neighbours of a chip in a tree, in increasing chip number. -/
def neighbours (es : List Edge) (c : Nat) : List Nat :=
  sortNat (es.filterMap fun e => if e.a = c then some e.b else if e.b = c then some e.a else none)

/-- Parent of `target` in the tree hung at `cur`, whose own parent is `par`; none when it is not below. -/
def parentFrom (fuel : Nat) (es : List Edge) (cur : Nat) (par : Option Nat) (target : Nat) : Option (Option Nat) :=
  match fuel with
  | 0 => none
  | fuel + 1 =>
    if cur = target then some par
    else ((neighbours es cur).filter fun c => some c ≠ par).findSome? fun c => parentFrom fuel es c (some cur) target

/-- A chip's place in a tree: root, parent, children (R464). -/
def CollRec.treeRoot (r : CollRec) (t nt : Nat) : Nat := (r.parts[t * r.m / nt]?).getD 0
def treeParent (es : List Edge) (root c : Nat) : Option Nat := (parentFrom 257 es root none c).getD none
def treeKids (es : List Edge) (root c : Nat) : List Nat :=
  (neighbours es c).filter fun k => some k ≠ treeParent es root c
/-- `target` lies in the part of the tree below and at `c`. -/
def treeBelow (es : List Edge) (root c target : Nat) : Bool :=
  (parentFrom 257 es c (treeParent es root c) target).isSome

/-! ### Values (R466) -/

/-- A value of the record's type with a NaN made canonical. -/
def CollRec.canon (r : CollRec) (v : Nat) : Word :=
  let f := if r.ty = 1 then Fmt.bf16 else Fmt.f32
  BitVec.ofNat 32 (if r.ty ≠ 2 && (f.read v).isNan then f.nan else v)
/-- An element widened to its arithmetic type; an all-gather and a broadcast pass it on as it is, but for a NaN. -/
def CollRec.widen (r : CollRec) (v : Nat) : Word :=
  if r.ty = 1 && r.op < 2 then BitVec.ofNat 32 (convVal .f32 .rne false (Fmt.bf16.read v)).val else r.canon v
/-- The root's rounding of a result. -/
def CollRec.narrow (r : CollRec) (v : Word) : Word :=
  if r.ty = 1 && r.op < 2 then BitVec.ofNat 32 (convVal .bf16 .rne false (Fmt.f32.read v.toNat)).val else r.canon v.toNat

/-- Op of R466 on two present operands. -/
def CollRec.combine (r : CollRec) (a b : Word) : Word :=
  BitVec.ofNat 32 (rmwFn r.rop (if r.ty = 2 then .i32 else .f32) a.toNat b.toNat)

/-- Op with a missing operand. -/
def CollRec.opVal (r : CollRec) (a b : Option Word) : Option Word :=
  match a, b with
  | some x, some y => some (r.combine x y)
  | some x, none => some x
  | none, y => y

def CollRec.opVals (r : CollRec) (a b : ChunkVals) : ChunkVals :=
  { vals := (List.range (max a.vals.length b.vals.length)).map fun k =>
      r.opVal ((a.vals[k]?).getD none) ((b.vals[k]?).getD none)
    bad := (a.bad ++ b.bad).eraseDups }

/-- First element and number of elements of a chunk. -/
def CollRec.chunkElems (r : CollRec) (c : Nat) : Nat × Nat :=
  let lo := c * 2 ^ r.lchunk
  let hi := min ((c + 1) * 2 ^ r.lchunk) r.bytes
  (lo / r.esize, (hi - lo) / r.esize)

/-- Owner of a chunk's segment. -/
def CollRec.owner (r : CollRec) (c : Nat) : Nat := (r.parts[(r.chunkElems c).1 / r.seg]?).getD 0

/-- Address of a chunk's elements in this chip's input; none when it contributes none. -/
def CollRec.ownAddr (r : CollRec) (self c : Nat) : Option Nat :=
  let e := (r.chunkElems c).1
  match r.op with
  | 2 => if r.owner c = self then some (r.input.toNat + (e - r.rank self * r.seg) * r.esize) else none
  | 3 => if self = r.root then some (r.input.toNat + e * r.esize) else none
  | _ => some (r.input.toNat + e * r.esize)
/-- Address of a chunk's elements in this chip's output; none when it writes none. -/
def CollRec.outAddr (r : CollRec) (self c : Nat) : Option Nat :=
  let e := (r.chunkElems c).1
  if r.op = 1 then
    if r.owner c = self then some (r.output.toNat + (e - r.rank self * r.seg) * r.esize) else none
  else some (r.output.toNat + e * r.esize)

/-! ### The progress record (R459, Table 13.4) -/

def Coll.header (x : Coll) : Nat := x.state * 2 ^ 28 + x.ntree * 2 ^ 24 + x.code * 2 ^ 16 + (x.starts - 1) % 2 ^ 16
/-- The words of the record before the marks. -/
def Coll.headWords (x : Coll) (self : Nat) : List Nat :=
  [x.header, x.rcd.nc, x.d.length, x.rcd.rank self * 2 ^ 16 + x.rcd.m]
def Coll.markWord (x : Coll) (i : Nat) : Nat :=
  (List.range 16).foldl (fun acc j =>
    acc + (if x.r.contains (16 * i + j) then 4 ^ j else 0) + if x.d.contains (16 * i + j) then 2 * 4 ^ j else 0) 0

def headWrite (x : Coll) (self : Nat) : EngWrite :=
  { va := x.rcd.prog.toNat, bytes := (x.headWords self).flatMap (leBytes 4) }
def markWrite (x : Coll) (i : Nat) : EngWrite := { va := x.rcd.prog.toNat + 0x40 + 4 * i, bytes := leBytes 4 (x.markWord i) }
/-- The whole record. -/
def recordWrite (x : Coll) (self : Nat) : EngWrite :=
  { va := x.rcd.prog.toNat
    bytes := (x.headWords self).flatMap (leBytes 4) ++ List.replicate 48 0
      ++ (List.range (ceilDiv x.rcd.nc 16)).flatMap fun i => leBytes 4 (x.markWord i) }

/-! ### Units -/

/-- The engine of a collective; its writes are those of the core that started it (R140, R211), while its team is resident. -/
def Coll.node (x : Coll) : Eng :=
  { chipNode x.pasid with early := x.pre, writer := if x.core < 512 then some x.core else none }

def State.coll? (s : State) (slot : Nat) : Option Coll := s.colls.find? fun x => x.slot = slot
/-- The epoch of the last START; 0 before the first. -/
def Coll.epoch (x : Coll) : Nat := x.starts - 1
def modColl (slot : Nat) (f : Coll → Coll) : W Unit :=
  upd fun s => { s with colls := s.colls.map fun x => if x.slot = slot then f x else x }
/-- The live collective of an identifier (a state of 4 or more has ended). -/
def State.collOf (s : State) (cid : Nat) : Option Coll := s.colls.find? fun x => x.rcd.cid = cid && x.state < 4
def State.coord? (s : State) (cid : Nat) : Option Coord := s.coords.find? fun x => x.cid = cid
def modCoord (cid : Nat) (f : Coord → Coord) : W Unit :=
  upd fun s => { s with coords := s.coords.map fun x => if x.cid = cid then f x else x }
def dropCoord (cid : Nat) : W Unit := upd fun s => { s with coords := s.coords.filter fun x => x.cid ≠ cid }
def CollRec.coordChip (r : CollRec) : Nat := r.parts.headD 0

/-- Range entries of a collective (R473). -/
def collRanges (r : CollRec) (self team slot : Nat) : List RangeEntry :=
  let e := fun (base len : Nat) (dst : Bool) => ({ base, len, owner := team, eng := 3, spc := 0, dst, tag := slot } : RangeEntry)
  ((r.inBytes self).toList.map fun n => e r.input.toNat n false) ++ [e r.output.toNat r.outBytes true]

/-! ### Ends (R460, R462, R473) -/

/-- The ended collective leaves its slot, and its range entries clear (R140, R473). -/
def freeColl (x : Coll) : W Unit := do
  let mine := fun (e : RangeEntry) => e.eng = 3 && e.tag = x.slot
  upd fun s => { s with
    colls := s.colls.filter fun y => y.slot ≠ x.slot
    images := s.images.map fun i => { i with ranges := i.ranges.filter fun e => !mine e } }
  if ((← getSt).core x.core).ranges.any mine then
    dropRange x.core x.pasid x.rcd.output.toNat x.rcd.outBytes
    modCore x.core fun c => { c with ranges := c.ranges.filter fun e => !mine e }

/-- A stop of a collective's engine: what it waits on is kept. Answers whether it is a fault. -/
def collStop (slot : Nat) (st : Stop) : W Bool := do
  match st with
  | .page w _ => modColl slot fun x => { x with waits := (x.waits.erase w) ++ [w] }
  | .line l _ => modColl slot fun x => { x with lines := (x.lines.erase l) ++ [l] }
  | _ => pure ()
  match st with | .cause .. => return true | _ => return false

/-- The ended collective's state word is written and its slot frees; a stop leaves the end to be made later. -/
def closeColl (slot : Nat) : W Unit := do
  let s ← getSt
  match s.coll? slot with
  | none => return
  | some x => do
    match ← (engWrites x.node x.retry [headWrite x s.selfChip] : P Unit).run with
    | .ok _ => freeColl x
    | .error st => if ← collStop slot st then freeColl x

/-- A collective ends on this chip with a state and code. -/
def endColl (slot state code : Nat) : W Unit := do
  match (← getSt).coll? slot with
  | none => return
  | some x => do
    modColl slot fun x => { x with state, code, work := [], early := [], waits := [], lines := [], owed := none }
    if state ≠ 4 then
      if ((← getSt).core x.core).ranges.any fun e => e.eng = 3 && e.tag = slot then
        let _ ← faultStalled x.core x.team x.rcd.output.toNat x.rcd.outBytes .coll 0 x.rcd.output
    closeColl slot

/-- A participant ends the live collective of an identifier. -/
def partEnd (cid state code : Nat) : W Unit := do
  match (← getSt).collOf cid with
  | some x => endColl x.slot state code
  | none => return

/-- Send a message to every listed chip but this one. -/
def toChips (cs : List Nat) (f : Nat → LinkMsg) : W Unit := do
  let s ← getSt
  for c in cs do
    if c ≠ s.selfChip then sendLink (f c)

/-- The coordinator ends a collective with FAIL at every participant that has joined. -/
def coordFail (cid code : Nat) : W Unit := do
  match (← getSt).coord? cid with
  | none => return
  | some c => do
    dropCoord cid
    toChips c.joined fun k => .fail k cid code
    partEnd cid 5 code

/-- The coordinator passes an abort on to the other participants; later joiners learn it until all have joined. -/
def coordAbort (cid src : Nat) : W Unit := do
  let s ← getSt
  match s.coord? cid with
  | none => return
  | some c => do
    toChips (c.joined.filter fun k => k ≠ src) fun k => .abort k cid
    if src ≠ s.selfChip then partEnd cid 6 4
    if (partChips c.first.part).all fun k => c.joined.contains k then dropCoord cid
    else modCoord cid fun c => { c with ended := true }

/-- A fault of the engine at this chip: the coordinator fails the collective everywhere (R477). -/
def faultColl (x : Coll) : W Unit := do
  let c := x.rcd.coordChip
  if c = (← getSt).selfChip then coordFail x.rcd.cid 5
  else
    sendLink (.fail c x.rcd.cid 5)
    endColl x.slot 5 5

/-- The coordinator counts a participant's report (R462). -/
def coordReport (cid epoch src : Nat) : W Unit := do
  match (← getSt).coord? cid with
  | none => return
  | some c => do
    if !c.started || c.pausing || c.epoch ≠ epoch then return
    let reports := insertNat src c.reports
    modCoord cid fun c => { c with reports }
    let all_ := partChips c.first.part
    if all_.all fun k => reports.contains k then
      dropCoord cid
      toChips all_ fun k => .finish k cid epoch
      partEnd cid 4 0

/-! ### Chunks (R465-R467) -/

/-- What became of a chunk's attempt. -/
structure ChunkStep where
  coll : Coll
  msgs : List LinkMsg
deriving DecidableEq, Repr

/-- Values of a chunk in this chip's input. -/
def readOwn (x : Coll) (self c : Nat) : P ChunkVals := do
  let r := x.rcd
  let n := (r.chunkElems c).2
  match r.ownAddr self c with
  | none => return { vals := List.replicate n none }
  | some va => do
    let ps ← engPieces x.node x.retry va (n * r.esize) false
    let mut bs : List Byte := []
    let mut bad : List Nat := []
    for p in ps do
      for k in List.range (p.2 / r.esize) do
        if ← isPoisoned (p.1 + r.esize * k) r.esize then bad := bad ++ [bs.length / r.esize + k]
      bs := bs ++ (← readBytes p.1 p.2)
    let all_ := bs
    return { vals := (List.range n).map fun k => some (r.widen (leValue ((all_.drop (r.esize * k)).take r.esize))), bad }

/-- The chip has no duty in the down phase of a chunk: a reduce-scatter's result does not pass it. -/
def downSkips (r : CollRec) (es : List Edge) (root self c : Nat) : Bool := r.op = 1 && !treeBelow es root self (r.owner c)

/-- The up phase of a chunk at this chip: its value is formed and sent, and R is set. -/
def stepUp (x : Coll) (self : Nat) (k : ChunkWork) : P (Option ChunkStep) := do
  let r := x.rcd
  let es := (x.trees[k.tree]?).getD []
  let root := r.treeRoot k.tree x.ntree
  let kids := treeKids es root self
  if !kids.all fun c => k.got.any fun g => g.1 = c then return none
  let own ← readOwn x self k.chunk
  let acc := kids.foldl (fun acc c =>
    match k.got.find? fun g => g.1 = c with | some g => r.opVals acc g.2 | none => acc) own
  let skip := downSkips r es root self k.chunk
  let top := decide (self = root)
  let res := if top then some { acc with vals := acc.vals.map fun v => v.map r.narrow } else none
  let y := { x with
    r := insertNat k.chunk x.r
    d := if skip then insertNat k.chunk x.d else x.d
    work := if skip then x.work.filter fun w => w.chunk ≠ k.chunk
            else x.work.map fun w => if w.chunk = k.chunk then { w with up := true, res } else w }
  engWrites x.node x.retry (markWrite y (k.chunk / 16) :: if skip then [headWrite y self] else [])
  let msgs := match treeParent es root self with
    | some p => [LinkMsg.chunk p r.cid (x.starts - 1) k.chunk true acc.vals acc.bad]
    | none => []
  return some { coll := y, msgs }

/-- The down phase: the chip writes its output bytes, passes the result to its children, and sets D. -/
def stepDown (x : Coll) (self : Nat) (k : ChunkWork) (res : ChunkVals) : P ChunkStep := do
  let r := x.rcd
  let es := (x.trees[k.tree]?).getD []
  let root := r.treeRoot k.tree x.ntree
  let kids := (treeKids es root self).filter fun c => r.op ≠ 1 || treeBelow es root c (r.owner k.chunk)
  let y := { x with d := insertNat k.chunk x.d, work := x.work.filter fun w => w.chunk ≠ k.chunk }
  let out : List EngWrite := match r.outAddr self k.chunk with
    | none => []
    | some va => res.vals.zipIdx.map fun v =>
      { va := va + r.esize * v.2, bytes := leBytes r.esize (v.1.getD 0).toNat, poison := res.bad.contains v.2 }
  engWrites x.node x.retry (out ++ [markWrite y (k.chunk / 16), headWrite y self])
  return { coll := y, msgs := kids.map fun c => LinkMsg.chunk c r.cid (x.starts - 1) k.chunk false res.vals res.bad }

/-- Advance one chunk. Answers whether the engine has met a fault. -/
def stepChunk (slot chunk : Nat) : W Bool := do
  let s ← getSt
  match s.coll? slot with
  | none => return false
  | some x =>
    match x.work.find? fun k => k.chunk = chunk with
    | none => return false
    | some k => do
      let act : P (Option ChunkStep) := match k.up, k.res with
        | false, _ => stepUp x s.selfChip k
        | true, some res => do return some (← stepDown x s.selfChip k res)
        | true, none => pure none
      match ← act.run with
      | .ok (some st) => do
        modColl slot fun _ => { st.coll with retry := 0 }
        for m in st.msgs do sendLink m
        return false
      | .ok none => return false
      | .error st => collStop slot st

/-- Write what the record still has to show of a START or a PAUSE (R469). Answers whether nothing is owed any more. -/
def settleRecord (slot : Nat) : W Bool := do
  let s ← getSt
  match s.coll? slot with
  | none => return false
  | some x =>
    match x.owed with
    | none => return true
    | some whole =>
      let w := if whole then recordWrite x s.selfChip else headWrite x s.selfChip
      match ← (engWrites x.node x.retry [w] : P Unit).run with
      | .ok _ => do
        modColl slot fun x => { x with owed := none, retry := 0 }
        return true
      | .error st => do
        if ← collStop slot st then faultColl x
        return false

/-- Advance every chunk of a running collective as far as it goes now, and report when all are done. -/
def advanceColl (slot : Nat) : W Unit := do
  match (← getSt).coll? slot with
  | none => return
  | some x =>
    if x.state ≥ 4 then closeColl slot
    else if x.state = 2 then
      if !(← settleRecord slot) then return
      let mut bad := false
      for k in x.work do
        if !bad then bad := ← stepChunk slot k.chunk
        if !bad then bad := ← stepChunk slot k.chunk
      if bad then faultColl x
      else
        match (← getSt).coll? slot with
        | none => return
        | some y =>
          if y.work.isEmpty && !y.reported then
            modColl slot fun y => { y with reported := true }
            let c := y.rcd.coordChip
            let self := (← getSt).selfChip
            if c = self then coordReport y.rcd.cid (y.starts - 1) self
            else sendLink (.report c y.rcd.cid (y.starts - 1))

/-! ### Rounds of the coordinator (R461, R469, R471) -/

/-- A participant's START (R461, R469 step 5). -/
def partStart (cid epoch : Nat) (fin : List Nat) (edges : List Edge) : W Unit := do
  let s ← getSt
  match s.collOf cid with
  | none => return
  | some x => do
    if x.starts ≠ epoch then return
    let trees := (deriveTrees x.rcd.parts edges (x.rcd.maxtree + 1)).getD []
    let todo := (List.range x.rcd.nc).filter fun c => !fin.contains c
    let mine := x.early.filter fun e => e.epoch = epoch
    let y := { x with
      state := 2, starts := x.starts + 1, ntree := trees.length, trees
      r := x.r.filter fin.contains, d := x.d.filter fin.contains
      early := x.early.filter fun e => e.epoch > epoch
      reported := false
      owed := some true, waits := [], lines := []
      work := todo.zipIdx.map fun c =>
        { chunk := c.1, tree := c.2 % trees.length
          got := (mine.filter fun e => e.chunk = c.1 && e.up).map fun e => (e.src, e.vals)
          res := (mine.find? fun e => e.chunk = c.1 && !e.up).map (·.vals) } }
    modColl x.slot fun _ => y
    advanceColl x.slot

/-- The coordinator derives trees from its current map, and starts, fails or holds the collective. -/
def coordDerive (cid : Nat) (hold : Bool) : W Unit := do
  let s ← getSt
  match s.coord? cid with
  | none => return
  | some c => do
    let vp := partChips c.first.part
    let ed := s.usableEdges.filter fun e => vp.contains e.a && vp.contains e.b
    match deriveTrees vp ed (c.first.maxtree + 1) with
    | some _ => do
      let fin := match c.bitmaps with
        | [] => []
        | b :: bs => b.2.filter fun k => bs.all fun y => y.2.contains k
      let epoch := if c.started then c.epoch + 1 else 0
      modCoord cid fun c => { c with epoch, started := true, pausing := false, bitmaps := [], resumes := [], reports := [] }
      toChips vp fun k => .start k cid epoch fin ed
      partStart cid epoch fin ed
    | none =>
      if hold then modCoord cid fun c => { c with resumes := [] }
      else coordFail cid 2

/-- HOLD of the coordinator's own record. -/
def State.holds (s : State) (cid : Nat) : Bool := ((s.collOf cid).map fun x => x.rcd.hold).getD false

/-- Step 3 of R469 once every bitmap, and with HOLD every CRESUME, is in. -/
def coordRound (cid : Nat) : W Unit := do
  let s ← getSt
  match s.coord? cid with
  | none => return
  | some c => do
    let vp := partChips c.first.part
    let hold := s.holds cid
    if c.pausing && (vp.all fun k => c.bitmaps.any fun b => b.1 = k) && (!hold || vp.all fun k => c.resumes.contains k) then
      coordDerive cid hold

/-- A D bitmap reaches the coordinator. -/
def coordBitmap (cid epoch src : Nat) (done : List Nat) : W Unit := do
  match (← getSt).coord? cid with
  | none => return
  | some c => do
    if !c.pausing || c.epoch ≠ epoch then return
    modCoord cid fun c => { c with bitmaps := upsert (fun b => b.1 = src) (src, done) c.bitmaps }
    coordRound cid

/-- A CRESUME of the current epoch reaches the coordinator. -/
def coordResume (cid epoch src : Nat) : W Unit := do
  match (← getSt).coord? cid with
  | none => return
  | some c => do
    if !c.pausing || c.epoch ≠ epoch then return
    modCoord cid fun c => { c with resumes := insertNat src c.resumes }
    coordRound cid

/-- A paused participant writes STATE 3 and then sends its D bitmap (R469 step 2). -/
def settlePause (slot : Nat) : W Unit := do
  let s ← getSt
  match s.coll? slot with
  | none => return
  | some x => do
    if x.state ≠ 3 || x.owed.isNone || !(← settleRecord slot) then return
    if x.rcd.coordChip = s.selfChip then coordBitmap x.rcd.cid x.epoch s.selfChip x.d
    else sendLink (.bitmap x.rcd.coordChip x.rcd.cid x.epoch x.d)

/-- A participant's PAUSE (R469 step 2). -/
def partPause (cid : Nat) : W Unit := do
  match (← getSt).collOf cid with
  | none => return
  | some x => do
    modColl x.slot fun x => { x with state := 3, work := [], waits := [], lines := [], owed := some false, pauseAt := none }
    settlePause x.slot

/-- Advance every collective: after a translation, a page response, a host line or a snoop answer. -/
def advanceAll : W Unit := do
  for x in (← getSt).colls do
    advanceColl x.slot
    settlePause x.slot

/-- The coordinator pauses every participant (R461, R469 step 1). -/
def coordPause (cid : Nat) : W Unit := do
  match (← getSt).coord? cid with
  | none => return
  | some c => do
    modCoord cid fun c => { c with pausing := true, bitmaps := [] }
    toChips (partChips c.first.part) fun k => .pause k cid c.epoch
    partPause cid

/-- Two JOINs agree in every field that R461 compares. -/
def sameJoin (a b : JoinMsg) : Bool := decide ({ a with src := 0 } = { b with src := 0 })

/-- A JOIN reaches the coordinator (R461). -/
def coordJoin (j : JoinMsg) : W Unit := do
  let s ← getSt
  let c := (s.coord? j.cid).getD { cid := j.cid, first := j, joined := [] }
  if c.joined.contains j.src then return
  let was := c.bad
  let c := { c with joined := insertNat j.src c.joined, bad := c.bad || !sameJoin c.first j }
  upd fun s => { s with coords := upsert (fun x => x.cid = j.cid) c s.coords }
  let all_ := (partChips c.first.part).all fun k => c.joined.contains k
  let stop := fun (cs : List Nat) (f : Nat → LinkMsg) (own : W Unit) => do
    toChips cs f
    if cs.contains s.selfChip then own
  if c.bad then
    stop (if was then [j.src] else c.joined) (fun k => .fail k j.cid 1) (partEnd j.cid 5 1)
    if all_ then dropCoord j.cid
  else if c.ended then
    stop [j.src] (fun k => .abort k j.cid) (partEnd j.cid 6 4)
    if all_ then dropCoord j.cid
  else if all_ then
    let vp := partChips c.first.part
    let ed := s.usableEdges.filter fun e => vp.contains e.a && vp.contains e.b
    if (deriveTrees vp ed (j.maxtree + 1)).isNone && s.holds j.cid then coordPause j.cid
    else coordDerive j.cid false

/-! ### The instructions (R477-R481) -/

/-- CLAUNCH. Operand a. -/
def performClaunch (t : ThreadId) (th : Thread) (e : Entry) : P (List Word) := do
  let a := e.d 0
  let s ← getSt
  let x := s.eng t.core th.slot
  let self := s.selfChip
  if a.toNat % 128 ≠ 0 then raiseP .align a
  if !canonical a.toNat then raiseP .prot a
  let (bs, poisoned) ← engRead x e.retry a.toNat 128
  if poisoned then raiseP .ecc a
  let b := leValue bs
  let r := parseColl b
  if collBad b r self then raiseP .prot a
  if !flag r.part self || (s.collOf r.cid).isSome
      || r.parts.any fun c => (List.range 12).all fun k => !(s.linkEntry c k).v then raiseP .coll a
  let node := { chipNode x.pasid with writer := some t.core }
  let _ ← engPieces node e.retry r.prog.toNat r.progBytes true
  match (List.range 16).find? fun k => (s.coll? k).isNone with
  | none => return [0x80000001]
  | some slot => do
    checkRanges t.core th.slot (collRanges r self th.slot slot)
    performedBefore t e.id (scopeOf r.cscope) a
    cleanRange t.core x.pasid r.output.toNat r.outBytes a
    registerRanges t.core th.slot (collRanges r self th.slot slot)
    let gen := (((s.collGen[slot]?).getD 0) + 1) % 4096
    let c : Coll := { slot, gen, rcd := r, core := t.core, team := th.slot, lslot := th.lslot, pasid := x.pasid }
    upd fun s => { s with colls := s.colls ++ [c], collGen := s.collGen.set slot gen }
    engWrites node e.retry [recordWrite c self]
    let j : JoinMsg := { src := self, cid := r.cid, op := r.op, ty := r.ty, rop := r.rop, root := r.root, nelem := r.nelem
                         lchunk := r.lchunk, maxtree := r.maxtree, part := r.part }
    if r.coordChip = self then coordJoin j else sendLink (.join r.coordChip j)
    return [BitVec.ofNat 32 (gen * 16 + slot)]

/-- The live collective that a handle names; bits [31:16] must be zero. -/
def State.handle? (s : State) (h : Nat) : Option Coll :=
  s.colls.find? fun x => x.slot + 16 * x.gen = h && x.state < 4

/-- CABORT, and an abort of the launch (R274, R479). -/
def abortColl (x : Coll) : W Unit := do
  let self := (← getSt).selfChip
  endColl x.slot 6 3
  if x.rcd.coordChip = self then coordAbort x.rcd.cid self
  else sendLink (.abort x.rcd.coordChip x.rcd.cid)

/-- LINKQ's value (Table 13.8). -/
def State.linkq (s : State) (c k : Nat) : Word :=
  let none_ : Word := 0xFFFFFFFF
  if k ≤ 11 then
    if c > 255 then none_
    else
      let e := s.linkEntry c k
      BitVec.ofNat 32 (e.v.toNat * 2 ^ 31 + (s.linkUsable c k).toNat * 2 ^ 30 + e.lup.toNat * 2 ^ 29 + e.pport * 2 ^ 24
        + e.seq * 2 ^ 8 + e.pchip)
  else if c ≠ 0 then none_
  else if k = 12 then s.linkMap.epoch
  else BitVec.ofNat 32 s.selfChip

def performColl (i : Instr) (t : ThreadId) (e : Entry) : P (List Word) := do
  let s ← getSt
  match s.thread? t with
  | none => return []
  | some th =>
    match i with
    | .claunch _ => performClaunch t th e
    | .cstatus _ =>
      match s.colls.find? fun x => x.slot + 16 * x.gen = e.w 0 with
      | some x => return [BitVec.ofNat 32 x.header]
      | none => return [0]
    | .cabort _ =>
      match s.handle? (e.w 0) with
      | some x => do
        abortColl x
        return [0]
      | none => return [1]
    | .cresume _ =>
      match s.handle? (e.w 0) with
      | some x =>
        if x.state = 3 then
          if x.rcd.coordChip = s.selfChip then coordResume x.rcd.cid x.epoch s.selfChip
          else sendLink (.resume x.rcd.coordChip x.rcd.cid x.epoch)
          return [0]
        else return [1]
      | none => return [2]
    | .linkq w => return [s.linkq (e.w 0) (w.o3.toNat % 512)]
    | _ => return []

def isCollOp (i : Instr) : Bool :=
  match i with | .claunch _ | .cstatus _ | .cabort _ | .cresume _ | .linkq _ => true | _ => false

def issueColl (i : Instr) : W Unit := issueCmd i (captureE i) (performColl i)

def execClaunch (w : EWord) (s : State) : Host.Outcome State Fault Refusal := run (issueColl (.claunch w)) s
def execCstatus (w : EWord) (s : State) : Host.Outcome State Fault Refusal := run (issueColl (.cstatus w)) s
def execCabort (w : EWord) (s : State) : Host.Outcome State Fault Refusal := run (issueColl (.cabort w)) s
def execCresume (w : EWord) (s : State) : Host.Outcome State Fault Refusal := run (issueColl (.cresume w)) s
def execLinkq (w : EWord) (s : State) : Host.Outcome State Fault Refusal := run (issueColl (.linkq w)) s

/-! ### Messages received -/

/-- COLL_JOIN (R461). -/
def execCollJoin (j : JoinMsg) (s : State) : Host.Outcome State Fault Refusal := run (coordJoin j) s

/-- COLL_START (R461, R469); a PAUSE of its epoch that came before it takes effect at once. -/
def execCollStart (cid epoch : Nat) (fin : List Nat) (edges : List Edge) (s : State) : Host.Outcome State Fault Refusal :=
  run (do
    partStart cid epoch fin edges
    match (← getSt).collOf cid with
    | some x => if x.pauseAt = some x.epoch then partPause cid
    | none => return) s

/-- COLL_PAUSE (R469): at the coordinator a participant's request, elsewhere the coordinator's order. One of an earlier epoch is
discarded, and one of an epoch still to start here is kept until its START. -/
def execCollPause (cid : Nat) (src : CollFrom) (s : State) : Host.Outcome State Fault Refusal := run (do
  match s.coord? cid with
  | some c => if (c.started || c.pausing) && src.epoch = c.epoch then coordPause cid
  | none =>
    match s.collOf cid with
    | none => return
    | some x =>
      if src.epoch = x.epoch then partPause cid
      else if src.epoch > x.epoch then modColl x.slot fun x => { x with pauseAt := some src.epoch }) s

/-- COLL_BITMAP (R469). -/
def execCollBitmap (cid epoch src : Nat) (done : List Nat) (s : State) : Host.Outcome State Fault Refusal :=
  run (coordBitmap cid epoch src done) s

/-- COLL_RESUME_MSG (R471). -/
def execCollResumeMsg (cid : Nat) (src : CollFrom) (s : State) : Host.Outcome State Fault Refusal :=
  run (coordResume cid src.epoch src.chip) s

/-- COLL_REPORT (R462). -/
def execCollReport (cid epoch src : Nat) (s : State) : Host.Outcome State Fault Refusal := run (coordReport cid epoch src) s

/-- COLL_FINISH (R462); one of an earlier epoch is discarded. -/
def execCollFinish (round : CollRound) (s : State) : Host.Outcome State Fault Refusal := run (do
  match s.collOf round.cid with
  | some x => if x.epoch = round.epoch then partEnd round.cid 4 0
  | none => return) s

/-- COLL_FAIL (R460): at the coordinator a participant's fault, elsewhere the coordinator's order. -/
def execCollFail (cid code : Nat) (s : State) : Host.Outcome State Fault Refusal := run (do
  if (s.coord? cid).isSome then coordFail cid code else partEnd cid 5 code) s

/-- COLL_ABORT_MSG (R479). -/
def execCollAbortMsg (cid src : Nat) (s : State) : Host.Outcome State Fault Refusal := run (do
  if (s.coord? cid).isSome then coordAbort cid src else partEnd cid 6 4) s

/-- CHUNK_DATA (R466); a message of an earlier epoch is dropped (R469). -/
def execChunkData (cid epoch chunk : Nat) (up : Bool) (src : Nat) (vals : List (Option Word)) (bad : List Nat) (s : State) :
    Host.Outcome State Fault Refusal := run (do
  match s.collOf cid with
  | none => return
  | some x => do
    let v : ChunkVals := { vals, bad }
    if epoch + 1 = x.starts && x.state = 2 then
      modColl x.slot fun y => { y with work := y.work.map fun k =>
        if k.chunk ≠ chunk then k
        else if up then { k with got := upsert (fun g => g.1 = src) (src, v) k.got } else { k with res := some v } }
      advanceColl x.slot
    else if epoch ≥ x.starts then
      modColl x.slot fun y => { y with early := y.early ++ [{ epoch, chunk, up, src, vals := v }] }) s

/-! ### Links (R453, R454, R469, R409) -/

/-- What a change of the map brings about: a participant whose trees lose an edge asks for a pause, and pod-wide domains
look for their coordinator. -/
def mapChanged (old : State) : W Unit := do
  let now := (← getSt).usableEdges
  let lost := fun (e : Edge) => old.usableEdges.contains e && !now.contains e
  for x in old.colls do
    if x.state = 2 && x.trees.any fun t => t.any lost then
      if x.rcd.coordChip = old.selfChip then coordPause x.rcd.cid
      else sendLink (.pause x.rcd.coordChip x.rcd.cid x.epoch)
  podRecoordinate old.podCoord

/-- LINK_UP (R452, R453): a peer with the chip's own number leaves LUP at 0. -/
def execLinkUp (link pchip pport : Nat) (s : State) : Host.Outcome State Fault Refusal := run (do
  setOwnLink link fun e => { e with lup := pchip ≠ s.selfChip, pchip, pport }
  let s' ← getSt
  for r in s'.linkMap.rows do
    if r.1 ≠ s.selfChip && pchip ≠ s.selfChip then sendFlit link r.1
  mapChanged s) s

/-- LINK_DOWN (R453). -/
def execLinkDown (link : Nat) (s : State) : Host.Outcome State Fault Refusal := run (do
  setOwnLink link fun e => { e with lup := false }
  mapChanged s) s

/-- LINK_STATE_FLIT (R453). -/
def execLinkStateFlit (link origin seq : Nat) (entries : List LinkEntry) (s : State) : Host.Outcome State Fault Refusal := run (do
  if ← applyFlit link origin seq entries then mapChanged s) s

end Sys2Proof.Machine
end

