-- ==== Sys2Proof/Machine/Fabric.lean ====
section
/-!
DEFINITION. The fabric (spec 05): the vault carve, subscriptions, message rings, ATS invalidations, and what the host does
to memory lines.
-/
namespace Sys2Proof.Machine

/-! ### Vault carve (R208, R231) -/

def popCount (x : Nat) : Nat := ((List.range 32).filter fun k => flag x k).length

/-- A range-table entry touches a way of `ways` in die `d`'s vault. -/
def State.rangeInWays (s : State) (d ways : Nat) (e : RangeEntry) : Bool :=
  let vb := (s.die d).vapbase.toNat
  let lo := vb / 2 ^ 33 * 2 ^ 33 + d * 2 ^ 29
  vb % 2 = 1 && e.spc = 0 && (List.range 20).any fun w =>
    flag ways w && e.base < lo + (w + 1) * 20971520 && lo + w * 20971520 < e.base + e.len

/-- Mark, or stop marking, what the engines of a die have accepted before a CARVE; the collective engine is on die 0. -/
def markEarly (d : Nat) (on : Bool) : W Unit :=
  upd fun s => { s with
    cores := s.cores.map fun c =>
      if dieOf c.id = d then { c with copy := c.copy.map fun k => { k with early := on } } else c
    colls := s.colls.map fun x => if d = 0 then { x with pre := on } else x }

/-- CARVE. Operand m; the thread waits in ENG from acceptance to the switch on the die that accepted it. -/
def performCarve (t : ThreadId) (e : Entry) : P (List Word) := do
  let d := dieOf t.core
  let x := (← getSt).die d
  match e.aux with
  | [k] => do
    if ((← getSt).die k).carve.any fun c => c.lead = t then throw .eng
    return [0]
  | _ => do
    if x.carve.isSome then return [2]
    let m := e.w 0
    if m ≥ 2 ^ 20 || popCount m > 16 then return [1]
    modDie d fun x => { x with carve := some { new := BitVec.ofNat 20 m, lead := t } }
    -- what the engines have accepted completes normally on the returned ways (R208)
    markEarly d true
    modEntry t e.id fun y => { y with aux := [d] }
    throw .eng

/-- Every range entry over a returned way has retired (R208 step 3). -/
def State.carveDrained (s : State) (d : Nat) : Bool :=
  match (s.die d).carve with
  | none => false
  | some c =>
    let ret := (s.die d).mask.toNat &&& (2 ^ 20 - 1 - c.new.toNat)
    s.cores.all fun k => dieOf k.id ≠ d || !k.ranges.any (s.rangeInWays d ret)

/-- CARVE_SWITCH (R208 steps 4 to 6): the new ways read zero, and the contents of the returned ways are gone. -/
def execCarveSwitch (die : Nat) (s : State) : Host.Outcome State Fault Refusal := run (do
  match (s.die die).carve with
  | none => return
  | some c => do
    if !s.carveDrained die then return
    let change := (s.die die).mask.toNat ^^^ c.new.toNat
    for w in List.range 20 do
      if flag change w then clearSpan (vaultBase die + w * 20971520) 20971520
    modDie die fun x => { x with mask := c.new, carve := none }
    markEarly die false
    match (s.thread? c.lead).bind fun th => th.unf.find? fun e => e.st = 0 && (match e.instr? with
      | some (.carve _) => true
      | _ => false) with
    | some e => attemptActing performCarve c.lead e.id
    | none => return) s

/-! ### Subscriptions (R209-R212, R229, R230) -/

/-- Physical pieces of a range that must be device memory homed on the die; every page translates before any is tested. -/
def subParts (x : Eng) (retry va n : Nat) : P (List SubPart) := do
  let mut out : List SubPart := []
  let mut off := 0
  for p in pieces (n / 4096 + 2) va n do
    let pa ← translate (.core x.core) x.pasid (BitVec.ofNat 64 p.1) .read retry
    out := out ++ [{ pa, off, len := p.2 }]
    off := off + p.2
  for p in out do
    if !isDevice p.pa || homeDie (p.pa / 128) ≠ dieOf x.core then raiseP .prot (BitVec.ofNat 64 (va + p.off))
  return out

def Sub.touches (u : Sub) (ps : List SubPart) : Bool :=
  u.parts.any fun p => ps.any fun q => p.pa < q.pa + q.len && q.pa < p.pa + p.len

/-- SUBSCR. Operands a, n, o. Its first attempt makes the entry; it completes with the mirror. -/
def performSubscr (t : ThreadId) (th : Thread) (e : Entry) : P (List Word) := do
  let s ← getSt
  let x := s.eng t.core th.slot
  match e.aux with
  | [h] => do
    if (s.core t.core).subs.any fun u => u.handle = h && !u.ready then throw .eng
    return [BitVec.ofNat 32 h]
  | _ => do
    let a := e.d 0
    let n := e.w 2
    let o := e.w 3
    if a.toNat % 128 ≠ 0 || n % 128 ≠ 0 || o % 128 ≠ 0 then raiseP .align a
    if n = 0 || n > 262144 then raiseP .prot a
    if o + n > x.size || s.protectedSpan t.core (x.base + o) n then raiseP .prot (BitVec.ofNat 64 o)
    if !canonical a.toNat then raiseP .prot a
    let parts ← subParts x e.retry a.toNat n
    let c := s.core t.core
    if c.subs.any fun u => u.live && u.touches parts then raiseP .prot a
    match (List.range 8).find? fun h => !(c.subs.any fun u => u.handle = h) with
    | none => return [0x80000001]
    | some h => do
      let used := (s.cores.filter fun k => dieOf k.id = dieOf t.core).flatMap fun k => k.subs.filter Sub.live
      if used.length ≥ 256 then return [0x80000002]
      performedBefore t e.id .grp a
      for p in parts do
        takeBack p.pa p.len a
        flushSpan t.core p.pa p.len a
      modCore t.core fun c => { c with subs := c.subs ++
        [{ handle := h, slot := th.slot, pasid := x.pasid, va := a.toNat, parts, len := n, mirror := x.base + o }] }
      modEntry t e.id fun y => { y with aux := [h] }
      throw .eng

/-- Copy the range into the mirror as of the last number issued (R210); the core's L1 holds no copy of the range (R211). -/
def copyRange (core : Nat) (u : Sub) : P Unit := do
  for p in u.parts do
    flushSpan core p.pa p.len 0
    takeBack p.pa p.len 0
    needSpan p.pa p.len false 0
  for p in u.parts do
    let bs ← readBytes p.pa p.len
    mirrorPut core u p.off bs none
    let s ← getSt
    for w in wordsOf p.pa p.len do
      let m := scratchBase core + u.mirror + p.off + (w - p.pa)
      if s.poisoned w 4 then poisonAt m 4
      match s.markAt w with
      | some sc => upd fun s => { s with published := { addr := m, scope := sc } :: s.published }
      | none => pure ()

/-- SUBSCR_MIRROR_COMPLETE (R229). -/
def execSubscrMirrorComplete (core handle : Nat) (s : State) : Host.Outcome State Fault Refusal := run (do
  match (s.core core).subs.find? fun u => u.handle = handle && !u.ready with
  | none => return
  | some u => do
    match ← (if u.live then copyRange core u else pure () : P Unit).run with
    | .error _ => return
    | .ok _ => do
      let seq := (((← getSt).subSeq.find? fun x => x.1 = u.parts).map (·.2)).getD 0
      modSub core handle fun u => { u with ready := true, seq, early := [] }
      for th in (← getSt).teamThreads core u.slot do
        match th.unf.find? fun e => e.st = 0 && e.aux = [handle] && (match e.instr? with
          | some (.subscr _) => true
          | _ => false) with
        | some e => attemptActing (fun t e => performSubscr t th e) th.tid e.id
        | none => pure ()) s

/-- SUB_UPDATE_APPLY (R210): the next update in sequence order. -/
def execSubUpdateApply (core handle : Nat) (s : State) : Host.Outcome State Fault Refusal := run (do
  match (s.core core).subs.find? fun u => u.handle = handle && u.live && u.ready with
  | none => return
  | some u =>
    match u.early.find? fun e => e.seq = (u.seq + 1) % 2 ^ 32 with
    | none => return
    | some e => applyUpdate core u e) s

/-- UNSUBSCR. Operand h. The core's contributions to the range are merged, and it waits for the updates that carry the
core's writes. -/
def performUnsubscr (t : ThreadId) (th : Thread) (e : Entry) : P (List Word) := do
  match ((← getSt).core t.core).subs.find? fun u => u.handle = e.w 0 && u.slot = th.slot with
  | none => raiseP .prot
  | some u => do
    performedBefore t e.id .grp (BitVec.ofNat 64 u.va)
    for p in u.parts do takeBack p.pa p.len (BitVec.ofNat 64 u.va)
    let u := (((← getSt).core t.core).subs.find? fun y => y.handle = u.handle).getD u
    if u.live && u.early.any fun y => y.src = t.core + 1 then throw .eng
    modCore t.core fun c => { c with subs := c.subs.filter fun y => y.handle ≠ u.handle }
    return [if u.live then 0 else 1]

/-- A subscription lapses (R212). -/
def Sub.lapse (u : Sub) : Sub := { u with live := false, early := [] }

/-! ### Message rings (R220-R224, R232-R234) -/

def State.ring? (s : State) (core i : Nat) : Option Ring := (s.core core).rings.find? fun r => r.idx = i
def Ring.at_ (r : Ring) (core : Nat) : Nat := scratchBase core + r.off

/-- An earlier store of the thread to a payload is still to be performed: the payload is copied after it (R125). -/
def State.payloadOpen (s : State) (x : Eng) (th : Thread) (id off n : Nat) : Bool :=
  (th.olderThan id).any fun o => match o.acc? with
    | some (_, a) => a.writes && a.space ≠ 0
        && ((s.spots th a o).getD []).any fun p => p.1 < x.spa off + n && x.spa off < p.1 + p.2
    | none => false

/-- MSEND. Operands a, o, n. The payload is copied at once; the earlier accesses that a `rel` message goes after are kept
with it (R222, R223). -/
def performMsend (rel : Bool) (t : ThreadId) (th : Thread) (e : Entry) : P (List Word) := do
  let x := (← getSt).eng t.core th.slot
  let a := (e.d 0).toNat
  let o := e.w 2
  let n := e.w 3
  if a / 2 ^ 41 ≠ 0 || a % 2 ^ 32 ≥ 8 || n % 4 ≠ 0 || n < 4 || n > 248 || o + n > x.size then raiseP .prot (e.d 0)
  if o % 4 ≠ 0 then raiseP .align (BitVec.ofNat 64 o)
  if (← getSt).payloadOpen x th e.id o n then throw .eng
  let c := (← getSt).core t.core
  let order := (((← getSt).launch? th.lslot).map Launch.order).getD 0
  let after := if rel then ((th.olderThan e.id).filter fun y => y.acc?.isSome).map fun y => (t, y.tag) else []
  if c.sendBuf.length ≥ 16 then throw .eng
  let (payload, bad) ← spRead x o n
  if bad then raiseP .ecc (BitVec.ofNat 64 o)
  modCore t.core fun c => { c with
    sendBuf := c.sendBuf ++ [{ dst := a / 2 ^ 32 % 512, ring := a % 8, payload, seq := c.msgCount % 2 ^ 16
                               slot := th.slot, order, after, rel }]
    msgCount := c.msgCount + 1 }
  return []

/-- A message of the core's buffer that no earlier one to the same ring holds back (R222). -/
def CoreSt.sendable (c : CoreSt) (idx : Nat) : Option Msg :=
  match c.sendBuf[idx]? with
  | some m => if (c.sendBuf.take idx).any fun y => y.dst = m.dst && y.ring = m.ring then none else some m
  | none => none

/-- A thread, resident or saved. A message names a thread of a saved team by its image, as core 1024 and up. -/
def State.sender? (s : State) (t : ThreadId) : Option Thread :=
  if t.core < 1024 then s.thread? t
  else (s.images.find? fun i => 1024 + i.id = t.core).bind fun i =>
    i.threads.find? fun x => { x.tid with core := t.core } = t

/-- The accesses that a message goes after have been performed (R222). -/
def State.msgReady (s : State) (m : Msg) : Bool :=
  m.after.all fun y => match s.sender? y.1 with
    | some th => !th.unf.any fun e => e.tag = y.2 && e.open_
    | none => true

/-- Messages name the threads of a team by new identifiers. -/
def renameSenders (f : ThreadId → ThreadId) : W Unit :=
  upd fun s => { s with
    cores := s.cores.map fun c => { c with
      sendBuf := c.sendBuf.map fun m => { m with after := m.after.map fun y => (f y.1, y.2) } } }

/-- MSG_DELIVER (R222). A `rel` message is appended after its sender's release at dev scope. -/
def execMsgDeliver (core idx : Nat) (s : State) : Host.Outcome State Fault Refusal := run (do
  match (s.core core).sendable idx with
  | none => return
  | some m => do
    if !s.msgReady m then return
    if m.rel then
      match ← (releaseAct core .dev 0 : P Unit).run with
      | .error _ => return
      | .ok _ => pure ()
    let drop : W Unit := modCore core fun c => { c with sendBuf := c.sendBuf.eraseIdx idx }
    let ring := (s.ring? m.dst m.ring).filter fun r =>
      (((s.team? m.dst r.slot).bind fun tm => s.launch? tm.lslot).map Launch.order) = some m.order
    match ring with
    | none => do
      modCore m.dst fun c => { c with ringDrop := c.ringDrop + 1 }
      drop
    | some r => do
      let h := r.at_ m.dst
      let tail ← readNat h 4
      let head ← readNat (h + 4) 4
      if (tail + 2 ^ 32 - head) % 2 ^ 32 = 2 ^ r.logn then
        if !m.counted then
          let held ← readNat (h + 0xC) 4
          storeNat (h + 0xC) 4 ((held + 1) % 2 ^ 32)
          modCore core fun c => { c with sendBuf := c.sendBuf.set idx { m with counted := true } }
      else
        let slot := h + 64 + 256 * (tail % 2 ^ r.logn)
        storeAt slot (leBytes 2 m.payload.length ++ leBytes 1 (core % 32) ++ leBytes 1 (core / 32) ++ leBytes 2 m.seq
          ++ leBytes 2 m.slot ++ m.payload)
        storeNat h 4 ((tail + 1) % 2 ^ 32)
        drop) s

/-- RINGSET. Operand o, or with .off none. The new region of an index that the team holds is not tested against that index's
own old ring, which it replaces (DESIGN CHOICE, log 57: R233 registers it anew, R498 names no exception). -/
def performRingset (off : Bool) (i k : Nat) (t : ThreadId) (th : Thread) (e : Entry) : P (List Word) := do
  let s ← getSt
  let x := s.eng t.core th.slot
  let old := s.ring? t.core i
  if off then
    if !(old.any fun r => r.slot = th.slot) then raiseP .queue
    modCore t.core fun c => { c with rings := c.rings.filter fun r => r.idx ≠ i }
    return []
  else
    let o := e.w 0
    let fa := BitVec.ofNat 64 o
    let n := 64 + 256 * 2 ^ k
    let others : State := { s with cores := s.cores.map fun c =>
      if c.id = t.core then { c with rings := c.rings.filter fun r => r.idx ≠ i } else c }
    if o % 64 ≠ 0 || o + n > x.size || (old.any fun r => r.slot ≠ th.slot)
        || others.protectedSpan t.core (x.base + o) n then raiseP .prot fa
    performedBefore t e.id .team fa
    modCore t.core fun c => { c with
      rings := (c.rings.filter fun r => r.idx ≠ i) ++ [{ idx := i, slot := th.slot, off := x.base + o, logn := k }] }
    storeAt (x.spa o) (List.replicate 8 0 ++ leBytes 4 (k * 16 + i) ++ List.replicate 52 0)
    return []

/-- RINGADV. Operand c. -/
def performRingadv (i : Nat) (t : ThreadId) (th : Thread) (e : Entry) : P (List Word) := do
  match ((← getSt).ring? t.core i).filter fun r => r.slot = th.slot with
  | none => raiseP .queue
  | some r => do
    performedBefore t e.id .team 0
    -- the earlier reads of the group's other lanes, which wait for this action
    for y in (← getSt).groupThreads t.core th.slot th.grp do
      if y.waitsActing t e.id && y.unf.any fun o => o.acc?.isSome && o.val.isNone then throw .eng
    let h := r.at_ t.core
    let tail ← readNat h 4
    let head ← readNat (h + 4) 4
    let c := e.w 0
    if c > (tail + 2 ^ 32 - head) % 2 ^ 32 then raiseP .queue
    if c ≠ 0 then storeNat (h + 4) 4 ((head + c) % 2 ^ 32)
    return []

/-! ### The instructions (R228) -/

def performFabric (i : Instr) (t : ThreadId) (e : Entry) : P (List Word) := do
  match (← getSt).thread? t with
  | none => return []
  | some th =>
    match i with
    | .subscr _ => performSubscr t th e
    | .unsubscr _ => performUnsubscr t th e
    | .carve _ => performCarve t e
    | .msend w => performMsend w.fl t th e
    | .ringset w => performRingset w.fl (w.o1.toNat % 8) (w.o3.toNat % 16) t th e
    | .ringadv w => performRingadv (w.o1.toNat % 8) t th e
    | _ => return []

def isFabricOp (i : Instr) : Bool :=
  match i with | .subscr _ | .unsubscr _ | .carve _ | .msend _ | .ringset _ | .ringadv _ => true | _ => false

def issueFabric (i : Instr) : W Unit := issueActing i (captureE i) (performFabric i)

def execSubscr (w : EWord) (s : State) : Host.Outcome State Fault Refusal := run (issueFabric (.subscr w)) s
def execUnsubscr (w : EWord) (s : State) : Host.Outcome State Fault Refusal := run (issueFabric (.unsubscr w)) s
def execCarve (w : EWord) (s : State) : Host.Outcome State Fault Refusal := run (issueFabric (.carve w)) s
/-- MSEND acts once per thread. -/
def execMsend (w : EWord) (s : State) : Host.Outcome State Fault Refusal :=
  run (issueCmd (.msend w) (captureE (.msend w)) (performFabric (.msend w))) s
def execRingset (w : EWord) (s : State) : Host.Outcome State Fault Refusal := run (issueFabric (.ringset w)) s
def execRingadv (w : EWord) (s : State) : Host.Outcome State Fault Refusal := run (issueFabric (.ringadv w)) s

/-! ### ATS invalidations (R227) -/

/-- The entry's page holds a page of a run. -/
def TlbEntry.inRun (e : TlbEntry) (pasid vpn pages : Nat) : Bool :=
  let z := pagesIn e.tr.size
  e.pasid = pasid && vpn < e.vpn / z * z + z && e.vpn / z * z < vpn + pages
/-- Physical page of an entry: base and length. -/
def TlbEntry.page (e : TlbEntry) : Nat × Nat :=
  let z := pagesIn e.tr.size
  (e.phys (e.vpn / z * z * 4096), 4096 * z)

/-- What cannot be answered yet comes again later: an access of the host while a device RMW of its line is in progress (R215,
R216), or an invalidation beyond the 32 that may be in flight (R482). -/
def comesAgain (i : Instr) : W Unit := upd fun s => { s with inbox := s.inbox ++ [i] }

/-- ATS_INVALIDATION: entries leave every TLB, the walker caches give up what lies in their pages (R425), and affected
subscriptions lapse. -/
def execAtsInvalidation (pasid vpn pages : Nat) (s : State) : Host.Outcome State Fault Refusal := run (do
  if s.invals.length ≥ 32 then
    comesAgain (.atsInvalidation pasid vpn pages)
    return
  let out := ((s.tlb.filter fun e => e.inRun pasid vpn pages).map TlbEntry.page).eraseDups
  for p in out do walkDrop p.1 p.2
  walkDropRange pasid (vpn * 4096) (pages * 4096)
  let hit := fun (u : Sub) => u.pasid = pasid && u.va < (vpn + pages) * 4096 && vpn * 4096 < u.va + u.len
  upd fun s => { s with
    tlb := s.tlb.filter fun e => !e.inRun pasid vpn pages
    cores := s.cores.map fun c => { c with subs := c.subs.map fun u => if hit u then u.lapse else u }
    images := s.images.map fun i => { i with subs := i.subs.map fun u => if hit u then u.lapse else u }
    invals := s.invals ++ [{ pages := out }] }) s

/-- Copy back every core's dirty words, and merge every contribution, that lie in a span. -/
def flushPage (a n : Nat) : P Unit := do
  for c in (← getSt).cores do
    for x in c.red do if a ≤ x.addr && x.addr < a + n then mergeOne c.id x 0
    for w in c.dirtyWords do if a ≤ w && w < a + n then copyBack c.id w 0

/-- INVALIDATION_COMPLETION: every access that used a removed entry is performed first, a store that stands in an L1 and a
contribution in a reduction buffer among them (R227). -/
def execInvalidationCompletion (s : State) : Host.Outcome State Fault Refusal := run (do
  match s.invals with
  | [] => return
  | x :: rest =>
    match ← (do for p in x.pages do flushPage p.1 p.2 : P Unit).run with
    | .error _ => return
    | .ok _ => do
      upd fun s => { s with invals := rest }
      sendHost .invDone) s

/-! ### The host's accesses (R215-R217) -/

def HostOp.size (op : HostOp) : Nat :=
  match op with
  | .read n => n
  | .write bs => bs.length
  | .add n _ | .exch n _ | .cas n _ _ => n

/-- A host access at a physical address, whole; answers what it read. -/
def hostApply (a : Nat) (op : HostOp) : W (List Byte) := do
  let old ← readBytes a (HostOp.size op)
  match op with
  | .read _ => pure ()
  | .write bs => storeAt a bs
  | .add n v => storeAt a (leBytes n (leValue old + v.toNat))
  | .exch n v => storeAt a (leBytes n v.toNat)
  | .cas n e v => if leValue old = e.toNat % 2 ^ (8 * n) then storeAt a (leBytes n v.toNat)
  return old

/-- HOST_MEM_ACCESS (R215): the host may hold the halves it has accessed. A tripped or locked device answers reads with poison
and performs no write (R492, R495). -/
def execHostMemAccess (addr : Nat) (op : HostOp) (s : State) : Host.Outcome State Fault Refusal := run (do
  let n := HostOp.size op
  if n = 0 || addr + n > 2 ^ 40 then return
  if s.thermTrip || s.sec.locked then sendHost (.memData (List.replicate n 0) true)
  else
    match ← (takeBack addr n 0 : P Unit).run with
    | .error (.wait) | .error (.line ..) => comesAgain (.hostMemAccess addr op)
    | _ => do
      let bad ← isPoisoned addr n
      let old ← hostApply addr op
      let halves := (List.range ((addr + n - 1) / 64 + 1 - addr / 64)).map (addr / 64 + ·)
      upd fun s => { s with hostHeld := s.hostHeld ++ halves.filter fun h => !s.hostHeld.contains h }
      sendHost (.memData old bad)) s

/-- HOST_SNOOP (R216): the line leaves the exclusive state, or the cache, and the host's access is made. -/
def execHostSnoop (line : Nat) (op : HostOp) (off : Nat) (s : State) : Host.Outcome State Fault Refusal := run (do
  let n := HostOp.size op
  if off + n > 64 then return
  let a := hostBase + 64 * line + off
  match ← (takeBack (hostBase + 64 * line) 64 0 : P Unit).run with
  | .error (.wait) | .error (.line ..) => comesAgain (.hostSnoop line op off)
  | _ => do
    match op with
    | .read _ => upd fun s => { s with hlc := s.hlc.map fun h => if h.line = line then { h with own := false, dirty := false } else h }
    | _ => upd fun s => { s with hlc := s.hlc.filter fun h => h.line ≠ line }
    sendHost (.snoopData (← hostApply a op))) s

/-- HLC_EVICT (R217). -/
def execHlcEvict (line : Nat) (s : State) : Host.Outcome State Fault Refusal := run (do
  match s.hlc.find? fun h => h.line = line with
  | none => return
  | some h => do
    upd fun s => { s with hlc := s.hlc.filter fun h => h.line ≠ line }
    sendHost (if h.dirty then .dirtyEvict line else .cleanEvict line)) s

/-- A host line enters the host-line cache, 32 MiB in sets of 16 (R216); it goes to set line mod 32,768, and the oldest line
of a full set leaves for it (DESIGN CHOICE, log 56). -/
def hlcFill (h : HlcLine) : W Unit := do
  let s ← getSt
  let others := s.hlc.filter fun y => y.line ≠ h.line
  let set_ := others.filter fun y => y.line % 32768 = h.line % 32768
  let out := set_.drop 15
  upd fun s => { s with hlc := h :: others.filter fun y => !out.contains y }
  for y in out do sendHost (if y.dirty then .dirtyEvict y.line else .cleanEvict y.line)

/-- BIRSP (R215). -/
def execBirsp (half : Nat) (s : State) : Host.Outcome State Fault Refusal := run (do
  upd fun s => { s with hostHeld := s.hostHeld.filter fun h => h ≠ half, bisnp := s.bisnp.filter fun h => h ≠ half }
  advanceAll) s

/-- SOFT_ERROR (R203): an uncorrectable error in slice or stack data poisons its word; a correctable one is counted. -/
def execSoftError (addr : Nat) (correctable : Bool) (s : State) : Host.Outcome State Fault Refusal := run (do
  if isDevice addr || isVault addr then
    if correctable then upd fun s => { s with corrected := s.corrected + 1 } else poisonAt addr 1) s

end Sys2Proof.Machine
end

