-- ==== Sys2Proof/Machine/Dispatcher.lean ====
section
/-!
DEFINITION. The dispatcher (spec 07): launch queues, launches from taking to ending, placement and retirement of teams,
drain, abort, the watchdog, and the dispatcher instructions. Item assignment stands in Sequencer.lean.
-/
namespace Sys2Proof.Machine

/-! ### Launch queues (R249, R250) -/

def QueueSt.logsz (q : QueueSt) : Nat := fld q.qctl.toNat 8 4
def QueueSt.progen (q : QueueSt) : Bool := flag q.qctl.toNat 3
def QueueSt.prio (q : QueueSt) : Nat := fld q.qctl.toNat 1 2
/-- EN is set and LOGSZ does not disable the queue. -/
def QueueSt.enabled (q : QueueSt) : Bool := flag q.qctl.toNat 0 && 2 ≤ q.logsz && q.logsz ≤ 12
/-- Records between HEAD and TAIL. -/
def QueueSt.count (q : QueueSt) : Nat := (q.tail - q.head).toNat
/-- Device address of record `k`. -/
def QueueSt.slotAt (q : QueueSt) (k : Nat) : Nat := q.qbase.toNat / 2 ^ 8 % 2 ^ 32 * 2 ^ 8 + 256 * (k % 2 ^ q.logsz)

/-- QSTAT.FAULT with a code, and the queue's vector. -/
def queueFault (q code : Nat) (vector : Bool) : W Unit := do
  modQueue q fun x => { x with fault := true, fcode := code }
  if vector then msix (2 + q)

/-- A step of a queue whose behaviour R249 leaves undefined has no next state. -/
def onQueue (q : Nat) (b : W Unit) (s : State) : Host.Outcome State Fault Refusal :=
  if (s.queue q).undef then .fault (.queueUndefined q) else run b s

/-- QTAIL_WRITE (R250). -/
def execQtailWrite (q : Nat) (v : Word) (s : State) : Host.Outcome State Fault Refusal := onQueue q (do
  let x := s.queue q
  if x.progen then return
  if (v - x.tail).toNat ≤ 2 ^ x.logsz && (v - x.head).toNat ≤ 2 ^ x.logsz then modQueue q fun x => { x with tail := v }
  else queueFault q 9 true) s

/-- QPUSH_WRITE (R250). -/
def execQpushWrite (q : Nat) (v : DWord) (s : State) : Host.Outcome State Fault Refusal := run (do
  if !(s.queue q).busy then
    modQueue q fun x => { x with qpush := BitVec.ofNat 64 (v.toNat / 2 ^ 8 % 2 ^ 32 * 2 ^ 8), busy := true }) s

/-- Store a record in the slot at TAIL, with the poison of its source words, and advance TAIL. -/
def enqueue (q : Nat) (bs : List Byte) (bad : List Nat) (fa : DWord) : P Unit := do
  let x := (← getSt).queue q
  let a := x.slotAt x.tail.toNat
  takeBack a 256 fa
  needSpan a 256 true fa
  storeAt a bs
  for b in bad do poisonAt (a + b) 4
  modQueue q fun x => { x with tail := x.tail + 1 }

/-- Poisoned words of a span, as offsets. -/
def badWords (a n : Nat) : W (List Nat) := do
  let s ← getSt
  return ((List.range (n / 4)).map (4 * ·)).filter fun k => s.poisoned (a + k) 4

/-- QPUSH_COMPLETE (R250). -/
def execQpushComplete (q : Nat) (s : State) : Host.Outcome State Fault Refusal := onQueue q (do
  let x := s.queue q
  let done := fun (res : Nat) => modQueue q fun x => { x with busy := false, res }
  if !x.busy then return
  if !x.enabled then done 2
  else if x.count ≥ 2 ^ x.logsz then done 1
  else
    let r ← (do
      takeBack x.qpush.toNat 256 0
      needSpan x.qpush.toNat 256 false 0
      enqueue q (← readBytes x.qpush.toNat 256) (← badWords x.qpush.toNat 256) 0 : P Unit).run
    match r with
    | .ok _ => done 0
    | .error _ => return) s

/-! ### Launch records and kernel descriptors (R255, R258, R259) -/

/-- A launch record from its 256 bytes. -/
def parseRecord (b : Nat) : Record :=
  let d := fun k => BitVec.ofNat 64 (fld b (8 * k) 64)
  { kdesc := d 0, args := d 8, items := fld b 0x80 32, teams := fld b 0xA0 32, launchId := BitVec.ofNat 32 (fld b 0xC0 32)
    pasid := fld b 0xE0 20, wdog := fld b 0x100 32, cosched := flag b 0x121, serial := flag b 0x120
    diemask := BitVec.ofNat 16 (fld b 0x140 16), maxcores := fld b 0x160 32, cc := d 0x30, ccinc := fld b 0x1C0 32
    dep := (List.range 4).map fun j => (d (0x40 + 16 * j), d (0x48 + 16 * j)), status := d 0x80, teammap := d 0x88 }

/-- The record keeps the limits of Table 7.3. -/
def recordOk (b : Nat) (r : Record) : Bool :=
  r.kdesc.toNat % 128 = 0 && 1 ≤ r.teams && r.teams ≤ 2 ^ 20 && fld b (8 * 0x1C + 20) 12 = 0 && fld b (8 * 0x24 + 2) 30 = 0
    && fld b (8 * 0x28 + 16) 16 = 0 && r.cc.toNat % 8 = 0 && fld b (8 * 0x3C) 32 = 0
    && (r.dep.all fun x => x.1.toNat % 8 = 0) && r.status.toNat % 8 = 0 && r.teammap.toNat % 8 = 0
    && fld b (8 * 0x90) (8 * 0x70) = 0

/-- A kernel descriptor from its 128 bytes. -/
def parseDesc (b : Nat) : Desc :=
  let w := fun k => fld b (8 * k) 32
  { refill := w 4, trapvec := fld (w 8) 3 29, tv := flag (w 8) 0, prom := flag (w 0xC) 22, nq := fld (w 0xC) 18 4
    gw := 8 * 2 ^ fld (w 0xC) 13 2, teamSize := fld (w 0xC) 0 13, carve := fld (w 0x10) 16 3, fair := fld (w 0x10) 0 16
    scratch := fld (w 0x14) 0 21
    roles := (List.range (fld (w 0xC) 16 2 + 1)).map fun i =>
      { gran := fld (w (0x18 + 4 * i)) 22 6, decl := fld (w (0x18 + 4 * i)) 13 9, thr := fld (w (0x18 + 4 * i)) 0 13 }
    cv := (List.range 16).map fun j => (fld b (8 * (0x28 + j)) 3, fld b (8 * (0x28 + j) + 3) 2) }

/-- The descriptor passes the checks of Table 7.4 and R259. -/
def descOk (b : Nat) (d : Desc) : Bool :=
  let w := fun k => fld b (8 * k) 32
  w 0 = 1 && d.refill % 8 = 0 && 0x80 ≤ d.refill && fld (w 8) 1 2 = 0 && fld (w 0xC) 23 9 = 0 && fld (w 0xC) 15 1 = 0
    && d.nq ≤ 8 && d.teamSize % d.gw = 0 && 8 ≤ d.teamSize && d.teamSize ≤ 4096
    && fld (w 0x10) 19 13 = 0 && d.carve ≤ 5 && 64 ≤ d.fair && fld (w 0x14) 21 11 = 0 && d.scratch % 256 = 0
    && d.scratch ≤ carveBytes d.carve
    && (d.roles.all fun r => 8 ≤ r.decl && r.decl ≤ 320 && r.gran = ceilDiv r.decl 8 && r.thr % d.gw = 0)
    && ((List.range 4).all fun i => decide (i < d.roles.length) || w (0x18 + 4 * i) = 0)
    && (List.range 4).all (fun i => fld (w (0x18 + 4 * i)) 28 4 = 0)
    && (d.roles.foldl (fun n r => n + r.thr) 0) = d.teamSize
    && (List.range 16).all (fun j => fld b (8 * (0x28 + j) + 5) 3 = 0)
    && (d.cv.all fun x => x.1 ≤ 4 && ((x.1 ≠ 2 && x.1 ≠ 4) || x.2 < d.roles.length))
    && fld b (8 * 0x38) (8 * 0x48) = 0

/-! ### Placement (R263-R265) -/

/-- Registers held in a run of lanes of one row of a quarter. -/
structure Slab where
  qtr  : Nat
  row  : Nat
  base : Nat
  w    : Nat
  gran : Nat
deriving DecidableEq, Repr

/-- What the resident threads of a core hold. -/
def State.slabs (s : State) (core : Nat) : List Slab :=
  (s.threads.filter fun t => t.tid.core = core).map fun t =>
    { qtr := t.tid.qtr, row := t.tid.row, base := t.tid.lane, w := 1, gran := ceilDiv t.declared 8 }

/-- The lanes are free in the row and keep the granule limit of R155. -/
def slabFits (us : List Slab) (x : Slab) : Bool :=
  let mine := us.filter fun u => u.qtr = x.qtr && u.base < x.base + x.w && x.base < u.base + u.w
  !(mine.any fun u => u.row = x.row) && (List.range x.w).all fun k =>
    (mine.foldl (fun n u => if u.base ≤ x.base + k && x.base + k < u.base + u.w then n + u.gran else n) 0) + x.gran
      ≤ Config.laneGranules

/-- A run of lanes for a group, looked for from row `rot` on. -/
def findRun (us : List Slab) (qtr w gran rot : Nat) : Option Slab :=
  ((List.range 32).flatMap fun r => (List.range (64 / w)).map fun b =>
    ({ qtr, row := (r + rot) % 32, base := w * b, w, gran } : Slab)).find? (slabFits us)

/-- Runs of lanes for groups, each given by its quarter and granules: each takes the first run that fits. -/
def planGroups (us : List Slab) (w rot : Nat) (needs : List (Nat × Nat)) : Option (List Slab) :=
  match needs with
  | [] => some []
  | n :: r =>
    match findRun us n.1 w n.2 rot with
    | none => none
    | some x => (planGroups (x :: us) w rot r).map (x :: ·)

/-- The first row with room for a group in one aligned run of lanes. -/
def firstRow (us : List Slab) (w rot : Nat) (n : Nat × Nat) (b : Nat) : Option Slab :=
  ((List.range 32).map fun r => ({ qtr := n.1, row := (r + rot) % 32, base := w * b, w, gran := n.2 } : Slab)).find?
    (slabFits us)

/-- Every choice of lanes is tried: some runs for the groups, if there are any. Which row of its lanes a group takes does
not matter to the others. -/
def planSearch (us : List Slab) (w rot : Nat) (needs : List (Nat × Nat)) : Option (List Slab) :=
  match needs with
  | [] => some []
  | n :: r => ((List.range (64 / w)).filterMap (firstRow us w rot n)).findSome? fun x =>
      (planSearch (x :: us) w rot r).map (x :: ·)

/-- Granules at the fullest lane, and rows in use, of a run of lanes. -/
def laneUse (us : List Slab) (qtr w b : Nat) : Nat × Nat :=
  let mine := us.filter fun u => u.qtr = qtr && u.base < w * b + w && w * b < u.base + u.w
  (((List.range w).map fun k =>
      mine.foldl (fun n u => if u.base ≤ w * b + k && w * b + k < u.base + u.w then n + u.gran else n) 0).foldl max 0,
    (mine.map Slab.row).eraseDups.length)

/-- The quarters hold as many granules and rows as the groups need: a plan needs this much at least. -/
def roomFor (us : List Slab) (w : Nat) (needs : List (Nat × Nat)) : Bool :=
  (List.range 4).all fun q =>
    let ns := needs.filter fun n => n.1 = q
    let free := (List.range (64 / w)).map (laneUse us q w)
    ns.foldl (fun k n => k + n.2) 0 ≤ free.foldl (fun k f => k + (Config.laneGranules - f.1)) 0
      && ns.length ≤ free.foldl (fun k f => k + (32 - f.2)) 0

/-- Runs of lanes for groups, whenever there are any (R259, R264, R265). -/
def planSlots (us : List Slab) (w rot : Nat) (needs : List (Nat × Nat)) : Option (List Slab) :=
  match planGroups us w rot needs with
  | some xs => some xs
  | none => if roomFor us w needs then planSearch us w rot needs else none

/-- Role of a team index (R157). -/
def Desc.roleOf (d : Desc) (tidx : Nat) : Nat :=
  ((List.range d.roles.length).find? fun i =>
    tidx < (d.roles.take (i + 1)).foldl (fun n r => n + r.thr) 0).getD 0
def Desc.role (d : Desc) (i : Nat) : Role := (d.roles[i]?).getD { gran := 0, decl := 0, thr := 0 }
/-- Granules of each group of the team. -/
def Desc.grans (d : Desc) : List Nat :=
  (List.range (d.teamSize / d.gw)).map fun g => (d.role (d.roleOf (g * d.gw))).gran
/-- Quarter and granules of each group (R265). -/
def Desc.needs (d : Desc) : List (Nat × Nat) := d.grans.zipIdx.map fun x => (x.2 % 4, x.1)

/-- Where a team goes: its core, team slot, scratchpad base, and the lanes of its groups. -/
structure Spot where
  core : Nat
  slot : Nat
  base : Nat
  runs : List Slab
deriving DecidableEq, Repr

/-- Free starts for a run of `n` scratchpad bytes. -/
def State.freeBases (s : State) (core code n : Nat) : List Nat :=
  let used := (s.teams.filter fun t => t.core = core).map fun t => (t.base, t.scratch)
  if n > carveBytes code then []
  else ((List.range ((carveBytes code - n) / 256 + 1)).map (256 * ·)).filter fun b =>
    !used.any fun u => u.1 < b + n && b < u.1 + u.2

def State.freeSlots (s : State) (core : Nat) : List Nat :=
  (List.range 1024).filter fun k => (s.team? core k).isNone

/-- Cores that hold a team of the launch. -/
def State.coresOf (s : State) (l : Nat) : List Nat :=
  ((s.teams.filter fun t => t.lslot = l).map Team.core).eraseDups

/-- The core may receive teams: it is neither gated, nor being ungated, nor marked for gating (R489). -/
def State.openCore (s : State) (c : Nat) : Bool :=
  !(s.core c).gated && !(s.core c).ungating && !flag (s.die (dieOf c)).cgate.toNat (c % 32)

def Launch.onDie (l : Launch) (c : Nat) : Bool := l.rcd.diemask = 0 || flag l.rcd.diemask.toNat (dieOf c)

/-- The core is on an allowed die, open, and not reserved for another queue (R278). -/
def State.mayUse (s : State) (l : Launch) (c : Nat) : Bool :=
  l.onDie c && s.openCore c && s.reserved.all fun r => r.1 ≠ c || r.2 = l.queue

/-- The core's carve setting suits the descriptor, and the launch may hold the core (R265). -/
def State.coreSuits (s : State) (l : Launch) (d : Desc) (c : Nat) : Bool :=
  let empty := !s.teams.any fun t => t.core = c
  let held := s.coresOf l.slot
  (empty || (s.core c).carve = d.carve) && (l.rcd.maxcores = 0 || held.contains c || held.length < l.rcd.maxcores)

/-- A place for a team of the launch on a core; `rot`, `nb` and `ns` say how the device picks rows, base and slot. -/
def State.planTeam (s : State) (l : Launch) (d : Desc) (core rot nb ns : Nat) : Option Spot :=
  if !s.coreSuits l d core then none
  else
    let bases := s.freeBases core d.carve d.scratch
    let slots := s.freeSlots core
    match bases[nb % max 1 bases.length]?, slots[ns % max 1 slots.length]? with
    | some base, some slot => (planSlots (s.slabs core) d.gw rot d.needs).map fun runs => { core, slot, base, runs }
    | _, _ => none

/-- Up to `k` of the starts, `n` bytes apart; teams without scratchpad bytes share one. -/
def spaced (n k lo : Nat) (bs : List Nat) : List Nat :=
  match bs with
  | [] => []
  | b :: r => if n = 0 then List.replicate k b else if k = 0 then [] else if lo ≤ b then b :: spaced n (k - 1) (b + n) r else spaced n k lo r

/-- Places for `k` teams of the launch together on a core, whenever there are any. -/
def State.planTeams (s : State) (l : Launch) (d : Desc) (core k : Nat) : Option (List Spot) :=
  if !s.coreSuits l d core then none
  else
    let bases := spaced d.scratch k 0 (s.freeBases core d.carve d.scratch)
    let slots := (s.freeSlots core).take k
    if bases.length < k || slots.length < k then none
    else (planSlots (s.slabs core) d.gw 0 ((List.range k).flatMap fun _ => d.needs)).map fun runs =>
      (bases.zip slots).zipIdx.map fun x =>
        { core, slot := x.1.2, base := x.1.1, runs := (runs.drop (x.2 * d.needs.length)).take d.needs.length }

/-- Places for as many teams as the core takes, at most `k + fuel`; `best` are those of `k`. -/
def State.mostTeams (s : State) (l : Launch) (d : Desc) (core fuel k : Nat) (best : List Spot) : List Spot :=
  match fuel with
  | 0 => best
  | fuel + 1 =>
    match s.planTeams l d core (k + 1) with
    | some ps => s.mostTeams l d core fuel (k + 1) ps
    | none => best

/-- Places for `n` teams on at most `lim` of the cores, each filled in turn. -/
def State.spreadTeams (s : State) (l : Launch) (d : Desc) (cores : List Nat) (lim n : Nat) : Option (List Spot) :=
  if n = 0 then some []
  else match cores with
  | [] => none
  | c :: r =>
    if lim = 0 then none
    else
      let ps := s.mostTeams l d c n 0 []
      if ps.isEmpty then s.spreadTeams l d r lim n
      else (s.spreadTeams l d r (lim - 1) (n - ps.length)).map (ps ++ ·)

/-- A core takes its place in a list in order of the teams that each takes, most first. -/
def insertByRoom (x : Nat × Nat) (xs : List (Nat × Nat)) : List (Nat × Nat) :=
  match xs with
  | [] => [x]
  | y :: r => if y.2 < x.2 then x :: y :: r else y :: insertByRoom x r

def Team.fresh (l : Launch) (d : Desc) (n : Nat) (p : Spot) : Team :=
  { core := p.core, slot := p.slot, lslot := l.slot, tnum := n, base := p.base, scratch := d.scratch, width := d.gw
    size := d.teamSize, nq := d.nq
    cvs := d.cv.zipIdx.flatMap fun x =>
      (List.range (if x.1.1 ≥ 3 then 4 else 1)).map fun q => { cv := x.2, qtr := q, kind := x.1.1, role := x.1.2 }
    queues := List.replicate d.nq [], bars := List.replicate 16 {}, omaps := List.replicate 16 none }

def Group.fresh (l : Launch) (p : Spot) (g : Nat) : Group :=
  { core := p.core, slot := p.slot, grp := g
    s := [l.rcd.args.setWidth 32, (l.rcd.args >>> 32).setWidth 32] ++ List.replicate 62 0
    h := List.replicate 16 0, masks := List.replicate 24 0 }

def Thread.fresh (l : Launch) (d : Desc) (p : Spot) (tidx : Nat) : Thread :=
  let g := tidx / d.gw
  let r := (p.runs[g]?).getD { qtr := 0, row := 0, base := 0, w := 0, gran := 0 }
  let decl := (d.role (d.roleOf tidx)).decl
  { tid := { core := p.core, qtr := g % 4, row := r.row, lane := r.base + tidx % d.gw }, slot := p.slot, lslot := l.slot
    tidx, grp := g, rel := tidx % d.gw, role := d.roleOf tidx, declared := decl, pc := l.rcd.kdesc + 0x80
    v := List.replicate decl 0, p := (List.range 16).map (· = 0), ix := List.replicate 8 0
    ph := List.replicate 8 false, depth := List.replicate 8 0 }

/-- Put a team in its start state at a place (Table 7.6). Its accesses follow what the launch's dependences and the LAUNCH
that enqueued it have acquired, so the core keeps no older copy (R260, R282). -/
def installTeam (l : Launch) (d : Desc) (n : Nat) (p : Spot) : W Unit := do
  acquireAct p.core .sys
  let s ← getSt
  if !s.teams.any fun t => t.core = p.core then modCore p.core fun c => { c with carve := d.carve }
  upd fun s => { s with
    teams := s.teams ++ [Team.fresh l d n p]
    groups := s.groups ++ (List.range (d.teamSize / d.gw)).map (Group.fresh l p)
    threads := s.threads ++ (List.range d.teamSize).map (Thread.fresh l d p) }
  clearSpan (scratchBase p.core + p.base) d.scratch
  modLaunch l.slot fun x => { x with placed := x.placed + 1 }

/-- The live threads of a placed team arrive at their PCs. -/
def joinTeam (core slot : Nat) : W Unit := do
  for q in List.range 4 do
    let ts := ((← getSt).liveThreads core slot).filter fun t => t.tid.qtr = q
    for pc in (ts.map Thread.pc).eraseDups do
      let here := ts.filter fun t => t.pc = pc
      match here with
      | [] => pure ()
      | t :: _ => do
        let st ← freshStamp core q
        joinEntry core q t.lslot pc st false (here.map Thread.tid)

/-- Assign the first items in increasing team index (R268); the live threads arrive. -/
def startTeam (core slot : Nat) : W Unit := do
  for t in (← getSt).teamThreads core slot do
    let _ ← assignItem t.tid false
  joinTeam core slot

/-- Device picks a place on a core among those it can use. -/
def pickSpot (l : Launch) (d : Desc) (core : Nat) : W (Option Spot) := do
  let s ← getSt
  if (s.planTeam l d core 0 0 0).isNone then return none
  let rot ← choose 32
  let nb ← choose (s.freeBases core d.carve d.scratch).length
  let ns ← choose (s.freeSlots core).length
  match s.planTeam l d core rot nb ns with
  | some p => return some p
  | none => return s.planTeam l d core 0 nb ns

/-- Install teams from number `n` on at the places. -/
def installSpots (l : Launch) (d : Desc) (n : Nat) (ps : List Spot) : W Unit := do
  for p in ps.zipIdx do installTeam l d (n + p.2) p.1

/-- Lines that the L1 of a core without teams cannot hold under a carve setting are copied back and dropped before the
core takes it (R3). -/
def shrinkFor (core code : Nat) : P Unit := do
  let s ← getSt
  if !s.teams.any fun t => t.core = core then
    let c := s.core core
    l1Shrink c.l1.length core (({ c with carve := code } : CoreSt).l1Room + 1) 0

def allCores : List Nat := List.range Config.cores

/-- A team could be placed on some core of DIEMASK if it were empty (R259). -/
def State.placeable (s : State) (l : Launch) (d : Desc) : Bool :=
  (({ s with teams := [], threads := [] } : State).planTeam { l with rcd := { l.rcd with maxcores := 0 } } d 0 0 0 0).isSome

/-- Places for all teams of a COSCHED launch together at the cores' occupancy, on at most MAXCORES cores, whenever there are
any: the cores in turn, else those that take most teams first (R264). -/
def State.coschedPlan (s : State) (l : Launch) (d : Desc) : Option (List Spot) :=
  let cs := allCores.filter (s.mayUse l)
  let lim := if l.rcd.maxcores = 0 then cs.length else l.rcd.maxcores
  match s.spreadTeams l d cs lim l.rcd.teams with
  | some ps => some ps
  | none =>
    if cs.length ≤ lim then none
    else
      let by_ := cs.foldl (fun xs c => insertByRoom (c, (s.mostTeams l d c l.rcd.teams 0 []).length) xs) []
      s.spreadTeams l d (by_.map (·.1)) lim l.rcd.teams

/-- All teams of a COSCHED launch could be resident together on empty, ungated cores that are not reserved for another
queue (R264). -/
def State.coschedFits (s : State) (l : Launch) (d : Desc) : Bool :=
  (({ s with teams := [], threads := [], groups := [] } : State).coschedPlan l d).isSome

/-- The launch has a team to place. -/
def Launch.wantsTeam (l : Launch) : Bool :=
  l.phase = .running && !l.faulted && !l.draining && !l.aborted && l.placed < l.rcd.teams && l.endWait.isNone
    && (l.next < l.rcd.items || !l.returned.isEmpty)

/-- A team of the launch fits on the core now; with COSCHED, all its teams fit. -/
def State.fitsOn (s : State) (l : Launch) (c : Nat) : Bool :=
  match l.desc with
  | none => false
  | some d =>
    if l.rcd.cosched then (s.coschedPlan l d).isSome
    else s.mayUse l c && (s.planTeam l d c 0 0 0).isSome

def State.prioOf (s : State) (l : Launch) : Nat := (s.queue l.queue).prio

/-- Cores on which the launch may place a team now. -/
def State.placesOf (s : State) (l : Launch) : List Nat :=
  if !l.wantsTeam then []
  else if l.rcd.cosched then (if s.fitsOn l 0 then [0] else [])
  else allCores.filter (s.fitsOn l)

/-- The launches of one level in the order they are served: round-robin in the order they were taken (R253). -/
def State.served (s : State) (level : Nat) : List Launch :=
  let ls := s.launches.filter fun l => s.prioOf l = level
  let last := (s.rrobin[level]?).getD 0
  ls.filter (fun l => l.order > last) ++ ls.filter fun l => l.order ≤ last

/-- The launch that places a team next at a level, with the cores it may use. -/
def State.nextPlacing (s : State) (level : Nat) : Option (Launch × List Nat) :=
  (s.served level).findSome? fun l =>
    let cs := s.placesOf l
    if cs.isEmpty then none else some (l, cs)

/-! ### Waits of the dispatcher -/

/-- The dispatcher's attempt for a launch: `none` when it waits, else its result or the failure of its translation. -/
def dispTry {α : Type} (l : Nat) (p : P α) : W (Option (Except Cause α)) := do
  match ← p.run with
  | .ok a => do
    modLaunch l fun x => { x with endRetry := 0, endLine := none }
    return some (.ok a)
  | .error (.cause c _ _) => return some (.error c)
  | .error (.page w _) => do
    modLaunch l fun x => { x with endWait := some w }
    return none
  | .error (.line ln _) => do
    modLaunch l fun x => { x with endLine := some ln }
    return none
  | .error _ => return none

/-- A begin-time translation, by the TLB of die 0: a missing or forbidding one fails without a page request (R255). -/
def beginTrans (pasid va : Nat) (i : Intent) : P Unit := do
  match (← getSt).trans (.die 0) pasid va i with
  | .ok _ => return
  | .miss => do
    needPort0 (BitVec.ofNat 64 va)
    requestAts (.die 0) pasid (va / 4096)
    throw (.page { key := { pasid, vpn := va / 4096, intent := i }, ats := true } (BitVec.ofNat 64 va))
  | _ => raiseP .page (BitVec.ofNat 64 va)

/-- Write a team-map entry (R256). -/
def mapWrite (l : Launch) (tnum v : Nat) : P Unit := do
  if l.rcd.teammap ≠ 0 && !l.noMap then
    engWrites (chipNode l.rcd.pasid) l.endRetry [{ va := l.rcd.teammap.toNat + 8 * tnum, bytes := leBytes 8 v }]

/-- The team-map entries of teams `n` to `n + k − 1` can be written now. -/
def mapReady (l : Launch) (n k : Nat) : P Unit := do
  if l.rcd.teammap ≠ 0 && !l.noMap then
    for j in List.range k do
      let _ ← engPieces (chipNode l.rcd.pasid) l.endRetry (l.rcd.teammap.toNat + 8 * (n + j)) 8 true

/-- A team-map translation that fails for good: the map is not written any more. -/
def mapTry (l : Launch) (p : P Unit) : W Bool := do
  match ← dispTry l.slot p with
  | none => return false
  | some (.ok _) => return true
  | some (.error _) => do
    modLaunch l.slot fun x => { x with noMap := true }
    return true

def teamMapWord (core base : Nat) : Nat := base + core * 2 ^ 32

/-- Write the map entry of a placed team, whose translation has been found. -/
def mapTeam (lslot core slot : Nat) : W Unit := do
  let s ← getSt
  match s.launch? lslot, s.team? core slot with
  | some l, some tm => do
    let _ ← mapTry l (mapWrite l tm.tnum (teamMapWord core tm.base))
  | _, _ => return

/-! ### Taking and beginning a launch (R251, R252, R260, R264) -/

/-- The launch ends with a state code (R261); the steps of the end follow. -/
def endLaunch (l code : Nat) : W Unit := modLaunch l fun x => { x with phase := .ending 0, code, endWait := none, endLine := none, endRetry := 0 }

/-- A record may be taken from the queue. -/
def State.mayTake (s : State) (q : Nat) : Bool :=
  let x := s.queue q
  x.enabled && x.head ≠ x.tail && s.launches.length < Config.launchSlots

/-- The launch taken last from the queue has ended. -/
def State.lastEnded (s : State) (q : Nat) : Bool := !s.launches.any fun l => l.queue = q && l.order = (s.queue q).lastOrd

/-- TAKE_RECORD (R251, R252). -/
def execTakeRecord (q : Nat) (s : State) : Host.Outcome State Fault Refusal := onQueue q (do
  if !s.mayTake q then return
  let x := s.queue q
  let a := x.slotAt x.head.toNat
  let r ← (do
    takeBack a 256 0
    needSpan a 256 false 0
    return (← readNat a 256, ← isPoisoned a 256) : P (Nat × Bool)).run
  match r with
  | .error _ => return
  | .ok (b, bad) => do
    let rc := parseRecord b
    if rc.serial && !s.lastEnded q then return
    let free := (List.range Config.launchSlots).filter fun k => (s.launch? k).isNone
    let k ← choose free.length
    let slot := (free[k]?).getD 0
    let order := s.order + 1
    let l : Launch := { slot, queue := q, order, rcd := rc, wdogLim := rc.wdog, depMet := rc.dep.map fun d => decide (d.1 = 0) }
    upd fun s => { s with order, launches := s.launches ++ [l] }
    modQueue q fun x => { x with head := x.head + 1, lastOrd := order }
    if bad || !recordOk b rc then endLaunch slot 6) s

/-- DEP_READ (R260). -/
def execDepRead (lslot j : Nat) (s : State) : Host.Outcome State Fault Refusal := run (do
  match s.launch? lslot with
  | none => return
  | some l => do
    if l.phase ≠ .waiting || (l.depMet[j]?).getD true || l.endWait.isSome then return
    let d := (l.rcd.dep[j]?).getD (0, 0)
    modLaunch lslot fun x => { x with depDue := x.depDue.set j false }
    match ← dispTry lslot (do
      beginTrans l.rcd.pasid d.1.toNat .read
      engRead (chipNode l.rcd.pasid) 0 d.1.toNat 8) with
    | none => modLaunch lslot fun x => { x with depDue := x.depDue.set j true }
    | some (.ok (bs, bad)) =>
      if !bad && d.2.toNat ≤ leValue bs then modLaunch lslot fun x => { x with depMet := x.depMet.set j true }
    | some (.error _) => endLaunch lslot 7) s

/-- A launch may begin: its dependences are met. -/
def Launch.mayBegin (l : Launch) : Bool := l.phase = .waiting && l.depMet.all (fun b => b) && l.endWait.isNone && !l.aborted

/-- A launch taken earlier from its queue has still to begin: launches of a queue begin in its order (R251). -/
def State.behind (s : State) (l : Launch) : Bool :=
  s.launches.any fun y => y.queue = l.queue && y.order < l.order && y.phase = .waiting && !y.aborted

/-- LAUNCH_BEGIN (R259, R263, R264). A COSCHED launch without items ends complete, whether or not its teams could be resident
together (DESIGN CHOICE, log 42: R263 and R264 both apply and neither says which comes first). -/
def execLaunchBegin (lslot : Nat) (s : State) : Host.Outcome State Fault Refusal := run (do
  match s.launch? lslot with
  | none => return
  | some l => do
    if !l.mayBegin || s.behind l then return
    let k := l.rcd.kdesc.toNat
    match ← dispTry lslot (do
      beginTrans l.rcd.pasid k .read
      beginTrans l.rcd.pasid ((k + 0x80) % 2 ^ 64) .exec
      engRead (chipNode l.rcd.pasid) 0 k 128) with
    | none => return
    | some (.error _) => endLaunch lslot 7
    | some (.ok (bs, bad)) =>
      let b := leValue bs
      let d := parseDesc b
      if bad || !descOk b d || !s.placeable l d then endLaunch lslot 5
      else do
        modLaunch lslot fun x => { x with desc := some d, prom := d.prom, fair := d.fair, phase := .running, wdog := 0 }
        if l.rcd.items = 0 then endLaunch lslot 1
        else if l.rcd.cosched && !s.coschedFits l d then endLaunch lslot 8) s

/-- PLACE_TEAM (R263, R265, R266): the launch's next team, or all teams of a COSCHED launch. -/
def execPlaceTeam (lslot core : Nat) (s : State) : Host.Outcome State Fault Refusal := run (do
  match s.launch? lslot with
  | none => return
  | some l =>
    match l.desc with
    | none => return
    | some d => do
      if !l.wantsTeam || !s.fitsOn l core then return
      let k := if l.rcd.cosched then l.rcd.teams else 1
      if !(← mapTry l (mapReady l l.placed k)) then return
      upd fun s => { s with rrobin := s.rrobin.set (s.prioOf l) l.order }
      let ps := if l.rcd.cosched then ((s.coschedPlan l d).getD []) else []
      let cores := if l.rcd.cosched then (ps.map Spot.core).eraseDups else [core]
      match ← (do for c in cores do shrinkFor c d.carve : P Unit).run with
      | .error _ => return
      | .ok _ => pure ()
      if l.rcd.cosched then
        installSpots l d l.placed ps
        for tm in (← getSt).teams do
          if tm.lslot = lslot then
            mapTeam lslot tm.core tm.slot
            startTeam tm.core tm.slot
      else
        match ← pickSpot l d core with
        | none => return
        | some p => do
          installTeam l d l.placed p
          mapTeam lslot core p.slot
          startTeam core p.slot) s

/-! ### Drain, retirement, end (R261, R262, R272, R273) -/

/-- Reserves of queues that are empty and whose launches have ended are over (R278). -/
def endReserves : W Unit :=
  upd fun s => { s with reserved := s.reserved.filter fun r =>
    (s.queue r.2).head ≠ (s.queue r.2).tail || s.launches.any fun l => l.queue = r.2 }

/-- DRAIN of one team: its batch returns (R272). -/
def drainTeam (core slot : Nat) : W Unit := do
  match (← getSt).team? core slot with
  | none => return
  | some tm => do
    modTeam core slot fun x => { x with draining := true, batch := [] }
    modLaunch tm.lslot fun l => { l with returned := tm.batch.foldl (fun r n => insertNat n r) l.returned }

/-- DRAIN of a launch (R272). -/
def drainLaunch (l : Nat) : W Unit := do
  modLaunch l fun x => { x with draining := true, returned := [], next := max x.next x.rcd.items }
  upd fun s => { s with
    teams := s.teams.map fun t => if t.lslot = l then { t with draining := true, batch := [] } else t
    images := s.images.map fun i =>
      if i.lslot = l then { i with team := { i.team with draining := true, batch := [] } } else i }

/-- An engine operation of the team is outstanding (R189, R273). A matrix command of an aborted or faulted launch whose
version never comes is outstanding no more (R361). -/
def State.teamBusy (s : State) (core slot : Nat) : Bool :=
  let aborted := (((s.team? core slot).bind fun tm => s.launch? tm.lslot).map fun l => l.aborted || l.faulted).getD false
  ((s.core core).copy.any fun c => c.slot = slot)
    || (s.quarters.any fun q => q.core = core && q.mq.any fun c =>
      c.slot = slot && (!aborted || c.running || s.willStart core q.qtr c))
    || s.colls.any fun x => x.core = core && x.team = slot

/-- A core that is marked for gating and holds no team is gated: its scratchpad and L1 contents are lost (R489). -/
def gateIfEmpty (core : Nat) : W Unit := do
  let s ← getSt
  if flag (s.die (dieOf core)).cgate.toNat (core % 32) && !(s.core core).gated && !s.teams.any fun t => t.core = core then
    modCore core fun c => { c with gated := true, ungating := false, l1 := [] }
    clearSpan (scratchBase core) Config.coreStorage

/-- The team's registers, scratchpad, slot, rings, subscriptions, tiles and token go (R273, R360). -/
def removeTeam (core slot : Nat) : W Unit := do
  let mine := fun (c sl : Nat) => c = core && sl = slot
  upd fun s => { s with
    threads := s.threads.filter fun t => !mine t.tid.core t.slot
    groups := s.groups.filter fun g => !mine g.core g.slot
    teams := s.teams.filter fun t => !mine t.core t.slot
    saving := s.saving.filter fun y => !mine y.1 y.2.1
    quarters := s.quarters.map fun q =>
      if q.core = core then
        { q with
          acc := q.acc.filter fun t => t.owner ≠ some slot
          shadows := q.shadows.filter fun x => (x.bound.map (·.1)) ≠ some slot
          mq := q.mq.filter fun c => c.slot ≠ slot }
      else q }
  modCore core fun c => { c with
    rings := c.rings.filter fun r => r.slot ≠ slot
    subs := c.subs.filter fun u => u.slot ≠ slot
    ranges := c.ranges.filter fun r => r.owner ≠ slot }
  for q in List.range 4 do
    settleQuarter core q
    tokenFix core q
  gateIfEmpty core

/-- A team may retire: every lane is idle and nothing it started is outstanding. -/
def State.mayRetire (s : State) (tm : Team) : Bool :=
  ((s.teamThreads tm.core tm.slot).all fun t => t.idle && t.unf.isEmpty) && !s.teamBusy tm.core tm.slot

/-- TEAM_RETIRE (R262, R273). -/
def execTeamRetire (core slot : Nat) (s : State) : Host.Outcome State Fault Refusal := run (do
  match s.team? core slot with
  | none => return
  | some tm =>
    if !s.mayRetire tm then return
    match ← (releaseAct core .sys 0 : P Unit).run with
    | .error (.cause ..) | .ok _ => do
      drainTeam core slot
      removeTeam core slot
    | .error _ => return) s

/-- The state code of a running launch that has no team left and will place none; none while it goes on. -/
def State.endCode (s : State) (l : Launch) : Option Nat :=
  if (s.teams.any fun t => t.lslot = l.slot) || s.images.any fun i => i.lslot = l.slot then none
  else if l.faulted then some 3
  else if l.aborted then some 4
  else if l.phase ≠ .running then none
  else if !l.draining && l.placed < l.rcd.teams && (l.next < l.rcd.items || !l.returned.isEmpty) then none
  else some (if l.retired ≥ l.rcd.items then 1 else 2)

/-- A launch has something of its end to do. -/
def State.mayEnd (s : State) (l : Launch) : Bool :=
  l.endWait.isNone && (match l.phase with | .ending _ => true | _ => (s.endCode l).isSome)

/-- A launch's end write that does not translate: QSTAT code 10 and the vector; the end goes on (R261). -/
def endWriteFailed (l : Launch) (next : Nat) : W Unit := do
  modLaunch l.slot fun x => { x with phase := .ending next, endWait := none, endLine := none, endRetry := 0 }
  queueFault l.queue 10 true

/-- What the dispatcher waits on for a launch fails for good: a launch that has not begun ends with state 7 (R255), an end goes
on (R261), and a team map is not written any more (R256). -/
def launchFailed (l : Launch) : W Unit := do
  match l.phase with
  | .waiting => endLaunch l.slot 7
  | .ending k => endWriteFailed l (k + 1)
  | .running => modLaunch l.slot fun x => { x with noMap := true, endWait := none, endLine := none, endRetry := 0 }

/-- Step 2 of an end: the status word. -/
def endStatus (l : Launch) : W Bool := do
  let word := min l.retired 0xFFFFFFFF * 2 ^ 32 + l.code
  match ← dispTry l.slot (do
    if l.rcd.status ≠ 0 && l.rcd.status.toNat % 8 = 0 then
      engWrites (chipNode l.rcd.pasid) l.endRetry [{ va := l.rcd.status.toNat, bytes := leBytes 8 word }]) with
  | none => return false
  | some (.ok _) => do
    modLaunch l.slot fun x => { x with phase := .ending 1 }
    return true
  | some (.error _) => do
    endWriteFailed l 1
    return true

/-- Unmet dependences are read again (R260). -/
def promptDeps : W Unit :=
  upd fun s => { s with launches := s.launches.map fun l => { l with depDue := l.depMet.map (!·) } }

/-- Step 3 of an end: the completion counter, in states 1 and 2. -/
def endCount (l : Launch) : W Bool := do
  match ← dispTry l.slot (do
    if l.code ≤ 2 && l.rcd.cc ≠ 0 then
      let ps ← engPieces (chipNode l.rcd.pasid) l.endRetry l.rcd.cc.toNat 8 true
      for p in ps do
        if ← isPoisoned p.1 8 then raiseP .ecc l.rcd.cc
        storeNat p.1 8 ((← readNat p.1 8) + l.rcd.ccinc)
      promptDeps) with
  | none => return false
  | some (.ok _) => do
    modLaunch l.slot fun x => { x with phase := .ending 2 }
    return true
  | some (.error _) => do
    endWriteFailed l 2
    return true

/-- Steps 4 and 5 of an end. -/
def endFree (l : Launch) : W Unit := do
  upd fun s => { s with launches := s.launches.filter fun x => x.slot ≠ l.slot }
  if l.code ≥ 3 then queueFault l.queue l.code (l.code ≠ 3)
  endReserves

/-- The steps of an end from the one it has reached. -/
def endSteps (slot fuel : Nat) : W Unit := do
  match fuel, (← getSt).launch? slot with
  | fuel + 1, some l =>
    match l.phase with
    | .ending 0 => if ← endStatus l then endSteps slot fuel
    | .ending 1 => if ← endCount l then endSteps slot fuel
    | .ending _ => endFree l
    | _ => return
  | _, _ => return

/-- LAUNCH_END (R261). -/
def execLaunchEnd (lslot : Nat) (s : State) : Host.Outcome State Fault Refusal := run (do
  match s.launch? lslot with
  | none => return
  | some l => do
    if !s.mayEnd l then return
    match l.phase with
    | .ending _ => pure ()
    | _ => match s.endCode l with
      | some c => endLaunch lslot c
      | none => pure ()
    endSteps lslot 3) s

/-! ### Watchdog and LCTL (R254, R272, R274, R276, R278) -/

/-- The launch's watchdog has expired. -/
def Launch.expired (l : Launch) : Bool := l.phase = .running && !l.faulted && l.wdogLim ≠ 0 && l.wdog ≥ l.wdogLim

/-- The watchdog's fault in a saved team: pending assignments leave their lanes idle, and every other live thread raises
WATCHDOG, or stops in HALT when the descriptor's TV is clear, as it stands (R276). -/
def Image.expire (i : Image) (tv : Bool) : Image :=
  let assigns := fun (t : Thread) => match t.wait with | .eng (.assign _) => true | _ => false
  let j := if tv then i.raiseIn .watchdog false fun t => !t.idle && !assigns t else i
  { j with
    threads := j.threads.map fun t =>
      if t.idle then t
      else if assigns t then { t with idle := true, wait := .ready }
      else if tv then { t with windows := [] }
      else { t with windows := [], halt := some .watchdog }
    cmds := i.cmds.filter fun c => !(stranded ((i.tiles.filter fun t => t.1 = c.1).map fun t => (t.2.idx, t.2.ver))
      ((i.cmds.filter fun x => x.1 = c.1).map (·.2))).contains c.2 }

/-- WATCHDOG_EXPIRE (R276). -/
def execWatchdogExpire (lslot : Nat) (s : State) : Host.Outcome State Fault Refusal := run (do
  match s.launch? lslot with
  | none => return
  | some l => do
    if !l.expired then return
    modLaunch lslot fun x => { x with faulted := true }
    queueFault l.queue 3 true
    let ts := (s.launchThreads lslot).filter fun t => !t.idle
    let pendingItem := fun (t : Thread) => match t.wait with | .eng (.assign _) => true | _ => false
    dropStranded lslot
    for t in ts.filter pendingItem do makeIdle t.tid
    for t in ts.filter fun t => !pendingItem t do
      if (l.desc.map Desc.tv).getD false then raise t.tid .watchdog false t.pc
      else modThread t.tid fun x => { x with halt := some .watchdog, windows := [] }
    upd fun s => { s with
      images := s.images.map fun i => if i.lslot = lslot then i.expire ((l.desc.map Desc.tv).getD false) else i }) s

/-- Hardware has accepted an LCTL command on a slot or queue: CMD reads 0. -/
def acceptLctl (n : Nat) : W Unit := upd fun s => { s with lctl := BitVec.ofNat 32 (n % 256) }

/-- LCTL_DRAIN. -/
def execLctlDrain (lslot : Nat) (s : State) : Host.Outcome State Fault Refusal := run (do
  acceptLctl lslot
  drainLaunch lslot) s

/-- Remove a thread's reader contributions from the counters that hold them (R274). -/
def dropReader (t : Thread) (parkedOn : Option Nat) : W Unit := do
  for d in List.range 8 do
    if (t.depth[d]?).getD 0 ≠ 0 then
      let ph := (t.ph[d]?).getD false
      match parkedOn with
      | none => modCount t.tid.core d ph (· - 1)
      | some die => modParked die d ph (· - 1)

/-- LCTL_ABORT (R274): accesses that have left the core are performed where they can be, and the threads stop. What the
engines have accepted runs to completion. -/
def execLctlAbort (lslot : Nat) (s : State) : Host.Outcome State Fault Refusal := run (do
  acceptLctl lslot
  match s.launch? lslot with
  | none => return
  | some l => do
    match l.phase with
    | .ending _ => return
    | _ => pure ()
    modLaunch lslot fun x => { x with aborted := true, endWait := none }
    for x in s.colls do
      if x.lslot = lslot && x.state < 4 then abortColl x
    for t in (← getSt).launchThreads lslot do
      for e in t.unf do
        match e.acc? with
        | some (i, _) => if e.st = 0 && !e.queued && e.page.isNone && !isWait i then attempt (performOrdered i) t.tid e.id
        | none => pure ()
      dropReader t none
    for i in s.images do
      if i.lslot = lslot then
        for t in i.threads do dropReader t (some i.die)
    upd fun s => { s with
      images := s.images.filter fun i => i.lslot ≠ lslot
      saving := s.saving.filter fun y => ((s.team? y.1 y.2.1).map Team.lslot) ≠ some lslot
      teams := s.teams.map fun tm => if tm.lslot = lslot then { tm with
        cvs := tm.cvs.map fun x =>
          { x with signed := 0, signers := [], op := none, opThreads := [], full := false, deferred := [] } } else tm
      threads := s.threads.map fun t => if t.lslot = lslot then
        { t with idle := true, wait := .ready, halt := none, pending := none, unf := [], windows := []
                 handler := false, late := [], resume := .ready, outer := .ready, depth := List.replicate 8 0, fetchWait := none, fetchLine := none } else t }
    for c in (← getSt).coresOf lslot do
      for q in List.range 4 do
        settleQuarter c q
        tokenFix c q) s

/-- LCTL_RELEASE_RESERVE (R278). -/
def execLctlReleaseReserve (q : Nat) (s : State) : Host.Outcome State Fault Refusal := run (do
  acceptLctl q
  upd fun s => { s with
    reserved := s.reserved.filter fun r => r.2 ≠ q
    preempt := s.preempt.map fun p => { p with old := p.old.filter fun r => r.2 ≠ q } }) s

/-! ### Dispatcher instructions (R281-R285) -/

/-- LAUNCH (R282). Operand a. -/
def performLaunch (q : Nat) (t : ThreadId) (th : Thread) (e : Entry) : P (List Word) := do
  let a := e.d 0
  if a.toNat % 256 ≠ 0 then raiseP .align a
  if !canonical a.toNat then raiseP .prot a
  let pa ← translate (.core t.core) ((← getSt).pasidOf th.lslot) a .read e.retry
  rangeCheck t.core th.slot 0 a.toNat 256 false a
  performedBefore t e.id .dev a
  let mut ws : List Word := []
  for k in List.range 64 do
    let got ← loadSpan t (pa + 4 * k) 4 .weak .grp a
    if got.any fun x => x.2.1 then raiseP .ecc a
    ws := ws ++ got.map (·.1)
  let x := (← getSt).queue q
  if !x.enabled || !x.progen then return [2]
  if x.count = 2 ^ x.logsz then return [1]
  if x.undef then
    modEntry t e.id fun y => { y with aux := [1] }
    throw .wait
  -- PASID stands in [19:0] of the word at 0x1C
  let w := (ws[7]?).getD 0
  ws := ws.set 7 (BitVec.ofNat 32 (w.toNat / 2 ^ 20 * 2 ^ 20 + (← getSt).pasidOf th.lslot))
  enqueue q (ws.flatMap fun w => leBytes 4 w.toNat) [] a
  return [0]

/-- ITEMQ (R283). -/
def performItemq (team : Bool) (t : ThreadId) (th : Thread) : P (List Word) := do
  let s ← getSt
  if team then return [BitVec.ofNat 32 (((s.team? t.core th.slot).map fun x => x.batch.length).getD 0)]
  else
    let n := ((s.launch? th.lslot).map fun l => l.rcd.items - l.next + l.returned.length).getD 0
    return [BitVec.ofNat 32 (min n 0xFFFFFFFF)]

/-- CCADD (R285). Operands a, v. -/
def performCcadd (t : ThreadId) (th : Thread) (e : Entry) : P (List Word) := do
  let acc : Acc := { kind := .rmw 0, space := 0, ty := .b64, order := .rel, scope := .sys }
  let tg ← resolve th acc e
  performedBefore t e.id .sys (e.d 0)
  let _ ← rmwAt t acc tg (fun old => some ((old + e.w 2) % 2 ^ 64)) (e.d 0)
  promptDeps
  return []

def performDisp (i : Instr) (t : ThreadId) (e : Entry) : P (List Word) := do
  modify fun w => { w with actor := t.core + 1 }
  match (← getSt).thread? t with
  | none => return []
  | some th =>
    match i with
    | .launch w => performLaunch (w.o3.toNat % 64) t th e
    | .itemq w => performItemq w.fl t th
    | .drain w => do
      if w.fl then drainLaunch th.lslot else drainTeam t.core th.slot
      return []
    | .ccadd _ => performCcadd t th e
    | _ => return []

def isDispOp (i : Instr) : Bool :=
  match i with | .launch _ | .itemq _ | .drain _ | .ccadd _ => true | _ => false

/-- LAUNCHes that have come to write a record into a queue whose behaviour R249 leaves undefined. -/
def State.stuckLaunches (s : State) : Nat :=
  (s.threads.flatMap Thread.unf).countP fun e =>
    e.aux = [1] && match e.instr? with | some (.launch _) => true | _ => false

/-- LAUNCH (R282); one that comes to write into an undefined queue has no next state (R249). -/
def execLaunch (w : EWord) (s : State) : Host.Outcome State Fault Refusal :=
  match run (issueActing (.launch w) (captureE (.launch w)) (performDisp (.launch w))) s with
  | .next s' => if s'.stuckLaunches > s.stuckLaunches then .fault (.queueUndefined (w.o3.toNat % 64)) else .next s'
  | o => o
def execItemq (w : EWord) (s : State) : Host.Outcome State Fault Refusal :=
  run (issueActing (.itemq w) (captureE (.itemq w)) (performDisp (.itemq w))) s
def execDrain (w : EWord) (s : State) : Host.Outcome State Fault Refusal :=
  run (issueActing (.drain w) (captureE (.drain w)) (performDisp (.drain w))) s
def execCcadd (w : EWord) (s : State) : Host.Outcome State Fault Refusal :=
  run (issueCmd (.ccadd w) (captureE (.ccadd w)) (performDisp (.ccadd w))) s

end Sys2Proof.Machine
end

