-- ==== Sys2Proof/Machine/Fu.lean ====
section
/-!
DEFINITION. The function unit (spec 06): special values, exact points, and for every other operand a free result within
the bound of R239 (assumption log 10); correctly rounded division.
-/
namespace Sys2Proof.Machine

/-! ### Enclosures of exact values -/

/-- A positive exact value that lies in [lo, hi] × 2^e. -/
structure Encl where
  lo : Nat
  hi : Nat
  e  : Int
deriving DecidableEq, Repr

/-- Fraction bits of the fixed-point enclosures. -/
def fxP : Nat := 160
/-- ⌊π × 2^160⌋ and ⌊ln 2 × 2^160⌋. -/
def fxPi : Nat := 0x3243f6a8885a308d313198a2e03707344a4093822
def fxLn2 : Nat := 0xb17217f7d1cf79abc9e3b39803f2f6af40f34326

/-- ⌊√n⌋ for n < 4^k, bit by bit. -/
def isqrt (k n r : Nat) : Nat :=
  match k with
  | 0 => r
  | k + 1 => if (r + 2 ^ k) * (r + 2 ^ k) ≤ n then isqrt k n (r + 2 ^ k) else isqrt k n r

/-- Sum of t^j/j! over the fixed point, `k` terms from `j`. -/
def expSeries (k j t term : Nat) : Nat :=
  match k with
  | 0 => 0
  | k + 1 => term + expSeries k (j + 1) t (term * t / 2 ^ fxP / (j + 1))

/-- 2^f for a fixed-point f in [0, 1), within 2^12 units. -/
def exp2Fx (f : Nat) : Nat := expSeries 60 0 (f * fxLn2 / 2 ^ fxP) (2 ^ fxP)

/-- Alternating sum t − t³/3! + … (`term` is the current power over its factorial). -/
def sinSeries (k j t2 : Nat) (term : Nat) (neg : Bool) : Int :=
  match k with
  | 0 => 0
  | k + 1 => (if neg then -(term : Int) else term) +
      sinSeries k (j + 2) t2 (term * t2 / 2 ^ fxP / ((j + 1) * (j + 2))) (!neg)

/-- sin(π r) for a fixed-point r in [0, 1/2], within 2^12 units. -/
def sinPiFx (r : Nat) : Nat :=
  let t := r * fxPi / 2 ^ fxP
  (sinSeries 40 1 (t * t / 2 ^ fxP) t false).toNat

/-- Sum of z^(2k+1)/(2k+1). -/
def atanhSeries (k j z2 pow : Nat) : Nat :=
  match k with
  | 0 => 0
  | k + 1 => pow / j + atanhSeries k (j + 2) z2 (pow * z2 / 2 ^ fxP)

/-- log2 m for a fixed-point m in [1, 2), within 2^12 units. -/
def log2Fx (m : Nat) : Nat :=
  let z := (m - 2 ^ fxP) * 2 ^ fxP / (m + 2 ^ fxP)
  2 * atanhSeries 60 1 (z * z / 2 ^ fxP) z * 2 ^ fxP / fxLn2

def slack : Nat := 2 ^ 12
/-- Enclosure around a fixed-point value. -/
def around (x : Nat) (e : Int) : Encl := { lo := x - slack, hi := x + slack, e := e - fxP }
/-- Enclosure of a value known to lie strictly between 2^e and 2^(e+1). -/
def aroundIn (x : Nat) (e : Int) : Encl :=
  { lo := max (x - slack) (2 ^ fxP), hi := min (x + slack) (2 ^ (fxP + 1)), e := e - fxP }

/-- x = m × 2^e as fixed point, rounded down. -/
def toFx (m : Nat) (e : Int) : Nat := if 0 ≤ e + fxP then m * 2 ^ (e + fxP).toNat else m / 2 ^ (-(e + fxP)).toNat

/-- The mantissa made odd. -/
def oddPart (fuel m : Nat) (e : Int) : Nat × Int :=
  match fuel with
  | 0 => (m, e)
  | k + 1 => if m % 2 = 0 && m ≠ 0 then oddPart k (m / 2) (e + 1) else (m, e)

/-! ### Delivery (R239-R242) -/

/-- a × 2^i ≤ b × 2^j. -/
def leDy (a : Int) (i : Int) (b : Int) (j : Int) : Bool :=
  let k := min i j
  a * 2 ^ (i - k).toNat ≤ b * 2 ^ (j - k).toNat

/-- A bound: `ulps` units in the last place, or `abs` when that is larger (as an exponent of 2). -/
structure Bound where
  ulps : Nat
  abs  : Option Int := none

/-- |v − y| ≤ bound for every y of the enclosure, with v = m × 2^k. -/
def within (f : Fmt) (b : Bound) (y : Encl) (m : Nat) (k : Int) : Bool :=
  let ey : Int := (Nat.log2 y.lo : Int) + y.e
  let near := fun (n : Nat) (q : Int) =>
    -- v − lo ≤ n × 2^q and hi − v ≤ n × 2^q
    let (s, e) := addDyadic y.lo y.e n q
    let (t, e') := addDyadic m k n q
    leDy m k s e && leDy y.hi y.e t e'
  near b.ulps (max ey f.emin - f.fbits) || (match b.abs with | some q => near 1 q | none => false)

/-- An approximated result with magnitude in the enclosure and sign `neg`: the range limits of R241, else a free result
within the bound that is finite and satisfies `ok`, else the nearest value. `raw` is the free candidate. -/
def fuFree (f : Fmt) (b : Bound) (limit : Bool) (ok : Nat → Bool) (neg : Bool) (y : Encl) (raw : Nat) : FRes :=
  let bias : Int := 2 ^ (f.ebits - 1)
  let tiny : Int := if f.flush then f.emin else f.emin - f.fbits
  let uf := if leDy 1 f.emin y.lo y.e then (0 : FFlags) else fUF
  if leDy 1 bias y.lo y.e then { val := f.signed neg f.inf, flags := fOF ||| fNX }
  else if limit && !leDy 1 tiny y.lo y.e then { val := f.signed neg 0, flags := fUF ||| fNX }
  else if limit && (match f.valueOf f.maxFin with | .fin _ m k => leDy m k y.lo y.e | _ => false) then
    { val := f.signed neg f.maxFin, flags := fNX }
  else
    let c := raw % f.signBit
    let fits := c < f.inf && ok c && (match f.valueOf c with | .fin _ m k => within f b y m k | _ => false)
    let near := (roundDyadic { f with flush := false } .rne false y.lo y.e).val
    let v := if fits then c else min near f.maxFin
    if f.flush && v ≠ 0 && v < 2 ^ f.fbits then { val := f.signed neg 0, flags := fUF ||| fNX }
    else { val := f.signed neg v, flags := uf ||| fNX }

/-- An exact result m × 2^e that its format may hold (R239 item 1, R241). -/
def fuExact (f : Fmt) (neg : Bool) (m : Nat) (e : Int) : FRes :=
  let bias : Int := 2 ^ (f.ebits - 1)
  let tiny : Int := if f.flush then f.emin else f.emin - f.fbits
  if m = 0 then { val := f.signed neg 0 }
  else if leDy 1 bias m e then { val := f.signed neg f.inf, flags := fOF ||| fNX }
  else if !leDy 1 tiny m e then { val := f.signed neg 0, flags := fUF ||| fNX }
  else { val := f.signed neg (roundDyadic f .rne false m e).val }

/-- Bound of Table 6.3 for f32; 1 ulp for the packed formats (R242). -/
def boundOf (f : Fmt) (ulps : Nat) : Bound := { ulps := if f.fbits = 23 then ulps else 1 }

def fuNan (f : Fmt) (nv : Bool) : FRes := { val := f.nan, flags := if nv then fNV else 0 }

/-- Free candidate of operation `op` on the exact operand m × 2^e (R238). -/
def fuCand (op : Nat) (f : Fmt) (m : Int) (e : Int) : Nat :=
  Config.fuRaw op (f.ebits * 64 + f.fbits) m (e + 1000).toNat

/-! ### The functions (R243-R247) -/

def evalRcp (f : Fmt) (x : FVal) : FRes :=
  match x with
  | .nan s => fuNan f s
  | .inf n => { val := f.signed n 0 }
  | .fin n m0 e0 =>
    if m0 = 0 then { val := f.signed n f.inf, flags := fDZ }
    else
      let (m, e) := oddPart 64 m0 e0
      if m = 1 then fuExact f n 1 (-e)
      else
        let q := 2 ^ 400 / m
        fuFree f (boundOf f 1) true (fun _ => true) n { lo := q, hi := q + 1, e := -e - 400 } (fuCand 0 f m e)

def evalSqrt (f : Fmt) (x : FVal) : FRes :=
  match x with
  | .nan s => fuNan f s
  | .inf n => if n then fuNan f true else { val := f.inf }
  | .fin n m0 e0 =>
    if m0 = 0 then { val := f.signed n 0 }
    else if n then fuNan f true
    else
      let (m1, e1) := oddPart 64 m0 e0
      let (m, e) := if e1 % 2 = 0 then (m1, e1) else (2 * m1, e1 - 1)
      let r := isqrt 40 m 0
      if r * r = m then fuExact f false r (e / 2)
      else
        let q := isqrt 140 (m * 2 ^ 200) 0
        fuFree f (boundOf f 1) true (fun _ => true) false { lo := q, hi := q + 1, e := e / 2 - 100 } (fuCand 1 f m1 e1)

def evalRsqrt (f : Fmt) (x : FVal) : FRes :=
  match x with
  | .nan s => fuNan f s
  | .inf n => if n then fuNan f true else { val := 0 }
  | .fin n m0 e0 =>
    if m0 = 0 then { val := f.signed n f.inf, flags := fDZ }
    else if n then fuNan f true
    else
      let (m1, e1) := oddPart 64 m0 e0
      if m1 = 1 && e1 % 2 = 0 then fuExact f false 1 (-(e1 / 2))
      else
        let (m, e) := if e1 % 2 = 0 then (m1, e1) else (2 * m1, e1 - 1)
        let q := isqrt 160 (2 ^ 300 / m) 0
        fuFree f (boundOf f 2) true (fun _ => true) false { lo := q, hi := q + 1, e := -(e / 2) - 150 } (fuCand 2 f m1 e1)

/-- 2^d for an exact finite d = m × 2^e (R244). -/
def exp2Dyadic (f : Fmt) (m0 : Int) (e0 : Int) : FRes :=
  let (a, e) := oddPart 600 m0.natAbs e0
  let neg := m0 < 0
  if a = 0 then { val := f.one }
  else if e ≥ 20 || (0 ≤ e && a * 2 ^ e.toNat ≥ 2000) || (e < 0 && a / 2 ^ (-e).toNat ≥ 2000) then
    -- far outside the range
    if neg then { val := 0, flags := fUF ||| fNX } else { val := f.inf, flags := fOF ||| fNX }
  else if 0 ≤ e then fuExact f false 1 (if neg then -(a * 2 ^ e.toNat : Nat) else (a * 2 ^ e.toNat : Nat))
  else
    let k := a / 2 ^ (-e).toNat                       -- integer part of |d|
    let fr := toFx (a % 2 ^ (-e).toNat) e             -- fraction, rounded down
    let y : Encl :=
      if neg then
        -- 2^-(k + fr) = 2^(-k-1) × 2^(1 - fr)
        let g := 2 ^ fxP - fr
        if g = 2 ^ fxP then { lo := 2 ^ fxP - slack, hi := 2 ^ fxP, e := -(k : Int) - fxP }
        else aroundIn (exp2Fx g) (-(k : Int) - 1)
      else aroundIn (exp2Fx fr) k
    let ok := fun c => if neg then c ≤ f.one else c ≥ f.one
    fuFree f (boundOf f 2) true ok false y (fuCand 3 f (if neg then -(a : Int) else a) e)

def evalExp2 (f : Fmt) (x : FVal) : FRes :=
  match x with
  | .nan s => fuNan f s
  | .inf n => if n then { val := 0 } else { val := f.inf }
  | .fin n m e => exp2Dyadic f (if n then -(m : Int) else m) e

def evalExd (f : Fmt) (a b : FVal) : FRes :=
  if a.isNan || b.isNan then fuNan f (a.isSnan || b.isSnan)
  else match a, b with
    | .inf n, .inf n' => if n = n' then fuNan f true else if n then { val := 0 } else { val := f.inf }
    | .inf n, _ => if n then { val := 0 } else { val := f.inf }
    | _, .inf n => if n then { val := f.inf } else { val := 0 }
    | _, _ =>
      let (m, e) := addDyadic a.mant a.expo (-b.mant) b.expo
      exp2Dyadic f m e

def evalLog2 (f : Fmt) (x : FVal) : FRes :=
  match x with
  | .nan s => fuNan f s
  | .inf n => if n then fuNan f true else { val := f.inf }
  | .fin n m0 e0 =>
    if m0 = 0 then { val := f.signed true f.inf, flags := fDZ }
    else if n then fuNan f true
    else
      let (m, e) := oddPart 64 m0 e0
      if m = 1 then (roundDyadic f .rne false e 0)
      else
        let l : Int := Nat.log2 m
        let k := l + e                                -- floor(log2 x)
        let fx := log2Fx (toFx m (-l))
        let y : Int := k * 2 ^ fxP + fx
        let b : Bound := if f.fbits = 23 && (k = 0 || k = -1) then { ulps := 2, abs := some (-22) } else boundOf f 2
        fuFree f b true (fun _ => true) (y < 0) { lo := y.natAbs - slack, hi := y.natAbs + slack, e := -fxP } (fuCand 4 f m e)

/-- The reduction of R246 for |x| = m × 2^e: |x| mod 2 as fixed point with its exactness, and the key of the reduced
operand. -/
def mod2 (m : Nat) (e : Int) : Nat × Int :=
  if 0 ≤ e then (m * 2 ^ e.toNat % 2, 0)
  else (m % 2 ^ (1 + (-e).toNat), e)

/-- sin(π t) for t = m × 2^e in (0, 1/2), not a multiple of 1/2, as the function `op` delivers it for the reduced operand
|r| = r × 2^e. -/
def sinFree (op : Nat) (f : Fmt) (neg : Bool) (m r : Nat) (e : Int) : FRes :=
  let (k, e') := oddPart 200 m e
  let tiny := (Nat.log2 k : Int) + e' < -100
  -- π t (1 − (π t)²/6) ≤ sin π t ≤ π t
  let y : Encl := if tiny then { lo := k * fxPi - k, hi := k * fxPi + k, e := e' - fxP } else around (sinPiFx (toFx k e')) 0
  fuFree f { ulps := 1, abs := some (-25) } false (fun c => c ≤ f.one) neg y
    (fuCand op f (oddPart 200 r e).1 (oddPart 200 r e).2)

/-- sin(π r) for r = m × 2^e in [0, 2), as R246 folds it; `neg0` is the sign of x. -/
def sinR (op : Nat) (f : Fmt) (neg0 : Bool) (m : Nat) (e : Int) : FRes :=
  let half := 2 ^ ((-e).toNat) / 2                    -- 1/2 in units of 2^e
  let one := 2 ^ (-e).toNat
  if e = 0 then { val := f.signed neg0 0 }
  else
    let neg := neg0 != (m ≥ one)
    let u := if m ≥ one then m - one else m           -- r mod 1
    let v := if u > half then one - u else u          -- folded into [0, 1/2]
    if v = 0 then { val := f.signed neg0 0 }
    else if v = half then { val := f.signed neg f.one }
    else sinFree op f neg v (if m ≥ one then 2 * one - m else m) e

def evalSinpi (f : Fmt) (x : FVal) : FRes :=
  match x with
  | .nan s => fuNan f s
  | .inf _ => fuNan f true
  | .fin n m0 e0 =>
    if m0 = 0 then { val := f.signed n 0 }
    else
      let (m, e) := oddPart 200 m0 e0
      let (r, e') := mod2 m e
      sinR 5 f n r e'

def evalCospi (f : Fmt) (x : FVal) : FRes :=
  match x with
  | .nan s => fuNan f s
  | .inf _ => fuNan f true
  | .fin _ m0 e0 =>
    if m0 = 0 then { val := f.one }
    else
      let (m, e) := oddPart 200 m0 e0
      let (r, e') := mod2 m e
      if e' = 0 then { val := f.signed (r = 1) f.one }
      else
        let half := 2 ^ (-e').toNat / 2
        -- cos π r = sin π (1/2 − r), with r folded into [0, 1]
        let one := 2 ^ (-e').toNat
        let u := if r > one then 2 * one - r else r
        if u = half then { val := 0 }
        else
          let neg := u > half
          let v := if neg then u - half else half - u
          if v = half then { val := f.signed neg f.one } else
          sinFree 6 f neg v u e'

def evalTanh (f : Fmt) (x : FVal) : FRes :=
  match x with
  | .nan s => fuNan f s
  | .inf n => { val := f.signed n f.one }
  | .fin n m0 e0 =>
    if m0 = 0 then { val := f.signed n 0 }
    else
      let (m, e) := oddPart 64 m0 e0
      let l := (Nat.log2 m : Int) + e
      let y : Encl :=
        if l < -30 then { lo := m * 2 ^ 60 - m, hi := m * 2 ^ 60, e := e - 60 }   -- x(1 − x²) ≤ tanh x ≤ x
        else if l ≥ 6 then { lo := 2 ^ fxP - 1, hi := 2 ^ fxP, e := -fxP }
        else
          let u := 2 * toFx m e * 2 ^ fxP / fxLn2       -- 2|x| log2 e
          let ex := exp2Fx (u % 2 ^ fxP) * 2 ^ (u / 2 ^ fxP)
          let t := 2 ^ fxP - 2 * 2 ^ (2 * fxP) / (ex + 2 ^ fxP)
          { lo := t - 2 ^ 20, hi := min (t + 2 ^ 20) (2 ^ fxP), e := -fxP }
      fuFree f (boundOf f 2) true (fun c => c ≤ f.one) n y (fuCand 7 f m e)

/-! ### Meanings -/

/-- Captured operands of a function-unit instruction: OPV0 holds A and OPV2 holds B (R295). -/
def captureFu (_ : State) (_ : Thread) (vs : List Nat) : List Word :=
  [BitVec.ofNat 32 (arg vs 0), 0, BitVec.ofNat 32 (arg vs 1)]

/-- Result of a function-unit word on its captured operands. -/
def fuRes (i : Instr) (a b : Nat) : Res :=
  let u1 := fun (t : Ty) (g : Fmt → FVal → FRes) => fEls t fun e => g (fmtOf t) (fArg t a e)
  match i with
  | .rcp w => u1 w.ty evalRcp
  | .rsqrt w => u1 w.ty evalRsqrt
  | .sqrt w => u1 w.ty evalSqrt
  | .exp2 w => u1 w.ty evalExp2
  | .log2 w => u1 w.ty evalLog2
  | .sinpi w => u1 w.ty evalSinpi
  | .cospi w => u1 w.ty evalCospi
  | .scpi _ =>
    let x := evalSinpi .f32 (Fmt.f32.read a)
    let y := evalCospi .f32 (Fmt.f32.read a)
    { d := [[BitVec.ofNat 32 x.val, BitVec.ofNat 32 y.val]], fl := x.flags ||| y.flags }
  | .tanh w => u1 w.ty evalTanh
  | .fdiv w =>
    let x := divVal .f32 w.rnd (Fmt.f32.read a) (Fmt.f32.read b)
    res1 .f32 x.val x.flags
  | .exd w => fEls w.ty fun e => evalExd (fmtOf w.ty) (fArg w.ty a e) (fArg w.ty b e)
  | _ => {}

/-- Function-unit entries of a quarter that are in the unit or in its input queue. -/
def State.fuQueue (s : State) (core qtr : Nat) : List Entry :=
  (s.threads.filter fun t => t.tid.core = core && t.tid.qtr = qtr).flatMap fun t =>
    t.unf.filter fun e => e.st = 0 && !e.queued && e.val.isNone && e.isFu

/-- Perform a function-unit instruction once the quarter's earlier issue groups have left the input queue (R235); its
flags are ORed into %fpx when it completes (R237). -/
def performFu (i : Instr) (t : ThreadId) (e : Entry) : P (List Word) := do
  if ((← getSt).fuQueue t.core t.qtr).any fun x => x.tag < e.tag then throw .wait
  let r := fuRes i (e.w 0) (e.w 2)
  modThread t fun x => { x with fpx := x.fpx ||| r.fl }
  return (r.d.headD [])

/-- Issue to the function unit (R235-R237). -/
def issueFu (i : Instr) : W Unit := issueEntries i true captureFu (performFu i)

def execRcp (w : FWord) (s : State) : Host.Outcome State Fault Refusal := run (issueFu (.rcp w)) s
def execRsqrt (w : FWord) (s : State) : Host.Outcome State Fault Refusal := run (issueFu (.rsqrt w)) s
def execSqrt (w : FWord) (s : State) : Host.Outcome State Fault Refusal := run (issueFu (.sqrt w)) s
def execExp2 (w : FWord) (s : State) : Host.Outcome State Fault Refusal := run (issueFu (.exp2 w)) s
def execLog2 (w : FWord) (s : State) : Host.Outcome State Fault Refusal := run (issueFu (.log2 w)) s
def execSinpi (w : FWord) (s : State) : Host.Outcome State Fault Refusal := run (issueFu (.sinpi w)) s
def execCospi (w : FWord) (s : State) : Host.Outcome State Fault Refusal := run (issueFu (.cospi w)) s
def execScpi (w : FWord) (s : State) : Host.Outcome State Fault Refusal := run (issueFu (.scpi w)) s
def execTanh (w : FWord) (s : State) : Host.Outcome State Fault Refusal := run (issueFu (.tanh w)) s
def execFdiv (w : FWord) (s : State) : Host.Outcome State Fault Refusal := run (issueFu (.fdiv w)) s
def execExd (w : FWord) (s : State) : Host.Outcome State Fault Refusal := run (issueFu (.exd w)) s

end Sys2Proof.Machine
end

