-- ==== Sys2Proof/Machine/Ready.lean ====
section
/-!
DEFINITION. The word a thread is at, and whether the thread is ready to issue it (spec 04 R160, R182, R183, R189; 06 R235;
08 R294).
-/
namespace Sys2Proof.Machine

/-! ### The word a thread is at -/

/-- What is known of the word at a thread's PC: it cannot be had yet, an attempt to issue it ends in a fetch wait or a
cause, or it is an instruction. -/
inductive Fetched where
  | waits
  | stops
  | word (i : Instr)
deriving DecidableEq, Repr

/-- The word at a thread's PC, as a fetch would find it now. -/
def State.wordFor (s : State) (th : Thread) : Fetched :=
  let r := (fetchAt th th.pc).run.run { st := s }
  match r.1 with
  | .ok w => match decodeFor s.features w with
    | .ok i => .word i
    | .error _ => .stops
  | .error .wait => if r.2.st.bisnp = s.bisnp then .waits else .stops
  | .error _ => .stops

/-! ### Readiness (R160, R294) -/

/-- Parked in a wait state of Table 4.3. -/
def Thread.parked (t : Thread) : Bool := t.wait ≠ .ready || t.halt.isSome

/-- The thread could issue a word whose operands are available. -/
def State.free (s : State) (t : Thread) : Bool :=
  !t.parked && !t.idle && t.pending.isNone && t.fetchWait.isNone && t.fetchLine.isNone && !t.reinj && !t.kvDue
    && (s.die (dieOf t.tid.core)).pchange.isNone
    && !s.saving.any fun y => (y.1, y.2.1) = (t.tid.core, t.slot)

/-- The word reads or clears %fpx, which function-unit instructions write when they complete (R237). -/
def touchesFpx (i : Instr) (u : Uses) : Bool :=
  match i with
  | .csrrd w => w.o2.toNat = 0
  | .csrwr w => w.o1.toNat = 0
  | _ => u.ops.any fun o => o.code.toNat = 0x1B0 && !o.dst

/-- The word pushes a queue entry, which is a release at team scope (R182). -/
def pushesQueue (i : Instr) (u : Uses) : Bool :=
  match i with | .qtry w => w.f0 | _ => !u.pushes.isEmpty

/-- Unfinished instructions of the program that a thread runs: its own, or its handler's. -/
def Thread.own (t : Thread) : List Entry := t.unf.filter fun e => !t.handler || e.hand

/-- The threads of a group that stand at one word and can issue it together, the thread itself among them. -/
def State.beside (s : State) (th : Thread) : List Thread :=
  th :: s.threads.filter fun x => x.tid.core = th.tid.core && x.slot = th.slot && x.grp = th.grp && x.pc = th.pc
    && x.handler = th.handler && !x.parked && !x.idle && x.pending.isNone && x.tid ≠ th.tid

/-- Every operand of the word is available to the thread: no register of it is still to be written (R41), fewer than 16
instructions are unfinished (R294), EXIT finds every register write done (R189), a signature of an engine command finds every
earlier access performed (R362), and a push those of all the threads that push with it (R181, R182). In handler mode the
interrupted program's instructions are not waited for. -/
def wordReady (s : State) (th : Thread) (i : Instr) : Bool :=
  let u := usesOf i
  let mine := th.own
  let on := guardTrue (guardOf i) th
  (laviol u th || !(th.blocked u || s.blockedByMates th u))
    && ((classOf i).isNone || th.unf.length < 16)
    && (!touchesFpx i u || !mine.any Entry.isFu)
    && (!on || match i with
      | .exitW _ => mine.all fun e => e.dst.isEmpty || e.st = 2
      | _ => !((mArgs i).isSome && mine.any Entry.open_)
          && !(pushesQueue i u && (s.beside th).any fun x => x.own.any Entry.open_))

/-- The input queue of a quarter's function unit has a free entry: one issue is in the unit and two are in the queue
(R235). -/
def State.fuRoom (s : State) (core qtr : Nat) : Bool :=
  ((s.fuQueue core qtr).map Entry.tag).eraseDups.length < 3

/-- The thread is ready at a word of which `w` is known. -/
def State.readyAt (s : State) (t : Thread) (w : Fetched) : Bool :=
  s.free t && match w with
    | .waits => false
    | .stops => true
    | .word i => wordReady s t i && (classOf i ≠ some 1 || s.fuRoom t.tid.core t.tid.qtr)

end Sys2Proof.Machine
end

