-- ==== Sys2Proof/Machine/Context.lean ====
section
/-!
DEFINITION. The context engine (spec 08): its registers and instructions but RETT, spatial pre-emption, and the save of a
team. Re-injection, RETT, restore and the debugger stand in Replay.lean.
-/
namespace Sys2Proof.Machine

/-! ### CSRs (R307, R318, Table 8.7) -/

def lowWord (x : DWord) : Word := x.setWidth 32
def highWord (x : DWord) : Word := (x >>> 32).setWidth 32
def setLow (x : DWord) (w : Word) : DWord := BitVec.ofNat 64 (x.toNat / 2 ^ 32 * 2 ^ 32 + w.toNat)
def setHigh (x : DWord) (w : Word) : DWord := BitVec.ofNat 64 (x.toNat % 2 ^ 32 + w.toNat * 2 ^ 32)

/-- A core or die CSR as core `c` reads it. -/
def State.coreCsr (s : State) (c n : Nat) : Word :=
  let d := s.die (dieOf c)
  match n with
  | 0x20 => BitVec.ofNat 32 (s.core c).parkPct
  | 0x21 => BitVec.ofNat 32 (s.core c).parkWin
  | 0x24 => lowWord d.vapbase
  | 0x25 => highWord d.vapbase
  | 0x26 => BitVec.ofNat 32 (d.mask.toNat + d.carve.isSome.toNat * 2 ^ 20)
  | 0x27 => (s.core c).ringDrop
  | _ => 0

/-- VAPBASE keeps BASE and VAPEN. -/
def vapKeep (x : DWord) : DWord := BitVec.ofNat 64 (x.toNat / 2 ^ 33 * 2 ^ 33 + x.toNat % 2)

/-- Write a core or die CSR at core `c`. -/
def writeCoreCsr (c n : Nat) (v : Word) : W Unit :=
  match n with
  | 0x20 => modCore c fun x => { x with parkPct := min 100 (v.toNat % 128) }
  | 0x21 => modCore c fun x => { x with parkWin := max 1 v.toNat }
  | 0x24 => modDie (dieOf c) fun d => { d with vapbase := vapKeep (setLow d.vapbase v) }
  | 0x25 => modDie (dieOf c) fun d => { d with vapbase := vapKeep (setHigh d.vapbase v) }
  | 0x27 => modCore c fun x => { x with ringDrop := x.ringDrop &&& ~~~v }
  | _ => return

/-- CSR `n` as a thread reads it. -/
def State.csr (s : State) (th : Thread) (n : Nat) : Word :=
  let g := (s.group? th.tid.core th.slot th.grp).getD
    { core := th.tid.core, slot := th.slot, grp := th.grp, s := [], h := [], masks := [] }
  match n with
  | 0x00 => th.fpx.setWidth 32
  | 0x01 => BitVec.ofNat 32 (((s.team? th.tid.core th.slot).map Team.base).getD 0)
  | 0x08 => lowWord g.bitmap
  | 0x09 => highWord g.bitmap
  | 0x10 => lowWord th.tpc
  | 0x11 => highWord th.tpc
  | 0x12 => th.tstat
  | _ =>
    if 0x40 ≤ n && n < 0x70 then
      let m := g.mask ((n - 0x40) / 2)
      if n % 2 = 0 then lowWord m else highWord m
    else s.coreCsr th.tid.core n

/-- A CSRWR to CSR `n` lacks its privilege (R306). -/
def State.csrDenied (s : State) (th : Thread) (n : Nat) : Bool :=
  match n with
  | 0x10 | 0x11 => !s.anyPriv th
  | 0x20 | 0x21 | 0x24 | 0x25 | 0x27 => !s.driverPriv th
  | _ => false

/-- TPC bits [2:0] are ignored on write. -/
def writeCsr (th : Thread) (n : Nat) (v : Word) : W Unit :=
  match n with
  | 0x00 => modThread th.tid fun t => { t with fpx := t.fpx &&& ~~~(v.setWidth 5) }
  | 0x10 => modThread th.tid fun t => { t with tpc := setLow t.tpc (v &&& ~~~7#32) }
  | 0x11 => modThread th.tid fun t => { t with tpc := setHigh t.tpc v }
  | _ => writeCoreCsr th.tid.core n v

def execCsrrd (w : EWord) (s : State) : Host.Outcome State Fault Refusal :=
  run (issueVec (.csrrd w) fun s th _ => res1 .b32 (s.csr th w.o2.toNat).toNat) s

/-- R318. Its run-time PROT is not queued: TPC is the word and no entry stands in the replay queue (DESIGN CHOICE, log 57:
Table 8.1 queues PROT of "run-time memory and engine" and does not say whether a CSR access is one). -/
def execCsrwr (w : EWord) (s : State) : Host.Outcome State Fault Refusal := run (do
  let n := w.o1.toNat
  let r ← checkIssue (.csrwr w)
  let deny := r.act.filter fun x => s.csrDenied x.1 n
  let act := r.act.filter fun x => !s.csrDenied x.1 n
  for x in act do writeCsr x.1 n (BitVec.ofNat 32 (arg x.2 0))
  endIssue (.csrwr w) { r with act, bad := r.bad ++ deny.map fun x => (x.1.tid, Cause.prot, 0) }
    fun _ => s.cur.pc + 8) s

/-! ### TRAP, BKPT, CAUSECLR, RQRD, RQWR (R314, R316, R317, R319) -/

def execTrap (w : EWord) (s : State) : Host.Outcome State Fault Refusal := run (do
  let r ← checkIssue (.trap w)
  for x in r.act do modThread x.1.tid fun t => { t with code := w.o1 }
  endIssue (.trap w) { r with act := [], bad := r.bad ++ r.act.map fun x => (x.1.tid, Cause.swtrap, 0) }
    fun _ => s.cur.pc + 8) s

/-- A debugger is attached to the launch. -/
def State.debugged (s : State) (l : Nat) : Bool := ((s.launch? l).map Launch.attached).getD false

def execBkpt (w : EWord) (s : State) : Host.Outcome State Fault Refusal := run (do
  let r ← checkIssue (.bkpt w)
  let next := s.cur.pc + 8
  for x in r.act do modThread x.1.tid fun t => { t with code := w.o1 }
  endIssue (.bkpt w) r fun _ => next
  for x in r.act do
    if s.debugged x.1.lslot then
      modThread x.1.tid fun t => { t with tpc := next, halt := some .bkpt, windows := [] }
      sendHost (.debugger x.1.tid)   -- no vector of Table 14.2 is the debugger's (log 46)
    else raise x.1.tid .bkpt false next) s

def execCauseclr (w : EWord) (s : State) : Host.Outcome State Fault Refusal := run (do
  let r ← checkIssue (.causeclr w)
  for x in r.act do setMaskBit x.1 w.o1.toNat false
  endIssue (.causeclr w) r fun _ => s.cur.pc + 8) s

/-- Valid replay entries, oldest first. -/
def Thread.replay (t : Thread) : List Entry := t.unf.filter fun e => e.queued

/-- Field `f` of a replay entry (Table 8.3). -/
def Entry.field (e : Entry) (f : Nat) : Word :=
  let cls := match decodeWord e.word with | .ok i => (classOf i).getD 0 | .error _ => 0
  match f with
  | 0 => lowWord e.word
  | 1 => highWord e.word
  | 2 => lowWord e.pc
  | 3 => highWord e.pc
  | 4 => BitVec.ofNat 32 (2 ^ 31 + e.st * 2 ^ 29 + (if e.st = 2 then ((e.cause.map Cause.bit).getD 0) * 2 ^ 23 else 0)
      + e.sub * 2 ^ 15 + cls * 2 ^ 13 + e.skip.toNat)
  | 5 => lowWord e.fa
  | 6 => highWord e.fa
  | 7 => 0
  | _ => (e.opv[f - 8]?).getD 0

def execRqrd (w : EWord) (s : State) : Host.Outcome State Fault Refusal :=
  run (issueVec (.rqrd w) fun _ th _ =>
    res1 .b32 (((th.replay[w.o2.toNat % 32]?).map fun e => (e.field (w.o3.toNat % 32)).toNat).getD 0)) s

/-- Field 4 is written only in SKIP. -/
def Entry.setField (e : Entry) (f : Nat) (v : Word) : Entry :=
  if f = 4 then { e with skip := v.toNat % 2 = 1 } else { e with opv := e.opv.set (f - 8) v }

def execRqwr (w : EWord) (s : State) : Host.Outcome State Fault Refusal := run (do
  let r ← checkIssue (.rqwr w)
  for x in r.act do
    match x.1.replay[w.o1.toNat % 32]? with
    | some e => modEntry x.1.tid e.id fun y => y.setField (w.o2.toNat % 32) (BitVec.ofNat 32 (arg x.2 0))
    | none => pure ()
  endIssue (.rqwr w) r fun _ => s.cur.pc + 8) s

/-! ### SETMODE (R320) -/

def performSetmode (m : Nat) (t : ThreadId) (e : Entry) : P (List Word) := do
  let s ← getSt
  match (s.thread? t).bind fun th => s.launch? th.lslot with
  | none => return [0]
  | some l =>
    let v := e.w 0
    match m with
    | 0 => do
      modLaunch l.slot fun x => { x with prom := v % 2 = 1 }
      return [BitVec.ofNat 32 l.prom.toNat]
    | 1 =>
      if v < 64 || v > 65535 then return [0xFFFFFFFF]
      else do
        modLaunch l.slot fun x => { x with fair := v }
        return [BitVec.ofNat 32 l.fair]
    | _ => do
      modLaunch l.slot fun x => { x with wdogLim := v, wdog := 0 }
      return [BitVec.ofNat 32 l.wdogLim]

/-! ### Spatial pre-emption (R277, R278, R305) -/

def statusWord (code vacated : Nat) : Word := BitVec.ofNat 32 (code * 2 ^ 28 + vacated)

/-- Launches with a team on the core. -/
def State.launchesOn (s : State) (c : Nat) : List Nat := ((s.teams.filter fun t => t.core = c).map Team.lslot).eraseDups

/-- Cores that a pre-emption of launch `l` may vacate: those that hold a team of it and of no other launch, and those that
hold other teams too; never the issuing team's core nor one that holds another COSCHED launch. -/
def State.vacatable (s : State) (l : Nat) (avoid : Option Nat) : List Nat × List Nat :=
  let others := fun c => (s.launchesOn c).filter (· ≠ l)
  let ok := (s.coresOf l).filter fun c => some c ≠ avoid
    && !(others c).any fun k => ((s.launch? k).map fun x => x.rcd.cosched).getD false
  (ok.filter fun c => (others c).isEmpty, ok.filter fun c => !(others c).isEmpty)

/-- At most `n` of the cores, drawn by the device. -/
def drawCores (xs : List Nat) (n : Nat) : W (List Nat) := do
  match n with
  | 0 => return []
  | n + 1 => do
    let k ← choose xs.length
    match xs[k]? with
    | none => return []
    | some c => return c :: (← drawCores (xs.eraseIdx k) n)

/-- The cores that a pre-emption vacates: at most `n`, first those that hold no other launch's team; which of equally
preferred ones is read from the step's choices (DESIGN CHOICE, log 4: R277 leaves it to the dispatcher). -/
def pickVictims (l n : Nat) (avoid : Option Nat) : W (List Nat) := do
  let x := (← getSt).vacatable l avoid
  let alone ← drawCores x.1 n
  return alone ++ (← drawCores x.2 (n - alone.length))

/-- Why a pre-emption does not start (Table 8.6); `issuer` is the issuing team's launch. -/
def State.preemptRefused (s : State) (l n q : Nat) (issuer : Option Nat) : Option Nat :=
  if n = 0 || n > 512 || q > 63 then some 5
  else if s.preempt.isSome then some 4
  else match s.launch? l with
    | some x =>
      if x.phase ≠ .running then some 3
      else if issuer = some l && x.rcd.cosched then some 6
      else none
    | none => some 3

/-- Begin a pre-emption: the saves begin and the cores to vacate are reserved; earlier reserves of theirs are remembered. -/
def startPreempt (l n q : Nat) (lead : Option ThreadId) : W Unit := do
  let s ← getSt
  let order := ((s.launch? l).map Launch.order).getD 0
  let vacate ← pickVictims l n (lead.map ThreadId.core)
  let all_ := ((s.launch? l).map fun x => x.rcd.cosched).getD false
  let pend := (s.teams.filter fun t => vacate.contains t.core || (all_ && t.lslot = l)).map fun t => (t.core, t.slot)
  upd fun s => { s with
    preempt := some { queue := q, lslot := l, order, lead, pend, vacate
                      old := s.reserved.filter fun r => vacate.contains r.1 }
    reserved := s.reserved.filter (fun r => !vacate.contains r.1) ++ vacate.map fun c => (c, q)
    saving := s.saving ++ (pend.filter fun x => !s.saving.any fun y => (y.1, y.2.1) = x).map fun x => (x.1, x.2, false) }

/-- PREEMPT: the acting thread waits in ENG until the status is written (R321). -/
def performPreempt (q : Nat) (t : ThreadId) (th : Thread) (e : Entry) : P (List Word) := do
  match e.aux with
  | [1] => throw .eng           -- the pre-emption goes on; with a second word the status has come
  | [_, v] => return [BitVec.ofNat 32 v]
  | _ => do
    match (← getSt).preemptRefused (e.w 0) (e.w 1) q (some th.lslot) with
    | some c => return [statusWord c 0]
    | none => do
      startPreempt (e.w 0) (e.w 1) q (some t)
      modEntry t e.id fun x => { x with aux := [1] }
      throw .eng

def performContext (i : Instr) (t : ThreadId) (e : Entry) : P (List Word) := do
  match (← getSt).thread? t with
  | none => return []
  | some th =>
    match i with
    | .setmode w => performSetmode (w.o2.toNat % 32) t e
    | .preempt w => performPreempt (w.o4.toNat % 64) t th e
    | _ => return []

def isContextOp (i : Instr) : Bool := match i with | .setmode _ | .preempt _ => true | _ => false

def execSetmode (w : EWord) (s : State) : Host.Outcome State Fault Refusal :=
  run (issueActing (.setmode w) (captureE (.setmode w)) (performContext (.setmode w))) s
def execPreempt (w : EWord) (s : State) : Host.Outcome State Fault Refusal :=
  run (issueActing (.preempt w) (captureE (.preempt w)) (performContext (.preempt w))) s

/-- PRECTL_GO (Table 8.5). -/
def execPrectlGo (v : Word) (s : State) : Host.Outcome State Fault Refusal := run (do
  let x := v.toNat
  let l := fld x 16 8
  let n := fld x 0 10
  let q := fld x 24 6
  let kept := BitVec.ofNat 32 (q * 2 ^ 24 + l * 2 ^ 16 + n)
  upd fun s => { s with prectl := kept }
  if flag x 31 then
    match s.preemptRefused l n q none with
    | some c => upd fun s => { s with prestat := statusWord c 0 }
    | none => do
      upd fun s => { s with prectl := kept ||| 0x80000000#32 }
      startPreempt l n q none) s

/-- A pre-emption has no save left to make. -/
def State.preemptOver (s : State) : Bool :=
  match s.preempt with
  | none => false
  | some p => !p.pend.any fun x => s.saving.any fun y => (y.1, y.2.1) = x

/-- The launch that a pre-emption is of still runs: it has teams, or has some to place (R280). -/
def State.victimRuns (s : State) (p : Preempt) : Bool :=
  s.launches.any fun l => l.slot = p.lslot && l.order = p.order && l.phase = .running && (s.endCode l).isNone

/-- A PREEMPT that waits for its status. -/
def Entry.awaitsStatus (e : Entry) : Bool := e.aux = [1] && match e.instr? with | some (.preempt _) => true | _ => false

/-- PREEMPT_DONE (R305, R321): the status is written, also to a PREEMPT of a saved team; a core where a team stays is not
reserved, and what it was reserved for before holds. -/
def execPreemptDone (s : State) : Host.Outcome State Fault Refusal := run (do
  match s.preempt with
  | none => return
  | some p => do
    if !s.preemptOver then return
    let complete := !p.saved && !p.full && !s.victimRuns p
    let vacated := if complete then [] else p.vacate.filter fun c => !p.kept.contains c
    let code := if complete then 1 else if p.full then 2 else 0
    let st := statusWord code vacated.length
    upd fun s => { s with
      preempt := none
      reserved := s.reserved.filter (fun r => !(p.vacate.contains r.1) || vacated.contains r.1)
        ++ p.old.filter fun r => !vacated.contains r.1 }
    endReserves
    match p.lead with
    | none => upd fun s => { s with prestat := st, prectl := s.prectl &&& 0x7FFFFFFF#32 }
    | some t =>
      let answer := fun (x : Thread) =>
        { x with unf := x.unf.map fun e => if e.awaitsStatus then { e with aux := [1, st.toNat] } else e }
      upd fun s => { s with
        images := s.images.map fun i => { i with threads := i.threads.map answer }   -- one PREEMPT waits at a time
        threads := s.threads.map answer }
      match (s.thread? t).bind fun th => th.unf.find? Entry.awaitsStatus with
      | some e =>
        match e.instr? with
        | some i => if !e.queued then attemptActing (performContext i) t e.id
        | none => return
      | none => return) s

/-! ### The parked-share switch (R299) -/

/-- Resident groups of a core, with their live threads. -/
def State.coreGroups (s : State) (c : Nat) : List (Nat × List Thread) :=
  (s.groups.filter fun g => g.core = c).map fun g => (g.slot, s.groupThreads c g.slot g.grp)

/-- At least one live thread in FAULT, none ready (R160). -/
def State.faultParked (s : State) (ts : List Thread) : Bool :=
  (ts.any fun t => t.wait = .fault && t.halt.isNone) && !ts.any fun t => s.readyAt t (s.wordFor t)

/-- The core's share of fault-parked groups has reached PARKPCT. -/
def State.shareReached (s : State) (c : Nat) : Bool :=
  let gs := s.coreGroups c
  let k := (gs.filter fun g => s.faultParked g.2).length
  (s.core c).parkPct ≠ 0 && k ≠ 0 && 100 * k ≥ (s.core c).parkPct * gs.length

/-- The team with the most fault-parked groups, on a tie the lowest slot, never one of a co-scheduled launch. -/
def State.shareVictim (s : State) (c : Nat) : Option Nat :=
  let count := fun sl => ((s.coreGroups c).filter fun g => g.1 = sl && s.faultParked g.2).length
  let ts := (s.teams.filter fun t => t.core = c && !((s.launch? t.lslot).map fun l => l.rcd.cosched).getD false
    && count t.slot > 0).map Team.slot
  ts.foldl (fun b sl => match b with
    | none => some sl
    | some y => if count sl > count y || (count sl = count y && sl < y) then some sl else some y) none

/-! ### Saving a team (R301-R303) -/

def up4k (n : Nat) : Nat := ceilDiv n 4096 * 4096

/-- Size of a team's image in units of 64 KiB (Table 8.4). -/
def State.imageUnits (s : State) (tm : Team) : Nat :=
  let ts := s.teamThreads tm.core tm.slot
  let groups := (ts.map Thread.grp).eraseDups.length
  let qs := s.quarters.filter fun q => q.core = tm.core
  let tiles := qs.foldl (fun n q => n + (q.acc.filter fun t => t.owner = some tm.slot).length
    + (q.shadows.filter fun x => (x.bound.map (·.1)) = some tm.slot).length) 0
  ceilDiv (8192 + up4k (1024 * groups) + up4k (1088 * ts.length) + up4k (ts.foldl (fun n t => n + 4 * t.declared) 0)
    + up4k (tm.nq * 8 * (4 * tm.width + 8)) + up4k (1088 * tiles) + up4k tm.scratch) 65536

/-- The save pool has room for an image. -/
def State.poolRoom (s : State) (units : Nat) : Bool :=
  s.images.foldl (fun n i => n + i.units) 0 + units ≤ s.savesize.toNat / 65536

/-- PARKED_SHARE_SWITCH (R299, R300): the save of one team begins; without room in the pool it is not started. -/
def execParkedShareSwitch (core : Nat) (s : State) : Host.Outcome State Fault Refusal := run (do
  if (s.core core).parkCount < (s.core core).parkWin then return
  modCore core fun c => { c with parkCount := 0 }
  match (s.shareVictim core).bind (s.team? core) with
  | none => return
  | some tm =>
    if s.poolRoom (s.imageUnits tm) && !s.saving.any fun y => (y.1, y.2.1) = (core, tm.slot) then
      upd fun s => { s with saving := s.saving ++ [(core, tm.slot, true)] }) s

/-- A copy command waits at a page request or at an away entry: a save records it (R349, R443). -/
def CopyCmd.stopped (c : CopyCmd) : Bool :=
  !c.ended && ((c.wait.any fun w => !w.ats) || (match c.job with
    | .kv a => a.stop.isSome
    | .kvcopy a => a.stop.isSome
    | _ => false))

/-- The team's engine operations have retired or stopped, and its mirrors are complete (R301 step 3). -/
def State.enginesSettled (s : State) (core slot : Nat) : Bool :=
  ((s.core core).copy.all fun c => c.slot ≠ slot || c.stopped)
    && (s.quarters.all fun q => q.core ≠ core || q.mq.all fun c => c.slot ≠ slot || !c.running)
    && (s.core core).subs.all fun u => u.slot ≠ slot || u.ready || !u.live

/-- The entry goes after one of the entries that stand in the replay queue, so it cannot finish before they do. -/
def State.heldBehind (s : State) (t : Thread) (before : List Entry) (e : Entry) : Bool :=
  match e.acc? with
  | none => false
  | some (_, a) => before.any fun o => o.queued && o.val.isNone && (o.hand || !e.hand) && match o.acc? with
      | some (_, b) => !s.mayPass t b a o e
      | none => false

/-- Entries of a thread of which those that go after a queued one, and with `rng` those that wait for registered ranges,
stand in the replay queue at ST = 0 too (log 58). -/
def State.heldEntries (s : State) (t : Thread) (rng : Bool) (before es : List Entry) : List Entry :=
  match es with
  | [] => before
  | e :: r =>
    let held := e.st = 0 && !e.queued && e.val.isNone
      && (s.heldBehind t before e || (rng && e.parks && t.wait = .rng && e.acc?.isSome))
    s.heldEntries t rng (before ++ [if held then { e with queued := true, parks := false, page := none, line := none } else e]) r

/-- A load, store or RMW that a save waits for (R301 step 2, R302). WAITZ and WAITNE wait on after the restore (R186). -/
def Entry.unperformed (e : Entry) : Bool :=
  e.st = 0 && !e.queued && e.val.isNone && match e.acc? with | some (i, _) => !isWait i | none => false

/-- An entry as the image holds it: what is not performed stands in the replay queue at ST = 0 (R294, R302). A thread
parked in WAIT or CVW keeps its instruction (R186). -/
def captureEntry (t : Thread) (e : Entry) : Entry :=
  let kept := [t.wait, t.resume].any fun w => match w, e.instr? with
    | .poll _, some i => isWait i
    | .cvw _, some i | .cvDeferred _, some i => (mArgs i).isSome
    | _, _ => false
  if e.st = 0 && !kept then { e with queued := true, parks := false, page := none, line := none } else e

/-- Of a NAP or a wait the cycles left are kept. -/
def Wait.left (now : Nat) (w : Wait) : Wait :=
  match w with | .nap u => .nap (u - now) | .poll u => .poll (u - now) | w => w

/-- An entry that a restore re-injects: in handler mode one of the handler's own (R304). -/
def Thread.replays (t : Thread) (e : Entry) : Bool := e.queued && (!t.handler || (e.hand && e.st ≠ 2))

/-- A thread as the image holds it; `now` is its die's issue clock. A thread parked on one of its accesses goes back to the
wait that it left for that. -/
def captureThread (now : Nat) (t : Thread) : Thread :=
  let unf := t.unf.map (captureEntry t)
  let asked := t.fetchWait.filter fun w => !w.ats   -- a fetch whose page request goes on (R300)
  let wait : Wait := match t.wait with
    | .rng | .fault | .eng .entry => if asked.isSome then .fault else t.resume
    | w => w
  { t with
    windows := [], unf
    wait := wait.left now, resume := .ready, outer := t.outer.left now
    fetchWait := asked, fetchRetry := if asked.isSome then t.fetchRetry else 0, fetchLine := none
    reinj := t.reinj || unf.any t.replays }

/-- Move a thread's contributions between the core's counter and a die's parked counter as one transfer (R391). -/
def moveReader (t : Thread) (die : Nat) (toDie : Bool) : W Unit := do
  for d in List.range 8 do
    if (t.depth[d]?).getD 0 ≠ 0 then
      let ph := (t.ph[d]?).getD false
      if toDie then
        modParked die d ph (· + 1)
        modCount t.tid.core d ph (· - 1)
      else
        modCount t.tid.core d ph (· + 1)
        modParked die d ph (· - 1)

/-- A range entry of a saved team, with scratchpad bases relative to the team base. -/
def RangeEntry.rebase (e : RangeEntry) (old new : Nat) : RangeEntry :=
  if e.spc = 1 then { e with base := e.base - old + new } else e

/-- The image of a team. -/
def State.imageOf (s : State) (tm : Team) (share : Bool) (bytes : List Byte) (bad : List Nat) : Image :=
  let c := s.core tm.core
  let qs := s.quarters.filter fun q => q.core = tm.core
  { id := s.nextImage, die := dieOf tm.core, core := tm.core, lslot := tm.lslot
    team := { tm with batch := [] }
    groups := s.groups.filter fun g => g.core = tm.core && g.slot = tm.slot
    threads := (s.teamThreads tm.core tm.slot).map (captureThread (s.issueClock (dieOf tm.core)))
    scratch := bytes, bad
    ranges := c.ranges.filter fun r => r.owner = tm.slot && r.eng = 3
    subs := c.subs.filter fun u => u.slot = tm.slot
    rings := c.rings.filter fun r => r.slot = tm.slot
    copies := c.copy.filter fun k => k.slot = tm.slot
    tiles := qs.flatMap fun q => (q.acc.filter fun t => t.owner = some tm.slot).map (q.qtr, ·)
    shads := qs.flatMap fun q => (q.shadows.filter fun x => (x.bound.map (·.1)) = some tm.slot).map (q.qtr, ·)
    cmds := qs.flatMap fun q => (q.mq.filter fun k => k.slot = tm.slot).map (q.qtr, ·)
    share, units := s.imageUnits tm }

/-- The core number that a collective carries while its team is saved. -/
def savedCore : Nat := 1024

/-- Teams whose save has begun are no longer to be saved: the pool has no room (R303, R305). -/
def dropSaving (ts : List Team) : W Unit :=
  upd fun s => { s with
    saving := s.saving.filter fun y => !ts.any fun t => (t.core, t.slot) = (y.1, y.2.1)
    preempt := s.preempt.map fun p =>
      let mine := ts.filter fun t => p.pend.contains (t.core, t.slot)
      if mine.isEmpty then p else { p with full := true, kept := p.kept ++ mine.map Team.core } }

/-- A saved team's batch returns (R277). -/
def drainBatch (core slot : Nat) : W Unit := do
  match (← getSt).team? core slot with
  | none => return
  | some tm => modLaunch tm.lslot fun l => { l with returned := tm.batch.foldl (fun r n => insertNat n r) l.returned }

/-- Entries that the save lets finish first: everything that can be performed now (R302), and each function-unit
instruction if the device so chooses (R237). -/
def finishIssued (core slot : Nat) : W Unit := do
  for t in (← getSt).teamThreads core slot do
    for e in t.unf do
      match e.instr? with
      | some i =>
        if e.st = 0 && !e.queued && e.page.isNone && e.line.isNone then
          if e.acc?.isSome && !isWait i then attempt (performOrdered i) t.tid e.id
          else if classOf i = some 1 then
            if (← choose 2) = 0 then attempt (performFu i) t.tid e.id
      | none => pure ()

/-- Every load, store and RMW of the team has been performed, or cannot be before the save (R301 step 2, R302). -/
def State.accessesDone (s : State) (core slot : Nat) : Bool :=
  (s.teamThreads core slot).all fun t => !(s.heldEntries t true [] t.unf).any Entry.unperformed

/-- The teams that a save takes together: a co-scheduled launch is saved whole (R279). -/
def State.savesWith (s : State) (tm : Team) : List Team :=
  if ((s.launch? tm.lslot).map fun l => l.rcd.cosched).getD false then
    s.teams.filter fun t => t.lslot = tm.lslot && s.saving.any fun y => (y.1, y.2.1) = (t.core, t.slot)
  else [tm]

/-- Steps 4 to 7 of a save, for a team whose accesses have been performed and whose core's release is made. -/
def saveTeam (l : Launch) (tm : Team) (share : Bool) : W Unit := do
  let core := tm.core
  let slot := tm.slot
  for t in (← getSt).teamThreads core slot do moveReader t (dieOf core) true
  let _ ← mapTry l (mapWrite l tm.tnum (2 ^ 64 - 1))
  let bytes ← readBytes (scratchBase core + tm.base) tm.scratch
  let bad ← badWords (scratchBase core + tm.base) tm.scratch
  let img := (← getSt).imageOf tm share bytes bad
  let mine := ((← getSt).teamThreads core slot).map Thread.tid
  let away := fun (t : ThreadId) => if mine.contains t then { t with core := savedCore + img.id } else t
  renameSenders away
  upd fun s => { s with
    images := s.images ++ [img]
    dies := s.dies.map fun x => { x with carve := x.carve.map fun c => { c with lead := away c.lead } }
    nextImage := s.nextImage + 1
    colls := s.colls.map fun x =>
      if x.core = core && x.team = slot then { x with core := savedCore, team := img.id } else x
    preempt := s.preempt.map fun p => if p.pend.contains (core, slot) then { p with saved := true } else p }
  modCore core fun c => { c with copy := c.copy.filter fun k => k.slot ≠ slot }
  drainBatch core slot
  removeTeam core slot

/-- Step 4 of a save for each core: answers whether the release could be made. -/
def releaseCores (cores : List Nat) : W Bool := do
  match cores with
  | [] => return true
  | c :: r =>
    match ← (releaseAct c .sys 0 : P Unit).run with
    | .error (.cause ..) | .ok _ => releaseCores r
    | .error _ => return false

/-- TEAM_SAVE (R301-R303): a team whose save has begun and whose engines have settled goes to the save pool, and with it
the other teams of a co-scheduled launch (R279). -/
def execTeamSave (core slot : Nat) (s : State) : Host.Outcome State Fault Refusal := run (do
  match s.team? core slot, s.saving.find? fun y => (y.1, y.2.1) = (core, slot) with
  | some tm, some (_, _, share) =>
    match s.launch? tm.lslot with
    | none => return
    | some l => do
      let ts := s.savesWith tm
      if !ts.all fun x => s.enginesSettled x.core x.slot then return
      if !s.poolRoom (ts.foldl (fun n x => n + s.imageUnits x) 0) then
        dropSaving ts
        return
      for x in ts do
        if !(← mapTry l (mapReady l x.tnum 1)) then return
      for x in ts do finishIssued x.core x.slot
      let s' ← getSt
      if !ts.all fun x => s'.accessesDone x.core x.slot then return
      if !(← releaseCores (ts.map Team.core).eraseDups) then return
      for x in ts do saveTeam l x share
  | _, _ => return) s

end Sys2Proof.Machine
end

