-- ==== Sys2Proof/Machine/Replay.lean ====
section
/-!
DEFINITION. The replay of accesses and commands: attempts of any unfinished instruction, re-injection and RETT (spec 08
R296, R315), the host's answers that accesses wait for (05 R216, R225, R226; 08 R297), the restore of a team (R304), and
the debugger's commands (R309-R311).
-/
namespace Sys2Proof.Machine

/-! ### Attempts -/

/-- Attempt an unfinished instruction of any class. -/
def attemptEntry (t : ThreadId) (id : Nat) : W Unit := do
  match ((← getSt).thread? t).bind (·.entry? id) with
  | none => return
  | some e =>
    match e.instr? with
    | none => return
    | some i =>
      if (accOf i).isSome then attempt (performOrdered i) t id
      else if classOf i = some 1 then attempt (performFu i) t id
      else if isCopyOp i then attemptCmd (performCopyOp i) t id
      else if isKvOp i then attemptCmd (performKv i) t id
      else if isGraceOp i then attemptCmd (performGrace i) t id
      else if isCollOp i then attemptCmd (performColl i) t id
      else match i with
        | .msend _ => attemptCmd (performFabric i) t id
        | .ccadd _ => attemptCmd (performDisp i) t id
        | .omap w => attemptActing (performOmap w) t id
        | .accrd w => attempt (performAccrd w) t id
        | _ =>
          if isFabricOp i then attemptActing (performFabric i) t id
          else if isDispOp i then attemptActing (performDisp i) t id
          else if isContextOp i then attemptActing (performContext i) t id
          else match mArgs i with
            | some a => attemptSign a.cv t id
            | none => return

/-- An engine instruction keeps what it has begun across a replay. -/
def keepsAux (i : Instr) : Bool :=
  match i with | .gpsync _ | .carve _ | .subscr _ | .kvapp _ | .preempt _ | .stv _ => true | _ => false

/-- A replay entry as it is performed anew: translated again, its checks made again (R296). -/
def freshEntry (e : Entry) : Entry :=
  { e with
    st := 0, cause := none, sub := 0, fa := 0, queued := false, parks := false, page := none, line := none
    retry := if e.st = 2 then 0 else e.retry
    aux := if (e.instr?.map keepsAux).getD false then e.aux else [] }

/-! ### Re-injection (R296, R315) -/

/-- An instruction that was re-injected before the entry `id` has not been performed yet: later entries wait for it. An
accepted ACCRD is not waited for (R376). -/
def Thread.replayHeld (t : Thread) (id : Nat) : Bool :=
  (t.unf.takeWhile fun e => e.id ≠ id).any fun e =>
    e.st = 0 && !e.queued && e.val.isNone && (e.hand || !t.handler) && !(e.isAccrd && e.aux = [1])

/-- The next entry to re-inject, and nothing holds it. -/
def Thread.nextReplay (t : Thread) : Option Entry :=
  (t.unf.find? t.replays).filter fun e => !t.replayHeld e.id

/-- Park a thread in FAULT; the wait that it leaves goes on once the access has been performed (R186). A group-wide or a queue
operation that it waited to issue is tried anew then (R173, R182). -/
def parkFault (t : ThreadId) : W Unit :=
  modThread t fun x =>
    { x with
      wait := .fault
      resume := match x.wait with | .fault | .ready => x.resume | .gop | .que => .ready | w => w }

/-- A raised cause ended the re-injection of a thread. -/
def stoppedSince (old new : Thread) : Bool :=
  (new.handler, new.halt, new.pending) ≠ (old.handler, old.halt, old.pending)

/-- Re-inject a thread's replay queue in entry order, until an entry waits or raises a cause. -/
def reinjectFrom (fuel : Nat) (t : ThreadId) : W Unit := do
  match fuel, (← getSt).thread? t with
  | fuel + 1, some th =>
    if !th.unf.any th.replays then modThread t fun x => { x with reinj := false }
    else match th.nextReplay with
      | none => return
      | some e =>
        if e.skip then
          dropEntry t e.id
          shareResults th e.tag
          releaseWaiters t e.id none
          reinjectFrom fuel t
        else if e.page.isSome then parkFault t
        else
          modEntry t e.id freshEntry
          attemptEntry t e.id
          match (← getSt).thread? t with
          | none => return
          | some th' =>
            if stoppedSince th th' then modThread t fun x => { x with reinj := false } else reinjectFrom fuel t
  | _, _ => return

def reinject (t : ThreadId) : W Unit := do
  modThread t fun x => { x with reinj := true }
  reinjectFrom 64 t

/-- Re-injection goes on for a thread that it has stopped at. -/
def Thread.resumesReplay (t : Thread) : Bool :=
  t.reinj && t.halt.isNone && t.pending.isNone
    && (!t.unf.any t.replays || t.nextReplay.any fun e => e.skip || e.page.isNone)

/-- Leave handler mode for TPC and re-inject the replay queue (R315, R311). -/
def leaveHandler (t : ThreadId) (tpc : DWord) : W Unit := do
  resumeAt t tpc
  reinject t

/-- RETT raises SECTION for a thread whose %nest differs from NESTIN. -/
def Thread.nestBad (t : Thread) : Bool := t.nest % 256 ≠ t.nestin.toNat

/-- A cause mask of the thread's group still holds its lane. -/
def State.causeHeld (s : State) (th : Thread) : Bool :=
  match s.group? th.tid.core th.slot th.grp with
  | some g => (List.range 24).any fun k => (g.mask k).getLsbD th.rel
  | none => false

/-- RETT (R315) closes the windows of every thread that executes it (R41): threads that go back to the handler arrive as
other threads of the issue do; those that leave it arrive at TPC with a fresh stamp (R159 item 4). -/
def execRett (w : EWord) (s : State) : Host.Outcome State Fault Refusal := run (do
  let r ← checkIssue (.rett w)
  let ts := r.act.map (·.1)
  let bad := (ts.filter Thread.nestBad).map fun th => (th.tid, Cause.sectionC, 0)
  let (again, leave) := (ts.filter fun th => !th.nestBad).partition s.causeHeld
  let vec := fun (th : Thread) =>
    s.kdescOf th.lslot + BitVec.ofNat 64 (8 * (((s.launch? th.lslot).bind Launch.desc).map Desc.trapvec).getD 0)
  let tpcOf := fun (th : Thread) => if w.fl && !th.tq then th.tpc + 8 else th.tpc
  issuedBy (.rett w) again (again.map Thread.tid ++ r.pass ++ leave.map Thread.tid)
  for th in again do modThread th.tid fun t => { t with windows := [] }
  let old ← if r.pass.isEmpty && !leave.isEmpty && !again.isEmpty then freshStamp s.cur.core s.cur.qtr else pure s.curStamp
  arrive old false (s.cur.pc + 8) (again.map (fun th => (th.tid, vec th)) ++ r.pass.map fun t => (t, s.cur.pc + 8))
  for th in leave do
    modThread th.tid fun t => { t with
      tpc := tpcOf th
      unf := if w.fl && th.tq then t.unf.map fun e => if e.queued && e.st = 2 then { e with skip := true } else e
             else t.unf }
    leaveHandler th.tid (tpcOf th)
  clearWait r.nobody
  raiseAll s.cur.pc (r.bad ++ bad)) s

/-! ### Answers that accesses wait for -/

/-- A page-waiting entry is performed again; in handler mode an entry that SKIP discards is left. -/
def replayEntry (t : ThreadId) (id : Nat) : W Unit := do
  match (← getSt).thread? t with
  | none => return
  | some th =>
    let others := th.unf.any fun e => e.id ≠ id && e.parks && e.page.isSome
    let goOn := if th.wait = .fault && !others then modThread t Thread.goOn else pure ()
    let parks := fun (e : Entry) => e.parks && th.wait != .fault
    if th.reinj then
      modEntry t id fun e => { e with page := none, parks := parks e }
      goOn
      if ((← getSt).thread? t).any Thread.resumesReplay then reinject t
    else if th.handler && ((th.entry? id).map Entry.skip).getD false then
      modEntry t id fun e => { e with page := none }
    else
      modEntry t id fun e => { e with st := 0, queued := false, page := none, parks := parks e }
      goOn
      attemptEntry t id

/-- Entries of a thread that fail together, by one answer: they stand in the replay queue with a cause, which the thread
raises once (R226, R286, R297, Table 8.3). Each comes with its sub-code and fault address. -/
def failEntries (t : ThreadId) (c : Cause) (xs : List (Nat × Nat × DWord)) : W Unit := do
  match xs.head?, (← getSt).thread? t with
  | some x, some th => do
    for y in xs do
      unpark t y.1
      modEntry t y.1 fun e => { e with st := 2, cause := some c, sub := y.2.1, fa := y.2.2, queued := true
                                       page := none, line := none }
      match th.entry? y.1 with
      | some e => shareResults th e.tag
      | none => pure ()
    raise t c true (((th.entry? x.1).map Entry.pc).getD th.pc)
  | _, _ => return

/-- An entry's page request is sent, and the entry stands in the replay queue (R297). -/
def requestFor (k : PageKey) (e : Entry) : Entry := { e with st := 1, queued := true, page := some { key := k, ats := false } }

/-- A PFETCH, which is dropped where it fails (R151). -/
def Entry.isPrefetch (e : Entry) : Bool := match e.instr? with | some (.pfetch _) => true | _ => false

/-- What is told to everything that waits on one page: `ats` waits for a translation or `pri` waits for a response.
`goOn` says that the wait is over, else it has failed with `cause` and a sub-code. -/
structure PageNews where
  waits : PageWait → Bool
  retry : Option Nat            -- the page answered with Success
  fail  : PageKey → Nat → Option Nat   -- sub-code, from the key and what the waiter was last answered
  goOn  : PageKey → Nat → Bool  -- the waiter tries again; otherwise its request is sent
  cause : Cause := .page

/-- Threads that wait on the page: their entries and their fetches. -/
def newsToThreads (n : PageNews) : W Unit := do
  for th in (← getSt).threads do
    failEntries th.tid n.cause (th.unf.filterMap fun e => match e.page with
      | some w => if n.waits w && !e.isPrefetch then (n.fail w.key e.retry).map fun sub => (e.id, sub, e.fa) else none
      | none => none)
    for e in th.unf do
      match e.page with
      | some w =>
        if n.waits w then
          match n.fail w.key e.retry with
          | some _ => if e.isPrefetch then finishEntry th.tid e.id []
          | none =>
            match n.retry with
            | some v => modEntry th.tid e.id fun e => { e with retry := v }
            | none => pure ()
            if n.goOn w.key e.retry then replayEntry th.tid e.id
            else if e.isPrefetch then finishEntry th.tid e.id []
            else
              requestPage w.key
              modEntry th.tid e.id (requestFor w.key)
              match (← getSt).thread? th.tid with
              | some x => match x.wait with
                | .eng .entry => park th.tid .fault
                | .poll _ => if (x.entry? e.id).any Entry.parks then park th.tid .fault
                | _ => pure ()
              | none => pure ()
      | none => pure ()
    match th.fetchWait with
    | some w =>
      if n.waits w then
        match n.fail w.key th.fetchRetry with
        | some _ => do
          modThread th.tid fun x => { x with fetchWait := none, fetchRetry := 0, wait := if x.wait = .fault then .ready else x.wait }
          raise th.tid n.cause false th.pc
        | none =>
          if n.goOn w.key th.fetchRetry then
            modThread th.tid fun x => { x with
              fetchWait := none, fetchRetry := n.retry.getD x.fetchRetry, wait := if x.wait = .fault then .ready else x.wait }
          else
            requestPage w.key
            modThread th.tid fun x => { x with fetchWait := some { w with ats := false }, wait := .fault }
    | none => pure ()

/-- Copy-engine commands that wait on the page. -/
def newsToCopies (n : PageNews) : W Unit := do
  for c in (← getSt).cores do
    for k in c.copy do
      match k.wait with
      | some w =>
        if n.waits w then
          match n.fail w.key k.retry with
          | some _ => do
            modCopy c.id k.idx fun x => { x with wait := none }
            match k.job with
            | .kv _ | .kvcopy _ => kvStop c.id k (.cause n.cause 0 k.fa)
            | _ => copyStop c.id k.idx (.cause n.cause 0 k.fa)
          | none =>
            if n.goOn w.key k.retry then
              modCopy c.id k.idx fun x => { x with wait := none, retry := n.retry.getD x.retry }
            else
              requestPage w.key
              modCopy c.id k.idx fun x => { x with wait := some { w with ats := false } }
      | none => pure ()

/-- Launches, retire entries and collectives that wait on the page. A launch that has not begun makes no page request:
it fails (R255). -/
def newsToOthers (n : PageNews) : W Unit := do
  for l in (← getSt).launches do
    match l.endWait with
    | some w =>
      if n.waits w then
        let begin_ := l.phase = .waiting
        let failed := (n.fail w.key l.endRetry).isSome || (begin_ && !n.goOn w.key l.endRetry)
        if failed then launchFailed l
        else if n.goOn w.key l.endRetry then
          modLaunch l.slot fun x => { x with endWait := none, endRetry := n.retry.getD x.endRetry }
        else
          requestPage w.key
          modLaunch l.slot fun x => { x with endWait := some { w with ats := false } }
    | none => pure ()
  for e in (← getSt).retire do
    match e.wait with
    | some w =>
      if n.waits w then
        if (n.fail w.key e.retry).isSome then
          releaseFailed e
          upd fun s => { s with retire := s.retire.erase e }
        else if n.goOn w.key e.retry then
          upd fun s => { s with retire := s.retire.replace e { e with wait := none, retry := n.retry.getD e.retry } }
        else
          requestPage w.key
          upd fun s => { s with retire := s.retire.replace e { e with wait := some { w with ats := false } } }
    | none => pure ()
  for x in (← getSt).colls do
    for w in x.waits do
      if n.waits w then
        modColl x.slot fun y => { y with waits := y.waits.erase w }
        if (n.fail w.key x.retry).isSome then
          if x.state < 4 then faultColl x else freeColl x
        else if n.goOn w.key x.retry then
          modColl x.slot fun y => { y with retry := n.retry.getD y.retry }
        else
          requestPage w.key
          modColl x.slot fun y => { y with waits := y.waits ++ [{ w with ats := false }] }
  advanceAll

/-- Saved teams: their entries hold the answer until restore. -/
def newsToImages (n : PageNews) : W Unit := do
  let fetched := fun (t : Thread) => t.fetchWait.any n.waits
  let noFetch := fun (t : Thread) => t.fetchWait.any fun w => n.waits w && (n.fail w.key t.fetchRetry).isSome
  let failed := fun (e : Entry) => (e.page.filter n.waits).bind fun w => (n.fail w.key e.retry).map fun sub => (sub, e.fa)
  for i in (← getSt).images do
    let entry := fun (e : Entry) =>
      if e.page.any n.waits then { e with page := none, retry := n.retry.getD e.retry } else e
    let thread := fun (t : Thread) =>
      { t with
        unf := t.unf.map entry
        fetchWait := if fetched t then none else t.fetchWait
        fetchRetry := if fetched t then (if noFetch t then 0 else n.retry.getD t.fetchRetry) else t.fetchRetry
        wait := if fetched t then .ready else t.wait }
    let copy := fun (k : CopyCmd) =>
      match k.wait with
      | some w =>
        if n.waits w then
          if (n.fail w.key k.retry).isSome then
            let k := { k with wait := none, ended := true, err := true }
            match k.job with
            | .kv a => { k with job := .kv { a with code := 5, stop := none, tag := none } }
            | .kvcopy a => { k with job := .kvcopy { a with code := 5, stop := none, tag := none } }
            | _ => k
          else { k with wait := none, retry := n.retry.getD k.retry }
        else k
      | none => k
    let j := (i.failEntries n.cause failed).raiseIn n.cause false noFetch
    let i' := { j with threads := j.threads.map thread, copies := j.copies.map copy }
    upd fun s => { s with images := s.images.map fun x => if x.id = i.id then i' else x }

def spread (n : PageNews) : W Unit := do
  newsToThreads n
  newsToCopies n
  newsToOthers n
  newsToImages n

/-- PAGE_RESPONSE (R226, R297): one answered page request group. -/
def execPageResponse (pasid vpn : Nat) (intent : Intent) (res : PriResult) (s : State) :
    Host.Outcome State Fault Refusal := run (do
  let key : PageKey := { pasid, vpn, intent }
  if !(s.pri.take 1024).contains key then return
  let sub := match res with | .success => none | .invalid => some 1 | .failure => some 2
  answerPage key
  upd fun s => { s with
    tlb := if sub.isNone then s.tlb.filter fun e => !e.covers pasid vpn else s.tlb }
  spread { waits := fun w => !w.ats && w.key = key, retry := if sub.isNone then some (vpn + 1) else none
           fail := fun _ _ => sub, goOn := fun _ _ => sub.isNone }) s

/-- TRANSLATION_COMPLETION (R225): the translation fills the TLBs, and everything that waits on its page tries again; without
one the waiting accesses fault (R226). -/
def execTranslationCompletion (pasid vpn : Nat) (res : Option Translation) (s : State) :
    Host.Outcome State Fault Refusal := run (do
  if !s.atsSent pasid vpn then return
  answerAts pasid vpn
  match res with
  | some tr => upd fun x => { x with
      tlb := (s.atsTlbs pasid vpn).foldl (fun es t => fillTlb { tlb := t, pasid, vpn, tr } es) x.tlb }
  | none => pure ()
  let size := match res with | some tr => pagesIn tr.size | none => 1
  spread { waits := fun w => w.ats && w.key.pasid = pasid && w.key.vpn / size = vpn / size, retry := none
           fail := fun k r => if res.isNone && r = k.vpn + 1 then some 3 else none
           goOn := fun _ _ => res.isSome }) s

/-- What waits on a host line tries again, or fails with HOSTLINK, of which vector 0 tells (R216, R484, R485). -/
def lineNews (line : Nat) (ok : Bool) : W Unit := do
  if !ok then msix 0
  for th in (← getSt).threads do
    let es := th.unf.filter fun e => e.line = some line && !e.queued
    if !ok then failEntries th.tid .hostlink ((es.filter fun e => !e.isPrefetch).map fun e => (e.id, 0, e.fa))
    for e in es do
      if !ok && e.isPrefetch then finishEntry th.tid e.id []
      if ok then
        modEntry th.tid e.id fun x => { x with line := none }
        attemptEntry th.tid e.id
    if th.fetchLine = some line then
      modThread th.tid fun x => { x with fetchLine := none }
      if !ok then raise th.tid .hostlink false th.pc
  for c in (← getSt).cores do
    for k in c.copy do
      if k.line = some line then
        modCopy c.id k.idx fun x => { x with line := none }
        if !ok then
          match k.job with
          | .kv _ | .kvcopy _ => kvStop c.id k (.cause .hostlink 0 k.fa)
          | _ => copyStop c.id k.idx (.cause .hostlink 0 k.fa)
  for l in (← getSt).launches do
    if l.endLine = some line then
      modLaunch l.slot fun x => { x with endLine := none }
      if !ok then launchFailed l
  for e in (← getSt).retire do
    if e.line = some line then
      if ok then upd fun s => { s with retire := s.retire.replace e { e with line := none } }
      else
        releaseFailed e
        upd fun s => { s with retire := s.retire.erase e }
  for x in (← getSt).colls do
    if x.lines.contains line then
      modColl x.slot fun y => { y with lines := y.lines.erase line }
      if !ok then if x.state < 4 then faultColl x else freeColl x
  if ok then advanceAll

/-- CXL_CACHE_RESPONSE (R216). -/
def execCxlCacheResponse (line : Nat) (exclusive ok : Bool) (s : State) : Host.Outcome State Fault Refusal := run (do
  if !s.hlcReq.any fun x => x.line = line then return
  upd fun s => { s with hlcReq := s.hlcReq.filter fun x => x.line ≠ line }
  if ok then hlcFill { line, own := exclusive }
  lineNews line ok) s

/-- CXL_CACHE_TIMEOUT (R484). -/
def execCxlCacheTimeout (line : Nat) (s : State) : Host.Outcome State Fault Refusal := run (do
  if !s.hlcReq.any fun x => x.line = line then return
  upd fun s => { s with hlcReq := s.hlcReq.filter fun x => x.line ≠ line }
  lineNews line false) s

/-- ACCESS_REPLY (R302): the home, slice, scratchpad, line cache or engine answers an issued instruction; for a thread
whose re-injection has stopped, it goes on. -/
def execAccessReply (t : ThreadId) (idx : Nat) (s : State) : Host.Outcome State Fault Refusal := run (do
  match s.thread? t with
  | none => return
  | some th =>
    if th.resumesReplay then reinject t
    else match th.entry? idx with
      | some e => if e.st = 0 && !e.queued && e.page.isNone && e.line.isNone then attemptEntry t idx
      | none => return) s

/-- RED_MERGE (R122, R204): the contributions of one line are merged at the home. -/
def execRedMerge (core line : Nat) (s : State) : Host.Outcome State Fault Refusal := run (do
  let _ ← (mergeLine core (128 * line) 0 : P Unit).run) s

/-! ### Resuming a halted thread (R311) -/

/-- A thread halted under R289 leaves HALT with its bits in every cause mask cleared. -/
def clearCauses (th : Thread) : W Unit := do
  for k in List.range 24 do setMaskBit th k false

/-- Resume one halted thread by the reason it halted (R311). -/
def resumeHalted (th : Thread) : W Unit := do
  let t := th.tid
  match th.halt with
  | some .command | some .bkpt => do
    modThread t fun x => { x with halt := none }
    trapEnter t
  | some (.cause _) => do
    clearCauses th
    modThread t fun x => { x with halt := none }
    leaveHandler t th.tpc
  | some (.double c) => do
    setMaskBit th c.bit false
    let own := fun (e : Entry) => e.hand && e.queued && e.st = 2 && e.cause = some c
    let pc := match th.unf.find? own, th.pending with
      | some e, _ => e.pc
      | none, some p => if c = .bkpt then p.tpc - 8 else p.tpc   -- TPC of a BKPT is the next word (R319)
      | none, none => th.pc
    modThread t fun x => { x with halt := none, pending := none, wait := .ready, unf := x.unf.filter fun e => !own e }
    arriveFresh t pc
  | some .watchdog | none => modThread t fun x => { x with stepping := false }

/-! ### Restore (R279, R300, R304) -/

/-- No page request group that holds an access of the saved team is unanswered (R300). -/
def State.imageAnswered (s : State) (i : Image) : Bool :=
  !(i.threads.any fun t => (t.fetchWait.any fun w => s.pri.contains w.key)
      || t.unf.any fun e => e.page.any fun w => !w.ats && s.pri.contains w.key)
    && !i.copies.any fun k => k.wait.any fun w => !w.ats && s.pri.contains w.key

/-- Range entries of a copy command: its own, and its list's. -/
def CopyCmd.ranges (c : CopyCmd) : List RangeEntry :=
  c.rng ++ match c.job with | .list l _ => l.own.toList | _ => []

/-- A subscription of the image stays live on the core (R212). -/
def Image.liveSubs (i : Image) (c : Nat) : List Sub := if dieOf c = i.die then i.subs.filter Sub.live else []

/-- The receiving core can take the teams' entries, rings, subscriptions, tiles and commands together (R209). -/
def State.takesImages (s : State) (is : List Image) (c : Nat) : Bool :=
  let k := s.core c
  let copies := is.flatMap Image.copies
  let subs := is.flatMap (·.liveSubs c)
  let shared := (s.cores.filter fun x => dieOf x.id = dieOf c).flatMap fun x => x.subs.filter Sub.live
  (k.subs.map Sub.handle ++ (is.flatMap Image.subs).map Sub.handle).Nodup
    && (k.rings.map Ring.idx ++ (is.flatMap Image.rings).map Ring.idx).Nodup
    && (subs.zipIdx.all fun u => ((k.subs.filter Sub.live) ++ subs.take u.2).all fun v => !v.touches u.1.parts)
    && shared.length + subs.length ≤ 256
    && k.copy.length + copies.length ≤ 16
    && k.ranges.length + (is.flatMap Image.ranges).length + (copies.flatMap CopyCmd.ranges).length
        + ((is.flatMap Image.cmds).map fun x => x.2.rangeCount).sum ≤ 32
    && (List.range 4).all fun q =>
      let x := s.quarter c q
      let tiles := (is.flatMap Image.tiles).filter fun t => t.1 = q
      (tiles.all fun t => (x.tile t.2.idx).owner.isNone) && (tiles.map fun t => t.2.idx).Nodup
        && (x.shadows.filter fun y => y.bound.isSome).length
            + ((is.flatMap Image.shads).filter fun y => y.1 = q).length ≤ 8
        && x.mq.length + ((is.flatMap Image.cmds).filter fun y => y.1 = q).length ≤ 8

/-- A place for a saved team on a core. -/
def State.planImage (s : State) (i : Image) (c rot nb ns : Nat) : Option Spot :=
  match s.launch? i.lslot with
  | none => none
  | some l =>
    match l.desc with
    | none => none
    | some d => if s.mayUse l c && s.takesImages [i] c then s.planTeam l d c rot nb ns else none

/-- The next team to re-place of a launch: the lowest %team. -/
def State.nextImageOf (s : State) (l : Nat) : Option Image :=
  (s.images.filter fun i => i.lslot = l).foldl (fun b i => match b with
    | none => some i
    | some y => if i.team.tnum < y.team.tnum then some i else some y) none

/-- The saved team may be re-placed now: its launch goes on, and its page requests are answered when R299 saved it. A team of
a launch that the watchdog has faulted is re-placed too, so that its threads enter their handlers and it retires; the rule's
"no further placement" is read of new teams (DESIGN CHOICE, log 41: R276 does not name the saved teams). -/
def State.imageReady (s : State) (i : Image) : Bool :=
  (s.launch? i.lslot).any (fun l => l.phase = .running && !l.aborted && l.endWait.isNone)
    && (!i.share || s.imageAnswered i)

/-- Threads of a restored team, by the thread they were. -/
def Image.rename (i : Image) (d : Desc) (p : Spot) (t : ThreadId) : ThreadId :=
  match i.threads.find? fun x => x.tid = t with
  | some x => match p.runs[x.tidx / d.gw]? with
    | some r => { core := p.core, qtr := r.qtr, row := r.row, lane := r.base + x.rel }
    | none => t
  | none => t

def renameKind (f : ThreadId → ThreadId) (c : CvInst) : CvInst :=
  { c with signers := c.signers.map f, opThreads := c.opThreads.map f, deferred := c.deferred.map fun x => (f x.1, x.2) }

/-- A free tag for a copy command or a matrix command. -/
def freeIdx (n : Nat) (used : List Nat) : Nat := ((List.range n).find? fun k => !used.contains k).getD 0

/-- Copy commands of a restored team take entries of the new core, with their ranges (R349, R443). -/
def restoreCopies (i : Image) (f : ThreadId → ThreadId) (p : Spot) : W Unit := do
  for k in i.copies do
    let c := (← getSt).core p.core
    let idx := freeIdx 16 (c.copy.map CopyCmd.idx)
    let move := fun (r : RangeEntry) => { r.rebase i.team.base p.base with owner := p.slot, tag := idx }
    let rng := k.rng.map move
    let job := match k.job with | .list l cur => .list { l with own := l.own.map move } cur | j => j
    modCore p.core fun c => { c with
      copy := c.copy ++ [{ k with idx, slot := p.slot, tid := f k.tid, rng, job, early := false }]
      ranges := c.ranges ++ k.ranges.map move }

/-- Recorded matrix commands re-enter their queues in order, with their ranges; tiles and shadows return (R378). -/
def restoreMatrix (i : Image) (f : ThreadId → ThreadId) (p : Spot) : W Unit := do
  for t in i.tiles do modQuarter p.core t.1 fun q => q.setTile { t.2 with owner := some p.slot }
  for x in i.shads do
    modQuarter p.core x.1 fun q =>
      { q with shadows := (q.shadows.filter fun y => y.idx ≠ (q.freeShadow).getD 0)
                 ++ [{ x.2 with idx := (q.freeShadow).getD 0, bound := x.2.bound.map fun b => (p.slot, b.2) }] }
  let e := (← getSt).eng p.core p.slot
  for c in i.cmds do
    let q := (← getSt).quarter p.core c.1
    let idx := freeIdx 8 (q.mq.map MCmd.idx)
    let cmd := { c.2 with idx, slot := p.slot, threads := c.2.threads.map f }
    modQuarter p.core c.1 fun q => { q with mq := q.mq ++ [cmd] }
    match cmd.cmd? with
    | some m => modCore p.core fun k => { k with ranges := k.ranges ++ matrixRanges e m cmd.maps (8 * c.1 + idx) }
    | none => pure ()

/-- Subscriptions of a restored team: fresh copies on the same die, lapsed on another (R212). -/
def Sub.moved (u : Sub) (i : Image) (p : Spot) : Sub :=
  let v := { u with slot := p.slot, mirror := u.mirror - i.team.base + p.base, early := [] }
  if dieOf p.core = i.die && u.live then { v with ready := false } else { v with live := false }

/-- A wait as the restored thread has it; `now` is the issue clock of its new die. -/
def Wait.moved (f : ThreadId → ThreadId) (now : Nat) (w : Wait) : Wait :=
  match w with
  | .eng (.acting t id) => .eng (.acting (f t) id)
  | .nap u => .nap (now + u)
  | .poll u => .poll (now + u)
  | w => w

/-- Load an image at a place (R304). -/
def loadImage (i : Image) (l : Launch) (d : Desc) (p : Spot) : W Unit := do
  let f := i.rename d p
  acquireAct p.core .dev
  let s ← getSt
  if !s.teams.any fun t => t.core = p.core then modCore p.core fun c => { c with carve := d.carve }
  let now := s.issueClock (dieOf p.core)
  let threads := i.threads.map fun t => { t with
    tid := f t.tid, slot := p.slot, outer := t.outer.moved f now, fetchWait := none
    wait := if t.fetchWait.isSome then .ready else t.wait.moved f now }   -- an unanswered fetch is made anew
  let back := fun (t : ThreadId) => if t.core = savedCore + i.id then f { t with core := i.core } else t
  renameSenders back
  upd fun s => { s with
    images := s.images.filter fun x => x.id ≠ i.id
    teams := s.teams ++ [{ i.team with core := p.core, slot := p.slot, base := p.base, cvs := i.team.cvs.map (renameKind f) }]
    groups := s.groups ++ i.groups.map fun g => { g with core := p.core, slot := p.slot }
    threads := s.threads ++ threads
    preempt := s.preempt.map fun x => { x with lead := x.lead.map f }
    dies := s.dies.map fun x => { x with carve := x.carve.map fun c => { c with lead := back c.lead } }
    colls := s.colls.map fun x =>
      if x.core = savedCore && x.team = i.id then { x with core := p.core, team := p.slot } else x }
  let _ ← mapTry l (mapWrite l i.team.tnum (teamMapWord p.core p.base))
  clearSpan (scratchBase p.core + p.base) i.team.scratch
  storeAt (scratchBase p.core + p.base) i.scratch
  for b in i.bad do poisonAt (scratchBase p.core + p.base + b) 4
  let live := (← getSt).colls.map Coll.slot
  modCore p.core fun c => { c with
    ranges := c.ranges ++ (i.ranges.filter fun r => live.contains r.tag).map fun r =>
      { r.rebase i.team.base p.base with owner := p.slot }
    rings := c.rings ++ i.rings.map fun r => { r with slot := p.slot, off := r.off - i.team.base + p.base }
    subs := c.subs ++ i.subs.map fun u => u.moved i p }
  restoreCopies i f p
  restoreMatrix i f p
  for t in threads do moveReader t i.die false
  joinTeam p.core p.slot
  for t in threads do
    if t.resumeDue then
      modThread t.tid fun x => { x with resumeDue := false }
      resumeHalted { t with resumeDue := false }
    else if t.pending.isSome then trapEnter t.tid
    else if t.reinj && t.halt.isNone then reinject t.tid
  for g in i.groups do gopCheck p.core p.slot g.grp

/-- Each image gets a place of its own among the spots, on cores that take all the images they get; all choices are
tried. -/
def State.assign (s : State) (lim : Nat) (is : List Image) (ps : List Spot) (acc : List (Image × Spot)) :
    Option (List (Image × Spot)) :=
  match is with
  | [] => some acc
  | i :: r => ps.findSome? fun p =>
      let here := (acc.filter fun x => x.2.core = p.core).map (·.1) ++ [i]
      let cores := (p.core :: acc.map fun x => x.2.core).eraseDups
      if (lim = 0 || cores.length ≤ lim) && !(acc.map (·.2)).contains p && s.takesImages here p.core then
        s.assign lim r ps (acc ++ [(i, p)])
      else none

/-- Images in order of %team. -/
def insertImage (i : Image) (is : List Image) : List Image :=
  match is with
  | [] => [i]
  | x :: r => if i.team.tnum < x.team.tnum then i :: x :: r else x :: insertImage i r

/-- Every sharing of the images among the cores is tried: a core for each, if there is one that takes all it gets. -/
def State.assignCores (s : State) (l : Launch) (d : Desc) (lim : Nat) (cores : List Nat) (is : List Image)
    (acc : List (Image × Nat)) : Option (List (Image × Nat)) :=
  match is with
  | [] => some acc
  | i :: r => cores.findSome? fun c =>
      let here := (acc.filter fun x => x.2 = c).map (·.1) ++ [i]
      let used := (c :: acc.map (·.2)).eraseDups
      if (lim = 0 || used.length ≤ lim) && s.takesImages here c && (s.planTeams l d c here.length).isSome then
        s.assignCores l d lim cores r (acc ++ [(i, c)])
      else none

/-- The images of each core take the places that so many teams have on it. -/
def State.placeOn (s : State) (l : Launch) (d : Desc) (xs : List (Image × Nat)) : List (Image × Spot) :=
  (xs.map (·.2)).eraseDups.flatMap fun c =>
    let here := (xs.filter fun x => x.2 = c).map (·.1)
    here.zip ((s.planTeams l d c here.length).getD [])

/-- Places for all saved teams of a COSCHED launch together, none of which is resident, whenever there are any (R279): those
of as many new teams, else whatever other places there are. -/
def State.planAll (s : State) (l : Launch) (d : Desc) : Option (List (Image × Spot)) :=
  if s.teams.any fun t => t.lslot = l.slot then none
  else
    let is := (s.images.filter fun i => i.lslot = l.slot).foldl (fun xs i => insertImage i xs) []
    match (s.coschedPlan { l with rcd := { l.rcd with teams := is.length } } d).bind
      fun ps => s.assign l.rcd.maxcores is ps [] with
    | some xs => some xs
    | none =>
      (s.assignCores l d l.rcd.maxcores (allCores.filter (s.mayUse l)) is []).map fun xs => s.placeOn l d xs

/-- The saved team can be re-placed on the core now; one of a COSCHED launch only with all of them. -/
def State.restorable (s : State) (i : Image) (c : Nat) : Bool :=
  s.imageReady i && match s.launch? i.lslot with
    | none => false
    | some l =>
      match l.desc with
      | none => false
      | some d =>
        if l.rcd.cosched then (s.planAll l d).isSome
        else (s.planImage i c 0 0 0).isSome

/-- TEAM_RESTORE (R279, R304). -/
def execTeamRestore (image core : Nat) (s : State) : Host.Outcome State Fault Refusal := run (do
  match s.images.find? fun i => i.id = image with
  | none => return
  | some i =>
    match s.launch? i.lslot with
    | none => return
    | some l =>
      match l.desc with
      | none => return
      | some d => do
        if !s.restorable i core then return
        let serve := upd fun s => { s with rrobin := s.rrobin.set (s.prioOf l) l.order }
        if l.rcd.cosched then
          let xs := (s.planAll l d).getD []
          for x in xs do
            if !(← mapTry l (mapReady l x.1.team.tnum 1)) then return
          match ← (do for c in (xs.map fun x => x.2.core).eraseDups do shrinkFor c d.carve : P Unit).run with
          | .error _ => return
          | .ok _ => pure ()
          for x in xs do loadImage x.1 l d x.2
          serve
        else
          if !(← mapTry l (mapReady l i.team.tnum 1)) then return
          match ← (shrinkFor core d.carve : P Unit).run with
          | .error _ => return
          | .ok _ => pure ()
          let rot ← choose 32
          let nb ← choose (s.freeBases core d.carve d.scratch).length
          let ns ← choose (s.freeSlots core).length
          let p := match s.planImage i core rot nb ns with
            | some p => some p
            | none => s.planImage i core 0 nb ns
          match p with
          | some p => do
            loadImage i l d p
            serve
          | none => return) s

/-! ### The debugger (R309-R311) -/

/-- Hardware has accepted a debug command. -/
def acceptDbg (lslot : Nat) : W Unit := upd fun s => { s with dbgcmd := BitVec.ofNat 32 (lslot % 256) }

/-- DBG_HALT: live threads stop issuing; a saved team's threads are halted when it returns. -/
def execDbgHalt (lslot : Nat) (s : State) : Host.Outcome State Fault Refusal := run (do
  acceptDbg lslot
  let halt := fun (t : Thread) =>
    if t.idle then t
    else if t.halt.isSome then { t with resumeDue := false }
    else { t with halt := some .command, stepping := false }
  upd fun s => { s with
    threads := s.threads.map fun t => if t.lslot = lslot then halt t else t
    images := s.images.map fun i => if i.lslot = lslot then { i with threads := i.threads.map halt } else i }) s

/-- DBG_RESUME. -/
def execDbgResume (lslot : Nat) (s : State) : Host.Outcome State Fault Refusal := run (do
  acceptDbg lslot
  for th in s.launchThreads lslot do resumeHalted th
  for k in ((s.launchThreads lslot).map fun t => (t.tid.core, t.slot, t.grp)).eraseDups do gopCheck k.1 k.2.1 k.2.2
  -- a saved team's threads go on at its restore
  upd fun s => { s with
    images := s.images.map fun i => if i.lslot = lslot
      then { i with threads := i.threads.map fun t => { t with resumeDue := t.halt.isSome } }
      else i }) s

/-- DBG_STEP: one word, then HALT. -/
def execDbgStep (t : ThreadId) (s : State) : Host.Outcome State Fault Refusal := run (do
  acceptDbg s.dbgcmd.toNat
  match s.thread? t with
  | none => return
  | some th =>
    match th.halt with
    | some .command | some .bkpt | none => do
      modThread t fun x => { x with halt := none, stepping := true }
      trapEnter t
      gopCheck t.core th.slot th.grp
    | _ => return) s

def setFrozen (core : Nat) (b : Bool) : W Unit := do
  acceptDbg (← getSt).dbgcmd.toNat
  modCore core fun c => { c with frozen := b }
/-- DBG_FREEZE (R310, R379). -/
def execDbgFreeze (core : Nat) (s : State) : Host.Outcome State Fault Refusal := run (do
  if !(s.core core).frozen then
    for q in List.range 4 do freezeArray core q
  setFrozen core true) s
/-- DBG_THAW. -/
def execDbgThaw (core : Nat) (s : State) : Host.Outcome State Fault Refusal := run (setFrozen core false) s

def setAttached (lslot : Nat) (b : Bool) : W Unit := do
  acceptDbg lslot
  modLaunch lslot fun l => { l with attached := b }
def execDbgAttach (lslot : Nat) (s : State) : Host.Outcome State Fault Refusal := run (setAttached lslot true) s
def execDbgDetach (lslot : Nat) (s : State) : Host.Outcome State Fault Refusal := run (setAttached lslot false) s

end Sys2Proof.Machine
end

