-- ==== Sys2Proof/Machine/Debug.lean ====
section
/-!
DEFINITION. DBG_SNAPSHOT (spec 08 R312, Table 8.10): the bytes of the debugger's objects. Fields stand as the tables name
them; where an object's inner order belongs to the device (R303) it is the one chosen here (log 20).
-/
namespace Sys2Proof.Machine

/-- Value of fields given as (bit, value). -/
def pack (fs : List (Nat × Nat)) : Nat := fs.foldl (fun n f => n + f.2 * 2 ^ f.1) 0

/-- Code of a wait state (Table 4.3). -/
def Thread.waitCode (t : Thread) : Nat :=
  if t.halt.isSome then 10 else match t.wait with
    | .ready => 0 | .bar _ => 1 | .cvw _ | .cvDeferred _ => 2 | .gop => 3 | .que => 4 | .poll _ => 5 | .nap _ => 6
    | .fault => 7 | .rng => 8 | .eng _ => 9

def wordsBytes (ws : List Word) : List Byte := ws.flatMap fun w => leBytes 4 w.toNat
def boolBits (bs : List Bool) : Nat := bs.foldr (fun b n => b.toNat + 2 * n) 0

/-- The thread section, 1,088 bytes, then v0 to v(declared − 1). -/
def threadObj (t : Thread) : List Byte :=
  let head := leBytes 8 t.pc.toNat ++ leBytes 8 t.tpc.toNat ++ leBytes 4 t.tstat.toNat ++ leBytes 4 t.item.toNat
    ++ leBytes 4 t.itemage.toNat ++ t.ix.flatMap (fun x => leBytes 2 x.toNat) ++ t.depth.flatMap (leBytes 1)
    ++ leBytes 2 (boolBits t.p) ++ leBytes 1 (boolBits t.ph) ++ leBytes 1 t.fpx.toNat ++ leBytes 1 t.nest
    ++ leBytes 1 t.waitCode ++ leBytes 1 t.handler.toNat
  let es := (List.range 16).flatMap fun k => match t.replay[k]? with
    | some e => wordsBytes ((List.range 16).map e.field)
    | none => List.replicate 64 0
  head ++ List.replicate (64 - head.length) 0 ++ es ++ wordsBytes (t.v.take t.declared)

/-- s, h, cause bitmap and masks. -/
def groupObj (g : Group) : List Byte :=
  wordsBytes g.s ++ wordsBytes g.h ++ leBytes 8 g.bitmap.toNat ++ g.masks.flatMap fun m => leBytes 8 m.toNat

/-- Table 4.2. -/
def pcEntryVal (e : PcEntry) : Nat :=
  pack [(74, e.pc.toNat / 8 % 2 ^ 54), (42, e.stamp), (26, e.wait), (18, e.lslot), (2, e.due.toNat), (0, 1)]
def pcTableObj (q : Quarter) : List Byte :=
  (List.range 64).flatMap fun k => leBytes 16 (((q.entries[k]?).map pcEntryVal).getD 0)

/-- Table 4.4. -/
def cvVal (x : CvInst) : Nat :=
  pack [(61, x.kind), (59, x.role), (19, x.signed), (1, x.gen), (0, x.op.isSome.toNat)]
/-- 16 registers of 4 instances. -/
def cvObj (tm : Team) : List Byte :=
  (List.range 64).flatMap fun k =>
    leBytes 8 (((tm.cvs.find? fun x => x.cv = k / 4 && x.qtr = k % 4).map cvVal).getD 0)

/-- Each entry: the values, then 8 bytes of presence bits. -/
def queueObj (tm : Team) : List Byte :=
  tm.queues.flatMap fun q => (List.range 8).flatMap fun k =>
    let e := (q[k]?).getD (List.replicate tm.width none)
    wordsBytes (e.map fun x => x.getD 0) ++ leBytes 8 (boolBits (e.map Option.isSome))

def barObj (tm : Team) : List Byte := tm.bars.flatMap fun b => leBytes 4 b.phase ++ leBytes 4 b.target ++ leBytes 4 b.arrivals

/-- Table 3.4. -/
def rangeVal (r : RangeEntry) : Nat :=
  pack [(64, r.base % 2 ^ 64), (24, r.len % 2 ^ 40), (14, r.owner), (11, r.eng), (9, r.spc), (8, r.dst.toNat), (1, r.tag), (0, 1)]
def rangeObj (rs : List RangeEntry) : List Byte :=
  (List.range 32).flatMap fun k => leBytes 16 (((rs[k]?).map rangeVal).getD 0)

/-- Table 10.3. -/
def tileVal (q : Quarter) (k : Nat) : Nat :=
  let t := q.tile k
  pack [(63, t.owner.isSome.toNat), (53, t.owner.getD 0), (52, (q.busyTile k).toNat), (48, q.queuedOn k), (0, t.ver.toNat)]
/-- Table 10.4. -/
def shadowVal (q : Quarter) (k : Nat) : Nat :=
  let x := q.shadow k
  let uses := fun (c : MCmd) => match x.bound, c.cmd? with
    | some b, some m => m.args.usesShadow && (c.slot, m.args.t, m.tok) = b
    | _, _ => false
  let b := x.bound.getD (0, 0, 0)
  pack [(63, x.bound.isSome.toNat), (53, b.1), (52, (q.mq.any fun c => c.running && uses c).toNat)
      , (48, (q.mq.filter fun c => !c.running && uses c).length), (32, b.2.1), (0, b.2.2.toNat)]
/-- A queue entry of R379. -/
def mqEntry (word : DWord) (opv : List Word) (slot state : Nat) : Nat :=
  match mCommand word opv with
  | some m => pack [(64, word.toNat), (48, m.v.toNat), (16, m.k0), (6, slot), (4, state), (0, 1)]
  | none => 0

/-- An MMAS finds no shadow, though the queue has room (R363, R369). -/
def State.lacksShadow (s : State) (core qtr slot : Nat) (m : MCommand) : Bool :=
  let q := s.quarter core qtr
  m.args.kind = .mmas && q.mq.length < 8 && (q.shadowOf (slot, m.args.t, m.tok)).isNone && q.freeShadow.isNone

/-- Commands of complete phases that wait for a shadow (2) or are held on a range (3), as queue entries (R379). -/
def State.waitingCmds (s : State) (core qtr : Nat) : List Nat :=
  (s.teams.filter fun tm => tm.core = core).flatMap fun tm =>
    (tm.cvs.filter fun x => x.full && x.qtr = qtr).filterMap fun x => x.op.bind fun o => (mCommand o.1 o.2).bind fun m =>
      match ((enterQueue (s.eng core tm.slot) qtr o.1 o.2 x.signers m).run { st := s }).1 with
      | .error (.rng _) => some (mqEntry o.1 o.2 tm.slot 3)
      | .error .eng => if s.lacksShadow core qtr tm.slot m then some (mqEntry o.1 o.2 tm.slot 2) else none
      | _ => none

/-- The eight queue entries: commands in the queue stand at their numbers, waiting ones at the free numbers. -/
def fillEntries (k : Nat) (q : Quarter) (waiting : List Nat) : List Nat :=
  match k with
  | 0 => []
  | k + 1 =>
    match q.mq.find? fun c => c.idx = 7 - k with
    | some c => mqEntry c.word c.opv c.slot c.running.toNat :: fillEntries k q waiting
    | none => waiting.headD 0 :: fillEntries k q (waiting.drop 1)

/-- Object 7; the window holds the first 4 KiB of it. -/
def matrixObj (q : Quarter) (waiting : List Nat) : List Byte :=
  (List.range 32).flatMap (fun k => leBytes 8 (tileVal q k)) ++ (List.range 8).flatMap (fun k => leBytes 8 (shadowVal q k))
    ++ (fillEntries 8 q waiting).flatMap (leBytes 16)
    ++ (List.range 32).flatMap (fun k => wordsBytes (q.tile k).data)
    ++ (List.range 8).flatMap fun k => wordsBytes (q.shadow k).data

/-- A quarter as the image of a saved team records it. -/
def Image.quarter (i : Image) (qtr : Nat) : Quarter :=
  { core := i.core, qtr
    acc := (i.tiles.filter fun t => t.1 = qtr).map (·.2)
    shadows := (i.shads.filter fun t => t.1 = qtr).map (·.2)
    mq := (i.cmds.filter fun t => t.1 = qtr).map (·.2) }

/-- STATE of Table 9.6; `own` is the code of the job. -/
def CopyCmd.stateCode (c : CopyCmd) (own : Nat) : Nat :=
  if c.wait.any fun w => !w.ats then 2 else if c.held then 1 else own

/-- Table 9.6: GADDR, SHAPE, SOFF, COMP, OPC, LIDX and STATE of a command; `pk` reads a packet of its team. While a record of a
list runs, the fields are the record's, beside STATE 3 (DESIGN CHOICE, log 20: the table does not say whose). A KV packet or
KVCOPY shows STATE 4 also while it awaits a page response (R443). -/
def copyVal (pk : Nat → Nat) (c : CopyCmd) : Nat :=
  let tile := fun (a : CopyArgs) => [(192, a.gaddr.toNat), (128, a.shape.toNat), (96, a.soff), (64, a.comp), (2, a.opc)]
  let fs := match c.job with
    | .tile a _ => tile a ++ [(11, c.stateCode 0)]
    | .list l none => [(96, l.off), (64, l.comp), (14, l.next % 256), (11, c.stateCode 3), (2, 3)]
    | .list l (some (a, _)) => tile a ++ [(14, l.next % 256), (11, c.stateCode 3)]
    | .kv a => let k := parsePacket (pk a.pkt)
      [(192, k.root), (128, k.srec), (96, k.dst), (64, k.comp), (11, 4)]
    | .kvcopy a => [(192, a.dst.toNat), (96, a.list), (64, a.comp), (11, 4)]
  pack (fs ++ [(32, c.done), (22, c.slot), (0, 1)])

/-- The 16 entries of a core's copy engine. -/
def copyObj (pk : CopyCmd → Nat → Nat) (cs : List CopyCmd) : List Byte :=
  (List.range 16).flatMap fun k => leBytes 32 (((cs.find? fun c => c.idx = k).map fun c => copyVal (pk c) c).getD 0)

/-- Offsets of the completion objects that a command names. -/
def CopyCmd.comps (pk : Nat → Nat) (c : CopyCmd) : List Nat :=
  match c.job with
  | .tile a _ => [a.comp]
  | .list l cur => l.comp :: (cur.map fun x => x.1.comp).toList
  | .kv a => [(parsePacket (pk a.pkt)).comp]
  | .kvcopy a => [a.comp]

/-- The bytes of the object that a selector names; nothing where no such object stands. `sp` reads bytes of a scratchpad;
of a saved team the image is read (R312). Where a resident thread stands at the selector's place, it is the one meant, and else
the first image whose team was last there (DESIGN CHOICE, log 20: R312 does not say which when the place has been taken). -/
def State.object (s : State) (sel : Nat) (sp : Nat → Nat → Nat) : List Byte :=
  let obj := fld sel 24 6
  let core := 32 * fld sel 18 4 + fld sel 13 5
  let qtr := fld sel 11 2
  let tid : ThreadId := { core, qtr, row := fld sel 6 5, lane := fld sel 0 6 }
  let here := s.thread? tid
  let img := if here.isSome then none
    else s.images.find? fun i => i.core = core && i.threads.any fun (t : Thread) => t.tid = tid
  let th := match img with
    | some i => i.threads.find? fun (t : Thread) => t.tid = tid
    | none => here
  let tm := match img with
    | some i => some i.team
    | none => here.bind fun t => s.team? core t.slot
  let rd := fun (slot o n : Nat) => match img with
    | some i => leValue ((i.scratch.drop o).take n)
    | none => sp (scratchBase core + (s.eng core slot).base + o) n
  let copies := match img with | some i => i.copies | none => (s.core core).copy
  let pk := fun (c : CopyCmd) o => rd c.slot o 64
  match obj with
  | 0 => (th.map threadObj).getD []
  | 1 => ((th.bind fun (t : Thread) => match img with
      | some i => i.groups.find? fun (g : Group) => g.grp = t.grp
      | none => s.group? core t.slot t.grp).map groupObj).getD []
  | 2 => pcTableObj (s.quarter core qtr)
  | 3 => (tm.map cvObj).getD []
  | 4 => (tm.map queueObj).getD []
  | 5 => (tm.map barObj).getD []
  | 6 => rangeObj (match img with | some i => i.ranges ++ i.copies.flatMap CopyCmd.ranges | none => (s.core core).ranges)
  | 7 => match img with
    | some i => matrixObj (i.quarter qtr) []
    | none => matrixObj (s.quarter core qtr) (s.waitingCmds core qtr)
  | 8 => copyObj pk copies
  | 9 => (tm.map fun t => ((copies.filter fun c => c.slot = t.slot).flatMap fun c => c.comps (pk c)).eraseDups.flatMap
      fun o => leBytes 4 (rd t.slot o 4)).getD []
  | 10 =>
    let q := s.quarter core qtr
    let key := fun (g : Option GroupKey) => (g.map fun g => g.slot * 512 + g.grp).getD 0
    leBytes 8 (pack [(62, if q.holder.isNone then 0 else if q.partner.isNone then 1 else 2), (19, key q.holder), (0, key q.partner)])
  | _ => []

/-- DBG_SNAPSHOT. -/
def execDbgSnapshot (sel : Word) (s : State) : Host.Outcome State Fault Refusal := run (do
  acceptDbg s.dbgcmd.toNat
  let sp := fun a n => leValue ((List.range n).map fun k => s.byte (a + k))
  let bs := (s.object sel.toNat sp).take 4096
  upd fun s => { s with
    dbgsel := BitVec.ofNat 32 (pack [(24, fld sel.toNat 24 6), (0, fld sel.toNat 0 22)])
    dbgwin := bs ++ List.replicate (4096 - bs.length) 0 }) s

end Sys2Proof.Machine
end

