-- ==== Sys2Proof/Machine/Platform.lean ====
section
/-!
DEFINITION. The device around its engines (spec 14, and the register maps of 05, 07, 08, 11 and 12): register writes,
features, power and clocks, the thermal trip, ports, identity and the security alarm.
-/
namespace Sys2Proof.Machine

/-! ### Register writes (R18, R19) -/

/-- Registers of a launch queue without a row of their own (Table 7.1, R249, R486). -/
def writeQueueReg (q off : Nat) (v : Word) : W Unit := do
  let s ← getSt
  let x := s.queue q
  let busy := decide (x.head ≠ x.tail)
  match off with
  | 0x00 => modQueue q fun x => { x with
      qbase := setLow x.qbase (v &&& 0xFFFFFF00#32), undef := x.undef || busy }
  | 0x04 => modQueue q fun x => { x with qbase := setHigh x.qbase (v &&& 0xFF#32), undef := x.undef || busy }
  | 0x08 =>
    let w := v &&& 0xF0F#32
    let w := if s.featDone then w else w &&& ~~~1#32
    modQueue q fun x => { x with
      qctl := w, undef := x.undef || (busy && decide (fld w.toNat 8 4 ≠ x.logsz)) }
  | 0x14 => if flag v.toNat 31 then modQueue q fun x => { x with fault := false }
  | _ => return

/-- Every domain, or every pod-wide domain, is disabled. -/
def State.domainsOff (s : State) (podOnly : Bool) : Bool :=
  (List.range 8).all fun d => !((s.domain d).en && (!podOnly || (s.domain d).pod))

/-- Grace-detector registers without a row of their own (Table 11.1, R384, R452). -/
def writeGraceReg (off : Nat) (v : Word) : W Unit := do
  let s ← getSt
  let keep := fun (x : DWord) => BitVec.ofNat 64 (x.toNat / 2 ^ 17 % 2 ^ 23 * 2 ^ 17 + x.toNat % 2)
  if off = 0 then
    if s.domainsOff false then upd fun s => { s with rqbase := keep (setLow s.rqbase v) }
  else if off = 4 then
    if s.domainsOff false then upd fun s => { s with rqbase := keep (setHigh s.rqbase v) }
  else if off = 0x30 then
    if s.domainsOff true && !s.feature 5 then upd fun s => { s with podcfg := v &&& 0xFF#32 }
  else if 0x40 ≤ off && off < 0x60 then
    if s.domainsOff true then
      let k := 8 * (off - 0x40)
      upd fun s => { s with podmask := s.podmask - s.podmask / 2 ^ k % 2 ^ 32 * 2 ^ k + v.toNat * 2 ^ k }
  else if off = 0x60 then
    if flag v.toNat 31 then upd fun s => { s with rqerr := BitVec.ofNat 32 (fld s.rqerr.toNat 16 3 * 2 ^ 16) }

/-- Page-pool registers (Table 12.5): the write's EN is taken, and the rest while EN was 0. -/
def writePoolReg (p off : Nat) (v : Word) : W Unit := do
  let x := (← getSt).pool p
  match off with
  | 0x0 => modPool p fun y => { y with
      cfg := if x.en then (y.cfg &&& 0x7FFFFFFF#32) ||| (v &&& 0x80000000#32) else v &&& 0xC00FFFFF#32 }
  | 0x4 => if !x.en then modPool p fun y => { y with count := v }
  | 0x8 => if !x.en then modPool p fun y => { y with head := setLow y.head v }
  | 0xC => if !x.en then modPool p fun y => { y with head := setHigh y.head v }
  | _ => return

/-- KV fault queue registers (Table 12.9). -/
def writeKfqReg (off : Nat) (v : Word) : W Unit := do
  let s ← getSt
  let en := flag s.kfqbase.toNat 0
  let keep := fun (x : DWord) => BitVec.ofNat 64 (x.toNat / 2 ^ 12 % 2 ^ 28 * 2 ^ 12 + x.toNat % 2)
  match off with
  | 0x00 => upd fun s => { s with kfqbase := if en then setLow s.kfqbase ((lowWord s.kfqbase &&& ~~~1#32) ||| (v &&& 1#32))
                                             else keep (setLow s.kfqbase v) }
  | 0x04 => if !en then upd fun s => { s with kfqbase := keep (setHigh s.kfqbase v) }
  | 0x08 => if !en then upd fun s => { s with kfqctl := v &&& 0xF#32 }
  | 0x10 => upd fun s => { s with kfqhead := v }
  | _ => return

/-- Write 32 bits at a BAR offset. Commands that have a row of their own are not given here. -/
def writeReg (off : Nat) (v : Word) : W Unit := do
  let s ← getSt
  if 0x10000 ≤ off && off < 0x11000 then writeQueueReg ((off - 0x10000) / 0x40) ((off - 0x10000) % 0x40) v
  else if 0x13000 ≤ off && off < 0x14000 then writeGraceReg (off - 0x13000) v
  else if 0x14000 ≤ off && off < 0x14400 then writePoolReg ((off - 0x14000) / 16) ((off - 0x14000) % 16) v
  else if 0x15000 ≤ off && off < 0x15020 then writeKfqReg (off - 0x15000) v
  else if 0x40000 ≤ off && off < 0x240000 then writeCoreCsr ((off - 0x40000) / 0x1000) ((off - 0x40000) % 0x1000 / 4) v
  else match off with
  | 0x11000 => if v.toNat < 2 ^ 30 then upd fun s => { s with lctl := v &&& 0xFF#32 }
  | 0x11100 => if !flag v.toNat 31 then upd fun s => { s with prectl := v &&& 0x3FFF03FF#32 }
  | 0x12000 => upd fun s => { s with savebase := setLow s.savebase (v &&& 0xFFFF0000#32) }
  | 0x12004 => upd fun s => { s with savebase := setHigh s.savebase (v &&& 0xFF#32) }
  | 0x12008 => upd fun s => { s with savesize := setLow s.savesize (v &&& 0xFFFF0000#32) }
  | 0x1200C => upd fun s => { s with savesize := setHigh s.savesize v }
  | 0x12010 => upd fun s => { s with drvpasid := v &&& 0x800FFFFF#32 }
  | 0x12020 => if flag v.toNat 31 then upd fun s => { s with fltloc := s.fltloc &&& 0x7FFFFFFF#32 }
  | 0x20000 => if v.toNat < 2 ^ 28 || 9 * 2 ^ 28 ≤ v.toNat then upd fun s => { s with dbgcmd := v &&& 0xFF#32 }
  | 0x20004 => upd fun s => { s with dbgsel := v &&& 0x3F3FFFFF#32 }
  | 0x00108 => if !s.featDone then upd fun s => { s with featacc := setLow s.featacc v }
  | 0x0010C => if !s.featDone then upd fun s => { s with featacc := setHigh s.featacc v }
  | 0x002C0 => upd fun s => { s with thermWarn := s.thermWarn && !flag v.toNat 30, warnt := fld v.toNat 16 8 }
  | _ => return

/-- REGISTER_WRITE: a 64-bit write is taken whole, its high word first, so that an enable in the low word does not shut
out the rest of the same write (Table 12.5). -/
def execRegisterWrite (off : Nat) (wide : Bool) (v : DWord) (s : State) : Host.Outcome State Fault Refusal := run (do
  if off % 4 = 0 then
    if wide then writeReg (off + 4) (highWord v)
    writeReg off (lowWord v)) s

/-! ### Features (R486) -/

/-- FEATURE_COMMIT. -/
def execFeatureCommit (s : State) : Host.Outcome State Fault Refusal := run (do
  if !s.featDone then
    upd fun s => { s with featacc := s.featacc &&& s.featoff, featDone := true }
    sendOwnFlit) s

/-! ### Power and clocks (R488, R489) -/

/-- PSTATE_REQUEST: a change starts, or the value stands until the change in progress ends. -/
def execPstateRequest (die : Nat) (v : Word) (s : State) : Host.Outcome State Fault Refusal := run (do
  let r := v.toNat % 4
  modDie die fun d =>
    if d.pchange.isSome then { d with preq := r }
    else if r = d.pcur then { d with preq := r }
    else { d with preq := r, pchange := some r, ibase := s.issueClock die }) s

/-- PSTATE_CHANGE_DONE. -/
def execPstateChangeDone (die : Nat) (s : State) : Host.Outcome State Fault Refusal := run (do
  modDie die fun d => match d.pchange with
    | some t => { d with pcur := t, pchange := if d.preq = t then none else some d.preq, iclk := s.clock }
    | none => d) s

/-- CGATE_WRITE: marked cores without a team are gated at once; COSCHED launches that wait are tested again (R264). -/
def execCgateWrite (die : Nat) (v : Word) (s : State) : Host.Outcome State Fault Refusal := run (do
  modDie die fun d => { d with cgate := v }
  for k in List.range 32 do
    let c := 32 * die + k
    if flag v.toNat k then
      modCore c fun x => { x with ungating := false }
      gateIfEmpty c
    else if (s.core c).gated then modCore c fun x => { x with ungating := true }
  if v.toNat ≠ 0 then
    for l in s.launches do
      match l.desc with
      | some d =>
        if ({ l with endWait := none } : Launch).wantsTeam && l.rcd.cosched && !(← getSt).coschedFits l d then
          endLaunch l.slot 8
      | none => pure ()) s

/-- CORE_UNGATE_DONE. -/
def execCoreUngateDone (core : Nat) (s : State) : Host.Outcome State Fault Refusal := run (do
  if (s.core core).ungating then modCore core fun c => { c with gated := false, ungating := false }) s

/-! ### Thermal events (R491, R492) -/

def noteTemp (t : Nat) : W Unit := upd fun s => { s with tmax := max s.tmax (min t 255) }

/-- THERMAL_WARNING. -/
def execThermalWarning (temp : Nat) (s : State) : Host.Outcome State Fault Refusal := run (do
  noteTemp temp
  if temp ≥ s.warnt then
    upd fun s => { s with thermWarn := true }
    msix 67) s

/-- THERMAL_TRIP: everything stops where it stands. -/
def execThermalTrip (temp : Nat) (s : State) : Host.Outcome State Fault Refusal := run (do
  noteTemp temp
  if temp ≥ 105 && !s.thermTrip then
    upd fun s => { s with thermTrip := true }
    msix 67) s

/-! ### Identity registers and options of the host link (R482, R486) -/

/-- DEVID (Table 14.3). -/
def State.devid (s : State) : Word := BitVec.ofNat 32 (0x4B16 * 2 ^ 16 + s.step_ % 256 * 2 ^ 8)

/-- Parts and options that Table 14.1 names. -/
inductive HostOption where
  | type1 | type2 | type3 | multiLogical | dynamicCapacity
  | width16 | width8 | rate64 | rate32 | rate16 | flit256 | latencyFlits | portRouting | switchFabric
  | hdmDb | hdmH | hdmDNoBi | interleave2x4k
  | rdShared | rdOwn | rdCurr | cleanEvict | dirtyEvict | itoMWr | hostBias
  | ide | selectiveIde | ats4k | ats2m | ats1g | pasid20 | executePasid | pri | stopMarkers
deriving DecidableEq, Repr

/-- An option's capability: what the table does not list as supported reads as not implemented (R482). -/
def HostOption.supported (o : HostOption) : Bool :=
  match o with
  | .type2 | .width16 | .width8 | .rate64 | .rate32 | .rate16 | .flit256 | .hdmDb | .interleave2x4k | .rdShared | .rdOwn
  | .rdCurr | .cleanEvict | .dirtyEvict | .itoMWr | .ide | .ats4k | .ats2m | .ats1g | .pasid20 | .pri => true
  | .type1 | .type3 | .multiLogical | .dynamicCapacity | .latencyFlits | .portRouting | .switchFabric | .hdmH | .hdmDNoBi
  | .hostBias | .selectiveIde | .executePasid | .stopMarkers => false

/-! ### Ports (R484) -/

/-- PORT_DOWN: the requests routed to the port fail, at port 0 the translation and page requests in flight too (log 62). On a
device that has stopped nothing in flight changes (R492, R495). -/
def execPortDown (port : Nat) (s : State) : Host.Outcome State Fault Refusal := run (do
  upd fun s => { s with portUp := s.portUp.set (port % 2) false }
  if s.thermTrip || s.sec.locked then return
  if port % 2 = 0 && !(s.ats.isEmpty && s.pri.isEmpty) then
    msix 0
    upd fun s => { s with ats := [], pri := [] }
    spread { waits := fun _ => true, retry := none, fail := fun _ _ => some 0, goOn := fun _ _ => false, cause := .hostlink }
  for r in s.hlcReq do
    if r.line / 64 % 2 = port % 2 then
      upd fun s => { s with hlcReq := s.hlcReq.erase r }
      lineNews r.line false) s

/-- PORT_UP. -/
def execPortUp (port : Nat) (s : State) : Host.Outcome State Fault Refusal := run (do
  upd fun s => { s with portUp := s.portUp.set (port % 2) true }) s

/-! ### Secure boot, alarm, power (R490, R493, R495, R496) -/

/-- The alarm fires: erase and lock, or lock only (R495). -/
def fireAlarm (sensors : BitVec 4) : W Unit := do
  let s ← getSt
  let erase := !s.sec.policy
  upd fun s => { s with sec := { s.sec with
    erased := s.sec.erased || erase, locked := true, alarm := true, src := s.sec.src ||| sensors } }
  if erase then modify fun w => { w with rekey := true }
  msix 1

/-- SECURITY_ALARM. Sensor 0 voltage, 1 clock, 2 temperature, 3 lid mesh. -/
def execSecurityAlarm (src : Nat) (s : State) : Host.Outcome State Fault Refusal := run (do
  if s.sec.powered && src < 4 then
    upd fun s => { s with sec := { s.sec with faults := s.sec.faults ||| (1#4 <<< src) } }
    if !s.sec.locked then fireAlarm (1#4 <<< src)) s

/-- SECPOL_WRITE: once after each reset. -/
def execSecpolWrite (v : Word) (s : State) : Host.Outcome State Fault Refusal := run (do
  if !s.sec.polSet then
    upd fun s => { s with sec := { s.sec with policy := v.toNat % 2 = 1, polSet := true } }) s

/-- Volatile state at its reset values; what lies outside the device, the fuses, the flash and an erasure persist. -/
def State.coldStart (s : State) : State :=
  { State.reset with
    mem := s.mem, poison := s.poison.filter isHost
    step_ := s.step_, featoff := s.featoff, inbox := s.inbox, choices := s.choices, fresh := s.fresh
    hostOut := s.hostOut, linkOut := s.linkOut, portUp := s.portUp
    sec := { svn := s.sec.svn, erased := s.sec.erased, keyGen := s.sec.keyGen, faults := s.sec.faults } }

/-- CONVENTIONAL_RESET or power-up: the firmware is verified, an alias key is derived for it, and a new memory key made. A
sensor that is still outside its window, as the device's surroundings choose, fires the alarm again; the lid mesh is tested at
every boot, and its alarm comes before any firmware runs (R493, R495; log 48). -/
def execConventionalReset (svn : Nat) (signed : Bool) (s : State) : Host.Outcome State Fault Refusal := run (do
  upd State.coldStart
  modify fun w => { w with rekey := true }
  let ok := signed && svn ≥ s.sec.svn
  let n ← freshN
  let fwver := if ok then (Config.freeWord n).toNat % 2 ^ 16 else 0
  let mut still : BitVec 4 := 0
  for k in List.range 4 do
    if s.sec.faults.getLsbD k || k = 3 then
      if (← choose 2) = 1 then still := still ||| (1#4 <<< k)
  let faults := still
  upd fun s => { s with sec := { s.sec with powered := true, faults } }
  if faults.getLsbD 3 then fireAlarm faults
  else
    let aliasKey := if ok then some (Config.aliasKey n).toNat else none
    upd fun s => { s with sec := { s.sec with ready := ok, fwver, aliasKey } }
    if faults ≠ 0 then fireAlarm faults) s

/-- POWER_LOSS. -/
def execPowerLoss (s : State) : Host.Outcome State Fault Refusal := run (do
  upd State.coldStart
  modify fun w => { w with rekey := true }
  upd fun s => { s with sec := { s.sec with powered := false } }) s

/-! ### SPDM (R494) -/

/-- The device answers SPDM: firmware runs, and it is neither locked nor tripped. -/
def State.spdmOn (s : State) : Bool := s.sec.powered && s.sec.ready && !s.sec.locked && !s.thermTrip

def answer (kind : String) (bits : List Nat) : W Unit := sendHost (.spdm { kind, bits })

/-- An answer made of free bits. -/
def freeAnswer (kind : String) : W Unit := do
  let n ← freshN
  answer kind [(Config.spdmBits n).toNat]

/-- An answer that needs the identity key; without it the device reports an error. -/
def keyedAnswer (kind : String) : W Unit := do
  if (← getSt).sec.erased then answer "ERROR" [] else freeAnswer kind

def onSpdm (b : W Unit) (s : State) : Host.Outcome State Fault Refusal := run (do if s.spdmOn then b) s

/-- SPDM 1.2. -/
def execGetVersion (s : State) : Host.Outcome State Fault Refusal := onSpdm (answer "VERSION" [0x12]) s
def execGetCapabilities (s : State) : Host.Outcome State Fault Refusal := onSpdm (freeAnswer "CAPABILITIES") s
/-- Bit 0 ECDSA P-384, bit 1 SHA-384, bit 2 AES-256-GCM: the offered ones among those supported. -/
def execNegotiateAlgorithms (algs : Nat) (s : State) : Host.Outcome State Fault Refusal :=
  onSpdm (answer "ALGORITHMS" [algs % 8]) s
def execGetDigests (s : State) : Host.Outcome State Fault Refusal := onSpdm (keyedAnswer "DIGESTS") s
def execGetCertificate (_off _len : Nat) (s : State) : Host.Outcome State Fault Refusal := onSpdm (keyedAnswer "CERTIFICATE") s
def execChallenge (_nonce : Nat) (s : State) : Host.Outcome State Fault Refusal := onSpdm (keyedAnswer "CHALLENGE_AUTH") s

/-- Measurements 1 to 5. -/
def State.measurement (s : State) (i : Nat) : Option Nat :=
  match i with
  | 1 => some (Config.firmwareDigest 1).toNat
  | 2 => some (Config.firmwareDigest 2).toNat
  | 3 => some s.sec.svn
  | 4 => some (if s.featDone then s.featacc.toNat else 0)
  | 5 => some (s.sec.polSet.toNat * 2 ^ 31 + s.sec.policy.toNat)
  | _ => none

/-- One measurement, or with index 255 all of them. -/
def execGetMeasurements (index : Nat) (s : State) : Host.Outcome State Fault Refusal := onSpdm (
  if index = 255 then answer "MEASUREMENTS" ((List.range 6).filterMap s.measurement)
  else match s.measurement index with
    | some v => answer "MEASUREMENTS" [v]
    | none => answer "ERROR" []) s

/-- KEY_EXCHANGE opens a session that FINISH establishes. -/
def execKeyExchange (_share : Nat) (s : State) : Host.Outcome State Fault Refusal := onSpdm (do
  if !s.sec.erased then upd fun s => { s with sec := { s.sec with spdm := 1 } }
  keyedAnswer "KEY_EXCHANGE_RSP") s

def execSpdmFinish (verify : Bool) (s : State) : Host.Outcome State Fault Refusal := onSpdm (do
  if s.sec.spdm = 1 && verify then
    upd fun s => { s with sec := { s.sec with spdm := 2 } }
    answer "FINISH_RSP" []
  else answer "ERROR" []) s

/-- IDE_KM_REQUEST (R482): the IDE keys of a port. -/
def execIdeKmRequest (port key : Nat) (s : State) : Host.Outcome State Fault Refusal := onSpdm (do
  upd fun s => { s with ideKeys := s.ideKeys.set (port % 2) key }
  answer "IDE_KM" []) s

end Sys2Proof.Machine
end

