-- ==== Sys2Proof/Machine/Dispatch.lean ====
section
/-!
DEFINITION. The dispatch of an instruction word or a device step to its meaning.
-/
namespace Sys2Proof.Machine

def exec (i : Instr) (s : State) : Host.Outcome State Fault Refusal :=
  match i with
  | .iadd f => Sys2Proof.Machine.execIadd f s
  | .isub f => Sys2Proof.Machine.execIsub f s
  | .imul f => Sys2Proof.Machine.execImul f s
  | .imulhi f => Sys2Proof.Machine.execImulhi f s
  | .imulw f => Sys2Proof.Machine.execImulw f s
  | .imad f => Sys2Proof.Machine.execImad f s
  | .imin f => Sys2Proof.Machine.execImin f s
  | .imax f => Sys2Proof.Machine.execImax f s
  | .iabsd f => Sys2Proof.Machine.execIabsd f s
  | .idot4 f => Sys2Proof.Machine.execIdot4 f s
  | .andW f => Sys2Proof.Machine.execAnd f s
  | .orW f => Sys2Proof.Machine.execOr f s
  | .xorW f => Sys2Proof.Machine.execXor f s
  | .andn f => Sys2Proof.Machine.execAndn f s
  | .shl f => Sys2Proof.Machine.execShl f s
  | .shr f => Sys2Proof.Machine.execShr f s
  | .sar f => Sys2Proof.Machine.execSar f s
  | .fshf f => Sys2Proof.Machine.execFshf f s
  | .bfe f => Sys2Proof.Machine.execBfe f s
  | .bfi f => Sys2Proof.Machine.execBfi f s
  | .popc f => Sys2Proof.Machine.execPopc f s
  | .clz f => Sys2Proof.Machine.execClz f s
  | .brev f => Sys2Proof.Machine.execBrev f s
  | .prmt f => Sys2Proof.Machine.execPrmt f s
  | .isetp f => Sys2Proof.Machine.execIsetp f s
  | .psetp f => Sys2Proof.Machine.execPsetp f s
  | .sel f => Sys2Proof.Machine.execSel f s
  | .mov f => Sys2Proof.Machine.execMov f s
  | .lea f => Sys2Proof.Machine.execLea f s
  | .iaddc f => Sys2Proof.Machine.execIaddc f s
  | .movix f => Sys2Proof.Machine.execMovix f s
  | .fadd f => Sys2Proof.Machine.execFadd f s
  | .fsub f => Sys2Proof.Machine.execFsub f s
  | .fmul f => Sys2Proof.Machine.execFmul f s
  | .ffma f => Sys2Proof.Machine.execFfma f s
  | .fmin f => Sys2Proof.Machine.execFmin f s
  | .fmax f => Sys2Proof.Machine.execFmax f s
  | .fsgn f => Sys2Proof.Machine.execFsgn f s
  | .fsetp f => Sys2Proof.Machine.execFsetp f s
  | .fclass f => Sys2Proof.Machine.execFclass f s
  | .frnd f => Sys2Proof.Machine.execFrnd f s
  | .fscale f => Sys2Proof.Machine.execFscale f s
  | .fxtr f => Sys2Proof.Machine.execFxtr f s
  | .fdot2 f => Sys2Proof.Machine.execFdot2 f s
  | .cvt f => Sys2Proof.Machine.execCvt f s
  | .pack f => Sys2Proof.Machine.execPack f s
  | .unpk f => Sys2Proof.Machine.execUnpk f s
  | .pairWord p => Sys2Proof.Machine.execPairWord p s
  | .movi w => Sys2Proof.Machine.execMovi w s
  | .iaddi w => Sys2Proof.Machine.execIaddi w s
  | .andi w => Sys2Proof.Machine.execAndi w s
  | .ori w => Sys2Proof.Machine.execOri w s
  | .xori w => Sys2Proof.Machine.execXori w s
  | .isetpi w => Sys2Proof.Machine.execIsetpi w s
  | .ldi w => Sys2Proof.Machine.execLdi w s
  | .sti w => Sys2Proof.Machine.execSti w s
  | .ldsi w => Sys2Proof.Machine.execLdsi w s
  | .stsi w => Sys2Proof.Machine.execStsi w s
  | .bra w => Sys2Proof.Machine.execBra w s
  | .call w => Sys2Proof.Machine.execCall w s
  | .ret w => Sys2Proof.Machine.execRet w s
  | .jmpi w => Sys2Proof.Machine.execJmpi w s
  | .calli w => Sys2Proof.Machine.execCalli w s
  | .landpt w => Sys2Proof.Machine.execLandpt w s
  | .exitW w => Sys2Proof.Machine.execExit w s
  | .yield w => Sys2Proof.Machine.execYield w s
  | .nap w => Sys2Proof.Machine.execNap w s
  | .waitz w => Sys2Proof.Machine.execWaitz w s
  | .waitne w => Sys2Proof.Machine.execWaitne w s
  | .bar w => Sys2Proof.Machine.execBar w s
  | .bararv w => Sys2Proof.Machine.execBararv w s
  | .cvsign w => Sys2Proof.Machine.execCvsign w s
  | .cvwait w => Sys2Proof.Machine.execCvwait w s
  | .tkn w => Sys2Proof.Machine.execTkn w s
  | .nop w => Sys2Proof.Machine.execNop w s
  | .ld m => Sys2Proof.Machine.execLd m s
  | .st m => Sys2Proof.Machine.execSt m s
  | .lds m => Sys2Proof.Machine.execLds m s
  | .sts m => Sys2Proof.Machine.execSts m s
  | .ldv m => Sys2Proof.Machine.execLdv m s
  | .stv m => Sys2Proof.Machine.execStv m s
  | .ldp m => Sys2Proof.Machine.execLdp m s
  | .stp m => Sys2Proof.Machine.execStp m s
  | .atom m => Sys2Proof.Machine.execAtom m s
  | .acas m => Sys2Proof.Machine.execAcas m s
  | .red m => Sys2Proof.Machine.execRed m s
  | .atoms m => Sys2Proof.Machine.execAtoms m s
  | .atomp m => Sys2Proof.Machine.execAtomp m s
  | .fence m => Sys2Proof.Machine.execFence m s
  | .pfetch m => Sys2Proof.Machine.execPfetch m s
  | .shfl f => Sys2Proof.Machine.execShfl f s
  | .vote f => Sys2Proof.Machine.execVote f s
  | .gred f => Sys2Proof.Machine.execGred f s
  | .gscan f => Sys2Proof.Machine.execGscan f s
  | .matchW f => Sys2Proof.Machine.execMatch f s
  | .elect f => Sys2Proof.Machine.execElect f s
  | .actmask f => Sys2Proof.Machine.execActmask f s
  | .qtry f => Sys2Proof.Machine.execQtry f s
  | .rcp f => Sys2Proof.Machine.execRcp f s
  | .rsqrt f => Sys2Proof.Machine.execRsqrt f s
  | .sqrt f => Sys2Proof.Machine.execSqrt f s
  | .exp2 f => Sys2Proof.Machine.execExp2 f s
  | .log2 f => Sys2Proof.Machine.execLog2 f s
  | .sinpi f => Sys2Proof.Machine.execSinpi f s
  | .cospi f => Sys2Proof.Machine.execCospi f s
  | .scpi f => Sys2Proof.Machine.execScpi f s
  | .tanh f => Sys2Proof.Machine.execTanh f s
  | .fdiv f => Sys2Proof.Machine.execFdiv f s
  | .exd f => Sys2Proof.Machine.execExd f s
  | .tcopy e => Sys2Proof.Machine.execTcopy e s
  | .tkick e => Sys2Proof.Machine.execTkick e s
  | .tstore e => Sys2Proof.Machine.execTstore e s
  | .tgather e => Sys2Proof.Machine.execTgather e s
  | .omap e => Sys2Proof.Machine.execOmap e s
  | .mma e => Sys2Proof.Machine.execMma e s
  | .mmas e => Sys2Proof.Machine.execMmas e s
  | .accz e => Sys2Proof.Machine.execAccz e s
  | .accld e => Sys2Proof.Machine.execAccld e s
  | .accst e => Sys2Proof.Machine.execAccst e s
  | .accrd e => Sys2Proof.Machine.execAccrd e s
  | .accrow e => Sys2Proof.Machine.execAccrow e s
  | .accrmax e => Sys2Proof.Machine.execAccrmax e s
  | .spcommit e => Sys2Proof.Machine.execSpcommit e s
  | .spdrop e => Sys2Proof.Machine.execSpdrop e s
  | .accver e => Sys2Proof.Machine.execAccver e s
  | .kvld e => Sys2Proof.Machine.execKvld e s
  | .kvapp e => Sys2Proof.Machine.execKvapp e s
  | .seqcmt e => Sys2Proof.Machine.execSeqcmt e s
  | .seqabort e => Sys2Proof.Machine.execSeqabort e s
  | .scoreadd e => Sys2Proof.Machine.execScoreadd e s
  | .topk e => Sys2Proof.Machine.execTopk e s
  | .kvnode e => Sys2Proof.Machine.execKvnode e s
  | .kvcopy e => Sys2Proof.Machine.execKvcopy e s
  | .pgalloc e => Sys2Proof.Machine.execPgalloc e s
  | .pgfree e => Sys2Proof.Machine.execPgfree e s
  | .rsenter e => Sys2Proof.Machine.execRsenter e s
  | .rsleave e => Sys2Proof.Machine.execRsleave e s
  | .publish e => Sys2Proof.Machine.execPublish e s
  | .retire e => Sys2Proof.Machine.execRetire e s
  | .gpsync e => Sys2Proof.Machine.execGpsync e s
  | .gpstat e => Sys2Proof.Machine.execGpstat e s
  | .claunch e => Sys2Proof.Machine.execClaunch e s
  | .cstatus e => Sys2Proof.Machine.execCstatus e s
  | .cabort e => Sys2Proof.Machine.execCabort e s
  | .cresume e => Sys2Proof.Machine.execCresume e s
  | .linkq e => Sys2Proof.Machine.execLinkq e s
  | .subscr e => Sys2Proof.Machine.execSubscr e s
  | .unsubscr e => Sys2Proof.Machine.execUnsubscr e s
  | .carve e => Sys2Proof.Machine.execCarve e s
  | .msend e => Sys2Proof.Machine.execMsend e s
  | .ringset e => Sys2Proof.Machine.execRingset e s
  | .ringadv e => Sys2Proof.Machine.execRingadv e s
  | .launch e => Sys2Proof.Machine.execLaunch e s
  | .itemq e => Sys2Proof.Machine.execItemq e s
  | .drain e => Sys2Proof.Machine.execDrain e s
  | .ccadd e => Sys2Proof.Machine.execCcadd e s
  | .trap e => Sys2Proof.Machine.execTrap e s
  | .rett e => Sys2Proof.Machine.execRett e s
  | .rqrd e => Sys2Proof.Machine.execRqrd e s
  | .rqwr e => Sys2Proof.Machine.execRqwr e s
  | .causeclr e => Sys2Proof.Machine.execCauseclr e s
  | .csrrd e => Sys2Proof.Machine.execCsrrd e s
  | .csrwr e => Sys2Proof.Machine.execCsrwr e s
  | .bkpt e => Sys2Proof.Machine.execBkpt e s
  | .setmode e => Sys2Proof.Machine.execSetmode e s
  | .preempt e => Sys2Proof.Machine.execPreempt e s
  | .illegalWord sub => Sys2Proof.Machine.execIllegalWord sub s
  | .trapEntry t => Sys2Proof.Machine.execTrapEntry t s
  | .pageResponse pasid vpn intent res => Sys2Proof.Machine.execPageResponse pasid vpn intent res s
  | .parkedShareSwitch core => Sys2Proof.Machine.execParkedShareSwitch core s
  | .teamSave core slot => Sys2Proof.Machine.execTeamSave core slot s
  | .teamRestore image core => Sys2Proof.Machine.execTeamRestore image core s
  | .redMerge core line => Sys2Proof.Machine.execRedMerge core line s
  | .fairnessDue core qtr lslot pc => Sys2Proof.Machine.execFairnessDue core qtr lslot pc s
  | .stampRenumber core qtr => Sys2Proof.Machine.execStampRenumber core qtr s
  | .napExpire t => Sys2Proof.Machine.execNapExpire t s
  | .waitReread t => Sys2Proof.Machine.execWaitReread t s
  | .itemAssign t => Sys2Proof.Machine.execItemAssign t s
  | .qtailWrite q v => Sys2Proof.Machine.execQtailWrite q v s
  | .qpushWrite q v => Sys2Proof.Machine.execQpushWrite q v s
  | .qpushComplete q => Sys2Proof.Machine.execQpushComplete q s
  | .takeRecord q => Sys2Proof.Machine.execTakeRecord q s
  | .depRead lslot j => Sys2Proof.Machine.execDepRead lslot j s
  | .launchBegin lslot => Sys2Proof.Machine.execLaunchBegin lslot s
  | .placeTeam lslot core => Sys2Proof.Machine.execPlaceTeam lslot core s
  | .teamRetire core slot => Sys2Proof.Machine.execTeamRetire core slot s
  | .launchEnd lslot => Sys2Proof.Machine.execLaunchEnd lslot s
  | .watchdogExpire lslot => Sys2Proof.Machine.execWatchdogExpire lslot s
  | .lctlDrain lslot => Sys2Proof.Machine.execLctlDrain lslot s
  | .lctlAbort lslot => Sys2Proof.Machine.execLctlAbort lslot s
  | .lctlReleaseReserve q => Sys2Proof.Machine.execLctlReleaseReserve q s
  | .prectlGo v => Sys2Proof.Machine.execPrectlGo v s
  | .preemptDone => Sys2Proof.Machine.execPreemptDone s
  | .dbgHalt lslot => Sys2Proof.Machine.execDbgHalt lslot s
  | .dbgResume lslot => Sys2Proof.Machine.execDbgResume lslot s
  | .dbgStep t => Sys2Proof.Machine.execDbgStep t s
  | .dbgFreeze core => Sys2Proof.Machine.execDbgFreeze core s
  | .dbgThaw core => Sys2Proof.Machine.execDbgThaw core s
  | .dbgSnapshot sel => Sys2Proof.Machine.execDbgSnapshot sel s
  | .dbgAttach lslot => Sys2Proof.Machine.execDbgAttach lslot s
  | .dbgDetach lslot => Sys2Proof.Machine.execDbgDetach lslot s
  | .registerWrite off wide v => Sys2Proof.Machine.execRegisterWrite off wide v s
  | .carveSwitch die => Sys2Proof.Machine.execCarveSwitch die s
  | .subscrMirrorComplete core handle => Sys2Proof.Machine.execSubscrMirrorComplete core handle s
  | .subUpdateApply core handle => Sys2Proof.Machine.execSubUpdateApply core handle s
  | .atsInvalidation pasid vpn pages => Sys2Proof.Machine.execAtsInvalidation pasid vpn pages s
  | .invalidationCompletion => Sys2Proof.Machine.execInvalidationCompletion s
  | .msgDeliver core idx => Sys2Proof.Machine.execMsgDeliver core idx s
  | .hostMemAccess addr op => Sys2Proof.Machine.execHostMemAccess addr op s
  | .hostSnoop line op off => Sys2Proof.Machine.execHostSnoop line op off s
  | .hlcEvict line => Sys2Proof.Machine.execHlcEvict line s
  | .copyAccept t => Sys2Proof.Machine.execCopyAccept t s
  | .copyRetire core idx => Sys2Proof.Machine.execCopyRetire core idx s
  | .tkickRecordStart core idx => Sys2Proof.Machine.execTkickRecordStart core idx s
  | .matrixQueueIssue core slot cv qtr => Sys2Proof.Machine.execMatrixQueueIssue core slot cv qtr s
  | .matrixStart core qtr idx => Sys2Proof.Machine.execMatrixStart core qtr idx s
  | .matrixRetire core qtr idx => Sys2Proof.Machine.execMatrixRetire core qtr idx s
  | .accrdRead t => Sys2Proof.Machine.execAccrdRead t s
  | .gpStart d => Sys2Proof.Machine.execGpStart d s
  | .gpFlipDone d => Sys2Proof.Machine.execGpFlipDone d s
  | .gpComplete d => Sys2Proof.Machine.execGpComplete d s
  | .retireRelease d => Sys2Proof.Machine.execRetireRelease d s
  | .domcfgWrite d v => Sys2Proof.Machine.execDomcfgWrite d v s
  | .podReq d src => Sys2Proof.Machine.execPodReq d src s
  | .podFlip d g => Sys2Proof.Machine.execPodFlip d g s
  | .podFack d g src => Sys2Proof.Machine.execPodFack d g src s
  | .podQuiet d g src => Sys2Proof.Machine.execPodQuiet d g src s
  | .podDone d g => Sys2Proof.Machine.execPodDone d g s
  | .kvPacketAccept t => Sys2Proof.Machine.execKvPacketAccept t s
  | .kvBlockWrite core idx => Sys2Proof.Machine.execKvBlockWrite core idx s
  | .kvFaultRecord core idx => Sys2Proof.Machine.execKvFaultRecord core idx s
  | .kfqresWrite v => Sys2Proof.Machine.execKfqresWrite v s
  | .collJoin j => Sys2Proof.Machine.execCollJoin j s
  | .collStart cid epoch fin edges => Sys2Proof.Machine.execCollStart cid epoch fin edges s
  | .collPause cid src => Sys2Proof.Machine.execCollPause cid src s
  | .collBitmap cid epoch src done => Sys2Proof.Machine.execCollBitmap cid epoch src done s
  | .collResumeMsg cid src => Sys2Proof.Machine.execCollResumeMsg cid src s
  | .collReport cid epoch src => Sys2Proof.Machine.execCollReport cid epoch src s
  | .collFinish round => Sys2Proof.Machine.execCollFinish round s
  | .collFail cid code => Sys2Proof.Machine.execCollFail cid code s
  | .collAbortMsg cid src => Sys2Proof.Machine.execCollAbortMsg cid src s
  | .chunkData cid epoch chunk up src vals bad => Sys2Proof.Machine.execChunkData cid epoch chunk up src vals bad s
  | .linkUp link pchip pport => Sys2Proof.Machine.execLinkUp link pchip pport s
  | .linkDown link => Sys2Proof.Machine.execLinkDown link s
  | .linkStateFlit link origin seq entries => Sys2Proof.Machine.execLinkStateFlit link origin seq entries s
  | .portDown port => Sys2Proof.Machine.execPortDown port s
  | .portUp port => Sys2Proof.Machine.execPortUp port s
  | .cxlCacheTimeout line => Sys2Proof.Machine.execCxlCacheTimeout line s
  | .featureCommit => Sys2Proof.Machine.execFeatureCommit s
  | .pstateRequest die v => Sys2Proof.Machine.execPstateRequest die v s
  | .pstateChangeDone die => Sys2Proof.Machine.execPstateChangeDone die s
  | .cgateWrite die v => Sys2Proof.Machine.execCgateWrite die v s
  | .coreUngateDone core => Sys2Proof.Machine.execCoreUngateDone core s
  | .thermalWarning temp => Sys2Proof.Machine.execThermalWarning temp s
  | .thermalTrip temp => Sys2Proof.Machine.execThermalTrip temp s
  | .securityAlarm src => Sys2Proof.Machine.execSecurityAlarm src s
  | .secpolWrite v => Sys2Proof.Machine.execSecpolWrite v s
  | .conventionalReset svn signed => Sys2Proof.Machine.execConventionalReset svn signed s
  | .getVersion => Sys2Proof.Machine.execGetVersion s
  | .getCapabilities => Sys2Proof.Machine.execGetCapabilities s
  | .negotiateAlgorithms algs => Sys2Proof.Machine.execNegotiateAlgorithms algs s
  | .getDigests => Sys2Proof.Machine.execGetDigests s
  | .getCertificate off len => Sys2Proof.Machine.execGetCertificate off len s
  | .challenge nonce => Sys2Proof.Machine.execChallenge nonce s
  | .getMeasurements index => Sys2Proof.Machine.execGetMeasurements index s
  | .keyExchange share => Sys2Proof.Machine.execKeyExchange share s
  | .spdmFinish verify => Sys2Proof.Machine.execSpdmFinish verify s
  | .softError addr correctable => Sys2Proof.Machine.execSoftError addr correctable s
  | .powerLoss => Sys2Proof.Machine.execPowerLoss s
  | .translationCompletion pasid vpn res => Sys2Proof.Machine.execTranslationCompletion pasid vpn res s
  | .birsp half => Sys2Proof.Machine.execBirsp half s
  | .cxlCacheResponse line exclusive ok => Sys2Proof.Machine.execCxlCacheResponse line exclusive ok s
  | .accessReply t idx => Sys2Proof.Machine.execAccessReply t idx s
  | .copyTransfer core idx => Sys2Proof.Machine.execCopyTransfer core idx s
  | .ideKmRequest port key => Sys2Proof.Machine.execIdeKmRequest port key s

end Sys2Proof.Machine
end

