-- ==== Sys2Proof/Machine/Schedule.lean ====
section
/-!
DEFINITION. What a step does next: the passing of time, the pick of an issue group (spec 04
R160-R170), the events of the device that can happen now, and the choice among all of these (assumption log 4, 6).
-/
namespace Sys2Proof.Machine

/-- The device runs: booted, powered, neither tripped nor locked (R492, R493, R495). -/
def State.running (s : State) : Bool := s.sec.ready && s.sec.powered && !s.sec.locked && !s.thermTrip

/-! ### Picking an issue group (R161-R163, R170) -/

/-- Entry x is older than entry y (R159). -/
def PcEntry.older (x y : PcEntry) : Bool := x.stamp < y.stamp || (x.stamp = y.stamp && x.pc.toNat < y.pc.toNat)

def insertEntry (e : PcEntry) (es : List PcEntry) : List PcEntry :=
  match es with
  | [] => [e]
  | x :: xs => if e.older x then e :: x :: xs else x :: insertEntry e xs

def Thread.groupKey (t : Thread) : GroupKey := { slot := t.slot, grp := t.grp }

/-- The entries of a quarter from the oldest on, each with its eligible threads. `seen` names the groups whose leading
entry is an older one. -/
def State.eligibleFrom (s : State) (q : Quarter) (seen : List GroupKey) (es : List PcEntry) :
    List (PcEntry × List Thread) :=
  match es with
  | [] => []
  | e :: r =>
    let ms := s.members q e
    let w := match ms.find? s.free with
      | some t => s.wordFor t
      | none => .waits
    let el := ms.filter fun t => s.readyAt t w && (e.due || !seen.contains t.groupKey)
    (if el.isEmpty then [] else [(e, el)])
      ++ s.eligibleFrom q (seen ++ (ms.filter fun t => !t.parked).map Thread.groupKey) r

def State.eligibleEntries (s : State) (q : Quarter) : List (PcEntry × List Thread) :=
  s.eligibleFrom q [] (q.entries.foldl (fun acc e => insertEntry e acc) [])

/-- The first pick (Table 4.3a). -/
def firstPick (q : Quarter) (es : List (PcEntry × List Thread)) : Option (PcEntry × List Thread) :=
  match es.find? fun x => x.1.due with
  | some x => some x
  | none => match es.find? fun x => x.2.any fun t => q.holder = some t.groupKey with
    | some x => some x
    | none => es.head?

def insertLane (t : Thread) (ts : List Thread) : List Thread :=
  match ts with
  | [] => [t]
  | x :: xs => if t.tid.lane < x.tid.lane then t :: x :: xs else x :: insertLane t xs

/-- Per lane, the eligible thread of the lowest row, in increasing lane order (R162). -/
def laneGroup (ts : List Thread) : List Thread :=
  (ts.filter fun t => !ts.any fun x => x.tid.lane = t.tid.lane && x.tid.row < t.tid.row).foldl
    (fun acc t => insertLane t acc) []

def issueGroupOf (q : Quarter) (ts : List Thread) : Option IssueGroup :=
  match ts with
  | [] => none
  | t :: _ => some { core := q.core, qtr := q.qtr, lslot := t.lslot, pc := t.pc, threads := ts.map Thread.tid }

/-- The serial thread of an even cycle, when it is ready (R170). -/
def State.serialPick (s : State) (q : Quarter) : Option Thread :=
  if q.serial && q.serialClk % 2 = 0 then
    (q.serialT.bind s.thread?).filter fun t => s.readyAt t (s.wordFor t)
  else none

/-- The issue group that a quarter picks in this cycle. -/
def State.quarterPick (s : State) (q : Quarter) : Option IssueGroup :=
  match s.serialPick q with
  | some t => issueGroupOf q [t]
  | none => (firstPick q (s.eligibleEntries q)).bind fun x => issueGroupOf q (laneGroup x.2)

/-! ### The second pick (R163) -/

/-- A vector-unit instruction: F-form OP9 0x001-0x102, a P-form word, or I-form OP7 0x00-0x05. -/
def vecUnit (i : Instr) : Bool :=
  match form i with
  | .f op _ => 1 ≤ op && op ≤ 0x102
  | .p _ => true
  | .i op _ => op ≤ 5
  | _ => false

/-- Banks of the v registers that an instruction reads as sources: a directly named one counts in the bank of each register
it spans (DESIGN CHOICE, log 55: R163 speaks of its number alone), v[ix] in all four. A P word counts DA and B of both slots. -/
def bankUse (i : Instr) : List Nat :=
  let all := match form i with | .p _ => true | _ => false
  ((usesOf i).ops.filter fun o => all || !o.dst || o.also).flatMap fun o =>
    if isV o.code.toNat && o.kind ≠ .queueName then (List.range o.width).map fun j => (o.code.toNat + j) % 4
    else if isIx o.code.toNat then [0, 1, 2, 3] else []

/-- Two instructions and the lanes that issue them may share a cycle. -/
def mayPair (i j : Instr) (a b : List Nat) : Bool :=
  vecUnit i && vecUnit j && !(a.any fun l => b.contains l) && !((bankUse i).any fun k => (bankUse j).contains k)

/-- The issue group that the quarter of `g` may issue in one cycle with it: the pick among the remaining entries. -/
def State.secondPick (s : State) (g : IssueGroup) : Option IssueGroup :=
  let q := s.quarter g.core g.qtr
  if q.serial then none
  else
    let rest := (s.eligibleEntries q).filter fun x => !(x.1.lslot = g.lslot && x.1.pc = g.pc)
    (firstPick q rest).bind fun x =>
      let ts := laneGroup x.2
      match (g.threads.head?.bind s.thread?).map s.wordFor, ts.head?.map s.wordFor with
      | some (.word i), some (.word j) =>
        if mayPair i j (g.threads.map ThreadId.lane) (ts.map fun t => t.tid.lane) then issueGroupOf q ts else none
      | _, _ => none

/-! ### Events whose time has come -/

/-- The cycle of EXIT, for a thread that waits for its next item. -/
def Thread.exitedAt (t : Thread) : Option Nat := match t.wait with | .eng (.assign c) => some c | _ => none

def State.isSaving (s : State) (core slot : Nat) : Bool := s.saving.any fun y => (y.1, y.2.1) = (core, slot)

/-- The thread's assignment comes next in its team (R268), and its register writes are done (R189, R269). -/
def State.assignTurn (s : State) (t : Thread) : Bool :=
  match t.exitedAt with
  | none => false
  | some c => t.halt.isNone && (t.unf.all fun e => e.dst.isEmpty) && !s.isSaving t.tid.core t.slot && !(s.teamThreads t.tid.core t.slot).any fun x =>
      match x.exitedAt with
      | some d => d < c || (d = c && x.tidx < t.tidx)
      | none => false

/-- The word that a thread in WAIT waits on can be read again (R191). -/
def State.canReread (s : State) (t : Thread) : Bool :=
  match t.wait with
  | .poll _ => t.unf.any fun e => e.st = 0 && e.page.isNone && e.line.isNone && s.mayPerform t e && (match e.acc? with
    | some (i, _) => isWait i
    | none => false)
  | _ => false

/-- Events whose time has come, which go before all others, and which all happen before the next cycle: each of them leaves
this list when it happens. When no choice
is given, an assignment (R268) is made as soon as it can be. -/
def State.dueEvents (s : State) : List Instr :=
  (s.launches.filter Launch.expired).map (fun l => .watchdogExpire l.slot)
    ++ (s.quarters.flatMap fun q =>
      (if q.stampCtr ≥ 2 ^ 32 - 1 then [.stampRenumber q.core q.qtr] else [])
        ++ (q.entries.filter fun e => !e.due && (s.promise e.lslot).any fun n => e.wait ≥ n).map fun e =>
          .fairnessDue q.core q.qtr e.lslot e.pc)
    ++ (s.threads.filterMap fun t => match t.wait with
      | .nap u => if u ≤ s.issueClock (dieOf t.tid.core) then some (.napExpire t.tid) else none
      | .poll u => if u ≤ s.issueClock (dieOf t.tid.core) && s.canReread t then some (.waitReread t.tid) else none
      | _ => none)
    ++ (if s.choices.isEmpty then (s.threads.filter s.assignTurn).map fun t => .itemAssign t.tid else [])

/-! ### Time passes -/

/-- Cycles of a die's issue clock that the reference cycle which has just passed brought (R2). -/
def State.cyclesNow (s : State) (die : Nat) : Nat := s.issueClock die - { s with clock := s.clock - 1 }.issueClock die

/-- WAIT of the entries (R166), and the serial thread and clock (R170). -/
def State.tickQuarter (s : State) (q : Quarter) : Quarter :=
  let live := fun (t : ThreadId) => q.overflow.contains t && ((s.thread? t).map fun th => !th.parked && !th.idle).getD false
  let cur := match q.serialT.filter live with
    | some t => some t
    | none => q.overflow.find? live
  let cycles := s.cyclesNow (dieOf q.core)
  { q with
    entries := q.entries.map fun e =>
      if (s.promise e.lslot).isNone then { e with wait := 0 }
      else if (s.members q e).any fun t => !t.parked then { e with wait := min 0xFFFF (e.wait + cycles) }
      else e
    serialClk := if q.serial then q.serialClk + cycles else q.serialClk
    serialT := if q.serial then cur else none
    serialN := if q.serial && q.serialT = cur then q.serialN else 0 }

/-- The watchdog counter (R275, R310), and the dependence reads that are due again (R260). -/
def State.tickLaunch (s : State) (l : Launch) : Launch :=
  let live := (s.launchThreads l.slot).filter fun t => !t.idle
  let held := !live.isEmpty && live.all fun t =>
    match t.halt with | some .command | some .bkpt => true | _ => false
  { l with
    wdog := if l.phase = .running && !l.faulted && l.wdogLim ≠ 0 && !held && s.teams.any fun t => t.lslot = l.slot
            then l.wdog + 1 else l.wdog
    depDue := if l.phase = .waiting && s.clock % 2048 = 0 then l.depMet.map (!·) else l.depDue }

/-- A thread with a raised cause that waits for its handler puts what cannot finish before it into the replay queue (log 58).
A thread whose next word waits for accesses that wait for a page response enters FAULT, parked on each of them (R297). -/
def State.tickThread (s : State) (t : Thread) : Thread :=
  if t.pending.isSome && !t.handler && t.halt.isNone then { t with unf := s.heldEntries t false [] t.unf }
  else if s.free t && t.unf.any fun e => e.st = 1 && e.page.isSome then
    match s.wordFor t with
    | .word i =>
      let faulted := t.unf.filter fun e => e.st = 1 && e.page.isSome
      let holds := fun (e : Entry) => faulted.contains e && !wordReady s { t with unf := [e] } i
      if wordReady s { t with unf := faulted } i then t
      else { t with wait := .fault, unf := t.unf.map fun e => if holds e then { e with parks := true } else e }
    | _ => t
  else t

/-- Cycles for which a core's share of fault-parked groups has been reached (R299); the count is zero while a save that it
began goes on. -/
def State.tickCore (s : State) (c : CoreSt) : CoreSt :=
  { c with
    parkCount := if s.shareReached c.id && !(s.saving.any fun y => y.1 = c.id && y.2.2)
      then c.parkCount + s.cyclesNow (dieOf c.id) else 0 }

/-- What a cycle changes by itself in a running device. Arrivals at barriers are counted last (R183). -/
def State.tickUnits (s : State) : State :=
  (countArrivals.run { st := { s with
    threads := s.threads.map s.tickThread
    quarters := s.quarters.map s.tickQuarter
    launches := s.launches.map s.tickLaunch
    cores := s.cores.map s.tickCore } }).2.st

/-- One cycle passes, unless a second pick or an event whose time has come is still to be made in the present one. -/
def State.tick (s : State) : State :=
  if s.running && (s.second.isSome || !s.dueEvents.isEmpty) then s
  else
    let s := { s with clock := s.clock + 1 }
    if s.running then s.tickUnits else s

/-! ### Events of the device -/

/-- The event that takes an unfinished instruction further. -/
def Thread.entryEvent (t : Thread) (e : Entry) : Option Instr :=
  if e.st = 0 && !e.queued && e.page.isNone && e.line.isNone && e.val.isNone then
    match e.instr? with
    | none => none
    | some i =>
      if isWait i || (mArgs i).isSome then none
      else if isCopyOp i then some (.copyAccept t.tid)
      else if isKvOp i then some (.kvPacketAccept t.tid)
      else match i with
        | .accrd _ => some (.accrdRead t.tid)
        | _ => some (.accessReply t.tid e.id)
  else none

def State.threadEvents (s : State) (t : Thread) : List Instr :=
  (if t.takesKv || (t.pending.isSome && t.halt.isNone && (t.handler || t.settled)) then [.trapEntry t.tid] else [])
    ++ (if s.canReread t then [.waitReread t.tid] else [])
    ++ (if s.assignTurn t then [.itemAssign t.tid] else [])
    ++ (if t.resumesReplay then [.accessReply t.tid 0] else [])
    ++ t.unf.filterMap t.entryEvent

def State.teamEvents (s : State) (tm : Team) : List Instr :=
  ((tm.cvs.filter fun x => x.op.isSome && x.full).map fun x =>
      .matrixQueueIssue tm.core tm.slot x.cv x.qtr)
    ++ (if s.mayRetire tm then [.teamRetire tm.core tm.slot] else [])
    ++ (if s.isSaving tm.core tm.slot && (s.savesWith tm).all fun x => s.enginesSettled x.core x.slot then [.teamSave tm.core tm.slot] else [])

def copyEvent (core : Nat) (c : CopyCmd) : Option Instr :=
  if c.wait.isSome || c.line.isSome then none
  else match c.job with
    | .list l none => if l.next < l.n then some (.tkickRecordStart core c.idx) else none
    | .tile _ _ | .list _ (some _) => some (if c.ended then .copyRetire core c.idx else .copyTransfer core c.idx)
    | .kv a =>
      if c.ended then some (.copyRetire core c.idx)
      else if a.stop.isNone then some (.kvBlockWrite core c.idx)
      else if a.tag.isNone then some (.kvFaultRecord core c.idx) else none
    | .kvcopy a =>
      if c.ended then some (.copyRetire core c.idx)
      else if a.stop.isNone then some (.copyTransfer core c.idx)
      else if a.tag.isNone then some (.kvFaultRecord core c.idx) else none

def State.coreEvents (s : State) (c : CoreSt) : List Instr :=
  ((c.red.map fun r => r.addr / 128).eraseDups.map fun l => .redMerge c.id l)
    ++ (c.subs.filterMap fun u =>
      if !u.ready then some (.subscrMirrorComplete c.id u.handle)
      else if u.live && u.early.any fun e => e.seq = (u.seq + 1) % 2 ^ 32 then some (.subUpdateApply c.id u.handle)
      else none)
    ++ (((List.range c.sendBuf.length).filter fun k => (c.sendable k).any s.msgReady).map fun k => .msgDeliver c.id k)
    ++ (if c.frozen then [] else c.copy.filterMap (copyEvent c.id))
    ++ (if c.parkPct ≠ 0 && c.parkCount ≥ c.parkWin then [.parkedShareSwitch c.id] else [])
    ++ (if c.ungating then [.coreUngateDone c.id] else [])

def State.quarterEvents (s : State) (q : Quarter) : List Instr :=
  if (s.core q.core).frozen then []
  else (match s.nextStart q.core q.qtr with
      | some c => [.matrixStart q.core q.qtr c.idx]
      | none => [])
    ++ (q.mq.filter MCmd.running).map fun c => .matrixRetire q.core q.qtr c.idx

def State.dieEvents (s : State) (d : Die) : List Instr :=
  (if s.carveDrained d.id then [.carveSwitch d.id] else []) ++ (if d.pchange.isSome then [.pstateChangeDone d.id] else [])

def State.launchEvents (s : State) (l : Launch) : List Instr :=
  (((List.range 4).filter fun j => l.phase = .waiting && l.endWait.isNone && !(l.depMet[j]?).getD true
      && (l.depDue[j]?).getD false).map fun j => .depRead l.slot j)
    ++ (if l.mayBegin && !s.behind l then [.launchBegin l.slot] else [])
    ++ (if s.mayEnd l then [.launchEnd l.slot] else [])

def State.queueEvents (s : State) (q : QueueSt) : List Instr :=
  (if q.busy then [.qpushComplete q.q] else []) ++ (if s.mayTake q.q then [.takeRecord q.q] else [])

/-- A pod-wide domain's period is started by the coordinator (R408). -/
def State.domainEvents (s : State) (x : Domain) : List Instr :=
  (if x.en && x.gst = 0 && s.demandLeft x.d && (!x.pod || (s.coordinates && !x.podRun)) then [.gpStart x.d] else [])
    ++ (if x.gst = 1 then [.gpFlipDone x.d] else [])
    ++ (if x.gst = 2 && s.phaseQuiet x.d (!flag x.s.toNat 0) then [.gpComplete x.d] else [])
    ++ (if (s.eligible x.d).isSome then [.retireRelease x.d] else [])

/-- The re-placements and placements of a priority level (R253, R265, R279): the lowest saved team of a launch goes
first. -/
def State.placeEvents (s : State) (levels : List Nat) : List Instr :=
  match levels with
  | [] => []
  | v :: r =>
    let images := ((s.served v).filterMap fun l => s.nextImageOf l.slot).findSome? fun i =>
      let cosched := ((s.launch? i.lslot).map fun l => l.rcd.cosched).getD false
      let cs := if cosched then (if s.restorable i 0 then [0] else []) else allCores.filter (s.restorable i)
      if cs.isEmpty then none else some (cs.map fun c => Instr.teamRestore i.id c)
    match images with
    | some es => es
    | none => match s.nextPlacing v with
      | some (l, cs) => cs.map fun c => .placeTeam l.slot c
      | none => s.placeEvents r

/-- Everything the device can do next by itself, but for the issue of words. -/
def State.events (s : State) : List Instr :=
  s.threads.flatMap s.threadEvents ++ s.teams.flatMap s.teamEvents ++ s.cores.flatMap s.coreEvents
    ++ s.quarters.flatMap s.quarterEvents ++ s.dies.flatMap s.dieEvents ++ s.launches.flatMap s.launchEvents
    ++ s.queues.flatMap s.queueEvents ++ s.domains.flatMap s.domainEvents
    ++ (if s.preemptOver then [.preemptDone] else [])
    ++ (if s.invals.isEmpty then [] else [.invalidationCompletion])
    ++ (if s.choices.isEmpty then [] else s.hlc.map fun h => .hlcEvict h.line)
    ++ (if s.launches.isEmpty then [] else s.placeEvents (List.range 4))

/-- Events from outside the device that a stopped device still meets (R492, R493, R495). -/
def meetsStopped (s : State) (i : Instr) : Bool :=
  match i with
  | .conventionalReset _ _ => true
  | .powerLoss | .securityAlarm _ | .thermalWarning _ | .thermalTrip _ | .portDown _ | .portUp _ | .softError _ _ =>
    s.sec.powered
  | .hostMemAccess _ _ => s.sec.powered && (s.sec.locked || s.thermTrip)
  | _ => false

/-! ### The choice -/

/-- What a step may do: meet the next event from outside, issue a word in a quarter, let an event of the device happen, let a
line leave an L1, or make no second pick. -/
inductive Cand where
  | inbox
  | issue (g : IssueGroup)
  | event (i : Instr)
  | evict (core line : Nat)
  | pass
deriving DecidableEq, Repr

/-- The lines that a core may copy back and drop at a moment of its own (R117, R120); the device need never do so. -/
def State.evictions (s : State) : List Cand :=
  if s.choices.isEmpty then [] else s.cores.flatMap fun c => c.l1.map fun l => .evict c.id l.line

def State.candidates (s : State) : List Cand :=
  let box := if s.inbox.isEmpty then [] else [Cand.inbox]
  if !s.running then box
  else match s.second, s.dueEvents with
    | some g, _ => [.issue g, .pass]
    | none, e :: _ => [.event e]
    | none, [] => (s.quarters.filterMap s.quarterPick).map Cand.issue ++ box ++ s.events.map Cand.event ++ s.evictions

/-- What a step does: an instruction or device step in a state, or nothing more than the state says. -/
inductive Action where
  | exec (i : Instr) (s : State)
  | done (s : State)
deriving DecidableEq, Repr

/-- The issue group, noted in the state: a serial thread that has issued 64 instructions goes to the tail (R170), and after
a first pick the second of the cycle is known (R163). -/
def State.withGroup (s : State) (g : IssueGroup) : State :=
  { s with
    cur := g
    second := if s.second.isSome then none else s.secondPick g
    quarters := s.quarters.map fun q =>
      if q.core = g.core && q.qtr = g.qtr then
        match q.serialT with
        | some t =>
          if g.threads = [t] && q.overflow.contains t then
            if q.serialN + 1 ≥ 64 then { q with overflow := q.overflow.erase t ++ [t], serialT := none, serialN := 0 }
            else { q with serialN := q.serialN + 1 }
          else q
        | none => q
      else q }

/-- The threads of a group whose fetch did not complete wait, or raise the cause (R33, R225, R226). -/
def stopFetch (ts : List Thread) (x : Stop) : W Unit := do
  for t in ts do
    match ← fetchStop t.tid x with
    | some c => raise t.tid c false t.pc
    | none => pure ()

/-- Issue a group: fetch its word, decode it with the accepted features, and execute it (R22, R52, R164). Where the fetch
stops, nothing issues and WAIT and DUE stand (R166). -/
def State.issueGroup (s : State) (g : IssueGroup) : Action :=
  let s0 := { s with cur := g, second := none }
  let s := s.withGroup g
  match s.curThreads with
  | [] => .done s
  | t :: ts =>
    let r := (fetchAt t g.pc).run.run { st := s }
    match r.1 with
    | .ok w => match decodeFor s.features w with
      | .ok i => .exec i (finish s r.2)
      | .error e => .exec (.illegalWord e.code) (finish s r.2)
    | .error x =>
      let w := ((fetchAt t g.pc).run.run { st := s0 }).2
      .done (finish s0 ((stopFetch ((t :: ts).filter fun y => y.fetchRetry = t.fetchRetry) x) w).2)

/-- Carry a candidate out. -/
def State.perform (s : State) (c : Cand) : Action :=
  match c with
  | .event i => .exec i s
  | .issue g => s.issueGroup g
  | .pass => .done { s with second := none }
  | .evict core line => .done (finish s ((flushSpan core (128 * line) 128 0 : P Unit).run { st := s }).2)
  | .inbox =>
    match s.inbox with
    | [] => .done s
    | i :: r =>
      let s' := { s with inbox := r }
      if s.running || meetsStopped s i then .exec i s' else .done s'

/-- The next action: one of the candidates, as the head of `choices` says, else one candidate after another (log 4). -/
def State.action (s : State) : Action :=
  let cs := s.candidates
  match cs with
  | [] => .done s
  | [c] => s.perform c
  | c0 :: _ =>
    match s.choices with
    | k :: ks => State.perform { s with choices := ks } ((cs[k % cs.length]?).getD c0)
    | [] => s.perform ((cs[s.clock % cs.length]?).getD c0)

end Sys2Proof.Machine
end

