-- ==== Sys2Proof/Machine/Loader.lean ====
section
/-!
DEFINITION. A program placed by hand: the state in which a resident thread stands at a given word, with everything that
the steps from reset to that point would have set up (assumption log 3).
-/
namespace Sys2Proof.Machine.Loader

/-- Kernel descriptor address of the placed launch, on the page that the TLB entry maps. -/
def kdesc : DWord := 0x1000

def desc : Desc :=
  { refill := 0x80, trapvec := 0x20, tv := true, prom := false, nq := 8, gw := 8, teamSize := 8, carve := 2, fair := 512
    scratch := 0x10000, roles := [{ gran := 8, decl := 64, thr := 8 }], cv := List.replicate 16 (3, 0) }

def record : Record :=
  { kdesc, args := 0, items := 1, teams := 1, launchId := 0, pasid := 1, wdog := 0, cosched := false, serial := false
    diemask := 0xFFFF, maxcores := 512, cc := 0, ccinc := 0, dep := List.replicate 4 (0, 0), status := 0, teammap := 0 }

/-- A running launch whose one team is placed and whose one item is assigned. -/
def launch : Launch :=
  { slot := 0, queue := 0, order := 1, rcd := record, desc := some desc, phase := .running
    depMet := List.replicate 4 true, depDue := List.replicate 4 false, next := 1, placed := 1 }

def spot : Spot := { core := 0, slot := 0, base := 0, runs := [{ qtr := 0, row := 0, base := 0, w := 8, gran := 8 }] }

/-- Lane 0 of the team's group is live, the other lanes found no item. -/
def thread (k : Nat) : Thread := { Thread.fresh launch desc spot k with idle := k ≠ 0 }

def quarter : Quarter :=
  { core := 0, qtr := 0, entries := [{ lslot := 0, pc := kdesc + 0x80, stamp := 1 }], stampCtr := 1 }

/-- Physical address of the placed word. -/
def wordAt : Nat := 0x1080

/-- The eight bytes of the word stored from address `a` on. -/
def putBytes (gen : Nat) (m : List Host.Cell) (a : Nat) (bs : List Byte) : List Host.Cell :=
  match bs with
  | [] => m
  | b :: r => putBytes gen (memPut (memDefault gen a) m a b) (a + 1) r

/-- The state with the word placed, so that the next step fetches it. -/
def place (s : State) (w : Nat) : State :=
  { s with
    mem := putBytes s.sec.keyGen s.mem wordAt (leBytes 8 w)
    poison := s.poison.filter fun p => !(p < wordAt + 8 && wordAt < p + 4)
    sec := { s.sec with ready := true, powered := true, locked := false }
    thermTrip := false, featacc := 0x7F, featDone := true
    launches := [launch], queues := [], teams := [Team.fresh launch desc 0 spot], groups := [Group.fresh launch spot 0]
    threads := (List.range 8).map thread, quarters := [quarter], cores := [], dies := [], images := [], saving := []
    preempt := none, retire := [], domains := [], invals := [], hlc := [], inbox := [], second := none
    tlb := [{ tlb := .die 0, pasid := 1, vpn := 1, tr := { target := .dev 0x1000, r := true, w := true, x := true } }] }

end Sys2Proof.Machine.Loader
end

