-- ==== Sys2Proof/Machine/Step.lean ====
section
/-!
DEFINITION. One step of the machine: a cycle passes, one candidate is chosen, and its instruction or device step is
executed (assumption log 4, 6).
-/
namespace Sys2Proof.Machine

def step (s : State) : Host.Outcome State Fault Refusal :=
  match s.tick.action with
  | .exec i t => exec i t
  | .done t => .next t

/-- The instruction's word placed where the next step fetches (assumption log 3). -/
def State.withFetchWord (s : State) (nbits w : Nat) : State := Loader.place s (w % 2 ^ nbits)

end Sys2Proof.Machine
end

