-- ==== Sys2Proof/Safety.lean ====
section
/-!
DEFINITION. What counts as a safe run, and the terms in which statements about steps are made: memory and registers that
stay as they are, and the state a lone thread issues a word in.
-/
namespace Sys2Proof.Machine

/-! ### Safe runs -/

/-- The invariant of every state: memory is in canonical form. -/
def State.Inv (s : State) : Prop := s.memOk = true

/-- A step goes on. -/
def goesOn (o : Host.Outcome State Fault Refusal) : Bool := match o with | .next _ => true | _ => false

/-- A run of `k` steps is safe when no step of it stops. -/
def safeRun (k : Nat) (s : State) : Bool :=
  match k with
  | 0 => true
  | k + 1 => match step s with | .next t => safeRun k t | _ => false

/-- No launch queue is in the state that R249 leaves undefined. -/
def State.queuesDefined (s : State) : Prop := ∀ q, (s.queue q).undef = false

/-! ### What a step leaves as it is -/

/-- Every byte of memory reads as before. -/
def SameMemory (s t : State) : Prop := ∀ a, t.byte a = s.byte a
/-- Every byte outside [a, a + n) reads as before. -/
def SameMemoryBut (s t : State) (a n : Nat) : Prop := ∀ x, (x < a ∨ a + n ≤ x) → t.byte x = s.byte x

/-- A thread without its PC, its wait state, and the bookkeeping of issue: every register, replay entry and item of it. -/
def Thread.registers (x : Thread) : Thread :=
  { x with pc := 0, wait := .ready, windows := [], halt := none, stepping := false }

/-- A state without its threads, groups, quarters, FLTLOC and messages to the host. -/
def State.bare (s : State) : State := { s with threads := [], groups := [], quarters := [], fltloc := 0, hostOut := [], choices := [] }

/-- What a quarter holds but for its PC table: the token, the tiles and the matrix queue. -/
def Quarter.engine (q : Quarter) : Quarter :=
  { q with entries := [], overflow := [], serial := false, serialClk := 0, serialN := 0, serialT := none, stampCtr := 0 }

/-- Every quarter keeps its token, its tiles and its matrix queue. -/
def SameEngines (s t : State) : Prop := ∀ c q, (t.quarter c q).engine = (s.quarter c q).engine

/-- Everything but threads, groups and the PC tables of quarters is as before. -/
def SameRest (s t : State) : Prop :=
  t.bare = s.bare ∧ t.fltloc = s.fltloc ∧ t.hostOut = s.hostOut ∧ SameEngines s t

/-- Every other thread keeps its record. -/
def OthersSame (s t : State) (u : ThreadId) : Prop := ∀ v, v ≠ u → t.thread? v = s.thread? v

/-! ### A lone thread -/

/-- The issue group is the one thread `th`: it may issue `i` now, for its guard is true, no check of R53 raises a cause, and
no operand names a queue. -/
structure Solo (i : Instr) (s : State) (th : Thread) : Prop where
  alone : s.cur.threads = [th.tid]
  one   : s.threads.filter (fun x => x.tid = th.tid) = [th]
  legal : decodeCause s i (usesOf i) th = none
  on    : guardTrue (guardOf i) th = true
  runs  : runCause s i (usesOf i) th = none
  noQ   : (usesOf i).pops = [] ∧ (usesOf i).pushes = []
  place : s.cur.core = th.tid.core ∧ s.cur.qtr = th.tid.qtr ∧ s.cur.lslot = th.lslot ∧ s.cur.pc = th.pc
  grp   : th.grp < 512
  ready : th.wait = .ready
  calm  : th.pending = none
  -- a group shares the results of one cycle's issue (R165): no instruction of this cycle is unfinished
  fresh : ∀ x ∈ s.threads, ∀ e ∈ x.unf, e.tag ≠ s.clock

/-- Values of the source operands of `i` for a thread. -/
def Solo.values (i : Instr) (s : State) (th : Thread) : List Nat := readSources s th (usesOf i).ops []

/-- A thread's record after it has issued `i` and stands at `pc`: the lookahead windows, and a single step done. -/
def Thread.issued (x : Thread) (i : Instr) (pc : DWord) : Thread :=
  { x with
    pc
    windows := stepWindows (laOf i) (some { left := laOf i, reads := (usesOf i).reads x, writes := (usesOf i).writes x })
      x.windows
    halt := if x.stepping && x.halt.isNone then some .command else x.halt
    stepping := false }

/-- The registers that an instruction's destination operands name. -/
def destOf (i : Instr) (th : Thread) : List RegRef := (usesOf i).ops.flatMap fun o => if o.dst then o.regs th else []

/-- A thread after the v registers among `dst` have received `vals`. -/
def Thread.received (x : Thread) (dst : List RegRef) (vals : List Word) : Thread :=
  { x with v := if dst.all RegRef.isV then writeRefs x.v dst vals else x.v }

/-- The groups after the s and h registers among `dst` of a thread's group have received `vals`. -/
def State.groupsWith (s : State) (th : Thread) (dst : List RegRef) (vals : List Word) : List Group :=
  if dst.all RegRef.isV then s.groups
  else s.groups.map fun g =>
    if g.core = th.tid.core && g.slot = th.slot && g.grp = th.grp then writeRefsG g dst vals else g

end Sys2Proof.Machine
end

