-- ==== Sys2Proof/Certificates/Slice0/Obligations.lean ====
section
/-!
DEFINITION. The statements for the provers: what the spec's rules say of the machine, over the model's own `exec` and `step`.
-/
open Sys2Proof Sys2Proof.Machine

namespace Sys2Proof.Machine

/-! ### Terms of the statements -/

/-- An instruction word; the other constructors are steps of the device. -/
def isWord (i : Instr) : Bool := match form i with | .step => false | _ => true

/-- The launch of a thread has a trap handler (descriptor bit TV), and its entry point (R291 step 4). -/
def State.hasHandler (s : State) (th : Thread) : Bool := (((s.launch? th.lslot).bind Launch.desc).map Desc.tv).getD false
def State.handlerPc (s : State) (th : Thread) : DWord :=
  s.kdescOf th.lslot + BitVec.ofNat 64 (8 * (((s.launch? th.lslot).bind Launch.desc).map Desc.trapvec).getD 0)

/-- The groups with a thread's lane set or cleared in cause mask `k` of its group (R286). -/
def State.maskedGroups (s : State) (th : Thread) (k : Nat) (v : Bool) : List Group :=
  s.groups.map fun g =>
    if g.core = th.tid.core && g.slot = th.slot && g.grp = th.grp then
      { g with masks := g.masks.mapIdx fun j m =>
          if j = k then (if v then m ||| (1#64 <<< th.rel) else m &&& ~~~(1#64 <<< th.rel)) else m }
    else g

/-- A thread that can take a raised cause now: it is live, issuing, and none of its instructions is still to finish (R291). -/
structure Trappable (s : State) (th : Thread) : Prop where
  one     : s.threads.filter (fun x => x.tid = th.tid) = [th]
  calm    : th.pending = none
  going   : th.halt = none
  live    : th.idle = false
  settled : th.settled = true

/-- What entering the handler makes of a thread's record (R291 steps 1 to 4). A wait that a handler interrupts is kept for
RETT (the model's choice, log 35). -/
def Thread.inHandler (th : Thread) (tpc entry : DWord) : Thread :=
  { th with windows := [], tq := false, dbl := false, nestin := BitVec.ofNat 8 th.nest, tpc, pending := none
            handler := true, wait := .ready, resume := .ready, outer := if th.wait.kept then th.wait else th.resume
            pc := entry }

/-- FLTLOC after a thread halted under R289 or R290 (R308, Table 8.8). -/
def fltlocOf (th : Thread) (dbl : Bool) : Word :=
  BitVec.ofNat 32 (2 ^ 31 + dbl.toNat * 2 ^ 30 + th.tid.core / 32 * 2 ^ 26 + th.tid.core % 32 * 2 ^ 21
    + th.tid.qtr * 2 ^ 19 + th.tid.row * 2 ^ 14 + th.tid.lane * 2 ^ 8 + th.lslot % 256)

/-- No thread waits for an action that `t` carries out for its group (R497). -/
abbrev State.noFollowers (s : State) (t : ThreadId) : Prop := ∀ x ∈ s.threads, ∀ id, x.waitsActing t id = false

/-- A lone thread after an instruction that gives `vals` to its destination registers and changes nothing else of it. -/
def Thread.completed (th : Thread) (s : State) (i : Instr) (vals : List Word) : Thread :=
  (th.issued i (s.cur.pc + 8)).received (destOf i th) vals

/-- The instruction completed for a lone thread: its destination registers hold `vals`, every other thread is as before. -/
def Wrote (s t : State) (i : Instr) (th : Thread) (vals : List Word) : Prop :=
  t.thread? th.tid = some (th.completed s i vals) ∧ t.groups = s.groupsWith th (destOf i th) vals ∧ OthersSame s t th.tid

/-- No destination operand of the instruction names a queue. -/
def noQueueDest (i : Instr) (th : Thread) : Prop := ∀ k, RegRef.q k ∉ destOf i th


/-- The bytes of [a, a + n) as a little-endian value (R16). -/
def State.value (s : State) (a n : Nat) : Nat := leValue ((List.range n).map fun k => s.byte (a + k))

/-- A span of device memory that nothing stands in the way of: no half of it is held by the host (R215), no reduction buffer
holds contributions (R204), no word of it is poisoned. -/
structure PlainMemory (s : State) (a n : Nat) : Prop where
  dev    : a + n ≤ 2 ^ 40
  noHost : s.hostHeld = []
  noRed  : ∀ c ∈ s.cores, c.red = []
  clean  : s.poisoned a n = false

/-- A lone thread goes to `pc` and nothing else changes. -/
def GoesTo (s t : State) (i : Instr) (th : Thread) (pc : DWord) : Prop :=
  t.thread? th.tid = some (th.issued i pc) ∧ t.groups = s.groups ∧ OthersSame s t th.tid ∧ SameRest s t

/-- A lone thread takes cause `k` (bit `k` of Table 8.1) at its word. -/
def TakesCause (s t : State) (th : Thread) (k : Nat) : Prop :=
  t.thread? th.tid = some (th.inHandler s.cur.pc (s.handlerPc th)) ∧ t.groups = s.maskedGroups th k true ∧
    OthersSame s t th.tid

/-- A barrier after one more arrival with thread count `n` (R183), before its phase is tested. -/
def Bar.arrived (x : Bar) (n : Nat) : Bar :=
  if x.arrivals = 0 then { x with arrivals := 1, target := n, auto := n = 0 } else { x with arrivals := x.arrivals + 1 }
/-- The phase is complete when its arrivals reach the count, or every live thread of the team for count 0. -/
def Bar.complete (x : Bar) (live : Nat) : Bool := decide ((if x.auto then live else x.target) ≤ x.arrivals)


/-- A memory instruction of a lone thread as the load-store unit receives it: its operands captured (R295). -/
def memEntry (i : Instr) (s : State) (th : Thread) : Entry := newEntry s i th (captureMem i s th (Solo.values i s th))
/-- Its effective address: a generic address, a scratchpad offset, or a peer address (R110 to R112). -/
def eaOf (i : Instr) (s : State) (th : Thread) : DWord := (memEntry i s th).d 0
/-- The bytes a store, or the last operand of an RMW, gives (R142, R146). -/
def dataOf (i : Instr) (s : State) (th : Thread) (n : Nat) : Nat := (memEntry i s th).data 2 n

/-- Where an access goes when it is allowed and aligned (R110 to R114, R142): the physical address, through the translation
of its first and last byte for a generic address, the team's own scratchpad, or a peer's. -/
def State.targetOf (s : State) (th : Thread) (a : Acc) (ea : DWord) : Option Target :=
  let core := th.tid.core
  let n := a.size
  let x := ea.toNat
  match a.space with
  | 0 =>
    let i : Intent := if a.writes then .write else .read
    match s.trans (.core core) (s.pasidOf th.lslot) x i,
        s.trans (.core core) (s.pasidOf th.lslot) (ea + BitVec.ofNat 64 (n - 1)).toNat i with
    | .ok pa, .ok _ => if canonical x && x % a.align = 0 && pa + n ≤ 2 ^ 42 then some { pa, place := .device } else none
    | _, _ => none
  | 1 => (s.team? core th.slot).bind fun tm =>
    let o := sgn 64 x
    let pa := scratchBase core + tm.base + o.toNat
    if 0 ≤ o && o + n ≤ tm.scratch && x % a.align = 0 && !(a.writes && s.protectedAt core (tm.base + o.toNat) n true)
        && pa + n ≤ hostBase then some { pa, place := .own }
    else none
  | _ =>
    let c := x / 2 ^ 32 % 512
    let o := x % 2 ^ 32
    if x / 2 ^ 41 = 0 && o + n ≤ 2 ^ 32 && x % a.align = 0 && !(a.writes && s.protectedAt c o n false)
        && s.teams.any fun t => t.core = c && t.lslot = th.lslot && t.base ≤ o && o + n ≤ t.base + t.scratch then
      some { pa := scratchBase c + o, place := .peer }
    else none

/-- Nothing stands in the way of a lone thread's accesses: none of its earlier instructions is unfinished, no reduction
buffer holds contributions, no range is subscribed or registered, the host holds no half, no row of a KVAPP is on its way to
the other dies (R434), and no choice of the device is given. -/
structure CalmAccess (s : State) (th : Thread) : Prop where
  idle   : th.unf = []
  cores  : ∀ c ∈ s.cores, c.red = [] ∧ c.subs = [] ∧ c.ranges = []
  noHost : s.hostHeld = []
  plain  : s.choices = []
  noLag  : s.lag = []

/-- No word that holds a byte of [a, a + n) is poisoned. -/
abbrev State.cleanSpan (s : State) (a n : Nat) : Prop := ∀ p ∈ s.poison, p + 8 ≤ a ∨ a + n + 4 ≤ p

/-- The bytes of [a, a + n). -/
def State.bytesAt (s : State) (a n : Nat) : List Byte := (List.range n).map fun k => s.byte (a + k)

/-- The byte that a core's L1 holds of an address, if it holds its word. -/
def CoreSt.l1Byte? (c : CoreSt) (a : Nat) : Option Byte :=
  (c.l1Word? (a / 4 * 4)).map fun x => (leBytes 4 x.1.toNat)[a % 4]?.getD 0

/-- Everything but threads, groups, PC tables and cores is as before. -/
def SameButCores (s t : State) : Prop :=
  { t.bare with cores := [] } = { s.bare with cores := [] } ∧ t.fltloc = s.fltloc ∧ t.hostOut = s.hostOut ∧ SameEngines s t


/-- An engine instruction of a lone thread as its unit receives it (R295). -/
def engEntry (i : Instr) (s : State) (th : Thread) : Entry := newEntry s i th (captureE i s th (Solo.values i s th))

/-- Nothing stands in an engine's way: no core holds L1 words, contributions or subscriptions, the host holds no half, no
row of a KVAPP is on its way to the other dies (R434), and no choice of the device is given. -/
structure EngCalm (s : State) : Prop where
  cores  : ∀ c ∈ s.cores, c.red = [] ∧ c.subs = [] ∧ c.l1 = []
  noHost : s.hostHeld = []
  plain  : s.choices = []
  mem    : s.memOk = true
  noLag  : s.lag = []

/-- A lone thread goes on after an engine has taken its instruction: nothing of the thread or of its group changes. -/
def GoesOn (s t : State) (i : Instr) (th : Thread) : Prop :=
  t.thread? th.tid = some (th.issued i (s.cur.pc + 8)) ∧ t.groups = s.groups ∧ OthersSame s t th.tid

/-- A copy command passes the checks of R347: its shape record, its spans, its addresses. -/
structure TileOk (s : State) (x : Eng) (a : CopyArgs) (h : Shape) (pa : Nat) : Prop where
  addr  : a.shape.toNat % 64 = 0 ∧ canonical a.shape.toNat = true
  read  : s.trans (.die (dieOf x.core)) x.pasid a.shape.toNat .read = .ok pa
  there : pa + 64 ≤ 2 ^ 42 ∧ s.cleanSpan pa 64
  shape : parseShape (s.value pa 64) = h ∧ shapeOk (s.value pa 64) h = true
  split : h.split = true → s.feature 6 = true
  mode  : (a.opc = 2 → h.tr = false) ∧ (a.opc ≠ 2 → winK a % 32 = 0)
  tile  : s.badSpan x a.soff h.span h.align = false
  obj   : s.badSpan x a.comp 16 16 = false
  idxs  : a.opc = 2 → s.badSpan x (fld a.arg.toNat 0 32) (4 * h.trows) 4 = false
  base  : canonical a.gaddr.toNat = true ∧ (h.fmt ≤ 5 → a.gaddr.toNat % fmtSize h.fmt = 0)
  vault : (baseVault x a h { st := s }).1 = false

/-- A completion object can count `n` more bytes and one more command (R341). -/
abbrev State.objectRoom (s : State) (x : Eng) (off n : Nat) : Prop :=
  s.value (x.spa off) 4 + n ≤ 2 ^ 31 - 1 ∧ s.value (x.spa (off + 4)) 4 % 2 ^ 16 < 0xFFFF
/-- It counts them, and nothing else of memory has changed. -/
def Armed (s t : State) (x : Eng) (off n : Nat) : Prop :=
  t.value (x.spa off) 4 = s.value (x.spa off) 4 + n ∧
  t.value (x.spa (off + 4)) 4 =
    s.value (x.spa (off + 4)) 4 / 2 ^ 30 * 2 ^ 30 + s.value (x.spa (off + 4)) 4 % 2 ^ 16 + 1 ∧
  SameMemoryBut s t (x.spa off) 8

/-- The range entry that covers a request list (R343, R354). -/
def listSpan (x : Eng) (l : ListArgs) (idx : Nat) : RangeEntry :=
  { base := x.base + l.off, len := 64 * l.n, owner := x.slot, eng := 0, spc := 1, dst := false, tag := idx }

end Sys2Proof.Machine

/-! ### Spec 01: words and instructions; the step -/

/-- Decode of encode: every well-formed instruction word, with every operand at every value its encoding admits, decodes to
itself, from the 64-bit word (R22, R23, R26, R28, R32, R35) and from its eight little-endian bytes (R16). -/
def Claims.EncodedWordsDecodeToThemselves : Prop :=
  ∀ (i : Instr) (w : DWord), i.wf = true → encode i = some w →
    decodeWord w = .ok i ∧ ∀ rest, decodeBytes (leBytes 8 w.toNat ++ rest) = .ok (i, rest)

/-- Encode of decode: a word that decodes is the encoding of a well-formed instruction, and of that one only, so no bit of
it is dropped; every instruction word that is well formed has an encoding. -/
def Claims.EveryWordHasOneReading : Prop :=
  (∀ (i : Instr) (w : DWord), decodeWord w = .ok i → i.wf = true ∧ isWord i = true ∧ encode i = some w) ∧
  ∀ i : Instr, (encode i).isSome = isWord i

/-- Decode of encode is the instruction, and encode of decode is the word, for every instruction word: the claims named here
hold together. -/
def Obligations.EncodingAndDecodingAgree : Prop :=
  Claims.EncodedWordsDecodeToThemselves ∧
  Claims.EveryWordHasOneReading

/-- Words written out from the tables of spec 01: an F-form, an F-form with the memory layout, an I-form, a P-form and an
E-form word, the zero word, a word of an unassigned opcode, and one with a bit in a reserved field. -/
def Obligations.SampleWordsDecodeAsTheTablesSay : Prop :=
  -- IADD.b32 v3, v1, v2
  decodeWord 0x0020003008080000#64 = .ok (.iadd
    { la := 0, g := ⟨false, 0⟩, d := 3, a := 1, b := 2, c := 0, ty := .b32, rnd := .rne, f2 := false, f1 := false, f0 := false }) ∧
  -- LDS.i8 v4, [v2 + v5], acq, scope die, guarded by not p1
  decodeWord 0x3041204010140192#64 = .ok (.lds
    { la := 0, g := ⟨true, 1⟩, d := 4, a := 2, b := 5, c := 0, ty := .i8, order := .acq, scope := .die }) ∧
  -- BRA to the word before it, guarded by p1
  decodeWord 0x88080000FFFFFFFF#64 = .ok (.bra { g := ⟨false, 1⟩, d := 0, mod10 := 0, imm := 0xFFFFFFFF }) ∧
  -- PAIR IADD.b32 v1 += v2 | MOV v3, v4
  decodeWord 0x408040400b018100#64 = .ok (.pairWord {
    slot0 := { op := .iadd, da := 1, b := 2, ty := .b32, rnd := .rne, f0 := false },
    slot1 := { op := .mov, da := 3, b := 4, ty := .b32, rnd := .rne, f0 := false } }) ∧
  -- TRAP 5
  decodeWord 0xDC00005000000000#64 = .ok (.trap
    { la := 0, g := ⟨false, 0⟩, fl := false, o1 := 5, o2 := 0, o3 := 0, o4 := 0, o5 := 0 }) ∧
  decodeWord 0#64 = .error .zero ∧ decodeWord 0x3FE0000000000000#64 = .error .opc ∧
  decodeWord 0x0020003008080200#64 = .error .rsvd

/-- A step runs the instruction that the bytes at the group's PC decode to, in the state in which the group is noted (R22,
R52, R164); a word that the decoder refuses is executed as an illegal word with its sub-code. `action` names the group a
step issues; with one candidate it is that candidate, and an event that is due, or the next one from outside, is executed
as it stands. (What a step is, which candidates it has and how it takes one, that a due event goes first, the free choices
and the queue of events from outside are logs 4, 6 and 8, DESIGN CHOICES: the model's, of which these rules say nothing.) -/
def Obligations.AStepRunsTheDecodedWord : Prop :=
  (∀ (s s' : State) (g : IssueGroup) (t : Thread) ts (pa : Nat), s.tick.action = s'.issueGroup g →
    (s'.withGroup g).curThreads = t :: ts → s'.threads.filter (fun x => x.tid = t.tid) = [t] → t.fetchRetry = 0 →
    (s'.withGroup g).trans (.core t.tid.core) (s'.pasidOf t.lslot) g.pc.toNat .exec = .ok pa → PlainMemory s' pa 8 →
    (∀ i, decodeFor s'.features (BitVec.ofNat 64 (s'.value pa 8)) = .ok i → step s = exec i (s'.withGroup g)) ∧
    (∀ e, decodeFor s'.features (BitVec.ofNat 64 (s'.value pa 8)) = .error e →
      step s = exec (.illegalWord e.code) (s'.withGroup g))) ∧
  (∀ (s : State) g, s.tick.candidates = [.issue g] → s.tick.action = s.tick.issueGroup g) ∧
  (∀ (s : State) c0 c1 cs k ks, s.tick.candidates = c0 :: c1 :: cs → s.choices = k :: ks →
    ∃ c ∈ s.tick.candidates, s.tick.action = State.perform { s.tick with choices := ks } c) ∧
  (∀ (s : State) e es, s.tick.running = true → s.tick.dueEvents = e :: es → step s = exec e s.tick) ∧
  (∀ (s : State) i r, s.tick.running = true → s.tick.candidates = [.inbox] → s.inbox = i :: r →
    step s = exec i { s.tick with inbox := r })

/-- Every step keeps memory in its canonical form: addresses rise strictly and no entry equals what its address reads as
when it is not listed. (This form is the model's own way to hold memory, logs 1 and 15, DESIGN CHOICES, and no rule of the spec;
what lies under it is byte-addressed memory, R16.) -/
def Obligations.EveryStepKeepsMemoryCanonical : Prop :=
  ∀ s t : State, s.memOk = true → step s = .next t → t.memOk = true

/-- Reset: memory is in its canonical form with nothing listed, nothing is resident, and every register of Tables 3.4, 4.2, 4.5,
5.2, 7.1, 7.2, 8.5, 8.7, 8.7a, 8.8, 9.6, 10.3, 10.4, 11.1, 11.3, 12.5, 12.9, 13.1, 14.3, 14.5 and 14.6 whose reset value its
table gives holds it (R18); DRVPASID is 0 (R306) and the clock reads 0 (R48). The tables 2.2, 4.4, 8.2, 8.3 and 11.2 are of
threads and teams, of which none exists at reset. (The values that the spec leaves open, log 2, are not stated here; that memory
nothing has written reads 0 is the model's own choice, log 1.) -/
def Obligations.ResetLeavesTheValuesOfTheTables : Prop :=
  let s := State.reset
  s.memOk = true ∧ (∀ a, s.byte a = 0) ∧ s.clock = 0 ∧
  s.threads = [] ∧ s.groups = [] ∧ s.teams = [] ∧ s.launches = [] ∧ s.images = [] ∧ s.colls = [] ∧ s.retire = [] ∧
  -- Tables 7.1, 7.2
  (∀ q, (s.queue q).qbase = 0 ∧ (s.queue q).qctl = 0 ∧ (s.queue q).tail = 0 ∧ (s.queue q).head = 0 ∧
    (s.queue q).fault = false ∧ (s.queue q).fcode = 0 ∧ (s.queue q).qpush = 0 ∧ (s.queue q).busy = false ∧
    (s.queue q).res = 0) ∧ s.lctl = 0 ∧
  -- Tables 4.2, 4.5, 10.3, 10.4 (no shadow is bound)
  (∀ c k, (s.quarter c k).entries = [] ∧ (s.quarter c k).holder = none ∧ (s.quarter c k).partner = none ∧
    (s.quarter c k).mq = [] ∧ (∀ t, ((s.quarter c k).tile t).owner = none ∧ ((s.quarter c k).tile t).ver = 0) ∧
    (s.quarter c k).shadows = []) ∧
  -- Tables 3.4, 9.6, 5.2, 8.7, 14.5 (CGSTAT)
  (∀ c, (s.core c).ranges = [] ∧ (s.core c).copy = [] ∧ (s.core c).ringDrop = 0 ∧ (s.core c).parkPct = 50 ∧
    (s.core c).parkWin = 20000 ∧ (s.core c).gated = false) ∧
  -- Tables 5.2, 14.5
  (∀ d, (s.die d).vapbase = 0 ∧ (s.die d).mask = 0 ∧ (s.die d).carve = none ∧ (s.die d).pcur = 3 ∧ (s.die d).preq = 3 ∧
    (s.die d).cgate = 0) ∧
  -- Tables 8.5, 8.7a, 8.8
  s.prectl = 0 ∧ s.prestat = 0 ∧ s.drvpasid = 0 ∧ s.fltloc = 0 ∧ s.dbgcmd = 0 ∧ s.dbgsel = 0 ∧
  -- Tables 11.1, 11.3
  s.rqbase = 0 ∧ s.podcfg = 0 ∧ s.podmask = 0 ∧ s.rqerr = 0 ∧ s.rqerrtag = 0 ∧
  (∀ d, (s.domain d).en = false ∧ (s.domain d).pod = false ∧ (s.domain d).s = 0 ∧ (s.domain d).c = 0 ∧
    (s.domain d).gst = 0) ∧
  -- Tables 12.5, 12.9, 13.1
  (∀ p, (s.pool p).cfg = 0 ∧ (s.pool p).count = 0 ∧ (s.pool p).head = 0) ∧
  s.kfqbase = 0 ∧ s.kfqctl = 4 ∧ s.kfqtail = 0 ∧ s.kfqhead = 0 ∧ s.kfqres = 0 ∧
  (∀ c k, s.linkEntry c k = { v := false, lup := false, pport := 0, seq := 0, pchip := 0 } ∧ s.linkUsable c k = false) ∧
  -- Tables 14.3, 14.5, 14.6
  s.devid.toNat / 2 ^ 16 = 0x4B16 ∧ s.devid.toNat % 2 ^ 8 = 0 ∧ s.sec.ready = false ∧ s.sec.fwver = 0 ∧ s.featacc = 0 ∧ s.featDone = false ∧
  s.thermTrip = false ∧ s.thermWarn = false ∧ s.warnt = 95 ∧ s.tmax = 0 ∧
  s.sec.polSet = false ∧ s.sec.policy = false ∧ s.sec.alarm = false ∧ s.sec.src = 0

/-- No step is refused, and the one fault is the launch queue that R249 leaves undefined: the four steps that reach such a
queue stop there, QTAIL_WRITE, QPUSH_COMPLETE and TAKE_RECORD on that queue, and a LAUNCH that comes to write its record into
it (R282: the record is readable, the queue is enabled for programs and has room). (That these four stop, and from when on, is
log 11, DEDUCED: R249 calls the queue's behaviour undefined.) -/
def Obligations.OnlyUndefinedQueuesStop : Prop :=
  (∀ (s : State) r, step s ≠ .refused r) ∧
  (∀ (i : Instr) (s : State) r, exec i s ≠ .refused r) ∧
  (∀ (i : Instr) (s : State) f, exec i s = .fault f → ∃ q, f = .queueUndefined q ∧ (s.queue q).undef = true) ∧
  (∀ (s : State) q, (s.queue q).undef = true → (∀ v, exec (.qtailWrite q v) s = .fault (.queueUndefined q)) ∧
    exec (.qpushComplete q) s = .fault (.queueUndefined q) ∧ exec (.takeRecord q) s = .fault (.queueUndefined q)) ∧
  ∀ (w : EWord) (s : State) (th : Thread) (pa : Nat), Solo (.launch w) s th → th.unf = [] → noQueueDest (.launch w) th →
    s.noFollowers th.tid → EngCalm s → (s.core th.tid.core).ranges = [] →
    let x := s.queue (w.o3.toNat % 64)
    let a := (engEntry (.launch w) s th).d 0
    a.toNat % 256 = 0 → canonical a.toNat = true → s.trans (.core th.tid.core) (s.pasidOf th.lslot) a.toNat .read = .ok pa →
    pa + 256 ≤ 2 ^ 42 → s.cleanSpan pa 256 → x.enabled = true → x.progen = true → x.count ≠ 2 ^ x.logsz → x.undef = true →
    exec (.launch w) s = .fault (.queueUndefined (w.o3.toNat % 64))

namespace Sys2Proof.Machine

/-- What an instruction of the vector unit, or a read of CSRs, replay entries or tile versions, gives an acting thread: a function of the
state, of the thread's own registers and of its source values in field order. -/
def vecRule (i : Instr) : Option (State → Thread → List Nat → Res) :=
  match i with
  | .iadd w => some fun _ _ v => res1 w.ty (evalIadd w.ty w.f0 (arg v 0) (arg v 1))
  | .isub w => some fun _ _ v => res1 w.ty (evalIsub w.ty w.f0 (arg v 0) (arg v 1))
  | .imul w => some fun _ _ v => res1 w.ty (evalImul w.ty (arg v 0) (arg v 1))
  | .imulhi w => some fun _ _ v => res1 w.ty (evalProduct w.ty (arg v 0) (arg v 1) / 2 ^ 32)
  | .imulw w => some fun _ _ v => res1 .b64 (evalProduct w.ty (arg v 0) (arg v 1))
  | .imad w => some fun _ _ v => res1 w.ty (evalImad w.ty w.f0 (arg v 0) (arg v 1) (arg v 2))
  | .imin w => some fun _ _ v => res1 w.ty (evalImin w.ty (arg v 0) (arg v 1))
  | .imax w => some fun _ _ v => res1 w.ty (evalImax w.ty (arg v 0) (arg v 1))
  | .iabsd w => some fun _ _ v => res1 w.ty (evalIabsd w.ty (arg v 0) (arg v 1))
  | .idot4 w => some fun _ _ v => res1 .b32 (evalIdot4 w.ty w.f0 (arg v 0) (arg v 1) (arg v 2))
  | .andW w => some fun _ _ v => res1 w.ty (arg v 0 &&& arg v 1)
  | .orW w => some fun _ _ v => res1 w.ty (arg v 0 ||| arg v 1)
  | .xorW w => some fun _ _ v => res1 w.ty (arg v 0 ^^^ arg v 1)
  | .andn w => some fun _ _ v => res1 w.ty (evalLogic 3 w.ty (arg v 0) (arg v 1))
  | .shl w => some fun _ _ v => res1 w.ty (evalShift 0 w.ty w.f0 (arg v 0) (arg v 1))
  | .shr w => some fun _ _ v => res1 w.ty (evalShift 1 w.ty w.f0 (arg v 0) (arg v 1))
  | .sar w => some fun _ _ v => res1 w.ty (evalShift 2 w.ty w.f0 (arg v 0) (arg v 1))
  | .fshf w => some fun _ _ v => res1 .b32 (evalFshf w.f0 w.f1 (arg v 0) (arg v 1) (arg v 2))
  | .bfe w => some fun _ _ v => res1 w.ty (evalBfe w.ty (arg v 0) (arg v 1) (arg v 2))
  | .bfi w => some fun _ _ v => res1 w.ty (evalBfi w.ty (arg v 0) (arg v 1) (arg v 2))
  | .popc w => some fun _ _ v => res1 .b32 (evalPopc (elW w.ty) (arg v 0))
  | .clz w => some fun _ _ v => res1 .b32 (evalClz (elW w.ty) (arg v 0))
  | .brev w => some fun _ _ v => res1 w.ty (evalBrev (elW w.ty) (arg v 0))
  | .prmt w => some fun _ _ v =>
    res1 .b32 (evalPrmt w.fl (arg v 0) (if w.fl = 3 then 0 else arg v 1) (arg v (if w.fl = 3 then 1 else 2)))
  | .isetp w => some fun _ th v =>
    { p := [(pn w.d, combine th w.c (intCond w.fl (elVal w.ty (arg v 0)) (elVal w.ty (arg v 1))))] }
  | .psetp w => some fun _ th _ =>
    { p := [(pn w.d, evalPsetp w.fl (predField th w.a) (predField th w.b) (predField th w.c))] }
  | .sel w => some fun _ th v => res1 w.ty (if predField th w.c then arg v 0 else arg v 1)
  | .mov w => some fun _ _ v => res1 w.ty (arg v 0)
  | .lea w => some fun _ _ v => res1 .b64 (evalLea w.ty w.fl (arg v 0) (arg v 1))
  | .iaddc w => some fun _ th v =>
    let x := evalIaddc w.f0 w.f1 (th.pred (pn w.c)) (arg v 0) (arg v 1)
    { res1 .b32 (x % 2 ^ 32) with p := [(pn w.c, flag x 32)] }
  | .movix w => some fun _ th v =>
    if w.f0 then res1 .b32 ((th.ix[w.a.toNat % 8]?).getD 0).toNat
    else { ix := [(w.d.toNat % 8, BitVec.ofNat 16
      ((if w.f1 then ((th.ix[w.d.toNat % 8]?).getD 0).toNat else 0) + arg v 0 + arg v 1))] }
  | .fadd w => some fun _ _ v => evalFadd w.ty w.rnd w.f0 (arg v 0) (arg v 1)
  | .fsub w => some fun _ _ v => evalFsub w.ty w.rnd w.f0 (arg v 0) (arg v 1)
  | .fmul w => some fun _ _ v => evalFmul w.ty w.rnd w.f0 (arg v 0) (arg v 1)
  | .ffma w => some fun _ _ v => evalFfma w.ty w.rnd w.f0 (arg v 0) (arg v 1) (arg v 2)
  | .fmin w => some fun _ _ v => evalFminmax w.ty true (arg v 0) (arg v 1)
  | .fmax w => some fun _ _ v => evalFminmax w.ty false (arg v 0) (arg v 1)
  | .fsgn w => some fun _ _ v => evalFsgn w.ty w.f0 w.f1 (arg v 0) (arg v 1)
  | .fsetp w => some fun _ th v =>
    let x := fsetpRes w.fl (Fmt.f32.read (arg v 0)) (Fmt.f32.read (arg v 1))
    { p := [(pn w.d, combine th w.c x.1)], fl := x.2 }
  | .fclass w => some fun _ _ v => evalFclass w.ty (arg v 0)
  | .frnd w => some fun _ _ v => evalFrnd w.ty w.rnd (arg v 0)
  | .fscale w => some fun _ _ v => evalFscale w.ty w.rnd (arg v 0) (arg v 1)
  | .fxtr w => some fun _ _ v => evalFxtr w.ty w.f0 (arg v 0)
  | .fdot2 w => some fun _ _ v => evalFdot2 w.ty w.rnd w.f0 (arg v 0) (arg v 1) (arg v 2)
  | .cvt w => some fun _ _ v => evalCvt (cvtSrc w) w.ty w.rnd w.f0 (arg v 0) (arg v 1)
  | .pack w => some fun _ _ v => res1 w.ty (evalPack w.ty w.f0 (arg v 0) (arg v 1))
  | .unpk w => some fun _ _ v => res1 (wideTy w.ty) (evalUnpk w.ty w.f0 (arg v 0))
  | .pairWord w => some fun _ _ v => evalPair w v
  | .movi w => some fun _ _ _ => res1 .b32 w.imm.toNat
  | .iaddi w => some fun _ _ v => res1 .b32 ((arg v 0 + w.imm.toNat) % 2 ^ 32)
  | .andi w => some fun _ _ v => res1 .b32 (arg v 0 &&& w.imm.toNat)
  | .ori w => some fun _ _ v => res1 .b32 (arg v 0 ||| w.imm.toNat)
  | .xori w => some fun _ _ v => res1 .b32 (arg v 0 ^^^ w.imm.toNat)
  | .isetpi w => some fun _ _ v =>
    let k := low 32 (sgn 23 (w.immBits 22 0))
    { p := [(pn w.d, if w.immBits 27 27 = 1 then intCond (w.immBits 31 28) (arg v 0 : Nat) (k : Nat)
      else intCond (w.immBits 31 28) (sgn 32 (arg v 0)) (sgn 32 k))] }
  | .csrrd w => some fun s th _ => res1 .b32 (s.csr th w.o2.toNat).toNat
  | .rqrd w => some fun _ th _ =>
    res1 .b32 (((th.replay[w.o2.toNat % 32]?).map fun e => (e.field (w.o3.toNat % 32)).toNat).getD 0)
  | .accver w => some fun s th _ => res1 .b32 (accverWord (s.quarter th.tid.core th.tid.qtr) th.slot w.o2.toNat)
  | _ => none

/-- A lone thread, its group and the rest of the machine after the result `r` of `i`. -/
def LoneResult (s t : State) (i : Instr) (th : Thread) (r : Res) : Prop :=
  (∃ x, t.thread? th.tid = some x ∧ x.pc = s.cur.pc + 8 ∧ x.wait = th.wait ∧
    x.registers = (applyRes (usesOf i) r th).registers) ∧
  t.groups = s.groups.map (fun g =>
    if g.core = th.tid.core && g.slot = th.slot && g.grp = th.grp then
      writeRefsG g (destOf i th) (r.d.flatMap id) else g) ∧
  OthersSame s t th.tid ∧ SameRest s t

/-- An operand is an infinity. -/
def FVal.isInf (x : FVal) : Bool := match x with | .inf _ => true | _ => false
/-- The value of a finite operand, and of a pattern of a format. -/
def FVal.rat (x : FVal) : ℚ := x.mant * (2 : ℚ) ^ x.expo
def Fmt.rat (f : Fmt) (b : Nat) : ℚ := (f.valueOf b).rat
/-- The distance of the two largest finite values. -/
def Fmt.topUlp (f : Fmt) : ℚ := f.rat f.maxFin - f.rat (f.maxFin - 1)

/-- The result for a positive value `x`, rounded with an unbounded exponent, exceeds the largest finite value (Table 2.2, OF). -/
def Fmt.overflows (f : Fmt) (r : Rnd) (x : ℚ) : Bool :=
  match r with
  | .ru => f.rat f.maxFin < x
  | .rne => f.rat f.maxFin + f.topUlp / 2 ≤ x
  | _ => f.rat f.maxFin + f.topUlp ≤ x

/-- A positive value `x`, rounded to the format's precision with an unbounded exponent, lies below the smallest normal value
(R71). -/
def Fmt.tiny (f : Fmt) (r : Rnd) (x : ℚ) : Bool :=
  let m : ℚ := 2 ^ f.emin
  match r with
  | .ru => x ≤ m - m / 2 ^ (f.fbits + 1)
  | .rne => x < m - m / 2 ^ (f.fbits + 2)
  | _ => x < m

/-- The pattern `k` of a positive finite value, or of the infinity, is what a positive value `x` rounds to (R73, Table 2.3):
RZ and RD take the largest finite value that is not above it, RU the smallest value that is not below it, RNE the nearest, of
two equally near the one with an even pattern. -/
def Fmt.rounds (f : Fmt) (r : Rnd) (x : ℚ) (k : Nat) : Prop :=
  match r with
  | .ru => k ≤ f.inf ∧ ∀ j, j ≤ f.maxFin → (x ≤ f.rat j ↔ k ≤ j)
  | .rne => if f.overflows .rne x then k = f.inf else k ≤ f.maxFin ∧
      ∀ j, j ≤ f.maxFin → |x - f.rat k| ≤ |x - f.rat j| ∧ (j ≠ k → |x - f.rat k| = |x - f.rat j| → k % 2 = 0)
  | _ => k ≤ f.maxFin ∧ ∀ j, j ≤ f.maxFin → (f.rat j ≤ x ↔ j ≤ k)

/-- A rounding mode as it acts on the magnitude of a negative value. -/
def mirrorRnd (r : Rnd) : Rnd := match r with | .rd => .ru | .ru => .rd | x => x

/-- `res` is the exact value `e`, not zero, rounded once, with the flags of R70 and R71; a subnormal result of a flushing format is
delivered as a zero of its sign (R68). -/
def RoundsTo (f : Fmt) (r : Rnd) (e : ℚ) (res : FRes) : Prop :=
  let neg := decide (e < 0)
  let m := if neg then mirrorRnd r else r
  ∃ k, f.rounds m |e| k ∧
    (f.flush = true ∧ 0 < k ∧ k < 2 ^ f.fbits → res = { val := f.signed neg 0, flags := fUF ||| fNX }) ∧
    (¬ (f.flush = true ∧ 0 < k ∧ k < 2 ^ f.fbits) → res =
      { val := f.signed neg k
        flags := (if f.rat k = |e| then 0 else fNX) ||| (if f.overflows m |e| then fOF else 0) |||
          (if f.rat k ≠ |e| ∧ f.tiny m |e| = true then fUF else 0) })

/-- A result of one register whose elements, and their flags, are those of `x` (R67, R70). -/
def FloatElements (t : Ty) (res : Res) (x : Nat → FRes) : Prop :=
  if elN t = 1 then res = { d := [[BitVec.ofNat 32 (x 0).val]], fl := (x 0).flags }
  else res = { d := [[BitVec.ofNat 32 ((x 0).val + 2 ^ 16 * (x 1).val)]], fl := (x 0).flags ||| (x 1).flags }

end Sys2Proof.Machine

/-! ### Spec 01, 02: the issue of vector instructions -/

/-- Every instruction of the vector unit goes on, for every issue group: each thread that acts (no check of R53 failed, its
guard is true, its queue operands are ready) stands at the next word, and its v, predicate, index and flag registers are
those its result gives (R76, R36): every other register of the thread is as before, and so is all of memory.
Completes in a next state of its own effect: iadd isub imul imulhi imulw imad imin imax iabsd idot4 andW orW xorW
andn shl shr sar fshf bfe bfi popc clz brev prmt isetp psetp sel mov lea iaddc movix fadd fsub fmul ffma fmin fmax
fsgn fsetp fclass frnd fscale fxtr fdot2 cvt pack unpk pairWord movi iaddi andi ori xori isetpi accver rqrd csrrd. -/
def Obligations.VectorInstructionsActInEveryLane : Prop :=
  ∀ (i : Instr) (f : State → Thread → List Nat → Res) (s : State), vecRule i = some f → s.cur.threads.Nodup →
    ∃ t, exec i s = .next t ∧ SameMemory s t ∧ SameEngines s t ∧
      ∀ x ∈ (checkIssue i { st := s }).1.act, ∃ th, t.thread? x.1.tid = some th ∧ th.pc = s.cur.pc + 8 ∧
        th.registers = (applyRes (usesOf i) (f (checkIssue i { st := s }).2.st x.1 x.2) x.1).registers

/-- The same for a lone thread, with its group's s and h registers (R165) and the frame: nothing else of the machine
changes. -/
def Claims.VectorInstructionOfALoneThread : Prop :=
  ∀ (i : Instr) (f : State → Thread → List Nat → Res) (s : State) (th : Thread), vecRule i = some f → Solo i s th →
    ∃ t, exec i s = .next t ∧ LoneResult s t i th (f s th (Solo.values i s th))

/-- Who acts (R36, R53): a thread of the issue group without a queue operand acts exactly when no decode check fails for
it, its guard is true and no run-time check fails; with its guard false it only goes on. -/
def Claims.ThreadsWithTrueGuardsAct : Prop :=
  ∀ (i : Instr) (s : State), s.cur.threads.Nodup → (usesOf i).pops = [] → (usesOf i).pushes = [] →
    let r := (checkIssue i { st := s }).1
    (∀ th v, (th, v) ∈ r.act ↔ th ∈ s.curThreads ∧ decodeCause s i (usesOf i) th = none ∧
      guardTrue (guardOf i) th = true ∧ runCause s i (usesOf i) th = none ∧ v = readSources s th (usesOf i).ops []) ∧
    (∀ u, u ∈ r.pass ↔ ∃ th ∈ s.curThreads, th.tid = u ∧ decodeCause s i (usesOf i) th = none ∧
      guardTrue (guardOf i) th = false) ∧
    (∀ u c sub, (u, c, sub) ∈ r.bad ↔ ∃ th ∈ s.curThreads, th.tid = u ∧
      (decodeCause s i (usesOf i) th = some (c, sub) ∨ (decodeCause s i (usesOf i) th = none ∧
        guardTrue (guardOf i) th = true ∧ runCause s i (usesOf i) th = some (c, sub))))

/-- A thread whose guard is false goes to the next word with every register as it was (R36). -/
def Claims.FalseGuardChangesNothing : Prop :=
  ∀ (i : Instr) (f : State → Thread → List Nat → Res) (s : State) (th : Thread), vecRule i = some f →
    s.cur.threads = [th.tid] → s.threads.filter (fun x => x.tid = th.tid) = [th] →
    decodeCause s i (usesOf i) th = none → guardTrue (guardOf i) th = false →
    ∃ t x, exec i s = .next t ∧ t.thread? th.tid = some x ∧ x.pc = s.cur.pc + 8 ∧ x.registers = th.registers ∧
      t.groups = s.groups ∧ OthersSame s t th.tid ∧ SameRest s t

/-- Which threads act, and what a vector instruction changes and leaves: results, guards and frames: the claims named here
hold together. -/
def Obligations.LoneThreadsGuardsAndResults : Prop :=
  Claims.VectorInstructionOfALoneThread ∧
  Claims.ThreadsWithTrueGuardsAct ∧
  Claims.FalseGuardChangesNothing

/-- IADD, ISUB, IMUL, IMAD, IMIN, IMAX, IABSD element by element (R67, R74, R80, R81): each element of the result is the
exact value modulo 2^W, or clamped to the element's range with `.sat`. -/
def Claims.IntegerElementsFollowTheRules : Prop :=
  ∀ (t : Ty) (sat : Bool) (a b c e : Nat), e < elN t →
    let x := elVal t (el (elW t) a e)
    let y := elVal t (el (elW t) b e)
    let z := elVal t (el (elW t) c e)
    el (elW t) (evalIadd t sat a b) e = deliver t sat (x + y) ∧
    el (elW t) (evalIsub t sat a b) e = deliver t sat (x - y) ∧
    el (elW t) (evalImul t a b) e = deliver t false (x * y) ∧
    el (elW t) (evalImad t sat a b c) e = deliver t sat (x * y + z) ∧
    el (elW t) (evalImin t a b) e = deliver t false (min x y) ∧
    el (elW t) (evalImax t a b) e = deliver t false (max x y) ∧
    el (elW t) (evalIabsd t a b) e = deliver t false (if y ≤ x then x - y else y - x)

/-- A delivered element is congruent to the exact value modulo 2^W; with `.sat` it is the nearest value of the element's
range (R74). -/
def Claims.SaturationClampsToTheElementRange : Prop :=
  ∀ (t : Ty) (x : Int),
    ((deliver t false x : Int) - x) % 2 ^ elW t = 0 ∧ deliver t false x < 2 ^ elW t ∧
    (minEl t ≤ x → x ≤ maxEl t → deliver t true x = deliver t false x ∧ elVal t (deliver t true x) = x) ∧
    (x < minEl t → elVal t (deliver t true x) = minEl t) ∧ (maxEl t < x → elVal t (deliver t true x) = maxEl t)

/-- AND, OR, XOR, ANDN, SHL, SHR, SAR bit by bit (R83, R84): a shift by the element's width or more gives 0, or copies of
the sign; `.wrap` takes the count modulo the width. -/
def Claims.LogicAndShiftsBitByBit : Prop :=
  (∀ (t : Ty) (a b k : Nat), k < 32 * tyRegs t →
    (evalLogic 0 t a b).testBit k = (a.testBit k && b.testBit k) ∧
    (evalLogic 1 t a b).testBit k = (a.testBit k || b.testBit k) ∧
    (evalLogic 2 t a b).testBit k = (a.testBit k != b.testBit k) ∧
    (evalLogic 3 t a b).testBit k = (a.testBit k && !b.testBit k)) ∧
  ∀ (t : Ty) (a b e k : Nat), e < elN t → k < elW t →
    let n := if elN t = 1 then b % 2 ^ 32 else el (elW t) b e
    let x := el (elW t) a e
    (el (elW t) (evalShift 0 t false a b) e).testBit k = (decide (n ≤ k) && x.testBit (k - n)) ∧
    (el (elW t) (evalShift 1 t false a b) e).testBit k = x.testBit (k + n) ∧
    (el (elW t) (evalShift 2 t false a b) e).testBit k = x.testBit (min (k + n) (elW t - 1)) ∧
    (el (elW t) (evalShift 0 t true a b) e).testBit k = (decide (n % elW t ≤ k) && x.testBit (k - n % elW t)) ∧
    (el (elW t) (evalShift 1 t true a b) e).testBit k = x.testBit (k + n % elW t) ∧
    (el (elW t) (evalShift 2 t true a b) e).testBit k = x.testBit (min (k + n % elW t) (elW t - 1))

/-- The logic instructions, the shifts and the bit counts give a lone thread these values, and change nothing else (R83, R84,
R87). -/
def Claims.LogicInstructionsComplete : Prop :=
  ∀ (w : FWord) (s : State) (th : Thread) (i : Instr) (r : Nat → Nat → Res),
    (i, r) ∈ ([(.andW w, fun a b => res1 w.ty (evalLogic 0 w.ty a b)), (.orW w, fun a b => res1 w.ty (evalLogic 1 w.ty a b)),
      (.xorW w, fun a b => res1 w.ty (evalLogic 2 w.ty a b)), (.andn w, fun a b => res1 w.ty (evalLogic 3 w.ty a b)),
      (.shl w, fun a b => res1 w.ty (evalShift 0 w.ty w.f0 a b)), (.shr w, fun a b => res1 w.ty (evalShift 1 w.ty w.f0 a b)),
      (.sar w, fun a b => res1 w.ty (evalShift 2 w.ty w.f0 a b)), (.popc w, fun a _ => res1 .b32 (evalPopc (elW w.ty) a)),
      (.clz w, fun a _ => res1 .b32 (evalClz (elW w.ty) a)), (.brev w, fun a _ => res1 w.ty (evalBrev (elW w.ty) a))] :
      List (Instr × (Nat → Nat → Res))) →
    Solo i s th → ∃ t, exec i s = .next t ∧
      LoneResult s t i th (r (arg (Solo.values i s th) 0) (arg (Solo.values i s th) 1))

/-- POPC, CLZ, BREV, BFE, BFI, FSHF and LEA (R85, R86, R87, R92). -/
def Claims.BitFieldsAndCounts : Prop :=
  (∀ (w a : Nat), evalPopc w a = ((List.range w).filter fun k => a.testBit k).length) ∧
  (∀ (w a : Nat), evalClz w a ≤ w ∧ (∀ k, w - evalClz w a ≤ k → k < w → a.testBit k = false) ∧
    (evalClz w a < w → a.testBit (w - 1 - evalClz w a) = true)) ∧
  (∀ (w a k : Nat), k < w → (evalBrev w a).testBit k = a.testBit (w - 1 - k)) ∧
  (∀ (a b c k : Nat), a < 2 ^ 32 → k < 32 →
    (evalBfe .b32 a b c).testBit k = (decide (k < min (c % 256) 32) && a.testBit (k + b % 256))) ∧
  (∀ (a b c k : Nat), a < 2 ^ 32 → k < 32 →
    (evalBfi .b32 a b c).testBit k =
      if c % 256 ≤ k ∧ k < c % 256 + min (c / 256 % 256) 32 then b.testBit (k - c % 256) else a.testBit k) ∧
  (∀ (a b c k : Nat), a < 2 ^ 32 → b < 2 ^ 32 → k < 32 →
    (evalFshf false false a b c).testBit k = (a + 2 ^ 32 * b).testBit (k + c % 64)) ∧
  ∀ (a b sh : Nat), a < 2 ^ 64 → b < 2 ^ 32 → evalLea .b32 sh a b = (a + b * 2 ^ sh) % 2 ^ 64

/-- Integer arithmetic, saturation, logic, shifts and bit fields element by element: the claims named here
hold together.
Completes in a next state of its own effect: andW orW xorW andn shl shr sar popc clz brev. -/
def Obligations.IntegerLogicShiftsAndBitFields : Prop :=
  Claims.IntegerElementsFollowTheRules ∧
  Claims.SaturationClampsToTheElementRange ∧
  Claims.LogicAndShiftsBitByBit ∧
  Claims.LogicInstructionsComplete ∧
  Claims.BitFieldsAndCounts

/-- IMULW, IMULHI, IDOT4 and IADDC (R81, R82, R93): the exact product, the exact dot product, the 33-bit sum. -/
def Claims.ExactProductsAndCarries : Prop :=
  (∀ (t : Ty) (a b : Nat), (evalProduct t a b : Int) = elVal t a * elVal t b % 2 ^ 64) ∧
  (∀ (a b : Nat), a < 2 ^ 32 → b < 2 ^ 32 → evalProduct .b32 a b = a * b) ∧
  (∀ (sat : Bool) (a b c : Nat), evalIdot4 .i8x4 sat a b c = deliver .i32 sat (elVal .i32 c
    + sgn 8 (el 8 a 0) * sgn 8 (el 8 b 0) + sgn 8 (el 8 a 1) * sgn 8 (el 8 b 1)
    + sgn 8 (el 8 a 2) * sgn 8 (el 8 b 2) + sgn 8 (el 8 a 3) * sgn 8 (el 8 b 3))) ∧
  (∀ (sat : Bool) (a b c : Nat), evalIdot4 .b8x4 sat a b c = deliver .b32 sat (c + (el 8 a 0 * el 8 b 0 + el 8 a 1 * el 8 b 1
    + el 8 a 2 * el 8 b 2 + el 8 a 3 * el 8 b 3 : Nat))) ∧
  (∀ (a b : Nat) (k : Bool), a < 2 ^ 32 → b < 2 ^ 32 →
    evalIaddc false true k a b = a + b + k.toNat ∧ evalIaddc false false k a b = a + b ∧
    evalIaddc true false k a b % 2 ^ 32 = (a + (2 ^ 32 - b)) % 2 ^ 32 ∧
    (flag (evalIaddc true false k a b) 32 = true ↔ b ≤ a))

/-- FADD, FSUB, FMUL and FFMA on f32, f16x2 and bf16x2 (R67-R73, R95, R96, Table 2.3): element by element, the exact sum,
product or sum of product and addend is rounded once, with its flags; an exact zero takes the sign that R73 gives; any NaN
operand gives the canonical NaN, with NV for a signalling one; 0 × ∞ and ∞ − ∞ give NaN with NV, 0 × ∞ even with a NaN addend; an
infinite operand else gives an infinity and no flag. -/
def Claims.FloatSpecialCases : Prop :=
  (∀ (t : Ty) (r : Rnd) (a b c : Nat), t ∈ [Ty.f32, .f16x2, .bf16x2] →
    let x := fArg t a
    let y := fArg t b
    FloatElements t (evalFfma t r false a b c) (fun e => fmaVal (fmtOf t) r (x e) (y e) (fArg t c e)) ∧
    FloatElements t (evalFadd t r false a b) (fun e => addVal (fmtOf t) r (x e) (y e)) ∧
    FloatElements t (evalFsub t r false a b) (fun e => addVal (fmtOf t) r (x e) (y e).negate) ∧
    FloatElements t (evalFmul t r false a b) (fun e => mulVal (fmtOf t) r (x e) (y e))) ∧
  (∀ (f : Fmt) (r : Rnd) (nx ny nz : Bool) (mx my mz : Nat) (ex ey ez : Int), f ∈ [Fmt.f32, .f16, .bf16] →
    let x := FVal.fin nx mx ex
    let y := FVal.fin ny my ey
    let z := FVal.fin nz mz ez
    (x.rat * y.rat + z.rat ≠ 0 → RoundsTo f r (x.rat * y.rat + z.rat) (fmaVal f r x y z)) ∧
    (x.rat + y.rat ≠ 0 → RoundsTo f r (x.rat + y.rat) (addVal f r x y)) ∧
    (x.rat * y.rat ≠ 0 → RoundsTo f r (x.rat * y.rat) (mulVal f r x y)) ∧
    (x.rat * y.rat + z.rat = 0 → fmaVal f r x y z =
      { val := f.signed (if x.rat * y.rat = 0 ∧ (nx != ny) = nz then nz else r = .rd) 0 }) ∧
    (x.rat + y.rat = 0 → addVal f r x y = { val := f.signed (if x.rat = 0 ∧ nx = ny then nx else r = .rd) 0 }) ∧
    (x.rat * y.rat = 0 → mulVal f r x y = { val := f.signed (nx != ny) 0 })) ∧
  ∀ (f : Fmt) (r : Rnd) (x y z : FVal), f ∈ [Fmt.f32, .f16, .bf16] →
    let zeroInf := (x.isZero && y.isInf) || (x.isInf && y.isZero)
    let nan : FRes := { val := f.nan, flags := if x.isSnan || y.isSnan || z.isSnan then fNV else 0 }
    let neg := x.neg != y.neg
    (zeroInf = true → fmaVal f r x y z = { val := f.nan, flags := fNV } ∧ mulVal f r x y = { val := f.nan, flags := fNV }) ∧
    (zeroInf = false → x.isNan || y.isNan || z.isNan → fmaVal f r x y z = nan) ∧
    (x.isNan || y.isNan → addVal f r x y = { val := f.nan, flags := if x.isSnan || y.isSnan then fNV else 0 } ∧
      mulVal f r x y = { val := f.nan, flags := if x.isSnan || y.isSnan then fNV else 0 }) ∧
    (x.isNan = false → y.isNan = false → z.isNan = false → zeroInf = false → x.isInf || y.isInf → mulVal f r x y = { val := f.signed neg f.inf } ∧
      fmaVal f r x y z = if z.isInf && z.neg != neg then { val := f.nan, flags := fNV } else { val := f.signed neg f.inf }) ∧
    (x.isNan = false → y.isNan = false → x.isInf = false → y.isInf = false → z.isInf = true →
      fmaVal f r x y z = { val := f.signed z.neg f.inf } ∧ addVal f r x z = { val := f.signed z.neg f.inf } ∧
      addVal f r z x = { val := f.signed z.neg f.inf }) ∧
    (x.isInf = true → z.isInf = true → addVal f r x z =
      if x.neg = z.neg then { val := f.signed z.neg f.inf } else { val := f.nan, flags := fNV })

/-- ISETP, FSETP, PSETP and SEL (R89, R90, R91, R99, Table 2.7): comparisons by the type's signedness, of floating-point values
with NaNs unordered, their combination with a predicate that may be negated, functions of three predicates, and the selection by
a predicate; a lone thread goes on with that result and nothing else changes. -/
def Claims.ComparisonsAndPredicates : Prop :=
  (∀ (x y : Int), intCond 0 x y = decide (x = y) ∧ intCond 1 x y = decide (x ≠ y) ∧ intCond 2 x y = decide (x < y) ∧
    intCond 3 x y = decide (x ≤ y) ∧ intCond 4 x y = decide (y < x) ∧ intCond 5 x y = decide (y ≤ x)) ∧
  (∀ (nx ny : Bool) (mx my : Nat) (ex ey : Int),
    let x := FVal.fin nx mx ex
    let y := FVal.fin ny my ey
    fsetpRes 0 x y = (decide (x.rat = y.rat), 0) ∧ fsetpRes 1 x y = (decide (x.rat ≠ y.rat), 0) ∧
    fsetpRes 2 x y = (decide (x.rat < y.rat), 0) ∧ fsetpRes 3 x y = (decide (x.rat ≤ y.rat), 0) ∧
    fsetpRes 4 x y = (decide (y.rat < x.rat), 0) ∧ fsetpRes 5 x y = (decide (y.rat ≤ x.rat), 0) ∧
    fsetpRes 6 x y = (true, 0) ∧ fsetpRes 7 x y = (false, 0)) ∧
  (∀ (x y : FVal) (k : Nat), x.isNan || y.isNan → k < 8 →
    fsetpRes k x y = (k = 1 || k = 7, if (2 ≤ k ∧ k ≤ 5) ∨ x.isSnan || y.isSnan then fNV else 0)) ∧
  (∀ a b c, evalPsetp 0 a b c = (a && b && c) ∧ evalPsetp 1 a b c = (a || b || c) ∧
    evalPsetp 2 a b c = ((a != b) != c) ∧ evalPsetp 3 a b c = (if c then a else b) ∧
    evalPsetp 4 a b c = decide (2 ≤ a.toNat + b.toNat + c.toNat)) ∧
  (∀ (th : Thread), th.pred 0 = true) ∧
  (∀ (p : List Bool) (b : Bool), setPred p 0 b = p) ∧
  ∀ (w : FWord) (s : State) (th : Thread),
    let pd := w.d.toNat % 16
    let q4 := fun (c : Code) => th.pred (c.toNat % 16) != c.toNat.testBit 4
    let joined := fun (x : Bool) =>
      let q := th.pred (w.c.toNat % 16) != w.c.toNat.testBit 5
      if w.c.toNat.testBit 4 then x || q else x && q
    let v := fun (i : Instr) (k : Nat) => arg (Solo.values i s th) k
    (Solo (.isetp w) s th → ∃ t, exec (.isetp w) s = .next t ∧ LoneResult s t (.isetp w) th
      { p := [(pd, joined (intCond w.fl (elVal w.ty (v (.isetp w) 0)) (elVal w.ty (v (.isetp w) 1))))] }) ∧
    (Solo (.fsetp w) s th → ∃ t, exec (.fsetp w) s = .next t ∧
      let x := fsetpRes w.fl (Fmt.f32.read (v (.fsetp w) 0)) (Fmt.f32.read (v (.fsetp w) 1))
      LoneResult s t (.fsetp w) th { p := [(pd, joined x.1)], fl := x.2 }) ∧
    (Solo (.psetp w) s th → ∃ t, exec (.psetp w) s = .next t ∧ LoneResult s t (.psetp w) th
      { p := [(pd, evalPsetp w.fl (q4 w.a) (q4 w.b) (q4 w.c))] }) ∧
    (Solo (.sel w) s th → ∃ t, exec (.sel w) s = .next t ∧ LoneResult s t (.sel w) th
      (res1 w.ty (if q4 w.c then v (.sel w) 0 else v (.sel w) 1)))

/-- Exact products and carries, floating-point rounding and special cases, comparisons and predicates: the claims named here
hold together.
Completes in a next state of its own effect: isetp psetp sel fsetp. -/
def Obligations.ExactProductsFloatsAndComparisons : Prop :=
  Claims.ExactProductsAndCarries ∧
  Claims.FloatSpecialCases ∧
  Claims.ComparisonsAndPredicates

/-- A P-form word (R28, R31): both slots read their operands before either writes. -/
def Claims.PairSlotsReadBeforeTheyWrite : Prop :=
  ∀ (w : PWord) (s : State) (th : Thread), Solo (.pairWord w) s th → w.slot0.op = .mov → w.slot1.op = .mov →
    ∃ t, exec (.pairWord w) s = .next t ∧
      LoneResult s t (.pairWord w) th
        { d := [valueWords 1 (arg (Solo.values (.pairWord w) s th) 0), valueWords 1 (arg (Solo.values (.pairWord w) s th) 1)] }

/-- Queue operands (R181, R182): a source queue gives the oldest entry's value for the lane, 0 where it has none, and the
entry leaves; without an entry the thread waits in QUE at the word and nothing is read or written. -/
def Claims.QueueSourcesPopOrWait : Prop :=
  (∀ (w : FWord) (s : State) (th : Thread) (tm : Team) (k : Nat) (e : List (Option Word)) (rest : List (List (Option Word))),
    w.ty = .b32 → w.a.toNat = 0x188 + k → k < 8 → isV w.d.toNat = true →
    s.cur.threads = [th.tid] → s.threads.filter (fun x => x.tid = th.tid) = [th] → s.cur.core = th.tid.core → th.grp < 512 →
    decodeCause s (.mov w) (usesOf (.mov w)) th = none → guardTrue (guardOf (.mov w)) th = true →
    runCause s (.mov w) (usesOf (.mov w)) th = none → th.wait = .ready →
    s.teams.filter (fun x => x.core = th.tid.core && x.slot = th.slot) = [tm] →
    tm.core = th.tid.core → tm.slot = th.slot → tm.queues[k]? = some (e :: rest) → rest.length < 8 →
    s.pendingPushes tm.core tm.slot k = 0 → (∀ x ∈ s.threads, x.wait ≠ .que) →
    ∃ t x, exec (.mov w) s = .next t ∧ t.thread? th.tid = some x ∧ x.pc = s.cur.pc + 8 ∧
      x.v = th.v.set w.d.toNat (((e[th.rel]?).getD none).getD 0) ∧
      (t.team? th.tid.core th.slot).map Team.queues = some (tm.queues.set k rest) ∧ OthersSame s t th.tid ∧ SameMemory s t) ∧
  (∀ (i : Instr) (f : State → Thread → List Nat → Res) (s : State) (th : Thread) (tm : Team), vecRule i = some f →
    s.cur.threads = [th.tid] → s.threads.filter (fun x => x.tid = th.tid) = [th] → s.cur.core = th.tid.core → th.grp < 512 →
    decodeCause s i (usesOf i) th = none → guardTrue (guardOf i) th = true → runCause s i (usesOf i) th = none →
    s.team? th.tid.core th.slot = some tm → s.queuesReady tm (usesOf i) 0 = false →
    ∃ t, exec i s = .next t ∧ t.thread? th.tid = some { th with wait := .que } ∧ t.teams = s.teams ∧ t.groups = s.groups ∧
      OthersSame s t th.tid ∧ SameMemory s t)

namespace Sys2Proof.Machine

/-- The batch of a team once it has claimed items for an empty one (R267): the lowest returned indices of its launch, or else the
next ones. -/
def Team.claimed (tm : Team) (l : Launch) : List Nat :=
  if tm.batch ≠ [] then tm.batch
  else if l.returned ≠ [] then l.returned.take 64
  else (List.range (min 64 (l.rcd.items - l.next))).map (l.next + ·)

end Sys2Proof.Machine

/-! ### Spec 04: control flow, waits, barriers, convergence, the token -/

/-- BRA, CALL, RET, LANDPT, NOP for every issue group (R188, R33): each acting thread goes to its own target, CALL writes
the return address, and every other register is as before.
Completes in a next state of its own effect: bra call ret landpt nop. -/
def Obligations.BranchesMoveEachActingThread : Prop :=
  ∀ (s : State), s.cur.threads.Nodup →
    (∀ w, ∃ t, exec (.bra w) s = .next t ∧ SameMemory s t ∧ ∀ x ∈ (checkIssue (.bra w) { st := s }).1.act, ∃ th,
      t.thread? x.1.tid = some th ∧ th.pc = s.cur.pc + 8 * w.imm.signExtend 64 ∧ th.registers = x.1.registers) ∧
    (∀ w, ∃ t, exec (.call w) s = .next t ∧ SameMemory s t ∧ ∀ x ∈ (checkIssue (.call w) { st := s }).1.act, ∃ th,
      t.thread? x.1.tid = some th ∧ th.pc = s.cur.pc + 8 * w.imm.signExtend 64 ∧
      th.registers = (applyRes (usesOf (.call w)) (res1 .b64 (s.cur.pc + 8).toNat) x.1).registers) ∧
    (∀ w, ∃ t, exec (.ret w) s = .next t ∧ SameMemory s t ∧ ∀ x ∈ (checkIssue (.ret w) { st := s }).1.act,
      (pairTarget x.1 x.2).toNat % 8 = 0 → ∃ th,
      t.thread? x.1.tid = some th ∧ th.pc = pairTarget x.1 x.2 ∧ th.registers = x.1.registers) ∧
    (∀ w, ∃ t, exec (.landpt w) s = .next t ∧ SameMemory s t ∧ ∀ x ∈ (checkIssue (.landpt w) { st := s }).1.act, ∃ th,
      t.thread? x.1.tid = some th ∧ th.pc = s.cur.pc + 8 ∧ th.registers = x.1.registers) ∧
    (∀ w, ∃ t, exec (.nop w) s = .next t ∧ SameMemory s t ∧ ∀ x ∈ (checkIssue (.nop w) { st := s }).1.act, ∃ th,
      t.thread? x.1.tid = some th ∧ th.pc = s.cur.pc + 8 ∧ th.registers = x.1.registers)

/-- RET to a target that is not a multiple of 8 raises ALIGN (R188). -/
def Claims.MisalignedReturnRaisesAlign : Prop :=
  ∀ (w : IWord) (s : State) (th : Thread), Solo (.ret w) s th → Trappable s th → th.handler = false →
    s.hasHandler th = true → (pairTarget th (Solo.values (.ret w) s th)).toNat % 8 ≠ 0 →
    ∃ t, exec (.ret w) s = .next t ∧ TakesCause s t th 5 ∧ SameRest s t

/-- JMPI and CALLI (R33): the jump is taken when the target's word is LANDPT, CALLI writing the return address; any other
word raises LANDING at the JMPI or CALLI word and writes nothing. -/
def Claims.IndirectJumpsNeedALandingPoint : Prop :=
  ∀ (w : IWord) (s : State) (th : Thread) (pa : Nat), th.fetchRetry = 0 →
    (Solo (.jmpi w) s th → noQueueDest (.jmpi w) th →
      (pairTarget th (Solo.values (.jmpi w) s th)).toNat % 8 = 0 →
      s.trans (.core th.tid.core) (s.pasidOf th.lslot) (pairTarget th (Solo.values (.jmpi w) s th)).toNat .exec = .ok pa →
      PlainMemory s pa 8 →
      (isLanding (BitVec.ofNat 64 (s.value pa 8)) = true →
        ∃ t, exec (.jmpi w) s = .next t ∧ GoesTo s t (.jmpi w) th (pairTarget th (Solo.values (.jmpi w) s th))) ∧
      (isLanding (BitVec.ofNat 64 (s.value pa 8)) = false → Trappable s th → th.handler = false → s.hasHandler th = true →
        ∃ t, exec (.jmpi w) s = .next t ∧ TakesCause s t th 8 ∧ SameRest s t)) ∧
    (Solo (.calli w) s th → (pairTarget th (Solo.values (.calli w) s th)).toNat % 8 = 0 →
      s.trans (.core th.tid.core) (s.pasidOf th.lslot) (pairTarget th (Solo.values (.calli w) s th)).toNat .exec = .ok pa →
      PlainMemory s pa 8 →
      (isLanding (BitVec.ofNat 64 (s.value pa 8)) = true →
        ∃ t x, exec (.calli w) s = .next t ∧ t.thread? th.tid = some x ∧
          x.pc = pairTarget th (Solo.values (.calli w) s th) ∧
          x.registers = (applyRes (usesOf (.calli w)) (res1 .b64 (s.cur.pc + 8).toNat) th).registers ∧
          OthersSame s t th.tid ∧ SameRest s t) ∧
      (isLanding (BitVec.ofNat 64 (s.value pa 8)) = false → Trappable s th → th.handler = false → s.hasHandler th = true →
        ∃ t, exec (.calli w) s = .next t ∧ TakesCause s t th 8 ∧ SameRest s t))

/-- A misaligned RET raises ALIGN; JMPI and CALLI need a LANDPT at their target: the claims named here hold together.
Completes in a next state of its own effect: jmpi calli. -/
def Obligations.ReturnsAndIndirectJumpsCheckTargets : Prop :=
  Claims.MisalignedReturnRaisesAlign ∧ Claims.IndirectJumpsNeedALandingPoint

/-- EXIT (R7, R189, R269): the item retires, the watchdog count restarts, and the thread waits in ENG for its next item;
inside a reader section it raises SECTION and in handler mode PROT. -/
def Claims.ExitRetiresTheItem : Prop :=
  ∀ (w : IWord) (s : State) (th : Thread), Solo (.exitW w) s th →
    (th.handler = false → th.nest = 0 →
      ∃ t, exec (.exitW w) s = .next t ∧
        t.thread? th.tid = some { th.issued (.exitW w) s.cur.pc with wait := .eng (.assign s.clock), windows := [] } ∧
        (∀ l, s.launch? th.lslot = some l → t.launch? th.lslot = some { l with retired := l.retired + 1, wdog := 0 }) ∧
        t.groups = s.groups ∧ OthersSame s t th.tid ∧ SameMemory s t) ∧
    (Trappable s th → th.handler = false → s.hasHandler th = true → th.nest ≠ 0 →
      ∃ t, exec (.exitW w) s = .next t ∧ TakesCause s t th 11 ∧ SameRest s t) ∧
    (Trappable s th → th.handler = true →
      ∃ t x, exec (.exitW w) s = .next t ∧ t.thread? th.tid = some x ∧ x.halt = some (.double .prot) ∧ x.dbl = true)

/-- YIELD, NAP and NAP_EXPIRE (R159, R167, R190): YIELD gives the entry of the next word the youngest stamp of its quarter;
NAP parks the thread for the cycles asked and at most 64 more, and for 0 cycles not at all. -/
def Claims.YieldAndNapLetOthersIssue : Prop :=
  (∀ (w : IWord) (s : State) (th : Thread), Solo (.yield w) s th → th.idle = false →
    (s.quarter s.cur.core s.cur.qtr).serial = false → (s.quarter s.cur.core s.cur.qtr).entries.length < 64 →
    (s.quarter s.cur.core s.cur.qtr).stampCtr < 2 ^ 32 - 1 →
    ∃ t, exec (.yield w) s = .next t ∧ GoesTo s t (.yield w) th (s.cur.pc + 8) ∧
      (t.quarter s.cur.core s.cur.qtr).stampCtr = (s.quarter s.cur.core s.cur.qtr).stampCtr + 1 ∧
      (∃ e ∈ (t.quarter s.cur.core s.cur.qtr).entries, e.lslot = s.cur.lslot ∧ e.pc = s.cur.pc + 8 ∧
        e.stamp = (s.quarter s.cur.core s.cur.qtr).stampCtr + 1)) ∧
  (∀ (w : IWord) (s : State) (th : Thread), Solo (.nap w) s th →
    ∃ t, exec (.nap w) s = .next t ∧ OthersSame s t th.tid ∧ t.groups = s.groups ∧ SameMemory s t ∧
      (let n := w.imm.toNat % 2 ^ 16
      (n = 0 → t.thread? th.tid = some (th.issued (.nap w) (s.cur.pc + 8))) ∧
      (n ≠ 0 → ∃ m, m ≤ 64 ∧ t.thread? th.tid = some { th.issued (.nap w) (s.cur.pc + 8) with
        wait := .nap (s.issueClock (dieOf th.tid.core) + n + m) }))) ∧
  ∀ (s : State) (th : Thread) u, s.threads.filter (fun x => x.tid = th.tid) = [th] → th.wait = .nap u →
    (u ≤ s.issueClock (dieOf th.tid.core) → ∃ t, exec (.napExpire th.tid) s = .next t ∧
      t.thread? th.tid = some (th.endWait (.nap u)) ∧ OthersSame s t th.tid ∧ SameRest s t) ∧
    (s.issueClock (dieOf th.tid.core) < u → exec (.napExpire th.tid) s = .next s)

/-- BAR and BARARV (R183): an arrival that does not complete the phase is counted, and BAR's thread waits; the one that
completes it starts the next phase and lets every waiting thread of the team go on. (That an arrival counts only once the
thread's earlier accesses have been performed, as it is a release, is log 35, DEDUCED.) -/
def Claims.BarriersCountArrivals : Prop :=
  ∀ (w : IWord) (s : State) (th : Thread) (tm : Team),
    s.teams.filter (fun x => x.core = th.tid.core && x.slot = th.slot) = [tm] → tm.bars.length = 16 →
    (∀ y ∈ s.threads, y.late = []) →
    let b := w.imm.toNat % 16
    let x := (tm.bar b).arrived (barCount w)
    let live := (s.liveThreads th.tid.core th.slot).length
    ((∃ e ∈ th.unf, e.open_ = true ∧ e.tag ≤ s.clock) → th.handler = false →
      let late : LateArrival := { bar := b, n := barCount w, since := s.clock + 1, hand := false }
      (Solo (.bar w) s th → ∃ t, exec (.bar w) s = .next t ∧
        t.thread? th.tid = some { th.issued (.bar w) (s.cur.pc + 8) with wait := .bar b, late := [late] } ∧
        t.teams = s.teams ∧ OthersSame s t th.tid ∧ SameMemory s t) ∧
      (Solo (.bararv w) s th → ∃ t, exec (.bararv w) s = .next t ∧
        t.thread? th.tid = some { th.issued (.bararv w) (s.cur.pc + 8) with late := [late] } ∧
        t.teams = s.teams ∧ OthersSame s t th.tid ∧ SameMemory s t)) ∧
    ((∀ e ∈ th.unf, e.open_ = false) →
    (Solo (.bar w) s th → x.complete live = false →
      ∃ t y, exec (.bar w) s = .next t ∧
        t.thread? th.tid = some { th.issued (.bar w) (s.cur.pc + 8) with wait := .bar b } ∧
        t.team? th.tid.core th.slot = some y ∧ (y.bar b).arrivals = x.arrivals ∧ (y.bar b).phase = (tm.bar b).phase ∧
        OthersSame s t th.tid ∧ SameMemory s t) ∧
    (Solo (.bararv w) s th → x.complete live = false →
      ∃ t y, exec (.bararv w) s = .next t ∧ t.thread? th.tid = some (th.issued (.bararv w) (s.cur.pc + 8)) ∧
        t.team? th.tid.core th.slot = some y ∧ (y.bar b).arrivals = x.arrivals ∧ (y.bar b).phase = (tm.bar b).phase ∧
        OthersSame s t th.tid ∧ SameMemory s t) ∧
    (Solo (.bar w) s th → x.complete live = true →
      ∃ t y, exec (.bar w) s = .next t ∧ t.thread? th.tid = some ((th.issued (.bar w) (s.cur.pc + 8)).endWait (.bar b)) ∧
        t.team? th.tid.core th.slot = some y ∧ y.bar b = { phase := (tm.bar b).phase + 1 } ∧
        (∀ z ∈ t.teamThreads th.tid.core th.slot, z.wait ≠ .bar b) ∧ SameMemory s t) ∧
    (Solo (.bararv w) s th → x.complete live = true →
      ∃ t y, exec (.bararv w) s = .next t ∧
        t.thread? th.tid = some ((th.issued (.bararv w) (s.cur.pc + 8)).endWait (.bar b)) ∧
        t.team? th.tid.core th.slot = some y ∧ y.bar b = { phase := (tm.bar b).phase + 1 } ∧
        (∀ z ∈ t.teamThreads th.tid.core th.slot, z.wait ≠ .bar b) ∧ SameMemory s t))

/-- CVSIGN and CVWAIT (R176, R177, R178, R179, R180): a signature that leaves the phase incomplete is counted, and CVWAIT's
thread waits; the last one ends the phase; a thread outside the set raises CONV.
Completes in a next state of its own effect: cvsign cvwait. -/
def Obligations.ConvergenceSignaturesCount : Prop :=
  ∀ (w : IWord) (s : State) (th : Thread) (tm : Team) (x : CvInst),
    s.teams.filter (fun y => y.core = th.tid.core && y.slot = th.slot) = [tm] →
    tm.cvs.filter (fun y => y.cv = w.imm.toNat % 16 && y.qtr = cvQtr y.kind th.tid.qtr) = [x] →
    x.op = none → x.full = false → x.deferred = [] → th.tid ∉ x.signers →
    let k := w.imm.toNat % 16
    let set := s.cvSet th.tid.core th.slot x
    ((∃ y ∈ set, y.tid = th.tid) → x.signed + 1 < set.length →
      (Solo (.cvsign w) s th → ∃ t y z, exec (.cvsign w) s = .next t ∧
        t.thread? th.tid = some (th.issued (.cvsign w) (s.cur.pc + 8)) ∧ t.team? th.tid.core th.slot = some y ∧
        y.cvInst? k th.tid.qtr = some z ∧ z.signed = x.signed + 1 ∧ z.gen = x.gen ∧ z.signers = x.signers ++ [th.tid] ∧
        OthersSame s t th.tid ∧ SameMemory s t) ∧
      (Solo (.cvwait w) s th → ∃ t y z, exec (.cvwait w) s = .next t ∧
        t.thread? th.tid = some { th.issued (.cvwait w) (s.cur.pc + 8) with wait := .cvw k } ∧
        t.team? th.tid.core th.slot = some y ∧ y.cvInst? k th.tid.qtr = some z ∧ z.signed = x.signed + 1 ∧ z.gen = x.gen ∧
        OthersSame s t th.tid ∧ SameMemory s t)) ∧
    ((∃ y ∈ set, y.tid = th.tid) → x.signed + 1 = set.length →
      (Solo (.cvsign w) s th → ∃ t y z, exec (.cvsign w) s = .next t ∧
        t.thread? th.tid = some ((th.issued (.cvsign w) (s.cur.pc + 8)).endWait (.cvw k)) ∧
        t.team? th.tid.core th.slot = some y ∧ y.cvInst? k th.tid.qtr = some z ∧ z.signed = 0 ∧ z.signers = [] ∧ z.gen = (x.gen + 1) % 2 ^ 15 ∧
        (∀ u ∈ x.signers, ∀ v, s.thread? u = some v → v.wait = .cvw k → ∃ v', t.thread? u = some v' ∧ v'.wait = .ready)) ∧
      (Solo (.cvwait w) s th → ∃ t y z, exec (.cvwait w) s = .next t ∧
        t.thread? th.tid = some ((th.issued (.cvwait w) (s.cur.pc + 8)).endWait (.cvw k)) ∧
        t.team? th.tid.core th.slot = some y ∧ y.cvInst? k th.tid.qtr = some z ∧ z.signed = 0 ∧ z.gen = (x.gen + 1) % 2 ^ 15)) ∧
    ((∀ y ∈ set, y.tid ≠ th.tid) → Solo (.cvsign w) s th → Trappable s th → th.stepping = false → th.handler = false →
      s.hasHandler th = true → ∃ t z, exec (.cvsign w) s = .next t ∧ t.thread? th.tid = some z ∧ z.handler = true ∧
        z.tpc = s.cur.pc ∧ t.groups = s.maskedGroups th 12 true ∧ t.teams = s.teams)

/-- TKN (R184, Table 4.6a): the first group becomes holder, the second partner, the holder hands over and takes back the
partner's place, and a third group raises TOKEN. -/
def Claims.TokenPassesBetweenTwoGroups : Prop :=
  ∀ (w : IWord) (s : State) (th : Thread), Solo (.tkn w) s th →
    let g : GroupKey := { slot := th.slot, grp := th.grp }
    let q := s.quarter th.tid.core th.tid.qtr
    (∀ hold part, (q.holder = none ∧ hold = some g ∧ part = none) ∨ (q.holder = some g ∧ q.partner = none ∧ hold = some g ∧ part = none) ∨
        (∃ h, h ≠ g ∧ q.holder = some h ∧ q.partner = none ∧ hold = some h ∧ part = some g) ∨
        (∃ p, q.holder = some g ∧ q.partner = some p ∧ hold = some p ∧ part = some g) ∨
        (∃ h, h ≠ g ∧ q.holder = some h ∧ q.partner = some g ∧ hold = some h ∧ part = some g) →
      ∃ t, exec (.tkn w) s = .next t ∧ t.thread? th.tid = some (th.issued (.tkn w) (s.cur.pc + 8)) ∧
        (t.quarter th.tid.core th.tid.qtr).holder = hold ∧ (t.quarter th.tid.core th.tid.qtr).partner = part ∧
        t.groups = s.groups ∧ OthersSame s t th.tid ∧ SameMemory s t) ∧
    (∀ h p, q.holder = some h → q.partner = some p → h ≠ g → p ≠ g → Trappable s th → th.handler = false →
      s.hasHandler th = true → ∃ t, exec (.tkn w) s = .next t ∧ TakesCause s t th 16 ∧ SameRest s t)

/-- BAR and BARARV count arrivals; TKN passes the token between two groups: the claims named here hold together.
Completes in a next state of its own effect: bar bararv tkn. -/
def Obligations.BarriersAndTheToken : Prop :=
  Claims.BarriersCountArrivals ∧ Claims.TokenPassesBetweenTwoGroups

/-- ITEM_ASSIGN (R268, R269): the next item of the batch starts at KDESC + REFILL with %itemage one higher (it stops at
0xFFFFFFFF), predicates and flags clear and the v registers kept; an empty batch first claims the up to 64 lowest returned
indices, or else the next ones of the launch (R267); without an item, or under a drain or a fault of the launch, the lane becomes
idle. (A thread marked `gone`, which has found no item before, also becomes idle: log 35.) -/
def Claims.ItemsAreAssignedFromTheBatch : Prop :=
  (∀ (s : State) (th : Thread) (tm : Team) (l : Launch) (d : Desc) c n rest,
    s.threads.filter (fun x => x.tid = th.tid) = [th] → th.wait = .eng (.assign c) → th.idle = false →
    s.teams.filter (fun x => x.core = th.tid.core && x.slot = th.slot) = [tm] →
    s.launches.filter (fun x => x.slot = th.lslot) = [l] → l.desc = some d →
    tm.draining = false → l.draining = false → l.faulted = false → th.gone = false → tm.claimed l = n :: rest →
    ∃ t x y, exec (.itemAssign th.tid) s = .next t ∧ t.thread? th.tid = some x ∧ x.item = BitVec.ofNat 32 n ∧
      x.itemage = (if th.itemage = 0xFFFFFFFF then th.itemage else th.itemage + 1) ∧
      x.pc = l.rcd.kdesc + BitVec.ofNat 64 d.refill ∧ x.wait = .ready ∧ x.fpx = 0 ∧ x.v = th.v ∧ x.ix = th.ix ∧
      (∀ k, k ≠ 0 → x.p[k]? = some true → False) ∧
      t.team? th.tid.core th.slot = some y ∧ y.batch = rest ∧
      (tm.batch ≠ [] → t.launches = s.launches) ∧
      (tm.batch = [] → l.returned ≠ [] →
        t.launch? th.lslot = some { l with returned := l.returned.drop 64 }) ∧
      (tm.batch = [] → l.returned = [] →
        t.launch? th.lslot = some { l with next := l.next + min 64 (l.rcd.items - l.next) }) ∧
      OthersSame s t th.tid ∧ SameMemory s t) ∧
  ∀ (s : State) (th : Thread) (tm : Team) (l : Launch) c,
    s.threads = [th] → th.wait = .eng (.assign c) → th.idle = false → s.teams = [tm] → tm.core = th.tid.core → tm.slot = th.slot →
    s.launches.filter (fun x => x.slot = th.lslot) = [l] → (tm.draining = true ∨ l.draining = true ∨ l.faulted = true ∨ th.gone = true ∨ tm.claimed l = []) →
    ∃ t x, exec (.itemAssign th.tid) s = .next t ∧ t.thread? th.tid = some x ∧ x.idle = true ∧ x.item = th.item ∧
      SameMemory s t

/-- EXIT retires the item, and a lane takes the next item of its batch or becomes idle: the claims named here
hold together.
Completes in a next state of its own effect: exitW itemAssign. -/
def Obligations.ExitAndItemAssignment : Prop :=
  Claims.ExitRetiresTheItem ∧
  Claims.ItemsAreAssignedFromTheBatch

/-- FAIRNESS_DUE and STAMP_RENUMBER (R159, R166): an entry whose WAIT has reached the promised interval becomes due; a
counter at its end is renumbered from 0 in the entries' order. -/
def Claims.FairnessAndStamps : Prop :=
  (∀ (s : State) core qtr l pc n, s.promise l = some n →
    ∃ t, exec (.fairnessDue core qtr l pc) s = .next t ∧
      (t.quarter core qtr).entries = (s.quarter core qtr).entries.map (fun e =>
        if e.lslot = l ∧ e.pc = pc ∧ n ≤ e.wait then { e with due := true } else e) ∧ t.threads = s.threads ∧ SameMemory s t) ∧
  (∀ (s : State) core qtr l pc, s.promise l = none → exec (.fairnessDue core qtr l pc) s = .next s) ∧
  (∀ (s : State) core qtr, (s.quarter core qtr).stampCtr < 2 ^ 32 - 1 → exec (.stampRenumber core qtr) s = .next s) ∧
  ∀ (s : State) core qtr, 2 ^ 32 - 1 ≤ (s.quarter core qtr).stampCtr →
    ∃ t, exec (.stampRenumber core qtr) s = .next t ∧
      (t.quarter core qtr).stampCtr = (s.quarter core qtr).entries.length ∧
      ∀ (j k : Nat) (e f : PcEntry), (s.quarter core qtr).entries[j]? = some e → (s.quarter core qtr).entries[k]? = some f →
        e.stamp < f.stamp → ∃ (e' : PcEntry) (f' : PcEntry), ((t.quarter core qtr).entries[j]? = some e') ∧ ((t.quarter core qtr).entries[k]? = some f') ∧
          e'.stamp < f'.stamp ∧ e'.pc = e.pc ∧ f'.pc = f.pc

/-- YIELD, NAP, the fairness promise and the renumbering of stamps: the claims named here hold together.
Completes in a next state of its own effect: yield nap fairnessDue stampRenumber napExpire. -/
def Obligations.YieldNapAndFairness : Prop :=
  Claims.YieldAndNapLetOthersIssue ∧ Claims.FairnessAndStamps

namespace Sys2Proof.Machine

/-- What a group instruction gives a participant: a function of the group's width, of its live threads, of the
participants with their source values, and of the participant itself (R174). -/
def groupRule (i : Instr) : Option (Nat → List Thread → List (Thread × List Nat) → Thread × List Nat → Res) :=
  match i with
  | .shfl w => some fun width _ ps x =>
    let src := shflLane (w.f1.toNat * 2 + w.f0.toNat) x.1.rel (arg x.2 1)
    let got := if 0 ≤ src && src < width then laneVal ps src.toNat else none
    { res1 w.ty (got.getD (arg x.2 0)) with p := [(pn w.c, got.isSome)] }
  | .vote w => some fun _ _ ps _ =>
    let holds := fun (y : Thread × List Nat) => predField y.1 w.a
    match w.f1.toNat * 2 + w.f0.toNat with
    | 0 => res1 .b64 (maskWhere ps holds)
    | 1 => res1 .b32 (ps.filter holds).length
    | 2 => { p := [(pn w.d, ps.all holds), (pn w.c, ps.any holds)] }
    | _ => { p := [(pn w.d, ps.all holds || !ps.any holds)] }
  | .gred w => some fun width _ ps _ =>
    let y := treeReduce (w.c.toNat % 8) w.ty w.rnd 6 (laneVals (w.c.toNat % 8) w.ty width ps) 0
    res1 w.ty y.1 y.2
  | .gscan w => some fun width _ ps x => evalGscan w width ps x
  | .matchW _ => some fun _ _ ps x => res1 .b64 (maskWhere ps fun y => decide (arg y.2 0 = arg x.2 0))
  | .elect w => some fun _ _ ps x => { p := [(pn w.d, ps.all fun y => decide (x.1.rel ≤ y.1.rel))] }
  | .actmask w => some fun _ live ps _ =>
    res1 .b64 (maskWhere (if w.f0 then live.map fun t => (t, []) else ps) fun _ => true)
  | _ => none

/-- The issue group is one logical group: all its live threads stand at the word, none of them in handler mode or halted,
and no check of R53 raises a cause for one of them. -/
structure GroupAtWord (i : Instr) (s : State) (sl g : Nat) (ps : List Thread) : Prop where
  cur   : s.cur.threads = ps.map Thread.tid
  all   : s.groupThreads s.cur.core sl g = ps
  one   : (s.threads.map Thread.tid).Nodup
  place : ∀ x ∈ ps, x.tid.core = s.cur.core ∧ x.tid.qtr = s.cur.qtr ∧ x.lslot = s.cur.lslot ∧ x.pc = s.cur.pc
  calm  : ∀ x ∈ ps, x.wait = .ready ∧ x.handler = false ∧ x.halt = none ∧ x.pending = none
  grp   : g < 512
  legal : ∀ x ∈ ps, decodeCause s i (usesOf i) x = none ∧ runCause s i (usesOf i) x = none
  noQ   : (usesOf i).pops = [] ∧ (usesOf i).pushes = []

/-- Threads of a group whose guard is true, with their source values. -/
def participants (i : Instr) (s : State) (ps : List Thread) : List (Thread × List Nat) :=
  (ps.filter (guardTrue (guardOf i))).map fun x => (x, readSources s x (usesOf i).ops [])

end Sys2Proof.Machine

/-! ### Spec 04: instructions over a group -/

/-- SHFL, VOTE, GRED, GSCAN, MATCH, ELECT and ACTMASK (R173, R174, R193 to R197): with all live threads of the group at the
word, each one whose guard is true receives the result of all participants' values read before any is written; the others
go on unchanged, and no thread outside the group changes. -/
def Claims.GroupInstructionsUseEveryParticipant : Prop :=
  ∀ (i : Instr) f (s : State) sl g (ps : List Thread), groupRule i = some f → GroupAtWord i s sl g ps →
    ∃ t, exec i s = .next t ∧ SameRest s t ∧ (∀ v, (∀ x ∈ ps, x.tid ≠ v) → t.thread? v = s.thread? v) ∧
      (let acts := participants i s ps
      let width := ((s.team? s.cur.core sl).map Team.width).getD 0
      ∀ x ∈ ps, ∃ y, t.thread? x.tid = some y ∧ y.pc = s.cur.pc + 8 ∧
        (guardTrue (guardOf i) x = true →
          y.registers = (applyRes (usesOf i) (f width ps acts (x, readSources s x (usesOf i).ops [])) x).registers) ∧
        (guardTrue (guardOf i) x = false → y.registers = x.registers)) ∧
      (((usesOf i).ops.all fun o => !o.dst || isV o.code.toNat) = true → t.groups = s.groups)

/-- R173: a thread that reaches a group instruction before another live thread of its group has stands in GOP at the word,
and nothing is written; ACTMASK and a word with `.part` do not wait. -/
def Claims.GroupInstructionsWaitForTheGroup : Prop :=
  ∀ (i : Instr) (s : State) (th y : Thread), (match i with
      | .shfl w | .vote w | .gred w | .gscan w | .matchW w | .elect w => w.f2 = false
      | _ => False) →
    s.cur.threads = [th.tid] → s.cur.core = th.tid.core → s.threads.filter (fun x => x.tid = th.tid) = [th] →
    th.grp < 512 → decodeCause s i (usesOf i) th = none → th.handler = false →
    y ∈ s.threads → y.tid.core = th.tid.core → y.slot = th.slot → y.grp = th.grp → y.idle = false → y.tid ≠ th.tid →
    y.wait ≠ .gop →
    ∃ t, exec i s = .next t ∧ t.thread? th.tid = some { th with wait := .gop } ∧ OthersSame s t th.tid ∧
      t.groups = s.groups ∧ t.teams = s.teams ∧ t.quarters = s.quarters ∧ SameMemory s t

/-- Group instructions combine the values of every participant, and wait for the group: the claims named here
hold together.
Completes in a next state of its own effect: shfl vote gred gscan matchW elect actmask. -/
def Obligations.GroupInstructionsUseEveryParticipant : Prop :=
  Claims.GroupInstructionsUseEveryParticipant ∧
  Claims.GroupInstructionsWaitForTheGroup

/-- QTRY (R198): `.pop` takes the oldest entry and `.push` adds one with the lane's value where the queue allows it, and
the predicate says whether it did; otherwise only the predicate is written. It never waits. -/
def Claims.QtryNeverWaits : Prop :=
  ∀ (w : FWord) (s : State) (th : Thread) (tm : Team), Solo (.qtry w) s th →
    s.teams.filter (fun x => x.core = th.tid.core && x.slot = th.slot) = [tm] → tm.queues.length = 8 →
    (let q := (if w.f0 then w.d else w.a).toNat - 0x188
    let u := usesOf (.qtry w)
    let after := fun (r : Res) (l : List (List (Option Word))) => ∃ t, exec (.qtry w) s = .next t ∧
      (∃ x, t.thread? th.tid = some x ∧ x.pc = s.cur.pc + 8 ∧ x.registers = (applyRes u r th).registers) ∧
      (∃ y, t.team? th.tid.core th.slot = some y ∧ y.queues = tm.queues.set q l) ∧ SameMemory s t ∧ SameEngines s t
    q < 8 →
    (w.f0 = true → (tm.queueAt q).length + s.pendingPushes th.tid.core th.slot q < 8 →
      after { p := [(pn w.c, true)] } (tm.queueAt q ++ [(List.range tm.width).map fun j =>
        if j = th.rel then some (BitVec.ofNat 32 (arg (Solo.values (.qtry w) s th) 1)) else none])) ∧
    (w.f0 = true → 8 ≤ (tm.queueAt q).length + s.pendingPushes th.tid.core th.slot q →
      after { p := [(pn w.c, false)] } (tm.queueAt q)) ∧
    (w.f0 = false → tm.queueAt q = [] → ∃ t x, exec (.qtry w) s = .next t ∧ t.thread? th.tid = some x ∧
      x.pc = s.cur.pc + 8 ∧ x.registers = (applyRes { u with ops := [] } { p := [(pn w.c, false)] } th).registers ∧
      t.groups = s.groups ∧ t.teams = s.teams ∧ OthersSame s t th.tid ∧ SameMemory s t) ∧
    (∀ e r, w.f0 = false → tm.queueAt q = e :: r →
      after { res1 .b32 (((e[th.rel]?).getD none).getD 0).toNat with p := [(pn w.c, true)] } r))

/-- P-form pairs read before they write; queue operands pop or wait; QTRY never waits: the claims named here
hold together.
Completes in a next state of its own effect: mov pairWord qtry. -/
def Obligations.PairsAndQueueOperands : Prop :=
  Claims.PairSlotsReadBeforeTheyWrite ∧
  Claims.QueueSourcesPopOrWait ∧
  Claims.QtryNeverWaits

/-! ### Spec 06: the function unit -/

namespace Sys2Proof.Machine
/-- A function-unit instruction. -/
def isFu (i : Instr) : Bool :=
  match i with
  | .rcp _ | .rsqrt _ | .sqrt _ | .exp2 _ | .log2 _ | .sinpi _ | .cospi _ | .scpi _ | .tanh _ | .fdiv _ | .exd _ => true
  | _ => false
end Sys2Proof.Machine

/-- The eleven function-unit instructions (R236, R237, R238): no value raises a cause; the destination receives the result,
a fixed function of the operand bits, its flags are ORed into %fpx, and nothing else changes. (Performed at once: no choice
is given that leaves it for a later ACCESS_REPLY.) -/
def Claims.FunctionUnitResultsAreFixedFunctions : Prop :=
  ∀ (i : Instr) (s : State) (th : Thread), isFu i = true → Solo i s th → s.choices = [] → noQueueDest i th →
    s.noFollowers th.tid →
    ∃ t, exec i s = .next t ∧
      (let v := Solo.values i s th
      let r := fuRes i (BitVec.ofNat 32 (arg v 0)).toNat (BitVec.ofNat 32 (arg v 1)).toNat
      t.thread? th.tid = some ({ th.issued i (s.cur.pc + 8) with fpx := th.fpx ||| r.fl }.received (destOf i th) (r.d.headD [])) ∧
      t.groups = s.groupsWith th (destOf i th) (r.d.headD [])) ∧ OthersSame s t th.tid ∧ SameRest s t

/-- The points at which f32 results are exact (R243 to R248, Tables 6.4 and 6.5): zeros, infinities, negative operands, NaNs
with NV for a signalling one, powers of two, and the signs of odd and even functions. -/
def Claims.FunctionUnitExactPoints : Prop :=
  ∀ w : FWord, w.ty = .f32 → ∀ b : Nat,
    let is := fun (i : Instr) (a : Nat) (v : Word) (fl : FFlags) => fuRes i a b = { d := [[v]], fl }
    (is (.rcp w) 0xFF800000 0x80000000 0 ∧ is (.rcp w) 0x80000000 0xFF800000 fDZ ∧ is (.rcp w) 0 0x7F800000 fDZ ∧
      is (.rcp w) 0x7F800000 0 0) ∧
    (is (.rsqrt w) 0xFF800000 0x7FC00000 fNV ∧ is (.rsqrt w) 0x80000000 0xFF800000 fDZ ∧ is (.rsqrt w) 0 0x7F800000 fDZ ∧
      is (.rsqrt w) 0x7F800000 0 0 ∧ is (.rsqrt w) 0xBF800000 0x7FC00000 fNV) ∧
    (is (.sqrt w) 0xFF800000 0x7FC00000 fNV ∧ is (.sqrt w) 0x80000000 0x80000000 0 ∧ is (.sqrt w) 0 0 0 ∧
      is (.sqrt w) 0x7F800000 0x7F800000 0 ∧ is (.sqrt w) 0x41100000 0x40400000 0) ∧
    (is (.exp2 w) 0xFF800000 0 0 ∧ is (.exp2 w) 0x80000000 0x3F800000 0 ∧ is (.exp2 w) 0 0x3F800000 0 ∧
      is (.exp2 w) 0x7F800000 0x7F800000 0 ∧ is (.exp2 w) 0x43000000 0x7F800000 (fOF ||| fNX) ∧
      is (.exp2 w) 0x40400000 0x41000000 0) ∧
    (is (.log2 w) 0xFF800000 0x7FC00000 fNV ∧ is (.log2 w) 0x80000000 0xFF800000 fDZ ∧ is (.log2 w) 0 0xFF800000 fDZ ∧
      is (.log2 w) 0x7F800000 0x7F800000 0 ∧ is (.log2 w) 0xBF800000 0x7FC00000 fNV ∧ is (.log2 w) 0x3F800000 0 0 ∧
      is (.log2 w) 0x41000000 0x40400000 0) ∧
    (is (.tanh w) 0xFF800000 0xBF800000 0 ∧ is (.tanh w) 0x80000000 0x80000000 0 ∧ is (.tanh w) 0 0 0 ∧
      is (.tanh w) 0x7F800000 0x3F800000 0) ∧
    (is (.sinpi w) 0x7F800000 0x7FC00000 fNV ∧ is (.sinpi w) 0x80000000 0x80000000 0 ∧ is (.sinpi w) 0xBF800000 0x80000000 0 ∧
      is (.sinpi w) 0x3F000000 0x3F800000 0 ∧ is (.sinpi w) 0x3FC00000 0xBF800000 0) ∧
    (is (.cospi w) 0xFF800000 0x7FC00000 fNV ∧ is (.cospi w) 0x80000000 0x3F800000 0 ∧ is (.cospi w) 0x3F800000 0xBF800000 0 ∧
      is (.cospi w) 0x3F000000 0 0) ∧
    (∀ i ∈ [Instr.rcp w, .rsqrt w, .sqrt w, .exp2 w, .log2 w, .sinpi w, .cospi w, .tanh w],
      is i 0x7FC12345 0x7FC00000 0 ∧ is i 0x7F812345 0x7FC00000 fNV) ∧
    (∀ a, a < 0x7F800001 → fuRes (.rcp w) (a + 2 ^ 31) b = { fuRes (.rcp w) a b with
      d := [[BitVec.ofNat 32 (wordsValue ((fuRes (.rcp w) a b).d.headD [])) ^^^ 0x80000000]] }) ∧
    (∀ a, a < 0x7F800001 → fuRes (.cospi w) (a + 2 ^ 31) b = fuRes (.cospi w) a b) ∧
    (∀ a, (fuRes (.scpi w) a b).d = [(fuRes (.sinpi w) a b).d.headD [] ++ (fuRes (.cospi w) a b).d.headD []] ∧
      (fuRes (.scpi w) a b).fl = (fuRes (.sinpi w) a b).fl ||| (fuRes (.cospi w) a b).fl) ∧
    (fuRes (.fdiv w) 0 0 = { d := [[0x7FC00000]], fl := fNV } ∧
      fuRes (.fdiv w) 0xFF800000 0x7F800000 = { d := [[0x7FC00000]], fl := fNV } ∧
      fuRes (.fdiv w) 0xC0000000 0 = { d := [[0xFF800000]], fl := fDZ } ∧
      fuRes (.fdiv w) 0x3F800000 0xFF800000 = { d := [[0x80000000]], fl := 0 } ∧
      fuRes (.fdiv w) 0xFF800000 0x40000000 = { d := [[0xFF800000]], fl := 0 } ∧
      fuRes (.fdiv w) 0x40C00000 0x40000000 = { d := [[0x40400000]], fl := 0 }) ∧
    (∀ a, a < 0x7F800000 ∨ (0x80000000 ≤ a ∧ a < 0xFF800000) → fuRes (.exd w) a a = { d := [[0x3F800000]], fl := 0 })

/-- The function unit gives a fixed function of its operand, exact at the points the spec names: the claims named here
hold together.
Completes in a next state of its own effect: rcp rsqrt sqrt exp2 log2 sinpi cospi scpi tanh fdiv exd. -/
def Obligations.FunctionUnitResults : Prop :=
  Claims.FunctionUnitResultsAreFixedFunctions ∧
  Claims.FunctionUnitExactPoints

namespace Sys2Proof.Machine

/-- A lone thread has one instruction to finish, a weak load of a generic address (R295, R302), and nothing else of the machine
waits for an answer or stands in its way. -/
structure LoneLoad (s : State) (th : Thread) (e : Entry) (i : Instr) (a : Acc) : Prop where
  alone  : s.threads = [th] ∧ th.unf = [e] ∧ s.noFollowers th.tid
  word   : decodeWord e.word = .ok i
  load   : accOf i = some a ∧ a.kind = .load ∧ a.space = 0 ∧ a.order = .weak
  entry  : e.line = none ∧ e.val = none ∧ e.retry = 0 ∧ e.dst.all RegRef.isV = true
  thread : th.pending = none ∧ th.halt = none ∧ th.idle = false ∧ th.reinj = false ∧ th.handler = false ∧ th.stepping = false ∧
    th.fetchWait = none
  calm   : (∀ c ∈ s.cores, c.red = [] ∧ c.subs = [] ∧ c.ranges = [] ∧ c.l1 = [] ∧ c.copy = []) ∧ s.hostHeld = [] ∧ s.choices = []
           ∧ s.lag = []
  others : (∀ l ∈ s.launches, l.endWait = none) ∧ s.retire = [] ∧ s.colls = [] ∧ s.images = []

/-- SETMODE's effect (R320): the old value of the setting that `w` names is the result, and the setting is replaced. -/
def SetmodeDone (w : EWord) (s t : State) (th : Thread) (l : Launch) : Prop :=
  let v := (BitVec.ofNat 32 (arg (Solo.values (.setmode w) s th) 0)).toNat
  (w.o2.toNat % 32 = 0 → Wrote s t (.setmode w) th [BitVec.ofNat 32 l.prom.toNat] ∧
    t.launch? th.lslot = some { l with prom := v % 2 = 1 }) ∧
  (w.o2.toNat % 32 = 1 → 64 ≤ v → v ≤ 65535 → Wrote s t (.setmode w) th [BitVec.ofNat 32 l.fair] ∧
    t.launch? th.lslot = some { l with fair := v }) ∧
  (w.o2.toNat % 32 = 1 → v < 64 ∨ 65535 < v → Wrote s t (.setmode w) th [0xFFFFFFFF] ∧ t.launches = s.launches) ∧
  (w.o2.toNat % 32 = 2 → Wrote s t (.setmode w) th [BitVec.ofNat 32 l.wdogLim] ∧
    t.launch? th.lslot = some { l with wdogLim := v, wdog := 0 })

end Sys2Proof.Machine

/-! ### Spec 08: taking an exception, and returning from one -/

/-- TRAP (R314) takes SWTRAP: the handler is entered as R291 gives, with TPC at the TRAP word and CODE its immediate. -/
def Claims.TrapEntersTheHandler : Prop :=
  ∀ (w : EWord) (s : State) (th : Thread), Solo (.trap w) s th → Trappable s th → th.handler = false →
    s.hasHandler th = true →
    ∃ t, exec (.trap w) s = .next t ∧
      t.thread? th.tid = some { th.inHandler s.cur.pc (s.handlerPc th) with code := w.o1 } ∧
      t.groups = s.maskedGroups th 17 true ∧ OthersSame s t th.tid ∧ SameRest s t

/-- The checks of R53: a lone thread that fails a decode check issues nothing of the word and takes the cause, with TPC at
the word; for ILL TSTAT.SUB holds the sub-code. For every instruction word. -/
def Claims.FailedCheckTakesItsCause : Prop :=
  ∀ (i : Instr) (s : State) (th : Thread) (c : Cause) (sub : Nat), isWord i = true → s.cur.threads = [th.tid] →
    Trappable s th → th.handler = false → s.hasHandler th = true →
    decodeCause s i (usesOf i) th = some (c, sub) →
    ∃ t, exec i s = .next t ∧
      t.thread? th.tid = some ({ th with sub := if c = Cause.ill then BitVec.ofNat 8 sub else th.sub }.inHandler
        s.cur.pc (s.handlerPc th)) ∧
      t.groups = s.maskedGroups th c.bit true ∧ OthersSame s t th.tid ∧ SameRest s t

/-- R289 and R290: a cause without a handler, or raised in handler mode, halts the thread, keeps it resident and tells the
host through FLTLOC and vector 0; in handler mode TSTAT.DBL is set. -/
def Claims.CauseWithoutHandlerHalts : Prop :=
  (∀ (w : EWord) (s : State) (th : Thread), Solo (.trap w) s th → Trappable s th → th.handler = false →
    s.hasHandler th = false →
    ∃ t, exec (.trap w) s = .next t ∧
      t.thread? th.tid = some { th with
        code := w.o1, windows := [], tq := false, dbl := false, nestin := BitVec.ofNat 8 th.nest, tpc := s.cur.pc
        outer := th.resume, halt := some (.cause .swtrap) } ∧
      t.groups = s.maskedGroups th 17 true ∧ t.fltloc = fltlocOf th false ∧ t.hostOut = s.hostOut ++ [.msix 0] ∧
      OthersSame s t th.tid) ∧
  ∀ (w : EWord) (s : State) (th : Thread), Solo (.trap w) s th → Trappable s th → th.handler = true →
    ∃ t, exec (.trap w) s = .next t ∧ (∃ x, t.thread? th.tid = some x ∧ x.dbl = true ∧ x.halt = some (.double .swtrap) ∧
        x.v = th.v ∧ x.p = th.p ∧ x.tpc = th.tpc ∧ x.pc = th.pc) ∧
      t.groups = s.maskedGroups th 17 true ∧ t.fltloc = fltlocOf th true ∧ t.hostOut = s.hostOut ++ [.msix 0]

/-- ILLEGAL_WORD and TRAP_ENTRY (R52, R291): an illegal word raises ILL with its sub-code; a cause whose instructions have
all settled is taken by the next TRAP_ENTRY, with TPC at the next unissued word when the raiser stands in the replay queue. -/
def Claims.IllegalWordsAndDueCausesAreTaken : Prop :=
  (∀ (sub : Nat) (s : State) (th : Thread), s.cur.threads = [th.tid] → Trappable s th → th.handler = false →
    s.hasHandler th = true →
    ∃ t, exec (.illegalWord sub) s = .next t ∧
      t.thread? th.tid = some ({ th with sub := BitVec.ofNat 8 sub }.inHandler s.cur.pc (s.handlerPc th)) ∧
      t.groups = s.maskedGroups th 0 true ∧ OthersSame s t th.tid ∧ SameRest s t) ∧
  ∀ (s : State) (th : Thread) (p : Pending), s.threads.filter (fun x => x.tid = th.tid) = [th] → th.pending = some p →
    th.halt = none → th.idle = false → th.settled = true → th.handler = false → s.hasHandler th = true →
    ∃ t, exec (.trapEntry th.tid) s = .next t ∧
      t.thread? th.tid = some { th.inHandler (if p.q then th.pc else p.tpc) (s.handlerPc th) with tq := p.q } ∧
      t.groups = s.groups ∧ OthersSame s t th.tid ∧ SameRest s t

/-- A cause enters the handler or halts the thread: TRAP, failed checks, illegal words, due causes: the claims named here
hold together.
Completes in a next state of its own effect: trap illegalWord trapEntry. -/
def Obligations.CausesTrapOrHalt : Prop :=
  Claims.TrapEntersTheHandler ∧
  Claims.FailedCheckTakesItsCause ∧
  Claims.CauseWithoutHandlerHalts ∧
  Claims.IllegalWordsAndDueCausesAreTaken

/-- RETT (R41, R315): the thread leaves handler mode for TPC with its windows closed, or for the word after it with `.skip`
when the raiser is not in the replay queue; a lane that a cause mask still holds enters the handler again; a changed %nest
raises SECTION. (That a wait which the handler interrupted stands again after RETT is log 35, DEDUCED.) -/
def Claims.RettReturnsToTpc : Prop :=
  (∀ (w : EWord) (s : State) (th : Thread), Solo (.rett w) s th → th.handler = true → th.nestBad = false →
    s.causeHeld th = false → th.replay = [] → th.idle = false →
    ∃ t, exec (.rett w) s = .next t ∧
      (let pc := if w.fl && !th.tq then th.tpc + 8 else th.tpc
      t.thread? th.tid = some { th.issued (.rett w) pc with
        tpc := pc, handler := false, windows := [], wait := th.outer, resume := .ready, outer := .ready, reinj := false
        unf := th.unf.map fun e => { e with hand := false } }) ∧
      t.groups = s.groups ∧ OthersSame s t th.tid ∧ SameRest s t) ∧
  (∀ (w : EWord) (s : State) (th : Thread), Solo (.rett w) s th → th.handler = true → th.nestBad = false →
    s.causeHeld th = true →
    ∃ t, exec (.rett w) s = .next t ∧ t.thread? th.tid = some (th.issued (.rett w) (s.handlerPc th)) ∧
      t.groups = s.groups ∧ OthersSame s t th.tid ∧ SameRest s t) ∧
  (∀ (w : EWord) (s : State) (th : Thread), Solo (.rett w) s th → Trappable s th → th.handler = true → th.nestBad = true →
    ∃ t x, exec (.rett w) s = .next t ∧ t.thread? th.tid = some x ∧ x.dbl = true ∧ x.halt = some (.double .sectionC) ∧
      t.groups = s.maskedGroups th 11 true) ∧
  -- `.skip` with the raiser in the replay queue drops that entry
  ∀ (w : EWord) (s : State) (th : Thread) (e : Entry), Solo (.rett w) s th → th.handler = true → th.nestBad = false →
    s.causeHeld th = false → w.fl = true → th.tq = true → th.unf = [e] → e.queued = true → e.st = 2 → th.idle = false →
    th.halt = none → (∀ x ∈ s.threads, x.tid ≠ th.tid → x.unf = []) → s.noFollowers th.tid →
    ∃ t x, exec (.rett w) s = .next t ∧ t.thread? th.tid = some x ∧ x.unf = [] ∧ x.pc = th.tpc ∧ x.handler = false ∧
      x.v = th.v ∧ OthersSame s t th.tid

/-- BKPT (R319): with a debugger attached the thread halts at the word after it and the debugger is told; without one it takes BKPT with TPC there. -/
def Claims.BkptHaltsOrTraps : Prop :=
  (∀ (w : EWord) (s : State) (th : Thread), Solo (.bkpt w) s th → s.debugged th.lslot = true →
    ∃ t, exec (.bkpt w) s = .next t ∧
      t.thread? th.tid = some { th.issued (.bkpt w) (s.cur.pc + 8) with
        code := w.o1, tpc := s.cur.pc + 8, halt := some .bkpt, windows := [] } ∧
      t.hostOut = s.hostOut ++ [.debugger th.tid] ∧ t.groups = s.groups ∧ OthersSame s t th.tid ∧
      SameRest s { t with hostOut := s.hostOut }) ∧
  ∀ (w : EWord) (s : State) (th : Thread), Solo (.bkpt w) s th → Trappable s th → th.stepping = false →
    th.handler = false → s.hasHandler th = true → s.debugged th.lslot = false →
    ∃ t, exec (.bkpt w) s = .next t ∧
      t.thread? th.tid = some ({ th.issued (.bkpt w) (s.cur.pc + 8) with code := w.o1 }.inHandler
        (s.cur.pc + 8) (s.handlerPc th)) ∧
      t.groups = s.maskedGroups th 18 true ∧ OthersSame s t th.tid ∧ SameRest s t

/-- CAUSECLR, RQWR and CSRWR (R286, R316, R317, R318): the lane's bit of one mask; SKIP or an operand of one replay entry;
one CSR, which without its privilege raises PROT and keeps its value. -/
def Claims.HandlerWordsWriteTheirRegisters : Prop :=
  (∀ (w : EWord) (s : State) (th : Thread), Solo (.causeclr w) s th →
    ∃ t, exec (.causeclr w) s = .next t ∧ t.thread? th.tid = some (th.issued (.causeclr w) (s.cur.pc + 8)) ∧
      t.groups = s.maskedGroups th w.o1.toNat false ∧ OthersSame s t th.tid ∧ SameRest s t ∧
      (w.o1.toNat < 24 → ∀ g ∈ t.groups, flag g.bitmap.toNat w.o1.toNat = decide (g.mask w.o1.toNat ≠ 0))) ∧
  (∀ (w : EWord) (s : State) (th : Thread) (e : Entry), Solo (.rqwr w) s th →
    th.replay[w.o1.toNat % 32]? = some e → (th.unf.map Entry.id).Nodup →
    ∃ t, exec (.rqwr w) s = .next t ∧
      t.thread? th.tid = some { th.issued (.rqwr w) (s.cur.pc + 8) with
        unf := th.unf.map fun y => if y = e then
          y.setField (w.o2.toNat % 32) (BitVec.ofNat 32 (arg (Solo.values (.rqwr w) s th) 0)) else y } ∧
      t.groups = s.groups ∧ OthersSame s t th.tid ∧ SameRest s t) ∧
  (∀ (w : EWord) (s : State) (th : Thread), Solo (.csrwr w) s th → s.csrDenied th w.o1.toNat = false →
    w.o1.toNat = 0x00 →
    ∃ t, exec (.csrwr w) s = .next t ∧
      t.thread? th.tid = some { th.issued (.csrwr w) (s.cur.pc + 8) with
        fpx := th.fpx &&& ~~~((BitVec.ofNat 32 (arg (Solo.values (.csrwr w) s th) 0)).setWidth 5) } ∧
      t.groups = s.groups ∧ OthersSame s t th.tid ∧ SameRest s t) ∧
  (∀ (w : EWord) (s : State) (th : Thread), Solo (.csrwr w) s th → s.csrDenied th w.o1.toNat = false →
    w.o1.toNat = 0x10 ∨ w.o1.toNat = 0x11 →
    ∃ t x, exec (.csrwr w) s = .next t ∧ t.thread? th.tid = some x ∧ x.pc = s.cur.pc + 8 ∧
      (let v := BitVec.ofNat 32 (arg (Solo.values (.csrwr w) s th) 0)
      x.tpc = if w.o1.toNat = 0x10 then setLow th.tpc (v &&& ~~~7#32) else setHigh th.tpc v) ∧
      t.groups = s.groups ∧ OthersSame s t th.tid ∧ SameRest s t) ∧
  (∀ (w : EWord) (s : State) (th : Thread), Solo (.csrwr w) s th → s.csrDenied th w.o1.toNat = false →
    w.o1.toNat = 0x20 →
    ∃ t, exec (.csrwr w) s = .next t ∧ t.thread? th.tid = some (th.issued (.csrwr w) (s.cur.pc + 8)) ∧
      (t.core th.tid.core).parkPct = min 100 ((BitVec.ofNat 32 (arg (Solo.values (.csrwr w) s th) 0)).toNat % 128) ∧
      t.groups = s.groups ∧ OthersSame s t th.tid) ∧
  ∀ (w : EWord) (s : State) (th : Thread), Solo (.csrwr w) s th → Trappable s th → th.handler = false →
    s.hasHandler th = true → s.csrDenied th w.o1.toNat = true →
    ∃ t, exec (.csrwr w) s = .next t ∧ t.thread? th.tid = some (th.inHandler s.cur.pc (s.handlerPc th)) ∧
      t.groups = s.maskedGroups th 7 true ∧ OthersSame s t th.tid ∧ SameRest s t

/-- RETT returns to TPC; CAUSECLR, RQWR and CSRWR write their registers: the claims named here hold together.
Completes in a next state of its own effect: rett rqwr causeclr csrwr. -/
def Obligations.HandlersReturnAndWriteRegisters : Prop :=
  Claims.RettReturnsToTpc ∧ Claims.HandlerWordsWriteTheirRegisters

/-- SETMODE (R320): the launch's promise, fairness interval or watchdog limit is replaced and the old value is the result; a
fairness interval outside 64 to 65,535 changes nothing and gives 0xFFFFFFFF. -/
def Claims.SetmodeReplacesALaunchSetting : Prop :=
  ∀ (w : EWord) (s : State) (th : Thread) (l : Launch), Solo (.setmode w) s th → noQueueDest (.setmode w) th →
    s.noFollowers th.tid → s.launches.filter (fun x => x.slot = th.lslot) = [l] →
    ∃ t, exec (.setmode w) s = .next t ∧ SameMemory s t ∧ SetmodeDone w s t th l

/-- PREEMPT, PRECTL_GO and PREEMPT_DONE (R305, R321, Tables 8.5, 8.6): a refused pre-emption gives its code at once; an
accepted one reserves the cores it vacates and begins the saves, and its end writes the status. (That the cores are reserved
when the pre-emption starts, and the order of its refusals, are log 43, DEDUCED: R278 reserves cores it has vacated.) -/
def Claims.PreemptionStartsAndEnds : Prop :=
  (∀ (w : EWord) (s : State) (th : Thread) c, Solo (.preempt w) s th → noQueueDest (.preempt w) th → s.noFollowers th.tid →
    let e := captureE (.preempt w) s th (Solo.values (.preempt w) s th)
    s.preemptRefused ((e[0]?).getD 0).toNat ((e[1]?).getD 0).toNat (w.o4.toNat % 64) (some th.lslot) = some c →
    ∃ t, exec (.preempt w) s = .next t ∧ Wrote s t (.preempt w) th [BitVec.ofNat 32 (c * 2 ^ 28)] ∧
      t.preempt = s.preempt ∧ t.reserved = s.reserved ∧ SameMemory s t) ∧
  (∀ (w : EWord) (s : State) (th : Thread), Solo (.preempt w) s th → s.noFollowers th.tid →
    let e := captureE (.preempt w) s th (Solo.values (.preempt w) s th)
    s.preemptRefused ((e[0]?).getD 0).toNat ((e[1]?).getD 0).toNat (w.o4.toNat % 64) (some th.lslot) = none →
    ∃ t x, exec (.preempt w) s = .next t ∧ t.thread? th.tid = some x ∧ x.wait = .eng .entry ∧ x.pc = s.cur.pc + 8 ∧
      (∃ p, t.preempt = some p ∧ p.queue = w.o4.toNat % 64 ∧ p.lead = some th.tid ∧ p.saved = false ∧
        ∀ c ∈ p.vacate, c ≠ th.tid.core ∧ (c, p.queue) ∈ t.reserved) ∧ SameMemory s t) ∧
  (∀ (s : State) (v : Word), flag v.toNat 31 = true →
    (∀ c, s.preemptRefused (fld v.toNat 16 8) (fld v.toNat 0 10) (fld v.toNat 24 6) none = some c →
      ∃ t, exec (.prectlGo v) s = .next t ∧ t.prestat = BitVec.ofNat 32 (c * 2 ^ 28) ∧ t.prectl.toNat < 2 ^ 31 ∧
        t.preempt = s.preempt ∧ t.teams = s.teams) ∧
    (s.preemptRefused (fld v.toNat 16 8) (fld v.toNat 0 10) (fld v.toNat 24 6) none = none →
      ∃ t p, exec (.prectlGo v) s = .next t ∧ flag t.prectl.toNat 31 = true ∧ t.preempt = some p ∧
        p.queue = fld v.toNat 24 6 ∧ p.lead = none ∧ t.teams = s.teams)) ∧
  ∀ (s : State) (p : Preempt), s.preempt = some p → p.pend = [] → p.lead = none → p.saved = false → p.full = false →
    s.launches = [] →
    ∃ t, exec .preemptDone s = .next t ∧ t.preempt = none ∧ t.prestat = BitVec.ofNat 32 (1 * 2 ^ 28) ∧
      t.prectl = s.prectl &&& 0x7FFFFFFF#32 ∧ t.teams = s.teams ∧ SameMemory s t

/-- PARKED_SHARE_SWITCH (R299, R300): once the core's share has stood for PARKWIN, the save of the team with the most
fault-parked groups begins, where the pool has room. -/
def Claims.ParkedShareStartsASave : Prop :=
  (∀ (s : State) core, (s.core core).parkCount < (s.core core).parkWin → exec (.parkedShareSwitch core) s = .next s) ∧
  ∀ (s : State) core sl tm, (s.core core).parkWin ≤ (s.core core).parkCount →
    s.shareVictim core = some sl → s.team? core sl = some tm → s.poolRoom (s.imageUnits tm) = true → s.saving = [] →
    ∃ t, exec (.parkedShareSwitch core) s = .next t ∧ t.saving = [(core, sl, true)] ∧ (t.core core).parkCount = 0 ∧
      t.teams = s.teams ∧ t.threads = s.threads

/-- SETMODE, pre-emption by word or by PRECTL, and the switch on the parked share: the claims named here
hold together.
Completes in a next state of its own effect: setmode preempt parkedShareSwitch prectlGo preemptDone. -/
def Obligations.LaunchSettingsAndPreemption : Prop :=
  Claims.SetmodeReplacesALaunchSetting ∧
  Claims.PreemptionStartsAndEnds ∧
  Claims.ParkedShareStartsASave

/-- DBG_HALT, DBG_RESUME, DBG_STEP, DBG_FREEZE, DBG_THAW, DBG_ATTACH, DBG_DETACH (R309, R310, R311): halted threads keep
every register; a resume by the host's command only lets them issue again. -/
def Claims.DebuggerHaltsAndResumes : Prop :=
  (∀ (s : State) l, ∃ t, exec (.dbgHalt l) s = .next t ∧
    t.threads = s.threads.map (fun x => if x.lslot = l ∧ x.idle = false then
      (if x.halt = none then { x with halt := some .command, stepping := false } else { x with resumeDue := false }) else x) ∧
    t.groups = s.groups ∧ t.teams = s.teams ∧ t.quarters = s.quarters ∧ SameMemory s t) ∧
  (∀ (s : State) l th, s.launchThreads l = [th] → s.threads.filter (fun x => x.tid = th.tid) = [th] →
    th.halt = some .command → th.pending = none → th.idle = false → th.wait ≠ .gop →
    ∃ t, exec (.dbgResume l) s = .next t ∧ t.thread? th.tid = some { th with halt := none } ∧
      OthersSame s t th.tid ∧ t.groups = s.groups ∧ SameMemory s t) ∧
  (∀ (s : State) th, s.threads.filter (fun x => x.tid = th.tid) = [th] → th.halt = some .command → th.pending = none →
    ∃ t, exec (.dbgStep th.tid) s = .next t ∧ t.thread? th.tid = some { th with halt := none, stepping := true } ∧
      OthersSame s t th.tid ∧ SameMemory s t) ∧
  (∀ (s : State) c, ∃ t, exec (.dbgFreeze c) s = .next t ∧ t.core c = { s.core c with frozen := true } ∧
    (∀ k, k ≠ c → t.core k = s.core k) ∧ t.threads = s.threads) ∧
  (∀ (s : State) c, ∃ t, exec (.dbgThaw c) s = .next t ∧ t.core c = { s.core c with frozen := false } ∧
    (∀ k, k ≠ c → t.core k = s.core k) ∧ t.threads = s.threads) ∧
  (∀ (s : State) l x, s.launches.filter (fun y => y.slot = l) = [x] →
    (∃ t, exec (.dbgAttach l) s = .next t ∧ t.launch? l = some { x with attached := true } ∧ t.threads = s.threads) ∧
    (∃ t, exec (.dbgDetach l) s = .next t ∧ t.launch? l = some { x with attached := false } ∧ t.threads = s.threads))

/-- DBG_SNAPSHOT (R312, Table 8.10): the window holds the object the selector names, at most 4 KiB of it, and nothing else
of the machine changes. The order of the fields inside an object is the model's choice (log 20). -/
def Claims.SnapshotFillsTheWindow : Prop :=
  (∀ (s : State) sel, ∃ t, exec (.dbgSnapshot sel) s = .next t ∧ t.dbgwin.length = 4096 ∧ t.threads = s.threads ∧
    t.teams = s.teams ∧ t.quarters = s.quarters ∧ t.cores = s.cores ∧ SameMemory s t) ∧
  ∀ (s : State) (sel : Word) th, fld sel.toNat 24 6 = 0 →
    s.thread? { core := 32 * fld sel.toNat 18 4 + fld sel.toNat 13 5, qtr := fld sel.toNat 11 2,
                row := fld sel.toNat 6 5, lane := fld sel.toNat 0 6 } = some th →
    ∃ t, exec (.dbgSnapshot sel) s = .next t ∧ t.dbgwin.take 16 = leBytes 8 th.pc.toNat ++ leBytes 8 th.tpc.toNat

/-- BKPT, the debugger's commands, and the snapshot window: the claims named here hold together.
Completes in a next state of its own effect: bkpt dbgHalt dbgResume dbgStep dbgFreeze dbgThaw dbgSnapshot dbgAttach
dbgDetach. -/
def Obligations.BreakpointsAndTheDebugger : Prop :=
  Claims.BkptHaltsOrTraps ∧ Claims.DebuggerHaltsAndResumes ∧ Claims.SnapshotFillsTheWindow

/-- PAGE_RESPONSE, TRANSLATION_COMPLETION and ACCESS_REPLY (R225, R226, R297, R302): the answer ends the request; the TLB
that asked and the one its die shares hold the translation, and a load that waited for it writes its destination; after a Success
response a load leaves FAULT and is translated again; one that waited on a failed page request raises PAGE with its sub-code and
keeps its instruction in the replay queue; an access, and an instruction of the function unit, that has left its core completes
at its reply.
Completes in a next state of its own effect: pageResponse translationCompletion accessReply. -/
def Obligations.HostAnswersEndTheWaits : Prop :=
  (∀ (s : State) pasid vpn intent, s.pri = [{ pasid, vpn, intent }] → s.threads = [] → s.cores = [] → s.launches = [] →
    s.retire = [] → s.colls = [] → s.images = [] →
    ∃ t, exec (.pageResponse pasid vpn intent .success) s = .next t ∧ t.pri = [] ∧
      t.tlb = s.tlb.filter (fun e => !e.covers pasid vpn) ∧ SameMemory s t) ∧
  (∀ (s : State) pasid vpn intent th e fa, s.pri = [{ pasid, vpn, intent }] → s.threads = [th] → th.unf = [e] →
    e.page = some { key := { pasid, vpn, intent }, ats := false } → e.fa = fa → e.st = 1 → e.queued = true → e.val = none → e.isPrefetch = false →
    th.fetchWait = none → th.pending = none → th.halt = none → th.idle = false → th.handler = false →
    s.hasHandler th = true → s.cores = [] → s.retire = [] → s.colls = [] → s.images = [] →
    (∀ l ∈ s.launches, l.endWait = none) → e.dst.all RegRef.isV = true →
    ∃ t x, exec (.pageResponse pasid vpn intent .invalid) s = .next t ∧ t.pri = [] ∧ t.tlb = s.tlb ∧
      t.thread? th.tid = some x ∧ x.handler = true ∧ x.tq = true ∧ x.tpc = th.pc ∧ x.pc = s.handlerPc th ∧
      x.unf.map (fun y => (y.st, y.cause, y.sub, y.fa, y.queued)) = [(2, some .page, 1, fa, true)] ∧
      t.groups = s.maskedGroups th 6 true) ∧
  (∀ (s : State) pasid vpn tr c, c < 512 → s.ats = [{ pasid, vpn, base := dieOf c / 4, tlbs := [.core c] }] →
    s.threads = [] → s.cores = [] → s.launches = [] → s.retire = [] → s.colls = [] → s.images = [] →
    (∃ t, exec (.translationCompletion pasid vpn (some tr)) s = .next t ∧ t.ats = [] ∧
      (∀ u, u = Tlb.core c ∨ u = .die (dieOf c) → t.tlbEntry u pasid vpn = some { tlb := u, pasid, vpn, tr }) ∧
      ∀ u, u ≠ Tlb.core c → u ≠ .die (dieOf c) → t.tlb.filter (fun e => e.tlb = u) = s.tlb.filter (fun e => e.tlb = u)) ∧
    (∃ t, exec (.translationCompletion pasid vpn none) s = .next t ∧ t.ats = [] ∧ t.tlb = s.tlb)) ∧
  (∀ (s : State) (w : FWord) (th : Thread) (e : Entry), s.threads = [th] → th.unf = [e] → e.st = 0 → e.queued = false →
    e.page = none → e.line = none → e.dst.all RegRef.isV = true → th.wait = .ready → th.pending = none →
    th.reinj = false → (Instr.rcp w).wf = true → encode (.rcp w) = some e.word →
    ∃ t x, exec (.accessReply th.tid e.id) s = .next t ∧ t.thread? th.tid = some x ∧ x.unf = [] ∧
      x.v = writeRefs th.v e.dst ((fuRes (.rcp w) (e.w 0) (e.w 2)).d.headD []) ∧ x.pc = th.pc) ∧
  (∀ (s : State) (i : Instr) (th : Thread) (e : Entry) (a : Acc) tg, LoneLoad s th e i a → e.st = 0 → e.queued = false →
    e.page = none → th.wait = .ready → s.targetOf th a (e.d 0) = some tg → s.cleanSpan tg.pa a.size →
    ∃ t, exec (.accessReply th.tid e.id) s = .next t ∧ SameMemory s t ∧
      t.threads = [{ th with unf := [], v := writeRefs th.v e.dst (extend a.ty (s.bytesAt tg.pa a.size)) }]) ∧
  (∀ (s : State) (i : Instr) (th : Thread) (e : Entry) (a : Acc) (key : PageKey), LoneLoad s th e i a → s.pri = [key] →
    key.pasid = s.pasidOf th.lslot → key.vpn = (e.d 0).toNat / 4096 → key.intent = .read → canonical (e.d 0).toNat = true →
    (e.d 0).toNat % a.align = 0 → e.st = 1 → e.queued = true → e.page = some { key, ats := false } → e.parks = true →
    th.wait = .fault → th.resume = .ready → s.ats = [] → s.portUp = [true, true] →
    let s' := { s with tlb := s.tlb.filter fun y => !y.covers key.pasid key.vpn }
    s'.trans (.core th.tid.core) key.pasid (e.d 0).toNat .read = .miss →
    ∃ t x, exec (.pageResponse key.pasid key.vpn .read .success) s = .next t ∧ t.pri = [] ∧ t.thread? th.tid = some x ∧
      t.ats.map (fun y => (y.pasid, y.vpn)) = [(key.pasid, key.vpn)] ∧ t.hostOut = s.hostOut ++ [.ats key.pasid key.vpn] ∧
      t.tlb = s'.tlb ∧ x.v = th.v ∧ x.wait = .ready ∧
      x.unf.map (fun y => (y.word, y.st, y.queued, y.page)) = [(e.word, 0, false, some { key, ats := true })] ∧
      SameMemory s t) ∧
  ∀ (s : State) (i : Instr) (th : Thread) (e : Entry) (a : Acc) tg (tr : Translation) (key : PageKey), LoneLoad s th e i a →
    s.ats = [{ pasid := key.pasid, vpn := key.vpn, base := dieOf th.tid.core / 4, tlbs := [.core th.tid.core] }] →
    th.tid.core < 512 → e.st = 0 → e.queued = false → e.page = some { key, ats := true } → e.parks = false → th.wait = .ready →
    let fill := fun (es : List TlbEntry) (u : Tlb) => fillTlb { tlb := u, pasid := key.pasid, vpn := key.vpn, tr } es
    let s' := { s with tlb := (s.atsTlbs key.pasid key.vpn).foldl fill s.tlb }
    s'.targetOf th a (e.d 0) = some tg → s.cleanSpan tg.pa a.size →
    ∃ t, exec (.translationCompletion key.pasid key.vpn (some tr)) s = .next t ∧ t.ats = [] ∧ t.tlb = s'.tlb ∧ SameMemory s t ∧
      t.threads = [{ th with unf := [], v := writeRefs th.v e.dst (extend a.ty (s.bytesAt tg.pa a.size)) }]

/-! ### Spec 03: memory instructions -/

/-- LD, LDI, LDS, LDSI, LDP and LDV (R117, R142, R144, R145): the destination receives the bytes at the address, extended
as Table 3.2 says; memory is as before; and a word that the L1 holds may serve a weak load.
Completes in a next state of its own effect: ldi ldsi ld lds ldv ldp. -/
def Obligations.LoadsReturnTheBytesAtTheAddress : Prop :=
  ∀ (i : Instr) (s : State) (th : Thread) (a : Acc), accOf i = some a → Solo i s th → CalmAccess s th → noQueueDest i th →
    (∀ tg, a.kind = .load → s.targetOf th a (eaOf i s th) = some tg → (s.core th.tid.core).l1 = [] →
      s.cleanSpan tg.pa a.size →
      ∃ t, exec i s = .next t ∧ Wrote s t i th (extend a.ty (s.bytesAt tg.pa a.size)) ∧ SameMemory s t ∧
        (a.order = .weak → SameRest s t)) ∧
    (∀ tg v d, a.kind = .load → a.order = .weak → a.space = 0 → a.ty = .b32 → s.targetOf th a (eaOf i s th) = some tg →
      (s.core th.tid.core).l1Word? tg.pa = some (v, d, false) →
      ∃ t, exec i s = .next t ∧ Wrote s t i th [v] ∧ SameMemory s t ∧ SameRest s t) ∧
    (∀ n tg (pa : Nat → Nat), a.kind = .loadRun n → s.targetOf th a (eaOf i s th) = some tg →
      (∀ k, k < n → s.trans (.core th.tid.core) (s.pasidOf th.lslot) (eaOf i s th + BitVec.ofNat 64 (4 * k)).toNat .read
        = .ok (pa k) ∧ pa k % 4 = 0 ∧ pa k + 4 ≤ 2 ^ 42 ∧ s.cleanSpan (pa k) 4) → (s.core th.tid.core).l1 = [] →
      ∃ t, exec i s = .next t ∧
        Wrote s t i th ((List.range n).map fun k => BitVec.ofNat 32 (s.value (pa k) 4)) ∧ SameMemory s t)

/-- ST, STI, STS, STSI, STP and STV (R117, R118, R142, R144): a store to a scratchpad, and a strong store at die scope or
wider, writes its bytes at the address; a weak or narrower one leaves memory and its bytes stand in the core's L1. The
thread's registers are as before.
Completes in a next state of its own effect: sti stsi st sts stv stp. -/
def Obligations.StoresWriteTheirBytes : Prop :=
  ∀ (i : Instr) (s : State) (th : Thread) (a : Acc), accOf i = some a → Solo i s th → CalmAccess s th →
    (s.core th.tid.core).l1 = [] →
    (∀ tg, a.kind = .store → s.targetOf th a (eaOf i s th) = some tg → s.cleanSpan tg.pa a.size →
      let bs := leBytes a.size (dataOf i s th (tyRegs a.ty))
      ((a.space ≠ 0 ∨ (a.order ≠ .weak ∧ Scope.wide a.scope = true)) →
        ∃ t, exec i s = .next t ∧ Wrote s t i th [] ∧ SameButCores s { t with mem := s.mem, published := s.published } ∧
          (s.memOk = true → t.bytesAt tg.pa a.size = bs ∧ SameMemoryBut s t tg.pa a.size)) ∧
      (a.space = 0 → (a.order = .weak ∨ Scope.wide a.scope = false) →
        ∃ t, exec i s = .next t ∧ Wrote s t i th [] ∧ SameMemory s t ∧ SameButCores s t ∧
          ∀ k, k < a.size → (t.core th.tid.core).l1Byte? (tg.pa + k) = bs[k]?)) ∧
    (∀ n tg (pa : Nat → Nat), a.kind = .storeRun n → s.targetOf th a (eaOf i s th) = some tg →
      (∀ k, k < n → s.trans (.core th.tid.core) (s.pasidOf th.lslot) (eaOf i s th + BitVec.ofNat 64 (4 * k)).toNat .write
        = .ok (pa k) ∧ pa k % 4 = 0 ∧ pa k + 4 ≤ 2 ^ 42 ∧ s.cleanSpan (pa k) 4 ∧ ∀ j, j < k → pa j ≠ pa k) →
      (a.order ≠ .weak → Scope.wide a.scope = true → s.memOk = true →
        ∃ t, exec i s = .next t ∧ Wrote s t i th [] ∧
          (∀ k, k < n → t.value (pa k) 4 = (memEntry i s th).w (2 + k)) ∧
          ∀ x, (∀ k, k < n → x < pa k ∨ pa k + 4 ≤ x) → t.byte x = s.byte x) ∧
      ((a.order = .weak ∨ Scope.wide a.scope = false) →
        ∃ t, exec i s = .next t ∧ Wrote s t i th [] ∧ SameMemory s t ∧
          ∀ k, k < n → (t.core th.tid.core).l1Word? (pa k) = some (BitVec.ofNat 32 ((memEntry i s th).w (2 + k)), true, false)))

/-- ATOM, ATOMS, ATOMP, ACAS and RED (R122, R146 to R150): an RMW that exists at the place gives the old value and stores
the new one in one step; ACAS stores only when the old value equals its comparand; RED returns nothing: a `.strong` one
waits in the core's reduction buffer and RED_MERGE performs it; a combination that does not exist there raises ATYPE.
Completes in a next state of its own effect: atom acas red atoms atomp redMerge. -/
def Obligations.ReadModifyWriteIsOneStep : Prop :=
  (∀ (i : Instr) (s : State) (th : Thread) (a : Acc) tg, accOf i = some a → Solo i s th → CalmAccess s th → noQueueDest i th →
    (s.core th.tid.core).l1 = [] → s.targetOf th a (eaOf i s th) = some tg → s.cleanSpan tg.pa a.size → s.memOk = true →
    let old := s.value tg.pa a.size
    (∀ op, a.kind = .rmw op → rmwExists op a.ty tg.place = true →
      ∃ t, exec i s = .next t ∧ Wrote s t i th (valueWords (tyRegs a.ty) old) ∧
        t.bytesAt tg.pa a.size = leBytes a.size (rmwFn op a.ty old (dataOf i s th 2)) ∧ SameMemoryBut s t tg.pa a.size) ∧
    (a.kind = .acas →
      ∃ t, exec i s = .next t ∧ Wrote s t i th (valueWords (tyRegs a.ty) old) ∧ SameMemoryBut s t tg.pa a.size ∧
        (old = dataOf i s th (tyRegs a.ty) → t.bytesAt tg.pa a.size =
          leBytes a.size ((memEntry i s th).data 4 (tyRegs a.ty))) ∧
        (old ≠ dataOf i s th (tyRegs a.ty) → SameMemory s t)) ∧
    (∀ op, a.kind = .red op → rmwExists op a.ty tg.place = true → a.order ≠ .rel →
      ∃ t, exec i s = .next t ∧ Wrote s t i th [] ∧ SameMemory s t ∧
        (t.core th.tid.core).red = [{ addr := tg.pa, op, ty := a.ty, val := dataOf i s th (tyRegs a.ty) }]) ∧
    (∀ op, a.kind = .red op → rmwExists op a.ty tg.place = true → a.order = .rel →
      ∃ t, exec i s = .next t ∧ Wrote s t i th [] ∧ SameMemoryBut s t tg.pa a.size ∧
        t.bytesAt tg.pa a.size = leBytes a.size (rmwFn op a.ty old (dataOf i s th (tyRegs a.ty)))) ∧
    (∀ op, (a.kind = .rmw op ∨ a.kind = .red op) → rmwExists op a.ty tg.place = false → Trappable s th →
      th.stepping = false → th.handler = false → s.hasHandler th = true →
      ∃ t x, exec i s = .next t ∧ t.thread? th.tid = some x ∧ x.handler = true ∧ x.tq = true ∧ x.tpc = s.cur.pc + 8 ∧
        x.v = th.v ∧ x.unf.map (fun e => (e.st, e.cause, e.queued)) = [(2, some .atype, true)] ∧
        t.groups = s.maskedGroups th 10 true ∧ SameMemory s t)) ∧
  ∀ (s : State) (c : CoreSt) (x : Contribution), s.cores = [c] → c.red = [x] → c.l1 = [] → c.subs = [] → s.hostHeld = [] →
    s.cleanSpan x.addr (4 * tyRegs x.ty) → x.addr + 4 * tyRegs x.ty ≤ 2 ^ 42 → s.memOk = true →
    ∃ t, exec (.redMerge c.id (x.addr / 128)) s = .next t ∧ (t.core c.id).red = [] ∧ t.threads = s.threads ∧
      t.bytesAt x.addr (4 * tyRegs x.ty) =
        leBytes (4 * tyRegs x.ty) (rmwFn x.op x.ty (s.value x.addr (4 * tyRegs x.ty)) x.val) ∧
      SameMemoryBut s t x.addr (4 * tyRegs x.ty)

/-- FENCE, PFETCH, WAITZ, WAITNE and WAIT_REREAD (R119, R151, R191): after a release at die scope or wider no word of the
core's L1 is dirty and memory holds the dirty values; PFETCH changes no register and no byte, asks
for a page without a translation, and with one brings its line into the L1 where it says so; a wait whose condition holds
goes on, one whose condition fails parks for 2,048 cycles of the issue clock and is read again.
Completes in a next state of its own effect: waitz waitne fence pfetch waitReread. -/
def Obligations.FencesAndWaits : Prop :=
  (∀ (w : MWord) (s : State) (th : Thread), Solo (.fence w) s th → CalmAccess s th →
    ((s.core th.tid.core).l1.map L1Line.line).Nodup →
    (∀ l ∈ (s.core th.tid.core).l1, 128 * l.line + 128 ≤ 2 ^ 40 ∧ l.dirty.length = 32 ∧ l.valid.length = 32) →
    ∃ t, exec (.fence w) s = .next t ∧ t.thread? th.tid = some (th.issued (.fence w) (s.cur.pc + 8)) ∧
      t.groups = s.groups ∧ OthersSame s t th.tid ∧
      (w.order = .acq ∨ Scope.wide w.scope = false → SameMemory s t) ∧
      (w.order ≠ .acq → Scope.wide w.scope = true → s.memOk = true →
        (t.core th.tid.core).dirtyWords = [] ∧
        ∀ a v, a % 4 = 0 → (s.core th.tid.core).l1Word? a = some (v, true, false) → t.value a 4 = v.toNat)) ∧
  (∀ (w : MWord) (s : State) (th : Thread) l1, Solo (.pfetch w) s th → CalmAccess s th →
    (accOf (.pfetch w)).map Acc.kind = some (.prefetch l1) →
    let ea := (eaOf (.pfetch w) s th).toNat
    let r := s.trans (.core th.tid.core) (s.pasidOf th.lslot) ea .read
    let went := fun (t : State) => exec (.pfetch w) s = .next t ∧
      t.thread? th.tid = some (th.issued (.pfetch w) (s.cur.pc + 8)) ∧ t.groups = s.groups ∧ OthersSame s t th.tid ∧
      SameMemory s t ∧ SameButCores s t
    ((canonical ea = false ∨ r = .vault ∨ r = .perm) → ∃ t, went t) ∧
    (∀ pa, canonical ea = true → r = .ok pa → pa / 128 * 128 + 128 ≤ 2 ^ 42 →
      (s.core th.tid.core).l1.length < (s.core th.tid.core).l1Room →
      ∃ t, went t ∧ (l1 = true → ((t.core th.tid.core).line? pa).isSome = true)) ∧
    (canonical ea = true → r = .miss → s.ats = [] →
      ∃ t x, exec (.pfetch w) s = .next t ∧ t.thread? th.tid = some x ∧ x.pc = s.cur.pc + 8 ∧ x.v = th.v ∧
        x.wait = .ready ∧ x.unf.map (fun e => (e.word, e.st, e.page.isSome)) = [((memEntry (.pfetch w) s th).word, 0, true)] ∧
        t.hostOut = s.hostOut ++ [.ats (s.pasidOf th.lslot) (ea / 4096)] ∧ OthersSame s t th.tid ∧ SameMemory s t)) ∧
  (∀ (i : Instr) (s : State) (th : Thread) (a : Acc) ne tg, accOf i = some a → a.kind = .wait ne → Solo i s th →
    th.resume = .ready → CalmAccess s th → (s.core th.tid.core).l1 = [] → s.targetOf th a (eaOf i s th) = some tg → s.cleanSpan tg.pa a.size →
    let c := if ne then dataOf i s th (tyRegs a.ty) else 0
    let holds := if ne then s.value tg.pa a.size ≠ c else s.value tg.pa a.size = 0
    (holds → ∃ t, exec i s = .next t ∧ t.thread? th.tid = some (th.issued i (s.cur.pc + 8)) ∧ t.groups = s.groups ∧
      OthersSame s t th.tid ∧ SameMemory s t) ∧
    (¬ holds → ∃ t x, exec i s = .next t ∧ t.thread? th.tid = some x ∧
      x.wait = .poll (s.issueClock (dieOf th.tid.core) + 2048) ∧ x.pc = s.cur.pc + 8 ∧ x.v = th.v ∧
      x.unf.map (fun e => (e.word, e.st, e.queued)) = [((memEntry i s th).word, 0, false)] ∧
      t.groups = s.groups ∧ OthersSame s t th.tid ∧ SameMemory s t)) ∧
  (∀ (w : IWord) (s : State) (th : Thread) (e : Entry) u pa, s.threads.filter (fun x => x.tid = th.tid) = [th] →
    th.wait = .poll u → th.unf = [e] → e.st = 0 → e.queued = false → e.page = none → e.line = none → e.dst = [] →
    e.parks = true → th.pending = none → th.resume = .ready → decodeWord e.word = .ok (.waitz w) → w.mod10.toNat / 512 = 0 → immTy w = .b32 →
    immOrder w = .weak → canonical (e.d 0).toNat = true → (e.d 0).toNat % 4 = 0 →
    s.trans (.core th.tid.core) (s.pasidOf th.lslot) (e.d 0).toNat .read = .ok pa →
    s.trans (.core th.tid.core) (s.pasidOf th.lslot) (e.d 0 + 3).toNat .read = .ok (pa + 3) →
    (∀ c ∈ s.cores, c.red = [] ∧ c.subs = [] ∧ c.ranges = [] ∧ c.l1 = []) → s.hostHeld = [] → s.choices = [] →
    pa % 4 = 0 → pa + 4 ≤ 2 ^ 42 → s.cleanSpan pa 4 →
    (s.value pa 4 = 0 → ∃ t, exec (.waitReread th.tid) s = .next t ∧
      t.thread? th.tid = some { th with wait := .ready, unf := [] } ∧ OthersSame s t th.tid ∧ SameMemory s t) ∧
    (s.value pa 4 ≠ 0 → ∃ t, exec (.waitReread th.tid) s = .next t ∧
      t.thread? th.tid = some { th with wait := .poll (s.issueClock (dieOf th.tid.core) + 2048) } ∧
      OthersSame s t th.tid ∧ SameMemory s t))

/-- An access that is not aligned raises ALIGN and a generic address that is not canonical PROT (R110, R114, R142): the
instruction stands in the replay queue and nothing is accessed. A page without a translation is asked for once, and the
access waits (R225). -/
def Obligations.AccessesTrapOrWaitForTranslation : Prop :=
  ∀ (i : Instr) (s : State) (th : Thread) (a : Acc), accOf i = some a → a.space = 0 → isWait i = false →
    a.isFence = false → (∀ b, a.kind ≠ .prefetch b) → Solo i s th → CalmAccess s th →
    (∀ c : Cause, ((canonical (eaOf i s th).toNat = false ∧ c = .prot) ∨
        (canonical (eaOf i s th).toNat = true ∧ (eaOf i s th).toNat % a.align ≠ 0 ∧ c = .align)) →
      Trappable s th → th.stepping = false → th.handler = false → s.hasHandler th = true →
      ∃ t, exec i s = .next t ∧
        t.thread? th.tid = some { ({ th.issued i (s.cur.pc + 8) with
          unf := [{ memEntry i s th with st := 2, cause := some c, fa := eaOf i s th, queued := true }] }.inHandler
            (s.cur.pc + 8) (s.handlerPc th)) with tq := true } ∧
        t.groups = s.maskedGroups th c.bit true ∧ OthersSame s t th.tid ∧ SameRest s t) ∧
    (canonical (eaOf i s th).toNat = true → (eaOf i s th).toNat % a.align = 0 →
      s.trans (.core th.tid.core) (s.pasidOf th.lslot) (eaOf i s th).toNat (if a.writes then .write else .read) = .miss →
      s.ats = [] →
      ∃ t x, exec i s = .next t ∧ t.thread? th.tid = some x ∧ x.pc = s.cur.pc + 8 ∧ x.v = th.v ∧
        x.unf.map (fun e => (e.word, e.st, e.queued, e.page.isSome)) = [((memEntry i s th).word, 0, false, true)] ∧
        t.ats = [{ pasid := s.pasidOf th.lslot, vpn := (eaOf i s th).toNat / 4096, base := dieOf th.tid.core / 4
                   tlbs := [.core th.tid.core] }] ∧
        t.hostOut = s.hostOut ++ [.ats (s.pasidOf th.lslot) ((eaOf i s th).toNat / 4096)] ∧
        t.groups = s.groups ∧ OthersSame s t th.tid ∧ SameMemory s t)

/-! ### Spec 09: the copy engine -/

/-- TCOPY, TSTORE, TGATHER, TKICK and COPY_ACCEPT (R323, R341, R347, R354): a command that passes the checks takes a free
entry, registers its ranges, arms its completion object, and the thread goes on; nothing else of memory changes.
Completes in a next state of its own effect: tcopy tkick tstore tgather copyAccept. -/
def Obligations.CopyCommandsAreAccepted : Prop :=
  (∀ (i : Instr) (s : State) (th : Thread) (opc : Nat) h pa, (match i with
      | .tcopy _ => opc = 0 | .tstore _ => opc = 1 | .tgather _ => opc = 2 | _ => False) →
    Solo i s th → th.unf = [] → EngCalm s → (s.core th.tid.core).copy = [] → (s.core th.tid.core).ranges = [] →
    let x := s.eng th.tid.core th.slot
    let e := engEntry i s th
    let a := copyArgsOf opc e
    TileOk s x a h pa → s.objectRoom x a.comp (countedBytes a h) →
    ∃ t, exec i s = .next t ∧ GoesOn s t i th ∧ Armed s t x a.comp (countedBytes a h) ∧
      (t.core th.tid.core).ranges = copyRanges x a h 0 ∧
      (t.core th.tid.core).copy = [{ idx := 0, slot := th.slot, tid := th.tid, pc := e.pc, word := e.word, opv := e.opv,
                                     job := .tile a h, left := countedBytes a h, rng := copyRanges x a h 0 }]) ∧
  (∀ (w : EWord) (s : State) (th : Thread), Solo (.tkick w) s th → th.unf = [] → EngCalm s →
    (s.core th.tid.core).copy = [] → (s.core th.tid.core).ranges = [] →
    let x := s.eng th.tid.core th.slot
    let e := engEntry (.tkick w) s th
    let l : ListArgs := { off := e.w 0, n := e.w 1, comp := e.w 2, next := 0 }
    1 ≤ l.n → l.n ≤ 256 → s.badSpan x l.off (64 * l.n) 64 = false → s.badSpan x l.comp 16 16 = false →
    s.objectRoom x l.comp (64 * l.n) →
    ∃ t, exec (.tkick w) s = .next t ∧ GoesOn s t (.tkick w) th ∧ Armed s t x l.comp (64 * l.n) ∧
      (t.core th.tid.core).ranges = [listSpan x l 0] ∧
      (t.core th.tid.core).copy = [{ idx := 0, slot := th.slot, tid := th.tid, pc := e.pc, word := e.word, opv := e.opv,
                                     job := .list { l with own := some (listSpan x l 0) } none }]) ∧
  ∀ (w : EWord) (s : State) (th : Thread) (e : Entry) h pa, s.threads.filter (fun x => x.tid = th.tid) = [th] →
    th.unf = [e] → e.st = 0 → e.queued = false → e.page = none → e.parks = true → e.dst = [] →
    decodeWord e.word = .ok (.tcopy w) → th.wait = .eng .entry → th.pending = none → EngCalm s →
    (s.core th.tid.core).copy = [] → (s.core th.tid.core).ranges = [] →
    let x := s.eng th.tid.core th.slot
    let a := copyArgsOf 0 e
    TileOk s x a h pa → s.objectRoom x a.comp (countedBytes a h) →
    ∃ t, exec (.copyAccept th.tid) s = .next t ∧ t.thread? th.tid = some { th with wait := th.resume, resume := .ready, unf := [] } ∧
      OthersSame s t th.tid ∧ Armed s t x a.comp (countedBytes a h) ∧
      (t.core th.tid.core).copy.map CopyCmd.job = [.tile a h]

/-- COPY_TRANSFER for a tile row of f32 elements as they are stored (R343, R344, R346), and COPY_RETIRE (R140, R342): a
TCOPY unit puts the row's elements, or zeros outside the tensor, into the scratchpad; a TSTORE unit puts the scratchpad's
elements into the tensor; retirement takes the command off its object, and frees its ranges and its entry. (That one step moves
one tile row, and that the last one is counted only at retirement, are log 24, DEDUCED: R342 leaves the steps to the engine.) -/
def Claims.CopyCommandsMoveTheirRows : Prop :=
  (∀ (s : State) (k : CoreSt) (c : CopyCmd) (a : CopyArgs) (h : Shape) (pa : Nat → Nat), s.cores = [k] → k.copy = [c] →
    k.ranges = c.rng → c.job = .tile a h → c.ended = false → c.early = false → a.opc = 0 → EngCalm s →
    h.sl = 0 → h.fmt = 0 → h.sfmt = 0 → h.tr = false → c.unit_ + 1 = h.trows →
    let x := s.eng k.id c.slot
    let r := fld a.arg.toNat 0 32 + c.unit_
    let at_ := a.soff + c.unit_ * h.pitch
    (∀ j, j < h.tk → s.trans (.die (dieOf k.id)) x.pasid (elemAddr h a.gaddr.toNat r (winK a + j) % 2 ^ 64) .read = .ok (pa j) ∧
      canonical (elemAddr h a.gaddr.toNat r (winK a + j) % 2 ^ 64) = true ∧
      elemAddr h a.gaddr.toNat r (winK a + j) % 4 = 0 ∧ pa j + 4 ≤ 2 ^ 42 ∧ s.cleanSpan (pa j) 4) →
    ∃ t, exec (.copyTransfer k.id c.idx) s = .next t ∧ SameMemoryBut s t (x.spa at_) (4 * h.tk) ∧
      (∀ j, j < h.tk → t.value (x.spa at_ + 4 * j) 4 =
        if r < h.rows ∧ winK a + j < h.k then s.value (pa j) 4 else 0) ∧
      (t.core k.id).copy.map (fun y => (y.unit_, y.ended)) = [(c.unit_ + 1, true)] ∧ t.threads = s.threads) ∧
  (∀ (s : State) (k : CoreSt) (c : CopyCmd) (a : CopyArgs) (h : Shape) (pa : Nat → Nat), s.cores = [k] → k.copy = [c] →
    k.ranges = c.rng → c.job = .tile a h → c.ended = false → c.early = false → a.opc = 1 → EngCalm s →
    h.sl = 0 → h.fmt = 0 → h.sfmt = 0 → h.tr = false → c.unit_ + 1 = h.trows →
    let x := s.eng k.id c.slot
    let r := fld a.arg.toNat 0 32 + c.unit_
    let at_ := a.soff + c.unit_ * h.pitch
    let n := min h.tk (h.k - winK a)
    r < h.rows → s.cleanSpan (x.spa at_) (4 * h.tk) →
    (∀ j, j < n → s.trans (.die (dieOf k.id)) x.pasid (elemAddr h a.gaddr.toNat r (winK a + j) % 2 ^ 64) .write = .ok (pa j) ∧
      canonical (elemAddr h a.gaddr.toNat r (winK a + j) % 2 ^ 64) = true ∧
      elemAddr h a.gaddr.toNat r (winK a + j) % 4 = 0 ∧ pa j + 4 ≤ 2 ^ 42 ∧ ∀ m, m < j → pa m + 4 ≤ pa j) →
    ∃ t, exec (.copyTransfer k.id c.idx) s = .next t ∧
      (∀ j, j < n → t.value (pa j) 4 = s.value (x.spa at_ + 4 * j) 4) ∧
      (∀ y, (∀ j, j < n → y < pa j ∨ pa j + 4 ≤ y) → t.byte y = s.byte y) ∧
      (t.core k.id).copy.map (fun y => (y.unit_, y.ended)) = [(c.unit_ + 1, true)] ∧ t.threads = s.threads) ∧
  ∀ (s : State) (k : CoreSt) (c : CopyCmd) (a : CopyArgs) (h : Shape), s.cores = [k] → k.copy = [c] → k.ranges = c.rng →
    c.job = .tile a h → c.ended = true → c.err = false → EngCalm s →
    let x := s.eng k.id c.slot
    let st := s.value (x.spa (a.comp + 4)) 4
    ∃ t, exec (.copyRetire k.id c.idx) s = .next t ∧ (t.core k.id).copy = [] ∧ (t.core k.id).ranges = [] ∧
      t.value (x.spa a.comp) 4 = (s.value (x.spa a.comp) 4 + 2 ^ 32 - c.left % 2 ^ 32) % 2 ^ 32 ∧
      t.value (x.spa (a.comp + 4)) 4 = st / 2 ^ 30 * 2 ^ 30 + (st % 2 ^ 16 + 2 ^ 16 - 1) % 2 ^ 16 ∧
      SameMemoryBut s t (x.spa a.comp) 8 ∧ t.threads = s.threads

/-- TKICK_RECORD_START (R354): the next record of a list is read from the scratchpad, checked, and becomes the command that
runs; a record with a reserved opcode ends the list with ERR and its address, and frees the entry. -/
def Claims.RequestListsStartTheirRecords : Prop :=
  ∀ (s : State) (k : CoreSt) (c : CopyCmd) (l : ListArgs), s.cores = [k] → k.copy = [c] → c.job = .list l none →
    EngCalm s → l.next < l.n → l.raw = none → c.err = false →
    let x := s.eng k.id c.slot
    let at_ := l.off + 64 * l.next
    s.cleanSpan (x.spa at_) 64 → k.ranges = [listSpan x l c.idx] → l.own = some (listSpan x l c.idx) →
    (∀ a h pa, parseRequest (s.value (x.spa at_) 64) = some a → TileOk s x a h pa →
      s.objectRoom x a.comp (countedBytes a h) → a.comp + 16 ≤ l.comp ∨ l.comp + 16 ≤ a.comp →
      (∀ e ∈ copyRanges x a h c.idx, e.conflicts (listSpan x l c.idx) = false) → l.next + 1 < l.n →
      ∃ t, exec (.tkickRecordStart k.id c.idx) s = .next t ∧
        (t.core k.id).copy = [{ c with
          job := .list { l with next := l.next + 1 } (some (a, h)), left := countedBytes a h
          rng := copyRanges x a h c.idx, wait := none, line := none, retry := 0, early := false, held := false }] ∧
        (t.core k.id).ranges = listSpan x l c.idx :: copyRanges x a h c.idx ∧
        t.value (x.spa a.comp) 4 = s.value (x.spa a.comp) 4 + countedBytes a h ∧
        t.value (x.spa l.comp) 4 = (s.value (x.spa l.comp) 4 + 2 ^ 32 - 64) % 2 ^ 32 ∧ t.threads = s.threads) ∧
    (parseRequest (s.value (x.spa at_) 64) = none →
      ∃ t, exec (.tkickRecordStart k.id c.idx) s = .next t ∧ (t.core k.id).copy = [] ∧ (t.core k.id).ranges = [] ∧
        (let o := fld (s.value (x.spa at_) 64) 192 32
        flag (t.value (x.spa (l.comp + 4)) 4) 31 = true ∧
        (s.badSpan x o 16 16 = false → o + 16 ≤ l.comp ∨ l.comp + 16 ≤ o →
          flag (t.value (x.spa (o + 4)) 4) 31 = true ∧
          ∀ y, (y < x.spa l.comp ∨ x.spa l.comp + 16 ≤ y) → (y < x.spa o ∨ x.spa o + 16 ≤ y) → t.byte y = s.byte y) ∧
        (s.badSpan x o 16 16 = true → SameMemoryBut s t (x.spa l.comp) 16)) ∧ t.threads = s.threads)

/-- Copy commands move their rows and retire; a request list starts its records: the claims named here hold together.
Completes in a next state of its own effect: copyRetire tkickRecordStart copyTransfer. -/
def Obligations.CopyCommandsMoveTheirRows : Prop :=
  Claims.CopyCommandsMoveTheirRows ∧ Claims.RequestListsStartTheirRecords

namespace Sys2Proof.Machine

/-- The one convergence-register instance that threads of quarter `qtr` reach as register `k` of a team. -/
abbrev oneCv (tm : Team) (k qtr : Nat) (x : CvInst) : Prop := tm.cvs.filter (fun y => y.cv = k && y.qtr = cvQtr y.kind qtr) = [x]

/-- A latched matrix command passes the checks of R363 with the operand maps `maps`. -/
structure MatrixOk (s : State) (x : Eng) (qtr : Nat) (m : MCommand) (maps : List OMap) : Prop where
  maps  : if m.args.onArray then ∃ a b, maps = [a, b] ∧ a.kind = 0 ∧ b.kind = 1 ∧
            ((s.team? x.core x.slot).bind fun tm => (tm.omaps[m.args.amap]?).getD none) = some a ∧
            ((s.team? x.core x.slot).bind fun tm => (tm.omaps[m.args.bmap]?).getD none) = some b ∧
            ∀ y ∈ maps, ∀ p, y.span (mmaBlocks m a b) = some p → s.badSpan x p.1 p.2 1 = false
          else maps = []
  tiles : ∀ t ∈ m.args.named, ((s.quarter x.core qtr).tile t).owner = none ∨ ((s.quarter x.core qtr).tile t).owner = some x.slot
  span  : ∀ n, m.oBytes = some n → s.badSpan x m.o n 64 = false
  spec  : (m.args.kind = .spdrop ∨ ∃ r, m.args.kind = .spcommit r) →
          ((s.quarter x.core qtr).shadowOf (x.slot, m.args.t, m.tok)).isSome = true ∧
          ((s.quarter x.core qtr).tile m.args.t).owner = some x.slot
  free  : m.args.kind = .mmas → ((s.quarter x.core qtr).shadowOf (x.slot, m.args.t, m.tok)).isSome = true ∨
          (s.quarter x.core qtr).freeShadow.isSome = true

/-- Elements after the K-blocks of two maps have been added into them (R366, R367), each block read from the scratchpad. -/
def blocksAdded (s : State) (x : Eng) (a b : OMap) (ks : List Nat) (d : List Word) : List Word :=
  ks.foldl (fun d k => d.mapIdx fun e t =>
    accumulate t (blockSum a.w (a.row x k (e / 16) { st := s }).1 (b.row x k (e % 16) { st := s }).1)) d

/-- The word of a team's scratchpad at an offset. -/
def State.spWord (s : State) (x : Eng) (off : Nat) : Word := BitVec.ofNat 32 (s.value (x.spa off) 4)

/-- The values of one row of a tile, and the bits of the largest of a row (R373, R375). -/
def tileRowVals (y : AccTile) (r : Nat) : List FVal := ((y.data.drop (16 * r)).take 16).map fun v => Fmt.f32.read v.toNat
def rowMax (ws : List Word) : Word :=
  match ws with
  | w :: rest => BitVec.ofNat 32 (rest.foldl (fun acc v => (minmaxBits .f32 false acc v.toNat).val)
      (minmaxBits .f32 false w.toNat w.toNat).val)
  | [] => 0

end Sys2Proof.Machine

/-! ### Spec 10: the matrix engine -/

/-- MMA, MMAS, ACCZ, ACCLD, ACCST, ACCROW, ACCRMAX, SPCOMMIT and SPDROP (R177, R362): the thread's signature is counted on
the named convergence register, the word and its operands are latched, and the thread waits in CVW; a register that is not
of kind quarter or qrole raises CONV and keeps the instruction in the replay queue. -/
def Claims.MatrixCommandsSign : Prop :=
  ∀ (i : Instr) (a : MArgs) (s : State) (th : Thread) (tm : Team) (x : CvInst), mArgs i = some a → Solo i s th →
    s.teams.filter (fun y => y.core = th.tid.core && y.slot = th.slot) = [tm] → oneCv tm a.cv th.tid.qtr x →
    let e := engEntry i s th
    (3 ≤ x.kind → x.full = false → th.tid ∉ x.signers → th.tid ∉ x.opThreads → (x.op = none ∨ x.op = some (e.word, e.opv)) →
      (∃ y ∈ s.cvSet th.tid.core th.slot x, y.tid = th.tid) →
      ∃ t y z, exec i s = .next t ∧
        t.thread? th.tid = some { th.issued i (s.cur.pc + 8) with
          unf := th.unf ++ [{ e with parks := true }], wait := .cvw a.cv } ∧
        t.team? th.tid.core th.slot = some y ∧ y.cvInst? a.cv th.tid.qtr = some z ∧
        z.op = some (e.word, e.opv) ∧ z.signed = x.signed + 1 ∧ z.signers = x.signers ++ [th.tid] ∧ z.gen = x.gen ∧
        z.full = decide (x.signed + 1 = (s.cvSet th.tid.core th.slot x).length) ∧ t.groups = s.groups ∧ OthersSame s t th.tid ∧ SameMemory s t ∧ SameEngines s t) ∧
    (x.kind < 3 → Trappable s th → th.stepping = false → th.handler = false → s.hasHandler th = true →
      ∃ t y, exec i s = .next t ∧ t.thread? th.tid = some y ∧ y.handler = true ∧ y.tq = true ∧ y.tpc = s.cur.pc + 8 ∧
        t.groups = s.maskedGroups th 12 true ∧ t.teams = s.teams ∧ OthersSame s t th.tid ∧ SameMemory s t)

/-- MATRIX_QUEUE_ISSUE, MATRIX_START (R179, R363, R364): a complete phase's command that passes the checks enters the queue,
claims its tiles, registers its ranges and lets its signers go on; it starts once its tiles have the version it expects. -/
def Claims.MatrixCommandsQueueAndStart : Prop :=
  (∀ (s : State) (th : Thread) (tm : Team) (x : CvInst) (e : Entry) (m : MCommand) maps cv,
    s.threads.filter (fun y => y.tid = th.tid) = [th] →
    s.teams.filter (fun y => y.core = th.tid.core && y.slot = th.slot) = [tm] → oneCv tm cv th.tid.qtr x → 3 ≤ x.kind →
    x.op = some (e.word, e.opv) → x.signers = [th.tid] → x.opThreads = [th.tid] → x.deferred = [] →
    x.full = true → th.wait = .cvw cv → th.pending = none → th.unf = [e] → e.st = 0 →
    e.queued = false → e.dst = [] → mCommand e.word e.opv = some m →
    let en := s.eng th.tid.core th.slot
    MatrixOk s en th.tid.qtr m maps → (s.quarter th.tid.core th.tid.qtr).mq = [] → (s.core th.tid.core).ranges = [] →
    ∃ t y z, exec (.matrixQueueIssue th.tid.core th.slot cv th.tid.qtr) s = .next t ∧
      (t.quarter th.tid.core th.tid.qtr).mq =
        [{ idx := 0, word := e.word, opv := e.opv, slot := th.slot, threads := [th.tid], maps }] ∧
      (∀ k ∈ m.args.named, ((t.quarter th.tid.core th.tid.qtr).tile k).owner = some th.slot) ∧
      (m.args.kind = .mmas → ((t.quarter th.tid.core th.tid.qtr).shadowOf (th.slot, m.args.t, m.tok)).isSome = true) ∧
      (t.core th.tid.core).ranges = matrixRanges en m maps (8 * th.tid.qtr) ∧
      t.thread? th.tid = some { th.endWait (.cvw cv) with unf := [] } ∧
      t.team? th.tid.core th.slot = some y ∧ y.cvInst? cv th.tid.qtr = some z ∧ z.signed = 0 ∧ z.op = none ∧ z.full = false ∧
      z.gen = (x.gen + 1) % 2 ^ 15 ∧ OthersSame s t th.tid ∧ SameMemory s t) ∧
  ∀ (s : State) core qtr (c : MCmd) (m : MCommand), (s.quarter core qtr).mq = [c] → c.running = false → c.cmd? = some m →
    (∀ th ∈ s.threads, th.unf = []) →
    ((∀ k ∈ m.args.tiles, ((s.quarter core qtr).tile k).ver = m.v) →
      ∃ t, exec (.matrixStart core qtr c.idx) s = .next t ∧ (t.quarter core qtr).mq = [{ c with running := true }] ∧
        (t.quarter core qtr).acc = (s.quarter core qtr).acc ∧ t.threads = s.threads ∧ SameMemory s t) ∧
    ((∃ k ∈ m.args.tiles, ((s.quarter core qtr).tile k).ver ≠ m.v) → exec (.matrixStart core qtr c.idx) s = .next s)

/-- Matrix instructions sign, a complete signature queues the command, and the engine starts it: the claims named here
hold together.
Completes in a next state of its own effect: mma mmas accz accld accst accrow accrmax spcommit spdrop
matrixQueueIssue matrixStart. -/
def Obligations.MatrixCommandsSignQueueAndStart : Prop :=
  Claims.MatrixCommandsSign ∧
  Claims.MatrixCommandsQueueAndStart

/-- MATRIX_RETIRE (R365 to R375): the tile, shadow or scratchpad holds what the command computes, its version has counted
on, and the command has left the queue.
Completes in a next state of its own effect: matrixRetire. -/
def Obligations.MatrixCommandsCompute : Prop :=
  ∀ (s : State) core qtr (c : MCmd) (m : MCommand), (s.quarter core qtr).mq = [c] → c.running = true → c.pass = 0 →
    c.cmd? = some m → EngCalm s → s.poison = [] →
    let x := s.eng core c.slot
    let q := s.quarter core qtr
    let tl := q.tile m.args.t
    ∃ t, exec (.matrixRetire core qtr c.idx) s = .next t ∧ (t.quarter core qtr).mq = [] ∧ t.threads = s.threads ∧
      (let tl' := (t.quarter core qtr).tile m.args.t
      let quiet := fun (data : List Word) => tl'.data = data ∧ tl'.ver = tl.ver + 1 ∧ tl'.owner = tl.owner ∧ SameMemory s t
      (∀ z a b, m.args.kind = .mma z → c.maps = [a, b] → tl.poison = [] → tl.data.length = 256 →
        quiet (blocksAdded s x a b (mmaBlocks m a b) (if z then List.replicate 256 0 else tl.data))) ∧
      (∀ a b sh, m.args.kind = .mmas → c.maps = [a, b] → q.shadowOf (x.slot, m.args.t, m.tok) = some sh →
        sh.data.length = 256 → ∃ sh', (t.quarter core qtr).shadowOf (x.slot, m.args.t, m.tok) = some sh' ∧
          sh'.data = blocksAdded s x a b (mmaBlocks m a b) sh.data ∧ tl' = tl ∧ SameMemory s t) ∧
      (m.args.kind = .accz false → quiet (List.replicate 256 0)) ∧
      (m.args.kind = .accz true → tl' = { idx := m.args.t } ∧ SameMemory s t) ∧
      (m.args.kind = .accld → quiet ((List.range 256).map fun e => canonNan (s.spWord x (m.o + 4 * e)))) ∧
      (∀ w, m.args.kind = .accst false w → tl.data.length = 256 → tl.poison = [] →
        (∀ e, e < 256 → some (t.spWord x (m.o + 4 * e)) = tl.data[e]?) ∧ tl'.data = tl.data ∧ tl'.ver = tl.ver + 1 ∧
        SameMemoryBut s t (x.spa m.o) 1024) ∧
      (∀ w, m.args.kind = .accst true w → SameMemoryBut s t (x.spa m.o) (64 * (w + 1)) ∧
        t.bytesAt (x.spa m.o) (64 * (w + 1)) = packA w ((List.range 16).map fun r =>
          quantise (tileRowVals tl r ++ tileRowVals (q.tile (m.args.t + 1)) r) w 254) ∧ tl'.data = tl.data ∧
        tl'.ver = tl.ver + 1 ∧ ((t.quarter core qtr).tile (m.args.t + 1)).ver = (q.tile (m.args.t + 1)).ver + 1) ∧
      (m.args.kind = .accrow → quiet (tl.data.mapIdx fun e v => BitVec.ofNat 32
        (mulVal .f32 .rne (Fmt.f32.read v.toNat) (Fmt.f32.read (if e < 256 then s.spWord x (m.o + 4 * (e / 16)) else 0).toNat)).val)) ∧
      (m.args.kind = .accrmax → SameMemoryBut s t (x.spa m.o) 64 ∧
        (∀ r, r < 16 → t.spWord x (m.o + 4 * r) = rowMax ((tl.data.drop (16 * r)).take 16)) ∧ tl'.data = tl.data ∧ tl'.ver = tl.ver + 1) ∧
      (∀ r sh, m.args.kind = .spcommit r → q.shadowOf (x.slot, m.args.t, m.tok) = some sh →
        quiet (if r then sh.data else (tl.data.zip sh.data).map fun v => BitVec.ofNat 32
          (addVal .f32 .rne (Fmt.f32.read v.1.toNat) (Fmt.f32.read v.2.toNat)).val) ∧
        ((t.quarter core qtr).shadow sh.idx).bound = none) ∧
      (∀ sh, m.args.kind = .spdrop → q.shadowOf (x.slot, m.args.t, m.tok) = some sh →
        tl' = tl ∧ ((t.quarter core qtr).shadow sh.idx).bound = none ∧ SameMemory s t))

/-- ACCRD, ACCRD_READ and OMAP (R356, R357, R376, R381): a read of an element of the team's tile gives it when the tile has the
expected version and nothing runs on it, and waits otherwise; OMAP fills a slot of the team from 64 bytes of memory.
Completes in a next state of its own effect: omap accrd accrdRead. -/
def Obligations.TileReadsAndOperandMaps : Prop :=
  (∀ (w : EWord) (s : State) (th : Thread), Solo (.accrd w) s th → noQueueDest (.accrd w) th →
    let e := engEntry (.accrd w) s th
    let q := s.quarter th.tid.core th.tid.qtr
    let tl := q.tile w.o2.toNat
    e.w 1 < 256 → tl.owner = some th.slot →
    (tl.ver = BitVec.ofNat 16 (e.w 0) → q.busyTile tl.idx = false → e.w 1 ∉ tl.poison →
      ∃ t, exec (.accrd w) s = .next t ∧ Wrote s t (.accrd w) th [(tl.data[e.w 1]?).getD 0] ∧ SameRest s t) ∧
    (tl.ver ≠ BitVec.ofNat 16 (e.w 0) →
      ∃ t x, exec (.accrd w) s = .next t ∧ t.thread? th.tid = some x ∧ x.pc = s.cur.pc + 8 ∧ x.v = th.v ∧
        x.unf = th.unf ++ [{ e with aux := [1] }] ∧ t.groups = s.groups ∧ OthersSame s t th.tid ∧ SameRest s t)) ∧
  (∀ (w : EWord) (s : State) (th : Thread) (e : Entry), s.threads.filter (fun x => x.tid = th.tid) = [th] →
    th.unf = [e] → e.st = 0 → e.queued = false → e.aux = [1] → decodeWord e.word = .ok (.accrd w) →
    e.dst.all RegRef.isV = true → th.wait = .ready → th.pending = none →
    let q := s.quarter th.tid.core th.tid.qtr
    let tl := q.tile w.o2.toNat
    tl.ver = BitVec.ofNat 16 (e.w 0) → q.busyTile tl.idx = false → e.w 1 ∉ tl.poison →
    ∃ t, exec (.accrdRead th.tid) s = .next t ∧
      t.thread? th.tid = some { th with unf := [], v := writeRefs th.v e.dst [(tl.data[e.w 1]?).getD 0] } ∧
      OthersSame s t th.tid ∧ SameMemory s t) ∧
  ∀ (w : EWord) (s : State) (th : Thread) (tm : Team) pa, Solo (.omap w) s th → th.unf = [] → EngCalm s → s.noFollowers th.tid →
    s.teams.filter (fun y => y.core = th.tid.core && y.slot = th.slot) = [tm] →
    let fa := (engEntry (.omap w) s th).d 0
    fa.toNat % 64 = 0 → canonical fa.toNat = true →
    s.trans (.die (dieOf th.tid.core)) (s.pasidOf tm.lslot) fa.toNat .read = .ok pa → pa + 64 ≤ 2 ^ 42 → s.cleanSpan pa 64 →
    omapOk (s.value pa 64) (parseOMap (s.value pa 64)) (s.feature 6) = true →
    ∃ t, exec (.omap w) s = .next t ∧ GoesOn s t (.omap w) th ∧ SameMemory s t ∧ SameEngines s t ∧
      t.teams = s.teams.map (fun y => if y.core = th.tid.core && y.slot = th.slot then
        { y with omaps := y.omaps.set w.o1.toNat (some (parseOMap (s.value pa 64))) } else y)

namespace Sys2Proof.Machine

/-- The engine of `x` reads the value `v` from `n` bytes at a virtual address, all of them on one page. -/
def EngSees (s : State) (x : Eng) (va n v : Nat) : Prop :=
  va < 2 ^ 64 ∧ canonical va = true ∧ va % 4096 + n ≤ 4096 ∧ ∃ pa, s.trans (.die (dieOf x.core)) x.pasid va .read = .ok pa ∧ pa + n ≤ 2 ^ 42 ∧
    s.cleanSpan pa n ∧ s.value pa n = v
/-- It may write `n` bytes at a virtual address, which lie at the physical address `pa`. -/
abbrev EngReaches (s : State) (x : Eng) (va n pa : Nat) : Prop :=
  va < 2 ^ 64 ∧ canonical va = true ∧ va % 4096 + n ≤ 4096 ∧ s.trans (.die (dieOf x.core)) x.pasid va .write = .ok pa ∧
    pa + n ≤ 2 ^ 42 ∧ s.cleanSpan pa n

/-- A version root and the first word of its space record (R418, R419), and a walking thread in a section of the space's
domain (R427). -/
structure RootAt (s : State) (x : Eng) (th : Thread) (va : Nat) (r : KvRoot) (w : Nat) : Prop where
  root    : ∃ v, EngSees s x va 64 v ∧ fld v 32 32 = 0 ∧ fld v 192 320 = 0 ∧
              r = { version := fld v 0 32, dir := fld v 64 64, space := fld v 128 64 }
  space   : ∃ v, EngSees s x r.space 64 v ∧ w = fld v 0 32 ∧ fld w 23 9 = 0 ∧ fld v 32 32 = 0 ∧ fld v 128 384 = 0 ∧
              fld w 18 2 ≠ 3 ∧ 2 * spP w * spRb w ≤ 16384
  aligned : va % 64 = 0 ∧ canonical va = true ∧ r.space % 64 = 0 ∧ canonical r.space = true
  within  : (th.depth[spDom w]?).getD 0 ≠ 0

/-- A sequence record as it stands in memory (Table 12.3). -/
def SeqAt (s : State) (x : Eng) (sq : KvSeq) : Prop :=
  ∃ v, EngSees s x sq.va 64 v ∧ fld v 23 9 = 0 ∧ fld v 192 64 = 0 ∧ sq.len ≤ 2 ^ 22 ∧ sq.score % 4 = 0 ∧ sq.hmap % 8 = 0 ∧
    canonical sq.score = true ∧ canonical sq.hmap = true ∧
    sq = { va := sq.va, len := fld v 0 23, scap := fld v 32 32, score := fld v 64 64, hmap := fld v 128 64, marks := fld v 256 256 }

/-- The two-level walk from a directory to the record of sequence `q` (R420). -/
def DirAt (s : State) (x : Eng) (dir q rec : Nat) : Prop :=
  dir % 8192 = 0 ∧ canonical dir = true ∧ ∃ leaf, EngSees s x (dir + 8 * (q / 1024)) 8 leaf ∧ leaf ≠ 0 ∧ leaf % 8192 = 0 ∧
    canonical leaf = true ∧ EngSees s x (leaf + 8 * (q % 1024)) 8 rec ∧ rec ≠ 0 ∧ rec % 64 = 0 ∧ canonical rec = true

/-- The page that page entry `page` of (layer, head) names in device memory, by the direct form of a head map (R421, R422). -/
def PageAt (s : State) (x : Eng) (w : Nat) (sq : KvSeq) (layer head page : Nat) (pg : KvPage) : Prop :=
  ∃ base v, EngSees s x (sq.hmap + 8 * (layer * spHeads w + head)) 8 base ∧ base ≠ 0 ∧ base % 4096 = 0 ∧
    canonical base = true ∧ page < 512 ∧ EngSees s x (base + 8 * page) 8 v ∧ fld v 62 2 = 1 ∧ fld v 57 5 = 0 ∧ fld v 0 14 = 0 ∧
    pg = { va := (if fld v 56 1 = 1 then fld v 14 43 * 2 ^ 14 + 127 * 2 ^ 57 else fld v 14 43 * 2 ^ 14), host := false
           entry := base + 8 * page }

/-- A lone thread issues a KV instruction and nothing stands in its way; the die's walker cache holds nothing, so that every
node is read where it stands (R425). -/
structure KvReady (i : Instr) (s : State) (th : Thread) : Prop where
  solo   : Solo i s th
  idle   : th.unf = []
  calm   : EngCalm s
  dest   : noQueueDest i th
  ranges : (s.core th.tid.core).ranges = []
  walk   : (s.die (dieOf th.tid.core)).walk = []

/-- The packet that KVLD's entry `e` names passes the checks of R437: its fields and place, its root and space, the section, its
tile and its object, with its sequence's record already taken (VALID). -/
structure PacketOk (s : State) (x : Eng) (th : Thread) (e : Entry) (r : KvRoot) (sp : Nat) (k : Packet) : Prop where
  place  : s.badSpan x (e.w 0) 64 64 = false ∧ s.cleanSpan (x.spa (e.w 0)) 64
  packet : k = parsePacket (s.value (x.spa (e.w 0)) 64) ∧ k.valid = true
  fields : packetOk (s.value (x.spa (e.w 0)) 64) 1 (s.feature 6) = true ∧
    packetOk (s.value (x.spa (e.w 0)) 64) (spHd sp) (s.feature 6) = true
  root   : RootAt s x th k.root r sp
  vers   : r.version = k.version
  bounds : k.layer < spLayers sp ∧ k.head < spHeads sp
  tile   : s.badSpan x k.dst (k.shape (spHd sp)).span (k.shape (spHd sp)).align = false
  comp   : s.badSpan x k.comp 16 16 = false
  room   : s.objectRoom x k.comp (k.countFrom (k.shape (spHd sp)) (k.restart / k.rowBlock))

/-- The packet is accepted (R438): it takes an entry of the copy engine, registers its tile as destination and itself as source,
and its object counts the bytes of the positions from RESTART on. -/
def PacketTaken (s t : State) (x : Eng) (th : Thread) (e : Entry) (sp : Nat) (k : Packet) : Prop :=
  let h := k.shape (spHd sp)
  let u := k.restart / k.rowBlock
  Armed s t x k.comp (k.countFrom h u) ∧
  (t.core x.core).copy.map (fun c => (c.job, c.unit_, c.left)) = (s.core x.core).copy.map (fun c => (c.job, c.unit_, c.left)) ++
    [(.kv { pkt := e.w 0, space := sp, age := th.itemage, started := true }, u, k.countFrom h u)] ∧
  (t.core x.core).ranges.map (fun y => (y.base, y.len, y.dst, y.eng, y.spc)) =
    [(x.base + k.dst, h.span, true, 0, 1), (x.base + e.w 0, 64, false, 0, 1)]

end Sys2Proof.Machine

/-! ### Spec 12: the KV walker and the page pools -/

/-- SEQCMT and SEQABORT (R432): the marks of the sequence become zero, SEQCMT adds one to LEN, and LEN before is the result;
SEQCMT of a full sequence changes nothing and gives 0xFFFFFFFF. -/
def Claims.SequencesCommitAndAbort : Prop :=
  ∀ (w : EWord) (s : State) (th : Thread) (r : KvRoot) (sp : Nat) (sq : KvSeq) (pa : Nat),
    let after := fun (i : Instr) (len : Nat) (res : Word) => ∃ t, exec i s = .next t ∧ Wrote s t i th [res] ∧
      SameMemoryBut s t pa 64 ∧ t.value pa 4 = len ∧ t.bytesAt (pa + 32) 32 = List.replicate 32 0 ∧
      ∀ k, 4 ≤ k → k < 32 → t.byte (pa + k) = s.byte (pa + k)
    let ready := fun (i : Instr) => KvReady i s th ∧
      (let x := s.eng th.tid.core th.slot
      let e := engEntry i s th
      RootAt s x th (e.d 0).toNat r sp ∧ e.w 2 < 2 ^ 20 ∧ DirAt s x r.dir (e.w 2) sq.va ∧ SeqAt s x sq ∧
      s.trans (.die (dieOf x.core)) x.pasid sq.va .read = .ok pa ∧ EngReaches s x sq.va 64 pa)
    (ready (.seqcmt w) → sq.len < 2 ^ 22 → after (.seqcmt w) (sq.len + 1) (BitVec.ofNat 32 sq.len)) ∧
    (ready (.seqcmt w) → sq.len = 2 ^ 22 → ∃ t, exec (.seqcmt w) s = .next t ∧
      Wrote s t (.seqcmt w) th [0xFFFFFFFF] ∧ SameMemory s t) ∧
    (ready (.seqabort w) → after (.seqabort w) sq.len (BitVec.ofNat 32 sq.len))

/-- KVAPP (R431): the K and V rows of the next position are converted from the scratchpad's f32 values and written, the
layer's mark is set, and the position is the result. -/
def Claims.AppendWritesTheNextPosition : Prop :=
  ∀ (w : EWord) (s : State) (th : Thread) (r : KvRoot) (sp : Nat) (sq : KvSeq) (pg : KvPage) (pa pk pv : Nat),
    KvReady (.kvapp w) s th →
    let x := s.eng th.tid.core th.slot
    let e := engEntry (.kvapp w) s th
    let layer := e.w 3 % 256
    let head := e.w 3 / 256 % 64
    let n := 4 * spHd sp
    let floats := fun (off : Nat) => (List.range (spHd sp)).map fun j => s.value (x.spa (off + 4 * j)) 4
    e.w 4 % 4 = 0 → e.w 2 < 2 ^ 20 → e.w 3 < 2 ^ 14 → layer < spLayers sp → head < spHeads sp → e.w 4 + 2 * n ≤ x.size →
    RootAt s x th (e.d 0).toNat r sp → DirAt s x r.dir (e.w 2) sq.va → SeqAt s x sq → sq.len < 2 ^ 22 →
    PageAt s x sp sq layer head (sq.len / spP sp) pg →
    s.trans (.die (dieOf x.core)) x.pasid sq.va .read = .ok pa → EngReaches s x sq.va 64 pa →
    EngReaches s x (rowVa sp pg sq.len false) (spRb sp) pk → EngReaches s x (rowVa sp pg sq.len true) (spRb sp) pv →
    pk + spRb sp ≤ 2 ^ 40 → pv + spRb sp ≤ 2 ^ 40 →
    pk + spRb sp ≤ pv → (pv + spRb sp ≤ pa ∨ pa + 64 ≤ pk) → s.cleanSpan (x.spa (e.w 4)) (2 * n) →
    ∃ t, exec (.kvapp w) s = .next t ∧ Wrote s t (.kvapp w) th [BitVec.ofNat 32 sq.len] ∧
      t.bytesAt pk (spRb sp) = convertRow sp (floats (e.w 4)) ∧ t.bytesAt pv (spRb sp) = convertRow sp (floats (e.w 4 + n)) ∧
      (t.byte (pa + 32 + layer / 8)).toNat = (s.byte (pa + 32 + layer / 8)).toNat ||| 2 ^ (layer % 8) ∧
      ∀ a, (a < pk ∨ pk + spRb sp ≤ a) → (a < pv ∨ pv + spRb sp ≤ a) → a ≠ pa + 32 + layer / 8 → t.byte a = s.byte a

/-- SEQCMT, SEQABORT and KVAPP change the sequence record and the rows of the next position: the claims named here
hold together.
Completes in a next state of its own effect: kvapp seqcmt seqabort. -/
def Obligations.SequencesCommitAbortAndAppend : Prop :=
  Claims.SequencesCommitAndAbort ∧
  Claims.AppendWritesTheNextPosition

/-- SCOREADD, TOPK and KVNODE (R444, R445, R448): a score is added through the reduction buffer; the chosen positions stand
in the scratchpad in rising order; a node is built with one slot set, or one slot of it changes.
Completes in a next state of its own effect: scoreadd topk kvnode. -/
def Obligations.ScoresSelectionsAndNodes : Prop :=
  (∀ (w : EWord) (s : State) (th : Thread) (r : KvRoot) (sp : Nat) (sq : KvSeq) (pa : Nat), KvReady (.scoreadd w) s th →
    let x := s.eng th.tid.core th.slot
    let e := engEntry (.scoreadd w) s th
    RootAt s x th (e.d 0).toNat r sp → e.w 2 < 2 ^ 20 → DirAt s x r.dir (e.w 2) sq.va → SeqAt s x sq → sq.score ≠ 0 →
    e.w 3 < sq.scap → sq.score + 4 * e.w 3 < 2 ^ 64 →
    s.trans (.core th.tid.core) x.pasid (sq.score + 4 * e.w 3) .write = .ok pa → pa < 2 ^ 42 →
    ∃ t, exec (.scoreadd w) s = .next t ∧ GoesOn s t (.scoreadd w) th ∧ SameMemory s t ∧
      (t.core th.tid.core).red = [{ addr := pa, op := 0, ty := .f32, val := e.w 4 }]) ∧
  (∀ (w : EWord) (s : State) (th : Thread) (r : KvRoot) (sp : Nat) (sq : KvSeq) (score : Nat → Nat), KvReady (.topk w) s th →
    let x := s.eng th.tid.core th.slot
    let e := engEntry (.topk w) s th
    let o := e.w 3
    let d := s.value (x.spa o) 32
    let p0 := fld d 0 32
    let n := fld d 32 32
    let k := fld d 64 32
    let dest := fld d 128 32
    let top := topPositions k ((List.range (min n (sq.len - p0))).map fun i => (scoreKey (score (p0 + i)), p0 + i))
    e.w 2 < 2 ^ 20 → o % 16 = 0 → o + 32 ≤ x.size → s.cleanSpan (x.spa o) 32 → fld d 160 96 = 0 → 1 ≤ n → n ≤ 65536 →
    p0 + n ≤ 2 ^ 22 → 1 ≤ k → k ≤ 1024 → fld d 96 32 = 2 ^ 32 - 1 → s.badSpan x dest (4 * k) 4 = false →
    RootAt s x th (e.d 0).toNat r sp → DirAt s x r.dir (e.w 2) sq.va → SeqAt s x sq → sq.score ≠ 0 →
    min sq.len (p0 + n) ≤ sq.scap → (∀ i, i < min n (sq.len - p0) → EngSees s x (sq.score + 4 * (p0 + i)) 4 (score (p0 + i))) →
    ∃ t, exec (.topk w) s = .next t ∧ Wrote s t (.topk w) th [BitVec.ofNat 32 top.length] ∧
      SameMemoryBut s t (x.spa dest) (4 * k) ∧
      ∀ j, j < k → t.value (x.spa dest + 4 * j) 4 = (top[j]?).getD 0xFFFFFFFF) ∧
  ∀ (w : EWord) (s : State) (th : Thread) (off n pa : Nat), KvReady (.kvnode w) s th →
    let x := s.eng th.tid.core th.slot
    let e := engEntry (.kvnode w) s th
    let src := (e.d 0).toNat
    let dst := (e.d 2).toNat
    let kind := e.w 4 / 2 ^ 28
    let slot := e.w 4 % 2 ^ 28
    let v := (e.d 5).toNat
    nodeSlot kind slot = some (off, n) → nodeLimit kind slot v = false → ¬(kind = 2 ∧ slot = 0) →
    dst % nodeSize kind = 0 → canonical dst = true →
    (src = dst → dst ≠ 0 → EngReaches s x (dst + off) n pa →
      ∃ t, exec (.kvnode w) s = .next t ∧ GoesOn s t (.kvnode w) th ∧ t.bytesAt pa n = leBytes n v ∧ SameMemoryBut s t pa n) ∧
    (src = 0 → dst ≠ 0 → kind ≠ 1 → EngReaches s x dst (nodeSize kind) pa →
      ∃ t, exec (.kvnode w) s = .next t ∧ GoesOn s t (.kvnode w) th ∧ SameMemoryBut s t pa (nodeSize kind) ∧
        t.bytesAt (pa + off) n = leBytes n v ∧
        ∀ j, j < nodeSize kind → (j < off ∨ off + n ≤ j) → t.byte (pa + j) = 0)

/-- PGALLOC and PGFREE (R428, R429, R449): the head of the pool's list is taken and the link it holds becomes the head, an
empty pool gives 0; a freed page becomes the head and holds the old one. KV_PACKET_ACCEPT tries a parked instruction again: a
PGALLOC takes its page, and a KVLD packet that waited for an entry of the copy engine now takes it, registers its ranges and
arms its object (R437, R438).
Completes in a next state of its own effect: pgalloc pgfree kvPacketAccept. -/
def Obligations.PagePoolsAreStacks : Prop :=
  (∀ (w : EWord) (s : State) (th : Thread), KvReady (.pgalloc w) s th →
    let x := s.eng th.tid.core th.slot
    let k := w.o2.toNat % 64
    let p := s.pool k
    p.en = true → p.pasid = x.pasid →
    (p.head = 0 → ∃ t, exec (.pgalloc w) s = .next t ∧ Wrote s t (.pgalloc w) th [0, 0] ∧ t.pools = s.pools ∧ SameMemory s t) ∧
    (∀ next, p.head ≠ 0 → EngSees s x p.head.toNat 8 next → ∃ t, exec (.pgalloc w) s = .next t ∧
      Wrote s t (.pgalloc w) th (valueWords 2 p.head.toNat) ∧ SameMemory s t ∧
      t.pool k = { p with head := BitVec.ofNat 64 next, count := p.count - 1 })) ∧
  (∀ (w : EWord) (s : State) (th : Thread) pa, KvReady (.pgfree w) s th →
    let x := s.eng th.tid.core th.slot
    let k := w.o2.toNat % 64
    let p := s.pool k
    let page := (engEntry (.pgfree w) s th).d 0
    p.en = true → p.pasid = x.pasid → page.toNat % p.pageSize = 0 → canonical page.toNat = true →
    EngReaches s x page.toNat 8 pa → pa + 8 ≤ 2 ^ 40 →
    ∃ t, exec (.pgfree w) s = .next t ∧ GoesOn s t (.pgfree w) th ∧ t.value pa 8 = p.head.toNat ∧ SameMemoryBut s t pa 8 ∧
      t.pool k = { p with head := page, count := p.count + 1 }) ∧
  ∀ (w : EWord) (s : State) (th : Thread) (e : Entry), s.threads.filter (fun x => x.tid = th.tid) = [th] → th.unf = [e] →
    e.st = 0 → e.queued = false → e.page = none → e.parks = true → e.dst.all RegRef.isV = true →
    th.wait = .eng .entry → th.pending = none → EngCalm s →
    let x := s.eng th.tid.core th.slot
    (decodeWord e.word = .ok (.pgalloc w) → (s.pool (w.o2.toNat % 64)).en = true → (s.pool (w.o2.toNat % 64)).pasid = x.pasid →
      (s.pool (w.o2.toNat % 64)).head = 0 →
      ∃ t, exec (.kvPacketAccept th.tid) s = .next t ∧
        t.thread? th.tid = some { th with wait := th.resume, resume := .ready, unf := [], v := writeRefs th.v e.dst [0, 0] } ∧
        OthersSame s t th.tid ∧ SameMemory s t) ∧
    ∀ (r : KvRoot) (sp : Nat) (k : Packet), decodeWord e.word = .ok (.kvld w) → e.dst = [] → (s.core x.core).ranges = [] →
      (∃ n, n < 16 ∧ ∀ c ∈ (s.core x.core).copy, c.idx ≠ n) → (s.die (dieOf x.core)).walk = [] → PacketOk s x th e r sp k →
      ∃ t, exec (.kvPacketAccept th.tid) s = .next t ∧
        t.thread? th.tid = some { th with wait := th.resume, resume := .ready, unf := [] } ∧ OthersSame s t th.tid ∧
        PacketTaken s t x th e sp k

/-- KVLD and KVCOPY (R437, R438, R446, R447): a packet or a compaction that passes the checks takes a free entry of the copy
engine, registers its ranges (a KVCOPY its list, DIR 0), arms its completion object, and the thread goes on. (That the score bytes
of a KVCOPY are counted at acceptance, from records that can be read then, is log 29, DEDUCED; log 29 says what happens
where they cannot.)
Completes in a next state of its own effect: kvld kvcopy. -/
def Obligations.KvPacketsAreAccepted : Prop :=
  (∀ (w : EWord) (s : State) (th : Thread) (r : KvRoot) (sp : Nat) (k : Packet), KvReady (.kvld w) s th →
    (s.core th.tid.core).copy = [] →
    let x := s.eng th.tid.core th.slot
    let e := engEntry (.kvld w) s th
    PacketOk s x th e r sp k →
    ∃ t, exec (.kvld w) s = .next t ∧ GoesOn s t (.kvld w) th ∧ PacketTaken s t x th e sp k) ∧
  ∀ (w : EWord) (s : State) (th : Thread) (r : KvRoot) (sp : Nat) (a b : KvSeq), KvReady (.kvcopy w) s th →
    (s.core th.tid.core).copy = [] →
    let x := s.eng th.tid.core th.slot
    let e := engEntry (.kvcopy w) s th
    let o := e.w 5
    let d := s.value (x.spa o) 32
    let n := fld d 32 32
    let pd := fld d 64 32
    let comp := fld d 96 32
    let count := (List.range n).foldl (fun acc i => acc + positionBytes sp a b (pd + i)) 0
    e.w 2 < 2 ^ 20 → s.badSpan x o 32 16 = false → s.cleanSpan (x.spa o) 32 → fld d 160 96 = 0 → 1 ≤ n → n ≤ 65536 →
    pd + n ≤ 2 ^ 22 → (e.d 3).toNat % 64 = 0 → canonical (e.d 3).toNat = true → RootAt s x th (e.d 0).toNat r sp →
    s.badSpan x (fld d 0 32) (4 * n) 4 = false → s.badSpan x comp 16 16 = false → DirAt s x r.dir (e.w 2) a.va →
    SeqAt s x a → b.va = (e.d 3).toNat → SeqAt s x b → s.objectRoom x comp count →
    ∃ t, exec (.kvcopy w) s = .next t ∧ GoesOn s t (.kvcopy w) th ∧ Armed s t x comp count ∧
      (t.core th.tid.core).copy.map (fun c => (c.job, c.left)) =
        [(.kvcopy { space := sp, dir := r.dir, seq := e.w 2, dst := e.d 3, desc := o, list := fld d 0 32, n, pd, comp,
                    late := false }, count)] ∧
      (t.core th.tid.core).ranges.map (fun y => (y.base, y.len, y.dst, y.eng, y.spc)) =
        [(x.base + fld d 0 32, 4 * n, false, 0, 1)]

/-- KV_BLOCK_WRITE, KV_FAULT_RECORD and KFQRES_WRITE (R436, R439, R440, R441): a row of one position is converted into the
scratchpad, and a position past VLEN becomes zeros; a command stopped at an away entry places its fault record while EN is set
and the ring has room, counts KFQTAIL, and is resumed, or ended with code 5, by the answer with its tag. While EN is clear it
ends with code 5 and no record is written.
Completes in a next state of its own effect: kvBlockWrite kvFaultRecord kfqresWrite. -/
def Obligations.KvPacketsRunAndReport : Prop :=
  (∀ (s : State) (k : CoreSt) (c : CopyCmd) (a : KvArgs) (sq : KvSeq) (pg : KvPage) (pa hv : Nat), s.cores = [k] →
    k.copy = [c] → c.job = .kv a → c.ended = false → c.unit_ = 0 → c.early = false → a.started = true → a.stop = none →
    EngCalm s → (s.die (dieOf k.id)).walk = [] →
    let x := s.eng k.id c.slot
    let p := parsePacket (s.value (x.spa a.pkt) 64)
    let hd := spHd a.space
    p.n = 1 → p.sl = 1 → p.v = false → EngSees s x p.srec 64 hv → sq.hmap = fld hv 128 64 →
    (p.vlen ≤ p.p0 → ∃ t, exec (.kvBlockWrite k.id c.idx) s = .next t ∧
      (∀ j, j < hd → t.value (x.spa p.dst + 4 * j) 4 = 0) ∧ SameMemoryBut s t (x.spa p.dst) (4 * hd) ∧
      (t.core k.id).copy.map (fun y => (y.unit_, y.ended)) = [(1, true)]) ∧
    (p.p0 < p.vlen → PageAt s x a.space sq p.layer p.head (p.p0 / spP a.space) pg →
      rowVa a.space pg p.p0 false % 4096 + spRb a.space ≤ 4096 → rowVa a.space pg p.p0 false < 2 ^ 64 →
      canonical (rowVa a.space pg p.p0 false) = true →
      s.trans (.die (dieOf x.core)) x.pasid (rowVa a.space pg p.p0 false) .read = .ok pa → pa + spRb a.space ≤ 2 ^ 40 →
      s.cleanSpan pa (spRb a.space) →
      ∃ t, exec (.kvBlockWrite k.id c.idx) s = .next t ∧ SameMemoryBut s t (x.spa p.dst) (4 * hd) ∧
        (∀ j, j < hd → t.value (x.spa p.dst + 4 * j) 4 =
          (convVal .f32 .rne false (((rowVals a.space (s.bytesAt pa (spRb a.space)) [])[j]?).getD (.fin false 0 0, false)).1).val) ∧
        (t.core k.id).copy.map (fun y => (y.unit_, y.ended)) = [(1, true)])) ∧
  (∀ (s : State) (k : CoreSt) (c : CopyCmd) (a : KvArgs) (aw : Away), s.cores = [k] → k.copy = [c] → c.job = .kv a →
    a.stop = some aw → a.tag = none → EngCalm s → s.images = [] → (∀ th ∈ s.threads, th.unf = []) →
    s.kfqOn = true → (s.kfqtail - s.kfqhead).toNat < 2 ^ (s.kfqctl.toNat % 16) →
    let ring := (s.kfqbase.toNat / 2 ^ 12 % 2 ^ 28 * 2 ^ 12 + 32 * (s.kfqtail.toNat % 2 ^ (s.kfqctl.toNat % 16))) % 2 ^ 40
    ring + 32 ≤ 2 ^ 40 →
    ∃ t, exec (.kvFaultRecord k.id c.idx) s = .next t ∧ t.kfqtail = s.kfqtail + 1 ∧ t.hostOut = s.hostOut ++ [.msix 66] ∧
      t.bytesAt ring 32 = leBytes 4 s.kfqtail.toNat ++ leBytes 4 (aw.seq % 2 ^ 20) ++ leBytes 4 (aw.head * 2 ^ 8 + aw.layer)
        ++ leBytes 4 aw.page ++ leBytes 8 aw.entry ++ leBytes 4 (s.eng k.id c.slot).pasid ++ leBytes 4 aw.swtag ∧
      SameMemoryBut s t ring 32 ∧
      (t.core k.id).copy = [{ c with job := .kv { a with tag := some s.kfqtail.toNat } }]) ∧
  (∀ (s : State) (k : CoreSt) (c : CopyCmd) (a : KvArgs) (aw : Away), s.cores = [k] → k.copy = [c] → c.job = .kv a →
    a.stop = some aw → a.tag = none → s.kfqOn = false →
    ∃ t, exec (.kvFaultRecord k.id c.idx) s = .next t ∧ t.kfqtail = s.kfqtail ∧ t.hostOut = s.hostOut ∧ SameMemory s t ∧
      (t.core k.id).copy = [{ c with
        job := .kv { a with code := 5, stop := none, tag := none }
        ended := true, err := true, fa := BitVec.ofNat 64 aw.entry, wait := none, line := none }]) ∧
  ∀ (s : State) (v : DWord) (k : CoreSt) (c : CopyCmd) (a : KvArgs) (aw : Away), s.cores = [k] → k.copy = [c] →
    c.job = .kv a → a.stop = some aw → a.tag = some (v.toNat % 2 ^ 32) → s.images = [] → (∀ th ∈ s.threads, th.unf = []) →
    ∃ t, exec (.kfqresWrite v) s = .next t ∧ t.kfqres = BitVec.ofNat 64 (v.toNat % 2 ^ 33) ∧ SameMemory s t ∧
      (flag v.toNat 32 = false → t.cores = [{ k with copy := [{ c with job := .kv { a with stop := none, tag := none } }] }]) ∧
      (flag v.toNat 32 = true → t.cores = [{ k with copy := [{ c with
        job := .kv { a with stop := none, tag := none, code := 5 }
        ended := true, err := true, fa := BitVec.ofNat 64 aw.entry }] }])

namespace Sys2Proof.Machine

/-- A core's record holds its reader counters and phase bits for the eight domains. -/
abbrev CoreSt.counted (c : CoreSt) : Prop := c.cnt0.length = 8 ∧ c.cnt1.length = 8 ∧ c.phase.length = 8

/-- A thread in RSENTER or RSLEAVE after its depth of domain `d` has become `n`. -/
def Thread.atDepth (th : Thread) (d n : Nat) : Thread := { th with depth := th.depth.set d n }

/-- The access of PUBLISH (R412): a release store of 4 or 8 bytes. -/
def publishAcc (w : EWord) : Acc :=
  { kind := .store, space := 0, ty := if w.fl then .b32 else .b64, order := .rel, scope := scopeOf (w.o3.toNat % 8) }

end Sys2Proof.Machine

/-! ### Spec 11: reader sections, grace periods, releases -/

/-- RSENTER, RSLEAVE and PUBLISH (R386, R387, R388, R411, R412): an outermost RSENTER reads the core's phase bit and adds
one to the counter of that phase; nested entries count in the thread alone; the outermost RSLEAVE takes its contribution
back; entry at nesting 255 and RSLEAVE outside a section raise SECTION; PUBLISH stores and marks the words.
Completes in a next state of its own effect: rsenter rsleave publish. -/
def Obligations.ReaderSectionsAndPublish : Prop :=
  (∀ (w : EWord) (s : State) (th : Thread), Solo (.rsenter w) s th → th.unf = [] → (s.core th.tid.core).counted →
    let d := w.o1.toNat % 8
    let ph := ((s.core th.tid.core).phase[d]?).getD false
    (s.domain d).en = true → th.nest < 255 → (s.domain d).gst ≠ 1 ∨ ph = flag (s.domain d).s.toNat 0 →
    ∃ t, exec (.rsenter w) s = .next t ∧ t.groups = s.groups ∧ OthersSame s t th.tid ∧ SameMemory s t ∧ SameButCores s t ∧
      ((th.depth[d]?).getD 0 = 0 →
        t.thread? th.tid = some { (th.issued (.rsenter w) (s.cur.pc + 8)).atDepth d 1 with ph := th.ph.set d ph } ∧
        (t.core th.tid.core).count d ph = (s.core th.tid.core).count d ph + 1 ∧
        (t.core th.tid.core).count d (!ph) = (s.core th.tid.core).count d (!ph)) ∧
      ((th.depth[d]?).getD 0 ≠ 0 →
        t.thread? th.tid = some ((th.issued (.rsenter w) (s.cur.pc + 8)).atDepth d ((th.depth[d]?).getD 0 + 1)) ∧
        t.cores = s.cores)) ∧
  (∀ (w : EWord) (s : State) (th : Thread), Solo (.rsleave w) s th → th.unf = [] → (s.core th.tid.core).counted →
    EngCalm s → s.enginesOf th.tid = false →
    let d := w.o1.toNat % 8
    let n := (th.depth[d]?).getD 0
    let ph := (th.ph[d]?).getD false
    (s.domain d).en = true → 0 < n →
    ∃ t, exec (.rsleave w) s = .next t ∧ t.groups = s.groups ∧ OthersSame s t th.tid ∧ SameMemory s t ∧
      t.thread? th.tid = some ((th.issued (.rsleave w) (s.cur.pc + 8)).atDepth d (n - 1)) ∧
      (t.core th.tid.core).count d ph = (s.core th.tid.core).count d ph - (if n = 1 then 1 else 0) ∧
      (t.core th.tid.core).count d (!ph) = (s.core th.tid.core).count d (!ph)) ∧
  (∀ (w : EWord) (s : State) (th : Thread), Trappable s th → th.stepping = false → th.unf = [] → th.handler = false →
    s.hasHandler th = true → (s.domain (w.o1.toNat % 8)).en = true →
    (Solo (.rsenter w) s th → th.nest = 255 → ∃ t, exec (.rsenter w) s = .next t ∧ TakesCause s t th 11 ∧ SameMemory s t) ∧
    (Solo (.rsleave w) s th → (th.depth[w.o1.toNat % 8]?).getD 0 = 0 →
      ∃ t, exec (.rsleave w) s = .next t ∧ TakesCause s t th 11 ∧ SameMemory s t)) ∧
  ∀ (w : EWord) (s : State) (th : Thread) (pa : Nat), Solo (.publish w) s th → CalmAccess s th → EngCalm s →
    let e := engEntry (.publish w) s th
    let a := publishAcc w
    s.targetOf th a (e.d 0) = some { pa, place := .device } → s.cleanSpan pa a.size →
    ∃ t, exec (.publish w) s = .next t ∧ GoesOn s t (.publish w) th ∧ t.value pa a.size = e.data 2 (a.size / 4) ∧
      SameMemoryBut s t pa a.size ∧ ∀ k, 4 * k < a.size → t.markAt (pa + 4 * k) = some a.scope

/-- RETIRE, GPSYNC and GPSTAT (R392, R393, R398, R404, R413, R414, Tables 11.6 and 11.9): an entry with the domain's S as its tag joins the
queue and is stored in a free place of it, and starts a period when none is in progress; GPSYNC waits in ENG for the period after S; GPSTAT reads the detector.
Completes in a next state of its own effect: retire gpsync gpstat. -/
def Obligations.GraceInstructionsUseTheDomain : Prop :=
  (∀ (w : EWord) (s : State) (th : Thread), Solo (.retire w) s th → th.unf = [] → EngCalm s → noQueueDest (.retire w) th →
    let e := engEntry (.retire w) s th
    let d := e.w 6 % 8
    (s.domain d).en = true → (s.domain d).pod = false → s.retireBad (e.d 0) (e.d 2).toNat (e.d 4).toNat (e.w 6) = false →
    s.retire.length < 4096 →
    let new : RetireEntry := { addr := e.d 0, pasid := s.pasidOf th.lslot, len := (e.d 2).toNat, cword := e.d 4
                               tag := (s.domain d).s, ctl := BitVec.ofNat 32 (e.w 6), place := s.rqFree }
    ∃ t, exec (.retire w) s = .next t ∧ Wrote s t (.retire w) th [(s.domain d).s] ∧ t.retire = s.retire ++ [new] ∧
      SameMemoryBut s t (s.rqPlace new.place) 32 ∧ t.bytesAt (s.rqPlace new.place) 32 = new.bytes ∧
      (∀ y ∈ s.retire, y.place ≠ new.place) ∧
      t.domain d = (if (s.domain d).gst = 0 then { s.domain d with s := (s.domain d).s + 1, gst := 1 } else s.domain d)) ∧
  (∀ (w : EWord) (s : State) (th : Thread), Solo (.gpsync w) s th → th.unf = [] → EngCalm s →
    let d := w.o2.toNat % 8
    (s.domain d).en = true → (s.domain d).pod = false → (th.depth[d]?).getD 0 = 0 →
    ∃ t x, exec (.gpsync w) s = .next t ∧ t.thread? th.tid = some x ∧ x.wait = .eng .entry ∧ x.pc = s.cur.pc + 8 ∧
      x.v = th.v ∧ x.unf.map (fun y => (y.word, y.st, y.aux)) =
        [((engEntry (.gpsync w) s th).word, 0, [((s.domain d).s + 1).toNat])] ∧
      t.domains = s.domains ∧ t.groups = s.groups ∧ OthersSame s t th.tid ∧ SameMemory s t) ∧
  ∀ (w : EWord) (s : State) (th : Thread), Solo (.gpstat w) s th → th.unf = [] → noQueueDest (.gpstat w) th →
    let d := w.o2.toNat % 8
    let k := w.o3.toNat % 8
    let n := (engEntry (.gpstat w) s th).w 0
    let x := s.domain d
    x.en = true →
    ∃ t v, exec (.gpstat w) s = .next t ∧ Wrote s t (.gpstat w) th [v] ∧ SameRest s t ∧
      (n ≠ 0 → k ≠ 3 → k ≠ 4 → k ≠ 5 → v = 0xFFFFFFFF) ∧
      (n = 0 → k = 0 → v = x.s) ∧ (n = 0 → k = 1 → v = x.c) ∧
      (n = 0 → k = 2 → v.toNat % 2 ^ 16 = (s.pend d).length % 2 ^ 16) ∧
      (n ≤ 511 → k = 3 → v = BitVec.ofNat 32 ((s.core n).count d true * 2 ^ 16 + (s.core n).count d false)) ∧
      (n ≤ 15 → k = 4 → v = BitVec.ofNat 32 ((s.die n).parked d false)) ∧
      (n ≤ 15 → k = 5 → v = BitVec.ofNat 32 ((s.die n).parked d true)) ∧
      (n = 0 → k = 6 → v = BitVec.ofNat 32 (4096 - s.retire.length)) ∧
      (n = 0 → k = 7 → v = BitVec.ofNat 32 (((th.ph[d]?).getD false).toNat * 2 ^ 9 + (th.depth[d]?).getD 0))

/-- GP_START, GP_FLIP_DONE and GP_COMPLETE of a domain that is not pod-wide (R393, R394): a period starts on demand; once
every core has set the new bit it drains; it ends when no counter of the old phase holds a contribution, which lets the
GPSYNCs it serves return, and a further one starts while demand remains. (That an entry which waits for a page makes no demand
is log 40, DESIGN CHOICE.) -/
def Claims.GracePeriodsDrainTheOldPhase : Prop :=
  ∀ (s : State) (d : Nat), (s.domain d).pod = false →
    let x := s.domain d
    let only := fun (t : State) (y : Domain) => t.domain d = y ∧ { t with domains := [] } = { s with domains := [] }
    (x.en = true → x.gst = 0 → s.demand d = true → ∃ t, exec (.gpStart d) s = .next t ∧ only t { x with s := x.s + 1, gst := 1 }) ∧
    (s.demand d = false ∨ x.gst ≠ 0 → exec (.gpStart d) s = .next s) ∧
    (x.gst = 1 → ∃ t, exec (.gpFlipDone d) s = .next t ∧ t.domain d = { x with gst := 2 } ∧
      t.cores = s.cores.map (fun c => { c with phase := c.phase.set d (flag x.s.toNat 0) }) ∧ t.threads = s.threads ∧
      SameMemory s t) ∧
    (x.gst = 2 → s.phaseQuiet d (!flag x.s.toNat 0) = false → exec (.gpComplete d) s = .next s) ∧
    (x.gst = 2 → s.phaseQuiet d (!flag x.s.toNat 0) = true → s.threads = [] → ∃ t, exec (.gpComplete d) s = .next t ∧
      only t (if ((s.pend d).all fun e => modGe x.s (e.tag + 1) && e.wait.isNone) && (s.savedSyncs d).all (modGe x.s ·)
              then { x with c := x.s, gst := 0 } else { x with c := x.s, s := x.s + 1, gst := 1 })) ∧
    ∀ (w : EWord) (th : Thread) (e : Entry) g, x.en = true → x.gst = 2 → s.phaseQuiet d (!flag x.s.toNat 0) = true →
      s.threads = [th] → th.unf = [e] → decodeWord e.word = .ok (.gpsync w) → w.o2.toNat % 8 = d → e.aux = [g] → e.st = 0 →
      e.parks = true → e.dst.all RegRef.isV = true → th.wait = .eng .entry → th.pending = none →
      modGe x.s (BitVec.ofNat 32 g) = true → s.retire = [] → s.images = [] →
      ∃ t, exec (.gpComplete d) s = .next t ∧ t.domain d = { x with c := x.s, gst := 0 } ∧
        t.thread? th.tid = some { th with wait := th.resume, resume := .ready, unf := [], v := writeRefs th.v e.dst [BitVec.ofNat 32 g] } ∧
        SameMemory s t

/-- RETIRE_RELEASE and DOMCFG_WRITE (R384, R401, R403, R405): the oldest entry whose period has completed pushes its page
or adds to its word, and leaves the queue; a failed action counts in RQERR; a domain is enabled with S = C = 0.
Completes in a next state of its own effect: retireRelease domcfgWrite. -/
def Obligations.RetiredMemoryIsReleased : Prop :=
  (∀ (s : State) (d : Nat), s.eligible d = none → exec (.retireRelease d) s = .next s) ∧
  (∀ (s : State) (d : Nat) (e : RetireEntry) (pa : Nat), s.retire = [e] → e.dom = d → e.wait = none → e.done = 0 →
    modGe (s.domain d).c (e.tag + 1) = true → EngCalm s → (∀ th ∈ s.threads, th.unf = []) →
    let k := e.ctl.toNat / 2 ^ 10 % 64
    let p := s.pool k
    let x := chipNode e.pasid
    (e.ctl.toNat / 2 ^ 8 % 4 = 1 → p.en = true → p.pasid = e.pasid → e.len = p.pageSize → EngReaches s x e.addr.toNat 8 pa →
      pa + 8 ≤ 2 ^ 40 →
      ∃ t, exec (.retireRelease d) s = .next t ∧ t.retire = [] ∧ t.value pa 8 = p.head.toNat ∧ SameMemoryBut s t pa 8 ∧
        t.pool k = { p with head := e.addr, count := p.count + 1 } ∧ t.threads = s.threads) ∧
    (e.ctl.toNat / 2 ^ 8 % 4 = 2 → EngReaches s x e.cword.toNat 8 pa →
      ∃ t, exec (.retireRelease d) s = .next t ∧ t.retire = [] ∧
        t.value pa 8 = (s.value pa 8 + e.ctl.toNat / 2 ^ 16) % 2 ^ 64 ∧ SameMemoryBut s t pa 8 ∧ t.threads = s.threads) ∧
    (e.ctl.toNat / 2 ^ 8 % 4 = 1 → p.en = false → 0 < e.len →
      ∃ t, exec (.retireRelease d) s = .next t ∧ t.retire = [] ∧
        t.rqerr = BitVec.ofNat 32 (2 ^ 31 + d * 2 ^ 16 + min 0xFFFF (s.rqerr.toNat % 2 ^ 16 + 1)) ∧ t.rqerrtag = e.tag ∧
        t.hostOut = s.hostOut ++ [.msix 0] ∧ SameMemory s t ∧ t.threads = s.threads)) ∧
  ∀ (s : State) (d : Nat) (v : Word),
    let x := s.domain d
    let pod := flag v.toNat 30 && s.feature 1
    (x.en = false → flag v.toNat 31 = true → s.featDone = true → flag s.rqbase.toNat 0 = true →
      ∃ t, exec (.domcfgWrite d v) s = .next t ∧
        t.domain d = { x with pod, en := true, s := 0, c := 0, gst := 0, facks := [], quiets := [], podRun := false } ∧
        t.cores = s.cores.map (fun c => { c with phase := c.phase.set d false }) ∧ t.threads = s.threads ∧ SameMemory s t) ∧
    (x.en = false → flag v.toNat 31 = false ∨ s.featDone = false ∨ flag s.rqbase.toNat 0 = false →
      ∃ t, exec (.domcfgWrite d v) s = .next t ∧ t.domain d = { x with pod }) ∧
    (x.en = true → flag v.toNat 31 = false → s.domainQuiet d = true →
      ∃ t, exec (.domcfgWrite d v) s = .next t ∧ t.domain d = { x with en := false }) ∧
    (x.en = true → flag v.toNat 31 = true ∨ s.domainQuiet d = false → exec (.domcfgWrite d v) s = .next s)

/-- POD_REQ, POD_FLIP, POD_FACK, POD_QUIET and POD_DONE, and what a member reports (R407, R408): the coordinator starts a
period at a request for one that has not started and sends FLIP; a member flips, acknowledges, and reports QUIET; when
every member is quiet the coordinator sends DONE and the period completes everywhere. -/
def Claims.PodPeriodsFollowTheCoordinator : Prop :=
  ∀ (s : State) (d g src : Nat), s.podOn d = true →
    let x := s.domain d
    let others := s.podMembers.filter (· ≠ s.selfChip)
    (s.coordinates = true → x.gst = 0 → x.podRun = false → modGe x.s (BitVec.ofNat 32 g) = false →
      ∃ t, exec (.podReq d ⟨g, src⟩) s = .next t ∧
      t.domain d = { x with podRun := true, facks := [], quiets := [], s := x.s + 1, gst := 1 } ∧
      t.linkOut = s.linkOut ++ others.map fun c => .podFlip c d ((x.s.toNat + 1) % 2 ^ 32)) ∧
    (s.coordinates = false ∨ modGe x.s (BitVec.ofNat 32 g) = true → exec (.podReq d ⟨g, src⟩) s = .next s) ∧
    (x.gst = 0 → (x.s + 1).toNat = g → ∃ t, exec (.podFlip d g) s = .next t ∧ t.domain d = { x with s := x.s + 1, gst := 1 } ∧
      t.linkOut = s.linkOut ∧ t.threads = s.threads) ∧
    (∀ c, s.podCoord = some c → c ≠ s.selfChip → x.gst = 1 → ∃ t, exec (.gpFlipDone d) s = .next t ∧
      t.domain d = { x with gst := 2 } ∧ t.linkOut = s.linkOut ++ [.podFack c d x.s.toNat]) ∧
    (∀ c, s.podCoord = some c → c ≠ s.selfChip → x.gst = 2 → s.phaseQuiet d (!flag x.s.toNat 0) = true →
      ∃ t, exec (.gpComplete d) s = .next t ∧ t.domain d = { x with gst := 3 } ∧
        t.linkOut = s.linkOut ++ [.podQuiet c d x.s.toNat]) ∧
    (x.s.toNat = g → ∃ t, exec (.podFack d g src) s = .next t ∧ t.domain d = { x with facks := insertNat src x.facks }) ∧
    (x.s.toNat = g → x.podRun = true → (∃ c ∈ s.podMembers, c ∉ insertNat src x.quiets) →
      ∃ t, exec (.podQuiet d g src) s = .next t ∧ t.domain d = { x with quiets := insertNat src x.quiets } ∧
        t.linkOut = s.linkOut) ∧
    (x.s.toNat = g → x.podRun = true → (∀ c ∈ s.podMembers, c ∈ insertNat src x.quiets) → s.threads = [] → s.retire = [] → s.images = [] →
      ∃ t, exec (.podQuiet d g src) s = .next t ∧
        t.domain d = { x with quiets := insertNat src x.quiets, podRun := false, c := x.s, gst := 0 } ∧
        t.linkOut = s.linkOut ++ others.map fun c => .podDone c d g) ∧
    (x.s.toNat = g → x.gst = 3 → s.threads = [] → s.retire = [] → s.images = [] → ∃ t, exec (.podDone d g) s = .next t ∧
      t.domain d = { x with podRun := false, c := x.s, gst := 0 } ∧ t.linkOut = s.linkOut)

/-- A grace period flips, drains the old phase and completes, on one chip and across the pod: the claims named here
hold together.
Completes in a next state of its own effect: gpStart gpFlipDone gpComplete podReq podFlip podFack podQuiet podDone. -/
def Obligations.GracePeriodsRunToTheirEnd : Prop :=
  Claims.GracePeriodsDrainTheOldPhase ∧
  Claims.PodPeriodsFollowTheCoordinator

namespace Sys2Proof.Machine

/-- The engine of the chip node may write the first `n` bytes of a collective's progress record, at `pp`. -/
abbrev ProgAt (s : State) (x : Coll) (n pp : Nat) : Prop := EngReaches s (chipNode x.pasid) x.rcd.prog.toNat n pp

/-- Word 0 of a progress record (Table 13.4). -/
def progWord (state ntree code epoch : Nat) : Nat := state * 2 ^ 28 + ntree * 2 ^ 24 + code * 2 ^ 16 + epoch % 2 ^ 16

/-- A lone thread issues a collective instruction and nothing stands in its way. -/
structure CollReady (i : Instr) (s : State) (th : Thread) : Prop where
  solo   : Solo i s th
  idle   : th.unf = []
  calm   : EngCalm s
  dest   : noQueueDest i th

/-- The one live collective of this chip, which is no coordinator for it, taken up with no CARVE in progress; its numbers fit
the fields of its record. -/
structure OneColl (s : State) (x : Coll) : Prop where
  only   : s.colls = [x]
  live   : x.state < 4
  away   : x.rcd.coordChip ≠ s.selfChip
  noOne  : s.coord? x.rcd.cid = none
  fits   : x.ntree < 16 ∧ x.code < 256
  calm   : EngCalm s
  saved  : s.images = []
  awake  : ∀ th ∈ s.threads, th.wait ≠ .rng
  ways   : x.pre = false
  owes   : x.owed = none ∧ x.pauseAt = none

/-- The chip is the coordinator of its one live collective (R461: the lowest chip of PART, a participant with a slot of its
own): the coordinator's record and the own slot agree, and its numbers fit the fields of its progress record. -/
structure OwnColl (s : State) (x : Coll) (c : Coord) : Prop where
  only   : s.colls = [x]
  live   : x.state < 4
  own    : x.rcd.coordChip = s.selfChip
  lead   : s.coords = [c]
  agree  : c.cid = x.rcd.cid ∧ c.first.part = x.rcd.part ∧ c.first.maxtree = x.rcd.maxtree ∧ c.epoch = x.epoch
  joins  : s.selfChip ∈ c.joined ∧ ∃ k ∈ x.rcd.parts, k ≠ s.selfChip
  fits   : x.ntree < 16 ∧ x.code < 256
  calm   : EngCalm s
  saved  : s.images = []
  awake  : ∀ th ∈ s.threads, th.wait ≠ .rng
  ways   : x.pre = false
  owes   : x.owed = none ∧ x.pauseAt = none ∧ x.early = []

/-- The collective of the slot `x` has ended on this chip (R460): its slot is free, its state and code stand in the progress
record at `pp`, its range entries are clear (R473). -/
def CollEnded (s t : State) (x : Coll) (pp st code : Nat) : Prop :=
  t.colls = [] ∧ t.value pp 4 = progWord st x.ntree code x.epoch ∧ SameMemoryBut s t pp 16 ∧
  (t.core x.core).ranges = (s.core x.core).ranges.filter (fun e => !(e.eng = 3 && e.tag = x.slot))

/-- The usable edges of the chip's map among the chips of PART. -/
def State.edgesOf (s : State) (part : Nat) : List Edge :=
  s.usableEdges.filter fun e => (partChips part).contains e.a && (partChips part).contains e.b

/-- The coordinator starts epoch `n` of its collective (R461, R469 step 5): START goes to the other participants with the
finished chunks `fin` and the edges of its map, and its own slot runs the epoch. -/
def Restarted (s t : State) (x : Coll) (pp n : Nat) (fin : List Nat) (trees : List (List Edge)) : Prop :=
  t.linkOut = s.linkOut ++ ((x.rcd.parts.filter (· ≠ s.selfChip)).map fun k => .start k x.rcd.cid n fin (s.edgesOf x.rcd.part)) ∧
  t.colls.map (fun y => (y.slot, y.state, y.starts, y.trees)) = [(x.slot, 2, n + 1, trees)] ∧
  t.value pp 4 = progWord 2 trees.length x.code n ∧ SameMemoryBut s t pp x.rcd.progBytes

end Sys2Proof.Machine

/-! ### Spec 13: collectives and the link map -/

/-- CLAUNCH (R456, R458, R459, R461, R473, R476, R477, R478): a record that passes the checks takes a free slot and a new
generation, its progress record is written in state 1, its ranges are registered, and JOIN goes to the coordinator; the handle
is the slot and the generation. (That the lowest free slot is taken, and that the generations of a slot count on from the one
held, are the model's choices, logs 2 and 38.) -/
def Claims.CollectivesAreLaunched : Prop :=
  ∀ (w : EWord) (s : State) (th : Thread) (b pp : Nat), CollReady (.claunch w) s th → s.colls = [] → s.collGen.length = 16 →
    (s.core th.tid.core).ranges = [] →
    let x := s.eng th.tid.core th.slot
    let a := (engEntry (.claunch w) s th).d 0
    let r := parseColl b
    let gen := ((s.collGen[0]?).getD 0 + 1) % 4096
    a.toNat % 128 = 0 → canonical a.toNat = true → EngSees s x a.toNat 128 b → collBad b r s.selfChip = false →
    flag r.part s.selfChip = true → (∀ c ∈ r.parts, ∃ k, k < 12 ∧ (s.linkEntry c k).v = true) →
    EngReaches s (chipNode x.pasid) r.prog.toNat r.progBytes pp → r.coordChip ≠ s.selfChip →
    ∃ t, exec (.claunch w) s = .next t ∧ Wrote s t (.claunch w) th [BitVec.ofNat 32 (gen * 16)] ∧
      t.colls.map (fun y => (y.slot, y.gen, y.state, y.rcd, y.core, y.team)) = [(0, gen, 1, r, th.tid.core, th.slot)] ∧
      t.value pp 4 = progWord 1 0 0 0 ∧ t.value (pp + 4) 4 = r.nc ∧ t.value (pp + 8) 4 = 0 ∧ SameMemoryBut s t pp r.progBytes ∧
      (t.core th.tid.core).ranges = collRanges r s.selfChip th.slot 0 ∧
      t.linkOut = s.linkOut ++ [.join r.coordChip
        { src := s.selfChip, cid := r.cid, op := r.op, ty := r.ty, rop := r.rop, root := r.root, nelem := r.nelem,
          lchunk := r.lchunk, maxtree := r.maxtree, part := r.part }]

/-- CSTATUS, CABORT, CRESUME and LINKQ (R460, R471, R479, R480, R481, Table 13.8): the header of the handle's collective, or
0; an abort ends it in state 6 with code 3 and tells the coordinator; CRESUME of a held collective tells the coordinator;
the link map's entries, epoch and chip number are read. -/
def Claims.CollectiveWordsActOnHandles : Prop :=
  ∀ (w : EWord) (s : State) (th : Thread),
    let h := fun (i : Instr) => (engEntry i s th).w 0
    (CollReady (.cstatus w) s th →
      ((∀ x ∈ s.colls, x.slot + 16 * x.gen ≠ h (.cstatus w)) →
        ∃ t, exec (.cstatus w) s = .next t ∧ Wrote s t (.cstatus w) th [0] ∧ SameRest s t) ∧
      ∀ x, OneColl s x → x.slot + 16 * x.gen = h (.cstatus w) → ∃ t, exec (.cstatus w) s = .next t ∧
        Wrote s t (.cstatus w) th [BitVec.ofNat 32 (progWord x.state x.ntree x.code (x.starts - 1))] ∧ SameRest s t) ∧
    (CollReady (.cabort w) s th →
      (s.handle? (h (.cabort w)) = none → ∃ t, exec (.cabort w) s = .next t ∧ Wrote s t (.cabort w) th [1] ∧
        t.colls = s.colls ∧ t.linkOut = s.linkOut ∧ SameMemory s t) ∧
      ∀ x pp, OneColl s x → x.slot + 16 * x.gen = h (.cabort w) → ProgAt s x 16 pp → ∃ t, exec (.cabort w) s = .next t ∧
        Wrote s t (.cabort w) th [0] ∧ t.colls = [] ∧ t.value pp 4 = progWord 6 x.ntree 3 (x.starts - 1) ∧
        SameMemoryBut s t pp 16 ∧ t.linkOut = s.linkOut ++ [.abort x.rcd.coordChip x.rcd.cid]) ∧
    (CollReady (.cresume w) s th →
      (s.handle? (h (.cresume w)) = none → ∃ t, exec (.cresume w) s = .next t ∧ Wrote s t (.cresume w) th [2] ∧
        t.linkOut = s.linkOut ∧ SameMemory s t) ∧
      (∀ x, s.handle? (h (.cresume w)) = some x → x.state ≠ 3 → ∃ t, exec (.cresume w) s = .next t ∧
        Wrote s t (.cresume w) th [1] ∧ t.linkOut = s.linkOut ∧ SameMemory s t) ∧
      ∀ x, s.handle? (h (.cresume w)) = some x → x.state = 3 → x.rcd.coordChip ≠ s.selfChip →
        ∃ t, exec (.cresume w) s = .next t ∧ Wrote s t (.cresume w) th [0] ∧ SameMemory s t ∧ t.colls = s.colls ∧
          t.linkOut = s.linkOut ++ [.resume x.rcd.coordChip x.rcd.cid x.epoch]) ∧
    (CollReady (.linkq w) s th →
      let c := h (.linkq w)
      let k := w.o3.toNat % 512
      let e := s.linkEntry c k
      ∃ t v, exec (.linkq w) s = .next t ∧ Wrote s t (.linkq w) th [v] ∧ SameRest s t ∧
        (k ≤ 11 → c ≤ 255 → v = BitVec.ofNat 32 (e.v.toNat * 2 ^ 31 + (s.linkUsable c k).toNat * 2 ^ 30 + e.lup.toNat * 2 ^ 29
          + e.pport * 2 ^ 24 + e.seq * 2 ^ 8 + e.pchip)) ∧
        (k ≤ 11 → 255 < c → v = 0xFFFFFFFF) ∧ (12 ≤ k → c ≠ 0 → v = 0xFFFFFFFF) ∧
        (k = 12 → c = 0 → v = s.linkMap.epoch) ∧ (k = 13 → c = 0 → v = BitVec.ofNat 32 s.selfChip))

/-- CLAUNCH takes a slot and joins; the other collective words act on a handle: the claims named here hold together.
Completes in a next state of its own effect: claunch cstatus cabort cresume linkq. -/
def Obligations.CollectivesAreLaunchedAndActedOn : Prop :=
  Claims.CollectivesAreLaunched ∧ Claims.CollectiveWordsActOnHandles

/-- What a participant does at COLL_START, COLL_PAUSE, COLL_FINISH, COLL_FAIL, COLL_ABORT_MSG and CHUNK_DATA (R460, R461,
R462, R466, R469, R479): it derives its trees and sets its chunks to work, pauses with its D bitmap, ends with its state and
code in the progress record, and combines the values that its children send with its own. (That the value of an epoch not started here is held until its
START, and that messages carry their epoch, is log 38, DEDUCED.)
Completes in a next state of its own effect: collStart collPause collFinish collFail collAbortMsg chunkData. -/
def Obligations.ParticipantsFollowTheCoordinator : Prop :=
  ∀ (s : State) (x : Coll) (pp : Nat), OneColl s x →
    let r := x.rcd
    let self := s.selfChip
    let ended := fun (i : Instr) (st code : Nat) => ∃ t, exec i s = .next t ∧ CollEnded s t x pp st code ∧ t.linkOut = s.linkOut
    (∀ (edges : List Edge) (trees : List (List Edge)), x.state = 1 → x.starts = 0 → x.code = 0 → x.r = [] → x.d = [] →
      x.early = [] → ProgAt s x r.progBytes pp → deriveTrees r.parts edges (r.maxtree + 1) = some trees →
      0 < r.nc → trees.length < 16 →
      (∀ c, c < r.nc → treeKids ((trees[c % trees.length]?).getD []) (r.treeRoot (c % trees.length) trees.length) self ≠ []) →
      ∃ t, exec (.collStart r.cid 0 [] edges) s = .next t ∧
        t.colls = [{ x with
          state := 2, starts := 1, ntree := trees.length, trees, reported := false, waits := [], lines := [], retry := 0,
          work := (List.range r.nc).map fun c => { chunk := c, tree := c % trees.length } }] ∧
        t.value pp 4 = progWord 2 trees.length 0 0 ∧ SameMemoryBut s t pp r.progBytes ∧ t.linkOut = s.linkOut) ∧
    (∀ chip, x.state = 2 → ProgAt s x 16 pp → ∃ t, exec (.collPause r.cid ⟨chip, x.epoch⟩) s = .next t ∧
      t.colls = [{ x with state := 3, work := [], waits := [], lines := [], retry := 0 }] ∧
      t.value pp 4 = progWord 3 x.ntree x.code x.epoch ∧
      SameMemoryBut s t pp 16 ∧ t.linkOut = s.linkOut ++ [.bitmap r.coordChip r.cid x.epoch x.d]) ∧
    (∀ chip n, n < x.epoch → exec (.collPause r.cid ⟨chip, n⟩) s = .next s ∧ exec (.collFinish ⟨r.cid, n⟩) s = .next s) ∧
    (ProgAt s x 16 pp → ended (.collFinish ⟨r.cid, x.epoch⟩) 4 0) ∧
    (∀ code, code < 256 → ProgAt s x 16 pp → ended (.collFail r.cid code) 5 code) ∧
    (∀ src, ProgAt s x 16 pp → ended (.collAbortMsg r.cid src) 6 4) ∧
    (∀ epoch chunk up src vals bad, epoch + 1 < x.starts →
      exec (.chunkData r.cid epoch chunk up src vals bad) s = .next s) ∧
    (∀ epoch chunk up src vals bad, x.starts ≤ epoch → ∃ t, exec (.chunkData r.cid epoch chunk up src vals bad) s = .next t ∧
      t.colls = [{ x with early := x.early ++ [{ epoch, chunk, up, src, vals := { vals, bad } }] }] ∧ SameMemory s t) ∧
    ∀ (k : ChunkWork) (src parent pa mp : Nat) (vals : List (Option Word)), x.state = 2 → 1 ≤ x.starts → x.work = [k] →
      k.up = false → k.got = [] → k.res = none → r.op = 0 →
      let root := r.treeRoot k.tree x.ntree
      let es := (x.trees[k.tree]?).getD []
      let n := (r.chunkElems k.chunk).2
      let at_ := r.input.toNat + (r.chunkElems k.chunk).1 * r.esize
      let own : ChunkVals := { vals := (List.range n).map fun j => some (r.widen (s.value (pa + r.esize * j) r.esize)) }
      self ≠ root → treeKids es root self = [src] → treeParent es root self = some parent → 0 < n →
      at_ < 2 ^ 64 → canonical at_ = true → at_ % 4096 + n * r.esize ≤ 4096 → s.trans (.die 0) x.pasid at_ .read = .ok pa → pa + n * r.esize ≤ 2 ^ 42 →
      s.cleanSpan pa (n * r.esize) → EngReaches s (chipNode x.pasid) (r.prog.toNat + 0x40 + 4 * (k.chunk / 16)) 4 mp →
      ∃ t, exec (.chunkData r.cid (x.starts - 1) k.chunk true src vals []) s = .next t ∧
        t.linkOut = s.linkOut ++ [.chunk parent r.cid (x.starts - 1) k.chunk true (r.opVals own { vals }).vals []] ∧
        t.colls.map (fun y => (y.r, y.work.map ChunkWork.up)) = [(insertNat k.chunk x.r, [true])] ∧
        t.value mp 4 = ({ x with r := insertNat k.chunk x.r }).markWord (k.chunk / 16) ∧ SameMemoryBut s t mp 4

/-- What the coordinator does at COLL_JOIN, COLL_PAUSE, COLL_BITMAP, COLL_RESUME_MSG, COLL_REPORT, COLL_FAIL and COLL_ABORT_MSG
(R460, R461, R462, R469, R471, R473, R479), with its own slot for the collective: it waits for every JOIN and then sends START
with the edges of its map, or FAIL when two differ; a PAUSE stops every participant, itself too; a round of bitmaps ends with
START for the chunks not yet done everywhere, or with FAIL when no tree is left, and with HOLD waits for every CRESUME; the
last report brings FINISH. JOINs that come before the coordinator's own CLAUNCH are counted as well. Messages of another epoch
are discarded (log 38, the model's choice for PAUSE and CRESUME).
Completes in a next state of its own effect: collJoin collPause collBitmap collResumeMsg collReport collFail
collAbortMsg. -/
def Obligations.CoordinatorRunsTheRounds : Prop :=
  (∀ (s : State) (j : JoinMsg), s.coords = [] → (∃ c ∈ partChips j.part, c ≠ j.src) → ∃ t, exec (.collJoin j) s = .next t ∧
    t.coords = [{ cid := j.cid, first := j, joined := [j.src] }] ∧ t.colls = s.colls ∧ t.linkOut = s.linkOut) ∧
  (∀ (s : State) (j : JoinMsg) (c : Coord), s.coords = [c] → s.colls = [] → c.cid = j.cid → j.src ∉ c.joined → c.bad = false →
    sameJoin c.first j = false → s.selfChip ∉ insertNat j.src c.joined → ∃ t, exec (.collJoin j) s = .next t ∧
      t.linkOut = s.linkOut ++ (insertNat j.src c.joined).map fun k => .fail k j.cid 1) ∧
  ∀ (s : State) (x : Coll) (c : Coord) (pp : Nat), OwnColl s x c →
    let r := x.rcd
    let self := s.selfChip
    let others := r.parts.filter (· ≠ self)
    let edges := s.edgesOf r.part
    let derived := deriveTrees r.parts edges (r.maxtree + 1)
    let inner := fun (trees : List (List Edge)) => trees.length < 16 ∧
      ∀ k, k < trees.length → treeKids ((trees[k]?).getD []) (r.treeRoot k trees.length) self ≠ []
    (∀ (j : JoinMsg), c.cid = j.cid → j.src ∉ c.joined → c.bad = false →
      (sameJoin c.first j = false → ProgAt s x 16 pp → ∃ t, exec (.collJoin j) s = .next t ∧ CollEnded s t x pp 5 1 ∧
        t.linkOut = s.linkOut ++ ((insertNat j.src c.joined).filter (· ≠ self)).map fun k => .fail k j.cid 1) ∧
      (∀ trees, sameJoin c.first j = true → c.ended = false → (∀ k ∈ r.parts, k ∈ insertNat j.src c.joined) →
        c.started = false → c.bitmaps = [] → x.state = 1 → x.starts = 0 → ProgAt s x r.progBytes pp →
        derived = some trees → 0 < r.nc → inner trees →
        ∃ t, exec (.collJoin j) s = .next t ∧ Restarted s t x pp 0 [] trees ∧ t.coords = [{ c with
            joined := insertNat j.src c.joined, epoch := 0, started := true, pausing := false, bitmaps := [], resumes := [],
            reports := [] }])) ∧
    (c.started = true → 1 ≤ x.starts →
      (∀ chip, c.pausing = false → x.state = 2 → ProgAt s x 16 pp →
        ∃ t, exec (.collPause c.cid ⟨chip, c.epoch⟩) s = .next t ∧
          t.coords = [{ c with pausing := true, bitmaps := [(self, x.d)] }] ∧
          t.colls = [{ x with state := 3, work := [], waits := [], lines := [], retry := 0 }] ∧
          t.value pp 4 = progWord 3 x.ntree x.code x.epoch ∧ SameMemoryBut s t pp 16 ∧
          t.linkOut = s.linkOut ++ others.map fun k => .pause k c.cid c.epoch) ∧
      (∀ chip n, n ≠ c.epoch → exec (.collPause c.cid ⟨chip, n⟩) s = .next s ∧
        exec (.collResumeMsg c.cid ⟨chip, n⟩) s = .next s) ∧
      (∀ src done, c.pausing = true → x.state = 3 →
        let got := upsert (fun b => b.1 = src) (src, done) c.bitmaps
        ((∃ k ∈ r.parts, ∀ b ∈ got, b.1 ≠ k) ∨ (r.hold = true ∧ ∃ k ∈ r.parts, k ∉ c.resumes) →
          ∃ t, exec (.collBitmap c.cid c.epoch src done) s = .next t ∧
            t.coords = [{ c with bitmaps := got }] ∧ t.colls = [x] ∧ t.linkOut = s.linkOut) ∧
        ((∀ k ∈ r.parts, ∃ b ∈ got, b.1 = k) → (r.hold = true → ∀ k ∈ r.parts, k ∈ c.resumes) →
          (∀ trees, derived = some trees → inner trees → ProgAt s x r.progBytes pp →
            ∃ t fin, exec (.collBitmap c.cid c.epoch src done) s = .next t ∧ (∀ k, k ∈ fin ↔ ∀ b ∈ got, k ∈ b.2) ∧
              Restarted s t x pp (c.epoch + 1) fin trees) ∧
          (derived = none → r.hold = false → ProgAt s x 16 pp → ∃ t, exec (.collBitmap c.cid c.epoch src done) s = .next t ∧
            t.coords = [] ∧ CollEnded s t x pp 5 2 ∧
            t.linkOut = s.linkOut ++ (c.joined.filter (· ≠ self)).map fun k => .fail k c.cid 2) ∧
          (derived = none → r.hold = true → ∃ t, exec (.collBitmap c.cid c.epoch src done) s = .next t ∧
            t.coords = [{ c with bitmaps := got, resumes := [] }] ∧ t.colls = [x] ∧ t.linkOut = s.linkOut))) ∧
      (∀ chip, c.pausing = true →
        ((∃ k ∈ r.parts, ∀ b ∈ c.bitmaps, b.1 ≠ k) → ∃ t, exec (.collResumeMsg c.cid ⟨chip, c.epoch⟩) s = .next t ∧
          t.coords = [{ c with resumes := insertNat chip c.resumes }] ∧ t.colls = [x] ∧ t.linkOut = s.linkOut) ∧
        (∀ trees, (∀ k ∈ r.parts, ∃ b ∈ c.bitmaps, b.1 = k) → (∀ k ∈ r.parts, k ∈ insertNat chip c.resumes) →
          derived = some trees → inner trees → ProgAt s x r.progBytes pp →
          ∃ t fin, exec (.collResumeMsg c.cid ⟨chip, c.epoch⟩) s = .next t ∧ (∀ k, k ∈ fin ↔ ∀ b ∈ c.bitmaps, k ∈ b.2) ∧
            Restarted s t x pp (c.epoch + 1) fin trees)) ∧
      (∀ src, c.pausing = false →
        ((∃ k ∈ r.parts, k ∉ insertNat src c.reports) → ∃ t, exec (.collReport c.cid c.epoch src) s = .next t ∧
          t.coords = [{ c with reports := insertNat src c.reports }] ∧ t.colls = [x] ∧ t.linkOut = s.linkOut) ∧
        ((∀ k ∈ r.parts, k ∈ insertNat src c.reports) → ProgAt s x 16 pp →
          ∃ t, exec (.collReport c.cid c.epoch src) s = .next t ∧ t.coords = [] ∧ CollEnded s t x pp 4 0 ∧
            t.linkOut = s.linkOut ++ others.map fun k => .finish k c.cid c.epoch))) ∧
    (∀ code, code < 256 → ProgAt s x 16 pp → ∃ t, exec (.collFail c.cid code) s = .next t ∧ t.coords = [] ∧
      CollEnded s t x pp 5 code ∧ t.linkOut = s.linkOut ++ (c.joined.filter (· ≠ self)).map fun k => .fail k c.cid code) ∧
    (∀ src, src ≠ self → (∀ k ∈ r.parts, k ∈ c.joined) → ProgAt s x 16 pp →
      ∃ t, exec (.collAbortMsg c.cid src) s = .next t ∧ t.coords = [] ∧ CollEnded s t x pp 6 4 ∧
        t.linkOut = s.linkOut ++ (c.joined.filter (fun k => k ≠ src ∧ k ≠ self)).map fun k => .abort k c.cid)

/-- LINK_UP, LINK_DOWN and LINK_STATE_FLIT (R452, R453): a change of an own link takes the next sequence number and is
reported on every link that is up; a peer with this chip's number stays down; a newer flit, of any chip, is applied and
forwarded, an older one is dropped. (That the map epoch also advances at a change of an own link is the model's choice, log 32:
R453 counts applied flits.)
Completes in a next state of its own effect: linkUp linkDown linkStateFlit. -/
def Obligations.LinkMapFollowsTheLinks : Prop :=
  ∀ (s : State) (link : Nat), link < 12 → s.colls = [] → s.podmask = 0 → s.flits = true →
    let self := s.selfChip
    let e := s.linkEntry self link
    let seq := (s.linkMap.mySeq + 1) % 2 ^ 16
    let told := fun (t : State) => ∃ es, t.linkRow self = some (seq, es) ∧ t.linkMap.mySeq = seq ∧
      t.linkMap.epoch = s.linkMap.epoch + 1 ∧ t.linkOut = s.linkOut ++ t.ownUp.map fun k => .linkState k self seq es
    (e.lup = true → ∃ t, exec (.linkDown link) s = .next t ∧ told t ∧
      t.linkEntry self link = { e with v := true, lup := false, seq }) ∧
    (∀ pchip pport, e.lup = false → pchip ≠ self → (∀ r ∈ s.linkMap.rows, r.1 = self) →
      ∃ t, exec (.linkUp link pchip pport) s = .next t ∧ told t ∧
        t.linkEntry self link = { v := true, lup := true, pport, seq, pchip }) ∧
    (∀ pport, e.lup = false → ∃ t, exec (.linkUp link self pport) s = .next t ∧ (t.linkEntry self link).lup = false ∧
      t.linkOut = s.linkOut) ∧
    ∀ origin n (entries : List LinkEntry),
      (s.linkRow origin = none ∨ (∃ r, s.linkRow origin = some r ∧ 1 ≤ (n + 2 ^ 16 - r.1) % 2 ^ 16 ∧ (n + 2 ^ 16 - r.1) % 2 ^ 16 ≤ 32767) →
        ∃ t, exec (.linkStateFlit link origin n entries) s = .next t ∧
          (∀ k, k < 12 → t.linkEntry origin k = { (entries[k]?).getD noLink with v := true, seq := n }) ∧
          t.linkMap.epoch = s.linkMap.epoch + 1 ∧
          ∃ es, t.linkRow origin = some (n, es) ∧
            t.linkOut = s.linkOut ++ (t.ownUp.filter (· ≠ link)).map fun k => .linkState k origin n es) ∧
      (∀ r, s.linkRow origin = some r → (n + 2 ^ 16 - r.1) % 2 ^ 16 = 0 ∨ 32767 < (n + 2 ^ 16 - r.1) % 2 ^ 16 →
        exec (.linkStateFlit link origin n entries) s = .next s)

namespace Sys2Proof.Machine

/-- A lone thread parked in ENG on its one unfinished instruction, the word `i` writes no shared register for. -/
structure ParkedOn (s : State) (th : Thread) (e : Entry) (i : Instr) : Prop where
  only   : s.threads = [th]
  one    : th.unf = [e]
  word   : decodeWord e.word = .ok i
  open_  : e.st = 0 ∧ e.queued = false ∧ e.page = none ∧ e.parks = true ∧ e.val = none
  dst    : e.dst.all RegRef.isV = true
  waits  : th.wait = .eng .entry
  calm   : th.pending = none
  lone   : s.noFollowers th.tid

/-- That thread after its instruction has finished with `vals`. -/
def Thread.finished (th : Thread) (e : Entry) (vals : List Word) : Thread :=
  { th with wait := th.resume, resume := .ready, unf := [], v := writeRefs th.v e.dst vals }

/-- A lone thread waits in ENG past its word, and has written no register. -/
def WaitsInEng (s t : State) (th : Thread) : Prop :=
  (∃ x, t.thread? th.tid = some x ∧ x.wait = .eng .entry ∧ x.pc = s.cur.pc + 8 ∧ x.v = th.v ∧ x.unf.length = th.unf.length + 1) ∧
    t.groups = s.groups ∧ OthersSame s t th.tid

end Sys2Proof.Machine

/-! ### Spec 05: subscriptions, the vault, rings, and the host's accesses -/

/-- SUBSCR, SUBSCR_MIRROR_COMPLETE, SUB_UPDATE_APPLY and UNSUBSCR (R209, R210, R211, R229, R230): the thread waits in ENG
until the mirror holds the range's bytes, and receives the handle; updates are applied in sequence order; without a free
handle 0x80000001 is returned; the subscription ends with UNSUBSCR. -/
def Claims.SubscriptionsMirrorTheirRange : Prop :=
  (∀ (w : EWord) (s : State) (th : Thread) (pa : Nat), Solo (.subscr w) s th → th.unf = [] →
    let x := s.eng th.tid.core th.slot
    let e := engEntry (.subscr w) s th
    let a := (e.d 0).toNat
    let n := e.w 2
    let o := e.w 3
    let part : SubPart := { pa, off := 0, len := n }
    a % 128 = 0 → n % 128 = 0 → o % 128 = 0 → 0 < n → a % 4096 + n ≤ 4096 → canonical a = true → o + n ≤ x.size →
    s.protectedSpan th.tid.core (x.base + o) n = false → s.trans (.core th.tid.core) x.pasid a .read = .ok pa → pa + n ≤ 2 ^ 40 →
    pa / 2 ^ 36 = dieOf x.core →
    (EngCalm s → ∃ t, exec (.subscr w) s = .next t ∧ WaitsInEng s t th ∧ SameMemory s t ∧
      (t.core th.tid.core).subs =
        [{ handle := 0, slot := th.slot, pasid := x.pasid, va := a, parts := [part], len := n, mirror := x.base + o }]) ∧
    (noQueueDest (.subscr w) th → s.noFollowers th.tid → (∀ u ∈ (s.core th.tid.core).subs, u.touches [part] = false) →
      (∀ h, h < 8 → ∃ u ∈ (s.core th.tid.core).subs, u.handle = h) →
      ∃ t, exec (.subscr w) s = .next t ∧ Wrote s t (.subscr w) th [0x80000001] ∧ SameMemory s t)) ∧
  (∀ (w : EWord) (s : State) (th : Thread) (e : Entry) (k : CoreSt) (u : Sub) (pa : Nat), ParkedOn s th e (.subscr w) →
    e.aux = [u.handle] → s.cores = [k] → k.id = th.tid.core → k.subs = [u] → u.slot = th.slot → u.live = true → u.ready = false →
    u.parts = [{ pa, off := 0, len := u.len }] → pa + u.len ≤ 2 ^ 40 → k.red = [] → s.hostHeld = [] → s.memOk = true →
    let m := scratchBase k.id + u.mirror
    ∃ t, exec (.subscrMirrorComplete k.id u.handle) s = .next t ∧ t.bytesAt m u.len = s.bytesAt pa u.len ∧
      SameMemoryBut s t m u.len ∧ t.thread? th.tid = some (th.finished e [BitVec.ofNat 32 u.handle]) ∧
      (t.core k.id).subs.map (fun y => (y.handle, y.live, y.ready)) = [(u.handle, true, true)]) ∧
  (∀ (s : State) (k : CoreSt) (u : Sub), s.cores = [k] → k.subs = [u] → u.live = true → u.ready = true → s.memOk = true →
    ((∀ y ∈ u.early, y.seq ≠ (u.seq + 1) % 2 ^ 32) → exec (.subUpdateApply k.id u.handle) s = .next s) ∧
    ∀ (y : SubUpd) b off, u.early = [y] → y.seq = (u.seq + 1) % 2 ^ 32 → y.bytes = [b] → y.mark = none →
      u.offsetOf y.addr = some off →
      let m := scratchBase k.id + u.mirror + off
      ∃ t, exec (.subUpdateApply k.id u.handle) s = .next t ∧ t.byte m = b ∧ SameMemoryBut s t m 1 ∧
        (t.core k.id).subs = [{ u with seq := y.seq, early := [] }]) ∧
  ∀ (w : EWord) (s : State) (th : Thread) (u : Sub), Solo (.unsubscr w) s th → th.unf = [] → noQueueDest (.unsubscr w) th →
    s.noFollowers th.tid → (s.core th.tid.core).subs = [u] → u.handle = (engEntry (.unsubscr w) s th).w 0 →
    u.slot = th.slot → u.early = [] → (∀ c ∈ s.cores, c.red = []) →
    ∃ t, exec (.unsubscr w) s = .next t ∧ Wrote s t (.unsubscr w) th [if u.live then 0 else 1] ∧ SameMemory s t ∧
      (t.core th.tid.core).subs = []

/-- CARVE and CARVE_SWITCH (R208, R231): a second carve gives 2, a mask of more than 16 ways 1; an accepted one waits until
no range covers a returned way; then every way that changes sides reads zero, and the thread receives 0. -/
def Claims.VaultWaysAreCarved : Prop :=
  (∀ (w : EWord) (s : State) (th : Thread), Solo (.carve w) s th → th.unf = [] → noQueueDest (.carve w) th →
    s.noFollowers th.tid →
    let x := s.die (dieOf th.tid.core)
    let m := (engEntry (.carve w) s th).w 0
    (x.carve.isSome = true → ∃ t, exec (.carve w) s = .next t ∧ Wrote s t (.carve w) th [2] ∧ t.dies = s.dies ∧ SameMemory s t) ∧
    (x.carve = none → 2 ^ 20 ≤ m ∨ 16 < popCount m → ∃ t, exec (.carve w) s = .next t ∧ Wrote s t (.carve w) th [1] ∧
      t.dies = s.dies ∧ SameMemory s t) ∧
    (x.carve = none → m < 2 ^ 20 → popCount m ≤ 16 → ∃ t, exec (.carve w) s = .next t ∧ WaitsInEng s t th ∧
      t.die (dieOf th.tid.core) = { x with carve := some { new := BitVec.ofNat 20 m, lead := th.tid } } ∧ SameMemory s t)) ∧
  (∀ (s : State) (d : Nat), s.carveDrained d = false → exec (.carveSwitch d) s = .next s) ∧
  ∀ (w : EWord) (s : State) (th : Thread) (e : Entry) (d : Nat) (c : CarveOp), ParkedOn s th e (.carve w) → e.aux = [1] →
    s.carveDrained d = true → (s.die d).carve = some c → c.lead = th.tid → dieOf th.tid.core = d → s.memOk = true →
    let change := (s.die d).mask.toNat ^^^ c.new.toNat
    let inside := fun a => ∃ k, k < 20 ∧ flag change k = true ∧ vaultBase d + k * 20971520 ≤ a ∧ a < vaultBase d + (k + 1) * 20971520
    ∃ t, exec (.carveSwitch d) s = .next t ∧ t.die d = { s.die d with mask := c.new, carve := none } ∧
      (∀ a, isVault a = true → inside a → t.byte a = 0) ∧ (∀ a, ¬inside a → t.byte a = s.byte a) ∧
      t.thread? th.tid = some (th.finished e [0])

/-- SUBSCR mirrors its range, updates apply in order, UNSUBSCR ends it; CARVE is refused, waits, and switches ways that then read zero: the claims named here
hold together.
Completes in a next state of its own effect: subscr unsubscr carve carveSwitch subscrMirrorComplete subUpdateApply. -/
def Obligations.SubscriptionsAndVault : Prop :=
  Claims.SubscriptionsMirrorTheirRange ∧
  Claims.VaultWaysAreCarved

/-- MSEND, MSG_DELIVER, RINGSET and RINGADV (R220, R221, R222, R223, R232, R233, R234): a payload enters the send buffer
with its sequence number; delivery, which waits for the accesses that the message goes after, writes the slot at TAIL and advances it,
counts in HELD once while the ring is full, and in RINGDROP without a ring of the launch; RINGSET writes the header, RINGADV
moves HEAD. (That SEQ is the count before the message is log 39, DEDUCED.)
Completes in a next state of its own effect: msend ringset ringadv msgDeliver. -/
def Obligations.MessagesReachTheirRings : Prop :=
  (∀ (w : EWord) (s : State) (th : Thread), Solo (.msend w) s th → th.unf = [] → EngCalm s →
    let x := s.eng th.tid.core th.slot
    let e := engEntry (.msend w) s th
    let a := (e.d 0).toNat
    let o := e.w 2
    let n := e.w 3
    let c := s.core th.tid.core
    a / 2 ^ 41 = 0 → a % 2 ^ 32 < 8 → n % 4 = 0 → 4 ≤ n → n ≤ 248 → o + n ≤ x.size → o % 4 = 0 → c.sendBuf.length < 16 →
    s.cleanSpan (x.spa o) n →
    ∃ t, exec (.msend w) s = .next t ∧ GoesOn s t (.msend w) th ∧ SameMemory s t ∧
      (t.core th.tid.core).msgCount = c.msgCount + 1 ∧
      (t.core th.tid.core).sendBuf = c.sendBuf ++ [{ dst := a / 2 ^ 32 % 512, ring := a % 8, payload := s.bytesAt (x.spa o) n
                                                     seq := c.msgCount % 2 ^ 16, slot := th.slot, rel := w.fl
                                                     order := ((s.launch? th.lslot).map Launch.order).getD 0 }]) ∧
  (∀ (s : State) (core idx : Nat) (m : Msg), (s.core core).sendable idx = some m → s.msgReady m = false →
    exec (.msgDeliver core idx) s = .next s) ∧
  (∀ (s : State) (core idx : Nat) (m : Msg), (s.core core).sendable idx = some m → s.msgReady m = true → s.memOk = true →
    m.rel = false ∨ ((s.core core).red = [] ∧ (s.core core).l1 = []) →
    let launchOf := fun (r : Ring) => ((s.team? m.dst r.slot).bind fun tm => s.launch? tm.lslot).map Launch.order
    let sent := fun (t : State) => (t.core core).sendBuf = (s.core core).sendBuf.eraseIdx idx
    ((∀ r, s.ring? m.dst m.ring = some r → launchOf r ≠ some m.order) → ∃ t, exec (.msgDeliver core idx) s = .next t ∧ sent t ∧
      (t.core m.dst).ringDrop = (s.core m.dst).ringDrop + 1 ∧ SameMemory s t) ∧
    ∀ (r : Ring), s.ring? m.dst m.ring = some r → launchOf r = some m.order →
      let h := r.at_ m.dst
      let tail := s.value h 4
      let slot := h + 64 + 256 * (tail % 2 ^ r.logn)
      let used := (tail + 2 ^ 32 - s.value (h + 4) 4) % 2 ^ 32
      (used ≠ 2 ^ r.logn → ∃ t, exec (.msgDeliver core idx) s = .next t ∧ sent t ∧
        t.bytesAt slot (8 + m.payload.length) = leBytes 2 m.payload.length ++ leBytes 1 (core % 32) ++ leBytes 1 (core / 32) ++
          leBytes 2 m.seq ++ leBytes 2 m.slot ++ m.payload ∧
        t.value h 4 = (tail + 1) % 2 ^ 32 ∧
        ∀ a, (a < h ∨ h + 4 ≤ a) → (a < slot ∨ slot + 8 + m.payload.length ≤ a) → t.byte a = s.byte a) ∧
      (used = 2 ^ r.logn → m.counted = false → ∃ t, exec (.msgDeliver core idx) s = .next t ∧
        t.value (h + 0xC) 4 = (s.value (h + 0xC) 4 + 1) % 2 ^ 32 ∧ SameMemoryBut s t (h + 0xC) 4 ∧
        (t.core core).sendBuf = (s.core core).sendBuf.set idx { m with counted := true }) ∧
      (used = 2 ^ r.logn → m.counted = true → exec (.msgDeliver core idx) s = .next s)) ∧
  (∀ (w : EWord) (s : State) (th : Thread), Solo (.ringset w) s th → th.unf = [] → s.noFollowers th.tid → s.memOk = true →
    let x := s.eng th.tid.core th.slot
    let i := w.o1.toNat % 8
    let k := w.o3.toNat % 16
    let o := (engEntry (.ringset w) s th).w 0
    (w.fl = false → s.ring? th.tid.core i = none → o % 64 = 0 → o + 64 + 256 * 2 ^ k ≤ x.size →
      s.protectedSpan th.tid.core (x.base + o) (64 + 256 * 2 ^ k) = false →
      ∃ t, exec (.ringset w) s = .next t ∧ GoesOn s t (.ringset w) th ∧
        (t.core th.tid.core).rings = (s.core th.tid.core).rings ++ [{ idx := i, slot := th.slot, off := x.base + o, logn := k }] ∧
        t.value (x.spa o) 8 = 0 ∧ t.value (x.spa (o + 8)) 4 = k * 16 + i ∧ t.bytesAt (x.spa (o + 12)) 52 = List.replicate 52 0 ∧
        SameMemoryBut s t (x.spa o) 64) ∧
    ∀ r, w.fl = true → s.ring? th.tid.core i = some r → r.slot = th.slot → ∃ t, exec (.ringset w) s = .next t ∧
      GoesOn s t (.ringset w) th ∧ SameMemory s t ∧
      (t.core th.tid.core).rings = (s.core th.tid.core).rings.filter fun y => y.idx ≠ i) ∧
  ∀ (w : EWord) (s : State) (th : Thread) (r : Ring), Solo (.ringadv w) s th → th.unf = [] → s.noFollowers th.tid →
    s.memOk = true → s.ring? th.tid.core (w.o1.toNat % 8) = some r → r.slot = th.slot →
    let h := r.at_ th.tid.core
    let c := (engEntry (.ringadv w) s th).w 0
    c ≤ (s.value h 4 + 2 ^ 32 - s.value (h + 4) 4) % 2 ^ 32 →
    ∃ t, exec (.ringadv w) s = .next t ∧ GoesOn s t (.ringadv w) th ∧ SameMemoryBut s t (h + 4) 4 ∧
      t.value (h + 4) 4 = (s.value (h + 4) 4 + c) % 2 ^ 32

/-- HOST_MEM_ACCESS, HOST_SNOOP, HLC_EVICT, BIRSP and SOFT_ERROR (R203, R215, R216, R217, R492, R495): the host reads and
writes device memory and may hold what it has accessed; a snoop takes a line from the host-line cache or from its exclusive
state; an evicted line is reported, as clean or as dirty; an uncorrectable error poisons its word; a locked device performs no
write. (That the count of corrected errors is a field of its own, which no register shows, is log 48, DESIGN CHOICE.) -/
def Claims.TheHostReachesMemory : Prop :=
  (∀ (s : State) (addr : Nat) (op : HostOp), 0 < HostOp.size op → addr + HostOp.size op ≤ 2 ^ 40 →
    let n := HostOp.size op
    (s.thermTrip = true ∨ s.sec.locked = true → ∃ t, exec (.hostMemAccess addr op) s = .next t ∧ SameMemory s t ∧
      t.hostOut = s.hostOut ++ [.memData (List.replicate n 0) true]) ∧
    (s.thermTrip = false → s.sec.locked = false → (∀ c ∈ s.cores, c.red = [] ∧ c.subs = []) → s.memOk = true →
      ∃ t, exec (.hostMemAccess addr op) s = .next t ∧
        t.hostOut = s.hostOut ++ [.memData (s.bytesAt addr n) (s.poisoned addr n)] ∧ SameMemoryBut s t addr n ∧
        (∀ j, j < n → (addr + j) / 64 ∈ t.hostHeld) ∧ t.threads = s.threads ∧
        (op = .read n → SameMemory s t) ∧ (∀ bs, op = .write bs → t.bytesAt addr n = bs) ∧
        (∀ v, op = .add n v → t.bytesAt addr n = leBytes n (s.value addr n + v.toNat)))) ∧
  (∀ (s : State) (line off : Nat) (op : HostOp), 0 < HostOp.size op → off + HostOp.size op ≤ 64 →
    (∀ c ∈ s.cores, c.red = [] ∧ c.subs = []) → s.memOk = true →
    let a := hostBase + 64 * line + off
    let n := HostOp.size op
    ∃ t, exec (.hostSnoop line op off) s = .next t ∧ t.hostOut = s.hostOut ++ [.snoopData (s.bytesAt a n)] ∧
      SameMemoryBut s t a n ∧
      (op = .read n → SameMemory s t ∧ t.hlc = s.hlc.map fun h => if h.line = line then { h with own := false, dirty := false } else h) ∧
      (∀ bs, op = .write bs → t.bytesAt a n = bs ∧ t.hlc = s.hlc.filter fun h => h.line ≠ line)) ∧
  (∀ (s : State) (line : Nat),
    ((∀ h ∈ s.hlc, h.line ≠ line) → exec (.hlcEvict line) s = .next s) ∧
    ∀ h, s.hlc = [h] → h.line = line → ∃ t, exec (.hlcEvict line) s = .next t ∧ t.hlc = [] ∧ SameMemory s t ∧
      t.hostOut = s.hostOut ++ (if h.dirty then [.dirtyEvict line] else [.cleanEvict line])) ∧
  (∀ (s : State) (half : Nat), s.colls = [] → exec (.birsp half) s =
    .next { s with hostHeld := s.hostHeld.filter fun h => h ≠ half, bisnp := s.bisnp.filter fun h => h ≠ half }) ∧
  ∀ (s : State) (addr : Nat),
    exec (.softError addr true) s =
      .next (if isDevice addr || isVault addr then { s with corrected := s.corrected + 1 } else s) ∧
    (isDevice addr = true ∨ isVault addr = true → ∃ t, exec (.softError addr false) s = .next t ∧ addr / 4 * 4 ∈ t.poison ∧
      (∀ p ∈ s.poison, p ∈ t.poison) ∧ SameMemory s t ∧ t.threads = s.threads)

/-- CXL_CACHE_RESPONSE, CXL_CACHE_TIMEOUT, ATS_INVALIDATION and INVALIDATION_COMPLETION (R212, R216, R227, R484, R485): an
answered line enters the host-line cache, where no set grows beyond its 16 ways; a request without an answer fails with
HOSTLINK and vector 0; an invalidated page leaves the TLBs, subscriptions over it lapse, and the completion is sent. (The set
of a line, its number modulo 32,768, and that a full set gives up its oldest line are log 56, DESIGN CHOICE.) -/
def Claims.HostLinesAndInvalidations : Prop :=
  (∀ (s : State) (line : Nat) (own : Bool), (∀ x ∈ s.hlcReq, x.line ≠ line) →
    (∀ ok, exec (.cxlCacheResponse line own ok) s = .next s) ∧ exec (.cxlCacheTimeout line) s = .next s) ∧
  (∀ (s : State) (line : Nat) (own : Bool), (∃ x ∈ s.hlcReq, x.line = line) → s.threads = [] → s.cores = [] → s.colls = [] →
    let others := s.hlc.filter fun x => x.line ≠ line
    let inSet := fun (k : Nat) (ls : List HlcLine) => (ls.filter fun y => y.line % 32768 = k).length
    (inSet (line % 32768) others ≤ 15 → exec (.cxlCacheResponse line own true) s = .next { s with
      hlcReq := s.hlcReq.filter fun x => x.line ≠ line, hlc := { line, own } :: others }) ∧
    (∃ t, exec (.cxlCacheResponse line own true) s = .next t ∧ { line, own } ∈ t.hlc ∧
      ∀ k, inSet k t.hlc ≤ max 16 (inSet k s.hlc)) ∧
    exec (.cxlCacheTimeout line) s = .next { s with
      hlcReq := s.hlcReq.filter fun x => x.line ≠ line, hostOut := s.hostOut ++ [.msix 0] }) ∧
  (∀ (s : State) (line : Nat) (th : Thread) (e : Entry), (∃ x ∈ s.hlcReq, x.line = line) → s.threads = [th] → th.unf = [e] →
    e.line = some line → e.st = 0 → e.queued = false → e.page = none → e.val = none → e.dst.all RegRef.isV = true →
    e.isPrefetch = false → th.fetchLine = none → th.pending = none → th.halt = none → th.idle = false → th.handler = false →
    s.hasHandler th = true → s.cores = [] →
    ∃ t x, exec (.cxlCacheTimeout line) s = .next t ∧ t.thread? th.tid = some x ∧ x.handler = true ∧ x.tq = true ∧
      x.tpc = th.pc ∧ x.pc = s.handlerPc th ∧ t.groups = s.maskedGroups th 23 true ∧ t.hostOut = s.hostOut ++ [.msix 0] ∧
      x.unf.map (fun y => (y.st, y.cause, y.fa, y.queued)) = [(2, some .hostlink, e.fa, true)]) ∧
  (∀ (s : State) (pasid vpn pages : Nat) (k : CoreSt) (u : Sub), s.cores = [k] → k.subs = [u] →
    let hit := u.pasid = pasid ∧ u.va < (vpn + pages) * 4096 ∧ vpn * 4096 < u.va + u.len
    s.invals.length < 32 → ∃ t, exec (.atsInvalidation pasid vpn pages) s = .next t ∧ SameMemory s t ∧
      (∃ ps, t.invals = s.invals ++ [{ pages := ps }] ∧ ∀ y ∈ s.tlb, y.inRun pasid vpn pages = true → y.page ∈ ps) ∧
      (∀ y, y ∈ t.tlb ↔ y ∈ s.tlb ∧ y.inRun pasid vpn pages = false) ∧
      (hit → (t.core k.id).subs = [{ u with live := false, early := [] }]) ∧ (¬hit → (t.core k.id).subs = [u])) ∧
  ∀ (s : State), (s.invals = [] → exec .invalidationCompletion s = .next s) ∧
    ∀ x rest, s.invals = x :: rest → (∀ c ∈ s.cores, c.red = [] ∧ c.l1 = []) →
      exec .invalidationCompletion s = .next { s with invals := rest, hostOut := s.hostOut ++ [.invDone] }

/-- The host's accesses, snoops and answers, evictions, errors and invalidations: the claims named here hold together.
Completes in a next state of its own effect: atsInvalidation invalidationCompletion hostMemAccess hostSnoop hlcEvict
cxlCacheTimeout softError birsp cxlCacheResponse. -/
def Obligations.TheHostReachesMemoryAndLines : Prop :=
  Claims.TheHostReachesMemory ∧ Claims.HostLinesAndInvalidations

namespace Sys2Proof.Machine

/-- The one launch of the machine, which waits for no translation and no host line. -/
structure OneLaunch (s : State) (l : Launch) : Prop where
  only : s.launches = [l]
  free : l.endWait = none ∧ l.endLine = none
  map  : l.rcd.teammap = 0

/-- A span of device memory that the dispatcher reads or writes. -/
abbrev DeviceSpan (s : State) (a n : Nat) : Prop := a + n ≤ 2 ^ 40 ∧ s.cleanSpan a n

end Sys2Proof.Machine

/-! ### Spec 07: launch queues, launches, teams -/

/-- LAUNCH, ITEMQ, DRAIN and CCADD (R250, R272, R281, R282, R283, R284, R285): a record read through the core, with the
launch's PASID, enters the queue at TAIL and gives 0, or 2 for a queue that takes none, or 1 for a full one; items left are
counted; a drained batch returns; CCADD adds at sys scope and prompts the dependences. -/
def Claims.DispatcherWordsWork : Prop :=
  (∀ (w : EWord) (s : State) (th : Thread) (pa : Nat), Solo (.launch w) s th → th.unf = [] → noQueueDest (.launch w) th →
    s.noFollowers th.tid → EngCalm s → (s.core th.tid.core).ranges = [] →
    let q := w.o3.toNat % 64
    let x := s.queue q
    let a := (engEntry (.launch w) s th).d 0
    let pasid := s.pasidOf th.lslot
    let slot := x.slotAt x.tail.toNat
    a.toNat % 256 = 0 → canonical a.toNat = true → pasid < 2 ^ 20 →
    s.trans (.core th.tid.core) pasid a.toNat .read = .ok pa → pa + 256 ≤ 2 ^ 42 → s.cleanSpan pa 256 →
    (x.enabled = false ∨ x.progen = false → ∃ t, exec (.launch w) s = .next t ∧ Wrote s t (.launch w) th [2] ∧
      SameMemory s t ∧ t.queues = s.queues) ∧
    (x.enabled = true → x.progen = true → x.count = 2 ^ x.logsz → ∃ t, exec (.launch w) s = .next t ∧
      Wrote s t (.launch w) th [1] ∧ SameMemory s t ∧ t.queues = s.queues) ∧
    (x.undef = false → x.enabled = true → x.progen = true → x.count ≠ 2 ^ x.logsz → slot + 256 ≤ 2 ^ 40 →
      ∃ t, exec (.launch w) s = .next t ∧ Wrote s t (.launch w) th [0] ∧ SameMemoryBut s t slot 256 ∧
        t.queue q = { x with tail := x.tail + 1 } ∧
        (∀ k, k < 64 → k ≠ 7 → t.value (slot + 4 * k) 4 = s.value (pa + 4 * k) 4) ∧
        t.value (slot + 0x1C) 4 = s.value (pa + 0x1C) 4 / 2 ^ 20 * 2 ^ 20 + pasid)) ∧
  (∀ (w : EWord) (s : State) (th : Thread) (tm : Team) (l : Launch), th.unf = [] → s.noFollowers th.tid →
    s.teams.filter (fun x => x.core = th.tid.core && x.slot = th.slot) = [tm] → tm.lslot = th.lslot → OneLaunch s l →
    l.slot = th.lslot →
    (Solo (.itemq w) s th → noQueueDest (.itemq w) th → ∃ t, exec (.itemq w) s = .next t ∧ SameRest s t ∧
      Wrote s t (.itemq w) th [if w.fl then BitVec.ofNat 32 tm.batch.length
        else BitVec.ofNat 32 (min (l.rcd.items - l.next + l.returned.length) 0xFFFFFFFF)]) ∧
    (Solo (.drain w) s th → ∃ t, exec (.drain w) s = .next t ∧ GoesOn s t (.drain w) th ∧ SameMemory s t ∧
      (w.fl = false → t.team? th.tid.core th.slot = some { tm with draining := true, batch := [] } ∧
        t.launches = [{ l with returned := tm.batch.foldl (fun r n => insertNat n r) l.returned }]) ∧
      (w.fl = true → t.team? th.tid.core th.slot = some { tm with draining := true, batch := [] } ∧
        t.launches = [{ l with draining := true, returned := [], next := max l.next l.rcd.items }]))) ∧
  ∀ (w : EWord) (s : State) (th : Thread) (tg : Target), Solo (.ccadd w) s th → CalmAccess s th → EngCalm s →
    let e := engEntry (.ccadd w) s th
    s.targetOf th { kind := .rmw 0, space := 0, ty := .b64, order := .rel, scope := .sys } (e.d 0) = some tg →
    s.cleanSpan tg.pa 8 →
    ∃ t, exec (.ccadd w) s = .next t ∧ GoesOn s t (.ccadd w) th ∧ SameMemoryBut s t tg.pa 8 ∧
      t.value tg.pa 8 = (s.value tg.pa 8 + e.w 2) % 2 ^ 64 ∧
      t.launches = s.launches.map fun l => { l with depDue := l.depMet.map (!·) }

/-- QTAIL_WRITE, QPUSH_WRITE, QPUSH_COMPLETE and TAKE_RECORD (R249, R250, R251, R252, R255): TAIL moves within the queue's
size or the write faults with code 9; a pushed record is copied to TAIL unless the queue is disabled or full; a record is
taken into a launch slot, and one outside the limits ends at once with code 6. -/
def Claims.LaunchQueuesTakeRecords : Prop :=
  ∀ (s : State) (q : Nat), (s.queue q).undef = false →
    let x := s.queue q
    (∀ (v : Word), (x.progen = true → exec (.qtailWrite q v) s = .next s) ∧
      (x.progen = false → (v - x.tail).toNat ≤ 2 ^ x.logsz → (v - x.head).toNat ≤ 2 ^ x.logsz →
        ∃ t, exec (.qtailWrite q v) s = .next t ∧ t.queue q = { x with tail := v } ∧ t.hostOut = s.hostOut ∧ SameMemory s t) ∧
      (x.progen = false → 2 ^ x.logsz < (v - x.tail).toNat ∨ 2 ^ x.logsz < (v - x.head).toNat →
        ∃ t, exec (.qtailWrite q v) s = .next t ∧ t.queue q = { x with fault := true, fcode := 9 } ∧
          t.hostOut = s.hostOut ++ [.msix (2 + q)] ∧ SameMemory s t)) ∧
    (∀ (v : DWord), (x.busy = true → exec (.qpushWrite q v) s = .next s) ∧
      (x.busy = false → ∃ t, exec (.qpushWrite q v) s = .next t ∧ SameMemory s t ∧
        t.queue q = { x with qpush := BitVec.ofNat 64 (v.toNat / 2 ^ 8 % 2 ^ 32 * 2 ^ 8), busy := true })) ∧
    (x.busy = true → x.enabled = false → ∃ t, exec (.qpushComplete q) s = .next t ∧ SameMemory s t ∧
      t.queue q = { x with busy := false, res := 2 }) ∧
    (x.busy = true → x.enabled = true → 2 ^ x.logsz ≤ x.count → ∃ t, exec (.qpushComplete q) s = .next t ∧ SameMemory s t ∧
      t.queue q = { x with busy := false, res := 1 }) ∧
    (x.busy = true → x.enabled = true → x.count < 2 ^ x.logsz → EngCalm s → DeviceSpan s x.qpush.toNat 256 →
      x.slotAt x.tail.toNat + 256 ≤ 2 ^ 40 → ∃ t, exec (.qpushComplete q) s = .next t ∧
        t.bytesAt (x.slotAt x.tail.toNat) 256 = s.bytesAt x.qpush.toNat 256 ∧ SameMemoryBut s t (x.slotAt x.tail.toNat) 256 ∧
        t.queue q = { x with busy := false, res := 0, tail := x.tail + 1 }) ∧
    (s.mayTake q = false → exec (.takeRecord q) s = .next s) ∧
    (s.mayTake q = true → EngCalm s → s.launch? 0 = none → DeviceSpan s (x.slotAt x.head.toNat) 256 →
      let b := s.value (x.slotAt x.head.toNat) 256
      let rc := parseRecord b
      (rc.serial = true → s.lastEnded q = false → exec (.takeRecord q) s = .next s) ∧
      (rc.serial = false ∨ s.lastEnded q = true → ∃ t l, exec (.takeRecord q) s = .next t ∧ SameMemory s t ∧
        t.launches = s.launches ++ [l] ∧ l.slot = 0 ∧ l.queue = q ∧ l.rcd = rc ∧ l.order = s.order + 1 ∧
        l.wdogLim = rc.wdog ∧ l.next = 0 ∧ l.placed = 0 ∧ l.retired = 0 ∧
        l.depMet = rc.dep.map (fun y => decide (y.1 = 0)) ∧
        (recordOk b rc = true → l.phase = .waiting) ∧ (recordOk b rc = false → l.phase = .ending 0 ∧ l.code = 6) ∧
        t.queue q = { x with head := x.head + 1, lastOrd := s.order + 1 }))

/-- LAUNCH, ITEMQ, DRAIN and CCADD; queue writes move TAIL or fault, QPUSH copies its record, records are taken into launch slots: the claims named here
hold together.
Completes in a next state of its own effect: launch itemq drain ccadd qtailWrite qpushWrite qpushComplete
takeRecord. -/
def Obligations.DispatcherWordsAndQueues : Prop :=
  Claims.DispatcherWordsWork ∧
  Claims.LaunchQueuesTakeRecords

/-- DEP_READ, LAUNCH_BEGIN, LAUNCH_END and WATCHDOG_EXPIRE (R254, R258, R259, R260, R261, R276): a dependence is met when
its counter has reached the threshold; a launch begins with a descriptor that keeps the limits, or ends with code 5, and
with code 1 when it has no items (R263; for a COSCHED launch too, the model's choice, log 42); its end writes the status word, adds to the completion counter, frees the slot and reports
a code of 3 or more; an expired watchdog faults the launch and traps its threads.
Completes in a next state of its own effect: depRead launchBegin launchEnd watchdogExpire. -/
def Obligations.LaunchesBeginAndEnd : Prop :=
  ∀ (s : State) (l : Launch), OneLaunch s l →
    let x := chipNode l.rcd.pasid
    let y := s.queue l.queue
    (∀ j v, EngCalm s → l.phase = .waiting → l.depMet[j]? = some false →
      let d := (l.rcd.dep[j]?).getD (0, 0)
      EngSees s x d.1.toNat 8 v → ∃ t, exec (.depRead l.slot j) s = .next t ∧ SameMemory s t ∧
        t.launches = [{ l with
          depDue := l.depDue.set j false, depMet := if d.2.toNat ≤ v then l.depMet.set j true else l.depMet, endRetry := 0 }]) ∧
    (∀ j, (l.depMet[j]?).getD true = true → exec (.depRead l.slot j) s = .next s) ∧
    (l.mayBegin = false ∨ s.behind l = true → exec (.launchBegin l.slot) s = .next s) ∧
    (∀ b, l.mayBegin = true → EngCalm s → EngSees s x l.rcd.kdesc.toNat 128 b →
      (∃ pa, s.trans (.die 0) l.rcd.pasid ((l.rcd.kdesc.toNat + 0x80) % 2 ^ 64) .exec = .ok pa) →
      let d := parseDesc b
      (descOk b d = false → ∃ t, exec (.launchBegin l.slot) s = .next t ∧
        t.launches = [{ l with phase := .ending 0, code := 5, endRetry := 0 }] ∧ SameMemory s t) ∧
      (descOk b d = true → s.placeable l d = true → l.rcd.items ≠ 0 → l.rcd.cosched = false →
        ∃ t, exec (.launchBegin l.slot) s = .next t ∧ SameMemory s t ∧
          t.launches = [{ l with desc := some d, prom := d.prom, fair := d.fair, phase := .running, wdog := 0, endRetry := 0 }]) ∧
      (descOk b d = true → s.placeable l d = true → l.rcd.items = 0 → ∃ t, exec (.launchBegin l.slot) s = .next t ∧
        SameMemory s t ∧ t.launches.map (fun z => (z.phase, z.code)) = [(.ending 0, 1)])) ∧
    (s.mayEnd l = false → exec (.launchEnd l.slot) s = .next s) ∧
    (∀ pa, EngCalm s → l.phase = .ending 0 → l.code < 16 → l.rcd.status ≠ 0 → l.rcd.status.toNat % 8 = 0 →
      EngReaches s x l.rcd.status.toNat 8 pa →
      (l.rcd.cc = 0 ∨ 2 < l.code → ∃ t, exec (.launchEnd l.slot) s = .next t ∧ t.launches = [] ∧ SameMemoryBut s t pa 8 ∧
        t.value pa 8 = min l.retired 0xFFFFFFFF * 2 ^ 32 + l.code ∧
        t.queue l.queue = (if 3 ≤ l.code then { y with fault := true, fcode := l.code } else y) ∧
        t.hostOut = s.hostOut ++ (if 4 ≤ l.code then [.msix (2 + l.queue)] else [])) ∧
      (∀ pc, l.rcd.cc ≠ 0 → l.code ≤ 2 → EngReaches s x l.rcd.cc.toNat 8 pc → pa + 8 ≤ pc ∨ pc + 8 ≤ pa →
        ∃ t, exec (.launchEnd l.slot) s = .next t ∧ t.launches = [] ∧
          t.value pa 8 = min l.retired 0xFFFFFFFF * 2 ^ 32 + l.code ∧
          t.value pc 8 = (s.value pc 8 + l.rcd.ccinc) % 2 ^ 64 ∧ t.hostOut = s.hostOut ∧
          ∀ a, (a < pa ∨ pa + 8 ≤ a) → (a < pc ∨ pc + 8 ≤ a) → t.byte a = s.byte a)) ∧
    (∀ c, l.phase = .running → s.endCode l = some c → l.rcd.status = 0 → l.rcd.cc = 0 → ∃ t,
      exec (.launchEnd l.slot) s = .next t ∧ t.launches = [] ∧ SameMemory s t ∧
      t.queue l.queue = (if 3 ≤ c then { y with fault := true, fcode := c } else y)) ∧
    (l.expired = false → exec (.watchdogExpire l.slot) s = .next s) ∧
    ∀ (th : Thread), l.expired = true → s.threads = [th] → th.lslot = l.slot →
      (∀ c, th.wait ≠ .eng (.assign c)) →
      (Trappable s th → th.handler = false → s.hasHandler th = true →
        ∃ t, exec (.watchdogExpire l.slot) s = .next t ∧ t.launches = [{ l with faulted := true }] ∧
          t.queue l.queue = { y with fault := true, fcode := 3 } ∧ t.hostOut = s.hostOut ++ [.msix (2 + l.queue)] ∧
          t.thread? th.tid = some (th.inHandler th.pc (s.handlerPc th)) ∧ t.groups = s.maskedGroups th 19 true ∧ SameMemory s t) ∧
      (th.idle = false → s.hasHandler th = false →
        ∃ t, exec (.watchdogExpire l.slot) s = .next t ∧ t.launches = [{ l with faulted := true }] ∧
          t.thread? th.tid = some { th with halt := some .watchdog, windows := [] } ∧ SameMemory s t)

/-- PLACE_TEAM and TEAM_RETIRE (R263, R265, R266, R268, R273): a team is placed with a zeroed scratchpad, its ARGS in s0 and
s1, its threads at KDESC + 0x80 with their registers 0 and the first items in the order of their team indexes; a team whose
lanes are idle and whose engines are done leaves the core, and its batch returns. (Which spot of the core the team takes is the
device's choice, R265: the one stated is the model's choice with no choices given, log 42.) -/
def Claims.TeamsArePlacedAndRetired : Prop :=
  (∀ (s : State) (l : Launch) (d : Desc) (core : Nat) (p : Spot), OneLaunch s l → l.desc = some d → l.rcd.cosched = false →
    (l.wantsTeam = false ∨ s.fitsOn l core = false → exec (.placeTeam l.slot core) s = .next s) ∧
    (l.wantsTeam = true → s.mayUse l core = true → s.planTeam l d core 0 0 0 = some p → s.choices = [] → s.memOk = true →
      s.threads = [] → s.teams = [] → s.groups = [] → s.quarters = [] → d.teamSize = d.gw → 0 < d.gw → l.returned = [] →
      l.next + d.teamSize ≤ l.rcd.items → (s.core core).l1 = [] →
      ∃ t, exec (.placeTeam l.slot core) s = .next t ∧
        t.teams.map (fun y => (y.core, y.slot, y.lslot, y.tnum, y.base, y.scratch, y.size)) =
          [(core, p.slot, l.slot, l.placed, p.base, d.scratch, d.teamSize)] ∧
        t.groups.map (fun g => (g.grp, g.s, g.h)) =
          [(0, [l.rcd.args.setWidth 32, (l.rcd.args >>> 32).setWidth 32] ++ List.replicate 62 0, List.replicate 16 0)] ∧
        t.threads.map (fun y => (y.tidx, y.item, y.pc, y.idle, y.v)) = (List.range d.teamSize).map (fun j =>
          (j, BitVec.ofNat 32 (l.next + j), l.rcd.kdesc + 0x80, false, List.replicate (d.role (d.roleOf j)).decl 0)) ∧
        t.launches.map Launch.placed = [l.placed + 1] ∧
        (∀ a, a < d.scratch → t.byte (scratchBase core + p.base + a) = 0) ∧
        SameMemoryBut s t (scratchBase core + p.base) d.scratch)) ∧
  ∀ (s : State) (l : Launch) (tm : Team), OneLaunch s l → s.teams = [tm] → tm.lslot = l.slot →
    (s.mayRetire tm = false → exec (.teamRetire tm.core tm.slot) s = .next s) ∧
    (s.mayRetire tm = true → EngCalm s → flag (s.die (dieOf tm.core)).cgate.toNat (tm.core % 32) = false →
      ∃ t, exec (.teamRetire tm.core tm.slot) s = .next t ∧ t.teams = [] ∧ SameMemory s t ∧
        t.threads = s.threads.filter (fun y => !(y.tid.core = tm.core && y.slot = tm.slot)) ∧
        t.groups = s.groups.filter (fun y => !(y.core = tm.core && y.slot = tm.slot)) ∧
        t.launches = [{ l with returned := tm.batch.foldl (fun r n => insertNat n r) l.returned }])

/-- LCTL_DRAIN, LCTL_ABORT and LCTL_RELEASE_RESERVE (R254, R272, R274, R278): a drained launch hands out no more items; an
aborted one has no live thread, no saved team and no halted thread left; a queue's reserved cores are released, those too that a
pre-emption in progress would give back to it. (What an abort does to threads beyond R274's words is log 49, DEDUCED.) -/
def Claims.LaunchCommandsAct : Prop :=
  (∀ (s : State) (l : Launch), OneLaunch s l → ∃ t, exec (.lctlDrain l.slot) s = .next t ∧ SameMemory s t ∧
    t.launches = [{ l with draining := true, returned := [], next := max l.next l.rcd.items }] ∧
    t.teams = s.teams.map (fun y => if y.lslot = l.slot then { y with draining := true, batch := [] } else y) ∧
    t.threads = s.threads ∧ t.lctl = BitVec.ofNat 32 (l.slot % 256)) ∧
  (∀ (s : State) (l : Launch), OneLaunch s l → l.phase = .running → s.colls = [] → (∀ th ∈ s.threads, th.unf = []) →
    ∃ t, exec (.lctlAbort l.slot) s = .next t ∧ SameMemory s t ∧ t.launches = [{ l with aborted := true }] ∧
      t.images = s.images.filter (fun i => i.lslot ≠ l.slot) ∧ t.threads.map Thread.tid = s.threads.map Thread.tid ∧
      (∀ th ∈ t.threads, th.lslot = l.slot → th.idle = true ∧ th.halt = none ∧ th.handler = false ∧
        th.depth = List.replicate 8 0)) ∧
  (∀ (s : State) (l : Launch) k, OneLaunch s l → l.phase = .ending k →
    exec (.lctlAbort l.slot) s = .next { s with lctl := BitVec.ofNat 32 (l.slot % 256) }) ∧
  ∀ (s : State) (q : Nat), exec (.lctlReleaseReserve q) s =
    .next { s with
      lctl := BitVec.ofNat 32 (q % 256), reserved := s.reserved.filter fun r => r.2 ≠ q
      preempt := s.preempt.map fun p => { p with old := p.old.filter fun r => r.2 ≠ q } }

/-- Teams are placed and retired; the LCTL commands drain, abort and release: the claims named here hold together.
Completes in a next state of its own effect: placeTeam teamRetire lctlDrain lctlAbort lctlReleaseReserve. -/
def Obligations.TeamsArePlacedRetiredAndCommanded : Prop :=
  Claims.TeamsArePlacedAndRetired ∧ Claims.LaunchCommandsAct

/-- TEAM_SAVE and TEAM_RESTORE (R299, R300, R301, R302, R303, R304): a team whose engines have settled goes to the save pool
with its registers and its scratchpad, and its batch returns; without room it stays; a restored team has the same registers,
items and scratchpad bytes at its new place. (When a save goes on, what room its image takes and when a saved team may come back
are conditions that the model takes from R299 to R304 by inference, log 44.)
Completes in a next state of its own effect: teamSave teamRestore. -/
def Obligations.TeamsAreSavedAndRestored : Prop :=
  (∀ (s : State) (l : Launch) (tm : Team) (share : Bool), OneLaunch s l → s.teams = [tm] → tm.lslot = l.slot →
    s.saving = [(tm.core, tm.slot, share)] →
    (s.enginesSettled tm.core tm.slot = false → exec (.teamSave tm.core tm.slot) s = .next s) ∧
    (s.enginesSettled tm.core tm.slot = true → s.poolRoom (s.imageUnits tm) = false →
      ∃ t, exec (.teamSave tm.core tm.slot) s = .next t ∧ t.saving = [] ∧ t.teams = [tm] ∧ t.threads = s.threads ∧
        t.images = s.images ∧ SameMemory s t) ∧
    (s.enginesSettled tm.core tm.slot = true → s.poolRoom (s.imageUnits tm) = true → EngCalm s → s.images = [] →
      (∀ th ∈ s.threads, th.unf = [] ∧ th.depth = List.replicate 8 0) →
      flag (s.die (dieOf tm.core)).cgate.toNat (tm.core % 32) = false →
      let mine := s.threads.filter fun y => y.tid.core = tm.core && y.slot = tm.slot
      ∃ t i, exec (.teamSave tm.core tm.slot) s = .next t ∧ t.images = [i] ∧ t.teams = [] ∧ t.saving = [] ∧ SameMemory s t ∧
        t.threads = s.threads.filter (fun y => !(y.tid.core = tm.core && y.slot = tm.slot)) ∧
        t.launches = [{ l with returned := tm.batch.foldl (fun r n => insertNat n r) l.returned, endRetry := 0 }] ∧
        i.id = s.nextImage ∧ i.share = share ∧ i.team = { tm with batch := [] } ∧
        i.scratch = s.bytesAt (scratchBase tm.core + tm.base) tm.scratch ∧
        i.groups = s.groups.filter (fun g => g.core = tm.core && g.slot = tm.slot) ∧
        i.threads.map (fun y => (y.tid, y.v, y.p, y.ix, y.pc, y.item, y.itemage)) =
          mine.map (fun y => (y.tid, y.v, y.p, y.ix, y.pc, y.item, y.itemage)))) ∧
  ∀ (s : State) (l : Launch) (d : Desc) (i : Image) (core : Nat) (p : Spot), OneLaunch s l → l.slot = i.lslot →
    l.desc = some d → l.rcd.cosched = false → s.images = [i] → s.choices = [] → s.memOk = true →
    (s.core core).l1 = [] → (s.core core).subs = [] →
    (s.restorable i core = false → exec (.teamRestore i.id core) s = .next s) ∧
    (s.imageReady i = true → s.planImage i core 0 0 0 = some p → i.scratch.length = i.team.scratch → i.bad = [] →
      i.copies = [] → i.tiles = [] → i.shads = [] → i.cmds = [] → i.subs = [] → i.rings = [] → i.ranges = [] →
      (∀ th ∈ i.threads, th.unf = [] ∧ th.pending = none ∧ th.reinj = false ∧ th.resumeDue = false ∧
        th.depth = List.replicate 8 0) →
      ∃ t, exec (.teamRestore i.id core) s = .next t ∧ t.images = [] ∧
        t.teams.map (fun y => (y.core, y.slot, y.base, y.tnum, y.batch, y.queues, y.bars)) =
          s.teams.map (fun y => (y.core, y.slot, y.base, y.tnum, y.batch, y.queues, y.bars)) ++
            [(core, p.slot, p.base, i.team.tnum, i.team.batch, i.team.queues, i.team.bars)] ∧
        t.threads.map (fun y => (y.tidx, y.v, y.p, y.ix, y.pc, y.item, y.itemage)) =
          s.threads.map (fun y => (y.tidx, y.v, y.p, y.ix, y.pc, y.item, y.itemage)) ++
            i.threads.map (fun y => (y.tidx, y.v, y.p, y.ix, y.pc, y.item, y.itemage)) ∧
        t.bytesAt (scratchBase core + p.base) i.team.scratch = i.scratch ∧
        SameMemoryBut s t (scratchBase core + p.base) i.team.scratch)

/-! ### Spec 14: features, power, heat, identity, security -/

/-- FEATURE_COMMIT (R486): the accepted word becomes FEATACC AND FEATOFF and DONE is set; later commits change nothing. -/
def Claims.FeatureCommitTakesTheOfferedSubset : Prop :=
  (∀ s : State, s.featDone = false → ∃ t, exec .featureCommit s = .next t ∧ t.featacc = s.featacc &&& s.featoff ∧
    t.featDone = true ∧ t.threads = s.threads ∧ SameMemory s t) ∧
  ∀ s : State, s.featDone = true → exec .featureCommit s = .next s

/-- PSTATE_REQUEST, PSTATE_CHANGE_DONE, CGATE_WRITE and CORE_UNGATE_DONE (R488, R489): a write of REQ starts a change or
stands until the change in progress ends; while one is in progress no thread of the die is among those that a step may issue;
a change writes CUR alone. -/
def Claims.PowerSteps : Prop :=
  (∀ (s : State) die g, (s.die die).pchange.isSome = true → s.second = none → Cand.issue g ∈ s.candidates →
    ∀ t ∈ g.threads, dieOf t.core ≠ die) ∧
  (∀ (s : State) die (v : Word), ∃ t, exec (.pstateRequest die v) s = .next t ∧
    (t.die die).preq = v.toNat % 4 ∧ (t.die die).pcur = (s.die die).pcur ∧
    (t.die die).pchange = (if (s.die die).pchange.isSome then (s.die die).pchange
      else if v.toNat % 4 = (s.die die).pcur then none else some (v.toNat % 4)) ∧
    { t with dies := [] } = { s with dies := [] }) ∧
  (∀ (s : State) die p, (s.die die).pchange = some p → ∃ t, exec (.pstateChangeDone die) s = .next t ∧
    (t.die die).pcur = p ∧
    (t.die die).pchange = (if (s.die die).preq = p then none else some (s.die die).preq) ∧
    { t with dies := [] } = { s with dies := [] }) ∧
  (∀ (s : State) die (v : Word), s.launches = [] → s.teams = [] → ∃ t, exec (.cgateWrite die v) s = .next t ∧
    (t.die die).cgate = v ∧ ∀ k, k < 32 → (flag v.toNat k = true → (t.core (32 * die + k)).gated = true) ∧
      (flag v.toNat k = false → (s.core (32 * die + k)).gated = true → (t.core (32 * die + k)).ungating = true)) ∧
  (∀ (s : State) core, (s.core core).ungating = true → ∃ t, exec (.coreUngateDone core) s = .next t ∧
    (t.core core).gated = false ∧ (t.core core).ungating = false ∧ { t with cores := [] } = { s with cores := [] })

/-- THERMAL_WARNING (R491): when a junction sensor reaches WARNT, WARN is set and vector 67 is sent, and nothing else of the
machine changes but the highest reading TMAX, which every reading may raise (Table 14.5).
Completes in a next state of its own effect: thermalWarning. -/
def Obligations.ThermalWarningSetsWarn : Prop :=
  ∀ (s : State) temp,
    (s.warnt ≤ temp → exec (.thermalWarning temp) s =
      .next { s with tmax := max s.tmax (min temp 255), thermWarn := true, hostOut := s.hostOut ++ [.msix 67] }) ∧
    (temp < s.warnt → exec (.thermalWarning temp) s = .next { s with tmax := max s.tmax (min temp 255) })

/-- THERMAL_TRIP (R492): at 105 °C TRIP is set and vector 67 is sent; nothing in flight changes then, and while the device has
tripped no word issues and no engine moves: a step can only meet the next event from outside. -/
def Claims.TheTripStopsTheDevice : Prop :=
  (∀ (s : State) temp, 105 ≤ temp → s.thermTrip = false → exec (.thermalTrip temp) s =
    .next { s with tmax := max s.tmax (min temp 255), thermTrip := true, hostOut := s.hostOut ++ [.msix 67] }) ∧
  ∀ s : State, s.thermTrip = true → ∀ c ∈ s.candidates, c = .inbox

/-- SECURITY_ALARM and SECPOL_WRITE (R495, R496): the policy is taken once after a reset; an alarm locks the device, sets
ALARM and the sensor's bit of SRC and sends vector 1, and erases unless the policy is to lock only. -/
def Claims.AlarmActsByPolicy : Prop :=
  (∀ (s : State) (v : Word), exec (.secpolWrite v) s =
    .next (if s.sec.polSet then s else { s with sec := { s.sec with policy := v.toNat % 2 = 1, polSet := true } })) ∧
  ∀ (s : State) src, src < 4 → s.sec.powered = true → s.sec.locked = false →
    ∃ t, exec (.securityAlarm src) s = .next t ∧ t.sec.locked = true ∧ t.sec.alarm = true ∧
      t.sec.src = s.sec.src ||| (1#4 <<< src) ∧ t.sec.erased = (s.sec.erased || !s.sec.policy) ∧
      t.hostOut = s.hostOut ++ [.msix 1] ∧ t.threads = s.threads ∧ t.teams = s.teams ∧
      (s.sec.policy = true → SameMemory s t)

/-- CONVENTIONAL_RESET and POWER_LOSS (R490, R493, R495, R496): all volatile state takes its reset value; the fuses, an erasure,
the device's step and the features its hardware offers persist, and so do host memory and what the model keeps of the
device's surroundings (its queue of events, what it has sent, the links of its ports, the free choices). Device memory has a
new key, so that its bytes are free values of that key (log 5); firmware of too low a version does not run. A lid mesh
found open at boot raises the alarm before any firmware runs. (That no sensor is outside its window when no choice is given is
log 48, DESIGN CHOICE.) -/
def Claims.ConventionalResetRestarts : Prop :=
  (∀ (s : State) svn signed, s.choices = [] → ∃ t, exec (.conventionalReset svn signed) s = .next t ∧
    (t.sec.aliasKey.isSome = t.sec.ready ∧ (t.sec.ready = false → t.sec.fwver = 0)) ∧
    { t with mem := [] } = { State.reset with
      poison := s.poison.filter isHost, step_ := s.step_, featoff := s.featoff, inbox := s.inbox, fresh := s.fresh + 1,
      hostOut := s.hostOut, linkOut := s.linkOut, portUp := s.portUp,
      sec := { svn := s.sec.svn, erased := s.sec.erased, keyGen := s.sec.keyGen + 1, powered := true,
               ready := signed && decide (s.sec.svn ≤ svn), fwver := t.sec.fwver, aliasKey := t.sec.aliasKey } }) ∧
  (∀ (s t : State) svn signed, s.memOk = true → exec (.conventionalReset svn signed) s = .next t →
    t.sec.keyGen ≠ s.sec.keyGen ∧ ∀ a, (isHost a = true → t.byte a = s.byte a) ∧
      (isDevice a = true → t.byte a = Sys2Proof.Config.rekeyedByte t.sec.keyGen a)) ∧
  (∀ (s : State) svn signed ks, s.sec.faults = 0 → s.choices = 1 :: ks → ∃ t,
    exec (.conventionalReset svn signed) s = .next t ∧ t.sec.locked = true ∧ t.sec.alarm = true ∧ t.sec.ready = false ∧
    t.sec.src = 0b1000#4 ∧ t.sec.erased = true ∧ t.hostOut = s.hostOut ++ [.msix 1] ∧ t.threads = [] ∧ t.choices = ks) ∧
  ∀ s : State, ∃ t, exec .powerLoss s = .next t ∧ (s.memOk = true → ∀ a, isHost a = true → t.byte a = s.byte a) ∧
    { t with mem := [] } = { State.reset with
      poison := s.poison.filter isHost, step_ := s.step_, featoff := s.featoff, inbox := s.inbox, choices := s.choices,
      fresh := s.fresh, hostOut := s.hostOut, linkOut := s.linkOut, portUp := s.portUp,
      sec := { svn := s.sec.svn, erased := s.sec.erased, keyGen := s.sec.keyGen + 1, powered := false,
               faults := s.sec.faults } }

/-- The nine SPDM requests and IDE_KM (R482, R494): while firmware runs and the device is neither locked nor tripped each is
answered once; measurements 3, 4 and 5 are SVN, the accepted features and SECPOL as its register reads (Table 14.6); an erased
device attests nothing. (That a request which cannot be served is answered with ERROR is log 13, DESIGN CHOICE.)
Completes in a next state of its own effect: getVersion getCapabilities negotiateAlgorithms getDigests
getCertificate challenge getMeasurements keyExchange spdmFinish ideKmRequest. -/
def Obligations.SpdmAnswers : Prop :=
  (∀ s : State, s.spdmOn = true →
    (∃ t, exec .getVersion s = .next t ∧ t = { s with hostOut := s.hostOut ++ [.spdm { kind := "VERSION", bits := [0x12] }] }) ∧
    (∃ t b, exec .getCapabilities s = .next t ∧ t.hostOut = s.hostOut ++ [.spdm { kind := "CAPABILITIES", bits := b }]) ∧
    (∀ algs, ∃ t, exec (.negotiateAlgorithms algs) s = .next t ∧
      t.hostOut = s.hostOut ++ [.spdm { kind := "ALGORITHMS", bits := [algs % 8] }]) ∧
    (s.sec.erased = false →
      (∃ t b, exec .getDigests s = .next t ∧ t.hostOut = s.hostOut ++ [.spdm { kind := "DIGESTS", bits := b }]) ∧
      (∀ o n, ∃ t b, exec (.getCertificate o n) s = .next t ∧
        t.hostOut = s.hostOut ++ [.spdm { kind := "CERTIFICATE", bits := b }]) ∧
      (∀ n, ∃ t b, exec (.challenge n) s = .next t ∧
        t.hostOut = s.hostOut ++ [.spdm { kind := "CHALLENGE_AUTH", bits := b }]) ∧
      (∀ n, ∃ t b, exec (.keyExchange n) s = .next t ∧ t.sec.spdm = 1 ∧
        t.hostOut = s.hostOut ++ [.spdm { kind := "KEY_EXCHANGE_RSP", bits := b }])) ∧
    (∃ t, exec (.getMeasurements 3) s = .next t ∧
      t.hostOut = s.hostOut ++ [.spdm { kind := "MEASUREMENTS", bits := [s.sec.svn] }]) ∧
    (s.featDone = true → ∃ t, exec (.getMeasurements 4) s = .next t ∧
      t.hostOut = s.hostOut ++ [.spdm { kind := "MEASUREMENTS", bits := [s.featacc.toNat] }]) ∧
    (∃ t, exec (.getMeasurements 5) s = .next t ∧ t.hostOut = s.hostOut ++
      [.spdm { kind := "MEASUREMENTS", bits := [s.sec.polSet.toNat * 2 ^ 31 + s.sec.policy.toNat] }]) ∧
    (s.sec.spdm = 1 → ∃ t, exec (.spdmFinish true) s = .next t ∧ t.sec.spdm = 2 ∧
      t.hostOut = s.hostOut ++ [.spdm { kind := "FINISH_RSP", bits := [] }]) ∧
    (∀ p key, ∃ t, exec (.ideKmRequest p key) s = .next t ∧ t.ideKeys = s.ideKeys.set (p % 2) key)) ∧
  (∀ s : State, s.spdmOn = false → exec .getVersion s = .next s ∧ exec .getDigests s = .next s ∧
    (∀ i, exec (.getMeasurements i) s = .next s)) ∧
  (∀ s : State, s.spdmOn = true → s.sec.erased = true →
    ∃ t, exec .getDigests s = .next t ∧ t.hostOut = s.hostOut ++ [.spdm { kind := "ERROR", bits := [] }])

/-- REGISTER_WRITE (R18, Tables 7.1, 8.9, 8.10, 11.1, 14.3, 14.6): fields without a row of their own are taken under their
conditions, reserved bits read 0, and a register the conditions shut keeps its value. -/
def Claims.RegisterWritesTakeTheirFields : Prop :=
  (∀ (s : State) (v : DWord), exec (.registerWrite 0x12010 false v) s =
    .next { s with drvpasid := lowWord v &&& 0x800FFFFF#32 }) ∧
  (∀ (s : State) (v : DWord), flag (lowWord v).toNat 31 = true → exec (.registerWrite 0x12020 false v) s =
    .next { s with fltloc := s.fltloc &&& 0x7FFFFFFF#32 }) ∧
  (∀ (s : State) (v : DWord), s.featDone = false → ∃ t, exec (.registerWrite 0x108 true v) s = .next t ∧ t.featacc = v) ∧
  (∀ (s : State) (v : DWord), s.featDone = true → exec (.registerWrite 0x108 true v) s = .next s) ∧
  (∀ (s : State) (v : DWord), ∃ t, exec (.registerWrite 0x12000 true v) s = .next t ∧
    t.savebase = v &&& 0xFFFFFF0000#64) ∧
  (∀ (s : State) (v : DWord), exec (.registerWrite 0x2C0 false v) s =
    .next { s with thermWarn := s.thermWarn && !flag (lowWord v).toNat 30, warnt := fld (lowWord v).toNat 16 8 }) ∧
  (∀ (s : State) (v : DWord) q, q < 64 → ∃ t, exec (.registerWrite (0x10000 + 0x40 * q + 8) false v) s = .next t ∧
    (t.queue q).qctl = (if s.featDone then lowWord v &&& 0xF0F#32 else lowWord v &&& 0xF0E#32) ∧
    (t.queue q).qbase = (s.queue q).qbase ∧ (t.queue q).head = (s.queue q).head) ∧
  (∀ (s : State) (v : DWord), s.domainsOff false = false → exec (.registerWrite 0x13000 true v) s = .next s) ∧
  (∀ (s : State) (v : DWord) p, p < 64 → (s.pool p).en = true →
    ∃ t, exec (.registerWrite (0x14000 + 16 * p + 4) false v) s = .next t ∧ (t.pool p).count = (s.pool p).count)

/-- FEATURE_COMMIT takes the offered subset; register writes take their fields: the claims named here hold together.
Completes in a next state of its own effect: registerWrite featureCommit. -/
def Obligations.RegistersAndFeatures : Prop :=
  Claims.FeatureCommitTakesTheOfferedSubset ∧ Claims.RegisterWritesTakeTheirFields

/-- PORT_DOWN and PORT_UP (R484). The requests that a port carries when it goes down are those routed to it, and at port 0 the
translation and page requests (log 62, DEDUCED); on a device that has stopped nothing in flight changes (R492, R495). -/
def Claims.PortsGoDownAndUp : Prop :=
  (∀ (s : State) p, exec (.portUp p) s = .next { s with portUp := s.portUp.set (p % 2) true }) ∧
  (∀ (s : State) p, ((∀ r ∈ s.hlcReq, r.line / 64 % 2 ≠ p % 2) ∧ (p % 2 = 0 → s.ats = [] ∧ s.pri = [])) ∨
      (s.thermTrip || s.sec.locked) = true →
    exec (.portDown p) s = .next { s with portUp := s.portUp.set (p % 2) false }) ∧
  (∀ (s : State) p, ∃ t, exec (.portDown p) s = .next t ∧ t.portUp = s.portUp.set (p % 2) false)

/-- Power states and gates, the thermal trip and the ports; an alarm acts by the policy; a conventional reset and a loss of power restart the device: the claims named here
hold together.
Completes in a next state of its own effect: portDown portUp pstateRequest pstateChangeDone cgateWrite
coreUngateDone thermalTrip securityAlarm secpolWrite conventionalReset powerLoss. -/
def Obligations.PowerPortsAlarmsAndResets : Prop :=
  Claims.PowerSteps ∧
  Claims.TheTripStopsTheDevice ∧
  Claims.PortsGoDownAndUp ∧
  Claims.AlarmActsByPolicy ∧
  Claims.ConventionalResetRestarts

/-! ### Every form completes somewhere -/

/-- EXIT, YIELD, NAP, SHFL, VOTE, GRED, GSCAN, MATCH, ELECT, ACTMASK, ACCRD, OMAP, BKPT, SETMODE and PREEMPT complete (R159,
R173, R188 to R190, R192 to R197, R269, R319, R320, R321, R357, R376): under the conditions named here on the state and the operands
alone, the next state holds the instruction's own effect.
Completes in a next state of its own effect: exitW yield nap shfl vote gred gscan matchW elect actmask omap accrd
bkpt setmode preempt. -/
def Obligations.IssuedWordsComplete : Prop :=
  ∀ (w : IWord) (f : FWord) (v : EWord) (s : State) (th : Thread),
    (Solo (.exitW w) s th → th.handler = false → th.nest = 0 → ∃ t x, exec (.exitW w) s = .next t ∧
      t.thread? th.tid = some x ∧ x.wait = .eng (.assign s.clock) ∧ x.pc = s.cur.pc ∧ x.v = th.v ∧
      ∀ l, s.launch? th.lslot = some l → t.launch? th.lslot = some { l with retired := l.retired + 1, wdog := 0 }) ∧
    (let q := fun (u : State) => u.quarter s.cur.core s.cur.qtr
     Solo (.yield w) s th → th.idle = false → (q s).serial = false → (q s).entries.length < 64 → (q s).stampCtr < 2 ^ 32 - 1 →
      ∃ t, exec (.yield w) s = .next t ∧ t.thread? th.tid = some (th.issued (.yield w) (s.cur.pc + 8)) ∧
        (q t).stampCtr = (q s).stampCtr + 1 ∧
        ∃ e ∈ (q t).entries, e.lslot = s.cur.lslot ∧ e.pc = s.cur.pc + 8 ∧ e.stamp = (q s).stampCtr + 1) ∧
    (Solo (.nap w) s th → ∃ t x, exec (.nap w) s = .next t ∧ t.thread? th.tid = some x ∧ x.pc = s.cur.pc + 8 ∧ x.v = th.v ∧
      (x.wait = .ready ↔ w.imm.toNat % 2 ^ 16 = 0)) ∧
    (∀ i ∈ [Instr.shfl f, .vote f, .gred f, .gscan f, .matchW f, .elect f, .actmask f], ∀ r, groupRule i = some r →
      Solo i s th → th.handler = false → th.halt = none → s.groupThreads th.tid.core th.slot th.grp = [th] →
      let me := (th, Solo.values i s th)
      ∃ t x, exec i s = .next t ∧ t.thread? th.tid = some x ∧ x.pc = s.cur.pc + 8 ∧ x.handler = false ∧
        x.registers = (applyRes (usesOf i) (r (((s.team? th.tid.core th.slot).map Team.width).getD 0) [th] [me] me) th).registers) ∧
    (Solo (.accrd v) s th → noQueueDest (.accrd v) th →
      let e := engEntry (.accrd v) s th
      let q := s.quarter th.tid.core th.tid.qtr
      let tl := q.tile v.o2.toNat
      e.w 1 < 256 → tl.owner = some th.slot → tl.ver = BitVec.ofNat 16 (e.w 0) → q.busyTile tl.idx = false → e.w 1 ∉ tl.poison →
      ∃ t, exec (.accrd v) s = .next t ∧ t.thread? th.tid = some (th.completed s (.accrd v) [(tl.data[e.w 1]?).getD 0])) ∧
    (∀ tm pa, Solo (.omap v) s th → th.unf = [] → EngCalm s → s.noFollowers th.tid →
      s.teams.filter (fun y => y.core = th.tid.core && y.slot = th.slot) = [tm] →
      let fa := (engEntry (.omap v) s th).d 0
      fa.toNat % 64 = 0 → canonical fa.toNat = true →
      s.trans (.die (dieOf th.tid.core)) (s.pasidOf tm.lslot) fa.toNat .read = .ok pa → pa + 64 ≤ 2 ^ 42 → s.cleanSpan pa 64 →
      omapOk (s.value pa 64) (parseOMap (s.value pa 64)) (s.feature 6) = true →
      ∃ t, exec (.omap v) s = .next t ∧ t.thread? th.tid = some (th.issued (.omap v) (s.cur.pc + 8)) ∧
        t.team? th.tid.core th.slot = some { tm with omaps := tm.omaps.set v.o1.toNat (some (parseOMap (s.value pa 64))) }) ∧
    (Solo (.bkpt v) s th → s.debugged th.lslot = true → ∃ t x, exec (.bkpt v) s = .next t ∧ t.thread? th.tid = some x ∧
      x.halt = some .bkpt ∧ x.code = v.o1 ∧ x.tpc = s.cur.pc + 8 ∧ x.pc = s.cur.pc + 8) ∧
    (∀ l, Solo (.setmode v) s th → noQueueDest (.setmode v) th → s.noFollowers th.tid →
      s.launches.filter (fun x => x.slot = th.lslot) = [l] → ∃ t, exec (.setmode v) s = .next t ∧ SetmodeDone v s t th l) ∧
    (Solo (.preempt v) s th → s.noFollowers th.tid →
      let e := captureE (.preempt v) s th (Solo.values (.preempt v) s th)
      s.preemptRefused ((e[0]?).getD 0).toNat ((e[1]?).getD 0).toNat (v.o4.toNat % 64) (some th.lslot) = none →
      ∃ t x p, exec (.preempt v) s = .next t ∧ t.thread? th.tid = some x ∧ x.wait = .eng .entry ∧ x.pc = s.cur.pc + 8 ∧
        t.preempt = some p ∧ p.lead = some th.tid)

/-- The steps of the device that this statement names complete (R159, R166, R190, R268, R299, R305, R309 to R311, R357, R393,
R394, R407, R408, R484, R488 to R493, R495, R496): under the conditions named here, on the state and the operands alone, the
next state holds the step's own effect.
Completes in a next state of its own effect: parkedShareSwitch fairnessDue stampRenumber napExpire itemAssign
prectlGo preemptDone dbgHalt dbgResume dbgStep dbgFreeze dbgThaw dbgSnapshot dbgAttach dbgDetach gpStart gpFlipDone
gpComplete podReq podFlip podFack podQuiet podDone portDown portUp pstateRequest pstateChangeDone cgateWrite
coreUngateDone thermalWarning thermalTrip securityAlarm secpolWrite conventionalReset powerLoss. -/
def Obligations.DeviceStepsComplete : Prop :=
  ∀ (s : State) (th : Thread) (core qtr l d n : Nat) (v : Word),
    let x := s.domain d
    -- the sequencer
    (∀ tm z ds k rest, s.threads.filter (fun x => x.tid = th.tid) = [th] → th.wait = .eng (.assign k) → th.idle = false →
      s.teams.filter (fun y => y.core = th.tid.core && y.slot = th.slot) = [tm] →
      s.launches.filter (fun y => y.slot = th.lslot) = [z] → z.desc = some ds →
      tm.draining = false → z.draining = false → z.faulted = false → th.gone = false → tm.batch = n :: rest →
      ∃ t y, exec (.itemAssign th.tid) s = .next t ∧ t.thread? th.tid = some y ∧ y.item = BitVec.ofNat 32 n ∧
        y.wait = .ready ∧ y.pc = z.rcd.kdesc + BitVec.ofNat 64 ds.refill) ∧
    (∀ u, s.threads.filter (fun x => x.tid = th.tid) = [th] →
      th.wait = .nap u → u ≤ s.issueClock (dieOf th.tid.core) → ∃ t y, exec (.napExpire th.tid) s = .next t ∧
      t.thread? th.tid = some y ∧ y.wait = .ready) ∧
    (∀ pc k e, s.promise l = some k → e ∈ (s.quarter core qtr).entries → e.lslot = l → e.pc = pc → k ≤ e.wait →
      ∃ t, exec (.fairnessDue core qtr l pc) s = .next t ∧ { e with due := true } ∈ (t.quarter core qtr).entries) ∧
    (2 ^ 32 - 1 ≤ (s.quarter core qtr).stampCtr → ∃ t, exec (.stampRenumber core qtr) s = .next t ∧
      (t.quarter core qtr).stampCtr = (s.quarter core qtr).entries.length) ∧
    -- the debugger
    (∃ t, exec (.dbgHalt l) s = .next t ∧ ∀ y ∈ t.threads, y.lslot = l → y.idle = false → y.halt.isSome = true) ∧
    (s.launchThreads l = [th] → s.threads.filter (fun x => x.tid = th.tid) = [th] →
      th.halt = some .command → th.pending = none → th.idle = false → th.wait ≠ .gop →
      ∃ t y, exec (.dbgResume l) s = .next t ∧ t.thread? th.tid = some y ∧ y.halt = none) ∧
    (s.threads.filter (fun x => x.tid = th.tid) = [th] →
      th.halt = some .command → th.pending = none → ∃ t y, exec (.dbgStep th.tid) s = .next t ∧
      t.thread? th.tid = some y ∧ y.halt = none ∧ y.stepping = true) ∧
    (∃ t, exec (.dbgFreeze core) s = .next t ∧ (t.core core).frozen = true) ∧
    (∃ t, exec (.dbgThaw core) s = .next t ∧ (t.core core).frozen = false) ∧
    (∀ z, s.launches.filter (fun y => y.slot = l) = [z] →
      (∃ t, exec (.dbgAttach l) s = .next t ∧ t.launch? l = some { z with attached := true }) ∧
      ∃ t, exec (.dbgDetach l) s = .next t ∧ t.launch? l = some { z with attached := false }) ∧
    (∃ t, exec (.dbgSnapshot v) s = .next t ∧ t.dbgwin.length = 4096 ∧ t.threads = s.threads) ∧
    -- pre-emption
    (flag v.toNat 31 = true → s.preemptRefused (fld v.toNat 16 8) (fld v.toNat 0 10) (fld v.toNat 24 6) none = none →
      ∃ t p, exec (.prectlGo v) s = .next t ∧ t.preempt = some p ∧ p.queue = fld v.toNat 24 6 ∧ p.lead = none) ∧
    (∀ p, s.preempt = some p → p.pend = [] → p.lead = none → ∃ t, exec .preemptDone s = .next t ∧ t.preempt = none ∧
      t.prectl = s.prectl &&& 0x7FFFFFFF#32) ∧
    (∀ sl tm, (s.core core).parkWin ≤ (s.core core).parkCount → s.shareVictim core = some sl → s.team? core sl = some tm →
      s.poolRoom (s.imageUnits tm) = true → s.saving = [] →
      ∃ t, exec (.parkedShareSwitch core) s = .next t ∧ t.saving = [(core, sl, true)]) ∧
    -- the grace detector
    (x.en = true → x.gst = 0 → x.pod = false → s.demand d = true → ∃ t, exec (.gpStart d) s = .next t ∧
      t.domain d = { x with s := x.s + 1, gst := 1 }) ∧
    (x.gst = 1 → x.pod = false → ∃ t, exec (.gpFlipDone d) s = .next t ∧ t.domain d = { x with gst := 2 }) ∧
    (x.gst = 2 → x.pod = false → s.phaseQuiet d (!flag x.s.toNat 0) = true → s.threads = [] → s.retire = [] → s.images = [] →
      ∃ t, exec (.gpComplete d) s = .next t ∧ t.domain d = { x with c := x.s, gst := 0 }) ∧
    (s.podOn d = true → s.coordinates = true → x.gst = 0 → x.podRun = false → modGe x.s (BitVec.ofNat 32 n) = false →
      ∃ t, exec (.podReq d ⟨n, l⟩) s = .next t ∧ (t.domain d).podRun = true ∧ (t.domain d).s = x.s + 1) ∧
    (s.podOn d = true → x.gst = 0 → (x.s + 1).toNat = n → ∃ t, exec (.podFlip d n) s = .next t ∧
      t.domain d = { x with s := x.s + 1, gst := 1 }) ∧
    (s.podOn d = true → x.s.toNat = n → ∃ t, exec (.podFack d n l) s = .next t ∧ l ∈ (t.domain d).facks) ∧
    (s.podOn d = true → x.s.toNat = n → x.podRun = true → (∃ c ∈ s.podMembers, c ∉ insertNat l x.quiets) →
      ∃ t, exec (.podQuiet d n l) s = .next t ∧ l ∈ (t.domain d).quiets) ∧
    (s.podOn d = true → x.s.toNat = n → x.gst = 3 → s.threads = [] → s.retire = [] → s.images = [] →
      ∃ t, exec (.podDone d n) s = .next t ∧ (t.domain d).c = x.s ∧ (t.domain d).gst = 0) ∧
    -- power, heat, ports, security
    ((s.die d).pchange = none → v.toNat % 4 ≠ (s.die d).pcur → ∃ t, exec (.pstateRequest d v) s = .next t ∧
      (t.die d).pchange = some (v.toNat % 4)) ∧
    ((s.die d).pchange = some n → ∃ t, exec (.pstateChangeDone d) s = .next t ∧ (t.die d).pcur = n) ∧
    (s.launches = [] → ∃ t, exec (.cgateWrite d v) s = .next t ∧ (t.die d).cgate = v) ∧
    ((s.core core).ungating = true → ∃ t, exec (.coreUngateDone core) s = .next t ∧ (t.core core).gated = false) ∧
    (s.warnt ≤ n → ∃ t, exec (.thermalWarning n) s = .next t ∧ t.thermWarn = true ∧ t.threads = s.threads) ∧
    (105 ≤ n → ∃ t, exec (.thermalTrip n) s = .next t ∧ t.thermTrip = true ∧ t.threads = s.threads) ∧
    (∃ t, exec (.portUp n) s = .next t ∧ t.portUp = s.portUp.set (n % 2) true) ∧
    (∃ t, exec (.portDown n) s = .next t ∧ t.portUp = s.portUp.set (n % 2) false) ∧
    (s.sec.powered = true → s.sec.locked = false → n < 4 → ∃ t, exec (.securityAlarm n) s = .next t ∧ t.sec.locked = true) ∧
    (s.sec.polSet = false → ∃ t, exec (.secpolWrite v) s = .next t ∧ t.sec.polSet = true ∧
      t.sec.policy = decide (v.toNat % 2 = 1)) ∧
    (s.choices = [] → ∃ t, exec (.conventionalReset n true) s = .next t ∧ t.threads = [] ∧ t.sec.locked = false) ∧
    ∃ t, exec .powerLoss s = .next t ∧ t.sec.powered = false
end

