-- ==== Sys2Proof/Laws/Run.lean ====
section
/-!
SUPPORT. How the computations of a step run: one equation per way of building a computation (`W`, and `P` with its stops),
true by unfolding.
-/
namespace Sys2Proof.Machine

variable {α β : Type}

@[simp] theorem W.run_pure (a : α) (w : Work) : (pure a : W α) w = (a, w) := id rfl
@[simp] theorem W.run_bind (x : W α) (f : α → W β) (w : Work) : (x >>= f) w = f (x w).1 (x w).2 := id rfl
@[simp] theorem W.run_map (f : α → β) (x : W α) (w : Work) : (f <$> x) w = (f (x w).1, (x w).2) := id rfl
@[simp] theorem W.run_get (w : Work) : (get : W Work) w = (w, w) := id rfl
@[simp] theorem W.run_modify (f : Work → Work) (w : Work) : (modify f : W Unit) w = ((), f w) := id rfl
@[simp] theorem W.run_getSt (w : Work) : getSt w = (w.st, w) := id rfl
@[simp] theorem W.run_upd (f : State → State) (w : Work) : upd f w = ((), { w with st := f w.st }) := id rfl
@[simp] theorem W.run_ite (c : Prop) [Decidable c] (x y : W α) (w : Work) :
    (if c then x else y) w = if c then x w else y w := by split <;> rfl

@[simp] theorem W.forIn_nil (b : β) (f : α → β → W (ForInStep β)) (w : Work) : forIn [] b f w = (b, w) := rfl
theorem W.forIn_cons (a : α) (as : List α) (b : β) (f : α → β → W (ForInStep β)) (w : Work) :
    forIn (a :: as) b f w =
      match f a b w with
      | (.yield b', w') => forIn as b' f w'
      | (.done b', w') => (b', w') := by
  rw [List.forIn_cons, W.run_bind]
  rcases f a b w with ⟨_ | _, w'⟩ <;> rfl

@[simp] theorem P.run_pure (a : α) (w : Work) : (pure a : P α).run w = (.ok a, w) := id rfl
@[simp] theorem P.run_throw (e : Stop) (w : Work) : (throw e : P α).run w = (.error e, w) := id rfl
@[simp] theorem P.run_raiseP (c : Cause) (fa : DWord) (sub : Nat) (w : Work) :
    (raiseP c fa sub : P α).run w = (.error (.cause c sub fa), w) := id rfl
@[simp] theorem P.run_lift (x : W α) (w : Work) : (liftM x : P α).run w = (.ok (x w).1, (x w).2) := id rfl
@[simp] theorem P.run_monadLift (x : W α) (w : Work) : (MonadLift.monadLift x : P α).run w = (.ok (x w).1, (x w).2) := id rfl
theorem P.run_bind (x : P α) (f : α → P β) (w : Work) :
    (x >>= f).run w =
      match x.run w with
      | (.ok a, w') => (f a).run w'
      | (.error e, w') => (.error e, w') := by
  rw [ExceptT.run_bind, W.run_bind]
  rcases x.run w with ⟨_ | _, w'⟩ <;> rfl

/-! ### What a computation leaves as it is -/

/-- A computation leaves the part `f` of the work as it is. -/
def Same {γ : Type} (f : Work → γ) (x : W α) : Prop := ∀ w, f (x w).2 = f w

variable {γ : Type} {f : Work → γ}

theorem same_pure (a : α) : Same f (pure a : W α) := fun _ => rfl
theorem same_getSt : Same f getSt := fun _ => rfl
theorem same_get : Same f (get : W Work) := fun _ => rfl
theorem same_upd {g : State → State} (h : ∀ w : Work, f { w with st := g w.st } = f w) : Same f (upd g) := h
theorem same_modify {g : Work → Work} (h : ∀ w, f (g w) = f w) : Same f (modify g : W Unit) := h
theorem same_bind {x : W α} {g : α → W β} (hx : Same f x) (hg : ∀ a, Same f (g a)) : Same f (x >>= g) :=
  fun w => (hg _ _).trans (hx w)
theorem same_ite {c : Prop} [Decidable c] {x y : W α} (hx : c → Same f x) (hy : ¬ c → Same f y) :
    Same f (if c then x else y) := by
  split
  · exact hx ‹_›
  · exact hy ‹_›

theorem same_forIn {xs : List α} {b : β} {g : α → β → W (ForInStep β)} (h : ∀ a ∈ xs, ∀ b, Same f (g a b)) :
    Same f (forIn xs b g) := by
  induction xs generalizing b with
  | nil => exact fun _ => rfl
  | cons a as ih =>
    intro w
    rw [W.forIn_cons]
    have ha := h a (by simp) b w
    rcases hr : g a b w with ⟨_ | _, w'⟩
    · simpa [hr] using ha
    · rw [hr] at ha
      exact (ih (fun a m => h a (by simp [m])) w').trans ha

end Sys2Proof.Machine
end

