-- ==== Sys2Proof/Laws/State.lean ====
section
/-!
SUPPORT. The fields of a state after the updates that the operations are built from: each update changes the records it
names and leaves every other field.
-/
namespace Sys2Proof.Machine

/-- A state with other records of quarters. -/
def State.putQuarters (s : State) (q : List Quarter) : State := { s with quarters := q }

/-! ### `State.setThread` -/

@[simp] theorem setThread_mem (s : State) (t : ThreadId) (f : Thread → Thread) :
    (s.setThread t f).mem = s.mem := rfl
@[simp] theorem setThread_poison (s : State) (t : ThreadId) (f : Thread → Thread) :
    (s.setThread t f).poison = s.poison := rfl
@[simp] theorem setThread_published (s : State) (t : ThreadId) (f : Thread → Thread) :
    (s.setThread t f).published = s.published := rfl
@[simp] theorem setThread_groups (s : State) (t : ThreadId) (f : Thread → Thread) :
    (s.setThread t f).groups = s.groups := rfl
@[simp] theorem setThread_teams (s : State) (t : ThreadId) (f : Thread → Thread) :
    (s.setThread t f).teams = s.teams := rfl
@[simp] theorem setThread_quarters (s : State) (t : ThreadId) (f : Thread → Thread) :
    (s.setThread t f).quarters = s.quarters := rfl
@[simp] theorem setThread_cores (s : State) (t : ThreadId) (f : Thread → Thread) :
    (s.setThread t f).cores = s.cores := rfl
@[simp] theorem setThread_dies (s : State) (t : ThreadId) (f : Thread → Thread) :
    (s.setThread t f).dies = s.dies := rfl
@[simp] theorem setThread_launches (s : State) (t : ThreadId) (f : Thread → Thread) :
    (s.setThread t f).launches = s.launches := rfl
@[simp] theorem setThread_queues (s : State) (t : ThreadId) (f : Thread → Thread) :
    (s.setThread t f).queues = s.queues := rfl
@[simp] theorem setThread_lctl (s : State) (t : ThreadId) (f : Thread → Thread) :
    (s.setThread t f).lctl = s.lctl := rfl
@[simp] theorem setThread_order (s : State) (t : ThreadId) (f : Thread → Thread) :
    (s.setThread t f).order = s.order := rfl
@[simp] theorem setThread_reserved (s : State) (t : ThreadId) (f : Thread → Thread) :
    (s.setThread t f).reserved = s.reserved := rfl
@[simp] theorem setThread_rrobin (s : State) (t : ThreadId) (f : Thread → Thread) :
    (s.setThread t f).rrobin = s.rrobin := rfl
@[simp] theorem setThread_prectl (s : State) (t : ThreadId) (f : Thread → Thread) :
    (s.setThread t f).prectl = s.prectl := rfl
@[simp] theorem setThread_prestat (s : State) (t : ThreadId) (f : Thread → Thread) :
    (s.setThread t f).prestat = s.prestat := rfl
@[simp] theorem setThread_preempt (s : State) (t : ThreadId) (f : Thread → Thread) :
    (s.setThread t f).preempt = s.preempt := rfl
@[simp] theorem setThread_saving (s : State) (t : ThreadId) (f : Thread → Thread) :
    (s.setThread t f).saving = s.saving := rfl
@[simp] theorem setThread_savebase (s : State) (t : ThreadId) (f : Thread → Thread) :
    (s.setThread t f).savebase = s.savebase := rfl
@[simp] theorem setThread_savesize (s : State) (t : ThreadId) (f : Thread → Thread) :
    (s.setThread t f).savesize = s.savesize := rfl
@[simp] theorem setThread_images (s : State) (t : ThreadId) (f : Thread → Thread) :
    (s.setThread t f).images = s.images := rfl
@[simp] theorem setThread_nextImage (s : State) (t : ThreadId) (f : Thread → Thread) :
    (s.setThread t f).nextImage = s.nextImage := rfl
@[simp] theorem setThread_drvpasid (s : State) (t : ThreadId) (f : Thread → Thread) :
    (s.setThread t f).drvpasid = s.drvpasid := rfl
@[simp] theorem setThread_fltloc (s : State) (t : ThreadId) (f : Thread → Thread) :
    (s.setThread t f).fltloc = s.fltloc := rfl
@[simp] theorem setThread_dbgcmd (s : State) (t : ThreadId) (f : Thread → Thread) :
    (s.setThread t f).dbgcmd = s.dbgcmd := rfl
@[simp] theorem setThread_dbgsel (s : State) (t : ThreadId) (f : Thread → Thread) :
    (s.setThread t f).dbgsel = s.dbgsel := rfl
@[simp] theorem setThread_dbgwin (s : State) (t : ThreadId) (f : Thread → Thread) :
    (s.setThread t f).dbgwin = s.dbgwin := rfl
@[simp] theorem setThread_redDir (s : State) (t : ThreadId) (f : Thread → Thread) :
    (s.setThread t f).redDir = s.redDir := rfl
@[simp] theorem setThread_corrected (s : State) (t : ThreadId) (f : Thread → Thread) :
    (s.setThread t f).corrected = s.corrected := rfl
@[simp] theorem setThread_lag (s : State) (t : ThreadId) (f : Thread → Thread) :
    (s.setThread t f).lag = s.lag := rfl
@[simp] theorem setThread_second (s : State) (t : ThreadId) (f : Thread → Thread) :
    (s.setThread t f).second = s.second := rfl
@[simp] theorem setThread_rqbase (s : State) (t : ThreadId) (f : Thread → Thread) :
    (s.setThread t f).rqbase = s.rqbase := rfl
@[simp] theorem setThread_podcfg (s : State) (t : ThreadId) (f : Thread → Thread) :
    (s.setThread t f).podcfg = s.podcfg := rfl
@[simp] theorem setThread_podmask (s : State) (t : ThreadId) (f : Thread → Thread) :
    (s.setThread t f).podmask = s.podmask := rfl
@[simp] theorem setThread_rqerr (s : State) (t : ThreadId) (f : Thread → Thread) :
    (s.setThread t f).rqerr = s.rqerr := rfl
@[simp] theorem setThread_rqerrtag (s : State) (t : ThreadId) (f : Thread → Thread) :
    (s.setThread t f).rqerrtag = s.rqerrtag := rfl
@[simp] theorem setThread_domains (s : State) (t : ThreadId) (f : Thread → Thread) :
    (s.setThread t f).domains = s.domains := rfl
@[simp] theorem setThread_retire (s : State) (t : ThreadId) (f : Thread → Thread) :
    (s.setThread t f).retire = s.retire := rfl
@[simp] theorem setThread_pools (s : State) (t : ThreadId) (f : Thread → Thread) :
    (s.setThread t f).pools = s.pools := rfl
@[simp] theorem setThread_kfqbase (s : State) (t : ThreadId) (f : Thread → Thread) :
    (s.setThread t f).kfqbase = s.kfqbase := rfl
@[simp] theorem setThread_kfqctl (s : State) (t : ThreadId) (f : Thread → Thread) :
    (s.setThread t f).kfqctl = s.kfqctl := rfl
@[simp] theorem setThread_kfqtail (s : State) (t : ThreadId) (f : Thread → Thread) :
    (s.setThread t f).kfqtail = s.kfqtail := rfl
@[simp] theorem setThread_kfqhead (s : State) (t : ThreadId) (f : Thread → Thread) :
    (s.setThread t f).kfqhead = s.kfqhead := rfl
@[simp] theorem setThread_kfqres (s : State) (t : ThreadId) (f : Thread → Thread) :
    (s.setThread t f).kfqres = s.kfqres := rfl
@[simp] theorem setThread_linkMap (s : State) (t : ThreadId) (f : Thread → Thread) :
    (s.setThread t f).linkMap = s.linkMap := rfl
@[simp] theorem setThread_colls (s : State) (t : ThreadId) (f : Thread → Thread) :
    (s.setThread t f).colls = s.colls := rfl
@[simp] theorem setThread_coords (s : State) (t : ThreadId) (f : Thread → Thread) :
    (s.setThread t f).coords = s.coords := rfl
@[simp] theorem setThread_collGen (s : State) (t : ThreadId) (f : Thread → Thread) :
    (s.setThread t f).collGen = s.collGen := rfl
@[simp] theorem setThread_step_ (s : State) (t : ThreadId) (f : Thread → Thread) :
    (s.setThread t f).step_ = s.step_ := rfl
@[simp] theorem setThread_featoff (s : State) (t : ThreadId) (f : Thread → Thread) :
    (s.setThread t f).featoff = s.featoff := rfl
@[simp] theorem setThread_featacc (s : State) (t : ThreadId) (f : Thread → Thread) :
    (s.setThread t f).featacc = s.featacc := rfl
@[simp] theorem setThread_featDone (s : State) (t : ThreadId) (f : Thread → Thread) :
    (s.setThread t f).featDone = s.featDone := rfl
@[simp] theorem setThread_thermWarn (s : State) (t : ThreadId) (f : Thread → Thread) :
    (s.setThread t f).thermWarn = s.thermWarn := rfl
@[simp] theorem setThread_thermTrip (s : State) (t : ThreadId) (f : Thread → Thread) :
    (s.setThread t f).thermTrip = s.thermTrip := rfl
@[simp] theorem setThread_warnt (s : State) (t : ThreadId) (f : Thread → Thread) :
    (s.setThread t f).warnt = s.warnt := rfl
@[simp] theorem setThread_tmax (s : State) (t : ThreadId) (f : Thread → Thread) :
    (s.setThread t f).tmax = s.tmax := rfl
@[simp] theorem setThread_sec (s : State) (t : ThreadId) (f : Thread → Thread) :
    (s.setThread t f).sec = s.sec := rfl
@[simp] theorem setThread_portUp (s : State) (t : ThreadId) (f : Thread → Thread) :
    (s.setThread t f).portUp = s.portUp := rfl
@[simp] theorem setThread_ideKeys (s : State) (t : ThreadId) (f : Thread → Thread) :
    (s.setThread t f).ideKeys = s.ideKeys := rfl
@[simp] theorem setThread_tlb (s : State) (t : ThreadId) (f : Thread → Thread) :
    (s.setThread t f).tlb = s.tlb := rfl
@[simp] theorem setThread_ats (s : State) (t : ThreadId) (f : Thread → Thread) :
    (s.setThread t f).ats = s.ats := rfl
@[simp] theorem setThread_pri (s : State) (t : ThreadId) (f : Thread → Thread) :
    (s.setThread t f).pri = s.pri := rfl
@[simp] theorem setThread_invals (s : State) (t : ThreadId) (f : Thread → Thread) :
    (s.setThread t f).invals = s.invals := rfl
@[simp] theorem setThread_hlc (s : State) (t : ThreadId) (f : Thread → Thread) :
    (s.setThread t f).hlc = s.hlc := rfl
@[simp] theorem setThread_hlcReq (s : State) (t : ThreadId) (f : Thread → Thread) :
    (s.setThread t f).hlcReq = s.hlcReq := rfl
@[simp] theorem setThread_hostHeld (s : State) (t : ThreadId) (f : Thread → Thread) :
    (s.setThread t f).hostHeld = s.hostHeld := rfl
@[simp] theorem setThread_bisnp (s : State) (t : ThreadId) (f : Thread → Thread) :
    (s.setThread t f).bisnp = s.bisnp := rfl
@[simp] theorem setThread_subSeq (s : State) (t : ThreadId) (f : Thread → Thread) :
    (s.setThread t f).subSeq = s.subSeq := rfl
@[simp] theorem setThread_clock (s : State) (t : ThreadId) (f : Thread → Thread) :
    (s.setThread t f).clock = s.clock := rfl
@[simp] theorem setThread_cur (s : State) (t : ThreadId) (f : Thread → Thread) :
    (s.setThread t f).cur = s.cur := rfl
@[simp] theorem setThread_inbox (s : State) (t : ThreadId) (f : Thread → Thread) :
    (s.setThread t f).inbox = s.inbox := rfl
@[simp] theorem setThread_choices (s : State) (t : ThreadId) (f : Thread → Thread) :
    (s.setThread t f).choices = s.choices := rfl
@[simp] theorem setThread_fresh (s : State) (t : ThreadId) (f : Thread → Thread) :
    (s.setThread t f).fresh = s.fresh := rfl
@[simp] theorem setThread_hostOut (s : State) (t : ThreadId) (f : Thread → Thread) :
    (s.setThread t f).hostOut = s.hostOut := rfl
@[simp] theorem setThread_linkOut (s : State) (t : ThreadId) (f : Thread → Thread) :
    (s.setThread t f).linkOut = s.linkOut := rfl

/-- The record of a thread after one thread's record changed, for a change that keeps the thread's identity. -/
theorem thread?_setThread (s : State) (t u : ThreadId) (f : Thread → Thread) (hf : ∀ x, (f x).tid = x.tid) :
    (s.setThread t f).thread? u = if u = t then (s.thread? u).map f else s.thread? u := by
  unfold State.thread? State.setThread
  dsimp only
  induction s.threads with
  | nil => simp
  | cons x xs ih =>
    rw [List.map_cons, List.find?_cons, List.find?_cons, ih]
    by_cases hx : x.tid = t
    · by_cases hu : u = t
      · simp [hx, hf, hu]
      · simp [hx, hf, hu, Ne.symm hu]
    · by_cases hu : u = t
      · simp [hx, hu]
      · simp [hx, hu]

/-- Two changes of one thread are one. -/
theorem setThread_setThread (s : State) (t : ThreadId) (f g : Thread → Thread) (hf : ∀ x, (f x).tid = x.tid) :
    (s.setThread t f).setThread t g = s.setThread t fun x => g (f x) := by
  unfold State.setThread
  dsimp only
  congr 1
  rw [List.map_map]
  refine List.map_congr_left fun x _ => ?_
  by_cases hx : x.tid = t <;> simp [hx, hf]

/-! ### Lookups that an update of threads or quarters does not touch -/

@[simp] theorem team_setThread (s : State) (t : ThreadId) (f : Thread → Thread) (c sl : Nat) :
    (s.setThread t f).team? c sl = s.team? c sl := rfl
@[simp] theorem group_setThread (s : State) (t : ThreadId) (f : Thread → Thread) (c sl g : Nat) :
    (s.setThread t f).group? c sl g = s.group? c sl g := rfl
@[simp] theorem launch_setThread (s : State) (t : ThreadId) (f : Thread → Thread) (l : Nat) :
    (s.setThread t f).launch? l = s.launch? l := rfl
@[simp] theorem quarter_setThread (s : State) (t : ThreadId) (f : Thread → Thread) (c q : Nat) :
    (s.setThread t f).quarter c q = s.quarter c q := rfl
@[simp] theorem core_setThread (s : State) (t : ThreadId) (f : Thread → Thread) (c : Nat) :
    (s.setThread t f).core c = s.core c := rfl
@[simp] theorem die_setThread (s : State) (t : ThreadId) (f : Thread → Thread) (d : Nat) :
    (s.setThread t f).die d = s.die d := rfl
@[simp] theorem domain_setThread (s : State) (t : ThreadId) (f : Thread → Thread) (d : Nat) :
    (s.setThread t f).domain d = s.domain d := rfl
@[simp] theorem queue_setThread (s : State) (t : ThreadId) (f : Thread → Thread) (q : Nat) :
    (s.setThread t f).queue q = s.queue q := rfl
@[simp] theorem pool_setThread (s : State) (t : ThreadId) (f : Thread → Thread) (p : Nat) :
    (s.setThread t f).pool p = s.pool p := rfl
@[simp] theorem pasidOf_setThread (s : State) (t : ThreadId) (f : Thread → Thread) (l : Nat) :
    (s.setThread t f).pasidOf l = s.pasidOf l := rfl
@[simp] theorem kdescOf_setThread (s : State) (t : ThreadId) (f : Thread → Thread) (l : Nat) :
    (s.setThread t f).kdescOf l = s.kdescOf l := rfl
@[simp] theorem trans_setThread (s : State) (t : ThreadId) (f : Thread → Thread) (d : Tlb) (p va : Nat) (i : Intent) :
    (s.setThread t f).trans d p va i = s.trans d p va i := rfl
@[simp] theorem issueClock_setThread (s : State) (t : ThreadId) (f : Thread → Thread) (d : Nat) :
    (s.setThread t f).issueClock d = s.issueClock d := rfl
@[simp] theorem byte_setThread (s : State) (t : ThreadId) (f : Thread → Thread) (a : Nat) :
    (s.setThread t f).byte a = s.byte a := rfl
@[simp] theorem poisoned_setThread (s : State) (t : ThreadId) (f : Thread → Thread) (a n : Nat) :
    (s.setThread t f).poisoned a n = s.poisoned a n := rfl
@[simp] theorem feature_setThread (s : State) (t : ThreadId) (f : Thread → Thread) (k : Nat) :
    (s.setThread t f).feature k = s.feature k := rfl

/-! ### `State.putQuarters` -/

@[simp] theorem putQuarters_threads (s : State) (q : List Quarter) : (s.putQuarters q).threads = s.threads := rfl
@[simp] theorem putQuarters_mem (s : State) (q : List Quarter) : (s.putQuarters q).mem = s.mem := rfl
@[simp] theorem putQuarters_poison (s : State) (q : List Quarter) : (s.putQuarters q).poison = s.poison := rfl
@[simp] theorem putQuarters_published (s : State) (q : List Quarter) : (s.putQuarters q).published = s.published := rfl
@[simp] theorem putQuarters_groups (s : State) (q : List Quarter) : (s.putQuarters q).groups = s.groups := rfl
@[simp] theorem putQuarters_teams (s : State) (q : List Quarter) : (s.putQuarters q).teams = s.teams := rfl
@[simp] theorem putQuarters_quarters (s : State) (q : List Quarter) : (s.putQuarters q).quarters = q := rfl
@[simp] theorem putQuarters_cores (s : State) (q : List Quarter) : (s.putQuarters q).cores = s.cores := rfl
@[simp] theorem putQuarters_dies (s : State) (q : List Quarter) : (s.putQuarters q).dies = s.dies := rfl
@[simp] theorem putQuarters_launches (s : State) (q : List Quarter) : (s.putQuarters q).launches = s.launches := rfl
@[simp] theorem putQuarters_queues (s : State) (q : List Quarter) : (s.putQuarters q).queues = s.queues := rfl
@[simp] theorem putQuarters_lctl (s : State) (q : List Quarter) : (s.putQuarters q).lctl = s.lctl := rfl
@[simp] theorem putQuarters_order (s : State) (q : List Quarter) : (s.putQuarters q).order = s.order := rfl
@[simp] theorem putQuarters_reserved (s : State) (q : List Quarter) : (s.putQuarters q).reserved = s.reserved := rfl
@[simp] theorem putQuarters_rrobin (s : State) (q : List Quarter) : (s.putQuarters q).rrobin = s.rrobin := rfl
@[simp] theorem putQuarters_prectl (s : State) (q : List Quarter) : (s.putQuarters q).prectl = s.prectl := rfl
@[simp] theorem putQuarters_prestat (s : State) (q : List Quarter) : (s.putQuarters q).prestat = s.prestat := rfl
@[simp] theorem putQuarters_preempt (s : State) (q : List Quarter) : (s.putQuarters q).preempt = s.preempt := rfl
@[simp] theorem putQuarters_saving (s : State) (q : List Quarter) : (s.putQuarters q).saving = s.saving := rfl
@[simp] theorem putQuarters_savebase (s : State) (q : List Quarter) : (s.putQuarters q).savebase = s.savebase := rfl
@[simp] theorem putQuarters_savesize (s : State) (q : List Quarter) : (s.putQuarters q).savesize = s.savesize := rfl
@[simp] theorem putQuarters_images (s : State) (q : List Quarter) : (s.putQuarters q).images = s.images := rfl
@[simp] theorem putQuarters_nextImage (s : State) (q : List Quarter) : (s.putQuarters q).nextImage = s.nextImage := rfl
@[simp] theorem putQuarters_drvpasid (s : State) (q : List Quarter) : (s.putQuarters q).drvpasid = s.drvpasid := rfl
@[simp] theorem putQuarters_fltloc (s : State) (q : List Quarter) : (s.putQuarters q).fltloc = s.fltloc := rfl
@[simp] theorem putQuarters_dbgcmd (s : State) (q : List Quarter) : (s.putQuarters q).dbgcmd = s.dbgcmd := rfl
@[simp] theorem putQuarters_dbgsel (s : State) (q : List Quarter) : (s.putQuarters q).dbgsel = s.dbgsel := rfl
@[simp] theorem putQuarters_dbgwin (s : State) (q : List Quarter) : (s.putQuarters q).dbgwin = s.dbgwin := rfl
@[simp] theorem putQuarters_redDir (s : State) (q : List Quarter) : (s.putQuarters q).redDir = s.redDir := rfl
@[simp] theorem putQuarters_corrected (s : State) (q : List Quarter) : (s.putQuarters q).corrected = s.corrected := rfl
@[simp] theorem putQuarters_lag (s : State) (q : List Quarter) : (s.putQuarters q).lag = s.lag := rfl
@[simp] theorem putQuarters_second (s : State) (q : List Quarter) : (s.putQuarters q).second = s.second := rfl
@[simp] theorem putQuarters_rqbase (s : State) (q : List Quarter) : (s.putQuarters q).rqbase = s.rqbase := rfl
@[simp] theorem putQuarters_podcfg (s : State) (q : List Quarter) : (s.putQuarters q).podcfg = s.podcfg := rfl
@[simp] theorem putQuarters_podmask (s : State) (q : List Quarter) : (s.putQuarters q).podmask = s.podmask := rfl
@[simp] theorem putQuarters_rqerr (s : State) (q : List Quarter) : (s.putQuarters q).rqerr = s.rqerr := rfl
@[simp] theorem putQuarters_rqerrtag (s : State) (q : List Quarter) : (s.putQuarters q).rqerrtag = s.rqerrtag := rfl
@[simp] theorem putQuarters_domains (s : State) (q : List Quarter) : (s.putQuarters q).domains = s.domains := rfl
@[simp] theorem putQuarters_retire (s : State) (q : List Quarter) : (s.putQuarters q).retire = s.retire := rfl
@[simp] theorem putQuarters_pools (s : State) (q : List Quarter) : (s.putQuarters q).pools = s.pools := rfl
@[simp] theorem putQuarters_kfqbase (s : State) (q : List Quarter) : (s.putQuarters q).kfqbase = s.kfqbase := rfl
@[simp] theorem putQuarters_kfqctl (s : State) (q : List Quarter) : (s.putQuarters q).kfqctl = s.kfqctl := rfl
@[simp] theorem putQuarters_kfqtail (s : State) (q : List Quarter) : (s.putQuarters q).kfqtail = s.kfqtail := rfl
@[simp] theorem putQuarters_kfqhead (s : State) (q : List Quarter) : (s.putQuarters q).kfqhead = s.kfqhead := rfl
@[simp] theorem putQuarters_kfqres (s : State) (q : List Quarter) : (s.putQuarters q).kfqres = s.kfqres := rfl
@[simp] theorem putQuarters_linkMap (s : State) (q : List Quarter) : (s.putQuarters q).linkMap = s.linkMap := rfl
@[simp] theorem putQuarters_colls (s : State) (q : List Quarter) : (s.putQuarters q).colls = s.colls := rfl
@[simp] theorem putQuarters_coords (s : State) (q : List Quarter) : (s.putQuarters q).coords = s.coords := rfl
@[simp] theorem putQuarters_collGen (s : State) (q : List Quarter) : (s.putQuarters q).collGen = s.collGen := rfl
@[simp] theorem putQuarters_step_ (s : State) (q : List Quarter) : (s.putQuarters q).step_ = s.step_ := rfl
@[simp] theorem putQuarters_featoff (s : State) (q : List Quarter) : (s.putQuarters q).featoff = s.featoff := rfl
@[simp] theorem putQuarters_featacc (s : State) (q : List Quarter) : (s.putQuarters q).featacc = s.featacc := rfl
@[simp] theorem putQuarters_featDone (s : State) (q : List Quarter) : (s.putQuarters q).featDone = s.featDone := rfl
@[simp] theorem putQuarters_thermWarn (s : State) (q : List Quarter) : (s.putQuarters q).thermWarn = s.thermWarn := rfl
@[simp] theorem putQuarters_thermTrip (s : State) (q : List Quarter) : (s.putQuarters q).thermTrip = s.thermTrip := rfl
@[simp] theorem putQuarters_warnt (s : State) (q : List Quarter) : (s.putQuarters q).warnt = s.warnt := rfl
@[simp] theorem putQuarters_tmax (s : State) (q : List Quarter) : (s.putQuarters q).tmax = s.tmax := rfl
@[simp] theorem putQuarters_sec (s : State) (q : List Quarter) : (s.putQuarters q).sec = s.sec := rfl
@[simp] theorem putQuarters_portUp (s : State) (q : List Quarter) : (s.putQuarters q).portUp = s.portUp := rfl
@[simp] theorem putQuarters_ideKeys (s : State) (q : List Quarter) : (s.putQuarters q).ideKeys = s.ideKeys := rfl
@[simp] theorem putQuarters_tlb (s : State) (q : List Quarter) : (s.putQuarters q).tlb = s.tlb := rfl
@[simp] theorem putQuarters_ats (s : State) (q : List Quarter) : (s.putQuarters q).ats = s.ats := rfl
@[simp] theorem putQuarters_pri (s : State) (q : List Quarter) : (s.putQuarters q).pri = s.pri := rfl
@[simp] theorem putQuarters_invals (s : State) (q : List Quarter) : (s.putQuarters q).invals = s.invals := rfl
@[simp] theorem putQuarters_hlc (s : State) (q : List Quarter) : (s.putQuarters q).hlc = s.hlc := rfl
@[simp] theorem putQuarters_hlcReq (s : State) (q : List Quarter) : (s.putQuarters q).hlcReq = s.hlcReq := rfl
@[simp] theorem putQuarters_hostHeld (s : State) (q : List Quarter) : (s.putQuarters q).hostHeld = s.hostHeld := rfl
@[simp] theorem putQuarters_bisnp (s : State) (q : List Quarter) : (s.putQuarters q).bisnp = s.bisnp := rfl
@[simp] theorem putQuarters_subSeq (s : State) (q : List Quarter) : (s.putQuarters q).subSeq = s.subSeq := rfl
@[simp] theorem putQuarters_clock (s : State) (q : List Quarter) : (s.putQuarters q).clock = s.clock := rfl
@[simp] theorem putQuarters_cur (s : State) (q : List Quarter) : (s.putQuarters q).cur = s.cur := rfl
@[simp] theorem putQuarters_inbox (s : State) (q : List Quarter) : (s.putQuarters q).inbox = s.inbox := rfl
@[simp] theorem putQuarters_choices (s : State) (q : List Quarter) : (s.putQuarters q).choices = s.choices := rfl
@[simp] theorem putQuarters_fresh (s : State) (q : List Quarter) : (s.putQuarters q).fresh = s.fresh := rfl
@[simp] theorem putQuarters_hostOut (s : State) (q : List Quarter) : (s.putQuarters q).hostOut = s.hostOut := rfl
@[simp] theorem putQuarters_linkOut (s : State) (q : List Quarter) : (s.putQuarters q).linkOut = s.linkOut := rfl
@[simp] theorem team_putQuarters (s : State) (q : List Quarter) (c sl : Nat) :
    (s.putQuarters q).team? c sl = s.team? c sl := rfl
@[simp] theorem group_putQuarters (s : State) (q : List Quarter) (c sl g : Nat) :
    (s.putQuarters q).group? c sl g = s.group? c sl g := rfl
@[simp] theorem launch_putQuarters (s : State) (q : List Quarter) (l : Nat) :
    (s.putQuarters q).launch? l = s.launch? l := rfl
@[simp] theorem core_putQuarters (s : State) (q : List Quarter) (c : Nat) :
    (s.putQuarters q).core c = s.core c := rfl
@[simp] theorem die_putQuarters (s : State) (q : List Quarter) (d : Nat) :
    (s.putQuarters q).die d = s.die d := rfl
@[simp] theorem domain_putQuarters (s : State) (q : List Quarter) (d : Nat) :
    (s.putQuarters q).domain d = s.domain d := rfl
@[simp] theorem queue_putQuarters (s : State) (q : List Quarter) (k : Nat) :
    (s.putQuarters q).queue k = s.queue k := rfl
@[simp] theorem pool_putQuarters (s : State) (q : List Quarter) (p : Nat) :
    (s.putQuarters q).pool p = s.pool p := rfl
@[simp] theorem pasidOf_putQuarters (s : State) (q : List Quarter) (l : Nat) :
    (s.putQuarters q).pasidOf l = s.pasidOf l := rfl
@[simp] theorem kdescOf_putQuarters (s : State) (q : List Quarter) (l : Nat) :
    (s.putQuarters q).kdescOf l = s.kdescOf l := rfl
@[simp] theorem trans_putQuarters (s : State) (q : List Quarter) (d : Tlb) (p va : Nat) (i : Intent) :
    (s.putQuarters q).trans d p va i = s.trans d p va i := rfl
@[simp] theorem issueClock_putQuarters (s : State) (q : List Quarter) (d : Nat) :
    (s.putQuarters q).issueClock d = s.issueClock d := rfl
@[simp] theorem byte_putQuarters (s : State) (q : List Quarter) (a : Nat) :
    (s.putQuarters q).byte a = s.byte a := rfl
@[simp] theorem poisoned_putQuarters (s : State) (q : List Quarter) (a n : Nat) :
    (s.putQuarters q).poisoned a n = s.poisoned a n := rfl
@[simp] theorem feature_putQuarters (s : State) (q : List Quarter) (k : Nat) :
    (s.putQuarters q).feature k = s.feature k := rfl
@[simp] theorem thread_putQuarters (s : State) (q : List Quarter) (t : ThreadId) :
    (s.putQuarters q).thread? t = s.thread? t := rfl
theorem putQuarters_setThread (s : State) (q : List Quarter) (t : ThreadId) (f : Thread → Thread) :
    (s.putQuarters q).setThread t f = (s.setThread t f).putQuarters q := rfl

end Sys2Proof.Machine
end

