-- ==== Sys2Proof/Laws/Frame.lean ====
section
/-!
SUPPORT. What the shared operations of the sequencer leave as it is: arrivals at a PC touch the quarters' records and the
PCs of the threads that arrive, and a raised cause touches one thread, its group's masks, and the report of a halt.
-/
namespace Sys2Proof.Machine

/-- A unit's record after `upsert`: the new one where the key agrees, the old one elsewhere. -/
theorem find_upsert {α : Type} (p : α → Bool) (x : α) (xs : List α) (hx : p x = true) :
    (upsert p x xs).find? p = some x := by
  induction xs with
  | nil => simp [upsert, hx]
  | cons y ys ih =>
    by_cases hy : p y
    · simp [upsert, hy, hx]
    · simp [upsert, hy, ih]

theorem find_upsert_ne {α : Type} (p r : α → Bool) (x : α) (xs : List α) (hx : r x = false)
    (hpr : ∀ y, p y = true → r y = false) : (upsert p x xs).find? r = xs.find? r := by
  induction xs with
  | nil => simp [upsert, hx]
  | cons y ys ih =>
    by_cases hy : p y
    · simp [upsert, hy, hx, hpr y hy]
    · simp only [upsert, hy, Bool.false_eq_true, if_false, List.find?_cons, ih]

theorem quarter_core (s : State) (c q : Nat) : (s.quarter c q).core = c ∧ (s.quarter c q).qtr = q := by
  unfold State.quarter
  cases h : s.quarters.find? fun x => x.core = c && x.qtr = q with
  | none => simp
  | some x => simpa using List.find?_some h

/-- The work but for the PC tables of quarters. -/
def offQuarters (w : Work) : Work × (Nat → Nat → Quarter) :=
  ({ w with st := { w.st with quarters := [] } }, fun c q => (w.st.quarter c q).engine)

/-- A quarter's record after one quarter changed. -/
theorem quarter_upsert (s : State) (c q c' q' : Nat) (x : Quarter) (hc : x.core = c) (hq : x.qtr = q) :
    ({ s with quarters := upsert (fun y => y.core = c && y.qtr = q) x s.quarters } : State).quarter c' q'
      = if c' = c ∧ q' = q then x else s.quarter c' q' := by
  unfold State.quarter
  dsimp only
  split
  next h =>
    obtain ⟨rfl, rfl⟩ := h
    rw [find_upsert _ _ _ (by simp [hc, hq])]
    rfl
  next h =>
    rw [find_upsert_ne _ _ _ _ (by simp [hc, hq]; omega) (by intro y hy; simp at hy; simp [hy]; omega)]

theorem modQuarter_off (c q : Nat) (f : Quarter → Quarter) (hf : ∀ x, (f x).engine = x.engine) :
    Same offQuarters (modQuarter c q f) := by
  intro w
  have hk := quarter_core w.st c q
  have h1 : (f (w.st.quarter c q)).core = c := (congrArg Quarter.core (hf (w.st.quarter c q)) :).trans hk.1
  have h2 : (f (w.st.quarter c q)).qtr = q := (congrArg Quarter.qtr (hf (w.st.quarter c q)) :).trans hk.2
  refine Prod.ext rfl (funext fun c' => funext fun q' => ?_)
  show Quarter.engine (State.quarter _ c' q') = _
  refine (congrArg Quarter.engine (quarter_upsert w.st c q c' q' (f (w.st.quarter c q)) h1 h2)).trans ?_
  split
  next h => rw [h.1, h.2, hf]; rfl
  next h => rfl

theorem freshStamp_off (c q : Nat) : Same offQuarters (freshStamp c q) := by
  unfold freshStamp
  refine same_bind same_getSt fun _ => ?_
  dsimp only
  refine same_ite (fun _ => ?_) fun _ => ?_
  · exact same_bind (modQuarter_off _ _ _ fun _ => rfl) fun _ => same_bind same_getSt fun _ =>
      same_bind (modQuarter_off _ _ _ fun _ => rfl) fun _ => same_pure _
  · exact same_bind same_getSt fun _ => same_bind (modQuarter_off _ _ _ fun _ => rfl) fun _ => same_pure _

theorem joinEntry_off (c q l : Nat) (pc : DWord) (st : Nat) (fo : Bool) (ts : List ThreadId) :
    Same offQuarters (joinEntry c q l pc st fo ts) := by
  unfold joinEntry
  exact same_bind same_getSt fun _ => same_ite (fun _ => modQuarter_off _ _ _ fun _ => rfl) fun _ =>
    same_ite (fun _ => modQuarter_off _ _ _ fun _ => rfl) fun _ => modQuarter_off _ _ _ fun _ => rfl

theorem freeEntries_off (c q : Nat) : Same offQuarters (freeEntries c q) := by
  unfold freeEntries
  exact same_bind same_getSt fun _ => modQuarter_off _ _ _ fun _ => rfl

theorem leaveSerial_off (c q : Nat) : Same offQuarters (leaveSerial c q) := by
  unfold leaveSerial
  refine same_bind same_getSt fun _ => same_ite (fun _ => ?_) fun _ => same_pure _
  refine same_bind (modQuarter_off _ _ _ fun _ => rfl) fun _ => ?_
  exact same_forIn fun _ _ _ => same_bind (freshStamp_off _ _) fun _ => same_bind (modQuarter_off _ _ _ fun _ => rfl) fun _ => same_pure _

/-- Two works that agree but for PC tables: the second is the first with other quarters, whose engines are the same. -/
theorem offQuarters_eq {w w' : Work} (h : offQuarters w' = offQuarters w) :
    w' = { w with st := w.st.putQuarters w'.st.quarters } ∧
      ∀ c q, (w'.st.quarter c q).engine = (w.st.quarter c q).engine := by
  refine ⟨?_, fun c q => congrFun (congrFun (congrArg Prod.snd h) c) q⟩
  have h := congrArg Prod.fst h
  rcases w with ⟨⟨⟩⟩
  rcases w' with ⟨⟨⟩⟩
  simpa [offQuarters, State.putQuarters] using h

/-- A thread at another PC. -/
def Thread.goTo (x : Thread) (pc : DWord) : Thread := { x with pc }

/-- The PCs of threads set one after another. -/
def State.setPcs (s : State) (moves : List (ThreadId × DWord)) : State :=
  moves.foldl (fun s m => s.setThread m.1 fun x => x.goTo m.2) s

theorem setPcs_quarters (s : State) (ms : List (ThreadId × DWord)) : (s.setPcs ms).quarters = s.quarters := by
  unfold State.setPcs
  induction ms generalizing s with
  | nil => rfl
  | cons m ms ih => exact (ih _).trans rfl

theorem forIn_modThread {α : Type} (xs : List α) (t : α → ThreadId) (f : α → Thread → Thread) (u : PUnit) (w : Work) :
    (forIn xs u (fun x _ => (do modThread (t x) (f x); pure (ForInStep.yield PUnit.unit) : W _)) : W _) w
      = (PUnit.unit, { w with st := xs.foldl (fun s x => s.setThread (t x) (f x)) w.st }) := by
  induction xs generalizing w with
  | nil => rfl
  | cons a as ih =>
    rw [W.forIn_cons]
    exact ih _

/-- An arrival of an issue group: the PCs change, and the records of quarters. -/
theorem arrive_eq (old : Nat) (y : Bool) (seq : DWord) (moves : List (ThreadId × DWord)) (w : Work) :
    ∃ q, (arrive old y seq moves w).2 = { w with st := (w.st.setPcs moves).putQuarters q } ∧
      ∀ c k, ((w.st.putQuarters q).quarter c k).engine = (w.st.quarter c k).engine := by
  unfold arrive
  rcases moves with _ | ⟨m, ms⟩
  · exact ⟨w.st.quarters, rfl, fun _ _ => rfl⟩
  · simp only [W.run_bind, W.run_getSt]
    rw [forIn_modThread]
    have hq : (w.st.setPcs (m :: ms)).quarters = w.st.quarters := setPcs_quarters _ _
    refine ⟨_, (and_congr_right fun _ => forall₂_congr fun c k => ?_).1
      (offQuarters_eq (w := { w with st := w.st.setPcs (m :: ms) }) ?_)⟩
    · exact iff_of_eq (congrArg (Eq _ ·) (congrArg Quarter.engine (by unfold State.quarter; rw [hq])))
    refine ((?_ : Same offQuarters _) _).trans (freeEntries_off _ _ _)
    refine same_ite (fun _ => ?_) fun _ => ?_
    · exact same_bind (freshStamp_off _ _) fun _ => same_bind
        (same_forIn fun _ _ _ => same_bind (joinEntry_off _ _ _ _ _ _ _) fun _ => same_pure _) fun _ => leaveSerial_off _ _
    · refine same_ite (fun _ => ?_) fun _ => ?_
      · exact same_bind
          (same_forIn fun _ _ _ => same_bind (joinEntry_off _ _ _ _ _ _ _) fun _ => same_pure _) fun _ => leaveSerial_off _ _
      · refine same_ite (fun _ => ?_) fun _ => ?_
        · exact same_bind (joinEntry_off _ _ _ _ _ _ _) fun _ => same_bind (freshStamp_off _ _) fun _ => same_bind
            (same_forIn fun _ _ _ => same_bind (joinEntry_off _ _ _ _ _ _ _) fun _ => same_pure _) fun _ => leaveSerial_off _ _
        · exact same_bind (freshStamp_off _ _) fun _ => same_bind
            (same_forIn fun _ _ _ => same_bind (joinEntry_off _ _ _ _ _ _ _) fun _ => same_pure _) fun _ => leaveSerial_off _ _

end Sys2Proof.Machine
end

