-- ==== Sys2Proof/Laws/Issue.lean ====
section
/-!
SUPPORT. The issue of a word, once for every meaning that is built on it: what the checks answer, what the bookkeeping at
the end of an issue changes, and what writing results changes.
-/
namespace Sys2Proof.Machine

/-! ### Threads changed one after another -/

/-- A thread's record after changes of several threads. -/
theorem thread?_foldl {α : Type} (xs : List α) (t : α → ThreadId) (f : α → Thread → Thread)
    (hf : ∀ x y, (f x y).tid = y.tid) (s : State) (u : ThreadId) :
    (xs.foldl (fun s x => s.setThread (t x) (f x)) s).thread? u
      = (s.thread? u).map fun y => (xs.filter fun x => t x = u).foldl (fun y x => f x y) y := by
  induction xs generalizing s with
  | nil => simp
  | cons x xs ih =>
    rw [List.foldl_cons, ih, thread?_setThread _ _ _ _ (hf x)]
    by_cases h : t x = u
    · subst h; simp [Function.comp_def]
    · simp [h, Ne.symm h]

/-- A list without repeats holds one element of a key. -/
theorem filter_nodup {α : Type} {xs : List α} {t : α → ThreadId} (h : (xs.map t).Nodup) {x : α} (hx : x ∈ xs) :
    (xs.filter fun y => t y = t x) = [x] := by
  induction xs with
  | nil => simp at hx
  | cons a as ih =>
    simp only [List.map_cons, List.nodup_cons] at h
    rcases List.mem_cons.1 hx with rfl | hx
    · simp only [List.filter_cons, decide_true, if_true, List.cons.injEq, true_and, List.filter_eq_nil_iff,
        decide_eq_true_eq]
      exact fun y hy e => h.1 (e ▸ List.mem_map_of_mem hy)
    · have : t a ≠ t x := fun e => h.1 (e ▸ List.mem_map_of_mem hx)
      simp [this, ih h.2 hx]

/-! ### Bookkeeping of an issue -/

/-- What `issuedBy` changes in one thread's record. -/
def issuedRec (i : Instr) (acted : List Thread) (t : ThreadId) (x : Thread) : Thread :=
  { x with
    windows := stepWindows (laOf i) ((acted.find? fun y => y.tid = t).map fun y =>
      { left := laOf i, reads := (usesOf i).reads y, writes := (usesOf i).writes y }) x.windows
    halt := if x.stepping && x.halt.isNone then some .command else x.halt
    stepping := false }

theorem issuedBy_run (i : Instr) (acted : List Thread) (all : List ThreadId) (w : Work) :
    issuedBy i acted all w
      = ((), { w with st := all.foldl (fun s t => s.setThread t (issuedRec i acted t)) w.st }) := by
  unfold issuedBy
  exact forIn_modThread all id (fun t => issuedRec i acted t) _ w

/-- Everything but threads, groups, PC tables, FLTLOC and the messages to the host. -/
def offThreads (w : Work) : Work × (Nat → Nat → Quarter) :=
  ({ w with st := w.st.bare }, fun c q => (w.st.quarter c q).engine)

theorem bare_setThread (s : State) (t : ThreadId) (f : Thread → Thread) : (s.setThread t f).bare = s.bare := rfl
theorem bare_putQuarters (s : State) (q : List Quarter) : (s.putQuarters q).bare = s.bare := rfl
theorem bare_foldl {α : Type} (xs : List α) (t : α → ThreadId) (f : α → Thread → Thread) (s : State) :
    (xs.foldl (fun s x => s.setThread (t x) (f x)) s).bare = s.bare := by
  induction xs generalizing s with
  | nil => rfl
  | cons x xs ih => exact (ih _).trans rfl

theorem same_offThreads {α : Type} {x : W α} (h : Same offQuarters x) : Same offThreads x := by
  intro w
  have e := offQuarters_eq (h w)
  refine Prod.ext ?_ (funext fun c => funext fun q => e.2 c q)
  show ({ (x w).2 with st := (x w).2.st.bare } : Work) = _
  rw [e.1]
  rfl

theorem modThread_offThreads (t : ThreadId) (f : Thread → Thread) : Same offThreads (modThread t f) := fun _ => rfl
theorem modGroup_offThreads (c sl g : Nat) (f : Group → Group) : Same offThreads (modGroup c sl g f) := fun _ => rfl

theorem arriveFresh_offThreads (t : ThreadId) (pc : DWord) : Same offThreads (arriveFresh t pc) := by
  unfold arriveFresh
  refine same_bind same_getSt fun s => ?_
  split
  · exact same_pure _
  · refine same_bind (modThread_offThreads _ _) fun _ => same_ite (fun _ => ?_) fun _ => same_pure _
    refine same_offThreads ?_
    exact same_bind (freeEntries_off _ _) fun _ => same_bind (freshStamp_off _ _) fun _ =>
      same_bind (joinEntry_off _ _ _ _ _ _ _) fun _ => leaveSerial_off _ _

theorem setFltloc_offThreads (v : Word) : Same offThreads (upd fun s => { s with fltloc := v }) := same_upd fun _ => rfl
theorem msix_offThreads (v : Nat) : Same offThreads (msix v) := same_upd fun _ => rfl

theorem reportHalt_offThreads (th : Thread) (d : Bool) : Same offThreads (reportHalt th d) := by
  unfold reportHalt
  refine same_bind ?_ fun _ => msix_offThreads _
  exact setFltloc_offThreads _

theorem trapEnter_offThreads (t : ThreadId) : Same offThreads (trapEnter t) := by
  unfold trapEnter
  refine same_bind same_getSt fun s => ?_
  split
  · exact same_pure _
  · split
    · exact same_pure _
    · refine same_ite (fun _ => same_pure _) fun _ => same_ite (fun _ => ?_) fun _ =>
        same_ite (fun _ => same_pure _) fun _ => ?_
      · exact same_bind (modThread_offThreads _ _) fun _ => reportHalt_offThreads _ _
      · refine same_bind (modThread_offThreads _ _) fun _ => same_ite (fun _ => ?_) fun _ => ?_
        · exact same_bind (modThread_offThreads _ _) fun _ => arriveFresh_offThreads _ _
        · exact same_bind (modThread_offThreads _ _) fun _ => reportHalt_offThreads _ _

theorem choose_offThreads (n : Nat) : Same offThreads (choose n) := by
  unfold choose
  refine same_ite (fun _ => same_pure _) fun _ => same_bind same_getSt fun s => ?_
  split
  · exact same_pure _
  · exact same_bind (same_upd fun _ => rfl) fun _ => same_pure _

theorem leaveFu_offThreads (t : ThreadId) : Same offThreads (leaveFu t) := by
  unfold leaveFu
  refine same_bind same_getSt fun s => ?_
  split
  · exact same_pure _
  · refine same_forIn fun e _ _ => ?_
    refine same_ite (fun _ => same_bind (choose_offThreads _) fun _ => same_ite (fun _ => ?_) fun _ => same_pure _)
      fun _ => same_pure _
    exact same_bind (modThread_offThreads _ _) fun _ => same_pure _

theorem revive_offThreads (t : ThreadId) : Same offThreads (revive t) := by
  unfold revive
  refine same_bind same_getSt fun s => ?_
  split
  · exact same_pure _
  · exact same_ite (fun _ => same_bind (modThread_offThreads _ _) fun _ => arriveFresh_offThreads _ _) fun _ => same_pure _

theorem raise_offThreads (t : ThreadId) (c : Cause) (q : Bool) (pc : DWord) : Same offThreads (raise t c q pc) := by
  unfold raise
  refine same_bind same_getSt fun s => ?_
  split
  · exact same_pure _
  · exact same_bind (revive_offThreads _) fun _ => same_bind (modGroup_offThreads _ _ _ _) fun _ =>
      same_bind (modThread_offThreads _ _) fun _ => same_bind (leaveFu_offThreads _) fun _ => trapEnter_offThreads _

theorem raiseAll_offThreads (pc : DWord) (bad : List (ThreadId × Cause × Nat)) : Same offThreads (raiseAll pc bad) := by
  unfold raiseAll
  refine same_forIn fun b _ _ => ?_
  refine same_ite (fun _ => same_bind ?_ fun _ => same_pure _) fun _ => same_bind (raise_offThreads _ _ _ _) fun _ => same_pure _
  exact same_bind (modThread_offThreads _ _) fun _ => raise_offThreads _ _ _ _

/-! ### Threads that raise nothing keep their records -/

/-- The record of thread `u`. -/
def recOf (u : ThreadId) (w : Work) : Option Thread := w.st.thread? u

theorem modThread_recOf {t u : ThreadId} (h : t ≠ u) (f : Thread → Thread) (hf : ∀ x, (f x).tid = x.tid) :
    Same (recOf u) (modThread t f) := by
  intro w
  show (w.st.setThread t f).thread? u = _
  rw [thread?_setThread _ _ _ _ hf, if_neg (Ne.symm h)]
  rfl

theorem recOf_of_offQuarters {α : Type} {x : W α} (h : Same offQuarters x) (u : ThreadId) : Same (recOf u) x := by
  intro w
  unfold recOf
  rw [(offQuarters_eq (h w)).1]
  rfl

theorem modGroup_recOf (u : ThreadId) (c sl g : Nat) (f : Group → Group) : Same (recOf u) (modGroup c sl g f) := fun _ => rfl

theorem arriveFresh_recOf {t u : ThreadId} (h : t ≠ u) (pc : DWord) : Same (recOf u) (arriveFresh t pc) := by
  unfold arriveFresh
  refine same_bind same_getSt fun s => ?_
  split
  · exact same_pure _
  · refine same_bind (modThread_recOf h _ fun _ => rfl) fun _ => same_ite (fun _ => ?_) fun _ => same_pure _
    refine recOf_of_offQuarters ?_ u
    exact same_bind (freeEntries_off _ _) fun _ => same_bind (freshStamp_off _ _) fun _ =>
      same_bind (joinEntry_off _ _ _ _ _ _ _) fun _ => leaveSerial_off _ _

theorem setFltloc_recOf (u : ThreadId) (v : Word) : Same (recOf u) (upd fun s => { s with fltloc := v }) := same_upd fun _ => rfl
theorem msix_recOf (u : ThreadId) (v : Nat) : Same (recOf u) (msix v) := same_upd fun _ => rfl

theorem reportHalt_recOf (u : ThreadId) (th : Thread) (d : Bool) : Same (recOf u) (reportHalt th d) := by
  unfold reportHalt
  refine same_bind ?_ fun _ => msix_recOf _ _
  exact setFltloc_recOf _ _

theorem trapEnter_recOf {t u : ThreadId} (h : t ≠ u) : Same (recOf u) (trapEnter t) := by
  unfold trapEnter
  refine same_bind same_getSt fun s => ?_
  split
  · exact same_pure _
  · split
    · exact same_pure _
    · refine same_ite (fun _ => same_pure _) fun _ => same_ite (fun _ => ?_) fun _ =>
        same_ite (fun _ => same_pure _) fun _ => ?_
      · exact same_bind (modThread_recOf h _ fun _ => rfl) fun _ => reportHalt_recOf _ _ _
      · refine same_bind (modThread_recOf h _ fun _ => rfl) fun _ => same_ite (fun _ => ?_) fun _ => ?_
        · exact same_bind (modThread_recOf h _ fun _ => rfl) fun _ => arriveFresh_recOf h _
        · exact same_bind (modThread_recOf h _ fun _ => rfl) fun _ => reportHalt_recOf _ _ _

theorem choose_recOf (u : ThreadId) (n : Nat) : Same (recOf u) (choose n) := by
  unfold choose
  refine same_ite (fun _ => same_pure _) fun _ => same_bind same_getSt fun s => ?_
  split
  · exact same_pure _
  · exact same_bind (same_upd fun _ => rfl) fun _ => same_pure _

theorem leaveFu_recOf {t u : ThreadId} (h : t ≠ u) : Same (recOf u) (leaveFu t) := by
  unfold leaveFu
  refine same_bind same_getSt fun s => ?_
  split
  · exact same_pure _
  · refine same_forIn fun e _ _ => ?_
    refine same_ite (fun _ => same_bind (choose_recOf _ _) fun _ => same_ite (fun _ => ?_) fun _ => same_pure _)
      fun _ => same_pure _
    exact same_bind (modThread_recOf h _ fun _ => rfl) fun _ => same_pure _

theorem revive_recOf {t u : ThreadId} (h : t ≠ u) : Same (recOf u) (revive t) := by
  unfold revive
  refine same_bind same_getSt fun s => ?_
  split
  · exact same_pure _
  · exact same_ite (fun _ => same_bind (modThread_recOf h _ fun _ => rfl) fun _ => arriveFresh_recOf h _) fun _ => same_pure _

theorem raise_recOf {t u : ThreadId} (h : t ≠ u) (c : Cause) (q : Bool) (pc : DWord) : Same (recOf u) (raise t c q pc) := by
  unfold raise
  refine same_bind same_getSt fun s => ?_
  split
  · exact same_pure _
  · exact same_bind (revive_recOf h) fun _ => same_bind (modGroup_recOf _ _ _ _ _) fun _ =>
      same_bind (modThread_recOf h _ fun _ => rfl) fun _ => same_bind (leaveFu_recOf h) fun _ => trapEnter_recOf h

theorem raiseAll_recOf (pc : DWord) (bad : List (ThreadId × Cause × Nat)) (u : ThreadId) (h : ∀ b ∈ bad, b.1 ≠ u) :
    Same (recOf u) (raiseAll pc bad) := by
  unfold raiseAll
  refine same_forIn fun b hb _ => ?_
  refine same_ite (fun _ => same_bind ?_ fun _ => same_pure _) fun _ =>
    same_bind (raise_recOf (h b hb) _ _ _) fun _ => same_pure _
  exact same_bind (modThread_recOf (h b hb) _ fun _ => rfl) fun _ => raise_recOf (h b hb) _ _ _

/-! ### The end of an issue -/

/-- What an issue moves: acting threads to their targets, the others past the word. -/
def Issued.moves (r : Issued) (pc : DWord) (pcOf : Thread → DWord) : List (ThreadId × DWord) :=
  (r.act.map fun x => (x.1.tid, pcOf x.1)) ++ r.pass.map fun t => (t, pc + 8)

/-- The state after the bookkeeping of an issue. -/
def State.noted (s : State) (i : Instr) (r : Issued) : State :=
  ((r.act.map fun x => x.1.tid) ++ r.pass).foldl (fun s t => s.setThread t (issuedRec i (r.act.map (·.1)) t)) s

/-- The state after the bookkeeping and the arrivals of an issue, but for the PC tables. -/
def State.issued (s : State) (i : Instr) (r : Issued) (pcOf : Thread → DWord) : State :=
  (s.noted i r).setPcs (r.moves s.cur.pc pcOf)

theorem noted_quarters (s : State) (i : Instr) (r : Issued) : (s.noted i r).quarters = s.quarters := by
  unfold State.noted
  generalize (r.act.map fun x => x.1.tid) ++ r.pass = l
  induction l generalizing s with
  | nil => rfl
  | cons t l ih => exact (ih _).trans rfl

theorem clearWait_engine (g : IssueGroup) (q : Quarter) : (q.clearWait g).engine = q.engine := by
  unfold Quarter.clearWait
  split <;> rfl

/-- Clearing WAIT and DUE leaves every quarter's engine as it was. -/
theorem quarter_clearWait (s : State) (g : IssueGroup) (q : List Quarter) (c k : Nat) :
    ((s.putQuarters (q.map (Quarter.clearWait g))).quarter c k).engine = ((s.putQuarters q).quarter c k).engine := by
  have key : ∀ x : Quarter, ((x.clearWait g).core, (x.clearWait g).qtr) = (x.core, x.qtr) := by
    intro x; unfold Quarter.clearWait; split <;> rfl
  unfold State.quarter State.putQuarters
  induction q with
  | nil => rfl
  | cons x q ih =>
    have hx := key x
    simp only [Prod.mk.injEq] at hx
    simp only [List.map_cons, List.find?_cons, hx.1, hx.2]
    split
    · exact clearWait_engine g x
    · exact ih

/-- Everything the end of an issue (without YIELD) changes beside raised causes: the bookkeeping of the threads that
issued, their PCs, and PC tables. -/
theorem endIssue_eq (i : Instr) (r : Issued) (pcOf : Thread → DWord) (w : Work) :
    ∃ q, (∀ c k, ((w.st.putQuarters q).quarter c k).engine = (w.st.quarter c k).engine) ∧
      endIssue i r pcOf false w
        = raiseAll w.st.cur.pc r.bad { w with st := (w.st.issued i r pcOf).putQuarters q } := by
  unfold endIssue
  simp only [W.run_bind, W.run_getSt, issuedBy_run, Bool.false_and, Bool.false_eq_true, if_false, List.map_map]
  obtain ⟨q, hq, he⟩ := arrive_eq w.st.curStamp false (w.st.cur.pc + 8)
    (r.moves w.st.cur.pc pcOf) { w with st := w.st.noted i r }
  have hn : ∀ c k, ((w.st.putQuarters q).quarter c k).engine = (w.st.quarter c k).engine := fun c k => (he c k).trans
    (congrArg (fun l => (Option.getD (List.find? _ l) _ : Quarter).engine) (noted_quarters _ _ _))
  have hq' := hq
  simp only [State.noted, Issued.moves] at hq'
  refine ⟨if r.nobody then q else q.map (Quarter.clearWait ((w.st.issued i r pcOf).putQuarters q).cur), fun c k => ?_,
    congrArg (raiseAll w.st.cur.pc r.bad) ?_⟩
  · split
    · exact hn c k
    · exact (quarter_clearWait _ _ _ c k).trans (hn c k)
  · simp only [Function.comp_def]
    rw [hq']
    simp only [State.issued, State.noted, Issued.moves]
    rfl

theorem thread?_setPcs (s : State) (ms : List (ThreadId × DWord)) (u : ThreadId) :
    (s.setPcs ms).thread? u
      = (s.thread? u).map fun y => (ms.filter fun m => m.1 = u).foldl (fun y m => y.goTo m.2) y :=
  thread?_foldl ms (·.1) (fun m y => y.goTo m.2) (fun _ _ => rfl) s u

theorem thread?_noted (s : State) (i : Instr) (r : Issued) (u : ThreadId) :
    (s.noted i r).thread? u
      = (s.thread? u).map fun y => (((r.act.map fun x => x.1.tid) ++ r.pass).filter fun t => t = u).foldl
          (fun y t => issuedRec i (r.act.map (·.1)) t y) y :=
  thread?_foldl ((r.act.map fun x => x.1.tid) ++ r.pass) (fun t => t) (issuedRec i (r.act.map Prod.fst)) (fun _ _ => rfl) s u

/-- Threads of an issue, each once. -/
def Issued.Distinct (r : Issued) : Prop :=
  (((r.act.map fun x => x.1.tid) ++ r.pass) ++ r.bad.map (·.1)).Nodup

theorem Issued.Distinct.moved {r : Issued} (h : r.Distinct) (pc : DWord) (f : Thread → DWord) :
    ((r.moves pc f).map (·.1)).Nodup := by
  have := (List.nodup_append.1 h).1
  simpa [Issued.moves, Function.comp_def] using this

/-- The record of an acting thread after the bookkeeping and the arrivals. -/
theorem issued_act {i : Instr} {r : Issued} {pcOf : Thread → DWord} (h : r.Distinct) {x : Thread × List Nat}
    (hx : x ∈ r.act) (s : State) :
    (s.issued i r pcOf).thread? x.1.tid
      = (s.thread? x.1.tid).map fun y => (issuedRec i (r.act.map (·.1)) x.1.tid y).goTo (pcOf x.1) := by
  have h1 := (List.nodup_append.1 h).1
  have hm : (x.1.tid, pcOf x.1) ∈ r.moves s.cur.pc pcOf :=
    List.mem_append_left _ (List.mem_map.2 ⟨x, hx, rfl⟩)
  have ht : x.1.tid ∈ (r.act.map fun x => x.1.tid) ++ r.pass := List.mem_append_left _ (List.mem_map.2 ⟨x, hx, rfl⟩)
  unfold State.issued
  have h2 := filter_nodup (t := id) (by simpa using h1) ht
  have h3 := filter_nodup (h.moved s.cur.pc pcOf) hm
  simp only [id] at h2 h3
  rw [thread?_setPcs, thread?_noted, h2, h3]
  simp [Function.comp_def]

/-- The record of an acting thread after an issue. -/
theorem endIssue_act {i : Instr} {r : Issued} {pcOf : Thread → DWord} (h : r.Distinct) {x : Thread × List Nat}
    (hx : x ∈ r.act) (w : Work) :
    (endIssue i r pcOf false w).2.st.thread? x.1.tid
      = (w.st.thread? x.1.tid).map fun y => (issuedRec i (r.act.map (·.1)) x.1.tid y).goTo (pcOf x.1) := by
  obtain ⟨q, -, he⟩ := endIssue_eq i r pcOf w
  rw [he, ← issued_act h hx]
  refine raiseAll_recOf w.st.cur.pc r.bad x.1.tid (fun b hb e => ?_)
    { w with st := (w.st.issued i r pcOf).putQuarters q }
  exact (List.nodup_append.1 h).2.2 _ (List.mem_append_left _ (List.mem_map.2 ⟨x, hx, rfl⟩)) _
    (List.mem_map.2 ⟨b, hb, rfl⟩) e.symm

/-- A thread that neither issues nor raises keeps its record. -/
theorem endIssue_other {i : Instr} {r : Issued} {pcOf : Thread → DWord} {u : ThreadId}
    (ha : ∀ x ∈ r.act, x.1.tid ≠ u) (hp : u ∉ r.pass) (hb : ∀ b ∈ r.bad, b.1 ≠ u) (w : Work) :
    (endIssue i r pcOf false w).2.st.thread? u = w.st.thread? u := by
  obtain ⟨q, -, he⟩ := endIssue_eq i r pcOf w
  rw [he]
  refine (raiseAll_recOf w.st.cur.pc r.bad u hb { w with st := (w.st.issued i r pcOf).putQuarters q }).trans ?_
  show (w.st.issued i r pcOf).thread? u = _
  unfold State.issued
  rw [thread?_setPcs, thread?_noted]
  have h1 : ((r.moves w.st.cur.pc pcOf).filter fun m => m.1 = u) = [] := by
    simp only [Issued.moves, List.filter_eq_nil_iff, List.mem_append, List.mem_map, decide_eq_true_eq]
    rintro _ (⟨x, hx, rfl⟩ | ⟨t, ht, rfl⟩)
    · exact ha x hx
    · exact fun e => hp (e ▸ ht)
  have h2 : (((r.act.map fun x => x.1.tid) ++ r.pass).filter fun t => t = u) = [] := by
    simp only [List.filter_eq_nil_iff, List.mem_append, List.mem_map, decide_eq_true_eq]
    rintro _ (⟨x, hx, rfl⟩ | ht)
    · exact ha x hx
    · exact fun e => hp (e ▸ ht)
  rw [h1, h2]
  simp

/-- The end of an issue changes threads, group masks, PC tables, FLTLOC and messages to the host only. -/
theorem endIssue_offThreads (i : Instr) (r : Issued) (pcOf : Thread → DWord) :
    Same offThreads (endIssue i r pcOf false) := by
  intro w
  obtain ⟨q, hq, he⟩ := endIssue_eq i r pcOf w
  rw [he]
  refine (raiseAll_offThreads _ _ _).trans (Prod.ext ?_ (funext fun c => funext fun k => hq c k))
  show ({ w with st := (w.st.issued i r pcOf).bare } : Work) = { w with st := w.st.bare }
  unfold State.issued State.setPcs State.noted
  rw [bare_foldl]
  exact congrArg (fun b => ({ w with st := b } : Work)) (bare_foldl _ (fun t => t) (issuedRec i (r.act.map Prod.fst)) w.st)

end Sys2Proof.Machine
end

