-- ==== Sys2Proof/Laws/Check.lean ====
section
/-!
SUPPORT. What the checks of an issue answer (R53, R182): the threads of the issue group, each once, parted into those that
act, those whose guard is false and those that raise a cause; and what a queue operand changes.
-/
namespace Sys2Proof.Machine

theorem thread?_tid {s : State} {t : ThreadId} {th : Thread} (h : s.thread? t = some th) : th.tid = t := by
  simpa using List.find?_some h

theorem curThreads_tids (s : State) : List.Sublist (s.curThreads.map Thread.tid) s.cur.threads := by
  unfold State.curThreads
  generalize s.cur.threads = l
  induction l with
  | nil => exact List.Sublist.refl _
  | cons t l ih =>
    rw [List.filterMap_cons]
    split
    · exact ih.trans (List.sublist_cons_self _ _)
    · rename_i th h
      rw [List.map_cons, thread?_tid h]
      exact ih.cons_cons t

theorem curThreads_nodup {s : State} (h : s.cur.threads.Nodup) : (s.curThreads.map Thread.tid).Nodup :=
  (curThreads_tids s).nodup h

theorem mem_curThreads {s : State} {th : Thread} (h : th ∈ s.curThreads) : s.thread? th.tid = some th := by
  obtain ⟨t, -, ht⟩ := List.mem_filterMap.1 h
  rw [thread?_tid ht, ht]

/-! ### Queues -/

/-- What a queue operand may change: the queues of teams, and threads that stop waiting, or wait, for a queue. -/
def queuePart (w : Work) : Work × List Thread :=
  ({ w with st := { w.st with teams := [], threads := [] } }, w.st.threads.map fun t => { t with wait := .ready })

theorem modQueueOf_part (c sl k : Nat) (f : List (List (Option Word)) → List (List (Option Word))) :
    Same queuePart (modQueueOf c sl k f) := fun _ => rfl

theorem wakeQueues_part (c sl : Nat) : Same queuePart (wakeQueues c sl) := by
  intro w
  refine Prod.ext rfl ?_
  show List.map _ (List.map _ _) = _
  rw [List.map_map]
  refine List.map_congr_left fun t _ => ?_
  simp only [Function.comp_apply]
  split <;> rfl

theorem park_part (t : ThreadId) (x : Wait) : Same queuePart (park t x) := by
  intro w
  refine Prod.ext rfl ?_
  show List.map _ (List.map _ _) = _
  rw [List.map_map]
  refine List.map_congr_left fun t _ => ?_
  simp only [Function.comp_apply]
  split <;> rfl

theorem popQueue_part (c sl k : Nat) : Same queuePart (popQueue c sl k) := by
  unfold popQueue
  exact same_bind same_getSt fun _ => same_bind (modQueueOf_part _ _ _ _) fun _ =>
    same_bind (wakeQueues_part _ _) fun _ => same_pure _

theorem pushQueue_part (c sl k : Nat) (vals : List (Nat × Word)) : Same queuePart (pushQueue c sl k vals) := by
  unfold pushQueue
  exact same_bind same_getSt fun _ => same_bind (modQueueOf_part _ _ _ _) fun _ => wakeQueues_part _ _

theorem groupQueues_part (u : Uses) (c : Nat) (k : Nat × Nat) (n : Nat) (ts : List Thread) :
    Same queuePart (groupQueues u c k n ts) := by
  unfold groupQueues
  refine same_bind same_getSt fun s => ?_
  split
  · exact same_pure _
  · refine same_ite (fun _ => ?_) fun _ => ?_
    · exact same_bind (same_forIn fun _ _ _ => same_bind (park_part _ _) fun _ => same_pure _) fun _ => same_pure _
    · exact same_bind (same_forIn fun _ _ _ => same_bind (popQueue_part _ _ _) fun _ => same_pure _) fun _ => same_pure _

theorem checkIssue_part (i : Instr) : Same queuePart (checkIssue i) := by
  unfold checkIssue
  refine same_bind same_getSt fun s => ?_
  dsimp only
  refine same_ite (fun _ => same_pure _) fun _ => ?_
  exact same_bind (same_forIn fun _ _ _ => same_bind (groupQueues_part _ _ _ _ _) fun _ => same_pure _) fun _ => same_pure _

/-- A group's queue operands answer for no thread or for every thread of the group. -/
theorem groupQueues_threads (u : Uses) (c : Nat) (k : Nat × Nat) (n : Nat) (ts : List Thread) (w : Work) :
    (groupQueues u c k n ts w).1 = [] ∨ (groupQueues u c k n ts w).1.map (·.1) = ts := by
  unfold groupQueues
  rw [W.run_bind, W.run_getSt]
  dsimp only
  cases w.st.team? c k.1 with
  | none => exact .inl rfl
  | some tm =>
    dsimp only
    rw [W.run_ite]
    split
    · exact .inl rfl
    · refine .inr ?_
      rw [W.run_bind]
      simp [Function.comp_def]

theorem nodup_eraseDups {α : Type} [BEq α] [LawfulBEq α] (n : Nat) (l : List α) (h : l.length ≤ n) : l.eraseDups.Nodup := by
  induction n generalizing l with
  | zero => simp_all [List.length_eq_zero_iff.1 (Nat.le_zero.1 h)]
  | succ n ih =>
    cases l with
    | nil => simp
    | cons a as =>
      rw [List.eraseDups_cons, List.nodup_cons]
      refine ⟨by simp [List.mem_eraseDups], ih _ ?_⟩
      exact Nat.le_trans (List.length_filter_le _ _) (by simpa using h)

theorem inj_of_nodup_map {α β : Type} {f : α → β} {l : List α} (h : (l.map f).Nodup) {x y : α} (hx : x ∈ l) (hy : y ∈ l)
    (e : f x = f y) : x = y := by
  induction l with
  | nil => simp at hx
  | cons a l ih =>
    rw [List.map_cons, List.nodup_cons] at h
    rcases List.mem_cons.1 hx with h1 | h1 <;> rcases List.mem_cons.1 hy with h2 | h2
    · rw [h1, h2]
    · exact absurd (h1 ▸ e ▸ List.mem_map_of_mem h2) h.1
    · exact absurd (h2 ▸ e ▸ List.mem_map_of_mem h1) h.1
    · exact ih h.2 h1 h2

theorem groupsOf_nodup (ts : List Thread) : (groupsOf ts).Nodup := by
  unfold groupsOf
  dsimp only
  refine List.pairwise_flatMap.2 ⟨fun g _ => (nodup_eraseDups _ _ (Nat.le_refl _)).filter _, ?_⟩
  refine List.pairwise_lt_range.imp fun {a b} hab x hx y hy => ?_
  simp only [List.mem_filter, decide_eq_true_eq] at hx hy
  intro e
  subst e
  omega

/-- Threads that the checks let through. -/
def State.passed (s : State) (i : Instr) : List Thread :=
  s.curThreads.filter fun t => (runCause s i (usesOf i) t).isNone
    && (guardTrue (guardOf i) t && (decodeCause s i (usesOf i) t).isNone)

/-- The acting threads of an issue are threads that the checks let through, each once. -/
theorem queueLoop_threads (u : Uses) (c : Nat) (ah : List (Thread × List Nat) → Nat × Nat → Nat) (ts : List Thread) (hts : (ts.map Thread.tid).Nodup)
    (ks : List (Nat × Nat)) (hk : ks.Nodup) (init : List (Thread × List Nat)) (w : Work) :
    ∃ l, (forIn ks init (fun k acc => (do
        let x ← groupQueues u c k (ah acc k) (ts.filter fun t => (t.slot, t.grp) = k)
        pure (ForInStep.yield (acc ++ x)) : W _)) : W _) w
          = (init ++ l, ((forIn ks init (fun k acc => (do
        let x ← groupQueues u c k (ah acc k) (ts.filter fun t => (t.slot, t.grp) = k)
        pure (ForInStep.yield (acc ++ x)) : W _)) : W _) w).2) ∧
      (∀ x ∈ l, x.1 ∈ ts ∧ (x.1.slot, x.1.grp) ∈ ks) ∧ (l.map fun x => x.1.tid).Nodup := by
  induction ks generalizing init w with
  | nil => exact ⟨[], by simp, by simp, by simp⟩
  | cons k ks ih =>
    rw [List.nodup_cons] at hk
    rw [W.forIn_cons]
    simp only [W.run_bind, W.run_pure]
    have hq := groupQueues_threads u c k (ah init k) (ts.filter fun t => (t.slot, t.grp) = k) w
    generalize groupQueues u c k (ah init k) (ts.filter fun t => (t.slot, t.grp) = k) w = r at hq ⊢
    obtain ⟨l, he, hm, hn⟩ := ih hk.2 (init ++ r.1) r.2
    have hr : ∀ x ∈ r.1, x.1 ∈ ts ∧ (x.1.slot, x.1.grp) = k := by
      intro x hx
      rcases hq with h | h
      · simp [h] at hx
      · have : x.1 ∈ r.1.map (·.1) := List.mem_map.2 ⟨x, hx, rfl⟩
        rw [h] at this
        simpa using List.mem_filter.1 this
    have hrn : (r.1.map fun x => x.1.tid).Nodup := by
      rcases hq with h | h
      · simp [h]
      · have : (r.1.map fun x => x.1.tid) = (r.1.map (·.1)).map Thread.tid := by simp
        rw [this, h]
        exact (List.Sublist.map _ List.filter_sublist).nodup hts
    refine ⟨r.1 ++ l, ?_, ?_, ?_⟩
    · rw [he, List.append_assoc]
    · intro x hx
      rcases List.mem_append.1 hx with hx | hx
      · exact ⟨(hr x hx).1, by simp [(hr x hx).2]⟩
      · exact ⟨(hm x hx).1, List.mem_cons_of_mem _ (hm x hx).2⟩
    · rw [List.map_append]
      refine List.nodup_append.2 ⟨hrn, hn, ?_⟩
      intro a ha b hb e
      obtain ⟨x, hx, rfl⟩ := List.mem_map.1 ha
      obtain ⟨y, hy, rfl⟩ := List.mem_map.1 hb
      have hxy : x.1 = y.1 := by
        have h1 := (hr x hx).1
        have h2 := (hm y hy).1
        exact inj_of_nodup_map hts h1 h2 e
      exact hk.1 ((hr x hx).2 ▸ hxy ▸ (hm y hy).2)

theorem filterMap_tids (ts : List Thread) (f : Thread → Option (Cause × Nat)) :
    ((ts.filterMap fun t => (f t).map fun c => (t.tid, c.1, c.2)).map (·.1))
      = (ts.filter fun t => (f t).isSome).map Thread.tid := by
  induction ts with
  | nil => rfl
  | cons t ts ih => cases h : f t <;> simp_all

/-- Lists of thread numbers that come from different threads of a list without repeats are without repeats together. -/
theorem parts_nodup {ts : List Thread} (h : (ts.map Thread.tid).Nodup) {A B C D : List Thread}
    (hA : (A.map Thread.tid).Nodup) (hB : List.Sublist B ts) (hC : List.Sublist C ts) (hD : List.Sublist D ts)
    (hAt : ∀ x ∈ A, x ∈ ts) (hAB : ∀ x ∈ A, x ∉ B) (hAC : ∀ x ∈ A, x ∉ C) (hAD : ∀ x ∈ A, x ∉ D) (hBC : ∀ x ∈ B, x ∉ C)
    (hBD : ∀ x ∈ B, x ∉ D) (hCD : ∀ x ∈ C, x ∉ D) :
    ((A.map Thread.tid ++ B.map Thread.tid) ++ (C.map Thread.tid ++ D.map Thread.tid)).Nodup := by
  have key : ∀ (X Y : List Thread), (∀ x ∈ X, x ∈ ts) → (∀ x ∈ Y, x ∈ ts) → (∀ x ∈ X, x ∉ Y) →
      ∀ a ∈ X.map Thread.tid, ∀ b ∈ Y.map Thread.tid, a ≠ b := by
    intro X Y hX hY hXY a ha b hb e
    obtain ⟨x, hx, rfl⟩ := List.mem_map.1 ha
    obtain ⟨y, hy, rfl⟩ := List.mem_map.1 hb
    exact hXY x hx (inj_of_nodup_map h (hX x hx) (hY y hy) e ▸ hy)
  have nd : ∀ X : List Thread, List.Sublist X ts → (X.map Thread.tid).Nodup := fun X hX => (hX.map _).nodup h
  refine List.nodup_append.2 ⟨List.nodup_append.2 ⟨hA, nd B hB, key A B hAt (fun _ m => hB.mem m) hAB⟩,
    List.nodup_append.2 ⟨nd C hC, nd D hD, key C D (fun _ m => hC.mem m) (fun _ m => hD.mem m) hCD⟩, ?_⟩
  intro a ha b hb
  rcases List.mem_append.1 ha with ha | ha <;> rcases List.mem_append.1 hb with hb | hb
  · exact key A C hAt (fun _ m => hC.mem m) hAC a ha b hb
  · exact key A D hAt (fun _ m => hD.mem m) hAD a ha b hb
  · exact key B C (fun _ m => hB.mem m) (fun _ m => hC.mem m) hBC a ha b hb
  · exact key B D (fun _ m => hB.mem m) (fun _ m => hD.mem m) hBD a ha b hb

/-- What the checks answer: acting threads are let through; threads whose guard is false pass; the others raise; and each
thread of the issue group occurs once. PFETCH, which drops its run-time causes, is left out. -/
theorem checkIssue_spec (i : Instr) (hd : dropsCauses i = false) (w : Work) (h : w.st.cur.threads.Nodup) :
    let r := (checkIssue i w).1
    r.Distinct ∧ (∀ x ∈ r.act, x.1 ∈ w.st.passed i) ∧
      r.pass = (w.st.curThreads.filter fun t => !guardTrue (guardOf i) t && (decodeCause w.st i (usesOf i) t).isNone).map
        Thread.tid ∧
      r.bad = (w.st.curThreads.filterMap fun t => (decodeCause w.st i (usesOf i) t).map fun c => (t.tid, c.1, c.2)) ++
        (w.st.curThreads.filter fun t => guardTrue (guardOf i) t && (decodeCause w.st i (usesOf i) t).isNone).filterMap
          fun t => (runCause w.st i (usesOf i) t).map fun c => (t.tid, c.1, c.2) := by
  have hts := curThreads_nodup h
  have hall : ∀ act : List (Thread × List Nat), (act.map fun x => x.1.tid).Nodup → (∀ x ∈ act, x.1 ∈ w.st.passed i) →
      Issued.Distinct
        { act
          pass := (w.st.curThreads.filter fun t => !guardTrue (guardOf i) t && (decodeCause w.st i (usesOf i) t).isNone).map
            Thread.tid
          bad := (w.st.curThreads.filterMap fun t => (decodeCause w.st i (usesOf i) t).map fun c => (t.tid, c.1, c.2)) ++
            (w.st.curThreads.filter fun t => guardTrue (guardOf i) t && (decodeCause w.st i (usesOf i) t).isNone).filterMap
              fun t => (runCause w.st i (usesOf i) t).map fun c => (t.tid, c.1, c.2) } := by
    intro act hn hp
    unfold Issued.Distinct
    dsimp only
    rw [List.map_append, filterMap_tids, filterMap_tids]
    have e : (act.map fun x => x.1.tid) = (act.map (·.1)).map Thread.tid := by simp
    rw [e] at hn ⊢
    have hp' : ∀ x ∈ act.map (·.1), x ∈ w.st.passed i := by
      intro x hx
      obtain ⟨y, hy, rfl⟩ := List.mem_map.1 hx
      exact hp y hy
    refine parts_nodup hts hn List.filter_sublist List.filter_sublist
      (List.filter_sublist.trans List.filter_sublist) (fun x hx => (List.mem_filter.1 (hp' x hx)).1) ?_ ?_ ?_ ?_ ?_ ?_
    · intro x hx hy
      have h1 := (List.mem_filter.1 (hp' x hx)).2
      have h2 := (List.mem_filter.1 hy).2
      simp_all
    · intro x hx hy
      have h1 := (List.mem_filter.1 (hp' x hx)).2
      have h2 := (List.mem_filter.1 hy).2
      simp only [Bool.and_eq_true, Option.isNone_iff_eq_none] at h1
      simp [h1] at h2
    · intro x hx hy
      have h1 := (List.mem_filter.1 (hp' x hx)).2
      have h2 := (List.mem_filter.1 hy).2
      simp only [Bool.and_eq_true, Option.isNone_iff_eq_none] at h1
      simp [h1] at h2
    · intro x hx hy
      have h1 := (List.mem_filter.1 hx).2
      have h2 := (List.mem_filter.1 hy).2
      simp only [Bool.and_eq_true, Option.isNone_iff_eq_none] at h1
      simp [h1] at h2
    · intro x hx hy
      have h1 := (List.mem_filter.1 hx).2
      have h2 := (List.mem_filter.1 (List.mem_filter.1 hy).1).2
      simp_all
    · intro x hx hy
      have h1 := (List.mem_filter.1 hx).2
      have h2 := (List.mem_filter.1 (List.mem_filter.1 hy).1).2
      simp only [Bool.and_eq_true, Option.isNone_iff_eq_none] at h2
      simp [h2] at h1
  unfold checkIssue
  simp only [W.run_bind, W.run_getSt, hd, Bool.false_eq_true, if_false, List.append_nil]
  rw [W.run_ite]
  split
  · simp only [W.run_pure, List.filter_filter]
    refine ⟨hall _ ?_ ?_, ?_, trivial, trivial⟩
    · simp only [List.map_map, Function.comp_def]
      exact (List.filter_sublist.map _).nodup hts
    all_goals
      intro x hx
      obtain ⟨t, ht, rfl⟩ := List.mem_map.1 hx
      exact ht
  · simp only [W.run_bind, W.run_pure, List.filter_filter]
    obtain ⟨l, he, hm, hn⟩ := queueLoop_threads (usesOf i) w.st.cur.core
      (fun acc k => ((groupsOf (acc.map (·.1))).filter fun g => g.1 = k.1).length) (w.st.passed i)
      ((List.filter_sublist.map _).nodup hts) (groupsOf (w.st.passed i)) (groupsOf_nodup _) [] w
    have e := congrArg Prod.fst he
    simp only [List.nil_append, State.passed, List.filter_filter] at e
    rw [e]
    exact ⟨hall _ hn fun x hx => (hm x hx).1, fun x hx => (hm x hx).1, trivial, trivial⟩

end Sys2Proof.Machine
end

