-- ==== Sys2Proof/Laws/Mem.lean ====
section
/-!
SUPPORT. Memory: a read after a write, the canonical form through every operation, and what the end of a step makes of
the effects it has logged.
-/
namespace Sys2Proof.Machine

/-! ### One byte -/

theorem memGet_memPut_same (gen : Nat) (m : List Host.Cell) (a : Nat) (v : Byte) (lo : Nat) (h : memWfFrom gen lo m = true) :
    memGet gen (memPut (memDefault gen a) m a v) a = v := by
  induction m generalizing lo with
  | nil => unfold memPut; split <;> simp_all [memGet]
  | cons c r ih =>
    obtain ⟨k, x⟩ := c
    simp only [memWfFrom, Bool.and_eq_true, decide_eq_true_eq] at h
    have hr : ∀ (r : List Host.Cell) (n : Nat), a < n → memWfFrom gen n r = true → memGet gen r a = memDefault gen a := by
      intro r
      induction r with
      | nil => intros; rfl
      | cons c r ih =>
        intro n hn hw
        simp only [memWfFrom, Bool.and_eq_true, decide_eq_true_eq] at hw
        unfold memGet
        rw [if_neg (by omega), ih (c.1 + 1) (by omega) hw.2]
    unfold memPut
    split
    · unfold memGet
      rw [if_neg (by omega), ih _ h.2]
    · split
      · subst_vars
        split
        · rw [hr r (k + 1) (by omega) h.2]; simp_all
        · simp [memGet]
      · split
        · subst_vars
          unfold memGet
          rw [if_neg (by omega), hr r (k + 1) (by omega) h.2]
        · simp [memGet]

theorem memGet_memPut_ne (gen : Nat) (m : List Host.Cell) (d : Byte) (a b : Nat) (v : Byte) (h : b ≠ a) :
    memGet gen (memPut d m a v) b = memGet gen m b := by
  induction m with
  | nil => unfold memPut; split <;> simp [memGet, Ne.symm h]
  | cons c r ih =>
    obtain ⟨k, x⟩ := c
    unfold memPut
    split
    · simp only [memGet, ih]
    · split
      · subst_vars
        split <;> simp [memGet, Ne.symm h]
      · split <;> simp [memGet, Ne.symm h]

/-! ### The canonical form -/

theorem memWfFrom_mono (gen : Nat) {lo lo' : Nat} (h : lo' ≤ lo) (m : List Host.Cell) (hm : memWfFrom gen lo m = true) :
    memWfFrom gen lo' m = true := by
  cases m with
  | nil => rfl
  | cons c r =>
    simp only [memWfFrom, Bool.and_eq_true, decide_eq_true_eq] at hm ⊢
    exact ⟨⟨by omega, hm.1.2⟩, hm.2⟩

theorem memPut_wf (gen a : Nat) (v : Byte) (m : List Host.Cell) (lo : Nat) (h : memWfFrom gen lo m = true) (ha : lo ≤ a) :
    memWfFrom gen lo (memPut (memDefault gen a) m a v) = true := by
  induction m generalizing lo with
  | nil => unfold memPut; split <;> simp_all [memWfFrom]
  | cons c r ih =>
    obtain ⟨k, x⟩ := c
    simp only [memWfFrom, Bool.and_eq_true, decide_eq_true_eq] at h
    unfold memPut
    split
    · simp only [memWfFrom, Bool.and_eq_true, decide_eq_true_eq]
      exact ⟨h.1, ih _ h.2 (by omega)⟩
    · split
      · subst_vars
        split
        · exact memWfFrom_mono gen (by omega) r h.2
        · simp_all [memWfFrom]
      · split
        · simp_all [memWfFrom]
        · simp only [memWfFrom, Bool.and_eq_true, decide_eq_true_eq]
          exact ⟨⟨ha, ‹_›⟩, ⟨by omega, h.1.2⟩, h.2⟩

theorem memWfFrom_filter (gen : Nat) (p : Host.Cell → Bool) (m : List Host.Cell) (lo : Nat) (h : memWfFrom gen lo m = true) :
    memWfFrom gen lo (m.filter p) = true := by
  induction m generalizing lo with
  | nil => rfl
  | cons c r ih =>
    simp only [memWfFrom, Bool.and_eq_true, decide_eq_true_eq] at h
    rw [List.filter_cons]
    split
    · simp only [memWfFrom, Bool.and_eq_true, decide_eq_true_eq]
      exact ⟨h.1, ih _ h.2⟩
    · exact memWfFrom_mono gen (by omega) _ (ih _ h.2)

theorem memApply_wf (gen : Nat) (m : List Host.Cell) (o : MemOp) (h : memWf gen m = true) :
    memWf gen (memApply gen m o) = true := by
  cases o with
  | byte a v => exact memPut_wf gen a v m 0 h (Nat.zero_le _)
  | clear a n => exact memWfFrom_filter gen _ m 0 h

theorem memCommit_wf (gen : Nat) (m : List Host.Cell) (log : List MemOp) (h : memWf gen m = true) :
    memWf gen (memCommit gen m log) = true := by
  induction log with
  | nil => exact h
  | cons o l ih => exact memApply_wf gen _ o ih

/-! ### Reads after the effects of a step -/

theorem memDefault_off {gen a : Nat} (h : isDevice a = false) : memDefault gen a = 0 := by
  unfold memDefault
  split
  · rfl
  · simp [h]

theorem memGet_filter_drop (gen : Nat) (p : Host.Cell → Bool) (m : List Host.Cell) (a : Nat)
    (hp : ∀ v, p (a, v) = false) : memGet gen (m.filter p) a = memDefault gen a := by
  induction m with
  | nil => rfl
  | cons c r ih =>
    obtain ⟨k, v⟩ := c
    rw [List.filter_cons]
    split
    · have : k ≠ a := fun e => by subst e; simp_all
      simp [memGet, this, ih]
    · exact ih

theorem memGet_filter_keep (gen : Nat) (p : Host.Cell → Bool) (m : List Host.Cell) (a : Nat)
    (hp : ∀ v, p (a, v) = true) : memGet gen (m.filter p) a = memGet gen m a := by
  induction m with
  | nil => rfl
  | cons c r ih =>
    obtain ⟨k, v⟩ := c
    rw [List.filter_cons]
    by_cases hk : k = a
    · subst hk
      simp [hp, memGet]
    · split
      · simp [memGet, hk, ih]
      · simp [memGet, hk, ih]

/-- A byte after the effects of a step is what the step saw there. -/
theorem memGet_memCommit (gen : Nat) (m : List Host.Cell) (log : List MemOp) (h : memWf gen m = true) (a : Nat) :
    memGet gen (memCommit gen m log) a = memView gen m log a := by
  induction log with
  | nil => rfl
  | cons o l ih =>
    cases o with
    | byte k v =>
      simp only [memCommit, memApply, memView]
      by_cases hk : k = a
      · subst hk
        rw [if_pos rfl]
        exact memGet_memPut_same gen _ k v 0 (memCommit_wf gen m l h)
      · rw [if_neg hk, memGet_memPut_ne _ _ _ _ _ _ (Ne.symm hk), ih]
    | clear k n =>
      simp only [memCommit, memApply, memView]
      by_cases hk : k ≤ a ∧ a < k + n ∧ isDevice a = false
      · have hd : memDefault gen a = 0 := memDefault_off hk.2.2
        rw [memGet_filter_drop gen _ _ a (by simp [hk])]
        simp [hk, hd]
      · rw [memGet_filter_keep gen _ _ a (by intro v; cases hd : isDevice a <;> simp_all; omega), ih]
        rw [if_neg (by simpa using hk)]

/-! ### The end of a step -/

/-- A step that logs no effect on memory and renews no key leaves the state it has worked on. -/
theorem finish_quiet {s : State} {w : Work} (hl : w.log = []) (hr : w.rekey = false) (hm : w.st.mem = s.mem)
    (hs : w.st.sec.keyGen = s.sec.keyGen) : finish s w = w.st := by
  unfold finish
  rw [hl, hr]
  simp only [Bool.toNat_false, Nat.add_zero, Bool.false_eq_true, if_false, memCommit, ← hm, ← hs]

/-- A byte after a step that renews no key. -/
theorem finish_byte {s : State} {w : Work} (h : s.memOk = true) (hr : w.rekey = false) (a : Nat) :
    (finish s w).byte a = memView s.sec.keyGen s.mem w.log a := by
  unfold State.byte finish
  rw [hr]
  simp only [Bool.toNat_false, Nat.add_zero, Bool.false_eq_true, if_false]
  exact memGet_memCommit _ _ _ h a

theorem hostOnly_wf (gen gen' : Nat) (m : List Host.Cell) (lo : Nat) (h : memWfFrom gen lo m = true) :
    memWfFrom gen' lo (m.filter fun c => isHost c.1) = true := by
  induction m generalizing lo with
  | nil => rfl
  | cons c r ih =>
    simp only [memWfFrom, Bool.and_eq_true, decide_eq_true_eq] at h
    rw [List.filter_cons]
    split
    next hh =>
      have hh : hostBase ≤ c.1 := of_decide_eq_true hh
      have hd : isDevice c.1 = false := by
        refine decide_eq_false ?_
        unfold hostBase at hh
        omega
      simp only [memWfFrom, Bool.and_eq_true, decide_eq_true_eq]
      refine ⟨⟨h.1.1, ?_⟩, ih _ h.2⟩
      rw [memDefault_off hd]
      rw [memDefault_off hd] at h
      exact h.1.2
    next => exact memWfFrom_mono gen' (by omega) _ (ih _ h.2)

/-- The end of every step keeps the canonical form of memory. -/
theorem finish_memOk (s : State) (w : Work) (h : s.memOk = true) : (finish s w).memOk = true := by
  unfold State.memOk finish
  refine memCommit_wf _ _ _ ?_
  split
  · exact hostOnly_wf s.sec.keyGen _ s.mem 0 h
  next hr =>
    simp only [Bool.not_eq_true] at hr
    rw [hr]
    exact h

/-- Every meaning that runs goes on to a next state, and keeps the canonical form. -/
theorem run_memOk (b : W Unit) (s t : State) (h : s.memOk = true) (ht : run b s = .next t) : t.memOk = true := by
  cases ht
  exact finish_memOk _ _ h

end Sys2Proof.Machine
end

