-- ==== Sys2Proof/Laws/PerInstr.lean ====
section
/-!
SUPPORT. The family `WellFormed`: each constructor and its encoding name each other, one lemma per constructor.
-/
namespace Sys2Proof.Laws.WellFormed

/-- The form and opcode of `i` have requirements in their table, fit their field, and build `i` from its fields again;
a step of the device has no encoding. -/
def Statement (i : Instr) : Prop :=
  match form i with
  | .f op w => op < 512 ∧ (fReq op).isSome = true ∧ mkF op w = some i
  | .m op w => op < 512 ∧ fReq op = none ∧ (mReq op).isSome = true ∧ mkM op w = some i
  | .i op w => op < 128 ∧ (iReq op).isSome = true ∧ mkI op w = some i
  | .p w => i = .pairWord w
  | .e op w => op < 256 ∧ (eReq op).isSome = true ∧ mkE op w = some i
  | .step => encode i = none ∧ i.wf = stepOk i

theorem iadd w : Statement (.iadd w) := ⟨by decide, rfl, rfl⟩
theorem isub w : Statement (.isub w) := ⟨by decide, rfl, rfl⟩
theorem imul w : Statement (.imul w) := ⟨by decide, rfl, rfl⟩
theorem imulhi w : Statement (.imulhi w) := ⟨by decide, rfl, rfl⟩
theorem imulw w : Statement (.imulw w) := ⟨by decide, rfl, rfl⟩
theorem imad w : Statement (.imad w) := ⟨by decide, rfl, rfl⟩
theorem imin w : Statement (.imin w) := ⟨by decide, rfl, rfl⟩
theorem imax w : Statement (.imax w) := ⟨by decide, rfl, rfl⟩
theorem iabsd w : Statement (.iabsd w) := ⟨by decide, rfl, rfl⟩
theorem idot4 w : Statement (.idot4 w) := ⟨by decide, rfl, rfl⟩
theorem andW w : Statement (.andW w) := ⟨by decide, rfl, rfl⟩
theorem orW w : Statement (.orW w) := ⟨by decide, rfl, rfl⟩
theorem xorW w : Statement (.xorW w) := ⟨by decide, rfl, rfl⟩
theorem andn w : Statement (.andn w) := ⟨by decide, rfl, rfl⟩
theorem shl w : Statement (.shl w) := ⟨by decide, rfl, rfl⟩
theorem shr w : Statement (.shr w) := ⟨by decide, rfl, rfl⟩
theorem sar w : Statement (.sar w) := ⟨by decide, rfl, rfl⟩
theorem fshf w : Statement (.fshf w) := ⟨by decide, rfl, rfl⟩
theorem bfe w : Statement (.bfe w) := ⟨by decide, rfl, rfl⟩
theorem bfi w : Statement (.bfi w) := ⟨by decide, rfl, rfl⟩
theorem popc w : Statement (.popc w) := ⟨by decide, rfl, rfl⟩
theorem clz w : Statement (.clz w) := ⟨by decide, rfl, rfl⟩
theorem brev w : Statement (.brev w) := ⟨by decide, rfl, rfl⟩
theorem prmt w : Statement (.prmt w) := ⟨by decide, rfl, rfl⟩
theorem isetp w : Statement (.isetp w) := ⟨by decide, rfl, rfl⟩
theorem psetp w : Statement (.psetp w) := ⟨by decide, rfl, rfl⟩
theorem sel w : Statement (.sel w) := ⟨by decide, rfl, rfl⟩
theorem mov w : Statement (.mov w) := ⟨by decide, rfl, rfl⟩
theorem lea w : Statement (.lea w) := ⟨by decide, rfl, rfl⟩
theorem iaddc w : Statement (.iaddc w) := ⟨by decide, rfl, rfl⟩
theorem movix w : Statement (.movix w) := ⟨by decide, rfl, rfl⟩
theorem fadd w : Statement (.fadd w) := ⟨by decide, rfl, rfl⟩
theorem fsub w : Statement (.fsub w) := ⟨by decide, rfl, rfl⟩
theorem fmul w : Statement (.fmul w) := ⟨by decide, rfl, rfl⟩
theorem ffma w : Statement (.ffma w) := ⟨by decide, rfl, rfl⟩
theorem fmin w : Statement (.fmin w) := ⟨by decide, rfl, rfl⟩
theorem fmax w : Statement (.fmax w) := ⟨by decide, rfl, rfl⟩
theorem fsgn w : Statement (.fsgn w) := ⟨by decide, rfl, rfl⟩
theorem fsetp w : Statement (.fsetp w) := ⟨by decide, rfl, rfl⟩
theorem fclass w : Statement (.fclass w) := ⟨by decide, rfl, rfl⟩
theorem frnd w : Statement (.frnd w) := ⟨by decide, rfl, rfl⟩
theorem fscale w : Statement (.fscale w) := ⟨by decide, rfl, rfl⟩
theorem fxtr w : Statement (.fxtr w) := ⟨by decide, rfl, rfl⟩
theorem fdot2 w : Statement (.fdot2 w) := ⟨by decide, rfl, rfl⟩
theorem cvt w : Statement (.cvt w) := ⟨by decide, rfl, rfl⟩
theorem pack w : Statement (.pack w) := ⟨by decide, rfl, rfl⟩
theorem unpk w : Statement (.unpk w) := ⟨by decide, rfl, rfl⟩
theorem pairWord w : Statement (.pairWord w) := rfl
theorem movi w : Statement (.movi w) := ⟨by decide, rfl, rfl⟩
theorem iaddi w : Statement (.iaddi w) := ⟨by decide, rfl, rfl⟩
theorem andi w : Statement (.andi w) := ⟨by decide, rfl, rfl⟩
theorem ori w : Statement (.ori w) := ⟨by decide, rfl, rfl⟩
theorem xori w : Statement (.xori w) := ⟨by decide, rfl, rfl⟩
theorem isetpi w : Statement (.isetpi w) := ⟨by decide, rfl, rfl⟩
theorem ldi w : Statement (.ldi w) := ⟨by decide, rfl, rfl⟩
theorem sti w : Statement (.sti w) := ⟨by decide, rfl, rfl⟩
theorem ldsi w : Statement (.ldsi w) := ⟨by decide, rfl, rfl⟩
theorem stsi w : Statement (.stsi w) := ⟨by decide, rfl, rfl⟩
theorem bra w : Statement (.bra w) := ⟨by decide, rfl, rfl⟩
theorem call w : Statement (.call w) := ⟨by decide, rfl, rfl⟩
theorem ret w : Statement (.ret w) := ⟨by decide, rfl, rfl⟩
theorem jmpi w : Statement (.jmpi w) := ⟨by decide, rfl, rfl⟩
theorem calli w : Statement (.calli w) := ⟨by decide, rfl, rfl⟩
theorem landpt w : Statement (.landpt w) := ⟨by decide, rfl, rfl⟩
theorem exitW w : Statement (.exitW w) := ⟨by decide, rfl, rfl⟩
theorem yield w : Statement (.yield w) := ⟨by decide, rfl, rfl⟩
theorem nap w : Statement (.nap w) := ⟨by decide, rfl, rfl⟩
theorem waitz w : Statement (.waitz w) := ⟨by decide, rfl, rfl⟩
theorem waitne w : Statement (.waitne w) := ⟨by decide, rfl, rfl⟩
theorem bar w : Statement (.bar w) := ⟨by decide, rfl, rfl⟩
theorem bararv w : Statement (.bararv w) := ⟨by decide, rfl, rfl⟩
theorem cvsign w : Statement (.cvsign w) := ⟨by decide, rfl, rfl⟩
theorem cvwait w : Statement (.cvwait w) := ⟨by decide, rfl, rfl⟩
theorem tkn w : Statement (.tkn w) := ⟨by decide, rfl, rfl⟩
theorem nop w : Statement (.nop w) := ⟨by decide, rfl, rfl⟩
theorem ld w : Statement (.ld w) := ⟨by decide, rfl, rfl, rfl⟩
theorem st w : Statement (.st w) := ⟨by decide, rfl, rfl, rfl⟩
theorem lds w : Statement (.lds w) := ⟨by decide, rfl, rfl, rfl⟩
theorem sts w : Statement (.sts w) := ⟨by decide, rfl, rfl, rfl⟩
theorem ldv w : Statement (.ldv w) := ⟨by decide, rfl, rfl, rfl⟩
theorem stv w : Statement (.stv w) := ⟨by decide, rfl, rfl, rfl⟩
theorem ldp w : Statement (.ldp w) := ⟨by decide, rfl, rfl, rfl⟩
theorem stp w : Statement (.stp w) := ⟨by decide, rfl, rfl, rfl⟩
theorem atom w : Statement (.atom w) := ⟨by decide, rfl, rfl, rfl⟩
theorem acas w : Statement (.acas w) := ⟨by decide, rfl, rfl, rfl⟩
theorem red w : Statement (.red w) := ⟨by decide, rfl, rfl, rfl⟩
theorem atoms w : Statement (.atoms w) := ⟨by decide, rfl, rfl, rfl⟩
theorem atomp w : Statement (.atomp w) := ⟨by decide, rfl, rfl, rfl⟩
theorem fence w : Statement (.fence w) := ⟨by decide, rfl, rfl, rfl⟩
theorem pfetch w : Statement (.pfetch w) := ⟨by decide, rfl, rfl, rfl⟩
theorem shfl w : Statement (.shfl w) := ⟨by decide, rfl, rfl⟩
theorem vote w : Statement (.vote w) := ⟨by decide, rfl, rfl⟩
theorem gred w : Statement (.gred w) := ⟨by decide, rfl, rfl⟩
theorem gscan w : Statement (.gscan w) := ⟨by decide, rfl, rfl⟩
theorem matchW w : Statement (.matchW w) := ⟨by decide, rfl, rfl⟩
theorem elect w : Statement (.elect w) := ⟨by decide, rfl, rfl⟩
theorem actmask w : Statement (.actmask w) := ⟨by decide, rfl, rfl⟩
theorem qtry w : Statement (.qtry w) := ⟨by decide, rfl, rfl⟩
theorem rcp w : Statement (.rcp w) := ⟨by decide, rfl, rfl⟩
theorem rsqrt w : Statement (.rsqrt w) := ⟨by decide, rfl, rfl⟩
theorem sqrt w : Statement (.sqrt w) := ⟨by decide, rfl, rfl⟩
theorem exp2 w : Statement (.exp2 w) := ⟨by decide, rfl, rfl⟩
theorem log2 w : Statement (.log2 w) := ⟨by decide, rfl, rfl⟩
theorem sinpi w : Statement (.sinpi w) := ⟨by decide, rfl, rfl⟩
theorem cospi w : Statement (.cospi w) := ⟨by decide, rfl, rfl⟩
theorem scpi w : Statement (.scpi w) := ⟨by decide, rfl, rfl⟩
theorem tanh w : Statement (.tanh w) := ⟨by decide, rfl, rfl⟩
theorem fdiv w : Statement (.fdiv w) := ⟨by decide, rfl, rfl⟩
theorem exd w : Statement (.exd w) := ⟨by decide, rfl, rfl⟩
theorem tcopy w : Statement (.tcopy w) := ⟨by decide, rfl, rfl⟩
theorem tkick w : Statement (.tkick w) := ⟨by decide, rfl, rfl⟩
theorem tstore w : Statement (.tstore w) := ⟨by decide, rfl, rfl⟩
theorem tgather w : Statement (.tgather w) := ⟨by decide, rfl, rfl⟩
theorem omap w : Statement (.omap w) := ⟨by decide, rfl, rfl⟩
theorem mma w : Statement (.mma w) := ⟨by decide, rfl, rfl⟩
theorem mmas w : Statement (.mmas w) := ⟨by decide, rfl, rfl⟩
theorem accz w : Statement (.accz w) := ⟨by decide, rfl, rfl⟩
theorem accld w : Statement (.accld w) := ⟨by decide, rfl, rfl⟩
theorem accst w : Statement (.accst w) := ⟨by decide, rfl, rfl⟩
theorem accrd w : Statement (.accrd w) := ⟨by decide, rfl, rfl⟩
theorem accrow w : Statement (.accrow w) := ⟨by decide, rfl, rfl⟩
theorem accrmax w : Statement (.accrmax w) := ⟨by decide, rfl, rfl⟩
theorem spcommit w : Statement (.spcommit w) := ⟨by decide, rfl, rfl⟩
theorem spdrop w : Statement (.spdrop w) := ⟨by decide, rfl, rfl⟩
theorem accver w : Statement (.accver w) := ⟨by decide, rfl, rfl⟩
theorem kvld w : Statement (.kvld w) := ⟨by decide, rfl, rfl⟩
theorem kvapp w : Statement (.kvapp w) := ⟨by decide, rfl, rfl⟩
theorem seqcmt w : Statement (.seqcmt w) := ⟨by decide, rfl, rfl⟩
theorem seqabort w : Statement (.seqabort w) := ⟨by decide, rfl, rfl⟩
theorem scoreadd w : Statement (.scoreadd w) := ⟨by decide, rfl, rfl⟩
theorem topk w : Statement (.topk w) := ⟨by decide, rfl, rfl⟩
theorem kvnode w : Statement (.kvnode w) := ⟨by decide, rfl, rfl⟩
theorem kvcopy w : Statement (.kvcopy w) := ⟨by decide, rfl, rfl⟩
theorem pgalloc w : Statement (.pgalloc w) := ⟨by decide, rfl, rfl⟩
theorem pgfree w : Statement (.pgfree w) := ⟨by decide, rfl, rfl⟩
theorem rsenter w : Statement (.rsenter w) := ⟨by decide, rfl, rfl⟩
theorem rsleave w : Statement (.rsleave w) := ⟨by decide, rfl, rfl⟩
theorem publish w : Statement (.publish w) := ⟨by decide, rfl, rfl⟩
theorem retire w : Statement (.retire w) := ⟨by decide, rfl, rfl⟩
theorem gpsync w : Statement (.gpsync w) := ⟨by decide, rfl, rfl⟩
theorem gpstat w : Statement (.gpstat w) := ⟨by decide, rfl, rfl⟩
theorem claunch w : Statement (.claunch w) := ⟨by decide, rfl, rfl⟩
theorem cstatus w : Statement (.cstatus w) := ⟨by decide, rfl, rfl⟩
theorem cabort w : Statement (.cabort w) := ⟨by decide, rfl, rfl⟩
theorem cresume w : Statement (.cresume w) := ⟨by decide, rfl, rfl⟩
theorem linkq w : Statement (.linkq w) := ⟨by decide, rfl, rfl⟩
theorem subscr w : Statement (.subscr w) := ⟨by decide, rfl, rfl⟩
theorem unsubscr w : Statement (.unsubscr w) := ⟨by decide, rfl, rfl⟩
theorem carve w : Statement (.carve w) := ⟨by decide, rfl, rfl⟩
theorem msend w : Statement (.msend w) := ⟨by decide, rfl, rfl⟩
theorem ringset w : Statement (.ringset w) := ⟨by decide, rfl, rfl⟩
theorem ringadv w : Statement (.ringadv w) := ⟨by decide, rfl, rfl⟩
theorem launch w : Statement (.launch w) := ⟨by decide, rfl, rfl⟩
theorem itemq w : Statement (.itemq w) := ⟨by decide, rfl, rfl⟩
theorem drain w : Statement (.drain w) := ⟨by decide, rfl, rfl⟩
theorem ccadd w : Statement (.ccadd w) := ⟨by decide, rfl, rfl⟩
theorem trap w : Statement (.trap w) := ⟨by decide, rfl, rfl⟩
theorem rett w : Statement (.rett w) := ⟨by decide, rfl, rfl⟩
theorem rqrd w : Statement (.rqrd w) := ⟨by decide, rfl, rfl⟩
theorem rqwr w : Statement (.rqwr w) := ⟨by decide, rfl, rfl⟩
theorem causeclr w : Statement (.causeclr w) := ⟨by decide, rfl, rfl⟩
theorem csrrd w : Statement (.csrrd w) := ⟨by decide, rfl, rfl⟩
theorem csrwr w : Statement (.csrwr w) := ⟨by decide, rfl, rfl⟩
theorem bkpt w : Statement (.bkpt w) := ⟨by decide, rfl, rfl⟩
theorem setmode w : Statement (.setmode w) := ⟨by decide, rfl, rfl⟩
theorem preempt w : Statement (.preempt w) := ⟨by decide, rfl, rfl⟩
theorem illegalWord w : Statement (.illegalWord w) := ⟨rfl, rfl⟩
theorem trapEntry w : Statement (.trapEntry w) := ⟨rfl, rfl⟩
theorem pageResponse a b c d : Statement (.pageResponse a b c d) := ⟨rfl, rfl⟩
theorem parkedShareSwitch w : Statement (.parkedShareSwitch w) := ⟨rfl, rfl⟩
theorem teamSave a b : Statement (.teamSave a b) := ⟨rfl, rfl⟩
theorem teamRestore a b : Statement (.teamRestore a b) := ⟨rfl, rfl⟩
theorem redMerge a b : Statement (.redMerge a b) := ⟨rfl, rfl⟩
theorem fairnessDue a b c d : Statement (.fairnessDue a b c d) := ⟨rfl, rfl⟩
theorem stampRenumber a b : Statement (.stampRenumber a b) := ⟨rfl, rfl⟩
theorem napExpire w : Statement (.napExpire w) := ⟨rfl, rfl⟩
theorem waitReread w : Statement (.waitReread w) := ⟨rfl, rfl⟩
theorem itemAssign w : Statement (.itemAssign w) := ⟨rfl, rfl⟩
theorem qtailWrite a b : Statement (.qtailWrite a b) := ⟨rfl, rfl⟩
theorem qpushWrite a b : Statement (.qpushWrite a b) := ⟨rfl, rfl⟩
theorem qpushComplete w : Statement (.qpushComplete w) := ⟨rfl, rfl⟩
theorem takeRecord w : Statement (.takeRecord w) := ⟨rfl, rfl⟩
theorem depRead a b : Statement (.depRead a b) := ⟨rfl, rfl⟩
theorem launchBegin w : Statement (.launchBegin w) := ⟨rfl, rfl⟩
theorem placeTeam a b : Statement (.placeTeam a b) := ⟨rfl, rfl⟩
theorem teamRetire a b : Statement (.teamRetire a b) := ⟨rfl, rfl⟩
theorem launchEnd w : Statement (.launchEnd w) := ⟨rfl, rfl⟩
theorem watchdogExpire w : Statement (.watchdogExpire w) := ⟨rfl, rfl⟩
theorem lctlDrain w : Statement (.lctlDrain w) := ⟨rfl, rfl⟩
theorem lctlAbort w : Statement (.lctlAbort w) := ⟨rfl, rfl⟩
theorem lctlReleaseReserve w : Statement (.lctlReleaseReserve w) := ⟨rfl, rfl⟩
theorem prectlGo w : Statement (.prectlGo w) := ⟨rfl, rfl⟩
theorem preemptDone : Statement .preemptDone := ⟨rfl, rfl⟩
theorem dbgHalt w : Statement (.dbgHalt w) := ⟨rfl, rfl⟩
theorem dbgResume w : Statement (.dbgResume w) := ⟨rfl, rfl⟩
theorem dbgStep w : Statement (.dbgStep w) := ⟨rfl, rfl⟩
theorem dbgFreeze w : Statement (.dbgFreeze w) := ⟨rfl, rfl⟩
theorem dbgThaw w : Statement (.dbgThaw w) := ⟨rfl, rfl⟩
theorem dbgSnapshot w : Statement (.dbgSnapshot w) := ⟨rfl, rfl⟩
theorem dbgAttach w : Statement (.dbgAttach w) := ⟨rfl, rfl⟩
theorem dbgDetach w : Statement (.dbgDetach w) := ⟨rfl, rfl⟩
theorem registerWrite a b c : Statement (.registerWrite a b c) := ⟨rfl, rfl⟩
theorem carveSwitch w : Statement (.carveSwitch w) := ⟨rfl, rfl⟩
theorem subscrMirrorComplete a b : Statement (.subscrMirrorComplete a b) := ⟨rfl, rfl⟩
theorem subUpdateApply a b : Statement (.subUpdateApply a b) := ⟨rfl, rfl⟩
theorem atsInvalidation a b c : Statement (.atsInvalidation a b c) := ⟨rfl, rfl⟩
theorem invalidationCompletion : Statement .invalidationCompletion := ⟨rfl, rfl⟩
theorem msgDeliver a b : Statement (.msgDeliver a b) := ⟨rfl, rfl⟩
theorem hostMemAccess a b : Statement (.hostMemAccess a b) := ⟨rfl, rfl⟩
theorem hostSnoop a b c : Statement (.hostSnoop a b c) := ⟨rfl, rfl⟩
theorem hlcEvict w : Statement (.hlcEvict w) := ⟨rfl, rfl⟩
theorem copyAccept w : Statement (.copyAccept w) := ⟨rfl, rfl⟩
theorem copyRetire a b : Statement (.copyRetire a b) := ⟨rfl, rfl⟩
theorem tkickRecordStart a b : Statement (.tkickRecordStart a b) := ⟨rfl, rfl⟩
theorem matrixQueueIssue a b c d : Statement (.matrixQueueIssue a b c d) := ⟨rfl, rfl⟩
theorem matrixStart a b c : Statement (.matrixStart a b c) := ⟨rfl, rfl⟩
theorem matrixRetire a b c : Statement (.matrixRetire a b c) := ⟨rfl, rfl⟩
theorem accrdRead w : Statement (.accrdRead w) := ⟨rfl, rfl⟩
theorem gpStart w : Statement (.gpStart w) := ⟨rfl, rfl⟩
theorem gpFlipDone w : Statement (.gpFlipDone w) := ⟨rfl, rfl⟩
theorem gpComplete w : Statement (.gpComplete w) := ⟨rfl, rfl⟩
theorem retireRelease w : Statement (.retireRelease w) := ⟨rfl, rfl⟩
theorem domcfgWrite a b : Statement (.domcfgWrite a b) := ⟨rfl, rfl⟩
theorem podReq a b : Statement (.podReq a b) := ⟨rfl, rfl⟩
theorem podFlip a b : Statement (.podFlip a b) := ⟨rfl, rfl⟩
theorem podFack a b c : Statement (.podFack a b c) := ⟨rfl, rfl⟩
theorem podQuiet a b c : Statement (.podQuiet a b c) := ⟨rfl, rfl⟩
theorem podDone a b : Statement (.podDone a b) := ⟨rfl, rfl⟩
theorem kvPacketAccept w : Statement (.kvPacketAccept w) := ⟨rfl, rfl⟩
theorem kvBlockWrite a b : Statement (.kvBlockWrite a b) := ⟨rfl, rfl⟩
theorem kvFaultRecord a b : Statement (.kvFaultRecord a b) := ⟨rfl, rfl⟩
theorem kfqresWrite w : Statement (.kfqresWrite w) := ⟨rfl, rfl⟩
theorem collJoin w : Statement (.collJoin w) := ⟨rfl, rfl⟩
theorem collStart a b c d : Statement (.collStart a b c d) := ⟨rfl, rfl⟩
theorem collPause a b : Statement (.collPause a b) := ⟨rfl, rfl⟩
theorem collBitmap a b c d : Statement (.collBitmap a b c d) := ⟨rfl, rfl⟩
theorem collResumeMsg a b : Statement (.collResumeMsg a b) := ⟨rfl, rfl⟩
theorem collReport a b c : Statement (.collReport a b c) := ⟨rfl, rfl⟩
theorem collFinish w : Statement (.collFinish w) := ⟨rfl, rfl⟩
theorem collFail a b : Statement (.collFail a b) := ⟨rfl, rfl⟩
theorem collAbortMsg a b : Statement (.collAbortMsg a b) := ⟨rfl, rfl⟩
theorem chunkData a b c d e f g : Statement (.chunkData a b c d e f g) := ⟨rfl, rfl⟩
theorem linkUp a b c : Statement (.linkUp a b c) := ⟨rfl, rfl⟩
theorem linkDown w : Statement (.linkDown w) := ⟨rfl, rfl⟩
theorem linkStateFlit a b c d : Statement (.linkStateFlit a b c d) := ⟨rfl, rfl⟩
theorem portDown w : Statement (.portDown w) := ⟨rfl, rfl⟩
theorem portUp w : Statement (.portUp w) := ⟨rfl, rfl⟩
theorem cxlCacheTimeout w : Statement (.cxlCacheTimeout w) := ⟨rfl, rfl⟩
theorem featureCommit : Statement .featureCommit := ⟨rfl, rfl⟩
theorem pstateRequest a b : Statement (.pstateRequest a b) := ⟨rfl, rfl⟩
theorem pstateChangeDone w : Statement (.pstateChangeDone w) := ⟨rfl, rfl⟩
theorem cgateWrite a b : Statement (.cgateWrite a b) := ⟨rfl, rfl⟩
theorem coreUngateDone w : Statement (.coreUngateDone w) := ⟨rfl, rfl⟩
theorem thermalWarning w : Statement (.thermalWarning w) := ⟨rfl, rfl⟩
theorem thermalTrip w : Statement (.thermalTrip w) := ⟨rfl, rfl⟩
theorem securityAlarm w : Statement (.securityAlarm w) := ⟨rfl, rfl⟩
theorem secpolWrite w : Statement (.secpolWrite w) := ⟨rfl, rfl⟩
theorem conventionalReset a b : Statement (.conventionalReset a b) := ⟨rfl, rfl⟩
theorem getVersion : Statement .getVersion := ⟨rfl, rfl⟩
theorem getCapabilities : Statement .getCapabilities := ⟨rfl, rfl⟩
theorem negotiateAlgorithms w : Statement (.negotiateAlgorithms w) := ⟨rfl, rfl⟩
theorem getDigests : Statement .getDigests := ⟨rfl, rfl⟩
theorem getCertificate a b : Statement (.getCertificate a b) := ⟨rfl, rfl⟩
theorem challenge w : Statement (.challenge w) := ⟨rfl, rfl⟩
theorem getMeasurements w : Statement (.getMeasurements w) := ⟨rfl, rfl⟩
theorem keyExchange w : Statement (.keyExchange w) := ⟨rfl, rfl⟩
theorem spdmFinish w : Statement (.spdmFinish w) := ⟨rfl, rfl⟩
theorem softError a b : Statement (.softError a b) := ⟨rfl, rfl⟩
theorem powerLoss : Statement .powerLoss := ⟨rfl, rfl⟩
theorem translationCompletion a b c : Statement (.translationCompletion a b c) := ⟨rfl, rfl⟩
theorem birsp w : Statement (.birsp w) := ⟨rfl, rfl⟩
theorem cxlCacheResponse a b c : Statement (.cxlCacheResponse a b c) := ⟨rfl, rfl⟩
theorem accessReply a b : Statement (.accessReply a b) := ⟨rfl, rfl⟩
theorem copyTransfer a b : Statement (.copyTransfer a b) := ⟨rfl, rfl⟩
theorem ideKmRequest a b : Statement (.ideKmRequest a b) := ⟨rfl, rfl⟩

end Sys2Proof.Laws.WellFormed
end

