-- ==== Sys2Proof/Laws/Solo.lean ====
section
/-!
SUPPORT. The issue of a word by a lone thread, in closed form: what the checks answer, the state in which its effect is
performed, and how its entry finishes.
-/
namespace Sys2Proof.Machine

variable {i : Instr} {s : State} {th : Thread}

/-! ### One thread's record -/

/-- The state with `x` as the record of its thread. -/
def State.putThread (s : State) (x : Thread) : State := s.setThread x.tid fun _ => x

/-- Thread `x` has one record, which is `x`. -/
def State.Has (s : State) (x : Thread) : Prop := s.threads.filter (fun y => y.tid = x.tid) = [x]

theorem State.Has.thread? {x : Thread} (h : s.Has x) : s.thread? x.tid = some x := by
  unfold State.thread?
  rw [← List.head?_filter]
  exact (congrArg List.head? h :)

theorem State.Has.eq {x y : Thread} (h : s.Has x) (hy : y ∈ s.threads) (ht : y.tid = x.tid) : y = x := by
  have : y ∈ s.threads.filter (fun y => y.tid = x.tid) := by simp [hy, ht]
  rw [show s.threads.filter (fun y => y.tid = x.tid) = [x] from h] at this
  simpa using this

theorem State.Has.set {x : Thread} (h : s.Has x) (f : Thread → Thread) (hf : (f x).tid = x.tid) :
    s.setThread x.tid f = s.putThread (f x) := by
  unfold State.putThread State.setThread
  rw [hf]
  congr 1
  refine List.map_congr_left fun y hy => ?_
  dsimp only
  split
  next e => rw [h.eq hy e]
  next => rfl

theorem State.Has.put {x a : Thread} (h : s.Has x) (ha : a.tid = x.tid) : (s.putThread a).Has a := by
  unfold State.Has State.putThread State.setThread at *
  rw [ha]
  dsimp only
  have hg : ∀ l : List Thread, l.filter (fun y => y.tid = x.tid) = [x] →
      (l.map fun y => if y.tid = x.tid then a else y).filter (fun y => y.tid = x.tid) = [a] := by
    intro l
    have h0 : ∀ l : List Thread, l.filter (fun y => y.tid = x.tid) = [] →
        (l.map fun y => if y.tid = x.tid then a else y).filter (fun y => y.tid = x.tid) = [] := by
      intro l hl
      simp only [List.filter_eq_nil_iff, List.mem_map, decide_eq_true_eq, forall_exists_index, and_imp] at hl ⊢
      rintro _ y hy rfl
      rw [if_neg (hl y hy)]
      exact hl y hy
    induction l with
    | nil => simp
    | cons y ys ih =>
      intro hl
      by_cases hy : y.tid = x.tid
      · simp only [List.filter_cons, hy, decide_true, if_true, List.cons.injEq] at hl
        simp [ha, hy, h0 ys hl.2]
      · simp only [List.filter_cons, hy, decide_false, Bool.false_eq_true, if_false] at hl
        simp [hy, ih hl]
  exact hg _ h

theorem State.putThread_put {a b : Thread} (h : b.tid = a.tid) : (s.putThread a).putThread b = s.putThread b := by
  unfold State.putThread State.setThread
  dsimp only
  congr 1
  rw [List.map_map]
  refine List.map_congr_left fun y _ => ?_
  by_cases hy : y.tid = a.tid <;> simp [h, hy]

theorem Solo.has (h : Solo i s th) : s.Has th := h.one
theorem Solo.here (h : Solo i s th) : s.thread? th.tid = some th := h.has.thread?

/-- The checks of a lone thread let it act. -/
theorem Solo.check (h : Solo i s th) :
    checkIssue i { st := s } = ({ act := [(th, Solo.values i s th)], pass := [], bad := [] }, { st := s }) := by
  have hc : s.curThreads = [th] := by simp [State.curThreads, h.alone, h.here]
  simp [checkIssue, hc, h.legal, h.on, h.runs, h.noQ, Solo.values]

/-- The record of a lone thread at the end of the issue. -/
theorem issued_rec (i : Instr) (x : Thread) (pc : DWord) : (issuedRec i [x] x.tid x).goTo pc = x.issued i pc := by
  simp [issuedRec, Thread.issued, Thread.goTo]

/-- The end of an issue of one thread. -/
theorem endIssue_solo (i : Instr) (th : Thread) (vals : List Nat) (pcOf : Thread → DWord) (w : Work) :
    ∃ q, SameEngines w.st (w.st.putQuarters q) ∧
      endIssue i { act := [(th, vals)], pass := [], bad := [] } pcOf false w
        = ((), { w with st := (w.st.setThread th.tid fun x => (issuedRec i [th] th.tid x).goTo (pcOf th)).putQuarters q }) := by
  obtain ⟨q, hq, he⟩ := endIssue_eq i { act := [(th, vals)], pass := [], bad := [] } pcOf w
  refine ⟨q, hq, ?_⟩
  rw [he]
  simp only [raiseAll, State.issued, State.noted, State.setPcs, Issued.moves, List.map_cons, List.map_nil, List.append_nil,
    List.foldl_cons, List.foldl_nil, W.forIn_nil, W.run_bind, W.run_pure]
  rw [setThread_setThread]
  · exact fun _ => rfl

/-! ### Entries -/

theorem foldl_max_le (es : List Entry) (m : Nat) : m ≤ es.foldl (fun m e => max m e.id) m := by
  induction es generalizing m with
  | nil => exact Nat.le_refl _
  | cons e es ih => exact Nat.le_trans (Nat.le_max_left _ _) (ih _)

theorem id_le_foldl {es : List Entry} {e : Entry} (h : e ∈ es) (m : Nat) : e.id ≤ es.foldl (fun m e => max m e.id) m := by
  induction es generalizing m with
  | nil => simp at h
  | cons a as ih =>
    rcases List.mem_cons.1 h with rfl | h
    · exact Nat.le_trans (Nat.le_max_right _ _) (foldl_max_le _ _)
    · exact ih h _

/-- A new entry's id is new. -/
theorem newEntry_id (s : State) (i : Instr) (th : Thread) (opv : List Word) {e : Entry} (h : e ∈ th.unf) :
    e.id ≠ (newEntry s i th opv).id :=
  Nat.ne_of_lt (Nat.lt_succ_of_le (id_le_foldl h 0))

/-- The group register file beside one thread's record. -/
theorem putThread_mem {a y : Thread} (hy : y ∈ (s.putThread a).threads) : y = a ∨ (y ∈ s.threads ∧ y.tid ≠ a.tid) := by
  unfold State.putThread State.setThread at hy
  obtain ⟨z, hz, rfl⟩ := List.mem_map.1 hy
  dsimp only
  by_cases h : z.tid = a.tid
  · simp [h]
  · exact .inr ⟨by simp [h, hz], by simp [h]⟩

theorem modThread_has {w : Work} {x : Thread} (h : w.st.Has x) (f : Thread → Thread) (hf : (f x).tid = x.tid) :
    modThread x.tid f w = ((), { w with st := w.st.putThread (f x) }) :=
  congrArg (fun st => (((), { w with st := st }) : Unit × Work)) (h.set f hf)

/-- A thread's record when its unfinished instruction `id` leaves the list. -/
def Thread.without (x : Thread) (id : Nat) : Thread := { x with unf := x.unf.filter fun e => e.id ≠ id }

/-- What `unpark` makes of a record. -/
def Thread.unparked (x : Thread) (id : Nat) : Thread :=
  { x with
    unf := x.unf.map fun e => if e.id = id then { e with parks := false } else e
    wait := if x.unparks id then x.resume else x.wait
    resume := if x.unparks id then .ready else x.resume }

theorem without_unparked (x : Thread) (id : Nat) : ((x.unparked id).without id).unf = (x.without id).unf := by
  unfold Thread.without Thread.unparked
  dsimp only
  induction x.unf with
  | nil => rfl
  | cons e es ih =>
    by_cases h : e.id = id <;> simp [h] at ih ⊢ <;> exact ih

/-- No other unfinished instruction of the state bears the tag of the entry `id` of `x`. -/
def State.OnlyTag (s : State) (x : Thread) (id tag : Nat) : Prop :=
  ∀ y ∈ s.threads, ∀ e ∈ y.unf, e.tag = tag → y.tid = x.tid ∧ e.id = id

theorem trapEnter_calm {w : Work} {x : Thread} (h : w.st.Has x) (hp : x.pending = none) : trapEnter x.tid w = ((), w) := by
  unfold trapEnter
  simp only [W.run_bind, W.run_getSt, h.thread?, hp, W.run_pure]

theorem flatMap_one {α : Type} {x : Thread} {l : List Thread} (h : l.filter (fun y => y.tid = x.tid) = [x])
    (g : Thread → List α) (hg : ∀ y ∈ l, y.tid ≠ x.tid → g y = []) : l.flatMap g = g x := by
  have h0 : ∀ l : List Thread, l.filter (fun y => y.tid = x.tid) = [] → (∀ y ∈ l, y.tid ≠ x.tid → g y = []) →
      l.flatMap g = [] := by
    intro l hl hg
    rw [List.flatMap_eq_nil_iff]
    intro y hy
    refine hg y hy fun e => ?_
    rw [List.filter_eq_nil_iff] at hl
    exact hl y hy (by simp [e])
  induction l with
  | nil => simp at h
  | cons y ys ih =>
    by_cases hy : y.tid = x.tid
    · simp only [List.filter_cons, hy, decide_true, if_true, List.cons.injEq] at h
      rw [List.flatMap_cons, h0 ys h.2 fun z hz => hg z (by simp [hz]), h.1, List.append_nil]
    · simp only [List.filter_cons, hy, decide_false, Bool.false_eq_true, if_false] at h
      rw [List.flatMap_cons, hg y (by simp) hy, ih h fun z hz => hg z (by simp [hz]), List.nil_append]

/-- The lanes at work on an issue that only one entry belongs to. -/
theorem mates_one {x : Thread} {id tag : Nat} (h : s.Has x) (ho : s.OnlyTag x id tag) (y : Thread)
    (hy : y.tid = x.tid ∧ y.slot = x.slot ∧ y.grp = x.grp) :
    s.mates y tag = (x.unf.filter fun e => e.tag = tag).map (x, ·) := by
  unfold State.mates
  have e : ∀ (p : Thread → Bool) (g : Thread → List (Thread × Entry)) (l : List Thread),
      (l.filter p).flatMap g = l.flatMap fun t => if p t then g t else [] := by
    intro p g l
    induction l with
    | nil => rfl
    | cons a as ih => by_cases ha : p a <;> simp [ha, ih]
  rw [e, flatMap_one h]
  · simp [hy]
  · intro z hz hne
    split
    · simp only [List.map_eq_nil_iff, List.filter_eq_nil_iff, decide_eq_true_eq]
      exact fun e he ht => hne (ho z hz e he ht).1
    · rfl

/-- A further change of a thread's record that has been replaced. -/
theorem modThread_put {w : Work} {x : Thread} (h : w.st.Has x) {t : ThreadId} (ht : t = x.tid) {a b : Thread} {f : Thread → Thread}
    (ha : a.tid = x.tid) (hb : f a = b) (hbt : b.tid = x.tid) :
    modThread t f { w with st := w.st.putThread a } = ((), { w with st := w.st.putThread b }) := by
  have h1 := modThread_has (w := { w with st := w.st.putThread a }) (h.put ha) f (by rw [hb, hbt, ha])
  rw [ht, ← ha, h1, State.putThread_put (by rw [hb, hbt, ha]), hb]

theorem trapEnter_put {w : Work} {x : Thread} (h : w.st.Has x) {t : ThreadId} (ht : t = x.tid) {a : Thread} (ha : a.tid = x.tid)
    (hp : a.pending = none) : trapEnter t { w with st := w.st.putThread a } = ((), { w with st := w.st.putThread a }) := by
  rw [ht, ← ha]
  exact trapEnter_calm (w := { w with st := w.st.putThread a }) (h.put ha) hp

theorem find_one {α : Type} {p : α → Bool} {l : List α} {a : α} (h : l.filter p = [a]) : l.find? p = some a := by
  rw [← List.head?_filter, h]; rfl

theorem map_filter_one {l : List Entry} {id : Nat} {e : Entry} (h : l.filter (fun e => e.id = id) = [e]) (f : Entry → Entry)
    (hf : ∀ e, (f e).id = e.id) :
    (l.map fun e => if e.id = id then f e else e).filter (fun e => e.id = id) = [f e] := by
  rw [List.filter_map]
  have : ((fun e : Entry => decide (e.id = id)) ∘ fun e => if e.id = id then f e else e) = fun e => decide (e.id = id) := by
    funext e
    by_cases he : e.id = id <;> simp [he, hf]
  rw [this, h]
  have hm : e ∈ l.filter (fun e => e.id = id) := by simp [h]
  simp at hm
  simp [hm.2]

theorem filter_map_out {l : List Entry} {id : Nat} (f : Entry → Entry) (hf : ∀ e, (f e).id = e.id) :
    (l.map fun e => if e.id = id then f e else e).filter (fun e => e.id ≠ id) = l.filter (fun e => e.id ≠ id) := by
  induction l with
  | nil => rfl
  | cons e es ih => by_cases h : e.id = id <;> simp only [List.map_cons, if_pos, h, if_false, List.filter_cons, hf, ne_eq, not_true, not_false_eq_true, decide_true, decide_false, Bool.false_eq_true] <;> simpa using ih

theorem filter_by_id {l : List Entry} {id tag : Nat} (h : ∀ e ∈ l, e.tag = tag → e.id = id) :
    (l.filter fun e => e.tag = tag) = (l.filter fun e => e.id = id).filter fun e => e.tag = tag := by
  rw [List.filter_filter]
  refine List.filter_congr fun e he => ?_
  by_cases ht : e.tag = tag <;> simp [ht, h e he]

/-- The state with `g` as its groups. -/
def State.putGroups (s : State) (g : List Group) : State := { s with groups := g }

/-- The only entry of its issue finishes: its registers are written and it leaves the list. -/
theorem finishEntry_solo {w : Work} {x : Thread} {e : Entry} {id : Nat} (h : w.st.Has x)
    (he : x.unf.filter (fun e => e.id = id) = [e]) (hp : x.pending = none) (ho : w.st.OnlyTag x id e.tag)
    (hq : ∀ k, RegRef.q k ∉ e.dst) (vals : List Word) :
    finishEntry x.tid id vals w
      = ((), { w with st := (w.st.putThread (((x.unparked id).without id).received e.dst vals)).putGroups
                                (w.st.groupsWith x e.dst vals) }) := by
  have he1 : x.entry? id = some e := find_one he
  have hu : unpark x.tid id w = ((), { w with st := w.st.putThread (x.unparked id) }) := modThread_has h _ rfl
  have hf1 : (x.unparked id).unf.filter (fun e => e.id = id) = [{ e with parks := false }] :=
    map_filter_one (f := fun e => { e with parks := false }) he fun _ => rfl
  have hin : e ∈ x.unf ∧ e.id = id := by
    have : e ∈ x.unf.filter (fun e => e.id = id) := by simp [he]
    simpa using this
  unfold finishEntry
  simp only [W.run_bind, W.run_getSt, h.thread?, he1]
  rw [hu]
  by_cases hv : e.dst.all RegRef.isV
  · simp only [hv, if_true, W.run_bind, dropEntry]
    rw [modThread_put h rfl (a := x.unparked id) (b := (x.unparked id).received e.dst vals) rfl (by simp [Thread.received, hv]) rfl,
      modThread_put h rfl (a := (x.unparked id).received e.dst vals) (b := ((x.unparked id).received e.dst vals).without id) rfl rfl rfl]
    rw [trapEnter_put h rfl (a := ((x.unparked id).received e.dst vals).without id) rfl (by exact hp)]
    simp only [State.groupsWith, Thread.received, hv, if_true]
    rfl
  · simp only [hv, if_false, Bool.false_eq_true, W.run_bind, modEntry]
    rw [modThread_put h rfl (a := x.unparked id) rfl rfl rfl]
    generalize hx2 : ({ x.unparked id with unf := (x.unparked id).unf.map fun e => if e.id = id then { e with val := some vals } else e } : Thread) = x2
    have h2 : (w.st.putThread x2).Has x2 := h.put (by rw [← hx2]; rfl)
    have hu2 : x2.unf.filter (fun e => e.id = id) = [{ e with parks := false, val := some vals }] := by
      rw [← hx2]
      exact map_filter_one hf1 (f := fun e => { e with val := some vals }) fun _ => rfl
    have ht2 : x2.unf.map (fun e => (e.id, e.tag)) = x.unf.map fun e => (e.id, e.tag) := by
      rw [← hx2]
      simp only [Thread.unparked, List.map_map]
      refine List.map_congr_left fun e _ => ?_
      by_cases h : e.id = id <;> simp [h]
    have ho3 : ∀ e' ∈ x2.unf, e'.tag = e.tag → e'.id = id := by
      intro e' he' htag
      have : (e'.id, e'.tag) ∈ x2.unf.map (fun e => (e.id, e.tag)) := List.mem_map.2 ⟨e', he', rfl⟩
      rw [ht2] at this
      obtain ⟨e2, h3, h4⟩ := List.mem_map.1 this
      simp only [Prod.mk.injEq] at h4
      have hx : x ∈ w.st.threads := (List.mem_filter.1 (h ▸ List.mem_singleton.2 rfl : x ∈ w.st.threads.filter _)).1
      rw [← h4.1]
      exact (ho x hx e2 h3 (h4.2.trans htag)).2
    have ho2 : (w.st.putThread x2).OnlyTag x2 id e.tag := by
      intro y hy e' he' htag
      rcases putThread_mem hy with rfl | ⟨hy, hne⟩
      · exact ⟨rfl, ho3 e' he' htag⟩
      · refine absurd (ho y hy e' he' htag).1 ?_
        rw [← hx2] at hne; exact hne
    have hmates : (w.st.putThread x2).mates x e.tag = [(x2, { e with parks := false, val := some vals })] := by
      rw [mates_one h2 ho2 x (by rw [← hx2]; exact ⟨rfl, rfl, rfl⟩), filter_by_id ho3, hu2]
      simp
    have hx2t : x2.tid = x.tid := by rw [← hx2]; rfl
    have hpo : (w.st.putThread x2).pushOpen x { e with parks := false, val := some vals } = false := by
      unfold State.pushOpen Entry.pushes
      rcases hd : e.dst with _ | ⟨r, l⟩
      · simp
      · cases r with
        | q k => exact absurd (by rw [hd]; exact List.mem_cons_self) (hq k)
        | _ => simp
    have hbt : (w.st.groupsWith x e.dst vals) = w.st.groups.map fun g =>
        if g.core = x.tid.core && g.slot = x.slot && g.grp = x.grp then writeRefsG g e.dst vals else g := by
      simp only [State.groupsWith, hv, if_false, Bool.false_eq_true]
    have hshare : shareGroup x e.tag { w with st := w.st.putThread x2 }
        = ((), { w with st := (w.st.putGroups (w.st.groupsWith x e.dst vals)).putThread (x2.without id) }) := by
      unfold shareGroup
      simp only [W.run_bind, W.run_getSt, hmates]
      simp only [List.any_cons, List.any_nil, Option.isNone_some, Bool.and_false, Bool.or_false, Bool.false_eq_true, if_false,
        List.filter_cons, Option.isSome_some, if_true, List.filter_nil, List.foldl_cons, List.foldl_nil, hpo]
      have hfin : (((do
            modGroup x.tid.core x.slot x.grp fun g => writeRefsG g e.dst ((some vals).getD [])
            forIn [(x2, { e with parks := false, val := some vals })] PUnit.unit fun x __s => do
                dropEntry x.fst.tid x.snd.id
                pure (ForInStep.yield PUnit.unit)
            pure ()) : W Unit) { w with st := w.st.putThread x2 })
          = ((), { w with st := (w.st.putGroups (w.st.groupsWith x e.dst vals)).putThread (x2.without id) }) := by
        have hg : ({ w.st.putThread x2 with groups := (w.st.putThread x2).groups.map fun g =>
          if g.core = x.tid.core && g.slot = x.slot && g.grp = x.grp then writeRefsG g e.dst ((some vals).getD []) else g } : State)
          = (w.st.putGroups (w.st.groupsWith x e.dst vals)).putThread x2 := by rw [hbt]; rfl
        have h' : ({ w with st := w.st.putGroups (w.st.groupsWith x e.dst vals) } : Work).st.Has x := h
        simp only [W.run_bind, W.forIn_cons, W.forIn_nil, modGroup, W.run_upd, W.run_pure, dropEntry, hin.2]
        rw [hg, modThread_put h' hx2t (a := x2) (b := x2.without id) hx2t rfl hx2t]
      revert hfin
      rcases hd : e.dst with _ | ⟨r, l⟩
      · exact absurd (by rw [hd]; rfl) hv
      · cases r with
        | q k => exact absurd (by rw [hd]; exact List.mem_cons_self) (hq k)
        | _ => exact fun h => h
    unfold shareResults
    simp only [W.run_bind, W.run_getSt]
    rw [hshare]
    have hlater : (((w.st.putGroups (w.st.groupsWith x e.dst vals)).putThread (x2.without id)).threads.filter fun y =>
        y.tid.core = x.tid.core && y.slot = x.slot && x.grp < y.grp
          && y.unf.any fun z => z.tag = e.tag && z.val.isSome && z.pushes) = [] := by
      refine List.filter_eq_nil_iff.2 fun y hy hc => ?_
      simp only [Bool.and_eq_true, decide_eq_true_eq, List.any_eq_true] at hc
      obtain ⟨-, z, hz, ⟨ht, -⟩, -⟩ := hc
      rcases putThread_mem hy with rfl | ⟨hy, hne⟩
      · obtain ⟨hz, hzi⟩ := List.mem_filter.1 hz
        exact absurd (ho3 z hz ht) (by simpa using hzi)
      · exact absurd (ho y hy z hz ht).1 (by rw [← hx2t]; exact hne)
    simp only [hlater, List.isEmpty_nil, Bool.not_true, Bool.false_eq_true, if_false, W.run_pure]
    have h' : ({ w with st := w.st.putGroups (w.st.groupsWith x e.dst vals) } : Work).st.Has x := h
    have hd := trapEnter_put h' rfl (a := x2.without id) hx2t (by rw [← hx2]; exact hp)
    refine hd.trans ?_
    have : x2.without id = ((x.unparked id).without id).received e.dst vals := by
      rw [← hx2]
      simp only [Thread.received, hv, Thread.without, if_false, Bool.false_eq_true, ne_eq]
      rw [filter_map_out (fun e => { e with val := some vals }) fun _ => rfl]
    rw [this]
    rfl
/-- A thread's record with one more unfinished instruction. -/
def Thread.plus (x : Thread) (e : Entry) : Thread := { x with unf := x.unf ++ [e] }

theorem issued_plus (i : Instr) (x : Thread) (e : Entry) (pc : DWord) :
    (issuedRec i [x] x.tid (x.plus e)).goTo pc = (x.issued i pc).plus e := by
  simp [issuedRec, Thread.issued, Thread.goTo, Thread.plus]

theorem plus_filter {x : Thread} {e : Entry} (h : ∀ y ∈ x.unf, y.id ≠ e.id) :
    (x.plus e).unf.filter (fun y => y.id = e.id) = [e] ∧ ((x.plus e).without e.id) = x := by
  have h2 : (x.unf ++ [e]).filter (fun y => y.id ≠ e.id) = x.unf := by
    rw [List.filter_append, List.filter_eq_self.2 (by simpa using h)]; simp
  refine ⟨?_, ?_⟩
  · unfold Thread.plus
    rw [List.filter_append, List.filter_eq_nil_iff.2 (by simpa using h)]; simp
  · unfold Thread.without Thread.plus
    dsimp only
    rw [h2]

/-- The entry of a lone thread's issue. -/
def soloEntry (i : Instr) (s : State) (th : Thread) (capture : State → Thread → List Nat → List Word) : Entry :=
  newEntry s i th (capture s th (Solo.values i s th))

/-- An instruction with an entry, issued by a lone thread: its effect is attempted in the state after the issue. -/
theorem Solo.entries (h : Solo i s th) (capture : State → Thread → List Nat → List Word) (later : Bool)
    (hl : later = true → s.choices = []) (perf : ThreadId → Entry → P (List Word)) :
    ∃ q, SameEngines s (s.putQuarters q) ∧
      issueEntries i later capture perf { st := s } =
        attempt perf th.tid (soloEntry i s th capture).id
          { st := (s.putThread ((th.issued i (s.cur.pc + 8)).plus (soloEntry i s th capture))).putQuarters q } := by
  generalize hE : soloEntry i s th capture = e
  obtain ⟨q, hq, he⟩ := endIssue_solo i th (Solo.values i s th) (fun _ => s.cur.pc + 8)
    { st := s.putThread (th.plus e) }
  refine ⟨q, hq, ?_⟩
  unfold issueEntries
  simp only [W.run_bind, h.check, W.run_getSt, List.map_cons, List.map_nil, W.forIn_cons, W.forIn_nil, W.run_pure]
  rw [show newEntry s i th (capture s th (Solo.values i s th)) = e from hE]
  have hm : modThread th.tid (fun x => { x with unf := x.unf ++ [e] }) { st := s } = ((), { st := s.putThread (th.plus e) }) :=
    modThread_has (w := { st := s }) h.has _ rfl
  rw [hm, he]
  have h1 := (h.has.put (a := th.plus e) rfl).set (fun x => (issuedRec i [th] th.tid x).goTo (s.cur.pc + 8)) rfl
  simp only [issued_plus] at h1
  rw [State.putThread_put (by rfl)] at h1
  have h1 : (s.putThread (th.plus e)).setThread th.tid (fun x => (issuedRec i [th] th.tid x).goTo (s.cur.pc + 8)) = _ := h1
  simp only [List.length_singleton]
  rw [h1]
  cases later with
  | false => simp [inSomeOrder, choose]
  | true => simp [inSomeOrder, choose, State.putThread, hl rfl]

theorem Has_threads {s t : State} {x : Thread} (h : s.Has x) (e : t.threads = s.threads) : t.Has x := by
  unfold State.Has at *
  rw [e]; exact h

theorem unparked_plus {x : Thread} {e : Entry} (hw : x.wait = .ready) (h : ∀ y ∈ x.unf, y.id ≠ e.id) :
    ((x.plus e).unparked e.id).without e.id = x := by
  have hn : (x.plus e).unparks e.id = false := by unfold Thread.unparks Thread.plus; dsimp only; rw [hw]
  have h1 : ((x.plus e).unparked e.id).wait = x.wait ∧ ((x.plus e).unparked e.id).resume = x.resume := by
    unfold Thread.unparked
    rw [hn]
    exact ⟨rfl, rfl⟩
  have h2 : (((x.plus e).unparked e.id).without e.id).unf = x.unf := by
    rw [without_unparked]
    exact congrArg Thread.unf (plus_filter h).2
  have h3 : ((x.plus e).unparked e.id).without e.id
      = { x with
          unf := (((x.plus e).unparked e.id).without e.id).unf
          wait := ((x.plus e).unparked e.id).wait
          resume := ((x.plus e).unparked e.id).resume } := rfl
  rw [h3, h2, h1.1, h1.2]

/-- A lone thread's instruction whose effect is performed at once: its registers are written and nothing of it stays. The
effect may change the sticky flags of its thread. -/
theorem Solo.done (h : Solo i s th) (capture : State → Thread → List Nat → List Word) (later : Bool)
    (hl : later = true → s.choices = []) (perf : ThreadId → Entry → P (List Word)) (hq : ∀ k, RegRef.q k ∉ destOf i th) :
    ∃ q, SameEngines s (s.putQuarters q) ∧ ∀ vals w2 f,
      (perf th.tid (soloEntry i s th capture)).run
          { st := (s.putThread ((th.issued i (s.cur.pc + 8)).plus (soloEntry i s th capture))).putQuarters q }
        = (.ok vals, w2) →
      w2.st.threads = (s.putThread ({ th.issued i (s.cur.pc + 8) with fpx := f }.plus (soloEntry i s th capture))).threads →
      issueEntries i later capture perf { st := s }
        = ((), { w2 with st := (w2.st.putThread ({ th.issued i (s.cur.pc + 8) with fpx := f }.received (destOf i th) vals)).putGroups
                                  (w2.st.groupsWith th (destOf i th) vals) }) := by
  obtain ⟨q, hs, he⟩ := h.entries capture later hl perf
  refine ⟨q, hs, fun vals w2 f hr ht => ?_⟩
  rw [he]
  have hid : ∀ y ∈ th.unf, y.id ≠ (soloEntry i s th capture).id := fun y hy => newEntry_id s i th _ hy
  have htag : (soloEntry i s th capture).tag = s.clock := rfl
  have hdst : (soloEntry i s th capture).dst = destOf i th := rfl
  generalize soloEntry i s th capture = e at *
  generalize hx : ({ th.issued i (s.cur.pc + 8) with fpx := f } : Thread) = x at *
  have hxt : x.tid = th.tid := by rw [← hx]; rfl
  have hxu : x.unf = th.unf := by rw [← hx]; rfl
  have hxw : x.wait = .ready := by rw [← hx]; exact h.ready
  have hxp : x.pending = none := by rw [← hx]; exact h.calm
  have hid' : ∀ y ∈ x.unf, y.id ≠ e.id := by rw [hxu]; exact hid
  unfold attempt
  have h1 : ((s.putThread ((th.issued i (s.cur.pc + 8)).plus e)).putQuarters q).Has ((th.issued i (s.cur.pc + 8)).plus e) :=
    h.has.put (a := (th.issued i (s.cur.pc + 8)).plus e) rfl
  have h1t : ((s.putThread ((th.issued i (s.cur.pc + 8)).plus e)).putQuarters q).thread? th.tid = _ := h1.thread?
  have hfind : ((th.issued i (s.cur.pc + 8)).plus e).entry? e.id = some e :=
    find_one (plus_filter (x := th.issued i (s.cur.pc + 8)) hid).1
  simp only [W.run_bind, W.run_getSt, h1t, Option.bind_some, hfind, hr]
  have h2 : w2.st.Has (x.plus e) := Has_threads (h.has.put (a := x.plus e) hxt) ht
  have h2t : w2.st.thread? th.tid = some (x.plus e) := by rw [← hxt]; exact h2.thread?
  have hfind2 : (x.plus e).entry? e.id = some e := find_one (plus_filter hid').1
  unfold settleEntry
  simp only [W.run_bind, W.run_getSt, h2t, hfind2]
  have hxt2 : (x.plus e).tid = th.tid := hxt
  rw [← hxt2, finishEntry_solo h2 (plus_filter hid').1 hxp ?_ (by rw [hdst]; exact hq), unparked_plus hxw hid', hdst]
  · have hg : w2.st.groupsWith (x.plus e) (destOf i th) vals = w2.st.groupsWith th (destOf i th) vals := by
      unfold State.groupsWith Thread.plus
      rw [← hx]
      rfl
    rw [hg]
  · intro y hy e' he' hte
    rw [ht] at hy
    rcases putThread_mem hy with rfl | ⟨hy, -⟩
    · refine ⟨rfl, ?_⟩
      rcases List.mem_append.1 he' with h3 | h3
      · rw [hxu] at h3
        have hth : th ∈ s.threads := (List.mem_filter.1 (h.one ▸ List.mem_singleton.2 rfl : th ∈ s.threads.filter _)).1
        exact absurd (hte.trans htag) (h.fresh th hth e' h3)
      · rw [List.mem_singleton.1 h3]
    · exact absurd (hte.trans htag) (h.fresh y hy e' he')
end Sys2Proof.Machine
end

