-- ==== Sys2Proof/Laws/Vector.lean ====
section
/-!
SUPPORT. An instruction of the vector unit, once for all of them: what each acting thread holds afterwards, and what the
issue leaves as it is.
-/
namespace Sys2Proof.Machine

/-! ### Results -/

/-- What writing shared results may change: queues of teams, groups, and wait states. -/
def sharedPart (w : Work) : Work × List Thread :=
  ({ w with st := { w.st with teams := [], threads := [], groups := [] } }, w.st.threads.map Thread.registers)

theorem sharedPart_of_queuePart {α : Type} {x : W α} (h : Same queuePart x) : Same sharedPart x := by
  intro w
  have e := h w
  refine Prod.ext ?_ ?_
  · exact congrArg (fun p : Work × List Thread => { p.1 with st := { p.1.st with groups := [] } }) e
  · have := congrArg (fun p : Work × List Thread => p.2.map Thread.registers) e
    simp only [queuePart, List.map_map] at this
    exact this

theorem writeShared_part (u : Uses) (c : Nat) (k : Nat × Nat) (rs : List (Thread × Res)) :
    Same sharedPart (writeShared u c k rs) := by
  unfold writeShared
  refine same_forIn fun o _ _ => ?_
  dsimp only
  refine same_ite (fun _ => ?_) fun _ => same_ite (fun _ => ?_) fun _ => same_bind (same_pure _) fun _ => same_pure _
  · split
    · exact same_bind (fun _ => rfl) fun _ => same_pure _
    · exact same_pure _
  · exact same_bind (sharedPart_of_queuePart (pushQueue_part _ _ _ _)) fun _ => same_pure _

theorem thread?_registers (s : State) (u : ThreadId) :
    (s.thread? u).map Thread.registers = (s.threads.map Thread.registers).find? fun x => x.tid = u := by
  unfold State.thread?
  rw [List.find?_map]
  rfl

/-- A computation that touches shared state only keeps every thread's registers. -/
theorem registers_of_sharedPart {α : Type} {x : W α} (h : Same sharedPart x) (u : ThreadId) (w : Work) :
    ((x w).2.st.thread? u).map Thread.registers = (w.st.thread? u).map Thread.registers := by
  rw [thread?_registers, thread?_registers]
  exact congrArg (fun p : Work × List Thread => p.2.find? fun x => x.tid = u) (h w)

theorem vnum_congr {o : Opd} {x y : Thread} (h : x.ix = y.ix) : o.vnum x = o.vnum y := by
  unfold Opd.vnum
  rw [h]

theorem writeV_congr {x y : Thread} (h : x.ix = y.ix) (ops : List Opd) (vals : List (List Word)) (v : List Word) :
    writeV x ops vals v = writeV y ops vals v := by
  induction ops generalizing vals v with
  | nil => cases vals <;> rfl
  | cons o os ih =>
    cases vals with
    | nil => rfl
    | cons z zs =>
      unfold writeV
      rw [vnum_congr h]
      split <;> exact ih _ _

/-- A result changes a thread's registers by its registers alone. -/
theorem applyRes_registers {x y : Thread} (h : x.registers = y.registers) (u : Uses) (r : Res) :
    (applyRes u r x).registers = (applyRes u r y).registers := by
  have hix : x.ix = y.ix := (congrArg Thread.ix h : x.registers.ix = y.registers.ix)
  have hv : x.v = y.v := (congrArg Thread.v h : x.registers.v = y.registers.v)
  have hp : x.p = y.p := (congrArg Thread.p h : x.registers.p = y.registers.p)
  have hf : x.fpx = y.fpx := (congrArg Thread.fpx h : x.registers.fpx = y.registers.fpx)
  have e : ∀ z : Thread, (applyRes u r z).registers
      = { z.registers with v := (applyRes u r z).v, p := (applyRes u r z).p, ix := (applyRes u r z).ix
                           fpx := (applyRes u r z).fpx } := fun _ => rfl
  rw [e, e, h]
  unfold applyRes
  dsimp only
  rw [writeV_congr hix, hix, hv, hp, hf]

theorem forIn_applyRes (u : Uses) (rs : List (Thread × Res)) (a : PUnit) (w : Work) :
    (forIn rs a (fun x _ => (do modThread x.1.tid (applyRes u x.2); pure (ForInStep.yield PUnit.unit) : W _)) : W _) w
      = (PUnit.unit, { w with st := rs.foldl (fun s x => s.setThread x.1.tid (applyRes u x.2)) w.st }) :=
  forIn_modThread rs (fun x => x.1.tid) (fun x => applyRes u x.2) a w

/-- A thread that receives a result: its registers afterwards. -/
theorem writeResults_thread (u : Uses) (rs : List (Thread × Res)) (hn : (rs.map fun x => x.1.tid).Nodup) {x : Thread × Res}
    (hx : x ∈ rs) (w : Work) :
    ((writeResults u rs w).2.st.thread? x.1.tid).map Thread.registers
      = (w.st.thread? x.1.tid).map fun y => (applyRes u x.2 y).registers := by
  have h0 : ∀ w' : Work, w'.st = rs.foldl (fun s x => s.setThread x.1.tid (applyRes u x.2)) w.st →
      (w'.st.thread? x.1.tid).map Thread.registers = (w.st.thread? x.1.tid).map fun y => (applyRes u x.2 y).registers := by
    intro w' hw
    rw [hw, thread?_foldl rs (fun x => x.1.tid) (fun x => applyRes u x.2) (fun _ _ => rfl),
      filter_nodup (t := fun x : Thread × Res => x.1.tid) hn hx]
    simp [Function.comp_def]
  unfold writeResults
  simp only [W.run_bind, W.run_getSt]
  rw [forIn_applyRes, W.run_ite]
  split
  · rw [W.run_bind, W.run_pure, registers_of_sharedPart
      (same_forIn fun _ _ _ => same_bind (writeShared_part _ _ _ _) fun _ => same_pure _)]
    exact h0 _ rfl
  · exact h0 _ rfl

/-- Threads that receive no result keep their registers. -/
theorem writeResults_other (u : Uses) (rs : List (Thread × Res)) {t : ThreadId} (ht : ∀ x ∈ rs, x.1.tid ≠ t) (w : Work) :
    ((writeResults u rs w).2.st.thread? t).map Thread.registers = (w.st.thread? t).map Thread.registers := by
  have h0 : ∀ w' : Work, w'.st = rs.foldl (fun s x => s.setThread x.1.tid (applyRes u x.2)) w.st →
      (w'.st.thread? t).map Thread.registers = (w.st.thread? t).map Thread.registers := by
    intro w' hw
    rw [hw, thread?_foldl rs (fun x => x.1.tid) (fun x => applyRes u x.2) (fun _ _ => rfl)]
    have : (rs.filter fun x => x.1.tid = t) = [] := by simpa [List.filter_eq_nil_iff] using ht
    simp [this]
  unfold writeResults
  simp only [W.run_bind, W.run_getSt]
  rw [forIn_applyRes, W.run_ite]
  split
  · rw [W.run_bind, W.run_pure, registers_of_sharedPart
      (same_forIn fun _ _ _ => same_bind (writeShared_part _ _ _ _) fun _ => same_pure _)]
    exact h0 _ rfl
  · exact h0 _ rfl

/-- Everything but threads, groups and the queues of teams stays when results are written. -/
def offShared (w : Work) : Work := { w with st := { w.st with teams := [], threads := [], groups := [] } }

theorem offShared_of_sharedPart {α : Type} {x : W α} (h : Same sharedPart x) : Same offShared x :=
  fun w => congrArg Prod.fst (h w)

theorem modThread_offShared (t : ThreadId) (f : Thread → Thread) : Same offShared (modThread t f) := fun _ => rfl

theorem writeResults_offShared (u : Uses) (rs : List (Thread × Res)) : Same offShared (writeResults u rs) := by
  unfold writeResults
  refine same_bind same_getSt fun _ => same_bind
    (same_forIn fun _ _ _ => same_bind (modThread_offShared _ _) fun _ => same_pure _) fun _ => same_ite (fun _ => same_bind ?_ fun _ => same_pure _) fun _ => same_pure _
  exact same_forIn fun _ _ _ => same_bind (offShared_of_sharedPart (writeShared_part _ _ _ _)) fun _ => same_pure _

theorem checkIssue_offShared (i : Instr) : Same offShared (checkIssue i) :=
  offShared_of_sharedPart (sharedPart_of_queuePart (checkIssue_part i))

theorem cur_of_offShared {w w' : Work} (h : offShared w' = offShared w) : w'.st.cur = w.st.cur :=
  (congrArg (fun x : Work => x.st.cur) h : (offShared w').st.cur = (offShared w).st.cur)

/-! ### The whole instruction -/

theorem checkIssue_registers (i : Instr) (s : State) (u : ThreadId) :
    ((checkIssue i { st := s }).2.st.thread? u).map Thread.registers = (s.thread? u).map Thread.registers :=
  registers_of_sharedPart (sharedPart_of_queuePart (checkIssue_part i)) u { st := s }

theorem issuedRec_registers (i : Instr) (a : List Thread) (t : ThreadId) (pc : DWord) (x : Thread) :
    ((issuedRec i a t x).goTo pc).registers = x.registers := rfl

/-- Each acting thread of a vector instruction ends at the next word, with the registers that its result gives it. -/
theorem issueVec_act (i : Instr) (eval : State → Thread → List Nat → Res) (s : State) (hi : dropsCauses i = false)
    (hn : s.cur.threads.Nodup) {x : Thread × List Nat} (hx : x ∈ (checkIssue i { st := s }).1.act) :
    ∃ th, (issueVec i eval { st := s }).2.st.thread? x.1.tid = some th ∧ th.pc = s.cur.pc + 8 ∧
      th.registers = (applyRes (usesOf i) (eval (checkIssue i { st := s }).2.st x.1 x.2) x.1).registers := by
  obtain ⟨hd, hp, -, -⟩ := checkIssue_spec i hi { st := s } hn
  have hreg := checkIssue_registers i s x.1.tid
  have hcur := cur_of_offShared (checkIssue_offShared i { st := s })
  have hthis : s.thread? x.1.tid = some x.1 := mem_curThreads (List.mem_filter.1 (hp x hx)).1
  unfold issueVec
  simp only [W.run_bind, W.run_getSt]
  generalize hr : checkIssue i { st := s } = c at *
  have hnr : ((c.1.act.map fun x => (x.1, eval c.2.st x.1 x.2)).map fun x => x.1.tid).Nodup := by
    simpa [Function.comp_def] using (List.nodup_append.1 (List.nodup_append.1 hd).1).1
  have hw := writeResults_thread (usesOf i) _ hnr (List.mem_map.2 ⟨x, hx, rfl⟩) c.2
  have hc2 := cur_of_offShared (writeResults_offShared (usesOf i) (c.1.act.map fun x => (x.1, eval c.2.st x.1 x.2)) c.2)
  rw [endIssue_act hd hx]
  generalize writeResults (usesOf i) (c.1.act.map fun x => (x.1, eval c.2.st x.1 x.2)) c.2 = d at *
  dsimp only at hw
  rw [hthis] at hreg
  obtain ⟨y, hy, hyr⟩ := Option.map_eq_some_iff.1 hreg
  rw [hy] at hw
  obtain ⟨z, hz, hzr⟩ := Option.map_eq_some_iff.1 hw
  refine ⟨_, by rw [hz]; rfl, ?_, ?_⟩
  · show c.2.st.cur.pc + 8 = _
    rw [hcur]
  · rw [issuedRec_registers, hzr]
    exact applyRes_registers hyr _ _

end Sys2Proof.Machine
end

