-- ==== Sys2Proof/Tests/Slice0.lean ====
section
/-! SUPPORT. Tests: words written out from the spec's encodings, an ill-formed term for every check, single steps with results
worked out by hand, and for every statement with premises a state and operands that meet them. -/

set_option Elab.async false

open Sys2Proof Sys2Proof.Machine

namespace Sys2Proof.Tests

/-! ### Small states -/

/-- Sixteen pages of address space 1, each at its own device address, in the TLBs of core 0 and of die 0. -/
def pages : List TlbEntry :=
  [Tlb.core 0, .die 0].flatMap fun u => (List.range 16).map fun k => { tlb := u, pasid := 1, vpn := k, tr := { target := .dev (4096 * k), r := true, w := true, x := true } }

/-- The thread of the placed launch: 64 registers, at KDESC + 0x80. -/
def th0 : Thread := Loader.thread 0

/-- A second lane of its group. -/
def th1 : Thread := { th0 with tid := { th0.tid with lane := 1 }, tidx := 1, rel := 1 }

/-- Its team, with one convergence register of kind 3. -/
def tm0 : Team :=
  { Team.fresh Loader.launch Loader.desc 0 Loader.spot with cvs := [{ cv := 0, qtr := 0, kind := 3, role := 0 }] }

/-- One resident thread, nothing listed in memory. -/
def st0 : State := { Loader.place State.reset 0 with tlb := pages, threads := [th0], teams := [tm0] }

/-- `th` alone, at its word. -/
def lone (th : Thread) (s : State := st0) : State :=
  { s with
    threads := [th]
    cur := { core := th.tid.core, qtr := th.tid.qtr, lslot := th.lslot, pc := th.pc, threads := [th.tid] } }

/-- A thread with values in its v registers. -/
def regs (l : List (Nat × Nat)) (th : Thread := th0) : Thread :=
  { th with v := l.foldl (fun v p => v.set p.1 (BitVec.ofNat 32 p.2)) th.v }

/-- `n` little-endian bytes of `v` at `a`. -/
def poke (a n v : Nat) (s : State) : State := { s with mem := Loader.putBytes s.sec.keyGen s.mem a (leBytes n v) }

/-- The team, launch or core 0 changed. -/
def onTeam (f : Team → Team) (s : State := st0) : State := { s with teams := s.teams.map f }
def onLaunch (f : Launch → Launch) (s : State := st0) : State := { s with launches := s.launches.map f }
def onCore (f : CoreSt → CoreSt) (s : State := st0) : State := { s with cores := [f { id := 0 }] }

def always : Guard := { gn := false, gp := 0 }
def fw (d a b c : Code) (ty : Ty := .b32) (f0 : Bool := false) : FWord :=
  { la := 0, g := always, d, a, b, c, ty, rnd := .rne, f2 := false, f1 := false, f0 }
def mw (d a b c : Code) (ty : Ty := .b32) (order : Order := .weak) (scope : Scope := .grp) : MWord :=
  { la := 0, g := always, d, a, b, c, ty, order, scope }
def iw (d : Code) (mod10 : Nat) (imm : Nat) : IWord := { g := always, d, mod10 := BitVec.ofNat 10 mod10, imm := BitVec.ofNat 32 imm }
def ew (o1 : Code := 0) (o2 : Code := 0) (o3 : Code := 0) (o4 : Code := 0) (o5 : Code := 0) (fl : Bool := false) : EWord :=
  { la := 0, g := always, fl, o1, o2, o3, o4, o5 }

/-- An unfinished instruction with its word, and the values of its operands. -/
def ent (word : DWord) (opv : List Word := []) (dst : List RegRef := []) (st : Nat := 0) (queued : Bool := false) : Entry :=
  { id := 9, word, pc := 0x1080, st, opv, dst, queued }

/-- Operand maps of one block, kinds A and B. -/
def omA : OMap := { w := 2, split := false, kind := 0, off := 0x1000, rt := 1, kt := 1, sel := 0 }
def omB : OMap := { w := 0, split := false, kind := 1, off := 0x2000, rt := 1, kt := 1, sel := 0 }
/-- A matrix command in the queue of quarter 0. -/
def mcmd (i : Instr) (opv : List Word) (maps : List OMap := []) (running : Bool := true) : MCmd :=
  { idx := 0, word := (encode i).getD 0, opv, slot := 0, threads := [th0.tid], maps, running }
/-- Two tiles of team 0 at version 3, a shadow of the first, and a command. -/
def tile1 : AccTile := { idx := 1, owner := some 0, ver := 3, data := (List.range 256).map fun k => BitVec.ofNat 32 (0x3F800000 + 0x1000 * k) }
def shadow1 : Shadow := { idx := 0, bound := some (0, 1, 7), data := List.replicate 256 0x40000000 }
def stMat (cs : List MCmd) : State :=
  { poke (2 ^ 42 + 0x1000) 64 0x0102030405060708090A0B0C0D0E0F10111213141516 (poke (2 ^ 42 + 0x2000) 64 0x8182838485868788898A8B8C8D8E8F st0) with
    quarters := [{ core := 0, qtr := 0, acc := [tile1, { tile1 with idx := 2 }, { tile1 with idx := 3 }], shadows := [shadow1], mq := cs }] }
/-- A KV space: root at 0x3000, space record at 0x3040 (one layer, one head, head dimension 64, f16, P 16), directory at
0x4000, its leaf at 0x6000, the record of sequence 5 at 0x3080 (LEN 3, SCAP 64), head map at 0x9000, its page list at 0xA000,
the page at 0xC000. -/
def stKv (st : State := st0) : State :=
  poke 0x3000 64 (1 + 0x4000 * 2 ^ 64 + 0x3040 * 2 ^ 128) <| poke 0x3040 64 0x20000 <| poke 0x4000 8 0x6000 <|
    poke 0x6028 8 0x3080 <| poke 0x3080 64 (3 + 64 * 2 ^ 32 + 0x8000 * 2 ^ 64 + 0x9000 * 2 ^ 128 + 2 ^ 256) <|
    poke 0x9000 8 0xA000 <| poke 0xA000 8 (2 ^ 62 + 0xC000) st
def kvSeq : KvSeq := { va := 0x3080, len := 3, scap := 64, score := 0x8000, hmap := 0x9000, marks := 1 }
/-- A thread in a section of domain 0 with the root, the sequence and two operands. -/
def thKv (a b : Nat) : Thread := { regs [(4, 0x3000), (6, 5), (8, a), (10, b)] with depth := [1, 0, 0, 0, 0, 0, 0, 0] }
/-- A packet of one K row at position `p`, f32 rows, into scratchpad 0x1000. -/
def kvPkt (p : Nat) : Nat :=
  0x3000 + 2 ^ 64 + 5 * 2 ^ 96 + 2 ^ 144 + p * 2 ^ 160 + 2 ^ 192 + 0x1000 * 2 ^ 224 + 0x400 * 2 ^ 256 + 3 * 2 ^ 352 + 2 ^ 383
    + 0x3080 * 2 ^ 384
def kvArgs : KvArgs := { pkt := 0x200, space := 0x20000, age := 0, started := true }
def kvCmd (a : KvArgs) : CopyCmd :=
  { idx := 0, slot := 0, tid := th0.tid, pc := 0x1080, word := 0, opv := [], job := .kv a, left := 256 }
def kvAway : Away := { entry := 0xA000, seq := 5, layer := 0, head := 0, page := 0, swtag := 9 }
/-- Chips 0 and 1 joined by one link, and the other links silent. -/
def linkTo (c : Nat) : List LinkEntry := { v := true, lup := true, pport := 0, seq := 1, pchip := c } :: List.replicate 11 noLink
def podMap : LinkMap := { rows := [(0, 1, linkTo 1), (1, 1, linkTo 0)], mySeq := 1, epoch := 2 }
/-- Domain 2 over both chips, seen from chip `self`. -/
def stPod (self : Nat) (x : Domain) : State :=
  { st0 with podcfg := BitVec.ofNat 32 self, podmask := 3, linkMap := podMap, domains := [x], threads := [] }
def dom2 : Domain := { d := 2, en := true, s := 7, c := 6 }
def stDom (x : Domain) : State := { st0 with domains := [x] }
/-- An entry of domain 2 that pushes one page onto pool 3, and one that adds 5 to a word. -/
def retPage : RetireEntry := { addr := 0x7000, pasid := 1, len := 4096, cword := 0, tag := 4, ctl := 0xD02 }
def retWord : RetireEntry := { addr := 0x7000, pasid := 1, len := 4096, cword := 0x8000, tag := 4, ctl := 0x50202 }
/-- A collective record: all-reduce of 4 f32 over chips 0 and 1, chunks of 4 KiB. -/
def collRaw : Nat :=
  3 * 2 ^ 23 + 0x55 * 2 ^ 32 + 4 * 2 ^ 64 + 12 * 2 ^ 96 + 0x4000 * 2 ^ 128 + 0x5000 * 2 ^ 192 + 0x6000 * 2 ^ 256 + 3 * 2 ^ 512
def collRcd : CollRec := parseColl collRaw
/-- Chip 1's slot for it, and the JOIN of a chip. -/
def coll1 : Coll := { slot := 0, gen := 3, rcd := collRcd, core := 0, team := 0, lslot := 0, pasid := 1 }
def collJoinOf (c : Nat) : JoinMsg :=
  { src := c, cid := 0x55, op := 0, ty := 0, rop := 0, root := 0, nelem := 4, lchunk := 12, maxtree := 0, part := 3 }
def edge01 : Edge := { a := 0, k := 1, b := 1, k2 := 0 }
def edge00 : Edge := { a := 0, k := 0, b := 1, k2 := 0 }
def stColl (self : Nat) (xs : List Coll) : State := { stPod self dom2 with colls := xs }
def stCoord (self : Nat) (cs : List Coord) : State := { stPod self dom2 with coords := cs }
/-- Instructions on their way, with their operands captured: RCP v3, v4; WAITZ [v4 + 0x20]; TCOPY. -/
def rcpEnt : Entry := ent ((encode (.rcp (fw 3 4 0 0 .f32))).getD 0) [0x40000000] [.v 3]
def waitzEnt : Entry := { ent ((encode (.waitz (iw 0 4 0x20))).getD 0) [0x3020] with parks := true, tag := 3 }
/-- A store of v5 at [v4]. -/
def storeEnt : Entry := ent ((encode (.st (mw 5 4 8 0))).getD 0) [5, 0x3000, 0]
def tcopyEnt : Entry :=
  { ent ((encode (.tcopy (ew 10 12 14 16 18))).getD 0) [0x100, 0x3000, 0, 0x2000, 0, 0x400, 0, 0] with parks := true, tag := 3 }
/-- Handles of subscriptions, a subscription of 128 bytes at 0x3000, and one of its updates. -/
def subOf (h : Nat) : Sub :=
  { handle := h, slot := 0, pasid := 1, va := 0x3000, parts := [{ pa := 0x3000, off := 0, len := 128 }], len := 128, mirror := 0x400 }
def subUpd (n : Nat) : SubUpd := { seq := n, src := 0, addr := 0x3010, bytes := [0x5A] }
/-- A ring of 4 slots at scratchpad 0x800 of core 0, and a message for it. -/
def ring0 : Ring := { idx := 2, slot := 0, off := 0x800, logn := 2 }
def msg0 : Msg := { dst := 0, ring := 2, payload := [1, 2, 3, 4], seq := 9, slot := 0, order := 1 }
/-- A launch record for KDESC 0x2000 with one item and one team, and its descriptor. -/
def recRaw : Nat := 0x2000 + 0x77 * 2 ^ 64 + 2 ^ 0x80 + 2 ^ 0xA0 + 1 * 2 ^ 0xE0 + 50 * 2 ^ 0x100 + 0xFFFF * 2 ^ 0x140
def descRaw : Nat :=
  1 + 0x80 * 2 ^ 32 + (8 + 8 * 2 ^ 18) * 2 ^ 96 + (512 + 2 * 2 ^ 16) * 2 ^ 128 + 0x400 * 2 ^ 160 + (8 + 64 * 2 ^ 13 + 8 * 2 ^ 22) * 2 ^ 192
/-- Queue 3 of 4 records at 0x4000 (PROGEN set or not), with `n` records waiting from `h` on. -/
def queueOf (progen : Bool) (n h : Nat) : QueueSt :=
  { q := 3, qbase := 0x4000, qctl := if progen then 0x209 else 0x201, head := BitVec.ofNat 32 h, tail := BitVec.ofNat 32 (h + n) }
def stQueue (x : QueueSt) (s : State := st0) : State := { s with queues := [x], launches := [], threads := [], teams := [] }
/-- A launch that waits for a counter at 0x3000 to reach 5. -/
def waiting : Launch :=
  { slot := 2, queue := 3, order := 4, rcd := { parseRecord recRaw with dep := [(0x3000, 5), (0, 0), (0, 0), (0, 0)] }
    depMet := [false, true, true, true] }
def beginning : Launch := { waiting with depMet := List.replicate 4 true }
/-- A launch at its end, with a status word at 0x5000 and a completion counter at 0x5008. -/
def ended (code : Nat) (cc : Nat) : Launch :=
  { waiting with
    rcd := { parseRecord recRaw with status := 0x5000, cc := BitVec.ofNat 64 cc, ccinc := 7 }, phase := .ending 0, code, retired := 9 }
def smallDesc : Desc := parseDesc descRaw
def running : Launch := { waiting with phase := .running, desc := some smallDesc, rcd := { parseRecord recRaw with items := 8, status := 0 } }
def smallTeam : Team := { Team.fresh running smallDesc 0 Loader.spot with batch := [5, 7] }
def stLaunch (l : Launch) (s : State := st0) : State := { s with launches := [l], threads := [], teams := [], groups := [], quarters := [] }
def idleTh : Thread := { th0 with lslot := 2, idle := true }
/-- A state in which the end of a NAP is due. -/
def stDue : State := { st0 with threads := [{ th0 with wait := .nap 0 }] }
/-- The state after a conventional reset with signed firmware of version 0. -/
def resetOf (s : State) : State := match execConventionalReset 0 true s with | .next t => t | _ => s
theorem resetOf_next (s : State) : exec (.conventionalReset 0 true) s = .next (resetOf s) := rfl
/-- A weak load LD v2, [v4 + v8] with its address captured, and a KVLD of the packet at 0x200. -/
def ldEnt : Entry := ent ((encode (.ld (mw 2 4 8 0))).getD 0) [0x3004, 0] [.v 2]
def ldPage (st : Nat) (queued ats : Bool) : Entry :=
  { ldEnt with st, queued, parks := queued, page := some { key := { pasid := 1, vpn := 3, intent := .read }, ats }, fa := 0x3004 }
def kvldEnt : Entry := { ent ((encode (.kvld (ew 8))).getD 0) [0x200] with parks := true, tag := 3 }

/-! ### The premises of statements, from conditions that a computation decides -/

theorem solo_of {i : Instr} {s : State} {th : Thread}
    (h : s.cur.threads = [th.tid] ∧ s.threads.filter (fun x => x.tid = th.tid) = [th] ∧ decodeCause s i (usesOf i) th = none ∧
      guardTrue (guardOf i) th = true ∧ runCause s i (usesOf i) th = none ∧ ((usesOf i).pops = [] ∧ (usesOf i).pushes = []) ∧
      (s.cur.core = th.tid.core ∧ s.cur.qtr = th.tid.qtr ∧ s.cur.lslot = th.lslot ∧ s.cur.pc = th.pc) ∧ th.grp < 512 ∧
      th.wait = .ready ∧ th.pending = none ∧ ∀ x ∈ s.threads, ∀ e ∈ x.unf, e.tag ≠ s.clock) : Solo i s th :=
  ⟨h.1, h.2.1, h.2.2.1, h.2.2.2.1, h.2.2.2.2.1, h.2.2.2.2.2.1, h.2.2.2.2.2.2.1, h.2.2.2.2.2.2.2.1, h.2.2.2.2.2.2.2.2.1,
    h.2.2.2.2.2.2.2.2.2.1, h.2.2.2.2.2.2.2.2.2.2⟩

theorem calm_of {s : State}
    (h : (∀ c ∈ s.cores, c.red = [] ∧ c.subs = [] ∧ c.l1 = []) ∧ s.hostHeld = [] ∧ s.choices = [] ∧ s.memOk = true ∧ s.lag = []) : EngCalm s :=
  ⟨h.1, h.2.1, h.2.2.1, h.2.2.2.1, h.2.2.2.2⟩

theorem access_of {s : State} {th : Thread}
    (h : th.unf = [] ∧ (∀ c ∈ s.cores, c.red = [] ∧ c.subs = [] ∧ c.ranges = []) ∧ s.hostHeld = [] ∧ s.choices = [] ∧
      s.lag = []) : CalmAccess s th :=
  ⟨h.1, h.2.1, h.2.2.1, h.2.2.2.1, h.2.2.2.2⟩

theorem trap_of {s : State} {th : Thread}
    (h : s.threads.filter (fun x => x.tid = th.tid) = [th] ∧ th.pending = none ∧ th.halt = none ∧ th.idle = false ∧
      th.settled = true) : Trappable s th :=
  ⟨h.1, h.2.1, h.2.2.1, h.2.2.2.1, h.2.2.2.2⟩

theorem plain_of {s : State} {a n : Nat}
    (h : a + n ≤ 2 ^ 40 ∧ s.hostHeld = [] ∧ (∀ c ∈ s.cores, c.red = []) ∧ s.poisoned a n = false) : PlainMemory s a n :=
  ⟨h.1, h.2.1, h.2.2.1, h.2.2.2⟩

theorem noQ_of {i : Instr} {th : Thread} (h : ((destOf i th).all fun r => match r with | .q _ => false | _ => true) = true) :
    noQueueDest i th := fun _ hk => by simpa using List.all_eq_true.mp h _ hk

theorem kv_of {i : Instr} {s : State} {th : Thread}
    (h : (s.cur.threads = [th.tid] ∧ s.threads.filter (fun x => x.tid = th.tid) = [th] ∧ decodeCause s i (usesOf i) th = none ∧
      guardTrue (guardOf i) th = true ∧ runCause s i (usesOf i) th = none ∧ ((usesOf i).pops = [] ∧ (usesOf i).pushes = []) ∧
      (s.cur.core = th.tid.core ∧ s.cur.qtr = th.tid.qtr ∧ s.cur.lslot = th.lslot ∧ s.cur.pc = th.pc) ∧ th.grp < 512 ∧
      th.wait = .ready ∧ th.pending = none ∧ ∀ x ∈ s.threads, ∀ e ∈ x.unf, e.tag ≠ s.clock) ∧ th.unf = [] ∧
      ((∀ c ∈ s.cores, c.red = [] ∧ c.subs = [] ∧ c.l1 = []) ∧ s.hostHeld = [] ∧ s.choices = [] ∧ s.memOk = true ∧ s.lag = []) ∧
      ((destOf i th).all fun r => match r with | .q _ => false | _ => true) = true ∧ (s.core th.tid.core).ranges = [] ∧
      (s.die (dieOf th.tid.core)).walk = []) : KvReady i s th :=
  ⟨solo_of h.1, h.2.1, calm_of h.2.2.1, noQ_of h.2.2.2.1, h.2.2.2.2.1, h.2.2.2.2.2⟩

theorem collReady_of {i : Instr} {s : State} {th : Thread}
    (h : (s.cur.threads = [th.tid] ∧ s.threads.filter (fun x => x.tid = th.tid) = [th] ∧ decodeCause s i (usesOf i) th = none ∧
      guardTrue (guardOf i) th = true ∧ runCause s i (usesOf i) th = none ∧ ((usesOf i).pops = [] ∧ (usesOf i).pushes = []) ∧
      (s.cur.core = th.tid.core ∧ s.cur.qtr = th.tid.qtr ∧ s.cur.lslot = th.lslot ∧ s.cur.pc = th.pc) ∧ th.grp < 512 ∧
      th.wait = .ready ∧ th.pending = none ∧ ∀ x ∈ s.threads, ∀ e ∈ x.unf, e.tag ≠ s.clock) ∧ th.unf = [] ∧
      ((∀ c ∈ s.cores, c.red = [] ∧ c.subs = [] ∧ c.l1 = []) ∧ s.hostHeld = [] ∧ s.choices = [] ∧ s.memOk = true ∧ s.lag = []) ∧
      ((destOf i th).all fun r => match r with | .q _ => false | _ => true) = true) : CollReady i s th :=
  ⟨solo_of h.1, h.2.1, calm_of h.2.2.1, noQ_of h.2.2.2⟩

theorem coll_of {s : State} {x : Coll}
    (h : s.colls = [x] ∧ x.state < 4 ∧ x.rcd.coordChip ≠ s.selfChip ∧ s.coord? x.rcd.cid = none ∧ (x.ntree < 16 ∧ x.code < 256) ∧
      ((∀ c ∈ s.cores, c.red = [] ∧ c.subs = [] ∧ c.l1 = []) ∧ s.hostHeld = [] ∧ s.choices = [] ∧ s.memOk = true ∧ s.lag = []) ∧
      s.images = [] ∧ (∀ th ∈ s.threads, th.wait ≠ .rng) ∧ x.pre = false ∧ x.owed = none ∧ x.pauseAt = none) : OneColl s x :=
  ⟨h.1, h.2.1, h.2.2.1, h.2.2.2.1, h.2.2.2.2.1, calm_of h.2.2.2.2.2.1, h.2.2.2.2.2.2.1, h.2.2.2.2.2.2.2.1,
    h.2.2.2.2.2.2.2.2.1, h.2.2.2.2.2.2.2.2.2⟩

theorem own_of {s : State} {x : Coll} {c : Coord}
    (h : s.colls = [x] ∧ x.state < 4 ∧ x.rcd.coordChip = s.selfChip ∧ s.coords = [c] ∧
      (c.cid = x.rcd.cid ∧ c.first.part = x.rcd.part ∧ c.first.maxtree = x.rcd.maxtree ∧ c.epoch = x.epoch) ∧
      (s.selfChip ∈ c.joined ∧ ∃ k ∈ x.rcd.parts, k ≠ s.selfChip) ∧ (x.ntree < 16 ∧ x.code < 256) ∧
      ((∀ c ∈ s.cores, c.red = [] ∧ c.subs = [] ∧ c.l1 = []) ∧ s.hostHeld = [] ∧ s.choices = [] ∧ s.memOk = true ∧
      s.lag = []) ∧ s.images = [] ∧ (∀ th ∈ s.threads, th.wait ≠ .rng) ∧ x.pre = false ∧ x.owed = none ∧ x.pauseAt = none ∧
      x.early = []) : OwnColl s x c :=
  ⟨h.1, h.2.1, h.2.2.1, h.2.2.2.1, h.2.2.2.2.1, h.2.2.2.2.2.1, h.2.2.2.2.2.2.1, calm_of h.2.2.2.2.2.2.2.1,
    h.2.2.2.2.2.2.2.2.1, h.2.2.2.2.2.2.2.2.2.1, h.2.2.2.2.2.2.2.2.2.2.1, h.2.2.2.2.2.2.2.2.2.2.2⟩

theorem launch_of {s : State} {l : Launch} (h : s.launches = [l] ∧ (l.endWait = none ∧ l.endLine = none) ∧ l.rcd.teammap = 0) : OneLaunch s l :=
  ⟨h.1, h.2.1, h.2.2⟩

theorem group_of {i : Instr} {s : State} {sl g : Nat} {ps : List Thread}
    (h : s.cur.threads = ps.map Thread.tid ∧ s.groupThreads s.cur.core sl g = ps ∧ (s.threads.map Thread.tid).Nodup ∧
      (∀ x ∈ ps, x.tid.core = s.cur.core ∧ x.tid.qtr = s.cur.qtr ∧ x.lslot = s.cur.lslot ∧ x.pc = s.cur.pc) ∧
      (∀ x ∈ ps, x.wait = .ready ∧ x.handler = false ∧ x.halt = none ∧ x.pending = none) ∧ g < 512 ∧
      (∀ x ∈ ps, decodeCause s i (usesOf i) x = none ∧ runCause s i (usesOf i) x = none) ∧
      ((usesOf i).pops = [] ∧ (usesOf i).pushes = [])) : GroupAtWord i s sl g ps :=
  ⟨h.1, h.2.1, h.2.2.1, h.2.2.2.1, h.2.2.2.2.1, h.2.2.2.2.2.1, h.2.2.2.2.2.2.1, h.2.2.2.2.2.2.2⟩

/-- A decidable form of an answer that is not compared as data. -/
def okB {α β : Type} [DecidableEq β] (x : Except α β) (y : β) : Bool := match x with | .ok z => z = y | _ => false
def errB {α β : Type} [DecidableEq α] (x : Except α β) (y : α) : Bool := match x with | .error z => z = y | _ => false
theorem ok_of {α β : Type} [DecidableEq β] {x : Except α β} {y : β} (h : okB x y = true) : x = .ok y := by
  unfold okB at h; split at h <;> simp_all
theorem err_of {α β : Type} [DecidableEq α] {x : Except α β} {y : α} (h : errB x y = true) : x = .error y := by
  unfold errB at h; split at h <;> simp_all

/-- No wait of any thread is for an action of `t`. -/
def noFollow (s : State) (t : ThreadId) : Bool := s.threads.all fun x =>
  [x.wait, x.resume, x.outer].all fun w => match w with | .eng (.acting u _) => !decide (u = t) | _ => true
theorem follow_of {s : State} {t : ThreadId} (h : noFollow s t = true) : s.noFollowers t := by
  intro x hx id
  have := List.all_eq_true.mp h x hx
  simp only [List.all_cons, List.all_nil, Bool.and_true, Bool.and_eq_true] at this
  obtain ⟨h1, h2, h3⟩ := this
  simp only [Thread.waitsActing, Bool.or_eq_false_iff, decide_eq_false_iff_not]
  refine ⟨⟨?_, ?_⟩, ?_⟩ <;> intro e <;> simp_all

theorem parked_of {s : State} {th : Thread} {e : Entry} {i : Instr}
    (h : s.threads = [th] ∧ th.unf = [e] ∧ okB (decodeWord e.word) i = true ∧
      (e.st = 0 ∧ e.queued = false ∧ e.page = none ∧ e.parks = true ∧ e.val = none) ∧ e.dst.all RegRef.isV = true ∧
      th.wait = .eng .entry ∧ th.pending = none ∧ noFollow s th.tid = true) : ParkedOn s th e i :=
  ⟨h.1, h.2.1, ok_of h.2.2.1, h.2.2.2.1, h.2.2.2.2.1, h.2.2.2.2.2.1, h.2.2.2.2.2.2.1, follow_of h.2.2.2.2.2.2.2⟩

theorem loneLoad_of {s : State} {th : Thread} {e : Entry} {i : Instr} {a : Acc}
    (h : (s.threads = [th] ∧ th.unf = [e] ∧ noFollow s th.tid = true) ∧ okB (decodeWord e.word) i = true ∧
      (accOf i = some a ∧ a.kind = .load ∧ a.space = 0 ∧ a.order = .weak) ∧
      (e.line = none ∧ e.val = none ∧ e.retry = 0 ∧ e.dst.all RegRef.isV = true) ∧
      (th.pending = none ∧ th.halt = none ∧ th.idle = false ∧ th.reinj = false ∧ th.handler = false ∧ th.stepping = false ∧
        th.fetchWait = none) ∧
      ((∀ c ∈ s.cores, c.red = [] ∧ c.subs = [] ∧ c.ranges = [] ∧ c.l1 = [] ∧ c.copy = []) ∧ s.hostHeld = [] ∧
        s.choices = [] ∧ s.lag = []) ∧
      ((∀ l ∈ s.launches, l.endWait = none) ∧ s.retire = [] ∧ s.colls = [] ∧ s.images = [])) : LoneLoad s th e i a :=
  ⟨⟨h.1.1, h.1.2.1, follow_of h.1.2.2⟩, ok_of h.2.1, h.2.2.1, h.2.2.2.1, h.2.2.2.2.1, h.2.2.2.2.2.1, h.2.2.2.2.2.2⟩

/-- A fault or a next state of a step, compared as data. -/
def faultB (o : Host.Outcome State Fault Refusal) (f : Fault) : Bool := match o with | .fault g => g = f | _ => false
def nextB (o : Host.Outcome State Fault Refusal) (t : State) : Bool := match o with | .next u => u = t | _ => false
theorem fault_of {o : Host.Outcome State Fault Refusal} {f : Fault} (h : faultB o f = true) : o = .fault f := by
  unfold faultB at h; split at h <;> simp_all
theorem next_of {o : Host.Outcome State Fault Refusal} {t : State} (h : nextB o t = true) : o = .next t := by
  unfold nextB at h; split at h <;> simp_all

theorem noAssign {th : Thread} (h : th.wait = .ready) : ∀ c, th.wait ≠ .eng (.assign c) := by rw [h]; nofun
theorem noPrefetch {a : Acc} (h : (match a.kind with | .prefetch _ => false | _ => true) = true) :
    ∀ b, a.kind ≠ .prefetch b := by intro b hb; rw [hb] at h; cases h

/-- `EngSees` where device addresses equal virtual ones. -/
abbrev Sees (s : State) (x : Eng) (va n v : Nat) : Prop :=
  va < 2 ^ 64 ∧ canonical va = true ∧ va % 4096 + n ≤ 4096 ∧ s.trans (.die (dieOf x.core)) x.pasid va .read = .ok va ∧ va + n ≤ 2 ^ 42 ∧
    (∀ p ∈ s.poison, p + 8 ≤ va ∨ va + n + 4 ≤ p) ∧ s.value va n = v
theorem sees_of {s : State} {x : Eng} {va n v : Nat} (h : Sees s x va n v) : EngSees s x va n v :=
  ⟨h.1, h.2.1, h.2.2.1, va, h.2.2.2⟩
theorem sees_range {s : State} {x : Eng} {m n : Nat} {f g : Nat → Nat} (h : ∀ i, i < m → Sees s x (f i) n (g i)) :
    ∀ i, i < m → EngSees s x (f i) n (g i) := fun i hi => sees_of (h i hi)
theorem root_of {s : State} {x : Eng} {th : Thread} {va : Nat} {r : KvRoot} {w : Nat}
    (h : (Sees s x va 64 (s.value va 64) ∧ fld (s.value va 64) 32 32 = 0 ∧ fld (s.value va 64) 192 320 = 0 ∧
        r = { version := fld (s.value va 64) 0 32, dir := fld (s.value va 64) 64 64, space := fld (s.value va 64) 128 64 }) ∧
      (Sees s x r.space 64 (s.value r.space 64) ∧ w = fld (s.value r.space 64) 0 32 ∧ fld w 23 9 = 0 ∧
        fld (s.value r.space 64) 32 32 = 0 ∧ fld (s.value r.space 64) 128 384 = 0 ∧ fld w 18 2 ≠ 3 ∧ 2 * spP w * spRb w ≤ 16384) ∧
      (va % 64 = 0 ∧ canonical va = true ∧ r.space % 64 = 0 ∧ canonical r.space = true) ∧ (th.depth[spDom w]?).getD 0 ≠ 0) :
    RootAt s x th va r w :=
  ⟨⟨_, sees_of h.1.1, h.1.2⟩, ⟨_, sees_of h.2.1.1, h.2.1.2⟩, h.2.2.1, h.2.2.2⟩

theorem packetOk_of {s : State} {x : Eng} {th : Thread} {e : Entry} {r : KvRoot} {sp : Nat} {k : Packet}
    (h : (s.badSpan x (e.w 0) 64 64 = false ∧ ∀ p ∈ s.poison, p + 8 ≤ x.spa (e.w 0) ∨ x.spa (e.w 0) + 64 + 4 ≤ p) ∧
      (k = parsePacket (s.value (x.spa (e.w 0)) 64) ∧ k.valid = true) ∧
      (packetOk (s.value (x.spa (e.w 0)) 64) 1 (s.feature 6) = true ∧
        packetOk (s.value (x.spa (e.w 0)) 64) (spHd sp) (s.feature 6) = true) ∧
      ((Sees s x k.root 64 (s.value k.root 64) ∧ fld (s.value k.root 64) 32 32 = 0 ∧ fld (s.value k.root 64) 192 320 = 0 ∧
          r = { version := fld (s.value k.root 64) 0 32, dir := fld (s.value k.root 64) 64 64
                space := fld (s.value k.root 64) 128 64 }) ∧
        (Sees s x r.space 64 (s.value r.space 64) ∧ sp = fld (s.value r.space 64) 0 32 ∧ fld sp 23 9 = 0 ∧
          fld (s.value r.space 64) 32 32 = 0 ∧ fld (s.value r.space 64) 128 384 = 0 ∧ fld sp 18 2 ≠ 3 ∧
          2 * spP sp * spRb sp ≤ 16384) ∧
        (k.root % 64 = 0 ∧ canonical k.root = true ∧ r.space % 64 = 0 ∧ canonical r.space = true) ∧
        (th.depth[spDom sp]?).getD 0 ≠ 0) ∧
      r.version = k.version ∧ (k.layer < spLayers sp ∧ k.head < spHeads sp) ∧
      s.badSpan x k.dst (k.shape (spHd sp)).span (k.shape (spHd sp)).align = false ∧ s.badSpan x k.comp 16 16 = false ∧
      (s.value (x.spa k.comp) 4 + k.countFrom (k.shape (spHd sp)) (k.restart / k.rowBlock) ≤ 2 ^ 31 - 1 ∧
        s.value (x.spa (k.comp + 4)) 4 % 2 ^ 16 < 0xFFFF)) : PacketOk s x th e r sp k :=
  ⟨h.1, h.2.1, h.2.2.1, root_of h.2.2.2.1, h.2.2.2.2.1, h.2.2.2.2.2.1, h.2.2.2.2.2.2.1, h.2.2.2.2.2.2.2.1, h.2.2.2.2.2.2.2.2⟩

theorem seq_of {s : State} {x : Eng} {sq : KvSeq}
    (h : Sees s x sq.va 64 (s.value sq.va 64) ∧ fld (s.value sq.va 64) 23 9 = 0 ∧ fld (s.value sq.va 64) 192 64 = 0 ∧
      sq.len ≤ 2 ^ 22 ∧ sq.score % 4 = 0 ∧ sq.hmap % 8 = 0 ∧ canonical sq.score = true ∧ canonical sq.hmap = true ∧
      sq = { va := sq.va, len := fld (s.value sq.va 64) 0 23, scap := fld (s.value sq.va 64) 32 32
             score := fld (s.value sq.va 64) 64 64, hmap := fld (s.value sq.va 64) 128 64
             marks := fld (s.value sq.va 64) 256 256 }) : SeqAt s x sq :=
  ⟨_, sees_of h.1, h.2⟩

theorem dir_of {s : State} {x : Eng} {dir q rec : Nat}
    (h : dir % 8192 = 0 ∧ canonical dir = true ∧
      Sees s x (dir + 8 * (q / 1024)) 8 (s.value (dir + 8 * (q / 1024)) 8) ∧ s.value (dir + 8 * (q / 1024)) 8 ≠ 0 ∧
      s.value (dir + 8 * (q / 1024)) 8 % 8192 = 0 ∧ canonical (s.value (dir + 8 * (q / 1024)) 8) = true ∧
      Sees s x (s.value (dir + 8 * (q / 1024)) 8 + 8 * (q % 1024)) 8 rec ∧ rec ≠ 0 ∧ rec % 64 = 0 ∧ canonical rec = true) :
    DirAt s x dir q rec :=
  ⟨h.1, h.2.1, _, sees_of h.2.2.1, h.2.2.2.1, h.2.2.2.2.1, h.2.2.2.2.2.1, sees_of h.2.2.2.2.2.2.1, h.2.2.2.2.2.2.2⟩

theorem page_of {s : State} {x : Eng} {w : Nat} {sq : KvSeq} {layer head page : Nat} {pg : KvPage}
    (h : Sees s x (sq.hmap + 8 * (layer * spHeads w + head)) 8 (s.value (sq.hmap + 8 * (layer * spHeads w + head)) 8) ∧
      s.value (sq.hmap + 8 * (layer * spHeads w + head)) 8 ≠ 0 ∧ s.value (sq.hmap + 8 * (layer * spHeads w + head)) 8 % 4096 = 0 ∧
      canonical (s.value (sq.hmap + 8 * (layer * spHeads w + head)) 8) = true ∧ page < 512 ∧
      Sees s x (s.value (sq.hmap + 8 * (layer * spHeads w + head)) 8 + 8 * page) 8
        (s.value (s.value (sq.hmap + 8 * (layer * spHeads w + head)) 8 + 8 * page) 8) ∧
      fld (s.value (s.value (sq.hmap + 8 * (layer * spHeads w + head)) 8 + 8 * page) 8) 62 2 = 1 ∧
      fld (s.value (s.value (sq.hmap + 8 * (layer * spHeads w + head)) 8 + 8 * page) 8) 57 5 = 0 ∧
      fld (s.value (s.value (sq.hmap + 8 * (layer * spHeads w + head)) 8 + 8 * page) 8) 0 14 = 0 ∧
      pg = { va := (if fld (s.value (s.value (sq.hmap + 8 * (layer * spHeads w + head)) 8 + 8 * page) 8) 56 1 = 1
                then fld (s.value (s.value (sq.hmap + 8 * (layer * spHeads w + head)) 8 + 8 * page) 8) 14 43 * 2 ^ 14 + 127 * 2 ^ 57
                else fld (s.value (s.value (sq.hmap + 8 * (layer * spHeads w + head)) 8 + 8 * page) 8) 14 43 * 2 ^ 14)
             host := false, entry := s.value (sq.hmap + 8 * (layer * spHeads w + head)) 8 + 8 * page }) :
    PageAt s x w sq layer head page pg :=
  ⟨_, _, sees_of h.1, h.2.1, h.2.2.1, h.2.2.2.1, h.2.2.2.2.1, sees_of h.2.2.2.2.2.1, h.2.2.2.2.2.2⟩

theorem tile_of {s : State} {x : Eng} {a : CopyArgs} {h : Shape} {pa : Nat}
    (k : (a.shape.toNat % 64 = 0 ∧ canonical a.shape.toNat = true) ∧ s.trans (.die (dieOf x.core)) x.pasid a.shape.toNat .read = .ok pa ∧
      (pa + 64 ≤ 2 ^ 42 ∧ ∀ p ∈ s.poison, p + 8 ≤ pa ∨ pa + 64 + 4 ≤ p) ∧
      (parseShape (s.value pa 64) = h ∧ shapeOk (s.value pa 64) h = true) ∧ (h.split = true → s.feature 6 = true) ∧
      ((a.opc = 2 → h.tr = false) ∧ (a.opc ≠ 2 → winK a % 32 = 0)) ∧ s.badSpan x a.soff h.span h.align = false ∧
      s.badSpan x a.comp 16 16 = false ∧ (a.opc = 2 → s.badSpan x (fld a.arg.toNat 0 32) (4 * h.trows) 4 = false) ∧
      (canonical a.gaddr.toNat = true ∧ (h.fmt ≤ 5 → a.gaddr.toNat % fmtSize h.fmt = 0)) ∧
      (baseVault x a h { st := s }).1 = false) : TileOk s x a h pa :=
  ⟨k.1, k.2.1, k.2.2.1, k.2.2.2.1, k.2.2.2.2.1, k.2.2.2.2.2.1, k.2.2.2.2.2.2.1, k.2.2.2.2.2.2.2.1, k.2.2.2.2.2.2.2.2.1,
    k.2.2.2.2.2.2.2.2.2.1, k.2.2.2.2.2.2.2.2.2.2⟩

theorem matrix_of {s : State} {x : Eng} {qtr : Nat} {m : MCommand} {maps : List OMap}
    (h : (if m.args.onArray then
          (match maps with
            | [a, b] => a.kind = 0 ∧ b.kind = 1 ∧
                ((s.team? x.core x.slot).bind fun tm => (tm.omaps[m.args.amap]?).getD none) = some a ∧
                ((s.team? x.core x.slot).bind fun tm => (tm.omaps[m.args.bmap]?).getD none) = some b ∧
                ∀ y ∈ maps, ∀ p ∈ (y.span (mmaBlocks m a b)).toList, s.badSpan x p.1 p.2 1 = false
            | _ => False)
        else maps = []) ∧
      (∀ t ∈ m.args.named, ((s.quarter x.core qtr).tile t).owner = none ∨ ((s.quarter x.core qtr).tile t).owner = some x.slot) ∧
      (∀ n ∈ m.oBytes.toList, s.badSpan x m.o n 64 = false) ∧
      (m.args.kind ≠ .spdrop ∧ m.args.kind ≠ .spcommit true ∧ m.args.kind ≠ .spcommit false) ∧
      (m.args.kind = .mmas → ((s.quarter x.core qtr).shadowOf (x.slot, m.args.t, m.tok)).isSome = true ∨
        (s.quarter x.core qtr).freeShadow.isSome = true)) : MatrixOk s x qtr m maps := by
  obtain ⟨h1, h2, h3, h4, h5⟩ := h
  refine ⟨?_, h2, fun n hn => h3 n (by simp [hn]), ?_, h5⟩
  · split at h1
    · rw [if_pos ‹_›]
      split at h1
      · exact ⟨_, _, rfl, h1.1, h1.2.1, h1.2.2.1, h1.2.2.2.1, fun y hy p hp => h1.2.2.2.2 y hy p (by simp [hp])⟩
      · exact h1.elim
    · rw [if_neg ‹_›]; exact h1
  · rintro (hk | ⟨r, hk⟩)
    · exact absurd hk h4.1
    · cases r
      · exact absurd hk h4.2.2
      · exact absurd hk h4.2.1

/-! ### Words written out from the tables of spec 01

Each word is written field by field as Tables 1.2, 1.5 and 1.7a and R35 lay the fields out, with the opcode of Tables 1.7b, 1.10
and 1.11; every field that the entry uses has a value of its own, and the guard is "not p2" where the form has one. -/

/-- Table 1.2: OP9, LA, GN, GP, D, A, B, C, MOD9. -/
def fBits (op la gn gp d a b c m : Nat) : Nat :=
  ((((((((0 * 2 ^ 9 + op) * 2 ^ 4 + la) * 2 + gn) * 2 ^ 3 + gp) * 2 ^ 9 + d) * 2 ^ 9 + a) * 2 ^ 9 + b) * 2 ^ 9 + c) * 2 ^ 9 + m

/-- Table 1.7a: OP7, GN, GP, D, MOD10, IMM32. -/
def iBits (op gn gp d m imm : Nat) : Nat := (((((2 * 2 ^ 7 + op) * 2 + gn) * 2 ^ 3 + gp) * 2 ^ 9 + d) * 2 ^ 10 + m) * 2 ^ 32 + imm

/-- Table 1.5: OP7, DA, B, MOD6 of slot 0, then of slot 1. -/
def pBits (op da b m op' da' b' m' : Nat) : Nat :=
  (((((((1 * 2 ^ 7 + op) * 2 ^ 9 + da) * 2 ^ 9 + b) * 2 ^ 6 + m) * 2 ^ 7 + op') * 2 ^ 9 + da') * 2 ^ 9 + b') * 2 ^ 6 + m'

/-- R35: OP8, LA, GN, GP, FL, O1 to O5. -/
def eBits (op la gn gp fl o1 o2 o3 o4 o5 : Nat) : Nat :=
  (((((((((3 * 2 ^ 8 + op) * 2 ^ 4 + la) * 2 + gn) * 2 ^ 3 + gp) * 2 + fl) * 2 ^ 9 + o1) * 2 ^ 9 + o2) * 2 ^ 9 + o3) * 2 ^ 9 + o4) * 2 ^ 9 + o5

/-- Every word of the list decodes to the instruction beside it. -/
def decodes (l : List (Nat × Instr)) : Bool := l.all fun x => decodeTableWord 64 x.1 = some x.2

/-- Table 1.10, 0x001-0x00A. -/
theorem test_decode_integer : decodes [
    (fBits 0x001 0 1 2 0x3 0x5 0x7 0x0 0b0000_00_001,
      .iadd { la := 0, g := ⟨true, 2⟩, d := 3, a := 5, b := 7, c := 0, ty := .b32, rnd := .rne, f2 := false, f1 := false, f0 := true }),
    (fBits 0x002 0 1 2 0x3 0x5 0x7 0x0 0b0000_00_001,
      .isub { la := 0, g := ⟨true, 2⟩, d := 3, a := 5, b := 7, c := 0, ty := .b32, rnd := .rne, f2 := false, f1 := false, f0 := true }),
    (fBits 0x003 0 1 2 0x3 0x5 0x7 0x0 0b0000_00_000,
      .imul { la := 0, g := ⟨true, 2⟩, d := 3, a := 5, b := 7, c := 0, ty := .b32, rnd := .rne, f2 := false, f1 := false, f0 := false }),
    (fBits 0x004 0 1 2 0x3 0x5 0x7 0x0 0b0000_00_000,
      .imulhi { la := 0, g := ⟨true, 2⟩, d := 3, a := 5, b := 7, c := 0, ty := .b32, rnd := .rne, f2 := false, f1 := false, f0 := false }),
    (fBits 0x005 0 1 2 0x3 0x5 0x7 0x0 0b0000_00_000,
      .imulw { la := 0, g := ⟨true, 2⟩, d := 3, a := 5, b := 7, c := 0, ty := .b32, rnd := .rne, f2 := false, f1 := false, f0 := false }),
    (fBits 0x006 0 1 2 0x3 0x5 0x7 0x9 0b0000_00_001,
      .imad { la := 0, g := ⟨true, 2⟩, d := 3, a := 5, b := 7, c := 9, ty := .b32, rnd := .rne, f2 := false, f1 := false, f0 := true }),
    (fBits 0x007 0 1 2 0x3 0x5 0x7 0x0 0b0000_00_000,
      .imin { la := 0, g := ⟨true, 2⟩, d := 3, a := 5, b := 7, c := 0, ty := .b32, rnd := .rne, f2 := false, f1 := false, f0 := false }),
    (fBits 0x008 0 1 2 0x3 0x5 0x7 0x0 0b0000_00_000,
      .imax { la := 0, g := ⟨true, 2⟩, d := 3, a := 5, b := 7, c := 0, ty := .b32, rnd := .rne, f2 := false, f1 := false, f0 := false }),
    (fBits 0x009 0 1 2 0x3 0x5 0x7 0x0 0b0000_00_000,
      .iabsd { la := 0, g := ⟨true, 2⟩, d := 3, a := 5, b := 7, c := 0, ty := .b32, rnd := .rne, f2 := false, f1 := false, f0 := false }),
    (fBits 0x00A 0 1 2 0x3 0x5 0x7 0x9 0b1001_00_001,
      .idot4 { la := 0, g := ⟨true, 2⟩, d := 3, a := 5, b := 7, c := 9, ty := .b8x4, rnd := .rne, f2 := false, f1 := false, f0 := true })] = true := by decide +kernel

/-- Table 1.10, 0x010-0x01D. -/
theorem test_decode_logicAndFields : decodes [
    (fBits 0x010 0 1 2 0x3 0x5 0x7 0x0 0b0000_00_000,
      .andW { la := 0, g := ⟨true, 2⟩, d := 3, a := 5, b := 7, c := 0, ty := .b32, rnd := .rne, f2 := false, f1 := false, f0 := false }),
    (fBits 0x011 0 1 2 0x3 0x5 0x7 0x0 0b0000_00_000,
      .orW { la := 0, g := ⟨true, 2⟩, d := 3, a := 5, b := 7, c := 0, ty := .b32, rnd := .rne, f2 := false, f1 := false, f0 := false }),
    (fBits 0x012 0 1 2 0x3 0x5 0x7 0x0 0b0000_00_000,
      .xorW { la := 0, g := ⟨true, 2⟩, d := 3, a := 5, b := 7, c := 0, ty := .b32, rnd := .rne, f2 := false, f1 := false, f0 := false }),
    (fBits 0x013 0 1 2 0x3 0x5 0x7 0x0 0b0000_00_000,
      .andn { la := 0, g := ⟨true, 2⟩, d := 3, a := 5, b := 7, c := 0, ty := .b32, rnd := .rne, f2 := false, f1 := false, f0 := false }),
    (fBits 0x014 0 1 2 0x3 0x5 0x7 0x0 0b0000_00_001,
      .shl { la := 0, g := ⟨true, 2⟩, d := 3, a := 5, b := 7, c := 0, ty := .b32, rnd := .rne, f2 := false, f1 := false, f0 := true }),
    (fBits 0x015 0 1 2 0x3 0x5 0x7 0x0 0b0000_00_001,
      .shr { la := 0, g := ⟨true, 2⟩, d := 3, a := 5, b := 7, c := 0, ty := .b32, rnd := .rne, f2 := false, f1 := false, f0 := true }),
    (fBits 0x016 0 1 2 0x3 0x5 0x7 0x0 0b0000_00_001,
      .sar { la := 0, g := ⟨true, 2⟩, d := 3, a := 5, b := 7, c := 0, ty := .b32, rnd := .rne, f2 := false, f1 := false, f0 := true }),
    (fBits 0x017 0 1 2 0x3 0x5 0x7 0x9 0b0000_00_010,
      .fshf { la := 0, g := ⟨true, 2⟩, d := 3, a := 5, b := 7, c := 9, ty := .b32, rnd := .rne, f2 := false, f1 := true, f0 := false }),
    (fBits 0x018 0 1 2 0x3 0x5 0x7 0x9 0b0000_00_000,
      .bfe { la := 0, g := ⟨true, 2⟩, d := 3, a := 5, b := 7, c := 9, ty := .b32, rnd := .rne, f2 := false, f1 := false, f0 := false }),
    (fBits 0x019 0 1 2 0x3 0x5 0x7 0x9 0b0000_00_000,
      .bfi { la := 0, g := ⟨true, 2⟩, d := 3, a := 5, b := 7, c := 9, ty := .b32, rnd := .rne, f2 := false, f1 := false, f0 := false }),
    (fBits 0x01A 0 1 2 0x3 0x5 0x0 0x0 0b0000_00_000,
      .popc { la := 0, g := ⟨true, 2⟩, d := 3, a := 5, b := 0, c := 0, ty := .b32, rnd := .rne, f2 := false, f1 := false, f0 := false }),
    (fBits 0x01B 0 1 2 0x3 0x5 0x0 0x0 0b0000_00_000,
      .clz { la := 0, g := ⟨true, 2⟩, d := 3, a := 5, b := 0, c := 0, ty := .b32, rnd := .rne, f2 := false, f1 := false, f0 := false }),
    (fBits 0x01C 0 1 2 0x3 0x5 0x0 0x0 0b0000_00_000,
      .brev { la := 0, g := ⟨true, 2⟩, d := 3, a := 5, b := 0, c := 0, ty := .b32, rnd := .rne, f2 := false, f1 := false, f0 := false }),
    (fBits 0x01D 0 1 2 0x3 0x5 0x7 0x9 0b0000_00_010,
      .prmt { la := 0, g := ⟨true, 2⟩, d := 3, a := 5, b := 7, c := 9, ty := .b32, rnd := .rne, f2 := false, f1 := true, f0 := false })] = true := by decide +kernel

/-- Table 1.10, 0x020-0x026. -/
theorem test_decode_comparesAndMoves : decodes [
    (fBits 0x020 0 1 2 0x3 0x5 0x7 0x9 0b0000_00_101,
      .isetp { la := 0, g := ⟨true, 2⟩, d := 3, a := 5, b := 7, c := 9, ty := .b32, rnd := .rne, f2 := true, f1 := false, f0 := true }),
    (fBits 0x021 0 1 2 0x3 0x5 0x7 0x9 0b0000_00_011,
      .psetp { la := 0, g := ⟨true, 2⟩, d := 3, a := 5, b := 7, c := 9, ty := .b32, rnd := .rne, f2 := false, f1 := true, f0 := true }),
    (fBits 0x022 0 1 2 0x3 0x5 0x7 0x9 0b0000_00_000,
      .sel { la := 0, g := ⟨true, 2⟩, d := 3, a := 5, b := 7, c := 9, ty := .b32, rnd := .rne, f2 := false, f1 := false, f0 := false }),
    (fBits 0x023 0 1 2 0x3 0x5 0x0 0x0 0b0000_00_000,
      .mov { la := 0, g := ⟨true, 2⟩, d := 3, a := 5, b := 0, c := 0, ty := .b32, rnd := .rne, f2 := false, f1 := false, f0 := false }),
    (fBits 0x024 0 1 2 0x3 0x5 0x7 0x0 0b0000_00_111,
      .lea { la := 0, g := ⟨true, 2⟩, d := 3, a := 5, b := 7, c := 0, ty := .b32, rnd := .rne, f2 := true, f1 := true, f0 := true }),
    (fBits 0x025 0 1 2 0x3 0x5 0x7 0x9 0b0000_00_011,
      .iaddc { la := 0, g := ⟨true, 2⟩, d := 3, a := 5, b := 7, c := 9, ty := .b32, rnd := .rne, f2 := false, f1 := true, f0 := true }),
    (fBits 0x026 0 1 2 0x3 0x5 0x7 0x0 0b0000_00_010,
      .movix { la := 0, g := ⟨true, 2⟩, d := 3, a := 5, b := 7, c := 0, ty := .b32, rnd := .rne, f2 := false, f1 := true, f0 := false })] = true := by decide +kernel

/-- Table 1.10, 0x080-0x08C. -/
theorem test_decode_float : decodes [
    (fBits 0x080 0 1 2 0x3 0x5 0x7 0x0 0b0110_01_001,
      .fadd { la := 0, g := ⟨true, 2⟩, d := 3, a := 5, b := 7, c := 0, ty := .f32, rnd := .rz, f2 := false, f1 := false, f0 := true }),
    (fBits 0x081 0 1 2 0x3 0x5 0x7 0x0 0b0110_01_001,
      .fsub { la := 0, g := ⟨true, 2⟩, d := 3, a := 5, b := 7, c := 0, ty := .f32, rnd := .rz, f2 := false, f1 := false, f0 := true }),
    (fBits 0x082 0 1 2 0x3 0x5 0x7 0x0 0b0110_01_001,
      .fmul { la := 0, g := ⟨true, 2⟩, d := 3, a := 5, b := 7, c := 0, ty := .f32, rnd := .rz, f2 := false, f1 := false, f0 := true }),
    (fBits 0x083 0 1 2 0x3 0x5 0x7 0x9 0b0110_01_001,
      .ffma { la := 0, g := ⟨true, 2⟩, d := 3, a := 5, b := 7, c := 9, ty := .f32, rnd := .rz, f2 := false, f1 := false, f0 := true }),
    (fBits 0x084 0 1 2 0x3 0x5 0x7 0x0 0b0110_00_000,
      .fmin { la := 0, g := ⟨true, 2⟩, d := 3, a := 5, b := 7, c := 0, ty := .f32, rnd := .rne, f2 := false, f1 := false, f0 := false }),
    (fBits 0x085 0 1 2 0x3 0x5 0x7 0x0 0b0110_00_000,
      .fmax { la := 0, g := ⟨true, 2⟩, d := 3, a := 5, b := 7, c := 0, ty := .f32, rnd := .rne, f2 := false, f1 := false, f0 := false }),
    (fBits 0x086 0 1 2 0x3 0x5 0x7 0x0 0b0110_00_010,
      .fsgn { la := 0, g := ⟨true, 2⟩, d := 3, a := 5, b := 7, c := 0, ty := .f32, rnd := .rne, f2 := false, f1 := true, f0 := false }),
    (fBits 0x087 0 1 2 0x3 0x5 0x7 0x9 0b0110_00_111,
      .fsetp { la := 0, g := ⟨true, 2⟩, d := 3, a := 5, b := 7, c := 9, ty := .f32, rnd := .rne, f2 := true, f1 := true, f0 := true }),
    (fBits 0x088 0 1 2 0x3 0x5 0x0 0x0 0b0110_00_000,
      .fclass { la := 0, g := ⟨true, 2⟩, d := 3, a := 5, b := 0, c := 0, ty := .f32, rnd := .rne, f2 := false, f1 := false, f0 := false }),
    (fBits 0x089 0 1 2 0x3 0x5 0x0 0x0 0b0110_01_000,
      .frnd { la := 0, g := ⟨true, 2⟩, d := 3, a := 5, b := 0, c := 0, ty := .f32, rnd := .rz, f2 := false, f1 := false, f0 := false }),
    (fBits 0x08A 0 1 2 0x3 0x5 0x7 0x0 0b0110_01_000,
      .fscale { la := 0, g := ⟨true, 2⟩, d := 3, a := 5, b := 7, c := 0, ty := .f32, rnd := .rz, f2 := false, f1 := false, f0 := false }),
    (fBits 0x08B 0 1 2 0x3 0x5 0x0 0x0 0b0110_00_001,
      .fxtr { la := 0, g := ⟨true, 2⟩, d := 3, a := 5, b := 0, c := 0, ty := .f32, rnd := .rne, f2 := false, f1 := false, f0 := true }),
    (fBits 0x08C 0 1 2 0x3 0x5 0x7 0x9 0b0111_01_001,
      .fdot2 { la := 0, g := ⟨true, 2⟩, d := 3, a := 5, b := 7, c := 9, ty := .f16x2, rnd := .rz, f2 := false, f1 := false, f0 := true })] = true := by decide +kernel

/-- Table 1.10, 0x100-0x102. -/
theorem test_decode_convert : decodes [
    (fBits 0x100 0 1 2 0x3 0x5 0x0 0x0 0b0100_00_000,
      .cvt { la := 0, g := ⟨true, 2⟩, d := 3, a := 5, b := 0, c := 0, ty := .b64, rnd := .rne, f2 := false, f1 := false, f0 := false }),
    (fBits 0x101 0 1 2 0x3 0x5 0x7 0x0 0b0010_00_001,
      .pack { la := 0, g := ⟨true, 2⟩, d := 3, a := 5, b := 7, c := 0, ty := .b16x2, rnd := .rne, f2 := false, f1 := false, f0 := true }),
    (fBits 0x102 0 1 2 0x3 0x5 0x0 0x0 0b0010_00_001,
      .unpk { la := 0, g := ⟨true, 2⟩, d := 3, a := 5, b := 0, c := 0, ty := .b16x2, rnd := .rne, f2 := false, f1 := false, f0 := true })] = true := by decide +kernel

/-- Table 1.10, 0x140-0x14A. -/
theorem test_decode_functionUnit : decodes [
    (fBits 0x140 5 1 2 0x3 0x5 0x0 0x0 0b0110_00_000,
      .rcp { la := 5, g := ⟨true, 2⟩, d := 3, a := 5, b := 0, c := 0, ty := .f32, rnd := .rne, f2 := false, f1 := false, f0 := false }),
    (fBits 0x141 5 1 2 0x3 0x5 0x0 0x0 0b0110_00_000,
      .rsqrt { la := 5, g := ⟨true, 2⟩, d := 3, a := 5, b := 0, c := 0, ty := .f32, rnd := .rne, f2 := false, f1 := false, f0 := false }),
    (fBits 0x142 5 1 2 0x3 0x5 0x0 0x0 0b0110_00_000,
      .sqrt { la := 5, g := ⟨true, 2⟩, d := 3, a := 5, b := 0, c := 0, ty := .f32, rnd := .rne, f2 := false, f1 := false, f0 := false }),
    (fBits 0x143 5 1 2 0x3 0x5 0x0 0x0 0b0110_00_000,
      .exp2 { la := 5, g := ⟨true, 2⟩, d := 3, a := 5, b := 0, c := 0, ty := .f32, rnd := .rne, f2 := false, f1 := false, f0 := false }),
    (fBits 0x144 5 1 2 0x3 0x5 0x0 0x0 0b0110_00_000,
      .log2 { la := 5, g := ⟨true, 2⟩, d := 3, a := 5, b := 0, c := 0, ty := .f32, rnd := .rne, f2 := false, f1 := false, f0 := false }),
    (fBits 0x145 5 1 2 0x3 0x5 0x0 0x0 0b0110_00_000,
      .sinpi { la := 5, g := ⟨true, 2⟩, d := 3, a := 5, b := 0, c := 0, ty := .f32, rnd := .rne, f2 := false, f1 := false, f0 := false }),
    (fBits 0x146 5 1 2 0x3 0x5 0x0 0x0 0b0110_00_000,
      .cospi { la := 5, g := ⟨true, 2⟩, d := 3, a := 5, b := 0, c := 0, ty := .f32, rnd := .rne, f2 := false, f1 := false, f0 := false }),
    (fBits 0x147 5 1 2 0x3 0x5 0x0 0x0 0b0110_00_000,
      .scpi { la := 5, g := ⟨true, 2⟩, d := 3, a := 5, b := 0, c := 0, ty := .f32, rnd := .rne, f2 := false, f1 := false, f0 := false }),
    (fBits 0x148 5 1 2 0x3 0x5 0x0 0x0 0b0110_00_000,
      .tanh { la := 5, g := ⟨true, 2⟩, d := 3, a := 5, b := 0, c := 0, ty := .f32, rnd := .rne, f2 := false, f1 := false, f0 := false }),
    (fBits 0x149 5 1 2 0x3 0x5 0x7 0x0 0b0110_01_000,
      .fdiv { la := 5, g := ⟨true, 2⟩, d := 3, a := 5, b := 7, c := 0, ty := .f32, rnd := .rz, f2 := false, f1 := false, f0 := false }),
    (fBits 0x14A 5 1 2 0x3 0x5 0x7 0x0 0b0110_00_000,
      .exd { la := 5, g := ⟨true, 2⟩, d := 3, a := 5, b := 7, c := 0, ty := .f32, rnd := .rne, f2 := false, f1 := false, f0 := false })] = true := by decide +kernel

/-- Table 1.10, 0x180-0x18E, with the memory layout of R26. -/
theorem test_decode_memory : decodes [
    (fBits 0x180 5 1 2 0x3 0x5 0x7 0x0 0b0000_01_011,
      .ld { la := 5, g := ⟨true, 2⟩, d := 3, a := 5, b := 7, c := 0, ty := .b32, order := .strong, scope := .dev }),
    (fBits 0x181 5 1 2 0x3 0x5 0x7 0x0 0b0000_01_011,
      .st { la := 5, g := ⟨true, 2⟩, d := 3, a := 5, b := 7, c := 0, ty := .b32, order := .strong, scope := .dev }),
    (fBits 0x182 5 1 2 0x3 0x5 0x7 0x0 0b0000_01_011,
      .lds { la := 5, g := ⟨true, 2⟩, d := 3, a := 5, b := 7, c := 0, ty := .b32, order := .strong, scope := .dev }),
    (fBits 0x183 5 1 2 0x3 0x5 0x7 0x0 0b0000_01_011,
      .sts { la := 5, g := ⟨true, 2⟩, d := 3, a := 5, b := 7, c := 0, ty := .b32, order := .strong, scope := .dev }),
    (fBits 0x184 5 1 2 0x3 0x5 0x7 0x1C4 0b0000_01_011,
      .ldv { la := 5, g := ⟨true, 2⟩, d := 3, a := 5, b := 7, c := 452, ty := .b32, order := .strong, scope := .dev }),
    (fBits 0x185 5 1 2 0x3 0x5 0x7 0x1C4 0b0000_01_011,
      .stv { la := 5, g := ⟨true, 2⟩, d := 3, a := 5, b := 7, c := 452, ty := .b32, order := .strong, scope := .dev }),
    (fBits 0x186 5 1 2 0x3 0x5 0x7 0x0 0b0000_01_011,
      .ldp { la := 5, g := ⟨true, 2⟩, d := 3, a := 5, b := 7, c := 0, ty := .b32, order := .strong, scope := .dev }),
    (fBits 0x187 5 1 2 0x3 0x5 0x7 0x0 0b0000_01_011,
      .stp { la := 5, g := ⟨true, 2⟩, d := 3, a := 5, b := 7, c := 0, ty := .b32, order := .strong, scope := .dev }),
    (fBits 0x188 5 1 2 0x3 0x5 0x7 0x0 0b0000_01_011,
      .atom { la := 5, g := ⟨true, 2⟩, d := 3, a := 5, b := 7, c := 0, ty := .b32, order := .strong, scope := .dev }),
    (fBits 0x189 5 1 2 0x3 0x5 0x7 0x9 0b0000_01_011,
      .acas { la := 5, g := ⟨true, 2⟩, d := 3, a := 5, b := 7, c := 9, ty := .b32, order := .strong, scope := .dev }),
    (fBits 0x18A 5 1 2 0x3 0x5 0x0 0x0 0b0000_01_011,
      .red { la := 5, g := ⟨true, 2⟩, d := 3, a := 5, b := 0, c := 0, ty := .b32, order := .strong, scope := .dev }),
    (fBits 0x18B 5 1 2 0x3 0x5 0x7 0x0 0b0000_01_011,
      .atoms { la := 5, g := ⟨true, 2⟩, d := 3, a := 5, b := 7, c := 0, ty := .b32, order := .strong, scope := .dev }),
    (fBits 0x18C 5 1 2 0x3 0x5 0x7 0x0 0b0000_01_011,
      .atomp { la := 5, g := ⟨true, 2⟩, d := 3, a := 5, b := 7, c := 0, ty := .b32, order := .strong, scope := .dev }),
    (fBits 0x18D 5 1 2 0x0 0x0 0x0 0x0 0b0000_00_011,
      .fence { la := 5, g := ⟨true, 2⟩, d := 0, a := 0, b := 0, c := 0, ty := .b32, order := .weak, scope := .dev }),
    (fBits 0x18E 5 1 2 0x0 0x5 0x7 0x0 0b0000_00_001,
      .pfetch { la := 5, g := ⟨true, 2⟩, d := 0, a := 5, b := 7, c := 0, ty := .b32, order := .weak, scope := .team })] = true := by decide +kernel

/-- Table 1.10, 0x1C0-0x1C7. -/
theorem test_decode_group : decodes [
    (fBits 0x1C0 0 1 2 0x3 0x5 0x7 0x9 0b0000_00_111,
      .shfl { la := 0, g := ⟨true, 2⟩, d := 3, a := 5, b := 7, c := 9, ty := .b32, rnd := .rne, f2 := true, f1 := true, f0 := true }),
    (fBits 0x1C1 0 1 2 0x3 0x5 0x0 0x9 0b0000_00_110,
      .vote { la := 0, g := ⟨true, 2⟩, d := 3, a := 5, b := 0, c := 9, ty := .b32, rnd := .rne, f2 := true, f1 := true, f0 := false }),
    (fBits 0x1C2 0 1 2 0x3 0x5 0x0 0x0 0b0000_00_100,
      .gred { la := 0, g := ⟨true, 2⟩, d := 3, a := 5, b := 0, c := 0, ty := .b32, rnd := .rne, f2 := true, f1 := false, f0 := false }),
    (fBits 0x1C3 0 1 2 0x3 0x5 0x0 0x0 0b0000_00_101,
      .gscan { la := 0, g := ⟨true, 2⟩, d := 3, a := 5, b := 0, c := 0, ty := .b32, rnd := .rne, f2 := true, f1 := false, f0 := true }),
    (fBits 0x1C4 0 1 2 0x3 0x5 0x0 0x0 0b0000_00_100,
      .matchW { la := 0, g := ⟨true, 2⟩, d := 3, a := 5, b := 0, c := 0, ty := .b32, rnd := .rne, f2 := true, f1 := false, f0 := false }),
    (fBits 0x1C5 0 1 2 0x3 0x0 0x0 0x0 0b0000_00_100,
      .elect { la := 0, g := ⟨true, 2⟩, d := 3, a := 0, b := 0, c := 0, ty := .b32, rnd := .rne, f2 := true, f1 := false, f0 := false }),
    (fBits 0x1C6 0 1 2 0x3 0x0 0x0 0x0 0b0000_00_001,
      .actmask { la := 0, g := ⟨true, 2⟩, d := 3, a := 0, b := 0, c := 0, ty := .b32, rnd := .rne, f2 := false, f1 := false, f0 := true }),
    (fBits 0x1C7 0 1 2 0x3 0x5 0x0 0x9 0b0000_00_001,
      .qtry { la := 0, g := ⟨true, 2⟩, d := 3, a := 5, b := 0, c := 9, ty := .b32, rnd := .rne, f2 := false, f1 := false, f0 := true })] = true := by decide +kernel

/-- Table 1.11. -/
theorem test_decode_copyEngine : decodes [
    (eBits 0x00 5 1 2 0 3 5 7 9 11,
      .tcopy { la := 5, g := ⟨true, 2⟩, fl := false, o1 := 3, o2 := 5, o3 := 7, o4 := 9, o5 := 11 }),
    (eBits 0x01 5 1 2 0 3 5 7 0 0,
      .tkick { la := 5, g := ⟨true, 2⟩, fl := false, o1 := 3, o2 := 5, o3 := 7, o4 := 0, o5 := 0 }),
    (eBits 0x02 5 1 2 0 3 5 7 9 11,
      .tstore { la := 5, g := ⟨true, 2⟩, fl := false, o1 := 3, o2 := 5, o3 := 7, o4 := 9, o5 := 11 }),
    (eBits 0x03 5 1 2 0 3 5 7 9 11,
      .tgather { la := 5, g := ⟨true, 2⟩, fl := false, o1 := 3, o2 := 5, o3 := 7, o4 := 9, o5 := 11 })] = true := by decide +kernel

/-- Table 1.11. -/
theorem test_decode_matrixEngine : decodes [
    (eBits 0x10 5 1 2 0 3 5 0 0 0,
      .omap { la := 5, g := ⟨true, 2⟩, fl := false, o1 := 3, o2 := 5, o3 := 0, o4 := 0, o5 := 0 }),
    (eBits 0x11 5 1 2 1 3 5 7 9 11,
      .mma { la := 5, g := ⟨true, 2⟩, fl := true, o1 := 3, o2 := 5, o3 := 7, o4 := 9, o5 := 11 }),
    (eBits 0x12 5 1 2 0 3 5 7 9 11,
      .mmas { la := 5, g := ⟨true, 2⟩, fl := false, o1 := 3, o2 := 5, o3 := 7, o4 := 9, o5 := 11 }),
    (eBits 0x13 5 1 2 1 3 0 7 9 0,
      .accz { la := 5, g := ⟨true, 2⟩, fl := true, o1 := 3, o2 := 0, o3 := 7, o4 := 9, o5 := 0 }),
    (eBits 0x14 5 1 2 0 3 0 7 9 11,
      .accld { la := 5, g := ⟨true, 2⟩, fl := false, o1 := 3, o2 := 0, o3 := 7, o4 := 9, o5 := 11 }),
    (eBits 0x15 5 1 2 0 3 0 7 9 11,
      .accst { la := 5, g := ⟨true, 2⟩, fl := false, o1 := 3, o2 := 0, o3 := 7, o4 := 9, o5 := 11 }),
    (eBits 0x16 5 1 2 0 3 5 7 9 0,
      .accrd { la := 5, g := ⟨true, 2⟩, fl := false, o1 := 3, o2 := 5, o3 := 7, o4 := 9, o5 := 0 }),
    (eBits 0x17 5 1 2 0 3 0 7 9 11,
      .accrow { la := 5, g := ⟨true, 2⟩, fl := false, o1 := 3, o2 := 0, o3 := 7, o4 := 9, o5 := 11 }),
    (eBits 0x18 5 1 2 0 3 0 7 9 11,
      .accrmax { la := 5, g := ⟨true, 2⟩, fl := false, o1 := 3, o2 := 0, o3 := 7, o4 := 9, o5 := 11 }),
    (eBits 0x19 5 1 2 1 3 0 7 9 11,
      .spcommit { la := 5, g := ⟨true, 2⟩, fl := true, o1 := 3, o2 := 0, o3 := 7, o4 := 9, o5 := 11 }),
    (eBits 0x1A 5 1 2 0 3 0 0 9 11,
      .spdrop { la := 5, g := ⟨true, 2⟩, fl := false, o1 := 3, o2 := 0, o3 := 0, o4 := 9, o5 := 11 }),
    (eBits 0x1B 5 1 2 0 3 5 0 0 0,
      .accver { la := 5, g := ⟨true, 2⟩, fl := false, o1 := 3, o2 := 5, o3 := 0, o4 := 0, o5 := 0 })] = true := by decide +kernel

/-- Table 1.11. -/
theorem test_decode_kvWalker : decodes [
    (eBits 0x20 5 1 2 0 3 0 0 0 0,
      .kvld { la := 5, g := ⟨true, 2⟩, fl := false, o1 := 3, o2 := 0, o3 := 0, o4 := 0, o5 := 0 }),
    (eBits 0x21 5 1 2 0 3 5 7 9 11,
      .kvapp { la := 5, g := ⟨true, 2⟩, fl := false, o1 := 3, o2 := 5, o3 := 7, o4 := 9, o5 := 11 }),
    (eBits 0x22 5 1 2 0 3 5 7 0 0,
      .seqcmt { la := 5, g := ⟨true, 2⟩, fl := false, o1 := 3, o2 := 5, o3 := 7, o4 := 0, o5 := 0 }),
    (eBits 0x23 5 1 2 0 3 5 7 0 0,
      .seqabort { la := 5, g := ⟨true, 2⟩, fl := false, o1 := 3, o2 := 5, o3 := 7, o4 := 0, o5 := 0 }),
    (eBits 0x24 5 1 2 0 3 5 7 9 0,
      .scoreadd { la := 5, g := ⟨true, 2⟩, fl := false, o1 := 3, o2 := 5, o3 := 7, o4 := 9, o5 := 0 }),
    (eBits 0x25 5 1 2 0 3 5 7 9 0,
      .topk { la := 5, g := ⟨true, 2⟩, fl := false, o1 := 3, o2 := 5, o3 := 7, o4 := 9, o5 := 0 }),
    (eBits 0x26 5 1 2 0 3 5 7 9 0,
      .kvnode { la := 5, g := ⟨true, 2⟩, fl := false, o1 := 3, o2 := 5, o3 := 7, o4 := 9, o5 := 0 }),
    (eBits 0x27 5 1 2 0 3 5 7 9 0,
      .kvcopy { la := 5, g := ⟨true, 2⟩, fl := false, o1 := 3, o2 := 5, o3 := 7, o4 := 9, o5 := 0 }),
    (eBits 0x28 5 1 2 0 3 5 0 0 0,
      .pgalloc { la := 5, g := ⟨true, 2⟩, fl := false, o1 := 3, o2 := 5, o3 := 0, o4 := 0, o5 := 0 }),
    (eBits 0x29 5 1 2 0 3 5 0 0 0,
      .pgfree { la := 5, g := ⟨true, 2⟩, fl := false, o1 := 3, o2 := 5, o3 := 0, o4 := 0, o5 := 0 })] = true := by decide +kernel

/-- Table 1.11. -/
theorem test_decode_grace : decodes [
    (eBits 0x30 5 1 2 0 3 0 0 0 0,
      .rsenter { la := 5, g := ⟨true, 2⟩, fl := false, o1 := 3, o2 := 0, o3 := 0, o4 := 0, o5 := 0 }),
    (eBits 0x31 5 1 2 0 3 0 0 0 0,
      .rsleave { la := 5, g := ⟨true, 2⟩, fl := false, o1 := 3, o2 := 0, o3 := 0, o4 := 0, o5 := 0 }),
    (eBits 0x32 5 1 2 0 3 5 2 0 0,
      .publish { la := 5, g := ⟨true, 2⟩, fl := false, o1 := 3, o2 := 5, o3 := 2, o4 := 0, o5 := 0 }),
    (eBits 0x33 5 1 2 0 3 5 7 9 11,
      .retire { la := 5, g := ⟨true, 2⟩, fl := false, o1 := 3, o2 := 5, o3 := 7, o4 := 9, o5 := 11 }),
    (eBits 0x34 5 1 2 0 3 5 0 0 0,
      .gpsync { la := 5, g := ⟨true, 2⟩, fl := false, o1 := 3, o2 := 5, o3 := 0, o4 := 0, o5 := 0 }),
    (eBits 0x35 5 1 2 0 3 5 7 9 0,
      .gpstat { la := 5, g := ⟨true, 2⟩, fl := false, o1 := 3, o2 := 5, o3 := 7, o4 := 9, o5 := 0 })] = true := by decide +kernel

/-- Table 1.11. -/
theorem test_decode_collectives : decodes [
    (eBits 0x40 5 1 2 0 3 5 0 0 0,
      .claunch { la := 5, g := ⟨true, 2⟩, fl := false, o1 := 3, o2 := 5, o3 := 0, o4 := 0, o5 := 0 }),
    (eBits 0x41 5 1 2 0 3 5 0 0 0,
      .cstatus { la := 5, g := ⟨true, 2⟩, fl := false, o1 := 3, o2 := 5, o3 := 0, o4 := 0, o5 := 0 }),
    (eBits 0x42 5 1 2 0 3 5 0 0 0,
      .cabort { la := 5, g := ⟨true, 2⟩, fl := false, o1 := 3, o2 := 5, o3 := 0, o4 := 0, o5 := 0 }),
    (eBits 0x43 5 1 2 0 3 5 0 0 0,
      .cresume { la := 5, g := ⟨true, 2⟩, fl := false, o1 := 3, o2 := 5, o3 := 0, o4 := 0, o5 := 0 }),
    (eBits 0x44 5 1 2 0 3 5 7 0 0,
      .linkq { la := 5, g := ⟨true, 2⟩, fl := false, o1 := 3, o2 := 5, o3 := 7, o4 := 0, o5 := 0 })] = true := by decide +kernel

/-- Table 1.11. -/
theorem test_decode_fabric : decodes [
    (eBits 0x50 5 1 2 0 3 5 7 9 0,
      .subscr { la := 5, g := ⟨true, 2⟩, fl := false, o1 := 3, o2 := 5, o3 := 7, o4 := 9, o5 := 0 }),
    (eBits 0x51 5 1 2 0 3 5 0 0 0,
      .unsubscr { la := 5, g := ⟨true, 2⟩, fl := false, o1 := 3, o2 := 5, o3 := 0, o4 := 0, o5 := 0 }),
    (eBits 0x52 5 1 2 0 3 5 0 0 0,
      .carve { la := 5, g := ⟨true, 2⟩, fl := false, o1 := 3, o2 := 5, o3 := 0, o4 := 0, o5 := 0 }),
    (eBits 0x53 5 1 2 1 3 5 7 0 0,
      .msend { la := 5, g := ⟨true, 2⟩, fl := true, o1 := 3, o2 := 5, o3 := 7, o4 := 0, o5 := 0 }),
    (eBits 0x54 5 1 2 0 3 5 7 0 0,
      .ringset { la := 5, g := ⟨true, 2⟩, fl := false, o1 := 3, o2 := 5, o3 := 7, o4 := 0, o5 := 0 }),
    (eBits 0x55 5 1 2 0 3 5 0 0 0,
      .ringadv { la := 5, g := ⟨true, 2⟩, fl := false, o1 := 3, o2 := 5, o3 := 0, o4 := 0, o5 := 0 })] = true := by decide +kernel

/-- Table 1.11. -/
theorem test_decode_dispatcher : decodes [
    (eBits 0x60 5 1 2 0 3 5 7 0 0,
      .launch { la := 5, g := ⟨true, 2⟩, fl := false, o1 := 3, o2 := 5, o3 := 7, o4 := 0, o5 := 0 }),
    (eBits 0x61 5 1 2 1 3 0 0 0 0,
      .itemq { la := 5, g := ⟨true, 2⟩, fl := true, o1 := 3, o2 := 0, o3 := 0, o4 := 0, o5 := 0 }),
    (eBits 0x62 5 1 2 1 0 0 0 0 0,
      .drain { la := 5, g := ⟨true, 2⟩, fl := true, o1 := 0, o2 := 0, o3 := 0, o4 := 0, o5 := 0 }),
    (eBits 0x63 5 1 2 0 3 5 0 0 0,
      .ccadd { la := 5, g := ⟨true, 2⟩, fl := false, o1 := 3, o2 := 5, o3 := 0, o4 := 0, o5 := 0 })] = true := by decide +kernel

/-- Table 1.11. -/
theorem test_decode_contextEngine : decodes [
    (eBits 0x70 5 1 2 0 3 0 0 0 0,
      .trap { la := 5, g := ⟨true, 2⟩, fl := false, o1 := 3, o2 := 0, o3 := 0, o4 := 0, o5 := 0 }),
    (eBits 0x71 5 1 2 1 0 0 0 0 0,
      .rett { la := 5, g := ⟨true, 2⟩, fl := true, o1 := 0, o2 := 0, o3 := 0, o4 := 0, o5 := 0 }),
    (eBits 0x72 5 1 2 0 3 5 7 0 0,
      .rqrd { la := 5, g := ⟨true, 2⟩, fl := false, o1 := 3, o2 := 5, o3 := 7, o4 := 0, o5 := 0 }),
    (eBits 0x73 5 1 2 0 3 9 5 0 0,
      .rqwr { la := 5, g := ⟨true, 2⟩, fl := false, o1 := 3, o2 := 9, o3 := 5, o4 := 0, o5 := 0 }),
    (eBits 0x74 5 1 2 0 3 0 0 0 0,
      .causeclr { la := 5, g := ⟨true, 2⟩, fl := false, o1 := 3, o2 := 0, o3 := 0, o4 := 0, o5 := 0 }),
    (eBits 0x75 5 1 2 0 3 0 0 0 0,
      .csrrd { la := 5, g := ⟨true, 2⟩, fl := false, o1 := 3, o2 := 0, o3 := 0, o4 := 0, o5 := 0 }),
    (eBits 0x76 5 1 2 0 0 5 0 0 0,
      .csrwr { la := 5, g := ⟨true, 2⟩, fl := false, o1 := 0, o2 := 5, o3 := 0, o4 := 0, o5 := 0 }),
    (eBits 0x77 5 1 2 0 3 0 0 0 0,
      .bkpt { la := 5, g := ⟨true, 2⟩, fl := false, o1 := 3, o2 := 0, o3 := 0, o4 := 0, o5 := 0 }),
    (eBits 0x78 5 1 2 0 3 0 7 0 0,
      .setmode { la := 5, g := ⟨true, 2⟩, fl := false, o1 := 3, o2 := 0, o3 := 7, o4 := 0, o5 := 0 }),
    (eBits 0x79 5 1 2 0 3 5 7 9 0,
      .preempt { la := 5, g := ⟨true, 2⟩, fl := false, o1 := 3, o2 := 5, o3 := 7, o4 := 9, o5 := 0 })] = true := by decide +kernel

/-- Table 1.7b. -/
theorem test_decode_immediates : decodes [
    (iBits 0x00 1 2 3 0 (0xFFFFFFFF),
      .movi { g := ⟨true, 2⟩, d := 3, mod10 := 0, imm := 0xFFFFFFFF }),
    (iBits 0x01 1 2 3 5 (0x80000001),
      .iaddi { g := ⟨true, 2⟩, d := 3, mod10 := 5, imm := 0x80000001 }),
    (iBits 0x02 1 2 3 5 (9),
      .andi { g := ⟨true, 2⟩, d := 3, mod10 := 5, imm := 9 }),
    (iBits 0x03 1 2 3 5 (9),
      .ori { g := ⟨true, 2⟩, d := 3, mod10 := 5, imm := 9 }),
    (iBits 0x04 1 2 3 5 (9),
      .xori { g := ⟨true, 2⟩, d := 3, mod10 := 5, imm := 9 }),
    (iBits 0x05 1 2 3 5 (0x5800_0000 + 0x7FFFFF),
      .isetpi { g := ⟨true, 2⟩, d := 3, mod10 := 5, imm := 0x5800_0000 + 0x7FFFFF }),
    (iBits 0x06 1 2 3 5 (0b0001_10_011 * 2 ^ 23 + 0x7FFFFC),
      .ldi { g := ⟨true, 2⟩, d := 3, mod10 := 5, imm := 0b0001_10_011 * 2 ^ 23 + 0x7FFFFC }),
    (iBits 0x07 1 2 3 5 (0b0000_11_100 * 2 ^ 23 + 8),
      .sti { g := ⟨true, 2⟩, d := 3, mod10 := 5, imm := 0b0000_11_100 * 2 ^ 23 + 8 }),
    (iBits 0x08 1 2 3 5 (0b1100_00_000 * 2 ^ 23 + 1),
      .ldsi { g := ⟨true, 2⟩, d := 3, mod10 := 5, imm := 0b1100_00_000 * 2 ^ 23 + 1 }),
    (iBits 0x09 1 2 3 5 (0b0000_01_001 * 2 ^ 23 + 4),
      .stsi { g := ⟨true, 2⟩, d := 3, mod10 := 5, imm := 0b0000_01_001 * 2 ^ 23 + 4 }),
    (iBits 0x10 1 2 0 0 (0xFFFFFFFE),
      .bra { g := ⟨true, 2⟩, d := 0, mod10 := 0, imm := 0xFFFFFFFE }),
    (iBits 0x11 1 2 6 0 (16),
      .call { g := ⟨true, 2⟩, d := 6, mod10 := 0, imm := 16 }),
    (iBits 0x12 1 2 0 6 (0),
      .ret { g := ⟨true, 2⟩, d := 0, mod10 := 6, imm := 0 }),
    (iBits 0x13 1 2 0 6 (0),
      .jmpi { g := ⟨true, 2⟩, d := 0, mod10 := 6, imm := 0 }),
    (iBits 0x14 1 2 6 8 (0),
      .calli { g := ⟨true, 2⟩, d := 6, mod10 := 8, imm := 0 }),
    (iBits 0x15 1 2 0 0 (0),
      .landpt { g := ⟨true, 2⟩, d := 0, mod10 := 0, imm := 0 }),
    (iBits 0x16 1 2 0 0 (0),
      .exitW { g := ⟨true, 2⟩, d := 0, mod10 := 0, imm := 0 }),
    (iBits 0x17 1 2 0 0 (0),
      .yield { g := ⟨true, 2⟩, d := 0, mod10 := 0, imm := 0 }),
    (iBits 0x18 1 2 0 0 (0xFFFF),
      .nap { g := ⟨true, 2⟩, d := 0, mod10 := 0, imm := 0xFFFF }),
    (iBits 0x19 1 2 0 0x205 (0b0000_10_011 * 2 ^ 23 + 0x20),
      .waitz { g := ⟨true, 2⟩, d := 0, mod10 := 0x205, imm := 0b0000_10_011 * 2 ^ 23 + 0x20 }),
    (iBits 0x1A 1 2 7 5 (0b0100_10_100 * 2 ^ 23),
      .waitne { g := ⟨true, 2⟩, d := 7, mod10 := 5, imm := 0b0100_10_100 * 2 ^ 23 }),
    (iBits 0x1B 1 2 0 0 (0x1FF8_000F),
      .bar { g := ⟨true, 2⟩, d := 0, mod10 := 0, imm := 0x1FF8_000F }),
    (iBits 0x1C 1 2 0 0 (0x20003),
      .bararv { g := ⟨true, 2⟩, d := 0, mod10 := 0, imm := 0x20003 }),
    (iBits 0x1D 1 2 0 0 (15),
      .cvsign { g := ⟨true, 2⟩, d := 0, mod10 := 0, imm := 15 }),
    (iBits 0x1E 1 2 0 0 (7),
      .cvwait { g := ⟨true, 2⟩, d := 0, mod10 := 0, imm := 7 }),
    (iBits 0x1F 1 2 0 0 (0),
      .tkn { g := ⟨true, 2⟩, d := 0, mod10 := 0, imm := 0 }),
    (iBits 0x20 1 2 0 0 (0),
      .nop { g := ⟨true, 2⟩, d := 0, mod10 := 0, imm := 0 })] = true := by decide +kernel

/-- Tables 1.5, 1.6 and 1.11: every slot opcode. -/
theorem test_decode_pairs : decodes [
    (pBits 1 1 2 0b010_00_0 0x01 5 6 0b000_00_0,
      .pairWord { slot0 := { op := .iadd, da := 1, b := 2, ty := .b16x2, rnd := .rne, f0 := false }, slot1 := { op := .iadd, da := 5, b := 6, ty := .b32, rnd := .rne, f0 := false } }),
    (pBits 2 1 2 0b010_00_0 0x01 5 6 0b000_00_0,
      .pairWord { slot0 := { op := .isub, da := 1, b := 2, ty := .b16x2, rnd := .rne, f0 := false }, slot1 := { op := .iadd, da := 5, b := 6, ty := .b32, rnd := .rne, f0 := false } }),
    (pBits 3 1 2 0b010_00_0 0x01 5 6 0b000_00_0,
      .pairWord { slot0 := { op := .imin, da := 1, b := 2, ty := .b16x2, rnd := .rne, f0 := false }, slot1 := { op := .iadd, da := 5, b := 6, ty := .b32, rnd := .rne, f0 := false } }),
    (pBits 4 1 2 0b010_00_0 0x01 5 6 0b000_00_0,
      .pairWord { slot0 := { op := .imax, da := 1, b := 2, ty := .b16x2, rnd := .rne, f0 := false }, slot1 := { op := .iadd, da := 5, b := 6, ty := .b32, rnd := .rne, f0 := false } }),
    (pBits 5 1 2 0b010_00_0 0x01 5 6 0b000_00_0,
      .pairWord { slot0 := { op := .andS, da := 1, b := 2, ty := .b16x2, rnd := .rne, f0 := false }, slot1 := { op := .iadd, da := 5, b := 6, ty := .b32, rnd := .rne, f0 := false } }),
    (pBits 6 1 2 0b010_00_0 0x01 5 6 0b000_00_0,
      .pairWord { slot0 := { op := .orS, da := 1, b := 2, ty := .b16x2, rnd := .rne, f0 := false }, slot1 := { op := .iadd, da := 5, b := 6, ty := .b32, rnd := .rne, f0 := false } }),
    (pBits 7 1 2 0b010_00_0 0x01 5 6 0b000_00_0,
      .pairWord { slot0 := { op := .xorS, da := 1, b := 2, ty := .b16x2, rnd := .rne, f0 := false }, slot1 := { op := .iadd, da := 5, b := 6, ty := .b32, rnd := .rne, f0 := false } }),
    (pBits 8 1 2 0b010_00_0 0x01 5 6 0b000_00_0,
      .pairWord { slot0 := { op := .shl, da := 1, b := 2, ty := .b16x2, rnd := .rne, f0 := false }, slot1 := { op := .iadd, da := 5, b := 6, ty := .b32, rnd := .rne, f0 := false } }),
    (pBits 9 1 2 0b010_00_0 0x01 5 6 0b000_00_0,
      .pairWord { slot0 := { op := .shr, da := 1, b := 2, ty := .b16x2, rnd := .rne, f0 := false }, slot1 := { op := .iadd, da := 5, b := 6, ty := .b32, rnd := .rne, f0 := false } }),
    (pBits 10 1 2 0b010_00_0 0x01 5 6 0b000_00_0,
      .pairWord { slot0 := { op := .sar, da := 1, b := 2, ty := .b16x2, rnd := .rne, f0 := false }, slot1 := { op := .iadd, da := 5, b := 6, ty := .b32, rnd := .rne, f0 := false } }),
    (pBits 11 1 2 0b000_00_0 0x01 5 6 0b000_00_0,
      .pairWord { slot0 := { op := .mov, da := 1, b := 2, ty := .b32, rnd := .rne, f0 := false }, slot1 := { op := .iadd, da := 5, b := 6, ty := .b32, rnd := .rne, f0 := false } }),
    (pBits 12 1 2 0b101_00_0 0x01 5 6 0b000_00_0,
      .pairWord { slot0 := { op := .fadd, da := 1, b := 2, ty := .f16x2, rnd := .rne, f0 := false }, slot1 := { op := .iadd, da := 5, b := 6, ty := .b32, rnd := .rne, f0 := false } }),
    (pBits 13 1 2 0b101_00_0 0x01 5 6 0b000_00_0,
      .pairWord { slot0 := { op := .fsub, da := 1, b := 2, ty := .f16x2, rnd := .rne, f0 := false }, slot1 := { op := .iadd, da := 5, b := 6, ty := .b32, rnd := .rne, f0 := false } }),
    (pBits 14 1 2 0b101_00_0 0x01 5 6 0b000_00_0,
      .pairWord { slot0 := { op := .fmul, da := 1, b := 2, ty := .f16x2, rnd := .rne, f0 := false }, slot1 := { op := .iadd, da := 5, b := 6, ty := .b32, rnd := .rne, f0 := false } }),
    (pBits 15 1 2 0b101_00_0 0x01 5 6 0b000_00_0,
      .pairWord { slot0 := { op := .fmin, da := 1, b := 2, ty := .f16x2, rnd := .rne, f0 := false }, slot1 := { op := .iadd, da := 5, b := 6, ty := .b32, rnd := .rne, f0 := false } }),
    (pBits 16 1 2 0b101_00_0 0x01 5 6 0b000_00_0,
      .pairWord { slot0 := { op := .fmax, da := 1, b := 2, ty := .f16x2, rnd := .rne, f0 := false }, slot1 := { op := .iadd, da := 5, b := 6, ty := .b32, rnd := .rne, f0 := false } }),
    (pBits 17 1 2 0b101_00_0 0x01 5 6 0b000_00_0,
      .pairWord { slot0 := { op := .fsgn, da := 1, b := 2, ty := .f16x2, rnd := .rne, f0 := false }, slot1 := { op := .iadd, da := 5, b := 6, ty := .b32, rnd := .rne, f0 := false } }),
    (pBits 0x0C 1 2 0b100_10_1 0 0 0 0,
      .pairWord { slot0 := { op := .fadd, da := 1, b := 2, ty := .f32, rnd := .rd, f0 := true }, slot1 := { op := .empty, da := 0, b := 0, ty := .b32, rnd := .rne, f0 := false } })] = true := by decide +kernel

/-- A word that no entry accepts: its sub-code (Table 1.12). -/
def refuses (l : List (Nat × IllSub)) : Bool :=
  l.all fun x => match decodeWord (BitVec.ofNat 64 x.1) with | .error e => e = x.2 | .ok _ => false

/-- The zero word (R52), unassigned opcodes of each form (R50, R51), a field that must be zero (R23, R32, R35), a modifier
outside the entry's list (R25), the guard "not p0" (R36), and a word with two empty slots (R31). -/
theorem test_decode_refusals : refuses [
    (0, .zero), (fBits 0x00B 0 0 0 3 5 7 0 0, .opc), (iBits 0x21 0 0 0 0 0, .opc), (eBits 0x7A 0 0 0 0 0 0 0 0 0, .opc),
    (fBits 0x001 0 0 0 3 5 7 9 0, .rsvd), (iBits 0x15 0 0 1 0 0, .rsvd), (eBits 0x70 0 0 0 0 5 1 0 0 0, .rsvd),
    (fBits 0x001 0 0 0 3 5 7 0 0b0110_00_000, .mod), (fBits 0x080 0 0 0 3 5 7 0 0b0000_00_000, .mod),
    (fBits 0x001 0 1 0 3 5 7 0 0, .guard), (pBits 0 0 0 0 0 0 0 0, .empty)] = true := by decide +kernel

/-- R55: an optional operation whose feature bit is not accepted traps ILL with sub-code FEAT. -/
theorem test_decode_feature :
    (match decodeFor 0 (BitVec.ofNat 64 (eBits 0x12 0 0 0 0 1 0 4 0 6)) with | .error e => decide (e = .feat) | .ok _ => false) = true := by
  decide +kernel
/-- The words of the spec's own worked examples (the tables of encodings in chapters 01 and 03 to 13), each
beside the line of assembly it encodes. -/
theorem test_decode_workedExamples : decodes [
    (0x3006004A10180012, .ld { mw 4 0x142 6 0 .b32 .acq .die with la := 3 }),
    (0x408200A40E0501E0, .pairWord { slot0 := { op := .iadd, da := 8, b := 5, ty := .i32, rnd := .rne, f0 := false }, slot1 := { op := .fmul, da := 10, b := 7, ty := .f32, rnd := .rne, f0 := false } }),
    (0x8300254400000100, .ldi (iw 9 0x144 0x100)),
    (0x88100000FFFFFFFD, .bra { iw 0 0 0xFFFFFFFD with g := ⟨false, 2⟩ }),
    (0x0020003D07040020, .iadd (fw 3 0x1A0 0x1C1 0 .i32)),
    (0x3100001A100C0023, .atom (mw 1 0x142 3 0 .i32 .weak .dev)),
    (0x31A0000000000003, .fence (mw 0 0 0 0 .b32 .weak .dev)),
    (0x8D80000000000000, .bar (iw 0 0 0)),
    (0x8808000000000005, .bra { iw 0 0 5 with g := ⟨false, 1⟩ }),
    (0x8B80000000000000, .yield (iw 0 0 0)),
    (0x8B00000000000000, .exitW (iw 0 0 0)),
    (0x3180180A00000023, .atomp (mw 0x180 0x140 0 0 .i32 .weak .dev)),
    (0x3140000A2000002B, .red (mw 0 0x144 0 0 .i32 .strong .dev)),
    (0x28E00200F00000C0, .scpi (fw 32 30 0 0 .f32)),
    (0x294400C0502C00C0, .exd { fw 12 10 11 0 .f32 with la := 2 }),
    (0x29200030080800C8, .fdiv { fw 3 1 2 0 .f32 with rnd := .rz }),
    (0xD800000A10140000, .launch (ew 0 0x142 5)),
    (0xD880200000000000, .drain (ew 0 0 0 0 0 true)),
    (0xD8C0144E08000000, .ccadd (ew 0x144 0x1C1)),
    (0xDD0000A000000000, .causeclr (ew 10)),
    (0xDC40200000000000, .rett (ew 0 0 0 0 0 true)),
    (0xDC00003000000000, .trap (ew 3)),
    (0xDC80190000100000, .rqrd (ew 0x190 0 4)),
    (0xDCC0000046480000, .rqwr (ew 0 8 0x192)),
    (0xC0001C0A151A95C0, .tcopy (ew 0x1C0 0x142 0x146 0x14A 0x1C0)),
    (0xC08014CA252297C0, .tstore (ew 0x14C 0x144 0x148 0x14B 0x1C0)),
    (0xC400000A10000000, .omap (ew 0 0x142)),
    (0xC4402000870001C0, .mma (ew 0 0x10 0x1C0 0 0x1C0 true)),
    (0xC580014007081C00, .accrd (ew 20 0 0x1C2 14)),
    (0xCC00001000000000, .rsenter (ew 1)),
    (0xCC40001000000000, .rsleave (ew 1)),
    (0xCC80142A200C0000, .publish (ew 0x142 0x144 3)),
    (0xCCC000A0201B8008, .retire (ew 10 4 6 0x1C0 8)),
    (0xCD0000C008000000, .gpsync (ew 12 1)),
    (0xC80014C000000000, .kvld (ew 0x14C)),
    (0xC880004010000000, .seqcmt (ew 4 2 0)),
    (0xC900002000342600, .scoreadd (ew 2 0 13 19)),
    (0xC981030140785400, .kvnode { ew 48 40 30 42 with g := ⟨false, 4⟩ }),
    (0xC9C0002000682400, .kvcopy (ew 2 0 26 18)),
    (0xCA00028008000000, .pgalloc (ew 40 1)),
    (0xD000000A10000000, .claunch (ew 0 0x142)),
    (0xD040001000000000, .cstatus (ew 1 0)),
    (0xD080005000000000, .cabort (ew 5 0)),
    (0xD100004E28300000, .linkq (ew 4 0x1C5 12))] = true := by decide +kernel

/-! ### Well-formedness: one ill-formed term for each check -/

/-- No term of the list is well formed. -/
def illFormed (l : List Instr) : Bool := l.all fun i => !i.wf

/-- R36: the guard "not p0". -/
theorem test_wf_guard : illFormed [.iadd { fw 3 1 2 0 with g := ⟨true, 0⟩ }, .ld { mw 3 4 0 0 with g := ⟨true, 0⟩ },
    .movi { iw 3 0 1 with g := ⟨true, 0⟩ }, .trap { ew 5 with g := ⟨true, 0⟩ }] = true := by decide +kernel

/-- R38: a lookahead count on an opcode that may have none. -/
theorem test_wf_lookahead : illFormed [.iadd { fw 3 1 2 0 with la := 1 }, .cvt { fw 3 1 0 4 .f32 with la := 15 }] = true := by
  decide +kernel

/-- R23, R32, R35: a field that the entry does not use is not zero. -/
theorem test_wf_unusedFields : illFormed [.iadd (fw 3 1 2 9), .fence (mw 1 0 0 0 .b32 .rel .dev), .landpt (iw 1 0 0),
    .nap (iw 0 0 0x10000), .trap (ew 5 0 1), .rsenter (ew 8), .drain (ew 1)] = true := by decide +kernel

/-- R25: a type, a rounding, a flag, an order or a scope outside the entry's list. -/
theorem test_wf_modifiers : illFormed [.iadd (fw 3 1 2 0 .f32), .fadd (fw 3 1 2 0 .b32), .iadd { fw 3 1 2 0 with rnd := .rz },
    .imul { fw 3 1 2 0 with f0 := true }, .fence (mw 0 0 0 0 .b32 .strong .dev), .ldi (iw 9 4 0x3800000)] = true := by
  decide +kernel

/-- R31: two empty slots, and an empty slot with a field that is not zero; Table 1.6: a type the slot does not accept. -/
theorem test_wf_pairs : illFormed [
    .pairWord { slot0 := ⟨.empty, 0, 0, .b32, .rne, false⟩, slot1 := ⟨.empty, 0, 0, .b32, .rne, false⟩ },
    .pairWord { slot0 := ⟨.iadd, 1, 2, .b32, .rne, false⟩, slot1 := ⟨.empty, 1, 0, .b32, .rne, false⟩ },
    .pairWord { slot0 := ⟨.iadd, 1, 2, .f32, .rne, false⟩, slot1 := ⟨.empty, 0, 0, .b32, .rne, false⟩ }] = true := by
  decide +kernel

/-- Device steps that name a unit the chip does not have. -/
theorem test_wf_steps : illFormed [.illegalWord 8, .trapEntry { core := 512, qtr := 0, row := 0, lane := 0 },
    .parkedShareSwitch 512, .teamSave 0 1024, .fairnessDue 0 4 0 0, .matrixStart 0 0 8, .copyRetire 0 16,
    .subUpdateApply 0 8, .takeRecord 64, .depRead 0 4, .carveSwitch 16, .gpStart 8, .linkDown 12, .portUp 2,
    .securityAlarm 4, .collPause 0 { chip := 256, epoch := 0 }, .atsInvalidation (2 ^ 20) 0 1] = true := by decide +kernel

/-! ### Single steps, with results worked out by hand from the rules -/

/-- A register of the first thread after an instruction. -/
def vAfter (i : Instr) (s : State) (k : Nat) : Option Word :=
  match exec i s with
  | .next t => t.threads.head?.bind fun th => th.v[k]?
  | _ => none
/-- Something of the state after an instruction. -/
def after {α : Type} (i : Instr) (s : State) (f : State → α) : Option α := match exec i s with | .next t => some (f t) | _ => none
/-- The first thread's record. -/
def firstOf (s : State) : Thread := s.threads.headD th0
/-- A lone thread with v4 = a and v5 = b. -/
def ab (a b : Nat) : State := lone (regs [(4, a), (5, b)])

/-- R80: a sum wraps. -/
theorem test_iadd_wraps : vAfter (.iadd (fw 3 4 5 0)) (ab 0xFFFFFFFF 2) 3 = some 1 := by decide +kernel
/-- R80, R81: signed bytes saturate each for itself: 127 + 1, -128 - 1, 1 + 1, 2 + 1. -/
theorem test_iadd_saturatesBytes : vAfter (.iadd (fw 3 4 5 0 .i8x4 true)) (ab 0x7F800102 0x01FF0101) 3 = some 0x7F800203 := by
  decide +kernel
/-- The source is also the destination. -/
theorem test_isub_inPlace : vAfter (.isub (fw 4 4 4 0)) (ab 7 0) 4 = some 0 := by decide +kernel
/-- The high half of -1 times 2 is -1. -/
theorem test_imulhi_signed : vAfter (.imulhi (fw 3 4 5 0 .i32)) (ab 0xFFFFFFFF 2) 3 = some 0xFFFFFFFF := by decide +kernel
/-- The wide product fills a pair. -/
theorem test_imulw_pair : vAfter (.imulw (fw 6 4 5 0)) (ab 0xFFFFFFFF 0xFFFFFFFF) 7 = some 0xFFFFFFFE := by decide +kernel
theorem test_popc : vAfter (.popc (fw 3 4 0 0)) (ab 0xF0F00001 0) 3 = some 9 := by decide +kernel
theorem test_clz_one : vAfter (.clz (fw 3 4 0 0)) (ab 1 0) 3 = some 31 := by decide +kernel
theorem test_brev_one : vAfter (.brev (fw 3 4 0 0)) (ab 1 0) 3 = some 0x80000000 := by decide +kernel
/-- 1.0 + 2.0 = 3.0. -/
theorem test_fadd_exact : vAfter (.fadd (fw 3 4 5 0 .f32)) (ab 0x3F800000 0x40000000) 3 = some 0x40400000 := by decide +kernel
/-- R68: infinity less infinity is the canonical NaN. -/
theorem test_fadd_infinities : vAfter (.fadd (fw 3 4 5 0 .f32)) (ab 0x7F800000 0xFF800000) 3 = some 0x7FC00000 := by
  decide +kernel
/-- 2^24 + 1 lies half way between two values; RNE takes the even one, RU the upper one. -/
theorem test_fadd_tiesToEven : vAfter (.fadd (fw 3 4 5 0 .f32)) (ab 0x4B800000 0x3F800000) 3 = some 0x4B800000 := by
  decide +kernel
theorem test_fadd_roundsUp : vAfter (.fadd { fw 3 4 5 0 .f32 with rnd := .ru }) (ab 0x4B800000 0x3F800000) 3 = some 0x4B800001 := by
  decide +kernel
/-- 3.0 / 2.0 = 1.5. -/
theorem test_fdiv_exact : vAfter (.fdiv (fw 3 4 5 0 .f32)) (ab 0x40400000 0x40000000) 3 = some 0x3FC00000 := by decide +kernel
theorem test_movi : vAfter (.movi (iw 3 0 0xDEADBEEF)) (ab 0 0) 3 = some 0xDEADBEEF := by decide +kernel
/-- R33: one word back from 0x1080. -/
theorem test_bra_back : after (.bra (iw 0 0 0xFFFFFFFF)) (ab 0 0) (fun t => (firstOf t).pc) = some 0x1078 := by decide +kernel
/-- The link pair receives PC + 8. -/
theorem test_call_links : vAfter (.call (iw 6 0 2)) (ab 0 0) 6 = some 0x1088 := by decide +kernel
/-- R16: bytes lie low end first; a halfword store leaves the next bytes alone. -/
theorem test_st_halfword : after (.st (mw 6 4 0 0 .b16 .rel .sys)) (poke 0x3000 4 0xAABBCCDD (lone (regs [(4, 0x3000), (6, 0x11223344)]))) (fun t => t.value 0x3000 4) =
    some 0xAABB3344 := by decide +kernel
/-- R120, R134: the old value comes back, the sum is stored. -/
theorem test_atom_old : vAfter (.atom (mw 3 4 6 0 .b32 .weak .dev)) (poke 0x3000 4 5 (lone (regs [(4, 0x3000), (6, 7)]))) 3 = some 5 := by
  decide +kernel
theorem test_atom_new : after (.atom (mw 3 4 6 0 .b32 .weak .dev)) (poke 0x3000 4 5 (lone (regs [(4, 0x3000), (6, 7)])))
    (fun t => t.value 0x3000 4) = some 12 := by decide +kernel
/-- R289: without a trap vector TRAP halts its thread under SWTRAP. -/
theorem test_trap_halts : after (.trap (ew 3)) (lone th0 { st0 with launches := [{ Loader.launch with desc := some { Loader.desc with tv := false } }] })
    (fun t => (firstOf t).halt) = some (some (.cause .swtrap)) := by decide +kernel
/-- R291, R314: with one, the thread is in handler mode at KDESC + 8 * TRAPVEC, and TPC is the TRAP word. -/
theorem test_trap_enters : after (.trap (ew 3)) (lone th0) (fun t => ((firstOf t).handler, (firstOf t).pc, (firstOf t).tpc)) =
    some (true, 0x1100, 0x1080) := by decide +kernel
/-- R52, R164: the first step after the word is placed runs it. -/
theorem test_step_runsTheWord : (match step (State.reset.withFetchWord 64 (fBits 0x023 0 0 0 3 0x1C5 0 0 0)) with
    | .next t => (t.threads.head?.bind fun th => th.v[3]?)
    | _ => none) = some 5 := by decide +kernel
/-- Nothing runs from reset: the firmware of the module must boot first (log 3). -/
theorem test_reset_waits : (match step State.reset with | .next t => decide (t.threads = []) | _ => false) = true := by
  decide +kernel
/-- R117: an evicted line writes its dirty word 0 back, not its clean word 1, and leaves the L1. -/
theorem test_eviction_writesBack :
    let b := fun k => (List.replicate 32 false).set k true
    let l : L1Line := { line := 5, data := List.replicate 32 7, valid := (b 0).set 1 true, dirty := b 0, poison := List.replicate 32 false }
    (match ({ State.reset with cores := [{ id := 0, l1 := [l] }] }).perform (.evict 0 5) with
      | .done t => some (t.value 640 8, (t.core 0).l1)
      | .exec _ _ => none) = some (7, []) := by decide +kernel
/-- R235: a third function-unit issue waits in the queue, a fourth finds no entry. -/
theorem test_fuQueue_full :
    let e := fun (k : Nat) => ({ word := 0, pc := 0, st := 0, opv := [], dst := [], tag := k, id := k } : Entry)
    let w := (encode (.rcp (fw 3 4 0 0 .f32))).getD 0
    let m := fun n => lone { th0 with unf := (List.range n).map fun k => { e (k + 1) with word := w } }
    ((m 2).fuRoom 0 0, (m 3).fuRoom 0 0) = (true, false) := by decide +kernel

/-! ### The premises of the statements can be met, clause by clause -/

/-- The hypotheses of `EncodedWordsDecodeToThemselves` can be met. -/
theorem test_wit_encodedWordsDecodeToThemselves :
    (∃ (i : Instr) (w : DWord), i.wf = true ∧ encode i = some w) :=
  ⟨.iadd (fw 3 1 2 0), (encode (.iadd (fw 3 1 2 0))).getD 0, by decide +kernel⟩

/-- The hypotheses of `EveryWordHasOneReading` can be met. -/
theorem test_wit_everyWordHasOneReading :
    (∃ (i : Instr) (w : DWord), decodeWord w = .ok i) :=
  ⟨.iadd (fw 3 1 2 0), (encode (.iadd (fw 3 1 2 0))).getD 0, ok_of (by decide +kernel)⟩

/-- The hypotheses of `AStepRunsTheDecodedWord` can be met. -/
theorem test_wit_aStepRunsTheDecodedWord :
    (∃ (s : State) (s' : State) (g : IssueGroup) (t : Thread) (ts : _) (pa : Nat) (i : _), PlainMemory s' pa 8 ∧ decodeFor
      s'.features (BitVec.ofNat 64 (s'.value pa 8)) = .ok i ∧ s.tick.action = s'.issueGroup g ∧ (s'.withGroup
      g).curThreads = t :: ts ∧ s'.threads.filter (fun x => x.tid = t.tid) = [t] ∧ t.fetchRetry = 0 ∧ (s'.withGroup
      g).trans (.core t.tid.core) (s'.pasidOf t.lslot) g.pc.toNat .exec = .ok pa) ∧
    (∃ (s : State) (s' : State) (g : IssueGroup) (t : Thread) (ts : _) (pa : Nat) (e : _), PlainMemory s' pa 8 ∧ decodeFor
      s'.features (BitVec.ofNat 64 (s'.value pa 8)) = .error e ∧ s.tick.action = s'.issueGroup g ∧ (s'.withGroup
      g).curThreads = t :: ts ∧ s'.threads.filter (fun x => x.tid = t.tid) = [t] ∧ t.fetchRetry = 0 ∧ (s'.withGroup
      g).trans (.core t.tid.core) (s'.pasidOf t.lslot) g.pc.toNat .exec = .ok pa) ∧
    (∃ (s : State) (g : _), s.tick.candidates = [.issue g]) ∧
    (∃ (s : State) (c0 : _) (c1 : _) (cs : _) (k : _) (ks : _), s.tick.candidates = c0 :: c1 :: cs ∧ s.choices = k :: ks) ∧
    (∃ (s : State) (e : _) (es : _), s.tick.running = true ∧ s.tick.dueEvents = e :: es) ∧
    (∃ (s : State) (i : _) (r : _), s.tick.running = true ∧ s.tick.candidates = [.inbox] ∧ s.inbox = i :: r) :=
  ⟨⟨(State.reset.withFetchWord 64 0x0020003008080000), (State.reset.withFetchWord 64 0x0020003008080000).tick,
      ({ core := 0, qtr := 0, lslot := 0, pc := 0x1080, threads := [th0.tid] } : IssueGroup), th0, [], 0x1080, .iadd
      (fw 3 1 2 0), plain_of (by decide +kernel), ok_of (by decide +kernel), by decide +kernel⟩,
    ⟨(State.reset.withFetchWord 64 0), (State.reset.withFetchWord 64 0).tick,
      ({ core := 0, qtr := 0, lslot := 0, pc := 0x1080, threads := [th0.tid] } : IssueGroup), th0, [], 0x1080, .zero,
      plain_of (by decide +kernel), err_of (by decide +kernel), by decide +kernel⟩,
    ⟨(State.reset.withFetchWord 64 0x0020003008080000),
      ({ core := 0, qtr := 0, lslot := 0, pc := 0x1080, threads := [th0.tid] } : IssueGroup), by decide +kernel⟩,
    ⟨{ st0 with inbox := [.portUp 0], choices := [9], threads := [th0] }, .issue
      ({ core := 0, qtr := 0, lslot := 0, pc := 0x1080, threads := [th0.tid] } : IssueGroup), .inbox, [], 9, [],
      by decide +kernel⟩,
    ⟨stDue, .napExpire th0.tid, [], by decide +kernel⟩,
    ⟨{ st0 with threads := [], teams := [], launches := [], groups := [], quarters := [], inbox := [.portUp 0] }, .portUp
      0, [], by decide +kernel⟩⟩

/-- The hypotheses of `EveryStepKeepsMemoryCanonical` can be met. -/
theorem test_wit_everyStepKeepsMemoryCanonical :
    (∃ (s : State) (t : State), step s = .next t ∧ s.memOk = true) :=
  ⟨State.reset, State.reset.tick, next_of (by decide +kernel), by decide +kernel⟩

/-- The hypotheses of `OnlyUndefinedQueuesStop` can be met. -/
theorem test_wit_onlyUndefinedQueuesStop :
    (∃ (i : Instr) (s : State) (f : _), exec i s = .fault f) ∧
    (∃ (s : State) (q : _), (s.queue q).undef = true) ∧
    (∃ (w : EWord) (s : State) (th : Thread) (pa : Nat), ∃ x, x = s.queue (w.o3.toNat % 64) ∧ ∃ a, a = (engEntry (.launch
      w) s th).d 0 ∧ Solo (.launch w) s th ∧ noQueueDest (.launch w) th ∧ s.noFollowers th.tid ∧ EngCalm s ∧ th.unf =
      [] ∧ (s.core th.tid.core).ranges = [] ∧ a.toNat % 256 = 0 ∧ canonical a.toNat = true ∧ s.trans (.core
      th.tid.core) (s.pasidOf th.lslot) a.toNat .read = .ok pa ∧ pa + 256 ≤ 2 ^ 42 ∧ s.cleanSpan pa 256 ∧ x.enabled =
      true ∧ x.progen = true ∧ x.count ≠ 2 ^ x.logsz ∧ x.undef = true) :=
  ⟨⟨.takeRecord 3, { st0 with queues := [{ q := 3, undef := true }] }, .queueUndefined 3, fault_of (by decide +kernel)⟩,
    ⟨{ st0 with queues := [{ q := 3, undef := true }] }, 3, by decide +kernel⟩,
    ⟨ew 2 4 3, lone th0 { st0 with queues := [{ q := 3, undef := true, qctl := 0x409 }] }, th0, 0, _, rfl, _, rfl, solo_of
      (by decide +kernel), noQ_of (by decide +kernel), follow_of (by decide +kernel), calm_of (by decide +kernel),
      by decide +kernel⟩⟩

/-- The hypotheses of `VectorInstructionsActInEveryLane` can be met. -/
theorem test_wit_vectorInstructionsActInEveryLane :
    (∃ (i : Instr) (f : State → Thread → List Nat → Res) (s : State), vecRule i = some f ∧ s.cur.threads.Nodup) :=
  ⟨.iadd (fw 3 4 5 0), _, lone (regs [(4, 7), (5, 8)]), rfl, by decide +kernel⟩

/-- The hypotheses of `VectorInstructionOfALoneThread` can be met. -/
theorem test_wit_vectorInstructionOfALoneThread :
    (∃ (i : Instr) (f : State → Thread → List Nat → Res) (s : State) (th : Thread), vecRule i = some f ∧ Solo i s th) :=
  ⟨.iadd (fw 3 4 5 0), _, lone (regs [(4, 7), (5, 8)]), regs [(4, 7), (5, 8)], rfl, solo_of (by decide +kernel)⟩

/-- The hypotheses of `ThreadsWithTrueGuardsAct` can be met. -/
theorem test_wit_threadsWithTrueGuardsAct :
    (∃ (i : Instr) (s : State), s.cur.threads.Nodup ∧ (usesOf i).pops = [] ∧ (usesOf i).pushes = []) :=
  ⟨.iadd (fw 3 4 5 0), lone th0, by decide +kernel⟩

/-- The hypotheses of `FalseGuardChangesNothing` can be met. -/
theorem test_wit_falseGuardChangesNothing :
    (∃ (i : Instr) (f : State → Thread → List Nat → Res) (s : State) (th : Thread), vecRule i = some f ∧ s.cur.threads =
      [th.tid] ∧ s.threads.filter (fun x => x.tid = th.tid) = [th] ∧ decodeCause s i (usesOf i) th = none ∧ guardTrue
      (guardOf i) th = false) :=
  ⟨.iadd { fw 3 4 5 0 with g := { gn := false, gp := 1 } }, _, lone th0, th0, rfl, by decide +kernel⟩

/-- The hypotheses of `IntegerElementsFollowTheRules` can be met. -/
theorem test_wit_integerElementsFollowTheRules :
    (∃ (t : Ty) (e : Nat), e < elN t) :=
  ⟨.i8x4, 3, by decide +kernel⟩

/-- The hypotheses of `SaturationClampsToTheElementRange` can be met. -/
theorem test_wit_saturationClampsToTheElementRange :
    (∃ (t : Ty) (x : Int), minEl t ≤ x ∧ x ≤ maxEl t) ∧
    (∃ (t : Ty) (x : Int), x < minEl t) ∧
    (∃ (t : Ty) (x : Int), maxEl t < x) :=
  ⟨⟨.i8, -128, by decide +kernel⟩,
    ⟨.i8, -129, by decide +kernel⟩,
    ⟨.b32, 2 ^ 32, by decide +kernel⟩⟩

/-- The hypotheses of `LogicAndShiftsBitByBit` can be met. -/
theorem test_wit_logicAndShiftsBitByBit :
    (∃ (t : Ty) (k : Nat), k < 32 * tyRegs t) ∧
    (∃ (t : Ty) (e : Nat) (k : Nat), e < elN t ∧ k < elW t) :=
  ⟨⟨.b64, 63, by decide +kernel⟩,
    ⟨.i16x2, 1, 15, by decide +kernel⟩⟩

/-- The hypotheses of `LogicInstructionsComplete` can be met. -/
theorem test_wit_logicInstructionsComplete :
    (∃ (w : FWord) (s : State) (th : Thread) (i : Instr) (r : Nat → Nat → Res), (i, r) ∈ ([(.andW w, fun a b => res1 w.ty
      (evalLogic 0 w.ty a b)), (.orW w, fun a b => res1 w.ty (evalLogic 1 w.ty a b)), (.xorW w, fun a b => res1 w.ty
      (evalLogic 2 w.ty a b)), (.andn w, fun a b => res1 w.ty (evalLogic 3 w.ty a b)), (.shl w, fun a b => res1 w.ty
      (evalShift 0 w.ty w.f0 a b)), (.shr w, fun a b => res1 w.ty (evalShift 1 w.ty w.f0 a b)), (.sar w, fun a b =>
      res1 w.ty (evalShift 2 w.ty w.f0 a b)), (.popc w, fun a _ => res1 .b32 (evalPopc (elW w.ty) a)), (.clz w, fun a
      _ => res1 .b32 (evalClz (elW w.ty) a)), (.brev w, fun a _ => res1 w.ty (evalBrev (elW w.ty) a))] : List (Instr ×
      (Nat → Nat → Res))) ∧ Solo i s th) :=
  ⟨fw 3 4 5 0, lone (regs [(4, 7), (5, 8)]), regs [(4, 7), (5, 8)], .andn (fw 3 4 5 0), fun a b => res1 (fw 3 4 5 0).ty
    (evalLogic 3 (fw 3 4 5 0).ty a b), by simp, solo_of (by decide +kernel)⟩

/-- The hypotheses of `BitFieldsAndCounts` can be met. -/
theorem test_wit_bitFieldsAndCounts :
    (∃ (w : Nat) (a : Nat) (k : _), w - evalClz w a ≤ k ∧ k < w) ∧
    (∃ (w : Nat) (a : Nat), evalClz w a < w) ∧
    (∃ (w : Nat) (k : Nat), k < w) ∧
    (∃ (a : Nat) (k : Nat), a < 2 ^ 32 ∧ k < 32) ∧
    (∃ (a : Nat) (b : Nat) (k : Nat), a < 2 ^ 32 ∧ b < 2 ^ 32 ∧ k < 32) ∧
    (∃ (a : Nat) (b : Nat), a < 2 ^ 64 ∧ b < 2 ^ 32) :=
  ⟨⟨32, 0x100, 9, by decide +kernel⟩,
    ⟨32, 0x100, by decide +kernel⟩,
    ⟨32, 31, by decide +kernel⟩,
    ⟨2 ^ 32 - 1, 31, by decide +kernel⟩,
    ⟨2 ^ 32 - 1, 5, 31, by decide +kernel⟩,
    ⟨2 ^ 64 - 1, 2 ^ 32 - 1, by decide +kernel⟩⟩

/-- The hypotheses of `ExactProductsAndCarries` can be met. -/
theorem test_wit_exactProductsAndCarries :
    (∃ (a : Nat) (b : Nat), a < 2 ^ 32 ∧ b < 2 ^ 32) :=
  ⟨2 ^ 32 - 1, 0, by decide +kernel⟩

/-- The hypotheses of `FloatSpecialCases` can be met. -/
theorem test_wit_floatSpecialCases :
    (∃ (t : Ty), t ∈ [Ty.f32, .f16x2, .bf16x2]) ∧
    (∃ (f : Fmt) (nx : Bool) (ny : Bool) (nz : Bool) (mx : Nat) (my : Nat) (mz : Nat) (ex : Int) (ey : Int) (ez : Int), ∃
      x, x = FVal.fin nx mx ex ∧ ∃ y, y = FVal.fin ny my ey ∧ ∃ z, z = FVal.fin nz mz ez ∧ f ∈ [Fmt.f32, .f16, .bf16]
      ∧ x.rat * y.rat + z.rat ≠ 0) ∧
    (∃ (f : Fmt) (nx : Bool) (ny : Bool) (mx : Nat) (my : Nat) (ex : Int) (ey : Int), ∃ x, x = FVal.fin nx mx ex ∧ ∃ y, y
      = FVal.fin ny my ey ∧ f ∈ [Fmt.f32, .f16, .bf16] ∧ x.rat + y.rat ≠ 0) ∧
    (∃ (f : Fmt) (nx : Bool) (ny : Bool) (mx : Nat) (my : Nat) (ex : Int) (ey : Int), ∃ x, x = FVal.fin nx mx ex ∧ ∃ y, y
      = FVal.fin ny my ey ∧ f ∈ [Fmt.f32, .f16, .bf16] ∧ x.rat * y.rat ≠ 0) ∧
    (∃ (f : Fmt) (nx : Bool) (ny : Bool) (nz : Bool) (mx : Nat) (my : Nat) (mz : Nat) (ex : Int) (ey : Int) (ez : Int), ∃
      x, x = FVal.fin nx mx ex ∧ ∃ y, y = FVal.fin ny my ey ∧ ∃ z, z = FVal.fin nz mz ez ∧ f ∈ [Fmt.f32, .f16, .bf16]
      ∧ x.rat * y.rat + z.rat = 0) ∧
    (∃ (f : Fmt) (nx : Bool) (ny : Bool) (mx : Nat) (my : Nat) (ex : Int) (ey : Int), ∃ x, x = FVal.fin nx mx ex ∧ ∃ y, y
      = FVal.fin ny my ey ∧ f ∈ [Fmt.f32, .f16, .bf16] ∧ x.rat + y.rat = 0) ∧
    (∃ (f : Fmt) (nx : Bool) (ny : Bool) (mx : Nat) (my : Nat) (ex : Int) (ey : Int), ∃ x, x = FVal.fin nx mx ex ∧ ∃ y, y
      = FVal.fin ny my ey ∧ f ∈ [Fmt.f32, .f16, .bf16] ∧ x.rat * y.rat = 0) ∧
    (∃ (f : Fmt) (x : FVal) (y : FVal), ∃ zeroInf, zeroInf = ((x.isZero && y.isInf) || (x.isInf && y.isZero)) ∧ f ∈
      [Fmt.f32, .f16, .bf16] ∧ zeroInf = true) ∧
    (∃ (f : Fmt) (x : FVal) (y : FVal) (z : FVal), ∃ zeroInf, zeroInf = ((x.isZero && y.isInf) || (x.isInf && y.isZero)) ∧
      f ∈ [Fmt.f32, .f16, .bf16] ∧ zeroInf = false ∧ (x.isNan || y.isNan || z.isNan)) ∧
    (∃ (f : Fmt) (x : FVal) (y : FVal), f ∈ [Fmt.f32, .f16, .bf16] ∧ (x.isNan || y.isNan)) ∧
    (∃ (f : Fmt) (x : FVal) (y : FVal) (z : FVal), ∃ zeroInf, zeroInf = ((x.isZero && y.isInf) || (x.isInf && y.isZero)) ∧
      f ∈ [Fmt.f32, .f16, .bf16] ∧ x.isNan = false ∧ y.isNan = false ∧ z.isNan = false ∧ zeroInf = false ∧ (x.isInf ||
      y.isInf)) ∧
    (∃ (f : Fmt) (x : FVal) (y : FVal) (z : FVal), f ∈ [Fmt.f32, .f16, .bf16] ∧ x.isNan = false ∧ y.isNan = false ∧
      x.isInf = false ∧ y.isInf = false ∧ z.isInf = true) ∧
    (∃ (f : Fmt) (x : FVal) (z : FVal), f ∈ [Fmt.f32, .f16, .bf16] ∧ x.isInf = true ∧ z.isInf = true) :=
  ⟨⟨.f16x2, by decide +kernel⟩,
    ⟨Fmt.f16, false, true, false, 3, 5, 7, -1, 0, 2, _, rfl, _, rfl, _, rfl, by decide +kernel⟩,
    ⟨Fmt.f16, false, true, 3, 5, -1, 0, _, rfl, _, rfl, by decide +kernel⟩,
    ⟨Fmt.f16, false, true, 3, 5, -1, 0, _, rfl, _, rfl, by decide +kernel⟩,
    ⟨Fmt.f16, false, true, false, 1, 1, 1, 0, 0, 0, _, rfl, _, rfl, _, rfl, by decide +kernel⟩,
    ⟨Fmt.f16, false, true, 1, 1, 0, 0, _, rfl, _, rfl, by decide +kernel⟩,
    ⟨Fmt.f16, false, true, 0, 5, -1, 0, _, rfl, _, rfl, by decide +kernel⟩,
    ⟨Fmt.bf16, .fin false 0 0, .inf true, _, rfl, by decide +kernel⟩,
    ⟨Fmt.bf16, .fin false 1 0, .inf true, .nan true, _, rfl, by decide +kernel⟩,
    ⟨Fmt.bf16, .fin false 1 0, .nan false, by decide +kernel⟩,
    ⟨Fmt.bf16, .fin true 1 0, .inf true, .inf false, _, rfl, by decide +kernel⟩,
    ⟨Fmt.bf16, .fin false 0 0, .fin true 0 0, .inf true, by decide +kernel⟩,
    ⟨Fmt.bf16, .inf false, .inf true, by decide +kernel⟩⟩

/-- The hypotheses of `ComparisonsAndPredicates` can be met. -/
theorem test_wit_comparisonsAndPredicates :
    (∃ (x : FVal) (y : FVal) (k : Nat), (x.isNan || y.isNan) ∧ k < 8) ∧
    (∃ (w : FWord) (s : State) (th : Thread), Solo (.isetp w) s th) ∧
    (∃ (w : FWord) (s : State) (th : Thread), Solo (.fsetp w) s th) ∧
    (∃ (w : FWord) (s : State) (th : Thread), Solo (.psetp w) s th) ∧
    (∃ (w : FWord) (s : State) (th : Thread), Solo (.sel w) s th) :=
  ⟨⟨.nan false, .inf false, 7, by decide +kernel⟩,
    ⟨fw 3 4 5 0x21, lone th0, th0, solo_of (by decide +kernel)⟩,
    ⟨fw 3 4 5 1 .f32, lone th0, th0, solo_of (by decide +kernel)⟩,
    ⟨fw 3 1 0x12 0, lone th0, th0, solo_of (by decide +kernel)⟩,
    ⟨fw 3 4 5 0x11, lone th0, th0, solo_of (by decide +kernel)⟩⟩

/-- The hypotheses of `PairSlotsReadBeforeTheyWrite` can be met. -/
theorem test_wit_pairSlotsReadBeforeTheyWrite :
    (∃ (w : PWord) (s : State) (th : Thread), Solo (.pairWord w) s th ∧ w.slot0.op = .mov ∧ w.slot1.op = .mov) :=
  ⟨{ slot0 := { op := .mov, da := 4, b := 5, ty := .b32, rnd := .rne, f0 := false }, slot1 := { op := .mov, da := 6, b := 7, ty := .b32, rnd := .rne, f0 := false } },
    lone (regs [(4, 7), (5, 8)]), regs [(4, 7), (5, 8)], solo_of (by decide +kernel), by decide +kernel⟩

/-- The hypotheses of `QueueSourcesPopOrWait` can be met. -/
theorem test_wit_queueSourcesPopOrWait :
    (∃ (w : FWord) (s : State) (th : Thread) (tm : Team) (k : Nat) (e : List (Option Word)) (rest : List (List (Option
      Word))), w.ty = .b32 ∧ w.a.toNat = 0x188 + k ∧ k < 8 ∧ isV w.d.toNat = true ∧ s.cur.threads = [th.tid] ∧
      s.threads.filter (fun x => x.tid = th.tid) = [th] ∧ s.cur.core = th.tid.core ∧ th.grp < 512 ∧ decodeCause s
      (.mov w) (usesOf (.mov w)) th = none ∧ guardTrue (guardOf (.mov w)) th = true ∧ runCause s (.mov w) (usesOf
      (.mov w)) th = none ∧ th.wait = .ready ∧ s.teams.filter (fun x => x.core = th.tid.core && x.slot = th.slot) =
      [tm] ∧ tm.core = th.tid.core ∧ tm.slot = th.slot ∧ tm.queues[k]? = some (e :: rest) ∧ rest.length < 8 ∧
      s.pendingPushes tm.core tm.slot k = 0 ∧ (∀ x ∈ s.threads, x.wait ≠ .que)) ∧
    (∃ (i : Instr) (f : State → Thread → List Nat → Res) (s : State) (th : Thread) (tm : Team), vecRule i = some f ∧
      s.cur.threads = [th.tid] ∧ s.threads.filter (fun x => x.tid = th.tid) = [th] ∧ s.cur.core = th.tid.core ∧ th.grp
      < 512 ∧ decodeCause s i (usesOf i) th = none ∧ guardTrue (guardOf i) th = true ∧ runCause s i (usesOf i) th =
      none ∧ s.team? th.tid.core th.slot = some tm ∧ s.queuesReady tm (usesOf i) 0 = false) :=
  ⟨⟨fw 3 0x18A 0 0, lone th0 (onTeam (fun t => { t with queues := t.queues.set 2 [[some 5], [some 6]] })), th0,
      { tm0 with queues := tm0.queues.set 2 [[some 5], [some 6]] }, 2, [some 5], [[some 6]], by decide +kernel⟩,
    ⟨.mov (fw 3 0x18A 0 0), _, lone th0, th0, tm0, rfl, by decide +kernel⟩⟩

/-- The hypotheses of `BranchesMoveEachActingThread` can be met. -/
theorem test_wit_branchesMoveEachActingThread :
    (∃ (s : State), s.cur.threads.Nodup) :=
  ⟨{ lone (regs [(4, 0x1200)]) with threads := [regs [(4, 0x1200)], th1], cur := { (lone th0).cur with threads := [th0.tid, th1.tid] } },
    by decide +kernel⟩

/-- The hypotheses of `MisalignedReturnRaisesAlign` can be met. -/
theorem test_wit_misalignedReturnRaisesAlign :
    (∃ (w : IWord) (s : State) (th : Thread), Solo (.ret w) s th ∧ Trappable s th ∧ th.handler = false ∧ s.hasHandler th =
      true ∧ (pairTarget th (Solo.values (.ret w) s th)).toNat % 8 ≠ 0) :=
  ⟨iw 0 4 0, lone (regs [(4, 0x1204)]), regs [(4, 0x1204)], solo_of (by decide +kernel), trap_of (by decide +kernel),
    by decide +kernel⟩

/-- The hypotheses of `IndirectJumpsNeedALandingPoint` can be met. -/
theorem test_wit_indirectJumpsNeedALandingPoint :
    (∃ (w : IWord) (s : State) (th : Thread) (pa : Nat), Solo (.jmpi w) s th ∧ noQueueDest (.jmpi w) th ∧ PlainMemory s pa
      8 ∧ th.fetchRetry = 0 ∧ (pairTarget th (Solo.values (.jmpi w) s th)).toNat % 8 = 0 ∧ s.trans (.core th.tid.core)
      (s.pasidOf th.lslot) (pairTarget th (Solo.values (.jmpi w) s th)).toNat .exec = .ok pa ∧ isLanding (BitVec.ofNat
      64 (s.value pa 8)) = true) ∧
    (∃ (w : IWord) (s : State) (th : Thread) (pa : Nat), Solo (.jmpi w) s th ∧ noQueueDest (.jmpi w) th ∧ PlainMemory s pa
      8 ∧ Trappable s th ∧ th.fetchRetry = 0 ∧ (pairTarget th (Solo.values (.jmpi w) s th)).toNat % 8 = 0 ∧ s.trans
      (.core th.tid.core) (s.pasidOf th.lslot) (pairTarget th (Solo.values (.jmpi w) s th)).toNat .exec = .ok pa ∧
      isLanding (BitVec.ofNat 64 (s.value pa 8)) = false ∧ th.handler = false ∧ s.hasHandler th = true) ∧
    (∃ (w : IWord) (s : State) (th : Thread) (pa : Nat), Solo (.calli w) s th ∧ PlainMemory s pa 8 ∧ th.fetchRetry = 0 ∧
      (pairTarget th (Solo.values (.calli w) s th)).toNat % 8 = 0 ∧ s.trans (.core th.tid.core) (s.pasidOf th.lslot)
      (pairTarget th (Solo.values (.calli w) s th)).toNat .exec = .ok pa ∧ isLanding (BitVec.ofNat 64 (s.value pa 8))
      = true) ∧
    (∃ (w : IWord) (s : State) (th : Thread) (pa : Nat), Solo (.calli w) s th ∧ PlainMemory s pa 8 ∧ Trappable s th ∧
      th.fetchRetry = 0 ∧ (pairTarget th (Solo.values (.calli w) s th)).toNat % 8 = 0 ∧ s.trans (.core th.tid.core)
      (s.pasidOf th.lslot) (pairTarget th (Solo.values (.calli w) s th)).toNat .exec = .ok pa ∧ isLanding
      (BitVec.ofNat 64 (s.value pa 8)) = false ∧ th.handler = false ∧ s.hasHandler th = true) :=
  ⟨⟨iw 0 4 0, lone (regs [(4, 0x1200)]) (poke 0x1200 8 0x8A80000000000000 st0), regs [(4, 0x1200)], 0x1200, solo_of
      (by decide +kernel), noQ_of (by decide +kernel), plain_of (by decide +kernel), by decide +kernel⟩,
    ⟨iw 0 4 0, lone (regs [(4, 0x1200)]), regs [(4, 0x1200)], 0x1200, solo_of (by decide +kernel), noQ_of
      (by decide +kernel), plain_of (by decide +kernel), trap_of (by decide +kernel), by decide +kernel⟩,
    ⟨iw 6 4 0, lone (regs [(4, 0x1200)]) (poke 0x1200 8 0x8A80000000000000 st0), regs [(4, 0x1200)], 0x1200, solo_of
      (by decide +kernel), plain_of (by decide +kernel), by decide +kernel⟩,
    ⟨iw 6 4 0, lone (regs [(4, 0x1200)]), regs [(4, 0x1200)], 0x1200, solo_of (by decide +kernel), plain_of
      (by decide +kernel), trap_of (by decide +kernel), by decide +kernel⟩⟩

/-- The hypotheses of `ExitRetiresTheItem` can be met. -/
theorem test_wit_exitRetiresTheItem :
    (∃ (w : IWord) (s : State) (th : Thread), Solo (.exitW w) s th ∧ th.handler = false ∧ th.nest = 0) ∧
    (∃ (w : IWord) (s : State) (th : Thread), Solo (.exitW w) s th ∧ Trappable s th ∧ th.handler = false ∧ s.hasHandler th
      = true ∧ th.nest ≠ 0) ∧
    (∃ (w : IWord) (s : State) (th : Thread), Solo (.exitW w) s th ∧ Trappable s th ∧ th.handler = true) :=
  ⟨⟨iw 0 0 0, lone th0, th0, solo_of (by decide +kernel), by decide +kernel⟩,
    ⟨iw 0 0 0, lone { th0 with depth := th0.depth.set 2 1 }, { th0 with depth := th0.depth.set 2 1 }, solo_of
      (by decide +kernel), trap_of (by decide +kernel), by decide +kernel⟩,
    ⟨iw 0 0 0, lone { th0 with handler := true }, { th0 with handler := true }, solo_of (by decide +kernel), trap_of
      (by decide +kernel), by decide +kernel⟩⟩

/-- The hypotheses of `YieldAndNapLetOthersIssue` can be met. -/
theorem test_wit_yieldAndNapLetOthersIssue :
    (∃ (w : IWord) (s : State) (th : Thread), Solo (.yield w) s th ∧ th.idle = false ∧ (s.quarter s.cur.core
      s.cur.qtr).serial = false ∧ (s.quarter s.cur.core s.cur.qtr).entries.length < 64 ∧ (s.quarter s.cur.core
      s.cur.qtr).stampCtr < 2 ^ 32 - 1) ∧
    (∃ (w : IWord) (s : State) (th : Thread), Solo (.nap w) s th) ∧
    (∃ (s : State) (th : Thread) (u : _), s.threads.filter (fun x => x.tid = th.tid) = [th] ∧ th.wait = .nap u ∧ u ≤
      s.issueClock (dieOf th.tid.core)) ∧
    (∃ (s : State) (th : Thread) (u : _), s.threads.filter (fun x => x.tid = th.tid) = [th] ∧ th.wait = .nap u ∧
      s.issueClock (dieOf th.tid.core) < u) :=
  ⟨⟨iw 0 0 0, lone th0, th0, solo_of (by decide +kernel), by decide +kernel⟩,
    ⟨iw 0 0 5, lone th0, th0, solo_of (by decide +kernel)⟩,
    ⟨{ lone { th0 with wait := .nap 3 } with clock := 7 }, { th0 with wait := .nap 3 }, 3, by decide +kernel⟩,
    ⟨lone { th0 with wait := .nap 3 }, { th0 with wait := .nap 3 }, 3, by decide +kernel⟩⟩

/-- The hypotheses of `BarriersCountArrivals` can be met. -/
theorem test_wit_barriersCountArrivals :
    (∃ (w : IWord) (s : State) (th : Thread) (tm : Team), ∃ b, b = w.imm.toNat % 16 ∧ ∃ x, x = (tm.bar b).arrived
      (barCount w) ∧ Solo (.bar w) s th ∧ s.teams.filter (fun x => x.core = th.tid.core && x.slot = th.slot) = [tm] ∧
      tm.bars.length = 16 ∧ (∀ y ∈ s.threads, y.late = []) ∧ (∃ e ∈ th.unf, e.open_ = true ∧ e.tag ≤ s.clock) ∧
      th.handler = false) ∧
    (∃ (w : IWord) (s : State) (th : Thread) (tm : Team), ∃ b, b = w.imm.toNat % 16 ∧ ∃ x, x = (tm.bar b).arrived
      (barCount w) ∧ Solo (.bararv w) s th ∧ s.teams.filter (fun x => x.core = th.tid.core && x.slot = th.slot) = [tm]
      ∧ tm.bars.length = 16 ∧ (∀ y ∈ s.threads, y.late = []) ∧ (∃ e ∈ th.unf, e.open_ = true ∧ e.tag ≤ s.clock) ∧
      th.handler = false) ∧
    (∃ (w : IWord) (s : State) (th : Thread) (tm : Team), ∃ b, b = w.imm.toNat % 16 ∧ ∃ x, x = (tm.bar b).arrived
      (barCount w) ∧ ∃ live, live = (s.liveThreads th.tid.core th.slot).length ∧ Solo (.bar w) s th ∧ s.teams.filter
      (fun x => x.core = th.tid.core && x.slot = th.slot) = [tm] ∧ tm.bars.length = 16 ∧ (∀ y ∈ s.threads, y.late =
      []) ∧ (∀ e ∈ th.unf, e.open_ = false) ∧ x.complete live = false) ∧
    (∃ (w : IWord) (s : State) (th : Thread) (tm : Team), ∃ b, b = w.imm.toNat % 16 ∧ ∃ x, x = (tm.bar b).arrived
      (barCount w) ∧ ∃ live, live = (s.liveThreads th.tid.core th.slot).length ∧ Solo (.bararv w) s th ∧
      s.teams.filter (fun x => x.core = th.tid.core && x.slot = th.slot) = [tm] ∧ tm.bars.length = 16 ∧ (∀ y ∈
      s.threads, y.late = []) ∧ (∀ e ∈ th.unf, e.open_ = false) ∧ x.complete live = false) ∧
    (∃ (w : IWord) (s : State) (th : Thread) (tm : Team), ∃ b, b = w.imm.toNat % 16 ∧ ∃ x, x = (tm.bar b).arrived
      (barCount w) ∧ ∃ live, live = (s.liveThreads th.tid.core th.slot).length ∧ Solo (.bar w) s th ∧ s.teams.filter
      (fun x => x.core = th.tid.core && x.slot = th.slot) = [tm] ∧ tm.bars.length = 16 ∧ (∀ y ∈ s.threads, y.late =
      []) ∧ (∀ e ∈ th.unf, e.open_ = false) ∧ x.complete live = true) ∧
    (∃ (w : IWord) (s : State) (th : Thread) (tm : Team), ∃ b, b = w.imm.toNat % 16 ∧ ∃ x, x = (tm.bar b).arrived
      (barCount w) ∧ ∃ live, live = (s.liveThreads th.tid.core th.slot).length ∧ Solo (.bararv w) s th ∧
      s.teams.filter (fun x => x.core = th.tid.core && x.slot = th.slot) = [tm] ∧ tm.bars.length = 16 ∧ (∀ y ∈
      s.threads, y.late = []) ∧ (∀ e ∈ th.unf, e.open_ = false) ∧ x.complete live = true) :=
  ⟨⟨iw 0 0 0x20003, { lone { th0 with unf := [storeEnt] } with clock := 2 }, { th0 with unf := [storeEnt] }, tm0, _, rfl,
      _, rfl, solo_of (by decide +kernel), by decide +kernel⟩,
    ⟨iw 0 0 0x20003, { lone { th0 with unf := [storeEnt] } with clock := 2 }, { th0 with unf := [storeEnt] }, tm0, _, rfl,
      _, rfl, solo_of (by decide +kernel), by decide +kernel⟩,
    ⟨iw 0 0 0x20003, lone th0, th0, tm0, _, rfl, _, rfl, _, rfl, solo_of (by decide +kernel), by decide +kernel⟩,
    ⟨iw 0 0 0x20003, lone th0, th0, tm0, _, rfl, _, rfl, _, rfl, solo_of (by decide +kernel), by decide +kernel⟩,
    ⟨iw 0 0 0x10003, lone th0, th0, tm0, _, rfl, _, rfl, _, rfl, solo_of (by decide +kernel), by decide +kernel⟩,
    ⟨iw 0 0 3, lone th0, th0, tm0, _, rfl, _, rfl, _, rfl, solo_of (by decide +kernel), by decide +kernel⟩⟩

/-- The hypotheses of `ConvergenceSignaturesCount` can be met. -/
theorem test_wit_convergenceSignaturesCount :
    (∃ (w : IWord) (s : State) (th : Thread) (tm : Team) (x : CvInst), ∃ set, set = s.cvSet th.tid.core th.slot x ∧ Solo
      (.cvsign w) s th ∧ s.teams.filter (fun y => y.core = th.tid.core && y.slot = th.slot) = [tm] ∧ tm.cvs.filter
      (fun y => y.cv = w.imm.toNat % 16 && y.qtr = cvQtr y.kind th.tid.qtr) = [x] ∧ x.op = none ∧ x.full = false ∧
      x.deferred = [] ∧ th.tid ∉ x.signers ∧ (∃ y ∈ set, y.tid = th.tid) ∧ x.signed + 1 < set.length) ∧
    (∃ (w : IWord) (s : State) (th : Thread) (tm : Team) (x : CvInst), ∃ set, set = s.cvSet th.tid.core th.slot x ∧ Solo
      (.cvwait w) s th ∧ s.teams.filter (fun y => y.core = th.tid.core && y.slot = th.slot) = [tm] ∧ tm.cvs.filter
      (fun y => y.cv = w.imm.toNat % 16 && y.qtr = cvQtr y.kind th.tid.qtr) = [x] ∧ x.op = none ∧ x.full = false ∧
      x.deferred = [] ∧ th.tid ∉ x.signers ∧ (∃ y ∈ set, y.tid = th.tid) ∧ x.signed + 1 < set.length) ∧
    (∃ (w : IWord) (s : State) (th : Thread) (tm : Team) (x : CvInst), ∃ set, set = s.cvSet th.tid.core th.slot x ∧ Solo
      (.cvsign w) s th ∧ s.teams.filter (fun y => y.core = th.tid.core && y.slot = th.slot) = [tm] ∧ tm.cvs.filter
      (fun y => y.cv = w.imm.toNat % 16 && y.qtr = cvQtr y.kind th.tid.qtr) = [x] ∧ x.op = none ∧ x.full = false ∧
      x.deferred = [] ∧ th.tid ∉ x.signers ∧ (∃ y ∈ set, y.tid = th.tid) ∧ x.signed + 1 = set.length) ∧
    (∃ (w : IWord) (s : State) (th : Thread) (tm : Team) (x : CvInst), ∃ set, set = s.cvSet th.tid.core th.slot x ∧ Solo
      (.cvwait w) s th ∧ s.teams.filter (fun y => y.core = th.tid.core && y.slot = th.slot) = [tm] ∧ tm.cvs.filter
      (fun y => y.cv = w.imm.toNat % 16 && y.qtr = cvQtr y.kind th.tid.qtr) = [x] ∧ x.op = none ∧ x.full = false ∧
      x.deferred = [] ∧ th.tid ∉ x.signers ∧ (∃ y ∈ set, y.tid = th.tid) ∧ x.signed + 1 = set.length) ∧
    (∃ (w : IWord) (s : State) (th : Thread) (tm : Team) (x : CvInst), ∃ set, set = s.cvSet th.tid.core th.slot x ∧ Solo
      (.cvsign w) s th ∧ Trappable s th ∧ s.teams.filter (fun y => y.core = th.tid.core && y.slot = th.slot) = [tm] ∧
      tm.cvs.filter (fun y => y.cv = w.imm.toNat % 16 && y.qtr = cvQtr y.kind th.tid.qtr) = [x] ∧ x.op = none ∧ x.full
      = false ∧ x.deferred = [] ∧ th.tid ∉ x.signers ∧ (∀ y ∈ set, y.tid ≠ th.tid) ∧ th.stepping = false ∧ th.handler
      = false ∧ s.hasHandler th = true) :=
  ⟨⟨iw 0 0 0, { lone th0 with threads := [th0, th1] }, th0, tm0, { cv := 0, qtr := 0, kind := 3, role := 0 }, _, rfl,
      solo_of (by decide +kernel), by decide +kernel⟩,
    ⟨iw 0 0 0, { lone th0 with threads := [th0, th1] }, th0, tm0, { cv := 0, qtr := 0, kind := 3, role := 0 }, _, rfl,
      solo_of (by decide +kernel), by decide +kernel⟩,
    ⟨iw 0 0 0,
      { lone th0 with threads := [th0, { th1 with wait := .cvw 0 }], teams := [{ tm0 with cvs := [{ cv := 0, qtr := 0, kind := 3, role := 0, signed := 1, signers := [th1.tid] }] }] },
      th0, { tm0 with cvs := [{ cv := 0, qtr := 0, kind := 3, role := 0, signed := 1, signers := [th1.tid] }] },
      { cv := 0, qtr := 0, kind := 3, role := 0, signed := 1, signers := [th1.tid] }, _, rfl, solo_of
      (by decide +kernel), by decide +kernel⟩,
    ⟨iw 0 0 0,
      { lone th0 with threads := [th0, { th1 with wait := .cvw 0 }], teams := [{ tm0 with cvs := [{ cv := 0, qtr := 0, kind := 3, role := 0, signed := 1, signers := [th1.tid] }] }] },
      th0, { tm0 with cvs := [{ cv := 0, qtr := 0, kind := 3, role := 0, signed := 1, signers := [th1.tid] }] },
      { cv := 0, qtr := 0, kind := 3, role := 0, signed := 1, signers := [th1.tid] }, _, rfl, solo_of
      (by decide +kernel), by decide +kernel⟩,
    ⟨iw 0 0 0, lone th0 (onTeam fun t => { t with cvs := [{ cv := 0, qtr := 0, kind := 2, role := 1 }] }), th0,
      { tm0 with cvs := [{ cv := 0, qtr := 0, kind := 2, role := 1 }] }, { cv := 0, qtr := 0, kind := 2, role := 1 },
      _, rfl, solo_of (by decide +kernel), trap_of (by decide +kernel), by decide +kernel⟩⟩

/-- The hypotheses of `TokenPassesBetweenTwoGroups` can be met. -/
theorem test_wit_tokenPassesBetweenTwoGroups :
    (∃ (w : IWord) (s : State) (th : Thread) (hold : _) (part : _), ∃ (g : GroupKey), g =
      { slot := th.slot, grp := th.grp } ∧ ∃ q, q = s.quarter th.tid.core th.tid.qtr ∧ Solo (.tkn w) s th ∧ ((q.holder
      = none ∧ hold = some g ∧ part = none) ∨ (q.holder = some g ∧ q.partner = none ∧ hold = some g ∧ part = none) ∨
      (∃ h, h ≠ g ∧ q.holder = some h ∧ q.partner = none ∧ hold = some h ∧ part = some g) ∨ (∃ p, q.holder = some g ∧
      q.partner = some p ∧ hold = some p ∧ part = some g) ∨ (∃ h, h ≠ g ∧ q.holder = some h ∧ q.partner = some g ∧
      hold = some h ∧ part = some g))) ∧
    (∃ (w : IWord) (s : State) (th : Thread) (h : _) (p : _), ∃ (g : GroupKey), g = { slot := th.slot, grp := th.grp } ∧ ∃
      q, q = s.quarter th.tid.core th.tid.qtr ∧ Solo (.tkn w) s th ∧ Trappable s th ∧ q.holder = some h ∧ q.partner =
      some p ∧ h ≠ g ∧ p ≠ g ∧ th.handler = false ∧ s.hasHandler th = true) :=
  ⟨⟨iw 0 0 0, lone th0, th0, (some { slot := 0, grp := 0 } : Option GroupKey), (none : Option GroupKey), _, rfl, _, rfl,
      solo_of (by decide +kernel), .inl (by decide +kernel)⟩,
    ⟨iw 0 0 0, lone th0
      { st0 with quarters := [{ core := 0, qtr := 0, holder := some { slot := 1, grp := 0 }, partner := some { slot := 1, grp := 1 } }], threads := [th0] },
      th0, ({ slot := 1, grp := 0 } : GroupKey), ({ slot := 1, grp := 1 } : GroupKey), _, rfl, _, rfl, solo_of
      (by decide +kernel), trap_of (by decide +kernel), by decide +kernel⟩⟩

/-- The hypotheses of `ItemsAreAssignedFromTheBatch` can be met. -/
theorem test_wit_itemsAreAssignedFromTheBatch :
    (∃ (s : State) (th : Thread) (tm : Team) (l : Launch) (d : Desc) (c : _) (n : _) (rest : _), s.threads.filter (fun x
      => x.tid = th.tid) = [th] ∧ th.wait = .eng (.assign c) ∧ th.idle = false ∧ s.teams.filter (fun x => x.core =
      th.tid.core && x.slot = th.slot) = [tm] ∧ s.launches.filter (fun x => x.slot = th.lslot) = [l] ∧ l.desc = some d
      ∧ tm.draining = false ∧ l.draining = false ∧ l.faulted = false ∧ th.gone = false ∧ tm.claimed l = n :: rest) ∧
    (∃ (s : State) (th : Thread) (tm : Team) (l : Launch) (c : _), s.threads = [th] ∧ th.wait = .eng (.assign c) ∧ th.idle
      = false ∧ s.teams = [tm] ∧ tm.core = th.tid.core ∧ tm.slot = th.slot ∧ s.launches.filter (fun x => x.slot =
      th.lslot) = [l] ∧ (tm.draining = true ∨ l.draining = true ∨ l.faulted = true ∨ th.gone = true ∨ tm.claimed l =
      [])) :=
  ⟨⟨lone ({ th0 with wait := .eng (.assign 0) }) (onTeam fun t => { t with batch := [5, 6] }),
      { th0 with wait := .eng (.assign 0) }, { tm0 with batch := [5, 6] }, Loader.launch, Loader.desc, 0, (5:Nat),
      [(6:Nat)], by decide +kernel⟩,
    ⟨lone ({ th0 with wait := .eng (.assign 0) }) (onTeam fun t => { t with batch := [5, 6], draining := true }),
      { th0 with wait := .eng (.assign 0) }, { tm0 with batch := [5, 6], draining := true }, Loader.launch, 0,
      by decide +kernel⟩⟩

/-- The hypotheses of `FairnessAndStamps` can be met. -/
theorem test_wit_fairnessAndStamps :
    (∃ (s : State) (l : _) (n : _), s.promise l = some n) ∧
    (∃ (s : State) (l : _), s.promise l = none) ∧
    (∃ (s : State) (core : _) (qtr : _), (s.quarter core qtr).stampCtr < 2 ^ 32 - 1) ∧
    (∃ (s : State) (core : _) (qtr : _), 2 ^ 32 - 1 ≤ (s.quarter core qtr).stampCtr) :=
  ⟨⟨onLaunch fun l => { l with prom := true, fair := 64 }, 0, 64, by decide +kernel⟩,
    ⟨st0, 0, by decide +kernel⟩,
    ⟨st0, 0, 0, by decide +kernel⟩,
    ⟨{ st0 with quarters := [{ core := 0, qtr := 0, stampCtr := 2 ^ 32 - 1, entries := [{ lslot := 0, pc := 8, stamp := 70 }, { lslot := 0, pc := 16, stamp := 7, wait := 64 }] }] },
      0, 0, by decide +kernel⟩⟩

/-- The hypotheses of `GroupInstructionsUseEveryParticipant` can be met. -/
theorem test_wit_groupInstructionsUseEveryParticipant :
    (∃ (i : Instr) (f : _) (s : State) (sl : _) (g : _) (ps : List Thread), groupRule i = some f ∧ GroupAtWord i s sl g
      ps) :=
  ⟨.shfl { fw 3 4 5 2 with f2 := false }, (groupRule (.shfl { fw 3 4 5 2 with f2 := false })).getD (fun _ _ _ _ => {}),
    { lone th0 with threads := [th0, th1], cur := { (lone th0).cur with threads := [th0.tid, th1.tid] } }, 0, 0, [th0,
    th1], rfl, group_of (by decide +kernel)⟩

/-- The hypotheses of `GroupInstructionsWaitForTheGroup` can be met. -/
theorem test_wit_groupInstructionsWaitForTheGroup :
    (∃ (i : Instr) (s : State) (th : Thread) (y : Thread),
      (match i with | .shfl w | .vote w | .gred w | .gscan w | .matchW w | .elect w => w.f2 = false | _ => False) ∧
      s.cur.threads = [th.tid] ∧ s.cur.core = th.tid.core ∧ s.threads.filter (fun x => x.tid = th.tid) = [th] ∧ th.grp
      < 512 ∧ decodeCause s i (usesOf i) th = none ∧ th.handler = false ∧ y ∈ s.threads ∧ y.tid.core = th.tid.core ∧
      y.slot = th.slot ∧ y.grp = th.grp ∧ y.idle = false ∧ y.tid ≠ th.tid ∧ y.wait ≠ .gop) :=
  ⟨.elect (fw 1 0 0 0), { lone th0 with threads := [th0, th1] }, th0, th1, by decide +kernel⟩

/-- The hypotheses of `QtryNeverWaits` can be met. -/
theorem test_wit_qtryNeverWaits :
    (∃ (w : FWord) (s : State) (th : Thread) (tm : Team), ∃ q, q = (if w.f0 then w.d else w.a).toNat - 0x188 ∧ Solo (.qtry
      w) s th ∧ s.teams.filter (fun x => x.core = th.tid.core && x.slot = th.slot) = [tm] ∧ tm.queues.length = 8 ∧ q <
      8 ∧ w.f0 = true ∧ (tm.queueAt q).length + s.pendingPushes th.tid.core th.slot q < 8) ∧
    (∃ (w : FWord) (s : State) (th : Thread) (tm : Team), ∃ q, q = (if w.f0 then w.d else w.a).toNat - 0x188 ∧ Solo (.qtry
      w) s th ∧ s.teams.filter (fun x => x.core = th.tid.core && x.slot = th.slot) = [tm] ∧ tm.queues.length = 8 ∧ q <
      8 ∧ w.f0 = true ∧ 8 ≤ (tm.queueAt q).length + s.pendingPushes th.tid.core th.slot q) ∧
    (∃ (w : FWord) (s : State) (th : Thread) (tm : Team), ∃ q, q = (if w.f0 then w.d else w.a).toNat - 0x188 ∧ Solo (.qtry
      w) s th ∧ s.teams.filter (fun x => x.core = th.tid.core && x.slot = th.slot) = [tm] ∧ tm.queues.length = 8 ∧ q <
      8 ∧ w.f0 = false ∧ tm.queueAt q = []) ∧
    (∃ (w : FWord) (s : State) (th : Thread) (tm : Team) (e : _) (r : _), ∃ q, q = (if w.f0 then w.d else w.a).toNat -
      0x188 ∧ Solo (.qtry w) s th ∧ s.teams.filter (fun x => x.core = th.tid.core && x.slot = th.slot) = [tm] ∧
      tm.queues.length = 8 ∧ q < 8 ∧ w.f0 = false ∧ tm.queueAt q = e :: r) :=
  ⟨⟨fw 0x18A 4 0 1 .b32 true, lone (regs [(4, 7)]) { st0 with teams := [{ tm0 with queues := tm0.queues.set 2 [] }] },
      regs [(4, 7)], { tm0 with queues := tm0.queues.set 2 [] }, _, rfl, solo_of (by decide +kernel),
      by decide +kernel⟩,
    ⟨fw 0x18A 4 0 1 .b32 true, lone (regs [(4, 7)])
      { st0 with teams := [{ tm0 with queues := tm0.queues.set 2 (List.replicate 8 [some 5]) }] }, regs [(4, 7)],
      { tm0 with queues := tm0.queues.set 2 (List.replicate 8 [some 5]) }, _, rfl, solo_of (by decide +kernel),
      by decide +kernel⟩,
    ⟨fw 3 0x18A 0 1, lone (regs [(4, 7)]) { st0 with teams := [{ tm0 with queues := tm0.queues.set 2 [] }] }, regs [(4,
      7)], { tm0 with queues := tm0.queues.set 2 [] }, _, rfl, solo_of (by decide +kernel), by decide +kernel⟩,
    ⟨fw 3 0x18A 0 1, lone (regs [(4, 7)])
      { st0 with teams := [{ tm0 with queues := tm0.queues.set 2 [[some 5], [some 6]] }] }, regs [(4, 7)],
      { tm0 with queues := tm0.queues.set 2 [[some 5], [some 6]] }, [some (5 : Word)], [[some (6 : Word)]], _, rfl,
      solo_of (by decide +kernel), by decide +kernel⟩⟩

/-- The hypotheses of `FunctionUnitResultsAreFixedFunctions` can be met. -/
theorem test_wit_functionUnitResultsAreFixedFunctions :
    (∃ (i : Instr) (s : State) (th : Thread), Solo i s th ∧ noQueueDest i th ∧ s.noFollowers th.tid ∧ isFu i = true ∧
      s.choices = []) :=
  ⟨.rcp (fw 3 4 0 0 .f32), lone (regs [(4, 0x40000000)]), regs [(4, 0x40000000)], solo_of (by decide +kernel), noQ_of
    (by decide +kernel), follow_of (by decide +kernel), by decide +kernel⟩

/-- The hypotheses of `FunctionUnitExactPoints` can be met. -/
theorem test_wit_functionUnitExactPoints :
    (∃ (w : FWord), w.ty = .f32) ∧
    (∃ (w : FWord) (i : _), w.ty = .f32 ∧ i ∈ [Instr.rcp w, .rsqrt w, .sqrt w, .exp2 w, .log2 w, .sinpi w, .cospi w, .tanh
      w]) ∧
    (∃ (w : FWord) (a : _), w.ty = .f32 ∧ a < 0x7F800001) ∧
    (∃ (w : FWord) (a : _), w.ty = .f32 ∧ (a < 0x7F800000 ∨ (0x80000000 ≤ a ∧ a < 0xFF800000))) :=
  ⟨⟨fw 3 4 5 0 .f32, by decide +kernel⟩,
    ⟨fw 3 4 5 0 .f32, .rcp (fw 3 4 5 0 .f32), by decide +kernel⟩,
    ⟨fw 3 4 5 0 .f32, 0x7F800000, by decide +kernel⟩,
    ⟨fw 3 4 5 0 .f32, 0x80000000, by decide +kernel⟩⟩

/-- The hypotheses of `TrapEntersTheHandler` can be met. -/
theorem test_wit_trapEntersTheHandler :
    (∃ (w : EWord) (s : State) (th : Thread), Solo (.trap w) s th ∧ Trappable s th ∧ th.handler = false ∧ s.hasHandler th
      = true) :=
  ⟨ew 5, lone th0, th0, solo_of (by decide +kernel), trap_of (by decide +kernel), by decide +kernel⟩

/-- The hypotheses of `FailedCheckTakesItsCause` can be met. -/
theorem test_wit_failedCheckTakesItsCause :
    (∃ (i : Instr) (s : State) (th : Thread) (c : Cause) (sub : Nat), Trappable s th ∧ isWord i = true ∧ s.cur.threads =
      [th.tid] ∧ th.handler = false ∧ s.hasHandler th = true ∧ decodeCause s i (usesOf i) th = some (c, sub)) :=
  ⟨.iadd (fw 3 70 5 0), lone th0, th0, .regbound, 0, trap_of (by decide +kernel), by decide +kernel⟩

/-- The hypotheses of `CauseWithoutHandlerHalts` can be met. -/
theorem test_wit_causeWithoutHandlerHalts :
    (∃ (w : EWord) (s : State) (th : Thread), Solo (.trap w) s th ∧ Trappable s th ∧ th.handler = false ∧ s.hasHandler th
      = false) ∧
    (∃ (w : EWord) (s : State) (th : Thread), Solo (.trap w) s th ∧ Trappable s th ∧ th.handler = true) :=
  ⟨⟨ew 5, lone th0 (onLaunch fun l => { l with desc := some { Loader.desc with tv := false } }), th0, solo_of
      (by decide +kernel), trap_of (by decide +kernel), by decide +kernel⟩,
    ⟨ew 5, lone { th0 with handler := true }, { th0 with handler := true }, solo_of (by decide +kernel), trap_of
      (by decide +kernel), by decide +kernel⟩⟩

/-- The hypotheses of `IllegalWordsAndDueCausesAreTaken` can be met. -/
theorem test_wit_illegalWordsAndDueCausesAreTaken :
    (∃ (s : State) (th : Thread), Trappable s th ∧ s.cur.threads = [th.tid] ∧ th.handler = false ∧ s.hasHandler th = true) ∧
    (∃ (s : State) (th : Thread) (p : Pending), s.threads.filter (fun x => x.tid = th.tid) = [th] ∧ th.pending = some p ∧
      th.halt = none ∧ th.idle = false ∧ th.settled = true ∧ th.handler = false ∧ s.hasHandler th = true) :=
  ⟨⟨lone th0, th0, trap_of (by decide +kernel), by decide +kernel⟩,
    ⟨lone { th0 with pending := some { cause := .watchdog, q := false, tpc := 0x1088 } },
      { th0 with pending := some { cause := .watchdog, q := false, tpc := 0x1088 } },
      { cause := .watchdog, q := false, tpc := 0x1088 }, by decide +kernel⟩⟩

/-- The hypotheses of `RettReturnsToTpc` can be met. -/
theorem test_wit_rettReturnsToTpc :
    (∃ (w : EWord) (s : State) (th : Thread), Solo (.rett w) s th ∧ th.handler = true ∧ th.nestBad = false ∧ s.causeHeld
      th = false ∧ th.replay = [] ∧ th.idle = false) ∧
    (∃ (w : EWord) (s : State) (th : Thread), Solo (.rett w) s th ∧ th.handler = true ∧ th.nestBad = false ∧ s.causeHeld
      th = true) ∧
    (∃ (w : EWord) (s : State) (th : Thread), Solo (.rett w) s th ∧ Trappable s th ∧ th.handler = true ∧ th.nestBad =
      true) ∧
    (∃ (w : EWord) (s : State) (th : Thread) (e : Entry), Solo (.rett w) s th ∧ s.noFollowers th.tid ∧ th.handler = true ∧
      th.nestBad = false ∧ s.causeHeld th = false ∧ w.fl = true ∧ th.tq = true ∧ th.unf = [e] ∧ e.queued = true ∧ e.st
      = 2 ∧ th.idle = false ∧ th.halt = none ∧ (∀ x ∈ s.threads, x.tid ≠ th.tid → x.unf = [])) :=
  ⟨⟨ew (fl := true), lone { th0 with handler := true, tpc := 0x1100 }, { th0 with handler := true, tpc := 0x1100 },
      solo_of (by decide +kernel), by decide +kernel⟩,
    ⟨ew, lone { th0 with handler := true, tpc := 0x1100 }
      { st0 with groups := st0.groups.map fun g => { g with masks := g.masks.set 3 1 } },
      { th0 with handler := true, tpc := 0x1100 }, solo_of (by decide +kernel), by decide +kernel⟩,
    ⟨ew, lone { th0 with handler := true, depth := th0.depth.set 1 1 },
      { th0 with handler := true, depth := th0.depth.set 1 1 }, solo_of (by decide +kernel), trap_of
      (by decide +kernel), by decide +kernel⟩,
    ⟨ew (fl := true), lone
      { th0 with handler := true, tpc := 0x1100, tq := true, unf := [{ ent 0 [] [] 2 true with tag := 5 }] },
      { th0 with handler := true, tpc := 0x1100, tq := true, unf := [{ ent 0 [] [] 2 true with tag := 5 }] },
      { ent 0 [] [] 2 true with tag := 5 }, solo_of (by decide +kernel), follow_of (by decide +kernel),
      by decide +kernel⟩⟩

/-- The hypotheses of `BkptHaltsOrTraps` can be met. -/
theorem test_wit_bkptHaltsOrTraps :
    (∃ (w : EWord) (s : State) (th : Thread), Solo (.bkpt w) s th ∧ s.debugged th.lslot = true) ∧
    (∃ (w : EWord) (s : State) (th : Thread), Solo (.bkpt w) s th ∧ Trappable s th ∧ th.stepping = false ∧ th.handler =
      false ∧ s.hasHandler th = true ∧ s.debugged th.lslot = false) :=
  ⟨⟨ew 7, lone th0 (onLaunch fun l => { l with attached := true }), th0, solo_of (by decide +kernel), by decide +kernel⟩,
    ⟨ew 7, lone th0, th0, solo_of (by decide +kernel), trap_of (by decide +kernel), by decide +kernel⟩⟩

/-- The hypotheses of `HandlerWordsWriteTheirRegisters` can be met. -/
theorem test_wit_handlerWordsWriteTheirRegisters :
    (∃ (w : EWord) (s : State) (th : Thread), Solo (.causeclr w) s th) ∧
    (∃ (w : EWord) (s : State) (th : Thread) (e : Entry), Solo (.rqwr w) s th ∧ th.replay[w.o1.toNat % 32]? = some e ∧
      (th.unf.map Entry.id).Nodup) ∧
    (∃ (w : EWord) (s : State) (th : Thread), Solo (.csrwr w) s th ∧ s.csrDenied th w.o1.toNat = false ∧ w.o1.toNat =
      0x00) ∧
    (∃ (w : EWord) (s : State) (th : Thread), Solo (.csrwr w) s th ∧ s.csrDenied th w.o1.toNat = false ∧ (w.o1.toNat =
      0x10 ∨ w.o1.toNat = 0x11)) ∧
    (∃ (w : EWord) (s : State) (th : Thread), Solo (.csrwr w) s th ∧ s.csrDenied th w.o1.toNat = false ∧ w.o1.toNat =
      0x20) ∧
    (∃ (w : EWord) (s : State) (th : Thread), Solo (.csrwr w) s th ∧ Trappable s th ∧ th.handler = false ∧ s.hasHandler th
      = true ∧ s.csrDenied th w.o1.toNat = true) :=
  ⟨⟨ew 3, lone { th0 with handler := true, tpc := 0x1100 }
      { st0 with groups := st0.groups.map fun g => { g with masks := g.masks.set 3 1 } },
      { th0 with handler := true, tpc := 0x1100 }, solo_of (by decide +kernel)⟩,
    ⟨ew 0 1 4, lone { { regs [(4, 0x1203)] with handler := true } with unf := [{ ent 0 [] [] 2 true with tag := 5 }] },
      { { regs [(4, 0x1203)] with handler := true } with unf := [{ ent 0 [] [] 2 true with tag := 5 }] },
      { ent 0 [] [] 2 true with tag := 5 }, solo_of (by decide +kernel), by decide +kernel⟩,
    ⟨ew 0 4, lone { regs [(4, 0x1203)] with handler := true }, { regs [(4, 0x1203)] with handler := true }, solo_of
      (by decide +kernel), by decide +kernel⟩,
    ⟨ew 0x10 4, lone { regs [(4, 0x1203)] with handler := true }, { regs [(4, 0x1203)] with handler := true }, solo_of
      (by decide +kernel), by decide +kernel⟩,
    ⟨ew 0x20 4, lone { regs [(4, 0x1203)] with handler := true } { st0 with drvpasid := 0x80000001 },
      { regs [(4, 0x1203)] with handler := true }, solo_of (by decide +kernel), by decide +kernel⟩,
    ⟨ew 0x10 4, lone (regs [(4, 7)]), regs [(4, 7)], solo_of (by decide +kernel), trap_of (by decide +kernel),
      by decide +kernel⟩⟩

/-- The hypotheses of `SetmodeReplacesALaunchSetting` can be met. -/
theorem test_wit_setmodeReplacesALaunchSetting :
    (∃ (w : EWord) (s : State) (th : Thread) (l : Launch), Solo (.setmode w) s th ∧ noQueueDest (.setmode w) th ∧
      s.noFollowers th.tid ∧ s.launches.filter (fun x => x.slot = th.lslot) = [l]) :=
  ⟨ew 3 1 4, lone (regs [(4, 64)]) { st0 with drvpasid := 0x80000001 }, regs [(4, 64)], Loader.launch, solo_of
    (by decide +kernel), noQ_of (by decide +kernel), follow_of (by decide +kernel), by decide +kernel⟩

/-- The hypotheses of `PreemptionStartsAndEnds` can be met. -/
theorem test_wit_preemptionStartsAndEnds :
    (∃ (w : EWord) (s : State) (th : Thread) (c : _), ∃ e, e = captureE (.preempt w) s th (Solo.values (.preempt w) s th)
      ∧ Solo (.preempt w) s th ∧ noQueueDest (.preempt w) th ∧ s.noFollowers th.tid ∧ s.preemptRefused ((e[0]?).getD
      0).toNat ((e[1]?).getD 0).toNat (w.o4.toNat % 64) (some th.lslot) = some c) ∧
    (∃ (w : EWord) (s : State) (th : Thread), ∃ e, e = captureE (.preempt w) s th (Solo.values (.preempt w) s th) ∧ Solo
      (.preempt w) s th ∧ s.noFollowers th.tid ∧ s.preemptRefused ((e[0]?).getD 0).toNat ((e[1]?).getD 0).toNat
      (w.o4.toNat % 64) (some th.lslot) = none) ∧
    (∃ (s : State) (v : Word) (c : _), flag v.toNat 31 = true ∧ s.preemptRefused (fld v.toNat 16 8) (fld v.toNat 0 10)
      (fld v.toNat 24 6) none = some c) ∧
    (∃ (s : State) (v : Word), flag v.toNat 31 = true ∧ s.preemptRefused (fld v.toNat 16 8) (fld v.toNat 0 10) (fld
      v.toNat 24 6) none = none) ∧
    (∃ (s : State) (p : Preempt), s.preempt = some p ∧ p.pend = [] ∧ p.lead = none ∧ p.saved = false ∧ p.full = false ∧
      s.launches = []) :=
  ⟨⟨ew 3 4 5 0, lone th0 { st0 with drvpasid := 0x80000001 }, th0, (5:Nat), _, rfl, solo_of (by decide +kernel), noQ_of
      (by decide +kernel), follow_of (by decide +kernel), by decide +kernel⟩,
    ⟨ew 3 4 5 0, lone (regs [(4, 0), (5, 1)]) { st0 with drvpasid := 0x80000001 }, regs [(4, 0), (5, 1)], _, rfl, solo_of
      (by decide +kernel), follow_of (by decide +kernel), by decide +kernel⟩,
    ⟨st0, 0x80000000#32, (5:Nat), by decide +kernel⟩,
    ⟨st0, 0x80000001#32, by decide +kernel⟩,
    ⟨{ st0 with launches := [], preempt := some { queue := 1, lslot := 0, order := 1, lead := none, pend := [], vacate := [] } },
      { queue := 1, lslot := 0, order := 1, lead := none, pend := [], vacate := [] }, by decide +kernel⟩⟩

/-- The hypotheses of `ParkedShareStartsASave` can be met. -/
theorem test_wit_parkedShareStartsASave :
    (∃ (s : State) (core : _), (s.core core).parkCount < (s.core core).parkWin) ∧
    (∃ (s : State) (core : _) (sl : _) (tm : _), (s.core core).parkWin ≤ (s.core core).parkCount ∧ s.shareVictim core =
      some sl ∧ s.team? core sl = some tm ∧ s.poolRoom (s.imageUnits tm) = true ∧ s.saving = []) :=
  ⟨⟨st0, 0, by decide +kernel⟩,
    ⟨lone { th0 with wait := .fault } (onCore (fun c => { c with parkCount := 20000 })
      { st0 with savebase := 0x100000, savesize := 0x100000 }), 0, 0, tm0, by decide +kernel⟩⟩

/-- The hypotheses of `DebuggerHaltsAndResumes` can be met. -/
theorem test_wit_debuggerHaltsAndResumes :
    (∃ (s : State) (l : _) (th : _), s.launchThreads l = [th] ∧ s.threads.filter (fun x => x.tid = th.tid) = [th] ∧
      th.halt = some .command ∧ th.pending = none ∧ th.idle = false ∧ th.wait ≠ .gop) ∧
    (∃ (s : State) (th : _), s.threads.filter (fun x => x.tid = th.tid) = [th] ∧ th.halt = some .command ∧ th.pending =
      none) ∧
    (∃ (s : State) (l : _) (x : _), s.launches.filter (fun y => y.slot = l) = [x]) :=
  ⟨⟨lone { th0 with halt := some .command }, 0, ({ th0 with halt := some .command } : Thread), by decide +kernel⟩,
    ⟨lone { th0 with halt := some .command }, ({ th0 with halt := some .command } : Thread), by decide +kernel⟩,
    ⟨st0, 0, Loader.launch, by decide +kernel⟩⟩

/-- The hypotheses of `SnapshotFillsTheWindow` can be met. -/
theorem test_wit_snapshotFillsTheWindow :
    (∃ (s : State) (sel : Word) (th : _), fld sel.toNat 24 6 = 0 ∧ s.thread?
      { core := 32 * fld sel.toNat 18 4 + fld sel.toNat 13 5, qtr := fld sel.toNat 11 2, row := fld sel.toNat 6 5, lane := fld sel.toNat 0 6 }
      = some th) :=
  ⟨st0, 0#32, th0, by decide +kernel⟩

/-- The hypotheses of `HostAnswersEndTheWaits` can be met. -/
theorem test_wit_hostAnswersEndTheWaits :
    (∃ (s : State) (pasid : _) (vpn : _) (intent : _), s.pri = [{ pasid, vpn, intent }] ∧ s.threads = [] ∧ s.cores = [] ∧
      s.launches = [] ∧ s.retire = [] ∧ s.colls = [] ∧ s.images = []) ∧
    (∃ (s : State) (pasid : _) (vpn : _) (intent : _) (th : _) (e : _) (fa : _), s.pri = [{ pasid, vpn, intent }] ∧
      s.threads = [th] ∧ th.unf = [e] ∧ e.page = some { key := { pasid, vpn, intent }, ats := false } ∧ e.fa = fa ∧
      e.st = 1 ∧ e.queued = true ∧ e.val = none ∧ e.isPrefetch = false ∧ th.fetchWait = none ∧ th.pending = none ∧
      th.halt = none ∧ th.idle = false ∧ th.handler = false ∧ s.hasHandler th = true ∧ s.cores = [] ∧ s.retire = [] ∧
      s.colls = [] ∧ s.images = [] ∧ (∀ l ∈ s.launches, l.endWait = none) ∧ e.dst.all RegRef.isV = true) ∧
    (∃ (s : State) (pasid : _) (vpn : _) (c : _), c < 512 ∧ s.ats =
      [{ pasid, vpn, base := dieOf c / 4, tlbs := [.core c] }] ∧ s.threads = [] ∧ s.cores = [] ∧ s.launches = [] ∧
      s.retire = [] ∧ s.colls = [] ∧ s.images = []) ∧
    (∃ (s : State) (w : FWord) (th : Thread) (e : Entry), s.threads = [th] ∧ th.unf = [e] ∧ e.st = 0 ∧ e.queued = false ∧
      e.page = none ∧ e.line = none ∧ e.dst.all RegRef.isV = true ∧ th.wait = .ready ∧ th.pending = none ∧ th.reinj =
      false ∧ (Instr.rcp w).wf = true ∧ encode (.rcp w) = some e.word) ∧
    (∃ (s : State) (i : Instr) (th : Thread) (e : Entry) (a : Acc) (tg : _), LoneLoad s th e i a ∧ e.st = 0 ∧ e.queued =
      false ∧ e.page = none ∧ th.wait = .ready ∧ s.targetOf th a (e.d 0) = some tg ∧ s.cleanSpan tg.pa a.size) ∧
    (∃ (s : State) (i : Instr) (th : Thread) (e : Entry) (a : Acc) (key : PageKey), ∃ s', s' =
      ({ s with tlb := s.tlb.filter fun y => !y.covers key.pasid key.vpn }) ∧ LoneLoad s th e i a ∧ s.pri = [key] ∧
      key.pasid = s.pasidOf th.lslot ∧ key.vpn = (e.d 0).toNat / 4096 ∧ key.intent = .read ∧ canonical (e.d 0).toNat =
      true ∧ (e.d 0).toNat % a.align = 0 ∧ e.st = 1 ∧ e.queued = true ∧ e.page = some { key, ats := false } ∧ e.parks
      = true ∧ th.wait = .fault ∧ th.resume = .ready ∧ s.ats = [] ∧ s.portUp = [true, true] ∧ s'.trans (.core
      th.tid.core) key.pasid (e.d 0).toNat .read = .miss) ∧
    (∃ (s : State) (i : Instr) (th : Thread) (e : Entry) (a : Acc) (tg : _) (tr : Translation) (key : PageKey), ∃ fill,
      fill = (fun (es : List TlbEntry) (u : Tlb) => fillTlb { tlb := u, pasid := key.pasid, vpn := key.vpn, tr } es) ∧
      ∃ s', s' = { s with tlb := (s.atsTlbs key.pasid key.vpn).foldl fill s.tlb } ∧ LoneLoad s th e i a ∧ s.ats =
      [{ pasid := key.pasid, vpn := key.vpn, base := dieOf th.tid.core / 4, tlbs := [.core th.tid.core] }] ∧
      th.tid.core < 512 ∧ e.st = 0 ∧ e.queued = false ∧ e.page = some { key, ats := true } ∧ e.parks = false ∧ th.wait
      = .ready ∧ s'.targetOf th a (e.d 0) = some tg ∧ s.cleanSpan tg.pa a.size) :=
  ⟨⟨{ st0 with threads := [], cores := [], launches := [], pri := [{ pasid := 1, vpn := 2, intent := .read }] }, 1, 2,
      Intent.read, by decide +kernel⟩,
    ⟨{ lone { th0 with unf := [{ ent 0 [] [] 1 true with page := some { key := { pasid := 1, vpn := 2, intent := .read }, ats := false }, fa := 0x2000, tag := 3 }] } with pri := [{ pasid := 1, vpn := 2, intent := .read }] },
      1, 2, Intent.read,
      ({ th0 with unf := [{ ent 0 [] [] 1 true with page := some { key := { pasid := 1, vpn := 2, intent := .read }, ats := false }, fa := 0x2000, tag := 3 }] }
      : Thread),
      ({ ent 0 [] [] 1 true with page := some { key := { pasid := 1, vpn := 2, intent := .read }, ats := false }, fa := 0x2000, tag := 3 }
      : Entry), 0x2000#64, by decide +kernel⟩,
    ⟨{ st0 with threads := [], cores := [], launches := [], ats := [{ pasid := 1, vpn := 2, base := 0, tlbs := [.core 5] }] },
      1, 2, (5:Nat), by decide +kernel⟩,
    ⟨lone { th0 with unf := [rcpEnt] }, fw 3 4 0 0 .f32, { th0 with unf := [rcpEnt] }, rcpEnt, by decide +kernel⟩,
    ⟨lone { th0 with unf := [ldEnt] } (poke 0x3000 16 0x0102030405060708090A0B0C0D0E0F10 st0), .ld (mw 2 4 8 0),
      { th0 with unf := [ldEnt] }, ldEnt, { kind := .load, space := 0, ty := .b32, order := .weak, scope := .grp },
      ({ pa := 0x3004, place := .device } : Target), loneLoad_of (by decide +kernel), by decide +kernel⟩,
    ⟨lone { th0 with wait := .fault, unf := [ldPage 1 true false] }
      { poke 0x3000 16 0x0102030405060708090A0B0C0D0E0F10 st0 with tlb := [], pri := [({ pasid := 1, vpn := 3, intent := .read } : PageKey)] },
      .ld (mw 2 4 8 0), { th0 with wait := .fault, unf := [ldPage 1 true false] }, ldPage 1 true false,
      { kind := .load, space := 0, ty := .b32, order := .weak, scope := .grp },
      ({ pasid := 1, vpn := 3, intent := .read } : PageKey), _, rfl, loneLoad_of (by decide +kernel),
      by decide +kernel⟩,
    ⟨lone { th0 with unf := [ldPage 0 false true] }
      { poke 0x3000 16 0x0102030405060708090A0B0C0D0E0F10 st0 with tlb := [], ats := [{ pasid := 1, vpn := 3, base := 0, tlbs := [.core 0] }] },
      .ld (mw 2 4 8 0), { th0 with unf := [ldPage 0 false true] }, ldPage 0 false true,
      { kind := .load, space := 0, ty := .b32, order := .weak, scope := .grp }, ({ pa := 0x3004, place := .device } :
      Target), ({ target := .dev 0x3000, r := true, w := true, x := true } : Translation),
      ({ pasid := 1, vpn := 3, intent := .read } : PageKey), _, rfl, _, rfl, loneLoad_of (by decide +kernel),
      by decide +kernel⟩⟩

/-- The hypotheses of `LoadsReturnTheBytesAtTheAddress` can be met. -/
theorem test_wit_loadsReturnTheBytesAtTheAddress :
    (∃ (i : Instr) (s : State) (th : Thread) (a : Acc) (tg : _), Solo i s th ∧ CalmAccess s th ∧ noQueueDest i th ∧ accOf
      i = some a ∧ a.kind = .load ∧ s.targetOf th a (eaOf i s th) = some tg ∧ (s.core th.tid.core).l1 = [] ∧
      s.cleanSpan tg.pa a.size) ∧
    (∃ (i : Instr) (s : State) (th : Thread) (a : Acc) (tg : _) (v : _) (d : _), Solo i s th ∧ CalmAccess s th ∧
      noQueueDest i th ∧ accOf i = some a ∧ a.kind = .load ∧ a.order = .weak ∧ a.space = 0 ∧ a.ty = .b32 ∧ s.targetOf
      th a (eaOf i s th) = some tg ∧ (s.core th.tid.core).l1Word? tg.pa = some (v, d, false)) ∧
    (∃ (i : Instr) (s : State) (th : Thread) (a : Acc) (n : _) (tg : _) (pa : Nat → Nat), Solo i s th ∧ CalmAccess s th ∧
      noQueueDest i th ∧ accOf i = some a ∧ a.kind = .loadRun n ∧ s.targetOf th a (eaOf i s th) = some tg ∧ (∀ k, k <
      n → s.trans (.core th.tid.core) (s.pasidOf th.lslot) (eaOf i s th + BitVec.ofNat 64 (4 * k)).toNat .read = .ok
      (pa k) ∧ pa k % 4 = 0 ∧ pa k + 4 ≤ 2 ^ 42 ∧ s.cleanSpan (pa k) 4) ∧ (s.core th.tid.core).l1 = []) :=
  ⟨⟨.ld (mw 2 4 8 0), lone (regs [(4, 0x3000), (6, 0x11223344), (8, 4), (10, 0x80)]) (poke 0x3000 16
      0x0102030405060708090A0B0C0D0E0F10 st0), regs [(4, 0x3000), (6, 0x11223344), (8, 4), (10, 0x80)],
      { kind := .load, space := 0, ty := .b32, order := .weak, scope := .grp }, ({ pa := 0x3004, place := .device } :
      Target), solo_of (by decide +kernel), access_of (by decide +kernel), noQ_of (by decide +kernel),
      by decide +kernel⟩,
    ⟨.ld (mw 2 4 8 0), lone (regs [(4, 0x3000), (6, 0x11223344), (8, 4), (10, 0x80)]) (onCore fun c =>
      { c with l1 := [{ line := 0x60, data := List.replicate 32 9, valid := List.replicate 32 true, dirty := List.replicate 32 false, poison := List.replicate 32 false }] }),
      regs [(4, 0x3000), (6, 0x11223344), (8, 4), (10, 0x80)],
      { kind := .load, space := 0, ty := .b32, order := .weak, scope := .grp }, ({ pa := 0x3004, place := .device } :
      Target), 9#32, false, solo_of (by decide +kernel), access_of (by decide +kernel), noQ_of (by decide +kernel),
      by decide +kernel⟩,
    ⟨.ldv (mw 12 4 8 0x1C3), lone (regs [(4, 0x3000), (6, 0x11223344), (8, 4), (10, 0x80)]) (poke 0x3000 16
      0x0102030405060708090A0B0C0D0E0F10 st0), regs [(4, 0x3000), (6, 0x11223344), (8, 4), (10, 0x80)],
      { kind := (.loadRun 3), space := 0, ty := .b32, order := .weak, scope := .grp }, 3,
      ({ pa := 0x3004, place := .device } : Target), fun k => 0x3004 + 4 * k, solo_of (by decide +kernel), access_of
      (by decide +kernel), noQ_of (by decide +kernel), by decide +kernel⟩⟩

/-- The hypotheses of `StoresWriteTheirBytes` can be met. -/
theorem test_wit_storesWriteTheirBytes :
    (∃ (i : Instr) (s : State) (th : Thread) (a : Acc) (tg : _), Solo i s th ∧ CalmAccess s th ∧ accOf i = some a ∧
      (s.core th.tid.core).l1 = [] ∧ a.kind = .store ∧ s.targetOf th a (eaOf i s th) = some tg ∧ s.cleanSpan tg.pa
      a.size ∧ (a.space ≠ 0 ∨ (a.order ≠ .weak ∧ Scope.wide a.scope = true))) ∧
    (∃ (i : Instr) (s : State) (th : Thread) (a : Acc) (tg : _), Solo i s th ∧ CalmAccess s th ∧ accOf i = some a ∧
      (s.core th.tid.core).l1 = [] ∧ a.kind = .store ∧ s.targetOf th a (eaOf i s th) = some tg ∧ s.cleanSpan tg.pa
      a.size ∧ a.space = 0 ∧ (a.order = .weak ∨ Scope.wide a.scope = false)) ∧
    (∃ (i : Instr) (s : State) (th : Thread) (a : Acc) (n : _) (tg : _) (pa : Nat → Nat), Solo i s th ∧ CalmAccess s th ∧
      accOf i = some a ∧ (s.core th.tid.core).l1 = [] ∧ a.kind = .storeRun n ∧ s.targetOf th a (eaOf i s th) = some tg
      ∧ (∀ k, k < n → s.trans (.core th.tid.core) (s.pasidOf th.lslot) (eaOf i s th + BitVec.ofNat 64 (4 * k)).toNat
      .write = .ok (pa k) ∧ pa k % 4 = 0 ∧ pa k + 4 ≤ 2 ^ 42 ∧ s.cleanSpan (pa k) 4 ∧ ∀ j, j < k → pa j ≠ pa k) ∧
      a.order ≠ .weak ∧ Scope.wide a.scope = true ∧ s.memOk = true) ∧
    (∃ (i : Instr) (s : State) (th : Thread) (a : Acc) (n : _) (tg : _) (pa : Nat → Nat), Solo i s th ∧ CalmAccess s th ∧
      accOf i = some a ∧ (s.core th.tid.core).l1 = [] ∧ a.kind = .storeRun n ∧ s.targetOf th a (eaOf i s th) = some tg
      ∧ (∀ k, k < n → s.trans (.core th.tid.core) (s.pasidOf th.lslot) (eaOf i s th + BitVec.ofNat 64 (4 * k)).toNat
      .write = .ok (pa k) ∧ pa k % 4 = 0 ∧ pa k + 4 ≤ 2 ^ 42 ∧ s.cleanSpan (pa k) 4 ∧ ∀ j, j < k → pa j ≠ pa k) ∧
      (a.order = .weak ∨ Scope.wide a.scope = false)) :=
  ⟨⟨.sts (mw 6 10 8 0), lone (regs [(4, 0x3000), (6, 0x11223344), (8, 4), (10, 0x80)]) (poke 0x3000 16
      0x0102030405060708090A0B0C0D0E0F10 st0), regs [(4, 0x3000), (6, 0x11223344), (8, 4), (10, 0x80)],
      { kind := .store, space := 1, ty := .b32, order := .weak, scope := .grp },
      ({ pa := 2 ^ 42 + 0x84, place := .own } : Target), solo_of (by decide +kernel), access_of (by decide +kernel),
      by decide +kernel⟩,
    ⟨.st (mw 6 4 8 0 .b16), lone (regs [(4, 0x3000), (6, 0x11223344), (8, 4), (10, 0x80)]) (poke 0x3000 16
      0x0102030405060708090A0B0C0D0E0F10 st0), regs [(4, 0x3000), (6, 0x11223344), (8, 4), (10, 0x80)],
      { kind := .store, space := 0, ty := .b16, order := .weak, scope := .grp }, ({ pa := 0x3004, place := .device } :
      Target), solo_of (by decide +kernel), access_of (by decide +kernel), by decide +kernel⟩,
    ⟨.stv (mw 6 4 8 0x1C3 .b32 .rel .sys), lone (regs [(4, 0x3000), (6, 0x11223344), (8, 4), (10, 0x80)]) (poke 0x3000 16
      0x0102030405060708090A0B0C0D0E0F10 st0), regs [(4, 0x3000), (6, 0x11223344), (8, 4), (10, 0x80)],
      { kind := (.storeRun 3), space := 0, ty := .b32, order := .rel, scope := .sys }, 3,
      ({ pa := 0x3004, place := .device } : Target), fun k => 0x3004 + 4 * k, solo_of (by decide +kernel), access_of
      (by decide +kernel), by decide +kernel⟩,
    ⟨.stv (mw 6 4 8 0x1C3), lone (regs [(4, 0x3000), (6, 0x11223344), (8, 4), (10, 0x80)]) (poke 0x3000 16
      0x0102030405060708090A0B0C0D0E0F10 st0), regs [(4, 0x3000), (6, 0x11223344), (8, 4), (10, 0x80)],
      { kind := (.storeRun 3), space := 0, ty := .b32, order := .weak, scope := .grp }, 3,
      ({ pa := 0x3004, place := .device } : Target), fun k => 0x3004 + 4 * k, solo_of (by decide +kernel), access_of
      (by decide +kernel), by decide +kernel⟩⟩

/-- The hypotheses of `ReadModifyWriteIsOneStep` can be met. -/
theorem test_wit_readModifyWriteIsOneStep :
    (∃ (i : Instr) (s : State) (th : Thread) (a : Acc) (tg : _) (op : _), Solo i s th ∧ CalmAccess s th ∧ noQueueDest i th
      ∧ accOf i = some a ∧ (s.core th.tid.core).l1 = [] ∧ s.targetOf th a (eaOf i s th) = some tg ∧ s.cleanSpan tg.pa
      a.size ∧ s.memOk = true ∧ a.kind = .rmw op ∧ rmwExists op a.ty tg.place = true) ∧
    (∃ (i : Instr) (s : State) (th : Thread) (a : Acc) (tg : _), Solo i s th ∧ CalmAccess s th ∧ noQueueDest i th ∧ accOf
      i = some a ∧ (s.core th.tid.core).l1 = [] ∧ s.targetOf th a (eaOf i s th) = some tg ∧ s.cleanSpan tg.pa a.size ∧
      s.memOk = true ∧ a.kind = .acas) ∧
    (∃ (i : Instr) (s : State) (th : Thread) (a : Acc) (tg : _) (op : _), Solo i s th ∧ CalmAccess s th ∧ noQueueDest i th
      ∧ accOf i = some a ∧ (s.core th.tid.core).l1 = [] ∧ s.targetOf th a (eaOf i s th) = some tg ∧ s.cleanSpan tg.pa
      a.size ∧ s.memOk = true ∧ a.kind = .red op ∧ rmwExists op a.ty tg.place = true ∧ a.order ≠ .rel) ∧
    (∃ (i : Instr) (s : State) (th : Thread) (a : Acc) (tg : _) (op : _), Solo i s th ∧ CalmAccess s th ∧ noQueueDest i th
      ∧ accOf i = some a ∧ (s.core th.tid.core).l1 = [] ∧ s.targetOf th a (eaOf i s th) = some tg ∧ s.cleanSpan tg.pa
      a.size ∧ s.memOk = true ∧ a.kind = .red op ∧ rmwExists op a.ty tg.place = true ∧ a.order = .rel) ∧
    (∃ (i : Instr) (s : State) (th : Thread) (a : Acc) (tg : _) (op : _), Solo i s th ∧ CalmAccess s th ∧ noQueueDest i th
      ∧ Trappable s th ∧ accOf i = some a ∧ (s.core th.tid.core).l1 = [] ∧ s.targetOf th a (eaOf i s th) = some tg ∧
      s.cleanSpan tg.pa a.size ∧ s.memOk = true ∧ (a.kind = .rmw op ∨ a.kind = .red op) ∧ rmwExists op a.ty tg.place =
      false ∧ th.stepping = false ∧ th.handler = false ∧ s.hasHandler th = true) ∧
    (∃ (s : State) (c : CoreSt) (x : Contribution), s.cores = [c] ∧ c.red = [x] ∧ c.l1 = [] ∧ c.subs = [] ∧ s.hostHeld =
      [] ∧ s.cleanSpan x.addr (4 * tyRegs x.ty) ∧ x.addr + 4 * tyRegs x.ty ≤ 2 ^ 42 ∧ s.memOk = true) :=
  ⟨⟨.atom (mw 2 4 6 0 .b32 .strong .dev), lone (regs [(4, 0x3000), (6, 0x11223344), (8, 4), (10, 0x80)]) (poke 0x3000 16
      0x0102030405060708090A0B0C0D0E0F10 st0), regs [(4, 0x3000), (6, 0x11223344), (8, 4), (10, 0x80)],
      { kind := (.rmw 0), space := 0, ty := .b32, order := .strong, scope := .dev },
      ({ pa := 0x3000, place := .device } : Target), 0, solo_of (by decide +kernel), access_of (by decide +kernel),
      noQ_of (by decide +kernel), by decide +kernel⟩,
    ⟨.acas (mw 2 4 6 8 .b32 .strong .dev), lone (regs [(4, 0x3000), (6, 0x11223344), (8, 4), (10, 0x80)]) (poke 0x3000 4
      0x11223344 st0), regs [(4, 0x3000), (6, 0x11223344), (8, 4), (10, 0x80)],
      { kind := .acas, space := 0, ty := .b32, order := .strong, scope := .dev }, ({ pa := 0x3000, place := .device }
      : Target), solo_of (by decide +kernel), access_of (by decide +kernel), noQ_of (by decide +kernel),
      by decide +kernel⟩,
    ⟨.red (mw 6 4 0 0 .b32 .strong .dev), lone (regs [(4, 0x3000), (6, 0x11223344), (8, 4), (10, 0x80)]) (poke 0x3000 16
      0x0102030405060708090A0B0C0D0E0F10 st0), regs [(4, 0x3000), (6, 0x11223344), (8, 4), (10, 0x80)],
      { kind := (.red 0), space := 0, ty := .b32, order := .strong, scope := .dev },
      ({ pa := 0x3000, place := .device } : Target), 0, solo_of (by decide +kernel), access_of (by decide +kernel),
      noQ_of (by decide +kernel), by decide +kernel⟩,
    ⟨.red (mw 6 4 0 0 .b32 .rel .dev), lone (regs [(4, 0x3000), (6, 0x11223344), (8, 4), (10, 0x80)]) (poke 0x3000 16
      0x0102030405060708090A0B0C0D0E0F10 st0), regs [(4, 0x3000), (6, 0x11223344), (8, 4), (10, 0x80)],
      { kind := (.red 0), space := 0, ty := .b32, order := .rel, scope := .dev }, ({ pa := 0x3000, place := .device }
      : Target), 0, solo_of (by decide +kernel), access_of (by decide +kernel), noQ_of (by decide +kernel),
      by decide +kernel⟩,
    ⟨.atoms (mw 2 10 6 9 .b32 .strong .team), lone (regs [(4, 0x3000), (6, 0x11223344), (8, 4), (10, 0x80)]) (poke 0x3000
      16 0x0102030405060708090A0B0C0D0E0F10 st0), regs [(4, 0x3000), (6, 0x11223344), (8, 4), (10, 0x80)],
      { kind := (.rmw 9), space := 1, ty := .b32, order := .strong, scope := .team },
      ({ pa := 2 ^ 42 + 0x80, place := .own } : Target), 9, solo_of (by decide +kernel), access_of
      (by decide +kernel), noQ_of (by decide +kernel), trap_of (by decide +kernel), by decide +kernel⟩,
    ⟨onCore (fun c => { c with red := [{ addr := 0x3000, op := 0, ty := .b32, val := 5 }] }) (poke 0x3000 16
      0x0102030405060708090A0B0C0D0E0F10 st0),
      { id := 0, red := [{ addr := 0x3000, op := 0, ty := .b32, val := 5 }] },
      { addr := 0x3000, op := 0, ty := .b32, val := 5 }, by decide +kernel⟩⟩

/-- The hypotheses of `FencesAndWaits` can be met. -/
theorem test_wit_fencesAndWaits :
    (∃ (w : MWord) (s : State) (th : Thread), Solo (.fence w) s th ∧ CalmAccess s th ∧ ((s.core th.tid.core).l1.map
      L1Line.line).Nodup ∧ (∀ l ∈ (s.core th.tid.core).l1, 128 * l.line + 128 ≤ 2 ^ 40 ∧ l.dirty.length = 32 ∧
      l.valid.length = 32)) ∧
    (∃ (w : MWord) (s : State) (th : Thread) (l1 : _), ∃ ea, ea = (eaOf (.pfetch w) s th).toNat ∧ ∃ r, r = s.trans (.core
      th.tid.core) (s.pasidOf th.lslot) ea .read ∧ Solo (.pfetch w) s th ∧ CalmAccess s th ∧ (accOf (.pfetch w)).map
      Acc.kind = some (.prefetch l1) ∧ (canonical ea = false ∨ r = .vault ∨ r = .perm)) ∧
    (∃ (w : MWord) (s : State) (th : Thread) (l1 : _) (pa : _), ∃ ea, ea = (eaOf (.pfetch w) s th).toNat ∧ ∃ r, r =
      s.trans (.core th.tid.core) (s.pasidOf th.lslot) ea .read ∧ Solo (.pfetch w) s th ∧ CalmAccess s th ∧ (accOf
      (.pfetch w)).map Acc.kind = some (.prefetch l1) ∧ canonical ea = true ∧ r = .ok pa ∧ pa / 128 * 128 + 128 ≤ 2 ^
      42 ∧ (s.core th.tid.core).l1.length < (s.core th.tid.core).l1Room) ∧
    (∃ (w : MWord) (s : State) (th : Thread) (l1 : _), ∃ ea, ea = (eaOf (.pfetch w) s th).toNat ∧ ∃ r, r = s.trans (.core
      th.tid.core) (s.pasidOf th.lslot) ea .read ∧ Solo (.pfetch w) s th ∧ CalmAccess s th ∧ (accOf (.pfetch w)).map
      Acc.kind = some (.prefetch l1) ∧ canonical ea = true ∧ r = .miss ∧ s.ats = []) ∧
    (∃ (i : Instr) (s : State) (th : Thread) (a : Acc) (ne : _) (tg : _), ∃ c, c = (if ne then dataOf i s th (tyRegs a.ty)
      else 0) ∧ ∃ holds, holds = (if ne then s.value tg.pa a.size ≠ c else s.value tg.pa a.size = 0) ∧ Solo i s th ∧
      CalmAccess s th ∧ accOf i = some a ∧ a.kind = .wait ne ∧ th.resume = .ready ∧ (s.core th.tid.core).l1 = [] ∧
      s.targetOf th a (eaOf i s th) = some tg ∧ s.cleanSpan tg.pa a.size ∧ holds) ∧
    (∃ (i : Instr) (s : State) (th : Thread) (a : Acc) (ne : _) (tg : _), ∃ c, c = (if ne then dataOf i s th (tyRegs a.ty)
      else 0) ∧ ∃ holds, holds = (if ne then s.value tg.pa a.size ≠ c else s.value tg.pa a.size = 0) ∧ Solo i s th ∧
      CalmAccess s th ∧ accOf i = some a ∧ a.kind = .wait ne ∧ th.resume = .ready ∧ (s.core th.tid.core).l1 = [] ∧
      s.targetOf th a (eaOf i s th) = some tg ∧ s.cleanSpan tg.pa a.size ∧ ¬ holds) ∧
    (∃ (w : IWord) (s : State) (th : Thread) (e : Entry) (u : _) (pa : _), decodeWord e.word = .ok (.waitz w) ∧
      s.threads.filter (fun x => x.tid = th.tid) = [th] ∧ th.wait = .poll u ∧ th.unf = [e] ∧ e.st = 0 ∧ e.queued =
      false ∧ e.page = none ∧ e.line = none ∧ e.dst = [] ∧ e.parks = true ∧ th.pending = none ∧ th.resume = .ready ∧
      w.mod10.toNat / 512 = 0 ∧ immTy w = .b32 ∧ immOrder w = .weak ∧ canonical (e.d 0).toNat = true ∧ (e.d 0).toNat %
      4 = 0 ∧ s.trans (.core th.tid.core) (s.pasidOf th.lslot) (e.d 0).toNat .read = .ok pa ∧ s.trans (.core
      th.tid.core) (s.pasidOf th.lslot) (e.d 0 + 3).toNat .read = .ok (pa + 3) ∧ (∀ c ∈ s.cores, c.red = [] ∧ c.subs =
      [] ∧ c.ranges = [] ∧ c.l1 = []) ∧ s.hostHeld = [] ∧ s.choices = [] ∧ pa % 4 = 0 ∧ pa + 4 ≤ 2 ^ 42 ∧ s.cleanSpan
      pa 4 ∧ s.value pa 4 = 0) ∧
    (∃ (w : IWord) (s : State) (th : Thread) (e : Entry) (u : _) (pa : _), decodeWord e.word = .ok (.waitz w) ∧
      s.threads.filter (fun x => x.tid = th.tid) = [th] ∧ th.wait = .poll u ∧ th.unf = [e] ∧ e.st = 0 ∧ e.queued =
      false ∧ e.page = none ∧ e.line = none ∧ e.dst = [] ∧ e.parks = true ∧ th.pending = none ∧ th.resume = .ready ∧
      w.mod10.toNat / 512 = 0 ∧ immTy w = .b32 ∧ immOrder w = .weak ∧ canonical (e.d 0).toNat = true ∧ (e.d 0).toNat %
      4 = 0 ∧ s.trans (.core th.tid.core) (s.pasidOf th.lslot) (e.d 0).toNat .read = .ok pa ∧ s.trans (.core
      th.tid.core) (s.pasidOf th.lslot) (e.d 0 + 3).toNat .read = .ok (pa + 3) ∧ (∀ c ∈ s.cores, c.red = [] ∧ c.subs =
      [] ∧ c.ranges = [] ∧ c.l1 = []) ∧ s.hostHeld = [] ∧ s.choices = [] ∧ pa % 4 = 0 ∧ pa + 4 ≤ 2 ^ 42 ∧ s.cleanSpan
      pa 4 ∧ s.value pa 4 ≠ 0) :=
  ⟨⟨mw 0 0 0 0 .b32 .rel .dev, lone (regs [(4, 0x3000), (6, 0x11223344), (8, 4), (10, 0x80)]) (onCore fun c =>
      { c with l1 := [{ line := 0x60, data := List.replicate 32 9, valid := List.replicate 32 true, dirty := (List.replicate 32 false).set 3 true, poison := List.replicate 32 false }] }),
      regs [(4, 0x3000), (6, 0x11223344), (8, 4), (10, 0x80)], solo_of (by decide +kernel), access_of
      (by decide +kernel), by decide +kernel⟩,
    ⟨mw 0 4 8 0, lone (regs [(4, 0), (5, 0x1000000)]), regs [(4, 0), (5, 0x1000000)], true, _, rfl, _, rfl, solo_of
      (by decide +kernel), access_of (by decide +kernel), by decide +kernel⟩,
    ⟨mw 0 4 8 0, lone (regs [(4, 0x3000), (6, 0x11223344), (8, 4), (10, 0x80)]) (poke 0x3000 16
      0x0102030405060708090A0B0C0D0E0F10 st0), regs [(4, 0x3000), (6, 0x11223344), (8, 4), (10, 0x80)], true, 0x3004,
      _, rfl, _, rfl, solo_of (by decide +kernel), access_of (by decide +kernel), by decide +kernel⟩,
    ⟨mw 0 4 8 0, lone (regs [(4, 0x40000)]), regs [(4, 0x40000)], true, _, rfl, _, rfl, solo_of (by decide +kernel),
      access_of (by decide +kernel), by decide +kernel⟩,
    ⟨.waitz (iw 0 4 0x20), lone (regs [(4, 0x3000), (6, 0x11223344), (8, 4), (10, 0x80)]) (poke 0x3000 16
      0x0102030405060708090A0B0C0D0E0F10 st0), regs [(4, 0x3000), (6, 0x11223344), (8, 4), (10, 0x80)],
      { kind := (.wait false), space := 0, ty := .b32, order := .weak, scope := .grp }, false,
      ({ pa := 0x3020, place := .device } : Target), _, rfl, _, rfl, solo_of (by decide +kernel), access_of
      (by decide +kernel), by decide +kernel⟩,
    ⟨.waitne (iw 6 4 0), lone (regs [(4, 0x3000), (6, 0x11223344), (8, 4), (10, 0x80)]) (poke 0x3000 4 0x11223344 st0),
      regs [(4, 0x3000), (6, 0x11223344), (8, 4), (10, 0x80)],
      { kind := (.wait true), space := 0, ty := .b32, order := .weak, scope := .grp }, true,
      ({ pa := 0x3000, place := .device } : Target), _, rfl, _, rfl, solo_of (by decide +kernel), access_of
      (by decide +kernel), by decide +kernel⟩,
    ⟨iw 0 4 0x20, lone { th0 with wait := .poll 50, unf := [waitzEnt] }, { th0 with wait := .poll 50, unf := [waitzEnt] },
      waitzEnt, 50, 0x3020, ok_of (by decide +kernel), by decide +kernel⟩,
    ⟨iw 0 4 0x20, lone { th0 with wait := .poll 50, unf := [waitzEnt] } (poke 0x3020 4 5 st0),
      { th0 with wait := .poll 50, unf := [waitzEnt] }, waitzEnt, 50, 0x3020, ok_of (by decide +kernel),
      by decide +kernel⟩⟩

/-- The hypotheses of `AccessesTrapOrWaitForTranslation` can be met. -/
theorem test_wit_accessesTrapOrWaitForTranslation :
    (∃ (i : Instr) (s : State) (th : Thread) (a : Acc) (c : Cause), (∀ b, a.kind ≠ .prefetch b) ∧ Solo i s th ∧ CalmAccess
      s th ∧ Trappable s th ∧ accOf i = some a ∧ a.space = 0 ∧ isWait i = false ∧ a.isFence = false ∧ ((canonical
      (eaOf i s th).toNat = false ∧ c = .prot) ∨ (canonical (eaOf i s th).toNat = true ∧ (eaOf i s th).toNat % a.align
      ≠ 0 ∧ c = .align)) ∧ th.stepping = false ∧ th.handler = false ∧ s.hasHandler th = true) ∧
    (∃ (i : Instr) (s : State) (th : Thread) (a : Acc), (∀ b, a.kind ≠ .prefetch b) ∧ Solo i s th ∧ CalmAccess s th ∧
      accOf i = some a ∧ a.space = 0 ∧ isWait i = false ∧ a.isFence = false ∧ canonical (eaOf i s th).toNat = true ∧
      (eaOf i s th).toNat % a.align = 0 ∧ s.trans (.core th.tid.core) (s.pasidOf th.lslot) (eaOf i s th).toNat (if
      a.writes then .write else .read) = .miss ∧ s.ats = []) :=
  ⟨⟨.ld (mw 2 4 8 0), lone (regs [(4, 0x3002)]), regs [(4, 0x3002)],
      { kind := .load, space := 0, ty := .b32, order := .weak, scope := .grp }, .align, noPrefetch
      (by decide +kernel), solo_of (by decide +kernel), access_of (by decide +kernel), trap_of (by decide +kernel),
      by decide +kernel⟩,
    ⟨.st (mw 6 4 8 0), lone (regs [(4, 0x30000)]), regs [(4, 0x30000)],
      { kind := .store, space := 0, ty := .b32, order := .weak, scope := .grp }, noPrefetch (by decide +kernel),
      solo_of (by decide +kernel), access_of (by decide +kernel), by decide +kernel⟩⟩

/-- The hypotheses of `CopyCommandsAreAccepted` can be met. -/
theorem test_wit_copyCommandsAreAccepted :
    (∃ (i : Instr) (s : State) (th : Thread) (opc : Nat) (h : _) (pa : _), ∃ x, x = s.eng th.tid.core th.slot ∧ ∃ e, e =
      engEntry i s th ∧ ∃ a, a = copyArgsOf opc e ∧ Solo i s th ∧ EngCalm s ∧ TileOk s x a h pa ∧
      (match i with | .tcopy _ => opc = 0 | .tstore _ => opc = 1 | .tgather _ => opc = 2 | _ => False) ∧ th.unf = [] ∧
      (s.core th.tid.core).copy = [] ∧ (s.core th.tid.core).ranges = [] ∧ s.objectRoom x a.comp (countedBytes a h)) ∧
    (∃ (w : EWord) (s : State) (th : Thread), ∃ x, x = s.eng th.tid.core th.slot ∧ ∃ e, e = engEntry (.tkick w) s th ∧ ∃
      (l : ListArgs), l = { off := e.w 0, n := e.w 1, comp := e.w 2, next := 0 } ∧ Solo (.tkick w) s th ∧ EngCalm s ∧
      th.unf = [] ∧ (s.core th.tid.core).copy = [] ∧ (s.core th.tid.core).ranges = [] ∧ 1 ≤ l.n ∧ l.n ≤ 256 ∧
      s.badSpan x l.off (64 * l.n) 64 = false ∧ s.badSpan x l.comp 16 16 = false ∧ s.objectRoom x l.comp (64 * l.n)) ∧
    (∃ (w : EWord) (s : State) (th : Thread) (e : Entry) (h : _) (pa : _), ∃ x, x = s.eng th.tid.core th.slot ∧ ∃ a, a =
      copyArgsOf 0 e ∧ decodeWord e.word = .ok (.tcopy w) ∧ EngCalm s ∧ TileOk s x a h pa ∧ s.threads.filter (fun x =>
      x.tid = th.tid) = [th] ∧ th.unf = [e] ∧ e.st = 0 ∧ e.queued = false ∧ e.page = none ∧ e.parks = true ∧ e.dst =
      [] ∧ th.wait = .eng .entry ∧ th.pending = none ∧ (s.core th.tid.core).copy = [] ∧ (s.core th.tid.core).ranges =
      [] ∧ s.objectRoom x a.comp (countedBytes a h)) :=
  ⟨⟨.tcopy (ew 10 12 14 16 18), lone (regs [(10, 0x100), (12, 0x3000), (14, 0x2000), (16, 0x400)]) (poke 0x2000 64
      0x1000040001000000040000000200000000 (poke 0x3000 16 0x0102030405060708090A0B0C0D0E0F10 st0)), regs [(10,
      0x100), (12, 0x3000), (14, 0x2000), (16, 0x400)], 0,
      ({ mw := 0, cscope := 0, satf := false, tr := false, split := false, sg := 0, sfmt := 0, w := 0, sl := 0, fmt := 0, rows := 2, k := 4, tk := 4, trows := 1, rstride := 16, soff := 0, sstride := 0, spstride := 0 }
      : Shape), 0x2000, _, rfl, _, rfl, _, rfl, solo_of (by decide +kernel), calm_of (by decide +kernel), tile_of
      (by decide +kernel), by decide +kernel⟩,
    ⟨ew 3 5 7, lone (regs [(3, 0x200), (5, 2), (7, 0x400)]), regs [(3, 0x200), (5, 2), (7, 0x400)], _, rfl, _, rfl, _,
      rfl, solo_of (by decide +kernel), calm_of (by decide +kernel), by decide +kernel⟩,
    ⟨ew 10 12 14 16 18, lone { th0 with wait := .eng .entry, unf := [tcopyEnt] } (poke 0x2000 64
      0x1000040001000000040000000200000000 (poke 0x3000 16 0x0102030405060708090A0B0C0D0E0F10 st0)),
      { th0 with wait := .eng .entry, unf := [tcopyEnt] }, tcopyEnt,
      ({ mw := 0, cscope := 0, satf := false, tr := false, split := false, sg := 0, sfmt := 0, w := 0, sl := 0, fmt := 0, rows := 2, k := 4, tk := 4, trows := 1, rstride := 16, soff := 0, sstride := 0, spstride := 0 }
      : Shape), 0x2000, _, rfl, _, rfl, ok_of (by decide +kernel), calm_of (by decide +kernel), tile_of
      (by decide +kernel), by decide +kernel⟩⟩

/-- The hypotheses of `CopyCommandsMoveTheirRows` can be met. -/
theorem test_wit_copyCommandsMoveTheirRows :
    (∃ (s : State) (k : CoreSt) (c : CopyCmd) (a : CopyArgs) (h : Shape) (pa : Nat → Nat), ∃ x, x = s.eng k.id c.slot ∧ ∃
      r, r = fld a.arg.toNat 0 32 + c.unit_ ∧ EngCalm s ∧ s.cores = [k] ∧ k.copy = [c] ∧ k.ranges = c.rng ∧ c.job =
      .tile a h ∧ c.ended = false ∧ c.early = false ∧ a.opc = 0 ∧ h.sl = 0 ∧ h.fmt = 0 ∧ h.sfmt = 0 ∧ h.tr = false ∧
      c.unit_ + 1 = h.trows ∧ (∀ j, j < h.tk → s.trans (.die (dieOf k.id)) x.pasid (elemAddr h a.gaddr.toNat r (winK a
      + j) % 2 ^ 64) .read = .ok (pa j) ∧ canonical (elemAddr h a.gaddr.toNat r (winK a + j) % 2 ^ 64) = true ∧
      elemAddr h a.gaddr.toNat r (winK a + j) % 4 = 0 ∧ pa j + 4 ≤ 2 ^ 42 ∧ s.cleanSpan (pa j) 4)) ∧
    (∃ (s : State) (k : CoreSt) (c : CopyCmd) (a : CopyArgs) (h : Shape) (pa : Nat → Nat), ∃ x, x = s.eng k.id c.slot ∧ ∃
      r, r = fld a.arg.toNat 0 32 + c.unit_ ∧ ∃ at_, at_ = a.soff + c.unit_ * h.pitch ∧ ∃ n, n = min h.tk (h.k - winK
      a) ∧ EngCalm s ∧ s.cores = [k] ∧ k.copy = [c] ∧ k.ranges = c.rng ∧ c.job = .tile a h ∧ c.ended = false ∧ c.early
      = false ∧ a.opc = 1 ∧ h.sl = 0 ∧ h.fmt = 0 ∧ h.sfmt = 0 ∧ h.tr = false ∧ c.unit_ + 1 = h.trows ∧ r < h.rows ∧
      s.cleanSpan (x.spa at_) (4 * h.tk) ∧ (∀ j, j < n → s.trans (.die (dieOf k.id)) x.pasid (elemAddr h a.gaddr.toNat
      r (winK a + j) % 2 ^ 64) .write = .ok (pa j) ∧ canonical (elemAddr h a.gaddr.toNat r (winK a + j) % 2 ^ 64) =
      true ∧ elemAddr h a.gaddr.toNat r (winK a + j) % 4 = 0 ∧ pa j + 4 ≤ 2 ^ 42 ∧ ∀ m, m < j → pa m + 4 ≤ pa j)) ∧
    (∃ (s : State) (k : CoreSt) (c : CopyCmd) (a : CopyArgs) (h : Shape), EngCalm s ∧ s.cores = [k] ∧ k.copy = [c] ∧
      k.ranges = c.rng ∧ c.job = .tile a h ∧ c.ended = true ∧ c.err = false) :=
  ⟨⟨onCore (fun _ =>
      { id := 0, copy := [{ idx := 0, slot := 0, tid := th0.tid, pc := 0x1080, word := 0, opv := [], job := .tile { opc := 0, soff := 0x100, gaddr := 0x3000, shape := 0x2000, comp := 0x400, arg := 0 } { mw := 0, cscope := 0, satf := false, tr := false, split := false, sg := 0, sfmt := 0, w := 0, sl := 0, fmt := 0, rows := 2, k := 4, tk := 4, trows := 1, rstride := 16, soff := 0, sstride := 0, spstride := 0 }, left := 16, rng := [{ base := 0x100, len := 16, owner := 0, eng := 0, spc := 1, dst := true, tag := 0 }] }], ranges := [{ base := 0x100, len := 16, owner := 0, eng := 0, spc := 1, dst := true, tag := 0 }] })
      (poke 0x2000 64 0x1000040001000000040000000200000000 (poke 0x3000 16 0x0102030405060708090A0B0C0D0E0F10 st0)),
      { id := 0, copy := [{ idx := 0, slot := 0, tid := th0.tid, pc := 0x1080, word := 0, opv := [], job := .tile { opc := 0, soff := 0x100, gaddr := 0x3000, shape := 0x2000, comp := 0x400, arg := 0 } { mw := 0, cscope := 0, satf := false, tr := false, split := false, sg := 0, sfmt := 0, w := 0, sl := 0, fmt := 0, rows := 2, k := 4, tk := 4, trows := 1, rstride := 16, soff := 0, sstride := 0, spstride := 0 }, left := 16, rng := [{ base := 0x100, len := 16, owner := 0, eng := 0, spc := 1, dst := true, tag := 0 }] }], ranges := [{ base := 0x100, len := 16, owner := 0, eng := 0, spc := 1, dst := true, tag := 0 }] },
      { idx := 0, slot := 0, tid := th0.tid, pc := 0x1080, word := 0, opv := [], job := .tile { opc := 0, soff := 0x100, gaddr := 0x3000, shape := 0x2000, comp := 0x400, arg := 0 } { mw := 0, cscope := 0, satf := false, tr := false, split := false, sg := 0, sfmt := 0, w := 0, sl := 0, fmt := 0, rows := 2, k := 4, tk := 4, trows := 1, rstride := 16, soff := 0, sstride := 0, spstride := 0 }, left := 16, rng := [{ base := 0x100, len := 16, owner := 0, eng := 0, spc := 1, dst := true, tag := 0 }] },
      { opc := 0, soff := 0x100, gaddr := 0x3000, shape := 0x2000, comp := 0x400, arg := 0 },
      { mw := 0, cscope := 0, satf := false, tr := false, split := false, sg := 0, sfmt := 0, w := 0, sl := 0, fmt := 0, rows := 2, k := 4, tk := 4, trows := 1, rstride := 16, soff := 0, sstride := 0, spstride := 0 },
      fun j => 0x3000 + 4 * j, _, rfl, _, rfl, calm_of (by decide +kernel), by decide +kernel⟩,
    ⟨onCore (fun _ =>
      { id := 0, copy := [{ idx := 0, slot := 0, tid := th0.tid, pc := 0x1080, word := 0, opv := [], job := .tile { opc := 1, soff := 0x100, gaddr := 0x3000, shape := 0x2000, comp := 0x400, arg := 0 } { mw := 0, cscope := 0, satf := false, tr := false, split := false, sg := 0, sfmt := 0, w := 0, sl := 0, fmt := 0, rows := 2, k := 4, tk := 4, trows := 1, rstride := 16, soff := 0, sstride := 0, spstride := 0 }, left := 16, rng := [{ base := 0x100, len := 16, owner := 0, eng := 0, spc := 1, dst := true, tag := 0 }] }], ranges := [{ base := 0x100, len := 16, owner := 0, eng := 0, spc := 1, dst := true, tag := 0 }] })
      (poke (2 ^ 42 + 0x100) 16 0x1112131415161718191A1B1C1D1E1F10 (poke 0x2000 64
      0x1000040001000000040000000200000000 (poke 0x3000 16 0x0102030405060708090A0B0C0D0E0F10 st0))),
      { id := 0, copy := [{ idx := 0, slot := 0, tid := th0.tid, pc := 0x1080, word := 0, opv := [], job := .tile { opc := 1, soff := 0x100, gaddr := 0x3000, shape := 0x2000, comp := 0x400, arg := 0 } { mw := 0, cscope := 0, satf := false, tr := false, split := false, sg := 0, sfmt := 0, w := 0, sl := 0, fmt := 0, rows := 2, k := 4, tk := 4, trows := 1, rstride := 16, soff := 0, sstride := 0, spstride := 0 }, left := 16, rng := [{ base := 0x100, len := 16, owner := 0, eng := 0, spc := 1, dst := true, tag := 0 }] }], ranges := [{ base := 0x100, len := 16, owner := 0, eng := 0, spc := 1, dst := true, tag := 0 }] },
      { idx := 0, slot := 0, tid := th0.tid, pc := 0x1080, word := 0, opv := [], job := .tile { opc := 1, soff := 0x100, gaddr := 0x3000, shape := 0x2000, comp := 0x400, arg := 0 } { mw := 0, cscope := 0, satf := false, tr := false, split := false, sg := 0, sfmt := 0, w := 0, sl := 0, fmt := 0, rows := 2, k := 4, tk := 4, trows := 1, rstride := 16, soff := 0, sstride := 0, spstride := 0 }, left := 16, rng := [{ base := 0x100, len := 16, owner := 0, eng := 0, spc := 1, dst := true, tag := 0 }] },
      { opc := 1, soff := 0x100, gaddr := 0x3000, shape := 0x2000, comp := 0x400, arg := 0 },
      { mw := 0, cscope := 0, satf := false, tr := false, split := false, sg := 0, sfmt := 0, w := 0, sl := 0, fmt := 0, rows := 2, k := 4, tk := 4, trows := 1, rstride := 16, soff := 0, sstride := 0, spstride := 0 },
      fun j => 0x3000 + 4 * j, _, rfl, _, rfl, _, rfl, _, rfl, calm_of (by decide +kernel), by decide +kernel⟩,
    ⟨onCore (fun _ =>
      { id := 0, copy := [{ idx := 0, slot := 0, tid := th0.tid, pc := 0x1080, word := 0, opv := [], job := .tile { opc := 0, soff := 0x100, gaddr := 0x3000, shape := 0x2000, comp := 0x400, arg := 0 } { mw := 0, cscope := 0, satf := false, tr := false, split := false, sg := 0, sfmt := 0, w := 0, sl := 0, fmt := 0, rows := 2, k := 4, tk := 4, trows := 1, rstride := 16, soff := 0, sstride := 0, spstride := 0 }, left := 16, rng := [{ base := 0x100, len := 16, owner := 0, eng := 0, spc := 1, dst := true, tag := 0 }], ended := true }], ranges := [{ base := 0x100, len := 16, owner := 0, eng := 0, spc := 1, dst := true, tag := 0 }] })
      (poke 0x2000 64 0x1000040001000000040000000200000000 (poke 0x3000 16 0x0102030405060708090A0B0C0D0E0F10 st0)),
      { id := 0, copy := [{ idx := 0, slot := 0, tid := th0.tid, pc := 0x1080, word := 0, opv := [], job := .tile { opc := 0, soff := 0x100, gaddr := 0x3000, shape := 0x2000, comp := 0x400, arg := 0 } { mw := 0, cscope := 0, satf := false, tr := false, split := false, sg := 0, sfmt := 0, w := 0, sl := 0, fmt := 0, rows := 2, k := 4, tk := 4, trows := 1, rstride := 16, soff := 0, sstride := 0, spstride := 0 }, left := 16, rng := [{ base := 0x100, len := 16, owner := 0, eng := 0, spc := 1, dst := true, tag := 0 }], ended := true }], ranges := [{ base := 0x100, len := 16, owner := 0, eng := 0, spc := 1, dst := true, tag := 0 }] },
      { idx := 0, slot := 0, tid := th0.tid, pc := 0x1080, word := 0, opv := [], job := .tile { opc := 0, soff := 0x100, gaddr := 0x3000, shape := 0x2000, comp := 0x400, arg := 0 } { mw := 0, cscope := 0, satf := false, tr := false, split := false, sg := 0, sfmt := 0, w := 0, sl := 0, fmt := 0, rows := 2, k := 4, tk := 4, trows := 1, rstride := 16, soff := 0, sstride := 0, spstride := 0 }, left := 16, rng := [{ base := 0x100, len := 16, owner := 0, eng := 0, spc := 1, dst := true, tag := 0 }], ended := true },
      { opc := 0, soff := 0x100, gaddr := 0x3000, shape := 0x2000, comp := 0x400, arg := 0 },
      { mw := 0, cscope := 0, satf := false, tr := false, split := false, sg := 0, sfmt := 0, w := 0, sl := 0, fmt := 0, rows := 2, k := 4, tk := 4, trows := 1, rstride := 16, soff := 0, sstride := 0, spstride := 0 },
      calm_of (by decide +kernel), by decide +kernel⟩⟩

/-- The hypotheses of `RequestListsStartTheirRecords` can be met. -/
theorem test_wit_requestListsStartTheirRecords :
    (∃ (s : State) (k : CoreSt) (c : CopyCmd) (l : ListArgs) (a : _) (h : _) (pa : _), ∃ x, x = s.eng k.id c.slot ∧ ∃ at_,
      at_ = l.off + 64 * l.next ∧ EngCalm s ∧ TileOk s x a h pa ∧ s.cores = [k] ∧ k.copy = [c] ∧ c.job = .list l none
      ∧ l.next < l.n ∧ l.raw = none ∧ c.err = false ∧ s.cleanSpan (x.spa at_) 64 ∧ k.ranges = [listSpan x l c.idx] ∧
      l.own = some (listSpan x l c.idx) ∧ parseRequest (s.value (x.spa at_) 64) = some a ∧ s.objectRoom x a.comp
      (countedBytes a h) ∧ (a.comp + 16 ≤ l.comp ∨ l.comp + 16 ≤ a.comp) ∧ (∀ e ∈ copyRanges x a h c.idx, e.conflicts
      (listSpan x l c.idx) = false) ∧ l.next + 1 < l.n) ∧
    (∃ (s : State) (k : CoreSt) (c : CopyCmd) (l : ListArgs), ∃ x, x = s.eng k.id c.slot ∧ ∃ at_, at_ = l.off + 64 *
      l.next ∧ EngCalm s ∧ s.cores = [k] ∧ k.copy = [c] ∧ c.job = .list l none ∧ l.next < l.n ∧ l.raw = none ∧ c.err =
      false ∧ s.cleanSpan (x.spa at_) 64 ∧ k.ranges = [listSpan x l c.idx] ∧ l.own = some (listSpan x l c.idx) ∧
      parseRequest (s.value (x.spa at_) 64) = none) :=
  ⟨⟨onCore (fun _ =>
      { id := 0, copy := [{ idx := 0, slot := 0, tid := th0.tid, pc := 0x1080, word := 0, opv := [], job := .list { off := 0x200, n := 2, comp := 0x400, next := 0, own := some { base := 0x200, len := 128, owner := 0, eng := 0, spc := 1, dst := false, tag := 0 } } none, left := 128 }], ranges := [{ base := 0x200, len := 128, owner := 0, eng := 0, spc := 1, dst := false, tag := 0 }] })
      (poke (2 ^ 42 + 0x200) 64 0x500000000000000200000000000000030000000010000000000 (poke (2 ^ 42 + 0x400) 4 128
      (poke 0x2000 64 0x1000040001000000040000000200000000 (poke 0x3000 16 0x0102030405060708090A0B0C0D0E0F10 st0)))),
      { id := 0, copy := [{ idx := 0, slot := 0, tid := th0.tid, pc := 0x1080, word := 0, opv := [], job := .list { off := 0x200, n := 2, comp := 0x400, next := 0, own := some { base := 0x200, len := 128, owner := 0, eng := 0, spc := 1, dst := false, tag := 0 } } none, left := 128 }], ranges := [{ base := 0x200, len := 128, owner := 0, eng := 0, spc := 1, dst := false, tag := 0 }] },
      { idx := 0, slot := 0, tid := th0.tid, pc := 0x1080, word := 0, opv := [], job := .list { off := 0x200, n := 2, comp := 0x400, next := 0, own := some { base := 0x200, len := 128, owner := 0, eng := 0, spc := 1, dst := false, tag := 0 } } none, left := 128 },
      { off := 0x200, n := 2, comp := 0x400, next := 0, own := some { base := 0x200, len := 128, owner := 0, eng := 0, spc := 1, dst := false, tag := 0 } },
      ({ opc := 0, soff := 0x100, gaddr := 0x3000, shape := 0x2000, comp := 0x500, arg := 0 } : CopyArgs),
      ({ mw := 0, cscope := 0, satf := false, tr := false, split := false, sg := 0, sfmt := 0, w := 0, sl := 0, fmt := 0, rows := 2, k := 4, tk := 4, trows := 1, rstride := 16, soff := 0, sstride := 0, spstride := 0 }
      : Shape), 0x2000, _, rfl, _, rfl, calm_of (by decide +kernel), tile_of (by decide +kernel), by decide +kernel⟩,
    ⟨onCore (fun _ =>
      { id := 0, copy := [{ idx := 0, slot := 0, tid := th0.tid, pc := 0x1080, word := 0, opv := [], job := .list { off := 0x200, n := 2, comp := 0x400, next := 0, own := some { base := 0x200, len := 128, owner := 0, eng := 0, spc := 1, dst := false, tag := 0 } } none, left := 128 }], ranges := [{ base := 0x200, len := 128, owner := 0, eng := 0, spc := 1, dst := false, tag := 0 }] })
      (poke (2 ^ 42 + 0x200) 64 3 (poke (2 ^ 42 + 0x400) 8 0x100000080 st0)),
      { id := 0, copy := [{ idx := 0, slot := 0, tid := th0.tid, pc := 0x1080, word := 0, opv := [], job := .list { off := 0x200, n := 2, comp := 0x400, next := 0, own := some { base := 0x200, len := 128, owner := 0, eng := 0, spc := 1, dst := false, tag := 0 } } none, left := 128 }], ranges := [{ base := 0x200, len := 128, owner := 0, eng := 0, spc := 1, dst := false, tag := 0 }] },
      { idx := 0, slot := 0, tid := th0.tid, pc := 0x1080, word := 0, opv := [], job := .list { off := 0x200, n := 2, comp := 0x400, next := 0, own := some { base := 0x200, len := 128, owner := 0, eng := 0, spc := 1, dst := false, tag := 0 } } none, left := 128 },
      { off := 0x200, n := 2, comp := 0x400, next := 0, own := some { base := 0x200, len := 128, owner := 0, eng := 0, spc := 1, dst := false, tag := 0 } },
      _, rfl, _, rfl, calm_of (by decide +kernel), by decide +kernel⟩⟩

/-- The hypotheses of `MatrixCommandsSign` can be met. -/
theorem test_wit_matrixCommandsSign :
    (∃ (i : Instr) (a : MArgs) (s : State) (th : Thread) (tm : Team) (x : CvInst), ∃ e, e = engEntry i s th ∧ Solo i s th
      ∧ mArgs i = some a ∧ s.teams.filter (fun y => y.core = th.tid.core && y.slot = th.slot) = [tm] ∧ oneCv tm a.cv
      th.tid.qtr x ∧ 3 ≤ x.kind ∧ x.full = false ∧ th.tid ∉ x.signers ∧ th.tid ∉ x.opThreads ∧ (x.op = none ∨ x.op =
      some (e.word, e.opv)) ∧ (∃ y ∈ s.cvSet th.tid.core th.slot x, y.tid = th.tid)) ∧
    (∃ (i : Instr) (a : MArgs) (s : State) (th : Thread) (tm : Team) (x : CvInst), Solo i s th ∧ Trappable s th ∧ mArgs i
      = some a ∧ s.teams.filter (fun y => y.core = th.tid.core && y.slot = th.slot) = [tm] ∧ oneCv tm a.cv th.tid.qtr
      x ∧ x.kind < 3 ∧ th.stepping = false ∧ th.handler = false ∧ s.hasHandler th = true) :=
  ⟨⟨.accz (ew 1 0 4 0), { kind := .accz false, t := 1, cv := 0 }, lone (regs [(4, 3), (5, 0x3000), (6, 0x100)]), regs
      [(4, 3), (5, 0x3000), (6, 0x100)], tm0, { cv := 0, qtr := 0, kind := 3, role := 0 }, _, rfl, solo_of
      (by decide +kernel), by decide +kernel⟩,
    ⟨.accz (ew 1 0 4 0), { kind := .accz false, t := 1, cv := 0 }, lone (regs [(4, 3), (5, 0x3000), (6, 0x100)]) (onTeam
      fun t => { t with cvs := [{ cv := 0, qtr := 0, kind := 1, role := 0 }] }), regs [(4, 3), (5, 0x3000), (6,
      0x100)], { tm0 with cvs := [{ cv := 0, qtr := 0, kind := 1, role := 0 }] },
      { cv := 0, qtr := 0, kind := 1, role := 0 }, solo_of (by decide +kernel), trap_of (by decide +kernel),
      by decide +kernel⟩⟩

/-- The hypotheses of `MatrixCommandsQueueAndStart` can be met. -/
theorem test_wit_matrixCommandsQueueAndStart :
    (∃ (s : State) (th : Thread) (tm : Team) (x : CvInst) (e : Entry) (m : MCommand) (maps : _) (cv : _), ∃ en, en = s.eng
      th.tid.core th.slot ∧ MatrixOk s en th.tid.qtr m maps ∧ s.threads.filter (fun y => y.tid = th.tid) = [th] ∧
      s.teams.filter (fun y => y.core = th.tid.core && y.slot = th.slot) = [tm] ∧ oneCv tm cv th.tid.qtr x ∧ 3 ≤
      x.kind ∧ x.op = some (e.word, e.opv) ∧ x.signers = [th.tid] ∧ x.opThreads = [th.tid] ∧ x.deferred = [] ∧ x.full
      = true ∧ th.wait = .cvw cv ∧ th.pending = none ∧ th.unf = [e] ∧ e.st = 0 ∧ e.queued = false ∧ e.dst = [] ∧
      mCommand e.word e.opv = some m ∧ (s.quarter th.tid.core th.tid.qtr).mq = [] ∧ (s.core th.tid.core).ranges = []) ∧
    (∃ (s : State) (core : _) (qtr : _) (c : MCmd) (m : MCommand), (s.quarter core qtr).mq = [c] ∧ c.running = false ∧
      c.cmd? = some m ∧ (∀ th ∈ s.threads, th.unf = []) ∧ (∀ k ∈ m.args.tiles, ((s.quarter core qtr).tile k).ver =
      m.v)) ∧
    (∃ (s : State) (core : _) (qtr : _) (c : MCmd) (m : MCommand), (s.quarter core qtr).mq = [c] ∧ c.running = false ∧
      c.cmd? = some m ∧ (∀ th ∈ s.threads, th.unf = []) ∧ (∃ k ∈ m.args.tiles, ((s.quarter core qtr).tile k).ver ≠
      m.v)) :=
  ⟨⟨lone
      { th0 with wait := .cvw 0, unf := [{ ent (mcmd (.mma (ew 1 0x10 4 0 6)) [3, 0]).word [3, 0] with parks := true, tag := 3 }] }
      { stMat [] with teams := [{ tm0 with cvs := [{ cv := 0, qtr := 0, kind := 3, role := 0, signed := 1, op := some ({ ent (mcmd (.mma (ew 1 0x10 4 0 6)) [3, 0]).word [3, 0] with parks := true, tag := 3 }.word, [3, 0]), signers := [th0.tid], opThreads := [th0.tid], full := true }], omaps := (tm0.omaps.set 0 (some omA)).set 1 (some omB) }] },
      { th0 with wait := .cvw 0, unf := [{ ent (mcmd (.mma (ew 1 0x10 4 0 6)) [3, 0]).word [3, 0] with parks := true, tag := 3 }] },
      { tm0 with cvs := [{ cv := 0, qtr := 0, kind := 3, role := 0, signed := 1, op := some ({ ent (mcmd (.mma (ew 1 0x10 4 0 6)) [3, 0]).word [3, 0] with parks := true, tag := 3 }.word, [3, 0]), signers := [th0.tid], opThreads := [th0.tid], full := true }], omaps := (tm0.omaps.set 0 (some omA)).set 1 (some omB) },
      { cv := 0, qtr := 0, kind := 3, role := 0, signed := 1, op := some ({ ent (mcmd (.mma (ew 1 0x10 4 0 6)) [3, 0]).word [3, 0] with parks := true, tag := 3 }.word, [3, 0]), signers := [th0.tid], opThreads := [th0.tid], full := true },
      { ent (mcmd (.mma (ew 1 0x10 4 0 6)) [3, 0]).word [3, 0] with parks := true, tag := 3 },
      { args := { kind := .mma false, t := 1, cv := 0, amap := 0, bmap := 1 }, v := 3, tok := 3, o := 0, k0 := 0 },
      [omA, omB], 0, _, rfl, matrix_of (by decide +kernel), by decide +kernel⟩,
    ⟨stMat [mcmd (.accz (ew 1 0 4 0)) [3] [] false], 0, 0, mcmd (.accz (ew 1 0 4 0)) [3] [] false,
      { args := { kind := .accz false, t := 1, cv := 0 }, v := 3, tok := 3, o := 0, k0 := 0 }, by decide +kernel⟩,
    ⟨stMat [mcmd (.accz (ew 1 0 4 0)) [4] [] false], 0, 0, mcmd (.accz (ew 1 0 4 0)) [4] [] false,
      { args := { kind := .accz false, t := 1, cv := 0 }, v := 4, tok := 4, o := 0, k0 := 0 }, by decide +kernel⟩⟩

/-- The hypotheses of `MatrixCommandsCompute` can be met. -/
theorem test_wit_matrixCommandsCompute :
    (∃ (s : State) (core : _) (qtr : _) (c : MCmd) (m : MCommand), EngCalm s ∧ (s.quarter core qtr).mq = [c] ∧ c.running =
      true ∧ c.pass = 0 ∧ c.cmd? = some m ∧ s.poison = []) :=
  ⟨stMat [mcmd (.mma (ew 1 0x10 4 0 6 true)) [3, 0] [omA, omB]], 0, 0, mcmd (.mma (ew 1 0x10 4 0 6 true)) [3, 0] [omA,
    omB], { args := { kind := .mma true, t := 1, cv := 0, amap := 0, bmap := 1 }, v := 3, tok := 3, o := 0, k0 := 0 },
    calm_of (by decide +kernel), by decide +kernel⟩

/-- The hypotheses of `TileReadsAndOperandMaps` can be met. -/
theorem test_wit_tileReadsAndOperandMaps :
    (∃ (w : EWord) (s : State) (th : Thread), ∃ e, e = engEntry (.accrd w) s th ∧ ∃ q, q = s.quarter th.tid.core
      th.tid.qtr ∧ ∃ tl, tl = q.tile w.o2.toNat ∧ Solo (.accrd w) s th ∧ noQueueDest (.accrd w) th ∧ e.w 1 < 256 ∧
      tl.owner = some th.slot ∧ tl.ver = BitVec.ofNat 16 (e.w 0) ∧ q.busyTile tl.idx = false ∧ e.w 1 ∉ tl.poison) ∧
    (∃ (w : EWord) (s : State) (th : Thread), ∃ e, e = engEntry (.accrd w) s th ∧ ∃ q, q = s.quarter th.tid.core
      th.tid.qtr ∧ ∃ tl, tl = q.tile w.o2.toNat ∧ Solo (.accrd w) s th ∧ noQueueDest (.accrd w) th ∧ e.w 1 < 256 ∧
      tl.owner = some th.slot ∧ tl.ver ≠ BitVec.ofNat 16 (e.w 0)) ∧
    (∃ (w : EWord) (s : State) (th : Thread) (e : Entry), ∃ q, q = s.quarter th.tid.core th.tid.qtr ∧ ∃ tl, tl = q.tile
      w.o2.toNat ∧ decodeWord e.word = .ok (.accrd w) ∧ s.threads.filter (fun x => x.tid = th.tid) = [th] ∧ th.unf =
      [e] ∧ e.st = 0 ∧ e.queued = false ∧ e.aux = [1] ∧ e.dst.all RegRef.isV = true ∧ th.wait = .ready ∧ th.pending =
      none ∧ tl.ver = BitVec.ofNat 16 (e.w 0) ∧ q.busyTile tl.idx = false ∧ e.w 1 ∉ tl.poison) ∧
    (∃ (w : EWord) (s : State) (th : Thread) (tm : Team) (pa : _), ∃ fa, fa = (engEntry (.omap w) s th).d 0 ∧ Solo (.omap
      w) s th ∧ EngCalm s ∧ s.noFollowers th.tid ∧ th.unf = [] ∧ s.teams.filter (fun y => y.core = th.tid.core &&
      y.slot = th.slot) = [tm] ∧ fa.toNat % 64 = 0 ∧ canonical fa.toNat = true ∧ s.trans (.die (dieOf th.tid.core))
      (s.pasidOf tm.lslot) fa.toNat .read = .ok pa ∧ pa + 64 ≤ 2 ^ 42 ∧ s.cleanSpan pa 64 ∧ omapOk (s.value pa 64)
      (parseOMap (s.value pa 64)) (s.feature 6) = true) :=
  ⟨⟨ew 2 1 4 5, lone (regs [(4, 3), (5, 0x21)]) (stMat []), regs [(4, 3), (5, 0x21)], _, rfl, _, rfl, _, rfl, solo_of
      (by decide +kernel), noQ_of (by decide +kernel), by decide +kernel⟩,
    ⟨ew 2 1 4 5, lone (regs [(4, 4), (5, 0x21)]) (stMat []), regs [(4, 4), (5, 0x21)], _, rfl, _, rfl, _, rfl, solo_of
      (by decide +kernel), noQ_of (by decide +kernel), by decide +kernel⟩,
    ⟨ew 2 1 4 5, lone
      { th0 with unf := [{ ent ((encode (.accrd (ew 2 1 4 5))).getD 0) [3, 0x21] [.v 2] with aux := [1], tag := 3 }] }
      (stMat []),
      { th0 with unf := [{ ent ((encode (.accrd (ew 2 1 4 5))).getD 0) [3, 0x21] [.v 2] with aux := [1], tag := 3 }] },
      { ent ((encode (.accrd (ew 2 1 4 5))).getD 0) [3, 0x21] [.v 2] with aux := [1], tag := 3 }, _, rfl, _, rfl,
      ok_of (by decide +kernel), by decide +kernel⟩,
    ⟨ew 1 4, lone (regs [(4, 0x3000)]) (poke 0x3000 64 0x100010000100000000200 st0), regs [(4, 0x3000)], tm0, 0x3000, _,
      rfl, solo_of (by decide +kernel), calm_of (by decide +kernel), follow_of (by decide +kernel), by decide +kernel⟩⟩

/-- The hypotheses of `SequencesCommitAndAbort` can be met. -/
theorem test_wit_sequencesCommitAndAbort :
    (∃ (w : EWord) (s : State) (th : Thread) (r : KvRoot) (sp : Nat) (sq : KvSeq) (pa : Nat), ∃ ready, ready = (fun (i :
      Instr) => KvReady i s th ∧
      (let x := s.eng th.tid.core th.slot; let e := engEntry i s th; RootAt s x th (e.d 0).toNat r sp ∧ e.w 2 < 2 ^ 20 ∧ DirAt s x r.dir (e.w 2) sq.va ∧ SeqAt s x sq ∧ s.trans (.die (dieOf x.core)) x.pasid sq.va .read = .ok pa ∧ EngReaches s x sq.va 64 pa))
      ∧ ready (.seqcmt w) ∧ sq.len < 2 ^ 22) ∧
    (∃ (w : EWord) (s : State) (th : Thread) (r : KvRoot) (sp : Nat) (sq : KvSeq) (pa : Nat), ∃ ready, ready = (fun (i :
      Instr) => KvReady i s th ∧
      (let x := s.eng th.tid.core th.slot; let e := engEntry i s th; RootAt s x th (e.d 0).toNat r sp ∧ e.w 2 < 2 ^ 20 ∧ DirAt s x r.dir (e.w 2) sq.va ∧ SeqAt s x sq ∧ s.trans (.die (dieOf x.core)) x.pasid sq.va .read = .ok pa ∧ EngReaches s x sq.va 64 pa))
      ∧ ready (.seqcmt w) ∧ sq.len = 2 ^ 22) ∧
    (∃ (w : EWord) (s : State) (th : Thread) (r : KvRoot) (sp : Nat) (sq : KvSeq) (pa : Nat), ∃ ready, ready = (fun (i :
      Instr) => KvReady i s th ∧
      (let x := s.eng th.tid.core th.slot; let e := engEntry i s th; RootAt s x th (e.d 0).toNat r sp ∧ e.w 2 < 2 ^ 20 ∧ DirAt s x r.dir (e.w 2) sq.va ∧ SeqAt s x sq ∧ s.trans (.die (dieOf x.core)) x.pasid sq.va .read = .ok pa ∧ EngReaches s x sq.va 64 pa))
      ∧ ready (.seqabort w)) :=
  ⟨⟨ew 2 4 6, lone (thKv 0 0) stKv, thKv 0 0, { version := 1, dir := 0x4000, space := 0x3040 }, 0x20000, kvSeq, 0x3080,
      _, rfl, ⟨kv_of (by decide +kernel), root_of (by decide +kernel), by decide +kernel, dir_of (by decide +kernel),
      seq_of (by decide +kernel), by decide +kernel⟩, by decide +kernel⟩,
    ⟨ew 2 4 6, lone (thKv 0 0) (poke 0x3080 4 0x400000 stKv), thKv 0 0, { version := 1, dir := 0x4000, space := 0x3040 },
      0x20000, { kvSeq with len := 2 ^ 22 }, 0x3080, _, rfl, ⟨kv_of (by decide +kernel), root_of (by decide +kernel),
      by decide +kernel, dir_of (by decide +kernel), seq_of (by decide +kernel), by decide +kernel⟩,
      by decide +kernel⟩,
    ⟨ew 2 4 6, lone (thKv 0 0) stKv, thKv 0 0, { version := 1, dir := 0x4000, space := 0x3040 }, 0x20000, kvSeq, 0x3080,
      _, rfl, ⟨kv_of (by decide +kernel), root_of (by decide +kernel), by decide +kernel, dir_of (by decide +kernel),
      seq_of (by decide +kernel), by decide +kernel⟩⟩⟩

/-- The hypotheses of `AppendWritesTheNextPosition` can be met. -/
theorem test_wit_appendWritesTheNextPosition :
    (∃ (w : EWord) (s : State) (th : Thread) (r : KvRoot) (sp : Nat) (sq : KvSeq) (pg : KvPage) (pa : Nat) (pk : Nat) (pv
      : Nat), ∃ x, x = s.eng th.tid.core th.slot ∧ ∃ e, e = engEntry (.kvapp w) s th ∧ ∃ layer, layer = e.w 3 % 256 ∧
      ∃ head, head = e.w 3 / 256 % 64 ∧ ∃ n, n = 4 * spHd sp ∧ KvReady (.kvapp w) s th ∧ RootAt s x th (e.d 0).toNat r
      sp ∧ DirAt s x r.dir (e.w 2) sq.va ∧ SeqAt s x sq ∧ PageAt s x sp sq layer head (sq.len / spP sp) pg ∧ e.w 4 % 4
      = 0 ∧ e.w 2 < 2 ^ 20 ∧ e.w 3 < 2 ^ 14 ∧ layer < spLayers sp ∧ head < spHeads sp ∧ e.w 4 + 2 * n ≤ x.size ∧
      sq.len < 2 ^ 22 ∧ s.trans (.die (dieOf x.core)) x.pasid sq.va .read = .ok pa ∧ EngReaches s x sq.va 64 pa ∧
      EngReaches s x (rowVa sp pg sq.len false) (spRb sp) pk ∧ EngReaches s x (rowVa sp pg sq.len true) (spRb sp) pv ∧
      pk + spRb sp ≤ 2 ^ 40 ∧ pv + spRb sp ≤ 2 ^ 40 ∧ pk + spRb sp ≤ pv ∧ (pv + spRb sp ≤ pa ∨ pa + 64 ≤ pk) ∧
      s.cleanSpan (x.spa (e.w 4)) (2 * n)) :=
  ⟨ew 2 4 6 8 10, lone (thKv 0 0x800) (poke (2 ^ 42 + 0x800) 4 0x3F800000 (poke (2 ^ 42 + 0x900) 4 0x40000000 stKv)),
    thKv 0 0x800, { version := 1, dir := 0x4000, space := 0x3040 }, 0x20000, kvSeq,
    { va := 0xC000, host := false, entry := 0xA000 }, 0x3080, 0xC000 + 3 * 128, 0xC000 + 19 * 128, _, rfl, _, rfl, _,
    rfl, _, rfl, _, rfl, kv_of (by decide +kernel), root_of (by decide +kernel), dir_of (by decide +kernel), seq_of
    (by decide +kernel), page_of (by decide +kernel), by decide +kernel⟩

/-- The hypotheses of `ScoresSelectionsAndNodes` can be met. -/
theorem test_wit_scoresSelectionsAndNodes :
    (∃ (w : EWord) (s : State) (th : Thread) (r : KvRoot) (sp : Nat) (sq : KvSeq) (pa : Nat), ∃ x, x = s.eng th.tid.core
      th.slot ∧ ∃ e, e = engEntry (.scoreadd w) s th ∧ KvReady (.scoreadd w) s th ∧ RootAt s x th (e.d 0).toNat r sp ∧
      DirAt s x r.dir (e.w 2) sq.va ∧ SeqAt s x sq ∧ e.w 2 < 2 ^ 20 ∧ sq.score ≠ 0 ∧ e.w 3 < sq.scap ∧ sq.score + 4 *
      e.w 3 < 2 ^ 64 ∧ s.trans (.core th.tid.core) x.pasid (sq.score + 4 * e.w 3) .write = .ok pa ∧ pa < 2 ^ 42) ∧
    (∃ (w : EWord) (s : State) (th : Thread) (r : KvRoot) (sp : Nat) (sq : KvSeq) (score : Nat → Nat), ∃ x, x = s.eng
      th.tid.core th.slot ∧ ∃ e, e = engEntry (.topk w) s th ∧ ∃ o, o = e.w 3 ∧ ∃ d, d = s.value (x.spa o) 32 ∧ ∃ p0,
      p0 = fld d 0 32 ∧ ∃ n, n = fld d 32 32 ∧ ∃ k, k = fld d 64 32 ∧ ∃ dest, dest = fld d 128 32 ∧ KvReady (.topk w)
      s th ∧ RootAt s x th (e.d 0).toNat r sp ∧ DirAt s x r.dir (e.w 2) sq.va ∧ SeqAt s x sq ∧ (∀ i, i < min n (sq.len
      - p0) → EngSees s x (sq.score + 4 * (p0 + i)) 4 (score (p0 + i))) ∧ e.w 2 < 2 ^ 20 ∧ o % 16 = 0 ∧ o + 32 ≤
      x.size ∧ s.cleanSpan (x.spa o) 32 ∧ fld d 160 96 = 0 ∧ 1 ≤ n ∧ n ≤ 65536 ∧ p0 + n ≤ 2 ^ 22 ∧ 1 ≤ k ∧ k ≤ 1024 ∧
      fld d 96 32 = 2 ^ 32 - 1 ∧ s.badSpan x dest (4 * k) 4 = false ∧ sq.score ≠ 0 ∧ min sq.len (p0 + n) ≤ sq.scap) ∧
    (∃ (w : EWord) (s : State) (th : Thread) (off : Nat) (n : Nat) (pa : Nat), ∃ x, x = s.eng th.tid.core th.slot ∧ ∃ e, e
      = engEntry (.kvnode w) s th ∧ ∃ src, src = (e.d 0).toNat ∧ ∃ dst, dst = (e.d 2).toNat ∧ ∃ kind, kind = e.w 4 / 2
      ^ 28 ∧ ∃ slot, slot = e.w 4 % 2 ^ 28 ∧ ∃ v, v = (e.d 5).toNat ∧ KvReady (.kvnode w) s th ∧ nodeSlot kind slot =
      some (off, n) ∧ nodeLimit kind slot v = false ∧ ¬(kind = 2 ∧ slot = 0) ∧ dst % nodeSize kind = 0 ∧ canonical dst
      = true ∧ src = dst ∧ dst ≠ 0 ∧ EngReaches s x (dst + off) n pa) ∧
    (∃ (w : EWord) (s : State) (th : Thread) (off : Nat) (n : Nat) (pa : Nat), ∃ x, x = s.eng th.tid.core th.slot ∧ ∃ e, e
      = engEntry (.kvnode w) s th ∧ ∃ src, src = (e.d 0).toNat ∧ ∃ dst, dst = (e.d 2).toNat ∧ ∃ kind, kind = e.w 4 / 2
      ^ 28 ∧ ∃ slot, slot = e.w 4 % 2 ^ 28 ∧ ∃ v, v = (e.d 5).toNat ∧ KvReady (.kvnode w) s th ∧ nodeSlot kind slot =
      some (off, n) ∧ nodeLimit kind slot v = false ∧ ¬(kind = 2 ∧ slot = 0) ∧ dst % nodeSize kind = 0 ∧ canonical dst
      = true ∧ src = 0 ∧ dst ≠ 0 ∧ kind ≠ 1 ∧ EngReaches s x dst (nodeSize kind) pa) :=
  ⟨⟨ew 4 6 8 10, lone (thKv 2 0x3F800000) stKv, thKv 2 0x3F800000, { version := 1, dir := 0x4000, space := 0x3040 },
      0x20000, kvSeq, 0x8008, _, rfl, _, rfl, kv_of (by decide +kernel), root_of (by decide +kernel), dir_of
      (by decide +kernel), seq_of (by decide +kernel), by decide +kernel⟩,
    ⟨ew 2 4 6 8, lone (thKv 0x200 0) (poke (2 ^ 42 + 0x200) 32 0x500ffffffff000000020000000300000001 (poke 0x8004 8
      0x400000003F800000 stKv)), thKv 0x200 0, { version := 1, dir := 0x4000, space := 0x3040 }, 0x20000, kvSeq, fun k
      => if k = 1 then 0x3F800000 else if k = 2 then 0x40000000 else 0, _, rfl, _, rfl, _, rfl, _, rfl, _, rfl, _,
      rfl, _, rfl, _, rfl, kv_of (by decide +kernel), root_of (by decide +kernel), dir_of (by decide +kernel), seq_of
      (by decide +kernel), sees_range (by decide +kernel), by decide +kernel⟩,
    ⟨ew 4 6 8 10, lone (regs [(4, 0x7000), (6, 0x7000), (8, 0x30000007), (10, 0xABC)]), regs [(4, 0x7000), (6, 0x7000),
      (8, 0x30000007), (10, 0xABC)], 56, 8, 0x7000 + 56, _, rfl, _, rfl, _, rfl, _, rfl, _, rfl, _, rfl, _, rfl, kv_of
      (by decide +kernel), by decide +kernel⟩,
    ⟨ew 4 6 8 10, lone (regs [(6, 0x7000), (8, 0x30000007), (10, 0xABC)]), regs [(6, 0x7000), (8, 0x30000007), (10,
      0xABC)], 56, 8, 0x7000, _, rfl, _, rfl, _, rfl, _, rfl, _, rfl, _, rfl, _, rfl, kv_of (by decide +kernel),
      by decide +kernel⟩⟩

/-- The hypotheses of `PagePoolsAreStacks` can be met. -/
theorem test_wit_pagePoolsAreStacks :
    (∃ (w : EWord) (s : State) (th : Thread), ∃ x, x = s.eng th.tid.core th.slot ∧ ∃ k, k = w.o2.toNat % 64 ∧ ∃ p, p =
      s.pool k ∧ KvReady (.pgalloc w) s th ∧ p.en = true ∧ p.pasid = x.pasid ∧ p.head = 0) ∧
    (∃ (w : EWord) (s : State) (th : Thread) (next : _), ∃ x, x = s.eng th.tid.core th.slot ∧ ∃ k, k = w.o2.toNat % 64 ∧ ∃
      p, p = s.pool k ∧ KvReady (.pgalloc w) s th ∧ EngSees s x p.head.toNat 8 next ∧ p.en = true ∧ p.pasid = x.pasid
      ∧ p.head ≠ 0) ∧
    (∃ (w : EWord) (s : State) (th : Thread) (pa : _), ∃ x, x = s.eng th.tid.core th.slot ∧ ∃ k, k = w.o2.toNat % 64 ∧ ∃
      p, p = s.pool k ∧ ∃ page, page = (engEntry (.pgfree w) s th).d 0 ∧ KvReady (.pgfree w) s th ∧ p.en = true ∧
      p.pasid = x.pasid ∧ page.toNat % p.pageSize = 0 ∧ canonical page.toNat = true ∧ EngReaches s x page.toNat 8 pa ∧
      pa + 8 ≤ 2 ^ 40) ∧
    (∃ (w : EWord) (s : State) (th : Thread) (e : Entry), ∃ x, x = s.eng th.tid.core th.slot ∧ EngCalm s ∧ decodeWord
      e.word = .ok (.pgalloc w) ∧ s.threads.filter (fun x => x.tid = th.tid) = [th] ∧ th.unf = [e] ∧ e.st = 0 ∧
      e.queued = false ∧ e.page = none ∧ e.parks = true ∧ e.dst.all RegRef.isV = true ∧ th.wait = .eng .entry ∧
      th.pending = none ∧ (s.pool (w.o2.toNat % 64)).en = true ∧ (s.pool (w.o2.toNat % 64)).pasid = x.pasid ∧ (s.pool
      (w.o2.toNat % 64)).head = 0) ∧
    (∃ (w : EWord) (s : State) (th : Thread) (e : Entry) (r : KvRoot) (sp : Nat) (k : Packet), ∃ x, x = s.eng th.tid.core
      th.slot ∧ EngCalm s ∧ decodeWord e.word = .ok (.kvld w) ∧ PacketOk s x th e r sp k ∧ s.threads.filter (fun x =>
      x.tid = th.tid) = [th] ∧ th.unf = [e] ∧ e.st = 0 ∧ e.queued = false ∧ e.page = none ∧ e.parks = true ∧ e.dst.all
      RegRef.isV = true ∧ th.wait = .eng .entry ∧ th.pending = none ∧ e.dst = [] ∧ (s.core x.core).ranges = [] ∧ (∃ n,
      n < 16 ∧ ∀ c ∈ (s.core x.core).copy, c.idx ≠ n) ∧ (s.die (dieOf x.core)).walk = []) :=
  ⟨⟨ew 4 2, lone th0 { st0 with pools := [{ p := 2, cfg := 0x80000001, count := 3, head := 0 }] }, th0, _, rfl, _, rfl,
      _, rfl, kv_of (by decide +kernel), by decide +kernel⟩,
    ⟨ew 4 2, lone th0 (poke 0x7000 8 0x8000
      { st0 with pools := [{ p := 2, cfg := 0x80000001, count := 3, head := 0x7000 }] }), th0, 0x8000, _, rfl, _, rfl,
      _, rfl, kv_of (by decide +kernel), sees_of (by decide +kernel), by decide +kernel⟩,
    ⟨ew 4 2, lone (regs [(4, 0x8000)]) { st0 with pools := [{ p := 2, cfg := 0x80000001, count := 3, head := 0x7000 }] },
      regs [(4, 0x8000)], 0x8000, _, rfl, _, rfl, _, rfl, _, rfl, kv_of (by decide +kernel), by decide +kernel⟩,
    ⟨ew 4 2, lone
      { th0 with wait := .eng .entry, unf := [{ ent ((encode (.pgalloc (ew 4 2))).getD 0) [] [.v 4, .v 5] with parks := true, tag := 3 }] }
      { st0 with pools := [{ p := 2, cfg := 0x80000001, count := 3, head := 0 }] },
      { th0 with wait := .eng .entry, unf := [{ ent ((encode (.pgalloc (ew 4 2))).getD 0) [] [.v 4, .v 5] with parks := true, tag := 3 }] },
      { ent ((encode (.pgalloc (ew 4 2))).getD 0) [] [.v 4, .v 5] with parks := true, tag := 3 }, _, rfl, calm_of
      (by decide +kernel), ok_of (by decide +kernel), by decide +kernel⟩,
    ⟨ew 8, lone { thKv 0x200 0 with wait := .eng .entry, unf := [kvldEnt] } (poke (2 ^ 42 + 0x200) 64 (kvPkt 2) stKv),
      { thKv 0x200 0 with wait := .eng .entry, unf := [kvldEnt] }, kvldEnt,
      { version := 1, dir := 0x4000, space := 0x3040 }, 0x20000, parsePacket (kvPkt 2), _, rfl, calm_of
      (by decide +kernel), ok_of (by decide +kernel), packetOk_of (by decide +kernel), by decide +kernel⟩⟩

/-- The hypotheses of `KvPacketsAreAccepted` can be met. -/
theorem test_wit_kvPacketsAreAccepted :
    (∃ (w : EWord) (s : State) (th : Thread) (r : KvRoot) (sp : Nat) (k : Packet), ∃ x, x = s.eng th.tid.core th.slot ∧ ∃
      e, e = engEntry (.kvld w) s th ∧ KvReady (.kvld w) s th ∧ PacketOk s x th e r sp k ∧ (s.core th.tid.core).copy =
      []) ∧
    (∃ (w : EWord) (s : State) (th : Thread) (r : KvRoot) (sp : Nat) (a : KvSeq) (b : KvSeq), ∃ x, x = s.eng th.tid.core
      th.slot ∧ ∃ e, e = engEntry (.kvcopy w) s th ∧ ∃ o, o = e.w 5 ∧ ∃ d, d = s.value (x.spa o) 32 ∧ ∃ n, n = fld d
      32 32 ∧ ∃ pd, pd = fld d 64 32 ∧ ∃ comp, comp = fld d 96 32 ∧ ∃ count, count = (List.range n).foldl (fun acc i
      => acc + positionBytes sp a b (pd + i)) 0 ∧ KvReady (.kvcopy w) s th ∧ RootAt s x th (e.d 0).toNat r sp ∧ DirAt
      s x r.dir (e.w 2) a.va ∧ SeqAt s x a ∧ SeqAt s x b ∧ (s.core th.tid.core).copy = [] ∧ e.w 2 < 2 ^ 20 ∧ s.badSpan
      x o 32 16 = false ∧ s.cleanSpan (x.spa o) 32 ∧ fld d 160 96 = 0 ∧ 1 ≤ n ∧ n ≤ 65536 ∧ pd + n ≤ 2 ^ 22 ∧ (e.d
      3).toNat % 64 = 0 ∧ canonical (e.d 3).toNat = true ∧ s.badSpan x (fld d 0 32) (4 * n) 4 = false ∧ s.badSpan x
      comp 16 16 = false ∧ b.va = (e.d 3).toNat ∧ s.objectRoom x comp count) :=
  ⟨⟨ew 8, lone (thKv 0x200 0) (poke (2 ^ 42 + 0x200) 64 (kvPkt 2) stKv), thKv 0x200 0,
      { version := 1, dir := 0x4000, space := 0x3040 }, 0x20000, parsePacket (kvPkt 2), _, rfl, _, rfl, kv_of
      (by decide +kernel), packetOk_of (by decide +kernel), by decide +kernel⟩,
    ⟨ew 4 6 8 10, lone (thKv 0x30C0 0x200) (poke (2 ^ 42 + 0x200) 32 0x400000000030000000100000300 (poke 0x30C0 64 (3 + 64
      * 2 ^ 32 + 0x8100 * 2 ^ 64 + 0x9100 * 2 ^ 128) stKv)), thKv 0x30C0 0x200,
      { version := 1, dir := 0x4000, space := 0x3040 }, 0x20000, kvSeq,
      { va := 0x30C0, len := 3, scap := 64, score := 0x8100, hmap := 0x9100, marks := 0 }, _, rfl, _, rfl, _, rfl, _,
      rfl, _, rfl, _, rfl, _, rfl, _, rfl, kv_of (by decide +kernel), root_of (by decide +kernel), dir_of
      (by decide +kernel), seq_of (by decide +kernel), seq_of (by decide +kernel), by decide +kernel⟩⟩

/-- The hypotheses of `KvPacketsRunAndReport` can be met. -/
theorem test_wit_kvPacketsRunAndReport :
    (∃ (s : State) (k : CoreSt) (c : CopyCmd) (a : KvArgs) (sq : KvSeq) (hv : Nat), ∃ x, x = s.eng k.id c.slot ∧ ∃ p, p =
      parsePacket (s.value (x.spa a.pkt) 64) ∧ EngCalm s ∧ EngSees s x p.srec 64 hv ∧ s.cores = [k] ∧ k.copy = [c] ∧
      c.job = .kv a ∧ c.ended = false ∧ c.unit_ = 0 ∧ c.early = false ∧ a.started = true ∧ a.stop = none ∧ (s.die
      (dieOf k.id)).walk = [] ∧ p.n = 1 ∧ p.sl = 1 ∧ p.v = false ∧ sq.hmap = fld hv 128 64 ∧ p.vlen ≤ p.p0) ∧
    (∃ (s : State) (k : CoreSt) (c : CopyCmd) (a : KvArgs) (sq : KvSeq) (pg : KvPage) (pa : Nat) (hv : Nat), ∃ x, x =
      s.eng k.id c.slot ∧ ∃ p, p = parsePacket (s.value (x.spa a.pkt) 64) ∧ EngCalm s ∧ EngSees s x p.srec 64 hv ∧
      PageAt s x a.space sq p.layer p.head (p.p0 / spP a.space) pg ∧ s.cores = [k] ∧ k.copy = [c] ∧ c.job = .kv a ∧
      c.ended = false ∧ c.unit_ = 0 ∧ c.early = false ∧ a.started = true ∧ a.stop = none ∧ (s.die (dieOf k.id)).walk =
      [] ∧ p.n = 1 ∧ p.sl = 1 ∧ p.v = false ∧ sq.hmap = fld hv 128 64 ∧ p.p0 < p.vlen ∧ rowVa a.space pg p.p0 false %
      4096 + spRb a.space ≤ 4096 ∧ rowVa a.space pg p.p0 false < 2 ^ 64 ∧ canonical (rowVa a.space pg p.p0 false) =
      true ∧ s.trans (.die (dieOf x.core)) x.pasid (rowVa a.space pg p.p0 false) .read = .ok pa ∧ pa + spRb a.space ≤
      2 ^ 40 ∧ s.cleanSpan pa (spRb a.space)) ∧
    (∃ (s : State) (k : CoreSt) (c : CopyCmd) (a : KvArgs) (aw : Away), ∃ ring, ring = (s.kfqbase.toNat / 2 ^ 12 % 2 ^ 28
      * 2 ^ 12 + 32 * (s.kfqtail.toNat % 2 ^ (s.kfqctl.toNat % 16))) % 2 ^ 40 ∧ EngCalm s ∧ s.cores = [k] ∧ k.copy =
      [c] ∧ c.job = .kv a ∧ a.stop = some aw ∧ a.tag = none ∧ s.images = [] ∧ (∀ th ∈ s.threads, th.unf = []) ∧
      s.kfqOn = true ∧ (s.kfqtail - s.kfqhead).toNat < 2 ^ (s.kfqctl.toNat % 16) ∧ ring + 32 ≤ 2 ^ 40) ∧
    (∃ (s : State) (k : CoreSt) (c : CopyCmd) (a : KvArgs) (aw : Away), s.cores = [k] ∧ k.copy = [c] ∧ c.job = .kv a ∧
      a.stop = some aw ∧ a.tag = none ∧ s.kfqOn = false) ∧
    (∃ (s : State) (v : DWord) (k : CoreSt) (c : CopyCmd) (a : KvArgs) (aw : Away), s.cores = [k] ∧ k.copy = [c] ∧ c.job =
      .kv a ∧ a.stop = some aw ∧ a.tag = some (v.toNat % 2 ^ 32) ∧ s.images = [] ∧ (∀ th ∈ s.threads, th.unf = [])) :=
  ⟨⟨onCore (fun _ => { id := 0, copy := [kvCmd kvArgs] }) (poke (2 ^ 42 + 0x200) 64 (kvPkt 3) (poke (2 ^ 42 + 0x1000) 8
      77 stKv)), { id := 0, copy := [kvCmd kvArgs] }, kvCmd kvArgs, kvArgs, kvSeq,
      0x10000000000000000000000000000900000000000000080000000004000000003, _, rfl, _, rfl, calm_of
      (by decide +kernel), sees_of (by decide +kernel), by decide +kernel⟩,
    ⟨onCore (fun _ => { id := 0, copy := [kvCmd kvArgs] }) (poke (2 ^ 42 + 0x200) 64 (kvPkt 2) (poke 0xC100 8
      0x3C004000BC004400 stKv)), { id := 0, copy := [kvCmd kvArgs] }, kvCmd kvArgs, kvArgs, kvSeq,
      { va := 0xC000, host := false, entry := 0xA000 }, 0xC100,
      0x10000000000000000000000000000900000000000000080000000004000000003, _, rfl, _, rfl, calm_of
      (by decide +kernel), sees_of (by decide +kernel), page_of (by decide +kernel), by decide +kernel⟩,
    ⟨onCore (fun _ => { id := 0, copy := [kvCmd { kvArgs with stop := some kvAway }] })
      ({ st0 with kfqbase := 0x100001, kfqtail := 16, kfqhead := 2 }),
      { id := 0, copy := [kvCmd { kvArgs with stop := some kvAway }] }, kvCmd { kvArgs with stop := some kvAway },
      { kvArgs with stop := some kvAway }, kvAway, _, rfl, calm_of (by decide +kernel), by decide +kernel⟩,
    ⟨onCore (fun _ => { id := 0, copy := [kvCmd { kvArgs with stop := some kvAway }] }) (st0),
      { id := 0, copy := [kvCmd { kvArgs with stop := some kvAway }] }, kvCmd { kvArgs with stop := some kvAway },
      { kvArgs with stop := some kvAway }, kvAway, by decide +kernel⟩,
    ⟨onCore (fun _ => { id := 0, copy := [kvCmd { kvArgs with stop := some kvAway, tag := some 7 }] }) (st0), 7,
      { id := 0, copy := [kvCmd { kvArgs with stop := some kvAway, tag := some 7 }] }, kvCmd
      { kvArgs with stop := some kvAway, tag := some 7 }, { kvArgs with stop := some kvAway, tag := some 7 }, kvAway,
      by decide +kernel⟩⟩

/-- The hypotheses of `ReaderSectionsAndPublish` can be met. -/
theorem test_wit_readerSectionsAndPublish :
    (∃ (w : EWord) (s : State) (th : Thread), ∃ d, d = w.o1.toNat % 8 ∧ ∃ ph, ph = ((s.core th.tid.core).phase[d]?).getD
      false ∧ Solo (.rsenter w) s th ∧ th.unf = [] ∧ (s.core th.tid.core).counted ∧ (s.domain d).en = true ∧ th.nest <
      255 ∧ ((s.domain d).gst ≠ 1 ∨ ph = flag (s.domain d).s.toNat 0)) ∧
    (∃ (w : EWord) (s : State) (th : Thread), ∃ d, d = w.o1.toNat % 8 ∧ ∃ n, n = (th.depth[d]?).getD 0 ∧ Solo (.rsleave w)
      s th ∧ EngCalm s ∧ th.unf = [] ∧ (s.core th.tid.core).counted ∧ s.enginesOf th.tid = false ∧ (s.domain d).en =
      true ∧ 0 < n) ∧
    (∃ (w : EWord) (s : State) (th : Thread), Trappable s th ∧ Solo (.rsenter w) s th ∧ th.stepping = false ∧ th.unf = []
      ∧ th.handler = false ∧ s.hasHandler th = true ∧ (s.domain (w.o1.toNat % 8)).en = true ∧ th.nest = 255) ∧
    (∃ (w : EWord) (s : State) (th : Thread), Trappable s th ∧ Solo (.rsleave w) s th ∧ th.stepping = false ∧ th.unf = []
      ∧ th.handler = false ∧ s.hasHandler th = true ∧ (s.domain (w.o1.toNat % 8)).en = true ∧ (th.depth[w.o1.toNat %
      8]?).getD 0 = 0) ∧
    (∃ (w : EWord) (s : State) (th : Thread) (pa : Nat), ∃ e, e = engEntry (.publish w) s th ∧ ∃ a, a = publishAcc w ∧
      Solo (.publish w) s th ∧ CalmAccess s th ∧ EngCalm s ∧ s.targetOf th a (e.d 0) = some { pa, place := .device } ∧
      s.cleanSpan pa a.size) :=
  ⟨⟨ew 2, lone th0 (stDom dom2), th0, _, rfl, _, rfl, solo_of (by decide +kernel), by decide +kernel⟩,
    ⟨ew 2, lone { th0 with depth := [0, 0, 1, 0, 0, 0, 0, 0] }
      { stDom dom2 with cores := [{ id := 0, cnt0 := [0, 0, 5, 0, 0, 0, 0, 0], cnt1 := [0, 0, 1, 0, 0, 0, 0, 0] }] },
      { th0 with depth := [0, 0, 1, 0, 0, 0, 0, 0] }, _, rfl, _, rfl, solo_of (by decide +kernel), calm_of
      (by decide +kernel), by decide +kernel⟩,
    ⟨ew 2, lone { th0 with depth := [200, 0, 55, 0, 0, 0, 0, 0] } (stDom dom2),
      { th0 with depth := [200, 0, 55, 0, 0, 0, 0, 0] }, trap_of (by decide +kernel), solo_of (by decide +kernel),
      by decide +kernel⟩,
    ⟨ew 2, lone th0 (stDom dom2), th0, trap_of (by decide +kernel), solo_of (by decide +kernel), by decide +kernel⟩,
    ⟨ew 4 6 3, lone (regs [(4, 0x3000), (6, 77)]), regs [(4, 0x3000), (6, 77)], 0x3000, _, rfl, _, rfl, solo_of
      (by decide +kernel), access_of (by decide +kernel), calm_of (by decide +kernel), by decide +kernel⟩⟩

/-- The hypotheses of `GraceInstructionsUseTheDomain` can be met. -/
theorem test_wit_graceInstructionsUseTheDomain :
    (∃ (w : EWord) (s : State) (th : Thread), ∃ e, e = engEntry (.retire w) s th ∧ ∃ d, d = e.w 6 % 8 ∧ Solo (.retire w) s
      th ∧ EngCalm s ∧ noQueueDest (.retire w) th ∧ th.unf = [] ∧ (s.domain d).en = true ∧ (s.domain d).pod = false ∧
      s.retireBad (e.d 0) (e.d 2).toNat (e.d 4).toNat (e.w 6) = false ∧ s.retire.length < 4096) ∧
    (∃ (w : EWord) (s : State) (th : Thread), ∃ d, d = w.o2.toNat % 8 ∧ Solo (.gpsync w) s th ∧ EngCalm s ∧ th.unf = [] ∧
      (s.domain d).en = true ∧ (s.domain d).pod = false ∧ (th.depth[d]?).getD 0 = 0) ∧
    (∃ (w : EWord) (s : State) (th : Thread), ∃ d, d = w.o2.toNat % 8 ∧ ∃ x, x = s.domain d ∧ Solo (.gpstat w) s th ∧
      noQueueDest (.gpstat w) th ∧ th.unf = [] ∧ x.en = true) :=
  ⟨⟨ew 2 4 6 8 10, lone (regs [(4, 0x7000), (6, 4096), (8, 0), (10, 0xD02)])
      { stDom dom2 with pools := [{ p := 3, cfg := 0x80000001, count := 3, head := 0x9000 }] }, regs [(4, 0x7000), (6,
      4096), (8, 0), (10, 0xD02)], _, rfl, _, rfl, solo_of (by decide +kernel), calm_of (by decide +kernel), noQ_of
      (by decide +kernel), by decide +kernel⟩,
    ⟨ew 4 2, lone th0 (stDom dom2), th0, _, rfl, solo_of (by decide +kernel), calm_of (by decide +kernel),
      by decide +kernel⟩,
    ⟨ew 4 2 0 6, lone (regs [(6, 0)])
      { stDom dom2 with retire := [retPage], cores := [{ id := 0, cnt0 := [0, 0, 5, 0, 0, 0, 0, 0], cnt1 := [0, 0, 1, 0, 0, 0, 0, 0] }] },
      regs [(6, 0)], _, rfl, _, rfl, solo_of (by decide +kernel), noQ_of (by decide +kernel), by decide +kernel⟩⟩

/-- The hypotheses of `GracePeriodsDrainTheOldPhase` can be met. -/
theorem test_wit_gracePeriodsDrainTheOldPhase :
    (∃ (s : State) (d : Nat), ∃ x, x = s.domain d ∧ (s.domain d).pod = false ∧ x.en = true ∧ x.gst = 0 ∧ s.demand d =
      true) ∧
    (∃ (s : State) (d : Nat), ∃ x, x = s.domain d ∧ (s.domain d).pod = false ∧ (s.demand d = false ∨ x.gst ≠ 0)) ∧
    (∃ (s : State) (d : Nat), ∃ x, x = s.domain d ∧ (s.domain d).pod = false ∧ x.gst = 1) ∧
    (∃ (s : State) (d : Nat), ∃ x, x = s.domain d ∧ (s.domain d).pod = false ∧ x.gst = 2 ∧ s.phaseQuiet d (!flag x.s.toNat
      0) = false) ∧
    (∃ (s : State) (d : Nat), ∃ x, x = s.domain d ∧ (s.domain d).pod = false ∧ x.gst = 2 ∧ s.phaseQuiet d (!flag x.s.toNat
      0) = true ∧ s.threads = []) ∧
    (∃ (s : State) (d : Nat) (w : EWord) (th : Thread) (e : Entry) (g : _), ∃ x, x = s.domain d ∧ decodeWord e.word = .ok
      (.gpsync w) ∧ (s.domain d).pod = false ∧ x.en = true ∧ x.gst = 2 ∧ s.phaseQuiet d (!flag x.s.toNat 0) = true ∧
      s.threads = [th] ∧ th.unf = [e] ∧ w.o2.toNat % 8 = d ∧ e.aux = [g] ∧ e.st = 0 ∧ e.parks = true ∧ e.dst.all
      RegRef.isV = true ∧ th.wait = .eng .entry ∧ th.pending = none ∧ modGe x.s (BitVec.ofNat 32 g) = true ∧ s.retire
      = [] ∧ s.images = []) :=
  ⟨⟨{ stDom dom2 with retire := [{ retPage with tag := 6 }] }, 2, _, rfl, by decide +kernel⟩,
    ⟨stDom dom2, 2, _, rfl, by decide +kernel⟩,
    ⟨{ stDom { dom2 with gst := 1 } with cores := [{ id := 0, cnt0 := [0, 0, 5, 0, 0, 0, 0, 0], cnt1 := [0, 0, 1, 0, 0, 0, 0, 0] }] },
      2, _, rfl, by decide +kernel⟩,
    ⟨{ stDom { dom2 with gst := 2 } with cores := [{ id := 0, cnt0 := [0, 0, 5, 0, 0, 0, 0, 0], cnt1 := [0, 0, 1, 0, 0, 0, 0, 0] }] },
      2, _, rfl, by decide +kernel⟩,
    ⟨{ stDom { dom2 with gst := 2 } with threads := [] }, 2, _, rfl, by decide +kernel⟩,
    ⟨lone
      { th0 with wait := .eng .entry, unf := [{ ent ((encode (.gpsync (ew 4 2))).getD 0) [] [.v 4] with parks := true, tag := 3, aux := [7] }] }
      (stDom { dom2 with gst := 2 }), 2, ew 4 2,
      { th0 with wait := .eng .entry, unf := [{ ent ((encode (.gpsync (ew 4 2))).getD 0) [] [.v 4] with parks := true, tag := 3, aux := [7] }] },
      { ent ((encode (.gpsync (ew 4 2))).getD 0) [] [.v 4] with parks := true, tag := 3, aux := [7] }, 7, _, rfl,
      ok_of (by decide +kernel), by decide +kernel⟩⟩

/-- The hypotheses of `RetiredMemoryIsReleased` can be met. -/
theorem test_wit_retiredMemoryIsReleased :
    (∃ (s : State) (d : Nat), s.eligible d = none) ∧
    (∃ (s : State) (d : Nat) (e : RetireEntry) (pa : Nat), ∃ k, k = e.ctl.toNat / 2 ^ 10 % 64 ∧ ∃ p, p = s.pool k ∧ ∃ x, x
      = chipNode e.pasid ∧ EngCalm s ∧ s.retire = [e] ∧ e.dom = d ∧ e.wait = none ∧ e.done = 0 ∧ modGe (s.domain d).c
      (e.tag + 1) = true ∧ (∀ th ∈ s.threads, th.unf = []) ∧ e.ctl.toNat / 2 ^ 8 % 4 = 1 ∧ p.en = true ∧ p.pasid =
      e.pasid ∧ e.len = p.pageSize ∧ EngReaches s x e.addr.toNat 8 pa ∧ pa + 8 ≤ 2 ^ 40) ∧
    (∃ (s : State) (d : Nat) (e : RetireEntry) (pa : Nat), ∃ x, x = chipNode e.pasid ∧ EngCalm s ∧ s.retire = [e] ∧ e.dom
      = d ∧ e.wait = none ∧ e.done = 0 ∧ modGe (s.domain d).c (e.tag + 1) = true ∧ (∀ th ∈ s.threads, th.unf = []) ∧
      e.ctl.toNat / 2 ^ 8 % 4 = 2 ∧ EngReaches s x e.cword.toNat 8 pa) ∧
    (∃ (s : State) (d : Nat) (e : RetireEntry), ∃ k, k = e.ctl.toNat / 2 ^ 10 % 64 ∧ ∃ p, p = s.pool k ∧ EngCalm s ∧
      s.retire = [e] ∧ e.dom = d ∧ e.wait = none ∧ e.done = 0 ∧ modGe (s.domain d).c (e.tag + 1) = true ∧ (∀ th ∈
      s.threads, th.unf = []) ∧ e.ctl.toNat / 2 ^ 8 % 4 = 1 ∧ p.en = false ∧ 0 < e.len) ∧
    (∃ (s : State) (d : Nat) (v : Word), ∃ x, x = s.domain d ∧ x.en = false ∧ flag v.toNat 31 = true ∧ s.featDone = true ∧
      flag s.rqbase.toNat 0 = true) ∧
    (∃ (s : State) (d : Nat) (v : Word), ∃ x, x = s.domain d ∧ x.en = false ∧ (flag v.toNat 31 = false ∨ s.featDone =
      false ∨ flag s.rqbase.toNat 0 = false)) ∧
    (∃ (s : State) (d : Nat) (v : Word), ∃ x, x = s.domain d ∧ x.en = true ∧ flag v.toNat 31 = false ∧ s.domainQuiet d =
      true) ∧
    (∃ (s : State) (d : Nat) (v : Word), ∃ x, x = s.domain d ∧ x.en = true ∧ (flag v.toNat 31 = true ∨ s.domainQuiet d =
      false)) :=
  ⟨⟨{ stDom dom2 with retire := [{ retPage with tag := 6 }] }, 2, by decide +kernel⟩,
    ⟨{ stDom dom2 with retire := [retPage], pools := [{ p := 3, cfg := 0x80000001, count := 3, head := 0x9000 }] }, 2,
      retPage, 0x7000, _, rfl, _, rfl, _, rfl, calm_of (by decide +kernel), by decide +kernel⟩,
    ⟨{ stDom dom2 with retire := [retWord] }, 2, retWord, 0x8000, _, rfl, calm_of (by decide +kernel), by decide +kernel⟩,
    ⟨{ stDom dom2 with retire := [retPage] }, 2, retPage, _, rfl, _, rfl, calm_of (by decide +kernel), by decide +kernel⟩,
    ⟨{ st0 with rqbase := 1 }, 2, 0xC0000000, _, rfl, by decide +kernel⟩,
    ⟨st0, 2, 0x80000000, _, rfl, by decide +kernel⟩,
    ⟨stDom dom2, 2, 0, _, rfl, by decide +kernel⟩,
    ⟨stDom dom2, 2, 0x80000000, _, rfl, by decide +kernel⟩⟩

/-- The hypotheses of `PodPeriodsFollowTheCoordinator` can be met. -/
theorem test_wit_podPeriodsFollowTheCoordinator :
    (∃ (s : State) (d : Nat) (g : Nat), ∃ x, x = s.domain d ∧ s.podOn d = true ∧ s.coordinates = true ∧ x.gst = 0 ∧
      x.podRun = false ∧ modGe x.s (BitVec.ofNat 32 g) = false) ∧
    (∃ (s : State) (d : Nat) (g : Nat), ∃ x, x = s.domain d ∧ s.podOn d = true ∧ (s.coordinates = false ∨ modGe x.s
      (BitVec.ofNat 32 g) = true)) ∧
    (∃ (s : State) (d : Nat) (g : Nat), ∃ x, x = s.domain d ∧ s.podOn d = true ∧ x.gst = 0 ∧ (x.s + 1).toNat = g) ∧
    (∃ (s : State) (d : Nat) (c : _), ∃ x, x = s.domain d ∧ s.podOn d = true ∧ s.podCoord = some c ∧ c ≠ s.selfChip ∧
      x.gst = 1) ∧
    (∃ (s : State) (d : Nat) (c : _), ∃ x, x = s.domain d ∧ s.podOn d = true ∧ s.podCoord = some c ∧ c ≠ s.selfChip ∧
      x.gst = 2 ∧ s.phaseQuiet d (!flag x.s.toNat 0) = true) ∧
    (∃ (s : State) (d : Nat) (g : Nat), ∃ x, x = s.domain d ∧ s.podOn d = true ∧ x.s.toNat = g) ∧
    (∃ (s : State) (d : Nat) (g : Nat) (src : Nat), ∃ x, x = s.domain d ∧ s.podOn d = true ∧ x.s.toNat = g ∧ x.podRun =
      true ∧ (∃ c ∈ s.podMembers, c ∉ insertNat src x.quiets)) ∧
    (∃ (s : State) (d : Nat) (g : Nat) (src : Nat), ∃ x, x = s.domain d ∧ s.podOn d = true ∧ x.s.toNat = g ∧ x.podRun =
      true ∧ (∀ c ∈ s.podMembers, c ∈ insertNat src x.quiets) ∧ s.threads = [] ∧ s.retire = [] ∧ s.images = []) ∧
    (∃ (s : State) (d : Nat) (g : Nat), ∃ x, x = s.domain d ∧ s.podOn d = true ∧ x.s.toNat = g ∧ x.gst = 3 ∧ s.threads =
      [] ∧ s.retire = [] ∧ s.images = []) :=
  ⟨⟨stPod 0 { dom2 with pod := true }, 2, 8, _, rfl, by decide +kernel⟩,
    ⟨stPod 1 { dom2 with pod := true }, 2, 7, _, rfl, by decide +kernel⟩,
    ⟨stPod 1 { dom2 with pod := true }, 2, 8, _, rfl, by decide +kernel⟩,
    ⟨stPod 1 { dom2 with pod := true, gst := 1 }, 2, (0:Nat), _, rfl, by decide +kernel⟩,
    ⟨stPod 1 { dom2 with pod := true, gst := 2 }, 2, (0:Nat), _, rfl, by decide +kernel⟩,
    ⟨stPod 0 { dom2 with pod := true, gst := 1, podRun := true }, 2, 7, _, rfl, by decide +kernel⟩,
    ⟨stPod 0 { dom2 with pod := true, gst := 2, podRun := true }, 2, 7, 1, _, rfl, by decide +kernel⟩,
    ⟨stPod 0 { dom2 with pod := true, gst := 3, podRun := true, quiets := [0] }, 2, 7, 1, _, rfl, by decide +kernel⟩,
    ⟨stPod 1 { dom2 with pod := true, gst := 3 }, 2, 7, _, rfl, by decide +kernel⟩⟩

/-- The hypotheses of `CollectivesAreLaunched` can be met. -/
theorem test_wit_collectivesAreLaunched :
    (∃ (w : EWord) (s : State) (th : Thread) (b : Nat) (pp : Nat), ∃ x, x = s.eng th.tid.core th.slot ∧ ∃ a, a = (engEntry
      (.claunch w) s th).d 0 ∧ ∃ r, r = parseColl b ∧ CollReady (.claunch w) s th ∧ EngSees s x a.toNat 128 b ∧
      s.colls = [] ∧ s.collGen.length = 16 ∧ (s.core th.tid.core).ranges = [] ∧ a.toNat % 128 = 0 ∧ canonical a.toNat
      = true ∧ collBad b r s.selfChip = false ∧ flag r.part s.selfChip = true ∧ (∀ c ∈ r.parts, ∃ k, k < 12 ∧
      (s.linkEntry c k).v = true) ∧ EngReaches s (chipNode x.pasid) r.prog.toNat r.progBytes pp ∧ r.coordChip ≠
      s.selfChip) :=
  ⟨ew 2 4, lone (regs [(4, 0x3000)]) (poke 0x3000 128 collRaw { stColl 1 [] with collGen := List.replicate 16 7 }),
    (regs [(4, 0x3000)]), collRaw, 0x6000, _, rfl, _, rfl, _, rfl, collReady_of (by decide +kernel), sees_of
    (by decide +kernel), by decide +kernel⟩

/-- The hypotheses of `CollectiveWordsActOnHandles` can be met. -/
theorem test_wit_collectiveWordsActOnHandles :
    (∃ (w : EWord) (s : State) (th : Thread), ∃ h, h = (fun (i : Instr) => (engEntry i s th).w 0) ∧ CollReady (.cstatus w)
      s th ∧ (∀ x ∈ s.colls, x.slot + 16 * x.gen ≠ h (.cstatus w))) ∧
    (∃ (w : EWord) (s : State) (th : Thread) (x : _), ∃ h, h = (fun (i : Instr) => (engEntry i s th).w 0) ∧ CollReady
      (.cstatus w) s th ∧ OneColl s x ∧ x.slot + 16 * x.gen = h (.cstatus w)) ∧
    (∃ (w : EWord) (s : State) (th : Thread), ∃ h, h = (fun (i : Instr) => (engEntry i s th).w 0) ∧ CollReady (.cabort w)
      s th ∧ s.handle? (h (.cabort w)) = none) ∧
    (∃ (w : EWord) (s : State) (th : Thread) (x : _) (pp : _), ∃ h, h = (fun (i : Instr) => (engEntry i s th).w 0) ∧
      CollReady (.cabort w) s th ∧ OneColl s x ∧ x.slot + 16 * x.gen = h (.cabort w) ∧ ProgAt s x 16 pp) ∧
    (∃ (w : EWord) (s : State) (th : Thread), ∃ h, h = (fun (i : Instr) => (engEntry i s th).w 0) ∧ CollReady (.cresume w)
      s th ∧ s.handle? (h (.cresume w)) = none) ∧
    (∃ (w : EWord) (s : State) (th : Thread) (x : _), ∃ h, h = (fun (i : Instr) => (engEntry i s th).w 0) ∧ CollReady
      (.cresume w) s th ∧ s.handle? (h (.cresume w)) = some x ∧ x.state ≠ 3) ∧
    (∃ (w : EWord) (s : State) (th : Thread) (x : _), ∃ h, h = (fun (i : Instr) => (engEntry i s th).w 0) ∧ CollReady
      (.cresume w) s th ∧ s.handle? (h (.cresume w)) = some x ∧ x.state = 3 ∧ x.rcd.coordChip ≠ s.selfChip) ∧
    (∃ (w : EWord) (s : State) (th : Thread), CollReady (.linkq w) s th) :=
  ⟨⟨ew 2 4, lone (regs [(4, 49)]) (stColl 1 [coll1]), (regs [(4, 49)]), _, rfl, collReady_of (by decide +kernel),
      by decide +kernel⟩,
    ⟨ew 2 4, lone (regs [(4, 48)]) (stColl 1 [coll1]), (regs [(4, 48)]), coll1, _, rfl, collReady_of (by decide +kernel),
      coll_of (by decide +kernel), by decide +kernel⟩,
    ⟨ew 2 4, lone (regs [(4, 49)]) (stColl 1 [coll1]), (regs [(4, 49)]), _, rfl, collReady_of (by decide +kernel),
      by decide +kernel⟩,
    ⟨ew 2 4, lone (regs [(4, 48)]) (stColl 1 [coll1]), (regs [(4, 48)]), coll1, 0x6000, _, rfl, collReady_of
      (by decide +kernel), coll_of (by decide +kernel), by decide +kernel⟩,
    ⟨ew 2 4, lone (regs [(4, 49)]) (stColl 1 [coll1]), (regs [(4, 49)]), _, rfl, collReady_of (by decide +kernel),
      by decide +kernel⟩,
    ⟨ew 2 4, lone (regs [(4, 48)]) (stColl 1 [coll1]), (regs [(4, 48)]), coll1, _, rfl, collReady_of (by decide +kernel),
      by decide +kernel⟩,
    ⟨ew 2 4, lone (regs [(4, 48)]) (stColl 1 [{ coll1 with state := 3 }]), (regs [(4, 48)]), { coll1 with state := 3 }, _,
      rfl, collReady_of (by decide +kernel), by decide +kernel⟩,
    ⟨ew 2 4 0, lone (regs [(4, 0)]) (stColl 1 [coll1]), (regs [(4, 0)]), collReady_of (by decide +kernel)⟩⟩

/-- The hypotheses of `ParticipantsFollowTheCoordinator` can be met. -/
theorem test_wit_participantsFollowTheCoordinator :
    (∃ (s : State) (x : Coll) (pp : Nat) (edges : List Edge) (trees : List (List Edge)), ∃ r, r = x.rcd ∧ ∃ self, self =
      s.selfChip ∧ OneColl s x ∧ x.state = 1 ∧ x.starts = 0 ∧ x.code = 0 ∧ x.r = [] ∧ x.d = [] ∧ x.early = [] ∧ ProgAt
      s x r.progBytes pp ∧ deriveTrees r.parts edges (r.maxtree + 1) = some trees ∧ 0 < r.nc ∧ trees.length < 16 ∧ (∀
      c, c < r.nc → treeKids ((trees[c % trees.length]?).getD []) (r.treeRoot (c % trees.length) trees.length) self ≠
      [])) ∧
    (∃ (s : State) (x : Coll) (pp : Nat), OneColl s x ∧ x.state = 2 ∧ ProgAt s x 16 pp) ∧
    (∃ (s : State) (x : Coll) (n : _), OneColl s x ∧ n < x.epoch) ∧
    (∃ (s : State) (x : Coll) (pp : Nat), OneColl s x ∧ ProgAt s x 16 pp) ∧
    (∃ (s : State) (x : Coll) (pp : Nat) (code : _), OneColl s x ∧ code < 256 ∧ ProgAt s x 16 pp) ∧
    (∃ (s : State) (x : Coll) (epoch : _), OneColl s x ∧ epoch + 1 < x.starts) ∧
    (∃ (s : State) (x : Coll) (epoch : _), OneColl s x ∧ x.starts ≤ epoch) ∧
    (∃ (s : State) (x : Coll) (k : ChunkWork) (src : Nat) (parent : Nat) (pa : Nat) (mp : Nat), ∃ r, r = x.rcd ∧ ∃ self,
      self = s.selfChip ∧ ∃ root, root = r.treeRoot k.tree x.ntree ∧ ∃ es, es = (x.trees[k.tree]?).getD [] ∧ ∃ n, n =
      (r.chunkElems k.chunk).2 ∧ ∃ at_, at_ = r.input.toNat + (r.chunkElems k.chunk).1 * r.esize ∧ OneColl s x ∧
      x.state = 2 ∧ 1 ≤ x.starts ∧ x.work = [k] ∧ k.up = false ∧ k.got = [] ∧ k.res = none ∧ r.op = 0 ∧ self ≠ root ∧
      treeKids es root self = [src] ∧ treeParent es root self = some parent ∧ 0 < n ∧ at_ < 2 ^ 64 ∧ canonical at_ =
      true ∧ at_ % 4096 + n * r.esize ≤ 4096 ∧ s.trans (.die 0) x.pasid at_ .read = .ok pa ∧ pa + n * r.esize ≤ 2 ^ 42
      ∧ s.cleanSpan pa (n * r.esize) ∧ EngReaches s (chipNode x.pasid) (r.prog.toNat + 0x40 + 4 * (k.chunk / 16)) 4
      mp) :=
  ⟨⟨poke 0x4000 16 0x3F800000400000004040000040800000 (stColl 1 [{ coll1 with rcd := { collRcd with part := 7 } }]),
      { coll1 with rcd := { collRcd with part := 7 } }, 0x6000, [edge01, { a := 1, k := 1, b := 2, k2 := 0 }],
      [[edge01, { a := 1, k := 1, b := 2, k2 := 0 }]], _, rfl, _, rfl, coll_of (by decide +kernel), by decide +kernel⟩,
    ⟨poke 0x4000 16 0x3F800000400000004040000040800000 (stColl 1
      [{ coll1 with state := 2, starts := 1, ntree := 1, trees := [[edge01]] }]),
      { coll1 with state := 2, starts := 1, ntree := 1, trees := [[edge01]] }, 0x6000, coll_of (by decide +kernel),
      by decide +kernel⟩,
    ⟨poke 0x4000 16 0x3F800000400000004040000040800000 (stColl 1 [{ coll1 with state := 2, starts := 3 }]),
      { coll1 with state := 2, starts := 3 }, 1, coll_of (by decide +kernel), by decide +kernel⟩,
    ⟨poke 0x4000 16 0x3F800000400000004040000040800000 (stColl 1
      [{ coll1 with state := 2, starts := 1, ntree := 1, trees := [[edge01]], work := [{ chunk := 0, tree := 0 }] }]),
      { coll1 with state := 2, starts := 1, ntree := 1, trees := [[edge01]], work := [{ chunk := 0, tree := 0 }] },
      0x6000, coll_of (by decide +kernel), by decide +kernel⟩,
    ⟨poke 0x4000 16 0x3F800000400000004040000040800000 (stColl 1
      [{ coll1 with state := 2, starts := 1, ntree := 1, trees := [[edge01]] }]),
      { coll1 with state := 2, starts := 1, ntree := 1, trees := [[edge01]] }, 0x6000, 2, coll_of (by decide +kernel),
      by decide +kernel⟩,
    ⟨poke 0x4000 16 0x3F800000400000004040000040800000 (stColl 1 [{ coll1 with state := 2, starts := 3 }]),
      { coll1 with state := 2, starts := 3 }, 1, coll_of (by decide +kernel), by decide +kernel⟩,
    ⟨poke 0x4000 16 0x3F800000400000004040000040800000 (stColl 1 [coll1]), coll1, 0, coll_of (by decide +kernel),
      by decide +kernel⟩,
    ⟨poke 0x4000 16 0x3F800000400000004040000040800000 (stColl 1
      [{ coll1 with rcd := { collRcd with part := 7 }, state := 2, starts := 1, ntree := 1, trees := [[edge01, { a := 1, k := 1, b := 2, k2 := 0 }]], work := [{ chunk := 0, tree := 0 }] }]),
      { coll1 with rcd := { collRcd with part := 7 }, state := 2, starts := 1, ntree := 1, trees := [[edge01, { a := 1, k := 1, b := 2, k2 := 0 }]], work := [{ chunk := 0, tree := 0 }] },
      { chunk := 0, tree := 0 }, 2, 0, 0x4000, 0x6040, _, rfl, _, rfl, _, rfl, _, rfl, _, rfl, _, rfl, coll_of
      (by decide +kernel), by decide +kernel⟩⟩

/-- The hypotheses of `CoordinatorRunsTheRounds` can be met. -/
theorem test_wit_coordinatorRunsTheRounds :
    (∃ (s : State) (j : JoinMsg), s.coords = [] ∧ (∃ c ∈ partChips j.part, c ≠ j.src)) ∧
    (∃ (s : State) (j : JoinMsg) (c : Coord), s.coords = [c] ∧ s.colls = [] ∧ c.cid = j.cid ∧ j.src ∉ c.joined ∧ c.bad =
      false ∧ sameJoin c.first j = false ∧ s.selfChip ∉ insertNat j.src c.joined) ∧
    (∃ (s : State) (x : Coll) (c : Coord) (pp : Nat) (j : JoinMsg), OwnColl s x c ∧ c.cid = j.cid ∧ j.src ∉ c.joined ∧
      c.bad = false ∧ sameJoin c.first j = false ∧ ProgAt s x 16 pp) ∧
    (∃ (s : State) (x : Coll) (c : Coord) (pp : Nat) (j : JoinMsg) (trees : _), ∃ r, r = x.rcd ∧ ∃ self, self = s.selfChip
      ∧ ∃ edges, edges = s.edgesOf r.part ∧ ∃ derived, derived = deriveTrees r.parts edges (r.maxtree + 1) ∧ ∃ inner,
      inner = (fun (trees : List (List Edge)) => trees.length < 16 ∧ ∀ k, k < trees.length → treeKids
      ((trees[k]?).getD []) (r.treeRoot k trees.length) self ≠ []) ∧ OwnColl s x c ∧ c.cid = j.cid ∧ j.src ∉ c.joined
      ∧ c.bad = false ∧ sameJoin c.first j = true ∧ c.ended = false ∧ (∀ k ∈ r.parts, k ∈ insertNat j.src c.joined) ∧
      c.started = false ∧ c.bitmaps = [] ∧ x.state = 1 ∧ x.starts = 0 ∧ ProgAt s x r.progBytes pp ∧ derived = some
      trees ∧ 0 < r.nc ∧ inner trees) ∧
    (∃ (s : State) (x : Coll) (c : Coord) (pp : Nat), OwnColl s x c ∧ c.started = true ∧ 1 ≤ x.starts ∧ c.pausing = false
      ∧ x.state = 2 ∧ ProgAt s x 16 pp) ∧
    (∃ (s : State) (x : Coll) (c : Coord) (n : _), OwnColl s x c ∧ c.started = true ∧ 1 ≤ x.starts ∧ n ≠ c.epoch) ∧
    (∃ (s : State) (x : Coll) (c : Coord) (src : _) (done : _), ∃ r, r = x.rcd ∧ ∃ got, got = upsert (fun b => b.1 = src)
      (src, done) c.bitmaps ∧ OwnColl s x c ∧ c.started = true ∧ 1 ≤ x.starts ∧ c.pausing = true ∧ x.state = 3 ∧ ((∃ k
      ∈ r.parts, ∀ b ∈ got, b.1 ≠ k) ∨ (r.hold = true ∧ ∃ k ∈ r.parts, k ∉ c.resumes))) ∧
    (∃ (s : State) (x : Coll) (c : Coord) (pp : Nat) (src : _) (done : _) (trees : _), ∃ r, r = x.rcd ∧ ∃ self, self =
      s.selfChip ∧ ∃ edges, edges = s.edgesOf r.part ∧ ∃ derived, derived = deriveTrees r.parts edges (r.maxtree + 1)
      ∧ ∃ inner, inner = (fun (trees : List (List Edge)) => trees.length < 16 ∧ ∀ k, k < trees.length → treeKids
      ((trees[k]?).getD []) (r.treeRoot k trees.length) self ≠ []) ∧ ∃ got, got = upsert (fun b => b.1 = src) (src,
      done) c.bitmaps ∧ OwnColl s x c ∧ c.started = true ∧ 1 ≤ x.starts ∧ c.pausing = true ∧ x.state = 3 ∧ (∀ k ∈
      r.parts, ∃ b ∈ got, b.1 = k) ∧ (r.hold = true → ∀ k ∈ r.parts, k ∈ c.resumes) ∧ derived = some trees ∧ inner
      trees ∧ ProgAt s x r.progBytes pp) ∧
    (∃ (s : State) (x : Coll) (c : Coord) (pp : Nat) (src : _) (done : _), ∃ r, r = x.rcd ∧ ∃ edges, edges = s.edgesOf
      r.part ∧ ∃ derived, derived = deriveTrees r.parts edges (r.maxtree + 1) ∧ ∃ got, got = upsert (fun b => b.1 =
      src) (src, done) c.bitmaps ∧ OwnColl s x c ∧ c.started = true ∧ 1 ≤ x.starts ∧ c.pausing = true ∧ x.state = 3 ∧
      (∀ k ∈ r.parts, ∃ b ∈ got, b.1 = k) ∧ (r.hold = true → ∀ k ∈ r.parts, k ∈ c.resumes) ∧ derived = none ∧ r.hold =
      false ∧ ProgAt s x 16 pp) ∧
    (∃ (s : State) (x : Coll) (c : Coord) (src : _) (done : _), ∃ r, r = x.rcd ∧ ∃ edges, edges = s.edgesOf r.part ∧ ∃
      derived, derived = deriveTrees r.parts edges (r.maxtree + 1) ∧ ∃ got, got = upsert (fun b => b.1 = src) (src,
      done) c.bitmaps ∧ OwnColl s x c ∧ c.started = true ∧ 1 ≤ x.starts ∧ c.pausing = true ∧ x.state = 3 ∧ (∀ k ∈
      r.parts, ∃ b ∈ got, b.1 = k) ∧ (r.hold = true → ∀ k ∈ r.parts, k ∈ c.resumes) ∧ derived = none ∧ r.hold = true) ∧
    (∃ (s : State) (x : Coll) (c : Coord), ∃ r, r = x.rcd ∧ OwnColl s x c ∧ c.started = true ∧ 1 ≤ x.starts ∧ c.pausing =
      true ∧ (∃ k ∈ r.parts, ∀ b ∈ c.bitmaps, b.1 ≠ k)) ∧
    (∃ (s : State) (x : Coll) (c : Coord) (pp : Nat) (chip : _) (trees : _), ∃ r, r = x.rcd ∧ ∃ self, self = s.selfChip ∧
      ∃ edges, edges = s.edgesOf r.part ∧ ∃ derived, derived = deriveTrees r.parts edges (r.maxtree + 1) ∧ ∃ inner,
      inner = (fun (trees : List (List Edge)) => trees.length < 16 ∧ ∀ k, k < trees.length → treeKids
      ((trees[k]?).getD []) (r.treeRoot k trees.length) self ≠ []) ∧ OwnColl s x c ∧ c.started = true ∧ 1 ≤ x.starts ∧
      c.pausing = true ∧ (∀ k ∈ r.parts, ∃ b ∈ c.bitmaps, b.1 = k) ∧ (∀ k ∈ r.parts, k ∈ insertNat chip c.resumes) ∧
      derived = some trees ∧ inner trees ∧ ProgAt s x r.progBytes pp) ∧
    (∃ (s : State) (x : Coll) (c : Coord) (src : _), ∃ r, r = x.rcd ∧ OwnColl s x c ∧ c.started = true ∧ 1 ≤ x.starts ∧
      c.pausing = false ∧ (∃ k ∈ r.parts, k ∉ insertNat src c.reports)) ∧
    (∃ (s : State) (x : Coll) (c : Coord) (pp : Nat) (src : _), ∃ r, r = x.rcd ∧ OwnColl s x c ∧ c.started = true ∧ 1 ≤
      x.starts ∧ c.pausing = false ∧ (∀ k ∈ r.parts, k ∈ insertNat src c.reports) ∧ ProgAt s x 16 pp) ∧
    (∃ (s : State) (x : Coll) (c : Coord) (pp : Nat) (code : _), OwnColl s x c ∧ code < 256 ∧ ProgAt s x 16 pp) ∧
    (∃ (s : State) (x : Coll) (c : Coord) (pp : Nat) (src : _), ∃ r, r = x.rcd ∧ ∃ self, self = s.selfChip ∧ OwnColl s x c
      ∧ src ≠ self ∧ (∀ k ∈ r.parts, k ∈ c.joined) ∧ ProgAt s x 16 pp) :=
  ⟨⟨stCoord 0 [], collJoinOf 1, by decide +kernel⟩,
    ⟨stCoord 0 [{ cid := 0x55, first := { collJoinOf 1 with nelem := 5, part := 0x82 }, joined := [1] }], collJoinOf 7,
      { cid := 0x55, first := { collJoinOf 1 with nelem := 5, part := 0x82 }, joined := [1] }, by decide +kernel⟩,
    ⟨({ stColl 0 [{ coll1 with state := 1 }] with coords := [{ cid := 0x55, first := collJoinOf 0, joined := [0] }] }),
      { coll1 with state := 1 }, { cid := 0x55, first := collJoinOf 0, joined := [0] }, 0x6000,
      { collJoinOf 1 with nelem := 9 }, own_of (by decide +kernel), by decide +kernel⟩,
    ⟨({ stColl 0 [{ coll1 with state := 1 }] with coords := [{ cid := 0x55, first := collJoinOf 0, joined := [0] }] }),
      { coll1 with state := 1 }, { cid := 0x55, first := collJoinOf 0, joined := [0] }, 0x6000, collJoinOf 1,
      [[edge00]], _, rfl, _, rfl, _, rfl, _, rfl, _, rfl, own_of (by decide +kernel), by decide +kernel⟩,
    ⟨({ stColl 0 [{ coll1 with state := 2, starts := 5, ntree := 1, trees := [[edge01]], work := [{ chunk := 0, tree := 0 }] }] with coords := [{ cid := 0x55, first := collJoinOf 0, joined := [0, 1], started := true, epoch := 4 }] }),
      { coll1 with state := 2, starts := 5, ntree := 1, trees := [[edge01]], work := [{ chunk := 0, tree := 0 }] },
      { cid := 0x55, first := collJoinOf 0, joined := [0, 1], started := true, epoch := 4 }, 0x6000, own_of
      (by decide +kernel), by decide +kernel⟩,
    ⟨({ stColl 0 [{ coll1 with state := 2, starts := 5, ntree := 1, trees := [[edge01]], work := [{ chunk := 0, tree := 0 }] }] with coords := [{ cid := 0x55, first := collJoinOf 0, joined := [0, 1], started := true, epoch := 4 }] }),
      { coll1 with state := 2, starts := 5, ntree := 1, trees := [[edge01]], work := [{ chunk := 0, tree := 0 }] },
      { cid := 0x55, first := collJoinOf 0, joined := [0, 1], started := true, epoch := 4 }, 3, own_of
      (by decide +kernel), by decide +kernel⟩,
    ⟨({ stColl 0 [{ coll1 with state := 3, starts := 5, ntree := 1, trees := [[edge01]], d := [0] }] with coords := [{ cid := 0x55, first := collJoinOf 0, joined := [0, 1], started := true, pausing := true, epoch := 4 }] }),
      { coll1 with state := 3, starts := 5, ntree := 1, trees := [[edge01]], d := [0] },
      { cid := 0x55, first := collJoinOf 0, joined := [0, 1], started := true, pausing := true, epoch := 4 }, 0, [0],
      _, rfl, _, rfl, own_of (by decide +kernel), by decide +kernel⟩,
    ⟨({ stColl 0 [{ coll1 with state := 3, starts := 5, ntree := 1, trees := [[edge01]], d := [0] }] with coords := [{ cid := 0x55, first := collJoinOf 0, joined := [0, 1], started := true, pausing := true, bitmaps := [(0, [0])], epoch := 4 }] }),
      { coll1 with state := 3, starts := 5, ntree := 1, trees := [[edge01]], d := [0] },
      { cid := 0x55, first := collJoinOf 0, joined := [0, 1], started := true, pausing := true, bitmaps := [(0, [0])], epoch := 4 },
      0x6000, 1, [0], [[edge00]], _, rfl, _, rfl, _, rfl, _, rfl, _, rfl, _, rfl, own_of (by decide +kernel),
      by decide +kernel⟩,
    ⟨{ ({ stColl 0 [{ coll1 with state := 3, starts := 5, ntree := 1, trees := [[edge01]], d := [0] }] with coords := [{ cid := 0x55, first := collJoinOf 0, joined := [0, 1], started := true, pausing := true, bitmaps := [(0, [0])], epoch := 4 }] }) with linkMap := { podMap with rows := [] } },
      { coll1 with state := 3, starts := 5, ntree := 1, trees := [[edge01]], d := [0] },
      { cid := 0x55, first := collJoinOf 0, joined := [0, 1], started := true, pausing := true, bitmaps := [(0, [0])], epoch := 4 },
      0x6000, 1, [0], _, rfl, _, rfl, _, rfl, _, rfl, own_of (by decide +kernel), by decide +kernel⟩,
    ⟨{ ({ stColl 0 [{ coll1 with rcd := { collRcd with hold := true }, state := 3, starts := 5, ntree := 1, trees := [[edge01]], d := [0] }] with coords := [{ cid := 0x55, first := collJoinOf 0, joined := [0, 1], started := true, pausing := true, bitmaps := [(0, [0])], resumes := [0, 1], epoch := 4 }] }) with linkMap := { podMap with rows := [] } },
      { coll1 with rcd := { collRcd with hold := true }, state := 3, starts := 5, ntree := 1, trees := [[edge01]], d := [0] },
      { cid := 0x55, first := collJoinOf 0, joined := [0, 1], started := true, pausing := true, bitmaps := [(0, [0])], resumes := [0, 1], epoch := 4 },
      1, [0], _, rfl, _, rfl, _, rfl, _, rfl, own_of (by decide +kernel), by decide +kernel⟩,
    ⟨({ stColl 0 [{ coll1 with rcd := { collRcd with hold := true }, state := 3, starts := 5, ntree := 1, trees := [[edge01]], d := [0] }] with coords := [{ cid := 0x55, first := collJoinOf 0, joined := [0, 1], started := true, pausing := true, bitmaps := [(0, [0])], epoch := 4 }] }),
      { coll1 with rcd := { collRcd with hold := true }, state := 3, starts := 5, ntree := 1, trees := [[edge01]], d := [0] },
      { cid := 0x55, first := collJoinOf 0, joined := [0, 1], started := true, pausing := true, bitmaps := [(0, [0])], epoch := 4 },
      _, rfl, own_of (by decide +kernel), by decide +kernel⟩,
    ⟨({ stColl 0 [{ coll1 with rcd := { collRcd with hold := true }, state := 3, starts := 5, ntree := 1, trees := [[edge01]], d := [0] }] with coords := [{ cid := 0x55, first := collJoinOf 0, joined := [0, 1], started := true, pausing := true, bitmaps := [(0, [0]), (1, [0, 3])], resumes := [0], epoch := 4 }] }),
      { coll1 with rcd := { collRcd with hold := true }, state := 3, starts := 5, ntree := 1, trees := [[edge01]], d := [0] },
      { cid := 0x55, first := collJoinOf 0, joined := [0, 1], started := true, pausing := true, bitmaps := [(0, [0]), (1, [0, 3])], resumes := [0], epoch := 4 },
      0x6000, 1, [[edge00]], _, rfl, _, rfl, _, rfl, _, rfl, _, rfl, own_of (by decide +kernel), by decide +kernel⟩,
    ⟨({ stColl 0 [{ coll1 with state := 2, starts := 5, ntree := 1, trees := [[edge01]], r := [0], d := [0] }] with coords := [{ cid := 0x55, first := collJoinOf 0, joined := [0, 1], started := true, epoch := 4 }] }),
      { coll1 with state := 2, starts := 5, ntree := 1, trees := [[edge01]], r := [0], d := [0] },
      { cid := 0x55, first := collJoinOf 0, joined := [0, 1], started := true, epoch := 4 }, 0, _, rfl, own_of
      (by decide +kernel), by decide +kernel⟩,
    ⟨({ stColl 0 [{ coll1 with state := 2, starts := 5, ntree := 1, trees := [[edge01]], r := [0], d := [0] }] with coords := [{ cid := 0x55, first := collJoinOf 0, joined := [0, 1], started := true, reports := [0], epoch := 4 }] }),
      { coll1 with state := 2, starts := 5, ntree := 1, trees := [[edge01]], r := [0], d := [0] },
      { cid := 0x55, first := collJoinOf 0, joined := [0, 1], started := true, reports := [0], epoch := 4 }, 0x6000,
      1, _, rfl, own_of (by decide +kernel), by decide +kernel⟩,
    ⟨({ stColl 0 [{ coll1 with state := 2, starts := 5, ntree := 1, trees := [[edge01]], work := [{ chunk := 0, tree := 0 }] }] with coords := [{ cid := 0x55, first := collJoinOf 0, joined := [0, 1], started := true, epoch := 4 }] }),
      { coll1 with state := 2, starts := 5, ntree := 1, trees := [[edge01]], work := [{ chunk := 0, tree := 0 }] },
      { cid := 0x55, first := collJoinOf 0, joined := [0, 1], started := true, epoch := 4 }, 0x6000, 5, own_of
      (by decide +kernel), by decide +kernel⟩,
    ⟨({ stColl 0 [{ coll1 with state := 2, starts := 5, ntree := 1, trees := [[edge01]], work := [{ chunk := 0, tree := 0 }] }] with coords := [{ cid := 0x55, first := collJoinOf 0, joined := [0, 1], started := true, epoch := 4 }] }),
      { coll1 with state := 2, starts := 5, ntree := 1, trees := [[edge01]], work := [{ chunk := 0, tree := 0 }] },
      { cid := 0x55, first := collJoinOf 0, joined := [0, 1], started := true, epoch := 4 }, 0x6000, 1, _, rfl, _,
      rfl, own_of (by decide +kernel), by decide +kernel⟩⟩

/-- The hypotheses of `LinkMapFollowsTheLinks` can be met. -/
theorem test_wit_linkMapFollowsTheLinks :
    (∃ (s : State) (link : Nat), ∃ self, self = s.selfChip ∧ ∃ e, e = s.linkEntry self link ∧ link < 12 ∧ s.colls = [] ∧
      s.podmask = 0 ∧ s.flits = true ∧ e.lup = true) ∧
    (∃ (s : State) (link : Nat) (pchip : _), ∃ self, self = s.selfChip ∧ ∃ e, e = s.linkEntry self link ∧ link < 12 ∧
      s.colls = [] ∧ s.podmask = 0 ∧ s.flits = true ∧ e.lup = false ∧ pchip ≠ self ∧ (∀ r ∈ s.linkMap.rows, r.1 =
      self)) ∧
    (∃ (s : State) (link : Nat), ∃ self, self = s.selfChip ∧ ∃ e, e = s.linkEntry self link ∧ link < 12 ∧ s.colls = [] ∧
      s.podmask = 0 ∧ s.flits = true ∧ e.lup = false) ∧
    (∃ (s : State) (link : Nat) (origin : _) (n : _), (s.linkRow origin = none ∨ (∃ r, s.linkRow origin = some r ∧ 1 ≤ (n
      + 2 ^ 16 - r.1) % 2 ^ 16 ∧ (n + 2 ^ 16 - r.1) % 2 ^ 16 ≤ 32767)) ∧ link < 12 ∧ s.colls = [] ∧ s.podmask = 0 ∧
      s.flits = true) ∧
    (∃ (s : State) (link : Nat) (origin : _) (n : _) (r : _), link < 12 ∧ s.colls = [] ∧ s.podmask = 0 ∧ s.flits = true ∧
      s.linkRow origin = some r ∧ ((n + 2 ^ 16 - r.1) % 2 ^ 16 = 0 ∨ 32767 < (n + 2 ^ 16 - r.1) % 2 ^ 16)) :=
  ⟨⟨{ stPod 1 dom2 with podmask := 0 }, 0, _, rfl, _, rfl, by decide +kernel⟩,
    ⟨{ stPod 1 dom2 with podmask := 0, linkMap := { podMap with rows := [(1, 1, linkTo 0)] } }, 11, 4, _, rfl, _, rfl,
      by decide +kernel⟩,
    ⟨{ stPod 1 dom2 with podmask := 0 }, 3, _, rfl, _, rfl, by decide +kernel⟩,
    ⟨{ stPod 1 dom2 with podmask := 0, linkMap := { podMap with rows := [(1, 1, linkTo 0)] } }, 0, 5, 0xFFFF, .inl
      (by decide +kernel), by decide +kernel⟩,
    ⟨{ stPod 1 dom2 with podmask := 0 }, 0, 0, 1, (1, linkTo 1), by decide +kernel⟩⟩

/-- The hypotheses of `SubscriptionsMirrorTheirRange` can be met. -/
theorem test_wit_subscriptionsMirrorTheirRange :
    (∃ (w : EWord) (s : State) (th : Thread) (pa : Nat), ∃ x, x = s.eng th.tid.core th.slot ∧ ∃ e, e = engEntry (.subscr
      w) s th ∧ ∃ a, a = (e.d 0).toNat ∧ ∃ n, n = e.w 2 ∧ ∃ o, o = e.w 3 ∧ Solo (.subscr w) s th ∧ EngCalm s ∧ th.unf
      = [] ∧ a % 128 = 0 ∧ n % 128 = 0 ∧ o % 128 = 0 ∧ 0 < n ∧ a % 4096 + n ≤ 4096 ∧ canonical a = true ∧ o + n ≤
      x.size ∧ s.protectedSpan th.tid.core (x.base + o) n = false ∧ s.trans (.core th.tid.core) x.pasid a .read = .ok
      pa ∧ pa + n ≤ 2 ^ 40 ∧ pa / 2 ^ 36 = dieOf x.core) ∧
    (∃ (w : EWord) (s : State) (th : Thread) (pa : Nat), ∃ x, x = s.eng th.tid.core th.slot ∧ ∃ e, e = engEntry (.subscr
      w) s th ∧ ∃ a, a = (e.d 0).toNat ∧ ∃ n, n = e.w 2 ∧ ∃ o, o = e.w 3 ∧ ∃ (part : SubPart), part =
      { pa, off := 0, len := n } ∧ Solo (.subscr w) s th ∧ noQueueDest (.subscr w) th ∧ s.noFollowers th.tid ∧ th.unf
      = [] ∧ a % 128 = 0 ∧ n % 128 = 0 ∧ o % 128 = 0 ∧ 0 < n ∧ a % 4096 + n ≤ 4096 ∧ canonical a = true ∧ o + n ≤
      x.size ∧ s.protectedSpan th.tid.core (x.base + o) n = false ∧ s.trans (.core th.tid.core) x.pasid a .read = .ok
      pa ∧ pa + n ≤ 2 ^ 40 ∧ pa / 2 ^ 36 = dieOf x.core ∧ (∀ u ∈ (s.core th.tid.core).subs, u.touches [part] = false)
      ∧ (∀ h, h < 8 → ∃ u ∈ (s.core th.tid.core).subs, u.handle = h)) ∧
    (∃ (w : EWord) (s : State) (th : Thread) (e : Entry) (k : CoreSt) (u : Sub) (pa : Nat), ParkedOn s th e (.subscr w) ∧
      e.aux = [u.handle] ∧ s.cores = [k] ∧ k.id = th.tid.core ∧ k.subs = [u] ∧ u.slot = th.slot ∧ u.live = true ∧
      u.ready = false ∧ u.parts = [{ pa, off := 0, len := u.len }] ∧ pa + u.len ≤ 2 ^ 40 ∧ k.red = [] ∧ s.hostHeld =
      [] ∧ s.memOk = true) ∧
    (∃ (s : State) (k : CoreSt) (u : Sub), s.cores = [k] ∧ k.subs = [u] ∧ u.live = true ∧ u.ready = true ∧ s.memOk = true
      ∧ (∀ y ∈ u.early, y.seq ≠ (u.seq + 1) % 2 ^ 32)) ∧
    (∃ (s : State) (k : CoreSt) (u : Sub) (y : SubUpd) (b : _) (off : _), s.cores = [k] ∧ k.subs = [u] ∧ u.live = true ∧
      u.ready = true ∧ s.memOk = true ∧ u.early = [y] ∧ y.seq = (u.seq + 1) % 2 ^ 32 ∧ y.bytes = [b] ∧ y.mark = none ∧
      u.offsetOf y.addr = some off) ∧
    (∃ (w : EWord) (s : State) (th : Thread) (u : Sub), Solo (.unsubscr w) s th ∧ noQueueDest (.unsubscr w) th ∧
      s.noFollowers th.tid ∧ th.unf = [] ∧ (s.core th.tid.core).subs = [u] ∧ u.handle = (engEntry (.unsubscr w) s
      th).w 0 ∧ u.slot = th.slot ∧ u.early = [] ∧ (∀ c ∈ s.cores, c.red = [])) :=
  ⟨⟨ew 2 4 6 8, lone (regs [(4, 0x3000), (6, 128), (8, 0x400)]) (st0), (regs [(4, 0x3000), (6, 128), (8, 0x400)]),
      0x3000, _, rfl, _, rfl, _, rfl, _, rfl, _, rfl, solo_of (by decide +kernel), calm_of (by decide +kernel),
      by decide +kernel⟩,
    ⟨ew 2 4 6 8, lone (regs [(4, 0x3000), (6, 128), (8, 0x400)]) (onCore (fun c =>
      { c with subs := (List.range 8).map fun h => { subOf h with mirror := 0x2000, parts := [{ pa := 0x8000, off := 0, len := 128 }] } })),
      (regs [(4, 0x3000), (6, 128), (8, 0x400)]), 0x3000, _, rfl, _, rfl, _, rfl, _, rfl, _, rfl, _, rfl, solo_of
      (by decide +kernel), noQ_of (by decide +kernel), follow_of (by decide +kernel), by decide +kernel⟩,
    ⟨ew 2 4 6 8, lone
      { th0 with wait := .eng .entry, unf := [{ ent ((encode (.subscr (ew 2 4 6 8))).getD 0) [0x3000, 0, 128, 0x400] [.v 2] with parks := true, tag := 3, aux := [3] }] }
      (poke 0x3000 128 (2^1000+7) { st0 with cores := [{ id := 0, subs := [{ subOf 3 with slot := th0.slot }] }] }),
      { th0 with wait := .eng .entry, unf := [{ ent ((encode (.subscr (ew 2 4 6 8))).getD 0) [0x3000, 0, 128, 0x400] [.v 2] with parks := true, tag := 3, aux := [3] }] },
      { ent ((encode (.subscr (ew 2 4 6 8))).getD 0) [0x3000, 0, 128, 0x400] [.v 2] with parks := true, tag := 3, aux := [3] },
      { id := 0, subs := [{ subOf 3 with slot := th0.slot }] }, { subOf 3 with slot := th0.slot }, 0x3000, parked_of
      (by decide +kernel), by decide +kernel⟩,
    ⟨{ poke 0x3000 128 (2^1000+7) st0 with cores := [{ id := 0, subs := [{ subOf 3 with ready := true, seq := 7, early := [subUpd 9] }] }] },
      { id := 0, subs := [{ subOf 3 with ready := true, seq := 7, early := [subUpd 9] }] },
      { subOf 3 with ready := true, seq := 7, early := [subUpd 9] }, by decide +kernel⟩,
    ⟨{ poke 0x3000 128 (2^1000+7) st0 with cores := [{ id := 0, subs := [{ subOf 3 with ready := true, seq := 0xFFFFFFFF, early := [subUpd 0] }] }] },
      { id := 0, subs := [{ subOf 3 with ready := true, seq := 0xFFFFFFFF, early := [subUpd 0] }] },
      { subOf 3 with ready := true, seq := 0xFFFFFFFF, early := [subUpd 0] }, subUpd 0, 0x5A, 0x10, by decide +kernel⟩,
    ⟨ew 2 4, lone (regs [(4, 3)]) (onCore (fun c =>
      { c with subs := [{ subOf 3 with slot := th0.slot, live := true }] })), (regs [(4, 3)]),
      { subOf 3 with slot := th0.slot, live := true }, solo_of (by decide +kernel), noQ_of (by decide +kernel),
      follow_of (by decide +kernel), by decide +kernel⟩⟩

/-- The hypotheses of `VaultWaysAreCarved` can be met. -/
theorem test_wit_vaultWaysAreCarved :
    (∃ (w : EWord) (s : State) (th : Thread), ∃ x, x = s.die (dieOf th.tid.core) ∧ Solo (.carve w) s th ∧ noQueueDest
      (.carve w) th ∧ s.noFollowers th.tid ∧ th.unf = [] ∧ x.carve.isSome = true) ∧
    (∃ (w : EWord) (s : State) (th : Thread), ∃ x, x = s.die (dieOf th.tid.core) ∧ ∃ m, m = (engEntry (.carve w) s th).w 0
      ∧ Solo (.carve w) s th ∧ noQueueDest (.carve w) th ∧ s.noFollowers th.tid ∧ th.unf = [] ∧ x.carve = none ∧ (2 ^
      20 ≤ m ∨ 16 < popCount m)) ∧
    (∃ (w : EWord) (s : State) (th : Thread), ∃ x, x = s.die (dieOf th.tid.core) ∧ ∃ m, m = (engEntry (.carve w) s th).w 0
      ∧ Solo (.carve w) s th ∧ noQueueDest (.carve w) th ∧ s.noFollowers th.tid ∧ th.unf = [] ∧ x.carve = none ∧ m < 2
      ^ 20 ∧ popCount m ≤ 16) ∧
    (∃ (s : State) (d : Nat), s.carveDrained d = false) ∧
    (∃ (w : EWord) (s : State) (th : Thread) (e : Entry) (d : Nat) (c : CarveOp), ParkedOn s th e (.carve w) ∧ e.aux = [1]
      ∧ s.carveDrained d = true ∧ (s.die d).carve = some c ∧ c.lead = th.tid ∧ dieOf th.tid.core = d ∧ s.memOk = true) :=
  ⟨⟨ew 2 4, lone (regs [(4, 0xFF)])
      ({ st0 with drvpasid := 0x80000001, dies := [{ id := 0, carve := some { new := 0xFF, lead := th0.tid } }] }),
      (regs [(4, 0xFF)]), _, rfl, solo_of (by decide +kernel), noQ_of (by decide +kernel), follow_of
      (by decide +kernel), by decide +kernel⟩,
    ⟨ew 2 4, lone (regs [(4, 0x1FFFF)]) (({ st0 with drvpasid := 0x80000001 })), (regs [(4, 0x1FFFF)]), _, rfl, _, rfl,
      solo_of (by decide +kernel), noQ_of (by decide +kernel), follow_of (by decide +kernel), by decide +kernel⟩,
    ⟨ew 2 4, lone (regs [(4, 0xFFFF)]) (({ st0 with drvpasid := 0x80000001 })), (regs [(4, 0xFFFF)]), _, rfl, _, rfl,
      solo_of (by decide +kernel), noQ_of (by decide +kernel), follow_of (by decide +kernel), by decide +kernel⟩,
    ⟨st0, 0, by decide +kernel⟩,
    ⟨ew 2 4, lone
      { th0 with wait := .eng .entry, unf := [{ ent ((encode (.carve (ew 2 4))).getD 0) [0xFF] [.v 2] with parks := true, tag := 3, aux := [1] }] }
      (poke (vaultBase 0) 8 77 (poke 0x3000 4 9
      { st0 with dies := [{ id := 0, mask := 0xF00, carve := some { new := 0xFF, lead := th0.tid } }] })),
      { th0 with wait := .eng .entry, unf := [{ ent ((encode (.carve (ew 2 4))).getD 0) [0xFF] [.v 2] with parks := true, tag := 3, aux := [1] }] },
      { ent ((encode (.carve (ew 2 4))).getD 0) [0xFF] [.v 2] with parks := true, tag := 3, aux := [1] }, 0,
      { new := 0xFF, lead := th0.tid }, parked_of (by decide +kernel), by decide +kernel⟩⟩

/-- The hypotheses of `MessagesReachTheirRings` can be met. -/
theorem test_wit_messagesReachTheirRings :
    (∃ (w : EWord) (s : State) (th : Thread), ∃ x, x = s.eng th.tid.core th.slot ∧ ∃ e, e = engEntry (.msend w) s th ∧ ∃
      a, a = (e.d 0).toNat ∧ ∃ o, o = e.w 2 ∧ ∃ n, n = e.w 3 ∧ ∃ c, c = s.core th.tid.core ∧ Solo (.msend w) s th ∧
      EngCalm s ∧ th.unf = [] ∧ a / 2 ^ 41 = 0 ∧ a % 2 ^ 32 < 8 ∧ n % 4 = 0 ∧ 4 ≤ n ∧ n ≤ 248 ∧ o + n ≤ x.size ∧ o % 4
      = 0 ∧ c.sendBuf.length < 16 ∧ s.cleanSpan (x.spa o) n) ∧
    (∃ (s : State) (core : Nat) (idx : Nat) (m : Msg), (s.core core).sendable idx = some m ∧ s.msgReady m = false) ∧
    (∃ (s : State) (core : Nat) (idx : Nat) (m : Msg), ∃ launchOf, launchOf = (fun (r : Ring) => ((s.team? m.dst
      r.slot).bind fun tm => s.launch? tm.lslot).map Launch.order) ∧ (s.core core).sendable idx = some m ∧ s.msgReady
      m = true ∧ s.memOk = true ∧ (m.rel = false ∨ ((s.core core).red = [] ∧ (s.core core).l1 = [])) ∧ (∀ r, s.ring?
      m.dst m.ring = some r → launchOf r ≠ some m.order)) ∧
    (∃ (s : State) (core : Nat) (idx : Nat) (m : Msg) (r : Ring), ∃ launchOf, launchOf = (fun (r : Ring) => ((s.team?
      m.dst r.slot).bind fun tm => s.launch? tm.lslot).map Launch.order) ∧ ∃ h, h = r.at_ m.dst ∧ ∃ tail, tail =
      s.value h 4 ∧ ∃ used, used = (tail + 2 ^ 32 - s.value (h + 4) 4) % 2 ^ 32 ∧ (s.core core).sendable idx = some m
      ∧ s.msgReady m = true ∧ s.memOk = true ∧ (m.rel = false ∨ ((s.core core).red = [] ∧ (s.core core).l1 = [])) ∧
      s.ring? m.dst m.ring = some r ∧ launchOf r = some m.order ∧ used ≠ 2 ^ r.logn) ∧
    (∃ (s : State) (core : Nat) (idx : Nat) (m : Msg) (r : Ring), ∃ launchOf, launchOf = (fun (r : Ring) => ((s.team?
      m.dst r.slot).bind fun tm => s.launch? tm.lslot).map Launch.order) ∧ ∃ h, h = r.at_ m.dst ∧ ∃ tail, tail =
      s.value h 4 ∧ ∃ used, used = (tail + 2 ^ 32 - s.value (h + 4) 4) % 2 ^ 32 ∧ (s.core core).sendable idx = some m
      ∧ s.msgReady m = true ∧ s.memOk = true ∧ (m.rel = false ∨ ((s.core core).red = [] ∧ (s.core core).l1 = [])) ∧
      s.ring? m.dst m.ring = some r ∧ launchOf r = some m.order ∧ used = 2 ^ r.logn ∧ m.counted = false) ∧
    (∃ (s : State) (core : Nat) (idx : Nat) (m : Msg) (r : Ring), ∃ launchOf, launchOf = (fun (r : Ring) => ((s.team?
      m.dst r.slot).bind fun tm => s.launch? tm.lslot).map Launch.order) ∧ ∃ h, h = r.at_ m.dst ∧ ∃ tail, tail =
      s.value h 4 ∧ ∃ used, used = (tail + 2 ^ 32 - s.value (h + 4) 4) % 2 ^ 32 ∧ (s.core core).sendable idx = some m
      ∧ s.msgReady m = true ∧ s.memOk = true ∧ (m.rel = false ∨ ((s.core core).red = [] ∧ (s.core core).l1 = [])) ∧
      s.ring? m.dst m.ring = some r ∧ launchOf r = some m.order ∧ used = 2 ^ r.logn ∧ m.counted = true) ∧
    (∃ (w : EWord) (s : State) (th : Thread), ∃ x, x = s.eng th.tid.core th.slot ∧ ∃ i, i = w.o1.toNat % 8 ∧ ∃ k, k =
      w.o3.toNat % 16 ∧ ∃ o, o = (engEntry (.ringset w) s th).w 0 ∧ Solo (.ringset w) s th ∧ s.noFollowers th.tid ∧
      th.unf = [] ∧ s.memOk = true ∧ w.fl = false ∧ s.ring? th.tid.core i = none ∧ o % 64 = 0 ∧ o + 64 + 256 * 2 ^ k ≤
      x.size ∧ s.protectedSpan th.tid.core (x.base + o) (64 + 256 * 2 ^ k) = false) ∧
    (∃ (w : EWord) (s : State) (th : Thread) (r : _), ∃ i, i = w.o1.toNat % 8 ∧ Solo (.ringset w) s th ∧ s.noFollowers
      th.tid ∧ th.unf = [] ∧ s.memOk = true ∧ w.fl = true ∧ s.ring? th.tid.core i = some r ∧ r.slot = th.slot) ∧
    (∃ (w : EWord) (s : State) (th : Thread) (r : Ring), ∃ h, h = r.at_ th.tid.core ∧ ∃ c, c = (engEntry (.ringadv w) s
      th).w 0 ∧ Solo (.ringadv w) s th ∧ s.noFollowers th.tid ∧ th.unf = [] ∧ s.memOk = true ∧ s.ring? th.tid.core
      (w.o1.toNat % 8) = some r ∧ r.slot = th.slot ∧ c ≤ (s.value h 4 + 2 ^ 32 - s.value (h + 4) 4) % 2 ^ 32) :=
  ⟨⟨ew 4 6 8, lone (regs [(4, 2), (5, 3), (6, 0x100), (8, 248)]) (poke (2^42+0x104) 8 0x1234567 st0), (regs [(4, 2), (5,
      3), (6, 0x100), (8, 248)]), _, rfl, _, rfl, _, rfl, _, rfl, _, rfl, _, rfl, solo_of (by decide +kernel), calm_of
      (by decide +kernel), by decide +kernel⟩,
    ⟨{ onCore (fun c => { c with sendBuf := [{ msg0 with after := [(th0.tid, 3)] }] }) with threads := [{ th0 with unf := [{ storeEnt with tag := 3 }] }] },
      0, 0, { msg0 with after := [(th0.tid, 3)] }, by decide +kernel⟩,
    ⟨poke (2 ^ 42 + 0x800) 4 0x10003 (poke (2 ^ 42 + 0x804) 4 0 (onCore (fun c =>
      { c with rings := [], sendBuf := [msg0] }))), 0, 0, msg0, _, rfl, by decide +kernel⟩,
    ⟨poke (2 ^ 42 + 0x800) 4 0x10003 (poke (2 ^ 42 + 0x804) 4 0x10003 (onCore (fun c =>
      { c with rings := [ring0], sendBuf := [msg0] }))), 0, 0, msg0, ring0, _, rfl, _, rfl, _, rfl, _, rfl,
      by decide +kernel⟩,
    ⟨poke (2 ^ 42 + 0x800) 4 0x10003 (poke (2 ^ 42 + 0x804) 4 0xFFFF (onCore (fun c =>
      { c with rings := [ring0], sendBuf := [msg0] }))), 0, 0, msg0, ring0, _, rfl, _, rfl, _, rfl, _, rfl,
      by decide +kernel⟩,
    ⟨poke (2 ^ 42 + 0x800) 4 0x10003 (poke (2 ^ 42 + 0x804) 4 0xFFFF (onCore (fun c =>
      { c with rings := [ring0], sendBuf := [{ msg0 with counted := true }] }))), 0, 0, { msg0 with counted := true },
      ring0, _, rfl, _, rfl, _, rfl, _, rfl, by decide +kernel⟩,
    ⟨ew 3 4 2, lone (regs [(4, 0x800)]) (poke (2^42+0x800) 64 (2^500+1) st0), (regs [(4, 0x800)]), _, rfl, _, rfl, _, rfl,
      _, rfl, solo_of (by decide +kernel), follow_of (by decide +kernel), by decide +kernel⟩,
    ⟨(ew 2 4 2 0 0 true), lone (regs [(4, 0)]) (onCore (fun c => { c with rings := [ring0] })), (regs [(4, 0)]), ring0, _,
      rfl, solo_of (by decide +kernel), follow_of (by decide +kernel), by decide +kernel⟩,
    ⟨ew 2 4, lone (regs [(4, 0)]) (poke (2 ^ 42 + 0x800) 4 0x10003 (poke (2 ^ 42 + 0x804) 4 0x10000 (onCore (fun c =>
      { c with rings := [ring0], sendBuf := [msg0] })))), (regs [(4, 0)]), ring0, _, rfl, _, rfl, solo_of
      (by decide +kernel), follow_of (by decide +kernel), by decide +kernel⟩⟩

/-- The hypotheses of `TheHostReachesMemory` can be met. -/
theorem test_wit_theHostReachesMemory :
    (∃ (s : State) (addr : Nat) (op : HostOp), 0 < HostOp.size op ∧ addr + HostOp.size op ≤ 2 ^ 40 ∧ (s.thermTrip = true ∨
      s.sec.locked = true)) ∧
    (∃ (s : State) (addr : Nat) (op : HostOp), 0 < HostOp.size op ∧ addr + HostOp.size op ≤ 2 ^ 40 ∧ s.thermTrip = false ∧
      s.sec.locked = false ∧ (∀ c ∈ s.cores, c.red = [] ∧ c.subs = []) ∧ s.memOk = true) ∧
    (∃ (s : State) (off : Nat) (op : HostOp), 0 < HostOp.size op ∧ off + HostOp.size op ≤ 64 ∧ (∀ c ∈ s.cores, c.red = []
      ∧ c.subs = []) ∧ s.memOk = true) ∧
    (∃ (s : State) (line : Nat), (∀ h ∈ s.hlc, h.line ≠ line)) ∧
    (∃ (s : State) (line : Nat) (h : _), s.hlc = [h] ∧ h.line = line) ∧
    (∃ (s : State), s.colls = []) ∧
    (∃ (addr : Nat), (isDevice addr = true ∨ isVault addr = true)) :=
  ⟨⟨{ st0 with thermTrip := true }, 0x3000, .read 4, by decide +kernel⟩,
    ⟨poke 0x3000 4 9 st0, 0x3000, .read 4, by decide +kernel⟩,
    ⟨{ poke (hostBase + 0x40) 4 9 st0 with hlc := [{ line := 1, own := true }] }, 0, .read 4, by decide +kernel⟩,
    ⟨st0, 4, by decide +kernel⟩,
    ⟨{ st0 with hlc := [{ line := 1, own := true }] }, 1, { line := 1, own := true }, by decide +kernel⟩,
    ⟨{ st0 with hostHeld := [4, 5, 6], bisnp := [5] }, by decide +kernel⟩,
    ⟨0x3003, by decide +kernel⟩⟩

/-- The hypotheses of `HostLinesAndInvalidations` can be met. -/
theorem test_wit_hostLinesAndInvalidations :
    (∃ (s : State) (line : Nat), (∀ x ∈ s.hlcReq, x.line ≠ line)) ∧
    (∃ (s : State) (line : Nat), ∃ others, others = (s.hlc.filter fun x => x.line ≠ line) ∧ ∃ inSet, inSet = (fun (k :
      Nat) (ls : List HlcLine) => (ls.filter fun y => y.line % 32768 = k).length) ∧ (∃ x ∈ s.hlcReq, x.line = line) ∧
      s.threads = [] ∧ s.cores = [] ∧ s.colls = [] ∧ inSet (line % 32768) others ≤ 15) ∧
    (∃ (s : State) (line : Nat), (∃ x ∈ s.hlcReq, x.line = line) ∧ s.threads = [] ∧ s.cores = [] ∧ s.colls = []) ∧
    (∃ (s : State) (line : Nat) (th : Thread) (e : Entry), (∃ x ∈ s.hlcReq, x.line = line) ∧ s.threads = [th] ∧ th.unf =
      [e] ∧ e.line = some line ∧ e.st = 0 ∧ e.queued = false ∧ e.page = none ∧ e.val = none ∧ e.dst.all RegRef.isV =
      true ∧ e.isPrefetch = false ∧ th.fetchLine = none ∧ th.pending = none ∧ th.halt = none ∧ th.idle = false ∧
      th.handler = false ∧ s.hasHandler th = true ∧ s.cores = []) ∧
    (∃ (s : State) (k : CoreSt) (u : Sub), s.cores = [k] ∧ k.subs = [u] ∧ s.invals.length < 32) ∧
    (∃ (s : State), s.invals = []) ∧
    (∃ (s : State) (x : _) (rest : _), s.invals = x :: rest ∧ (∀ c ∈ s.cores, c.red = [] ∧ c.l1 = [])) :=
  ⟨⟨st0, 7, by decide +kernel⟩,
    ⟨{ st0 with threads := [], cores := [], hlcReq := [{ line := 7, own := true }, { line := 8, own := false }], hlc := [{ line := 3, own := true }] },
      7, _, rfl, _, rfl, by decide +kernel⟩,
    ⟨{ st0 with threads := [], cores := [], hlcReq := [{ line := 7, own := true }, { line := 8, own := false }], hlc := [{ line := 3, own := true }] },
      7, by decide +kernel⟩,
    ⟨lone
      { th0 with unf := [{ ent ((encode (.ld (mw 2 4 0 0))).getD 0) [0x3000, 0] [.v 2] with tag := 2, line := some 7 }] }
      { st0 with cores := [], hlcReq := [{ line := 7, own := false }] }, 7,
      { th0 with unf := [{ ent ((encode (.ld (mw 2 4 0 0))).getD 0) [0x3000, 0] [.v 2] with tag := 2, line := some 7 }] },
      { ent ((encode (.ld (mw 2 4 0 0))).getD 0) [0x3000, 0] [.v 2] with tag := 2, line := some 7 },
      by decide +kernel⟩,
    ⟨{ st0 with cores := [{ id := 0, subs := [{ subOf 3 with early := [subUpd 1] }] }] },
      { id := 0, subs := [{ subOf 3 with early := [subUpd 1] }] }, { subOf 3 with early := [subUpd 1] },
      by decide +kernel⟩,
    ⟨st0, by decide +kernel⟩,
    ⟨{ st0 with invals := [{ pages := [(1, 3)] }] }, { pages := [(1, 3)] }, [], by decide +kernel⟩⟩

/-- The hypotheses of `DispatcherWordsWork` can be met. -/
theorem test_wit_dispatcherWordsWork :
    (∃ (w : EWord) (s : State) (th : Thread) (pa : Nat), ∃ q, q = w.o3.toNat % 64 ∧ ∃ x, x = s.queue q ∧ ∃ a, a =
      (engEntry (.launch w) s th).d 0 ∧ ∃ pasid, pasid = s.pasidOf th.lslot ∧ Solo (.launch w) s th ∧ noQueueDest
      (.launch w) th ∧ s.noFollowers th.tid ∧ EngCalm s ∧ th.unf = [] ∧ (s.core th.tid.core).ranges = [] ∧ a.toNat %
      256 = 0 ∧ canonical a.toNat = true ∧ pasid < 2 ^ 20 ∧ s.trans (.core th.tid.core) pasid a.toNat .read = .ok pa ∧
      pa + 256 ≤ 2 ^ 42 ∧ s.cleanSpan pa 256 ∧ (x.enabled = false ∨ x.progen = false)) ∧
    (∃ (w : EWord) (s : State) (th : Thread) (pa : Nat), ∃ q, q = w.o3.toNat % 64 ∧ ∃ x, x = s.queue q ∧ ∃ a, a =
      (engEntry (.launch w) s th).d 0 ∧ ∃ pasid, pasid = s.pasidOf th.lslot ∧ Solo (.launch w) s th ∧ noQueueDest
      (.launch w) th ∧ s.noFollowers th.tid ∧ EngCalm s ∧ th.unf = [] ∧ (s.core th.tid.core).ranges = [] ∧ a.toNat %
      256 = 0 ∧ canonical a.toNat = true ∧ pasid < 2 ^ 20 ∧ s.trans (.core th.tid.core) pasid a.toNat .read = .ok pa ∧
      pa + 256 ≤ 2 ^ 42 ∧ s.cleanSpan pa 256 ∧ x.enabled = true ∧ x.progen = true ∧ x.count = 2 ^ x.logsz) ∧
    (∃ (w : EWord) (s : State) (th : Thread) (pa : Nat), ∃ q, q = w.o3.toNat % 64 ∧ ∃ x, x = s.queue q ∧ ∃ a, a =
      (engEntry (.launch w) s th).d 0 ∧ ∃ pasid, pasid = s.pasidOf th.lslot ∧ ∃ slot, slot = x.slotAt x.tail.toNat ∧
      Solo (.launch w) s th ∧ noQueueDest (.launch w) th ∧ s.noFollowers th.tid ∧ EngCalm s ∧ th.unf = [] ∧ (s.core
      th.tid.core).ranges = [] ∧ a.toNat % 256 = 0 ∧ canonical a.toNat = true ∧ pasid < 2 ^ 20 ∧ s.trans (.core
      th.tid.core) pasid a.toNat .read = .ok pa ∧ pa + 256 ≤ 2 ^ 42 ∧ s.cleanSpan pa 256 ∧ x.undef = false ∧ x.enabled
      = true ∧ x.progen = true ∧ x.count ≠ 2 ^ x.logsz ∧ slot + 256 ≤ 2 ^ 40) ∧
    (∃ (w : EWord) (s : State) (th : Thread) (tm : Team) (l : Launch), s.noFollowers th.tid ∧ OneLaunch s l ∧ Solo (.itemq
      w) s th ∧ noQueueDest (.itemq w) th ∧ th.unf = [] ∧ s.teams.filter (fun x => x.core = th.tid.core && x.slot =
      th.slot) = [tm] ∧ tm.lslot = th.lslot ∧ l.slot = th.lslot) ∧
    (∃ (w : EWord) (s : State) (th : Thread) (tm : Team) (l : Launch), s.noFollowers th.tid ∧ OneLaunch s l ∧ Solo (.drain
      w) s th ∧ th.unf = [] ∧ s.teams.filter (fun x => x.core = th.tid.core && x.slot = th.slot) = [tm] ∧ tm.lslot =
      th.lslot ∧ l.slot = th.lslot) ∧
    (∃ (w : EWord) (s : State) (th : Thread) (tg : Target), ∃ e, e = engEntry (.ccadd w) s th ∧ Solo (.ccadd w) s th ∧
      CalmAccess s th ∧ EngCalm s ∧ s.targetOf th
      { kind := .rmw 0, space := 0, ty := .b64, order := .rel, scope := .sys } (e.d 0) = some tg ∧ s.cleanSpan tg.pa
      8) :=
  ⟨⟨ew 2 4 3, lone (regs [(4, 0x3000)]) ({ poke 0x3000 256 recRaw st0 with queues := [queueOf false 1 0] }), (regs [(4,
      0x3000)]), 0x3000, _, rfl, _, rfl, _, rfl, _, rfl, solo_of (by decide +kernel), noQ_of (by decide +kernel),
      follow_of (by decide +kernel), calm_of (by decide +kernel), by decide +kernel⟩,
    ⟨ew 2 4 3, lone (regs [(4, 0x3000)]) ({ poke 0x3000 256 recRaw st0 with queues := [queueOf true 4 0xFFFFFFFE] }),
      (regs [(4, 0x3000)]), 0x3000, _, rfl, _, rfl, _, rfl, _, rfl, solo_of (by decide +kernel), noQ_of
      (by decide +kernel), follow_of (by decide +kernel), calm_of (by decide +kernel), by decide +kernel⟩,
    ⟨ew 2 4 3, lone (regs [(4, 0x3000)]) ({ poke 0x3000 256 recRaw st0 with queues := [queueOf true 3 0xFFFFFFFE] }),
      (regs [(4, 0x3000)]), 0x3000, _, rfl, _, rfl, _, rfl, _, rfl, _, rfl, solo_of (by decide +kernel), noQ_of
      (by decide +kernel), follow_of (by decide +kernel), calm_of (by decide +kernel), by decide +kernel⟩,
    ⟨(ew 2 0 0 0 0 true), lone th0 (onTeam (fun y => { y with batch := [3, 4] })), th0, { tm0 with batch := [3, 4] },
      Loader.launch, follow_of (by decide +kernel), launch_of (by decide +kernel), solo_of (by decide +kernel), noQ_of
      (by decide +kernel), by decide +kernel⟩,
    ⟨(ew 0 0 0 0 0 true), lone th0 (onTeam (fun y => { y with batch := [3, 4] })), th0, { tm0 with batch := [3, 4] },
      Loader.launch, follow_of (by decide +kernel), launch_of (by decide +kernel), solo_of (by decide +kernel),
      by decide +kernel⟩,
    ⟨ew 4 6, lone (regs [(4, 0x3000), (6, 0xFFFFFFFF)]) (poke 0x3000 8 0xFFFFFFFFFFFFFFFE st0), (regs [(4, 0x3000), (6,
      0xFFFFFFFF)]), { pa := 0x3000, place := .device }, _, rfl, solo_of (by decide +kernel), access_of
      (by decide +kernel), calm_of (by decide +kernel), by decide +kernel⟩⟩

/-- The hypotheses of `LaunchQueuesTakeRecords` can be met. -/
theorem test_wit_launchQueuesTakeRecords :
    (∃ (s : State) (q : Nat), ∃ x, x = s.queue q ∧ (s.queue q).undef = false ∧ x.progen = true) ∧
    (∃ (s : State) (q : Nat) (v : Word), ∃ x, x = s.queue q ∧ (s.queue q).undef = false ∧ x.progen = false ∧ (v -
      x.tail).toNat ≤ 2 ^ x.logsz ∧ (v - x.head).toNat ≤ 2 ^ x.logsz) ∧
    (∃ (s : State) (q : Nat) (v : Word), ∃ x, x = s.queue q ∧ (s.queue q).undef = false ∧ x.progen = false ∧ (2 ^ x.logsz
      < (v - x.tail).toNat ∨ 2 ^ x.logsz < (v - x.head).toNat)) ∧
    (∃ (s : State) (q : Nat), ∃ x, x = s.queue q ∧ (s.queue q).undef = false ∧ x.busy = true) ∧
    (∃ (s : State) (q : Nat), ∃ x, x = s.queue q ∧ (s.queue q).undef = false ∧ x.busy = false) ∧
    (∃ (s : State) (q : Nat), ∃ x, x = s.queue q ∧ (s.queue q).undef = false ∧ x.busy = true ∧ x.enabled = false) ∧
    (∃ (s : State) (q : Nat), ∃ x, x = s.queue q ∧ (s.queue q).undef = false ∧ x.busy = true ∧ x.enabled = true ∧ 2 ^
      x.logsz ≤ x.count) ∧
    (∃ (s : State) (q : Nat), ∃ x, x = s.queue q ∧ EngCalm s ∧ (s.queue q).undef = false ∧ x.busy = true ∧ x.enabled =
      true ∧ x.count < 2 ^ x.logsz ∧ DeviceSpan s x.qpush.toNat 256 ∧ x.slotAt x.tail.toNat + 256 ≤ 2 ^ 40) ∧
    (∃ (s : State) (q : Nat), (s.queue q).undef = false ∧ s.mayTake q = false) ∧
    (∃ (s : State) (q : Nat), ∃ x, x = s.queue q ∧ ∃ b, b = s.value (x.slotAt x.head.toNat) 256 ∧ ∃ rc, rc = parseRecord b
      ∧ EngCalm s ∧ (s.queue q).undef = false ∧ s.mayTake q = true ∧ s.launch? 0 = none ∧ DeviceSpan s (x.slotAt
      x.head.toNat) 256 ∧ rc.serial = true ∧ s.lastEnded q = false) ∧
    (∃ (s : State) (q : Nat), ∃ x, x = s.queue q ∧ ∃ b, b = s.value (x.slotAt x.head.toNat) 256 ∧ ∃ rc, rc = parseRecord b
      ∧ EngCalm s ∧ (s.queue q).undef = false ∧ s.mayTake q = true ∧ s.launch? 0 = none ∧ DeviceSpan s (x.slotAt
      x.head.toNat) 256 ∧ (rc.serial = false ∨ s.lastEnded q = true)) :=
  ⟨⟨poke 0x3000 256 recRaw (stQueue (queueOf true 1 0)), 3, _, rfl, by decide +kernel⟩,
    ⟨poke 0x3000 256 recRaw (stQueue (queueOf false 1 0)), 3, 4, _, rfl, by decide +kernel⟩,
    ⟨poke 0x3000 256 recRaw (stQueue (queueOf false 1 0)), 3, 5, _, rfl, by decide +kernel⟩,
    ⟨poke 0x3000 256 recRaw (stQueue { queueOf true 1 0 with busy := true }), 3, _, rfl, by decide +kernel⟩,
    ⟨poke 0x3000 256 recRaw (stQueue (queueOf true 1 0)), 3, _, rfl, by decide +kernel⟩,
    ⟨poke 0x3000 256 recRaw (stQueue ({ queueOf true 1 0 with busy := true, qctl := 8 })), 3, _, rfl, by decide +kernel⟩,
    ⟨poke 0x3000 256 recRaw (stQueue ({ queueOf true 4 0 with busy := true })), 3, _, rfl, by decide +kernel⟩,
    ⟨poke 0x3000 256 recRaw (stQueue ({ queueOf true 1 0 with busy := true, qpush := 0x3000 })), 3, _, rfl, calm_of
      (by decide +kernel), by decide +kernel⟩,
    ⟨poke 0x3000 256 recRaw (stQueue (queueOf true 0 0)), 3, by decide +kernel⟩,
    ⟨poke 0x4100 256 (recRaw + 2 ^ 0x120)
      { stQueue { queueOf true 1 1 with lastOrd := 6 } with launches := [{ waiting with order := 6 }] }, 3, _, rfl, _,
      rfl, _, rfl, calm_of (by decide +kernel), by decide +kernel⟩,
    ⟨poke 0x4100 256 (recRaw) { stQueue { queueOf true 1 1 with lastOrd := 0 } with launches := [] }, 3, _, rfl, _, rfl,
      _, rfl, calm_of (by decide +kernel), by decide +kernel⟩⟩

/-- The hypotheses of `LaunchesBeginAndEnd` can be met. -/
theorem test_wit_launchesBeginAndEnd :
    (∃ (s : State) (l : Launch) (j : Nat) (v : _), ∃ x, x = chipNode l.rcd.pasid ∧ ∃ d, d = (l.rcd.dep[j]?).getD (0, 0) ∧
      OneLaunch s l ∧ EngCalm s ∧ EngSees s x d.1.toNat 8 v ∧ l.phase = .waiting ∧ l.depMet[j]? = some false) ∧
    (∃ (s : State) (l : Launch) (j : Nat), OneLaunch s l ∧ (l.depMet[j]?).getD true = true) ∧
    (∃ (s : State) (l : Launch), OneLaunch s l ∧ (l.mayBegin = false ∨ s.behind l = true)) ∧
    (∃ (s : State) (l : Launch) (b : _), ∃ x, x = chipNode l.rcd.pasid ∧ ∃ d, d = parseDesc b ∧ OneLaunch s l ∧ EngCalm s
      ∧ EngSees s x l.rcd.kdesc.toNat 128 b ∧ (∃ pa, s.trans (.die 0) l.rcd.pasid ((l.rcd.kdesc.toNat + 0x80) % 2 ^
      64) .exec = .ok pa) ∧ l.mayBegin = true ∧ descOk b d = false) ∧
    (∃ (s : State) (l : Launch) (b : _), ∃ x, x = chipNode l.rcd.pasid ∧ ∃ d, d = parseDesc b ∧ OneLaunch s l ∧ EngCalm s
      ∧ EngSees s x l.rcd.kdesc.toNat 128 b ∧ (∃ pa, s.trans (.die 0) l.rcd.pasid ((l.rcd.kdesc.toNat + 0x80) % 2 ^
      64) .exec = .ok pa) ∧ l.mayBegin = true ∧ descOk b d = true ∧ s.placeable l d = true ∧ l.rcd.items ≠ 0 ∧
      l.rcd.cosched = false) ∧
    (∃ (s : State) (l : Launch) (b : _), ∃ x, x = chipNode l.rcd.pasid ∧ ∃ d, d = parseDesc b ∧ OneLaunch s l ∧ EngCalm s
      ∧ EngSees s x l.rcd.kdesc.toNat 128 b ∧ (∃ pa, s.trans (.die 0) l.rcd.pasid ((l.rcd.kdesc.toNat + 0x80) % 2 ^
      64) .exec = .ok pa) ∧ l.mayBegin = true ∧ descOk b d = true ∧ s.placeable l d = true ∧ l.rcd.items = 0) ∧
    (∃ (s : State) (l : Launch), OneLaunch s l ∧ s.mayEnd l = false) ∧
    (∃ (s : State) (l : Launch) (pa : _), ∃ x, x = chipNode l.rcd.pasid ∧ OneLaunch s l ∧ EngCalm s ∧ l.phase = .ending 0
      ∧ l.code < 16 ∧ l.rcd.status ≠ 0 ∧ l.rcd.status.toNat % 8 = 0 ∧ EngReaches s x l.rcd.status.toNat 8 pa ∧
      (l.rcd.cc = 0 ∨ 2 < l.code)) ∧
    (∃ (s : State) (l : Launch) (pa : _) (pc : _), ∃ x, x = chipNode l.rcd.pasid ∧ OneLaunch s l ∧ EngCalm s ∧ l.phase =
      .ending 0 ∧ l.code < 16 ∧ l.rcd.status ≠ 0 ∧ l.rcd.status.toNat % 8 = 0 ∧ EngReaches s x l.rcd.status.toNat 8 pa
      ∧ l.rcd.cc ≠ 0 ∧ l.code ≤ 2 ∧ EngReaches s x l.rcd.cc.toNat 8 pc ∧ (pa + 8 ≤ pc ∨ pc + 8 ≤ pa)) ∧
    (∃ (s : State) (l : Launch) (c : _), OneLaunch s l ∧ l.phase = .running ∧ s.endCode l = some c ∧ l.rcd.status = 0 ∧
      l.rcd.cc = 0) ∧
    (∃ (s : State) (l : Launch), OneLaunch s l ∧ l.expired = false) ∧
    (∃ (s : State) (l : Launch) (th : Thread), OneLaunch s l ∧ (∀ c, th.wait ≠ .eng (.assign c)) ∧ Trappable s th ∧
      l.expired = true ∧ s.threads = [th] ∧ th.lslot = l.slot ∧ th.handler = false ∧ s.hasHandler th = true) ∧
    (∃ (s : State) (l : Launch) (th : Thread), OneLaunch s l ∧ (∀ c, th.wait ≠ .eng (.assign c)) ∧ l.expired = true ∧
      s.threads = [th] ∧ th.lslot = l.slot ∧ th.idle = false ∧ s.hasHandler th = false) :=
  ⟨⟨stLaunch waiting (poke 0x3000 8 5 st0), waiting, 0, 5, _, rfl, _, rfl, launch_of (by decide +kernel), calm_of
      (by decide +kernel), sees_of (by decide +kernel), by decide +kernel⟩,
    ⟨stLaunch waiting (st0), waiting, 1, launch_of (by decide +kernel), by decide +kernel⟩,
    ⟨stLaunch waiting (st0), waiting, launch_of (by decide +kernel), by decide +kernel⟩,
    ⟨stLaunch beginning (poke 0x2000 128 (descRaw + 2 ^ 15) st0), beginning, descRaw + 2 ^ 15, _, rfl, _, rfl, launch_of
      (by decide +kernel), calm_of (by decide +kernel), sees_of (by decide +kernel), ⟨0x2080, by decide +kernel⟩,
      by decide +kernel⟩,
    ⟨stLaunch beginning (poke 0x2000 128 descRaw st0), beginning, descRaw, _, rfl, _, rfl, launch_of (by decide +kernel),
      calm_of (by decide +kernel), sees_of (by decide +kernel), ⟨0x2080, by decide +kernel⟩, by decide +kernel⟩,
    ⟨stLaunch { beginning with rcd := { beginning.rcd with items := 0 } } (poke 0x2000 128 descRaw st0),
      { beginning with rcd := { beginning.rcd with items := 0 } }, descRaw, _, rfl, _, rfl, launch_of
      (by decide +kernel), calm_of (by decide +kernel), sees_of (by decide +kernel), ⟨0x2080, by decide +kernel⟩,
      by decide +kernel⟩,
    ⟨stLaunch waiting (st0), waiting, launch_of (by decide +kernel), by decide +kernel⟩,
    ⟨stLaunch (ended 1 0) (st0), (ended 1 0), 0x5000, _, rfl, launch_of (by decide +kernel), calm_of (by decide +kernel),
      by decide +kernel⟩,
    ⟨stLaunch (ended 1 0x5008) (poke 0x5008 8 3 st0), (ended 1 0x5008), 0x5000, 0x5008, _, rfl, launch_of
      (by decide +kernel), calm_of (by decide +kernel), by decide +kernel⟩,
    ⟨stLaunch { running with draining := true } (st0), { running with draining := true }, 2, launch_of
      (by decide +kernel), by decide +kernel⟩,
    ⟨stLaunch running (st0), running, launch_of (by decide +kernel), by decide +kernel⟩,
    ⟨{ stLaunch { running with wdogLim := 50, wdog := 51, desc := some { smallDesc with tv := true } } with threads := [{ th0 with lslot := 2 }] },
      { running with wdogLim := 50, wdog := 51, desc := some { smallDesc with tv := true } }, { th0 with lslot := 2 },
      launch_of (by decide +kernel), noAssign (by decide +kernel), trap_of (by decide +kernel), by decide +kernel⟩,
    ⟨{ stLaunch { running with wdogLim := 50, wdog := 50 } with threads := [{ th0 with lslot := 2 }] },
      { running with wdogLim := 50, wdog := 50 }, { th0 with lslot := 2 }, launch_of (by decide +kernel), noAssign
      (by decide +kernel), by decide +kernel⟩⟩

/-- The hypotheses of `TeamsArePlacedAndRetired` can be met. -/
theorem test_wit_teamsArePlacedAndRetired :
    (∃ (s : State) (l : Launch) (d : Desc) (core : Nat), OneLaunch s l ∧ l.desc = some d ∧ l.rcd.cosched = false ∧
      (l.wantsTeam = false ∨ s.fitsOn l core = false)) ∧
    (∃ (s : State) (l : Launch) (d : Desc) (core : Nat) (p : Spot), OneLaunch s l ∧ l.desc = some d ∧ l.rcd.cosched =
      false ∧ l.wantsTeam = true ∧ s.mayUse l core = true ∧ s.planTeam l d core 0 0 0 = some p ∧ s.choices = [] ∧
      s.memOk = true ∧ s.threads = [] ∧ s.teams = [] ∧ s.groups = [] ∧ s.quarters = [] ∧ d.teamSize = d.gw ∧ 0 < d.gw
      ∧ l.returned = [] ∧ l.next + d.teamSize ≤ l.rcd.items ∧ (s.core core).l1 = []) ∧
    (∃ (s : State) (l : Launch) (tm : Team), OneLaunch s l ∧ s.teams = [tm] ∧ tm.lslot = l.slot ∧ s.mayRetire tm = false) ∧
    (∃ (s : State) (l : Launch) (tm : Team), OneLaunch s l ∧ EngCalm s ∧ s.teams = [tm] ∧ tm.lslot = l.slot ∧ s.mayRetire
      tm = true ∧ flag (s.die (dieOf tm.core)).cgate.toNat (tm.core % 32) = false) :=
  ⟨⟨stLaunch { running with draining := true } (st0), { running with draining := true }, smallDesc, 5, launch_of
      (by decide +kernel), by decide +kernel⟩,
    ⟨stLaunch running (poke 0x2000 128 descRaw st0), running, smallDesc, 5, ((stLaunch running).planTeam running smallDesc
      5 0 0 0).getD Loader.spot, launch_of (by decide +kernel), by decide +kernel⟩,
    ⟨{ stLaunch running with teams := [smallTeam], threads := [{ idleTh with idle := false }] }, running, smallTeam,
      launch_of (by decide +kernel), by decide +kernel⟩,
    ⟨{ stLaunch running with teams := [smallTeam], threads := [idleTh], groups := [Group.fresh running Loader.spot 0] },
      running, smallTeam, launch_of (by decide +kernel), calm_of (by decide +kernel), by decide +kernel⟩⟩

/-- The hypotheses of `LaunchCommandsAct` can be met. -/
theorem test_wit_launchCommandsAct :
    (∃ (s : State) (l : Launch), OneLaunch s l) ∧
    (∃ (s : State) (l : Launch), OneLaunch s l ∧ l.phase = .running ∧ s.colls = [] ∧ (∀ th ∈ s.threads, th.unf = [])) ∧
    (∃ (s : State) (l : Launch) (k : _), OneLaunch s l ∧ l.phase = .ending k) :=
  ⟨⟨{ stLaunch running with teams := [smallTeam], threads := [idleTh] }, running, launch_of (by decide +kernel)⟩,
    ⟨{ stLaunch running with teams := [smallTeam], threads := [{ th0 with lslot := 2 }, { th0 with lslot := 2, wait := .rng, tid := { th0.tid with lane := 3 } }] },
      running, launch_of (by decide +kernel), by decide +kernel⟩,
    ⟨stLaunch (ended 1 0) (st0), (ended 1 0), 0, launch_of (by decide +kernel), by decide +kernel⟩⟩

/-- The hypotheses of `TeamsAreSavedAndRestored` can be met. -/
theorem test_wit_teamsAreSavedAndRestored :
    (∃ (s : State) (l : Launch) (tm : Team) (share : Bool), OneLaunch s l ∧ s.teams = [tm] ∧ tm.lslot = l.slot ∧ s.saving
      = [(tm.core, tm.slot, share)] ∧ s.enginesSettled tm.core tm.slot = false) ∧
    (∃ (s : State) (l : Launch) (tm : Team) (share : Bool), OneLaunch s l ∧ s.teams = [tm] ∧ tm.lslot = l.slot ∧ s.saving
      = [(tm.core, tm.slot, share)] ∧ s.enginesSettled tm.core tm.slot = true ∧ s.poolRoom (s.imageUnits tm) = false) ∧
    (∃ (s : State) (l : Launch) (tm : Team) (share : Bool), OneLaunch s l ∧ EngCalm s ∧ s.teams = [tm] ∧ tm.lslot = l.slot
      ∧ s.saving = [(tm.core, tm.slot, share)] ∧ s.enginesSettled tm.core tm.slot = true ∧ s.poolRoom (s.imageUnits
      tm) = true ∧ s.images = [] ∧ (∀ th ∈ s.threads, th.unf = [] ∧ th.depth = List.replicate 8 0) ∧ flag (s.die
      (dieOf tm.core)).cgate.toNat (tm.core % 32) = false) ∧
    (∃ (s : State) (l : Launch) (d : Desc) (i : Image) (core : Nat), OneLaunch s l ∧ l.slot = i.lslot ∧ l.desc = some d ∧
      l.rcd.cosched = false ∧ s.images = [i] ∧ s.choices = [] ∧ s.memOk = true ∧ (s.core core).l1 = [] ∧ (s.core
      core).subs = [] ∧ s.restorable i core = false) ∧
    (∃ (s : State) (l : Launch) (d : Desc) (i : Image) (core : Nat) (p : Spot), OneLaunch s l ∧ l.slot = i.lslot ∧ l.desc
      = some d ∧ l.rcd.cosched = false ∧ s.images = [i] ∧ s.choices = [] ∧ s.memOk = true ∧ (s.core core).l1 = [] ∧
      (s.core core).subs = [] ∧ s.imageReady i = true ∧ s.planImage i core 0 0 0 = some p ∧ i.scratch.length =
      i.team.scratch ∧ i.bad = [] ∧ i.copies = [] ∧ i.tiles = [] ∧ i.shads = [] ∧ i.cmds = [] ∧ i.subs = [] ∧ i.rings
      = [] ∧ i.ranges = [] ∧ (∀ th ∈ i.threads, th.unf = [] ∧ th.pending = none ∧ th.reinj = false ∧ th.resumeDue =
      false ∧ th.depth = List.replicate 8 0)) :=
  ⟨⟨{ poke (2 ^ 42 + 3) 4 0x1234567 (stLaunch running) with teams := [smallTeam], threads := [{ th0 with lslot := 2, v := th0.v.set 3 77, item := 6 }], groups := [Group.fresh running Loader.spot 0], saving := [(0, 0, true)], savesize := 0x100000, cores := [{ id := 0, subs := [subOf 3] }] },
      running, smallTeam, true, launch_of (by decide +kernel), by decide +kernel⟩,
    ⟨{ poke (2 ^ 42 + 3) 4 0x1234567 (stLaunch running) with teams := [smallTeam], threads := [{ th0 with lslot := 2, v := th0.v.set 3 77, item := 6 }], groups := [Group.fresh running Loader.spot 0], saving := [(0, 0, true)], savesize := 0 },
      running, smallTeam, true, launch_of (by decide +kernel), by decide +kernel⟩,
    ⟨{ poke (2 ^ 42 + 3) 4 0x1234567 (stLaunch running) with teams := [smallTeam], threads := [{ th0 with lslot := 2, v := th0.v.set 3 77, item := 6 }], groups := [Group.fresh running Loader.spot 0], saving := [(0, 0, true)], savesize := 0x100000 },
      running, smallTeam, true, launch_of (by decide +kernel), calm_of (by decide +kernel), by decide +kernel⟩,
    ⟨{ stLaunch { running with aborted := true } with images := [{ id := 4, die := 0, core := 0, lslot := 2, team := smallTeam, groups := [Group.fresh running Loader.spot 0], threads := [{ th0 with lslot := 2, v := th0.v.set 3 77, item := 6 }], scratch := List.replicate 0x400 7, bad := [], ranges := [], subs := [], rings := [], copies := [], tiles := [], shads := [], cmds := [], share := false, units := 1 }] },
      { running with aborted := true }, smallDesc,
      { id := 4, die := 0, core := 0, lslot := 2, team := smallTeam, groups := [Group.fresh running Loader.spot 0], threads := [{ th0 with lslot := 2, v := th0.v.set 3 77, item := 6 }], scratch := List.replicate 0x400 7, bad := [], ranges := [], subs := [], rings := [], copies := [], tiles := [], shads := [], cmds := [], share := false, units := 1 },
      5, launch_of (by decide +kernel), by decide +kernel⟩,
    ⟨{ stLaunch running with images := [{ id := 4, die := 0, core := 0, lslot := 2, team := smallTeam, groups := [Group.fresh running Loader.spot 0], threads := [{ th0 with lslot := 2, v := th0.v.set 3 77, item := 6 }], scratch := List.replicate 0x400 7, bad := [], ranges := [], subs := [], rings := [], copies := [], tiles := [], shads := [], cmds := [], share := false, units := 1 }] },
      running, smallDesc,
      { id := 4, die := 0, core := 0, lslot := 2, team := smallTeam, groups := [Group.fresh running Loader.spot 0], threads := [{ th0 with lslot := 2, v := th0.v.set 3 77, item := 6 }], scratch := List.replicate 0x400 7, bad := [], ranges := [], subs := [], rings := [], copies := [], tiles := [], shads := [], cmds := [], share := false, units := 1 },
      5,
      (({ stLaunch running with images := [{ id := 4, die := 0, core := 0, lslot := 2, team := smallTeam, groups := [Group.fresh running Loader.spot 0], threads := [{ th0 with lslot := 2, v := th0.v.set 3 77, item := 6 }], scratch := List.replicate 0x400 7, bad := [], ranges := [], subs := [], rings := [], copies := [], tiles := [], shads := [], cmds := [], share := false, units := 1 }] }
      : State).planImage
      ({ id := 4, die := 0, core := 0, lslot := 2, team := smallTeam, groups := [Group.fresh running Loader.spot 0], threads := [{ th0 with lslot := 2, v := th0.v.set 3 77, item := 6 }], scratch := List.replicate 0x400 7, bad := [], ranges := [], subs := [], rings := [], copies := [], tiles := [], shads := [], cmds := [], share := false, units := 1 }
      : Image) 5 0 0 0).getD Loader.spot, launch_of (by decide +kernel), by decide +kernel⟩⟩

/-- The hypotheses of `FeatureCommitTakesTheOfferedSubset` can be met. -/
theorem test_wit_featureCommitTakesTheOfferedSubset :
    (∃ (s : State), s.featDone = false) ∧
    (∃ (s : State), s.featDone = true) :=
  ⟨⟨State.reset, by decide +kernel⟩,
    ⟨{ State.reset with featDone := true }, by decide +kernel⟩⟩

/-- The hypotheses of `PowerSteps` can be met. -/
theorem test_wit_powerSteps :
    (∃ (s : State) (die : _) (g : _) (t : _), (s.die die).pchange.isSome = true ∧ s.second = none ∧ Cand.issue g ∈
      s.candidates ∧ t ∈ g.threads) ∧
    (∃ (s : State) (die : _) (p : _), (s.die die).pchange = some p) ∧
    (∃ (s : State), s.launches = [] ∧ s.teams = []) ∧
    (∃ (s : State) (core : _), (s.core core).ungating = true) :=
  ⟨⟨{ (State.reset.withFetchWord 64 0x0020003008080000) with dies := [{ id := 2, pchange := some 1 }] }, 2,
      ({ core := 0, qtr := 0, lslot := 0, pc := 0x1080, threads := [th0.tid] } : IssueGroup), th0.tid,
      by decide +kernel⟩,
    ⟨{ State.reset with dies := [{ id := 2, preq := 1, pcur := 3, pchange := some 1 }], cores := [{ id := 5, ungating := true, gated := true }] },
      2, 1, by decide +kernel⟩,
    ⟨{ State.reset with dies := [{ id := 2, preq := 1, pcur := 3, pchange := some 1 }], cores := [{ id := 5, ungating := true, gated := true }] },
      by decide +kernel⟩,
    ⟨{ State.reset with dies := [{ id := 2, preq := 1, pcur := 3, pchange := some 1 }], cores := [{ id := 5, ungating := true, gated := true }] },
      5, by decide +kernel⟩⟩

/-- The hypotheses of `ThermalWarningSetsWarn` can be met. -/
theorem test_wit_thermalWarningSetsWarn :
    (∃ (s : State) (temp : _), s.warnt ≤ temp) ∧
    (∃ (s : State) (temp : _), temp < s.warnt) :=
  ⟨⟨State.reset, 95, by decide +kernel⟩,
    ⟨State.reset, 94, by decide +kernel⟩⟩

/-- The hypotheses of `TheTripStopsTheDevice` can be met. -/
theorem test_wit_theTripStopsTheDevice :
    (∃ (s : State) (temp : _), 105 ≤ temp ∧ s.thermTrip = false) ∧
    (∃ (s : State) (c : _), s.thermTrip = true ∧ c ∈ s.candidates) :=
  ⟨⟨State.reset, 105, by decide +kernel⟩,
    ⟨{ State.reset with thermTrip := true, inbox := [.portUp 0] }, .inbox, by decide +kernel⟩⟩

/-- The hypotheses of `AlarmActsByPolicy` can be met. -/
theorem test_wit_alarmActsByPolicy :
    (∃ (s : State) (src : _), src < 4 ∧ s.sec.powered = true ∧ s.sec.locked = false) :=
  ⟨st0, 3, by decide +kernel⟩

/-- The hypotheses of `ConventionalResetRestarts` can be met. -/
theorem test_wit_conventionalResetRestarts :
    (∃ (s : State), s.choices = []) ∧
    (∃ (s : State) (t : State) (svn : _) (signed : _), exec (.conventionalReset svn signed) s = .next t ∧ s.memOk = true) ∧
    (∃ (s : State) (t : State) (svn : _) (signed : _) (a : _), exec (.conventionalReset svn signed) s = .next t ∧ s.memOk
      = true ∧ isHost a = true) ∧
    (∃ (s : State) (t : State) (svn : _) (signed : _) (a : _), exec (.conventionalReset svn signed) s = .next t ∧ s.memOk
      = true ∧ isDevice a = true) ∧
    (∃ (s : State) (ks : _), s.sec.faults = 0 ∧ s.choices = 1 :: ks) :=
  ⟨⟨st0, by decide +kernel⟩,
    ⟨poke (hostBase + 64) 1 9 st0, resetOf (poke (hostBase + 64) 1 9 st0), 0, true, resetOf_next _, by decide +kernel⟩,
    ⟨poke (hostBase + 64) 1 9 st0, resetOf (poke (hostBase + 64) 1 9 st0), 0, true, hostBase + 64, resetOf_next _,
      by decide +kernel⟩,
    ⟨poke (hostBase + 64) 1 9 st0, resetOf (poke (hostBase + 64) 1 9 st0), 0, true, 2 ^ 40 - 1, resetOf_next _,
      by decide +kernel⟩,
    ⟨{ st0 with choices := [1, 2] }, [2], by decide +kernel⟩⟩

/-- The hypotheses of `SpdmAnswers` can be met. -/
theorem test_wit_spdmAnswers :
    (∃ (s : State), s.spdmOn = true) ∧
    (∃ (s : State), s.spdmOn = true ∧ s.sec.erased = false) ∧
    (∃ (s : State), s.spdmOn = true ∧ s.featDone = true) ∧
    (∃ (s : State), s.spdmOn = true ∧ s.sec.spdm = 1) ∧
    (∃ (s : State), s.spdmOn = false) ∧
    (∃ (s : State), s.spdmOn = true ∧ s.sec.erased = true) :=
  ⟨⟨{ st0 with sec := { st0.sec with spdm := 1 } }, by decide +kernel⟩,
    ⟨{ st0 with sec := { st0.sec with spdm := 1 } }, by decide +kernel⟩,
    ⟨{ st0 with sec := { st0.sec with spdm := 1 } }, by decide +kernel⟩,
    ⟨{ st0 with sec := { st0.sec with spdm := 1 } }, by decide +kernel⟩,
    ⟨State.reset, by decide +kernel⟩,
    ⟨{ st0 with sec := { st0.sec with erased := true } }, by decide +kernel⟩⟩

/-- The hypotheses of `RegisterWritesTakeTheirFields` can be met. -/
theorem test_wit_registerWritesTakeTheirFields :
    (∃ (v : DWord), flag (lowWord v).toNat 31 = true) ∧
    (∃ (s : State), s.featDone = false) ∧
    (∃ (s : State), s.featDone = true) ∧
    (∃ (q : _), q < 64) ∧
    (∃ (s : State), s.domainsOff false = false) ∧
    (∃ (s : State) (p : _), p < 64 ∧ (s.pool p).en = true) :=
  ⟨⟨0x80000000, by decide +kernel⟩,
    ⟨State.reset, by decide +kernel⟩,
    ⟨{ State.reset with featDone := true }, by decide +kernel⟩,
    ⟨63, by decide +kernel⟩,
    ⟨{ st0 with domains := [{ d := 1, en := true }] }, by decide +kernel⟩,
    ⟨{ st0 with pools := [{ p := 63, cfg := 0x80000001 }] }, 63, by decide +kernel⟩⟩

/-- The hypotheses of `PortsGoDownAndUp` can be met. -/
theorem test_wit_portsGoDownAndUp :
    (∃ (s : State) (p : _), (((∀ r ∈ s.hlcReq, r.line / 64 % 2 ≠ p % 2) ∧ (p % 2 = 0 → s.ats = [] ∧ s.pri = [])) ∨
      (s.thermTrip || s.sec.locked) = true)) :=
  ⟨{ st0 with hlcReq := [{ line := 65, own := true }] }, 2, by decide +kernel⟩

/-- The hypotheses of `IssuedWordsComplete` can be met. -/
theorem test_wit_issuedWordsComplete :
    (∃ (w : IWord) (s : State) (th : Thread), Solo (.exitW w) s th ∧ th.handler = false ∧ th.nest = 0) ∧
    (∃ (w : IWord) (s : State) (th : Thread), ∃ q, q = (fun (u : State) => u.quarter s.cur.core s.cur.qtr) ∧ Solo (.yield
      w) s th ∧ th.idle = false ∧ (q s).serial = false ∧ (q s).entries.length < 64 ∧ (q s).stampCtr < 2 ^ 32 - 1) ∧
    (∃ (w : IWord) (s : State) (th : Thread), Solo (.nap w) s th) ∧
    (∃ (f : FWord) (s : State) (th : Thread) (i : _) (r : _), groupRule i = some r ∧ Solo i s th ∧ i ∈ [Instr.shfl f,
      .vote f, .gred f, .gscan f, .matchW f, .elect f, .actmask f] ∧ th.handler = false ∧ th.halt = none ∧
      s.groupThreads th.tid.core th.slot th.grp = [th]) ∧
    (∃ (v : EWord) (s : State) (th : Thread), ∃ e, e = engEntry (.accrd v) s th ∧ ∃ q, q = s.quarter th.tid.core
      th.tid.qtr ∧ ∃ tl, tl = q.tile v.o2.toNat ∧ Solo (.accrd v) s th ∧ noQueueDest (.accrd v) th ∧ e.w 1 < 256 ∧
      tl.owner = some th.slot ∧ tl.ver = BitVec.ofNat 16 (e.w 0) ∧ q.busyTile tl.idx = false ∧ e.w 1 ∉ tl.poison) ∧
    (∃ (v : EWord) (s : State) (th : Thread) (tm : _) (pa : _), ∃ fa, fa = (engEntry (.omap v) s th).d 0 ∧ Solo (.omap v)
      s th ∧ EngCalm s ∧ s.noFollowers th.tid ∧ th.unf = [] ∧ s.teams.filter (fun y => y.core = th.tid.core && y.slot
      = th.slot) = [tm] ∧ fa.toNat % 64 = 0 ∧ canonical fa.toNat = true ∧ s.trans (.die (dieOf th.tid.core))
      (s.pasidOf tm.lslot) fa.toNat .read = .ok pa ∧ pa + 64 ≤ 2 ^ 42 ∧ s.cleanSpan pa 64 ∧ omapOk (s.value pa 64)
      (parseOMap (s.value pa 64)) (s.feature 6) = true) ∧
    (∃ (v : EWord) (s : State) (th : Thread), Solo (.bkpt v) s th ∧ s.debugged th.lslot = true) ∧
    (∃ (v : EWord) (s : State) (th : Thread) (l : _), Solo (.setmode v) s th ∧ noQueueDest (.setmode v) th ∧ s.noFollowers
      th.tid ∧ s.launches.filter (fun x => x.slot = th.lslot) = [l]) ∧
    (∃ (v : EWord) (s : State) (th : Thread), ∃ e, e = captureE (.preempt v) s th (Solo.values (.preempt v) s th) ∧ Solo
      (.preempt v) s th ∧ s.noFollowers th.tid ∧ s.preemptRefused ((e[0]?).getD 0).toNat ((e[1]?).getD 0).toNat
      (v.o4.toNat % 64) (some th.lslot) = none) :=
  ⟨⟨iw 0 0 0, lone th0, th0, solo_of (by decide +kernel), by decide +kernel⟩,
    ⟨iw 0 0 0, lone th0, th0, _, rfl, solo_of (by decide +kernel), by decide +kernel⟩,
    ⟨iw 0 0 5, lone th0, th0, solo_of (by decide +kernel)⟩,
    ⟨{ fw 3 4 5 2 with f2 := false }, lone (regs [(4, 7), (5, 3)]), regs [(4, 7), (5, 3)], .shfl
      ({ fw 3 4 5 2 with f2 := false }), (groupRule (.shfl ({ fw 3 4 5 2 with f2 := false }))).getD (fun _ _ _ _ =>
      {}), rfl, solo_of (by decide +kernel), by decide +kernel⟩,
    ⟨ew 2 1 4 5, lone (regs [(4, 3), (5, 0x21)]) (stMat []), regs [(4, 3), (5, 0x21)], _, rfl, _, rfl, _, rfl, solo_of
      (by decide +kernel), noQ_of (by decide +kernel), by decide +kernel⟩,
    ⟨ew 1 4, lone (regs [(4, 0x3000)]) (poke 0x3000 64 0x100010000100000000200 st0), regs [(4, 0x3000)], tm0, 0x3000, _,
      rfl, solo_of (by decide +kernel), calm_of (by decide +kernel), follow_of (by decide +kernel), by decide +kernel⟩,
    ⟨ew 7, lone th0 (onLaunch fun l => { l with attached := true }), th0, solo_of (by decide +kernel), by decide +kernel⟩,
    ⟨ew 3 1 4, lone (regs [(4, 64)]) { st0 with drvpasid := 0x80000001 }, regs [(4, 64)], Loader.launch, solo_of
      (by decide +kernel), noQ_of (by decide +kernel), follow_of (by decide +kernel), by decide +kernel⟩,
    ⟨ew 3 4 5 0, lone (regs [(4, 0), (5, 1)]) { st0 with drvpasid := 0x80000001 }, regs [(4, 0), (5, 1)], _, rfl, solo_of
      (by decide +kernel), follow_of (by decide +kernel), by decide +kernel⟩⟩

/-- The hypotheses of `DeviceStepsComplete` can be met. -/
theorem test_wit_deviceStepsComplete :
    (∃ (s : State) (th : Thread) (d : Nat) (n : Nat) (tm : _) (z : _) (ds : _) (k : _) (rest : _), ∃ x, x = s.domain d ∧
      s.threads.filter (fun x => x.tid = th.tid) = [th] ∧ th.wait = .eng (.assign k) ∧ th.idle = false ∧
      s.teams.filter (fun y => y.core = th.tid.core && y.slot = th.slot) = [tm] ∧ s.launches.filter (fun y => y.slot =
      th.lslot) = [z] ∧ z.desc = some ds ∧ tm.draining = false ∧ z.draining = false ∧ z.faulted = false ∧ th.gone =
      false ∧ tm.batch = n :: rest) ∧
    (∃ (s : State) (th : Thread) (d : Nat) (u : _), ∃ x, x = s.domain d ∧ s.threads.filter (fun x => x.tid = th.tid) =
      [th] ∧ th.wait = .nap u ∧ u ≤ s.issueClock (dieOf th.tid.core)) ∧
    (∃ (s : State) (core : Nat) (qtr : Nat) (l : Nat) (pc : _) (k : _) (e : _), s.promise l = some k ∧ e ∈ (s.quarter core
      qtr).entries ∧ e.lslot = l ∧ e.pc = pc ∧ k ≤ e.wait) ∧
    (∃ (s : State) (core : Nat) (qtr : Nat), 2 ^ 32 - 1 ≤ (s.quarter core qtr).stampCtr) ∧
    (∃ (s : State) (th : Thread) (l : Nat) (d : Nat), ∃ x, x = s.domain d ∧ s.launchThreads l = [th] ∧ s.threads.filter
      (fun x => x.tid = th.tid) = [th] ∧ th.halt = some .command ∧ th.pending = none ∧ th.idle = false ∧ th.wait ≠
      .gop) ∧
    (∃ (s : State) (th : Thread) (d : Nat), ∃ x, x = s.domain d ∧ s.threads.filter (fun x => x.tid = th.tid) = [th] ∧
      th.halt = some .command ∧ th.pending = none) ∧
    (∃ (s : State) (l : Nat) (z : _), s.launches.filter (fun y => y.slot = l) = [z]) ∧
    (∃ (s : State) (v : Word), flag v.toNat 31 = true ∧ s.preemptRefused (fld v.toNat 16 8) (fld v.toNat 0 10) (fld
      v.toNat 24 6) none = none) ∧
    (∃ (s : State) (p : _), s.preempt = some p ∧ p.pend = [] ∧ p.lead = none) ∧
    (∃ (s : State) (core : Nat) (sl : _) (tm : _), (s.core core).parkWin ≤ (s.core core).parkCount ∧ s.shareVictim core =
      some sl ∧ s.team? core sl = some tm ∧ s.poolRoom (s.imageUnits tm) = true ∧ s.saving = []) ∧
    (∃ (s : State) (d : Nat), ∃ x, x = s.domain d ∧ x.en = true ∧ x.gst = 0 ∧ x.pod = false ∧ s.demand d = true) ∧
    (∃ (s : State) (d : Nat), ∃ x, x = s.domain d ∧ x.gst = 1 ∧ x.pod = false) ∧
    (∃ (s : State) (d : Nat), ∃ x, x = s.domain d ∧ x.gst = 2 ∧ x.pod = false ∧ s.phaseQuiet d (!flag x.s.toNat 0) = true
      ∧ s.threads = [] ∧ s.retire = [] ∧ s.images = []) ∧
    (∃ (s : State) (d : Nat) (n : Nat), ∃ x, x = s.domain d ∧ s.podOn d = true ∧ s.coordinates = true ∧ x.gst = 0 ∧
      x.podRun = false ∧ modGe x.s (BitVec.ofNat 32 n) = false) ∧
    (∃ (s : State) (d : Nat) (n : Nat), ∃ x, x = s.domain d ∧ s.podOn d = true ∧ x.gst = 0 ∧ (x.s + 1).toNat = n) ∧
    (∃ (s : State) (d : Nat) (n : Nat), ∃ x, x = s.domain d ∧ s.podOn d = true ∧ x.s.toNat = n) ∧
    (∃ (s : State) (l : Nat) (d : Nat) (n : Nat), ∃ x, x = s.domain d ∧ s.podOn d = true ∧ x.s.toNat = n ∧ x.podRun = true
      ∧ (∃ c ∈ s.podMembers, c ∉ insertNat l x.quiets)) ∧
    (∃ (s : State) (d : Nat) (n : Nat), ∃ x, x = s.domain d ∧ s.podOn d = true ∧ x.s.toNat = n ∧ x.gst = 3 ∧ s.threads =
      [] ∧ s.retire = [] ∧ s.images = []) ∧
    (∃ (s : State) (d : Nat) (v : Word), (s.die d).pchange = none ∧ v.toNat % 4 ≠ (s.die d).pcur) ∧
    (∃ (s : State) (d : Nat) (n : Nat), (s.die d).pchange = some n) ∧
    (∃ (s : State), s.launches = []) ∧
    (∃ (s : State) (core : Nat), (s.core core).ungating = true) ∧
    (∃ (s : State) (n : Nat), s.warnt ≤ n) ∧
    (∃ (n : Nat), 105 ≤ n) ∧
    (∃ (s : State) (n : Nat), s.sec.powered = true ∧ s.sec.locked = false ∧ n < 4) ∧
    (∃ (s : State), s.sec.polSet = false) ∧
    (∃ (s : State), s.choices = []) :=
  ⟨⟨lone { th0 with wait := .eng (.assign 0), pc := 0x1080 } (onTeam fun t => { t with batch := [3, 4] }),
      { th0 with wait := .eng (.assign 0), pc := 0x1080 }, 2, 3, { tm0 with batch := [3, 4] }, Loader.launch,
      Loader.desc, 0, [4], _, rfl, by decide +kernel⟩,
    ⟨{ lone { th0 with wait := .nap 3 } with clock := 7 }, { th0 with wait := .nap 3 }, 2, 3, _, rfl, by decide +kernel⟩,
    ⟨{ onLaunch (fun l => { l with prom := true, fair := 8192 }) with quarters := [{ core := 0, qtr := 0, entries := [({ pc := 0x1080, lslot := 0, stamp := 3, wait := 9000 } : PcEntry)], stampCtr := 0xFFFFFFFF }] },
      0, 0, 0, 0x1080, 8192, ({ pc := 0x1080, lslot := 0, stamp := 3, wait := 9000 } : PcEntry), by decide +kernel⟩,
    ⟨{ st0 with quarters := [{ core := 0, qtr := 0, entries := [({ pc := 0x1080, lslot := 0, stamp := 3, wait := 9000 } : PcEntry)], stampCtr := 0xFFFFFFFF }] },
      0, 0, by decide +kernel⟩,
    ⟨lone { th0 with halt := some .command }, ({ th0 with halt := some .command } : Thread), 0, 2, _, rfl,
      by decide +kernel⟩,
    ⟨lone { th0 with halt := some .command }, ({ th0 with halt := some .command } : Thread), 2, _, rfl, by decide +kernel⟩,
    ⟨st0, 0, Loader.launch, by decide +kernel⟩,
    ⟨st0, 0x80000001#32, by decide +kernel⟩,
    ⟨{ st0 with launches := [], preempt := some { queue := 1, lslot := 0, order := 1, lead := none, pend := [], vacate := [] } },
      { queue := 1, lslot := 0, order := 1, lead := none, pend := [], vacate := [] }, by decide +kernel⟩,
    ⟨lone { th0 with wait := .fault } (onCore (fun c => { c with parkCount := 20000 })
      { st0 with savebase := 0x100000, savesize := 0x100000 }), 0, 0, tm0, by decide +kernel⟩,
    ⟨{ stDom dom2 with retire := [{ retPage with tag := 6 }] }, 2, _, rfl, by decide +kernel⟩,
    ⟨{ stDom { dom2 with gst := 1 } with cores := [{ id := 0, cnt0 := [0, 0, 5, 0, 0, 0, 0, 0], cnt1 := [0, 0, 1, 0, 0, 0, 0, 0] }] },
      2, _, rfl, by decide +kernel⟩,
    ⟨{ stDom { dom2 with gst := 2 } with threads := [] }, 2, _, rfl, by decide +kernel⟩,
    ⟨stPod 0 { dom2 with pod := true }, 2, 8, _, rfl, by decide +kernel⟩,
    ⟨stPod 1 { dom2 with pod := true }, 2, 8, _, rfl, by decide +kernel⟩,
    ⟨stPod 0 { dom2 with pod := true, gst := 1, podRun := true }, 2, 7, _, rfl, by decide +kernel⟩,
    ⟨stPod 0 { dom2 with pod := true, gst := 2, podRun := true }, 1, 2, 7, _, rfl, by decide +kernel⟩,
    ⟨stPod 1 { dom2 with pod := true, gst := 3 }, 2, 7, _, rfl, by decide +kernel⟩,
    ⟨st0, 2, 0, by decide +kernel⟩,
    ⟨{ State.reset with dies := [{ id := 2, preq := 1, pcur := 3, pchange := some 1 }] }, 2, 1, by decide +kernel⟩,
    ⟨State.reset, by decide +kernel⟩,
    ⟨{ State.reset with cores := [{ id := 0, ungating := true, gated := true }] }, 0, by decide +kernel⟩,
    ⟨State.reset, 95, by decide +kernel⟩,
    ⟨105, by decide +kernel⟩,
    ⟨State.reset, 3, by decide +kernel⟩,
    ⟨State.reset, by decide +kernel⟩,
    ⟨State.reset, by decide +kernel⟩⟩

end Sys2Proof.Tests
end

section
/-!
The canonical form of memory (R16) through every step: an instruction runs as one computation or stops with a fault, a
passing cycle touches no byte of memory, and what a candidate leaves has ended as every run ends.
-/
namespace Sys2Proof.Machine

/-! ### Instructions -/

/-- An outcome is a run of one computation, or a stop with a fault. -/
def RunsOrStops (s : State) (o : Host.Outcome State Fault Refusal) : Prop :=
  (∃ b : W Unit, o = run b s) ∨ ∃ f, o = .fault f

theorem onQueue_runsOrStops (q : Nat) (b : W Unit) (s : State) : RunsOrStops s (onQueue q b s) := by
  unfold onQueue
  split
  · exact .inr ⟨_, rfl⟩
  · exact .inl ⟨b, rfl⟩

theorem execLaunch_runsOrStops (w : EWord) (s : State) : RunsOrStops s (execLaunch w s) := by
  unfold execLaunch
  generalize issueActing (.launch w) (captureE (.launch w)) (performDisp (.launch w)) = b
  simp only [run]
  split
  · exact .inr ⟨_, rfl⟩
  · exact .inl ⟨b, rfl⟩

/-- Only the steps that meet a launch queue that R249 leaves undefined can stop; every other meaning is one run. -/
theorem exec_runsOrStops (i : Instr) (s : State) : RunsOrStops s (exec i s) := by
  cases i
  case qtailWrite q v => exact onQueue_runsOrStops q _ s
  case qpushComplete q => exact onQueue_runsOrStops q _ s
  case takeRecord q => exact onQueue_runsOrStops q _ s
  case launch w => exact execLaunch_runsOrStops w s
  all_goals exact .inl ⟨_, rfl⟩

theorem exec_memOk {i : Instr} {s t : State} (h : s.memOk = true) (ht : exec i s = .next t) : t.memOk = true := by
  rcases exec_runsOrStops i s with ⟨b, hb⟩ | ⟨f, hf⟩
  · exact run_memOk b s t h (hb ▸ ht)
  · rw [hf] at ht
    cases ht

/-! ### A passing cycle -/

/-- What the canonical form of memory depends on: the listed bytes and the generation of the memory key. -/
def memPart (w : Work) : List Host.Cell × Nat := (w.st.mem, w.st.sec.keyGen)

theorem memOk_of_memPart {w w' : Work} (h : memPart w' = memPart w) : w'.st.memOk = w.st.memOk := by
  obtain ⟨hmem, hkey⟩ := Prod.mk.inj h
  unfold State.memOk
  rw [hmem, hkey]

theorem barCheck_memPart (c sl b : Nat) : Same memPart (barCheck c sl b) := by
  unfold barCheck
  refine same_bind same_getSt fun s => ?_
  split
  · exact same_pure _
  · refine same_ite (fun _ => same_bind (same_upd fun _ => rfl) fun _ => ?_) fun _ => same_upd fun _ => rfl
    exact same_forIn fun _ _ _ => same_bind (same_upd fun _ => rfl) fun _ => same_pure _

theorem barArrive_memPart (c sl b : Nat) (ns : List Nat) : Same memPart (barArrive c sl b ns) := by
  unfold barArrive
  split
  · exact same_pure _
  · exact same_bind (same_upd fun _ => rfl) fun _ => barCheck_memPart c sl b

theorem countTeam_memPart (tm : Team) : Same memPart (countTeam tm) := by
  unfold countTeam
  refine same_bind same_getSt fun s => ?_
  dsimp only
  refine same_bind (same_forIn fun b _ _ => ?_) fun _ => same_pure _
  refine same_ite (fun _ => same_bind ?_ fun _ => ?_) fun _ => same_pure _
  · exact same_forIn fun _ _ _ => same_bind (same_upd fun _ => rfl) fun _ => same_pure _
  · exact same_bind (barArrive_memPart _ _ _ _) fun _ => same_pure _

theorem countArrivals_memPart : Same memPart countArrivals := by
  unfold countArrivals
  refine same_bind same_getSt fun s => same_ite (fun _ => ?_) fun _ => same_pure _
  exact same_forIn fun tm _ _ => same_bind (countTeam_memPart tm) fun _ => same_pure _

theorem tickUnits_memOk (s : State) : s.tickUnits.memOk = s.memOk :=
  memOk_of_memPart (countArrivals_memPart _)

theorem tick_memOk (s : State) : s.tick.memOk = s.memOk := by
  unfold State.tick
  split
  · rfl
  · dsimp only
    split
    · exact tickUnits_memOk _
    · rfl

/-! ### The chosen candidate -/

/-- The state that an action executes its instruction in, or that it leaves when there is nothing to execute. -/
def Action.state (a : Action) : State := match a with | .exec _ s => s | .done s => s

theorem issueGroup_memOk (s : State) (g : IssueGroup) (h : s.memOk = true) : (s.issueGroup g).state.memOk = true := by
  have hg : (s.withGroup g).memOk = true := h
  have h0 : ({ s with cur := g, second := none } : State).memOk = true := h
  unfold State.issueGroup
  dsimp only
  split
  · exact hg
  · split
    · split <;> exact finish_memOk _ _ hg
    · exact finish_memOk _ _ h0

theorem perform_memOk (s : State) (c : Cand) (h : s.memOk = true) : (s.perform c).state.memOk = true := by
  cases c with
  | event i => exact h
  | issue g => exact issueGroup_memOk s g h
  | pass => exact h
  | evict core line => exact finish_memOk _ _ h
  | inbox =>
    unfold State.perform
    cases s.inbox with
    | nil => exact h
    | cons i r => dsimp only; split <;> exact h

theorem action_memOk (s : State) (h : s.memOk = true) : s.action.state.memOk = true := by
  unfold State.action
  dsimp only
  split
  · exact h
  · exact perform_memOk s _ h
  · split
    · exact perform_memOk _ _ h
    · exact perform_memOk s _ h

/-- Settles O4: the action of a step stands in a state of canonical memory, and its instruction keeps the form. -/
theorem everyStepKeepsMemoryCanonical : Obligations.EveryStepKeepsMemoryCanonical := by
  unfold Obligations.EveryStepKeepsMemoryCanonical
  intro s t hs ht
  have ha : s.tick.action.state.memOk = true := action_memOk s.tick ((tick_memOk s).trans hs)
  unfold step at ht
  cases hact : s.tick.action with
  | exec i u =>
    rw [hact] at ha ht
    exact exec_memOk ha ht
  | done u =>
    rw [hact] at ha ht
    cases ht
    exact ha

end Sys2Proof.Machine
end

section
/-!
The state after reset (R18): a unit that no list names stands in its reset record.
-/
namespace Sys2Proof.Machine

variable {s : State}

theorem queue_unlisted (h : s.queues = []) (q : Nat) : s.queue q = { q } := by simp [State.queue, h]
theorem quarter_unlisted (h : s.quarters = []) (c q : Nat) : s.quarter c q = { core := c, qtr := q } := by
  simp [State.quarter, h]
theorem die_unlisted (h : s.dies = []) (d : Nat) : s.die d = { id := d } := by simp [State.die, h]
theorem domain_unlisted (h : s.domains = []) (d : Nat) : s.domain d = { d } := by simp [State.domain, h]
theorem pool_unlisted (h : s.pools = []) (p : Nat) : s.pool p = { p } := by simp [State.pool, h]
/-- The phase bits of a core are those of the domains' first period. -/
theorem core_unlisted (hc : s.cores = []) (hd : s.domains = []) (c : Nat) : s.core c = { id := c } := by
  simp [State.core, hc, domain_unlisted hd, flag, List.replicate]
theorem tile_unlisted {q : Quarter} (h : q.acc = []) (t : Nat) : q.tile t = { idx := t } := by
  unfold Quarter.tile
  rw [h]
  rfl
theorem byte_unlisted (hm : s.mem = []) (hk : s.sec.keyGen = 0) (a : Nat) : s.byte a = 0 := by
  simp [State.byte, hm, hk, memGet, memDefault]
/-- No chip has reported its links, so none is up. -/
theorem linkEntry_unlisted (h : s.linkMap.rows = []) (c k : Nat) : s.linkEntry c k = noLink := by
  simp [State.linkEntry, State.linkRow, h]
theorem linkUsable_unlisted (h : s.linkMap.rows = []) (c k : Nat) : s.linkUsable c k = false := by
  simp [State.linkUsable, linkEntry_unlisted h, noLink]

/-- Settles O5: the units of the tables are read off their reset records, the registers of the chip off `State.reset`. -/
theorem resetLeavesTheValuesOfTheTables : Obligations.ResetLeavesTheValuesOfTheTables := by
  unfold Obligations.ResetLeavesTheValuesOfTheTables
  simp only [byte_unlisted (s := .reset) rfl rfl, queue_unlisted (s := .reset) rfl, quarter_unlisted (s := .reset) rfl,
    tile_unlisted, core_unlisted (s := .reset) rfl rfl, die_unlisted (s := .reset) rfl, domain_unlisted (s := .reset) rfl,
    pool_unlisted (s := .reset) rfl, linkEntry_unlisted (s := .reset) rfl, linkUsable_unlisted (s := .reset) rfl,
    noLink, and_self, implies_true, true_and]
  decide

end Sys2Proof.Machine
end

section
/-!
A raised cause, for a thread that can take it now (08 R286 to R291): in program mode with a trap handler the thread enters
the handler, in handler mode it halts; and what that leaves as it is.
-/
namespace Sys2Proof.Machine

variable {s t : State} {w : Work} {x th : Thread}

/-! ### Parts of a trap that leave the work as it is -/

theorem forIn_skip {α : Type} (xs : List α) (g : α → PUnit → W (ForInStep PUnit)) (u : PUnit)
    (h : ∀ a ∈ xs, g a u w = (.yield u, w)) : forIn xs u g w = (u, w) := by
  induction xs with
  | nil => rfl
  | cons a as ih =>
    rw [W.forIn_cons, h a List.mem_cons_self]
    exact ih fun b hb => h b (List.mem_cons_of_mem _ hb)

theorem thread?_putThread_ne {a : Thread} {v : ThreadId} (hv : v ≠ a.tid) : (s.putThread a).thread? v = s.thread? v := by
  unfold State.putThread State.setThread State.thread?
  dsimp only
  induction s.threads with
  | nil => rfl
  | cons y ys ih =>
    rw [List.map_cons, List.find?_cons, List.find?_cons, ih]
    by_cases hy : y.tid = a.tid
    · simp [hy, Ne.symm hv]
    · simp [hy]

theorem Trappable.has (h : Trappable s th) : s.Has th := h.one

theorem revive_live (h : w.st.Has x) (hi : x.idle = false) : revive x.tid w = ((), w) := by
  unfold revive
  simp [h.thread?, hi]

/-- No function-unit instruction is left behind by a thread whose instructions are settled, or by a handler. -/
theorem leaveFu_skip (h : w.st.Has x) (hs : x.settled = true ∨ x.handler = true) : leaveFu x.tid w = ((), w) := by
  unfold leaveFu
  simp only [W.run_bind, W.run_getSt, h.thread?]
  refine forIn_skip _ _ _ fun e he => ?_
  rw [W.run_ite, if_neg]
  · rfl
  · rcases hs with hs | hs
    · have hdone : e.st ≠ 0 ∨ e.queued = true := by simpa using List.all_eq_true.1 hs e he
      rcases hdone with h0 | h0 <;> simp [h0]
    · simp [hs]

/-- What touches only PC tables ends in the same state with other quarters, whose engines are the same. -/
theorem run_of_offQuarters {m : W Unit} (hm : Same offQuarters m) (w : Work) :
    ∃ q, SameEngines w.st (w.st.putQuarters q) ∧ m w = ((), { w with st := w.st.putQuarters q }) :=
  have ⟨he, hs⟩ := offQuarters_eq (hm w)
  ⟨_, hs, Prod.ext rfl he⟩

/-- A live thread arrives at a PC: its record says so, and PC tables change. -/
theorem arriveFresh_live (h : w.st.Has x) (hi : x.idle = false) (pc : DWord) :
    ∃ q, SameEngines w.st (w.st.putQuarters q) ∧
      arriveFresh x.tid pc w = ((), { w with st := (w.st.putThread (x.goTo pc)).putQuarters q }) := by
  have hq : Same offQuarters (do
      freeEntries x.tid.core x.tid.qtr
      let st ← freshStamp x.tid.core x.tid.qtr
      joinEntry x.tid.core x.tid.qtr x.lslot pc st false [x.tid]
      leaveSerial x.tid.core x.tid.qtr) :=
    same_bind (freeEntries_off _ _) fun _ => same_bind (freshStamp_off _ _) fun _ =>
      same_bind (joinEntry_off _ _ _ _ _ _ _) fun _ => leaveSerial_off _ _
  have ⟨q, hs, hrun⟩ := run_of_offQuarters hq { w with st := w.st.putThread (x.goTo pc) }
  refine ⟨q, hs, ?_⟩
  rw [← hrun]
  unfold arriveFresh
  simp only [W.run_bind, W.run_getSt, h.thread?]
  rw [modThread_has h _ rfl, W.run_ite, if_pos (by simp [hi])]
  simp only [W.run_bind, Thread.goTo]

/-! ### Entering the handler, and halting in it -/

/-- A thread's record when it has raised its first cause. -/
def Thread.raising (x : Thread) (c : Cause) (q : Bool) (tpc : DWord) : Thread :=
  { x with windows := [], pending := some { cause := c, q, tpc } }

/-- A state after a thread has raised its first cause (R286). -/
def State.raised (s : State) (th : Thread) (c : Cause) (q : Bool) (tpc : DWord) : State :=
  (s.putGroups (s.maskedGroups th c.bit true)).putThread (th.raising c q tpc)

theorem raised_has (h : s.Has th) (c : Cause) (q : Bool) (tpc : DWord) : (s.raised th c q tpc).Has (th.raising c q tpc) :=
  State.Has.put (s := s.putGroups _) h rfl

theorem raise_eq_trapEnter (h : Trappable w.st th) (c : Cause) (q : Bool) (tpc : DWord) :
    raise th.tid c q tpc w = trapEnter th.tid { w with st := w.st.raised th c q tpc } := by
  have hg : ({ w with st := w.st.putGroups (w.st.maskedGroups th c.bit true) } : Work).st.Has th := h.has
  have hr : modThread th.tid (fun x => { x with
        windows := []
        pending := match x.pending with
          | some p => some { p with q := p.q || q }
          | none => some { cause := c, q, tpc } })
      { w with st := w.st.putGroups (w.st.maskedGroups th c.bit true) }
        = ((), { w with st := w.st.raised th c q tpc }) := by
    rw [modThread_has hg _ rfl, h.calm]
    rfl
  have hl : leaveFu th.tid { w with st := w.st.raised th c q tpc } = ((), { w with st := w.st.raised th c q tpc }) :=
    leaveFu_skip (x := th.raising c q tpc) (raised_has h.has c q tpc) (.inl h.settled)
  unfold raise
  simp only [W.run_bind, W.run_getSt, h.has.thread?]
  rw [revive_live h.has h.live]
  rw [show setMaskBit th c.bit true w = ((), { w with st := w.st.putGroups (w.st.maskedGroups th c.bit true) }) from rfl]
  refine (congrArg (fun r => trapEnter th.tid (leaveFu th.tid r.2).2) hr).trans ?_
  rw [hl]

/-- A thread's record when it has taken the pending cause `p` in its handler at `entry` (R291). -/
def Thread.trapped (x : Thread) (p : Pending) (entry : DWord) : Thread :=
  { x.inHandler (if p.q then x.pc else p.tpc) entry with tq := p.q }

/-- The same record before the thread arrives at the handler. -/
def Thread.trapping (x : Thread) (p : Pending) : Thread := x.trapped p x.pc

/-- A thread's record with what TSTAT, TPC and NESTIN hold of the pending cause `p` (R291 steps 1 to 3). -/
def Thread.stored (x : Thread) (p : Pending) : Thread :=
  { x with windows := [], tq := p.q, dbl := false, nestin := BitVec.ofNat 8 x.nest,
           tpc := if p.q then x.pc else p.tpc, pending := none }

/-- A thread's record when a cause has halted it in handler mode (R290). -/
def Thread.doubled (x : Thread) (c : Cause) : Thread := { x with dbl := true, halt := some (.double c), windows := [] }

/-- A state in which a halt is reported, with `v` in FLTLOC (R308). -/
def State.reported (s : State) (v : Word) : State := { s with fltloc := v, hostOut := s.hostOut ++ [.msix 0] }

theorem thread?_reported (s : State) (v : Word) (u : ThreadId) : (s.reported v).thread? u = s.thread? u := rfl

theorem setFltloc_msix_run (v : Word) (w : Work) :
    (do upd (fun s => { s with fltloc := v }); msix 0 : W Unit) w = ((), { w with st := w.st.reported v }) := rfl

theorem reportHalt_run (th : Thread) (dbl : Bool) (w : Work) :
    reportHalt th dbl w = ((), { w with st := w.st.reported (fltlocOf th dbl) }) :=
  setFltloc_msix_run (fltlocOf th dbl) w

/-- R291: the thread enters its handler. -/
theorem trapEnter_handler (h : w.st.Has x) {p : Pending} (hp : x.pending = some p) (hh : x.halt = none)
    (hm : x.handler = false) (hi : x.idle = false) (hs : x.settled = true) (hv : w.st.hasHandler x = true) :
    ∃ q, SameEngines w.st (w.st.putQuarters q) ∧
      trapEnter x.tid w = ((), { w with st := (w.st.putThread (x.trapped p (w.st.handlerPc x))).putQuarters q }) := by
  obtain ⟨q, hq, ha⟩ := arriveFresh_live (w := { w with st := w.st.putThread (x.trapping p) })
    (h.put (a := x.trapping p) rfl) hi (w.st.handlerPc x)
  rw [State.putThread_put (by rfl)] at ha
  refine ⟨q, hq, .trans ?_ ha⟩
  unfold trapEnter
  simp only [W.run_bind, W.run_getSt, h.thread?, hp, hh, hm, hs, Option.isSome_none, Bool.false_eq_true, if_false,
    Bool.not_true]
  rw [modThread_has h _ rfl, W.run_ite]
  refine (if_pos hv).trans ?_
  have h2 : modThread x.tid (fun x => { x with
        handler := true, wait := .ready, resume := .ready
        outer := if x.wait.kept then x.wait else x.resume }) { w with st := w.st.putThread (x.stored p) }
      = ((), { w with st := w.st.putThread (x.trapping p) }) := modThread_put h rfl (a := x.stored p) rfl rfl rfl
  exact congrArg (fun r => arriveFresh x.tid (w.st.handlerPc x) r.2) h2

/-- R290: a cause raised in handler mode halts the thread. -/
theorem trapEnter_double (h : w.st.Has x) {p : Pending} (hp : x.pending = some p) (hh : x.halt = none)
    (hm : x.handler = true) :
    trapEnter x.tid w = ((), { w with st := (w.st.putThread (x.doubled p.cause)).reported (fltlocOf x true) }) := by
  unfold trapEnter
  simp only [W.run_bind, W.run_getSt, h.thread?, hp, hh, hm, Option.isSome_none, Bool.false_eq_true, if_false, if_true]
  rw [modThread_has h _ rfl, reportHalt_run]
  rfl

/-! ### The cause a trappable thread raises -/

theorem sameRest_of_engines {q : List Quarter} (h : SameEngines s (s.putQuarters q)) : SameRest s (s.putQuarters q) :=
  ⟨rfl, rfl, rfl, h⟩

/-- A thread in program mode enters its handler, and nothing but its record, its group's masks and PC tables changes. -/
theorem raise_takesCause (h : Trappable s th) (hm : th.handler = false) (hv : s.hasHandler th = true) (c : Cause) :
    ∃ t, raise th.tid c false s.cur.pc { st := s } = ((), { st := t }) ∧ TakesCause s t th c.bit ∧ SameRest s t := by
  obtain ⟨q, hq, he⟩ := trapEnter_handler (w := { st := s.raised th c false s.cur.pc }) (raised_has h.has c false s.cur.pc)
    rfl h.going hm h.live h.settled hv
  refine ⟨_, (raise_eq_trapEnter (w := { st := s }) h c false s.cur.pc).trans he, ⟨?_, rfl, fun v hv => ?_⟩,
    rfl, rfl, rfl, hq⟩
  · have hp := (raised_has h.has c false s.cur.pc).put (a := th.inHandler s.cur.pc (s.handlerPc th)) rfl
    exact hp.thread?
  · exact (thread?_putThread_ne (s := s.raised th c false s.cur.pc) (a := th.inHandler s.cur.pc (s.handlerPc th)) hv).trans
      (thread?_putThread_ne (s := s.putGroups _) (a := th.raising c false s.cur.pc) hv)

/-- A thread in handler mode halts. -/
theorem raise_doubles (h : Trappable s th) (hm : th.handler = true) (c : Cause) :
    raise th.tid c false s.cur.pc { st := s }
      = ((), { st := ((s.raised th c false s.cur.pc).putThread ((th.raising c false s.cur.pc).doubled c)).reported
                 (fltlocOf (th.raising c false s.cur.pc) true) }) :=
  (raise_eq_trapEnter (w := { st := s }) h c false s.cur.pc).trans
    (trapEnter_double (w := { st := s.raised th c false s.cur.pc }) (raised_has h.has c false s.cur.pc) rfl h.going hm)

end Sys2Proof.Machine
end

section
/-!
EXIT (04 R189, 07 R269) and the assignment of items (07 R267, R268).
-/
namespace Sys2Proof.Machine

variable {s t : State} {w : Work} {th : Thread} {i : Instr}

/-! ### The end of an issue of one thread -/

/-- A thread whose issue ends with a cause raises it at its word. -/
theorem endIssue_raise (i : Instr) (t : ThreadId) {c : Cause} (hc : c ≠ .ill) (n : Nat) (pcOf : Thread → DWord) (s : State) :
    ∃ q, SameEngines s (s.putQuarters q) ∧
      endIssue i { act := [], pass := [], bad := [(t, c, n)] } pcOf false { st := s }
        = raise t c false s.cur.pc { st := s.putQuarters q } := by
  obtain ⟨q, hq, he⟩ := endIssue_eq i { act := [], pass := [], bad := [(t, c, n)] } pcOf { st := s }
  refine ⟨q, hq, he.trans ?_⟩
  simp only [raiseAll, W.forIn_cons, W.forIn_nil, hc, if_false, W.run_bind, W.run_pure]
  rfl

theorem Trappable.putQuarters (h : Trappable s th) (q : List Quarter) : Trappable (s.putQuarters q) th :=
  ⟨h.one, h.calm, h.going, h.live, h.settled⟩

theorem SameRest.of_putQuarters {q : List Quarter} (hq : SameEngines s (s.putQuarters q)) (h : SameRest (s.putQuarters q) t) :
    SameRest s t := by
  obtain ⟨hb, hf, ho, he⟩ := h
  exact ⟨hb, hf, ho, fun c k => (he c k).trans (hq c k)⟩

/-- A thread in program mode takes the cause of its word in its handler, and nothing else changes. -/
theorem endIssue_takesCause (h : Trappable s th) (hm : th.handler = false) (hv : s.hasHandler th = true) (i : Instr)
    {c : Cause} (hc : c ≠ .ill) (n : Nat) (pcOf : Thread → DWord) :
    ∃ t, endIssue i { act := [], pass := [], bad := [(th.tid, c, n)] } pcOf false { st := s } = ((), { st := t }) ∧
      TakesCause s t th c.bit ∧ SameRest s t := by
  obtain ⟨q, hq, he⟩ := endIssue_raise i th.tid hc n pcOf s
  obtain ⟨t, ht, htc, hr⟩ := raise_takesCause (h.putQuarters q) hm hv c
  exact ⟨t, he.trans ht, htc, hr.of_putQuarters hq⟩

/-- A step that has logged nothing ends in its state, when that keeps memory and the rest. -/
theorem finish_sameRest (h : SameRest s t) : finish s { st := t } = t :=
  finish_quiet rfl rfl (congrArg State.mem h.1 : t.bare.mem = s.bare.mem)
    (congrArg (fun x => x.sec.keyGen) h.1 : t.bare.sec.keyGen = s.bare.sec.keyGen)

theorem thread?_finish (s : State) (w : Work) (v : ThreadId) : (finish s w).thread? v = w.st.thread? v := by
  unfold State.thread?
  rfl

/-- A computation that logs no effect on memory: its step ends in the state it has worked on. -/
theorem run_quiet {b : W Unit} (hb : b { st := s } = ((), { st := t })) (hm : t.mem = s.mem)
    (hk : t.sec.keyGen = s.sec.keyGen) : run b s = .next t := by
  unfold run
  rw [hb]
  exact congrArg _ (finish_quiet rfl rfl hm hk)

/-- The end of an issue of one thread that acts. -/
theorem endIssue_acts (h : s.Has th) (i : Instr) (vals : List Nat) (pc : DWord) :
    ∃ q, endIssue i { act := [(th, vals)], pass := [], bad := [] } (fun _ => pc) false { st := s }
      = ((), { st := (s.putQuarters q).putThread (th.issued i pc) }) := by
  obtain ⟨q, -, he⟩ := endIssue_solo i th vals (fun _ => pc) { st := s }
  refine ⟨q, he.trans ?_⟩
  rw [h.set _ (by rfl), issued_rec]
  rfl

/-! ### Launches and teams after an update -/

/-- A state with the record of a launch changed. -/
def State.setLaunch (s : State) (l : Nat) (f : Launch → Launch) : State :=
  { s with launches := s.launches.map fun x => if x.slot = l then f x else x }

/-- A state with the record of a team changed. -/
def State.setTeam (s : State) (c sl : Nat) (f : Team → Team) : State :=
  { s with teams := s.teams.map fun x => if x.core = c && x.slot = sl then f x else x }

theorem modLaunch_run (l : Nat) (f : Launch → Launch) (w : Work) :
    modLaunch l f w = ((), { w with st := w.st.setLaunch l f }) := rfl
theorem modTeam_run (c sl : Nat) (f : Team → Team) (w : Work) :
    modTeam c sl f w = ((), { w with st := w.st.setTeam c sl f }) := rfl

theorem launch?_setLaunch (s : State) (l : Nat) {f : Launch → Launch} (hf : ∀ x, (f x).slot = x.slot) :
    (s.setLaunch l f).launch? l = (s.launch? l).map f := by
  unfold State.setLaunch State.launch?
  dsimp only
  induction s.launches with
  | nil => rfl
  | cons x xs ih =>
    rw [List.map_cons, List.find?_cons, List.find?_cons, ih]
    by_cases hx : x.slot = l <;> simp [hx, hf]

theorem team?_setTeam (s : State) (c sl : Nat) {f : Team → Team} (hf : ∀ x, (f x).core = x.core ∧ (f x).slot = x.slot) :
    (s.setTeam c sl f).team? c sl = (s.team? c sl).map f := by
  unfold State.setTeam State.team?
  dsimp only
  induction s.teams with
  | nil => rfl
  | cons x xs ih =>
    rw [List.map_cons, List.find?_cons, List.find?_cons, ih]
    by_cases hx : (x.core = c && x.slot = sl) <;> simp [hx, hf]

/-! ### EXIT -/

/-- A thread's record after its EXIT: it waits for its next item. -/
def Thread.exited (th : Thread) (w : IWord) (s : State) : Thread :=
  { th.issued (.exitW w) s.cur.pc with wait := .eng (.assign s.clock), windows := [] }

/-- A launch after one of its items has retired (R7, R269). -/
def Launch.retire (l : Launch) : Launch := { l with retired := l.retired + 1, wdog := 0 }

theorem exec_exit_retires {w : IWord} (h : Solo (.exitW w) s th) (hm : th.handler = false) (hn : th.nest = 0) :
    ∃ q, exec (.exitW w) s = .next (((s.putQuarters q).putThread (th.exited w s)).setLaunch th.lslot Launch.retire) := by
  obtain ⟨q, he⟩ := endIssue_acts h.has (.exitW w) (Solo.values (.exitW w) s th) s.cur.pc
  have hx := modThread_put (w := { st := s.putQuarters q }) h.has rfl (a := th.issued (.exitW w) s.cur.pc)
    (b := th.exited w s) (f := fun x => { x with wait := .eng (.assign s.clock), windows := [] }) rfl rfl rfl
  refine ⟨q, run_quiet ?_ rfl rfl⟩
  simp only [W.run_bind, h.check, List.filterMap_cons, List.filterMap_nil, List.filter_cons, List.filter_nil, hm, hn,
    Bool.false_eq_true, if_false, ne_eq, not_true_eq_false, Bool.not_false, decide_true, Bool.and_true, if_true,
    List.append_nil, W.forIn_cons, W.forIn_nil, W.run_pure]
  rw [he, hx, modLaunch_run]
  rfl

/-- The cause that EXIT raises for a thread: PROT in handler mode, SECTION inside a reader section (R189). -/
def exitCause (th : Thread) : Option Cause :=
  if th.handler then some .prot else if th.nest ≠ 0 then some .sectionC else none

theorem exec_exit_raises {w : IWord} (h : Solo (.exitW w) s th) {c : Cause} (hc : exitCause th = some c) :
    exec (.exitW w) s = .next (finish s
      (endIssue (.exitW w) { act := [], pass := [], bad := [(th.tid, c, 0)] } (fun _ => s.cur.pc) false { st := s }).2) := by
  have hact : (!th.handler && decide (th.nest = 0)) = false := by
    unfold exitCause at hc
    split at hc <;> simp_all
  have hbad : (if th.handler then some (th.tid, Cause.prot, 0)
      else if th.nest ≠ 0 then some (th.tid, Cause.sectionC, 0) else none) = some (th.tid, c, 0) := by
    refine .trans ?_ (congrArg (Option.map fun c => (th.tid, c, 0)) hc)
    unfold exitCause
    split
    · rfl
    · split <;> rfl
  refine congrArg (fun r : Unit × Work => Host.Outcome.next (finish s r.2)) ?_
  simp only [W.run_bind, h.check, List.filterMap_cons, hbad, List.filterMap_nil, List.filter_cons, List.filter_nil, hact,
    Bool.false_eq_true, if_false, List.nil_append, W.forIn_nil, W.run_pure]
  rfl

/-- The claim of EXIT: the item retires, or the thread takes SECTION or PROT. -/
theorem exitRetiresTheItem : Claims.ExitRetiresTheItem := by
  intro w s th h
  refine ⟨fun hm hn => ?_, fun ht hm hv hn => ?_, fun ht hm => ?_⟩
  · obtain ⟨q, he⟩ := exec_exit_retires h hm hn
    refine ⟨_, he, ?_, fun l hl => ?_, rfl, fun v hv => ?_, fun _ => rfl⟩
    · have hx : ((s.putQuarters q).putThread (th.exited w s)).Has (th.exited w s) := State.Has.put h.has rfl
      exact hx.thread?
    · rw [launch?_setLaunch _ _ (by exact fun _ => rfl)]
      exact congrArg (Option.map Launch.retire) hl
    · exact thread?_putThread_ne (s := s) (a := th.exited w s) hv
  · obtain ⟨t, he, htc, hr⟩ := endIssue_takesCause ht hm hv (.exitW w) (c := .sectionC) (by decide) 0 fun _ => s.cur.pc
    refine ⟨t, ?_, htc, hr⟩
    rw [exec_exit_raises h (c := .sectionC) (by simp [exitCause, hm, hn]), he, finish_sameRest hr]
  · obtain ⟨q, -, he⟩ := endIssue_raise (.exitW w) th.tid (c := .prot) (by decide) 0 (fun _ => s.cur.pc) s
    have hd : raise th.tid .prot false s.cur.pc { st := s.putQuarters q } = _ := raise_doubles (ht.putQuarters q) hm .prot
    refine ⟨_, (th.raising .prot false s.cur.pc).doubled .prot, exec_exit_raises h (c := .prot) (by simp [exitCause, hm]),
      ?_, rfl, rfl⟩
    rw [thread?_finish, he, hd, thread?_reported]
    have hx := (raised_has (s := s.putQuarters q) h.has .prot false s.cur.pc).put
      (a := (th.raising .prot false s.cur.pc).doubled .prot) rfl
    exact hx.thread?

end Sys2Proof.Machine
end

section
/-!
The assignment of items (07 R267, R268): what a claim takes, what an item makes of its thread, and a lane that becomes idle.
-/
namespace Sys2Proof.Machine

variable {s : State} {w : Work} {th : Thread} {tm : Team} {l : Launch}

/-! ### Claiming items -/

/-- A launch after a team has claimed items of it as `x` offers them: returned ones, or else the next ones (R267). -/
def Launch.afterClaim (x y : Launch) : Launch :=
  if x.returned ≠ [] then { y with returned := y.returned.drop 64 }
  else { y with next := x.next + min 64 (x.rcd.items - x.next) }

/-- A state after a team with an empty batch has claimed items of launch `x`. -/
def State.claimed (s : State) (c sl l : Nat) (tm : Team) (x : Launch) : State :=
  (s.setTeam c sl fun y => { y with batch := tm.claimed x }).setLaunch l x.afterClaim

theorem claim_run (c sl : Nat) {k : Nat} (hl : w.st.launch? k = some l) (hb : tm.batch = []) :
    claim c sl k w = ((), { w with st := w.st.claimed c sl k tm l }) := by
  unfold claim State.claimed Team.claimed Launch.afterClaim
  simp only [W.run_bind, W.run_getSt, hl, hb]
  by_cases hr : l.returned = []
  · simp [hr, modTeam_run, modLaunch_run]
  · simp [hr, modTeam_run, modLaunch_run]

/-- What an assignment may claim first: items, when the team's batch is empty. -/
def State.batched (s : State) (c sl l : Nat) (tm : Team) (x : Launch) : State :=
  if tm.batch.isEmpty then s.claimed c sl l tm x else s

theorem batched_of_batch (h : tm.batch ≠ []) (c sl k : Nat) : s.batched c sl k tm l = s := by
  simp [State.batched, h]
theorem batched_of_empty (h : tm.batch = []) (c sl k : Nat) : s.batched c sl k tm l = s.claimed c sl k tm l := by
  simp [State.batched, h]

/-- A claim changes teams and launches only. -/
theorem batched_frame (s : State) (c sl k : Nat) (tm : Team) (l : Launch) :
    (s.batched c sl k tm l).threads = s.threads ∧ (s.batched c sl k tm l).mem = s.mem ∧
      (s.batched c sl k tm l).sec = s.sec := by
  unfold State.batched
  split <;> exact ⟨rfl, rfl, rfl⟩

theorem team?_batched {c sl : Nat} (h : s.team? c sl = some tm) (k : Nat) :
    (s.batched c sl k tm l).team? c sl = some { tm with batch := tm.claimed l } := by
  by_cases hb : tm.batch = []
  · rw [batched_of_empty hb]
    exact (team?_setTeam s c sl (f := fun y => { y with batch := tm.claimed l }) fun _ => ⟨rfl, rfl⟩).trans (h ▸ rfl)
  · rw [batched_of_batch hb, h]
    simp [Team.claimed, hb]

theorem launch?_batched_of_empty {c sl k : Nat} (hl : s.launch? k = some l) (hb : tm.batch = []) :
    (s.batched c sl k tm l).launch? k = some (l.afterClaim l) := by
  rw [batched_of_empty hb]
  refine (launch?_setLaunch (s.setTeam c sl _) k fun y => ?_).trans (congrArg (Option.map l.afterClaim) hl)
  unfold Launch.afterClaim
  split <;> rfl

/-! ### Taking an item -/

/-- A thread's record when it has taken item `n` after an EXIT (R269). -/
def Thread.taking (x : Thread) (n : Nat) : Thread :=
  { x with
    item := BitVec.ofNat 32 n
    itemage := if x.itemage = 0xFFFFFFFF then x.itemage else x.itemage + 1
    p := x.p.mapIdx fun k b => k = 0 && b
    fpx := 0, wait := .ready }

theorem takeItem_run (h : w.st.Has th) (n : Nat) :
    takeItem th.tid n true w = ((), { w with st := w.st.putThread (th.taking n) }) := by
  refine (modThread_has h _ (by rfl)).trans ?_
  congr 3
  unfold Thread.taking
  by_cases ha : th.itemage = 0xFFFFFFFF <;> simp [ha]

theorem Has_batched (h : s.Has th) (c sl k : Nat) : (s.batched c sl k tm l).Has th :=
  Has_threads h (batched_frame s c sl k tm l).1

/-- The thread, its team and its launch are there, and the thread waits for its next item. -/
structure AtAssignment (s : State) (th : Thread) (tm : Team) (l : Launch) (c : Nat) : Prop where
  one    : s.Has th
  waits  : th.wait = .eng (.assign c)
  team   : s.team? th.tid.core th.slot = some tm
  launch : s.launch? th.lslot = some l

/-- No drain, fault or earlier end stands against an item for the thread. -/
def mayTake (th : Thread) (tm : Team) (l : Launch) : Bool := !(th.gone || tm.draining || l.draining || l.faulted)

variable {c : Nat}

/-- The team after one item of its batch has been handed out. -/
def Team.handOut (tm : Team) : Team := { tm with batch := tm.batch.drop 1 }

/-- The last part of an assignment: the first item of the batch, or an idle lane. -/
def handItem (t : ThreadId) (sl : Nat) (age : Bool) : W Bool := do
  match ((← getSt).team? t.core sl).bind fun x => x.batch.head? with
  | none =>
    makeIdle t
    return false
  | some n =>
    modTeam t.core sl Team.handOut
    takeItem t n age
    return true

theorem assignItem_eq (h : AtAssignment s th tm l c) (age : Bool) :
    assignItem th.tid age { st := s }
      = if mayTake th tm l then handItem th.tid th.slot age { st := s.batched th.tid.core th.slot th.lslot tm l }
        else (false, (makeIdle th.tid { st := s }).2) := by
  unfold assignItem mayTake
  simp only [W.run_bind, W.run_getSt, h.one.thread?, h.team, h.launch, W.run_ite]
  rcases (th.gone || tm.draining || l.draining || l.faulted)
  · by_cases hb : tm.batch = []
    · rw [batched_of_empty hb]
      simp only [hb, List.isEmpty_nil, Bool.false_eq_true, if_false, if_true, Bool.not_false]
      rw [claim_run (w := { st := s }) _ _ h.launch hb]
      rfl
    · rw [batched_of_batch hb]
      unfold handItem
      simp only [List.isEmpty_iff, hb, Bool.false_eq_true, if_false, Bool.not_false, if_true, W.run_bind, W.run_getSt, h.team]
      rfl
  · rfl

theorem handItem_takes (h : w.st.Has th) (ht : w.st.team? th.tid.core th.slot = some tm) {n : Nat} {rest : List Nat}
    (hn : tm.batch = n :: rest) :
    handItem th.tid th.slot true w
      = (true, { w with st := (w.st.setTeam th.tid.core th.slot Team.handOut).putThread (th.taking n) }) := by
  unfold handItem
  simp only [W.run_bind, W.run_getSt, ht, Option.bind_some, hn, List.head?_cons, modTeam_run]
  rw [takeItem_run (w := { w with st := w.st.setTeam th.tid.core th.slot Team.handOut }) h]
  rfl

theorem handItem_idles {t : ThreadId} {sl : Nat} (ht : w.st.team? t.core sl = some tm) (hn : tm.batch = []) (age : Bool) :
    handItem t sl age w = (false, (makeIdle t w).2) := by
  unfold handItem
  simp only [W.run_bind, W.run_getSt, ht, Option.bind_some, hn, List.head?_nil]
  rfl

/-! ### A lane becomes idle (R171) -/

/-- What the end of a lane keeps: memory, the effects logged on it, and of each thread its place, its item and that it is
idle. -/
def idlePart (w : Work) : (List Host.Cell × Nat) × (List MemOp × Bool) × List (ThreadId × Nat × Bool × Word) :=
  (memPart w, (w.log, w.rekey), w.st.threads.map fun x => (x.tid, x.slot, x.idle, x.item))

theorem same_idlePart {α : Type} {x : W α} (h : Same offQuarters x) : Same idlePart x := by
  intro w
  unfold idlePart memPart
  rw [(offQuarters_eq (h w)).1]
  rfl

theorem modThread_idlePart (t : ThreadId) {f : Thread → Thread}
    (hf : ∀ x, (f x).tid = x.tid ∧ (f x).slot = x.slot ∧ (f x).idle = x.idle ∧ (f x).item = x.item) :
    Same idlePart (modThread t f) := by
  intro w
  refine Prod.ext rfl (Prod.ext rfl ?_)
  show List.map _ (List.map _ _) = _
  rw [List.map_map]
  refine List.map_congr_left fun x _ => ?_
  simp only [Function.comp_apply]
  split
  · simp [hf]
  · rfl

theorem barCheck_idlePart (k sl b : Nat) : Same idlePart (barCheck k sl b) := by
  unfold barCheck
  refine same_bind same_getSt fun s => ?_
  split
  · exact same_pure _
  · refine same_ite (fun _ => same_bind (same_upd fun _ => rfl) fun _ => ?_) fun _ => same_upd fun _ => rfl
    exact same_forIn fun _ _ _ => same_bind (modThread_idlePart _ fun _ => ⟨rfl, rfl, rfl, rfl⟩) fun _ => same_pure _

theorem tokenFix_idlePart (k q : Nat) : Same idlePart (tokenFix k q) := by
  unfold tokenFix
  exact same_bind same_getSt fun _ => same_upd fun _ => rfl

/-- Every thread is idle. -/
def State.allIdle (s : State) : Prop := ∀ x ∈ s.threads, x.idle = true

theorem allIdle_of_idlePart {w w' : Work} (h : idlePart w' = idlePart w) (hi : w.st.allIdle) : w'.st.allIdle := by
  have hm : w'.st.threads.map Thread.idle = w.st.threads.map Thread.idle := by
    have := congrArg (fun p => p.2.2.map fun y => y.2.2.1) h
    simpa [idlePart, Function.comp_def] using this
  intro x hx
  have hx' : x.idle ∈ w.st.threads.map Thread.idle := hm ▸ List.mem_map_of_mem hx
  obtain ⟨y, hy, he⟩ := List.mem_map.1 hx'
  exact he ▸ hi y hy

theorem liveThreads_allIdle (h : s.allIdle) (k sl : Nat) : s.liveThreads k sl = [] := by
  unfold State.liveThreads
  refine List.filter_eq_nil_iff.2 fun x hx => ?_
  simp [h x (List.mem_of_mem_filter hx)]

/-- No phase of a convergence register completes without a live thread (R179). -/
theorem cvCheck_allIdle (h : w.st.allIdle) (k sl j q fuel : Nat) : cvCheck k sl j q fuel w = ((), w) := by
  cases fuel with
  | zero => rfl
  | succ fuel =>
    unfold cvCheck
    rw [W.run_bind, W.run_getSt]
    dsimp only
    rcases (w.st.team? k sl).bind fun tm => tm.cvInst? j q with _ | x
    · rfl
    · have hf : w.st.cvFull k sl x = false := by
        unfold State.cvFull State.cvSet
        rw [liveThreads_allIdle h]
        cases hs : x.signed <;> simp
      dsimp only
      rw [hf]
      rfl

theorem teamCheck_idlePart (h : w.st.allIdle) (k sl : Nat) : idlePart (teamCheck k sl w).2 = idlePart w := by
  unfold teamCheck
  rw [W.run_bind, W.run_getSt]
  dsimp only
  rcases w.st.team? k sl with _ | tm
  · rfl
  have hb : Same idlePart (forIn (List.range 16) PUnit.unit fun b _ => do
      barCheck k sl b
      pure (ForInStep.yield PUnit.unit) : W PUnit) :=
    same_forIn fun b _ _ => same_bind (barCheck_idlePart k sl b) fun _ => same_pure _
  have hq : Same idlePart (forIn (List.range 4) PUnit.unit fun q _ => do
      tokenFix k q
      pure (ForInStep.yield PUnit.unit) : W PUnit) :=
    same_forIn fun q _ _ => same_bind (tokenFix_idlePart k q) fun _ => same_pure _
  have h1 := allIdle_of_idlePart (hb w) h
  dsimp only
  rw [W.run_bind]
  refine .trans ?_ (hb w)
  generalize (forIn (List.range 16) PUnit.unit _ : W PUnit) w = r at h1
  rw [W.run_bind, forIn_skip tm.cvs _ _ fun x _ => by rw [W.run_bind, cvCheck_allIdle h1]; rfl]
  dsimp only
  rw [W.run_bind, W.run_getSt]
  dsimp only
  rw [liveThreads_allIdle h1]
  exact hq r.2

/-- The last thread becomes idle: it keeps its place and its item. -/
theorem makeIdle_last (h : w.st.threads = [th]) :
    idlePart (makeIdle th.tid w).2 = (memPart w, (w.log, w.rekey), [(th.tid, th.slot, true, th.item)]) := by
  have hx : w.st.Has th := by simp [State.Has, h]
  have ht : (w.st.putThread { th with idle := true, wait := .ready, windows := [] }).threads
      = [{ th with idle := true, wait := .ready, windows := [] }] := by
    simp [State.putThread, State.setThread, h]
  have hq : Same idlePart (settleQuarter th.tid.core th.tid.qtr) :=
    same_idlePart (same_bind (freeEntries_off _ _) fun _ => leaveSerial_off _ _)
  unfold makeIdle
  simp only [W.run_bind, W.run_getSt, hx.thread?]
  rw [modThread_has hx _ rfl]
  refine (teamCheck_idlePart (allIdle_of_idlePart (hq _) ?_) _ _).trans ((hq _).trans ?_)
  · intro y hy
    rw [ht] at hy
    simp_all
  · unfold idlePart
    dsimp only
    rw [ht]
    rfl

/-! ### ITEM_ASSIGN -/

/-- A state after a thread's team has claimed items where it has to, and has handed one out. -/
def State.handedOut (s : State) (th : Thread) (tm : Team) (l : Launch) : State :=
  (s.batched th.tid.core th.slot th.lslot tm l).setTeam th.tid.core th.slot Team.handOut

theorem handedOut_frame (s : State) (th : Thread) (tm : Team) (l : Launch) :
    (s.handedOut th tm l).threads = s.threads ∧ (s.handedOut th tm l).mem = s.mem ∧ (s.handedOut th tm l).sec = s.sec :=
  batched_frame s th.tid.core th.slot th.lslot tm l

theorem handedOut_has (h : s.Has th) : (s.handedOut th tm l).Has th := Has_threads h (handedOut_frame s th tm l).1

theorem team?_handedOut (h : s.team? th.tid.core th.slot = some tm) :
    (s.handedOut th tm l).team? th.tid.core th.slot = some { tm with batch := (tm.claimed l).drop 1 } :=
  (team?_setTeam _ _ _ (f := Team.handOut) fun _ => ⟨rfl, rfl⟩).trans
    (congrArg (Option.map Team.handOut) (team?_batched h th.lslot))

theorem assignItem_takes (h : AtAssignment s th tm l c) (hm : mayTake th tm l = true) {n : Nat} {rest : List Nat}
    (hn : tm.claimed l = n :: rest) :
    assignItem th.tid true { st := s }
      = (true, { st := (s.handedOut th tm l).putThread (th.taking n) }) := by
  rw [assignItem_eq h, if_pos hm]
  exact handItem_takes (w := { st := s.batched th.tid.core th.slot th.lslot tm l }) (Has_batched h.one _ _ _)
    (team?_batched h.team _) hn

theorem assignItem_idles (h : AtAssignment s th tm l c) (hm : mayTake th tm l = false ∨ tm.claimed l = []) :
    ∃ s', s'.threads = s.threads ∧ s'.mem = s.mem ∧ s'.sec = s.sec ∧
      assignItem th.tid true { st := s } = (false, (makeIdle th.tid { st := s' }).2) := by
  rw [assignItem_eq h]
  cases hk : mayTake th tm l with
  | false => exact ⟨s, rfl, rfl, rfl, rfl⟩
  | true =>
    obtain ⟨hth, hmem, hsec⟩ := batched_frame s th.tid.core th.slot th.lslot tm l
    have hn : tm.claimed l = [] := hm.resolve_left (by simp [hk])
    exact ⟨_, hth, hmem, hsec, handItem_idles (w := { st := s.batched th.tid.core th.slot th.lslot tm l })
      (team?_batched h.team _) hn true⟩

/-- Where a thread starts its next item (R269): KDESC + REFILL. -/
def State.refillPc (s : State) (th : Thread) : DWord :=
  s.kdescOf th.lslot + BitVec.ofNat 64 ((((s.launch? th.lslot).bind Launch.desc).map Desc.refill).getD 0)

theorem exec_itemAssign_takes (h : AtAssignment s th tm l c) (hi : th.idle = false) (hm : mayTake th tm l = true) {n : Nat}
    {rest : List Nat} (hn : tm.claimed l = n :: rest) :
    ∃ q, exec (.itemAssign th.tid) s
      = .next (((s.handedOut th tm l).putThread ((th.taking n).goTo (s.refillPc th))).putQuarters q) := by
  obtain ⟨-, hmem, hsec⟩ := handedOut_frame s th tm l
  obtain ⟨q, -, ha⟩ := arriveFresh_live (w := { st := (s.handedOut th tm l).putThread (th.taking n) })
    (State.Has.put (handedOut_has h.one) rfl) hi (s.refillPc th)
  rw [State.putThread_put (by rfl)] at ha
  refine ⟨q, run_quiet (.trans ?_ ha) hmem (congrArg Security.keyGen hsec)⟩
  simp only [h.one.thread?, h.waits, W.run_bind]
  rw [assignItem_takes h hm hn]
  rfl

theorem exec_itemAssign_idles (h : AtAssignment s th tm l c) (hm : mayTake th tm l = false ∨ tm.claimed l = []) :
    ∃ s', s'.threads = s.threads ∧ s'.mem = s.mem ∧ s'.sec = s.sec ∧
      exec (.itemAssign th.tid) s = .next (finish s (makeIdle th.tid { st := s' }).2) := by
  obtain ⟨s', hth, hmem, hsec, ha⟩ := assignItem_idles h hm
  refine ⟨s', hth, hmem, hsec, congrArg (fun r : Unit × Work => Host.Outcome.next (finish s r.2)) (?_ : _ = ((), _))⟩
  simp only [h.one.thread?, h.waits, W.run_bind]
  rw [ha]
  rfl

theorem refillPc_eq (hl : s.launch? th.lslot = some l) {d : Desc} (hd : l.desc = some d) :
    s.refillPc th = l.rcd.kdesc + BitVec.ofNat 64 d.refill := by
  simp [State.refillPc, State.kdescOf, hl, hd]

theorem sameMemory_of_memPart {t : State} (hm : t.mem = s.mem) (hk : t.sec.keyGen = s.sec.keyGen) : SameMemory s t := by
  intro a
  unfold State.byte
  rw [hm, hk]

theorem thread?_of_threads {t : State} (h : t.threads = s.threads) (v : ThreadId) : t.thread? v = s.thread? v := by
  unfold State.thread?
  rw [h]

/-- The last thread becomes idle where it gets no item. -/
theorem itemAssign_idles (h : AtAssignment s th tm l c) (hone : s.threads = [th])
    (hm : mayTake th tm l = false ∨ tm.claimed l = []) :
    ∃ t x, exec (.itemAssign th.tid) s = .next t ∧ t.thread? th.tid = some x ∧ x.idle = true ∧ x.item = th.item ∧
      SameMemory s t := by
  obtain ⟨s', hthreads, hmem, hsec, he⟩ := exec_itemAssign_idles h hm
  have hpart := makeIdle_last (w := { st := s' }) (hthreads.trans hone)
  generalize (makeIdle th.tid { st := s' }).2 = w at he hpart
  obtain ⟨hwmem, hwlog, hwth⟩ : memPart w = (s.mem, s.sec.keyGen) ∧ (w.log, w.rekey) = ([], false) ∧ _ :=
    ⟨(congrArg (·.1) hpart).trans (by rw [← hmem, ← hsec]; rfl), congrArg (·.2.1) hpart, congrArg (·.2.2) hpart⟩
  obtain ⟨x, hx, hxp⟩ := List.map_eq_singleton_iff.1 hwth
  obtain ⟨hm', hk'⟩ := Prod.mk.inj hwmem
  obtain ⟨hl', hr'⟩ := Prod.mk.inj hwlog
  simp only [Prod.mk.injEq] at hxp
  obtain ⟨htid, -, hidle, hitem⟩ := hxp
  refine ⟨_, x, he, ?_, hidle, hitem, ?_⟩
  · rw [thread?_finish]
    simp [State.thread?, hx, htid]
  · rw [finish_quiet hl' hr' hm' hk']
    exact sameMemory_of_memPart hm' hk'

/-- ITEM_ASSIGN gives the next item of the batch, or makes the lane idle. -/
theorem itemsAreAssignedFromTheBatch : Claims.ItemsAreAssignedFromTheBatch := by
  refine ⟨fun s th tm l d c n rest h1 hw hi htm hl hd hdt hdl hf hg hn => ?_,
    fun s th tm l c hth hw _ htm hc hs hl hm => ?_⟩
  · have h : AtAssignment s th tm l c := ⟨h1, hw, find_one htm, find_one hl⟩
    obtain ⟨q, he⟩ := exec_itemAssign_takes h hi (by simp [mayTake, hg, hdt, hdl, hf]) hn
    obtain ⟨hthreads, hmem, hsec⟩ := handedOut_frame s th tm l
    have hx : ((s.handedOut th tm l).putThread ((th.taking n).goTo (s.refillPc th))).Has
      ((th.taking n).goTo (s.refillPc th)) := (handedOut_has h.one).put rfl
    refine ⟨_, (th.taking n).goTo (s.refillPc th), { tm with batch := rest }, he, hx.thread?, rfl, rfl,
      refillPc_eq h.launch hd, rfl, rfl, rfl, rfl, fun k hk hp => ?_, (team?_handedOut h.team).trans (by rw [hn]; rfl), rfl,
      fun hb => ?_, fun hb hr => ?_, fun hb hr => ?_, fun v hv => ?_,
      sameMemory_of_memPart hmem (congrArg Security.keyGen hsec)⟩
    · simp [Thread.goTo, Thread.taking, List.getElem?_mapIdx, hk] at hp
    · exact (congrArg State.launches (batched_of_batch hb th.tid.core th.slot th.lslot) :)
    · exact (launch?_batched_of_empty h.launch hb).trans (by simp [Launch.afterClaim, hr])
    · exact (launch?_batched_of_empty h.launch hb).trans (by simp [Launch.afterClaim, hr])
    · exact (thread?_putThread_ne (s := s.handedOut th tm l) (a := (th.taking n).goTo (s.refillPc th)) hv).trans
        (thread?_of_threads hthreads v)
  · refine itemAssign_idles (tm := tm) (l := l) ⟨by simp [State.Has, hth], hw, by simp [State.team?, htm, hc, hs],
      find_one hl⟩ hth ?_
    rcases hm with hm | hm | hm | hm | hm
    · exact .inl (by simp [mayTake, hm])
    · exact .inl (by simp [mayTake, hm])
    · exact .inl (by simp [mayTake, hm])
    · exact .inl (by simp [mayTake, hm])
    · exact .inr hm

/-- Settles O14: EXIT by the two ends of its issue, ITEM_ASSIGN by what an assignment hands out. -/
theorem exitAndItemAssignment : Obligations.ExitAndItemAssignment :=
  ⟨exitRetiresTheItem, itemsAreAssignedFromTheBatch⟩

end Sys2Proof.Machine
end

section
/-!
The decoder and the encoder are inverse to each other (01 R22 to R38): the fields of a word are its digits, each form's
decoder accepts exactly the words of its own well-formed instructions, and the requirements and constructors of the
opcode maps name the same opcodes.
-/
namespace Sys2Proof

/-! ### Fields and codes -/

@[simp] theorem toNat_field (x lo n : Nat) : (field x lo n).toNat = x / 2 ^ lo % 2 ^ n := by
  simp [field]

@[simp] theorem toNat_flag (x k : Nat) : (flag x k).toNat = x / 2 ^ k % 2 := by
  unfold flag
  rcases Nat.mod_two_eq_zero_or_one (x / 2 ^ k) with h | h <;> simp [h]

/-- A field that holds a digit of the word is that digit. -/
theorem field_eq {x lo n : Nat} {b : BitVec n} (h : x / 2 ^ lo % 2 ^ n = b.toNat) : field x lo n = b :=
  BitVec.eq_of_toNat_eq ((toNat_field x lo n).trans h)

theorem flag_eq {x k : Nat} {b : Bool} (h : x / 2 ^ k % 2 = b.toNat) : flag x k = b := by
  unfold flag
  rw [h]
  cases b <;> rfl

theorem Ty.code_lt (t : Ty) : t.code < 16 := by cases t <;> decide
theorem Rnd.code_lt (r : Rnd) : r.code < 4 := by cases r <;> decide
theorem Order.code_lt (o : Order) : o.code < 4 := by cases o <;> decide
theorem Scope.code_lt (s : Scope) : s.code < 8 := by cases s <;> decide
theorem SlotOp.code_lt (o : SlotOp) : o.code < 128 := by cases o <;> decide
theorem slotTyCode_lt (t : Ty) : slotTyCode t < 8 := by cases t <;> decide

theorem Ty.ofCode_eq {c : Nat} {t : Ty} (h : c % 16 = t.code) : Ty.ofCode c = t := by
  unfold Ty.ofCode
  rw [h]
  cases t <;> rfl
theorem Rnd.ofCode_eq {c : Nat} {r : Rnd} (h : c % 4 = r.code) : Rnd.ofCode c = r := by
  unfold Rnd.ofCode
  rw [h]
  cases r <;> rfl
theorem Order.ofCode_eq {c : Nat} {o : Order} (h : c % 4 = o.code) : Order.ofCode c = o := by
  unfold Order.ofCode
  rw [h]
  cases o <;> rfl

theorem Ty.code_ofCode (c : Nat) : (Ty.ofCode c).code = c % 16 := by
  unfold Ty.ofCode
  have h : c % 16 < 16 := Nat.mod_lt _ (by decide)
  generalize c % 16 = k at h
  interval_cases k <;> rfl
theorem Rnd.code_ofCode (c : Nat) : (Rnd.ofCode c).code = c % 4 := by
  unfold Rnd.ofCode
  have h : c % 4 < 4 := Nat.mod_lt _ (by decide)
  generalize c % 4 = k at h
  interval_cases k <;> rfl
theorem Order.code_ofCode (c : Nat) : (Order.ofCode c).code = c % 4 := by
  unfold Order.ofCode
  have h : c % 4 < 4 := Nat.mod_lt _ (by decide)
  generalize c % 4 = k at h
  interval_cases k <;> rfl

theorem Scope.ofCode_iff {c : Nat} {s : Scope} : Scope.ofCode c = some s ↔ c % 8 = s.code := by
  unfold Scope.ofCode
  have h : c % 8 < 8 := Nat.mod_lt _ (by decide)
  generalize c % 8 = k at h
  interval_cases k <;> cases s <;> decide
theorem slotTyOfCode_iff {c : Nat} {t : Ty} : slotTyOfCode c = some t ↔ c % 8 = slotTyCode t ∧ c % 8 ≠ 7 := by
  unfold slotTyOfCode
  have h : c % 8 < 8 := Nat.mod_lt _ (by decide)
  generalize c % 8 = k at h
  interval_cases k <;> cases t <;> decide
theorem SlotOp.ofCode_iff {c : Nat} {o : SlotOp} : SlotOp.ofCode c = some o ↔ c = o.code := by
  constructor
  · intro h
    unfold SlotOp.ofCode at h
    split at h <;> simp_all <;> subst h <;> rfl
  · rintro rfl
    cases o <;> rfl

/-! ### The digits of each form -/

theorem FWord.fl_lt (w : FWord) : w.fl < 8 := by
  unfold FWord.fl
  have := w.f2.toNat_lt; have := w.f1.toNat_lt; have := w.f0.toNat_lt
  omega

theorem FWord.enc_lt (w : FWord) : w.enc < 2 ^ 53 := by
  unfold FWord.enc Guard.enc
  have := w.la.isLt; have := w.g.gn.toNat_lt; have := w.g.gp.isLt; have := w.d.isLt; have := w.a.isLt
  have := w.b.isLt; have := w.c.isLt; have := w.ty.code_lt; have := w.rnd.code_lt; have := w.fl_lt
  omega

theorem fFields_enc (op : Nat) (w : FWord) : fFields (op * 2 ^ 53 + w.enc) = w := by
  obtain ⟨la, ⟨gn, gp⟩, d, a, b, c, ty, rnd, f2, f1, f0⟩ := w
  have := la.isLt; have := gn.toNat_lt; have := gp.isLt; have := d.isLt; have := a.isLt
  have := b.isLt; have := c.isLt; have := ty.code_lt; have := rnd.code_lt
  have := f2.toNat_lt; have := f1.toNat_lt; have := f0.toNat_lt
  unfold fFields guardAt FWord.enc Guard.enc FWord.fl
  simp only [FWord.mk.injEq, Guard.mk.injEq]
  refine ⟨field_eq ?_, ⟨flag_eq ?_, field_eq ?_⟩, field_eq ?_, field_eq ?_, field_eq ?_, field_eq ?_, Ty.ofCode_eq ?_,
    Rnd.ofCode_eq ?_, flag_eq ?_, flag_eq ?_, flag_eq ?_⟩ <;> omega

/-- The low `hi` bits of a number are the digit of `n` bits at `lo` and the bits below it. -/
theorem mod_eq_digit (x hi lo n : Nat) (h : hi = lo + n) : x % 2 ^ hi = x / 2 ^ lo % 2 ^ n * 2 ^ lo + x % 2 ^ lo := by
  rw [h, Nat.pow_add, Nat.mod_mul, Nat.mul_comm, Nat.add_comm]

theorem enc_fFields (x : Nat) : (fFields x).enc = x % 2 ^ 53 := by
  rw [mod_eq_digit x 53 49 4 rfl, mod_eq_digit x 49 48 1 rfl, mod_eq_digit x 48 45 3 rfl, mod_eq_digit x 45 36 9 rfl,
    mod_eq_digit x 36 27 9 rfl, mod_eq_digit x 27 18 9 rfl, mod_eq_digit x 18 9 9 rfl, mod_eq_digit x 9 5 4 rfl,
    mod_eq_digit x 5 3 2 rfl, mod_eq_digit x 3 2 1 rfl, mod_eq_digit x 2 1 1 rfl, mod_eq_digit x 1 0 1 rfl, Nat.pow_zero,
    Nat.mod_one]
  simp only [fFields, guardAt, FWord.enc, Guard.enc, FWord.fl, toNat_field, toNat_flag, Nat.reduceSub,
    Nat.reducePow, Nat.pow_zero, Nat.div_one, Ty.code_ofCode, Rnd.code_ofCode]
  ring

theorem MWord.enc_lt (w : MWord) : w.enc < 2 ^ 53 := by
  unfold MWord.enc Guard.enc
  have := w.la.isLt; have := w.g.gn.toNat_lt; have := w.g.gp.isLt; have := w.d.isLt; have := w.a.isLt
  have := w.b.isLt; have := w.c.isLt; have := w.ty.code_lt; have := w.order.code_lt; have := w.scope.code_lt
  omega

theorem mFields_enc (op : Nat) (w : MWord) : mFields (op * 2 ^ 53 + w.enc) w.scope = w := by
  obtain ⟨la, ⟨gn, gp⟩, d, a, b, c, ty, order, scope⟩ := w
  have := la.isLt; have := gn.toNat_lt; have := gp.isLt; have := d.isLt; have := a.isLt
  have := b.isLt; have := c.isLt; have := ty.code_lt; have := order.code_lt; have := scope.code_lt
  unfold mFields guardAt MWord.enc Guard.enc
  simp only [MWord.mk.injEq, Guard.mk.injEq]
  refine ⟨field_eq ?_, ⟨flag_eq ?_, field_eq ?_⟩, field_eq ?_, field_eq ?_, field_eq ?_, field_eq ?_, Ty.ofCode_eq ?_,
    Order.ofCode_eq ?_, trivial⟩ <;> omega

theorem scope_enc (op : Nat) (w : MWord) : Scope.ofCode (op * 2 ^ 53 + w.enc) = some w.scope := by
  have := w.scope.code_lt
  unfold MWord.enc Guard.enc
  exact Scope.ofCode_iff.2 (by omega)

theorem enc_mFields {x : Nat} {sc : Scope} (h : Scope.ofCode x = some sc) : (mFields x sc).enc = x % 2 ^ 53 := by
  rw [mod_eq_digit x 53 49 4 rfl, mod_eq_digit x 49 48 1 rfl, mod_eq_digit x 48 45 3 rfl, mod_eq_digit x 45 36 9 rfl,
    mod_eq_digit x 36 27 9 rfl, mod_eq_digit x 27 18 9 rfl, mod_eq_digit x 18 9 9 rfl, mod_eq_digit x 9 5 4 rfl,
    mod_eq_digit x 5 3 2 rfl]
  simp only [mFields, guardAt, MWord.enc, Guard.enc, toNat_field, toNat_flag, Nat.reduceSub, Nat.reducePow,
    Ty.code_ofCode, Order.code_ofCode,
    ← Scope.ofCode_iff.1 h]
  ring

theorem IWord.enc_lt (w : IWord) : w.enc < 2 ^ 55 := by
  unfold IWord.enc Guard.enc
  have := w.g.gn.toNat_lt; have := w.g.gp.isLt; have := w.d.isLt; have := w.mod10.isLt; have := w.imm.isLt
  omega

theorem iFields_enc (op : Nat) (w : IWord) : iFields (op * 2 ^ 55 + w.enc) = w := by
  obtain ⟨⟨gn, gp⟩, d, mod10, imm⟩ := w
  have := gn.toNat_lt; have := gp.isLt; have := d.isLt; have := mod10.isLt; have := imm.isLt
  unfold iFields guardAt IWord.enc Guard.enc
  simp only [IWord.mk.injEq, Guard.mk.injEq]
  refine ⟨⟨flag_eq ?_, field_eq ?_⟩, field_eq ?_, field_eq ?_, field_eq ?_⟩ <;> omega

theorem enc_iFields (x : Nat) : (iFields x).enc = x % 2 ^ 55 := by
  rw [mod_eq_digit x 55 54 1 rfl, mod_eq_digit x 54 51 3 rfl, mod_eq_digit x 51 42 9 rfl, mod_eq_digit x 42 32 10 rfl]
  simp only [iFields, guardAt, IWord.enc, Guard.enc, toNat_field, toNat_flag, Nat.reduceSub, Nat.reducePow,
    Nat.pow_zero, Nat.div_one]
  ring

theorem EWord.enc_lt (w : EWord) : w.enc < 2 ^ 54 := by
  unfold EWord.enc Guard.enc
  have := w.la.isLt; have := w.g.gn.toNat_lt; have := w.g.gp.isLt; have := w.fl.toNat_lt; have := w.o1.isLt
  have := w.o2.isLt; have := w.o3.isLt; have := w.o4.isLt; have := w.o5.isLt
  omega

theorem eFields_enc (op : Nat) (w : EWord) : eFields (op * 2 ^ 54 + w.enc) = w := by
  obtain ⟨la, ⟨gn, gp⟩, fl, o1, o2, o3, o4, o5⟩ := w
  have := la.isLt; have := gn.toNat_lt; have := gp.isLt; have := fl.toNat_lt; have := o1.isLt
  have := o2.isLt; have := o3.isLt; have := o4.isLt; have := o5.isLt
  unfold eFields guardAt EWord.enc Guard.enc
  simp only [EWord.mk.injEq, Guard.mk.injEq]
  refine ⟨field_eq ?_, ⟨flag_eq ?_, field_eq ?_⟩, flag_eq ?_, field_eq ?_, field_eq ?_, field_eq ?_, field_eq ?_,
    field_eq ?_⟩ <;> omega

theorem enc_eFields (x : Nat) : (eFields x).enc = x % 2 ^ 54 := by
  rw [mod_eq_digit x 54 50 4 rfl, mod_eq_digit x 50 49 1 rfl, mod_eq_digit x 49 46 3 rfl, mod_eq_digit x 46 45 1 rfl,
    mod_eq_digit x 45 36 9 rfl, mod_eq_digit x 36 27 9 rfl, mod_eq_digit x 27 18 9 rfl, mod_eq_digit x 18 9 9 rfl,
    mod_eq_digit x 9 0 9 rfl, Nat.pow_zero, Nat.mod_one]
  simp only [eFields, guardAt, EWord.enc, Guard.enc, toNat_field, toNat_flag, Nat.reduceSub, Nat.reducePow,
    Nat.pow_zero, Nat.div_one]
  ring

theorem PSlot.enc_lt (s : PSlot) : s.enc < 2 ^ 31 := by
  unfold PSlot.enc
  have := s.op.code_lt; have := s.da.isLt; have := s.b.isLt; have := slotTyCode_lt s.ty; have := s.rnd.code_lt
  have := s.f0.toNat_lt
  omega

theorem slotFields_enc (s : PSlot) : slotFields s.enc s.op s.ty = s := by
  obtain ⟨op, da, b, ty, rnd, f0⟩ := s
  have := op.code_lt; have := da.isLt; have := b.isLt; have := slotTyCode_lt ty; have := rnd.code_lt
  have := f0.toNat_lt
  unfold slotFields PSlot.enc
  simp only [PSlot.mk.injEq, true_and]
  refine ⟨field_eq ?_, field_eq ?_, Rnd.ofCode_eq ?_, flag_eq ?_⟩ <;> omega

theorem enc_slotFields {y : Nat} {op : SlotOp} {ty : Ty} (hy : y < 2 ^ 31) (ho : SlotOp.ofCode (y / 2 ^ 24) = some op)
    (ht : slotTyOfCode (y / 2 ^ 3) = some ty) : (slotFields y op ty).enc = y := by
  have hop : op.code = y / 2 ^ 24 % 2 ^ 7 := by rw [← SlotOp.ofCode_iff.1 ho]; omega
  have hy' : y % 2 ^ 31 = y := Nat.mod_eq_of_lt hy
  rw [mod_eq_digit y 31 24 7 rfl, mod_eq_digit y 24 15 9 rfl, mod_eq_digit y 15 6 9 rfl, mod_eq_digit y 6 3 3 rfl,
    mod_eq_digit y 3 1 2 rfl, mod_eq_digit y 1 0 1 rfl, Nat.pow_zero, Nat.mod_one] at hy'
  refine .trans ?_ hy'
  simp only [slotFields, PSlot.enc, toNat_field, toNat_flag, Nat.reducePow, Nat.pow_zero, Nat.div_one, Rnd.code_ofCode, hop,
    ← (slotTyOfCode_iff.1 ht).1]
  ring

/-! ### Opcodes, requirements and constructors -/

variable {i : Instr} {op : Nat}

theorem mkF_of_form {w : FWord} (h : form i = .f op w) : op < 512 ∧ op ≠ 0 ∧ (fReq op).isSome = true ∧ mkF op w = some i := by
  cases i <;> cases h <;> exact ⟨by decide, by decide, rfl, rfl⟩
theorem mkM_of_form {w : MWord} (h : form i = .m op w) :
    op < 512 ∧ op ≠ 0 ∧ fReq op = none ∧ (mReq op).isSome = true ∧ mkM op w = some i := by
  cases i <;> cases h <;> exact ⟨by decide, by decide, rfl, rfl, rfl⟩
theorem mkI_of_form {w : IWord} (h : form i = .i op w) : op < 128 ∧ (iReq op).isSome = true ∧ mkI op w = some i := by
  cases i <;> cases h <;> exact ⟨by decide, rfl, rfl⟩
theorem mkE_of_form {w : EWord} (h : form i = .e op w) : op < 256 ∧ (eReq op).isSome = true ∧ mkE op w = some i := by
  cases i <;> cases h <;> exact ⟨by decide, rfl, rfl⟩
theorem eq_pairWord_of_form {w : PWord} (h : form i = .p w) : i = .pairWord w := by
  cases i <;> cases h
  rfl

theorem mkF_iff {w : FWord} : mkF op w = some i ↔ form i = .f op w := by
  refine ⟨fun h => ?_, fun h => (mkF_of_form h).2.2.2⟩
  unfold mkF at h
  split at h <;> cases h <;> rfl
theorem mkM_iff {w : MWord} : mkM op w = some i ↔ form i = .m op w := by
  refine ⟨fun h => ?_, fun h => (mkM_of_form h).2.2.2.2⟩
  unfold mkM at h
  split at h <;> cases h <;> rfl
theorem mkI_iff {w : IWord} : mkI op w = some i ↔ form i = .i op w := by
  refine ⟨fun h => ?_, fun h => (mkI_of_form h).2.2⟩
  unfold mkI at h
  split at h <;> cases h <;> rfl
theorem mkE_iff {w : EWord} : mkE op w = some i ↔ form i = .e op w := by
  refine ⟨fun h => ?_, fun h => (mkE_of_form h).2.2⟩
  unfold mkE at h
  split at h <;> cases h <;> rfl

/-! ### The decoder of each form accepts its well-formed instructions -/

variable {x : Nat}

theorem gate_ok_iff {guard la rsvd md : Bool} {o : Option Instr} :
    gate guard la rsvd md o = .ok i ↔ (guard && la && (rsvd && md)) = true ∧ o = some i := by
  unfold gate
  cases guard <;> cases la <;> cases rsvd <;> cases md <;> cases o <;> simp

theorem wf_of_form_f {w : FWord} (h : form i = .f op w) :
    i.wf = (w.g.ok && (laFree op || w.la = 0) && (fReq op).any fun r => r.rsvd w && r.md w) := by
  unfold Instr.wf
  rw [h]
theorem wf_of_form_m {w : MWord} (h : form i = .m op w) :
    i.wf = (w.g.ok && (mReq op).any fun r => r.rsvd w && r.md w) := by
  unfold Instr.wf
  rw [h]
theorem wf_of_form_i {w : IWord} (h : form i = .i op w) :
    i.wf = (w.g.ok && (iReq op).any fun r => r.rsvd w && r.md w) := by
  unfold Instr.wf
  rw [h]
theorem wf_of_form_e {w : EWord} (h : form i = .e op w) :
    i.wf = (w.g.ok && (eReq op).any fun r => r.rsvd w && r.md w) := by
  unfold Instr.wf
  rw [h]

theorem decodeF_ok_iff : decodeF x = .ok i ↔
    i.wf = true ∧ (form i = .f (x / 2 ^ 53 % 512) (fFields x) ∨
      ∃ sc, Scope.ofCode x = some sc ∧ form i = .m (x / 2 ^ 53 % 512) (mFields x sc)) := by
  unfold decodeF
  dsimp only
  generalize x / 2 ^ 53 % 512 = op
  cases hf : fReq op with
  | some r =>
    have hm : ¬ ∃ sc, Scope.ofCode x = some sc ∧ form i = .m op (mFields x sc) := by
      rintro ⟨sc, -, h⟩
      obtain ⟨-, -, hn, -⟩ := mkM_of_form h
      simp [hn] at hf
    simp only [gate_ok_iff, mkF_iff, hm, or_false]
    refine and_congr_left fun h => ?_
    rw [wf_of_form_f h, hf, Option.any_some]
  | none =>
    have hn : form i ≠ .f op (fFields x) := fun h => by
      obtain ⟨-, -, hr, -⟩ := mkF_of_form h
      simp [hf] at hr
    simp only [hn, false_or]
    cases hr : mReq op with
    | none =>
      refine iff_of_false nofun fun ⟨_, sc, _, h⟩ => ?_
      obtain ⟨-, -, -, hs, -⟩ := mkM_of_form h
      simp [hr] at hs
    | some r =>
      cases hsc : Scope.ofCode x with
      | none => simp [gate_ok_iff]
      | some sc =>
        simp only [gate_ok_iff, mkM_iff, Option.getD_some, Option.isSome_some, Bool.true_and, Option.some.injEq,
          exists_eq_left']
        refine and_congr_left fun h => ?_
        rw [wf_of_form_m h, hr, Option.any_some, Bool.and_true]

theorem decodeI_ok_iff : decodeI x = .ok i ↔ i.wf = true ∧ form i = .i (x / 2 ^ 55 % 128) (iFields x) := by
  unfold decodeI
  dsimp only
  generalize x / 2 ^ 55 % 128 = op
  cases hr : iReq op with
  | some r =>
    simp only [gate_ok_iff, mkI_iff]
    refine and_congr_left fun h => ?_
    rw [wf_of_form_i h, hr, Option.any_some, Bool.and_true]
  | none =>
    refine iff_of_false nofun fun h => ?_
    obtain ⟨-, hs, -⟩ := mkI_of_form h.2
    simp [hr] at hs

theorem decodeE_ok_iff : decodeE x = .ok i ↔ i.wf = true ∧ form i = .e (x / 2 ^ 54 % 256) (eFields x) := by
  unfold decodeE
  dsimp only
  generalize x / 2 ^ 54 % 256 = op
  cases hr : eReq op with
  | some r =>
    simp only [gate_ok_iff, mkE_iff]
    refine and_congr_left fun h => ?_
    rw [wf_of_form_e h, hr, Option.any_some, Bool.and_true]
  | none =>
    refine iff_of_false nofun fun h => ?_
    obtain ⟨-, hs, -⟩ := mkE_of_form h.2
    simp [hr] at hs

/-! ### Slots of a P-form word -/

/-- The slots of a P-form word pass their own checks, and one of them is filled. -/
theorem wf_pairWord_iff {w : PWord} : (Instr.pairWord w).wf = true ↔
    (slotRsvd w.slot0 = true ∧ slotRsvd w.slot1 = true) ∧ (slotOk w.slot0 = true ∧ slotOk w.slot1 = true) ∧
      ¬ (w.slot0.op = .empty ∧ w.slot1.op = .empty) := by
  unfold Instr.wf
  simp only [form, Bool.and_eq_true, Bool.not_eq_true', Bool.and_eq_false_imp, decide_eq_true_eq, decide_eq_false_iff_not]
  tauto

/-- A slot that passes its checks has a type that Table 1.6 gives a code. -/
theorem slotTyCode_ne_of_slotOk {s : PSlot} (hr : slotRsvd s = true) (ho : slotOk s = true) : slotTyCode s.ty ≠ 7 := by
  obtain ⟨op, da, b, ty, rnd, f0⟩ := s
  intro h
  cases ty <;> cases op <;> simp [slotRsvd, slotOk, slotTyCode] at hr ho h

theorem slotOp_enc (s : PSlot) : SlotOp.ofCode (s.enc / 2 ^ 24) = some s.op := by
  have := s.da.isLt; have := s.b.isLt; have := slotTyCode_lt s.ty; have := s.rnd.code_lt; have := s.f0.toNat_lt
  unfold PSlot.enc
  exact SlotOp.ofCode_iff.2 (by omega)

theorem slotTy_enc {s : PSlot} (h : slotTyCode s.ty ≠ 7) : slotTyOfCode (s.enc / 2 ^ 3) = some s.ty := by
  have := s.da.isLt; have := s.b.isLt; have := slotTyCode_lt s.ty; have := s.rnd.code_lt; have := s.f0.toNat_lt
  unfold PSlot.enc
  exact slotTyOfCode_iff.2 (by omega)

theorem decodeP_ok_iff : decodeP x = .ok i ↔ i.wf = true ∧
    ∃ w, i = .pairWord w ∧ w.slot0.enc = x / 2 ^ 31 % 2 ^ 31 ∧ w.slot1.enc = x % 2 ^ 31 := by
  unfold decodeP
  dsimp only
  have h0 : x / 2 ^ 31 % 2 ^ 31 < 2 ^ 31 := Nat.mod_lt _ (by decide)
  have h1 : x % 2 ^ 31 < 2 ^ 31 := Nat.mod_lt _ (by decide)
  generalize x / 2 ^ 31 % 2 ^ 31 = y0 at *
  generalize x % 2 ^ 31 = y1 at *
  constructor
  · intro h
    split at h
    next p0 p1 hp0 hp1 =>
      split at h
      next => cases h
      next hrs =>
        split at h
        next => cases h
        next hok =>
          split at h
          next => cases h
          next hne =>
            simp only [Bool.not_eq_true', Bool.not_eq_false, Bool.and_eq_true, decide_eq_true_eq] at hrs hok hne
            obtain ⟨⟨⟨ht0, ht1⟩, ho0⟩, ho1⟩ := hok
            obtain ⟨t0, ht0⟩ := Option.isSome_iff_exists.1 ht0
            obtain ⟨t1, ht1⟩ := Option.isSome_iff_exists.1 ht1
            cases h
            refine ⟨wf_pairWord_iff.2 ⟨hrs, ⟨ho0, ho1⟩, hne⟩, _, rfl, ?_⟩
            simp only [ht0, ht1, Option.getD_some, enc_slotFields h0 hp0 ht0, enc_slotFields h1 hp1 ht1, and_self]
    next => cases h
  · rintro ⟨hwf, w, rfl, rfl, rfl⟩
    obtain ⟨⟨hr0, hr1⟩, ⟨ho0, ho1⟩, hne⟩ := wf_pairWord_iff.1 hwf
    rw [slotOp_enc, slotOp_enc, slotTy_enc (slotTyCode_ne_of_slotOk hr0 ho0), slotTy_enc (slotTyCode_ne_of_slotOk hr1 ho1)]
    simp [slotFields_enc, hr0, hr1, ho0, ho1, hne]

/-! ### Words -/

variable {w : DWord}

theorem decodeWord_zero : decodeWord 0#64 = .error .zero := by decide
theorem decodeWord_formF (h : w.toNat ≠ 0) (hp : w.toNat / 2 ^ 62 % 4 = 0) : decodeWord w = decodeF w.toNat := by
  unfold decodeWord
  simp only [if_neg h, hp]
theorem decodeWord_formP (h : w.toNat / 2 ^ 62 % 4 = 1) : decodeWord w = decodeP w.toNat := by
  unfold decodeWord
  simp only [if_neg (show w.toNat ≠ 0 by omega), h]
theorem decodeWord_formI (h : w.toNat / 2 ^ 62 % 4 = 2) : decodeWord w = decodeI w.toNat := by
  unfold decodeWord
  simp only [if_neg (show w.toNat ≠ 0 by omega), h]
theorem decodeWord_formE (h : w.toNat / 2 ^ 62 % 4 = 3) : decodeWord w = decodeE w.toNat := by
  unfold decodeWord
  simp only [if_neg (show w.toNat ≠ 0 by omega), h]

/-- A number is the encoding of the word whose value it is. -/
theorem some_ofNat_toNat {n : Nat} (h : n = w.toNat) : some (BitVec.ofNat 64 n) = some w := by
  rw [h, BitVec.ofNat_toNat, BitVec.setWidth_eq]

theorem toNat_of_some_ofNat {n : Nat} (hn : n < 2 ^ 64) (h : some (BitVec.ofNat 64 n) = some w) : w.toNat = n := by
  rw [← Option.some.inj h, BitVec.toNat_ofNat, Nat.mod_eq_of_lt hn]

/-- A word that decodes is the encoding of a well-formed instruction, so that none of its bits is dropped. -/
theorem encode_of_decodeWord (h : decodeWord w = .ok i) : i.wf = true ∧ encode i = some w := by
  have hw : w.toNat < 2 ^ 64 := w.isLt
  have h0 : w.toNat ≠ 0 := by
    intro h0
    rw [BitVec.eq_of_toNat_eq (y := 0#64) h0, decodeWord_zero] at h
    cases h
  have hp : w.toNat / 2 ^ 62 % 4 = 0 ∨ w.toNat / 2 ^ 62 % 4 = 1 ∨ w.toNat / 2 ^ 62 % 4 = 2 ∨ w.toNat / 2 ^ 62 % 4 = 3 := by
    omega
  unfold encode
  rcases hp with hp | hp | hp | hp
  · rw [decodeWord_formF h0 hp] at h
    obtain ⟨hwf, hf | ⟨sc, hsc, hf⟩⟩ := decodeF_ok_iff.1 h <;> rw [hf]
    · exact ⟨hwf, some_ofNat_toNat (by rw [enc_fFields]; omega)⟩
    · exact ⟨hwf, some_ofNat_toNat (by rw [enc_mFields hsc]; omega)⟩
  · rw [decodeWord_formP hp] at h
    obtain ⟨hwf, p, rfl, h0, h1⟩ := decodeP_ok_iff.1 h
    exact ⟨hwf, some_ofNat_toNat (by rw [h0, h1]; omega)⟩
  · rw [decodeWord_formI hp] at h
    obtain ⟨hwf, hf⟩ := decodeI_ok_iff.1 h
    rw [hf]
    exact ⟨hwf, some_ofNat_toNat (by rw [enc_iFields]; omega)⟩
  · rw [decodeWord_formE hp] at h
    obtain ⟨hwf, hf⟩ := decodeE_ok_iff.1 h
    rw [hf]
    exact ⟨hwf, some_ofNat_toNat (by rw [enc_eFields]; omega)⟩

/-- The encoding of a well-formed instruction decodes to it. -/
theorem decodeWord_of_encode (hwf : i.wf = true) (he : encode i = some w) : decodeWord w = .ok i := by
  unfold encode at he
  split at he
  next op f hf =>
    obtain ⟨hop, h0, -⟩ := mkF_of_form hf
    have hlt := f.enc_lt
    have hx := toNat_of_some_ofNat (by omega) he
    rw [decodeWord_formF (by omega) (by omega), decodeF_ok_iff, hx, fFields_enc]
    exact ⟨hwf, .inl (hf.trans (congrArg (Form.f · f) (by omega)))⟩
  next op m hf =>
    obtain ⟨hop, h0, -⟩ := mkM_of_form hf
    have hlt := m.enc_lt
    have hx := toNat_of_some_ofNat (by omega) he
    rw [decodeWord_formF (by omega) (by omega), decodeF_ok_iff, hx]
    refine ⟨hwf, .inr ⟨m.scope, scope_enc op m, ?_⟩⟩
    rw [mFields_enc]
    exact hf.trans (congrArg (Form.m · m) (by omega))
  next op v hf =>
    obtain ⟨hop, -⟩ := mkI_of_form hf
    have hlt := v.enc_lt
    have hx := toNat_of_some_ofNat (by omega) he
    have hx : w.toNat = (2 ^ 8 + op) * 2 ^ 55 + v.enc := hx.trans (by ring)
    rw [decodeWord_formI (by omega), decodeI_ok_iff, hx, iFields_enc]
    exact ⟨hwf, hf.trans (congrArg (Form.i · v) (by omega))⟩
  next p hf =>
    have h0 := p.slot0.enc_lt
    have h1 := p.slot1.enc_lt
    have hx := toNat_of_some_ofNat (by omega) he
    rw [decodeWord_formP (by omega), decodeP_ok_iff]
    exact ⟨hwf, p, eq_pairWord_of_form hf, by omega, by omega⟩
  next op e hf =>
    obtain ⟨hop, -⟩ := mkE_of_form hf
    have hlt := e.enc_lt
    have hx := toNat_of_some_ofNat (by omega) he
    have hx : w.toNat = (3 * 2 ^ 8 + op) * 2 ^ 54 + e.enc := hx.trans (by ring)
    rw [decodeWord_formE (by omega), decodeE_ok_iff, hx, eFields_enc]
    exact ⟨hwf, hf.trans (congrArg (Form.e · e) (by omega))⟩
  next => cases he

/-! ### Bytes -/

theorem leBytes_succ (n v : Nat) : leBytes (n + 1) v = BitVec.ofNat 8 v :: leBytes n (v / 256) := by
  unfold leBytes
  rw [List.range_succ_eq_map, List.map_cons, List.map_map, Nat.pow_zero, Nat.div_one]
  refine congrArg _ (List.map_congr_left fun k _ => ?_)
  rw [Function.comp_apply, Nat.div_div_eq_div_mul, ← Nat.pow_succ']

theorem length_leBytes (n v : Nat) : (leBytes n v).length = n := by simp [leBytes]

/-- The value of a number's low bytes (R16). -/
theorem leValue_leBytes (n v : Nat) : leValue (leBytes n v) = v % 256 ^ n := by
  induction n generalizing v with
  | zero => rw [Nat.pow_zero, Nat.mod_one]; rfl
  | succ n ih =>
    rw [leBytes_succ, Nat.pow_succ', Nat.mod_mul, ← ih]
    exact congrArg (· + _) (BitVec.toNat_ofNat ..)

/-- The decoder reads the word that stands as eight bytes at the head of a list. -/
theorem decodeBytes_leBytes (h : decodeWord w = .ok i) (rest : List Byte) :
    decodeBytes (leBytes 8 w.toNat ++ rest) = .ok (i, rest) := by
  have hl : (leBytes 8 w.toNat).length = 8 := length_leBytes 8 _
  have hv : BitVec.ofNat 64 (leValue (leBytes 8 w.toNat)) = w := by
    rw [leValue_leBytes, Nat.mod_eq_of_lt (show w.toNat < 256 ^ 8 from w.isLt), BitVec.ofNat_toNat, BitVec.setWidth_eq]
  unfold decodeBytes
  rw [if_neg (by simp [hl]), List.take_left' hl, List.drop_left' hl, hv, h]

/-! ### The obligations -/

theorem encode_isSome (i : Instr) : (encode i).isSome = Machine.isWord i := by
  unfold encode Machine.isWord
  cases form i <;> rfl

theorem encodedWordsDecodeToThemselves : Claims.EncodedWordsDecodeToThemselves := fun _ _ hwf he =>
  have h := decodeWord_of_encode hwf he
  ⟨h, decodeBytes_leBytes h⟩

theorem everyWordHasOneReading : Claims.EveryWordHasOneReading := by
  refine ⟨fun i w h => ?_, encode_isSome⟩
  obtain ⟨hwf, he⟩ := encode_of_decodeWord h
  exact ⟨hwf, by rw [← encode_isSome, he]; rfl, he⟩

/-- Settles O1: each form's fields are the digits of its word, and each form's decoder accepts exactly the words of its
well-formed instructions. -/
theorem encodingAndDecodingAgree : Obligations.EncodingAndDecodingAgree :=
  ⟨encodedWordsDecodeToThemselves, everyWordHasOneReading⟩

/-- Settles O2: each word is evaluated by the decoder. -/
theorem sampleWordsDecodeAsTheTablesSay : Obligations.SampleWordsDecodeAsTheTablesSay := by
  unfold Obligations.SampleWordsDecodeAsTheTablesSay
  decide

end Sys2Proof
end

section
/-!
The step (01 R22, R52; logs 4, 6 and 8): in a cycle whose second pick is still to be made (R163), an event whose time has
come waits for that pick.
-/
namespace Sys2Proof.Machine

/-- A device in which the second pick of a cycle is still to be made, while a stamp counter is due for renumbering (R162). -/
def secondPickAndDueEvent : State :=
  { State.reset with
    sec := { State.reset.sec with ready := true, powered := true, locked := false }
    clock := 1
    second := some { core := 0, qtr := 0, lslot := 0, pc := 0, threads := [] }
    quarters := [{ core := 0, qtr := 0, stampCtr := 2 ^ 32 - 1 }] }

/-- Refutes O3, in the clause that a due event is executed as it stands: with a second pick pending the step makes that
pick, or passes it, and the event waits. -/
theorem not_aStepRunsTheDecodedWord : ¬ Obligations.AStepRunsTheDecodedWord := by
  unfold Obligations.AStepRunsTheDecodedWord
  rintro ⟨-, -, -, hdue, -⟩
  have h := hdue secondPickAndDueEvent (.stampRenumber 0 0) [] (by decide) (by decide)
  have hpass : secondPickAndDueEvent.tick.action = .done { secondPickAndDueEvent with second := none } := by decide
  unfold step at h
  rw [hpass] at h
  have hsecond := congrArg State.second (Host.Outcome.next.inj h)
  exact absurd hsecond (by decide)

end Sys2Proof.Machine
end

section
/-!
The instructions of the vector unit, for every issue group (01 R36, R53; 02 R76): each is one run of `issueVec` with the
result that its rule gives, and it leaves memory and the quarters' engines as they are.
-/
namespace Sys2Proof.Machine

variable {i : Instr} {f : State → Thread → List Nat → Res} {s : State}

theorem exec_of_vecRule (h : vecRule i = some f) (s : State) : exec i s = run (issueVec i f) s := by
  cases i <;> cases h <;> rfl

/-- None of them drops its run-time causes, as PFETCH does (R151). -/
theorem dropsCauses_of_vecRule (h : vecRule i = some f) : dropsCauses i = false := by
  cases i <;> cases h <;> rfl

/-- The effects on memory that a step has logged, memory itself, and the engines of the quarters. -/
def memEngines (w : Work) : List MemOp × Bool × List Host.Cell × Nat × (Nat → Nat → Quarter) :=
  (w.log, w.rekey, w.st.mem, w.st.sec.keyGen, fun c q => (w.st.quarter c q).engine)

theorem memEngines_of_offShared {α : Type} {m : W α} (h : Same offShared m) : Same memEngines m :=
  fun w => (congrArg memEngines (h w) : memEngines (offShared (m w).2) = memEngines (offShared w))

theorem memEngines_of_offThreads {α : Type} {m : W α} (h : Same offThreads m) : Same memEngines m :=
  fun w => (congrArg (fun p => (p.1.log, p.1.rekey, p.1.st.mem, p.1.st.sec.keyGen, p.2)) (h w) :)

theorem issueVec_memEngines (i : Instr) (f : State → Thread → List Nat → Res) : Same memEngines (issueVec i f) := by
  unfold issueVec
  exact same_bind (memEngines_of_offShared (checkIssue_offShared i)) fun r => same_bind same_getSt fun s =>
    same_bind (memEngines_of_offShared (writeResults_offShared _ _)) fun _ =>
      memEngines_of_offThreads (endIssue_offThreads i r _)

/-- A run that logs nothing, and keeps memory and the engines, ends in the state it has worked on. -/
theorem run_of_memEngines {b : W Unit} (h : Same memEngines b) (s : State) :
    run b s = .next (b { st := s }).2.st ∧ SameMemory s (b { st := s }).2.st ∧ SameEngines s (b { st := s }).2.st := by
  have e := h { st := s }
  simp only [memEngines, Prod.mk.injEq] at e
  obtain ⟨hlog, hrekey, hmem, hkey, heng⟩ := e
  refine ⟨congrArg _ (finish_quiet hlog hrekey hmem hkey), fun a => ?_, fun c q => congrFun (congrFun heng c) q⟩
  unfold State.byte
  rw [hmem, hkey]

/-- Settles O7: each of these words is one run of `issueVec`, whose acting threads receive their results. -/
theorem vectorInstructionsActInEveryLane : Obligations.VectorInstructionsActInEveryLane := by
  unfold Obligations.VectorInstructionsActInEveryLane
  intro i f s hf hn
  obtain ⟨hrun, hmem, heng⟩ := run_of_memEngines (issueVec_memEngines i f) s
  exact ⟨_, (exec_of_vecRule hf s).trans hrun, hmem, heng, fun x hx => issueVec_act i f s (dropsCauses_of_vecRule hf) hn hx⟩

end Sys2Proof.Machine
end

section
/-!
RETT for a lane that a cause mask still holds (08 R315): it enters the handler again, with its windows closed (01 R41).
-/
namespace Sys2Proof.Machine

/-- A thread in its handler, with a lookahead window open for two more words (R39). -/
def handlerWithWindow : Thread :=
  { Loader.thread 0 with handler := true, windows := [{ left := 2, reads := [], writes := [] }] }

/-- It issues alone, and every cause mask of its group holds its lane. -/
def returnsWhileHeld : State :=
  { Loader.place State.reset 0 with
    threads := [handlerWithWindow]
    groups := [{ Group.fresh Loader.launch Loader.spot 0 with masks := List.replicate 24 1 }]
    cur := { core := 0, qtr := 0, lslot := 0, pc := handlerWithWindow.pc, threads := [handlerWithWindow.tid] } }

/-- RETT without `.skip`, unguarded. -/
def plainRett : EWord := { la := 0, g := { gn := false, gp := 0 }, fl := false, o1 := 0, o2 := 0, o3 := 0, o4 := 0, o5 := 0 }

theorem returnsWhileHeld_solo : Solo (.rett plainRett) returnsWhileHeld handlerWithWindow where
  alone := by decide
  one := by decide
  legal := by decide
  on := by decide
  runs := by decide
  noQ := by decide
  place := by decide
  grp := by decide
  ready := by decide
  calm := by decide
  fresh := by decide

/-- Refutes O21, in the clause on a lane that a cause mask still holds: RETT closes its windows (R41), where the statement
keeps the open window for one word more. -/
theorem not_handlersReturnAndWriteRegisters : ¬ Obligations.HandlersReturnAndWriteRegisters := by
  unfold Obligations.HandlersReturnAndWriteRegisters Claims.RettReturnsToTpc
  rintro ⟨⟨-, hheld, -⟩, -⟩
  obtain ⟨t, ht, hth, -⟩ :=
    hheld plainRett returnsWhileHeld handlerWithWindow returnsWhileHeld_solo (by decide) (by decide) (by decide)
  have ht := Host.Outcome.next.inj ht
  rw [← ht] at hth
  have hw := congrArg (Option.map Thread.windows) hth
  exact absurd hw (by decide)

end Sys2Proof.Machine
end

section
/-!
Words of one thread with P-form slots or queue operands (01 R28, R31; 04 R181, R182): what the checks make of a queue
operand, and the result of a word whose destinations are the thread's own registers.
-/
namespace Sys2Proof.Machine

variable {i : Instr} {f : State → Thread → List Nat → Res} {s s' : State} {th : Thread} {w : Work} {c sl : Nat}

/-! ### Queues of a team -/

/-- The state in which no thread of a team waits for a queue (R182). -/
def State.woken (s : State) (c sl : Nat) : State :=
  { s with threads := s.threads.map fun t =>
      if t.tid.core = c && t.slot = sl && t.wait = .que then { t with wait := .ready } else t }

/-- A team with the entries `l` in queue `k`. -/
def Team.withQueue (tm : Team) (k : Nat) (l : List (List (Option Word))) : Team := { tm with queues := tm.queues.set k l }

/-- The state after a team's queue has lost its oldest entry, and after it has received the entry `e`. -/
def State.popped (s : State) (c sl k : Nat) : State :=
  (s.setTeam c sl fun tm => tm.withQueue k ((tm.queueAt k).drop 1)).woken c sl
def State.pushed (s : State) (c sl k : Nat) (e : List (Option Word)) : State :=
  (s.setTeam c sl fun tm => tm.withQueue k (tm.queueAt k ++ [e])).woken c sl

theorem popQueue_run (c sl k : Nat) (w : Work) :
    popQueue c sl k w
      = (((w.st.team? c sl).bind fun tm => (tm.queueAt k).head?).getD [], { w with st := w.st.popped c sl k }) := rfl

theorem pushQueue_run (c sl k : Nat) (vals : List (Nat × Word)) (w : Work) :
    pushQueue c sl k vals w
      = ((), { w with st := w.st.pushed c sl k ((List.range (((w.st.team? c sl).map Team.width).getD 0)).map fun j =>
          (vals.find? fun x => x.1 = j).map (·.2)) }) := rfl

theorem woken_of_noWait (h : ∀ x ∈ s.threads, x.wait ≠ .que) (c sl : Nat) : s.woken c sl = s := by
  unfold State.woken
  have e : s.threads.map (fun t => if t.tid.core = c && t.slot = sl && t.wait = .que then { t with wait := .ready } else t)
      = s.threads := by
    conv => rhs; rw [← List.map_id s.threads]
    refine List.map_congr_left fun t ht => ?_
    simp [h t ht]
  rw [e]

theorem popped_team {tm : Team} (h : s.team? c sl = some tm) (k : Nat) :
    (s.popped c sl k).team? c sl = some (tm.withQueue k ((tm.queueAt k).drop 1)) :=
  (team?_setTeam s c sl (f := fun tm => tm.withQueue k ((tm.queueAt k).drop 1)) fun _ => ⟨rfl, rfl⟩).trans (h ▸ rfl)
theorem pushed_team {tm : Team} (h : s.team? c sl = some tm) (k : Nat) (e : List (Option Word)) :
    (s.pushed c sl k e).team? c sl = some (tm.withQueue k (tm.queueAt k ++ [e])) :=
  (team?_setTeam s c sl (f := fun tm => tm.withQueue k (tm.queueAt k ++ [e])) fun _ => ⟨rfl, rfl⟩).trans (h ▸ rfl)

/-! ### The checks of one thread with queue operands -/

theorem groupsOf_nil : groupsOf [] = [] := by simp [groupsOf]

theorem groupsOf_single (h : th.grp < 512) : groupsOf [th] = [(th.slot, th.grp)] := by
  have key : ∀ l : List Nat, l.Nodup → l.flatMap (fun g => [(th.slot, th.grp)].filter fun k => k.2 = g)
      = if th.grp ∈ l then [(th.slot, th.grp)] else [] := by
    intro l hl
    induction l with
    | nil => rfl
    | cons a l ih =>
      obtain ⟨ha, hl⟩ := List.nodup_cons.1 hl
      rw [List.flatMap_cons, ih hl]
      by_cases hg : th.grp = a
      · simp [hg, ha]
      · simp [hg]
  exact (key _ List.nodup_range).trans (if_pos (List.mem_range.2 h))

/-- The issue group is the one thread `th`, no check of R53 raises a cause for `i`, and its guard is true; its operands may
name queues. -/
structure LetThrough (i : Instr) (s : State) (th : Thread) : Prop where
  alone : s.cur.threads = [th.tid]
  has   : s.Has th
  core  : s.cur.core = th.tid.core
  grp   : th.grp < 512
  legal : decodeCause s i (usesOf i) th = none
  on    : guardTrue (guardOf i) th = true
  runs  : runCause s i (usesOf i) th = none

/-- What the checks leave of one thread that its group's queue operands answer for. -/
def queueIssue (i : Instr) (s : State) (th : Thread) : List (Thread × List Nat) × Work :=
  groupQueues (usesOf i) th.tid.core (th.slot, th.grp) 0 [th] { st := s }

theorem LetThrough.check (h : LetThrough i s th) (hq : ¬ ((usesOf i).pops = [] ∧ (usesOf i).pushes = [])) :
    checkIssue i { st := s } = ({ act := (queueIssue i s th).1, pass := [], bad := [] }, (queueIssue i s th).2) := by
  have hc : s.curThreads = [th] := by simp [State.curThreads, h.alone, h.has.thread?]
  simp [checkIssue, hc, h.legal, h.on, h.runs, h.core, groupsOf_single h.grp, hq, groupsOf_nil, queueIssue]

/-- The record of a thread that waits for a queue. -/
def Thread.queueing (th : Thread) : Thread := { th with wait := .que }

/-- Queue operands that cannot complete park the thread in QUE, and nothing is read (R182). -/
theorem queueIssue_parks {tm : Team} (h : s.Has th) (ht : s.team? th.tid.core th.slot = some tm)
    (hr : s.queuesReady tm (usesOf i) 0 = false) :
    queueIssue i s th = ([], { st := s.putThread th.queueing }) := by
  have hp : park th.tid .que { st := s } = ((), { st := s.putThread th.queueing }) := modThread_has h _ rfl
  unfold queueIssue groupQueues
  simp only [W.run_bind, W.run_getSt, ht, hr, W.run_ite, Bool.not_false, if_true, W.forIn_cons, hp, W.run_pure, W.forIn_nil]

/-- One source queue with an entry, and no destination queue: the entry leaves, and the thread reads its own value of it,
0 where it has none (R181). -/
theorem queueIssue_pops {tm : Team} {k : Nat} {e : List (Option Word)} {rest : List (List (Option Word))}
    (ht : s.team? th.tid.core th.slot = some tm) (hpop : (usesOf i).pops = [k])
    (hr : s.queuesReady tm (usesOf i) 0 = true) (hq : tm.queueAt k = e :: rest) :
    queueIssue i s th = ([(th, readSources s th (usesOf i).ops [((e[th.rel]?).getD none).getD 0])],
      { st := s.popped th.tid.core th.slot k }) := by
  unfold queueIssue groupQueues
  simp only [W.run_bind, W.run_getSt, ht, hr, W.run_ite, Bool.not_true, Bool.false_eq_true, if_false, hpop, W.forIn_cons,
    popQueue_run, Option.bind_some, hq, List.head?_cons, Option.getD_some, W.run_pure, W.forIn_nil, List.nil_append,
    List.map_cons, List.map_nil]

/-! ### Results in a thread's own registers -/

/-- Every destination operand names v registers of the thread. -/
def OwnDests (u : Uses) : Prop := ∀ o ∈ u.ops, o.dst = true → (isV o.code.toNat || isIx o.code.toNat) = true

theorem writeResults_nil (u : Uses) (w : Work) : writeResults u [] w = ((), w) := by
  unfold writeResults
  simp only [W.run_bind, W.run_getSt, W.forIn_nil, List.map_nil, groupsOf_nil, W.run_ite, W.run_pure, ite_self]

theorem writeResults_own {u : Uses} (ho : OwnDests u) (h : w.st.Has th) (r : Res) :
    writeResults u [(th, r)] w = ((), { w with st := w.st.putThread (applyRes u r th) }) := by
  have hn : ((u.ops.filter (·.dst)).any fun o => !(isV o.code.toNat || isIx o.code.toNat)) = false := by
    simp only [List.any_eq_false, List.mem_filter]
    rintro o ⟨hm, hd⟩
    simp [ho o hm hd]
  have hm : modThread th.tid (applyRes u r) w = _ := modThread_has h (applyRes u r) rfl
  unfold writeResults
  simp only [W.run_bind, W.run_getSt, W.forIn_cons, W.forIn_nil, W.run_pure, hm, hn, Bool.false_eq_true, if_false]

/-- The record of the one thread that a word has given the result `r`, at the next word. -/
def Thread.given (th : Thread) (i : Instr) (r : Res) (pc : DWord) : Thread :=
  (issuedRec i [th] th.tid (applyRes (usesOf i) r th)).goTo pc

theorem given_v (i : Instr) (r : Res) (pc : DWord) :
    (th.given i r pc).v = writeV th ((usesOf i).ops.filter (·.dst)) r.d th.v := rfl

/-- A word of one thread whose destinations are its own registers. -/
theorem issueVec_own {vals : List Nat} (ho : OwnDests (usesOf i)) (hs : s'.Has th)
    (hc : checkIssue i { st := s } = ({ act := [(th, vals)], pass := [], bad := [] }, { st := s' })) :
    ∃ q, SameEngines s' (s'.putQuarters q) ∧ issueVec i f { st := s }
      = ((), { st := (s'.putThread (th.given i (f s' th vals) (s'.cur.pc + 8))).putQuarters q }) := by
  obtain ⟨q, hq, he⟩ := endIssue_solo i th vals (fun _ => s'.cur.pc + 8)
    { st := s'.putThread (applyRes (usesOf i) (f s' th vals) th) }
  refine ⟨q, hq, ?_⟩
  have hset : (s'.putThread (applyRes (usesOf i) (f s' th vals) th)).setThread th.tid
      (fun x => (issuedRec i [th] th.tid x).goTo (s'.cur.pc + 8)) = s'.putThread (th.given i (f s' th vals) (s'.cur.pc + 8)) :=
    ((hs.put (a := applyRes (usesOf i) (f s' th vals) th) rfl).set _ rfl).trans (State.putThread_put rfl)
  unfold issueVec
  simp only [W.run_bind, hc, W.run_getSt, List.map_cons, List.map_nil, writeResults_own (w := { st := s' }) ho hs, he]
  exact congrArg (fun x : State => ((), ({ st := x.putQuarters q } : Work))) hset

/-! ### P-form pairs -/

/-- A legal word names no operand that OPERAND forbids (R43, R53). -/
theorem badOperand_of_legal {u : Uses} (h : decodeCause s i u th = none) {o : Opd} (ho : o ∈ u.ops) : o.badOperand = false := by
  by_contra hb
  have hany : u.ops.any Opd.badOperand = true := List.any_eq_true.2 ⟨o, ho, by simpa using hb⟩
  unfold decodeCause at h
  simp only [hany, if_true] at h
  split_ifs at h

theorem writeRefsG_own {dst : List RegRef} (h : dst.all RegRef.isV = true) (g : Group) (vals : List Word) :
    writeRefsG g dst vals = g := by
  induction dst generalizing vals with
  | nil => cases vals <;> rfl
  | cons d dst ih =>
    obtain ⟨hd, hdst⟩ := Bool.and_eq_true_iff.1 (List.all_cons ▸ h : (d.isV && dst.all RegRef.isV) = true)
    cases vals with
    | nil => cases d <;> rfl
    | cons x vals =>
      cases d with
      | v n => exact ih hdst vals
      | _ => cases hd

theorem regs_of_own {o : Opd} (h : (isV o.code.toNat || isIx o.code.toNat) = true) (th : Thread) :
    (o.regs th).all RegRef.isV = true := by
  have hn : (o.vnum th).isSome = true := by
    unfold Opd.vnum Opd.index
    cases hv : isV o.code.toNat
    · simp_all
    · rfl
  obtain ⟨n, hn⟩ := Option.isSome_iff_exists.1 hn
  unfold Opd.regs
  simp [hn, RegRef.isV]

theorem destOf_own (h : OwnDests (usesOf i)) (th : Thread) : (destOf i th).all RegRef.isV = true := by
  unfold destOf
  rw [List.all_flatMap, List.all_eq_true]
  intro o ho
  cases hd : o.dst
  · rfl
  · exact regs_of_own (h o ho hd) th

/-- The result of a word that a lone thread issues, with its own registers as destinations. -/
theorem issueVec_loneResult (h : Solo i s th) (ho : OwnDests (usesOf i)) :
    ∃ t, run (issueVec i f) s = .next t ∧ LoneResult s t i th (f s th (Solo.values i s th)) := by
  obtain ⟨q, hq, he⟩ := issueVec_own (f := f) ho h.has h.check
  have hx := (h.has.put (a := th.given i (f s th (Solo.values i s th)) (s.cur.pc + 8)) rfl).thread?
  refine ⟨_, run_quiet he rfl rfl, ⟨_, hx, rfl, rfl, rfl⟩, ?_,
    fun v hv => thread?_putThread_ne (s := s) (a := th.given i (f s th (Solo.values i s th)) (s.cur.pc + 8)) hv,
    rfl, rfl, rfl, hq⟩
  refine .symm (.trans (List.map_congr_left fun g _ => ?_) (List.map_id s.groups))
  rw [writeRefsG_own (destOf_own ho th), ite_self, id]

theorem kind_of_slotDest {x : PSlot} {o : Opd} (ho : o ∈ usesSlot x) (hd : o.dst = true) : o.kind = .slotDA := by
  unfold usesSlot at ho
  split at ho
  · cases ho
  all_goals
    rcases List.mem_pair.1 ho with rfl | rfl
    · rfl
    · cases hd

/-- Slots of a P-form word write v registers only (R29). -/
theorem ownDests_pairWord {w : PWord} (h : decodeCause s (.pairWord w) (usesOf (.pairWord w)) th = none) :
    OwnDests (usesOf (.pairWord w)) := by
  intro o ho hd
  have hb := badOperand_of_legal h ho
  have hk : o.kind = .slotDA := (List.mem_append.1 ho).elim (kind_of_slotDest · hd) (kind_of_slotDest · hd)
  unfold Opd.badOperand at hb
  rw [hk] at hb
  rwa [Bool.not_eq_false'] at hb

theorem evalPair_movs {w : PWord} (h0 : w.slot0.op = .mov) (h1 : w.slot1.op = .mov) (v : List Nat) :
    evalPair w v = { d := [valueWords 1 (arg v 0), valueWords 1 (arg v 1)] } := by
  have hdrop : arg (v.drop 1) 0 = arg v 1 := by simp [arg]
  simp only [evalPair, slotArgs, slotArity, evalSlot, h0, h1, if_true, hdrop, List.cons_append, List.nil_append]
  rfl

/-- R31: the values of both slots are read before either is written. -/
theorem pairSlotsReadBeforeTheyWrite : Claims.PairSlotsReadBeforeTheyWrite := by
  intro w s th h h0 h1
  obtain ⟨t, ht, hr⟩ := issueVec_loneResult (f := fun _ _ v => evalPair w v) h (ownDests_pairWord h.legal)
  exact ⟨t, ht, evalPair_movs h0 h1 _ ▸ hr⟩

/-! ### Source queues -/

/-- The end of an issue in which nobody issues changes PC tables only. -/
theorem endIssue_nobody (i : Instr) (pcOf : Thread → DWord) (w : Work) :
    ∃ q, endIssue i { act := [], pass := [], bad := [] } pcOf false w = ((), { w with st := w.st.putQuarters q }) := by
  obtain ⟨q, -, he⟩ := endIssue_eq i { act := [], pass := [], bad := [] } pcOf w
  refine ⟨q, he.trans ?_⟩
  simp only [raiseAll, State.issued, State.noted, State.setPcs, Issued.moves, List.map_nil, List.append_nil, List.foldl_nil,
    W.forIn_nil, W.run_bind, W.run_pure]

/-- A word whose queue operands cannot complete leaves its thread in QUE, and nothing else changes. -/
theorem issueVec_parks {tm : Team} (h : LetThrough i s th) (ht : s.team? th.tid.core th.slot = some tm)
    (hr : s.queuesReady tm (usesOf i) 0 = false) :
    ∃ q, issueVec i f { st := s } = ((), { st := (s.putThread th.queueing).putQuarters q }) := by
  have hq : ¬ ((usesOf i).pops = [] ∧ (usesOf i).pushes = []) := by
    rintro ⟨h1, h2⟩
    simp [State.queuesReady, h1, h2] at hr
  obtain ⟨q, he⟩ := endIssue_nobody i (fun _ => s.cur.pc + 8) { st := s.putThread th.queueing }
  refine ⟨q, .trans ?_ he⟩
  unfold issueVec
  simp only [W.run_bind, h.check hq, queueIssue_parks h.has ht hr, W.run_getSt, List.map_nil, writeResults_nil]
  rfl

/-- R182: without an entry the thread waits in QUE at the word. -/
theorem queueSourceWaits (i : Instr) (f : State → Thread → List Nat → Res) (s : State) (th : Thread) (tm : Team)
    (hf : vecRule i = some f) (h : LetThrough i s th) (ht : s.team? th.tid.core th.slot = some tm)
    (hr : s.queuesReady tm (usesOf i) 0 = false) :
    ∃ t, exec i s = .next t ∧ t.thread? th.tid = some { th with wait := .que } ∧ t.teams = s.teams ∧ t.groups = s.groups ∧
      OthersSame s t th.tid ∧ SameMemory s t := by
  obtain ⟨q, he⟩ := issueVec_parks (f := f) h ht hr
  have hx := (h.has.put (a := th.queueing) rfl).thread?
  exact ⟨_, (exec_of_vecRule hf s).trans (run_quiet he rfl rfl), hx, rfl, rfl,
    fun v hv => thread?_putThread_ne (s := s) (a := th.queueing) hv, fun _ => rfl⟩

/-- MOV from a queue to a v register names that queue as its one source, and no other register of its team. -/
theorem usesOf_mov {w : FWord} (hty : w.ty = .b32) :
    (usesOf (.mov w)).ops = [dOp w.d .b32, sOp w.a .b32] := by
  unfold usesOf
  simp only [form, usesF, use1, hty]
  rfl

theorem queueSourcePops (w : FWord) (s : State) (th : Thread) (tm : Team) (k : Nat) (e : List (Option Word))
    (rest : List (List (Option Word))) (hty : w.ty = .b32) (ha : w.a.toNat = 0x188 + k) (hk : k < 8)
    (hd : isV w.d.toNat = true) (h : LetThrough (.mov w) s th) (ht : s.team? th.tid.core th.slot = some tm)
    (hq : tm.queues[k]? = some (e :: rest)) (hl : rest.length < 8) (hp : s.pendingPushes tm.core tm.slot k = 0)
    (hwait : ∀ x ∈ s.threads, x.wait ≠ .que) :
    ∃ t x, exec (.mov w) s = .next t ∧ t.thread? th.tid = some x ∧ x.pc = s.cur.pc + 8 ∧
      x.v = th.v.set w.d.toNat (((e[th.rel]?).getD none).getD 0) ∧
      (t.team? th.tid.core th.slot).map Team.queues = some (tm.queues.set k rest) ∧ OthersSame s t th.tid ∧ SameMemory s t := by
  have hops := usesOf_mov (w := w) hty
  have hqk : isQ (0x188 + k) = true := by simp [isQ]; omega
  have hqa : isQ w.a.toNat = true := ha ▸ hqk
  have hqd : isQ w.d.toNat = false := by simp [isQ, isV] at hd ⊢; omega
  have hpops : (usesOf (.mov w)).pops = [k] := by
    simp [Uses.pops, hops, dOp, sOp, hqk, ha]
  have hpush : (usesOf (.mov w)).pushes = [] := by
    simp [Uses.pushes, hops, dOp, sOp, hqd]
  have hat : tm.queueAt k = e :: rest := by simp [Team.queueAt, hq]
  have hr : s.queuesReady tm (usesOf (.mov w)) 0 = true := by
    simp [State.queuesReady, hpops, hpush, hat, hp]
    omega
  have hown : OwnDests (usesOf (.mov w)) := by
    intro o ho hdst
    rw [hops] at ho
    rcases List.mem_pair.1 ho with rfl | rfl
    · simp [dOp, hd]
    · cases hdst
  have hsrc : readSources s th (usesOf (.mov w)).ops [((e[th.rel]?).getD none).getD 0]
      = [(((e[th.rel]?).getD none).getD 0).toNat] := by
    simp [hops, readSources, dOp, sOp, hqa]
  have hpop : s.popped th.tid.core th.slot k = _ :=
    woken_of_noWait (s := s.setTeam th.tid.core th.slot fun tm => tm.withQueue k ((tm.queueAt k).drop 1)) hwait _ _
  have hhas : (s.popped th.tid.core th.slot k).Has th := Has_threads h.has (by rw [hpop]; rfl)
  have hcheck := h.check (by simp [hpops])
  rw [queueIssue_pops ht hpops hr hat, hsrc] at hcheck
  obtain ⟨q, -, he⟩ := issueVec_own (f := fun _ _ v => res1 w.ty (arg v 0)) hown hhas hcheck
  have hrun : exec (.mov w) s = _ := (exec_of_vecRule rfl s).trans (run_quiet he rfl rfl)
  generalize hx : th.given (.mov w) (res1 w.ty (arg [(((e[th.rel]?).getD none).getD 0).toNat] 0)) _ = x at hrun
  have hxt : x.tid = th.tid := by rw [← hx]; rfl
  have hput := (hhas.put (a := x) hxt).thread?
  refine ⟨_, x, hrun, hxt ▸ hput, by rw [← hx]; rfl, ?_, ?_, fun v hv => ?_, fun _ => rfl⟩
  · rw [← hx]
    rw [given_v, hops, hty]
    simp [dOp, sOp, writeV, Opd.vnum, hd, setSlice, res1, valueWords, tyRegs, arg]
  · show ((s.popped th.tid.core th.slot k).team? th.tid.core th.slot).map Team.queues = _
    rw [popped_team ht, hat]
    rfl
  · refine (thread?_putThread_ne (s := s.popped th.tid.core th.slot k) (hxt ▸ hv)).trans ?_
    rw [hpop]
    rfl

/-- R181, R182: a source queue pops its oldest entry, or the thread waits. -/
theorem queueSourcesPopOrWait : Claims.QueueSourcesPopOrWait := by
  refine ⟨fun w s th tm k e rest hty ha hk hd hcur hone hcore hgrp hleg hon hrun _ htm _ _ hq hl hp hwait => ?_,
    fun i f s th tm hf hcur hone hcore hgrp hleg hon hrun ht hr => ?_⟩
  · exact queueSourcePops w s th tm k e rest hty ha hk hd ⟨hcur, hone, hcore, hgrp, hleg, hon, hrun⟩ (find_one htm) hq hl hp
      hwait
  · exact queueSourceWaits i f s th tm hf ⟨hcur, hone, hcore, hgrp, hleg, hon, hrun⟩ ht hr

end Sys2Proof.Machine
end

section
/-!
QTRY (04 R198): the end of an issue of one thread, and what its queue gives or takes.
-/
namespace Sys2Proof.Machine

variable {s : State} {th : Thread} {w : FWord} {tm : Team} {c sl : Nat}

/-! ### What QTRY leaves as it is -/

theorem memEngines_of_queuePart {α : Type} {m : W α} (h : Same queuePart m) : Same memEngines m :=
  memEngines_of_offShared (offShared_of_sharedPart (sharedPart_of_queuePart h))

theorem qtryGroup_memEngines (w : FWord) (c : Nat) (k : Nat × Nat) (mine : List (Thread × List Nat)) :
    Same memEngines (qtryGroup w c k mine) := by
  have hmod : ∀ f : Thread × List Nat → Thread → Thread,
      Same memEngines (do for x in mine do modThread x.1.tid (f x)) := fun f =>
    same_forIn fun _ _ _ => same_bind (memEngines_of_offShared (modThread_offShared _ _)) fun _ => same_pure _
  unfold qtryGroup
  refine same_bind same_getSt fun s => ?_
  cases s.team? c k.1 with
  | none => exact same_pure _
  | some tm =>
    refine same_ite (fun _ => same_ite (fun _ => ?_) fun _ => hmod _) fun _ => same_ite (fun _ => hmod _) fun _ => ?_
    · exact same_bind (memEngines_of_queuePart (pushQueue_part _ _ _ _)) fun _ => hmod _
    · exact same_bind (memEngines_of_queuePart (popQueue_part _ _ _)) fun _ =>
        memEngines_of_offShared (writeResults_offShared _ _)

/-! ### The instruction for one thread -/

/-- An issue of QTRY. -/
def issueQtry (w : FWord) (s : State) : W Unit := do
  let r ← checkIssue (.qtry w)
  for k in groupsOf (r.act.map (·.1)) do
    qtryGroup w s.cur.core k (r.act.filter fun x => (x.1.slot, x.1.grp) = k)
  endIssue (.qtry w) r fun _ => s.cur.pc + 8

theorem exec_qtry (w : FWord) (s : State) : exec (.qtry w) s = run (issueQtry w s) s := rfl

theorem issueQtry_memEngines (w : FWord) (s : State) : Same memEngines (issueQtry w s) :=
  same_bind (memEngines_of_offShared (checkIssue_offShared _)) fun _ => same_bind
    (same_forIn fun _ _ _ => same_bind (qtryGroup_memEngines _ _ _ _) fun _ => same_pure _) fun _ =>
      memEngines_of_offThreads (endIssue_offThreads _ _ _)

/-- What one thread's QTRY does to its queue and its registers. -/
def qtryAct (w : FWord) (s : State) (th : Thread) : Work :=
  (qtryGroup w th.tid.core (th.slot, th.grp) [(th, Solo.values (.qtry w) s th)] { st := s }).2

theorem issueQtry_solo (h : Solo (.qtry w) s th) :
    issueQtry w s { st := s }
      = endIssue (.qtry w) { act := [(th, Solo.values (.qtry w) s th)], pass := [], bad := [] } (fun _ => s.cur.pc + 8) false
          (qtryAct w s th) := by
  obtain ⟨hcore, -⟩ := h.place
  unfold issueQtry qtryAct
  simp only [W.run_bind, h.check, List.map_cons, List.map_nil, groupsOf_single h.grp, W.forIn_cons, W.forIn_nil, W.run_pure,
    List.filter_cons, List.filter_nil, decide_true, if_true, hcore]

/-- QTRY of one thread: its step ends in what the act leaves, with the thread at the next word. -/
theorem exec_qtry_solo (h : Solo (.qtry w) s th) :
    ∃ q t, t = ((qtryAct w s th).st.setThread th.tid
        fun x => (issuedRec (.qtry w) [th] th.tid x).goTo (s.cur.pc + 8)).putQuarters q ∧
      exec (.qtry w) s = .next t ∧ SameMemory s t ∧ SameEngines s t := by
  obtain ⟨q, -, he⟩ := endIssue_solo (.qtry w) th (Solo.values (.qtry w) s th) (fun _ => s.cur.pc + 8) (qtryAct w s th)
  have hrun := run_of_memEngines (issueQtry_memEngines w s) s
  rw [issueQtry_solo h, he, ← exec_qtry] at hrun
  exact ⟨q, _, rfl, hrun⟩

/-- The queue that QTRY names, and the entry that a push of `v` by the one thread adds. -/
def qtryQueue (w : FWord) : Nat := (if w.f0 then w.d else w.a).toNat - 0x188
def qtryEntry (tm : Team) (th : Thread) (v : Word) : List (Option Word) :=
  (List.range tm.width).map fun j => if j = th.rel then some v else none

theorem qtryQueue_push (h : w.f0 = true) : qtryQueue w = w.d.toNat - 0x188 := by
  unfold qtryQueue
  rw [if_pos h]
theorem qtryQueue_pop (h : w.f0 = false) : qtryQueue w = w.a.toNat - 0x188 := by
  unfold qtryQueue
  rw [if_neg (Bool.eq_false_iff.1 h)]

theorem pushQueue_one (ht : s.team? c sl = some tm) (k : Nat) (v : Word) :
    pushQueue c sl k [(th.rel, v)] { st := s } = ((), { st := s.pushed c sl k (qtryEntry tm th v) }) := by
  have hentry : ∀ j, (([(th.rel, v)].find? fun x => x.1 = j).map (·.2)) = if j = th.rel then some v else none := by
    intro j
    by_cases hj : j = th.rel
    · simp [hj]
    · simp [hj, Ne.symm hj]
  simp only [pushQueue_run, ht, Option.map_some, Option.getD_some, hentry, qtryEntry]

theorem qtryAct_pushes (hf : w.f0 = true) (ht : s.team? th.tid.core th.slot = some tm)
    (hr : (tm.queueAt (qtryQueue w)).length + s.pendingPushes th.tid.core th.slot (qtryQueue w) < 8) :
    (qtryAct w s th).st = (s.pushed th.tid.core th.slot (qtryQueue w)
      (qtryEntry tm th (BitVec.ofNat 32 (arg (Solo.values (.qtry w) s th) 1)))).setThread th.tid
        (applyRes (usesOf (.qtry w)) { p := [(pn w.c, true)] }) := by
  rw [qtryQueue_push hf] at hr ⊢
  unfold qtryAct qtryGroup
  simp only [W.run_bind, W.run_getSt, ht, W.run_ite, hf, if_true, hr, decide_true, List.map_cons, List.map_nil,
    pushQueue_one ht, W.forIn_cons, W.forIn_nil, W.run_pure]
  rfl

theorem qtryAct_full (hf : w.f0 = true) (ht : s.team? th.tid.core th.slot = some tm)
    (hr : 8 ≤ (tm.queueAt (qtryQueue w)).length + s.pendingPushes th.tid.core th.slot (qtryQueue w)) :
    (qtryAct w s th).st = s.setThread th.tid (applyRes (usesOf (.qtry w)) { p := [(pn w.c, false)] }) := by
  rw [qtryQueue_push hf] at hr
  unfold qtryAct qtryGroup
  simp only [W.run_bind, W.run_getSt, ht, W.run_ite, hf, if_true, Nat.not_lt.2 hr, decide_false, Bool.false_eq_true, if_false,
    W.forIn_cons, W.forIn_nil, W.run_pure]
  rfl

theorem qtryAct_empty (hf : w.f0 = false) (ht : s.team? th.tid.core th.slot = some tm) (hq : tm.queueAt (qtryQueue w) = []) :
    (qtryAct w s th).st
      = s.setThread th.tid (applyRes { usesOf (.qtry w) with ops := [] } { p := [(pn w.c, false)] }) := by
  rw [qtryQueue_pop hf] at hq
  unfold qtryAct qtryGroup
  simp only [W.run_bind, W.run_getSt, ht, W.run_ite, hf, Bool.false_eq_true, if_false, hq, List.length_nil, if_true,
    W.forIn_cons, W.forIn_nil, W.run_pure]
  rfl

/-- The result of a pop of the entry `e`. -/
def qtryPopped (w : FWord) (th : Thread) (e : List (Option Word)) : Res :=
  { res1 .b32 (((e[th.rel]?).getD none).getD 0).toNat with p := [(pn w.c, true)] }

theorem qtryAct_pops {e : List (Option Word)} {r : List (List (Option Word))} (hf : w.f0 = false)
    (ht : s.team? th.tid.core th.slot = some tm) (hq : tm.queueAt (qtryQueue w) = e :: r) :
    qtryAct w s th = (writeResults (usesOf (.qtry w)) [(th, qtryPopped w th e)]
      { st := s.popped th.tid.core th.slot (qtryQueue w) }).2 := by
  rw [qtryQueue_pop hf] at hq ⊢
  have hn : (e :: r).length ≠ 0 := Nat.succ_ne_zero _
  unfold qtryAct qtryGroup
  simp only [W.run_bind, W.run_getSt, ht, W.run_ite, hf, Bool.false_eq_true, if_false, hq, hn,
    popQueue_run, Option.bind_some, List.head?_cons, Option.getD_some, List.map_cons, List.map_nil]
  rfl

/-- The teams of a state, with their queues. -/
def teamsPart (w : Work) : List Team := w.st.teams

theorem writeResults_teams {u : Uses} (h : ∀ o ∈ u.ops, o.dst = true → isQ o.code.toNat = false) (rs : List (Thread × Res)) :
    Same teamsPart (writeResults u rs) := by
  unfold writeResults
  refine same_bind same_getSt fun _ => same_bind
    (same_forIn fun _ _ _ => same_bind (fun _ => rfl) fun _ => same_pure _) fun _ =>
      same_ite (fun _ => same_bind (same_forIn fun k _ _ => same_bind ?_ fun _ => same_pure _) fun _ => same_pure _)
        fun _ => same_pure _
  unfold writeShared
  refine same_forIn fun o ho _ => ?_
  have hq : isQ o.1.code.toNat = false := by
    have hm := List.mem_filter.1 (List.fst_mem_of_mem_zipIdx ho)
    exact h o.1 hm.1 hm.2
  dsimp only
  refine same_ite (fun _ => ?_) fun _ => same_ite (fun hc => ?_) fun _ => same_bind (same_pure _) fun _ => same_pure _
  · split
    · exact same_bind (fun _ => rfl) fun _ => same_pure _
    · exact same_pure _
  · simp [hq] at hc

theorem usesOf_qtry_pop (hf : w.f0 = false) :
    (usesOf (.qtry w)).ops = [dOp w.d .b32 .noQueue, sOp w.a .b32 .queueName] := by
  unfold usesOf
  simp only [form, usesF, hf]
  rfl

/-- OPERAND forbids a queue code in a field that may not name one (R43, R53). -/
theorem not_isQ_of_noQueue {c : Code} {ty : Ty} (h : (dOp c ty .noQueue).badOperand = false) : isQ c.toNat = false := by
  by_contra hq
  have hq : 0x188 ≤ c.toNat ∧ c.toNat ≤ 0x18F := by simpa [isQ] using hq
  have hv : isV c.toNat = false := by simp [isV]; omega
  have hix : isIx c.toNat = false := by simp [isIx]; omega
  have hs : isS c.toNat = false := by simp [isS]; omega
  have hh : isH c.toNat = false := by simp [isH]; omega
  simp [Opd.badOperand, dOp, hv, hix, hs, hh, isQ, hq] at h

/-- The destination of a legal QTRY pop is no queue (R198). -/
theorem qtry_dest_noQueue (hf : w.f0 = false) (h : Solo (.qtry w) s th) :
    ∀ o ∈ (usesOf (.qtry w)).ops, o.dst = true → isQ o.code.toNat = false := by
  intro o ho hd
  have hb := badOperand_of_legal h.legal ho
  rw [usesOf_qtry_pop hf] at ho
  rcases List.mem_pair.1 ho with rfl | rfl
  · exact not_isQ_of_noQueue hb
  · cases hd

/-- What the act of one thread leaves, at the end of the step. -/
theorem exec_qtry_ends (h : Solo (.qtry w) s th) {s' : State} {r : Thread} {y : Team} (ha : (qtryAct w s th).st = s')
    (hr : (s'.thread? th.tid).map Thread.registers = some r) (hy : s'.team? th.tid.core th.slot = some y) :
    ∃ t, exec (.qtry w) s = .next t ∧
      (∃ x, t.thread? th.tid = some x ∧ x.pc = s.cur.pc + 8 ∧ x.registers = r) ∧
      t.team? th.tid.core th.slot = some y ∧ SameMemory s t ∧ SameEngines s t := by
  obtain ⟨q, t, rfl, he, hm, hg⟩ := exec_qtry_solo h
  rw [ha] at he hm hg
  obtain ⟨x, hx, rfl⟩ := Option.map_eq_some_iff.1 hr
  refine ⟨_, he, ⟨(issuedRec (.qtry w) [th] th.tid x).goTo (s.cur.pc + 8), ?_, rfl, rfl⟩, hy, hm, hg⟩
  refine (thread?_setThread s' th.tid th.tid
    (fun x => (issuedRec (.qtry w) [th] th.tid x).goTo (s.cur.pc + 8)) fun _ => rfl).trans ?_
  rw [if_pos rfl, hx]
  rfl

/-! ### The registers of the one thread -/

/-- A thread in the state with the registers of `th`, though it may have stopped waiting for a queue. -/
def State.HasRegs (s : State) (th : Thread) : Prop := (s.thread? th.tid).map Thread.registers = some th.registers

theorem hasRegs_of_queuePart {α : Type} {x : W α} (h : Same queuePart x) (hs : s.thread? th.tid = some th) :
    (x { st := s }).2.st.HasRegs th :=
  (registers_of_sharedPart (sharedPart_of_queuePart h) th.tid { st := s }).trans (hs ▸ rfl)

theorem State.HasRegs.given (h : s.HasRegs th) (u : Uses) (r : Res) :
    (s.thread? th.tid).map (fun y => (applyRes u r y).registers) = some (applyRes u r th).registers := by
  obtain ⟨y, hs, hy⟩ := Option.map_eq_some_iff.1 h
  rw [hs]
  exact congrArg some (applyRes_registers hy u r)

theorem State.HasRegs.setThread (h : s.HasRegs th) (u : Uses) (r : Res) :
    ((s.setThread th.tid (applyRes u r)).thread? th.tid).map Thread.registers = some (applyRes u r th).registers := by
  refine .trans ?_ (h.given u r)
  rw [thread?_setThread s th.tid th.tid (applyRes u r) fun _ => rfl, if_pos rfl, Option.map_map]
  rfl

theorem State.HasRegs.writeResults (h : s.HasRegs th) (u : Uses) (r : Res) :
    (((writeResults u [(th, r)] { st := s }).2.st).thread? th.tid).map Thread.registers
      = some (applyRes u r th).registers :=
  (writeResults_thread u [(th, r)] (List.nodup_singleton _) (List.mem_singleton.2 rfl) { st := s }).trans (h.given u r)

/-! ### The claim -/

theorem queues_set_queueAt (h : tm.queues.length = 8) {k : Nat} (hk : k < 8) :
    tm.queues.set k (tm.queueAt k) = tm.queues := by
  have e : tm.queueAt k = tm.queues[k]'(h ▸ hk) := by
    unfold Team.queueAt
    rw [List.getElem?_eq_getElem (h ▸ hk), Option.getD_some]
  rw [e, List.set_getElem_self]

theorem exec_qtry_pushes (h : Solo (.qtry w) s th) (hf : w.f0 = true) (ht : s.team? th.tid.core th.slot = some tm)
    (hr : (tm.queueAt (qtryQueue w)).length + s.pendingPushes th.tid.core th.slot (qtryQueue w) < 8) :
    ∃ t, exec (.qtry w) s = .next t ∧
      (∃ x, t.thread? th.tid = some x ∧ x.pc = s.cur.pc + 8 ∧
        x.registers = (applyRes (usesOf (.qtry w)) { p := [(pn w.c, true)] } th).registers) ∧
      t.team? th.tid.core th.slot = some (tm.withQueue (qtryQueue w) (tm.queueAt (qtryQueue w)
        ++ [qtryEntry tm th (BitVec.ofNat 32 (arg (Solo.values (.qtry w) s th) 1))])) ∧
      SameMemory s t ∧ SameEngines s t := by
  have hs : (s.pushed th.tid.core th.slot (qtryQueue w)
      (qtryEntry tm th (BitVec.ofNat 32 (arg (Solo.values (.qtry w) s th) 1)))).HasRegs th := by
    have hp := hasRegs_of_queuePart (pushQueue_part th.tid.core th.slot (qtryQueue w)
      [(th.rel, BitVec.ofNat 32 (arg (Solo.values (.qtry w) s th) 1))]) h.here
    rwa [pushQueue_one ht] at hp
  exact exec_qtry_ends h (qtryAct_pushes hf ht hr) (hs.setThread _ _) (pushed_team ht _ _)

theorem exec_qtry_full (h : Solo (.qtry w) s th) (hf : w.f0 = true) (ht : s.team? th.tid.core th.slot = some tm)
    (hr : 8 ≤ (tm.queueAt (qtryQueue w)).length + s.pendingPushes th.tid.core th.slot (qtryQueue w)) :
    ∃ t, exec (.qtry w) s = .next t ∧
      (∃ x, t.thread? th.tid = some x ∧ x.pc = s.cur.pc + 8 ∧
        x.registers = (applyRes (usesOf (.qtry w)) { p := [(pn w.c, false)] } th).registers) ∧
      t.team? th.tid.core th.slot = some tm ∧ SameMemory s t ∧ SameEngines s t :=
  exec_qtry_ends h (qtryAct_full hf ht hr)
    (State.HasRegs.setThread (show s.HasRegs th from congrArg (Option.map Thread.registers) h.here) _ _) ht

theorem exec_qtry_pops {e : List (Option Word)} {r : List (List (Option Word))} (h : Solo (.qtry w) s th) (hf : w.f0 = false)
    (ht : s.team? th.tid.core th.slot = some tm) (hq : tm.queueAt (qtryQueue w) = e :: r) :
    ∃ t, exec (.qtry w) s = .next t ∧
      (∃ x, t.thread? th.tid = some x ∧ x.pc = s.cur.pc + 8 ∧
        x.registers = (applyRes (usesOf (.qtry w)) (qtryPopped w th e) th).registers) ∧
      t.team? th.tid.core th.slot = some (tm.withQueue (qtryQueue w) r) ∧ SameMemory s t ∧ SameEngines s t := by
  have hs : (s.popped th.tid.core th.slot (qtryQueue w)).HasRegs th :=
    hasRegs_of_queuePart (popQueue_part th.tid.core th.slot (qtryQueue w)) h.here
  have hteams := writeResults_teams (qtry_dest_noQueue hf h) [(th, qtryPopped w th e)]
    { st := s.popped th.tid.core th.slot (qtryQueue w) }
  refine exec_qtry_ends h (congrArg Work.st (qtryAct_pops hf ht hq)) (hs.writeResults _ _) ?_
  have hp := popped_team ht (qtryQueue w)
  rw [hq] at hp
  exact (congrArg (List.find? _) hteams).trans hp

/-- Without an entry QTRY's pop writes the predicate only. -/
theorem exec_qtry_empty (h : Solo (.qtry w) s th) (hf : w.f0 = false) (ht : s.team? th.tid.core th.slot = some tm)
    (hq : tm.queueAt (qtryQueue w) = []) :
    ∃ t x, exec (.qtry w) s = .next t ∧ t.thread? th.tid = some x ∧ x.pc = s.cur.pc + 8 ∧
      x.registers = (applyRes { usesOf (.qtry w) with ops := [] } { p := [(pn w.c, false)] } th).registers ∧
      t.groups = s.groups ∧ t.teams = s.teams ∧ OthersSame s t th.tid ∧ SameMemory s t := by
  obtain ⟨q, t, rfl, he, hm, -⟩ := exec_qtry_solo h
  rw [qtryAct_empty hf ht hq] at he hm
  generalize hu : applyRes { usesOf (.qtry w) with ops := [] } { p := [(pn w.c, false)] } = g at he hm
  have hg : ∀ x, (g x).tid = x.tid := by rw [← hu]; exact fun _ => rfl
  refine ⟨_, (issuedRec (.qtry w) [th] th.tid (g th)).goTo (s.cur.pc + 8), he, ?_, rfl, rfl, rfl, rfl, fun v hv => ?_, hm⟩
  · refine (thread?_setThread (s.setThread th.tid g) th.tid th.tid
      (fun x => (issuedRec (.qtry w) [th] th.tid x).goTo (s.cur.pc + 8)) fun _ => rfl).trans ?_
    rw [if_pos rfl, thread?_setThread s th.tid th.tid g hg, if_pos rfl, h.here]
    rfl
  · refine (thread?_setThread (s.setThread th.tid g) th.tid v
      (fun x => (issuedRec (.qtry w) [th] th.tid x).goTo (s.cur.pc + 8)) fun _ => rfl).trans ?_
    rw [if_neg hv, thread?_setThread s th.tid v g hg, if_neg hv]

/-- R198: QTRY gives or takes an entry where it can, and says so; it never waits. -/
theorem qtryNeverWaits : Claims.QtryNeverWaits := by
  intro w s th tm h htm hlen
  have ht : s.team? th.tid.core th.slot = some tm := find_one htm
  refine fun hq => ⟨fun hf hr => ?_, fun hf hr => ?_, fun hf he => ?_, fun e r hf he => ?_⟩
  · obtain ⟨t, hex, hx, hy, hm⟩ := exec_qtry_pushes h hf ht hr
    exact ⟨t, hex, hx, ⟨_, hy, rfl⟩, hm⟩
  · obtain ⟨t, hex, hx, hy, hm⟩ := exec_qtry_full h hf ht hr
    exact ⟨t, hex, hx, ⟨_, hy, (queues_set_queueAt hlen hq).symm⟩, hm⟩
  · exact exec_qtry_empty h hf ht he
  · obtain ⟨t, hex, hx, hy, hm⟩ := exec_qtry_pops h hf ht he
    exact ⟨t, hex, hx, ⟨_, hy, rfl⟩, hm⟩

/-- Settles O11: the three claims, each by the rule for the one thread that the checks let through. -/
theorem pairsAndQueueOperands : Obligations.PairsAndQueueOperands :=
  ⟨pairSlotsReadBeforeTheyWrite, queueSourcesPopOrWait, qtryNeverWaits⟩

end Sys2Proof.Machine
end

section
/-!
The result of a vector instruction of one thread in registers of the thread or of its group (02 R76, 04 R165), and the
logic instructions, the shifts and the bit counts by it (02 R83, R84, R87).
-/
namespace Sys2Proof.Machine

variable {i : Instr} {f : State → Thread → List Nat → Res} {s : State} {th : Thread} {o : Opd} {ws : List Word}

/-! ### A result in the group's registers (R165) -/

/-- A group after a destination operand that names s or h registers has received `ws`. -/
def Group.given (g : Group) (o : Opd) (ws : List Word) : Group :=
  if isS o.code.toNat then { g with s := setSlice g.s (o.code.toNat - 0x140) ws }
  else { g with h := setSlice g.h (o.code.toNat - 0x190) ws }

theorem writeRefsG_s (g : Group) (n : Nat) (ws : List Word) :
    writeRefsG g ((List.range ws.length).map fun j => .s (n + j)) ws = { g with s := setSlice g.s n ws } := by
  induction ws generalizing g n with
  | nil => rfl
  | cons x xs ih =>
    rw [List.length_cons, List.range_succ_eq_map, List.map_cons, List.map_map]
    refine .trans ?_ (ih { g with s := g.s.set n x } (n + 1))
    simp only [writeRefsG, Nat.add_zero, Function.comp_def, Nat.succ_eq_add_one, Nat.add_comm, Nat.add_left_comm]

theorem writeRefsG_h (g : Group) (n : Nat) (ws : List Word) :
    writeRefsG g ((List.range ws.length).map fun j => .h (n + j)) ws = { g with h := setSlice g.h n ws } := by
  induction ws generalizing g n with
  | nil => rfl
  | cons x xs ih =>
    rw [List.length_cons, List.range_succ_eq_map, List.map_cons, List.map_map]
    refine .trans ?_ (ih { g with h := g.h.set n x } (n + 1))
    simp only [writeRefsG, Nat.add_zero, Function.comp_def, Nat.succ_eq_add_one, Nat.add_comm, Nat.add_left_comm]

/-- The operand names s or h registers. -/
def Opd.shared (o : Opd) : Prop := (isS o.code.toNat || isH o.code.toNat) = true

theorem Opd.shared.not_own (h : o.shared) : (isV o.code.toNat || isIx o.code.toNat) = false := by
  unfold Opd.shared at h
  simp only [isS, isH, isV, isIx, Bool.or_eq_true, Bool.and_eq_true, decide_eq_true_eq, Bool.or_eq_false_iff,
    Bool.and_eq_false_iff, decide_eq_false_iff_not] at h ⊢
  omega

theorem Opd.shared.vnum (h : o.shared) (th : Thread) : o.vnum th = none := by
  obtain ⟨hv, hix⟩ := Bool.or_eq_false_iff.1 h.not_own
  simp [Opd.vnum, Opd.index, hv, hix]

theorem Opd.shared.writeRefsG (h : o.shared) (hw : ws.length = o.width) (g : Group) (th : Thread) :
    writeRefsG g (o.regs th) ws = g.given o ws := by
  unfold Opd.regs Group.given
  simp only [h.vnum, ← hw]
  cases hs : isS o.code.toNat
  · have hh : isH o.code.toNat = true := by simpa [Opd.shared, hs] using h
    have hq : isQ o.code.toNat = false := by
      simp only [isH, isQ, Bool.and_eq_true, decide_eq_true_eq, Bool.and_eq_false_iff, decide_eq_false_iff_not] at hh ⊢
      omega
    simp only [hq, hh, Bool.false_eq_true, if_false, if_true, writeRefsG_h]
  · simp only [if_true, writeRefsG_s]

/-- The groups after `ws` has been written to the registers of `th`'s group that `o` names. -/
def State.sharing (s : State) (th : Thread) (o : Opd) (ws : List Word) : List Group :=
  s.groups.map fun g => if g.core = th.tid.core && g.slot = th.slot && g.grp = th.grp then g.given o ws else g

theorem writeShared_one {u : Uses} (hd : u.ops.filter (·.dst) = [o]) (h : o.shared) {r : Res} (hr : r.d = [ws]) (w : Work) :
    writeShared u th.tid.core (th.slot, th.grp) [(th, r)] w
      = ((), { w with st := w.st.putGroups (w.st.sharing th o ws) }) := by
  have h' : (isS o.code.toNat || isH o.code.toNat) = true := h
  simp only [writeShared, hd, List.zipIdx_cons, List.zipIdx_nil, List.filter_cons, List.filter_nil, decide_true, if_true,
    List.foldl_cons, List.foldl_nil, W.forIn_cons, W.forIn_nil, h', writeGroup, modGroup, hr, List.getElem?_cons_zero,
    Option.getD_some, W.run_bind, W.run_upd, W.run_pure]
  rfl

theorem writeResults_shared {u : Uses} (hd : u.ops.filter (·.dst) = [o]) (h : o.shared) {r : Res} (hr : r.d = [ws])
    (hs : s.Has th) (hg : th.grp < 512) (hc : s.cur.core = th.tid.core) :
    writeResults u [(th, r)] { st := s }
      = ((), { st := (s.putGroups (s.sharing th o ws)).putThread (applyRes u r th) }) := by
  have hm : modThread th.tid (applyRes u r) { st := s } = _ := modThread_has (w := { st := s }) hs (applyRes u r) rfl
  have hw := writeShared_one (th := th) hd h hr { st := s.putThread (applyRes u r th) }
  unfold writeResults
  simp only [W.run_bind, W.run_getSt, W.forIn_cons, W.forIn_nil, W.run_pure, hm, hd, List.any_cons, List.any_nil, h.not_own,
    Bool.not_false, Bool.or_false, if_true, List.map_cons, List.map_nil, groupsOf_single hg, hc, hw]
  rfl

theorem destOf_one (hd : (usesOf i).ops.filter (·.dst) = [o]) (th : Thread) : destOf i th = o.regs th := by
  have key : ∀ l : List Opd, (l.flatMap fun o => if o.dst then o.regs th else []) = (l.filter (·.dst)).flatMap (·.regs th) := by
    intro l
    induction l with
    | nil => rfl
    | cons a l ih => cases ha : a.dst <;> simp [ha, ih]
  rw [destOf, key, hd, List.flatMap_singleton]

/-- The result of a word that a lone thread issues, with registers of its group as its one destination. -/
theorem issueVec_sharedResult (h : Solo i s th) (hd : (usesOf i).ops.filter (·.dst) = [o]) (ho : o.shared)
    (hr : (f s th (Solo.values i s th)).d = [ws]) (hw : ws.length = o.width) :
    ∃ t, run (issueVec i f) s = .next t ∧ LoneResult s t i th (f s th (Solo.values i s th)) := by
  obtain ⟨hcore, -⟩ := h.place
  have hres := writeResults_shared hd ho hr h.has h.grp hcore
  generalize hs' : s.putGroups (s.sharing th o ws) = s' at hres
  have hs : s'.Has th := by rw [← hs']; exact h.has
  obtain ⟨q, hq, he⟩ := endIssue_solo i th (Solo.values i s th) (fun _ => s.cur.pc + 8)
    { st := s'.putThread (applyRes (usesOf i) (f s th (Solo.values i s th)) th) }
  have hset := (hs.put (a := applyRes (usesOf i) (f s th (Solo.values i s th)) th) rfl).set
    (fun x => (issuedRec i [th] th.tid x).goTo (s.cur.pc + 8)) rfl
  rw [State.putThread_put (by rfl)] at hset
  have hrun : issueVec i f { st := s }
      = ((), { st := (s'.putThread (th.given i (f s th (Solo.values i s th)) (s.cur.pc + 8))).putQuarters q }) := by
    unfold issueVec
    simp only [W.run_bind, h.check, W.run_getSt, List.map_cons, List.map_nil, hres, he]
    exact congrArg (fun x : State => ((), ({ st := x.putQuarters q } : Work))) hset
  have hx := (hs.put (a := th.given i (f s th (Solo.values i s th)) (s.cur.pc + 8)) rfl).thread?
  subst hs'
  refine ⟨_, run_quiet hrun rfl rfl, ⟨_, hx, rfl, rfl, rfl⟩, ?_,
    fun v hv => thread?_putThread_ne (s := s.putGroups _) (a := th.given i (f s th (Solo.values i s th)) (s.cur.pc + 8)) hv,
    rfl, rfl, rfl, hq⟩
  refine List.map_congr_left fun g _ => ?_
  rw [destOf_one hd, hr, List.flatMap_singleton, id, ho.writeRefsG hw]

/-- A word with one destination of type `ty`, which its result fills. -/
structure OneResult (i : Instr) (f : State → Thread → List Nat → Res) (c : Code) (ty : Ty) : Prop where
  dest : (usesOf i).ops.filter (·.dst) = [dOp c ty]
  res  : ∀ s th v, ∃ x, f s th v = res1 ty x

/-- A legal destination without a queue names registers of the thread or of its group (R43). -/
theorem own_or_shared {c : Code} {ty : Ty} (hb : (dOp c ty).badOperand = false) (hq : isQ c.toNat = false) :
    (isV c.toNat || isIx c.toNat) = true ∨ (dOp c ty).shared := by
  unfold Opd.shared
  by_contra hn
  simp only [Bool.or_eq_true, not_or, Bool.not_eq_true, dOp] at hn
  obtain ⟨⟨hv, hix⟩, hs, hh⟩ := hn
  simp [Opd.badOperand, dOp, hv, hix, hs, hh, hq] at hb

theorem OneResult.exec {c : Code} {ty : Ty} (hf : vecRule i = some f) (ho : OneResult i f c ty) (h : Solo i s th) :
    ∃ t, exec i s = .next t ∧ LoneResult s t i th (f s th (Solo.values i s th)) := by
  obtain ⟨-, hpush⟩ := h.noQ
  have hmem : dOp c ty ∈ (usesOf i).ops.filter (·.dst) := ho.dest ▸ List.mem_singleton.2 rfl
  have hq : isQ c.toNat = false := by
    by_contra hq
    have : dOp c ty ∈ (usesOf i).ops.filter fun o => isQ o.code.toNat && o.dst && o.kind ≠ .queueName := by
      refine List.mem_filter.2 ⟨(List.mem_filter.1 hmem).1, ?_⟩
      simpa [dOp] using hq
    rw [List.map_eq_nil_iff.1 hpush] at this
    cases this
  rw [exec_of_vecRule hf]
  rcases own_or_shared (badOperand_of_legal h.legal (List.mem_filter.1 hmem).1) hq with hown | hsh
  · refine issueVec_loneResult h fun o hm hd => ?_
    have : o ∈ (usesOf i).ops.filter (·.dst) := List.mem_filter.2 ⟨hm, hd⟩
    rw [ho.dest, List.mem_singleton] at this
    exact this ▸ hown
  · obtain ⟨x, hx⟩ := ho.res s th (Solo.values i s th)
    exact issueVec_sharedResult h ho.dest hsh (ws := valueWords (tyRegs ty) x) (by rw [hx]; rfl)
      (by simp [valueWords, Opd.width, dOp])

/-- A word without destination operands gives a lone thread predicates and flags only. -/
theorem exec_noDest (hf : vecRule i = some f) (hd : (usesOf i).ops.filter (·.dst) = []) (h : Solo i s th) :
    ∃ t, exec i s = .next t ∧ LoneResult s t i th (f s th (Solo.values i s th)) := by
  rw [exec_of_vecRule hf]
  exact issueVec_loneResult h fun o hm ho => absurd (List.mem_filter.2 ⟨hm, ho⟩) (by rw [hd]; exact List.not_mem_nil)

/-! ### The logic instructions, the shifts and the bit counts -/

/-- A lone thread's word whose result is the function `r` of two source values. -/
theorem exec_ofTwo {r : Nat → Nat → Res} {c : Code} {ty : Ty} (hf : vecRule i = some fun _ _ v => r (arg v 0) (arg v 1))
    (hd : (usesOf i).ops.filter (·.dst) = [dOp c ty]) (hr : ∀ a b, ∃ x, r a b = res1 ty x) (h : Solo i s th) :
    ∃ t, exec i s = .next t ∧ LoneResult s t i th (r (arg (Solo.values i s th) 0) (arg (Solo.values i s th) 1)) :=
  OneResult.exec hf ⟨hd, fun _ _ _ => hr _ _⟩ h

/-- Each of these words has one destination and is a function of its first two sources. -/
theorem logicInstructionsComplete : Claims.LogicInstructionsComplete := by
  intro w s th i r hi h
  simp only [List.mem_cons, Prod.mk.injEq, List.not_mem_nil, or_false] at hi
  rcases hi with ⟨rfl, hr⟩ | ⟨rfl, hr⟩ | ⟨rfl, hr⟩ | ⟨rfl, hr⟩ | ⟨rfl, hr⟩ | ⟨rfl, hr⟩ | ⟨rfl, hr⟩ | ⟨rfl, hr⟩ |
    ⟨rfl, hr⟩ | ⟨rfl, hr⟩
  all_goals exact exec_ofTwo (hr ▸ rfl) rfl (fun a b => ⟨_, congrFun (congrFun hr a) b⟩) h

end Sys2Proof.Machine
end

section
/-!
Integer arithmetic element by element, saturation, logic, shifts and bit fields (02 R67, R74, R80 to R87, R92).
-/
namespace Sys2Proof.Machine

/-! ### Elements of a value (R67) -/

variable {w n e k : Nat} {f : Nat → Nat}

theorem mapEl_succ (w n : Nat) (f : Nat → Nat) : mapEl w (n + 1) f = mapEl w n f + f n % 2 ^ w * 2 ^ (w * n) := by
  simp [mapEl, List.range_succ]

theorem mapEl_lt (w n : Nat) (f : Nat → Nat) : mapEl w n f < 2 ^ (w * n) := by
  induction n with
  | zero => simp [mapEl]
  | succ n ih =>
    have hf : f n % 2 ^ w + 1 ≤ 2 ^ w := Nat.mod_lt _ (Nat.two_pow_pos w)
    calc mapEl w (n + 1) f = mapEl w n f + f n % 2 ^ w * 2 ^ (w * n) := mapEl_succ w n f
      _ < (f n % 2 ^ w + 1) * 2 ^ (w * n) := by rw [Nat.succ_mul]; omega
      _ ≤ 2 ^ w * 2 ^ (w * n) := Nat.mul_le_mul_right _ hf
      _ = 2 ^ (w * (n + 1)) := by rw [← pow_add, Nat.mul_succ, Nat.add_comm]

theorem el_mapEl (f : Nat → Nat) (he : e < n) : el w (mapEl w n f) e = f e % 2 ^ w := by
  induction n with
  | zero => cases he
  | succ n ih =>
    unfold el at ih ⊢
    rw [mapEl_succ]
    rcases Nat.lt_succ_iff_lt_or_eq.1 he with h | rfl
    · obtain ⟨d, rfl⟩ := Nat.exists_eq_add_of_lt h
      rw [← ih h, show w * (e + d + 1) = w * e + w * d + w by ring, pow_add, pow_add,
        show ∀ a b c d : Nat, a * (b * c * d) = b * (a * c * d) by intros; ring, Nat.add_mul_div_left _ _ (Nat.two_pow_pos _),
        Nat.add_mul_mod_self_right]
    · rw [Nat.mul_comm (f e % 2 ^ w), Nat.add_mul_div_left _ _ (Nat.two_pow_pos _), Nat.div_eq_of_lt (mapEl_lt w e f),
        Nat.zero_add, Nat.mod_mod]

theorem low_cast (w : Nat) (x : Int) : (low w x : Int) = x % 2 ^ w :=
  Int.toNat_of_nonneg (Int.emod_nonneg _ (by positivity))

theorem low_lt (w : Nat) (x : Int) : low w x < 2 ^ w := by
  have := Int.emod_lt_of_pos x (show (0 : Int) < 2 ^ w by positivity)
  rw [← low_cast] at this
  exact_mod_cast this

theorem low_natCast (w x : Nat) : low w x = x % 2 ^ w := by
  have := low_cast w x
  exact_mod_cast this

theorem deliver_lt (t : Ty) (sat : Bool) (x : Int) : deliver t sat x < 2 ^ elW t := low_lt _ _

theorem el_deliver (t : Ty) (sat : Bool) (g : Nat → Int) (he : e < n) :
    el (elW t) (mapEl (elW t) n fun e => deliver t sat (g e)) e = deliver t sat (g e) :=
  (el_mapEl _ he).trans (Nat.mod_eq_of_lt (deliver_lt _ _ _))

theorem integerElementsFollowTheRules : Claims.IntegerElementsFollowTheRules := by
  intro t sat a b c e he
  refine ⟨el_deliver t _ _ he, el_deliver t _ _ he, el_deliver t _ _ he, el_deliver t _ _ he, el_deliver t _ _ he,
    (el_deliver t _ _ he).trans ?_, el_deliver t _ _ he⟩
  simp only [ge_iff_le, max_def']

/-! ### Saturation (R74) -/

theorem elW_pos (t : Ty) : 0 < elW t := by cases t <;> decide

/-- The two's complement reading of the low bits of a value of the element's range is the value. -/
theorem sgn_low (hw : 0 < w) {x : Int} (hl : -2 ^ (w - 1) ≤ x) (hh : x < 2 ^ (w - 1)) : sgn w (low w x) = x := by
  obtain ⟨w, rfl⟩ := Nat.exists_eq_succ_of_ne_zero hw.ne'
  have hm : low (w + 1) x % 2 ^ (w + 1) = low (w + 1) x := Nat.mod_eq_of_lt (low_lt _ _)
  have hc := low_cast (w + 1) x
  have hp : (2 : Int) ^ (w + 1) = 2 * 2 ^ w := by ring
  have hn : (2 : Int) ^ w = (2 ^ w : Nat) := by norm_cast
  unfold sgn
  simp only [Nat.succ_eq_add_one, Nat.add_sub_cancel] at hl hh ⊢
  rw [hm]
  rcases lt_or_ge x 0 with h | h
  · have hx : (low (w + 1) x : Int) = x + 2 ^ (w + 1) := by
      rw [hc, ← Int.add_emod_right, Int.emod_eq_of_lt] <;> omega
    rw [if_pos (by omega), show ((low (w + 1) x : Int) % 2 ^ (w + 1)) = low (w + 1) x by exact_mod_cast hm, hx]
    omega
  · have hx : (low (w + 1) x : Int) = x := by rw [hc, Int.emod_eq_of_lt h]; omega
    rw [if_neg (by omega), hx]

theorem minEl_le_maxEl (t : Ty) : minEl t ≤ maxEl t := by cases t <;> decide

theorem elVal_low (t : Ty) {x : Int} (hl : minEl t ≤ x) (hh : x ≤ maxEl t) : elVal t (low (elW t) x) = x := by
  unfold minEl at hl
  unfold maxEl at hh
  unfold elVal
  cases ht : signedTy t
  · simp only [ht, Bool.false_eq_true, if_false] at hl hh ⊢
    rw [low_cast, Int.emod_eq_of_lt hl (by omega)]
  · simp only [ht, if_true] at hl hh ⊢
    exact sgn_low (elW_pos t) hl (by omega)

theorem clampTo_mem {lo hi x : Int} (hl : lo ≤ x) (hh : x ≤ hi) : clampTo lo hi x = x := by
  rw [clampTo, if_neg (by omega), if_neg (by omega)]

theorem clampTo_below {lo hi x : Int} (h : x < lo) : clampTo lo hi x = lo := by rw [clampTo, if_pos h]

theorem clampTo_above {lo hi x : Int} (hlh : lo ≤ hi) (h : hi < x) : clampTo lo hi x = hi := by
  rw [clampTo, if_neg (by omega), if_pos h]

theorem saturationClampsToTheElementRange : Claims.SaturationClampsToTheElementRange := by
  intro t x
  have hlh := minEl_le_maxEl t
  refine ⟨?_, deliver_lt t false x, fun hl hh => ?_, fun h => ?_, fun h => ?_⟩
  · simp only [deliver, Bool.false_eq_true, if_false, low_cast]
    rw [Int.emod_sub_emod, sub_self, Int.zero_emod]
  · simp only [deliver, if_true, Bool.false_eq_true, if_false, clampTo_mem hl hh, elVal_low t hl hh, and_self]
  · simp only [deliver, if_true, clampTo_below h, elVal_low t le_rfl hlh]
  · simp only [deliver, if_true, clampTo_above hlh h, elVal_low t hlh le_rfl]

/-! ### Logic and shifts (R83, R84) -/

theorem testBit_el (w x e : Nat) (hk : k < w) : (el w x e).testBit k = x.testBit (w * e + k) := by
  simp [el, hk, Nat.testBit_div_two_pow, Nat.add_comm]

theorem evalLogic_testBit (t : Ty) (a b : Nat) (hk : k < 32 * tyRegs t) :
    (evalLogic 0 t a b).testBit k = (a.testBit k && b.testBit k) ∧
    (evalLogic 1 t a b).testBit k = (a.testBit k || b.testBit k) ∧
    (evalLogic 2 t a b).testBit k = (a.testBit k != b.testBit k) ∧
    (evalLogic 3 t a b).testBit k = (a.testBit k && !b.testBit k) := by
  refine ⟨Nat.testBit_and .., Nat.testBit_or .., Nat.testBit_xor .., ?_⟩
  have hb := Nat.mod_lt b (Nat.two_pow_pos (32 * tyRegs t))
  show (a &&& (2 ^ (32 * tyRegs t) - 1 - b % 2 ^ (32 * tyRegs t))).testBit k = _
  rw [Nat.testBit_and, Nat.sub_sub, Nat.add_comm 1, Nat.testBit_two_pow_sub_succ hb]
  simp [hk]

/-- The bits of SHL, SHR and SAR of an element of `w` bits by `n`. -/
theorem shl_testBit (hk : k < w) (x n : Nat) :
    ((if n ≥ w then 0 else x * 2 ^ n) % 2 ^ w).testBit k = (decide (n ≤ k) && x.testBit (k - n)) := by
  split
  · have : ¬ n ≤ k := by omega
    simp [this]
  · simp [Nat.testBit_mod_two_pow, hk, Nat.testBit_mul_two_pow]

theorem shr_testBit (hk : k < w) {x : Nat} (hx : x < 2 ^ w) (n : Nat) :
    ((if n ≥ w then 0 else x / 2 ^ n) % 2 ^ w).testBit k = x.testBit (k + n) := by
  split
  · rw [Nat.testBit_lt_two_pow (hx.trans_le (Nat.pow_le_pow_right two_pos (by omega)))]
    simp
  · simp [Nat.testBit_mod_two_pow, hk, Nat.testBit_div_two_pow]

/-- The sign bit of a pattern of `w` bits. -/
theorem testBit_sign (hw : 0 < w) {x : Nat} (hx : x < 2 ^ w) : x.testBit (w - 1) = decide (2 ^ (w - 1) ≤ x) := by
  have hp : 2 ^ w = 2 ^ (w - 1) * 2 := by rw [← pow_succ, Nat.sub_add_cancel hw]
  have hlt : x / 2 ^ (w - 1) < 2 := Nat.div_lt_of_lt_mul (by omega)
  have hle := Nat.le_div_iff_mul_le (k := 2 ^ (w - 1)) (x := 1) (y := x) (Nat.two_pow_pos _)
  rw [Nat.testBit_eq_decide_div_mod_eq, Nat.mod_eq_of_lt hlt, decide_eq_decide]
  omega

theorem sgn_eq (hw : 0 < w) {x : Nat} (hx : x < 2 ^ w) : sgn w x = x - if x.testBit (w - 1) then 2 ^ w else 0 := by
  unfold sgn
  rw [testBit_sign hw hx, Nat.mod_eq_of_lt hx, show ((x : Int) % 2 ^ w) = x by exact_mod_cast Nat.mod_eq_of_lt hx]
  by_cases h : 2 ^ (w - 1) ≤ x
  · simp [h]
  · simp [h]

/-- An arithmetic shift of a pattern of `w` bits shifts the pattern with `n` copies of its sign above it. -/
theorem low_sgn_div (hw : 0 < w) {x : Nat} (hx : x < 2 ^ w) (n : Nat) :
    low w (sgn w x / 2 ^ n) = (2 ^ w * (if x.testBit (w - 1) then 2 ^ n - 1 else 0) + x) / 2 ^ n % 2 ^ w := by
  have hn := Nat.two_pow_pos n
  rw [← low_natCast, sgn_eq hw hx]
  cases x.testBit (w - 1)
  · simp
  · have e : ((2 ^ w * (2 ^ n - 1) + x : Nat) : Int) = x - 2 ^ w + 2 ^ w * 2 ^ n := by
      push_cast [Nat.cast_sub hn]; ring
    simp only [if_true]
    rw [Int.natCast_ediv, e]
    push_cast
    rw [Int.add_mul_ediv_right _ _ (by positivity)]
    unfold low
    rw [Int.add_emod_right]

theorem low_neg_one (w : Nat) : low w (-1) = 2 ^ w - 1 := by
  have h := low_cast w (-1)
  have hp := Nat.two_pow_pos w
  have hn : ((2 ^ w : Nat) : Int) = 2 ^ w := by push_cast; rfl
  rw [← Int.add_emod_right, Int.emod_eq_of_lt] at h <;> omega

theorem sar_testBit (hk : k < w) {x : Nat} (hx : x < 2 ^ w) (n : Nat) :
    (low w (if n ≥ w then (if x ≥ 2 ^ (w - 1) then -1 else 0) else sgn w x / 2 ^ n) % 2 ^ w).testBit k
      = x.testBit (min (k + n) (w - 1)) := by
  have hw : 0 < w := Nat.zero_lt_of_lt hk
  rw [Nat.mod_eq_of_lt (low_lt _ _)]
  split
  case isTrue h =>
    rw [Nat.min_eq_right (by omega), testBit_sign hw hx]
    by_cases hs : 2 ^ (w - 1) ≤ x
    · simp [low_neg_one, hk, hs]
    · simp [low, hs]
  case isFalse h =>
    rw [low_sgn_div hw hx, Nat.testBit_mod_two_pow, Nat.testBit_div_two_pow, Nat.testBit_two_pow_mul_add _ hx]
    rcases Nat.lt_or_ge (k + n) w with hkn | hkn
    · rw [if_pos hkn, Nat.min_eq_left (by omega)]
      simp [hk]
    · rw [if_neg (by omega), Nat.min_eq_right (by omega)]
      cases x.testBit (w - 1)
      · simp
      · simp [hk, show k + n - w < n by omega]

/-- How far a shift moves element `e` (R84). -/
def shiftCount (t : Ty) (wrap : Bool) (b e : Nat) : Nat :=
  let n := if elN t = 1 then b % 2 ^ 32 else el (elW t) b e
  if wrap then n % elW t else n

theorem evalShift_testBit (t : Ty) (wrap : Bool) (a b : Nat) (he : e < elN t) (hk : k < elW t) :
    let x := el (elW t) a e
    let n := shiftCount t wrap b e
    (el (elW t) (evalShift 0 t wrap a b) e).testBit k = (decide (n ≤ k) && x.testBit (k - n)) ∧
    (el (elW t) (evalShift 1 t wrap a b) e).testBit k = x.testBit (k + n) ∧
    (el (elW t) (evalShift 2 t wrap a b) e).testBit k = x.testBit (min (k + n) (elW t - 1)) := by
  have hx : el (elW t) a e < 2 ^ elW t := Nat.mod_lt _ (Nat.two_pow_pos _)
  unfold evalShift
  simp only [el_mapEl _ he]
  exact ⟨shl_testBit hk _ _, shr_testBit hk hx _, sar_testBit hk hx _⟩

theorem logicAndShiftsBitByBit : Claims.LogicAndShiftsBitByBit := by
  refine ⟨fun t a b k hk => evalLogic_testBit t a b hk, fun t a b e k he hk => ?_⟩
  obtain ⟨shl, shr, sar⟩ := evalShift_testBit t false a b he hk
  obtain ⟨shlWrap, shrWrap, sarWrap⟩ := evalShift_testBit t true a b he hk
  exact ⟨shl, shr, sar, shlWrap, shrWrap, sarWrap⟩

/-! ### Bit fields and counts (R85, R86, R87, R92) -/

theorem evalPopc_eq (w a : Nat) : evalPopc w a = ((List.range w).filter fun k => a.testBit k).length := by
  induction w with
  | zero => rfl
  | succ w ih =>
    unfold evalPopc at ih ⊢
    rw [List.range_succ, List.foldl_append, ih, List.filter_append, List.length_append]
    have hb := Nat.testBit_eq_decide_div_mod_eq (x := a) (i := w)
    have := Nat.mod_two_eq_zero_or_one (a / 2 ^ w)
    rcases this with h | h <;> simp [hb, h]

/-- The leading bit of the low `w` bits, and the zeros above it. -/
theorem evalClz_spec (w a : Nat) : evalClz w a ≤ w ∧ (∀ k, w - evalClz w a ≤ k → k < w → a.testBit k = false) ∧
    (evalClz w a < w → a.testBit (w - 1 - evalClz w a) = true) := by
  have hbit : ∀ k, k < w → a.testBit k = (a % 2 ^ w).testBit k := fun k hk => by simp [Nat.testBit_mod_two_pow, hk]
  unfold evalClz
  split
  case isTrue h => exact ⟨le_rfl, fun k _ hk => by rw [hbit k hk, h, Nat.zero_testBit], fun h => absurd h (lt_irrefl w)⟩
  case isFalse h =>
    have hlog : Nat.log2 (a % 2 ^ w) < w := (Nat.log2_lt h).2 (Nat.mod_lt _ (Nat.two_pow_pos w))
    refine ⟨by omega, fun k hl hk => ?_, fun _ => ?_⟩
    · rw [hbit k hk]
      exact Nat.testBit_lt_two_pow ((Nat.log2_lt h).1 (by omega))
    · rw [show w - 1 - (w - 1 - Nat.log2 (a % 2 ^ w)) = Nat.log2 (a % 2 ^ w) by omega, hbit _ hlog]
      exact Nat.testBit_log2 h

theorem foldl_add_eq_sum (w : Nat) (g : Nat → Nat) : (List.range w).foldl (fun n k => n + g k) 0 = ∑ k ∈ Finset.range w, g k := by
  induction w with
  | zero => rfl
  | succ w ih => rw [List.range_succ, List.foldl_append, ih, Finset.sum_range_succ]; rfl

/-- One more bit to reverse comes in at the low end. -/
theorem evalBrev_succ (w a : Nat) : evalBrev (w + 1) a = 2 * evalBrev w a + (a.testBit w).toNat := by
  unfold evalBrev
  rw [foldl_add_eq_sum, foldl_add_eq_sum, Finset.sum_range_succ, Finset.mul_sum, Nat.toNat_testBit]
  refine congrArg₂ _ (Finset.sum_congr rfl fun k hk => ?_) (by simp)
  obtain ⟨d, rfl⟩ := Nat.exists_eq_add_of_lt (Finset.mem_range.1 hk)
  rw [show k + d + 1 + 1 - 1 - k = d + 1 by omega, show k + d + 1 - 1 - k = d by omega, pow_succ]
  ring

theorem evalBrev_testBit (a : Nat) (hk : k < w) : (evalBrev w a).testBit k = a.testBit (w - 1 - k) := by
  induction w generalizing k with
  | zero => cases hk
  | succ w ih =>
    rw [evalBrev_succ]
    cases k with
    | zero => cases h : a.testBit w <;> simp [Nat.testBit_zero, h, Nat.add_mod]
    | succ k =>
      have hb : (2 * evalBrev w a + (a.testBit w).toNat) / 2 = evalBrev w a := by
        have := Bool.toNat_le (a.testBit w)
        omega
      rw [Nat.testBit_succ, hb, ih (by omega)]
      congr 1
      omega

theorem elVal_unsigned {t : Ty} (h : signedTy t = false) (x : Nat) : elVal t x = x := by simp [elVal, h]

theorem evalBfe_testBit (a b c k : Nat) :
    (evalBfe .b32 a b c).testBit k = (decide (k < min (c % 256) 32) && a.testBit (k + b % 256)) := by
  have h : ∀ len : Nat, (if len = 0 then 0 else low len ((a : Int) / 2 ^ (b % 256))).testBit k
      = (decide (k < len) && a.testBit (k + b % 256)) := by
    intro len
    split
    case isTrue h => simp [h]
    case isFalse h =>
      rw [show (a : Int) / 2 ^ (b % 256) = (a / 2 ^ (b % 256) : Nat) by push_cast; rfl, low_natCast, Nat.testBit_mod_two_pow,
        Nat.testBit_div_two_pow]
  exact h (min (c % 256) 32)

/-- The bits of a field of `len` bits at `pos`. -/
theorem fieldMask_testBit (pos len w k : Nat) (hk : k < w) :
    ((2 ^ len - 1) * 2 ^ pos % 2 ^ w).testBit k = decide (pos ≤ k ∧ k < pos + len) := by
  rw [Nat.testBit_mod_two_pow, Nat.testBit_mul_two_pow, Nat.testBit_two_pow_sub_one]
  simp only [hk, decide_true, Bool.true_and, ← Bool.decide_and, decide_eq_decide]
  omega

theorem evalBfi_testBit (a b c : Nat) (hk : k < 32) :
    (evalBfi .b32 a b c).testBit k =
      if c % 256 ≤ k ∧ k < c % 256 + min (c / 256 % 256) 32 then b.testBit (k - c % 256) else a.testBit k := by
  have hm := fieldMask_testBit (c % 256) (min (c / 256 % 256) 32) 32 k hk
  show ((a &&& (2 ^ 32 - 1 - (2 ^ min (c / 256 % 256) 32 - 1) * 2 ^ (c % 256) % 2 ^ 32)) |||
    (b * 2 ^ (c % 256) % 2 ^ 32 &&& (2 ^ min (c / 256 % 256) 32 - 1) * 2 ^ (c % 256) % 2 ^ 32)).testBit k = _
  generalize hx : (2 ^ min (c / 256 % 256) 32 - 1) * 2 ^ (c % 256) % 2 ^ 32 = mask at hm ⊢
  have hlt : mask < 2 ^ 32 := hx ▸ Nat.mod_lt _ (Nat.two_pow_pos 32)
  rw [Nat.testBit_or, Nat.testBit_and, Nat.testBit_and, Nat.sub_sub, Nat.add_comm 1, Nat.testBit_two_pow_sub_succ hlt, hm,
    Nat.testBit_mod_two_pow, Nat.testBit_mul_two_pow]
  split
  case isTrue h => simp [h, hk]
  case isFalse h => simp [h, hk]

theorem evalFshf_testBit (a b c : Nat) (hk : k < 32) :
    (evalFshf false false a b c).testBit k = (a + 2 ^ 32 * b).testBit (k + c % 64) := by
  show (low 32 (((a + 2 ^ 32 * b : Nat) : Int) / 2 ^ (c % 64))).testBit k = _
  rw [show ((a + 2 ^ 32 * b : Nat) : Int) / 2 ^ (c % 64) = ((a + 2 ^ 32 * b) / 2 ^ (c % 64) : Nat) by push_cast; rfl,
    low_natCast, Nat.testBit_mod_two_pow, Nat.testBit_div_two_pow]
  simp [hk]

theorem evalLea_eq (a b sh : Nat) : evalLea .b32 sh a b = (a + b * 2 ^ sh) % 2 ^ 64 := by
  rw [evalLea, elVal_unsigned rfl, ← low_natCast]
  push_cast
  rfl

theorem bitFieldsAndCounts : Claims.BitFieldsAndCounts :=
  ⟨evalPopc_eq, evalClz_spec, fun _ a _ hk => evalBrev_testBit a hk, fun a b c k _ _ => evalBfe_testBit a b c k,
    fun a b c _ _ hk => evalBfi_testBit a b c hk, fun a b c _ _ _ hk => evalFshf_testBit a b c hk,
    fun a b sh _ _ => evalLea_eq a b sh⟩

/-- Settles O9: the five claims, element by element and bit by bit. -/
theorem integerLogicShiftsAndBitFields : Obligations.IntegerLogicShiftsAndBitFields :=
  ⟨integerElementsFollowTheRules, saturationClampsToTheElementRange, logicAndShiftsBitByBit, logicInstructionsComplete,
    bitFieldsAndCounts⟩

end Sys2Proof.Machine
end

section
/-!
Integer products and carries (02 R81, R82, R93).
-/
namespace Sys2Proof.Machine

theorem evalProduct_exact {a b : Nat} (ha : a < 2 ^ 32) (hb : b < 2 ^ 32) : evalProduct .b32 a b = a * b := by
  have : a * b < 2 ^ 64 := by nlinarith
  rw [evalProduct, elVal_unsigned rfl, elVal_unsigned rfl, ← Nat.cast_mul, low_natCast, Nat.mod_eq_of_lt this]

/-- The dot product of four elements. -/
theorem evalIdot4_eq (t : Ty) (sat : Bool) (a b c : Nat) :
    evalIdot4 t sat a b c = deliver (dotTy t) sat (elVal (dotTy t) c
      + elVal t (el 8 a 0) * elVal t (el 8 b 0) + elVal t (el 8 a 1) * elVal t (el 8 b 1)
      + elVal t (el 8 a 2) * elVal t (el 8 b 2) + elVal t (el 8 a 3) * elVal t (el 8 b 3)) := by
  refine congrArg (deliver (dotTy t) sat) ?_
  simp only [List.range_succ, List.range_zero, List.foldl_append, List.foldl_cons, List.foldl_nil]
  ring

theorem evalIaddc_spec {a b : Nat} (k : Bool) (ha : a < 2 ^ 32) (hb : b < 2 ^ 32) :
    evalIaddc false true k a b = a + b + k.toNat ∧ evalIaddc false false k a b = a + b ∧
    evalIaddc true false k a b % 2 ^ 32 = (a + (2 ^ 32 - b)) % 2 ^ 32 ∧
    (flag (evalIaddc true false k a b) 32 = true ↔ b ≤ a) := by
  have hsub : evalIaddc true false k a b = a + (2 ^ 32 - b) := by
    show a + (2 ^ 32 - 1 - b) + 1 = _
    omega
  refine ⟨rfl, rfl, by rw [hsub], ?_⟩
  rw [hsub, flag, decide_eq_true_eq]
  omega

theorem exactProductsAndCarries : Claims.ExactProductsAndCarries := by
  refine ⟨fun t a b => low_cast _ _, fun a b => evalProduct_exact, fun sat a b c => evalIdot4_eq .i8x4 sat a b c,
    fun sat a b c => ?_, fun a b k => evalIaddc_spec k⟩
  refine (evalIdot4_eq .b8x4 sat a b c).trans (congrArg (deliver .b32 sat) ?_)
  rw [elVal_unsigned (t := dotTy .b8x4) rfl]
  simp only [elVal_unsigned (t := .b8x4) rfl]
  push_cast
  ring

end Sys2Proof.Machine
end

section
/-!
The parts of the rounding of an exact value (02 R73): the exponent of a quotient, its scaling by a power of two, and its
rounding to an integer.
-/
namespace Sys2Proof.Machine

variable {n d : Nat} {q : Int}

/-! ### The parts of the rounding -/

theorem scaleQ_pos (hd : 0 < d) : 0 < (scaleQ n d q).2 := by
  unfold scaleQ
  split
  · exact Nat.mul_pos hd (Nat.two_pow_pos _)
  · exact hd

theorem scaleQ_eq (n d : Nat) (q : Int) : ((scaleQ n d q).1 / (scaleQ n d q).2 : ℚ) = n / d / 2 ^ q := by
  unfold scaleQ
  split
  case isTrue h =>
    obtain ⟨l, rfl⟩ := Int.eq_ofNat_of_zero_le h
    push_cast
    simp [div_div]
  case isFalse h =>
    obtain ⟨l, hl⟩ := Int.eq_ofNat_of_zero_le (show 0 ≤ -q by omega)
    obtain rfl : q = -l := by omega
    push_cast
    simp [zpow_neg, mul_div_right_comm]

theorem log2_bounds (h : n ≠ 0) : (2 : ℚ) ^ (Nat.log2 n : Int) ≤ n ∧ (n : ℚ) < 2 ^ ((Nat.log2 n : Int) + 1) := by
  refine ⟨?_, ?_⟩
  · exact_mod_cast Nat.log2_self_le h
  · exact_mod_cast Nat.lt_log2_self (n := n)

/-- `log2Q` is the exponent of the value. -/
theorem log2Q_bounds (hn : 0 < n) (hd : 0 < d) : (2 : ℚ) ^ log2Q n d ≤ n / d ∧ (n / d : ℚ) < 2 ^ (log2Q n d + 1) := by
  have hdq : (0 : ℚ) < d := by exact_mod_cast hd
  obtain ⟨hnl, hnu⟩ := log2_bounds hn.ne'
  obtain ⟨hdl, hdu⟩ := log2_bounds hd.ne'
  generalize hl : (Nat.log2 n : Int) - Nat.log2 d = l
  have hup : (n / d : ℚ) < 2 ^ (l + 1) := by
    rw [div_lt_iff₀ hdq]
    calc (n : ℚ) < 2 ^ ((Nat.log2 n : Int) + 1) := hnu
      _ = 2 ^ (l + 1) * 2 ^ (Nat.log2 d : Int) := by rw [← zpow_add₀ two_ne_zero]; congr 1; omega
      _ ≤ 2 ^ (l + 1) * d := by gcongr
  have hlow : (2 : ℚ) ^ (l - 1) ≤ n / d := by
    rw [le_div_iff₀ hdq]
    calc (2 : ℚ) ^ (l - 1) * d ≤ 2 ^ (l - 1) * 2 ^ ((Nat.log2 d : Int) + 1) := by gcongr
      _ = 2 ^ (Nat.log2 n : Int) := by rw [← zpow_add₀ two_ne_zero]; congr 1; omega
      _ ≤ n := hnl
  have hge : (if 0 ≤ l then d * 2 ^ l.toNat ≤ n else d ≤ n * 2 ^ (-l).toNat) ↔ (2 : ℚ) ^ l ≤ n / d := by
    have h := scaleQ_eq n d l
    have hp := scaleQ_pos (n := n) (q := l) hd
    have hz : (2 : ℚ) ^ l ≤ n / d ↔ (1 : ℚ) ≤ n / d / 2 ^ l := (one_le_div (by positivity)).symm
    rw [hz, ← h, le_div_iff₀ (by exact_mod_cast hp), one_mul, Nat.cast_le]
    unfold scaleQ
    split <;> rfl
  have he : log2Q n d = if (2 : ℚ) ^ l ≤ n / d then l else l - 1 := by
    unfold log2Q
    simp only [hl, hge]
  rw [he]
  split
  case isTrue h => exact ⟨h, hup⟩
  case isFalse h => exact ⟨hlow, by rw [Int.sub_add_cancel]; exact not_le.1 h⟩

/-- A rounding mode as it acts on the magnitude of a value with the given sign. -/
def onMag (r : Rnd) (neg : Bool) : Rnd := if neg then mirrorRnd r else r

/-- A magnitude `x` from `lo` up to its neighbour `hi` is rounded to `hi`; `odd` says that the pattern of `lo` is odd. -/
def goesUp (m : Rnd) (odd : Prop) (lo x hi : ℚ) : Prop :=
  match m with
  | .rne => hi - x < x - lo ∨ (hi - x = x - lo ∧ odd)
  | .ru => lo ≠ x
  | _ => False

theorem floor_add_rem (n : Nat) (hd : 0 < d) : (n / d : ℚ) = (n / d : Nat) + (n % d : Nat) / d := by
  have hdq : (d : ℚ) ≠ 0 := by exact_mod_cast hd.ne'
  field_simp
  exact_mod_cast (Nat.div_add_mod n d).symm

theorem natDiv_bounds (n : Nat) (hd : 0 < d) : ((n / d : Nat) : ℚ) ≤ n / d ∧ (n / d : ℚ) < (n / d : Nat) + 1 := by
  have hdq : (0 : ℚ) < d := by exact_mod_cast hd
  have hlt : ((n % d : Nat) / d : ℚ) < 1 := (div_lt_one hdq).2 (by exact_mod_cast Nat.mod_lt n hd)
  have hge : (0 : ℚ) ≤ (n % d : Nat) / d := by positivity
  rw [floor_add_rem n hd]
  exact ⟨by linarith, by linarith⟩

open Classical in
/-- `roundInt` takes the integer below the value, or the next one. -/
theorem roundInt_eq (r : Rnd) (neg : Bool) (n : Nat) (hd : 0 < d) :
    roundInt r neg n d
      = (if goesUp (onMag r neg) (n / d % 2 = 1) (n / d : Nat) (n / d) ((n / d : Nat) + 1) then n / d + 1 else n / d,
        decide (((n / d : Nat) : ℚ) ≠ n / d)) := by
  have hdq : (0 : ℚ) < d := by exact_mod_cast hd
  have hrem : ((n / d : Nat) : ℚ) ≠ n / d ↔ n % d ≠ 0 := by
    rw [floor_add_rem n hd, ne_eq, left_eq_add, div_eq_zero_iff]
    simp [hdq.ne']
  have htwice : ((2 * (n % d) : Nat) / d : ℚ) = 2 * ((n % d : Nat) / d) := by push_cast; ring
  have hlt : ((n / d : Nat) + 1 : ℚ) - n / d < n / d - (n / d : Nat) ↔ 2 * (n % d) > d := by
    calc ((n / d : Nat) + 1 : ℚ) - n / d < n / d - (n / d : Nat) ↔ 1 < (2 * (n % d) : Nat) / (d : ℚ) := by
          rw [htwice, floor_add_rem n hd]; constructor <;> intro h <;> linarith
      _ ↔ 2 * (n % d) > d := by rw [one_lt_div hdq, Nat.cast_lt]
  have heq : ((n / d : Nat) + 1 : ℚ) - n / d = n / d - (n / d : Nat) ↔ 2 * (n % d) = d := by
    calc ((n / d : Nat) + 1 : ℚ) - n / d = n / d - (n / d : Nat) ↔ (2 * (n % d) : Nat) / (d : ℚ) = 1 := by
          rw [htwice, floor_add_rem n hd]; constructor <;> intro h <;> linarith
      _ ↔ 2 * (n % d) = d := by rw [div_eq_one_iff_eq hdq.ne', Nat.cast_inj]
  unfold roundInt
  simp only [← hrem]
  congr 1
  cases r <;> cases neg <;> simp [goesUp, onMag, mirrorRnd, hlt, heq, hrem]

end Sys2Proof.Machine
end

section
/-!
The magnitudes of a format (02 R68): patterns in order are values in order, and what stands beside the largest finite value
and the smallest normal one.
-/
namespace Sys2Proof.Machine

variable {f : Fmt} {j k : Nat}

/-- A format with a normal range: the three formats of the vector unit. -/
structure Fmt.Wide (f : Fmt) : Prop where
  exps  : 2 ≤ f.ebits
  fracs : 1 ≤ f.fbits

theorem wide_of_mem (h : f ∈ [Fmt.f32, .f16, .bf16]) : f.Wide := by
  simp only [List.mem_cons, List.not_mem_nil, or_false] at h
  rcases h with rfl | rfl | rfl <;> constructor <;> decide

/-- The unit of the format: the exponent of the smallest subnormal value. -/
def Fmt.unit (f : Fmt) : Int := f.emin - f.fbits

/-- The magnitude of the pattern `j` in units, continued above the largest finite value. -/
def Fmt.mag (f : Fmt) (j : Nat) : Nat :=
  if j < 2 ^ f.fbits then j else (2 ^ f.fbits + j % 2 ^ f.fbits) * 2 ^ (j / 2 ^ f.fbits - 1)

/-- `j` is the pattern of the magnitude of `k` steps of `2^g` units each: the significand `k` has no more bits than a normal
value's, and no fewer unless a step is one unit. -/
def Fmt.Steps (f : Fmt) (j g k : Nat) : Prop := j = g * 2 ^ f.fbits + k ∧ k < 2 * 2 ^ f.fbits ∧ (g = 0 ∨ 2 ^ f.fbits ≤ k)

theorem mag_steps {g : Nat} (hk : k ≤ 2 * 2 ^ f.fbits) (hg : g = 0 ∨ 2 ^ f.fbits ≤ k) :
    f.mag (g * 2 ^ f.fbits + k) = k * 2 ^ g := by
  have hp := Nat.two_pow_pos f.fbits
  unfold Fmt.mag
  generalize 2 ^ f.fbits = P at *
  rcases Nat.lt_or_ge k P with h | h
  · obtain rfl : g = 0 := hg.resolve_right (by omega)
    simp [h]
  · rcases Nat.lt_or_ge k (2 * P) with h2 | h2
    · obtain ⟨c, rfl⟩ := Nat.exists_eq_add_of_le h
      have hc : c < P := by omega
      have e : g * P + (P + c) = c + P * (g + 1) := by ring
      rw [if_neg (by rw [e]; nlinarith), e, Nat.add_mul_mod_self_left, Nat.add_mul_div_left _ _ hp, Nat.mod_eq_of_lt hc,
        Nat.div_eq_of_lt hc]
      simp
    · obtain rfl : k = 2 * P := by omega
      have e : g * P + 2 * P = P * (g + 2) := by ring
      rw [if_neg (by rw [e]; nlinarith), e, Nat.mul_mod_right, Nat.mul_div_cancel_left _ hp]
      simp [pow_succ]
      ring

theorem exists_steps (f : Fmt) (j : Nat) : ∃ g k, f.Steps j g k := by
  have hp := Nat.two_pow_pos f.fbits
  have hdm := Nat.div_add_mod j (2 ^ f.fbits)
  have hlt := Nat.mod_lt j hp
  rcases Nat.eq_zero_or_pos (j / 2 ^ f.fbits) with h | h
  · exact ⟨0, j, by omega, by rw [h] at hdm; omega, .inl rfl⟩
  · obtain ⟨g, hg⟩ := Nat.exists_eq_succ_of_ne_zero h.ne'
    refine ⟨g, 2 ^ f.fbits + j % 2 ^ f.fbits, ?_, by omega, .inr (by omega)⟩
    rw [hg, Nat.succ_eq_add_one] at hdm
    linear_combination -hdm

/-- The value of the pattern `j`, continued above the largest finite value. -/
def Fmt.grid (f : Fmt) (j : Nat) : ℚ := f.mag j * 2 ^ f.unit

theorem grid_steps {g : Nat} (hk : k ≤ 2 * 2 ^ f.fbits) (hg : g = 0 ∨ 2 ^ f.fbits ≤ k) :
    f.grid (g * 2 ^ f.fbits + k) = k * 2 ^ (f.unit + g) := by
  rw [Fmt.grid, mag_steps hk hg, zpow_add₀ two_ne_zero, zpow_natCast]
  push_cast
  ring

theorem Fmt.Steps.grid {g : Nat} (h : f.Steps j g k) : f.grid j = k * 2 ^ (f.unit + g) := by
  obtain ⟨rfl, hk, hg⟩ := h
  exact grid_steps hk.le hg

theorem Fmt.Steps.grid_succ {g : Nat} (h : f.Steps j g k) : f.grid (j + 1) = (k + 1) * 2 ^ (f.unit + g) := by
  obtain ⟨rfl, hk, hg⟩ := h
  have := grid_steps (f := f) (g := g) (k := k + 1) hk (hg.imp_right fun h => by omega)
  rw [Nat.add_assoc, this]
  push_cast
  rfl

theorem grid_strictMono (f : Fmt) : StrictMono f.grid := by
  refine strictMono_nat_of_lt_succ fun j => ?_
  obtain ⟨g, k, h⟩ := exists_steps f j
  rw [h.grid, h.grid_succ]
  gcongr
  simp

theorem Fmt.Wide.exists_exps (hf : f.Wide) : ∃ c, 2 ^ f.ebits = c + 4 :=
  Nat.exists_eq_add_of_le' (Nat.pow_le_pow_right two_pos hf.exps)

theorem Fmt.Wide.exists_fracs (hf : f.Wide) : ∃ c, 2 ^ f.fbits = 2 * (c + 1) := by
  obtain ⟨c, hc⟩ := Nat.exists_eq_add_of_le' hf.fracs
  exact ⟨2 ^ c - 1, by rw [hc, Nat.sub_add_cancel (Nat.two_pow_pos c), pow_succ']⟩

/-- The value of a nonnegative finite pattern. -/
theorem rat_eq_grid (hf : f.Wide) (hj : j ≤ f.maxFin) : f.rat j = f.grid j := by
  obtain ⟨c, hc⟩ := hf.exists_exps
  have hp := Nat.two_pow_pos f.fbits
  have hj : j < (c + 3) * 2 ^ f.fbits := by
    have : f.inf = (c + 3) * 2 ^ f.fbits := by rw [Fmt.inf, hc]; rfl
    have : 0 < f.inf := by rw [this]; positivity
    unfold Fmt.maxFin at hj
    omega
  have hex : j / 2 ^ f.fbits < c + 3 := (Nat.div_lt_iff_lt_mul hp).2 hj
  have hsign : j / f.signBit = 0 := by
    rw [Fmt.signBit, pow_add, hc]
    exact Nat.div_eq_of_lt (by nlinarith)
  unfold Fmt.rat Fmt.valueOf Fmt.grid Fmt.mag Fmt.unit
  simp only [hsign, hc, Nat.mod_eq_of_lt (show j / 2 ^ f.fbits < c + 4 by omega)]
  rw [if_neg (by omega)]
  rcases Nat.lt_or_ge j (2 ^ f.fbits) with h | h
  · simp [h, FVal.rat, FVal.mant, FVal.expo, Nat.mod_eq_of_lt h]
  · obtain ⟨e, he⟩ := Nat.exists_eq_succ_of_ne_zero (Nat.div_pos h hp).ne'
    rw [he, if_neg (by omega), if_neg (by omega)]
    simp only [FVal.rat, FVal.mant, FVal.expo, Fmt.emin, Nat.zero_mod, zero_ne_one, decide_false, Bool.false_eq_true,
      if_false, Nat.succ_eq_add_one, Nat.add_sub_cancel]
    rw [show ((e + 1 : Nat) : Int) - f.bias - f.fbits = (e : Int) + (1 - f.bias - f.fbits) by push_cast; ring,
      zpow_add₀ two_ne_zero, zpow_natCast]
    generalize j % 2 ^ f.fbits = c
    push_cast
    ring

theorem rat_inf (hf : f.Wide) : f.rat f.inf = 0 := by
  obtain ⟨c, hc⟩ := hf.exists_exps
  unfold Fmt.rat Fmt.valueOf Fmt.inf
  simp [hc, FVal.rat, FVal.mant]

/-- The largest finite value, its lower neighbour and its upper one are at equal distances. -/
theorem topUlp_eq (hf : f.Wide) : f.topUlp = f.grid f.inf - f.grid f.maxFin := by
  obtain ⟨c, hc⟩ := hf.exists_exps
  obtain ⟨p, hp⟩ := hf.exists_fracs
  have hinf : f.inf = (c + 1) * 2 ^ f.fbits + (4 * p + 4) := by
    rw [Fmt.inf, hc, hp, show c + 4 - 1 = c + 3 from rfl]; ring
  have hmax : f.maxFin = (c + 1) * 2 ^ f.fbits + (4 * p + 3) := by rw [Fmt.maxFin, hinf]; rfl
  have hlow : f.maxFin - 1 = (c + 1) * 2 ^ f.fbits + (4 * p + 2) := by rw [hmax]; rfl
  rw [Fmt.topUlp, rat_eq_grid hf le_rfl, rat_eq_grid hf (Nat.sub_le _ _), hlow, hmax, hinf,
    grid_steps (by omega) (.inr (by omega)), grid_steps (by omega) (.inr (by omega)), grid_steps (by omega) (.inr (by omega))]
  push_cast
  ring

theorem maxFin_odd (hf : f.Wide) : f.maxFin % 2 = 1 := by
  obtain ⟨c, hc⟩ := hf.exists_exps
  obtain ⟨p, hp⟩ := hf.exists_fracs
  have : f.inf = 2 * ((c + 3) * (p + 1)) := by rw [Fmt.inf, hc, hp, show c + 4 - 1 = c + 3 from rfl]; ring
  have : 0 < (c + 3) * (p + 1) := by positivity
  unfold Fmt.maxFin
  omega

theorem inf_eq_succ (hf : f.Wide) : f.inf = f.maxFin + 1 := by
  have := maxFin_odd hf
  unfold Fmt.maxFin at *
  omega

/-- The smallest normal value. -/
theorem grid_normal (f : Fmt) : f.grid (2 ^ f.fbits) = 2 ^ f.emin := by
  have := grid_steps (f := f) (g := 0) (k := 2 ^ f.fbits) (by omega) (.inl rfl)
  rw [Nat.zero_mul, Nat.zero_add] at this
  rw [this, Fmt.unit]
  push_cast
  rw [← zpow_natCast, ← zpow_add₀ two_ne_zero]
  congr 1
  omega

theorem normal_le_maxFin (hf : f.Wide) : 2 ^ f.fbits ≤ f.maxFin := by
  obtain ⟨c, hc⟩ := hf.exists_exps
  have hp := Nat.two_pow_pos f.fbits
  have : f.inf = (c + 1) * 2 ^ f.fbits + 2 * 2 ^ f.fbits := by rw [Fmt.inf, hc, show c + 4 - 1 = c + 3 from rfl]; ring
  unfold Fmt.maxFin
  omega

end Sys2Proof.Machine
end

section
/-!
What a magnitude is rounded to (02 R73, Table 2.3): one of its two neighbours among the values of the format, or, above the
largest finite value, that value or the infinity; and when it overflows (Table 2.2).
-/
namespace Sys2Proof.Machine

variable {f : Fmt} {m : Rnd} {j k : Nat} {x : ℚ}

theorem overflows_eq (hf : f.Wide) (m : Rnd) (x : ℚ) :
    f.overflows m x = match m with
      | .ru => decide (f.grid f.maxFin < x)
      | .rne => decide (f.grid f.inf - x ≤ x - f.grid f.maxFin)
      | _ => decide (f.grid f.inf ≤ x) := by
  unfold Fmt.overflows
  rw [rat_eq_grid hf le_rfl, topUlp_eq hf]
  cases m
  · exact decide_eq_decide.2 ⟨fun h => by linarith, fun h => by linarith⟩
  · simp
  · simp
  · rfl

/-- `x` lies between the neighbours `j` and `j + 1`. -/
def Fmt.Between (f : Fmt) (j : Nat) (x : ℚ) : Prop := f.grid j ≤ x ∧ x < f.grid (j + 1)

theorem Fmt.Between.grid_le (h : f.Between j x) (i : Nat) : f.grid i ≤ x ↔ i ≤ j := by
  obtain ⟨hl, hu⟩ := h
  exact ⟨fun hi => Nat.lt_succ_iff.1 ((grid_strictMono f).lt_iff_lt.1 (hi.trans_lt hu)),
    fun hi => ((grid_strictMono f).monotone hi).trans hl⟩

open Classical in
/-- The neighbour that the mode takes. -/
noncomputable def Fmt.pick (f : Fmt) (m : Rnd) (j : Nat) (x : ℚ) : Nat :=
  if goesUp m (j % 2 = 1) (f.grid j) x (f.grid (j + 1)) then j + 1 else j

theorem pick_up (h : goesUp m (j % 2 = 1) (f.grid j) x (f.grid (j + 1))) : f.pick m j x = j + 1 := if_pos h
theorem pick_down (h : ¬ goesUp m (j % 2 = 1) (f.grid j) x (f.grid (j + 1))) : f.pick m j x = j := if_neg h

theorem le_pick (f : Fmt) (m : Rnd) (j : Nat) (x : ℚ) : j ≤ f.pick m j x := by unfold Fmt.pick; split <;> omega
theorem pick_le (f : Fmt) (m : Rnd) (j : Nat) (x : ℚ) : f.pick m j x ≤ j + 1 := by unfold Fmt.pick; split <;> omega

theorem Fmt.Between.le_grid (h : f.Between j x) (i : Nat) : x ≤ f.grid i ↔ f.pick .ru j x ≤ i := by
  obtain ⟨hl, hu⟩ := h
  by_cases hup : goesUp .ru (j % 2 = 1) (f.grid j) x (f.grid (j + 1))
  · rw [pick_up hup]
    refine ⟨fun hi => ?_, fun hi => hu.le.trans ((grid_strictMono f).monotone hi)⟩
    exact (grid_strictMono f).lt_iff_lt.1 ((lt_of_le_of_ne hl hup).trans_le hi)
  · rw [pick_down hup, ← not_not.1 hup, (grid_strictMono f).le_iff_le]

theorem Fmt.Between.dist_below (h : f.Between j x) {i : Nat} (hi : i ≤ j) : |x - f.grid i| = x - f.grid i :=
  abs_of_nonneg (sub_nonneg.2 ((h.grid_le i).2 hi))

theorem Fmt.Between.dist_above (h : f.Between j x) {i : Nat} (hi : j < i) : |x - f.grid i| = f.grid i - x := by
  have : x < f.grid i := not_le.1 fun hl => absurd ((h.grid_le i).1 hl) (by omega)
  rw [abs_sub_comm, abs_of_nonneg (by linarith)]

/-- RNE takes a nearest neighbour, and of two equally near the even one. -/
theorem pick_nearest (h : f.Between j x) (i : Nat) :
    |x - f.grid (f.pick .rne j x)| ≤ |x - f.grid i| ∧
      (i ≠ f.pick .rne j x → |x - f.grid (f.pick .rne j x)| = |x - f.grid i| → f.pick .rne j x % 2 = 0) := by
  have hmono := (grid_strictMono f).monotone
  by_cases hup : goesUp .rne (j % 2 = 1) (f.grid j) x (f.grid (j + 1))
  · rw [pick_up hup, h.dist_above (Nat.lt_succ_self j)]
    rcases Nat.lt_or_ge j i with hi | hi
    · have hle := hmono hi
      rw [h.dist_above hi]
      exact ⟨by linarith, fun hne he => absurd ((grid_strictMono f).injective (by linarith)) hne⟩
    · have hle := hmono hi
      rw [h.dist_below hi]
      rcases hup with hlt | ⟨heq, hodd⟩
      · exact ⟨by linarith, fun _ he => absurd he (by linarith)⟩
      · exact ⟨by linarith, fun _ _ => by omega⟩
  · rw [pick_down hup, h.dist_below le_rfl]
    obtain ⟨hnl, hne'⟩ := not_or.1 hup
    rcases Nat.lt_or_ge j i with hi | hi
    · have hle : f.grid (j + 1) ≤ f.grid i := hmono hi
      rw [h.dist_above hi]
      refine ⟨by linarith, fun _ he => ?_⟩
      have : ¬ j % 2 = 1 := fun hodd => hne' ⟨by linarith, hodd⟩
      omega
    · have hle := hmono hi
      rw [h.dist_below hi]
      exact ⟨by linarith, fun hne he => absurd ((grid_strictMono f).injective (by linarith)) hne⟩

/-- The rounded magnitude overflows exactly when the neighbour taken lies above the largest finite value. -/
theorem overflows_iff (hf : f.Wide) (h : f.Between j x) (m : Rnd) : f.overflows m x = true ↔ f.inf ≤ f.pick m j x := by
  have hinf := inf_eq_succ hf
  rw [overflows_eq hf]
  cases m
  case rne =>
    rw [decide_eq_true_eq]
    have hup := (grid_strictMono f).lt_iff_lt.2 (show f.maxFin < f.inf by omega)
    rcases lt_trichotomy j f.maxFin with hj | rfl | hj
    · have hx := h.2.trans_le ((grid_strictMono f).monotone hj)
      have := pick_le f .rne j x
      exact ⟨fun hc => absurd hc (by linarith), fun hc => by omega⟩
    · rw [hinf]
      have hgo : goesUp .rne (f.maxFin % 2 = 1) (f.grid f.maxFin) x (f.grid (f.maxFin + 1))
          ↔ f.grid (f.maxFin + 1) - x ≤ x - f.grid f.maxFin :=
        (or_congr_right (and_iff_left (maxFin_odd hf))).trans le_iff_lt_or_eq.symm
      rw [← hgo]
      refine ⟨fun hc => (pick_up hc).ge, fun hc => ?_⟩
      by_contra hn
      rw [pick_down hn] at hc
      omega
    · have hx := (h.grid_le f.inf).2 (by omega)
      have := le_pick f .rne j x
      exact ⟨fun _ => by omega, fun _ => by linarith⟩
  case ru => rw [decide_eq_true_eq, ← not_le, h.le_grid, hinf, Nat.not_le, Nat.lt_iff_add_one_le]
  case rz => rw [decide_eq_true_eq, h.grid_le, pick_down id]
  case rd => rw [decide_eq_true_eq, h.grid_le, pick_down id]

/-- What a magnitude is rounded to: the neighbour taken, or what Table 2.3 gives above the largest finite value. -/
noncomputable def Fmt.target (f : Fmt) (m : Rnd) (j : Nat) (x : ℚ) : Nat :=
  if f.pick m j x < f.inf then f.pick m j x
  else match m with | .rne | .ru => f.inf | _ => f.maxFin

theorem rounds_rne (hf : f.Wide) (h : f.Between j x) : f.rounds .rne x (f.target .rne j x) := by
  have hov := overflows_iff hf h .rne
  have hinf := inf_eq_succ hf
  unfold Fmt.target Fmt.rounds
  dsimp only
  by_cases hp : f.pick .rne j x < f.inf
  · rw [if_pos hp, if_neg (by rw [hov]; omega)]
    refine ⟨by omega, fun i hi => ?_⟩
    rw [rat_eq_grid hf (by omega), rat_eq_grid hf hi]
    exact pick_nearest h i
  · rw [if_neg hp, if_pos (hov.2 (by omega))]

theorem rounds_ru (hf : f.Wide) (h : f.Between j x) : f.rounds .ru x (f.target .ru j x) := by
  have hinf := inf_eq_succ hf
  unfold Fmt.target Fmt.rounds
  dsimp only
  split
  case isTrue hp => exact ⟨by omega, fun i hi => by rw [rat_eq_grid hf hi, h.le_grid]⟩
  case isFalse hp => exact ⟨le_rfl, fun i hi => by rw [rat_eq_grid hf hi, h.le_grid]; omega⟩

/-- The modes that do not go up take the lower neighbour, or the largest finite value. -/
theorem rounds_toward_zero (hf : f.Wide) (h : f.Between j x) (hk : k = j) :
    (if k < f.inf then k else f.maxFin) ≤ f.maxFin ∧
      ∀ i, i ≤ f.maxFin → (f.rat i ≤ x ↔ i ≤ if k < f.inf then k else f.maxFin) := by
  subst hk
  have hinf := inf_eq_succ hf
  split
  case isTrue hp => exact ⟨by omega, fun i hi => by rw [rat_eq_grid hf hi, h.grid_le]⟩
  case isFalse hp => exact ⟨le_rfl, fun i hi => by rw [rat_eq_grid hf hi, h.grid_le]; omega⟩

theorem rounds_target (hf : f.Wide) (h : f.Between j x) (m : Rnd) : f.rounds m x (f.target m j x) := by
  cases m
  case rne => exact rounds_rne hf h
  case ru => exact rounds_ru hf h
  case rz => exact rounds_toward_zero hf h (pick_down id)
  case rd => exact rounds_toward_zero hf h (pick_down id)

theorem Fmt.Between.ne_of_goesUp (h : f.Between j x) {p : Prop} (hup : goesUp m p (f.grid j) x (f.grid (j + 1))) :
    f.grid j ≠ x := by
  obtain ⟨-, hu⟩ := h
  cases m
  case rne => rcases hup with hlt | ⟨heq, -⟩ <;> intro he <;> linarith
  case ru => exact hup
  case rz => cases hup
  case rd => cases hup

/-- The neighbour taken is the magnitude itself where that is a value of the format. -/
theorem grid_pick_eq_iff (h : f.Between j x) : f.grid (f.pick m j x) = x ↔ f.grid j = x := by
  by_cases hup : goesUp m (j % 2 = 1) (f.grid j) x (f.grid (j + 1))
  · rw [pick_up hup]
    exact ⟨fun he => absurd he h.2.ne', fun he => absurd he (h.ne_of_goesUp hup)⟩
  · rw [pick_down hup]

/-- The largest finite value, and the infinity, which has none, differ from a magnitude that overflows. -/
theorem rat_target_ne (hf : f.Wide) (h : f.Between j x) (hx : 0 < x) (hp : f.inf ≤ f.pick m j x) :
    f.rat (f.target m j x) ≠ x := by
  have hmax : j ≥ f.inf → f.rat f.maxFin ≠ x := by
    intro hj
    have := (h.grid_le f.inf).2 hj
    have := grid_strictMono f (show f.maxFin < f.inf by rw [inf_eq_succ hf]; omega)
    rw [rat_eq_grid hf le_rfl]
    linarith
  unfold Fmt.target
  rw [if_neg (by omega)]
  cases m
  case rne => exact (rat_inf hf).trans_ne hx.ne
  case ru => exact (rat_inf hf).trans_ne hx.ne
  case rz => exact hmax (hp.trans_eq (pick_down id))
  case rd => exact hmax (hp.trans_eq (pick_down id))

end Sys2Proof.Machine
end

section
/-!
The one rounding (02 R68, R70, R71): tiny magnitudes, the pattern below a magnitude, and `roundQ` and `roundDyadic` as the
rounding of the exact value.
-/
namespace Sys2Proof.Machine

variable {f : Fmt} {m : Rnd} {n d j k : Nat} {x : ℚ}

/-! ### Tininess (R71) -/

/-- A magnitude of `y` steps of half a unit is rounded, in steps of that size, to less than the smallest normal value. -/
def Fmt.below (f : Fmt) (m : Rnd) (y : ℚ) : Prop :=
  match m with
  | .ru => y ≤ 2 * 2 ^ f.fbits - 1
  | .rne => y < 2 * 2 ^ f.fbits - 1 / 2
  | _ => y < 2 * 2 ^ f.fbits

theorem tiny_iff (f : Fmt) (m : Rnd) {y : ℚ} (hx : x = y * 2 ^ (f.unit - 1)) : f.tiny m x = true ↔ f.below m y := by
  have hu : (0 : ℚ) < 2 ^ (f.unit - 1) := by positivity
  have hm : (2 : ℚ) ^ f.emin = 2 * 2 ^ f.fbits * 2 ^ (f.unit - 1) := by
    rw [mul_assoc, ← zpow_natCast, ← zpow_add₀ two_ne_zero, ← zpow_one_add₀ two_ne_zero]
    congr 1
    unfold Fmt.unit
    omega
  have h1 : (2 : ℚ) ^ f.emin - 2 ^ f.emin / 2 ^ (f.fbits + 1) = (2 * 2 ^ f.fbits - 1) * 2 ^ (f.unit - 1) := by
    rw [hm]; field_simp; ring
  have h2 : (2 : ℚ) ^ f.emin - 2 ^ f.emin / 2 ^ (f.fbits + 2) = (2 * 2 ^ f.fbits - 1 / 2) * 2 ^ (f.unit - 1) := by
    rw [hm]; field_simp; ring
  unfold Fmt.tiny Fmt.below
  cases m
  case ru => rw [decide_eq_true_eq, h1, hx, mul_le_mul_iff_left₀ hu]
  case rne => rw [decide_eq_true_eq, h2, hx, mul_lt_mul_iff_left₀ hu]
  all_goals rw [decide_eq_true_eq, hm, hx, mul_lt_mul_iff_left₀ hu]

theorem below_of_lt {y : ℚ} (h : y < 2 * 2 ^ f.fbits - 1) : f.below m y := by
  unfold Fmt.below
  cases m <;> dsimp only <;> linarith

theorem not_below_of_le {y : ℚ} (h : 2 * 2 ^ f.fbits ≤ y) : ¬ f.below m y := by
  unfold Fmt.below
  cases m <;> dsimp only <;> linarith

/-- The rounding to the precision of the format does not reach the smallest normal value. -/
theorem below_iff {y : ℚ} (hl : k ≤ y) (hu : y < k + 1) (hk : k < 2 * 2 ^ f.fbits) :
    f.below m y ↔ ¬ (k + 1 = 2 * 2 ^ f.fbits ∧ goesUp m (k % 2 = 1) k y (k + 1)) := by
  rcases Nat.lt_or_eq_of_le (Nat.succ_le_of_lt hk) with hlt | heq
  · have : (k : ℚ) + 1 + 1 ≤ 2 * 2 ^ f.fbits := by exact_mod_cast hlt
    exact iff_of_true (below_of_lt (by linarith)) fun h => hlt.ne h.1
  · have hq : (2 : ℚ) * 2 ^ f.fbits = k + 1 := by exact_mod_cast heq.symm
    have hodd : k % 2 = 1 := by omega
    replace heq : k + 1 = 2 * 2 ^ f.fbits := heq
    unfold Fmt.below goesUp
    rw [hq]
    cases m
    case rne =>
      simp only [heq, hodd, true_and, and_true, not_or, not_lt]
      exact ⟨fun h => ⟨by linarith, fun he => by linarith⟩, fun h => lt_of_le_of_ne (by linarith) fun he => h.2 (by linarith)⟩
    case ru =>
      simp only [heq, true_and, not_not]
      exact ⟨fun h => le_antisymm hl (by linarith), fun h => by linarith⟩
    all_goals simpa [heq] using hu

open Classical in
/-- The test of `roundQ` for a tiny magnitude. -/
theorem tiny_eq (r : Rnd) (neg : Bool) (hn : 0 < n) (hd : 0 < d) :
    let e := log2Q n d
    let y := scaleQ n d (e - f.fbits)
    (decide (e < f.emin) && !(decide (e = f.emin - 1) && decide ((roundInt r neg y.1 y.2).1 = 2 ^ (f.fbits + 1))))
      = f.tiny (onMag r neg) (n / d) := by
  intro e y
  obtain ⟨hlow, hup⟩ := log2Q_bounds hn hd
  have hx : (n / d : ℚ) = n / d / 2 ^ (f.unit - 1) * 2 ^ (f.unit - 1) := (div_mul_cancel₀ _ (by positivity)).symm
  have hu : f.unit - 1 = f.emin - 1 - f.fbits := by unfold Fmt.unit; omega
  have hnorm : (2 : ℚ) * 2 ^ f.fbits = 2 ^ (f.emin - (f.unit - 1)) := by
    rw [hu, ← zpow_natCast, ← zpow_one_add₀ two_ne_zero]; congr 1; omega
  rw [Bool.eq_iff_iff, tiny_iff f _ hx]
  rcases lt_trichotomy e (f.emin - 1) with he | he | he
  · refine iff_of_true (by simp [show e < f.emin by omega, he.ne]) (below_of_lt ?_)
    have h1 : (1 : ℚ) ≤ 2 ^ f.fbits := one_le_pow₀ one_le_two
    have h2 : (n / d : ℚ) < 2 ^ f.fbits * 2 ^ (f.unit - 1) := by
      rw [← zpow_natCast, ← zpow_add₀ two_ne_zero]
      exact hup.trans_le (zpow_le_zpow_right₀ one_le_two (by omega))
    have := (div_lt_iff₀ (by positivity)).2 h2
    linarith
  · have hyq : (y.1 / y.2 : ℚ) = n / d / 2 ^ (f.unit - 1) := by rw [scaleQ_eq, hu, ← he]
    have hyp : 0 < y.2 := scaleQ_pos hd
    obtain ⟨hkl, hku⟩ := natDiv_bounds y.1 hyp
    have hk : y.1 / y.2 < 2 * 2 ^ f.fbits := by
      have : (y.1 / y.2 : ℚ) < 2 * 2 ^ f.fbits := by
        rw [hyq, hnorm, div_lt_iff₀ (by positivity), ← zpow_add₀ two_ne_zero]
        exact hup.trans_le (zpow_le_zpow_right₀ one_le_two (by omega))
      exact_mod_cast hkl.trans_lt this
    rw [← hyq, below_iff hkl hku hk, roundInt_eq r neg y.1 hyp]
    simp only [he, decide_true, Bool.true_and, pow_succ']
    split
    case isTrue h => simp [h]
    case isFalse h => simp [h, hk.ne]
  · refine iff_of_false (by simp [show ¬ e < f.emin by omega]) (not_below_of_le ?_)
    rw [hnorm, le_div_iff₀ (by positivity), ← zpow_add₀ two_ne_zero]
    exact (zpow_le_zpow_right₀ one_le_two (by omega)).trans hlow

/-! ### The one rounding -/

theorem goesUp_scale {c : ℚ} (hc : 0 < c) (m : Rnd) (p : Prop) (lo x hi : ℚ) :
    goesUp m p (lo * c) (x * c) (hi * c) ↔ goesUp m p lo x hi := by
  cases m
  case rne => simp only [goesUp, ← sub_mul, mul_lt_mul_iff_left₀ hc, mul_left_inj' hc.ne']
  case ru => simp only [goesUp, ne_eq, mul_left_inj' hc.ne']
  case rz => rfl
  case rd => rfl

/-- The exponent of the unit in the last place that `roundQ` rounds a magnitude to, and how far it lies above the format's. -/
def Fmt.ulpExp (f : Fmt) (n d : Nat) : Int := max (log2Q n d) f.emin - f.fbits
def Fmt.binade (f : Fmt) (n d : Nat) : Nat := (f.ulpExp n d - f.unit).toNat
/-- The pattern below a magnitude. -/
def Fmt.patternBelow (f : Fmt) (n d : Nat) : Nat :=
  f.binade n d * 2 ^ f.fbits + (scaleQ n d (f.ulpExp n d)).1 / (scaleQ n d (f.ulpExp n d)).2

theorem ulpExp_eq (f : Fmt) (n d : Nat) : f.ulpExp n d = f.unit + f.binade n d := by
  unfold Fmt.binade Fmt.ulpExp Fmt.unit
  omega

theorem patternBelow_steps (f : Fmt) (hn : 0 < n) (hd : 0 < d) :
    f.Steps (f.patternBelow n d) (f.binade n d) ((scaleQ n d (f.ulpExp n d)).1 / (scaleQ n d (f.ulpExp n d)).2) := by
  obtain ⟨hlow, hup⟩ := log2Q_bounds hn hd
  obtain ⟨hl, hu⟩ := natDiv_bounds (scaleQ n d (f.ulpExp n d)).1 (scaleQ_pos (n := n) (q := f.ulpExp n d) hd)
  rw [scaleQ_eq] at hl hu
  refine ⟨rfl, ?_, ?_⟩
  · have : (n / d / 2 ^ f.ulpExp n d : ℚ) < 2 * 2 ^ f.fbits := by
      rw [div_lt_iff₀ (by positivity), ← zpow_natCast, ← zpow_one_add₀ two_ne_zero, ← zpow_add₀ two_ne_zero]
      exact hup.trans_le (zpow_le_zpow_right₀ one_le_two (by unfold Fmt.ulpExp; omega))
    exact_mod_cast hl.trans_lt this
  · refine or_iff_not_imp_left.2 fun hg => ?_
    have : (2 : ℚ) ^ f.fbits ≤ n / d / 2 ^ f.ulpExp n d := by
      rw [le_div_iff₀ (by positivity), ← zpow_natCast, ← zpow_add₀ two_ne_zero]
      exact (zpow_le_zpow_right₀ one_le_two (by unfold Fmt.binade Fmt.ulpExp Fmt.unit at *; omega)).trans hlow
    exact Nat.lt_succ_iff.1 (by exact_mod_cast this.trans_lt hu)

theorem patternBelow_between (f : Fmt) (hn : 0 < n) (hd : 0 < d) : f.Between (f.patternBelow n d) (n / d) := by
  obtain ⟨hl, hu⟩ := natDiv_bounds (scaleQ n d (f.ulpExp n d)).1 (scaleQ_pos (n := n) (q := f.ulpExp n d) hd)
  have hs := patternBelow_steps f hn hd
  rw [scaleQ_eq] at hl hu
  rw [Fmt.Between, hs.grid, hs.grid_succ, ← ulpExp_eq]
  exact ⟨(le_div_iff₀ (by positivity)).1 hl, (div_lt_iff₀ (by positivity)).1 hu⟩

open Classical in
/-- `roundQ` takes the neighbour of its magnitude that the mode picks, and NX where the magnitude is not the lower one. -/
theorem roundInt_pick (hf : f.Wide) (r : Rnd) (neg : Bool) (hn : 0 < n) (hd : 0 < d) :
    let y := roundInt r neg (scaleQ n d (f.ulpExp n d)).1 (scaleQ n d (f.ulpExp n d)).2
    f.binade n d * 2 ^ f.fbits + y.1 = f.pick (onMag r neg) (f.patternBelow n d) (n / d) ∧
      y.2 = decide (f.grid (f.patternBelow n d) ≠ n / d) := by
  have hs := patternBelow_steps f hn hd
  have hpar : f.patternBelow n d % 2 = (scaleQ n d (f.ulpExp n d)).1 / (scaleQ n d (f.ulpExp n d)).2 % 2 := by
    obtain ⟨c, hc⟩ := hf.exists_fracs
    rw [Fmt.patternBelow, hc, Nat.mul_left_comm, Nat.mul_add_mod]
  have hgrid := hs.grid
  have hgrid' := hs.grid_succ
  have hy := roundInt_eq r neg (scaleQ n d (f.ulpExp n d)).1 (scaleQ_pos (n := n) (q := f.ulpExp n d) hd)
  have hj : f.patternBelow n d = f.binade n d * 2 ^ f.fbits + _ := rfl
  have hc : (0 : ℚ) < 2 ^ f.ulpExp n d := by positivity
  rw [← ulpExp_eq] at hgrid hgrid'
  rw [scaleQ_eq] at hy
  generalize (scaleQ n d (f.ulpExp n d)).1 / (scaleQ n d (f.ulpExp n d)).2 = k at *
  have hgo := goesUp_scale hc (onMag r neg) (k % 2 = 1) k (n / d / 2 ^ f.ulpExp n d) (k + 1)
  rw [div_mul_cancel₀ _ hc.ne', ← hgrid, ← hgrid', ← hpar] at hgo
  rw [← hpar] at hy
  have hne : (k : ℚ) = n / d / 2 ^ f.ulpExp n d ↔ f.grid (f.patternBelow n d) = n / d := by rw [hgrid, eq_div_iff hc.ne']
  intro y
  rw [show y = _ from hy]
  refine ⟨?_, decide_eq_decide.2 (not_congr hne)⟩
  generalize f.patternBelow n d = j at *
  unfold Fmt.pick
  simp only [hgo]
  split <;> omega

/-- What `roundQ` delivers: the neighbour taken with its flags, a flushed subnormal, or the result on overflow. -/
theorem roundQ_eq (hf : f.Wide) (r : Rnd) (neg : Bool) (hn : 0 < n) (hd : 0 < d) :
    roundQ f r neg n d =
      let k := f.pick (onMag r neg) (f.patternBelow n d) (n / d)
      let nx := decide (f.grid (f.patternBelow n d) ≠ n / d)
      if k ≥ f.inf then { val := overflowRes f r neg, flags := fOF ||| fNX }
      else if f.flush && k ≠ 0 && k < 2 ^ f.fbits then { val := f.signed neg 0, flags := fUF ||| fNX }
      else { val := f.signed neg k
             flags := (if nx then fNX else 0) ||| (if f.tiny (onMag r neg) (n / d) && nx then fUF else 0) } := by
  obtain ⟨hk, hnx⟩ := roundInt_pick hf r neg hn hd
  rw [← hk, ← hnx, ← tiny_eq r neg hn hd]
  rfl

theorem overflowRes_eq (r : Rnd) (neg : Bool) (hp : f.inf ≤ f.pick (onMag r neg) j x) :
    overflowRes f r neg = f.signed neg (f.target (onMag r neg) j x) := by
  unfold Fmt.target
  rw [if_neg (by omega)]
  cases r <;> cases neg <;> rfl

/-- A tiny magnitude lies below the normal range. -/
theorem not_tiny (h : f.Between j x) (hj : 2 ^ f.fbits ≤ j) : f.tiny m x = false := by
  have hu : (0 : ℚ) < 2 ^ (f.unit - 1) := by positivity
  rw [← Bool.not_eq_true, tiny_iff f m (div_mul_cancel₀ x hu.ne').symm]
  refine not_below_of_le ((le_div_iff₀ hu).2 ?_)
  have hx := (h.grid_le (2 ^ f.fbits)).2 hj
  rw [grid_normal] at hx
  refine le_of_eq_of_le ?_ hx
  rw [← zpow_natCast, ← zpow_one_add₀ two_ne_zero, ← zpow_add₀ two_ne_zero]
  congr 1
  unfold Fmt.unit
  omega

theorem target_of_lt (h : f.pick m j x < f.inf) : f.target m j x = f.pick m j x := if_pos h

theorem normal_le_target (hf : f.Wide) (h : f.inf ≤ f.pick m j x) : 2 ^ f.fbits ≤ f.target m j x := by
  have := normal_le_maxFin hf
  have := inf_eq_succ hf
  unfold Fmt.target
  rw [if_neg (by omega)]
  cases m <;> dsimp only <;> omega

/-- The exact value of sign `neg` and magnitude `n / d`. -/
def signedQ (neg : Bool) (n d : Nat) : ℚ := if neg then -(n / d) else n / d

/-- R68, R70, R71, R73: `roundQ` is the one rounding of the exact value. -/
theorem roundQ_roundsTo (hf : f.Wide) (r : Rnd) (neg : Bool) (hn : 0 < n) (hd : 0 < d) :
    RoundsTo f r (signedQ neg n d) (roundQ f r neg n d) := by
  have hx : (0 : ℚ) < n / d := div_pos (by exact_mod_cast hn) (by exact_mod_cast hd)
  have hb := patternBelow_between f hn hd
  have habs : |signedQ neg n d| = n / d := by cases neg <;> simp [signedQ, abs_of_pos hx]
  have hneg : decide (signedQ neg n d < 0) = neg := by cases neg <;> simp [signedQ, hx.le, hx]
  have hinf := inf_eq_succ hf
  unfold RoundsTo
  rw [hneg, habs, roundQ_eq hf r neg hn hd]
  have hov := overflows_iff hf hb (onMag r neg)
  refine ⟨f.target (onMag r neg) (f.patternBelow n d) (n / d), rounds_target hf hb _, ?_⟩
  rw [show (if neg then mirrorRnd r else r) = onMag r neg from rfl]
  generalize (n / d : ℚ) = x at *
  generalize f.patternBelow n d = j at *
  rcases Nat.lt_or_ge (f.pick (onMag r neg) j x) f.inf with hp | hp
  · have hof : f.overflows (onMag r neg) x = false := by rw [← Bool.not_eq_true, hov]; omega
    have hnx : f.rat (f.pick (onMag r neg) j x) = x ↔ f.grid j = x := by
      rw [rat_eq_grid hf (by omega), grid_pick_eq_iff hb]
    rw [target_of_lt hp]
    dsimp only
    rw [if_neg (by omega)]
    refine ⟨fun hfl => if_pos ?_, fun hfl => (if_neg ?_).trans ?_⟩
    · simpa [Nat.pos_iff_ne_zero, and_assoc] using hfl
    · simpa [Nat.pos_iff_ne_zero, and_assoc] using hfl
    · simp [hof, hnx, and_comm]
  · have := normal_le_target hf hp
    have hle := pick_le f (onMag r neg) j x
    have htiny : f.tiny (onMag r neg) x = false := not_tiny hb (by have := normal_le_maxFin hf; omega)
    refine ⟨fun hfl => absurd hfl.2.2 (by omega), fun _ => ?_⟩
    simp [hp, overflowRes_eq r neg hp, hov.2 hp, rat_target_ne hf hb hx hp, htiny, BitVec.or_comm]

theorem signedQ_eq {m : Int} {e : Int} (h : (n / d : ℚ) = m.natAbs * 2 ^ e) : signedQ (decide (m < 0)) n d = m * 2 ^ e := by
  unfold signedQ
  rw [h]
  rcases lt_or_ge m 0 with hm | hm
  · have : ((m.natAbs : Int) : ℚ) = -m := by rw [Int.ofNat_natAbs_of_nonpos hm.le]; push_cast; rfl
    rw [if_pos (by simpa using hm), ← Int.cast_natCast, this, neg_mul, neg_neg]
  · have : ((m.natAbs : Int) : ℚ) = m := by rw [Int.natAbs_of_nonneg hm]
    rw [if_neg (by simpa using hm), ← Int.cast_natCast, this]

/-- The exact value of `m × 2^e`, for an integer `m` other than 0, is rounded once. -/
theorem roundDyadic_roundsTo (hf : f.Wide) (r : Rnd) (z : Bool) {m : Int} (hm : m ≠ 0) (e : Int) :
    RoundsTo f r (m * 2 ^ e) (roundDyadic f r z m e) := by
  have hn : 0 < m.natAbs := Int.natAbs_pos.2 hm
  unfold roundDyadic
  rw [if_neg hm]
  split
  case isTrue he =>
    obtain ⟨l, rfl⟩ := Int.eq_ofNat_of_zero_le he
    refine signedQ_eq (n := m.natAbs * 2 ^ l) (d := 1) ?_ ▸ roundQ_roundsTo hf r _ (Nat.mul_pos hn (Nat.two_pow_pos l)) one_pos
    simp
  case isFalse he =>
    obtain ⟨l, hl⟩ := Int.eq_ofNat_of_zero_le (show 0 ≤ -e by omega)
    obtain rfl : e = -l := by omega
    rw [neg_neg, Int.toNat_natCast]
    refine signedQ_eq (n := m.natAbs) (d := 2 ^ l) ?_ ▸ roundQ_roundsTo hf r _ hn (Nat.two_pow_pos l)
    simp [zpow_neg, div_eq_mul_inv]

theorem roundDyadic_zero (f : Fmt) (r : Rnd) (z : Bool) (e : Int) : roundDyadic f r z 0 e = { val := f.signed z 0 } := if_pos rfl

end Sys2Proof.Machine
end

section
/-!
Floating-point elements, exact zeros and special values of FADD, FSUB, FMUL and FFMA (02 R67 to R73, R95, R96).
-/
namespace Sys2Proof.Machine

variable {f : Fmt} {r : Rnd} {x y z : FVal}

/-! ### Exact sums and products of finite values -/

/-- A dyadic value in steps of a smaller power of two. -/
theorem scaled_dyadic (m : Int) {e e' : Int} (h : e ≤ e') : ((m * 2 ^ (e' - e).toNat : Int) : ℚ) * 2 ^ e = m * 2 ^ e' := by
  obtain ⟨l, hl⟩ := Int.eq_ofNat_of_zero_le (show 0 ≤ e' - e by omega)
  obtain rfl : e' = l + e := by omega
  rw [Int.add_sub_cancel, Int.toNat_natCast, zpow_add₀ two_ne_zero, zpow_natCast]
  push_cast
  ring

theorem addDyadic_eq (m1 e1 m2 e2 : Int) :
    ((addDyadic m1 e1 m2 e2).1 : ℚ) * 2 ^ (addDyadic m1 e1 m2 e2).2 = m1 * 2 ^ e1 + m2 * 2 ^ e2 := by
  rw [← scaled_dyadic m1 (min_le_left e1 e2), ← scaled_dyadic m2 (min_le_right e1 e2), ← add_mul]
  unfold addDyadic
  push_cast
  rfl

theorem dyadic_eq_zero {m e : Int} : (m : ℚ) * 2 ^ e = 0 ↔ m = 0 := by simp [zpow_ne_zero]

/-- The sign of an exact zero sum of a product and an addend (R73). -/
def zeroSign (r : Rnd) (x y z : FVal) : Bool :=
  if x.mant * y.mant = 0 && z.mant = 0 && (x.neg != y.neg) = z.neg then x.neg != y.neg else r = .rd

theorem fmaVal_fin (f : Fmt) (r : Rnd) (nx ny nz : Bool) (mx my mz : Nat) (ex ey ez : Int) :
    fmaVal f r (.fin nx mx ex) (.fin ny my ey) (.fin nz mz ez) =
      let x := FVal.fin nx mx ex
      let y := FVal.fin ny my ey
      let z := FVal.fin nz mz ez
      let s := addDyadic (x.mant * y.mant) (x.expo + y.expo) z.mant z.expo
      roundDyadic f r (zeroSign r x y z) s.1 s.2 := rfl

section
variable {nx ny nz : Bool} {mx my mz : Nat} {ex ey ez : Int}

theorem fma_exact (x y z : FVal) :
    ((addDyadic (x.mant * y.mant) (x.expo + y.expo) z.mant z.expo).1 : ℚ)
      * 2 ^ (addDyadic (x.mant * y.mant) (x.expo + y.expo) z.mant z.expo).2 = x.rat * y.rat + z.rat := by
  rw [addDyadic_eq]
  unfold FVal.rat
  rw [zpow_add₀ two_ne_zero]
  push_cast
  ring

/-- R96: the exact value of FFMA is rounded once. -/
theorem fmaVal_rounds (hf : f.Wide) (r : Rnd)
    (h : (FVal.fin nx mx ex).rat * (FVal.fin ny my ey).rat + (FVal.fin nz mz ez).rat ≠ 0) :
    RoundsTo f r ((FVal.fin nx mx ex).rat * (FVal.fin ny my ey).rat + (FVal.fin nz mz ez).rat)
      (fmaVal f r (.fin nx mx ex) (.fin ny my ey) (.fin nz mz ez)) := by
  rw [← fma_exact] at h ⊢
  exact roundDyadic_roundsTo hf r _ (fun h0 => h (dyadic_eq_zero.2 h0)) _

theorem rat_eq_zero : x.rat = 0 ↔ x.mant = 0 := dyadic_eq_zero

theorem mul_rat_eq_zero : x.rat * y.rat = 0 ↔ x.mant * y.mant = 0 := by
  rw [mul_eq_zero, mul_eq_zero, rat_eq_zero, rat_eq_zero]

/-- R73: an exact zero has the common sign of two zeros, else that of the mode. -/
theorem fmaVal_zero (f : Fmt) (r : Rnd)
    (h : (FVal.fin nx mx ex).rat * (FVal.fin ny my ey).rat + (FVal.fin nz mz ez).rat = 0) :
    fmaVal f r (.fin nx mx ex) (.fin ny my ey) (.fin nz mz ez) =
      { val := f.signed (if (FVal.fin nx mx ex).rat * (FVal.fin ny my ey).rat = 0 ∧ (nx != ny) = nz then nz else r = .rd) 0 } := by
  have h0 := h
  rw [← fma_exact, dyadic_eq_zero] at h0
  rw [fmaVal_fin]
  dsimp only
  rw [h0, roundDyadic_zero]
  have hs : zeroSign r (.fin nx mx ex) (.fin ny my ey) (.fin nz mz ez)
      = if (FVal.fin nx mx ex).rat * (FVal.fin ny my ey).rat = 0 ∧ (nx != ny) = nz then nz else decide (r = .rd) := by
    unfold zeroSign
    by_cases hp : (FVal.fin nx mx ex).rat * (FVal.fin ny my ey).rat = 0
    · have hz : (FVal.fin nz mz ez).mant = 0 := rat_eq_zero.1 (by rwa [hp, zero_add] at h)
      by_cases hn : (nx != ny) = nz
      · simp only [mul_rat_eq_zero.1 hp, hz, FVal.neg, hn, hp, decide_true, Bool.and_self, and_self, if_true]
      · simp [hp, mul_rat_eq_zero.1 hp, hz, FVal.neg, hn]
    · simp [hp, mt mul_rat_eq_zero.2 hp]
  rw [hs]

end

theorem one_rat : FVal.one.rat = 1 := by simp [FVal.rat, FVal.one, FVal.mant, FVal.expo]

theorem zero_rat (n : Bool) (e : Int) : (FVal.fin n 0 e).rat = 0 := by simp [FVal.rat, FVal.mant]

section
variable {nx ny : Bool} {mx my : Nat} {ex ey : Int}

theorem addVal_rounds (hf : f.Wide) (r : Rnd) (h : (FVal.fin nx mx ex).rat + (FVal.fin ny my ey).rat ≠ 0) :
    RoundsTo f r ((FVal.fin nx mx ex).rat + (FVal.fin ny my ey).rat) (addVal f r (.fin nx mx ex) (.fin ny my ey)) := by
  rw [← mul_one (FVal.fin nx mx ex).rat, ← one_rat] at h ⊢
  exact fmaVal_rounds hf r h

theorem addVal_zero (f : Fmt) (r : Rnd) (h : (FVal.fin nx mx ex).rat + (FVal.fin ny my ey).rat = 0) :
    addVal f r (.fin nx mx ex) (.fin ny my ey) =
      { val := f.signed (if (FVal.fin nx mx ex).rat = 0 ∧ nx = ny then nx else r = .rd) 0 } := by
  rw [← mul_one (FVal.fin nx mx ex).rat, ← one_rat] at h
  refine (fmaVal_zero f r h).trans ?_
  rw [show (FVal.fin false 1 0).rat = 1 from one_rat, mul_one, Bool.bne_false]
  by_cases hn : nx = ny <;> simp [hn]

theorem mulVal_rounds (hf : f.Wide) (r : Rnd) (h : (FVal.fin nx mx ex).rat * (FVal.fin ny my ey).rat ≠ 0) :
    RoundsTo f r ((FVal.fin nx mx ex).rat * (FVal.fin ny my ey).rat) (mulVal f r (.fin nx mx ex) (.fin ny my ey)) := by
  have hz := zero_rat (nx != ny) 0
  rw [← add_zero (_ * _), ← hz] at h ⊢
  exact fmaVal_rounds hf r (hz ▸ h)

theorem mulVal_zero (f : Fmt) (r : Rnd) (h : (FVal.fin nx mx ex).rat * (FVal.fin ny my ey).rat = 0) :
    mulVal f r (.fin nx mx ex) (.fin ny my ey) = { val := f.signed (nx != ny) 0 } := by
  refine (fmaVal_zero (nz := nx != ny) f r (by rw [h, zero_rat, add_zero])).trans ?_
  rw [if_pos ⟨h, rfl⟩]

end

/-! ### Infinities and NaNs -/

/-- A product of a zero and an infinity. -/
def zeroInf (x y : FVal) : Bool := (x.isZero && y.isInf) || (x.isInf && y.isZero)

@[simp] theorem one_isNan : FVal.one.isNan = false := rfl
@[simp] theorem one_isSnan : FVal.one.isSnan = false := rfl
@[simp] theorem one_isInf : FVal.one.isInf = false := rfl
@[simp] theorem one_isZero : FVal.one.isZero = false := rfl
@[simp] theorem one_neg : FVal.one.neg = false := rfl
@[simp] theorem fin_isNan (n : Bool) (m : Nat) (e : Int) : (FVal.fin n m e).isNan = false := rfl
@[simp] theorem fin_isSnan (n : Bool) (m : Nat) (e : Int) : (FVal.fin n m e).isSnan = false := rfl
@[simp] theorem fin_isInf (n : Bool) (m : Nat) (e : Int) : (FVal.fin n m e).isInf = false := rfl
@[simp] theorem fin_neg (n : Bool) (m : Nat) (e : Int) : (FVal.fin n m e).neg = n := rfl

/-- The cases of FFMA, in their order (R69, R73). -/
theorem fmaVal_eq (f : Fmt) (r : Rnd) (x y z : FVal) :
    fmaVal f r x y z =
      if zeroInf x y then { val := f.nan, flags := fNV }
      else if x.isNan || y.isNan || z.isNan then { val := f.nan, flags := snanFlag [x, y, z] }
      else if x.isInf || y.isInf then
        if z.isInf && z.neg != (x.neg != y.neg) then { val := f.nan, flags := fNV } else { val := f.signed (x.neg != y.neg) f.inf }
      else if z.isInf then { val := f.signed z.neg f.inf }
      else
        let s := addDyadic (x.mant * y.mant) (x.expo + y.expo) z.mant z.expo
        roundDyadic f r (zeroSign r x y z) s.1 s.2 := by
  unfold fmaVal
  rcases x with _ | _ | ⟨_, mx, _⟩ <;> rcases y with _ | _ | ⟨_, my, _⟩
  case inf.fin =>
    by_cases hm : my = 0
    · simp [hm, zeroInf, FVal.isZero, FVal.isInf]
    · cases z <;> simp [hm, zeroInf, FVal.isZero, FVal.isInf, FVal.isNan, FVal.neg] <;> rfl
  case fin.inf =>
    by_cases hm : mx = 0
    · simp [hm, zeroInf, FVal.isZero, FVal.isInf]
    · cases z <;> simp [hm, zeroInf, FVal.isZero, FVal.isInf, FVal.isNan, FVal.neg] <;> rfl
  case inf.inf => cases z <;> simp [zeroInf, FVal.isZero, FVal.isInf, FVal.isNan, FVal.neg] <;> rfl
  all_goals
    rw [show zeroInf _ _ = false by simp [zeroInf, FVal.isZero, FVal.isInf]]
    cases z <;> rfl

theorem fmaVal_zeroInf (r : Rnd) (z : FVal) (h : zeroInf x y = true) : fmaVal f r x y z = { val := f.nan, flags := fNV } := by
  rw [fmaVal_eq, if_pos h]

theorem fmaVal_nan (r : Rnd) (h : zeroInf x y = false) (hn : (x.isNan || y.isNan || z.isNan) = true) :
    fmaVal f r x y z = { val := f.nan, flags := if x.isSnan || y.isSnan || z.isSnan then fNV else 0 } := by
  rw [fmaVal_eq, h, if_neg Bool.false_ne_true, if_pos hn, snanFlag]
  simp [Bool.or_assoc]

theorem fmaVal_infProduct (r : Rnd) (h : zeroInf x y = false) (hn : (x.isNan || y.isNan || z.isNan) = false)
    (hi : (x.isInf || y.isInf) = true) :
    fmaVal f r x y z = if z.isInf && z.neg != (x.neg != y.neg) then { val := f.nan, flags := fNV }
      else { val := f.signed (x.neg != y.neg) f.inf } := by
  rw [fmaVal_eq, h, if_neg Bool.false_ne_true, hn, if_neg Bool.false_ne_true, if_pos hi]

theorem fmaVal_infAddend (r : Rnd) (hn : (x.isNan || y.isNan || z.isNan) = false) (hx : x.isInf = false) (hy : y.isInf = false)
    (hz : z.isInf = true) : fmaVal f r x y z = { val := f.signed z.neg f.inf } := by
  rw [fmaVal_eq, show zeroInf x y = false by simp [zeroInf, hx, hy], hn]
  simp [hx, hy, hz]

theorem zeroInf_one (x : FVal) : zeroInf x .one = false := by simp [zeroInf]

theorem zeroInf_of_nan (h : (x.isNan || y.isNan) = true) : zeroInf x y = false := by
  cases x <;> cases y <;> simp_all [zeroInf, FVal.isNan, FVal.isInf, FVal.isZero]

theorem isNan_of_isInf (h : x.isInf = true) : x.isNan = false := by cases x <;> simp_all [FVal.isInf, FVal.isNan]

/-- R69, R73: NaNs and infinities, whatever the format. -/
theorem specialValues (f : Fmt) (r : Rnd) (x y z : FVal) :
    let nan : FRes := { val := f.nan, flags := if x.isSnan || y.isSnan || z.isSnan then fNV else 0 }
    let neg := x.neg != y.neg
    (zeroInf x y = true → fmaVal f r x y z = { val := f.nan, flags := fNV } ∧ mulVal f r x y = { val := f.nan, flags := fNV }) ∧
    (zeroInf x y = false → x.isNan || y.isNan || z.isNan → fmaVal f r x y z = nan) ∧
    (x.isNan || y.isNan → addVal f r x y = { val := f.nan, flags := if x.isSnan || y.isSnan then fNV else 0 } ∧
      mulVal f r x y = { val := f.nan, flags := if x.isSnan || y.isSnan then fNV else 0 }) ∧
    (x.isNan = false → y.isNan = false → z.isNan = false → zeroInf x y = false → x.isInf || y.isInf → mulVal f r x y = { val := f.signed neg f.inf } ∧
      fmaVal f r x y z = if z.isInf && z.neg != neg then { val := f.nan, flags := fNV } else { val := f.signed neg f.inf }) ∧
    (x.isNan = false → y.isNan = false → x.isInf = false → y.isInf = false → z.isInf = true →
      fmaVal f r x y z = { val := f.signed z.neg f.inf } ∧ addVal f r x z = { val := f.signed z.neg f.inf } ∧
      addVal f r z x = { val := f.signed z.neg f.inf }) ∧
    (x.isInf = true → z.isInf = true → addVal f r x z =
      if x.neg = z.neg then { val := f.signed z.neg f.inf } else { val := f.nan, flags := fNV }) := by
  refine ⟨fun h => ⟨fmaVal_zeroInf r z h, fmaVal_zeroInf r _ h⟩, fmaVal_nan r, fun hn => ⟨?_, ?_⟩,
    fun hx hy hz h hi => ⟨?_, ?_⟩, fun hx hy hxi hyi hzi => ⟨?_, ?_, ?_⟩, fun hxi hzi => ?_⟩
  · refine (fmaVal_nan r (zeroInf_one x) (by simpa using hn)).trans ?_
    simp
  · refine (fmaVal_nan r (zeroInf_of_nan hn) (by rw [hn, Bool.true_or])).trans ?_
    simp
  · exact (fmaVal_infProduct r h (by simp [hx, hy]) hi).trans (by simp)
  · exact fmaVal_infProduct r h (by simp [hx, hy, hz]) hi
  · exact fmaVal_infAddend r (by simp [hx, hy, isNan_of_isInf hzi]) hxi hyi hzi
  · exact fmaVal_infAddend r (by simp [hx, isNan_of_isInf hzi]) hxi rfl hzi
  · refine (fmaVal_infProduct r (zeroInf_one z) (by simp [hx, isNan_of_isInf hzi]) (by simp [hzi])).trans ?_
    simp [hxi]
  · refine (fmaVal_infProduct r (zeroInf_one x) (by simp [isNan_of_isInf hxi, isNan_of_isInf hzi]) (by simp [hxi])).trans ?_
    by_cases he : x.neg = z.neg
    · simp [he]
    · simp [he, hzi, Ne.symm he]

/-! ### Elements -/

theorem fEls_one {t : Ty} (h : elN t = 1) (g : Nat → FRes) : FloatElements t (fEls t g) g := by
  simp [FloatElements, fEls, h, valueWords]

theorem fEls_two {t : Ty} (h : elN t = 2) (hw : elW t = 16) (g : Nat → FRes) : FloatElements t (fEls t g) g := by
  simp [FloatElements, fEls, h, hw, valueWords, List.range_succ, Nat.mul_comm]

theorem fEls_elements {t : Ty} (h : t ∈ [Ty.f32, .f16x2, .bf16x2]) (g : Nat → FRes) : FloatElements t (fEls t g) g := by
  simp only [List.mem_cons, List.not_mem_nil, or_false] at h
  rcases h with rfl | rfl | rfl
  · exact fEls_one rfl g
  · exact fEls_two rfl rfl g
  · exact fEls_two rfl rfl g

theorem floatSpecialCases : Claims.FloatSpecialCases := by
  refine ⟨fun t r a b c ht => ⟨fEls_elements ht _, fEls_elements ht _, fEls_elements ht _, fEls_elements ht _⟩,
    fun f r nx ny nz mx my mz ex ey ez hf => ?_, fun f r x y z _ => specialValues f r x y z⟩
  have hw := wide_of_mem hf
  exact ⟨fmaVal_rounds hw r, addVal_rounds hw r, mulVal_rounds hw r, fmaVal_zero f r, addVal_zero f r, mulVal_zero f r⟩

end Sys2Proof.Machine
end

section
/-!
Comparisons, predicates and the selection by a predicate (02 R89, R90, R91, R99, Table 2.7).
-/
namespace Sys2Proof.Machine

/-! ### Comparisons (R89, R99, Table 2.7) -/

theorem intCond_eq (x y : Int) : intCond 0 x y = decide (x = y) ∧ intCond 1 x y = decide (x ≠ y) ∧ intCond 2 x y = decide (x < y) ∧
    intCond 3 x y = decide (x ≤ y) ∧ intCond 4 x y = decide (y < x) ∧ intCond 5 x y = decide (y ≤ x) :=
  ⟨rfl, rfl, rfl, rfl, rfl, rfl⟩

/-- Finite values compare as their exact values. -/
theorem cmpVal_fin (nx ny : Bool) (mx my : Nat) (ex ey : Int) :
    let x := FVal.fin nx mx ex
    let y := FVal.fin ny my ey
    (cmpVal x y = some .eq ↔ x.rat = y.rat) ∧ (cmpVal x y = some .lt ↔ x.rat < y.rat) ∧
      (cmpVal x y = some .gt ↔ y.rat < x.rat) := by
  intro x y
  have hp : (0 : ℚ) < 2 ^ min x.expo y.expo := by positivity
  have hx := scaled_dyadic x.mant (min_le_left x.expo y.expo)
  have hy := scaled_dyadic y.mant (min_le_right x.expo y.expo)
  have hc : cmpVal x y = some (compare (x.mant * 2 ^ (x.expo - min x.expo y.expo).toNat)
    (y.mant * 2 ^ (y.expo - min x.expo y.expo).toNat)) := rfl
  rw [hc, FVal.rat, FVal.rat, ← hx, ← hy, mul_lt_mul_iff_left₀ hp, mul_lt_mul_iff_left₀ hp, mul_left_inj' hp.ne', Int.cast_lt,
    Int.cast_lt, Int.cast_inj, Option.some_inj, Option.some_inj, Option.some_inj]
  exact ⟨compare_eq_iff_eq, compare_lt_iff_lt, compare_gt_iff_gt⟩

theorem fsetpRes_fin (nx ny : Bool) (mx my : Nat) (ex ey : Int) :
    let x := FVal.fin nx mx ex
    let y := FVal.fin ny my ey
    fsetpRes 0 x y = (decide (x.rat = y.rat), 0) ∧ fsetpRes 1 x y = (decide (x.rat ≠ y.rat), 0) ∧
    fsetpRes 2 x y = (decide (x.rat < y.rat), 0) ∧ fsetpRes 3 x y = (decide (x.rat ≤ y.rat), 0) ∧
    fsetpRes 4 x y = (decide (y.rat < x.rat), 0) ∧ fsetpRes 5 x y = (decide (y.rat ≤ x.rat), 0) ∧
    fsetpRes 6 x y = (true, 0) ∧ fsetpRes 7 x y = (false, 0) := by
  obtain ⟨heq, hlt, hgt⟩ := cmpVal_fin nx ny mx my ex ey
  simp [fsetpRes, snanFlag, heq, hlt, hgt, le_iff_lt_or_eq, eq_comm]

theorem exists_nan {x : FVal} (h : x.isNan = true) : ∃ b, x = .nan b := by
  cases x
  case nan b => exact ⟨b, rfl⟩
  all_goals cases h

theorem cmpVal_nan {x y : FVal} (h : (x.isNan || y.isNan) = true) : cmpVal x y = none := by
  rcases Bool.or_eq_true_iff.1 h with h | h
  · obtain ⟨b, rfl⟩ := exists_nan h
    rfl
  · obtain ⟨b, rfl⟩ := exists_nan h
    cases x <;> rfl

/-- A NaN is unordered, and raises NV where the condition orders or the NaN signals. -/
theorem fsetpRes_nan (x y : FVal) (k : Nat) (h : (x.isNan || y.isNan) = true) (hk : k < 8) :
    fsetpRes k x y = (k = 1 || k = 7, if (2 ≤ k ∧ k ≤ 5) ∨ x.isSnan || y.isSnan then fNV else 0) := by
  unfold fsetpRes
  simp only [cmpVal_nan h, h, snanFlag]
  interval_cases k <;> simp

theorem evalPsetp_eq (a b c : Bool) : evalPsetp 0 a b c = (a && b && c) ∧ evalPsetp 1 a b c = (a || b || c) ∧
    evalPsetp 2 a b c = ((a != b) != c) ∧ evalPsetp 3 a b c = (if c then a else b) ∧
    evalPsetp 4 a b c = decide (2 ≤ a.toNat + b.toNat + c.toNat) := by
  revert a b c
  decide

/-! ### The instructions of a lone thread -/

theorem flag_eq_testBit (x k : Nat) : flag x k = x.testBit k := (Nat.testBit_eq_decide_div_mod_eq ..).symm

/-- The combination of a comparison with a predicate that may be negated (R89). -/
theorem combine_eq (th : Thread) (c : Code) (x : Bool) :
    combine th c x =
      let q := th.pred (c.toNat % 16) != c.toNat.testBit 5
      if c.toNat.testBit 4 then x || q else x && q := by
  simp only [combine, pn, flag_eq_testBit]

theorem predField_eq (th : Thread) (c : Code) : predField th c = (th.pred (c.toNat % 16) != c.toNat.testBit 4) := by
  simp only [predField, pn, flag_eq_testBit]

theorem comparisonsAndPredicates : Claims.ComparisonsAndPredicates := by
  refine ⟨intCond_eq, fsetpRes_fin, fsetpRes_nan, evalPsetp_eq, fun _ => rfl, fun _ _ => rfl, fun w s th => ?_⟩
  have hj : ∀ x, combine th w.c x = _ := combine_eq th w.c
  have hq : ∀ c, predField th c = _ := predField_eq th
  refine ⟨fun h => ?_, fun h => ?_, fun h => ?_, fun h => ?_⟩
  case refine_4 =>
    obtain ⟨t, ht, hr⟩ := OneResult.exec (c := w.d) (ty := w.ty) rfl ⟨rfl, fun _ _ _ => ⟨_, rfl⟩⟩ h
    simp only [hq] at hr
    exact ⟨t, ht, hr⟩
  all_goals
    obtain ⟨t, ht, hr⟩ := exec_noDest rfl rfl h
    simp only [hj, hq] at hr
    exact ⟨t, ht, hr⟩

/-- Settles O10: products and carries, FFMA by the one rounding of its exact value and by its special cases, and the four
instructions of one thread by their results. -/
theorem exactProductsFloatsAndComparisons : Obligations.ExactProductsFloatsAndComparisons :=
  ⟨exactProductsAndCarries, floatSpecialCases, comparisonsAndPredicates⟩

end Sys2Proof.Machine
end

section
/-!
A page without a translation while port 0 is down (14 R484): no translation is asked for, so a load raises HOSTLINK and a
PFETCH drops its request.
-/
namespace Sys2Proof.Machine

/-- A program's one live thread about to issue a word, with no page but the kernel's in a TLB and port 0 down. -/
def portZeroDown : State :=
  { Loader.place State.reset 0 with
    threads := [Loader.thread 0]
    cur := { core := 0, qtr := 0, lslot := 0, pc := (Loader.thread 0).pc, threads := [(Loader.thread 0).tid] }
    portUp := [false, true] }

/-- An unguarded memory word on the address in v4:v5 with the offset in v8, which are 0 here. -/
def wordAtZero : MWord :=
  { la := 0, g := { gn := false, gp := 0 }, d := 0, a := 4, b := 8, c := 0, ty := .b32, order := .weak, scope := .grp }

theorem portZeroDown_solo {i : Instr} (h : i = .ld wordAtZero ∨ i = .pfetch wordAtZero) :
    Solo i portZeroDown (Loader.thread 0) where
  alone := by decide
  one := by decide
  legal := by rcases h with rfl | rfl <;> decide
  on := by rcases h with rfl | rfl <;> decide
  runs := by rcases h with rfl | rfl <;> decide
  noQ := by rcases h with rfl | rfl <;> decide
  place := by decide
  grp := by decide
  ready := by decide
  calm := by decide
  fresh := by decide

theorem portZeroDown_calm : CalmAccess portZeroDown (Loader.thread 0) where
  idle := by decide
  cores := by decide
  noHost := by decide
  plain := by decide
  noLag := by decide

/-- Refutes O29, in the clause on a page without a translation: while port 0 is down the access raises HOSTLINK (R484), and
nothing is asked for. -/
theorem not_accessesTrapOrWaitForTranslation : ¬ Obligations.AccessesTrapOrWaitForTranslation := by
  unfold Obligations.AccessesTrapOrWaitForTranslation
  intro h
  obtain ⟨-, hmiss⟩ := h (.ld wordAtZero) portZeroDown (Loader.thread 0) (accM .load 0 wordAtZero) rfl rfl rfl rfl
    (fun _ => nofun) (portZeroDown_solo (.inl rfl)) portZeroDown_calm
  obtain ⟨t, -, ht, -, -, -, -, hats, -⟩ := hmiss (by decide) (by decide) (by decide) (by decide)
  rw [← Host.Outcome.next.inj ht] at hats
  exact absurd hats (by decide)

/-- Refutes O28, in the clause on a PFETCH of a page without a translation: while port 0 is down the request fails (R484) and
is dropped (R151), and nothing is asked for. -/
theorem not_fencesAndWaits : ¬ Obligations.FencesAndWaits := by
  unfold Obligations.FencesAndWaits
  rintro ⟨-, hpfetch, -⟩
  obtain ⟨-, -, hmiss⟩ := hpfetch wordAtZero portZeroDown (Loader.thread 0) true (portZeroDown_solo (.inr rfl))
    portZeroDown_calm rfl
  obtain ⟨t, -, ht, -, -, -, -, -, hout, -⟩ := hmiss (by decide) (by decide) (by decide)
  rw [← Host.Outcome.next.inj ht] at hout
  exact absurd hout (by decide)

end Sys2Proof.Machine
end

section
/-!
How the computations of the load-store unit run where nothing stands in their way: no reduction buffer holds contributions,
no range is subscribed or registered, and the host holds no half (03 R117 to R122, R142).
-/
namespace Sys2Proof.Machine

variable {α β : Type} {w w' w'' : Work} {s : State}

/-! ### Computations that can stop -/

theorem P.run_bind_ok {x : P α} {a : α} (h : x.run w = (.ok a, w')) (f : α → P β) : (x >>= f).run w = (f a).run w' := by
  rw [P.run_bind, h]
theorem P.run_ite (c : Prop) [Decidable c] (x y : P α) (w : Work) :
    (if c then x else y).run w = if c then x.run w else y.run w := by split <;> rfl
theorem P.run_modify (f : Work → Work) (w : Work) : (modify f : P PUnit).run w = (.ok (), f w) := id rfl
theorem P.run_getSt_bind (f : State → P β) (w : Work) : ((liftM getSt : P State) >>= f).run w = (f w.st).run w :=
  P.run_bind_ok (P.run_lift getSt w) f
theorem P.run_tryP (x : P α) (w : Work) : (tryP x).run w = (.ok (x.run w).1, (x.run w).2) := id rfl

theorem P.forIn_cons (a : α) (as : List α) (b : β) (f : α → β → P (ForInStep β)) (w : Work) {b' : β}
    (h : (f a b).run w = (.ok (.yield b'), w')) : (forIn (a :: as) b f).run w = (forIn as b' f).run w' := by
  rw [List.forIn_cons, P.run_bind_ok h]

/-- A loop that changes nothing. -/
theorem P.forIn_skip (xs : List α) (g : α → β → P (ForInStep β)) (u : β)
    (h : ∀ a ∈ xs, (g a u).run w = (.ok (.yield u), w)) : (forIn xs u g).run w = (.ok u, w) := by
  induction xs with
  | nil => rfl
  | cons a as ih =>
    rw [P.forIn_cons _ _ _ _ _ (h a List.mem_cons_self)]
    exact ih fun b hb => h b (List.mem_cons_of_mem _ hb)

/-- A loop that gathers one value of each element. -/
theorem W.forIn_gather {γ : Type} (xs : List α) (g : α → List γ → W (ForInStep (List γ))) (f : α → γ) (acc : List γ)
    (h : ∀ a ∈ xs, ∀ acc, g a acc w = (.yield (acc ++ [f a]), w)) : forIn xs acc g w = (acc ++ xs.map f, w) := by
  induction xs generalizing acc with
  | nil => simp
  | cons a as ih =>
    rw [W.forIn_cons, h a List.mem_cons_self]
    exact (ih _ fun b hb => h b (List.mem_cons_of_mem _ hb)).trans (by simp)

theorem P.forIn_gather {γ : Type} (xs : List α) (g : α → List γ → P (ForInStep (List γ))) (f : α → γ) (acc : List γ)
    (h : ∀ a ∈ xs, ∀ acc, (g a acc).run w = (.ok (.yield (acc ++ [f a])), w)) :
    (forIn xs acc g).run w = (.ok (acc ++ xs.map f), w) := by
  induction xs generalizing acc with
  | nil => simp
  | cons a as ih =>
    rw [P.forIn_cons _ _ _ _ _ (h a List.mem_cons_self _)]
    exact (ih _ fun b hb => h b (List.mem_cons_of_mem _ hb)).trans (by simp)

/-! ### Cores -/

/-- A state with `x` as the record of core `c`. -/
def State.putCore (s : State) (c : Nat) (x : CoreSt) : State := { s with cores := upsert (fun y => y.id = c) x s.cores }

theorem modCore_run (c : Nat) (f : CoreSt → CoreSt) (w : Work) :
    modCore c f w = ((), { w with st := w.st.putCore c (f (w.st.core c)) }) := rfl

theorem core_id (s : State) (c : Nat) : (s.core c).id = c := by
  unfold State.core
  cases h : s.cores.find? fun x => x.id = c with
  | none => rfl
  | some x => simpa using List.find?_some h

theorem core_putCore (s : State) {c : Nat} {x : CoreSt} (hx : x.id = c) (k : Nat) :
    (s.putCore c x).core k = if k = c then x else s.core k := by
  unfold State.core State.putCore
  dsimp only
  split
  next h =>
    subst h
    rw [find_upsert _ _ _ (by simp [hx])]
    rfl
  next h =>
    rw [find_upsert_ne _ _ _ _ (by simp [hx, Ne.symm h]) (by intro y hy; simp at hy; simp [hy, Ne.symm h])]
    rfl

theorem mem_upsert {p : α → Bool} {x y : α} {xs : List α} (h : y ∈ upsert p x xs) : y = x ∨ y ∈ xs := by
  induction xs with
  | nil => exact .inl (by simpa [upsert] using h)
  | cons z zs ih =>
    unfold upsert at h
    split at h
    · rcases List.mem_cons.1 h with h | h
      · exact .inl h
      · exact .inr (List.mem_cons_of_mem _ h)
    · rcases List.mem_cons.1 h with h | h
      · exact .inr (h ▸ List.mem_cons_self)
      · exact (ih h).imp_right (List.mem_cons_of_mem _)

/-- A core record that no access meets: no contributions, no subscribed and no registered ranges. -/
def CoreSt.Bare (c : CoreSt) : Prop := c.red = [] ∧ c.subs = [] ∧ c.ranges = []

theorem CoreSt.Bare.red {c : CoreSt} (h : c.Bare) : c.red = [] := h.1
theorem CoreSt.Bare.subs {c : CoreSt} (h : c.Bare) : c.subs = [] := h.2.1
theorem CoreSt.Bare.ranges {c : CoreSt} (h : c.Bare) : c.ranges = [] := h.2.2

/-- Nothing of a core or of the host stands in the way of an access, and no choice of the device is given. -/
structure State.Undisturbed (s : State) : Prop where
  cores  : ∀ c ∈ s.cores, c.Bare
  noHost : s.hostHeld = []
  plain  : s.choices = []
  noLag  : s.lag = []

theorem State.Undisturbed.core (h : s.Undisturbed) (c : Nat) : (s.core c).Bare := by
  unfold State.core
  cases hf : s.cores.find? fun x => x.id = c with
  | none => exact ⟨rfl, rfl, rfl⟩
  | some x => exact h.cores x (List.mem_of_find?_eq_some hf)

/-- A core that no list names may come to be listed with the record it has; nothing else changes. -/
structure Touched (w w' : Work) : Prop where
  eq    : w' = { w with st := { w.st with cores := w'.st.cores } }
  core  : ∀ k, w'.st.core k = w.st.core k
  cores : ∀ k ∈ w'.st.cores, k ∈ w.st.cores ∨ ∃ c, k = w.st.core c

theorem Touched.refl (w : Work) : Touched w w := ⟨rfl, fun _ => rfl, fun _ => .inl⟩

theorem Touched.trans (h : Touched w w') (h' : Touched w' w'') : Touched w w'' where
  eq := by
    have e := h'.eq
    rw [h.eq] at e
    exact e
  core k := (h'.core k).trans (h.core k)
  cores k hk := by
    rcases h'.cores k hk with hk | ⟨c, rfl⟩
    · exact h.cores k hk
    · exact .inr ⟨c, h.core c⟩

theorem Touched.undisturbed (h : Touched w w') (hu : w.st.Undisturbed) : w'.st.Undisturbed := by
  have e : w'.st = { w.st with cores := w'.st.cores } := congrArg Work.st h.eq
  refine ⟨fun c hc => ?_, ?_, ?_, ?_⟩
  · rcases h.cores c hc with hc | ⟨k, rfl⟩
    · exact hu.cores c hc
    · exact hu.core k
  · rw [e]; exact hu.noHost
  · rw [e]; exact hu.plain
  · rw [e]; exact hu.noLag

/-- A change of a core's record that finds nothing to change. -/
theorem touched_modCore (w : Work) {c : Nat} {f : CoreSt → CoreSt} (hf : f (w.st.core c) = w.st.core c) :
    Touched w (modCore c f w).2 := by
  rw [modCore_run, hf]
  refine ⟨rfl, fun k => ?_, fun k hk => ?_⟩
  · refine (core_putCore w.st (core_id w.st c) k).trans ?_
    split
    next h => rw [h]
    next => rfl
  · rcases mem_upsert hk with rfl | hk
    · exact .inr ⟨c, rfl⟩
    · exact .inl hk

theorem P.forIn_touched (xs : List α) (g : α → PUnit → P (ForInStep PUnit))
    (h : ∀ a ∈ xs, ∀ w', Touched w w' → ∃ w'', Touched w' w'' ∧ (g a ()).run w' = (.ok (.yield ()), w'')) :
    ∃ w', Touched w w' ∧ (forIn xs () g).run w = (.ok (), w') := by
  induction xs generalizing w with
  | nil => exact ⟨w, .refl w, rfl⟩
  | cons a as ih =>
    obtain ⟨w1, h1, he⟩ := h a List.mem_cons_self w (.refl w)
    obtain ⟨w2, h2, hr⟩ := ih fun b hb w' hw' => h b (List.mem_cons_of_mem _ hb) w' (h1.trans hw')
    refine ⟨w2, h1.trans h2, ?_⟩
    rw [P.forIn_cons _ _ _ _ _ he]
    exact hr

/-! ### Reduction buffers, mirrors, the host (R122, R204, R211, R215) -/

theorem mergeLine_run (h : w.st.Undisturbed) (c a : Nat) (fa : DWord) : (mergeLine c a fa).run w = (.ok (), w) := by
  unfold mergeLine
  simp [P.run_bind, (h.core c).red]

theorem takeBack_run (h : w.st.Undisturbed) (a n : Nat) (fa : DWord) : (takeBack a n fa).run w = (.ok (), w) := by
  unfold takeBack
  rw [P.run_getSt_bind]
  refine (P.run_bind_ok (P.forIn_skip _ _ _ fun c hc => ?_) _).trans rfl
  simp [(h.cores c hc).red]

theorem needLine_run {a : Nat} (h : a < hostBase) (own : Bool) (fa : DWord) : (needLine a own fa).run w = (.ok (), w) := by
  unfold needLine
  rw [if_neg (by simpa [isHost] using h)]
  rfl

theorem needHalf_run (h : w.st.hostHeld = []) (a : Nat) : (needHalf a).run w = (.ok (), w) := by
  unfold needHalf
  rw [P.run_ite]
  split
  · simp [P.run_bind, h]
  · rfl

theorem needSpan_run (h : w.st.hostHeld = []) {a n : Nat} (hn : 0 < n) (ha : a + n ≤ hostBase) (write : Bool) (fa : DWord) :
    (needSpan a n write fa).run w = (.ok (), w) := by
  unfold needSpan
  refine (P.run_bind_ok (P.forIn_skip _ _ _ fun k hk => ?_) _).trans rfl
  have hk : a / 64 * 64 + 64 * k < hostBase := by
    have := List.mem_range.1 hk
    omega
  cases write with
  | false => exact P.run_bind_ok (needLine_run hk _ _) _
  | true => exact (P.run_bind_ok (needHalf_run h _) _).trans (P.run_bind_ok (needLine_run hk _ _) _)

theorem markDue_run (h : w.st.Undisturbed) (t : ThreadId) (narrow : Bool) : markDue t narrow w = ((), w) := by
  unfold markDue
  simp [(h.core t.core).subs]

/-! ### A core whose L1 holds nothing (R117 to R119) -/

theorem line?_none {c : CoreSt} (h : c.l1 = []) (a : Nat) : c.line? a = none := by simp [CoreSt.line?, h]
theorem l1Word?_none {c : CoreSt} (h : c.l1 = []) (a : Nat) : c.l1Word? a = none := by simp [CoreSt.l1Word?, line?_none h]

theorem copyBack_run {c : Nat} (h : (w.st.core c).l1 = []) (a : Nat) (fa : DWord) : (copyBack c a fa).run w = (.ok (), w) := by
  unfold copyBack copyBackWord
  simp [P.run_bind, line?_none h, l1Word?_none h]

theorem prune_empty {c : CoreSt} (h : c.l1 = []) (f : L1Line → L1Line) : CoreSt.prune { c with l1 := c.l1.map f } = c := by
  cases c
  simp_all [CoreSt.prune]

theorem l1Drop_touched {c : Nat} (h : (w.st.core c).l1 = []) (a : Nat) : Touched w (l1Drop c a w).2 :=
  touched_modCore w (prune_empty h _)

theorem invalidate_touched {c : Nat} (h : (w.st.core c).l1 = []) (host : Bool) : Touched w (invalidate c host w).2 :=
  touched_modCore w (prune_empty h _)

theorem flushSpan_run {c : Nat} (h : (w.st.core c).l1 = []) (a n : Nat) (fa : DWord) :
    ∃ w', Touched w w' ∧ (flushSpan c a n fa).run w = (.ok (), w') := by
  unfold flushSpan
  obtain ⟨w', ht, hr⟩ := P.forIn_touched (w := w) (wordsOf a n) (fun x _ => do
      copyBack c x fa
      l1Drop c x
      pure (ForInStep.yield PUnit.unit)) fun x _ w1 h1 => by
    have h0 : (w1.st.core c).l1 = [] := by rw [h1.core]; exact h
    exact ⟨_, l1Drop_touched h0 x, by rw [P.run_bind_ok (copyBack_run h0 x fa)]; rfl⟩
  exact ⟨w', ht, (P.run_bind_ok hr _).trans rfl⟩

theorem mergeAll_run (h : w.st.Undisturbed) (c : Nat) (fa : DWord) : (mergeAll c fa).run w = (.ok (), w) := by
  unfold mergeAll
  rw [P.run_getSt_bind, (h.core c).red]
  rfl

theorem copyBackAll_run {c : Nat} (h : (w.st.core c).l1 = []) (fa : DWord) : (copyBackAll c fa).run w = (.ok (), w) := by
  unfold copyBackAll
  rw [P.run_getSt_bind, CoreSt.dirtyWords, h]
  rfl

theorem settleLag_run (h : w.st.lag = []) (p : LagWord → Bool) : settleLag p w = ((), w) := by
  unfold settleLag
  simp [h]

/-- A release finds nothing to write back (R119). -/
theorem releaseAct_run (h : w.st.Undisturbed) {c : Nat} (hl : (w.st.core c).l1 = []) (sc : Scope) (fa : DWord) :
    (releaseAct c sc fa).run w = (.ok (), w) := by
  have hall : (doAll [mergeAll c fa, copyBackAll c fa]).run w = (.ok (), w) := by
    unfold doAll
    rw [P.run_bind_ok (P.run_tryP _ w), mergeAll_run h]
    unfold doAll
    refine (P.run_bind_ok (P.run_tryP _ w) _).trans ?_
    rw [copyBackAll_run hl]
    rfl
  unfold releaseAct
  rw [P.run_ite]
  split
  · rw [P.run_bind_ok hall, P.run_ite]
    split
    · exact (P.run_lift _ w).trans (by rw [settleLag_run h.noLag])
    · rfl
  · rfl

theorem drainMirrors_run (h : w.st.Undisturbed) (c : Nat) (till : SubUpd → Bool) : drainMirrors c till w = ((), w) := by
  unfold drainMirrors
  simp [(h.core c).subs]

/-- An acquire finds nothing to invalidate (R119, R128). -/
theorem acquireAct_touched (h : w.st.Undisturbed) {c : Nat} (hl : (w.st.core c).l1 = []) (sc : Scope) :
    Touched w (acquireAct c sc w).2 := by
  unfold acquireAct
  rw [W.run_ite]
  split
  · rw [W.run_bind, drainMirrors_run h]
    exact invalidate_touched hl _
  · rw [drainMirrors_run h]
    exact .refl w

end Sys2Proof.Machine
end

section
/-!
Bytes (01 R16): a value's bytes and back, the words that cover a span, and the alignment that a translation keeps.
-/
namespace Sys2Proof

theorem leValue_cons (b : Byte) (bs : List Byte) : leValue (b :: bs) = b.toNat + 256 * leValue bs := rfl

/-- The bytes of a value read from bytes are those bytes. -/
theorem leBytes_leValue (bs : List Byte) : leBytes bs.length (leValue bs) = bs := by
  induction bs with
  | nil => rfl
  | cons b bs ih =>
    have hb := b.isLt
    have hmod : BitVec.ofNat 8 (leValue (b :: bs)) = b := by
      refine BitVec.eq_of_toNat_eq ?_
      rw [BitVec.toNat_ofNat, leValue_cons]
      omega
    rw [List.length_cons, leBytes_succ, hmod, leValue_cons, show (b.toNat + 256 * leValue bs) / 256 = leValue bs by omega, ih]

theorem leValue_lt (bs : List Byte) : leValue bs < 256 ^ bs.length := by
  rw [← leBytes_leValue bs, leValue_leBytes]
  simp [leBytes_leValue, Nat.mod_lt]

/-- A word that holds four bytes gives them back. -/
theorem leBytes_word {bs : List Byte} (h : bs.length = 4) : leBytes 4 (BitVec.ofNat 32 (leValue bs)).toNat = bs := by
  have hlt : leValue bs < 2 ^ 32 := by simpa [h] using leValue_lt bs
  rw [BitVec.toNat_ofNat, Nat.mod_eq_of_lt hlt, ← h, leBytes_leValue]

namespace Machine

variable {s : State} {w : Work}

theorem length_bytesAt (s : State) (a n : Nat) : (s.bytesAt a n).length = n := by simp [State.bytesAt]

theorem bytesAt_add (s : State) (a m n : Nat) : s.bytesAt a (m + n) = s.bytesAt a m ++ s.bytesAt (a + m) n := by
  simp [State.bytesAt, List.range_add, Function.comp_def, Nat.add_assoc]

theorem value_eq (s : State) (a n : Nat) : s.value a n = leValue (s.bytesAt a n) := rfl

theorem valueWords_one (v : Word) : valueWords 1 (leValue (leBytes 4 v.toNat)) = [v] := by
  rw [leValue_leBytes, Nat.mod_eq_of_lt (show v.toNat < 256 ^ 4 from v.isLt)]
  simp [valueWords]

/-! ### The words that cover a span -/

theorem wordsOf_aligned {a n : Nat} (ha : a % 4 = 0) (hn : n % 4 = 0) : wordsOf a n = (List.range (n / 4)).map fun k => a + 4 * k := by
  unfold wordsOf
  rw [show (a + n + 3) / 4 - a / 4 = n / 4 by omega]
  refine List.map_congr_left fun k _ => by omega

theorem wordsOf_word {a : Nat} (ha : a % 4 = 0) : wordsOf a 4 = [a] := by
  rw [wordsOf_aligned ha rfl]
  rfl

theorem mem_wordsOf {a n b : Nat} (h : b ∈ wordsOf a n) : b % 4 = 0 ∧ a < b + 4 ∧ b + 4 ≤ a + n + 3 := by
  unfold wordsOf at h
  obtain ⟨k, hk, rfl⟩ := List.mem_map.1 h
  have := List.mem_range.1 hk
  omega

/-- The word of memory at `a`. -/
def State.word (s : State) (a : Nat) : Word := BitVec.ofNat 32 (s.value a 4)

theorem leBytes_stateWord (s : State) (a : Nat) : leBytes 4 (s.word a).toNat = s.bytesAt a 4 :=
  leBytes_word (length_bytesAt s a 4)

theorem bytesAt_words (s : State) (b m : Nat) :
    ((List.range m).map fun k => 4 * (b + k)).flatMap (fun a => s.bytesAt a 4) = s.bytesAt (4 * b) (4 * m) := by
  induction m with
  | zero => rfl
  | succ m ih =>
    rw [List.range_succ, List.map_append, List.flatMap_append, ih, Nat.mul_add, bytesAt_add]
    simp [Nat.mul_add]

/-- The words at their homes give the bytes of the span. -/
theorem spanBytes_words (s : State) (a n : Nat) : spanBytes a n ((wordsOf a n).map s.word) = s.bytesAt a n := by
  have hm : 4 * ((a + n + 3) / 4 - a / 4) = a % 4 + n + (4 * ((a + n + 3) / 4 - a / 4) - a % 4 - n) := by omega
  have ha : 4 * (a / 4) + a % 4 = a := by omega
  unfold spanBytes wordsOf
  rw [List.flatMap_map]
  simp only [leBytes_stateWord]
  rw [bytesAt_words, hm, bytesAt_add, bytesAt_add, List.append_assoc, List.drop_left' (length_bytesAt ..),
    List.take_left' (length_bytesAt ..), ha]

/-! ### Reads of a step that has logged nothing -/

theorem readNat_run (h : w.log = []) (a n : Nat) : readNat a n w = (w.st.value a n, w) := by
  unfold readNat readBytes
  simp [h, memView, State.value, State.byte]

theorem homeWord_run (h : w.log = []) (a : Nat) : homeWord a w = ((w.st.word a, w.st.poisoned a 4), w) := by
  unfold homeWord isPoisoned
  simp [readNat_run h, State.word]

theorem poisoned_of_cleanSpan {a n b m : Nat} (h : s.cleanSpan a n) (ha : a < b + 4) (hb : b + m ≤ a + n + 3) :
    s.poisoned b m = false := by
  unfold State.poisoned
  rw [List.any_eq_false]
  intro p hp
  have := h p hp
  simp only [Bool.and_eq_true, decide_eq_true_eq]
  omega

/-! ### Translation -/

theorem phys_mod (e : TlbEntry) (va : Nat) : e.phys va % 4096 = va % 4096 := by
  unfold TlbEntry.phys
  generalize hz : pagesIn e.tr.size = z
  have hmod : ∀ p : Nat, (p / (4096 * z) * (4096 * z) + va % (4096 * z)) % 4096 = va % 4096 := by
    intro p
    rw [Nat.add_mod, show p / (4096 * z) * (4096 * z) = 4096 * (p / (4096 * z) * z) by ring, Nat.mul_mod_right, Nat.zero_add,
      Nat.mod_mod, Nat.mod_mul_right_mod]
  dsimp only
  split
  · rw [Nat.mod_mod_of_dvd _ (by norm_num)]
    exact hmod _
  · have : hostBase % 4096 = 0 := by decide
    rw [Nat.add_assoc, Nat.add_mod, this, Nat.zero_add, Nat.mod_mod]
    exact hmod _

/-- A translation keeps the offset in the page. -/
theorem trans_mod {t : Tlb} {p va pa : Nat} {i : Intent} (h : s.trans t p va i = .ok pa) : pa % 4096 = va % 4096 := by
  unfold State.trans State.transWays at h
  dsimp only at h
  split at h
  next hv =>
    split at h
    · cases h
    · cases h
      simp only [Bool.and_eq_true, decide_eq_true_eq] at hv
      unfold vaultBase
      omega
  next =>
    split at h
    · cases h
    · split at h
      · cases h
        exact phys_mod _ _
      · cases h

theorem translate_run {t : Tlb} {p pa : Nat} {va : DWord} {i : Intent} (h : w.st.trans t p va.toNat i = .ok pa) (retry : Nat) :
    (translate t p va i retry).run w = (.ok pa, w) := by
  have h' : w.st.transWays (w.st.usableWays t.dieNo) t p va.toNat i = .ok pa := h
  unfold translate
  rw [P.run_getSt_bind]
  simp [h']

theorem rangeCheck_run (h : w.st.Undisturbed) (c sl spc b n : Nat) (wr : Bool) (fa : DWord) :
    (rangeCheck c sl spc b n wr fa).run w = (.ok (), w) := by
  unfold rangeCheck
  rw [P.run_getSt_bind, (h.core c).ranges]
  rfl

end Machine
end Sys2Proof
end

section
/-!
Where an access goes, and what a load finds there (03 R110 to R119, R142).
-/
namespace Sys2Proof.Machine

variable {s : State} {w : Work} {x : Thread} {a : Acc} {e : Entry} {tg : Target} {ea : DWord}

theorem targetOf_generic (h : s.targetOf x a ea = some tg) (h0 : a.space = 0) :
    canonical ea.toNat = true ∧ ea.toNat % a.align = 0 ∧ tg.place = .device ∧ tg.pa + a.size ≤ 2 ^ 42 ∧
      s.trans (.core x.tid.core) (s.pasidOf x.lslot) ea.toNat (if a.writes then .write else .read) = .ok tg.pa ∧
      ∃ q, s.trans (.core x.tid.core) (s.pasidOf x.lslot) (ea + BitVec.ofNat 64 (a.size - 1)).toNat
        (if a.writes then .write else .read) = .ok q := by
  unfold State.targetOf at h
  simp only [h0] at h
  split at h
  next h1 h2 =>
    obtain ⟨hc, rfl⟩ := Option.ite_none_right_eq_some.1 h |>.imp_right Option.some.inj
    simp only [Bool.and_eq_true, decide_eq_true_eq] at hc
    exact ⟨hc.1.1, hc.1.2, rfl, hc.2, h1, _, h2⟩
  next => cases h

theorem targetOf_own (h : s.targetOf x a ea = some tg) (h1 : a.space = 1) :
    ∃ tm, s.team? x.tid.core x.slot = some tm ∧ 0 ≤ sgn 64 ea.toNat ∧ sgn 64 ea.toNat + a.size ≤ tm.scratch ∧
      ea.toNat % a.align = 0 ∧
      (a.writes && s.protectedAt x.tid.core (tm.base + (sgn 64 ea.toNat).toNat) a.size true) = false ∧
      tg = { pa := scratchBase x.tid.core + tm.base + (sgn 64 ea.toNat).toNat, place := .own } ∧ tg.pa + a.size ≤ hostBase := by
  unfold State.targetOf at h
  simp only [h1] at h
  obtain ⟨tm, htm, h⟩ := Option.bind_eq_some_iff.1 h
  obtain ⟨hc, rfl⟩ := Option.ite_none_right_eq_some.1 h |>.imp_right Option.some.inj
  simp only [Bool.and_eq_true, decide_eq_true_eq, Bool.not_eq_true'] at hc
  obtain ⟨⟨⟨⟨h0, hsz⟩, hal⟩, hpr⟩, hpa⟩ := hc
  exact ⟨tm, htm, h0, hsz, hal, hpr, rfl, hpa⟩

/-- The peer team whose scratchpad holds the offset of a peer address (R112). -/
def State.peerTeam (s : State) (x : Thread) (ea n : Nat) : Bool :=
  s.teams.any fun t => t.core = ea / 2 ^ 32 % 512 && t.lslot = x.lslot && t.base ≤ ea % 2 ^ 32 &&
    ea % 2 ^ 32 + n ≤ t.base + t.scratch

theorem targetOf_peer (h : s.targetOf x a ea = some tg) (h0 : a.space ≠ 0) (h1 : a.space ≠ 1) :
    ea.toNat / 2 ^ 41 = 0 ∧ ea.toNat % 2 ^ 32 + a.size ≤ 2 ^ 32 ∧ ea.toNat % a.align = 0 ∧
      (a.writes && s.protectedAt (ea.toNat / 2 ^ 32 % 512) (ea.toNat % 2 ^ 32) a.size false) = false ∧
      s.peerTeam x ea.toNat a.size = true ∧
      tg = { pa := scratchBase (ea.toNat / 2 ^ 32 % 512) + ea.toNat % 2 ^ 32, place := .peer } := by
  unfold State.targetOf at h
  split at h
  next hs => exact absurd hs h0
  next hs => exact absurd hs h1
  next =>
    obtain ⟨hc, rfl⟩ := Option.ite_none_right_eq_some.1 h |>.imp_right Option.some.inj
    simp only [Bool.and_eq_true, decide_eq_true_eq, Bool.not_eq_true'] at hc
    obtain ⟨⟨⟨⟨h0, hsz⟩, hal⟩, hpr⟩, hin⟩ := hc
    exact ⟨h0, hsz, hal, hpr, hin, rfl⟩

/-- A scratchpad access stays within the scratchpads. -/
theorem targetOf_scratch (h : s.targetOf x a ea = some tg) (h0 : a.space ≠ 0) :
    (tg.place = .own ∨ tg.place = .peer) ∧ 2 ^ 42 ≤ tg.pa ∧ tg.pa + a.size ≤ hostBase := by
  by_cases h1 : a.space = 1
  · obtain ⟨tm, -, -, -, -, -, rfl, hpa⟩ := targetOf_own h h1
    exact ⟨.inl rfl, by simp only [scratchBase]; omega, hpa⟩
  · obtain ⟨-, hsz, -, -, -, rfl⟩ := targetOf_peer h h0 h1
    refine ⟨.inr rfl, ?_, ?_⟩ <;> simp only [scratchBase, hostBase] <;> omega

theorem targetOf_le_hostBase (h : s.targetOf x a ea = some tg) : tg.pa + a.size ≤ hostBase := by
  by_cases h0 : a.space = 0
  · obtain ⟨-, -, -, hpa, -⟩ := targetOf_generic h h0
    unfold hostBase
    omega
  · exact (targetOf_scratch h h0).2.2

theorem isHost_eq_false {p : Nat} (h : p < hostBase) : isHost p = false := by simpa [isHost] using h

/-- The checks of an access that has a target let it through (R142). -/
theorem resolve_run (hu : w.st.Undisturbed) (h : w.st.targetOf x a (e.d 0) = some tg) : (resolve x a e).run w = (.ok tg, w) := by
  unfold resolve
  rw [P.run_getSt_bind]
  split
  next h0 =>
    obtain ⟨hcan, hal, hpl, hpa, ht, q, hq⟩ := targetOf_generic h h0
    have hh : isHost tg.pa = false := isHost_eq_false (by unfold hostBase; omega)
    simp only [hcan, hal, Bool.not_true, Bool.false_eq_true, if_false, ne_eq, not_true_eq_false]
    rw [P.run_bind_ok (translate_run ht _), P.run_bind_ok (translate_run hq _), P.run_bind_ok (rangeCheck_run hu ..), hh]
    obtain ⟨pa, pl⟩ := tg
    cases hpl
    rfl
  next h1 =>
    obtain ⟨tm, htm, h0, hsz, hal, hpr, rfl, hpa⟩ := targetOf_own h h1
    have hin : ¬ (sgn 64 (e.d 0).toNat < 0 ∨ sgn 64 (e.d 0).toNat + a.size > tm.scratch) := by omega
    simp only [htm, Option.map_some, Option.getD_some, Bool.or_eq_true, decide_eq_true_eq, hin, if_false, hpr,
      Bool.false_eq_true, hal, ne_eq, not_true_eq_false]
    rw [P.run_bind_ok (rangeCheck_run hu ..)]
    rfl
  next h0 h1 =>
    obtain ⟨htop, hsz, hal, hpr, hin, rfl⟩ := targetOf_peer h h0 h1
    unfold State.peerTeam at hin
    have hsz' : ¬ (e.d 0).toNat % 2 ^ 32 + a.size > 2 ^ 32 := by omega
    simp only [hin, htop, hsz', hpr, hal, Bool.not_true, ne_eq, not_true_eq_false, decide_false, Bool.or_false,
      Bool.false_eq_true, if_false]
    split
    · rw [P.run_bind_ok (rangeCheck_run hu ..)]
      rfl
    · rfl

end Sys2Proof.Machine
end

section
/-!
What a load finds at the homes of its words or in the core's L1, and what it does once it is complete (03 R117 to R119, R132).
-/
namespace Sys2Proof.Machine

variable {s : State} {w w' : Work} {x : Thread} {a : Acc} {e : Entry} {tg : Target} {ea : DWord} {t : ThreadId}

theorem Touched.st (h : Touched w w') : w'.st = { w.st with cores := w'.st.cores } := congrArg Work.st h.eq
theorem Touched.log (h : Touched w w') : w'.log = w.log := by rw [h.eq]
theorem Touched.word (h : Touched w w') : w'.st.word = w.st.word := by rw [h.st]; rfl
theorem Touched.poisoned (h : Touched w w') : w'.st.poisoned = w.st.poisoned := by rw [h.st]; rfl
theorem Touched.l1 (h : Touched w w') {c : Nat} (hl : (w.st.core c).l1 = []) : (w'.st.core c).l1 = [] := by rw [h.core]; exact hl

theorem choose_zero (h : w.st.choices = []) (n : Nat) : choose n w = (0, w) := by
  unfold choose
  simp only [W.run_ite, W.run_bind, W.run_getSt, h]
  split <;> rfl

/-- What a load finds at the home of each word: its value, its poison and the mark `m`. -/
def State.homes (s : State) (ws : List Nat) (m : Nat → Option Scope) : List (Word × Bool × Option Scope) :=
  ws.map fun a => (s.word a, s.poisoned a 4, m a)

theorem homeWords_run (h : w.log = []) (ws : List Nat) : homeWords ws w = (w.st.homes ws w.st.markAt, w) := by
  unfold homeWords
  simp only [W.run_bind, W.run_getSt]
  rw [W.forIn_gather (w := w) ws _ (fun a => (w.st.word a, w.st.poisoned a 4, w.st.markAt a)) []]
  · rfl
  · intro a _ acc
    simp only [W.run_bind, homeWord_run h]
    rfl

theorem subOf_none (h : w.st.Undisturbed) (c a : Nat) : (w.st.core c).subOf a = none := by
  simp [CoreSt.subOf, (h.core c).subs]

theorem mirrorOf_none (h : w.st.Undisturbed) (c a : Nat) : w.st.mirrorOf c a = none := by
  simp [State.mirrorOf, subOf_none h]

/-- Steps before the rest of a computation that change nothing, made or not. -/
theorem P.run_ite_skip {α : Type} {c : Prop} [Decidable c] {x : P PUnit} {y : P α} (h : c → x.run w = (.ok (), w)) :
    (if c then x >>= fun _ => y else y).run w = y.run w := by
  split
  · exact P.run_bind_ok (h ‹_›) _
  · rfl

theorem wordsOf_any {n : Nat} (hn : 0 < n) (a : Nat) : (wordsOf a n).any (fun _ => true) = true := by
  unfold wordsOf
  rw [List.any_map, List.any_eq_true]
  exact ⟨0, by rw [List.mem_range]; omega, rfl⟩

/-- A weak or narrow load of a word that the L1 does not hold reads it at its home. -/
theorem l1Load_run {c : Nat} (hl : (w.st.core c).l1 = []) (hlog : w.log = []) (a : Nat) (useL1 : Bool) :
    (l1Load c a useL1).run w = (.ok (w.st.word a, w.st.poisoned a 4, w.st.markAt a), w) := by
  unfold l1Load
  rw [P.run_getSt_bind, l1Word?_none hl]
  refine (P.run_bind_ok (P.run_lift _ w) _).trans ?_
  rw [homeWord_run hlog]
  rfl

/-- A load finds the words at their homes when the core's L1 holds nothing (R117, R118). -/
theorem loadSpan_run (hu : w.st.Undisturbed) (hl : (w.st.core t.core).l1 = []) (hlog : w.log = []) {pa n : Nat} (hn : 0 < n)
    (hp : pa + n ≤ hostBase) (o : Order) (sc : Scope) (fa : DWord) :
    ∃ w' m, Touched w w' ∧ (o = .weak → w' = w) ∧
      (loadSpan t pa n o sc fa).run w = (.ok (w.st.homes (wordsOf pa n) m), w') := by
  unfold loadSpan
  rw [P.run_bind_ok (mergeLine_run hu ..), P.run_bind_ok (mergeLine_run hu ..), P.run_getSt_bind, P.run_ite]
  split
  · refine ⟨w, fun _ => none, .refl w, fun _ => rfl, ?_⟩
    refine (P.run_bind_ok (P.forIn_gather (w := w) _ _ (fun a => (w.st.word a, w.st.poisoned a 4, none)) [] ?_) _).trans rfl
    intro a _ acc
    rw [P.run_bind_ok (P.run_lift _ w), homeWord_run hlog]
    rfl
  · split
    next u hm =>
      rw [mirrorOf_none hu] at hm
      cases hm
    next =>
    rw [P.run_ite]
    split
    next hwide =>
      rw [subOf_none hu] at hwide
      obtain ⟨w', ht, hf⟩ := flushSpan_run hl pa n fa
      refine ⟨w', w'.st.markAt, ht, fun hw => by simp [hw] at hwide, ?_⟩
      rw [P.run_bind_ok hf, P.run_bind_ok (takeBack_run (ht.undisturbed hu) ..),
        P.run_bind_ok (needSpan_run (ht.undisturbed hu).noHost hn hp ..)]
      refine (P.run_lift _ w').trans ?_
      rw [homeWords_run (ht.log.trans hlog), State.homes, ht.word, ht.poisoned]
      rfl
    next =>
      refine ⟨w, w.st.markAt, .refl w, fun _ => rfl, ?_⟩
      dsimp only
      refine (P.run_ite_skip fun _ => P.forIn_skip _ _ _ fun k _ => ?_).trans ?_
      · rw [l1Word?_none hl]
        rfl
      · have hnone : (wordsOf pa n).any (fun _ => false) = false := by simp
        rw [P.run_getSt_bind]
        simp only [l1Word?_none hl, List.any_map, Function.comp_def, wordsOf_any hn, hnone, Option.isNone_none,
          Bool.false_eq_true, if_false, if_true, Bool.and_false]
        rw [P.run_bind_ok (P.run_pure _ w), P.run_bind_ok (takeBack_run hu ..), P.run_bind_ok (needSpan_run hu.noHost hn hp ..)]
        refine (P.run_bind_ok (P.forIn_gather (w := w) _ _ (fun k => (w.st.word k, w.st.poisoned k 4, w.st.markAt k)) []
          fun k _ out => (P.run_bind_ok (l1Load_run hl hlog ..) _).trans rfl) _).trans ?_
        rw [P.run_bind_ok (P.run_lift _ w), choose_zero hu.plain]
        rfl

/-- An aligned word that the L1 holds serves a weak load of it (R117; as its choice says, log 16: without choices it does). -/
theorem loadSpan_served (hu : w.st.Undisturbed) {pa : Nat} (hp : pa + 4 ≤ 2 ^ 42) (ha : pa % 4 = 0) {v : Word} {d p : Bool}
    (hv : (w.st.core t.core).l1Word? pa = some (v, d, p)) (sc : Scope) (fa : DWord) :
    ∃ m, (loadSpan t pa 4 .weak sc fa).run w = (.ok [(v, p, m)], w) := by
  have hs : isScratch pa = false := by
    unfold isScratch
    rw [decide_eq_false (by omega), Bool.false_and]
  have hload : ∃ m, (l1Load t.core pa true).run w = (.ok (v, p, m), w) := by
    unfold l1Load
    rw [P.run_getSt_bind, hv]
    simp only [Bool.or_true, if_true]
    exact ⟨_, rfl⟩
  obtain ⟨m, hload⟩ := hload
  refine ⟨m, ?_⟩
  unfold loadSpan
  rw [P.run_bind_ok (mergeLine_run hu ..), P.run_bind_ok (mergeLine_run hu ..), P.run_getSt_bind, wordsOf_word ha]
  simp only [hs, mirrorOf_none hu, subOf_none hu, ne_eq, not_true_eq_false, decide_false, Bool.false_and, Option.isSome_none,
    Bool.or_self, Bool.false_eq_true, if_false]
  rw [P.run_getSt_bind]
  simp only [List.map_cons, List.map_nil, hv, List.any_cons, List.any_nil, Option.isNone_some, Bool.or_false, decide_true,
    Bool.true_and, Bool.false_eq_true, if_false]
  have htail : (do
      forIn [pa] [] fun k out => do
        let x ← l1Load t.core k true
        pure (ForInStep.yield (out ++ [x])) : P (List (Word × Bool × Option Scope))).run w = (.ok [(v, p, m)], w) :=
    (P.forIn_cons pa [] [] _ w (P.run_bind_ok hload _)).trans rfl
  cases d with
  | true =>
    simp only [Bool.not_true, Bool.false_and, Bool.false_eq_true, if_false]
    exact (P.run_bind_ok (P.run_pure true w) _).trans ((P.run_bind_ok htail _).trans rfl)
  | false =>
    have hchoose : (do return decide ((← choose 2) = 0) : P Bool).run w = (.ok true, w) :=
      (P.run_bind_ok (P.run_lift _ w) _).trans (by rw [choose_zero hu.plain]; rfl)
    simp only [Bool.not_false, if_true]
    rw [P.run_bind_ok hchoose]
    simp only [Bool.not_true, Bool.and_false, Bool.false_eq_true, if_false]
    exact (P.run_bind_ok htail _).trans rfl

/-- Where nothing stands in the way and core `c` holds no line, the computation changes nothing. -/
def Idles {α : Type} (c : Nat) (x : W α) : Prop := ∀ w, w.st.Undisturbed → (w.st.core c).l1 = [] → Touched w (x w).2

section
variable {α β : Type} {c : Nat}

theorem idles_pure (a : α) : Idles c (pure a : W α) := fun w _ _ => .refl w
theorem idles_bind {x : W α} {g : α → W β} (hx : Idles c x) (hg : ∀ a, Idles c (g a)) : Idles c (x >>= g) :=
  fun w hu hl => (hx w hu hl).trans (hg _ _ ((hx w hu hl).undisturbed hu) ((hx w hu hl).l1 hl))
theorem idles_ite {p : Prop} [Decidable p] {x y : W α} (hx : Idles c x) (hy : Idles c y) : Idles c (if p then x else y) := by
  split <;> assumption
theorem idles_forIn {xs : List α} {b : β} {g : α → β → W (ForInStep β)} (h : ∀ a ∈ xs, ∀ b, Idles c (g a b)) :
    Idles c (forIn xs b g) := by
  induction xs generalizing b with
  | nil => exact fun w _ _ => .refl w
  | cons a as ih =>
    rw [List.forIn_cons]
    refine idles_bind (h a List.mem_cons_self b) fun r => ?_
    cases r with
    | done b' => exact idles_pure b'
    | yield b' => exact ih fun x hx => h x (List.mem_cons_of_mem _ hx)

theorem idles_acquireAct (c : Nat) (sc : Scope) : Idles c (acquireAct c sc) := fun _ hu hl => acquireAct_touched hu hl sc
theorem idles_markDue (t : ThreadId) (narrow : Bool) : Idles c (markDue t narrow) := fun w hu _ => by
  rw [markDue_run hu]
  exact .refl w

/-- What a load does once it is complete finds nothing to act on (R119, R132). -/
theorem idles_loadActs (t : ThreadId) (o : Order) (acq : Bool) (sc : Scope) (got : List (Word × Bool × Option Scope)) :
    Idles t.core (loadActs t o acq sc got) := by
  have hrest : Idles t.core (do
      markDue t (!Scope.wide sc)
      for x in got do
        match x.2.2 with
        | some m => acquireAct t.core m
        | none => pure ()) := by
    refine idles_bind (idles_markDue t _) fun _ => idles_bind (idles_forIn fun x _ _ => ?_) fun _ => idles_pure _
    split
    · exact idles_bind (idles_acquireAct _ _) fun _ => idles_pure _
    · exact idles_pure _
  unfold loadActs
  refine idles_ite (idles_bind (idles_acquireAct _ _) fun _ => ?_) ?_ <;> exact idles_ite hrest (idles_pure _)

end

theorem loadActs_weak (sc : Scope) (got : List (Word × Bool × Option Scope)) : loadActs t .weak false sc got w = ((), w) := rfl

end Sys2Proof.Machine
end

section
/-!
What a store does (03 R117, R118, R125): at the coherence point its bytes stand at the address, and in the L1 in the words of its
line.
-/
namespace Sys2Proof.Machine

variable {s : State} {w w' : Work} {x : Thread} {a : Acc} {e : Entry} {tg : Target} {ea : DWord} {t : ThreadId}

/-- The effects on memory of one store, newest first. -/
def storeLog (a : Nat) (bs : List Byte) : List MemOp :=
  (((List.range bs.length).zip bs).map fun x => MemOp.byte (a + x.1) x.2).reverse

theorem storeLog_append (a : Nat) (bs : List Byte) (b : Byte) :
    storeLog a (bs ++ [b]) = .byte (a + bs.length) b :: storeLog a bs := by
  unfold storeLog
  rw [List.length_append, List.length_singleton, List.range_succ, List.zip_append (by simp), List.map_append, List.reverse_append]
  rfl

/-- A byte after a store is the stored one, or what it was. -/
theorem memView_storeLog (gen : Nat) (m : List Host.Cell) (log : List MemOp) (a : Nat) (bs : List Byte) (y : Nat) :
    memView gen m (storeLog a bs ++ log) y = if a ≤ y then (bs[y - a]?).getD (memView gen m log y) else memView gen m log y := by
  induction bs using List.reverseRecOn with
  | nil => simp [storeLog]
  | append_singleton bs b ih =>
    rw [storeLog_append, List.cons_append, memView, ih]
    by_cases hy : a + bs.length = y
    · subst hy
      simp
    · rw [if_neg hy]
      split
      next hle =>
        by_cases hlt : y - a < bs.length
        · simp [List.getElem?_append_left hlt]
        · rw [List.getElem?_eq_none (by omega), List.getElem?_eq_none (by simp; omega)]
      next => rfl

/-- Published marks that a store of `n` bytes at `a` leaves (R132). -/
def State.marksBut (s : State) (a n : Nat) : List PubMark := s.published.filter fun p => !(p.addr < a + n && a < p.addr + 4)

/-- The work after a store at its coherence point. -/
def Work.stored (w : Work) (a : Nat) (bs : List Byte) : Work :=
  { w with log := storeLog a bs ++ w.log, st := { w.st with published := w.st.marksBut a bs.length } }

theorem subsOf_none (h : ∀ c ∈ s.cores, c.subs = []) (a n : Nat) : s.subsOf a n = [] := by
  unfold State.subsOf
  rw [List.flatMap_eq_nil_iff]
  intro c hc
  simp [h c hc]

theorem multicast_run (h : ∀ c ∈ w.st.cores, c.subs = []) (a : Nat) (bs : List Byte) (m : Option Scope) :
    multicast a bs m w = ((), w) := by
  unfold multicast
  simp [subsOf_none h]

theorem storeAt_run (h : ∀ c ∈ w.st.cores, c.subs = []) {a : Nat} {bs : List Byte} (hc : w.st.cleanSpan a bs.length)
    (ha : a < hostBase) (m : Option Scope) : storeAt a bs m false w = ((), w.stored a bs) := by
  have hp : w.st.poison.filter (fun p => !(a ≤ p && p + 4 ≤ a + bs.length)) = w.st.poison := by
    refine List.filter_eq_self.2 fun p hp => ?_
    have := hc p hp
    simp only [Bool.not_eq_true', Bool.and_eq_false_iff, decide_eq_false_iff_not]
    omega
  unfold storeAt
  simp only [isHost_eq_false ha, W.run_bind, W.run_modify, hp, Bool.false_eq_true, if_false]
  rw [W.run_ite]
  split
  · rw [W.run_bind, forIn_skip]
    · rfl
    · intro p _
      rw [W.run_bind, multicast_run (by exact h)]
      rfl
  · rfl

/-- A store to a scratchpad (R112). -/
theorem storeSpan_scratch (hu : w.st.Undisturbed) {pa n : Nat} (hp : 2 ^ 42 ≤ pa) (hh : pa < hostBase) {bs : List Byte}
    (hc : w.st.cleanSpan pa bs.length) (c : Nat) (o : Order) (sc : Scope) (fa : DWord) :
    (storeSpan c pa n bs o sc fa).run w = (.ok (), w.stored pa bs) := by
  have hs : isScratch pa = true := by
    unfold isScratch
    rw [decide_eq_true hp, decide_eq_true hh]
    rfl
  unfold storeSpan
  rw [P.run_getSt_bind, P.run_ite, if_pos hs]
  refine (P.run_lift _ w).trans ?_
  rw [storeAt_run (fun k hk => (hu.cores k hk).subs) hc hh]

theorem isScratch_eq_false {p : Nat} (h : p < 2 ^ 42) : isScratch p = false := by
  unfold isScratch
  rw [decide_eq_false (by omega), Bool.false_and]

/-- A strong store at die scope or wider is performed at the home (R118). -/
theorem storeSpan_home {c : Nat} (hu : w.st.Undisturbed) (hl : (w.st.core c).l1 = []) {pa n : Nat} (hn : 0 < n)
    (hp : pa + n ≤ 2 ^ 42) {bs : List Byte} (hb : bs.length = n) (hc : w.st.cleanSpan pa n) {o : Order} (ho : o ≠ .weak) {sc : Scope}
    (hw : Scope.wide sc = true) (fa : DWord) :
    ∃ w', Touched w w' ∧ (storeSpan c pa n bs o sc fa).run w = (.ok (), w'.stored pa bs) := by
  have hh : pa + n ≤ hostBase := by unfold hostBase; omega
  obtain ⟨w', ht, hf⟩ := flushSpan_run hl pa n fa
  have hu' := ht.undisturbed hu
  refine ⟨w', ht, ?_⟩
  unfold storeSpan
  rw [P.run_getSt_bind, P.run_ite, if_neg (by simp [isScratch_eq_false (show pa < 2 ^ 42 by omega)]),
    P.run_bind_ok (mergeLine_run hu ..), P.run_bind_ok (mergeLine_run hu ..), P.run_ite, if_pos (by simp [ho, hw]),
    P.run_bind_ok hf, P.run_bind_ok (takeBack_run hu' ..), P.run_bind_ok (needSpan_run hu'.noHost hn hh ..)]
  refine (P.run_lift _ w').trans ?_
  rw [storeAt_run (fun k hk => (hu'.cores k hk).subs) (by rw [hb, ht.st]; exact hc) (by omega)]

/-! ### Words in the L1 -/

/-- Every list of a line has its 32 places. -/
def L1Line.Full (l : L1Line) : Prop :=
  l.data.length = 32 ∧ l.valid.length = 32 ∧ l.dirty.length = 32 ∧ l.poison.length = 32

/-- A line with a word put into it. -/
def L1Line.put (l : L1Line) (k : Nat) (v : Word) (dirty poison : Bool) (mark : Option Scope) : L1Line :=
  { l with data := l.data.set k v, valid := l.valid.set k true, dirty := l.dirty.set k dirty
           poison := l.poison.set k poison
           marks := (l.marks.filter fun m => m.1 ≠ k) ++ (mark.map fun x => (k, x)).toList
           whole := if dirty && l.dirtyPair k then l.whole else l.whole.erase (k / 2) }

/-- The line that an address is put into. -/
def CoreSt.lineFor (c : CoreSt) (a : Nat) : L1Line := (c.line? a).getD (emptyLine (a / 128))

/-- A core's record with a word put into its L1. -/
def CoreSt.putWord (c : CoreSt) (a : Nat) (v : Word) (dirty poison : Bool) (mark : Option Scope) : CoreSt :=
  { c with l1 := upsert (fun x => x.line = a / 128) ((c.lineFor a).put (wordIx a) v dirty poison mark) c.l1 }

theorem lineFor_line (c : CoreSt) (a : Nat) : (c.lineFor a).line = a / 128 := by
  unfold CoreSt.lineFor CoreSt.line?
  cases h : c.l1.find? fun l => l.line = a / 128 with
  | none => rfl
  | some l => simpa using List.find?_some h

theorem l1Put_run (c a : Nat) (v : Word) (d p : Bool) (m : Option Scope) (w : Work) :
    l1Put c a v d p m w = ((), { w with st := w.st.putCore c ((w.st.core c).putWord a v d p m) }) := by
  unfold CoreSt.putWord
  rw [← lineFor_line (w.st.core c) a]
  rfl

/-- Every line of the core's L1 is full. -/
def CoreSt.Lined (c : CoreSt) : Prop := ∀ l ∈ c.l1, l.Full

theorem lineFor_full {c : CoreSt} (h : c.Lined) (a : Nat) : (c.lineFor a).Full := by
  unfold CoreSt.lineFor CoreSt.line?
  cases hf : c.l1.find? fun l => l.line = a / 128 with
  | none => exact ⟨rfl, rfl, rfl, rfl⟩
  | some l => exact h l (List.mem_of_find?_eq_some hf)

theorem put_full {l : L1Line} (h : l.Full) (k : Nat) (v : Word) (d p : Bool) (m : Option Scope) : (l.put k v d p m).Full := by
  unfold L1Line.Full at h ⊢
  simpa [L1Line.put] using h

theorem putWord_lined {c : CoreSt} (h : c.Lined) (a : Nat) (v : Word) (d p : Bool) (m : Option Scope) :
    (c.putWord a v d p m).Lined := by
  intro l hl
  rcases mem_upsert hl with rfl | hl
  · exact put_full (lineFor_full h a) ..
  · exact h l hl

theorem length_upsert_le {α : Type} (p : α → Bool) (x : α) (xs : List α) : (upsert p x xs).length ≤ xs.length + 1 := by
  induction xs with
  | nil => rfl
  | cons y ys ih =>
    unfold upsert
    split
    · simp
    · simpa using ih

theorem line?_putWord (c : CoreSt) (a : Nat) (v : Word) (d p : Bool) (m : Option Scope) (b : Nat) :
    (c.putWord a v d p m).line? b
      = if b / 128 = a / 128 then some ((c.lineFor a).put (wordIx a) v d p m) else c.line? b := by
  unfold CoreSt.line? CoreSt.putWord
  have hline : ((c.lineFor a).put (wordIx a) v d p m).line = a / 128 := lineFor_line c a
  dsimp only
  split
  next h =>
    rw [h]
    exact find_upsert _ _ _ (by simp [hline])
  next h =>
    exact find_upsert_ne _ _ _ _ (by simp [hline, Ne.symm h]) fun y hy => by simp at hy; simp [hy, Ne.symm h]

theorem wordIx_lt (a : Nat) : wordIx a < 32 := by unfold wordIx; omega

/-- A word of the L1 after a word was put into it: that word, or what it was. -/
theorem l1Word?_putWord {c : CoreSt} (h : c.Lined) (a : Nat) (v : Word) (d p : Bool) (m : Option Scope) (b : Nat) :
    (c.putWord a v d p m).l1Word? b = if b / 4 = a / 4 then some (v, d, p) else c.l1Word? b := by
  obtain ⟨hd, hv, hdi, hp⟩ := lineFor_full h a
  have hk := wordIx_lt a
  unfold CoreSt.l1Word?
  rw [line?_putWord]
  by_cases hl : b / 128 = a / 128
  · rw [if_pos hl, Option.bind_some]
    unfold L1Line.bit L1Line.put
    by_cases hb : b / 4 = a / 4
    · have hix : wordIx b = wordIx a := by unfold wordIx; omega
      simp [hb, hix, hd, hv, hdi, hp, hk]
    · have hix : wordIx a ≠ wordIx b := by unfold wordIx; omega
      simp only [List.getElem?_set_ne hix, hb, if_false]
      unfold CoreSt.lineFor
      have hline : c.line? b = c.line? a := by unfold CoreSt.line?; rw [hl]
      rw [hline]
      cases c.line? a with
      | none => simp only [Option.getD_none, emptyLine, List.getElem?_replicate, wordIx_lt, if_true, Option.getD_some,
          Bool.false_eq_true, if_false, Option.bind_none]
      | some l => rfl
  · rw [if_neg hl, if_neg (by omega)]

end Sys2Proof.Machine
end

section
/-!
Words that stores put into a core's L1 (03 R3, R117, R118).
-/
namespace Sys2Proof.Machine

variable {s : State} {w w' w'' : Work} {x : Thread} {a : Acc} {e : Entry} {tg : Target} {ea : DWord} {t : ThreadId}

/-- Only the records of cores have changed, and they meet no access still. -/
structure Stashed (w w' : Work) : Prop where
  eq   : w' = { w with st := { w.st with cores := w'.st.cores } }
  calm : w.st.Undisturbed → w'.st.Undisturbed

theorem Stashed.refl (w : Work) : Stashed w w := ⟨rfl, id⟩
theorem Stashed.trans (h : Stashed w w') (h' : Stashed w' w'') : Stashed w w'' where
  eq := by
    have e := h'.eq
    rw [h.eq] at e
    exact e
  calm hu := h'.calm (h.calm hu)
theorem Stashed.st (h : Stashed w w') : w'.st = { w.st with cores := w'.st.cores } := congrArg Work.st h.eq
theorem Touched.stashed (h : Touched w w') : Stashed w w' := ⟨h.eq, h.undisturbed⟩

theorem Stashed.of_putCore {c : Nat} {x : CoreSt} (hx : w.st.Undisturbed → x.Bare) :
    Stashed w { w with st := w.st.putCore c x } where
  eq := rfl
  calm hu := by
    refine ⟨fun k hk => ?_, hu.noHost, hu.plain, hu.noLag⟩
    rcases mem_upsert hk with rfl | hk
    · exact hx hu
    · exact hu.cores k hk

theorem l1Room_pos (c : CoreSt) : 1024 ≤ c.l1Room := by
  have : carveBytes c.carve ≤ 1024 * 1152 := by
    unfold carveBytes
    split <;> omega
  unfold CoreSt.l1Room Config.coreStorage
  omega

theorem room_of_empty {c : CoreSt} (h : c.l1 = []) : c.l1.length < c.l1Room := by
  rw [h]
  exact (Nat.zero_lt_succ 1023).trans_le (l1Room_pos c)

/-- A core whose L1 has room needs to make none. -/
theorem l1Make_run {c : Nat} (h : (w.st.core c).l1.length < (w.st.core c).l1Room) (a : Nat) (fa : DWord) :
    (l1Make c a fa).run w = (.ok (), w) := by
  unfold l1Make
  rw [P.run_getSt_bind, P.run_ite]
  split
  · unfold l1Shrink
    split
    · rfl
    · rw [P.run_getSt_bind, P.run_ite, if_pos h]
      rfl
  · rfl

/-- A core's record with words put into its L1, dirty. -/
def CoreSt.putWords (c : CoreSt) (xs : List (Nat × Word)) : CoreSt := xs.foldl (fun c x => c.putWord x.1 x.2 true false none) c

theorem putWords_append (c : CoreSt) (xs : List (Nat × Word)) (x : Nat × Word) :
    c.putWords (xs ++ [x]) = (c.putWords xs).putWord x.1 x.2 true false none := List.foldl_append ..

theorem putWords_lined {c : CoreSt} (h : c.Lined) (xs : List (Nat × Word)) : (c.putWords xs).Lined := by
  induction xs using List.reverseRecOn with
  | nil => exact h
  | append_singleton xs x ih =>
    rw [putWords_append]
    exact putWord_lined ih _ _ _ _ _

theorem putWords_room (c : CoreSt) (xs : List (Nat × Word)) : (c.putWords xs).l1Room = c.l1Room := by
  induction xs using List.reverseRecOn with
  | nil => rfl
  | append_singleton xs x ih => rw [putWords_append]; exact ih
theorem putWords_length_le (c : CoreSt) (xs : List (Nat × Word)) : (c.putWords xs).l1.length ≤ c.l1.length + xs.length := by
  induction xs using List.reverseRecOn with
  | nil => exact Nat.le_refl _
  | append_singleton xs x ih =>
    rw [putWords_append, List.length_append, List.length_singleton]
    exact (length_upsert_le ..).trans (by omega)

/-- Each of the words put at different addresses stands in the L1. -/
theorem l1Word?_putWords {c : CoreSt} (h : c.Lined) {xs : List (Nat × Word)} (hd : xs.Pairwise fun x y => x.1 / 4 ≠ y.1 / 4)
    {x : Nat × Word} (hx : x ∈ xs) : (c.putWords xs).l1Word? x.1 = some (x.2, true, false) := by
  induction xs using List.reverseRecOn with
  | nil => cases hx
  | append_singleton xs y ih =>
    rw [putWords_append, l1Word?_putWord (putWords_lined h xs)]
    obtain ⟨hd, -, hne⟩ := List.pairwise_append.1 hd
    rcases List.mem_append.1 hx with hx | hx
    · rw [if_neg (hne x hx y (List.mem_singleton_self y)), ih hd hx]
    · rw [List.mem_singleton.1 hx, if_pos rfl]

theorem lined_nil {c : CoreSt} (h : c.l1 = []) : c.Lined := by simp [CoreSt.Lined, h]

/-- A loop of puts into core `c`'s L1. -/
theorem forIn_l1Put {α : Type} {c : Nat} (xs : List α) (f : α → Nat × Word) (w : Work) :
    ∃ w', Stashed w w' ∧ w'.st.core c = (w.st.core c).putWords (xs.map f) ∧
      (forIn xs () fun x _ => do
        l1Put c (f x).1 (f x).2 true false none
        pure (ForInStep.yield PUnit.unit) : P Unit).run w = (.ok (), w') := by
  induction xs generalizing w with
  | nil => exact ⟨w, .refl w, rfl, rfl⟩
  | cons x xs ih =>
    set k := (w.st.core c).putWord (f x).1 (f x).2 true false none with hk
    have hid : k.id = c := core_id w.st c
    obtain ⟨w', hs, hc, hr⟩ := ih { w with st := w.st.putCore c k }
    refine ⟨w', (Stashed.of_putCore (x := k) fun hu => hu.core c).trans hs, ?_, ?_⟩
    · rw [hc, core_putCore _ hid, if_pos rfl]
      rfl
    · rw [P.forIn_cons _ _ _ _ _ (P.run_bind_ok ((P.run_lift _ w).trans (by rw [l1Put_run])) _)]
      exact hr

/-- The words of a store to the L1. -/
def storeWords (pa n : Nat) (bs : List Byte) : List (Nat × Word) :=
  (wordsOf pa n).zipIdx.map fun k => (k.1, BitVec.ofNat 32 (leValue ((bs.drop (4 * k.2)).take 4)))

/-- A core's record with the pair of words at `a` of one moment. -/
def CoreSt.joined (c : CoreSt) (a : Nat) : CoreSt := { c with
  l1 := c.l1.map fun l => if l.line = a / 128 then { l with whole := wordIx a / 2 :: l.whole.erase (wordIx a / 2) } else l }

theorem l1Word?_joined (c : CoreSt) (a b : Nat) : (c.joined a).l1Word? b = c.l1Word? b := by
  unfold CoreSt.l1Word? CoreSt.line? CoreSt.joined
  dsimp only
  rw [List.find?_map]
  have hp : ((fun l : L1Line => decide (l.line = b / 128)) ∘ fun l : L1Line =>
      if l.line = a / 128 then { l with whole := wordIx a / 2 :: l.whole.erase (wordIx a / 2) } else l)
      = fun l => decide (l.line = b / 128) := by
    funext l
    rw [Function.comp_apply]
    split <;> rfl
  rw [hp]
  cases c.l1.find? fun l => decide (l.line = b / 128) with
  | none => rfl
  | some l =>
    simp only [Option.map_some, Option.bind_some]
    split <;> rfl

/-- A weak or narrower store of whole words puts them into the core's L1 (R117, R118). -/
theorem storeSpan_words {c : Nat} (hu : w.st.Undisturbed) (hroom : (w.st.core c).l1.length < (w.st.core c).l1Room) {pa n : Nat}
    (hn : 4 ≤ n) (hp : pa < 2 ^ 42) {o : Order} {sc : Scope} (ho : o = .weak ∨ Scope.wide sc = false) (bs : List Byte) (fa : DWord) :
    ∃ w', Stashed w w' ∧
      (∀ b, (w'.st.core c).l1Word? b = ((w.st.core c).putWords (storeWords pa n bs)).l1Word? b) ∧
      ((o ≠ .weak ∧ n = 8) ∨ w'.st.core c = (w.st.core c).putWords (storeWords pa n bs)) ∧
      (storeSpan c pa n bs o sc fa).run w = (.ok (), w') := by
  have hwide : ¬ ((decide (o ≠ .weak) && Scope.wide sc) = true ∨ ((w.st.core c).subOf pa).isSome = true) := by
    rcases ho with h | h <;> simp [h, subOf_none hu]
  obtain ⟨w', hs, hc, hr⟩ := forIn_l1Put (c := c) (wordsOf pa n).zipIdx
    (fun k => (k.1, BitVec.ofNat 32 (leValue ((bs.drop (4 * k.2)).take 4)))) w
  unfold storeSpan
  rw [P.run_getSt_bind, P.run_ite, if_neg (by simp [isScratch_eq_false hp]), P.run_bind_ok (mergeLine_run hu ..),
    P.run_bind_ok (mergeLine_run hu ..), P.run_ite, if_neg (by simpa using hwide), P.run_ite, if_neg (by omega),
    P.run_bind_ok (l1Make_run hroom ..), P.run_bind_ok hr, P.run_ite]
  split
  next h8 =>
    have hid : ((w'.st.core c).joined pa).id = c := core_id w'.st c
    refine ⟨{ w' with st := w'.st.putCore c ((w'.st.core c).joined pa) },
      hs.trans (Stashed.of_putCore (x := (w'.st.core c).joined pa) fun hu => hu.core c), fun b => ?_, .inl (by simpa using h8),
      P.run_lift _ w'⟩
    rw [core_putCore _ hid, if_pos rfl, l1Word?_joined, hc]
    rfl
  next => exact ⟨w', hs, fun b => by rw [hc]; rfl, .inr hc, rfl⟩

end Sys2Proof.Machine
end

section
/-!
The bytes of a weak or narrower store stand in the core's L1 (03 R117, R118).
-/
namespace Sys2Proof.Machine

variable {s : State} {w w' w'' : Work} {x : Thread} {a : Acc} {e : Entry} {tg : Target} {ea : DWord} {t : ThreadId}

theorem storeWords_aligned {pa n : Nat} (ha : pa % 4 = 0) (hn : n % 4 = 0) (bs : List Byte) :
    storeWords pa n bs =
      (List.range (n / 4)).map fun k => (pa + 4 * k, BitVec.ofNat 32 (leValue ((bs.drop (4 * k)).take 4))) := by
  unfold storeWords
  rw [wordsOf_aligned ha hn]
  refine List.ext_getElem (by simp) fun k _ _ => by simp

/-- The bytes of a word put into the L1 stand there. -/
theorem l1Byte?_of_word {c : CoreSt} {b k : Nat} {v : Word} {d p : Bool} (hb : b % 4 = 0) (hk : k < 4)
    (h : c.l1Word? b = some (v, d, p)) : c.l1Byte? (b + k) = (leBytes 4 v.toNat)[k]? := by
  unfold CoreSt.l1Byte?
  rw [show (b + k) / 4 * 4 = b by omega, show (b + k) % 4 = k by omega, h, Option.map_some]
  have hlen : (leBytes 4 v.toNat).length = 4 := length_leBytes ..
  dsimp only
  rw [List.getElem?_eq_getElem (by omega), Option.getD_some]

/-- The bytes of an aligned store of whole words stand in the L1. -/
theorem l1Byte?_storeWords {c : CoreSt} (hc : c.Lined) {pa n : Nat} (ha : pa % 4 = 0) (hn : n % 4 = 0) {bs : List Byte}
    (hb : bs.length = n) {k : Nat} (hk : k < n) : (c.putWords (storeWords pa n bs)).l1Byte? (pa + k) = bs[k]? := by
  have hd : (storeWords pa n bs).Pairwise fun x y => x.1 / 4 ≠ y.1 / 4 := by
    rw [storeWords_aligned ha hn, List.pairwise_map]
    exact List.nodup_range.imp fun h => by dsimp only; omega
  have hmem : (pa + 4 * (k / 4), BitVec.ofNat 32 (leValue ((bs.drop (4 * (k / 4))).take 4))) ∈ storeWords pa n bs := by
    rw [storeWords_aligned ha hn]
    exact List.mem_map.2 ⟨k / 4, List.mem_range.2 (by omega), rfl⟩
  have hword := l1Word?_putWords hc hd hmem
  rw [show pa + k = pa + 4 * (k / 4) + k % 4 by omega, l1Byte?_of_word (by omega) (by omega) hword,
    leBytes_word (by simp; omega), List.getElem?_take, if_pos (by omega), List.getElem?_drop]
  congr 1
  omega

/-- A weak or narrower store of part of a word is merged into the word in the core's L1 (R117). -/
theorem storeSpan_part {c : Nat} (hu : w.st.Undisturbed) (hl : (w.st.core c).l1 = []) (hlog : w.log = []) {pa n : Nat} (h0 : 0 < n)
    (hn : pa % 4 + n ≤ 4) (hn4 : n < 4) (hp : pa < 2 ^ 42) (hcl : w.st.cleanSpan pa n) {o : Order} {sc : Scope}
    (ho : o = .weak ∨ Scope.wide sc = false) {bs : List Byte} (hb : bs.length = n) (fa : DWord) :
    ∃ w', Stashed w w' ∧ (∀ k, k < n → (w'.st.core c).l1Byte? (pa + k) = bs[k]?) ∧
      (storeSpan c pa n bs o sc fa).run w = (.ok (), w') := by
  have hwide : ¬ ((decide (o ≠ .weak) && Scope.wide sc) = true ∨ ((w.st.core c).subOf pa).isSome = true) := by
    rcases ho with h | h <;> simp [h, subOf_none hu]
  have hpoison : w.st.poisoned (pa / 4 * 4) 4 = false := poisoned_of_cleanSpan hcl (by omega) (by omega)
  set old := leBytes 4 (w.st.word (pa / 4 * 4)).toNat with hold
  have hlen : old.length = 4 := length_leBytes ..
  set new := old.take (pa % 4) ++ bs ++ old.drop (pa % 4 + n) with hnew
  have hlen' : new.length = 4 := by simp [hnew, hlen, hb]; omega
  set k := (w.st.core c).putWord (pa / 4 * 4) (BitVec.ofNat 32 (leValue new)) true false none with hk
  have hid : k.id = c := core_id w.st c
  have hhost : pa / 4 * 4 + 4 ≤ hostBase := by unfold hostBase; omega
  refine ⟨{ w with st := w.st.putCore c k }, Stashed.of_putCore (x := k) fun hu => hu.core c, fun j hj => ?_, ?_⟩
  · have hword : k.l1Word? (pa / 4 * 4) = some (BitVec.ofNat 32 (leValue new), true, false) := by
      rw [hk, l1Word?_putWord (lined_nil hl), if_pos rfl]
    rw [core_putCore _ hid, if_pos rfl, show pa + j = pa / 4 * 4 + (pa % 4 + j) by omega,
      l1Byte?_of_word (by omega) (by omega) hword, leBytes_word hlen', hnew, List.append_assoc,
      List.getElem?_append_right (by simp), List.getElem?_append_left (by simp [hlen]; omega)]
    congr 1
    simp [hlen]
    omega
  · unfold storeSpan
    rw [P.run_getSt_bind, P.run_ite, if_neg (by simp [isScratch_eq_false hp]), P.run_bind_ok (mergeLine_run hu ..),
      P.run_bind_ok (mergeLine_run hu ..), P.run_ite, if_neg (by simpa using hwide), P.run_ite, if_pos hn4]
    simp only [l1Word?_none hl]
    rw [P.run_bind_ok (takeBack_run hu ..), P.run_bind_ok (needSpan_run hu.noHost (by omega) hhost ..),
      P.run_bind_ok (P.run_lift _ w), homeWord_run hlog,
      P.run_bind_ok (l1Make_run (room_of_empty hl) ..), hpoison]
    exact (P.run_lift _ w).trans (by rw [l1Put_run])

/-- After a weak or narrower aligned store its bytes stand in the core's L1. -/
theorem storeSpan_l1 {c : Nat} (hu : w.st.Undisturbed) (hl : (w.st.core c).l1 = []) (hlog : w.log = []) {pa n : Nat}
    (hn : n ∈ [1, 2, 4, 8, 16]) (hal : pa % n = 0) (hp : pa < 2 ^ 42) (hcl : w.st.cleanSpan pa n) {o : Order} {sc : Scope}
    (ho : o = .weak ∨ Scope.wide sc = false) {bs : List Byte} (hb : bs.length = n) (fa : DWord) :
    ∃ w', Stashed w w' ∧ (∀ k, k < n → (w'.st.core c).l1Byte? (pa + k) = bs[k]?) ∧
      (storeSpan c pa n bs o sc fa).run w = (.ok (), w') := by
  have hn' : n = 1 ∨ n = 2 ∨ (4 ≤ n ∧ n % 4 = 0 ∧ pa % 4 = 0) := by
    simp only [List.mem_cons, List.not_mem_nil, or_false] at hn
    rcases hn with rfl | rfl | rfl | rfl | rfl <;> omega
  by_cases h4 : n < 4
  · exact storeSpan_part hu hl hlog (by omega) (by rcases hn' with rfl | rfl | h <;> omega) h4 hp hcl ho hb fa
  · obtain ⟨h, hn4, ha⟩ : 4 ≤ n ∧ n % 4 = 0 ∧ pa % 4 = 0 := by omega
    obtain ⟨w', hs, hw, -, hr⟩ := storeSpan_words (c := c) hu (room_of_empty hl) h hp ho bs fa
    refine ⟨w', hs, fun k hk => ?_, hr⟩
    rw [← l1Byte?_storeWords (lined_nil hl) ha hn4 hb hk]
    unfold CoreSt.l1Byte?
    rw [hw]

end Sys2Proof.Machine
end

section
/-!
A lone thread's memory instruction from its issue to its end (R142, R295): where its access is performed, and the state after it
has been.
-/
namespace Sys2Proof.Machine

variable {i : Instr} {s t : State} {th : Thread} {w w' w2 : Work} {x : Thread} {a : Acc} {e : Entry} {tg : Target} {ea : DWord}

theorem exec_of_accOf (h : accOf i = some a) (s : State) : exec i s = run (issueMem i) s := by
  unfold accOf at h
  split at h
  case h_22 => cases h
  all_goals rfl

/-- An access that is not a wait, of a thread without earlier ones, is performed at once (R125 to R131). -/
theorem performOrdered_run (ha : accOf i = some a) (hk : ∀ ne, a.kind ≠ .wait ne) {t : ThreadId} (hx : w.st.thread? t = some x)
    (hu : x.unf = [e]) : (performOrdered i t e).run w = (performMem i t e).run w := by
  have hold : x.olderThan e.id = [] := by simp [Thread.olderThan, hu]
  have hmay : w.st.mayPerform x e = true := by
    unfold State.mayPerform
    rw [hold]
    split <;> rfl
  obtain ⟨kind, space, ty, order, scope⟩ := a
  unfold performOrdered
  rw [P.run_getSt_bind, ha]
  cases kind with
  | wait ne => exact absurd rfl (hk ne)
  | _ =>
    dsimp only
    rw [P.run_getSt_bind, hx]
    simp only [hmay, Bool.not_true, Bool.false_eq_true, if_false]

/-- The state in which a lone thread's access is performed. -/
def State.accessing (s : State) (i : Instr) (th : Thread) (q : List Quarter) : State :=
  (s.putThread ((th.issued i (s.cur.pc + 8)).plus (memEntry i s th))).putQuarters q

/-- The thread's record then. -/
def Thread.accessing (th : Thread) (s : State) (i : Instr) : Thread := (th.issued i (s.cur.pc + 8)).plus (memEntry i s th)

theorem Solo.accessing_has (h : Solo i s th) (q : List Quarter) : (s.accessing i th q).Has (th.accessing s i) :=
  h.has.put (a := th.accessing s i) rfl

theorem Solo.accessing_thread? (h : Solo i s th) (q : List Quarter) :
    (s.accessing i th q).thread? th.tid = some (th.accessing s i) := (h.accessing_has q).thread?

theorem CalmAccess.undisturbed (h : CalmAccess s th) (i : Instr) (q : List Quarter) : (s.accessing i th q).Undisturbed :=
  ⟨h.cores, h.noHost, h.plain, h.noLag⟩

/-- A lone thread's access is attempted once, in the state after the issue. -/
theorem Solo.attempted (h : Solo i s th) (hc : CalmAccess s th) (ha : accOf i = some a) (hk : ∀ ne, a.kind ≠ .wait ne) :
    ∃ q, SameEngines s (s.putQuarters q) ∧ ∀ r w2,
      (performMem i th.tid (memEntry i s th)).run { st := s.accessing i th q } = (r, w2) →
      exec i s = .next (finish s (settleEntry th.tid (memEntry i s th).id r w2).2) := by
  obtain ⟨q, hq, he⟩ := h.entries (captureMem i) (!isWait i) (fun _ => hc.plain) (performOrdered i)
  refine ⟨q, hq, fun r w2 hr => ?_⟩
  have hu : (th.accessing s i).unf = [memEntry i s th] := by rw [Thread.accessing, Thread.plus]; simp [Thread.issued, hc.idle]
  have hfind : (th.accessing s i).entry? (memEntry i s th).id = some (memEntry i s th) := by
    simp [Thread.entry?, hu]
  have hperf := performOrdered_run (w := { st := s.accessing i th q }) ha hk (h.accessing_thread? q) hu
  rw [exec_of_accOf ha, run, issueMem, he]
  unfold attempt
  rw [W.run_bind, W.run_getSt]
  have hent : ((s.accessing i th q).thread? th.tid).bind (fun x => x.entry? (memEntry i s th).id) = some (memEntry i s th) := by
    rw [h.accessing_thread? q, Option.bind_some, hfind]
  have hent' : (((s.putThread ((th.issued i (s.cur.pc + 8)).plus (soloEntry i s th (captureMem i)))).putQuarters q).thread?
      th.tid).bind (fun x => x.entry? (soloEntry i s th (captureMem i)).id) = some (memEntry i s th) := hent
  have hr' : (performOrdered i th.tid (memEntry i s th)).run
      { st := (s.putThread ((th.issued i (s.cur.pc + 8)).plus (soloEntry i s th (captureMem i)))).putQuarters q } = (r, w2) :=
    hperf.trans hr
  simp only [hent', W.run_bind, hr']
  rfl

/-- An access that has been performed: its registers are written, and its instruction is finished. What it has noted in its
entry does not matter. -/
theorem Solo.settled (h : Solo i s th) (hc : CalmAccess s th) (hq : noQueueDest i th) {e : Entry}
    (he : e = { memEntry i s th with aux := e.aux })
    (ht : w2.st.threads = (s.putThread ((th.issued i (s.cur.pc + 8)).plus e)).threads) (hg : w2.st.groups = s.groups)
    (vals : List Word) :
    settleEntry th.tid (memEntry i s th).id (.ok vals) w2 =
      ((), { w2 with st := (w2.st.putThread (th.completed s i vals)).putGroups (s.groupsWith th (destOf i th) vals) }) := by
  have hid : e.id = (memEntry i s th).id := by rw [he]
  have htag : e.tag = s.clock := by rw [he]; rfl
  have hdst : e.dst = destOf i th := by rw [he]; rfl
  set y := th.issued i (s.cur.pc + 8) with hy
  have hnone : ∀ z ∈ y.unf, z.id ≠ e.id := by simp [hy, Thread.issued, hc.idle]
  have h2 : w2.st.Has (y.plus e) := Has_threads (h.has.put (a := y.plus e) rfl) ht
  have hone : w2.st.OnlyTag (y.plus e) e.id e.tag := by
    intro z hz e' he' hte
    rw [ht] at hz
    rcases putThread_mem hz with rfl | ⟨hz, -⟩
    · refine ⟨rfl, ?_⟩
      have : e' ∈ [e] := by simpa [Thread.plus, hy, Thread.issued, hc.idle] using he'
      rw [List.mem_singleton.1 this]
    · exact absurd (hte.trans htag) (h.fresh z hz e' he')
  have hgw : w2.st.groupsWith (y.plus e) e.dst vals = s.groupsWith th (destOf i th) vals := by
    unfold State.groupsWith
    rw [hg, hdst]
    rfl
  have hfin := finishEntry_solo h2 (plus_filter hnone).1 h.calm hone (by rw [hdst]; exact hq) vals
  rw [unparked_plus (x := y) h.ready hnone, hgw, hdst] at hfin
  have hth : w2.st.thread? th.tid = some (y.plus e) := h2.thread?
  have hent : (y.plus e).entry? e.id = some e := find_one (plus_filter hnone).1
  rw [← hid]
  unfold settleEntry
  rw [W.run_bind, W.run_getSt]
  simp only [hth, hent]
  exact hfin

/-- The end of a performed access. -/
def Work.completed (w : Work) (s : State) (i : Instr) (th : Thread) (vals : List Word) : State :=
  finish s { w with st := (w.st.putThread (th.completed s i vals)).putGroups (s.groupsWith th (destOf i th) vals) }

theorem Solo.wrote (h : Solo i s th) {e : Entry} (ht : w2.st.threads = (s.putThread ((th.issued i (s.cur.pc + 8)).plus e)).threads)
    (vals : List Word) : Wrote s (w2.completed s i th vals) i th vals := by
  have h2 : w2.st.Has ((th.issued i (s.cur.pc + 8)).plus e) := Has_threads (h.has.put (a := _) rfl) ht
  refine ⟨?_, rfl, fun v hv => ?_⟩
  · refine (thread?_finish s _ _).trans ?_
    exact (h2.put (a := th.completed s i vals) rfl).thread?
  · refine (thread?_finish s _ _).trans ?_
    refine (thread?_putThread_ne (s := w2.st) (a := th.completed s i vals) hv).trans ?_
    rw [thread?_of_threads ht]
    exact thread?_putThread_ne (s := s) (a := (th.issued i (s.cur.pc + 8)).plus e) hv

/-- A lone thread's access that completes: its registers are written, and the step ends in the state that the access left. -/
theorem Solo.access (h : Solo i s th) (hc : CalmAccess s th) (ha : accOf i = some a) (hk : ∀ ne, a.kind ≠ .wait ne)
    (hq : noQueueDest i th) :
    ∃ q, SameEngines s (s.putQuarters q) ∧ ∀ vals w2 e,
      (performMem i th.tid (memEntry i s th)).run { st := s.accessing i th q } = (.ok vals, w2) →
      e = { memEntry i s th with aux := e.aux } →
      w2.st.threads = (s.putThread ((th.issued i (s.cur.pc + 8)).plus e)).threads → w2.st.groups = s.groups →
      exec i s = .next (w2.completed s i th vals) ∧ Wrote s (w2.completed s i th vals) i th vals := by
  obtain ⟨q, hsq, hx⟩ := h.attempted hc ha hk
  refine ⟨q, hsq, fun vals w2 e hr he ht hg => ⟨?_, h.wrote ht vals⟩⟩
  rw [hx _ _ hr, h.settled hc hq he ht hg]
  rfl

/-! ### What a completed access leaves -/

theorem completed_byte (hm : s.memOk = true) (hr : w.rekey = false) (vals : List Word) (y : Nat) :
    (w.completed s i th vals).byte y = memView s.sec.keyGen s.mem w.log y := finish_byte hm hr y

theorem completed_sameMemory (hl : w.log = []) (hr : w.rekey = false) (vals : List Word) :
    SameMemory s (w.completed s i th vals) := by
  refine sameMemory_of_memPart ?_ ?_ <;> simp [Work.completed, finish, hl, hr, memCommit]

end Sys2Proof.Machine
end

section
/-!
Loads (03 R117, R142, R144, R145): what a load returns, and the theorem that settles O25.
-/
namespace Sys2Proof.Machine

variable {i : Instr} {s : State} {th : Thread} {w w' w2 : Work} {x : Thread} {a : Acc} {e : Entry} {tg : Target} {ea : DWord} {t : ThreadId}

/-- The work of an access as its core's. -/
def Work.as (w : Work) (t : ThreadId) : Work := { w with actor := t.core + 1 }

theorem homes_clean {pa n : Nat} (h : s.cleanSpan pa n) (m : Nat → Option Scope) :
    (s.homes (wordsOf pa n) m).any (fun x => x.2.1) = false := by
  rw [State.homes, List.any_map, List.any_eq_false]
  intro b hb
  obtain ⟨-, hlo, hhi⟩ := mem_wordsOf hb
  simp [poisoned_of_cleanSpan (b := b) (m := 4) h hlo hhi]

theorem homes_words (ws : List Nat) (m : Nat → Option Scope) : (s.homes ws m).map (·.1) = ws.map s.word := by
  simp [State.homes, Function.comp_def]

theorem size_pos (hk : ∀ n, a.kind ≠ .loadRun n ∧ a.kind ≠ .storeRun n) : 0 < a.size := by
  unfold Acc.size
  split
  next h => exact absurd h (hk _).1
  next h => exact absurd h (hk _).2
  next => split <;> omega

theorem acq_load (hk : a.kind = .load) (ho : a.order = .weak) : a.acq = false := by
  simp [Acc.acq, Acc.isRmw, Acc.isFence, hk, ho]

theorem loadActs_touched (hu : w.st.Undisturbed) (hl : (w.st.core t.core).l1 = []) (o : Order) (acq : Bool) (sc : Scope)
    (got : List (Word × Bool × Option Scope)) : Touched w (loadActs t o acq sc got w).2 := idles_loadActs t o acq sc got w hu hl

/-- A load of a core whose L1 holds nothing returns the bytes at its address. -/
theorem performMem_load (hu : w.st.Undisturbed) (hl : (w.st.core t.core).l1 = []) (hlog : w.log = []) (ha : accOf i = some a)
    (hk : a.kind = .load) (hx : w.st.thread? t = some x) (htg : w.st.targetOf x a (e.d 0) = some tg)
    (hcl : w.st.cleanSpan tg.pa a.size) :
    ∃ w', Touched (w.as t) w' ∧ (a.order = .weak → w' = w.as t) ∧
      (performMem i t e).run w = (.ok (extend a.ty (w.st.bytesAt tg.pa a.size)), w') := by
  have hpos : 0 < a.size := size_pos (by simp [hk])
  obtain ⟨w1, m, ht, hweak, hload⟩ := loadSpan_run (w := w.as t) hu hl hlog hpos (targetOf_le_hostBase htg) a.order a.scope (e.d 0)
  have hacts := loadActs_touched (t := t) (ht.undisturbed hu) (ht.l1 hl) a.order a.acq a.scope (w.st.homes (wordsOf tg.pa a.size) m)
  refine ⟨_, ht.trans hacts, fun ho => ?_, ?_⟩
  · rw [ho, acq_load hk ho, loadActs_weak, hweak ho]
  · unfold performMem
    rw [P.run_bind_ok (P.run_modify _ w), P.run_getSt_bind, ha]
    simp only [hx, hk]
    refine (P.run_bind_ok (resolve_run (w := w.as t) hu htg) _).trans ?_
    rw [P.run_bind_ok hload]
    simp only [homes_clean (s := (w.as t).st) hcl, Bool.false_eq_true, if_false]
    rw [P.run_bind_ok (P.run_lift _ w1), homes_words, spanBytes_words]
    rfl

/-- A word that the L1 holds serves a weak load of it. -/
theorem performMem_load_served (hu : w.st.Undisturbed) (ha : accOf i = some a) (hk : a.kind = .load) (ho : a.order = .weak)
    (hs : a.space = 0) (hty : a.ty = .b32) (hx : w.st.thread? t = some x) (htg : w.st.targetOf x a (e.d 0) = some tg)
    {v : Word} {d : Bool} (hv : (w.st.core t.core).l1Word? tg.pa = some (v, d, false)) :
    (performMem i t e).run w = (.ok [v], w.as t) := by
  have hsize : a.size = 4 := by simp [Acc.size, hk, hty]
  have halign : a.align = 4 := by simp [Acc.align, hk, hsize]
  obtain ⟨-, hal, -, hpa, htr, -⟩ := targetOf_generic htg hs
  rw [hsize] at hpa
  rw [halign] at hal
  have hmod := trans_mod htr
  have hpal : tg.pa % 4 = 0 := by omega
  obtain ⟨m, hload⟩ := loadSpan_served (w := w.as t) (t := t) hu hpa hpal hv a.scope (e.d 0)
  have hspan : spanBytes tg.pa 4 [v] = leBytes 4 v.toNat := by
    simp [spanBytes, hpal, List.take_of_length_le (length_leBytes 4 v.toNat).le]
  unfold performMem
  rw [P.run_bind_ok (P.run_modify _ w), P.run_getSt_bind, ha]
  simp only [hx, hk]
  refine (P.run_bind_ok (resolve_run (w := w.as t) hu htg) _).trans ?_
  rw [hsize, ho, P.run_bind_ok hload]
  simp only [List.any_cons, List.any_nil, Bool.or_false, Bool.false_eq_true, if_false, acq_load hk ho]
  rw [P.run_bind_ok (P.run_lift _ _), loadActs_weak, List.map_singleton, hspan, hty]
  exact congrArg (fun r => (Except.ok r, w.as t)) (valueWords_one v)

/-- A loop that gathers one value of each element and changes nothing. -/
theorem P.forIn_gather_touched {α γ : Type} (xs : List α) (g : α → List γ → P (ForInStep (List γ))) (f : α → γ) (acc : List γ)
    (h : ∀ a ∈ xs, ∀ acc w', Touched w w' → ∃ w'', Touched w' w'' ∧ (g a acc).run w' = (.ok (.yield (acc ++ [f a])), w'')) :
    ∃ w', Touched w w' ∧ (forIn xs acc g).run w = (.ok (acc ++ xs.map f), w') := by
  induction xs generalizing w acc with
  | nil => exact ⟨w, .refl w, by simp⟩
  | cons a as ih =>
    obtain ⟨w1, h1, he⟩ := h a List.mem_cons_self acc w (.refl w)
    obtain ⟨w2, h2, hr⟩ := ih (acc ++ [f a]) fun b hb acc w' hw' => h b (List.mem_cons_of_mem _ hb) acc w' (h1.trans hw')
    refine ⟨w2, h1.trans h2, ?_⟩
    rw [P.forIn_cons _ _ _ _ _ he, hr]
    simp

theorem runAddrs_run {n : Nat} {pa : Nat → Nat} (hpa : ∀ k, k < n → w.st.trans (.core x.tid.core) (w.st.pasidOf x.lslot)
      (e.d 0 + BitVec.ofNat 64 (4 * k)).toNat (if a.writes then .write else .read) = .ok (pa k)) :
    (runAddrs x a e n).run w = (.ok ((List.range n).map pa), w) := by
  unfold runAddrs
  rw [P.run_getSt_bind]
  refine (P.run_bind_ok (P.forIn_gather _ _ pa [] fun k hk acc => ?_) _).trans rfl
  exact P.run_bind_ok (translate_run (hpa k (List.mem_range.1 hk)) _) _

/-- A run of loads of a core whose L1 holds nothing returns the words at its addresses (R144). -/
theorem performMem_loadRun (hu : w.st.Undisturbed) (hl : (w.st.core t.core).l1 = []) (hlog : w.log = []) (ha : accOf i = some a)
    {n : Nat} (hk : a.kind = .loadRun n) (hx : w.st.thread? t = some x) (htg : w.st.targetOf x a (e.d 0) = some tg) {pa : Nat → Nat}
    (hpa : ∀ k, k < n → w.st.trans (.core x.tid.core) (w.st.pasidOf x.lslot) (e.d 0 + BitVec.ofNat 64 (4 * k)).toNat .read
      = .ok (pa k) ∧ pa k % 4 = 0 ∧ pa k + 4 ≤ 2 ^ 42 ∧ w.st.cleanSpan (pa k) 4) :
    ∃ w', Touched (w.as t) w' ∧
      (performMem i t e).run w = (.ok ((List.range n).map fun k => w.st.word (pa k)), w') := by
  have hwr : a.writes = false := by simp [Acc.writes, hk]
  have haddrs := runAddrs_run (w := w.as t) (x := x) (a := a) (e := e) (n := n) (pa := pa) fun k hk => by
    rw [hwr, if_neg Bool.false_ne_true]
    exact (hpa k hk).1
  obtain ⟨w1, ht, hloop⟩ := P.forIn_gather_touched (w := w.as t) ((List.range n).map pa) (fun p out => do
      let got ← loadSpan t p 4 a.order a.scope (e.d 0)
      if got.any fun x => x.2.1 then raiseP .ecc (e.d 0)
      loadActs t a.order false a.scope got
      pure (ForInStep.yield (out ++ got.map (·.1)))) w.st.word [] fun p hp out w' hw' => by
    obtain ⟨k, hkn, rfl⟩ := List.mem_map.1 hp
    obtain ⟨-, hal, hle, hcl⟩ := hpa k (List.mem_range.1 hkn)
    have hu' := hw'.undisturbed (w := w.as t) hu
    obtain ⟨w1, m, ht, -, hload⟩ := loadSpan_run (w := w') (t := t) hu' (hw'.l1 hl) (hw'.log.trans hlog) (n := 4) (by omega)
      (pa := pa k) (by unfold hostBase; omega) a.order a.scope (e.d 0)
    have hclean : (w'.st.homes (wordsOf (pa k) 4) m).any (fun x => x.2.1) = false :=
      homes_clean (by rw [hw'.st]; exact hcl) m
    refine ⟨_, ht.trans (loadActs_touched (ht.undisturbed hu') (ht.l1 (hw'.l1 hl)) a.order false a.scope
      (w'.st.homes (wordsOf (pa k) 4) m)), ?_⟩
    rw [P.run_bind_ok hload]
    simp only [hclean, Bool.false_eq_true, if_false]
    rw [P.run_bind_ok (P.run_lift _ w1), homes_words, wordsOf_word hal, hw'.word]
    rfl
  refine ⟨w1, ht, ?_⟩
  unfold performMem
  rw [P.run_bind_ok (P.run_modify _ w), P.run_getSt_bind, ha]
  simp only [hx, hk]
  refine (P.run_bind_ok (resolve_run (w := w.as t) hu htg) _).trans ?_
  rw [P.run_bind_ok haddrs]
  refine (P.run_bind_ok hloop _).trans ?_
  simp [Function.comp_def]

/-! ### The statement -/

/-- The work in which a lone thread's access is performed. -/
abbrev State.accessWork (s : State) (i : Instr) (th : Thread) (q : List Quarter) : Work := { st := s.accessing i th q }

/-- An access that changes at most the cores' records ends its step in the state it has left. -/
theorem completed_stashed {q : List Quarter} (hw : Stashed ((s.accessWork i th q).as th.tid) w) (vals : List Word) :
    w.completed s i th vals = { s.putQuarters q with
      cores := w.st.cores
      threads := ((s.accessing i th q).putThread (th.completed s i vals)).threads
      groups := s.groupsWith th (destOf i th) vals } := by
  have hlog : w.log = [] := by rw [hw.eq]; rfl
  have hrekey : w.rekey = false := by rw [hw.eq]; rfl
  have hmem : w.st.mem = s.mem := by rw [hw.st]; rfl
  have hsec : w.st.sec = s.sec := by rw [hw.st]; rfl
  refine (finish_quiet (w := { w with st := (w.st.putThread (th.completed s i vals)).putGroups (s.groupsWith th (destOf i th) vals) })
    hlog hrekey hmem (congrArg Security.keyGen hsec)).trans ?_
  dsimp only
  rw [hw.st]
  rfl

theorem completed_sameButCores {q : List Quarter} (hq : SameEngines s (s.putQuarters q))
    (hw : Stashed ((s.accessWork i th q).as th.tid) w) (vals : List Word) : SameButCores s (w.completed s i th vals) := by
  rw [completed_stashed hw]
  exact ⟨rfl, rfl, rfl, hq⟩

theorem completed_sameRest {q : List Quarter} (hq : SameEngines s (s.putQuarters q)) (vals : List Word) :
    SameRest s (((s.accessWork i th q).as th.tid).completed s i th vals) := by
  rw [completed_stashed (.refl _)]
  exact ⟨rfl, rfl, rfl, hq⟩

/-- A lone thread's access that completes and changes at most the cores' records. -/
theorem Solo.access_stashed (h : Solo i s th) (hc : CalmAccess s th) (ha : accOf i = some a) (hk : ∀ ne, a.kind ≠ .wait ne)
    (hq : noQueueDest i th) :
    ∃ q, SameEngines s (s.putQuarters q) ∧ ∀ vals w2,
      (performMem i th.tid (memEntry i s th)).run (s.accessWork i th q) = (.ok vals, w2) →
      Stashed ((s.accessWork i th q).as th.tid) w2 →
      exec i s = .next (w2.completed s i th vals) ∧ Wrote s (w2.completed s i th vals) i th vals ∧
        SameMemory s (w2.completed s i th vals) := by
  obtain ⟨q, hsq, hx⟩ := h.access hc ha hk hq
  refine ⟨q, hsq, fun vals w2 hr hs => ?_⟩
  obtain ⟨he, hw⟩ := hx vals w2 (memEntry i s th) hr rfl (by rw [hs.st]; rfl) (by rw [hs.st]; rfl)
  exact ⟨he, hw, completed_sameMemory (by rw [hs.eq]; rfl) (by rw [hs.eq]; rfl) vals⟩

/-- Settles O25: a load returns what stands at the homes of its words, or the word that the L1 holds. -/
theorem loadsReturnTheBytesAtTheAddress : Obligations.LoadsReturnTheBytesAtTheAddress := by
  unfold Obligations.LoadsReturnTheBytesAtTheAddress
  intro i s th a ha h hc hq
  refine ⟨fun tg hk htg hl hcl => ?_, fun tg v d hk ho hs hty htg hv => ?_, fun n tg pa hk htg hpa hl => ?_⟩
  · obtain ⟨q, hsq, hx⟩ := h.access_stashed hc ha (by simp [hk]) hq
    obtain ⟨w', ht, hweak, hr⟩ := performMem_load (w := s.accessWork i th q) (hc.undisturbed i q) hl rfl ha hk
      (h.accessing_thread? q) htg hcl
    obtain ⟨he, hw, hm⟩ := hx _ w' hr ht.stashed
    refine ⟨_, he, hw, hm, fun ho => ?_⟩
    rw [hweak ho]
    exact completed_sameRest hsq _
  · obtain ⟨q, hsq, hx⟩ := h.access_stashed hc ha (by simp [hk]) hq
    have hr := performMem_load_served (w := s.accessWork i th q) (hc.undisturbed i q) ha hk ho hs hty (h.accessing_thread? q) htg hv
    obtain ⟨he, hw, hm⟩ := hx _ _ hr (.refl _)
    exact ⟨_, he, hw, hm, completed_sameRest hsq _⟩
  · obtain ⟨q, -, hx⟩ := h.access_stashed hc ha (by simp [hk]) hq
    obtain ⟨w', ht, hr⟩ := performMem_loadRun (w := s.accessWork i th q) (hc.undisturbed i q) hl rfl ha hk (h.accessing_thread? q)
      htg hpa
    exact ⟨_, hx _ w' hr ht.stashed⟩

end Sys2Proof.Machine
end

section
/-!
Stores of one value (03 R117, R118, R142): where their bytes stand afterwards.
-/
namespace Sys2Proof.Machine

variable {i : Instr} {s : State} {th : Thread} {w w' w2 : Work} {x : Thread} {a : Acc} {e : Entry} {tg : Target} {ea : DWord} {t : ThreadId}

/-- A store, and a RED, has no destination. -/
theorem destOf_store (ha : accOf i = some a) (hk : a.kind = .store ∨ (∃ n, a.kind = .storeRun n) ∨ ∃ op, a.kind = .red op) :
    destOf i th = [] := by
  unfold accOf at ha
  split at ha
  case h_22 => cases ha
  all_goals
    cases ha
    simp [accM, accI] at hk <;> rfl

theorem size_mem (hk : ∀ n, a.kind ≠ .loadRun n ∧ a.kind ≠ .storeRun n) : a.size ∈ [1, 2, 4, 8, 16] := by
  unfold Acc.size
  split
  next h => exact absurd h (hk _).1
  next h => exact absurd h (hk _).2
  next => split <;> decide

/-- A generic access stands at an address aligned as its effective address is. -/
theorem targetOf_aligned (hk : ∀ n, a.kind ≠ .loadRun n ∧ a.kind ≠ .storeRun n) (h0 : a.space = 0)
    (htg : s.targetOf x a ea = some tg) : tg.pa % a.size = 0 := by
  obtain ⟨-, hal, -, -, htr, -⟩ := targetOf_generic htg h0
  have hmod := trans_mod htr
  have halign : a.align = a.size := by
    unfold Acc.align
    split
    next h => exact absurd h (hk _).1
    next h => exact absurd h (hk _).2
    next => rfl
  have hmem := size_mem hk
  rw [halign] at hal
  generalize a.size = n at *
  simp only [List.mem_cons, List.not_mem_nil, or_false] at hmem
  rcases hmem with rfl | rfl | rfl | rfl | rfl <;> omega

/-- The release of a store, where it makes one, finds nothing to do. -/
theorem release_skip (hu : w.st.Undisturbed) {c : Nat} (hl : (w.st.core c).l1 = []) (p : Prop) [Decidable p] (sc : Scope)
    (fa : DWord) {α : Type} (y : P α) : (if p then releaseAct c sc fa >>= fun _ => y else y).run w = y.run w :=
  P.run_ite_skip fun _ => releaseAct_run hu hl sc fa

theorem performMem_store_eq (hu : w.st.Undisturbed) (hl : (w.st.core t.core).l1 = []) (ha : accOf i = some a)
    (hk : a.kind = .store) (hx : w.st.thread? t = some x) (htg : w.st.targetOf x a (e.d 0) = some tg) :
    (performMem i t e).run w = (do
      storeSpan t.core tg.pa a.size (leBytes a.size (e.data 2 (tyRegs a.ty))) a.order a.scope (e.d 0)
      return [] : P (List Word)).run (w.as t) := by
  unfold performMem
  rw [P.run_bind_ok (P.run_modify _ w), P.run_getSt_bind, ha]
  simp only [hx, hk]
  refine (P.run_bind_ok (resolve_run (w := w.as t) hu htg) _).trans ?_
  exact release_skip (w := w.as t) hu hl _ _ _ _

/-- A store to a scratchpad, and a strong one at die scope or wider, is performed at its address. -/
theorem performMem_store_home (hu : w.st.Undisturbed) (hl : (w.st.core t.core).l1 = []) (ha : accOf i = some a)
    (hk : a.kind = .store) (hx : w.st.thread? t = some x) (htg : w.st.targetOf x a (e.d 0) = some tg)
    (hcl : w.st.cleanSpan tg.pa a.size) (hs : a.space ≠ 0 ∨ (a.order ≠ .weak ∧ Scope.wide a.scope = true)) :
    ∃ w', Touched (w.as t) w' ∧
      (performMem i t e).run w = (.ok [], w'.stored tg.pa (leBytes a.size (e.data 2 (tyRegs a.ty)))) := by
  rw [performMem_store_eq hu hl ha hk hx htg]
  have hpos : 0 < a.size := size_pos (by simp [hk])
  have hlen := length_leBytes a.size (e.data 2 (tyRegs a.ty))
  by_cases h0 : a.space = 0
  · obtain ⟨-, -, -, hpa, -⟩ := targetOf_generic htg h0
    obtain ⟨ho, hw⟩ := hs.resolve_left (not_not_intro h0)
    obtain ⟨w', ht, hr⟩ := storeSpan_home (w := w.as t) (c := t.core) hu hl hpos hpa hlen hcl ho hw (e.d 0)
    exact ⟨w', ht, P.run_bind_ok hr _⟩
  · obtain ⟨-, hlo, hhi⟩ := targetOf_scratch htg h0
    exact ⟨w.as t, .refl _, P.run_bind_ok (storeSpan_scratch (w := w.as t) hu hlo (by omega) (by rw [hlen]; exact hcl) ..) _⟩

/-- The bytes of a weak or narrower store stand in the core's L1. -/
theorem performMem_store_l1 (hu : w.st.Undisturbed) (hl : (w.st.core t.core).l1 = []) (hlog : w.log = []) (ha : accOf i = some a)
    (hk : a.kind = .store) (hx : w.st.thread? t = some x) (htg : w.st.targetOf x a (e.d 0) = some tg)
    (hcl : w.st.cleanSpan tg.pa a.size) (h0 : a.space = 0) (ho : a.order = .weak ∨ Scope.wide a.scope = false) :
    ∃ w', Stashed (w.as t) w' ∧ (performMem i t e).run w = (.ok [], w') ∧
      ∀ k, k < a.size → (w'.st.core t.core).l1Byte? (tg.pa + k) = (leBytes a.size (e.data 2 (tyRegs a.ty)))[k]? := by
  rw [performMem_store_eq hu hl ha hk hx htg]
  have hone : ∀ n, a.kind ≠ .loadRun n ∧ a.kind ≠ .storeRun n := by simp [hk]
  have hpos := size_pos hone
  obtain ⟨-, -, -, hpa, -⟩ := targetOf_generic htg h0
  obtain ⟨w', hs, hb, hr⟩ := storeSpan_l1 (w := w.as t) (c := t.core) hu hl hlog (size_mem hone) (targetOf_aligned hone h0 htg)
    (by omega) hcl ho (length_leBytes a.size (e.data 2 (tyRegs a.ty))) (e.d 0)
  exact ⟨w', hs, P.run_bind_ok hr _, hb⟩

/-- A step that has logged one store: its bytes stand at its address, and no other byte has changed. -/
theorem finish_stored (hm : s.memOk = true) (hr : w.rekey = false) {pa n : Nat} {bs : List Byte} (hn : bs.length = n)
    (hl : w.log = storeLog pa bs) : (finish s w).bytesAt pa n = bs ∧ SameMemoryBut s (finish s w) pa n := by
  have hview : ∀ y, (finish s w).byte y = if pa ≤ y then (bs[y - pa]?).getD (s.byte y) else s.byte y := by
    intro y
    rw [finish_byte hm hr, hl, ← List.append_nil (storeLog pa bs), memView_storeLog]
    rfl
  refine ⟨List.ext_getElem (by simp [State.bytesAt, hn]) fun k h1 h2 => ?_, fun y hy => ?_⟩
  · simp [State.bytesAt, hview, h2]
  · rw [hview]
    split
    next hle => rw [List.getElem?_eq_none (by omega), Option.getD_none]
    next => rfl

theorem completed_stored (hm : s.memOk = true) (hr : w.rekey = false) {pa n : Nat} {bs : List Byte} (hn : bs.length = n)
    (hl : w.log = storeLog pa bs) (vals : List Word) :
    (w.completed s i th vals).bytesAt pa n = bs ∧ SameMemoryBut s (w.completed s i th vals) pa n :=
  finish_stored (w := { w with st := _ }) hm hr hn hl

end Sys2Proof.Machine
end

section
/-!
Runs of stores (03 R144), and the theorem that settles O26.
-/
namespace Sys2Proof.Machine

variable {i : Instr} {s : State} {th : Thread} {w w' w2 : Work} {x : Thread} {a : Acc} {e : Entry} {tg : Target} {ea : DWord} {t : ThreadId}

/-- A loop over the first `n` indices keeps what each of its steps carries on. -/
theorem P.forIn_range' {α : Type} (f : Nat → α) (g : α → PUnit → P (ForInStep PUnit)) (I : Nat → Work → Prop) (n k : Nat)
    (h : ∀ j, j < k + n → ∀ w, I j w → ∃ w', I (j + 1) w' ∧ (g (f j) ()).run w = (.ok (.yield ()), w')) (h0 : I k w) :
    ∃ w', I (k + n) w' ∧ (forIn ((List.range' k n).map f) () g).run w = (.ok (), w') := by
  induction n generalizing k w with
  | zero => exact ⟨w, h0, rfl⟩
  | succ n ih =>
    obtain ⟨w1, h1, hr⟩ := h k (by omega) w h0
    obtain ⟨w2, h2, hr2⟩ := ih (k + 1) (fun j hj => h j (by omega)) h1
    refine ⟨w2, by rwa [show k + (n + 1) = k + 1 + n by omega], ?_⟩
    rw [List.range'_succ, List.map_cons, P.forIn_cons _ _ _ _ _ hr]
    exact hr2

theorem P.forIn_range {α : Type} (f : Nat → α) (g : α → PUnit → P (ForInStep PUnit)) (I : Nat → Work → Prop) (n : Nat)
    (h : ∀ j, j < n → ∀ w, I j w → ∃ w', I (j + 1) w' ∧ (g (f j) ()).run w = (.ok (.yield ()), w')) (h0 : I 0 w) :
    ∃ w', I n w' ∧ (forIn ((List.range n).map f) () g).run w = (.ok (), w') := by
  rw [List.range_eq_range']
  obtain ⟨w', hI, hr⟩ := P.forIn_range' f g I n 0 (fun j hj => h j (by omega)) h0
  exact ⟨w', by rwa [Nat.zero_add] at hI, hr⟩

theorem storeRun_lt (ha : accOf i = some a) {n : Nat} (hk : a.kind = .storeRun n) : n < 1024 := by
  unfold accOf at ha
  split at ha
  case h_22 => cases ha
  case h_6 w =>
    have hkind : AccKind.storeRun (runCount w) = .storeRun n := by rw [← hk, ← Option.some.inj ha]; rfl
    have hlt : w.c.toNat < 512 := w.c.isLt
    have hn := AccKind.storeRun.inj hkind
    unfold runCount at hn
    omega
  all_goals
    rw [← Option.some.inj ha] at hk
    cases hk

/-! ### The work of a run -/

/-- A lone thread's access under way: beside the cores and published marks only its own entry's notes have changed. -/
structure Underway (i : Instr) (s : State) (th : Thread) (q : List Quarter) (e : Entry) (w : Work) : Prop where
  entry : e = { memEntry i s th with aux := e.aux }
  st    : w.st = { s.accessing i th q with
                    cores := w.st.cores, published := w.st.published
                    threads := (s.putThread ((th.issued i (s.cur.pc + 8)).plus e)).threads }
  rekey : w.rekey = false
  calm  : w.st.Undisturbed

variable {q : List Quarter}

theorem Underway.threads (h : Underway i s th q e w) : w.st.threads = (s.putThread ((th.issued i (s.cur.pc + 8)).plus e)).threads := by
  rw [h.st]
theorem Underway.groups (h : Underway i s th q e w) : w.st.groups = s.groups := by rw [h.st]; rfl
theorem Underway.cleanSpan (h : Underway i s th q e w) {pa n : Nat} (hc : s.cleanSpan pa n) : w.st.cleanSpan pa n := by
  rw [h.st]; exact hc

theorem underway_start (hc : CalmAccess s th) (q : List Quarter) :
    Underway i s th q (memEntry i s th) ((s.accessWork i th q).as th.tid) := ⟨rfl, rfl, rfl, hc.undisturbed i q⟩

theorem Underway.stashed (h : Underway i s th q e w) (hs : Stashed w w') : Underway i s th q e w' where
  entry := h.entry
  st := by rw [hs.st, h.st]
  rekey := by rw [hs.eq]; exact h.rekey
  calm := hs.calm h.calm

theorem Underway.stored (h : Underway i s th q e w) (pa : Nat) (bs : List Byte) : Underway i s th q e (w.stored pa bs) where
  entry := h.entry
  st := by unfold Work.stored; rw [h.st]
  rekey := h.rekey
  calm := ⟨h.calm.cores, h.calm.noHost, h.calm.plain, h.calm.noLag⟩

/-- The run notes how far it has come. -/
theorem Underway.noted (h : Underway i s th q e w) (hs : Solo i s th) (hc : CalmAccess s th) (ys : List Nat) :
    ∃ w', modEntry th.tid (memEntry i s th).id (fun x => { x with aux := ys }) w = ((), w') ∧
      Underway i s th q { e with aux := ys } w' ∧ w'.log = w.log ∧ w'.st.core = w.st.core := by
  have hid : e.id = (memEntry i s th).id := by rw [h.entry]
  have hhas : w.st.Has ((th.issued i (s.cur.pc + 8)).plus e) := Has_threads (hs.has.put (a := _) rfl) h.threads
  have hf : ({ (th.issued i (s.cur.pc + 8)).plus e with
      unf := ((th.issued i (s.cur.pc + 8)).plus e).unf.map fun x =>
        if x.id = (memEntry i s th).id then { x with aux := ys } else x } : Thread)
      = (th.issued i (s.cur.pc + 8)).plus { e with aux := ys } := by
    simp [Thread.plus, Thread.issued, hc.idle, hid]
  refine ⟨_, modThread_has hhas _ rfl, ⟨?_, ?_, h.rekey, ?_⟩, rfl, rfl⟩
  · rw [h.entry]
  · rw [hf, h.st]
    have hput : ∀ z : State, z.threads = (s.putThread ((th.issued i (s.cur.pc + 8)).plus e)).threads →
        (z.putThread ((th.issued i (s.cur.pc + 8)).plus { e with aux := ys })).threads
          = (s.putThread ((th.issued i (s.cur.pc + 8)).plus { e with aux := ys })).threads := by
      intro z hz
      rw [← State.putThread_put (s := s) (a := (th.issued i (s.cur.pc + 8)).plus e) (by rfl)]
      unfold State.putThread State.setThread
      rw [hz]
      rfl
    rw [← hput _ rfl]
    rfl
  · exact ⟨h.calm.cores, h.calm.noHost, h.calm.plain, h.calm.noLag⟩

theorem aux_memEntry (i : Instr) (s : State) (th : Thread) : (memEntry i s th).aux = [] := rfl

theorem zipIdx_run (n : Nat) (pa : Nat → Nat) : ((List.range n).map pa).zipIdx = (List.range n).map fun k => (pa k, k) :=
  List.ext_getElem (by simp) fun k _ _ => by simp

/-- What a run of stores needs of the addresses of its words: they are translated, aligned, in device or vault memory, clean and
different. -/
def State.RunTo (s : State) (th : Thread) (ea : DWord) (n : Nat) (pa : Nat → Nat) : Prop :=
  ∀ k, k < n → s.trans (.core th.tid.core) (s.pasidOf th.lslot) (ea + BitVec.ofNat 64 (4 * k)).toNat .write = .ok (pa k) ∧
    pa k % 4 = 0 ∧ pa k + 4 ≤ 2 ^ 42 ∧ s.cleanSpan (pa k) 4 ∧ ∀ j, j < k → pa j ≠ pa k

/-- A run of stores: each word's store keeps `J`, so that the whole run does. -/
theorem performMem_storeRun (h : Solo i s th) (hc : CalmAccess s th) (ha : accOf i = some a) {n : Nat} (hk : a.kind = .storeRun n)
    (htg : s.targetOf th a (eaOf i s th) = some tg) {pa : Nat → Nat} (hpa : s.RunTo th (eaOf i s th) n pa) (q : List Quarter)
    (J : Nat → Work → Prop)
    (hJ : ∀ k e w, k < n → Underway i s th q e w → J k w → ∃ w', Underway i s th q e w' ∧
      (storeSpan th.tid.core (pa k) 4 (leBytes 4 ((memEntry i s th).w (2 + k))) a.order a.scope (eaOf i s th)).run w = (.ok (), w') ∧
      ∀ w'', w''.log = w'.log → w''.st.core = w'.st.core → J (k + 1) w'')
    (h0 : J 0 ((s.accessWork i th q).as th.tid)) :
    ∃ w' e, Underway i s th q e w' ∧ J n w' ∧
      (performMem i th.tid (memEntry i s th)).run (s.accessWork i th q) = (.ok [], w') := by
  have hwr : a.writes = true := by simp [Acc.writes, hk]
  have haddrs := runAddrs_run (w := (s.accessWork i th q).as th.tid) (x := th.accessing s i) (a := a) (e := memEntry i s th) (n := n)
    (pa := pa) fun k hk => by
      rw [hwr, if_pos rfl]
      exact (hpa k hk).1
  obtain ⟨w', ⟨e, hu, hj⟩, hr⟩ := P.forIn_range (w := (s.accessWork i th q).as th.tid) (fun k => (pa k, k)) (fun p _ => do
      storeSpan th.tid.core p.1 4 (leBytes 4 ((memEntry i s th).w (2 + p.2))) a.order a.scope (eaOf i s th)
      modEntry th.tid (memEntry i s th).id fun x => { x with aux := [p.2 + 1] }
      pure (ForInStep.yield PUnit.unit)) (fun k w => ∃ e, Underway i s th q e w ∧ J k w) n
    (fun k hkn w hw => by
      obtain ⟨e, hu, hj⟩ := hw
      obtain ⟨w1, hu1, hr1, hj1⟩ := hJ k e w hkn hu hj
      obtain ⟨w2, hr2, hu2, hlog, hcores⟩ := hu1.noted h hc [k + 1]
      refine ⟨w2, ⟨_, hu2, hj1 w2 hlog hcores⟩, ?_⟩
      rw [P.run_bind_ok hr1, P.run_bind_ok ((P.run_lift _ w1).trans (by rw [hr2]))]
      rfl) ⟨_, underway_start hc q, h0⟩
  refine ⟨w', e, hu, hj, ?_⟩
  unfold performMem
  rw [P.run_bind_ok (P.run_modify _ _), P.run_getSt_bind, ha]
  simp only [h.accessing_thread? q, hk, aux_memEntry, List.headD_nil, List.drop_zero]
  refine (P.run_bind_ok (resolve_run (w := (s.accessWork i th q).as th.tid) (hc.undisturbed i q) htg) _).trans ?_
  rw [P.run_bind_ok haddrs, zipIdx_run]
  exact P.run_bind_ok hr _

/-! ### A run that is performed at its addresses -/

/-- The effects of the first `n` words of a run on memory, newest first. -/
def runLog (pa : Nat → Nat) (v : Nat → Nat) : Nat → List MemOp
  | 0 => []
  | n + 1 => storeLog (pa n) (leBytes 4 (v n)) ++ runLog pa v n

section
variable {pa v : Nat → Nat} {gen : Nat} {m : List Host.Cell}

theorem memView_runLog_succ (pa v : Nat → Nat) (gen : Nat) (m : List Host.Cell) (n y : Nat) :
    memView gen m (runLog pa v (n + 1)) y
      = if pa n ≤ y then ((leBytes 4 (v n))[y - pa n]?).getD (memView gen m (runLog pa v n) y) else memView gen m (runLog pa v n) y :=
  memView_storeLog ..

/-- A byte of no word of the run is as it was. -/
theorem memView_runLog_off {n y : Nat} (h : ∀ k, k < n → y < pa k ∨ pa k + 4 ≤ y) : memView gen m (runLog pa v n) y = memGet gen m y := by
  induction n with
  | zero => rfl
  | succ n ih =>
    have hlen : (leBytes 4 (v n)).length = 4 := length_leBytes ..
    rw [memView_runLog_succ, ih fun k hk => h k (by omega)]
    split
    next hle =>
      have := h n (by omega)
      rw [List.getElem?_eq_none (by omega), Option.getD_none]
    next => rfl

/-- A byte of a word of the run is the word's. -/
theorem memView_runLog {n : Nat} (hal : ∀ k, k < n → pa k % 4 = 0) (hne : ∀ k, k < n → ∀ j, j < k → pa j ≠ pa k) {k j : Nat}
    (hk : k < n) (hj : j < 4) : memView gen m (runLog pa v n) (pa k + j) = ((leBytes 4 (v k))[j]?).getD 0 := by
  induction n with
  | zero => omega
  | succ n ih =>
    have hlen : ∀ x, (leBytes 4 x).length = 4 := length_leBytes 4
    rw [memView_runLog_succ]
    by_cases hkn : k = n
    · rw [hkn, if_pos (by omega), show pa n + j - pa n = j by omega, List.getElem?_eq_getElem (by rw [hlen]; exact hj)]
      rfl
    · have hoff := hne n (by omega) k (by omega)
      have hk' := hal k hk
      have hn' := hal n (by omega)
      rw [ih (fun k hk => hal k (by omega)) (fun k hk => hne k (by omega)) (by omega)]
      split
      · rw [List.getElem?_eq_none (l := leBytes 4 (v n)) (by rw [hlen]; omega), Option.getD_none]
      · rfl

end

theorem entry_w_lt (e : Entry) (k : Nat) : e.w k < 2 ^ 32 := BitVec.isLt _

/-- A strong run at die scope or wider stores its words at their addresses. -/
theorem performMem_storeRun_home (h : Solo i s th) (hc : CalmAccess s th) (hl : (s.core th.tid.core).l1 = [])
    (ha : accOf i = some a) {n : Nat} (hk : a.kind = .storeRun n) (htg : s.targetOf th a (eaOf i s th) = some tg) {pa : Nat → Nat}
    (hpa : s.RunTo th (eaOf i s th) n pa) (ho : a.order ≠ .weak) (hw : Scope.wide a.scope = true) (q : List Quarter) :
    ∃ w' e, Underway i s th q e w' ∧ w'.log = runLog pa (fun k => (memEntry i s th).w (2 + k)) n ∧
      (performMem i th.tid (memEntry i s th)).run (s.accessWork i th q) = (.ok [], w') := by
  obtain ⟨w', e, hu, ⟨hlog, -⟩, hr⟩ := performMem_storeRun h hc ha hk htg hpa q
    (fun k w => w.log = runLog pa (fun k => (memEntry i s th).w (2 + k)) k ∧ (w.st.core th.tid.core).l1 = [])
    (fun k e w hkn hu hj => by
      obtain ⟨-, -, hle, hcl, -⟩ := hpa k hkn
      obtain ⟨w', ht, hr⟩ := storeSpan_home (c := th.tid.core) hu.calm hj.2 (by omega) hle
        (length_leBytes 4 ((memEntry i s th).w (2 + k))) (hu.cleanSpan hcl) ho hw (eaOf i s th)
      refine ⟨_, (hu.stashed ht.stashed).stored _ _, hr, fun w'' hlog hcores => ⟨?_, ?_⟩⟩
      · rw [hlog, Work.stored, runLog, ht.log, hj.1]
      · rw [hcores]
        exact ht.l1 hj.2) ⟨rfl, hl⟩
  exact ⟨w', e, hu, hlog, hr⟩

section
variable {pa v : Nat → Nat} {n : Nat}

theorem completed_runLog_value (hm : s.memOk = true) (hr : w.rekey = false) (hl : w.log = runLog pa v n) (hpa : s.RunTo th ea n pa)
    (hv : ∀ k, k < n → v k < 2 ^ 32) {k : Nat} (hk : k < n) (vals : List Word) :
    (w.completed s i th vals).value (pa k) 4 = v k := by
  have hal : ∀ k, k < n → pa k % 4 = 0 := fun k hk => by
    obtain ⟨-, hal, -⟩ := hpa k hk
    exact hal
  have hne : ∀ k, k < n → ∀ j, j < k → pa j ≠ pa k := fun k hk => by
    obtain ⟨-, -, -, -, hne⟩ := hpa k hk
    exact hne
  have hbytes : (w.completed s i th vals).bytesAt (pa k) 4 = leBytes 4 (v k) := by
    refine List.ext_getElem (by simp [length_bytesAt, length_leBytes]) fun j h1 h2 => ?_
    simp only [State.bytesAt, List.getElem_map, List.getElem_range, completed_byte hm hr, hl]
    rw [memView_runLog hal hne hk (by rwa [length_leBytes] at h2), List.getElem?_eq_getElem h2]
    rfl
  rw [value_eq, hbytes, leValue_leBytes]
  exact Nat.mod_eq_of_lt (hv k hk)

theorem completed_runLog_off (hm : s.memOk = true) (hr : w.rekey = false) (hl : w.log = runLog pa v n) {y : Nat}
    (hy : ∀ k, k < n → y < pa k ∨ pa k + 4 ≤ y) (vals : List Word) : (w.completed s i th vals).byte y = s.byte y := by
  rw [completed_byte hm hr, hl, memView_runLog_off hy]
  rfl

/-- The words of a run stand at different word addresses. -/
theorem State.RunTo.pairwise (hpa : s.RunTo th ea n pa) (v : Nat → Word) :
    ((List.range n).map fun k => (pa k, v k)).Pairwise fun x y => x.1 / 4 ≠ y.1 / 4 := by
  rw [List.pairwise_map, List.pairwise_iff_getElem]
  intro j k hj hk hjk
  rw [List.getElem_range, List.getElem_range]
  obtain ⟨-, hk4, -, -, hne⟩ := hpa k (by simpa using hk)
  obtain ⟨-, hj4, -⟩ := hpa j (by simpa using hj)
  have := hne j hjk
  omega

end

/-! ### A run that stays in the L1 -/

theorem storeWords_word {pa v : Nat} (h : pa % 4 = 0) (hv : v < 2 ^ 32) :
    storeWords pa 4 (leBytes 4 v) = [(pa, BitVec.ofNat 32 v)] := by
  have hlen : (leBytes 4 v).length = 4 := length_leBytes ..
  rw [storeWords_aligned h rfl]
  simp [List.range_one, List.take_of_length_le hlen.le, leValue_leBytes, show v % 4294967296 = v from Nat.mod_eq_of_lt hv]

/-- A weak or narrower run puts its words into the core's L1. -/
theorem performMem_storeRun_l1 (h : Solo i s th) (hc : CalmAccess s th) (hl : (s.core th.tid.core).l1 = [])
    (ha : accOf i = some a) {n : Nat} (hk : a.kind = .storeRun n) (htg : s.targetOf th a (eaOf i s th) = some tg) {pa : Nat → Nat}
    (hpa : s.RunTo th (eaOf i s th) n pa) (ho : a.order = .weak ∨ Scope.wide a.scope = false) (q : List Quarter) :
    ∃ w' e, Underway i s th q e w' ∧ w'.log = [] ∧
      w'.st.core th.tid.core = (s.core th.tid.core).putWords
        ((List.range n).map fun k => (pa k, BitVec.ofNat 32 ((memEntry i s th).w (2 + k)))) ∧
      (performMem i th.tid (memEntry i s th)).run (s.accessWork i th q) = (.ok [], w') := by
  obtain ⟨w', e, hu, ⟨hlog, hcore⟩, hr⟩ := performMem_storeRun h hc ha hk htg hpa q
    (fun k w => w.log = [] ∧ w.st.core th.tid.core = (s.core th.tid.core).putWords
      ((List.range k).map fun k => (pa k, BitVec.ofNat 32 ((memEntry i s th).w (2 + k)))))
    (fun k e w hkn hu hj => by
      obtain ⟨-, hal, hle, hcl, -⟩ := hpa k hkn
      obtain ⟨hlog, hcore⟩ := hj
      have hroom : (w.st.core th.tid.core).l1.length < (w.st.core th.tid.core).l1Room := by
        have hlen := putWords_length_le (s.core th.tid.core)
          ((List.range k).map fun k => (pa k, BitVec.ofNat 32 ((memEntry i s th).w (2 + k))))
        have hn := storeRun_lt ha hk
        have hpos := l1Room_pos (s.core th.tid.core)
        rw [hl] at hlen
        simp only [List.length_nil, List.length_map, List.length_range] at hlen
        rw [hcore, putWords_room]
        omega
      obtain ⟨w', hs, -, hw', hr⟩ := storeSpan_words (c := th.tid.core) hu.calm hroom (le_refl 4) (pa := pa k) (by omega) ho
        (leBytes 4 ((memEntry i s th).w (2 + k))) (eaOf i s th)
      refine ⟨w', hu.stashed hs, hr, fun w'' hlog' hcores => ⟨?_, ?_⟩⟩
      · rw [hlog', hs.eq]
        exact hlog
      · rw [hcores, hw'.resolve_left (by simp), storeWords_word hal (entry_w_lt _ _), hcore, List.range_succ,
          List.map_append]
        exact (putWords_append ..).symm) ⟨rfl, rfl⟩
  exact ⟨w', e, hu, hlog, hcore, hr⟩

/-! ### The statement -/

theorem Underway.completed (h : Underway i s th q e w) (vals : List Word) :
    { w.completed s i th vals with mem := s.mem, published := s.published } = { s.putQuarters q with
      cores := w.st.cores
      threads := (w.st.putThread (th.completed s i vals)).threads
      groups := s.groupsWith th (destOf i th) vals } := by
  have hsec : { w.st.sec with keyGen := s.sec.keyGen } = s.sec := by rw [h.st]; rfl
  unfold Work.completed finish
  dsimp only [State.putGroups, State.putThread, State.setThread]
  rw [h.rekey, Bool.toNat_false, Nat.add_zero, hsec, h.st]
  rfl

theorem Underway.sameButCores (h : Underway i s th q e w) (hq : SameEngines s (s.putQuarters q)) (vals : List Word) :
    SameButCores s { w.completed s i th vals with mem := s.mem, published := s.published } := by
  rw [h.completed]
  exact ⟨rfl, rfl, rfl, hq⟩

/-- A lone thread's store that completes: it writes no register. -/
theorem Solo.access_underway (h : Solo i s th) (hc : CalmAccess s th) (ha : accOf i = some a)
    (hk : a.kind = .store ∨ (∃ n, a.kind = .storeRun n) ∨ ∃ op, a.kind = .red op) :
    ∃ q, SameEngines s (s.putQuarters q) ∧ ∀ w2 e,
      (performMem i th.tid (memEntry i s th)).run (s.accessWork i th q) = (.ok [], w2) → Underway i s th q e w2 →
      exec i s = .next (w2.completed s i th []) ∧ Wrote s (w2.completed s i th []) i th [] := by
  have hwait : ∀ ne, a.kind ≠ .wait ne := by
    intro ne h
    rw [h] at hk
    simp at hk
  have hq : noQueueDest i th := by simp [noQueueDest, destOf_store ha hk]
  obtain ⟨q, hsq, hx⟩ := h.access hc ha hwait hq
  exact ⟨q, hsq, fun w2 e hr hu => hx [] w2 e hr hu.entry hu.threads hu.groups⟩

/-- Settles O26: what a store, or each word of a run, logs at its address or puts into the L1. -/
theorem storesWriteTheirBytes : Obligations.StoresWriteTheirBytes := by
  unfold Obligations.StoresWriteTheirBytes
  intro i s th a ha h hc hl
  refine ⟨fun tg hk htg hcl => ⟨fun hs => ?_, fun h0 ho => ?_⟩, fun n tg pa hk htg hpa => ⟨fun ho hw hm => ?_, fun ho => ?_⟩⟩
  · obtain ⟨q, hsq, hx⟩ := h.access_underway hc ha (.inl hk)
    obtain ⟨w', ht, hr⟩ := performMem_store_home (w := s.accessWork i th q) (hc.undisturbed i q) hl ha hk (h.accessing_thread? q)
      htg hcl hs
    obtain ⟨he, hwr⟩ := hx _ _ hr (((underway_start hc q).stashed ht.stashed).stored _ _)
    refine ⟨_, he, hwr, ?_, fun hm => ?_⟩
    · exact (((underway_start hc q).stashed ht.stashed).stored _ _).sameButCores hsq _
    · exact completed_stored hm (by rw [ht.eq]; rfl) (length_leBytes ..) (by rw [ht.eq]; exact List.append_nil _) _
  · obtain ⟨q, hsq, hx⟩ := h.access_underway hc ha (.inl hk)
    obtain ⟨w', hs, hr, hb⟩ := performMem_store_l1 (w := s.accessWork i th q) (hc.undisturbed i q) hl rfl ha hk
      (h.accessing_thread? q) htg hcl h0 ho
    obtain ⟨he, hwr⟩ := hx _ _ hr ((underway_start hc q).stashed hs)
    exact ⟨_, he, hwr, completed_sameMemory (by rw [hs.eq]; rfl) (by rw [hs.eq]; rfl) _, completed_sameButCores hsq hs _, hb⟩
  · obtain ⟨q, hsq, hx⟩ := h.access_underway hc ha (.inr (.inl ⟨n, hk⟩))
    obtain ⟨w', e, hu, hlog, hr⟩ := performMem_storeRun_home h hc hl ha hk htg hpa ho hw q
    obtain ⟨he, hwr⟩ := hx _ _ hr hu
    exact ⟨_, he, hwr, fun k hkn => completed_runLog_value hm hu.rekey hlog hpa (fun k _ => entry_w_lt _ _) hkn [],
      fun y hy => completed_runLog_off hm hu.rekey hlog hy []⟩
  · obtain ⟨q, hsq, hx⟩ := h.access_underway hc ha (.inr (.inl ⟨n, hk⟩))
    obtain ⟨w', e, hu, hlog, hcore, hr⟩ := performMem_storeRun_l1 h hc hl ha hk htg hpa ho q
    obtain ⟨he, hwr⟩ := hx _ _ hr hu
    refine ⟨_, he, hwr, completed_sameMemory hlog hu.rekey _, fun k hkn => ?_⟩
    have hword := l1Word?_putWords (lined_nil hl) (State.RunTo.pairwise hpa fun k => BitVec.ofNat 32 ((memEntry i s th).w (2 + k)))
      (List.mem_map.2 ⟨k, List.mem_range.2 hkn, rfl⟩)
    refine Eq.trans ?_ hword
    rw [← hcore]
    rfl

end Sys2Proof.Machine
end

section
/-!
Read-modify-writes at their places, and contributions to the reduction buffer (03 R122, R146 to R150, R204).
-/
namespace Sys2Proof.Machine

variable {i : Instr} {s : State} {th : Thread} {w w' w2 : Work} {x : Thread} {a : Acc} {e : Entry} {tg : Target} {ea : DWord} {t : ThreadId}
  {q : List Quarter}

/-- The effects of an RMW's store, where it makes one. -/
def updateLog (pa n : Nat) (v : Option Nat) : List MemOp := v.elim [] fun v => storeLog pa (leBytes n v)

/-- The work after an RMW has stored its new value, where it stores one. -/
def Work.updated (w : Work) (pa n : Nat) (v : Option Nat) : Work := v.elim w fun v => w.stored pa (leBytes n v)

theorem updated_log (hl : w.log = []) (pa n : Nat) (v : Option Nat) : (w.updated pa n v).log = updateLog pa n v := by
  cases v with
  | some v => exact (congrArg (storeLog pa (leBytes n v) ++ ·) hl).trans (List.append_nil _)
  | none => exact hl

theorem updated_core (pa n : Nat) (v : Option Nat) (c : Nat) : (w.updated pa n v).st.core c = w.st.core c := by
  cases v <;> rfl

theorem Underway.updated (h : Underway i s th q e w) (pa n : Nat) (v : Option Nat) : Underway i s th q e (w.updated pa n v) := by
  cases v with
  | some v => exact h.stored _ _
  | none => exact h

/-- A read-modify-write from its read on. -/
def rmwRest (t : ThreadId) (a : Acc) (pa : Nat) (f : Nat → Option Nat) (fa : DWord) : P Nat := do
  if ← isPoisoned pa a.size then raiseP .ecc fa
  let old ← readNat pa a.size
  match f old with
  | some new => storeNat pa a.size new
  | none => pure ()
  markDue t (!Scope.wide a.scope)
  if a.acq then acquireAct t.core a.scope
  return old

theorem rmwAt_eq (t : ThreadId) (a : Acc) (tg : Target) (f : Nat → Option Nat) (fa : DWord) : rmwAt t a tg f fa = (do
    if a.rel then releaseAct t.core a.scope fa
    if tg.place = .device || tg.place = .host then
      mergeLine t.core tg.pa fa
      flushSpan t.core tg.pa a.size fa
      takeBack tg.pa a.size fa
      needSpan tg.pa a.size true fa
    rmwRest t a tg.pa f fa) := rfl

theorem rmwRest_run (hu : Underway i s th q e w) (hl : (w.st.core t.core).l1 = []) (hlog : w.log = []) {pa : Nat}
    (hp : pa < hostBase) (hcl : s.cleanSpan pa a.size) (f : Nat → Option Nat) (fa : DWord) :
    ∃ w', Underway i s th q e w' ∧ w'.log = updateLog pa a.size (f (s.value pa a.size)) ∧
      (rmwRest t a pa f fa).run w = (.ok (s.value pa a.size), w') := by
  have hold : w.st.value pa a.size = s.value pa a.size := by rw [hu.st]; rfl
  have hclean : w.st.poisoned pa a.size = false := poisoned_of_cleanSpan (hu.cleanSpan hcl) (by omega) (by omega)
  have hsubs : ∀ c ∈ w.st.cores, c.subs = [] := fun c hc => (hu.calm.cores c hc).subs
  have hread : (isPoisoned pa a.size w) = (false, w) := by rw [← hclean]; rfl
  generalize hv : f (s.value pa a.size) = v
  have hu2 := hu.updated pa a.size v
  have hlog2 := updated_log hlog pa a.size v
  have hacq := idles_acquireAct t.core a.scope (w.updated pa a.size v) hu2.calm (by rw [updated_core]; exact hl)
  have hend : ∃ w', Underway i s th q e w' ∧ w'.log = updateLog pa a.size v ∧ (do
      markDue t (!Scope.wide a.scope)
      if a.acq then acquireAct t.core a.scope
      return s.value pa a.size : P Nat).run (w.updated pa a.size v) = (.ok (s.value pa a.size), w') := by
    rw [P.run_bind_ok (P.run_lift _ _), markDue_run hu2.calm, P.run_ite]
    split
    · exact ⟨_, hu2.stashed hacq.stashed, hacq.log.trans hlog2, P.run_bind_ok (P.run_lift _ _) _⟩
    · exact ⟨_, hu2, hlog2, rfl⟩
  obtain ⟨w', hu', hlog', hr⟩ := hend
  refine ⟨w', hu', hlog', ?_⟩
  unfold rmwRest
  rw [P.run_bind_ok (P.run_lift _ w), hread]
  simp only [Bool.false_eq_true, if_false]
  rw [P.run_bind_ok (P.run_lift _ w), readNat_run hlog, hold]
  simp only [hv]
  cases v with
  | none => exact hr
  | some new =>
    refine (P.run_bind_ok (P.run_lift _ w) _).trans ?_
    rw [storeNat, storeAt_run hsubs (by rw [length_leBytes]; exact hu.cleanSpan hcl) hp]
    exact hr

/-- A read-modify-write of a core whose L1 holds nothing gives the old value and stores the new one. -/
theorem rmwAt_run (hu : Underway i s th q e w) (hl : (w.st.core t.core).l1 = []) (hlog : w.log = []) (hpos : 0 < a.size)
    (hp : tg.pa + a.size ≤ hostBase) (hcl : s.cleanSpan tg.pa a.size) (f : Nat → Option Nat) (fa : DWord) :
    ∃ w', Underway i s th q e w' ∧ w'.log = updateLog tg.pa a.size (f (s.value tg.pa a.size)) ∧
      (rmwAt t a tg f fa).run w = (.ok (s.value tg.pa a.size), w') := by
  rw [rmwAt_eq]
  simp only [release_skip hu.calm hl, P.run_ite]
  split
  · obtain ⟨w1, ht, hflush⟩ := flushSpan_run hl tg.pa a.size fa
    have hu1 := hu.stashed ht.stashed
    rw [P.run_bind_ok (mergeLine_run hu.calm ..), P.run_bind_ok hflush, P.run_bind_ok (takeBack_run hu1.calm ..),
      P.run_bind_ok (needSpan_run hu1.calm.noHost hpos hp ..)]
    exact rmwRest_run hu1 (ht.l1 hl) (ht.log.trans hlog) (by omega) hcl f fa
  · exact rmwRest_run hu hl hlog (by omega) hcl f fa

/-! ### The RMW instructions -/

section
variable {op : Nat} (h : Solo i s th) (hc : CalmAccess s th) (hl : (s.core th.tid.core).l1 = []) (ha : accOf i = some a)
  (htg : s.targetOf th a (eaOf i s th) = some tg) (hcl : s.cleanSpan tg.pa a.size) (q : List Quarter)

include hc hl htg hcl in
theorem rmwAt_access (hk : ∀ n, a.kind ≠ .loadRun n ∧ a.kind ≠ .storeRun n) (f : Nat → Option Nat) :
    ∃ w', Underway i s th q (memEntry i s th) w' ∧ w'.log = updateLog tg.pa a.size (f (s.value tg.pa a.size)) ∧
      (rmwAt th.tid a tg f (eaOf i s th)).run ((s.accessWork i th q).as th.tid) = (.ok (s.value tg.pa a.size), w') :=
  rmwAt_run (underway_start hc q) hl rfl (size_pos hk) (targetOf_le_hostBase htg) hcl f _

include h hc hl ha htg hcl

theorem performMem_rmw (hk : a.kind = .rmw op) (hex : rmwExists op a.ty tg.place = true) :
    ∃ w', Underway i s th q (memEntry i s th) w' ∧
      w'.log = storeLog tg.pa (leBytes a.size (rmwFn op a.ty (s.value tg.pa a.size) (dataOf i s th 2))) ∧
      (performMem i th.tid (memEntry i s th)).run (s.accessWork i th q)
        = (.ok (valueWords (tyRegs a.ty) (s.value tg.pa a.size)), w') := by
  obtain ⟨w', hu, hlog, hr⟩ := rmwAt_access hc hl htg hcl q (by simp [hk])
    fun old => some (rmwFn op a.ty old (dataOf i s th 2))
  refine ⟨w', hu, hlog, ?_⟩
  unfold performMem
  rw [P.run_bind_ok (P.run_modify _ _), P.run_getSt_bind, ha]
  simp only [h.accessing_thread? q, hk]
  refine (P.run_bind_ok (resolve_run (w := (s.accessWork i th q).as th.tid) (hc.undisturbed i q) htg) _).trans ?_
  simp only [hex, Bool.not_true, Bool.false_eq_true, if_false]
  exact P.run_bind_ok hr _

theorem performMem_acas (hk : a.kind = .acas) (hex : rmwExists 16 a.ty tg.place = true) :
    ∃ w', Underway i s th q (memEntry i s th) w' ∧
      w'.log = updateLog tg.pa a.size (if s.value tg.pa a.size = dataOf i s th (tyRegs a.ty)
        then some ((memEntry i s th).data 4 (tyRegs a.ty)) else none) ∧
      (performMem i th.tid (memEntry i s th)).run (s.accessWork i th q)
        = (.ok (valueWords (tyRegs a.ty) (s.value tg.pa a.size)), w') := by
  obtain ⟨w', hu, hlog, hr⟩ := rmwAt_access hc hl htg hcl q (by simp [hk])
    fun old => if old = dataOf i s th (tyRegs a.ty) then some ((memEntry i s th).data 4 (tyRegs a.ty)) else none
  refine ⟨w', hu, hlog, ?_⟩
  unfold performMem
  rw [P.run_bind_ok (P.run_modify _ _), P.run_getSt_bind, ha]
  simp only [h.accessing_thread? q, hk]
  refine (P.run_bind_ok (resolve_run (w := (s.accessWork i th q).as th.tid) (hc.undisturbed i q) htg) _).trans ?_
  simp only [hex, Bool.not_true, Bool.false_eq_true, if_false]
  exact P.run_bind_ok hr _

theorem performMem_red_rel (hk : a.kind = .red op) (hex : rmwExists op a.ty tg.place = true) (ho : a.order = .rel) :
    ∃ w', Underway i s th q (memEntry i s th) w' ∧
      w'.log = storeLog tg.pa (leBytes a.size (rmwFn op a.ty (s.value tg.pa a.size) (dataOf i s th (tyRegs a.ty)))) ∧
      (performMem i th.tid (memEntry i s th)).run (s.accessWork i th q) = (.ok [], w') := by
  obtain ⟨w', hu, hlog, hr⟩ := rmwAt_access hc hl htg hcl q (by simp [hk])
    fun old => some (rmwFn op a.ty old (dataOf i s th (tyRegs a.ty)))
  refine ⟨w', hu, hlog, ?_⟩
  have hrel : a.rel = true := by simp [Acc.rel, ho]
  unfold performMem
  rw [P.run_bind_ok (P.run_modify _ _), P.run_getSt_bind, ha]
  simp only [h.accessing_thread? q, hk]
  refine (P.run_bind_ok (resolve_run (w := (s.accessWork i th q).as th.tid) (hc.undisturbed i q) htg) _).trans ?_
  simp only [hex, hrel, Bool.not_true, Bool.false_eq_true, if_false, if_true]
  exact P.run_bind_ok hr _

end

/-! ### Contributions -/

/-- Only cores and the directories of reduction lines have changed. -/
def Gathered (w w' : Work) : Prop := w' = { w with st := { w.st with cores := w'.st.cores, redDir := w'.st.redDir } }

/-- A line is registered with its home. -/
theorem registerRed_run (hu : w.st.Undisturbed) (core line : Nat) (fa : DWord) :
    ∃ rd, (registerRed core line fa).run w = (.ok (), { w with st := { w.st with redDir := rd } }) := by
  unfold registerRed
  rw [P.run_getSt_bind, P.run_ite]
  split
  · exact ⟨_, rfl⟩
  · refine ⟨w.st.redDir ++ [{ line, cores := [core] }], ?_⟩
    dsimp only
    split
    · exact (P.run_ite_skip fun _ => takeBack_run hu ..).trans rfl
    · rfl

/-- A contribution to a buffer that holds none waits in it. -/
theorem contribute_run (hu : w.st.Undisturbed) (core : Nat) (x : Contribution) (fa : DWord) :
    ∃ w', Gathered w w' ∧ (w'.st.core core).red = [x] ∧ (contribute core x fa).run w = (.ok (), w') := by
  have hred := (hu.core core).red
  have hput : ∀ w', w'.st.core core = w.st.core core → Gathered w w' → ∃ w'', Gathered w w'' ∧
      (w''.st.core core).red = [x] ∧ (modCore core fun c => { c with red := c.red ++ [x] }) w' = ((), w'') := by
    intro w' hcore hw'
    have hid : ({ w'.st.core core with red := (w'.st.core core).red ++ [x] } : CoreSt).id = core := core_id w'.st core
    refine ⟨_, ?_, ?_, modCore_run ..⟩
    · unfold Gathered at *
      rw [hw']
      rfl
    · rw [core_putCore _ hid, if_pos rfl, hcore, hred]
      rfl
  unfold contribute
  rw [P.run_getSt_bind, hred]
  simp only [List.find?_nil, List.map_nil, List.eraseDups_nil, List.length_nil, ge_iff_le, Nat.reduceLeDiff, decide_false,
    Bool.false_and, Bool.false_eq_true, if_false]
  rw [P.run_ite]
  split
  · obtain ⟨rd, hreg⟩ := registerRed_run hu core (x.addr / 128) fa
    obtain ⟨w', hg, hr, hrun⟩ := hput { w with st := { w.st with redDir := rd } } rfl rfl
    refine ⟨w', hg, hr, ?_⟩
    rw [P.run_bind_ok hreg]
    exact (P.run_lift _ _).trans (by rw [hrun])
  · obtain ⟨w', hg, hr, hrun⟩ := hput w rfl rfl
    exact ⟨w', hg, hr, (P.run_lift _ w).trans (by rw [hrun])⟩

theorem performMem_red (h : Solo i s th) (hc : CalmAccess s th) (ha : accOf i = some a)
    (htg : s.targetOf th a (eaOf i s th) = some tg) {op : Nat} (hk : a.kind = .red op) (hex : rmwExists op a.ty tg.place = true)
    (ho : a.order ≠ .rel) (q : List Quarter) :
    ∃ w', Gathered ((s.accessWork i th q).as th.tid) w' ∧
      (w'.st.core th.tid.core).red = [{ addr := tg.pa, op, ty := a.ty, val := dataOf i s th (tyRegs a.ty) }] ∧
      (performMem i th.tid (memEntry i s th)).run (s.accessWork i th q) = (.ok [], w') := by
  obtain ⟨w', hg, hred, hr⟩ := contribute_run (w := (s.accessWork i th q).as th.tid) (hc.undisturbed i q) th.tid.core
    { addr := tg.pa, op, ty := a.ty, val := dataOf i s th (tyRegs a.ty) } (eaOf i s th)
  refine ⟨w', hg, hred, ?_⟩
  have hrel : a.rel = false := by simp [Acc.rel, Acc.isRmw, Acc.isFence, ho, hk]
  unfold performMem
  rw [P.run_bind_ok (P.run_modify _ _), P.run_getSt_bind, ha]
  simp only [h.accessing_thread? q, hk]
  refine (P.run_bind_ok (resolve_run (w := (s.accessWork i th q).as th.tid) (hc.undisturbed i q) htg) _).trans ?_
  simp only [hex, hrel, Bool.not_true, Bool.false_eq_true, if_false]
  exact P.run_bind_ok hr _

/-- An RMW that does not exist at its place raises ATYPE there. -/
theorem performMem_atype (h : Solo i s th) (hc : CalmAccess s th) (ha : accOf i = some a)
    (htg : s.targetOf th a (eaOf i s th) = some tg) {op : Nat} (hk : a.kind = .rmw op ∨ a.kind = .red op)
    (hex : rmwExists op a.ty tg.place = false) (q : List Quarter) :
    (performMem i th.tid (memEntry i s th)).run (s.accessWork i th q)
      = (.error (.cause .atype 0 (eaOf i s th)), (s.accessWork i th q).as th.tid) := by
  unfold performMem
  rw [P.run_bind_ok (P.run_modify _ _), P.run_getSt_bind, ha]
  rcases hk with hk | hk <;>
  · simp only [h.accessing_thread? q, hk]
    refine (P.run_bind_ok (resolve_run (w := (s.accessWork i th q).as th.tid) (hc.undisturbed i q) htg) _).trans ?_
    simp only [hex, Bool.not_false, if_true]
    rfl

end Sys2Proof.Machine
end

section
/-!
ATYPE of an RMW that does not exist at its place (03 R149, 08 R291), RED_MERGE (03 R122), and the theorem that settles O27.
-/
namespace Sys2Proof.Machine

variable {i : Instr} {s : State} {th : Thread} {w w' w2 : Work} {x : Thread} {a : Acc} {e : Entry} {tg : Target} {ea : DWord} {t : ThreadId}
  {q : List Quarter}

/-! ### A cause that keeps the instruction in the replay queue -/

/-- An issue none of whose instructions has a value shares none. -/
theorem shareResults_skip {tag : Nat} (h : ∀ y ∈ w.st.threads, ∀ z ∈ y.unf, z.tag = tag → z.val = none) (x : Thread) :
    shareResults x tag w = ((), w) := by
  have hmates : (w.st.mates x tag).filter (fun m => m.2.val.isSome) = [] := by
    refine List.filter_eq_nil_iff.2 fun m hm => ?_
    obtain ⟨y, hy, hm⟩ := List.mem_flatMap.1 hm
    obtain ⟨z, hz, rfl⟩ := List.mem_map.1 hm
    obtain ⟨hz, htag⟩ := List.mem_filter.1 hz
    simp [h y (List.mem_filter.1 hy).1 z hz (by simpa using htag)]
  have hgroup : shareGroup x tag w = ((), w) := by
    unfold shareGroup
    simp only [W.run_bind, W.run_getSt, hmates, List.foldl_nil, W.run_ite]
    split <;> rfl
  have hlater : (w.st.threads.filter fun y => y.tid.core = x.tid.core && y.slot = x.slot && x.grp < y.grp
      && y.unf.any fun z => z.tag = tag && z.val.isSome && z.pushes) = [] := by
    refine List.filter_eq_nil_iff.2 fun y hy => ?_
    have hnone : (y.unf.any fun z => z.tag = tag && z.val.isSome && z.pushes) = false := by
      rw [List.any_eq_false]
      intro z hz
      by_cases ht : z.tag = tag
      · simp [h y hy z hz ht]
      · simp [ht]
    simp [hnone]
  unfold shareResults
  simp only [W.run_bind, W.run_getSt, hgroup, hlater, List.isEmpty_nil, Bool.not_true, Bool.false_eq_true, if_false, W.run_pure]

/-- An instruction that stands in the replay queue with its cause. -/
def Entry.caused (e : Entry) (c : Cause) (sub : Nat) (fa : DWord) : Entry :=
  { e with st := 2, cause := some c, sub, fa, queued := true, page := none }

/-- The record of a lone thread whose instruction has raised a cause. -/
def Thread.caused (th : Thread) (s : State) (i : Instr) (c : Cause) (sub : Nat) (fa : DWord) : Thread :=
  (th.issued i (s.cur.pc + 8)).plus ((memEntry i s th).caused c sub fa)

theorem caused_unf (hc : CalmAccess s th) (i : Instr) (c : Cause) (sub : Nat) (fa : DWord) :
    (th.caused s i c sub fa).unf = [(memEntry i s th).caused c sub fa] := by
  simp [Thread.caused, Thread.plus, Thread.issued, hc.idle]

theorem accessing_unf (hc : CalmAccess s th) (i : Instr) : (th.accessing s i).unf = [memEntry i s th] := by
  simp [Thread.accessing, Thread.plus, Thread.issued, hc.idle]

theorem accessing_unparked (h : Solo i s th) (hc : CalmAccess s th) :
    (th.accessing s i).unparked (memEntry i s th).id = th.accessing s i := by
  have hwait : (th.accessing s i).wait = .ready := h.ready
  have hn : (th.accessing s i).unparks (memEntry i s th).id = false := by unfold Thread.unparks; rw [hwait]
  have hu : ((th.accessing s i).unf.map fun e => if e.id = (memEntry i s th).id then { e with parks := false } else e)
      = (th.accessing s i).unf := by
    rw [accessing_unf hc, List.map_singleton, if_pos rfl]
    rfl
  unfold Thread.unparked
  rw [hn, hu]
  rfl

/-- An access that raises a cause which the replay queue keeps: the cause is raised with the instruction in the queue. -/
theorem Solo.settled_cause (h : Solo i s th) (hc : CalmAccess s th) {c : Cause} (hq : (memEntry i s th).queues c = true) (sub : Nat)
    (fa : DWord) (q : List Quarter) :
    settleEntry th.tid (memEntry i s th).id (.error (.cause c sub fa)) ((s.accessWork i th q).as th.tid)
      = raise th.tid c true s.cur.pc
          { (s.accessWork i th q).as th.tid with st := (s.accessing i th q).putThread (th.caused s i c sub fa) } := by
  have hhas := h.accessing_has q
  have hent : (th.accessing s i).entry? (memEntry i s th).id = some (memEntry i s th) := by
    simp [Thread.entry?, accessing_unf hc]
  have hun : unpark th.tid (memEntry i s th).id ((s.accessWork i th q).as th.tid)
      = ((), { (s.accessWork i th q).as th.tid with st := (s.accessing i th q).putThread (th.accessing s i) }) := by
    refine (modThread_has (w := (s.accessWork i th q).as th.tid) hhas _ rfl).trans ?_
    exact congrArg (fun y => ((), { (s.accessWork i th q).as th.tid with st := (s.accessing i th q).putThread y }))
      (accessing_unparked h hc)
  have hmod : modEntry th.tid (memEntry i s th).id (fun e => e.caused c sub fa)
      { (s.accessWork i th q).as th.tid with st := (s.accessing i th q).putThread (th.accessing s i) }
        = ((), { (s.accessWork i th q).as th.tid with st := (s.accessing i th q).putThread (th.caused s i c sub fa) }) := by
    refine modThread_put (w := (s.accessWork i th q).as th.tid) hhas rfl rfl ?_ rfl
    simp [Thread.caused, Thread.accessing, Thread.plus, Thread.issued, hc.idle]
  have hshare := shareResults_skip (tag := (memEntry i s th).tag)
    (w := { (s.accessWork i th q).as th.tid with st := (s.accessing i th q).putThread (th.caused s i c sub fa) })
    (fun y hy z hz htag => by
      rcases putThread_mem hy with rfl | ⟨hy, hne⟩
      · rw [caused_unf hc, List.mem_singleton] at hz
        rw [hz]
        rfl
      · rcases putThread_mem (s := s) hy with rfl | ⟨hy, -⟩
        · exact absurd rfl hne
        · exact absurd htag (h.fresh y hy z hz)) (th.accessing s i)
  unfold settleEntry
  rw [W.run_bind, W.run_getSt]
  have hth : ((s.accessWork i th q).as th.tid).st.thread? th.tid = some (th.accessing s i) := h.accessing_thread? q
  simp only [hth, hent, W.run_bind, hun, hq, if_true]
  unfold Entry.caused at hmod
  rw [hmod, hshare]
  rfl

/-- A thread in program mode that raises a cause with an instruction in the replay queue enters its handler after the word. -/
theorem raise_queued {y : Thread} (hT : Trappable w.st y) (hm : y.handler = false) (hv : w.st.hasHandler y = true) (c : Cause)
    (tpc : DWord) :
    ∃ w' x, raise y.tid c true tpc w = ((), w') ∧ w'.st.thread? y.tid = some x ∧
      (x.handler = true ∧ x.tq = true ∧ x.tpc = y.pc ∧ x.v = y.v ∧ x.unf = y.unf) ∧
      w'.st.groups = w.st.maskedGroups y c.bit true ∧ w'.log = w.log ∧ w'.rekey = w.rekey := by
  have hraised := raised_has hT.has c true tpc
  obtain ⟨q', -, he⟩ := trapEnter_handler (w := { w with st := w.st.raised y c true tpc }) hraised rfl hT.going hm hT.live
    hT.settled hv
  exact ⟨_, _, (raise_eq_trapEnter hT c true tpc).trans he, (hraised.put (a := (y.raising c true tpc).trapped _ _) rfl).thread?,
    ⟨rfl, rfl, rfl, rfl, rfl⟩, rfl, rfl, rfl⟩

/-- The thread of an access that has raised a cause can take it. -/
theorem caused_trappable (h : Solo i s th) (hc : CalmAccess s th) (ht : Trappable s th) (hstep : th.stepping = false) (q : List Quarter)
    (c : Cause) (sub : Nat) (fa : DWord) :
    Trappable ((s.accessing i th q).putThread (th.caused s i c sub fa)) (th.caused s i c sub fa) where
  one := (h.accessing_has q).put (a := th.caused s i c sub fa) rfl
  calm := ht.calm
  going := by
    have hhalt : (th.caused s i c sub fa).halt = if th.stepping && th.halt.isNone then some .command else th.halt := rfl
    rw [hhalt, hstep]
    exact ht.going
  live := ht.live
  settled := by
    unfold Thread.settled
    rw [caused_unf hc]
    rfl

/-- A thread in program mode whose access raises such a cause enters its handler, and the word stays in the replay queue. -/
theorem Solo.access_traps (h : Solo i s th) (hc : CalmAccess s th) (ha : accOf i = some a) (hk : ∀ ne, a.kind ≠ .wait ne) {c : Cause}
    (hq : (memEntry i s th).queues c = true) {sub : Nat} {fa : DWord}
    (hperf : ∀ q, (performMem i th.tid (memEntry i s th)).run (s.accessWork i th q)
      = (.error (.cause c sub fa), (s.accessWork i th q).as th.tid))
    (ht : Trappable s th) (hstep : th.stepping = false) (hm : th.handler = false) (hv : s.hasHandler th = true) :
    ∃ t x, exec i s = .next t ∧ t.thread? th.tid = some x ∧
      (x.handler = true ∧ x.tq = true ∧ x.tpc = s.cur.pc + 8 ∧ x.v = th.v ∧ x.unf = [(memEntry i s th).caused c sub fa]) ∧
      t.groups = s.maskedGroups th c.bit true ∧ SameMemory s t := by
  obtain ⟨q, -, hx⟩ := h.attempted hc ha hk
  obtain ⟨w', x, hraise, hth, hrec, hg, hlog, hrekey⟩ := raise_queued
    (w := { (s.accessWork i th q).as th.tid with st := (s.accessing i th q).putThread (th.caused s i c sub fa) })
    (caused_trappable h hc ht hstep q c sub fa) hm hv c s.cur.pc
  rw [caused_unf hc] at hrec
  refine ⟨finish s w', x, ?_, (thread?_finish s _ _).trans hth, hrec, hg, ?_⟩
  · rw [hx _ _ (hperf q), h.settled_cause hc hq]
    exact congrArg (fun r => Host.Outcome.next (finish s r.2)) hraise
  · refine sameMemory_of_memPart ?_ ?_ <;> simp [finish, hlog, hrekey, memCommit, Work.as]

/-! ### RED_MERGE -/

theorem asCore_run {α : Type} {core : Nat} {y : P α} {v : α} (h : y.run { w with actor := core + 1 } = (.ok v, w')) :
    (asCore core y).run w = (.ok v, { w' with actor := w.actor }) := by
  unfold asCore asAgent
  rw [P.run_bind_ok (show (get : P Work).run w = (.ok w, w) from rfl), P.run_bind_ok (P.run_modify _ w)]
  refine (P.run_bind_ok ((P.run_tryP y _).trans (by rw [h])) _).trans ?_
  rfl

theorem leaveRed_run (core line : Nat) (w : Work) :
    ∃ rd, leaveRed core line w = ((), { w with st := { w.st with redDir := rd } }) := by
  unfold leaveRed
  rw [W.run_bind, W.run_getSt, W.run_ite]
  split
  · exact ⟨_, rfl⟩
  · exact ⟨w.st.redDir, rfl⟩

theorem core_subs (h : ∀ k ∈ s.cores, k.subs = []) (c : Nat) : (s.core c).subs = [] := by
  unfold State.core
  cases hf : s.cores.find? fun y => y.id = c with
  | none => rfl
  | some y => exact h y (List.mem_of_find?_eq_some hf)

theorem tyRegs_pos (ty : Ty) : 0 < tyRegs ty := by unfold tyRegs; split <;> omega

/-- One contribution is performed at its home, and leaves the buffer. -/
theorem mergeOne_run {c : CoreSt} {x : Contribution} (hcore : s.cores = [c]) (hred : c.red = [x]) (hl : c.l1 = []) (hs : c.subs = [])
    (hh : s.hostHeld = []) (hcl : s.cleanSpan x.addr (4 * tyRegs x.ty)) (hle : x.addr + 4 * tyRegs x.ty ≤ 2 ^ 42) (fa : DWord) :
    ∃ w', (mergeOne c.id x fa).run { st := s } = (.ok (), w') ∧ (w'.st.core c.id).red = [] ∧ w'.st.threads = s.threads ∧
      w'.rekey = false ∧ w'.log = storeLog x.addr
        (leBytes (4 * tyRegs x.ty) (rmwFn x.op x.ty (s.value x.addr (4 * tyRegs x.ty)) x.val)) := by
  have hself : s.core c.id = c := by simp [State.core, hcore]
  have hpos := tyRegs_pos x.ty
  generalize hn : 4 * tyRegs x.ty = n at *
  obtain ⟨w1, ht, hflush⟩ := flushSpan_run (w := { st := s }) (c := c.id) (by rw [hself]; exact hl) x.addr n fa
  have hlog : w1.log = [] := ht.log
  have hclean : w1.st.poisoned x.addr n = false := by
    rw [ht.poisoned]
    exact poisoned_of_cleanSpan hcl (by omega) (by omega)
  have hsubs : ∀ k ∈ w1.st.cores, k.subs = [] := by
    have hall : ∀ k ∈ s.cores, k.subs = [] := by simp [hcore, hs]
    intro k hk
    rcases ht.cores k hk with hk | ⟨j, rfl⟩
    · exact hall k hk
    · exact core_subs hall j
  set new := rmwFn x.op x.ty (s.value x.addr n) x.val with hnew
  have hvalue : w1.st.value x.addr n = s.value x.addr n := by rw [ht.st]; rfl
  have hread : isPoisoned x.addr n w1 = (false, w1) := by rw [← hclean]; rfl
  have hstore : (asCore c.id (storeNat x.addr n new : P Unit)).run w1 = (.ok (), w1.stored x.addr (leBytes n new)) := by
    refine asCore_run (w' := { w1 with actor := c.id + 1 }.stored x.addr (leBytes n new)) ((P.run_lift _ _).trans ?_)
    rw [storeNat, storeAt_run (w := { w1 with actor := c.id + 1 }) hsubs
      (by rw [length_leBytes]; exact fun p hp => hcl p (by rw [ht.st] at hp; exact hp)) (by unfold hostBase; omega)]
  have hk : (w1.stored x.addr (leBytes n new)).st.core c.id = c := (ht.core c.id).trans hself
  generalize hw2 : w1.stored x.addr (leBytes n new) = w2 at hstore hk
  obtain ⟨rd, hleave⟩ := leaveRed_run c.id (x.addr / 128) { w2 with st := w2.st.putCore c.id { c with red := [] } }
  refine ⟨{ w2 with st := { w2.st.putCore c.id { c with red := [] } with redDir := rd } }, ?_, ?_, ?_, ?_, ?_⟩
  rotate_left
  · exact congrArg CoreSt.red ((core_putCore w2.st (x := { c with red := [] }) rfl c.id).trans (if_pos rfl))
  · rw [← hw2]
    show w1.st.threads = s.threads
    rw [ht.st]
  · rw [← hw2]
    show w1.rekey = false
    rw [ht.eq]
  · rw [← hw2]
    show storeLog _ _ ++ w1.log = _
    rw [hlog, List.append_nil]
  · unfold mergeOne
    simp only [hn]
    rw [P.run_bind_ok hflush, P.run_bind_ok (needSpan_run (by rw [ht.st]; exact hh) (by omega) (by unfold hostBase; omega) ..),
      P.run_bind_ok (P.run_lift _ w1), hread]
    simp only [Bool.not_false, if_true]
    rw [P.run_bind_ok (P.run_lift _ w1), readNat_run hlog, hvalue, P.run_bind_ok hstore, P.run_bind_ok (P.run_lift _ _), modCore_run, hk,
      hred]
    simp only [List.erase_cons_head]
    exact (P.run_lift _ _).trans (by rw [hleave])

/-! ### The statement -/

theorem acas_place (ha : accOf i = some a) (hk : a.kind = .acas) (htg : s.targetOf th a ea = some tg) :
    rmwExists 16 a.ty tg.place = true := by
  have h0 : a.space = 0 := by
    unfold accOf at ha
    split at ha
    case h_22 => cases ha
    all_goals
      cases ha
      simp [accM, accI] at hk <;> rfl
  obtain ⟨-, -, hplace, -⟩ := targetOf_generic htg h0
  rw [hplace]
  rfl

/-- RED_MERGE performs the one contribution of its line. -/
theorem redMerge_run {c : CoreSt} {x : Contribution} (hcore : s.cores = [c]) (hred : c.red = [x]) (hl : c.l1 = []) (hs : c.subs = [])
    (hh : s.hostHeld = []) (hcl : s.cleanSpan x.addr (4 * tyRegs x.ty)) (hle : x.addr + 4 * tyRegs x.ty ≤ 2 ^ 42) :
    ∃ w', exec (.redMerge c.id (x.addr / 128)) s = .next (finish s w') ∧ (w'.st.core c.id).red = [] ∧ w'.st.threads = s.threads ∧
      w'.rekey = false ∧ w'.log = storeLog x.addr
        (leBytes (4 * tyRegs x.ty) (rmwFn x.op x.ty (s.value x.addr (4 * tyRegs x.ty)) x.val)) := by
  obtain ⟨w', hr, hw'⟩ := mergeOne_run hcore hred hl hs hh hcl hle 0
  refine ⟨w', ?_, hw'⟩
  have hself : s.core c.id = c := by simp [State.core, hcore]
  have hline : (mergeLine c.id (128 * (x.addr / 128)) 0).run { st := s } = (.ok (), w') := by
    unfold mergeLine
    rw [P.run_getSt_bind, hself, hred]
    have hhit : x.addr / 128 = 128 * (x.addr / 128) / 128 := by omega
    refine (P.run_bind_ok (P.forIn_cons x [] _ _ _ (b' := ()) ?_) _).trans rfl
    rw [P.run_ite, if_pos hhit]
    exact P.run_bind_ok hr _
  exact congrArg (fun r => Host.Outcome.next (finish s r.2)) hline

/-- Settles O27: an RMW logs the store of its new value at its place, a RED waits in the buffer, and a combination that does
not exist there raises ATYPE. -/
theorem readModifyWriteIsOneStep : Obligations.ReadModifyWriteIsOneStep := by
  unfold Obligations.ReadModifyWriteIsOneStep
  refine ⟨fun i s th a tg ha h hc hq hl htg hcl hm => ⟨fun op hk hex => ?_, fun hk => ?_, fun op hk hex ho => ?_,
    fun op hk hex ho => ?_, fun op hk hex ht hstep hhand hv => ?_⟩, fun s c x hcore hred hl hs hh hcl hle hm => ?_⟩
  · obtain ⟨q, -, hx⟩ := h.access hc ha (by simp [hk]) hq
    obtain ⟨w', hu, hlog, hr⟩ := performMem_rmw h hc hl ha htg hcl q hk hex
    obtain ⟨he, hw⟩ := hx _ w' _ hr hu.entry hu.threads hu.groups
    exact ⟨_, he, hw, completed_stored hm hu.rekey (length_leBytes ..) hlog _⟩
  · obtain ⟨q, -, hx⟩ := h.access hc ha (by simp [hk]) hq
    obtain ⟨w', hu, hlog, hr⟩ := performMem_acas h hc hl ha htg hcl q hk (acas_place ha hk htg)
    obtain ⟨he, hw⟩ := hx _ w' _ hr hu.entry hu.threads hu.groups
    by_cases hold : s.value tg.pa a.size = dataOf i s th (tyRegs a.ty)
    · rw [if_pos hold] at hlog
      obtain ⟨hb, hbut⟩ := completed_stored (i := i) (th := th) hm hu.rekey (length_leBytes ..) hlog
        (valueWords (tyRegs a.ty) (s.value tg.pa a.size))
      exact ⟨_, he, hw, hbut, fun _ => hb, fun hne => absurd hold hne⟩
    · rw [if_neg hold] at hlog
      have hsame := completed_sameMemory (s := s) (i := i) (th := th) hlog hu.rekey
        (valueWords (tyRegs a.ty) (s.value tg.pa a.size))
      exact ⟨_, he, hw, fun y _ => hsame y, fun heq => absurd heq hold, fun _ => hsame⟩
  · obtain ⟨q, -, hx⟩ := h.access hc ha (by simp [hk]) hq
    obtain ⟨w', hg, hbuf, hr⟩ := performMem_red h hc ha htg hk hex ho q
    obtain ⟨he, hw⟩ := hx _ w' (memEntry i s th) hr rfl (by rw [hg]; rfl) (by rw [hg]; rfl)
    exact ⟨_, he, hw, completed_sameMemory (by rw [hg]; rfl) (by rw [hg]; rfl) _, hbuf⟩
  · obtain ⟨q, -, hx⟩ := h.access hc ha (by simp [hk]) hq
    obtain ⟨w', hu, hlog, hr⟩ := performMem_red_rel h hc hl ha htg hcl q hk hex ho
    obtain ⟨he, hw⟩ := hx _ w' _ hr hu.entry hu.threads hu.groups
    obtain ⟨hb, hbut⟩ := completed_stored (i := i) (th := th) hm hu.rekey (length_leBytes ..) hlog []
    exact ⟨_, he, hw, hbut, hb⟩
  · have hwait : ∀ ne, a.kind ≠ .wait ne := by rcases hk with hk | hk <;> simp [hk]
    obtain ⟨t, y, he, hth, ⟨hhandler, htq, htpc, hvs, hunf⟩, hg, hsame⟩ := h.access_traps hc ha hwait (c := .atype) rfl
      (performMem_atype h hc ha htg hk hex) ht hstep hhand hv
    exact ⟨t, y, he, hth, hhandler, htq, htpc, hvs, by rw [hunf]; rfl, hg, hsame⟩
  · obtain ⟨w', he, hbuf, hth, hrekey, hlog⟩ := redMerge_run hcore hred hl hs hh hcl hle
    obtain ⟨hb, hbut⟩ := finish_stored hm hrekey (length_leBytes ..) hlog
    exact ⟨_, he, hbuf, hth, hb, hbut⟩

end Sys2Proof.Machine
end

section
/-!
Run-time checks of a PFETCH: a thread to which a cause applies passes the word with its guard true (03 R151).
-/
namespace Sys2Proof.Machine

/-- The state of `portZeroDown`, with every index register of its thread past the declared count. -/
def indexOutOfBound : State :=
  { portZeroDown with threads := [{ Loader.thread 0 with ix := List.replicate 8 0xFFFF }] }

/-- `wordAtZero` with its address in an index operand. -/
def wordAtIndex : MWord := { wordAtZero with a := 0x180 }

theorem indexOutOfBound_passes : (checkIssue (.pfetch wordAtIndex) { st := indexOutOfBound }).1.pass =
    [(Loader.thread 0).tid] := by decide

/-- Refutes O8, in the clause on who acts: a PFETCH whose index operand is out of bounds raises nothing (R151), so its thread
goes on although its guard is true. -/
theorem not_loneThreadsGuardsAndResults : ¬ Obligations.LoneThreadsGuardsAndResults := by
  unfold Obligations.LoneThreadsGuardsAndResults
  rintro ⟨-, hacts, -⟩
  obtain ⟨-, hpass, -⟩ := hacts (.pfetch wordAtIndex) indexOutOfBound (by decide) (by decide) (by decide)
  exact absurd ((hpass (Loader.thread 0).tid).1 (by rw [indexOutOfBound_passes]; exact .head _)) (by decide)

end Sys2Proof.Machine
end

section
/-!
A debugger's single step of a thread that waits in GOP (08 R309, R173): the step completes the group-wide wait, and the
threads that stand at different words raise CONV.
-/
namespace Sys2Proof.Machine

/-- The launch of the loader without a trap vector, so that a cause halts its thread (R289). -/
def launchWithoutHandler : Launch := { Loader.launch with desc := some { Loader.desc with tv := false } }

/-- A thread halted by the debugger's command while it waits in GOP. -/
def haltedInGop : Thread := { Loader.thread 0 with wait := .gop, halt := some .command }

/-- The halted thread, with a mate of its group that waits in GOP at another word. -/
def groupAtTwoWords : State :=
  { Loader.place State.reset 0 with
    launches := [launchWithoutHandler]
    threads := [haltedInGop, { Loader.thread 1 with idle := false, wait := .gop, pc := (Loader.thread 1).pc + 8 }] }

theorem dbgStep_raises_conv : ∃ t, exec (.dbgStep haltedInGop.tid) groupAtTwoWords = .next t ∧
    (t.thread? haltedInGop.tid).bind Thread.halt = some (.cause .conv) := ⟨_, rfl, by decide⟩

/-- Refutes O60, in the clause on DBG_STEP: where the other live threads of its group wait in GOP at another word, the
thread that the step lets go on raises CONV (R173), and halts again. -/
theorem not_deviceStepsComplete : ¬ Obligations.DeviceStepsComplete := by
  unfold Obligations.DeviceStepsComplete
  intro h
  obtain ⟨-, -, -, -, -, -, hstep, -⟩ := h groupAtTwoWords haltedInGop 0 0 0 0 0 0
  obtain ⟨t, y, ht, hy, hrun, -⟩ := hstep (by decide) rfl rfl
  obtain ⟨t', ht', hconv⟩ := dbgStep_raises_conv
  rw [ht] at ht'
  obtain rfl := Host.Outcome.next.inj ht'
  rw [hy] at hconv
  exact absurd (hrun.symm.trans hconv) nofun

end Sys2Proof.Machine
end

section
/-!
Where the threads of an issue go (04 R33, R188): the branches, and the words without an effect of their own, for every
issue group.
-/
namespace Sys2Proof.Machine

variable {i : Instr} {s : State} {r : Issued} {x : Thread × List Nat} {y : Thread} {w : Work}

/-! ### The acting threads -/

theorem Issued.Distinct.act_nodup (h : r.Distinct) : (r.act.map fun x => x.1.tid).Nodup :=
  (List.nodup_append.1 (List.nodup_append.1 h).1).1

theorem Issued.Distinct.find_act (h : r.Distinct) (hx : x ∈ r.act) :
    (r.act.find? fun z => z.1.tid = x.1.tid) = some x := by
  have hone := filter_nodup (t := fun z : Thread × List Nat => z.1.tid) h.act_nodup hx
  rw [← List.head?_filter, hone]
  rfl

/-- A misaligned target moves a thread from those that act to those that raise, and no thread occurs twice. -/
theorem Issued.Distinct.jumpTo (h : r.Distinct) (target : Thread → List Nat → DWord) : (jumpTo r target).Distinct := by
  unfold Issued.Distinct at *
  refine (List.Perm.nodup_iff (List.perm_iff_count.2 fun t => ?_)).2 h
  have hsplit := ((List.filter_append_perm (fun x : Thread × List Nat => decide ((target x.1 x.2).toNat % 8 ≠ 0)) r.act).map
    fun x => x.1.tid).count_eq t
  simp only [Machine.jumpTo, List.map_append, List.count_append, List.map_map, Function.comp_def] at hsplit ⊢
  omega

/-- An acting thread has its registers as they were once the checks are made. -/
theorem acting_thread (hi : dropsCauses i = false) (hn : s.cur.threads.Nodup)
    (hx : x ∈ (checkIssue i { st := s }).1.act) :
    ∃ y, (checkIssue i { st := s }).2.st.thread? x.1.tid = some y ∧ y.registers = x.1.registers := by
  obtain ⟨-, hp, -, -⟩ := checkIssue_spec i hi { st := s } hn
  have hreg := checkIssue_registers i s x.1.tid
  rw [mem_curThreads (List.mem_filter.1 (hp x hx)).1] at hreg
  exact Option.map_eq_some_iff.1 hreg

/-- At the end of an issue an acting thread stands at its target, with its registers as they were. -/
theorem endIssue_goes (hd : r.Distinct) (hx : x ∈ r.act) (hy : w.st.thread? x.1.tid = some y) (pcOf : Thread → DWord) :
    ∃ th, (endIssue i r pcOf false w).2.st.thread? x.1.tid = some th ∧ th.pc = pcOf x.1 ∧ th.registers = y.registers := by
  rw [endIssue_act hd hx, hy]
  exact ⟨_, rfl, rfl, issuedRec_registers ..⟩

theorem endJump_goes (hd : r.Distinct) (hx : x ∈ r.act) (hy : w.st.thread? x.1.tid = some y)
    (target : Thread → List Nat → DWord) :
    ∃ th, (endJump i r target w).2.st.thread? x.1.tid = some th ∧ th.pc = target x.1 x.2 ∧ th.registers = y.registers := by
  obtain ⟨th, hth, hpc, hreg⟩ := endIssue_goes (i := i) hd hx hy (fun th =>
    match r.act.find? fun x => x.1.tid = th.tid with | some x => target th x.2 | none => th.pc)
  refine ⟨th, hth, hpc.trans ?_, hreg⟩
  rw [hd.find_act hx]

/-- Once the results of an issue are written, an acting thread has its own. -/
theorem writeResults_acting (hd : r.Distinct) (hx : x ∈ r.act) (hy : w.st.thread? x.1.tid = some y)
    (hr : y.registers = x.1.registers) (u : Uses) (f : Thread × List Nat → Res) :
    ∃ z, (writeResults u (r.act.map fun x => (x.1, f x)) w).2.st.thread? x.1.tid = some z ∧
      z.registers = (applyRes u (f x) x.1).registers := by
  have hw := writeResults_thread u (r.act.map fun x => (x.1, f x)) (by simpa [Function.comp_def] using hd.act_nodup)
    (List.mem_map.2 ⟨x, hx, rfl⟩) w
  rw [hy] at hw
  obtain ⟨z, hz, hzr⟩ := Option.map_eq_some_iff.1 hw
  exact ⟨z, hz, hzr.trans (applyRes_registers hr u _)⟩

/-! ### The instructions -/

theorem checkIssue_memEngines (i : Instr) : Same memEngines (checkIssue i) :=
  memEngines_of_offShared (checkIssue_offShared i)

theorem writeResults_memEngines (u : Uses) (rs : List (Thread × Res)) : Same memEngines (writeResults u rs) :=
  memEngines_of_offShared (writeResults_offShared u rs)

theorem endIssue_memEngines (i : Instr) (r : Issued) (pcOf : Thread → DWord) : Same memEngines (endIssue i r pcOf) :=
  memEngines_of_offThreads (endIssue_offThreads i r pcOf)

/-- An instruction whose computation logs nothing and keeps memory completes with what the computation leaves. -/
theorem completes_of_body {b : W Unit} {P : State → Prop} (he : exec i s = run b s) (hb : Same memEngines b)
    (h : P (b { st := s }).2.st) : ∃ t, exec i s = .next t ∧ SameMemory s t ∧ P t := by
  obtain ⟨hrun, hmem, -⟩ := run_of_memEngines hb s
  exact ⟨_, he.trans hrun, hmem, h⟩

theorem endJump_memEngines (i : Instr) (r : Issued) (target : Thread → List Nat → DWord) :
    Same memEngines (endJump i r target) := endIssue_memEngines i r _

theorem issuePlain_memEngines (i : Instr) (s : State) : Same memEngines (issuePlain i s) := by
  unfold issuePlain
  exact same_bind (checkIssue_memEngines i) fun r => endIssue_memEngines i r _

/-- The threads of LANDPT and NOP go to the next word. -/
theorem issuePlain_acts (hi : dropsCauses i = false) (hn : s.cur.threads.Nodup) (he : exec i s = run (issuePlain i s) s) :
    ∃ t, exec i s = .next t ∧ SameMemory s t ∧ ∀ x ∈ (checkIssue i { st := s }).1.act, ∃ th,
      t.thread? x.1.tid = some th ∧ th.pc = s.cur.pc + 8 ∧ th.registers = x.1.registers := by
  refine completes_of_body he (issuePlain_memEngines i s) fun x hx => ?_
  obtain ⟨hd, -⟩ := checkIssue_spec i hi { st := s } hn
  obtain ⟨y, hy, hreg⟩ := acting_thread hi hn hx
  unfold issuePlain
  rw [W.run_bind, ← hreg]
  exact endIssue_goes hd hx hy _

/-- What BRA does: each acting thread goes to the word's target. -/
def braBody (w : IWord) (s : State) : W Unit := do
  let r ← checkIssue (.bra w)
  endJump (.bra w) r fun _ _ => relTarget s.cur.pc w.imm
/-- What CALL does: each acting thread receives the return address and goes to the word's target. -/
def callBody (w : IWord) (s : State) : W Unit := do
  let r ← checkIssue (.call w)
  writeResults (usesOf (.call w)) (r.act.map fun x => (x.1, linkRes s.cur.pc))
  endJump (.call w) r fun _ _ => relTarget s.cur.pc w.imm
/-- What RET does: each acting thread goes to the target in its register pair, or raises ALIGN. -/
def retBody (w : IWord) : W Unit := do
  let r ← checkIssue (.ret w)
  endJump (.ret w) (jumpTo r pairTarget) pairTarget

theorem exec_bra (w : IWord) (s : State) : exec (.bra w) s = run (braBody w s) s := rfl
theorem exec_call (w : IWord) (s : State) : exec (.call w) s = run (callBody w s) s := rfl
theorem exec_ret (w : IWord) (s : State) : exec (.ret w) s = run (retBody w) s := rfl

theorem braBody_memEngines (w : IWord) (s : State) : Same memEngines (braBody w s) := by
  unfold braBody
  exact same_bind (checkIssue_memEngines _) fun r => endJump_memEngines _ r _

theorem callBody_memEngines (w : IWord) (s : State) : Same memEngines (callBody w s) := by
  unfold callBody
  exact same_bind (checkIssue_memEngines _) fun r => same_bind (writeResults_memEngines _ _) fun _ =>
    endJump_memEngines _ r _

theorem retBody_memEngines (w : IWord) : Same memEngines (retBody w) := by
  unfold retBody
  exact same_bind (checkIssue_memEngines _) fun r => endJump_memEngines _ _ _

theorem bra_acts (hn : s.cur.threads.Nodup) (w : IWord) :
    ∃ t, exec (.bra w) s = .next t ∧ SameMemory s t ∧ ∀ x ∈ (checkIssue (.bra w) { st := s }).1.act, ∃ th,
      t.thread? x.1.tid = some th ∧ th.pc = relTarget s.cur.pc w.imm ∧ th.registers = x.1.registers := by
  refine completes_of_body (exec_bra w s) (braBody_memEngines w s) fun x hx => ?_
  obtain ⟨hd, -⟩ := checkIssue_spec (.bra w) rfl { st := s } hn
  obtain ⟨y, hy, hreg⟩ := acting_thread rfl hn hx
  unfold braBody
  rw [W.run_bind, ← hreg]
  exact endJump_goes hd hx hy _

theorem call_acts (hn : s.cur.threads.Nodup) (w : IWord) :
    ∃ t, exec (.call w) s = .next t ∧ SameMemory s t ∧ ∀ x ∈ (checkIssue (.call w) { st := s }).1.act, ∃ th,
      t.thread? x.1.tid = some th ∧ th.pc = relTarget s.cur.pc w.imm ∧
      th.registers = (applyRes (usesOf (.call w)) (linkRes s.cur.pc) x.1).registers := by
  refine completes_of_body (exec_call w s) (callBody_memEngines w s) fun x hx => ?_
  obtain ⟨hd, -⟩ := checkIssue_spec (.call w) rfl { st := s } hn
  obtain ⟨y, hy, hreg⟩ := acting_thread rfl hn hx
  obtain ⟨z, hz, hzr⟩ := writeResults_acting hd hx hy hreg (usesOf (.call w)) fun _ => linkRes s.cur.pc
  unfold callBody
  rw [W.run_bind, W.run_bind, ← hzr]
  exact endJump_goes hd hx hz _

theorem ret_acts (hn : s.cur.threads.Nodup) (w : IWord) :
    ∃ t, exec (.ret w) s = .next t ∧ SameMemory s t ∧ ∀ x ∈ (checkIssue (.ret w) { st := s }).1.act,
      (pairTarget x.1 x.2).toNat % 8 = 0 → ∃ th,
      t.thread? x.1.tid = some th ∧ th.pc = pairTarget x.1 x.2 ∧ th.registers = x.1.registers := by
  refine completes_of_body (exec_ret w s) (retBody_memEngines w) fun x hx hal => ?_
  obtain ⟨hd, -⟩ := checkIssue_spec (.ret w) rfl { st := s } hn
  obtain ⟨y, hy, hreg⟩ := acting_thread rfl hn hx
  unfold retBody
  rw [W.run_bind, ← hreg]
  refine endJump_goes (hd.jumpTo pairTarget) (List.mem_filter.2 ⟨hx, ?_⟩) hy _
  simp [hal]

/-- Settles O12: each acting thread of a branch goes to its own target, and of LANDPT and NOP to the next word. -/
theorem branchesMoveEachActingThread : Obligations.BranchesMoveEachActingThread := by
  unfold Obligations.BranchesMoveEachActingThread
  exact fun s hn => ⟨bra_acts hn, call_acts hn, ret_acts hn, fun w => issuePlain_acts rfl hn rfl,
    fun w => issuePlain_acts rfl hn rfl⟩

end Sys2Proof.Machine
end

section
/-!
RET, JMPI and CALLI of a lone thread (04 R33, R188): a target that is not a multiple of 8 raises ALIGN, and an indirect
jump is taken only where its target's word is LANDPT.
-/
namespace Sys2Proof.Machine

variable {i : Instr} {s t : State} {th : Thread} {w : Work}

/-! ### The fetch of the target word -/

theorem State.Has.putThread_self (h : s.Has th) : s.putThread th = s := by
  have hid := h.set id rfl
  rw [id] at hid
  rw [← hid]
  unfold State.setThread
  simp

theorem takeBack_skip (h : ∀ c ∈ w.st.cores, c.red = []) (a n : Nat) (fa : DWord) : (takeBack a n fa).run w = (.ok (), w) := by
  unfold takeBack
  rw [P.run_getSt_bind]
  refine (P.run_bind_ok (P.forIn_skip _ _ _ fun c hc => ?_) _).trans rfl
  simp [h c hc]

/-- A fetch of a translated word that nothing stands in the way of gives the word. -/
theorem fetchAt_run (h : s.Has th) (hr : th.fetchRetry = 0) {va : DWord} {pa : Nat}
    (ht : s.trans (.core th.tid.core) (s.pasidOf th.lslot) va.toNat .exec = .ok pa) (hp : PlainMemory s pa 8) :
    (fetchAt th va).run { st := s } = (.ok (BitVec.ofNat 64 (s.value pa 8)), { st := s }) := by
  have hdev := hp.dev
  have hspan := needSpan_run (w := { st := s }) hp.noHost (n := 8) (a := pa) (by omega) (by unfold hostBase; omega) false va
  have hpoison : isPoisoned pa 8 { st := s } = (false, { st := s }) := by simp [isPoisoned, hp.clean]
  have hstay : modThread th.tid (fun x => { x with fetchRetry := if x.fetchRetry = va.toNat / 4096 + 1 then 0 else x.fetchRetry })
      { st := s } = ((), { st := s }) := by
    rw [modThread_has (w := { st := s }) h _ rfl, hr, if_neg (by omega), ← hr, h.putThread_self]
  unfold fetchAt
  rw [P.run_getSt_bind, P.run_bind_ok (translate_run (w := { st := s }) ht _), P.run_bind_ok (takeBack_skip (w := { st := s }) hp.noRed ..),
    P.run_bind_ok hspan]
  simp only [P.run_bind, P.run_lift, hpoison, readNat_run (w := { st := s }) rfl, hstay, P.run_pure, Bool.false_eq_true, if_false]

/-! ### Who jumps -/

/-- An issue whose one thread acts, or raises `c` where `ok` does not hold. -/
def Issued.oneOr (th : Thread) (vals : List Nat) (ok : Bool) (c : Cause) : Issued :=
  if ok then { act := [(th, vals)], pass := [], bad := [] } else { act := [], pass := [], bad := [(th.tid, c, 0)] }

theorem jumpTo_one (th : Thread) (vals : List Nat) (target : Thread → List Nat → DWord) :
    jumpTo { act := [(th, vals)], pass := [], bad := [] } target
      = .oneOr th vals (decide ((target th vals).toNat % 8 = 0)) .align := by
  unfold jumpTo Issued.oneOr
  by_cases h : (target th vals).toNat % 8 = 0 <;> simp [h]

theorem jumpChecked_jmpi {w : IWord} (h : Solo (.jmpi w) s th) {v : DWord}
    (hal : (pairTarget th (Solo.values (.jmpi w) s th)).toNat % 8 = 0)
    (hv : (fetchAt th (pairTarget th (Solo.values (.jmpi w) s th))).run { st := s } = (.ok v, { st := s })) :
    jumpChecked (.jmpi w) s { st := s }
      = endJump (.jmpi w) (.oneOr th (Solo.values (.jmpi w) s th) (isLanding v) .landing) pairTarget { st := s } := by
  unfold jumpChecked
  simp only [W.run_bind, h.check, jumpTo_one, hal, decide_true, Issued.oneOr, if_true, W.forIn_cons, W.forIn_nil, hv]
  cases isLanding v <;> rfl

theorem jumpChecked_calli {w : IWord} (h : Solo (.calli w) s th) {v : DWord}
    (hal : (pairTarget th (Solo.values (.calli w) s th)).toNat % 8 = 0)
    (hv : (fetchAt th (pairTarget th (Solo.values (.calli w) s th))).run { st := s } = (.ok v, { st := s })) :
    jumpChecked (.calli w) s { st := s } =
      (do writeResults (usesOf (.calli w)) ((Issued.oneOr th (Solo.values (.calli w) s th) (isLanding v) .landing).act.map
            fun x => (x.1, linkRes s.cur.pc))
          endJump (.calli w) (.oneOr th (Solo.values (.calli w) s th) (isLanding v) .landing) pairTarget : W Unit) { st := s } := by
  unfold jumpChecked
  simp only [W.run_bind, h.check, jumpTo_one, hal, decide_true, Issued.oneOr, if_true, W.forIn_cons, W.forIn_nil, hv]
  cases isLanding v <;> rfl

/-! ### The end of a jump -/

theorem endJump_solo (i : Instr) (th : Thread) (vals : List Nat) (target : Thread → List Nat → DWord) (w : Work) :
    ∃ q, SameEngines w.st (w.st.putQuarters q) ∧
      endJump i { act := [(th, vals)], pass := [], bad := [] } target w
        = ((), { w with st := (w.st.setThread th.tid fun x => (issuedRec i [th] th.tid x).goTo (target th vals)).putQuarters q }) := by
  obtain ⟨q, hq, he⟩ := endIssue_solo i th vals (fun x =>
    match [(th, vals)].find? fun y => y.1.tid = x.tid with | some y => target x y.2 | none => x.pc) w
  refine ⟨q, hq, he.trans ?_⟩
  simp

/-- A run that has logged nothing ends in its state, when that keeps memory and the rest. -/
theorem run_sameRest {b : W Unit} (hb : b { st := s } = ((), { st := t })) (hr : SameRest s t) : run b s = .next t := by
  unfold run
  rw [hb]
  exact congrArg _ (finish_sameRest hr)

/-- The one thread of a jump goes to its target, and nothing else changes. -/
theorem endJump_goesTo (h : s.Has th) (i : Instr) (vals : List Nat) (target : Thread → List Nat → DWord) :
    ∃ t, endJump i { act := [(th, vals)], pass := [], bad := [] } target { st := s } = ((), { st := t }) ∧
      GoesTo s t i th (target th vals) := by
  obtain ⟨q, hq, he⟩ := endJump_solo i th vals target { st := s }
  dsimp only at he
  rw [h.set _ (by rfl), issued_rec] at he
  have hx : (s.putThread (th.issued i (target th vals))).Has (th.issued i (target th vals)) := h.put rfl
  exact ⟨_, he, hx.thread?, rfl, fun v hv => thread?_putThread_ne (a := th.issued i (target th vals)) hv, rfl, rfl, rfl, hq⟩

/-- The one thread of a jump takes the cause it raises. -/
theorem endJump_takesCause (h : Trappable s th) (hm : th.handler = false) (hv : s.hasHandler th = true) (i : Instr)
    {c : Cause} (hc : c ≠ .ill) (target : Thread → List Nat → DWord) :
    ∃ t, endJump i { act := [], pass := [], bad := [(th.tid, c, 0)] } target { st := s } = ((), { st := t }) ∧
      TakesCause s t th c.bit ∧ SameRest s t :=
  endIssue_takesCause h hm hv i hc 0 _

/-! ### RET -/

theorem misalignedReturnRaisesAlign : Claims.MisalignedReturnRaisesAlign := by
  intro w s th h ht hm hv hal
  obtain ⟨t, he, hc, hr⟩ := endJump_takesCause ht hm hv (.ret w) (c := .align) (by decide) pairTarget
  refine ⟨t, (exec_ret w s).trans (run_sameRest ?_ hr), hc, hr⟩
  unfold retBody
  rw [W.run_bind, h.check]
  simp only [jumpTo_one, hal, decide_false, Issued.oneOr, Bool.false_eq_true, if_false]
  exact he

/-! ### CALLI's return address -/

theorem dest_calli (w : IWord) : (usesOf (.calli w)).ops.filter (·.dst) = [dOp w.d .b64 .link] := rfl

/-- A return address goes to registers of the thread, or of its group (R188). -/
theorem link_own_or_shared {c : Code} (hb : (dOp c .b64 .link).badOperand = false) :
    (isV c.toNat || isIx c.toNat) = true ∨ (dOp c .b64 .link).shared := by
  unfold Opd.shared
  cases hs : isS c.toNat
  · left
    by_contra hn
    simp [Opd.badOperand, dOp, Bool.not_eq_true _ ▸ hn, hs] at hb
  · right
    simp [dOp, hs]

/-- CALLI writes its result to the thread's record and to the groups. -/
theorem writeResults_calli {w : IWord} (h : Solo (.calli w) s th) :
    ∃ g, writeResults (usesOf (.calli w)) [(th, linkRes s.cur.pc)] { st := s }
      = ((), { st := (s.putGroups g).putThread (applyRes (usesOf (.calli w)) (linkRes s.cur.pc) th) }) := by
  obtain ⟨hcore, -⟩ := h.place
  have hmem : dOp w.d .b64 .link ∈ (usesOf (.calli w)).ops := List.mem_of_mem_filter (dest_calli w ▸ List.mem_singleton.2 rfl)
  rcases link_own_or_shared (badOperand_of_legal h.legal hmem) with hown | hsh
  · refine ⟨s.groups, writeResults_own (w := { st := s }) (fun o ho hd => ?_) h.has _⟩
    have : o ∈ (usesOf (.calli w)).ops.filter (·.dst) := List.mem_filter.2 ⟨ho, hd⟩
    rw [dest_calli, List.mem_singleton] at this
    exact this ▸ hown
  · exact ⟨_, writeResults_shared (dest_calli w) hsh rfl h.has h.grp hcore⟩

/-- A jump of one thread that writes a result: the thread has the result and stands at its target. -/
theorem endJump_linked (h : s.Has th) {r : Res} {g : List Group} (vals : List Nat) (target : Thread → List Nat → DWord)
    (hw : writeResults (usesOf i) [(th, r)] { st := s } = ((), { st := (s.putGroups g).putThread (applyRes (usesOf i) r th) })) :
    ∃ t x, (do writeResults (usesOf i) [(th, r)]
               endJump i { act := [(th, vals)], pass := [], bad := [] } target : W Unit) { st := s } = ((), { st := t }) ∧
      t.thread? th.tid = some x ∧ x.pc = target th vals ∧ x.registers = (applyRes (usesOf i) r th).registers ∧
      OthersSame s t th.tid ∧ SameRest s t := by
  have hg : (s.putGroups g).Has th := h
  have hx := (hg.put (a := th.given i r (target th vals)) rfl).thread?
  obtain ⟨q, hq, he⟩ := endJump_solo i th vals target { st := (s.putGroups g).putThread (applyRes (usesOf i) r th) }
  have hset := (hg.put (a := applyRes (usesOf i) r th) rfl).set
    (fun x => (issuedRec i [th] th.tid x).goTo (target th vals)) rfl
  rw [State.putThread_put (by rfl)] at hset
  refine ⟨((s.putGroups g).putThread (th.given i r (target th vals))).putQuarters q, _, ?_, hx, rfl, issuedRec_registers ..,
    fun v hv => thread?_putThread_ne (s := s.putGroups g) (a := th.given i r (target th vals)) hv, rfl, rfl, rfl, hq⟩
  rw [W.run_bind, hw]
  exact he.trans (congrArg (fun x : State => ((), ({ st := x.putQuarters q } : Work))) hset)

/-- A CALLI that is taken: its thread has the return address and stands at the target. -/
theorem calli_taken {w : IWord} {v : DWord} (h : Solo (.calli w) s th) (hland : isLanding v = true)
    (hal : (pairTarget th (Solo.values (.calli w) s th)).toNat % 8 = 0)
    (hv : (fetchAt th (pairTarget th (Solo.values (.calli w) s th))).run { st := s } = (.ok v, { st := s })) :
    ∃ t x, exec (.calli w) s = .next t ∧ t.thread? th.tid = some x ∧
      x.pc = pairTarget th (Solo.values (.calli w) s th) ∧
      x.registers = (applyRes (usesOf (.calli w)) (linkRes s.cur.pc) th).registers ∧
      OthersSame s t th.tid ∧ SameRest s t := by
  obtain ⟨g, hw⟩ := writeResults_calli h
  obtain ⟨t, x, he, hx, hpc, hreg, ho, hr⟩ := endJump_linked h.has (Solo.values (.calli w) s th) pairTarget hw
  have hrun := jumpChecked_calli h hal hv
  rw [hland] at hrun
  exact ⟨t, x, run_sameRest (hrun.trans he) hr, hx, hpc, hreg, ho, hr⟩

/-- Settles O13: a misaligned RET raises ALIGN, and JMPI and CALLI go on at a LANDPT or raise LANDING. -/
theorem returnsAndIndirectJumpsCheckTargets : Obligations.ReturnsAndIndirectJumpsCheckTargets := by
  refine ⟨misalignedReturnRaisesAlign, fun w s th pa hretry => ⟨fun h _ hal htr hp => ?_, fun h hal htr hp => ?_⟩⟩
  · have hv := fetchAt_run h.has hretry htr hp
    have hrun := jumpChecked_jmpi h hal hv
    refine ⟨fun hland => ?_, fun hland ht hm hh => ?_⟩
    · obtain ⟨t, he, hgo⟩ := endJump_goesTo h.has (.jmpi w) (Solo.values (.jmpi w) s th) pairTarget
      rw [hland] at hrun
      exact ⟨t, run_sameRest (hrun.trans he) hgo.2.2.2, hgo⟩
    · obtain ⟨t, he, hc, hr⟩ := endJump_takesCause ht hm hh (.jmpi w) (c := .landing) (by decide) pairTarget
      rw [hland] at hrun
      exact ⟨t, run_sameRest (hrun.trans he) hr, hc, hr⟩
  · have hv := fetchAt_run h.has hretry htr hp
    have hrun := jumpChecked_calli h hal hv
    refine ⟨fun hland => calli_taken h hland hal hv, fun hland ht hm hh => ?_⟩
    obtain ⟨t, he, hc, hr⟩ := endJump_takesCause ht hm hh (.calli w) (c := .landing) (by decide) pairTarget
    rw [hland] at hrun
    refine ⟨t, run_sameRest (hrun.trans ?_) hr, hc, hr⟩
    simp only [W.run_bind, Issued.oneOr, Bool.false_eq_true, if_false, List.map_nil, writeResults_nil]
    exact he

end Sys2Proof.Machine
end

section
/-!
Stamps of the PC table, the fairness promise, NAP and YIELD (04 R159, R166, R167, R190).
-/
namespace Sys2Proof.Machine

variable {i : Instr} {s t : State} {th : Thread} {w : Work} {c q : Nat}

/-! ### Quarters after an update -/

/-- A state with `x` as the record of quarter (c, q). -/
def State.putQuarter (s : State) (c q : Nat) (x : Quarter) : State :=
  { s with quarters := upsert (fun y => y.core = c && y.qtr = q) x s.quarters }

theorem modQuarter_run (c q : Nat) (f : Quarter → Quarter) (w : Work) :
    modQuarter c q f w = ((), { w with st := w.st.putQuarter c q (f (w.st.quarter c q)) }) := rfl

/-- The record that a quarter has been given is the one it has. -/
theorem quarter_putQuarter (s : State) {x : Quarter} (hc : x.core = c) (hq : x.qtr = q) : (s.putQuarter c q x).quarter c q = x := by
  unfold State.putQuarter
  rw [quarter_upsert s c q c q x hc hq, if_pos ⟨rfl, rfl⟩]

theorem quarter_putQuarter_ne (s : State) {x : Quarter} (hc : x.core = c) (hq : x.qtr = q) {c' q' : Nat} (h : ¬ (c' = c ∧ q' = q)) :
    (s.putQuarter c q x).quarter c' q' = s.quarter c' q' := by
  unfold State.putQuarter
  rw [quarter_upsert s c q c' q' x hc hq, if_neg h]

theorem quarter_map_clearWait (s : State) (g : IssueGroup) (c q : Nat) :
    (s.putQuarters (s.quarters.map (Quarter.clearWait g))).quarter c q = (s.quarter c q).clearWait g := by
  have hkey : ∀ x : Quarter, ((x.clearWait g).core = c && (x.clearWait g).qtr = q) = (x.core = c && x.qtr = q) := by
    intro x; unfold Quarter.clearWait; split <;> rfl
  unfold State.quarter State.putQuarters
  dsimp only
  rw [List.find?_map]
  simp only [Function.comp_def, hkey]
  cases s.quarters.find? fun x => x.core = c && x.qtr = q with
  | some x => rfl
  | none => unfold Quarter.clearWait; simp

/-! ### The fairness promise (R166) -/

theorem exec_fairnessDue_none {l : Nat} (pc : DWord) (h : s.promise l = none) : exec (.fairnessDue c q l pc) s = .next s := by
  refine run_quiet ?_ rfl rfl
  simp only [h]
  rfl

/-- The entries of a quarter once FAIRNESS_DUE has looked at those of (l, pc). -/
def dueEntries (l : Nat) (pc : DWord) (n : Nat) (es : List PcEntry) : List PcEntry :=
  es.map fun e => if e.lslot = l && e.pc = pc && e.wait ≥ n then { e with due := true } else e

theorem exec_fairnessDue_some {l n : Nat} (pc : DWord) (h : s.promise l = some n) :
    exec (.fairnessDue c q l pc) s
      = .next (s.putQuarter c q { s.quarter c q with entries := dueEntries l pc n (s.quarter c q).entries }) := by
  refine run_quiet ?_ rfl rfl
  simp only [h]
  rfl

theorem fairnessDue_marks {l n : Nat} (pc : DWord) (h : s.promise l = some n) :
    ∃ t, exec (.fairnessDue c q l pc) s = .next t ∧
      (t.quarter c q).entries = (s.quarter c q).entries.map (fun e =>
        if e.lslot = l ∧ e.pc = pc ∧ n ≤ e.wait then { e with due := true } else e) ∧ t.threads = s.threads ∧ SameMemory s t := by
  obtain ⟨hc, hq⟩ := quarter_core s c q
  refine ⟨_, exec_fairnessDue_some pc h, ?_, rfl, fun _ => rfl⟩
  rw [quarter_putQuarter s (by exact hc) (by exact hq)]
  exact List.map_congr_left fun e _ => by simp [and_assoc]

/-! ### Renumbering (R159) -/

theorem exec_stampRenumber_none (h : (s.quarter c q).stampCtr < 2 ^ 32 - 1) : exec (.stampRenumber c q) s = .next s := by
  refine run_quiet ?_ rfl rfl
  rw [W.run_ite, if_neg (Nat.not_le.2 h)]
  rfl

theorem exec_stampRenumber_some (h : 2 ^ 32 - 1 ≤ (s.quarter c q).stampCtr) :
    exec (.stampRenumber c q) s = .next (s.putQuarter c q (renumber (s.quarter c q))) := by
  refine run_quiet ?_ rfl rfl
  rw [W.run_ite, if_pos h]
  rfl

theorem older_of_lt {x e f : PcEntry} (h : e.stamp < f.stamp) (hx : x.older e = true) : x.older f = true := by
  simp only [PcEntry.older, Bool.or_eq_true, Bool.and_eq_true, decide_eq_true_eq] at hx ⊢
  omega

/-- An entry with a lower stamp has fewer entries before it. -/
theorem length_older_lt {es : List PcEntry} {e f : PcEntry} (he : e ∈ es) (h : e.stamp < f.stamp) :
    (es.filter fun x => x.older e).length < (es.filter fun x => x.older f).length := by
  have hsub : List.Sublist (es.filter fun x => x.older e) (es.filter fun x => x.older f) :=
    List.monotone_filter_right es fun x hx => older_of_lt h hx
  refine Nat.lt_of_le_of_ne hsub.length_le fun hlen => ?_
  have hf : e ∈ es.filter fun x => x.older f := List.mem_filter.2 ⟨he, by simp [PcEntry.older, h]⟩
  rw [← hsub.eq_of_length hlen] at hf
  simpa [PcEntry.older] using (List.mem_filter.1 hf).2

theorem renumber_entries (x : Quarter) : (renumber x).entries = x.entries.map fun e =>
    { e with stamp := (x.entries.filter fun y => y.older e).length } := rfl

theorem fairnessAndStamps : Claims.FairnessAndStamps := by
  refine ⟨fun s c q l pc n h => fairnessDue_marks pc h, fun s c q l pc h => exec_fairnessDue_none pc h,
    fun s c q h => exec_stampRenumber_none h, fun s c q h => ?_⟩
  obtain ⟨hc, hq⟩ := quarter_core s c q
  have hr : (s.putQuarter c q (renumber (s.quarter c q))).quarter c q = renumber (s.quarter c q) := quarter_putQuarter s hc hq
  refine ⟨_, exec_stampRenumber_some h, by rw [hr]; rfl, fun j k e f he hf hlt => ?_⟩
  rw [hr, renumber_entries]
  simp only [List.getElem?_map, he, hf, Option.map_some]
  exact ⟨_, _, rfl, rfl, length_older_lt (List.mem_of_getElem? he) hlt, rfl, rfl⟩

/-! ### NAP (R190) -/

theorem choose_lt (n : Nat) (hn : 0 < n) (w : Work) : ∃ k < n, ∃ cs, choose n w = (k, { w with st := { w.st with choices := cs } }) := by
  unfold choose
  rw [W.run_ite]
  split
  · exact ⟨0, hn, w.st.choices, rfl⟩
  · simp only [W.run_bind, W.run_getSt]
    cases w.st.choices with
    | nil => exact ⟨0, hn, w.st.choices, rfl⟩
    | cons c cs => exact ⟨c % n, Nat.mod_lt _ hn, cs, rfl⟩

/-- A thread's record after a NAP of `n` cycles that the device has made `m` cycles longer. -/
def Thread.napping (th : Thread) (w : IWord) (s : State) (n m : Nat) : Thread :=
  { th.issued (.nap w) (s.cur.pc + 8) with wait := .nap (s.issueClock (dieOf th.tid.core) + n + m) }

theorem exec_nap_none {w : IWord} (h : Solo (.nap w) s th) (hn : w.imm.toNat % 2 ^ 16 = 0) :
    ∃ q, exec (.nap w) s = .next ((s.putQuarters q).putThread (th.issued (.nap w) (s.cur.pc + 8))) := by
  obtain ⟨q, he⟩ := endIssue_acts h.has (.nap w) (Solo.values (.nap w) s th) (s.cur.pc + 8)
  refine ⟨q, run_quiet ?_ rfl rfl⟩
  simp only [W.run_bind, h.check, he, hn, ne_eq, not_true_eq_false, decide_false, Bool.false_and, Bool.false_eq_true, if_false,
    W.run_pure]

theorem exec_nap_some {w : IWord} (h : Solo (.nap w) s th) (hn : w.imm.toNat % 2 ^ 16 ≠ 0) :
    ∃ q cs m, m ≤ 64 ∧ exec (.nap w) s = .next
      (({ s with quarters := q, choices := cs } : State).putThread (th.napping w s (w.imm.toNat % 2 ^ 16) m)) := by
  obtain ⟨q, he⟩ := endIssue_acts h.has (.nap w) (Solo.values (.nap w) s th) (s.cur.pc + 8)
  obtain ⟨m, hm, cs, hc⟩ := choose_lt 65 (by omega) { st := (s.putQuarters q).putThread (th.issued (.nap w) (s.cur.pc + 8)) }
  have hp : park th.tid _ { st := ({ s with quarters := q, choices := cs } : State).putThread _ } = _ :=
    modThread_put (w := { st := { s with quarters := q, choices := cs } }) h.has rfl
      (a := th.issued (.nap w) (s.cur.pc + 8)) (b := th.napping w s (w.imm.toNat % 2 ^ 16) m) rfl rfl rfl
  refine ⟨q, cs, m, Nat.le_of_lt_succ hm, run_quiet ?_ rfl rfl⟩
  simp only [W.run_bind, h.check, he, hn, ne_eq, not_false_eq_true, decide_true, Bool.true_and, List.isEmpty_cons, Bool.not_false,
    if_true, hc, W.forIn_cons, W.forIn_nil, W.run_pure]
  exact congrArg (fun r : Unit × Work => ((), r.2)) hp

/-- NAP lets its thread go on for 0 cycles, and parks it otherwise. -/
theorem napParks (w : IWord) (s : State) (th : Thread) (h : Solo (.nap w) s th) :
    ∃ t, exec (.nap w) s = .next t ∧ OthersSame s t th.tid ∧ t.groups = s.groups ∧ SameMemory s t ∧
      (let n := w.imm.toNat % 2 ^ 16
      (n = 0 → t.thread? th.tid = some (th.issued (.nap w) (s.cur.pc + 8))) ∧
      (n ≠ 0 → ∃ m, m ≤ 64 ∧ t.thread? th.tid = some { th.issued (.nap w) (s.cur.pc + 8) with
        wait := .nap (s.issueClock (dieOf th.tid.core) + n + m) })) := by
  by_cases hn : w.imm.toNat % 2 ^ 16 = 0
  · obtain ⟨q, he⟩ := exec_nap_none h hn
    have hx := (State.Has.put (s := s.putQuarters q) h.has (a := th.issued (.nap w) (s.cur.pc + 8)) rfl).thread?
    exact ⟨_, he, fun v hv => thread?_putThread_ne (s := s.putQuarters q) (a := th.issued (.nap w) (s.cur.pc + 8)) hv, rfl,
      fun _ => rfl, fun _ => hx, fun h0 => absurd hn h0⟩
  · obtain ⟨q, cs, m, hm, he⟩ := exec_nap_some h hn
    have hx := (State.Has.put (s := { s with quarters := q, choices := cs }) h.has
      (a := th.napping w s (w.imm.toNat % 2 ^ 16) m) rfl).thread?
    exact ⟨_, he, fun v hv => thread?_putThread_ne (s := { s with quarters := q, choices := cs })
      (a := th.napping w s (w.imm.toNat % 2 ^ 16) m) hv, rfl, fun _ => rfl, fun h0 => absurd h0 hn, fun _ => ⟨m, hm, hx⟩⟩

/-! ### NAP_EXPIRE (R190) -/

theorem exec_napExpire {u : Nat} (h : s.Has th) (hw : th.wait = .nap u) :
    exec (.napExpire th.tid) s
      = .next (if u ≤ s.issueClock (dieOf th.tid.core) then s.putThread (th.endWait (.nap u)) else s) := by
  have hend : endWaitOf th.tid th.wait { st := s } = ((), { st := s.putThread (th.endWait (.nap u)) }) := by
    rw [hw]
    exact modThread_has (w := { st := s }) h _ rfl
  split
  next hu =>
    refine run_quiet ?_ rfl rfl
    simp only [h.thread?, hw, if_pos hu]
    exact hw ▸ hend
  next hu =>
    refine run_quiet ?_ rfl rfl
    simp only [h.thread?, hw, if_neg hu]
    rfl

/-- A NAP ends at its cycle and not before. -/
theorem napExpires (s : State) (th : Thread) (u : Nat) (h : s.threads.filter (fun x => x.tid = th.tid) = [th])
    (hw : th.wait = .nap u) :
    (u ≤ s.issueClock (dieOf th.tid.core) → ∃ t, exec (.napExpire th.tid) s = .next t ∧
      t.thread? th.tid = some (th.endWait (.nap u)) ∧ OthersSame s t th.tid ∧ SameRest s t) ∧
    (s.issueClock (dieOf th.tid.core) < u → exec (.napExpire th.tid) s = .next s) := by
  have he := exec_napExpire (s := s) h hw
  refine ⟨fun hu => ?_, fun hu => by rw [he, if_neg (Nat.not_le.2 hu)]⟩
  rw [if_pos hu] at he
  have hx := (State.Has.put (s := s) h (a := th.endWait (.nap u)) rfl).thread?
  exact ⟨_, he, hx, fun v hv => thread?_putThread_ne (s := s) (a := th.endWait (.nap u)) hv, rfl, rfl, rfl, fun _ _ => rfl⟩

/-! ### YIELD (R159, R167) -/

/-- The part of a quarter's PC table whose entries still have threads. -/
def State.freed (s : State) (x : Quarter) : Quarter :=
  { x with
    entries := x.entries.filter fun e => !(s.members x e).isEmpty
    overflow := x.overflow.filter fun t => (s.thread? t).any fun th => !th.idle }

/-- A quarter with its stamp counter at `n`. -/
def Quarter.countTo (x : Quarter) (n : Nat) : Quarter := { x with stampCtr := n }

theorem freeEntries_run (c q : Nat) (w : Work) :
    freeEntries c q w = ((), { w with st := w.st.putQuarter c q (w.st.freed (w.st.quarter c q)) }) := rfl

theorem freshStamp_run (h : (w.st.quarter c q).stampCtr < 2 ^ 32 - 1) :
    freshStamp c q w = ((w.st.quarter c q).stampCtr + 1,
      { w with st := w.st.putQuarter c q ((w.st.quarter c q).countTo ((w.st.quarter c q).stampCtr + 1)) }) := by
  unfold freshStamp
  simp only [W.run_bind, W.run_getSt, W.run_ite, if_neg (Nat.not_le.2 h), W.run_pure, modQuarter_run]
  rfl

theorem leaveSerial_skip (h : (w.st.quarter c q).serial = false) : leaveSerial c q w = ((), w) := by
  unfold leaveSerial
  simp [h]

/-- The quarter has the entry (l, pc) with stamp `st`. -/
def Quarter.Stamped (x : Quarter) (l : Nat) (pc : DWord) (st : Nat) : Prop :=
  ∃ e ∈ x.entries, e.lslot = l ∧ e.pc = pc ∧ e.stamp = st

/-- A forced arrival where the PC table has room gives the entry its stamp. -/
theorem joinEntry_forced (hs : (w.st.quarter c q).serial = false) (hr : (w.st.quarter c q).entries.length < 64) (l : Nat)
    (pc : DWord) (st : Nat) (ts : List ThreadId) :
    ∃ y : Quarter, joinEntry c q l pc st true ts w = ((), { w with st := w.st.putQuarter c q y }) ∧ y.core = c ∧ y.qtr = q ∧
      y.stampCtr = (w.st.quarter c q).stampCtr ∧ y.serial = false ∧ y.Stamped l pc st := by
  obtain ⟨hc, hq⟩ := quarter_core w.st c q
  unfold joinEntry
  simp only [W.run_bind, W.run_getSt, W.run_ite]
  split
  next hany =>
    obtain ⟨e, he, hk⟩ := List.any_eq_true.1 hany
    obtain ⟨hl, hpc⟩ := Bool.and_eq_true_iff.1 hk
    exact ⟨_, modQuarter_run .., hc, hq, rfl, hs, _, List.mem_map.2 ⟨e, he, if_pos hk⟩, of_decide_eq_true hl,
      of_decide_eq_true hpc, rfl⟩
  next =>
    rw [if_neg (by simp [hs, hr])]
    exact ⟨_, modQuarter_run .., hc, hq, rfl, hs, _, List.mem_append_right _ (List.mem_singleton.2 rfl), rfl, rfl, rfl⟩

/-- The arrival of one thread that yields gives the entry of its next word the youngest stamp. -/
theorem arrive_yield {t : ThreadId} (hs : (w.st.quarter t.core t.qtr).serial = false)
    (hr : (w.st.quarter t.core t.qtr).entries.length < 64) (hn : (w.st.quarter t.core t.qtr).stampCtr < 2 ^ 32 - 1) (old : Nat)
    (seq pc : DWord) :
    ((arrive old true seq [(t, pc)] w).2.st.quarter t.core t.qtr).stampCtr = (w.st.quarter t.core t.qtr).stampCtr + 1 ∧
      ((arrive old true seq [(t, pc)] w).2.st.quarter t.core t.qtr).Stamped w.st.cur.lslot pc
        ((w.st.quarter t.core t.qtr).stampCtr + 1) := by
  obtain ⟨hc, hq⟩ := quarter_core w.st t.core t.qtr
  generalize hx : w.st.quarter t.core t.qtr = x at *
  have hgo : modThread t (fun x => { x with pc }) w = ((), { w with st := w.st.setThread t fun x => x.goTo pc }) := rfl
  have hfree := freeEntries_run t.core t.qtr { w with st := w.st.setThread t fun x => x.goTo pc }
  rw [quarter_setThread, hx] at hfree
  generalize hy : (w.st.setThread t fun x => x.goTo pc).freed x = y at hfree
  have hyn : y.stampCtr = x.stampCtr := by rw [← hy]; rfl
  have hyl : y.entries.length ≤ x.entries.length := by rw [← hy]; exact List.length_filter_le ..
  generalize hw' : ({ w with st := (w.st.setThread t fun x => x.goTo pc).putQuarter t.core t.qtr y } : Work) = w' at hfree
  have hq' : w'.st.quarter t.core t.qtr = y := by
    rw [← hw']
    exact quarter_putQuarter _ (by rw [← hy]; exact hc) (by rw [← hy]; exact hq)
  have hfresh := freshStamp_run (w := w') (c := t.core) (q := t.qtr) (by rw [hq', hyn]; exact hn)
  rw [hq', hyn] at hfresh
  generalize hw'' : ({ w' with st := w'.st.putQuarter t.core t.qtr (y.countTo (x.stampCtr + 1)) } : Work) = w'' at hfresh
  have hq'' : w''.st.quarter t.core t.qtr = y.countTo (x.stampCtr + 1) := by
    rw [← hw'']
    exact quarter_putQuarter _ (by rw [← hy]; exact hc) (by rw [← hy]; exact hq)
  obtain ⟨z, hjoin, hzc, hzq, hzn, hzs, hz⟩ := joinEntry_forced (w := w'') (c := t.core) (q := t.qtr)
    (by rw [hq'', ← hy]; exact hs) (by rw [hq'']; exact Nat.lt_of_le_of_lt hyl hr) w.st.cur.lslot pc (x.stampCtr + 1) [t]
  have hqz : (w''.st.putQuarter t.core t.qtr z).quarter t.core t.qtr = z := quarter_putQuarter _ hzc hzq
  have hleave := leaveSerial_skip (w := { w'' with st := w''.st.putQuarter t.core t.qtr z }) (c := t.core) (q := t.qtr)
    (by rw [hqz]; exact hzs)
  have hrun : arrive old true seq [(t, pc)] w = ((), { w'' with st := w''.st.putQuarter t.core t.qtr z }) := by
    unfold arrive
    simp only [W.run_bind, W.run_getSt, W.forIn_cons, W.forIn_nil, W.run_pure, hgo, hfree, if_true, hfresh, List.map_cons,
      List.map_nil, List.eraseDups_cons, List.eraseDups_nil, List.filter_nil, List.filter_cons, decide_true, hjoin, hleave]
  rw [hrun]
  dsimp only
  rw [hqz]
  exact ⟨by rw [hzn, hq'']; rfl, hz⟩

theorem stamped_clearWait {x : Quarter} {l : Nat} {pc : DWord} {n : Nat} (h : x.Stamped l pc n) (g : IssueGroup) :
    (x.clearWait g).Stamped l pc n := by
  obtain ⟨e, he, hl, hpc, hst⟩ := h
  unfold Quarter.clearWait
  split
  · refine ⟨_, List.mem_map.2 ⟨e, he, rfl⟩, ?_⟩
    split <;> exact ⟨hl, hpc, hst⟩
  · exact ⟨e, he, hl, hpc, hst⟩

theorem stampCtr_clearWait (x : Quarter) (g : IssueGroup) : (x.clearWait g).stampCtr = x.stampCtr := by
  unfold Quarter.clearWait
  split <;> rfl

/-- The end of an issue of one thread that yields: as at other words, and its entry has the youngest stamp. -/
theorem endIssue_yields (h : s.Has th) (hs : (s.quarter th.tid.core th.tid.qtr).serial = false)
    (hr : (s.quarter th.tid.core th.tid.qtr).entries.length < 64)
    (hn : (s.quarter th.tid.core th.tid.qtr).stampCtr < 2 ^ 32 - 1) (i : Instr) (vals : List Nat) (pc : DWord) :
    ∃ t, endIssue i { act := [(th, vals)], pass := [], bad := [] } (fun _ => pc) true { st := s } = ((), { st := t }) ∧
      GoesTo s t i th pc ∧
      (t.quarter th.tid.core th.tid.qtr).stampCtr = (s.quarter th.tid.core th.tid.qtr).stampCtr + 1 ∧
      (t.quarter th.tid.core th.tid.qtr).Stamped s.cur.lslot pc ((s.quarter th.tid.core th.tid.qtr).stampCtr + 1) := by
  generalize hw : ({ st := s.setThread th.tid (issuedRec i [th] th.tid) } : Work) = w
  have hwq : w.st.quarter th.tid.core th.tid.qtr = s.quarter th.tid.core th.tid.qtr := by rw [← hw]; rfl
  obtain ⟨hctr, hst⟩ := arrive_yield (w := w) (t := th.tid) (hwq ▸ hs) (hwq ▸ hr) (hwq ▸ hn) w.st.curStamp (s.cur.pc + 8) pc
  obtain ⟨q, he, heng⟩ := arrive_eq w.st.curStamp true (s.cur.pc + 8) [(th.tid, pc)] w
  have hcur : w.st.cur = s.cur := by rw [← hw]; rfl
  rw [he, hwq] at hctr hst
  rw [hcur] at hst
  have hset : (w.st.setPcs [(th.tid, pc)]).putQuarters q = (s.putThread (th.issued i pc)).putQuarters q := by
    rw [← hw]
    unfold State.setPcs
    simp only [List.foldl_cons, List.foldl_nil]
    rw [setThread_setThread _ _ _ _ (by exact fun _ => rfl), h.set _ (by rfl), issued_rec]
  rw [hset] at he hctr hst
  have hquarter := quarter_map_clearWait ((s.putThread (th.issued i pc)).putQuarters q) s.cur
  refine ⟨(s.putThread (th.issued i pc)).putQuarters (q.map (Quarter.clearWait s.cur)), ?_,
    ⟨(h.put (a := th.issued i pc) rfl).thread?, rfl,
      fun v hv => thread?_putThread_ne (s := s) (a := th.issued i pc) hv, rfl, rfl, rfl, fun c k => ?_⟩, ?_, ?_⟩
  · subst hw
    unfold endIssue
    simp only [W.run_bind, W.run_getSt, issuedBy_run, List.map_cons, List.map_nil, List.append_nil, List.foldl_cons,
      List.foldl_nil, List.isEmpty_cons, Bool.not_false, Bool.and_true, if_true]
    have hnone : arrive s.curStamp false (s.cur.pc + 8) [] { st := s.setThread th.tid (issuedRec i [th] th.tid) }
      = ((), { st := s.setThread th.tid (issuedRec i [th] th.tid) }) := rfl
    have hyield : (arrive s.curStamp true (s.cur.pc + 8) [(th.tid, pc)] { st := s.setThread th.tid (issuedRec i [th] th.tid) }).2
      = _ := he
    rw [hnone, hyield]
    rfl
  · exact (congrArg Quarter.engine ((hquarter c k).trans rfl)).trans ((clearWait_engine _ _).trans
      ((heng c k).trans (by rw [← hw]; rfl)))
  · exact (congrArg Quarter.stampCtr (hquarter _ _)).trans ((stampCtr_clearWait _ _).trans hctr)
  · have := stamped_clearWait hst s.cur
    rw [← hquarter] at this
    exact this

theorem yieldGivesTheYoungestStamp (w : IWord) (s : State) (th : Thread) (h : Solo (.yield w) s th) 
    (hs : (s.quarter s.cur.core s.cur.qtr).serial = false) (hr : (s.quarter s.cur.core s.cur.qtr).entries.length < 64)
    (hn : (s.quarter s.cur.core s.cur.qtr).stampCtr < 2 ^ 32 - 1) :
    ∃ t, exec (.yield w) s = .next t ∧ GoesTo s t (.yield w) th (s.cur.pc + 8) ∧
      (t.quarter s.cur.core s.cur.qtr).stampCtr = (s.quarter s.cur.core s.cur.qtr).stampCtr + 1 ∧
      (t.quarter s.cur.core s.cur.qtr).Stamped s.cur.lslot (s.cur.pc + 8) ((s.quarter s.cur.core s.cur.qtr).stampCtr + 1) := by
  obtain ⟨hcore, hqtr, -, -⟩ := h.place
  rw [hcore, hqtr] at hs hr hn ⊢
  obtain ⟨t, he, hgo, hctr, hst⟩ := endIssue_yields h.has hs hr hn (.yield w) (Solo.values (.yield w) s th) (s.cur.pc + 8)
  refine ⟨t, run_sameRest ?_ hgo.2.2.2, hgo, hctr, hst⟩
  rw [W.run_bind, h.check]
  exact he

/-- Settles O15: YIELD, NAP and NAP_EXPIRE of one thread, FAIRNESS_DUE and STAMP_RENUMBER of one quarter. -/
theorem yieldNapAndFairness : Obligations.YieldNapAndFairness :=
  ⟨⟨fun w s th h _ => yieldGivesTheYoungestStamp w s th h, napParks, napExpires⟩, fairnessAndStamps⟩

end Sys2Proof.Machine
end

section
/-!
Named barriers (04 R183): the arrival of one thread, counted or late, and the phase that it completes.
-/
namespace Sys2Proof.Machine

variable {i : Instr} {s t : State} {th : Thread} {w w' : Work} {tm : Team} {b n : Nat}

/-! ### Loops in which one element does something -/

/-- A loop in which only the one element with `p` does something. -/
theorem W.forIn_one {α : Type} {p : α → Bool} {a : α} {xs : List α} {g : α → PUnit → W (ForInStep PUnit)}
    (h : xs.filter p = [a]) (hskip : ∀ x ∈ xs, p x = false → ∀ v : Work, v = w ∨ v = w' → g x () v = (.yield (), v))
    (hrun : g a () w = (.yield (), w')) : forIn xs () g w = ((), w') := by
  induction xs with
  | nil => cases h
  | cons x xs ih =>
    have hmem : ∀ y ∈ xs, y ∈ x :: xs := fun y => List.mem_cons_of_mem x
    rw [W.forIn_cons]
    by_cases hx : p x = true
    · rw [List.filter_cons_of_pos hx] at h
      obtain ⟨rfl, hnil⟩ := List.cons.inj h
      rw [hrun]
      refine forIn_skip _ _ _ fun y hy => hskip y (hmem y hy) ?_ w' (.inr rfl)
      simpa using List.filter_eq_nil_iff.1 hnil y hy
    · rw [List.filter_cons_of_neg hx] at h
      rw [hskip x List.mem_cons_self (by simpa using hx) w (.inl rfl)]
      exact ih h fun y hy => hskip y (hmem y hy)

theorem range_filter_one {n b : Nat} (h : b < n) : (List.range n).filter (fun x => decide (x = b)) = [b] := by
  induction n with
  | zero => omega
  | succ n ih =>
    rw [List.range_succ, List.filter_append]
    rcases Nat.lt_succ_iff_lt_or_eq.1 h with hb | rfl
    · simp [ih hb, Nat.ne_of_gt hb]
    · have : (List.range b).filter (fun x => decide (x = b)) = [] := by
        simp only [List.filter_eq_nil_iff, List.mem_range, decide_eq_true_eq]
        omega
      simp [this]

/-- A change that leaves the records of its thread as they are. -/
theorem modThread_same {u : ThreadId} {f : Thread → Thread} (h : ∀ y ∈ w.st.threads, y.tid = u → f y = y) :
    modThread u f w = ((), w) := by
  have hthreads : w.st.threads.map (fun x => if x.tid = u then f x else x) = w.st.threads := by
    refine .trans (List.map_congr_left fun y hy => ?_) (List.map_id _)
    split
    next hu => exact h y hy hu
    next => rfl
  exact congrArg (fun l => (((), { w with st := { w.st with threads := l } }) : Unit × Work)) hthreads

/-! ### Threads of a team -/

theorem teamThreads_one (h : s.Has th) : (s.teamThreads th.tid.core th.slot).filter (fun y => decide (y.tid = th.tid)) = [th] := by
  have hone : s.threads.filter (fun y => decide (y.tid = th.tid)) = [th] := h
  unfold State.teamThreads
  rw [List.filter_filter]
  simp only [Bool.and_comm (decide (_ = th.tid))]
  rw [← List.filter_filter, hone]
  simp

theorem mem_teamThreads {c sl : Nat} {y : Thread} : y ∈ s.teamThreads c sl ↔ y ∈ s.threads ∧ y.tid.core = c ∧ y.slot = sl := by
  simp [State.teamThreads]

/-- A change of one thread's record that keeps its team and whether it is idle keeps the number of live threads. -/
theorem length_liveThreads_putThread {a : Thread} (h : s.Has th) (ht : a.tid = th.tid) (hs : a.slot = th.slot)
    (hi : a.idle = th.idle) (c sl : Nat) : ((s.putThread a).liveThreads c sl).length = (s.liveThreads c sl).length := by
  have hkeep : ∀ y ∈ s.threads, ((fun z : Thread => decide (z.tid.core = c) && decide (z.slot = sl) && !z.idle)
      (if y.tid = a.tid then a else y)) = (decide (y.tid.core = c) && decide (y.slot = sl) && !y.idle) := by
    intro y hy
    split
    next hu => rw [h.eq hy (hu.trans ht)]; simp [ht, hs, hi]
    next => rfl
  unfold State.liveThreads State.teamThreads State.putThread State.setThread
  simp only [List.filter_filter, List.filter_map, List.length_map]
  refine congrArg List.length (List.filter_congr fun y hy => ?_)
  have := hkeep y hy
  simp only [Function.comp_apply] at this ⊢
  rw [Bool.and_comm, this, Bool.and_comm]

/-! ### Arrivals that are counted -/

/-- No arrival of the team's threads is to be counted now. -/
def State.noArrival (s : State) (c sl : Nat) : Prop := ∀ y ∈ s.teamThreads c sl, ∀ a ∈ y.late, y.arrived a = false

theorem countTeam_skip (h : w.st.noArrival tm.core tm.slot) : countTeam tm w = ((), w) := by
  unfold countTeam
  simp only [W.run_bind, W.run_getSt]
  rw [forIn_skip _ _ _ fun b _ => ?_]
  · rfl
  · have hns : ((w.st.teamThreads tm.core tm.slot).flatMap fun t =>
        (t.late.filter fun a => a.bar = b && t.arrived a).map LateArrival.n) = [] := by
      simp only [List.flatMap_eq_nil_iff, List.map_eq_nil_iff, List.filter_eq_nil_iff]
      intro y hy a ha
      simp [h y hy a ha]
    rw [hns]
    rfl

/-- No thread has an arrival that is still to be counted. -/
def State.noLate (s : State) : Prop := ∀ y ∈ s.threads, y.late = []

theorem noArrival_of_noLate (h : s.noLate) (c sl : Nat) : s.noArrival c sl := by
  intro y hy a ha
  rw [h y (mem_teamThreads.1 hy).1] at ha
  cases ha

/-- A thread's record once its arrivals are counted. -/
def Thread.counted (x : Thread) : Thread := { x with late := [] }

theorem counted_same {y : Thread} (h : y.late = []) (p : LateArrival → Bool) : { y with late := y.late.filter p } = y := by
  rw [h, List.filter_nil, ← h]

/-- Thread `a` has the one arrival `l` that is to be counted now. -/
structure State.OneArrival (s : State) (a : Thread) (l : LateArrival) : Prop where
  has     : s.Has a
  late    : a.late = [l]
  arrived : a.arrived l = true
  bar     : l.bar < 16
  others  : ∀ y ∈ s.threads, y.tid ≠ a.tid → y.late = []

theorem State.OneArrival.noLate {a : Thread} {l : LateArrival} (h : s.OneArrival a l) : (s.putThread a.counted).noLate := by
  intro y hy
  rcases putThread_mem hy with rfl | ⟨hy, hne⟩
  · rfl
  · exact h.others y hy hne

/-- The one arrival is taken from its thread's record and counted at its barrier. -/
theorem countTeam_one {a : Thread} {l : LateArrival} (h : s.OneArrival a l) (hc : tm.core = a.tid.core) (hs : tm.slot = a.slot) :
    countTeam tm { st := s } = ((), (barArrive a.tid.core a.slot l.bar [l.n] { st := s.putThread a.counted }).2) := by
  have hns : ∀ b, ((s.teamThreads a.tid.core a.slot).flatMap fun t =>
      (t.late.filter fun x => x.bar = b && t.arrived x).map LateArrival.n) = if b = l.bar then [l.n] else [] := by
    intro b
    rw [flatMap_one (teamThreads_one h.has) _ fun y hy hne => by simp [h.others y (mem_teamThreads.1 hy).1 hne], h.late]
    rcases eq_or_ne b l.bar with rfl | hb
    · simp [h.arrived]
    · simp [hb, hb.symm]
  have hclear : (forIn (s.teamThreads a.tid.core a.slot) () fun t _ => (do
        modThread t.tid fun x => { x with late := x.late.filter fun y => !(y.bar = l.bar && x.arrived y) }
        pure (ForInStep.yield ()) : W _)) { st := s } = ((), { st := s.putThread a.counted }) := by
    refine W.forIn_one (teamThreads_one h.has) (fun y hy hne v hv => ?_) ?_
    · have hstay : modThread y.tid (fun x => { x with late := x.late.filter fun y => !(y.bar = l.bar && x.arrived y) }) v
          = ((), v) := by
        refine modThread_same fun z hz hzt => counted_same ?_ _
        have hne : z.tid ≠ a.tid := by rw [hzt]; simpa using hne
        rcases hv with rfl | rfl
        · exact h.others z hz hne
        · exact h.noLate z hz
      rw [W.run_bind, hstay]
      rfl
    · rw [W.run_bind, modThread_has (w := { st := s }) h.has _ rfl]
      simp only [h.late, List.filter_cons, List.filter_nil, h.arrived, decide_true, Bool.and_self, Bool.not_true,
        Bool.false_eq_true, if_false]
      rfl
  unfold countTeam
  simp only [W.run_bind, W.run_getSt, hc, hs, hns]
  rw [W.forIn_one (range_filter_one h.bar) (w' := (barArrive a.tid.core a.slot l.bar [l.n] { st := s.putThread a.counted }).2)]
  · rfl
  · intro b _ hb v _
    rw [if_neg (by simpa using hb)]
    rfl
  · rw [if_pos rfl]
    simp only [List.isEmpty_cons, Bool.not_false, if_true, W.run_bind]
    rw [hclear]
    rfl

/-- The arrivals of a cycle, when there is one to count. -/
theorem countArrivals_one {a : Thread} {l : LateArrival} (h : s.OneArrival a l)
    (htm : s.teams.filter (fun x => x.core = a.tid.core && x.slot = a.slot) = [tm])
    (hl : (barArrive a.tid.core a.slot l.bar [l.n] { st := s.putThread a.counted }).2.st.noLate) :
    countArrivals { st := s } = ((), (barArrive a.tid.core a.slot l.bar [l.n] { st := s.putThread a.counted }).2) := by
  have hmem : tm ∈ s.teams.filter (fun x => x.core = a.tid.core && x.slot = a.slot) := htm ▸ List.mem_singleton.2 rfl
  have hkey := (List.mem_filter.1 hmem).2
  simp only [Bool.and_eq_true, decide_eq_true_eq] at hkey
  have hany : (s.threads.any fun t => !t.late.isEmpty) = true := by
    have ha : a ∈ s.threads.filter (fun y => y.tid = a.tid) := h.has ▸ List.mem_singleton.2 rfl
    exact List.any_eq_true.2 ⟨a, (List.mem_filter.1 ha).1, by simp [h.late]⟩
  unfold countArrivals
  simp only [W.run_bind, W.run_getSt, hany, if_true]
  refine W.forIn_one htm (fun x _ hne v hv => ?_) ?_
  · have hskip : countTeam x v = ((), v) := by
      refine countTeam_skip ?_
      rcases hv with rfl | rfl
      · intro y hy z hz
        obtain ⟨hy, hyc, hys⟩ := mem_teamThreads.1 hy
        by_cases hya : y.tid = a.tid
        · rw [h.has.eq hy hya] at hyc hys
          simp [hyc, hys] at hne
        · rw [h.others y hy hya] at hz
          cases hz
      · exact noArrival_of_noLate hl _ _
    rw [W.run_bind, hskip]
    rfl
  · rw [W.run_bind, countTeam_one h hkey.1 hkey.2]
    rfl

theorem countArrivals_skip (h : ∀ c sl, w.st.noArrival c sl) : countArrivals w = ((), w) := by
  unfold countArrivals
  simp only [W.run_bind, W.run_getSt, W.run_ite]
  split
  · refine forIn_skip _ _ _ fun x _ => ?_
    rw [W.run_bind, countTeam_skip (h _ _)]
    rfl
  · rfl

/-! ### The phase of a barrier -/

/-- A team with `x` as its barrier `b`. -/
def Team.setBar (tm : Team) (b : Nat) (x : Bar) : Team := { tm with bars := tm.bars.set b x }

theorem bar_setBar (h : b < tm.bars.length) (x : Bar) : (tm.setBar b x).bar b = x := by
  simp [Team.setBar, Team.bar, h]

theorem setBar_setBar (tm : Team) (b : Nat) (x y : Bar) : (tm.setBar b x).setBar b y = tm.setBar b y := by
  simp [Team.setBar]

theorem barArrive_one (c sl b n : Nat) (w : Work) :
    barArrive c sl b [n] w = barCheck c sl b { w with st := w.st.setTeam c sl fun tm => tm.setBar b ((tm.bar b).arrived n) } := rfl

/-- A barrier whose phase is not complete: only its target is brought up to date. -/
def Bar.await (x : Bar) (live : Nat) : Bar := { x with target := if x.auto then live else x.target }

theorem barCheck_waits {c sl live : Nat} {x : Bar} (ht : w.st.team? c sl = some tm) (hb : tm.bar b = x)
    (hl : (w.st.liveThreads c sl).length = live) (hx : x.complete live = false) :
    barCheck c sl b w = ((), { w with st := w.st.setTeam c sl fun y => y.setBar b (x.await live) }) := by
  have hle : ¬ (if x.auto then live else x.target) ≤ x.arrivals := by
    simpa [Bar.complete] using hx
  unfold barCheck
  simp only [W.run_bind, W.run_getSt, ht, hb, hl, hle, decide_false, Bool.and_false, Bool.false_eq_true, if_false]
  rfl

/-- The threads of a team once the phase of barrier `b` has ended for them. -/
def State.endBars (s : State) (ts : List Thread) (b : Nat) : State := ts.foldl (fun s y => s.setThread y.tid (·.endBar b)) s

theorem barCheck_completes {c sl live : Nat} {x : Bar} (ht : w.st.team? c sl = some tm) (hb : tm.bar b = x) (h0 : 0 < x.arrivals)
    (hl : (w.st.liveThreads c sl).length = live) (hx : x.complete live = true) :
    barCheck c sl b w = ((), { w with st :=
      (w.st.setTeam c sl fun y => y.setBar b { phase := x.phase + 1 }).endBars (w.st.teamThreads c sl) b }) := by
  have hle : (if x.auto then live else x.target) ≤ x.arrivals := by
    simpa [Bar.complete] using hx
  unfold barCheck
  simp only [W.run_bind, W.run_getSt, ht, hb, hl, hle, decide_true, Bool.and_true, h0, gt_iff_lt, if_true]
  exact forIn_modThread _ Thread.tid (fun _ x => x.endBar b) _ _

theorem endBars_eq (s : State) (ts : List Thread) (b : Nat) : s.endBars ts b = { s with threads := (s.endBars ts b).threads } := by
  induction ts generalizing s with
  | nil => rfl
  | cons x xs ih => exact ih _

theorem endBar_eq {x : Thread} (h : x.late = []) (b : Nat) : x.endBar b = x.endWait (.bar b) := by
  simp [Thread.endBar, Thread.endWait, Thread.uncounted, h]

/-- The records after the phase has ended for the threads `ts`: each comes from a record of the same thread, and waits for
the barrier no more when it is one of them. -/
theorem mem_endBars (ts : List Thread) (hl : s.noLate) {z : Thread} (hz : z ∈ (s.endBars ts b).threads) :
    ∃ y ∈ s.threads, z.tid = y.tid ∧ z.slot = y.slot ∧ z.late = [] ∧
      ((∃ x ∈ ts, x.tid = y.tid) ∨ y.wait ≠ .bar b → z.wait ≠ .bar b) := by
  induction ts generalizing s with
  | nil => exact ⟨z, hz, rfl, rfl, hl z hz, fun h => h.elim (fun ⟨_, hx, _⟩ => absurd hx List.not_mem_nil) id⟩
  | cons x xs ih =>
    have hl' : (s.setThread x.tid (·.endBar b)).noLate := by
      intro y hy
      obtain ⟨u, hu, rfl⟩ := List.mem_map.1 hy
      dsimp only
      split <;> exact hl u hu
    obtain ⟨y, hy, ht, hs, hlate, hw⟩ := ih hl' hz
    obtain ⟨u, hu, rfl⟩ := List.mem_map.1 hy
    dsimp only at ht hs hw
    by_cases hux : u.tid = x.tid
    · rw [if_pos hux] at ht hs hw
      refine ⟨u, hu, ht, hs, hlate, fun _ => hw (.inr ?_)⟩
      rw [endBar_eq (hl u hu)]
      unfold Thread.endWait
      dsimp only
      split <;> simp_all
    · rw [if_neg hux] at ht hs hw
      refine ⟨u, hu, ht, hs, hlate, fun h => hw (h.imp_left ?_)⟩
      rintro ⟨v, hv, hvu⟩
      rcases List.mem_cons.1 hv with rfl | hv
      · exact absurd hvu.symm hux
      · exact ⟨v, hv, hvu⟩

/-! ### BAR and BARARV -/

/-- The arrival that BAR or BARARV makes for a thread. -/
def lateOf (w : IWord) (s : State) (th : Thread) : LateArrival :=
  { bar := w.imm.toNat % 16, n := barCount w, since := s.clock + 1, hand := th.handler }

/-- A thread's record at its arrival, which is still to be counted. -/
def Thread.arriving (th : Thread) (i : Instr) (w : IWord) (wait : Bool) (s : State) : Thread :=
  { th.issued i (s.cur.pc + 8) with
    wait := if wait then .bar (w.imm.toNat % 16) else th.wait
    late := [lateOf w s th] }

theorem State.Has.mem (h : s.Has th) : th ∈ s.threads :=
  List.mem_of_mem_filter (h ▸ List.mem_singleton.2 rfl : th ∈ s.threads.filter fun y => y.tid = th.tid)

theorem arriveBar_solo {w : IWord} (h : Solo i s th) (hl : th.late = []) (wait : Bool) :
    ∃ q, arriveBar i w wait s { st := s } = countArrivals { st := (s.putQuarters q).putThread (th.arriving i w wait s) } := by
  obtain ⟨q, he⟩ := endIssue_acts h.has i (Solo.values i s th) (s.cur.pc + 8)
  have ha : (th.issued i (s.cur.pc + 8)).late = [] := hl
  have hput := modThread_put (w := { st := s.putQuarters q }) h.has rfl (a := th.issued i (s.cur.pc + 8))
    (f := fun t => { t with wait := if wait then .bar (w.imm.toNat % 16) else t.wait, late := t.late ++ [lateOf w s th] })
    (b := th.arriving i w wait s) rfl (by rw [ha]; rfl) rfl
  refine ⟨q, ?_⟩
  unfold arriveBar
  simp only [W.run_bind, h.check, he, W.forIn_cons, W.forIn_nil, W.run_pure]
  exact congrArg (fun r : Unit × Work => countArrivals r.2) hput

theorem arriving_others {w : IWord} (hl : s.noLate) (q : List Quarter) (wait : Bool) :
    ∀ y ∈ ((s.putQuarters q).putThread (th.arriving i w wait s)).threads, y.tid ≠ th.tid → y.late = [] := by
  intro y hy hne
  rcases putThread_mem hy with rfl | ⟨hy, -⟩
  · exact absurd rfl hne
  · exact hl y hy

theorem arriving_has {w : IWord} (h : s.Has th) (q : List Quarter) (wait : Bool) :
    ((s.putQuarters q).putThread (th.arriving i w wait s)).Has (th.arriving i w wait s) :=
  State.Has.put (s := s.putQuarters q) h rfl

/-- An arrival that an earlier access holds back is not counted. -/
theorem arriveBar_late {w : IWord} (h : Solo i s th) (hl : s.noLate) (hm : th.handler = false)
    (hopen : ∃ e ∈ th.unf, e.open_ = true ∧ e.tag ≤ s.clock) (wait : Bool) :
    ∃ q, arriveBar i w wait s { st := s } = ((), { st := (s.putQuarters q).putThread (th.arriving i w wait s) }) := by
  obtain ⟨q, he⟩ := arriveBar_solo (w := w) h (hl th h.has.mem) wait
  refine ⟨q, he.trans (countArrivals_skip fun c sl y hy l hlm => ?_)⟩
  have hy := (mem_teamThreads.1 hy).1
  by_cases ht : y.tid = th.tid
  · obtain ⟨e, hmem, ho, htag⟩ := hopen
    rw [(arriving_has h.has q wait).eq hy ht] at hlm ⊢
    rw [List.mem_singleton.1 hlm]
    have hnot : ¬ s.clock + 1 ≤ e.tag := by omega
    exact List.all_eq_false.2 ⟨e, hmem, by simp [lateOf, ho, hm, hnot]⟩
  · rw [arriving_others hl q wait y hy ht] at hlm
    cases hlm

/-- An arrival with no access before it is to be counted at once. -/
theorem arriving_oneArrival {w : IWord} (h : s.Has th) (hl : s.noLate) (hdone : ∀ e ∈ th.unf, e.open_ = false) (q : List Quarter)
    (wait : Bool) :
    ((s.putQuarters q).putThread (th.arriving i w wait s)).OneArrival (th.arriving i w wait s) (lateOf w s th) where
  has := arriving_has h q wait
  late := rfl
  arrived := List.all_eq_true.2 fun e he => by simp [hdone e he]
  bar := Nat.mod_lt _ (by omega)
  others := arriving_others hl q wait

/-- The barrier that an arrival of the thread meets, once the arrival is counted. -/
def Team.arrivedBar (tm : Team) (w : IWord) : Bar := (tm.bar (w.imm.toNat % 16)).arrived (barCount w)

/-- The state in which the arrival of a thread is counted and the phase is tested. -/
def State.barCounted (s : State) (i : Instr) (th : Thread) (w : IWord) (wait : Bool) (q : List Quarter) : State :=
  ((s.putQuarters q).putThread (th.arriving i w wait s).counted).setTeam th.tid.core th.slot fun tm =>
    tm.setBar (w.imm.toNat % 16) (tm.arrivedBar w)

theorem barArrive_arriving {w : IWord} (q : List Quarter) (wait : Bool) :
    barArrive th.tid.core th.slot (lateOf w s th).bar [(lateOf w s th).n]
        { st := ((s.putQuarters q).putThread (th.arriving i w wait s)).putThread (th.arriving i w wait s).counted }
      = barCheck th.tid.core th.slot (w.imm.toNat % 16) { st := s.barCounted i th w wait q } := by
  rw [barArrive_one, State.putThread_put (by rfl)]
  rfl

theorem barCounted_team {w : IWord} (htm : s.team? th.tid.core th.slot = some tm) (i : Instr) (wait : Bool) (q : List Quarter) :
    (s.barCounted i th w wait q).team? th.tid.core th.slot = some (tm.setBar (w.imm.toNat % 16) (tm.arrivedBar w)) := by
  unfold State.barCounted
  rw [team?_setTeam _ _ _ (by exact fun _ => ⟨rfl, rfl⟩)]
  exact congrArg (Option.map _) htm

theorem barCounted_live {w : IWord} (h : s.Has th) (i : Instr) (wait : Bool) (q : List Quarter) (c sl : Nat) :
    ((s.barCounted i th w wait q).liveThreads c sl).length = (s.liveThreads c sl).length :=
  length_liveThreads_putThread (s := s.putQuarters q) (a := (th.arriving i w wait s).counted) h rfl rfl rfl c sl

theorem barCounted_noLate {w : IWord} (hl : s.noLate) (i : Instr) (wait : Bool) (q : List Quarter) :
    (s.barCounted i th w wait q).noLate := by
  intro y hy
  rcases putThread_mem (s := s.putQuarters q) hy with rfl | ⟨hy, -⟩
  · rfl
  · exact hl y hy

theorem barCounted_has {w : IWord} (h : s.Has th) (i : Instr) (wait : Bool) (q : List Quarter) :
    (s.barCounted i th w wait q).Has (th.arriving i w wait s).counted :=
  State.Has.put (s := s.putQuarters q) (a := (th.arriving i w wait s).counted) h rfl

theorem barCounted_other {w : IWord} (i : Instr) (wait : Bool) (q : List Quarter) :
    OthersSame s (s.barCounted i th w wait q) th.tid :=
  fun _ hv => thread?_putThread_ne (s := s.putQuarters q) (a := (th.arriving i w wait s).counted) hv

theorem arrivedBar_pos (tm : Team) (w : IWord) : 0 < (tm.arrivedBar w).arrivals := by
  unfold Team.arrivedBar Bar.arrived
  split <;> simp

theorem arrivedBar_phase (tm : Team) (w : IWord) : (tm.arrivedBar w).phase = (tm.bar (w.imm.toNat % 16)).phase := by
  unfold Team.arrivedBar Bar.arrived
  split <;> rfl

/-- What an arrival with no access before it does: it is counted, and the phase is tested. -/
theorem arriveBar_counts {v : IWord} (h : Solo i s th) (hl : s.noLate) (hdone : ∀ e ∈ th.unf, e.open_ = false)
    (htm : s.teams.filter (fun x => x.core = th.tid.core && x.slot = th.slot) = [tm]) (wait : Bool) {f : List Quarter → State}
    (hcheck : ∀ q, barCheck th.tid.core th.slot (v.imm.toNat % 16) { st := s.barCounted i th v wait q } = ((), { st := f q }))
    (hend : ∀ q, (f q).noLate) : ∃ q, arriveBar i v wait s { st := s } = ((), { st := f q }) := by
  obtain ⟨q, he⟩ := arriveBar_solo (w := v) h (hl th h.has.mem) wait
  have hcount := countArrivals_one (arriving_oneArrival (i := i) (w := v) h.has hl hdone q wait) htm
  rw [show (th.arriving i v wait s).tid = th.tid from rfl, show (th.arriving i v wait s).slot = th.slot from rfl,
    barArrive_arriving, hcheck q] at hcount
  exact ⟨q, he.trans (hcount (hend q))⟩

/-- The record of the thread whose arrival has completed the phase. -/
theorem endBar_counted {w : IWord} (hlate : th.late = []) (hready : th.wait = .ready) (wait : Bool) :
    (th.arriving i w wait s).counted.endBar (w.imm.toNat % 16)
      = (th.issued i (s.cur.pc + 8)).endWait (.bar (w.imm.toNat % 16)) := by
  rw [endBar_eq (by rfl)]
  cases wait <;> simp [Thread.endWait, Thread.counted, Thread.arriving, Thread.issued, hlate, hready]

section Counted

variable {v : IWord} (h : Solo i s th) (hl : s.noLate) (hdone : ∀ e ∈ th.unf, e.open_ = false)
  (htm : s.teams.filter (fun x => x.core = th.tid.core && x.slot = th.slot) = [tm]) (hb : tm.bars.length = 16) (wait : Bool)
include h hl hdone htm hb

/-- An arrival that leaves its phase incomplete is counted. -/
theorem arriveBar_waits (hx : (tm.arrivedBar v).complete (s.liveThreads th.tid.core th.slot).length = false) :
    ∃ t y, run (arriveBar i v wait s) s = .next t ∧ t.thread? th.tid = some (th.arriving i v wait s).counted ∧
      t.team? th.tid.core th.slot = some y ∧ (y.bar (v.imm.toNat % 16)).arrivals = (tm.arrivedBar v).arrivals ∧
      (y.bar (v.imm.toNat % 16)).phase = (tm.bar (v.imm.toNat % 16)).phase ∧ OthersSame s t th.tid ∧ SameMemory s t := by
  have hlen : v.imm.toNat % 16 < tm.bars.length := by omega
  have hteam := fun q => barCounted_team (w := v) (find_one htm) i wait q
  obtain ⟨q, he⟩ := arriveBar_counts h hl hdone htm wait
    (fun q => barCheck_waits (hteam q) (bar_setBar hlen _) (barCounted_live h.has i wait q _ _) hx)
    (fun q => barCounted_noLate hl i wait q)
  refine ⟨_, (tm.setBar (v.imm.toNat % 16) (tm.arrivedBar v)).setBar (v.imm.toNat % 16)
    ((tm.arrivedBar v).await (s.liveThreads th.tid.core th.slot).length), run_quiet he rfl rfl,
    (barCounted_has h.has i wait q).thread?, ?_, ?_, ?_, barCounted_other i wait q, fun _ => rfl⟩
  · rw [team?_setTeam _ _ _ (by exact fun _ => ⟨rfl, rfl⟩), hteam q]
    rfl
  · rw [setBar_setBar, bar_setBar hlen]
    rfl
  · rw [setBar_setBar, bar_setBar hlen]
    exact arrivedBar_phase tm v

/-- The arrival that completes its phase starts the next one and lets every waiting thread of the team go on. -/
theorem arriveBar_completes (hx : (tm.arrivedBar v).complete (s.liveThreads th.tid.core th.slot).length = true) :
    ∃ t y, run (arriveBar i v wait s) s = .next t ∧
      t.thread? th.tid = some ((th.issued i (s.cur.pc + 8)).endWait (.bar (v.imm.toNat % 16))) ∧
      t.team? th.tid.core th.slot = some y ∧
      y.bar (v.imm.toNat % 16) = { phase := (tm.bar (v.imm.toNat % 16)).phase + 1 } ∧
      (∀ z ∈ t.teamThreads th.tid.core th.slot, z.wait ≠ .bar (v.imm.toNat % 16)) ∧ SameMemory s t := by
  have hlen : v.imm.toNat % 16 < tm.bars.length := by omega
  have hteam := fun q => barCounted_team (w := v) (find_one htm) i wait q
  have hlate : ∀ q g, ((s.barCounted i th v wait q).setTeam th.tid.core th.slot g).noLate := fun q _ => barCounted_noLate hl i wait q
  obtain ⟨q, he⟩ := arriveBar_counts h hl hdone htm wait
    (fun q => barCheck_completes (hteam q) (bar_setBar hlen _) (arrivedBar_pos tm v) (barCounted_live h.has i wait q _ _) hx)
    (fun q z hz => by
      obtain ⟨-, -, -, -, hz, -⟩ := mem_endBars _ (hlate q _) hz
      exact hz)
  have hhas := barCounted_has (w := v) h.has i wait q
  generalize hS : (s.barCounted i th v wait q).setTeam th.tid.core th.slot
    (fun y => y.setBar (v.imm.toNat % 16) { phase := (tm.arrivedBar v).phase + 1 }) = S at he
  have hts : (s.barCounted i th v wait q).teamThreads th.tid.core th.slot = S.teamThreads th.tid.core th.slot := by
    rw [← hS]
    rfl
  have hSl : S.noLate := hS ▸ hlate q _
  have hSh : S.Has (th.arriving i v wait s).counted := hS ▸ hhas
  dsimp only at he
  rw [hts] at he
  refine ⟨_, (tm.setBar (v.imm.toNat % 16) (tm.arrivedBar v)).setBar (v.imm.toNat % 16) { phase := (tm.arrivedBar v).phase + 1 },
    run_quiet he ?_ ?_, ?_, ?_, ?_, fun z hz => ?_, ?_⟩
  · rw [endBars_eq, ← hS]
    rfl
  · rw [endBars_eq, ← hS]
    rfl
  · have hone := teamThreads_one hSh
    rw [← endBar_counted (i := i) (s := s) (w := v) (hl th h.has.mem) h.ready wait]
    unfold State.endBars
    rw [thread?_foldl _ Thread.tid (fun _ x => x.endBar (v.imm.toNat % 16)) (by exact fun _ _ => rfl)]
    have hth : S.thread? th.tid = _ := hSh.thread?
    have hone' : (S.teamThreads th.tid.core th.slot).filter (fun y => decide (y.tid = th.tid)) = _ := hone
    rw [hth, hone']
    rfl
  · rw [endBars_eq, ← hS]
    exact (team?_setTeam _ _ _ (by exact fun _ => ⟨rfl, rfl⟩)).trans (congrArg (Option.map _) (hteam q))
  · rw [setBar_setBar, bar_setBar hlen, arrivedBar_phase]
  · obtain ⟨hz, hcore, hslot⟩ := mem_teamThreads.1 hz
    obtain ⟨y, hy, ht, hs, -, hw⟩ := mem_endBars _ hSl hz
    exact hw (.inl ⟨y, mem_teamThreads.2 ⟨hy, ht ▸ hcore, hs ▸ hslot⟩, rfl⟩)
  · intro a
    rw [endBars_eq, ← hS]
    rfl

end Counted

theorem exec_bar (w : IWord) (s : State) : exec (.bar w) s = run (arriveBar (.bar w) w true s) s := rfl
theorem exec_bararv (w : IWord) (s : State) : exec (.bararv w) s = run (arriveBar (.bararv w) w false s) s := rfl

/-- A late arrival is left to be counted, and nothing else but its thread's record changes. -/
theorem run_arriveBar_late {v : IWord} (h : Solo i s th) (hl : s.noLate) (hm : th.handler = false)
    (hopen : ∃ e ∈ th.unf, e.open_ = true ∧ e.tag ≤ s.clock) (wait : Bool) :
    ∃ t, run (arriveBar i v wait s) s = .next t ∧ t.thread? th.tid = some (th.arriving i v wait s) ∧
      t.teams = s.teams ∧ OthersSame s t th.tid ∧ SameMemory s t := by
  obtain ⟨q, he⟩ := arriveBar_late (w := v) h hl hm hopen wait
  exact ⟨_, run_quiet he rfl rfl, (arriving_has h.has q wait).thread?, rfl,
    fun _ hv => thread?_putThread_ne (s := s.putQuarters q) (a := th.arriving i v wait s) hv, fun _ => rfl⟩

theorem arriving_program {v : IWord} (hm : th.handler = false) (i : Instr) (wait : Bool) (s : State) :
    th.arriving i v wait s = { th.issued i (s.cur.pc + 8) with
      wait := if wait then .bar (v.imm.toNat % 16) else th.wait
      late := [{ bar := v.imm.toNat % 16, n := barCount v, since := s.clock + 1, hand := false }] } := by
  rw [← hm]
  rfl

theorem counted_arriving {v : IWord} (hlate : th.late = []) (i : Instr) (wait : Bool) (s : State) :
    (th.arriving i v wait s).counted = { th.issued i (s.cur.pc + 8) with
      wait := if wait then .bar (v.imm.toNat % 16) else th.wait } := by
  simp [Thread.counted, Thread.arriving, Thread.issued, hlate]

theorem barriersCountArrivals : Claims.BarriersCountArrivals := by
  intro w s th tm htm hlen hl
  refine ⟨fun hopen hm => ⟨fun h => ?_, fun h => ?_⟩, fun hdone => ⟨fun h hx => ?_, fun h hx => ?_, fun h hx => ?_, fun h hx => ?_⟩⟩
  · have hlate := run_arriveBar_late (v := w) h hl hm hopen true
    rwa [arriving_program hm, ← exec_bar] at hlate
  · have hlate := run_arriveBar_late (v := w) h hl hm hopen false
    rwa [arriving_program hm, ← exec_bararv] at hlate
  · have hwait := arriveBar_waits h hl hdone htm hlen true hx
    rwa [counted_arriving (hl th h.has.mem), ← exec_bar] at hwait
  · have hwait := arriveBar_waits h hl hdone htm hlen false hx
    rwa [counted_arriving (hl th h.has.mem), ← exec_bararv] at hwait
  · exact arriveBar_completes h hl hdone htm hlen true hx
  · exact arriveBar_completes h hl hdone htm hlen false hx

/-! ### TKN (R184) -/

/-- A TKN that the token allows: the quarter's token changes and the thread goes on. -/
theorem exec_tkn_steps {w : IWord} (h : Solo (.tkn w) s th) {y : Quarter}
    (hy : tokenStep (s.quarter th.tid.core th.tid.qtr) { slot := th.slot, grp := th.grp } = some y) (hc : y.core = th.tid.core)
    (hq : y.qtr = th.tid.qtr) :
    ∃ t, exec (.tkn w) s = .next t ∧ t.thread? th.tid = some (th.issued (.tkn w) (s.cur.pc + 8)) ∧
      (t.quarter th.tid.core th.tid.qtr).holder = y.holder ∧ (t.quarter th.tid.core th.tid.qtr).partner = y.partner ∧
      t.groups = s.groups ∧ OthersSame s t th.tid ∧ SameMemory s t := by
  obtain ⟨hcore, hqtr, -, -⟩ := h.place
  have hs : (s.putQuarter th.tid.core th.tid.qtr y).Has th := h.has
  obtain ⟨q, heng, he⟩ := endIssue_solo (.tkn w) th (Solo.values (.tkn w) s th) (fun _ => s.cur.pc + 8)
    { st := s.putQuarter th.tid.core th.tid.qtr y }
  rw [hs.set _ (by rfl), issued_rec] at he
  have hengine := heng th.tid.core th.tid.qtr
  have hput : (s.putQuarter th.tid.core th.tid.qtr y).quarter th.tid.core th.tid.qtr = y := quarter_putQuarter s hc hq
  dsimp only at hengine
  rw [hput] at hengine
  refine ⟨_, run_quiet (t := ((s.putQuarter th.tid.core th.tid.qtr y).putThread (th.issued (.tkn w) (s.cur.pc + 8))).putQuarters q)
    ?_ rfl rfl, (hs.put (a := th.issued (.tkn w) (s.cur.pc + 8)) rfl).thread?, (congrArg Quarter.holder hengine :),
    (congrArg Quarter.partner hengine :), rfl,
    fun _ hv => thread?_putThread_ne (s := s.putQuarter th.tid.core th.tid.qtr y) (a := th.issued (.tkn w) (s.cur.pc + 8)) hv, fun _ => rfl⟩
  simp only [W.run_bind, h.check, List.map_cons, List.map_nil, groupsOf_single h.grp, W.forIn_cons, W.forIn_nil, W.run_getSt,
    hcore, hqtr, hy, W.run_pure, modQuarter_run, List.any_nil, Bool.not_false, List.filter_cons, List.filter_nil, if_true]
  exact he

/-- A TKN of a third group ends with the cause TOKEN. -/
theorem exec_tkn_third {w : IWord} (h : Solo (.tkn w) s th)
    (hy : tokenStep (s.quarter th.tid.core th.tid.qtr) { slot := th.slot, grp := th.grp } = none) :
    exec (.tkn w) s = run (endIssue (.tkn w) { act := [], pass := [], bad := [(th.tid, .token, 0)] } fun _ => s.cur.pc + 8) s := by
  obtain ⟨hcore, hqtr, -, -⟩ := h.place
  refine congrArg (fun r : Unit × Work => Host.Outcome.next (finish s r.2)) ?_
  simp only [W.run_bind, h.check, List.map_cons, List.map_nil, groupsOf_single h.grp, W.forIn_cons, W.forIn_nil, W.run_getSt,
    hcore, hqtr, hy, W.run_pure, List.filter_cons, List.filter_nil, decide_true, if_true, List.nil_append, List.any_cons,
    List.any_nil, Bool.or_false, Bool.not_true, Bool.false_eq_true, if_false]

theorem tokenPassesBetweenTwoGroups : Claims.TokenPassesBetweenTwoGroups := by
  intro w s th h
  obtain ⟨hc, hq⟩ := quarter_core s th.tid.core th.tid.qtr
  refine ⟨fun hold part hcase => ?_, fun x p hx hp hxg hpg ht hm hv => ?_⟩
  · suffices hstep : ∃ y, tokenStep (s.quarter th.tid.core th.tid.qtr) { slot := th.slot, grp := th.grp } = some y ∧
        y.core = th.tid.core ∧ y.qtr = th.tid.qtr ∧ y.holder = hold ∧ y.partner = part by
      obtain ⟨y, hy, hyc, hyq, rfl, rfl⟩ := hstep
      exact exec_tkn_steps h hy hyc hyq
    unfold tokenStep
    rcases hcase with ⟨hh, rfl, rfl⟩ | ⟨hh, hp, rfl, rfl⟩ | ⟨x, hne, hh, hp, rfl, rfl⟩ | ⟨p, hh, hp, rfl, rfl⟩ |
      ⟨x, hne, hh, hp, rfl, rfl⟩
    · simp only [hh]
      exact ⟨_, rfl, hc, hq, rfl, rfl⟩
    · simp only [hh, hp, if_true]
      exact ⟨_, rfl, hc, hq, hh, hp⟩
    · simp only [hh, hp, if_neg hne]
      exact ⟨_, rfl, hc, hq, rfl, rfl⟩
    · simp only [hh, hp, if_true]
      exact ⟨_, rfl, hc, hq, rfl, rfl⟩
    · simp only [hh, hp, if_neg hne, if_true]
      exact ⟨_, rfl, hc, hq, hh, hp⟩
  · obtain ⟨t, he, hcause, hr⟩ := endIssue_takesCause ht hm hv (.tkn w) (c := .token) (by decide) 0 fun _ => s.cur.pc + 8
    have hnone : tokenStep (s.quarter th.tid.core th.tid.qtr) { slot := th.slot, grp := th.grp } = none := by
      unfold tokenStep
      simp only [hx, hp, if_neg hxg, if_neg hpg]
    exact ⟨t, (exec_tkn_third h hnone).trans (run_sameRest he hr), hcause, hr⟩

/-- Settles O16: an arrival is counted, or left to be counted, at its barrier, and the token passes between two groups. -/
theorem barriersAndTheToken : Obligations.BarriersAndTheToken := ⟨barriersCountArrivals, tokenPassesBetweenTwoGroups⟩

end Sys2Proof.Machine
end

section
/-!
Convergence registers (04 R176 to R180): a signature that is counted, the phase that the last one ends, and a thread
outside the set.
-/
namespace Sys2Proof.Machine

variable {i : Instr} {s t : State} {th : Thread} {w w' : Work} {tm : Team} {x : CvInst} {c sl k q : Nat}

/-! ### Instances -/

/-- A team with its cvk of a quarter changed. -/
def Team.mapCv (tm : Team) (k q : Nat) (f : CvInst → CvInst) : Team :=
  { tm with cvs := tm.cvs.map fun x => if x.cv = k && x.qtr = cvQtr x.kind q then f x else x }

theorem modCv_run (c sl k q : Nat) (f : CvInst → CvInst) (w : Work) :
    modCv c sl k q f w = ((), { w with st := w.st.setTeam c sl (·.mapCv k q f) }) := rfl

/-- A change of a convergence register that keeps its name. -/
def KeepsName (f : CvInst → CvInst) : Prop :=
  ∀ x, (f x).cv = x.cv ∧ (f x).qtr = x.qtr ∧ (f x).kind = x.kind ∧ (f x).role = x.role

theorem cvInst?_mapCv {f : CvInst → CvInst} (hf : KeepsName f) (tm : Team) (k q : Nat) :
    (tm.mapCv k q f).cvInst? k q = (tm.cvInst? k q).map f := by
  unfold Team.mapCv Team.cvInst?
  dsimp only
  induction tm.cvs with
  | nil => rfl
  | cons x xs ih =>
    obtain ⟨hcv, hqtr, hkind, -⟩ := hf x
    rw [List.map_cons, List.find?_cons, List.find?_cons, ih]
    by_cases hx : (x.cv = k && x.qtr = cvQtr x.kind q)
    · simp [hx, hcv, hqtr, hkind]
    · simp [hx]

/-- The team that the state has after one convergence register changed. -/
theorem team?_mapCv (h : s.team? c sl = some tm) (k q : Nat) (f : CvInst → CvInst) :
    (s.setTeam c sl (·.mapCv k q f)).team? c sl = some (tm.mapCv k q f) := by
  rw [team?_setTeam _ _ _ (by exact fun _ => ⟨rfl, rfl⟩), h]
  rfl

/-! ### The set of a convergence register (R176) -/

/-- A change of one thread's record on which `p` agrees keeps the threads with `p`. -/
theorem filter_putThread_tids {p : Thread → Bool} {a : Thread} (h : s.Has th) (ht : a.tid = th.tid) (hp : p a = p th) :
    ((s.putThread a).threads.filter p).map Thread.tid = (s.threads.filter p).map Thread.tid := by
  unfold State.putThread State.setThread
  rw [List.filter_map, List.map_map]
  have hcongr : s.threads.filter (p ∘ fun x => if x.tid = a.tid then a else x) = s.threads.filter p := by
    refine List.filter_congr fun y hy => ?_
    dsimp only [Function.comp_apply]
    split
    next hu => rw [h.eq hy (hu.trans ht), hp]
    next => rfl
  rw [hcongr]
  refine List.map_congr_left fun y _ => ?_
  dsimp only [Function.comp_apply]
  split
  next hu => exact hu.symm
  next => rfl

theorem cvSet_tids {a : Thread} (h : s.Has th) (ht : a.tid = th.tid) (hs : a.slot = th.slot) (hr : a.role = th.role)
    (hi : a.idle = th.idle) (c sl : Nat) (x : CvInst) :
    ((s.putThread a).cvSet c sl x).map Thread.tid = (s.cvSet c sl x).map Thread.tid := by
  unfold State.cvSet State.liveThreads State.teamThreads
  simp only [List.filter_filter]
  exact filter_putThread_tids h ht (by simp only [ht, hs, hr, hi])

theorem cvSet_congr {y : CvInst} (hq : y.qtr = x.qtr) (hk : y.kind = x.kind) (hr : y.role = x.role) (s : State) (c sl : Nat) :
    s.cvSet c sl y = s.cvSet c sl x := by
  unfold State.cvSet
  rw [hq, hk, hr]

/-! ### One signature (R177) -/

/-- A convergence register with one more signature, of an engine operation or of none. -/
def CvInst.signedBy (x : CvInst) (t : ThreadId) (kind : SignKind) : CvInst :=
  match kind with
  | .op w opv => { x with signed := x.signed + 1, signers := x.signers ++ [t], opThreads := x.opThreads ++ [t], op := some (w, opv) }
  | _ => { x with signed := x.signed + 1, signers := x.signers ++ [t] }

theorem signedBy_keepsName (t : ThreadId) (kind : SignKind) : KeepsName (·.signedBy t kind) := by
  intro x
  cases kind <;> exact ⟨rfl, rfl, rfl, rfl⟩

theorem signed_signedBy (x : CvInst) (t : ThreadId) (kind : SignKind) : (x.signedBy t kind).signed = x.signed + 1 := by
  cases kind <;> rfl

theorem cvCount_run (ht : w.st.team? c sl = some tm) (hx : tm.cvInst? k q = some x) (ho : x.op = none) (t : ThreadId)
    (kind : SignKind) :
    cvCount c sl k q t kind w = (true, { w with st := w.st.setTeam c sl (·.mapCv k q (·.signedBy t kind)) }) := by
  unfold cvCount
  cases kind <;> simp only [W.run_bind, W.run_getSt, ht, Option.bind_some, hx, ho] <;> rfl

/-- The thread waits in CVW, unless it has only signed. -/
def Thread.signing (th : Thread) (k : Nat) (kind : SignKind) : Thread :=
  match kind with | .sign => th | _ => { th with wait := .cvw k }

/-- The state in which the signature of a thread is counted and the phase is tested. -/
def State.signed (s : State) (y : Thread) (k : Nat) (kind : SignKind) : State :=
  (s.setTeam y.tid.core y.slot (·.mapCv k y.tid.qtr (·.signedBy y.tid kind))).putThread (y.signing k kind)

theorem modThread_at {y : Thread} (h : w.st.Has y) {u : ThreadId} (hu : u = y.tid) {f : Thread → Thread} (hf : (f y).tid = y.tid) :
    modThread u f w = ((), { w with st := w.st.putThread (f y) }) := hu ▸ modThread_has h f hf

/-- A signature that is counted: its thread waits, and the phase is tested. -/
theorem cvSign_counts {y : Thread} (hy : w.st.Has y) (hth : y.tid = th.tid ∧ y.slot = th.slot)
    (ht : w.st.team? th.tid.core th.slot = some tm) (hx : tm.cvInst? k th.tid.qtr = some x)
    (hmem : ((w.st.cvSet th.tid.core th.slot x).any fun t => t.tid = th.tid) = true) (hs : th.tid ∉ x.signers) (hf : x.full = false)
    (ho : x.op = none) (kind : SignKind) :
    cvSign th k kind w = (true, (cvCheck th.tid.core th.slot k th.tid.qtr 4 { w with st := w.st.signed y k kind }).2) := by
  obtain ⟨htid, hslot⟩ := hth
  have hcount := cvCount_run ht hx ho th.tid kind
  have hc : x.signers.contains th.tid = false := by simpa using hs
  unfold cvSign
  simp only [W.run_bind, W.run_getSt, ht, Option.bind_some, hx, hmem, Bool.not_true, Bool.false_eq_true, if_false, hc, hf,
    Bool.or_self, hcount, if_true]
  unfold State.signed
  rw [htid, hslot]
  cases kind with
  | sign =>
    have hself : (w.st.setTeam th.tid.core th.slot (·.mapCv k th.tid.qtr (·.signedBy th.tid .sign))).putThread y = _ :=
      State.Has.putThread_self (s := w.st.setTeam th.tid.core th.slot (·.mapCv k th.tid.qtr (·.signedBy th.tid .sign))) hy
    exact congrArg (fun st => (true, (cvCheck th.tid.core th.slot k th.tid.qtr 4 { w with st := st }).2)) hself.symm
  | wait =>
    have hpark : park th.tid (.cvw k) _ = _ := modThread_at
      (w := { w with st := w.st.setTeam th.tid.core th.slot (·.mapCv k th.tid.qtr (·.signedBy th.tid .wait)) }) hy htid.symm
      (f := fun x => { x with wait := .cvw k }) rfl
    exact congrArg (fun r : Unit × Work => (true, (cvCheck th.tid.core th.slot k th.tid.qtr 4 r.2).2)) hpark
  | op v opv =>
    have hpark : park th.tid (.cvw k) _ = _ := modThread_at
      (w := { w with st := w.st.setTeam th.tid.core th.slot (·.mapCv k th.tid.qtr (·.signedBy th.tid (.op v opv))) }) hy htid.symm
      (f := fun x => { x with wait := .cvw k }) rfl
    exact congrArg (fun r : Unit × Work => (true, (cvCheck th.tid.core th.slot k th.tid.qtr 4 r.2).2)) hpark

/-! ### The phase (R179) -/

theorem cvCheck_waits (ht : w.st.team? c sl = some tm) (hx : tm.cvInst? k q = some x)
    (hn : (w.st.cvSet c sl x).length ≠ x.signed ∨ x.signed = 0) (fuel : Nat) : cvCheck c sl k q fuel w = ((), w) := by
  have hfull : w.st.cvFull c sl x = false := by
    unfold State.cvFull
    rcases hn with hn | hn
    · simp [Ne.symm hn]
    · simp [hn]
  cases fuel with
  | zero => rfl
  | succ fuel =>
    unfold cvCheck
    simp only [W.run_bind, W.run_getSt, ht, Option.bind_some, hx, hfull, Bool.false_and, Bool.false_eq_true, if_false, W.run_pure]

/-- A convergence register at the start of its next phase. -/
def CvInst.next (x : CvInst) : CvInst :=
  { x with signed := 0, signers := [], op := none, opThreads := [], full := false, deferred := [], gen := (x.gen + 1) % 2 ^ 15 }

theorem next_keepsName : KeepsName CvInst.next := fun _ => ⟨rfl, rfl, rfl, rfl⟩

/-- The state once a wait has ended for each of some threads. -/
def State.endWaits (s : State) (us : List ThreadId) (a : Wait) : State := us.foldl (fun s u => s.setThread u (·.endWait a)) s

theorem endWaits_eq (s : State) (us : List ThreadId) (a : Wait) : s.endWaits us a = { s with threads := (s.endWaits us a).threads } := by
  induction us generalizing s with
  | nil => rfl
  | cons u us ih => exact ih _

theorem forIn_endWaitOf (us : List ThreadId) (a : Wait) (w : Work) :
    (forIn us () fun t _ => (do endWaitOf t a; pure (ForInStep.yield ()) : W _)) w = ((), { w with st := w.st.endWaits us a }) :=
  forIn_modThread us id (fun _ x => x.endWait a) _ w

/-- The end of a phase that no thread has deferred a signature to. -/
theorem cvEnd_run (ht : w.st.team? c sl = some tm) (hx : tm.cvInst? k q = some x) (hd : x.deferred = []) :
    cvEnd c sl k q w = ((), { w with st := (w.st.endWaits x.signers (.cvw k)).setTeam c sl (·.mapCv k q CvInst.next) }) := by
  unfold cvEnd
  simp only [W.run_bind, W.run_getSt, ht, Option.bind_some, hx, forIn_endWaitOf, hd, W.forIn_nil]
  rfl

/-- A complete phase without an engine operation ends. -/
theorem cvCheck_ends (ht : w.st.team? c sl = some tm) (hx : tm.cvInst? k q = some x) (h0 : 0 < x.signed)
    (hn : (w.st.cvSet c sl x).length = x.signed) (ho : x.op = none) (hf : x.full = false) (hd : x.deferred = []) (fuel : Nat) :
    cvCheck c sl k q (fuel + 1) w
      = ((), { w with st := (w.st.endWaits x.signers (.cvw k)).setTeam c sl (·.mapCv k q CvInst.next) }) := by
  have hfull : w.st.cvFull c sl x = true := by simp [State.cvFull, h0, hn]
  have ht' : (w.st.endWaits x.signers (.cvw k)).team? c sl = some tm := by rw [endWaits_eq]; exact ht
  unfold cvCheck
  simp only [W.run_bind, W.run_getSt, ht, Option.bind_some, hx, hfull, hf, Bool.not_false, Bool.and_self, if_true, ho,
    Option.isNone_none, cvEnd_run ht hx hd]
  exact cvCheck_waits (tm := tm.mapCv k q CvInst.next) (x := x.next) (team?_mapCv ht' k q _)
    (by rw [cvInst?_mapCv next_keepsName, hx]; rfl) (.inr rfl) fuel

/-! ### CVSIGN and CVWAIT -/

theorem signing_tid (y : Thread) (k : Nat) (kind : SignKind) : (y.signing k kind).tid = y.tid ∧ (y.signing k kind).slot = y.slot ∧
    (y.signing k kind).role = y.role ∧ (y.signing k kind).idle = y.idle := by
  cases kind <;> exact ⟨rfl, rfl, rfl, rfl⟩

/-- The state in which the signature of an issuing thread is counted and the phase is tested. -/
def State.signedAt (s : State) (i : Instr) (th : Thread) (k : Nat) (kind : SignKind) (q : List Quarter) : State :=
  ((s.putQuarters q).setTeam th.tid.core th.slot (·.mapCv k th.tid.qtr (·.signedBy th.tid kind))).putThread
    ((th.issued i (s.cur.pc + 8)).signing k kind)

theorem signed_issued (i : Instr) (k : Nat) (kind : SignKind) (q : List Quarter) :
    ((s.putQuarters q).putThread (th.issued i (s.cur.pc + 8))).signed (th.issued i (s.cur.pc + 8)) k kind
      = s.signedAt i th k kind q :=
  State.putThread_put (s := (s.putQuarters q).setTeam th.tid.core th.slot (·.mapCv k th.tid.qtr (·.signedBy th.tid kind)))
    (a := th.issued i (s.cur.pc + 8)) (signing_tid ..).1

theorem signedAt_has (h : s.Has th) (i : Instr) (k : Nat) (kind : SignKind) (q : List Quarter) :
    (s.signedAt i th k kind q).Has ((th.issued i (s.cur.pc + 8)).signing k kind) :=
  State.Has.put (s := (s.putQuarters q).setTeam th.tid.core th.slot (·.mapCv k th.tid.qtr (·.signedBy th.tid kind))) h
    (signing_tid ..).1

theorem signedAt_other (i : Instr) (k : Nat) (kind : SignKind) (q : List Quarter) : OthersSame s (s.signedAt i th k kind q) th.tid :=
  fun v hv => thread?_putThread_ne (s := (s.putQuarters q).setTeam _ _ _)
    (a := (th.issued i (s.cur.pc + 8)).signing k kind) (by rwa [(signing_tid ..).1])

theorem signedAt_team (ht : s.team? th.tid.core th.slot = some tm) (i : Instr) (k : Nat) (kind : SignKind) (q : List Quarter) :
    (s.signedAt i th k kind q).team? th.tid.core th.slot = some (tm.mapCv k th.tid.qtr (·.signedBy th.tid kind)) :=
  team?_mapCv (s := s.putQuarters q) ht _ _ _

theorem signedAt_set (h : s.Has th) (i : Instr) (k : Nat) (kind : SignKind) (q : List Quarter) (c sl : Nat) (x : CvInst) :
    ((s.signedAt i th k kind q).cvSet c sl (x.signedBy th.tid kind)).length = (s.cvSet c sl x).length := by
  obtain ⟨ht, hs, hr, hi⟩ := signing_tid (th.issued i (s.cur.pc + 8)) k kind
  have htids := cvSet_tids (s := (s.putQuarters q).setTeam th.tid.core th.slot (·.mapCv k th.tid.qtr (·.signedBy th.tid kind)))
    h ht hs hr hi c sl x
  obtain ⟨-, hq, hk, hrole⟩ := signedBy_keepsName th.tid kind x
  rw [cvSet_congr hq hk hrole, ← List.length_map (f := Thread.tid)]
  exact (congrArg List.length htids).trans (List.length_map ..)

/-- The hypotheses under which a lone thread signs cvk of its team: `x` takes signatures, and has none of the
thread's. -/
structure Signs (s : State) (th : Thread) (tm : Team) (x : CvInst) (k : Nat) : Prop where
  team   : s.team? th.tid.core th.slot = some tm
  inst   : tm.cvInst? k th.tid.qtr = some x
  noOp   : x.op = none
  part   : x.full = false
  direct : x.deferred = []
  signer : th.tid ∉ x.signers
  member : ∃ y ∈ s.cvSet th.tid.core th.slot x, y.tid = th.tid

/-- A signature of a lone thread is counted, and the phase is tested. -/
theorem signCv_counts {w : IWord} (h : Solo i s th) (hs : Signs s th tm x (w.imm.toNat % 16)) (kind : SignKind) :
    ∃ q, signCv i w kind s { st := s } = ((), (cvCheck th.tid.core th.slot (w.imm.toNat % 16) th.tid.qtr 4
      { st := s.signedAt i th (w.imm.toNat % 16) kind q }).2) := by
  obtain ⟨q, he⟩ := endIssue_acts h.has i (Solo.values i s th) (s.cur.pc + 8)
  have hy : ((s.putQuarters q).putThread (th.issued i (s.cur.pc + 8))).Has (th.issued i (s.cur.pc + 8)) :=
    State.Has.put (s := s.putQuarters q) h.has rfl
  have hany : (((s.putQuarters q).putThread (th.issued i (s.cur.pc + 8))).cvSet th.tid.core th.slot x).any
      (fun t => t.tid = th.tid) = true := by
    obtain ⟨y, hy, hyt⟩ := hs.member
    have htids := cvSet_tids (s := s.putQuarters q) (a := th.issued i (s.cur.pc + 8)) h.has rfl rfl rfl rfl th.tid.core th.slot x
    have hmem : th.tid ∈ (((s.putQuarters q).putThread (th.issued i (s.cur.pc + 8))).cvSet th.tid.core th.slot x).map Thread.tid :=
      htids ▸ List.mem_map.2 ⟨y, hy, hyt⟩
    obtain ⟨z, hz, hzt⟩ := List.mem_map.1 hmem
    exact List.any_eq_true.2 ⟨z, hz, by simpa using hzt⟩
  have hsign := cvSign_counts (w := { st := (s.putQuarters q).putThread (th.issued i (s.cur.pc + 8)) }) (th := th) hy ⟨rfl, rfl⟩
    hs.team hs.inst hany hs.signer hs.part hs.noOp kind
  dsimp only at hsign
  rw [signed_issued] at hsign
  refine ⟨q, ?_⟩
  unfold signCv
  simp only [W.run_bind, h.check, he, W.forIn_cons, W.forIn_nil, hsign, Bool.not_true, Bool.false_eq_true, if_false, W.run_pure]

/-- A signature that leaves the phase incomplete. -/
theorem signCv_waits {w : IWord} (h : Solo i s th) (hs : Signs s th tm x (w.imm.toNat % 16)) (kind : SignKind)
    (hlt : x.signed + 1 < (s.cvSet th.tid.core th.slot x).length) :
    ∃ t y, run (signCv i w kind s) s = .next t ∧
      t.thread? th.tid = some ((th.issued i (s.cur.pc + 8)).signing (w.imm.toNat % 16) kind) ∧
      t.team? th.tid.core th.slot = some y ∧ y.cvInst? (w.imm.toNat % 16) th.tid.qtr = some (x.signedBy th.tid kind) ∧
      OthersSame s t th.tid ∧ SameMemory s t := by
  obtain ⟨q, he⟩ := signCv_counts h hs kind
  have hinst : (tm.mapCv (w.imm.toNat % 16) th.tid.qtr (·.signedBy th.tid kind)).cvInst? (w.imm.toNat % 16) th.tid.qtr
      = some (x.signedBy th.tid kind) := by
    rw [cvInst?_mapCv (signedBy_keepsName _ _), hs.inst]
    rfl
  have hteam := signedAt_team hs.team i (w.imm.toNat % 16) kind q
  rw [cvCheck_waits hteam hinst (.inl ?_) 4] at he
  · have hx := (signedAt_has h.has i (w.imm.toNat % 16) kind q).thread?
    rw [(signing_tid ..).1] at hx
    exact ⟨_, _, run_quiet he rfl rfl, hx, hteam, hinst, signedAt_other i _ kind q, fun _ => rfl⟩
  · rw [signedAt_set h.has, signed_signedBy]
    exact Nat.ne_of_gt hlt

/-! ### The last signature of a phase -/

theorem endWait_endWait (x : Thread) (a : Wait) : (x.endWait a).endWait a = x.endWait a := by
  have hend : ∀ b : Wait, (if (if b = a then Wait.ready else b) = a then Wait.ready else (if b = a then Wait.ready else b))
      = if b = a then Wait.ready else b := by
    intro b
    by_cases hb : b = a <;> simp [hb]
  unfold Thread.endWait
  simp only [hend]

theorem thread?_endWaits (us : List ThreadId) (a : Wait) (s : State) {u : ThreadId} (hu : u ∈ us) :
    (s.endWaits us a).thread? u = (s.thread? u).map (·.endWait a) := by
  have hfold : ∀ (l : List ThreadId) (y : Thread), l ≠ [] → l.foldl (fun y _ => y.endWait a) y = y.endWait a := by
    intro l
    induction l with
    | nil => exact fun y h => absurd rfl h
    | cons b l ih =>
      intro y _
      cases l with
      | nil => rfl
      | cons c l => exact (ih _ (by simp)).trans (endWait_endWait y a)
  have hne : us.filter (fun x => id x = u) ≠ [] := List.ne_nil_of_mem (List.mem_filter.2 ⟨hu, by simp⟩)
  have hthread := thread?_foldl us id (fun _ y => y.endWait a) (by exact fun _ _ => rfl) s u
  refine hthread.trans ?_
  simp only [hfold _ _ hne]

/-- CVSIGN and CVWAIT sign without an engine operation. -/
def SignKind.plain (kind : SignKind) : Prop := kind = .sign ∨ kind = .wait

theorem signedBy_plain {kind : SignKind} (hk : kind.plain) (x : CvInst) (t : ThreadId) :
    x.signedBy t kind = { x with signed := x.signed + 1, signers := x.signers ++ [t] } := by
  rcases hk with rfl | rfl <;> rfl

theorem endWait_signing {y : Thread} (hy : y.wait = .ready) (k : Nat) (kind : SignKind) :
    (y.signing k kind).endWait (.cvw k) = y.endWait (.cvw k) := by
  cases kind <;> simp only [Thread.signing, Thread.endWait, hy, if_true, reduceCtorEq, if_false] <;> rfl

/-- The last signature ends the phase: its signers go on, and the next phase begins. -/
theorem signCv_ends {w : IWord} (h : Solo i s th) (hs : Signs s th tm x (w.imm.toNat % 16)) {kind : SignKind} (hk : kind.plain)
    (hn : x.signed + 1 = (s.cvSet th.tid.core th.slot x).length) :
    ∃ t y z, run (signCv i w kind s) s = .next t ∧
      t.thread? th.tid = some ((th.issued i (s.cur.pc + 8)).endWait (.cvw (w.imm.toNat % 16))) ∧
      t.team? th.tid.core th.slot = some y ∧ y.cvInst? (w.imm.toNat % 16) th.tid.qtr = some z ∧
      z.signed = 0 ∧ z.signers = [] ∧ z.gen = (x.gen + 1) % 2 ^ 15 ∧
      (∀ u ∈ x.signers, ∀ v, s.thread? u = some v → v.wait = .cvw (w.imm.toNat % 16) →
        ∃ v', t.thread? u = some v' ∧ v'.wait = .ready) := by
  obtain ⟨q, he⟩ := signCv_counts h hs kind
  have hteam := signedAt_team hs.team i (w.imm.toNat % 16) kind q
  have hsigned := signedBy_plain hk x th.tid
  have hset := signedAt_set h.has i (w.imm.toNat % 16) kind q th.tid.core th.slot x
  have hhas := signedAt_has h.has i (w.imm.toNat % 16) kind q
  have hother := signedAt_other (s := s) (th := th) i (w.imm.toNat % 16) kind q
  have hinst : (tm.mapCv (w.imm.toNat % 16) th.tid.qtr (·.signedBy th.tid kind)).cvInst? (w.imm.toNat % 16) th.tid.qtr
      = some (x.signedBy th.tid kind) := by
    rw [cvInst?_mapCv (signedBy_keepsName _ _), hs.inst]
    rfl
  have hmem : (s.signedAt i th (w.imm.toNat % 16) kind q).mem = s.mem := rfl
  have hkey : (s.signedAt i th (w.imm.toNat % 16) kind q).sec.keyGen = s.sec.keyGen := rfl
  generalize s.signedAt i th (w.imm.toNat % 16) kind q = S at *
  rw [hsigned] at hinst hset
  rw [cvCheck_ends (x := { x with signed := x.signed + 1, signers := x.signers ++ [th.tid] }) hteam hinst
    (Nat.succ_pos _) (hset.trans hn.symm) hs.noOp hs.part hs.direct] at he
  have hrec := thread?_endWaits (x.signers ++ [th.tid]) (.cvw (w.imm.toNat % 16)) S (u := th.tid) (by simp)
  have hx := hhas.thread?
  rw [(signing_tid ..).1] at hx
  have hx' : S.thread? th.tid = _ := hx
  rw [hx', Option.map_some, endWait_signing (y := th.issued i (s.cur.pc + 8)) h.ready] at hrec
  refine ⟨_, (tm.mapCv (w.imm.toNat % 16) th.tid.qtr (·.signedBy th.tid kind)).mapCv (w.imm.toNat % 16) th.tid.qtr CvInst.next,
    CvInst.next { x with signed := x.signed + 1, signers := x.signers ++ [th.tid] }, run_quiet he ?_ ?_, hrec, ?_, ?_, rfl, rfl, rfl,
    fun u hu v hv hvw => ?_⟩
  · rw [endWaits_eq]
    exact hmem
  · rw [endWaits_eq]
    exact hkey
  · exact team?_mapCv (s := S.endWaits _ _) (by rw [endWaits_eq]; exact hteam) _ _ _
  · rw [cvInst?_mapCv next_keepsName, hinst]
    rfl
  · have hne : u ≠ th.tid := fun e => hs.signer (e ▸ hu)
    have hu' := thread?_endWaits (x.signers ++ [th.tid]) (.cvw (w.imm.toNat % 16)) S (u := u) (by simp [hu])
    rw [hother u hne, hv] at hu'
    exact ⟨_, hu', by simp [Thread.endWait, hvw]⟩

/-! ### A thread outside the set -/

theorem cvSign_outside (ht : w.st.team? th.tid.core th.slot = some tm) (hx : tm.cvInst? k th.tid.qtr = some x)
    (hmem : ((w.st.cvSet th.tid.core th.slot x).any fun t => t.tid = th.tid) = false) (kind : SignKind) :
    cvSign th k kind w = (false, w) := by
  unfold cvSign
  simp only [W.run_bind, W.run_getSt, ht, Option.bind_some, hx, hmem, Bool.not_false, if_true, W.run_pure]

theorem issued_trappable (h : Trappable s th) (hst : th.stepping = false) (i : Instr) (pc : DWord) (q : List Quarter) :
    Trappable ((s.putQuarters q).putThread (th.issued i pc)) (th.issued i pc) where
  one := State.Has.put (s := s.putQuarters q) h.has rfl
  calm := h.calm
  going := by simp [Thread.issued, hst, h.going]
  live := h.live
  settled := h.settled

/-- A thread of no set raises CONV at its word. -/
theorem signCv_raises {w : IWord} (h : Solo i s th) (ht : s.team? th.tid.core th.slot = some tm)
    (hx : tm.cvInst? (w.imm.toNat % 16) th.tid.qtr = some x) (hout : ∀ y ∈ s.cvSet th.tid.core th.slot x, y.tid ≠ th.tid)
    (htr : Trappable s th) (hst : th.stepping = false) (hm : th.handler = false) (hv : s.hasHandler th = true) (kind : SignKind) :
    ∃ t z, run (signCv i w kind s) s = .next t ∧ t.thread? th.tid = some z ∧ z.handler = true ∧ z.tpc = s.cur.pc ∧
      t.groups = s.maskedGroups th 12 true ∧ t.teams = s.teams := by
  obtain ⟨q, he⟩ := endIssue_acts h.has i (Solo.values i s th) (s.cur.pc + 8)
  have hT := issued_trappable htr hst i (s.cur.pc + 8) q
  have hany : (((s.putQuarters q).putThread (th.issued i (s.cur.pc + 8))).cvSet th.tid.core th.slot x).any
      (fun t => t.tid = th.tid) = false := by
    have htids := cvSet_tids (s := s.putQuarters q) (a := th.issued i (s.cur.pc + 8)) h.has rfl rfl rfl rfl th.tid.core th.slot x
    refine List.any_eq_false.2 fun y hy => ?_
    have hmem : y.tid ∈ (s.cvSet th.tid.core th.slot x).map Thread.tid := by
      have hy' := List.mem_map_of_mem (f := Thread.tid) hy
      rw [htids] at hy'
      exact hy'
    obtain ⟨z, hz, hzt⟩ := List.mem_map.1 hmem
    simpa [← hzt] using hout z hz
  have hsign := cvSign_outside (w := { st := (s.putQuarters q).putThread (th.issued i (s.cur.pc + 8)) }) (th := th) ht hx hany kind
  obtain ⟨t, hraise, ⟨hth, hgroups, -⟩, hbare, -⟩ := raise_takesCause hT hm hv .conv
  have hrun : signCv i w kind s { st := s } = ((), { st := t }) := by
    unfold signCv
    simp only [W.run_bind, h.check, he, W.forIn_cons, W.forIn_nil, hsign, Bool.not_false, if_true, W.run_pure]
    exact hraise
  exact ⟨t, _, run_quiet hrun (congrArg State.mem hbare :) (congrArg (fun s => s.sec.keyGen) hbare :), hth, rfl, rfl, hgroups,
    (congrArg State.teams hbare :)⟩

/-! ### The statement -/

theorem exec_cvsign (w : IWord) (s : State) : exec (.cvsign w) s = run (signCv (.cvsign w) w .sign s) s := rfl
theorem exec_cvwait (w : IWord) (s : State) : exec (.cvwait w) s = run (signCv (.cvwait w) w .wait s) s := rfl

/-- Settles O17: a signature is counted, the last one ends its phase, and a thread outside the set raises CONV. -/
theorem convergenceSignaturesCount : Obligations.ConvergenceSignaturesCount := by
  unfold Obligations.ConvergenceSignaturesCount
  intro w s th tm x htm hcv hop hfull hdef hsigner
  have hs := fun hmem => (⟨find_one htm, find_one hcv, hop, hfull, hdef, hsigner, hmem⟩ : Signs s th tm x (w.imm.toNat % 16))
  refine ⟨fun hmem hlt => ⟨fun h => ?_, fun h => ?_⟩, fun hmem hn => ⟨fun h => ?_, fun h => ?_⟩, fun hout h htr hst hm hv => ?_⟩
  · obtain ⟨t, y, ht, hth, hteam, hz, ho, hsame⟩ := signCv_waits h (hs hmem) .sign hlt
    exact ⟨t, y, _, (exec_cvsign w s).trans ht, hth, hteam, hz, rfl, rfl, rfl, ho, hsame⟩
  · obtain ⟨t, y, ht, hth, hteam, hz, ho, hsame⟩ := signCv_waits h (hs hmem) .wait hlt
    exact ⟨t, y, _, (exec_cvwait w s).trans ht, hth, hteam, hz, rfl, rfl, ho, hsame⟩
  · exact signCv_ends h (hs hmem) (.inl rfl) hn
  · obtain ⟨t, y, z, ht, hth, hteam, hz, h0, -, hgen, -⟩ := signCv_ends h (hs hmem) (.inr rfl) hn
    exact ⟨t, y, z, (exec_cvwait w s).trans ht, hth, hteam, hz, h0, hgen⟩
  · exact signCv_raises h (find_one htm) (find_one hcv) hout htr hst hm hv .sign

end Sys2Proof.Machine
end

section
/-!
Instructions over a group (04 R173, R174): with all live threads of the group at the word nothing waits, and every
participant's values are read before any result is written.
-/
namespace Sys2Proof.Machine

variable {i : Instr} {s : State} {r : Issued} {sl g : Nat} {ps : List Thread} {th : Thread} {w : Work}

/-! ### One group -/

theorem eraseDups_constant {α : Type} [BEq α] [LawfulBEq α] {a : α} {l : List α} (h : ∀ x ∈ l, x = a) (hl : l ≠ []) :
    l.eraseDups = [a] := by
  obtain ⟨b, l, rfl⟩ := List.exists_cons_of_ne_nil hl
  obtain rfl := h b (List.mem_cons_self ..)
  have hrest : l.filter (fun x => !x == b) = [] := by
    simp only [List.filter_eq_nil_iff, Bool.not_eq_true', Bool.not_eq_false, beq_iff_eq]
    exact fun x hx => h x (List.mem_cons_of_mem _ hx)
  rw [List.eraseDups_cons, hrest, List.eraseDups_nil]

/-- Threads of one group make one group. -/
theorem groupsOf_one (h : ∀ x ∈ ps, (x.slot, x.grp) = (sl, g)) (hg : g < 512) (hps : ps ≠ []) : groupsOf ps = [(sl, g)] := by
  obtain ⟨a, ha⟩ := List.exists_mem_of_ne_nil ps hps
  have hkey := h a ha
  simp only [Prod.mk.injEq] at hkey
  obtain ⟨rfl, rfl⟩ := hkey
  rw [← groupsOf_single hg]
  unfold groupsOf
  rw [eraseDups_constant (a := (a.slot, a.grp)) (by simpa using h) (by simpa using hps), List.map_cons, List.map_nil,
    eraseDups_constant (a := (a.slot, a.grp)) (by simp) (by simp)]

/-- The issue group is one logical group whose live threads may all issue the word now. -/
structure GroupHere (i : Instr) (s : State) (sl g : Nat) (ps : List Thread) : Prop where
  cur   : s.cur.threads = ps.map Thread.tid
  here  : s.curThreads = ps
  all   : s.groupThreads s.cur.core sl g = ps
  grp   : g < 512
  legal : ∀ x ∈ ps, decodeCause s i (usesOf i) x = none
  calm  : ∀ x ∈ ps, x.pc = s.cur.pc ∧ x.handler = false ∧ x.halt = none ∧ x.pending = none
  ready : ∀ x ∈ s.threads, x.tid ∈ s.cur.threads → x.wait ≠ .gop

/-- A thread that no longer waits for its group. -/
def Thread.leavingGop (x : Thread) : Thread := { x with wait := if x.wait = .gop then .ready else x.wait }

theorem leavingGop_of_not (h : th.wait ≠ .gop) : th.leavingGop = th := by
  unfold Thread.leavingGop
  rw [if_neg h]

namespace GroupHere

theorem key (h : GroupHere i s sl g ps) {x : Thread} (hx : x ∈ ps) : x.tid.core = s.cur.core ∧ x.slot = sl ∧ x.grp = g := by
  have hm := (List.mem_filter.1 (h.all ▸ hx : x ∈ s.groupThreads s.cur.core sl g)).2
  simp only [Bool.and_eq_true, decide_eq_true_eq] at hm
  exact ⟨hm.1.1.1, hm.1.1.2, hm.1.2⟩

theorem complete (h : GroupHere i s sl g ps) : s.groupComplete (sl, g) = true := by
  unfold State.groupComplete
  rw [h.all, List.all_eq_true]
  intro x hx
  obtain ⟨hpc, hh, hhalt, hp⟩ := h.calm x hx
  simp [hpc, hh, hhalt, hp, h.cur, List.mem_map_of_mem hx]

/-- Nobody waits for the group, and nothing changes. -/
theorem gather (h : GroupHere i s sl g ps) (part : Bool) : gatherGroups i part { st := s } = ((), { st := s }) := by
  have hok : ps.filter (fun t => (decodeCause s i (usesOf i) t).isNone) = ps :=
    List.filter_eq_self.2 fun x hx => by simp [h.legal x hx]
  have hbad : ps.filter (fun t => (decodeCause s i (usesOf i) t).isSome) = [] :=
    List.filter_eq_nil_iff.2 fun x hx => by simp [h.legal x hx]
  have hfree : ps.filter (fun t => part || t.handler) = if part then ps else [] := by
    cases part
    · exact List.filter_eq_nil_iff.2 fun x hx => by simp [(h.calm x hx).2.1]
    · exact List.filter_eq_self.2 fun x _ => rfl
  have hbound : ps.filter (fun t => !(part || t.handler)) = if part then [] else ps := by
    cases part
    · exact List.filter_eq_self.2 fun x hx => by simp [(h.calm x hx).2.1]
    · exact List.filter_eq_nil_iff.2 fun x _ => by simp
  have hkeep : ∀ t ∈ ps.map Thread.tid, modThread t Thread.leavingGop { st := s } = ((), { st := s }) := fun t ht =>
    modThread_same fun y hy hyt => leavingGop_of_not (h.ready y hy (h.cur ▸ hyt ▸ ht))
  have hcur : { s with cur := { s.cur with threads := ps.map Thread.tid } } = s := by rw [← h.cur]
  unfold gatherGroups
  simp only [W.run_bind, W.run_getSt, h.here, hok, hbad, hfree, hbound]
  cases part
  case true =>
    simp only [if_true, groupsOf_nil, W.forIn_nil, List.map_nil, List.nil_append, W.run_upd]
    rw [forIn_skip _ _ _ fun t ht => congrArg (fun w : Unit × Work => (ForInStep.yield PUnit.unit, w.2)) (hkeep t ht)]
    simp only [hcur, W.run_pure]
  case false =>
    rcases eq_or_ne ps [] with rfl | hps
    · simp only [Bool.false_eq_true, if_false, groupsOf_nil, W.forIn_nil, List.map_nil, List.nil_append, W.run_upd]
      simp only [List.map_nil] at hcur
      simp only [hcur, W.run_pure]
    · simp only [Bool.false_eq_true, if_false, groupsOf_one (fun x hx => Prod.ext (h.key hx).2.1 (h.key hx).2.2) h.grp hps,
        W.forIn_cons, W.forIn_nil, h.complete, if_true, h.all, List.map_nil, List.nil_append, W.run_upd, W.run_pure]
      rw [forIn_skip _ _ _ fun t ht => congrArg (fun w : Unit × Work => (ForInStep.yield PUnit.unit, w.2)) (hkeep t ht)]
      simp only [hcur]

/-- The word is checked for the group alone, and the check changes nothing. -/
theorem check (h : GroupHere i s sl g ps) (hr : ∀ x ∈ ps, runCause s i (usesOf i) x = none)
    (hq : (usesOf i).pops = [] ∧ (usesOf i).pushes = []) :
    checkIssue i { st := s } = ({ act := participants i s ps
                                  pass := (ps.filter fun x => !guardTrue (guardOf i) x).map Thread.tid, bad := [] },
      { st := s }) := by
  obtain ⟨hpops, hpushes⟩ := hq
  have hok : ps.filter (fun t => (decodeCause s i (usesOf i) t).isNone) = ps :=
    List.filter_eq_self.2 fun x hx => by simp [h.legal x hx]
  have hbad : ps.filterMap (fun t => (decodeCause s i (usesOf i) t).map fun c => (t.tid, c.1, c.2)) = [] :=
    List.filterMap_eq_nil_iff.2 fun x hx => by simp [h.legal x hx]
  have hrun : ∀ x ∈ ps.filter (guardTrue (guardOf i)), runCause s i (usesOf i) x = none :=
    fun x hx => hr x (List.mem_of_mem_filter hx)
  have hon : (ps.filter (guardTrue (guardOf i))).filter (fun t => (runCause s i (usesOf i) t).isNone)
      = ps.filter (guardTrue (guardOf i)) := List.filter_eq_self.2 fun x hx => by simp [hrun x hx]
  have hcauses : (ps.filter (guardTrue (guardOf i))).filterMap
      (fun t => (runCause s i (usesOf i) t).map fun c => (t.tid, c.1, c.2)) = [] :=
    List.filterMap_eq_nil_iff.2 fun x hx => by simp [hrun x hx]
  unfold checkIssue participants
  simp only [W.run_bind, W.run_getSt, h.here, hok, hbad, hon, hcauses, hpops, hpushes, List.isEmpty_nil, Bool.and_self, if_true,
    W.run_pure, List.map_nil, ite_self, List.append_nil]

end GroupHere

/-! ### Results without a queue -/

theorem writeShared_groups {u : Uses} (hq : u.pushes = []) (c : Nat) (k : Nat × Nat) (rs : List (Thread × Res)) (w : Work) :
    ∃ gs, writeShared u c k rs w = ((), { w with st := w.st.putGroups gs }) := by
  suffices h : Same (fun w : Work => ({ w with st := w.st.putGroups [] } : Work)) (writeShared u c k rs) by
    refine ⟨(writeShared u c k rs w).2.st.groups, Prod.ext rfl ?_⟩
    have e := congrArg (fun x : Work => ({ x with st := x.st.putGroups (writeShared u c k rs w).2.st.groups } : Work)) (h w)
    exact e
  unfold writeShared
  refine same_forIn fun o ho _ => ?_
  have hnone : (isQ o.1.code.toNat && o.1.kind ≠ .queueName) = false := by
    have hm := List.mem_filter.1 (List.fst_mem_of_mem_zipIdx ho)
    have hnil := List.filter_eq_nil_iff.1 (List.map_eq_nil_iff.1 hq) o.1 hm.1
    simpa [hm.2] using hnil
  dsimp only
  refine same_ite (fun _ => ?_) fun _ => same_ite (fun hc => ?_) fun _ => same_bind (same_pure _) fun _ => same_pure _
  · split
    · exact same_bind (fun _ => rfl) fun _ => same_pure _
    · exact same_pure _
  · rw [hnone] at hc
    cases hc

/-- The state with other records of its threads. -/
def State.withThreads (s : State) (l : List Thread) : State := { s with threads := l }

/-- The threads of an issue after they have received results. -/
def State.giveAll (s : State) (u : Uses) (rs : List (Thread × Res)) : State :=
  rs.foldl (fun s x => s.setThread x.1.tid (applyRes u x.2)) s

theorem foldl_setThread_eq {α : Type} (xs : List α) (t : α → ThreadId) (f : α → Thread → Thread) (s : State) :
    ∃ l, xs.foldl (fun s x => s.setThread (t x) (f x)) s = s.withThreads l := by
  induction xs generalizing s with
  | nil => exact ⟨s.threads, rfl⟩
  | cons x xs ih => exact (ih _).imp fun _ h => h

theorem giveAll_eq (s : State) (u : Uses) (rs : List (Thread × Res)) : ∃ l, s.giveAll u rs = s.withThreads l :=
  foldl_setThread_eq rs (fun x => x.1.tid) (fun x => applyRes u x.2) s

theorem issued_eq (s : State) (i : Instr) (r : Issued) (pcOf : Thread → DWord) :
    ∃ l, s.issued i r pcOf = s.withThreads l := by
  obtain ⟨l1, h1⟩ := foldl_setThread_eq ((r.act.map fun x => x.1.tid) ++ r.pass) (fun t => t) (issuedRec i (r.act.map Prod.fst)) s
  obtain ⟨l2, h2⟩ := foldl_setThread_eq (r.moves s.cur.pc pcOf) (·.1) (fun m y => y.goTo m.2) (s.noted i r)
  exact ⟨l2, h2.trans (by rw [show s.noted i r = _ from h1]; rfl)⟩

theorem thread?_issued_congr {s t : State} (hcur : t.cur = s.cur) (h : ∀ u, t.thread? u = s.thread? u)
    {pcOf : Thread → DWord} (u : ThreadId) : (t.issued i r pcOf).thread? u = (s.issued i r pcOf).thread? u := by
  unfold State.issued
  rw [thread?_setPcs, thread?_setPcs, thread?_noted, thread?_noted, hcur, h]

/-- Results that enter no queue change the threads that receive them and registers of groups. -/
theorem writeResults_noPush {u : Uses} (hq : u.pushes = []) (rs : List (Thread × Res)) (w : Work) :
    ∃ gs, writeResults u rs w = ((), { w with st := (w.st.giveAll u rs).putGroups gs }) ∧
      (OwnDests u → gs = w.st.groups) := by
  have hkeep : (w.st.giveAll u rs).putGroups w.st.groups = w.st.giveAll u rs := by
    obtain ⟨l, hl⟩ := giveAll_eq w.st u rs
    rw [hl]
    rfl
  have hloop : ∀ (ks : List (Nat × Nat)) (a : PUnit) (v : Work), ∃ gs,
      (forIn ks a (fun k _ => (do writeShared u w.st.cur.core k rs; pure (ForInStep.yield PUnit.unit) : W _)) : W _) v
        = (PUnit.unit, { v with st := v.st.putGroups gs }) := by
    intro ks
    induction ks with
    | nil => exact fun _ v => ⟨v.st.groups, rfl⟩
    | cons k ks ih =>
      intro a v
      obtain ⟨g1, h1⟩ := writeShared_groups hq w.st.cur.core k rs v
      obtain ⟨g2, h2⟩ := ih PUnit.unit { v with st := v.st.putGroups g1 }
      refine ⟨g2, ?_⟩
      rw [W.forIn_cons, W.run_bind, h1]
      exact h2
  unfold writeResults
  simp only [W.run_bind, W.run_getSt]
  rw [forIn_applyRes, W.run_ite]
  split
  next hany =>
    obtain ⟨gs, he⟩ := hloop (groupsOf (rs.map (·.1))) PUnit.unit { w with st := w.st.giveAll u rs }
    unfold State.giveAll at he ⊢
    refine ⟨gs, ?_, fun ho => absurd hany ?_⟩
    · rw [W.run_bind, W.run_pure]
      simp only [he]
    · simp only [List.any_eq_true, List.mem_filter, not_exists, not_and, Bool.not_eq_true']
      exact fun o hm => by simp [ho o hm.1 hm.2]
  next =>
    refine ⟨w.st.groups, ?_, fun _ => rfl⟩
    rw [hkeep]
    rfl

theorem thread?_giveAll (s : State) (u : Uses) (rs : List (Thread × Res)) (t : ThreadId) :
    (s.giveAll u rs).thread? t
      = (s.thread? t).map fun y => (rs.filter fun x => x.1.tid = t).foldl (fun y x => applyRes u x.2 y) y :=
  thread?_foldl rs (fun x => x.1.tid) (fun x => applyRes u x.2) (fun _ _ => rfl) s t

/-- The record of a thread whose guard is false, after the bookkeeping and the arrivals. -/
theorem issued_pass {pcOf : Thread → DWord} (h : r.Distinct) {t : ThreadId} (ht : t ∈ r.pass) (s : State) :
    (s.issued i r pcOf).thread? t = (s.thread? t).map fun y => (issuedRec i (r.act.map (·.1)) t y).goTo (s.cur.pc + 8) := by
  have h1 := (List.nodup_append.1 h).1
  have hm : (t, s.cur.pc + 8) ∈ r.moves s.cur.pc pcOf := List.mem_append_right _ (List.mem_map.2 ⟨t, ht, rfl⟩)
  have h2 := filter_nodup (t := id) (by simpa using h1) (List.mem_append_right (r.act.map fun x => x.1.tid) ht)
  have h3 := filter_nodup (h.moved s.cur.pc pcOf) hm
  simp only [id] at h2 h3
  unfold State.issued
  rw [thread?_setPcs, thread?_noted, h2, h3]
  simp [Function.comp_def]

/-! ### The participants' results -/

/-- What a group instruction does once its participants are known: `res` sees a group, its participants with their source
values, and one of them. -/
def groupAct (i : Instr) (r : Issued) (pc : DWord) (res : Nat × Nat → List (Thread × List Nat) → Thread × List Nat → Res) :
    W Unit := do
  for k in groupsOf (r.act.map (·.1)) do
    let mine := r.act.filter fun x => (x.1.slot, x.1.grp) = k
    writeResults (usesOf i) (mine.map fun x => (x.1, res k mine x))
  endIssue i r fun _ => pc + 8

variable {pc : DWord} {res : Nat × Nat → List (Thread × List Nat) → Thread × List Nat → Res}

/-- Participants of one group receive their results together. -/
theorem groupAct_one (hk : ∀ x ∈ r.act, (x.1.slot, x.1.grp) = (sl, g)) (hg : g < 512) (w : Work) :
    groupAct i r pc res w = endIssue i r (fun _ => pc + 8) false
      (writeResults (usesOf i) (r.act.map fun x => (x.1, res (sl, g) r.act x)) w).2 := by
  have hmine : r.act.filter (fun x => decide ((x.1.slot, x.1.grp) = (sl, g))) = r.act :=
    List.filter_eq_self.2 fun x hx => decide_eq_true (hk x hx)
  unfold groupAct
  rcases eq_or_ne r.act [] with hnil | hne
  · simp only [hnil, List.map_nil, groupsOf_nil, W.forIn_nil, W.run_bind, writeResults_nil]
  · rw [groupsOf_one (by simpa using hk) hg (by simpa using hne)]
    simp only [W.run_bind, W.forIn_cons, W.forIn_nil, W.run_pure, hmine]

/-- The state that a group instruction leaves: threads, groups and PC tables change. -/
theorem groupAct_run (hk : ∀ x ∈ r.act, (x.1.slot, x.1.grp) = (sl, g)) (hg : g < 512) (hq : (usesOf i).pushes = [])
    (hb : r.bad = []) (s : State) :
    ∃ t, groupAct i r pc res { st := s } = ((), { st := t }) ∧ SameRest s t ∧ (OwnDests (usesOf i) → t.groups = s.groups) ∧
      t.thread? = ((s.giveAll (usesOf i) (r.act.map fun x => (x.1, res (sl, g) r.act x))).issued i r fun _ => pc + 8).thread? := by
  obtain ⟨gs, hw, hown⟩ := writeResults_noPush hq (r.act.map fun x => (x.1, res (sl, g) r.act x)) { st := s }
  obtain ⟨l, hl⟩ := giveAll_eq s (usesOf i) (r.act.map fun x => (x.1, res (sl, g) r.act x))
  rw [hl] at hw ⊢
  obtain ⟨q, heng, he⟩ := endIssue_eq i r (fun _ => pc + 8) { st := (s.withThreads l).putGroups gs }
  obtain ⟨l', hl'⟩ := issued_eq ((s.withThreads l).putGroups gs) i r fun _ => pc + 8
  rw [hb, hl'] at he
  refine ⟨(((s.withThreads l).putGroups gs).withThreads l').putQuarters q, ?_, ⟨rfl, rfl, rfl, heng⟩, hown, ?_⟩
  · rw [groupAct_one hk hg, hw]
    exact he
  · rw [← hl']
    exact funext fun u =>
      (thread?_issued_congr (s := s.withThreads l) (t := (s.withThreads l).putGroups gs) rfl (fun _ => rfl) u :)

/-- A participant's record: its result, and the next word. -/
theorem groupAct_acts (hd : r.Distinct) {x : Thread × List Nat} (hx : x ∈ r.act) {y : Thread} (hy : s.thread? x.1.tid = some y)
    (val : Thread × List Nat → Res) :
    ((s.giveAll (usesOf i) (r.act.map fun x => (x.1, val x))).issued i r fun _ => pc + 8).thread? x.1.tid
      = some ((issuedRec i (r.act.map (·.1)) x.1.tid (applyRes (usesOf i) (val x) y)).goTo (pc + 8)) := by
  have hn : ((r.act.map fun x => (x.1, val x)).map fun z => z.1.tid).Nodup := by
    simpa only [List.map_map, Function.comp_def] using hd.act_nodup
  have hone : (r.act.map fun x => (x.1, val x)).filter (fun z => z.1.tid = x.1.tid) = [(x.1, val x)] :=
    filter_nodup (t := fun z : Thread × Res => z.1.tid) hn (List.mem_map.2 ⟨x, hx, rfl⟩)
  rw [issued_act hd hx, thread?_giveAll, hone, hy]
  rfl

/-- A thread of the group that takes no part goes on as it was. -/
theorem groupAct_passes (hd : r.Distinct) {t : ThreadId} (ht : t ∈ r.pass) {y : Thread} (hy : s.thread? t = some y)
    (hpc : s.cur.pc = pc) (val : Thread × List Nat → Res) :
    ((s.giveAll (usesOf i) (r.act.map fun x => (x.1, val x))).issued i r fun _ => pc + 8).thread? t
      = some ((issuedRec i (r.act.map (·.1)) t y).goTo (pc + 8)) := by
  have hnone : (r.act.map fun x => (x.1, val x)).filter (fun z => z.1.tid = t) = [] := by
    simp only [List.filter_eq_nil_iff, List.mem_map, decide_eq_true_eq]
    rintro _ ⟨x, hx, rfl⟩ rfl
    exact (List.nodup_append.1 (List.nodup_append.1 hd).1).2.2 _ (List.mem_map.2 ⟨x, hx, rfl⟩) _ ht rfl
  obtain ⟨l, hl⟩ := giveAll_eq s (usesOf i) (r.act.map fun x => (x.1, val x))
  rw [issued_pass hd ht, thread?_giveAll, hnone, hy, hl, ← hpc]
  rfl

/-- A thread outside the group keeps its record. -/
theorem groupAct_others {t : ThreadId} (ha : ∀ x ∈ r.act, x.1.tid ≠ t) (hp : t ∉ r.pass) (val : Thread × List Nat → Res) :
    ((s.giveAll (usesOf i) (r.act.map fun x => (x.1, val x))).issued i r fun _ => pc + 8).thread? t = s.thread? t := by
  have hnone : (r.act.map fun x => (x.1, val x)).filter (fun z => z.1.tid = t) = [] := by
    simp only [List.filter_eq_nil_iff, List.mem_map, decide_eq_true_eq]
    rintro _ ⟨x, hx, rfl⟩
    exact ha x hx
  obtain ⟨q, -, he⟩ := endIssue_eq i { r with bad := [] } (fun _ => pc + 8)
    { st := s.giveAll (usesOf i) (r.act.map fun x => (x.1, val x)) }
  have hother := endIssue_other (i := i) (r := { r with bad := [] }) (pcOf := fun _ => pc + 8) ha hp (by simp)
    { st := s.giveAll (usesOf i) (r.act.map fun x => (x.1, val x)) }
  rw [he] at hother
  refine (hother :).trans ?_
  rw [thread?_giveAll, hnone]
  exact Option.map_id'

/-! ### The instructions -/

/-- Every participant's predicate is false exactly when no participant's is true (R194). -/
theorem groupRule_vote (v : FWord) : groupRule (.vote v) = some fun _ _ mine _ => evalVote v mine := by
  unfold groupRule evalVote
  simp only [List.not_any_eq_all_not] <;> rfl

variable {f : Nat → List Thread → List (Thread × List Nat) → Thread × List Nat → Res}

/-- What the rule of a group instruction gives a participant of the group `k` in the state `s`. -/
def groupRes (s : State) (f : Nat → List Thread → List (Thread × List Nat) → Thread × List Nat → Res) (k : Nat × Nat) :
    List (Thread × List Nat) → Thread × List Nat → Res :=
  f (((s.team? s.cur.core k.1).map Team.width).getD 0) (s.groupThreads s.cur.core k.1 k.2)

theorem issueGroup_run (hg : ∀ part, gatherGroups i part { st := s } = ((), { st := s }))
    (hc : checkIssue i { st := s } = (r, { st := s })) (part : Bool)
    (eval : Nat → List (Thread × List Nat) → Thread × List Nat → Res) :
    run (issueGroup i part eval) s
      = run (groupAct i r s.cur.pc fun k => eval (((s.team? s.cur.core k.1).map Team.width).getD 0)) s := by
  refine congrArg (fun p : Unit × Work => Host.Outcome.next (finish s p.2)) ?_
  unfold issueGroup groupAct
  simp only [W.run_bind, hg, hc, W.run_getSt]

/-- A group instruction gathers its group, if it is not ACTMASK, and then acts by its rule. -/
theorem exec_groupRule (hf : groupRule i = some f) (hg : ∀ part, gatherGroups i part { st := s } = ((), { st := s }))
    (hc : checkIssue i { st := s } = (r, { st := s })) :
    exec i s = run (groupAct i r s.cur.pc (groupRes s f)) s := by
  cases i
  case shfl w => obtain rfl := Option.some.inj hf; exact issueGroup_run hg hc _ _
  case gred w => obtain rfl := Option.some.inj hf; exact issueGroup_run hg hc _ _
  case gscan w => obtain rfl := Option.some.inj hf; exact issueGroup_run hg hc _ _
  case matchW w => obtain rfl := Option.some.inj hf; exact issueGroup_run hg hc _ _
  case elect w => obtain rfl := Option.some.inj hf; exact issueGroup_run hg hc _ _
  case vote w =>
    obtain rfl := Option.some.inj ((groupRule_vote w).symm.trans hf)
    exact issueGroup_run hg hc _ _
  case actmask w =>
    obtain rfl := Option.some.inj hf
    refine congrArg (fun p : Unit × Work => Host.Outcome.next (finish s p.2)) ?_
    unfold groupAct
    simp only [W.run_bind, hc]
    rfl
  all_goals cases hf

theorem dropsCauses_of_groupRule (hf : groupRule i = some f) : dropsCauses i = false := by
  cases i <;> cases hf <;> rfl

/-- Everything a group instruction does in a state whose group is complete and whose checks change nothing. -/
theorem exec_group (hf : groupRule i = some f) (h : GroupHere i s sl g ps) (hc : checkIssue i { st := s } = (r, { st := s }))
    (hk : ∀ x ∈ r.act, x.1 ∈ ps) (hq : (usesOf i).pushes = []) (hb : r.bad = []) :
    ∃ t, exec i s = .next t ∧ SameRest s t ∧ (OwnDests (usesOf i) → t.groups = s.groups) ∧
      t.thread? = ((s.giveAll (usesOf i) (r.act.map fun x => (x.1, groupRes s f (sl, g) r.act x))).issued i r
        fun _ => s.cur.pc + 8).thread? := by
  have hkey : ∀ x ∈ r.act, (x.1.slot, x.1.grp) = (sl, g) := fun x hx => Prod.ext (h.key (hk x hx)).2.1 (h.key (hk x hx)).2.2
  obtain ⟨t, ht, hrest, hown, hth⟩ := groupAct_run (pc := s.cur.pc) (res := groupRes s f) hkey h.grp hq hb s
  exact ⟨t, (exec_groupRule hf h.gather hc).trans (run_sameRest ht hrest), hrest, hown, hth⟩

theorem GroupAtWord.tids (h : GroupAtWord i s sl g ps) : (ps.map Thread.tid).Nodup :=
  ((h.all ▸ List.filter_sublist : ps.Sublist s.threads).map Thread.tid).nodup h.one

theorem GroupAtWord.thread? (h : GroupAtWord i s sl g ps) {x : Thread} (hx : x ∈ ps) : s.thread? x.tid = some x := by
  have hm : x ∈ s.threads := List.mem_of_mem_filter (h.all ▸ hx : x ∈ s.groupThreads s.cur.core sl g)
  have hone := filter_nodup (t := Thread.tid) h.one hm
  unfold State.thread?
  rw [← List.head?_filter, hone]
  rfl

theorem GroupAtWord.groupHere (h : GroupAtWord i s sl g ps) : GroupHere i s sl g ps where
  cur := h.cur
  here := by
    unfold State.curThreads
    rw [h.cur, List.filterMap_map]
    exact (List.filterMap_congr fun x hx => h.thread? hx).trans List.filterMap_some
  all := h.all
  grp := h.grp
  legal := fun x hx => (h.legal x hx).1
  calm := fun x hx => by
    obtain ⟨-, hh, hhalt, hp⟩ := h.calm x hx
    obtain ⟨-, -, -, hpc⟩ := h.place x hx
    exact ⟨hpc, hh, hhalt, hp⟩
  ready := fun x hx hcur => by
    rw [h.cur] at hcur
    obtain ⟨y, hy, hyx⟩ := List.mem_map.1 hcur
    obtain rfl : y = x := inj_of_nodup_map h.one (List.mem_of_mem_filter (h.all ▸ hy : y ∈ s.groupThreads s.cur.core sl g)) hx hyx
    simp [(h.calm y hy).1]

theorem participantsCombineTheirValues : Claims.GroupInstructionsUseEveryParticipant := by
  intro i f s sl g ps hf h
  have hhere := h.groupHere
  have hc := hhere.check (fun x hx => (h.legal x hx).2) h.noQ
  have hd := (checkIssue_spec i (dropsCauses_of_groupRule hf) { st := s } (h.cur ▸ h.tids)).1
  rw [hc] at hd
  obtain ⟨t, he, hrest, hown, hth⟩ := exec_group hf hhere hc
    (fun x hx => by obtain ⟨y, hy, rfl⟩ := List.mem_map.1 hx; exact List.mem_of_mem_filter hy) h.noQ.2 rfl
  have hres : groupRes s f (sl, g) = f (((s.team? s.cur.core sl).map Team.width).getD 0) ps := by
    unfold groupRes
    rw [h.all]
  rw [hres] at hth
  refine ⟨t, he, hrest, fun v hv => ?_, fun x hx => ?_, fun hisV => hown fun o ho hdst => ?_⟩
  · refine (congrFun hth v).trans (groupAct_others ?_ ?_ _)
    · rintro _ hx
      obtain ⟨y, hy, rfl⟩ := List.mem_map.1 hx
      exact hv y (List.mem_of_mem_filter hy)
    · intro hp
      obtain ⟨x, hx, hxv⟩ := List.mem_map.1 hp
      exact hv x (List.mem_of_mem_filter hx) hxv
  · cases hon : guardTrue (guardOf i) x
    · have hp : x.tid ∈ (ps.filter fun x => !guardTrue (guardOf i) x).map Thread.tid :=
        List.mem_map_of_mem (List.mem_filter.2 ⟨hx, by simp [hon]⟩)
      exact ⟨_, (congrFun hth x.tid).trans (groupAct_passes hd hp (h.thread? hx) rfl _), rfl, nofun,
        fun _ => issuedRec_registers ..⟩
    · have ha : (x, readSources s x (usesOf i).ops []) ∈ participants i s ps :=
        List.mem_map_of_mem (List.mem_filter.2 ⟨hx, hon⟩)
      exact ⟨_, (congrFun hth x.tid).trans (groupAct_acts hd ha (h.thread? hx) _), rfl,
        fun _ => issuedRec_registers .., nofun⟩
  · have hvo := List.all_eq_true.1 hisV o ho
    rw [hdst] at hvo
    simp only [Bool.not_true, Bool.false_or] at hvo
    simp [hvo]

/-! ### Waiting for the group -/

/-- The record of a thread that waits for its group. -/
def Thread.inGop (th : Thread) : Thread := { th with wait := .gop }

/-- The state after `th` has left the issue group and waits for its logical group. -/
def State.heldBack (s : State) (th : Thread) : State := { s with cur := { s.cur with threads := [] } }.putThread th.inGop

variable {y : Thread}

/-- A group with a live thread that neither issues now nor waits for the group keeps its threads waiting. -/
theorem gopCheck_waits {c : Nat} (hy : y ∈ w.st.groupThreads c sl g) (hgop : y.wait ≠ .gop) : gopCheck c sl g w = ((), w) := by
  have hall : (w.st.groupThreads c sl g).all (fun t => decide (t.wait = .gop) && t.halt.isNone && t.pending.isNone) = false :=
    List.all_eq_false.2 ⟨y, hy, by simp [hgop]⟩
  unfold gopCheck
  simp only [W.run_bind, W.run_getSt, hall, Bool.and_false, Bool.false_eq_true, if_false, W.run_pure]

theorem gatherGroups_holds (hcur : s.cur.threads = [th.tid]) (hcore : s.cur.core = th.tid.core) (hone : s.Has th)
    (hg : th.grp < 512) (hd : decodeCause s i (usesOf i) th = none) (hh : th.handler = false) (hy : y ∈ s.threads)
    (hyc : y.tid.core = th.tid.core) (hys : y.slot = th.slot) (hyg : y.grp = th.grp) (hi : y.idle = false)
    (hne : y.tid ≠ th.tid) (hgop : y.wait ≠ .gop) :
    gatherGroups i false { st := s } = ((), { st := s.heldBack th }) := by
  have hmate : y ∈ s.groupThreads s.cur.core th.slot th.grp := List.mem_filter.2 ⟨hy, by simp [hyc, hys, hyg, hi, hcore]⟩
  have hmate' : y ∈ (s.heldBack th).groupThreads s.cur.core th.slot th.grp :=
    List.mem_filter.2 ⟨List.mem_map.2 ⟨y, hy, if_neg hne⟩, by simp [hyc, hys, hyg, hi, hcore]⟩
  have hts : s.curThreads = [th] := by simp [State.curThreads, hcur, hone.thread?]
  have hnot : s.groupComplete (th.slot, th.grp) = false := by
    unfold State.groupComplete
    exact List.all_eq_false.2 ⟨y, hmate, by simp [hcur, hne, hgop]⟩
  have hpark : park th.tid .gop { st := { s with cur := { s.cur with threads := [] } } } = ((), { st := s.heldBack th }) :=
    modThread_has (w := { st := { s with cur := { s.cur with threads := [] } } }) (x := th) hone _ rfl
  have hcheck := gopCheck_waits (w := { st := s.heldBack th }) hmate' hgop
  unfold gatherGroups
  simp only [W.run_bind, W.run_getSt, hts, List.filter_cons, List.filter_nil, hd, Option.isSome_none, Option.isNone_none, hh,
    Bool.or_false, Bool.not_false, Bool.false_eq_true, if_true, if_false, groupsOf_single hg, W.forIn_cons, W.forIn_nil,
    W.run_pure, hnot, List.map_nil, List.nil_append, W.run_upd, decide_true, hpark, hcheck]

theorem checkIssue_none (h : s.cur.threads = []) :
    checkIssue i { st := s } = ({ act := [], pass := [], bad := [] }, { st := s }) := by
  unfold checkIssue State.curThreads
  simp only [W.run_bind, W.run_getSt, h, List.filterMap_nil, List.filter_nil, List.map_nil, groupsOf_nil, ite_self,
    List.append_nil]
  split <;> rfl

/-- The end of an issue without a thread changes nothing. -/
theorem endIssue_none (pcOf : Thread → DWord) (w : Work) :
    endIssue i { act := [], pass := [], bad := [] } pcOf false w = ((), w) := rfl

theorem groupsWait : Claims.GroupInstructionsWaitForTheGroup := by
  intro i s th y hi hcur hcore hone hg hd hh hy hyc hys hyg hidle hne hgop
  obtain ⟨eval, he⟩ : ∃ eval, exec i s = run (issueGroup i false eval) s := by
    cases i
    case shfl w => exact ⟨_, congrArg (fun b => run (issueGroup (.shfl w) b (evalShfl w)) s) hi⟩
    case vote w => exact ⟨_, congrArg (fun b => run (issueGroup (.vote w) b fun _ ps _ => evalVote w ps) s) hi⟩
    case gred w => exact ⟨_, congrArg (fun b => run (issueGroup (.gred w) b fun n ps _ => evalGred w n ps) s) hi⟩
    case gscan w => exact ⟨_, congrArg (fun b => run (issueGroup (.gscan w) b (evalGscan w)) s) hi⟩
    case matchW w => exact ⟨_, congrArg (fun b => run (issueGroup (.matchW w) b _) s) hi⟩
    case elect w => exact ⟨_, congrArg (fun b => run (issueGroup (.elect w) b _) s) hi⟩
    all_goals cases hi
  have hgather := gatherGroups_holds hcur hcore hone hg hd hh hy hyc hys hyg hidle hne hgop
  have hc : checkIssue i { st := s.heldBack th } = _ := checkIssue_none rfl
  have hbody : issueGroup i false eval { st := s } = ((), { st := s.heldBack th }) := by
    unfold issueGroup
    simp only [W.run_bind, hgather, hc, W.run_getSt, List.map_nil, groupsOf_nil, W.forIn_nil, endIssue_none]
  refine ⟨s.heldBack th, he.trans (run_quiet hbody rfl rfl), (State.Has.put (s := s) hone (a := th.inGop) rfl).thread?,
    fun v hv => ?_, rfl, rfl, rfl, fun _ => rfl⟩
  exact thread?_putThread_ne (s := s) (a := th.inGop) hv

/-- Settles O18: participants' values are read before any result is written, and a group that is not complete waits. -/
theorem groupInstructionsUseEveryParticipant : Obligations.GroupInstructionsUseEveryParticipant :=
  ⟨participantsCombineTheirValues, groupsWait⟩

end Sys2Proof.Machine
end

section
/-!
Instructions whose effect is performed once for the issue of a lone thread (08 R295, R497), with the effects of ACCRD, OMAP,
BKPT, SETMODE and PREEMPT (R319 to R321, R357, R376).
-/
namespace Sys2Proof.Machine

variable {i : Instr} {s : State} {th : Thread} {w : Work}

/-! ### The instruction of a lone thread finishes -/

/-- The instruction of a lone thread has been performed: its registers are written and its entry is gone. -/
theorem Solo.finishes {w2 : Work} {e : Entry} (h : Solo i s th) (hq : noQueueDest i th) (hid : ∀ z ∈ th.unf, z.id ≠ e.id)
    (htag : e.tag = s.clock) (hdst : e.dst = destOf i th)
    (ht : w2.st.threads = (s.putThread ((th.issued i (s.cur.pc + 8)).plus e)).threads) (hg : w2.st.groups = s.groups)
    (vals : List Word) :
    settleEntry th.tid e.id (.ok vals) w2 =
      ((), { w2 with st := (w2.st.putThread (th.completed s i vals)).putGroups (s.groupsWith th (destOf i th) vals) }) := by
  set y := th.issued i (s.cur.pc + 8) with hy
  have hnone : ∀ z ∈ y.unf, z.id ≠ e.id := hid
  have h2 : w2.st.Has (y.plus e) := Has_threads (h.has.put (a := y.plus e) rfl) ht
  have hone : w2.st.OnlyTag (y.plus e) e.id e.tag := by
    intro z hz e' he' hte
    rw [ht] at hz
    rcases putThread_mem hz with rfl | ⟨hz, -⟩
    · refine ⟨rfl, ?_⟩
      rcases List.mem_append.1 he' with he' | he'
      · exact absurd (hte.trans htag) (h.fresh th h.has.mem e' he')
      · rw [List.mem_singleton.1 he']
    · exact absurd (hte.trans htag) (h.fresh z hz e' he')
  have hgw : w2.st.groupsWith (y.plus e) e.dst vals = s.groupsWith th (destOf i th) vals := by
    unfold State.groupsWith
    rw [hg, hdst]
    rfl
  have hfin := finishEntry_solo h2 (plus_filter hnone).1 h.calm hone (by rw [hdst]; exact hq) vals
  rw [unparked_plus (x := y) h.ready hnone, hgw, hdst] at hfin
  have hth : w2.st.thread? th.tid = some (y.plus e) := h2.thread?
  have hent : (y.plus e).entry? e.id = some e := find_one (plus_filter hnone).1
  unfold settleEntry
  rw [W.run_bind, W.run_getSt]
  simp only [hth, hent]
  exact hfin

/-- The state after the issue of a lone thread, with the entry of its instruction. -/
def State.entered (s : State) (i : Instr) (th : Thread) (e : Entry) (q : List Quarter) : State :=
  (s.putThread ((th.issued i (s.cur.pc + 8)).plus e)).putQuarters q

theorem Solo.entered_has (h : Solo i s th) (e : Entry) (q : List Quarter) :
    (s.entered i th e q).Has ((th.issued i (s.cur.pc + 8)).plus e) :=
  h.has.put (a := (th.issued i (s.cur.pc + 8)).plus e) rfl

theorem Solo.entered_thread? (h : Solo i s th) (e : Entry) (q : List Quarter) :
    (s.entered i th e q).thread? th.tid = some ((th.issued i (s.cur.pc + 8)).plus e) := (h.entered_has e q).thread?

theorem Solo.entered_entry? (h : Solo i s th) {e : Entry} (hid : ∀ z ∈ th.unf, z.id ≠ e.id) (q : List Quarter) :
    ((s.entered i th e q).thread? th.tid).bind (fun x => x.entry? e.id) = some e := by
  rw [h.entered_thread? e q]
  exact find_one (plus_filter (x := th.issued i (s.cur.pc + 8)) hid).1

/-- An instruction that acts once per group, issued by a lone thread: its action is attempted in the state after the issue. -/
theorem Solo.acting (h : Solo i s th) (capture : State → Thread → List Nat → List Word) (perf : ThreadId → Entry → P (List Word)) :
    ∃ q, SameEngines s (s.putQuarters q) ∧ issueActing i capture perf { st := s }
      = attemptActing perf th.tid (soloEntry i s th capture).id { st := s.entered i th (soloEntry i s th capture) q } := by
  obtain ⟨q, hq, he⟩ := endIssue_solo i th (Solo.values i s th) (fun _ => s.cur.pc + 8) { st := s }
  refine ⟨q, hq, ?_⟩
  have hset : s.setThread th.tid (fun x => (issuedRec i [th] th.tid x).goTo (s.cur.pc + 8))
      = s.putThread (th.issued i (s.cur.pc + 8)) := by
    rw [h.has.set _ (by rfl), issued_rec]
  have he' : endIssue i { act := [(th, Solo.values i s th)], pass := [], bad := [] } (fun _ => s.cur.pc + 8) false { st := s }
      = ((), { st := (s.putThread (th.issued i (s.cur.pc + 8))).putQuarters q }) := by
    rw [he, ← hset]
  have hm := modThread_put (w := { st := s.putQuarters q }) h.has rfl (a := th.issued i (s.cur.pc + 8))
    (f := fun t => { t with unf := t.unf ++ [soloEntry i s th capture] })
    (b := (th.issued i (s.cur.pc + 8)).plus (soloEntry i s th capture)) rfl rfl rfl
  unfold issueActing
  simp only [W.run_bind, h.check, W.run_getSt, he', List.map_cons, List.map_nil, groupsOf_single h.grp, W.forIn_cons, W.forIn_nil,
    W.run_pure, List.filter_cons, List.filter_nil, decide_true, if_true, List.foldl_cons, List.foldl_nil, ne_eq,
    not_true_eq_false, if_false]
  exact congrArg (fun r : Unit × Work => ((), (attemptActing perf th.tid (soloEntry i s th capture).id r.2).2)) hm

variable {perf : ThreadId → Entry → P (List Word)} {t : ThreadId} {e : Entry} {w2 : Work}

theorem releaseWaiters_none {id : Nat} (h : w.st.noFollowers t) (vals : Option (List Word)) :
    releaseWaiters t id vals w = ((), w) := by
  have hkeep : ∀ f : Thread → Thread, w.st.threads.map (fun x => if x.waitsActing t id then f x else x) = w.st.threads := fun f =>
    (List.map_congr_left fun x hx => if_neg (by simp [h x hx id])).trans (List.map_id _)
  unfold releaseWaiters
  rw [W.run_upd, hkeep]

theorem attempt_run {r : Except Stop (List Word)} (he : (w.st.thread? t).bind (fun x => x.entry? e.id) = some e)
    (hr : (perf t e).run w = (r, w2)) : attempt perf t e.id w = settleEntry t e.id r w2 := by
  unfold attempt
  simp only [W.run_bind, W.run_getSt, he, hr]

theorem attemptActing_ok (he : (w.st.thread? t).bind (fun x => x.entry? e.id) = some e) {vals : List Word}
    (hr : (perf t e).run w = (.ok vals, w2)) (hf : w2.st.noFollowers t) :
    attemptActing perf t e.id w = settleEntry t e.id (.ok vals) w2 := by
  unfold attemptActing
  simp only [W.run_bind, W.run_getSt, he, hr, releaseWaiters_none hf]
  rfl

/-- An action that an engine takes up parks its thread on the entry. -/
theorem attemptActing_eng {x : Thread} {e' : Entry} (he : (w.st.thread? t).bind (fun x => x.entry? e.id) = some e)
    (hr : (perf t e).run w = (.error .eng, w2)) (hx : w2.st.thread? t = some x) (he' : x.entry? e.id = some e') :
    attemptActing perf t e.id w = parkOn t e.id (.eng .entry) w2 := by
  unfold attemptActing
  simp only [W.run_bind, W.run_getSt, he, hr, W.run_pure, parkStop, settleEntry, hx, he']

theorem noFollowers_entered {l : List Thread} (h : Solo i s th) (hf : s.noFollowers t)
    (hl : l = (s.putThread ((th.issued i (s.cur.pc + 8)).plus e)).threads) : ∀ x ∈ l, ∀ id, x.waitsActing t id = false := by
  intro x hx id
  rw [hl] at hx
  rcases putThread_mem hx with rfl | ⟨hx, -⟩
  · exact hf th h.has.mem id
  · exact hf x hx id

/-- A lone thread's action that is performed at once: the step ends in the state that the action left, with the registers
written. -/
theorem Solo.acts (h : Solo i s th) (capture : State → Thread → List Nat → List Word) (hq : noQueueDest i th)
    (hf : s.noFollowers th.tid) :
    ∃ q, SameEngines s (s.putQuarters q) ∧ ∀ vals w2, (perf th.tid (soloEntry i s th capture)).run
        { st := s.entered i th (soloEntry i s th capture) q } = (.ok vals, w2) →
      w2.st.threads = (s.putThread ((th.issued i (s.cur.pc + 8)).plus (soloEntry i s th capture))).threads →
      w2.st.groups = s.groups → run (issueActing i capture perf) s = .next (w2.completed s i th vals) := by
  obtain ⟨q, heng, he⟩ := h.acting capture perf
  refine ⟨q, heng, fun vals w2 hr ht hg => ?_⟩
  have hid : ∀ z ∈ th.unf, z.id ≠ (soloEntry i s th capture).id := fun z hz => newEntry_id s i th _ hz
  unfold run
  rw [he, attemptActing_ok (w := { st := s.entered i th (soloEntry i s th capture) q }) (h.entered_entry? hid q) hr
      (noFollowers_entered h hf ht), h.finishes hq hid rfl rfl ht hg]
  rfl

/-! ### SETMODE -/

/-- The first captured operand of a word whose one source is 32 bits wide. -/
theorem setmode_w (v : EWord) (s : State) (th : Thread) (vals : List Nat) :
    (newEntry s (.setmode v) th (captureE (.setmode v) s th vals)).w 0 = (BitVec.ofNat 32 (arg vals 0)).toNat := by
  cases vals with
  | nil => rfl
  | cons x xs =>
    change (BitVec.ofNat 32 (x / 2 ^ (32 * 0))).toNat = (BitVec.ofNat 32 x).toNat
    rw [Nat.mul_zero, Nat.pow_zero, Nat.div_one]

/-- What SETMODE with selector `m` and operand `v` answers for a launch, and makes of it (R320). -/
def setmodeAct (m v : Nat) (l : Launch) : Word × Launch :=
  match m with
  | 0 => (BitVec.ofNat 32 l.prom.toNat, { l with prom := v % 2 = 1 })
  | 1 => if v < 64 || v > 65535 then (0xFFFFFFFF, l) else (BitVec.ofNat 32 l.fair, { l with fair := v })
  | _ => (BitVec.ofNat 32 l.wdogLim, { l with wdogLim := v, wdog := 0 })

theorem setmodeAct_slot (m v : Nat) (l : Launch) : (setmodeAct m v l).2.slot = l.slot := by
  unfold setmodeAct
  split
  · rfl
  · split <;> rfl
  · rfl

theorem setLaunch_same (s : State) (n : Nat) : s.setLaunch n (fun x => x) = s := by
  have hkeep : s.launches.map (fun x => if x.slot = n then x else x) = s.launches :=
    (List.map_congr_left fun _ _ => ite_self _).trans (List.map_id _)
  unfold State.setLaunch
  rw [hkeep]

theorem performSetmode_run {m : Nat} {t : ThreadId} {e : Entry} {l : Launch}
    (hl : ((w.st.thread? t).bind fun th => w.st.launch? th.lslot) = some l) :
    (performSetmode m t e).run w = (.ok [(setmodeAct m (e.w 0) l).1],
      { w with st := w.st.setLaunch l.slot fun x => (setmodeAct m (e.w 0) x).2 }) := by
  unfold performSetmode setmodeAct
  rw [P.run_getSt_bind]
  simp only [hl]
  match m with
  | 0 => rfl
  | 1 =>
    cases hb : decide (e.w 0 < 64) || decide (e.w 0 > 65535)
    · simp only
      rfl
    · simp only [if_true, setLaunch_same, P.run_pure]
  | _ + 2 => rfl

theorem setmodeDone {v : EWord} {l : Launch} (h : Solo (.setmode v) s th) (hq : noQueueDest (.setmode v) th)
    (hf : s.noFollowers th.tid) (hl : s.launches.filter (fun x => x.slot = th.lslot) = [l]) :
    ∃ t, exec (.setmode v) s = .next t ∧ SetmodeDone v s t th l := by
  obtain ⟨q, -, he⟩ := h.acts (perf := performContext (.setmode v)) (captureE (.setmode v)) hq hf
  set e := soloEntry (.setmode v) s th (captureE (.setmode v)) with hedef
  have hlaunch : s.launch? th.lslot = some l := find_one hl
  have hslot : l.slot = th.lslot := by simpa using List.find?_some hlaunch
  have hth : (s.entered (.setmode v) th e q).thread? th.tid = _ := h.entered_thread? e q
  have hperf : (performContext (.setmode v) th.tid e).run { st := s.entered (.setmode v) th e q }
      = (.ok [(setmodeAct (v.o2.toNat % 32) (e.w 0) l).1],
        { st := (s.entered (.setmode v) th e q).setLaunch l.slot fun x => (setmodeAct (v.o2.toNat % 32) (e.w 0) x).2 }) := by
    unfold performContext
    rw [P.run_getSt_bind]
    simp only [hth]
    exact performSetmode_run (by rw [hth]; exact hlaunch)
  have hexec := he _ _ hperf rfl rfl
  have hword : e.w 0 = (BitVec.ofNat 32 (arg (Solo.values (.setmode v) s th) 0)).toNat := setmode_w ..
  generalize hk : v.o2.toNat % 32 = k at *
  generalize hx : e.w 0 = x at *
  generalize hw2 : ({ st := (s.entered (.setmode v) th e q).setLaunch l.slot fun y => (setmodeAct k x y).2 } : Work) = w2 at hexec
  generalize ht : w2.completed s (.setmode v) th [(setmodeAct k x l).1] = t at hexec
  have hwrote : Wrote s t (.setmode v) th [(setmodeAct k x l).1] := ht ▸ h.wrote (by rw [← hw2]; rfl) _
  have hdone : t.launches = (s.setLaunch l.slot fun y => (setmodeAct k x y).2).launches := by
    rw [← ht, ← hw2]
    rfl
  have hnew : t.launch? th.lslot = some (setmodeAct k x l).2 := by
    unfold State.launch?
    rw [hdone, hslot]
    exact (launch?_setLaunch s th.lslot (setmodeAct_slot k x)).trans (hlaunch ▸ rfl)
  refine ⟨t, hexec, ?_⟩
  unfold SetmodeDone
  simp only [← hword, hk]
  refine ⟨?_, ?_, ?_, ?_⟩
  · rintro rfl
    exact ⟨hwrote, hnew⟩
  · rintro rfl h1 h2
    have hin : (x < 64 || x > 65535) = false := by simp; omega
    simp only [setmodeAct, hin] at hwrote hnew
    exact ⟨hwrote, hnew⟩
  · rintro rfl hout
    have hin : (decide (x < 64) || decide (x > 65535)) = true := by simp; omega
    simp only [setmodeAct, hin, if_true, setLaunch_same] at hwrote hdone
    exact ⟨hwrote, hdone⟩
  · rintro rfl
    exact ⟨hwrote, hnew⟩

/-! ### ACCRD -/

/-- An entry of ACCRD that its engine has accepted (R376). -/
def Entry.accepted (e : Entry) : Entry := { e with aux := [1] }

theorem modEntry_entered (h : s.Has th) {e : Entry} (hid : ∀ z ∈ th.unf, z.id ≠ e.id) (f : Entry → Entry) (q : List Quarter) :
    modEntry th.tid e.id f { st := s.entered i th e q } = ((), { st := s.entered i th (f e) q }) := by
  have hmap : ((th.issued i (s.cur.pc + 8)).plus e).unf.map (fun y => if y.id = e.id then f y else y)
      = ((th.issued i (s.cur.pc + 8)).plus (f e)).unf := by
    have hold : th.unf.map (fun y => if y.id = e.id then f y else y) = th.unf :=
      (List.map_congr_left fun y hy => if_neg (hid y hy)).trans (List.map_id _)
    unfold Thread.plus Thread.issued
    dsimp only
    rw [List.map_append, hold, List.map_cons, List.map_nil, if_pos rfl]
  unfold modEntry
  refine modThread_put (w := { st := s.putQuarters q }) h rfl rfl ?_ rfl
  rw [hmap]
  rfl

theorem performAccrd_run {v : EWord} {e : Entry} (h : Solo (.accrd v) s th) (hid : ∀ z ∈ th.unf, z.id ≠ e.id) (haux : e.aux = [])
    {q : List Quarter} (heng : SameEngines s (s.putQuarters q)) (hw : e.w 1 < 256) :
    let k := s.quarter th.tid.core th.tid.qtr
    let tl := k.tile v.o2.toNat
    tl.owner = some th.slot → tl.ver = BitVec.ofNat 16 (e.w 0) → k.busyTile tl.idx = false → e.w 1 ∉ tl.poison →
    (performAccrd v th.tid e).run { st := s.entered (.accrd v) th e q }
      = (.ok [(tl.data[e.w 1]?).getD 0], { st := s.entered (.accrd v) th e.accepted q }) := by
  intro k tl hown hver hbusy hpois
  have hk := heng th.tid.core th.tid.qtr
  have htile : (((s.entered (.accrd v) th e q).quarter th.tid.core th.tid.qtr).tile v.o2.toNat) = tl :=
    (congrArg (fun y : Quarter => y.tile v.o2.toNat) hk :)
  have hbusy' : ((s.entered (.accrd v) th e q).quarter th.tid.core th.tid.qtr).busyTile tl.idx = false :=
    (congrArg (fun y : Quarter => y.busyTile tl.idx) hk :).trans hbusy
  have hmod := modEntry_entered (i := .accrd v) h.has hid (fun e => { e with aux := [1] }) q
  have hbad : (decide (e.w 1 ≥ 256) || decide (some th.slot ≠ some ((th.issued (.accrd v) (s.cur.pc + 8)).plus e).slot)) = false := by
    simp [hw, Thread.plus, Thread.issued]
  have hpois' : tl.poison.contains (e.w 1) = false := by simpa using hpois
  unfold performAccrd
  rw [P.run_getSt_bind]
  simp only [h.entered_thread? e q, htile, hbusy', haux, hown, hver, hbad, hpois', ne_eq, List.nil_eq, reduceCtorEq,
    not_false_eq_true, if_true, not_true_eq_false, decide_false, Bool.or_false, Bool.false_eq_true, if_false]
  rw [P.run_bind_ok (P.run_lift _ _), hmod]
  rfl

theorem accrdReads {v : EWord} (h : Solo (.accrd v) s th) (hq : noQueueDest (.accrd v) th)
    (hw : (engEntry (.accrd v) s th).w 1 < 256) :
    let e := engEntry (.accrd v) s th
    let k := s.quarter th.tid.core th.tid.qtr
    let tl := k.tile v.o2.toNat
    tl.owner = some th.slot → tl.ver = BitVec.ofNat 16 (e.w 0) → k.busyTile tl.idx = false → e.w 1 ∉ tl.poison →
    ∃ t, exec (.accrd v) s = .next t ∧ t.thread? th.tid = some (th.completed s (.accrd v) [(tl.data[e.w 1]?).getD 0]) := by
  intro e k tl hown hver hbusy hpois
  obtain ⟨q, heng, he⟩ := h.entries (captureE (.accrd v)) false nofun (performAccrd v)
  have hid : ∀ z ∈ th.unf, z.id ≠ e.id := fun z hz => newEntry_id s _ th _ hz
  have hr := performAccrd_run h hid rfl heng hw hown hver hbusy hpois
  have hsettle := h.finishes (w2 := { st := s.entered (.accrd v) th e.accepted q }) (e := e.accepted) hq hid rfl rfl rfl rfl
    [(tl.data[e.w 1]?).getD 0]
  have hbody := (he.trans (attempt_run (w := { st := s.entered (.accrd v) th e q }) (h.entered_entry? hid q) hr)).trans hsettle
  exact ⟨_, run_quiet hbody rfl rfl,
    ((h.entered_has e.accepted q).put (a := th.completed s (.accrd v) [(tl.data[e.w 1]?).getD 0]) rfl).thread?⟩

/-! ### OMAP -/

/-- Sixty-four aligned bytes lie in one page. -/
theorem pieces_aligned {a : Nat} (h : a % 64 = 0) : pieces (64 / 4096 + 2) a 64 = [(a, 64)] := by
  unfold pieces
  rw [if_neg (by omega), if_pos (by omega)]

/-- An engine reads a record of 64 aligned bytes. -/
theorem engRead_record {x : Eng} {fa : DWord} {pa : Nat} (hx : x.early = false) (hcanon : canonical fa.toNat = true)
    (ht : w.st.trans (.die (dieOf x.core)) x.pasid fa.toNat .read = .ok pa) (hal : fa.toNat % 64 = 0) (hp : pa + 64 ≤ 2 ^ 42)
    (hcl : w.st.cleanSpan pa 64) (hred : ∀ c ∈ w.st.cores, c.red = []) (hh : w.st.hostHeld = []) (hlog : w.log = []) (retry : Nat) :
    (engRead x retry fa.toNat 64).run w = (.ok (w.st.bytesAt pa 64, false), w) := by
  have hpieces : (engPieces x retry fa.toNat 64 false).run w = (.ok [(pa, 64)], w) := by
    unfold engPieces
    rw [Nat.mod_eq_of_lt fa.isLt, pieces_aligned hal]
    have hone : (takeBack pa 64 fa >>= fun _ => needSpan pa 64 false fa >>= fun _ =>
        (pure (ForInStep.yield [(pa, 64)]) : P (ForInStep (List (Nat × Nat))))).run w = (.ok (.yield [(pa, 64)]), w) := by
      rw [P.run_bind_ok (takeBack_skip hred ..), P.run_bind_ok (needSpan_run hh (by omega) (by unfold hostBase; omega) ..)]
      rfl
    have hva : BitVec.ofNat 64 fa.toNat = fa := by simp
    refine (P.run_bind_ok ((P.forIn_cons _ _ _ _ w (b' := [(pa, 64)]) ?_).trans (P.run_pure _ w)) _).trans (P.run_pure _ w)
    simp only [hcanon, Bool.not_true, Bool.false_eq_true, if_false, hx, hva]
    rw [P.run_bind_ok (translate_run ht retry)]
    cases x.writer with
    | none => exact hone
    | some c => exact hone
  have hpois : w.st.poisoned pa 64 = false := poisoned_of_cleanSpan hcl (by omega) (by omega)
  have hbytes : readBytes pa 64 w = (w.st.bytesAt pa 64, w) := by
    unfold readBytes State.bytesAt State.byte
    simp [hlog, memView]
  unfold engRead
  rw [P.run_bind_ok hpieces]
  refine (P.run_bind_ok ((P.forIn_cons _ _ _ _ w (b' := (w.st.bytesAt pa 64, false)) ?_).trans (P.run_pure _ w)) _).trans
    (P.run_pure _ w)
  simp only [P.run_bind, P.run_lift, hbytes, isPoisoned, W.run_bind, W.run_getSt, W.run_pure, hpois]
  rfl

/-- A team with the operand map `n` set. -/
def Team.withMap (n : Nat) (m : OMap) (tm : Team) : Team := { tm with omaps := tm.omaps.set n (some m) }

theorem performOmap_run {v : EWord} {e : Entry} {tm : Team} {pa : Nat} (h : Solo (.omap v) s th) (hc : EngCalm s)
    (ht : s.team? th.tid.core th.slot = some tm) (q : List Quarter) (hal : (e.d 0).toNat % 64 = 0)
    (hcanon : canonical (e.d 0).toNat = true)
    (htrans : s.trans (.die (dieOf th.tid.core)) (s.pasidOf tm.lslot) (e.d 0).toNat .read = .ok pa) (hp : pa + 64 ≤ 2 ^ 42)
    (hcl : s.cleanSpan pa 64) (hok : omapOk (s.value pa 64) (parseOMap (s.value pa 64)) (s.feature 6) = true) :
    (performOmap v th.tid e).run { st := s.entered (.omap v) th e q }
      = (.ok [], { st := (s.entered (.omap v) th e q).setTeam th.tid.core th.slot
                    (Team.withMap v.o1.toNat (parseOMap (s.value pa 64))) }) := by
  have heng : (s.entered (.omap v) th e q).eng th.tid.core th.slot = s.eng th.tid.core th.slot := rfl
  have hx : s.eng th.tid.core th.slot = { core := th.tid.core, slot := th.slot, lslot := tm.lslot, pasid := s.pasidOf tm.lslot,
                                          base := tm.base, size := tm.scratch, writer := some th.tid.core } := by
    unfold State.eng
    rw [ht]
  have hread := engRead_record (w := { st := s.entered (.omap v) th e q }) (x := s.eng th.tid.core th.slot) (fa := e.d 0)
    (by rw [hx]) hcanon (by rw [hx]; exact htrans) hal hp hcl (fun c hm => (hc.cores c hm).1) hc.noHost rfl e.retry
  unfold performOmap
  rw [P.run_getSt_bind]
  simp only [h.entered_thread? e q, hal, hcanon, ne_eq, not_true_eq_false, if_false, Bool.not_true, Bool.false_eq_true]
  refine (P.run_bind_ok hread _).trans ?_
  have hok' : omapOk (leValue ((s.entered (.omap v) th e q).bytesAt pa 64)) (parseOMap (leValue ((s.entered (.omap v) th e q).bytesAt
    pa 64))) ((s.entered (.omap v) th e q).feature 6) = true := hok
  simp only [Bool.false_eq_true, if_false, hok', Bool.not_true]
  rfl

theorem omapIsHeld {v : EWord} {tm : Team} {pa : Nat} (h : Solo (.omap v) s th) (hc : EngCalm s) (hf : s.noFollowers th.tid)
    (ht : s.teams.filter (fun y => y.core = th.tid.core && y.slot = th.slot) = [tm])
    (hal : ((engEntry (.omap v) s th).d 0).toNat % 64 = 0) (hcanon : canonical ((engEntry (.omap v) s th).d 0).toNat = true)
    (htrans : s.trans (.die (dieOf th.tid.core)) (s.pasidOf tm.lslot) ((engEntry (.omap v) s th).d 0).toNat .read = .ok pa)
    (hp : pa + 64 ≤ 2 ^ 42) (hcl : s.cleanSpan pa 64)
    (hok : omapOk (s.value pa 64) (parseOMap (s.value pa 64)) (s.feature 6) = true) :
    ∃ t, exec (.omap v) s = .next t ∧ t.thread? th.tid = some (th.issued (.omap v) (s.cur.pc + 8)) ∧
      t.team? th.tid.core th.slot = some { tm with omaps := tm.omaps.set v.o1.toNat (some (parseOMap (s.value pa 64))) } := by
  have hteam : s.team? th.tid.core th.slot = some tm := find_one ht
  obtain ⟨q, -, he⟩ := h.acts (perf := performOmap v) (captureE (.omap v)) nofun hf
  have hexec := he _ _ (performOmap_run h hc hteam q hal hcanon htrans hp hcl hok) rfl rfl
  refine ⟨_, hexec, (h.wrote rfl []).1, ?_⟩
  exact (team?_setTeam s _ _ (f := Team.withMap v.o1.toNat (parseOMap (s.value pa 64))) fun _ => ⟨rfl, rfl⟩).trans (hteam ▸ rfl)

/-! ### BKPT -/

/-- The record of a thread that BKPT halts for its debugger (R319). -/
def Thread.broken (th : Thread) (v : EWord) (pc : DWord) : Thread :=
  { { th with code := v.o1 }.issued (.bkpt v) pc with tpc := pc, halt := some .bkpt, windows := [] }

theorem bkptHalts {v : EWord} (h : Solo (.bkpt v) s th) (hd : s.debugged th.lslot = true) :
    ∃ t, exec (.bkpt v) s = .next t ∧ t.thread? th.tid = some (th.broken v (s.cur.pc + 8)) := by
  set a : Thread := { th with code := v.o1 } with ha
  obtain ⟨q, -, he⟩ := endIssue_solo (.bkpt v) th (Solo.values (.bkpt v) s th) (fun _ => s.cur.pc + 8) { st := s.putThread a }
  have hcode : modThread th.tid (fun t => { t with code := v.o1 }) { st := s } = ((), { st := s.putThread a }) :=
    modThread_has (w := { st := s }) h.has _ rfl
  have hset : (s.putThread a).setThread th.tid (fun x => (issuedRec (.bkpt v) [th] th.tid x).goTo (s.cur.pc + 8))
      = s.putThread ((issuedRec (.bkpt v) [th] th.tid a).goTo (s.cur.pc + 8)) :=
    ((h.has.put (a := a) rfl).set _ rfl).trans (State.putThread_put rfl)
  have hhalt := modThread_put (w := { st := s.putQuarters q }) h.has rfl
    (a := (issuedRec (.bkpt v) [th] th.tid a).goTo (s.cur.pc + 8))
    (f := fun t => { t with tpc := s.cur.pc + 8, halt := some .bkpt, windows := [] }) (b := th.broken v (s.cur.pc + 8)) rfl rfl rfl
  have hthread := (State.Has.put (s := s.putQuarters q) h.has (a := th.broken v (s.cur.pc + 8)) rfl).thread?
  refine ⟨{ (s.putQuarters q).putThread (th.broken v (s.cur.pc + 8)) with hostOut := s.hostOut ++ [.debugger th.tid] },
    run_quiet ?_ rfl rfl, hthread⟩
  have hend : endIssue (.bkpt v) { act := [(th, Solo.values (.bkpt v) s th)], pass := [], bad := [] } (fun _ => s.cur.pc + 8) false
      { st := s.putThread a } = ((), { st := (s.putQuarters q).putThread ((issuedRec (.bkpt v) [th] th.tid a).goTo (s.cur.pc + 8)) }) := by
    rw [he, hset]
    rfl
  simp only [W.run_bind, h.check, W.forIn_cons, W.forIn_nil, W.run_pure, hcode, hend, hd, if_true, hhalt, sendHost, W.run_upd]
  rfl

/-! ### PREEMPT -/

/-- What a device's choices may change: the choices that are left. -/
def State.withChoices (s : State) (cs : List Nat) : State := { s with choices := cs }

theorem drawCores_run (xs : List Nat) (n : Nat) (w : Work) :
    ∃ vs cs, drawCores xs n w = (vs, { w with st := w.st.withChoices cs }) := by
  induction n generalizing xs w with
  | zero => exact ⟨[], w.st.choices, rfl⟩
  | succ n ih =>
    obtain ⟨k, cs, hk⟩ : ∃ k cs, choose xs.length w = (k, { w with st := w.st.withChoices cs }) := by
      cases xs with
      | nil => exact ⟨0, w.st.choices, rfl⟩
      | cons x xs =>
        obtain ⟨k, -, cs, hk⟩ := choose_lt (x :: xs).length (Nat.succ_pos _) w
        exact ⟨k, cs, hk⟩
    unfold drawCores
    simp only [W.run_bind, hk]
    cases xs[k]? with
    | none => exact ⟨[], cs, rfl⟩
    | some c =>
      obtain ⟨vs, cs', h⟩ := ih (xs.eraseIdx k) { w with st := w.st.withChoices cs }
      refine ⟨c :: vs, cs', ?_⟩
      simp only [W.run_bind, h, W.run_pure]
      rfl

theorem pickVictims_run (l n : Nat) (avoid : Option Nat) (w : Work) :
    ∃ vs cs, pickVictims l n avoid w = (vs, { w with st := w.st.withChoices cs }) := by
  obtain ⟨alone, c1, h1⟩ := drawCores_run (w.st.vacatable l avoid).1 n w
  obtain ⟨more, c2, h2⟩ := drawCores_run (w.st.vacatable l avoid).2 (n - alone.length) { w with st := w.st.withChoices c1 }
  refine ⟨alone ++ more, c2, ?_⟩
  unfold pickVictims
  simp only [W.run_bind, W.run_getSt, h1, h2, W.run_pure]
  rfl

/-- A state in which a pre-emption goes on. -/
def State.preempting (s : State) (p : Preempt) (cs : List Nat) (reserved : List (Nat × Nat)) (saving : List (Nat × Nat × Bool)) :
    State :=
  { s with preempt := some p, choices := cs, reserved, saving }

theorem startPreempt_run (l n q : Nat) (lead : Option ThreadId) (w : Work) :
    ∃ p cs r v, startPreempt l n q lead w = ((), { w with st := w.st.preempting p cs r v }) ∧ p.lead = lead := by
  obtain ⟨vs, cs, h⟩ := pickVictims_run l n (lead.map ThreadId.core) w
  unfold startPreempt
  simp only [W.run_bind, W.run_getSt, h, W.run_upd]
  exact ⟨_, cs, _, _, rfl, rfl⟩

/-- Captured operands are read as they stand, and as 0 beyond them (R295). -/
theorem newEntry_w (s : State) (i : Instr) (th : Thread) (opv : List Word) (k : Nat) :
    (newEntry s i th opv).w k = ((opv[k]?).getD 0).toNat := by
  have hopv : (newEntry s i th opv).opv = opv ++ List.replicate (8 - opv.length) 0 := rfl
  unfold Entry.w
  rw [hopv, List.getElem?_append]
  split
  · rfl
  · rename_i hk
    rw [List.getElem?_eq_none (not_lt.1 hk), List.getElem?_replicate]
    split <;> rfl

/-- The record of a thread parked on one of its unfinished instructions. -/
def Thread.parkedOn (x : Thread) (id : Nat) (w : Wait) : Thread :=
  { x.parkAt w with unf := x.unf.map fun e => if e.id = id then { e with parks := true } else e }

theorem parkedOn_tid (x : Thread) (id : Nat) (wt : Wait) : (x.parkedOn id wt).tid = x.tid := rfl
theorem parkedOn_wait (x : Thread) (id : Nat) (wt : Wait) : (x.parkedOn id wt).wait = wt := rfl
theorem parkedOn_pc (x : Thread) (id : Nat) (wt : Wait) : (x.parkedOn id wt).pc = x.pc := rfl

/-- A thread parks on the entry of the instruction that it has just issued. -/
theorem parkOn_entered (h : s.Has th) (e : Entry) (q : List Quarter) (wt : Wait) :
    ∃ x, parkOn th.tid e.id wt { st := s.entered i th e q } = ((), { st := (s.putQuarters q).putThread x }) ∧
      ((s.putQuarters q).putThread x).thread? th.tid = some x ∧ x.wait = wt ∧ x.pc = s.cur.pc + 8 := by
  obtain ⟨y, hy⟩ : ∃ y, y = (th.issued i (s.cur.pc + 8)).plus e := ⟨_, rfl⟩
  have htid : y.tid = th.tid := by simp only [hy, Thread.plus, Thread.issued]
  have hpc : y.pc = s.cur.pc + 8 := by simp only [hy, Thread.plus, Thread.issued]
  have hput := modThread_put (w := { st := s.putQuarters q }) h rfl (a := y) (f := fun x => x.parkedOn e.id wt)
    (b := y.parkedOn e.id wt) htid rfl htid
  have hthread := (State.Has.put (s := s.putQuarters q) h (a := y.parkedOn e.id wt) htid).thread?
  rw [parkedOn_tid, htid] at hthread
  unfold State.entered
  rw [← hy]
  exact ⟨y.parkedOn e.id wt, hput, hthread, rfl, hpc⟩

theorem performPreempt_run {v : EWord} {e : Entry} (h : Solo (.preempt v) s th) (hid : ∀ z ∈ th.unf, z.id ≠ e.id) (haux : e.aux = [])
    (q : List Quarter) (hr : s.preemptRefused (e.w 0) (e.w 1) (v.o4.toNat % 64) (some th.lslot) = none) :
    ∃ p cs r u, (performContext (.preempt v) th.tid e).run { st := s.entered (.preempt v) th e q }
      = (.error .eng, { st := (s.preempting p cs r u).entered (.preempt v) th e.accepted q }) ∧ p.lead = some th.tid := by
  obtain ⟨p, cs, r, u, hs, hp⟩ := startPreempt_run (e.w 0) (e.w 1) (v.o4.toNat % 64) (some th.tid)
    { st := s.entered (.preempt v) th e q }
  have hhas : (s.preempting p cs r u).Has th := h.has
  have hmod := modEntry_entered (i := .preempt v) hhas hid (fun e => { e with aux := [1] }) q
  have hrefused : (s.entered (.preempt v) th e q).preemptRefused (e.w 0) (e.w 1) (v.o4.toNat % 64)
      (some ((th.issued (.preempt v) (s.cur.pc + 8)).plus e).lslot) = none := hr
  refine ⟨p, cs, r, u, ?_, hp⟩
  unfold performContext
  rw [P.run_getSt_bind]
  simp only [h.entered_thread? e q]
  unfold performPreempt
  simp only [haux]
  rw [P.run_getSt_bind]
  simp only [hrefused]
  rw [P.run_bind_ok (P.run_lift _ _), hs, P.run_bind_ok (P.run_lift _ _)]
  exact congrArg (fun x : Unit × Work => (Except.error (α := List Word) Stop.eng, x.2)) hmod

theorem preemptWaits {v : EWord} (h : Solo (.preempt v) s th)
    (hr : let e := captureE (.preempt v) s th (Solo.values (.preempt v) s th)
      s.preemptRefused ((e[0]?).getD 0).toNat ((e[1]?).getD 0).toNat (v.o4.toNat % 64) (some th.lslot) = none) :
    ∃ t x p, exec (.preempt v) s = .next t ∧ t.thread? th.tid = some x ∧ x.wait = .eng .entry ∧ x.pc = s.cur.pc + 8 ∧
      t.preempt = some p ∧ p.lead = some th.tid := by
  obtain ⟨q, -, he⟩ := h.acting (captureE (.preempt v)) (performContext (.preempt v))
  have hid : ∀ z ∈ th.unf, z.id ≠ (soloEntry (.preempt v) s th (captureE (.preempt v))).id := fun z hz => newEntry_id s _ th _ hz
  obtain ⟨p, cs, r, u, hperf, hp⟩ := performPreempt_run h hid rfl q (by rw [soloEntry, newEntry_w, newEntry_w]; exact hr)
  generalize soloEntry (.preempt v) s th (captureE (.preempt v)) = e at he hid hperf
  have hhas : (s.preempting p cs r u).Has th := h.has
  have hx : ((s.preempting p cs r u).entered (.preempt v) th e.accepted q).thread? th.tid
      = some ((th.issued (.preempt v) (s.cur.pc + 8)).plus e.accepted) :=
    (State.Has.put hhas (a := (th.issued (.preempt v) (s.cur.pc + 8)).plus e.accepted) rfl).thread?
  have hent : ((th.issued (.preempt v) (s.cur.pc + 8)).plus e.accepted).entry? e.id = some e.accepted :=
    find_one (plus_filter (x := th.issued (.preempt v) (s.cur.pc + 8)) (e := e.accepted) hid).1
  obtain ⟨x, hpark, hthread, hwait, hpc⟩ := parkOn_entered (i := .preempt v) hhas e.accepted q (.eng .entry)
  have hbody := (he.trans (attemptActing_eng (h.entered_entry? hid q) hperf hx hent)).trans hpark
  exact ⟨_, x, p, run_quiet hbody rfl rfl, hthread, hwait, hpc, rfl, hp⟩

/-! ### A group of one thread -/

theorem Solo.groupHere (h : Solo i s th) (hh : th.handler = false) (hhalt : th.halt = none)
    (hall : s.groupThreads th.tid.core th.slot th.grp = [th]) : GroupHere i s th.slot th.grp [th] := by
  obtain ⟨hcore, -, -, hpc⟩ := h.place
  refine ⟨h.alone, ?_, hcore ▸ hall, h.grp, ?_, ?_, fun x hx hcur => ?_⟩
  · simp [State.curThreads, h.alone, h.here]
  · simpa using h.legal
  · simpa using ⟨hpc.symm, hh, hhalt, h.calm⟩
  · have htid : x.tid = th.tid := by simpa [h.alone] using hcur
    have hm : x ∈ s.threads.filter fun y => y.tid = th.tid := List.mem_filter.2 ⟨hx, by simpa using htid⟩
    rw [h.one, List.mem_singleton] at hm
    rw [hm, h.ready]
    nofun

/-- A group instruction of a thread that is its whole group combines the thread's own values. -/
theorem groupOfOne {f : Nat → List Thread → List (Thread × List Nat) → Thread × List Nat → Res} (hf : groupRule i = some f)
    (h : Solo i s th) (hh : th.handler = false) (hhalt : th.halt = none)
    (hall : s.groupThreads th.tid.core th.slot th.grp = [th]) :
    let me := (th, Solo.values i s th)
    ∃ t x, exec i s = .next t ∧ t.thread? th.tid = some x ∧ x.pc = s.cur.pc + 8 ∧ x.handler = false ∧
      x.registers = (applyRes (usesOf i) (f (((s.team? th.tid.core th.slot).map Team.width).getD 0) [th] [me] me) th).registers := by
  intro me
  obtain ⟨hcore, -, -, -⟩ := h.place
  have hres : groupRes s f (th.slot, th.grp) = f (((s.team? th.tid.core th.slot).map Team.width).getD 0) [th] := by
    unfold groupRes
    rw [hcore, hall]
  obtain ⟨t, he, -, -, hth⟩ := exec_group hf (h.groupHere hh hhalt hall) h.check (by simp) h.noQ.2 rfl
  rw [hres] at hth
  have hd : Issued.Distinct { act := [me], pass := [], bad := [] } := by simp [Issued.Distinct]
  have hx := (congrFun hth th.tid).trans (groupAct_acts hd (List.mem_singleton.2 rfl) h.here _)
  exact ⟨t, _, he, hx, rfl, hh, issuedRec_registers ..⟩

/-! ### The statement -/

theorem exitEndsTheItem {v : IWord} (h : Solo (.exitW v) s th) (hm : th.handler = false) (hn : th.nest = 0) :
    ∃ t x, exec (.exitW v) s = .next t ∧ t.thread? th.tid = some x ∧ x.wait = .eng (.assign s.clock) ∧ x.pc = s.cur.pc ∧
      x.v = th.v ∧ ∀ l, s.launch? th.lslot = some l → t.launch? th.lslot = some { l with retired := l.retired + 1, wdog := 0 } := by
  obtain ⟨t, he, hx, hl, -⟩ := (exitRetiresTheItem v s th h).1 hm hn
  exact ⟨t, _, he, hx, rfl, rfl, rfl, hl⟩

theorem napEndsOrWaits {v : IWord} (h : Solo (.nap v) s th) :
    ∃ t x, exec (.nap v) s = .next t ∧ t.thread? th.tid = some x ∧ x.pc = s.cur.pc + 8 ∧ x.v = th.v ∧
      (x.wait = .ready ↔ v.imm.toNat % 2 ^ 16 = 0) := by
  obtain ⟨t, he, -, -, -, h0, h1⟩ := napParks v s th h
  by_cases hn : v.imm.toNat % 2 ^ 16 = 0
  · exact ⟨t, _, he, h0 hn, rfl, rfl, iff_of_true h.ready hn⟩
  · obtain ⟨m, -, hx⟩ := h1 hn
    exact ⟨t, _, he, hx, rfl, rfl, iff_of_false nofun hn⟩

/-- Settles O59: each of these words, of a thread that is alone in the issue, ends with its own effect. -/
theorem issuedWordsComplete : Obligations.IssuedWordsComplete := by
  unfold Obligations.IssuedWordsComplete
  intro w f v s th
  refine ⟨exitEndsTheItem, fun h _ hs hr hn => ?_, napEndsOrWaits, fun i _ r hf h hh hhalt hall => groupOfOne hf h hh hhalt hall,
    fun h hq hw => accrdReads h hq hw, fun tm pa h _ hc hl ht hal hcanon htrans hp hcl hok => omapIsHeld h hc hl ht hal hcanon htrans hp hcl hok,
    fun h hd => ?_, fun l h hq hf hl => setmodeDone h hq hf hl, fun h _ hr => preemptWaits h hr⟩
  · obtain ⟨t, he, hgo, hctr, hst⟩ := yieldGivesTheYoungestStamp w s th h hs hr hn
    exact ⟨t, he, hgo.1, hctr, hst⟩
  · obtain ⟨t, he, hx⟩ := bkptHalts h hd
    exact ⟨t, _, he, hx, rfl, rfl, rfl, rfl⟩

end Sys2Proof.Machine
end

section
/-!
Signatures of the matrix instructions (04 R177, 10 R362): a command is latched on its convergence register, or raises CONV
and stays in the replay queue.
-/
namespace Sys2Proof.Machine

variable {i : Instr} {s : State} {th : Thread} {w : Work} {tm : Team} {x : CvInst} {e : Entry} {c sl k q : Nat} {qs : List Quarter}

/-! ### The entry of the command -/

/-- The end of the issue of a lone thread that holds a new entry. -/
theorem endIssue_entered (h : Solo i s th) (e : Entry) (vals : List Nat) :
    ∃ qs, SameEngines s (s.putQuarters qs) ∧
      endIssue i { act := [(th, vals)], pass := [], bad := [] } (fun _ => s.cur.pc + 8) false { st := s.putThread (th.plus e) }
        = ((), { st := s.entered i th e qs }) := by
  obtain ⟨qs, hq, he⟩ := endIssue_solo i th vals (fun _ => s.cur.pc + 8) { st := s.putThread (th.plus e) }
  have hset := (h.has.put (a := th.plus e) rfl).set (fun x => (issuedRec i [th] th.tid x).goTo (s.cur.pc + 8)) rfl
  simp only [issued_plus] at hset
  rw [State.putThread_put (by rfl)] at hset
  have hset : (s.putThread (th.plus e)).setThread th.tid (fun x => (issuedRec i [th] th.tid x).goTo (s.cur.pc + 8)) = _ := hset
  refine ⟨qs, hq, he.trans ?_⟩
  rw [hset]
  rfl

/-- A matrix command that a lone thread issues signs in the state after the issue. -/
theorem issueMatrix_run {a : MArgs} (h : Solo i s th) (ha : mArgs i = some a) :
    ∃ qs, SameEngines s (s.putQuarters qs) ∧ issueMatrix i { st := s }
      = attemptSign a.cv th.tid (engEntry i s th).id { st := s.entered i th (engEntry i s th) qs } := by
  obtain ⟨qs, hq, he⟩ := endIssue_entered h (engEntry i s th) (Solo.values i s th)
  have hm : modThread th.tid (fun x => { x with unf := x.unf ++ [engEntry i s th] }) { st := s }
      = ((), { st := s.putThread (th.plus (engEntry i s th)) }) := modThread_has (w := { st := s }) h.has _ rfl
  refine ⟨qs, hq, ?_⟩
  unfold issueMatrix
  simp only [ha, W.run_bind, h.check, W.run_getSt, List.map_cons, List.map_nil, W.forIn_cons, W.forIn_nil, W.run_pure]
  rw [show newEntry s i th (captureE i s th (Solo.values i s th)) = engEntry i s th from rfl, hm, he]
  rfl

/-! ### A signature with an engine operation -/

theorem mapCv_id (tm : Team) (k q : Nat) : tm.mapCv k q id = tm := by
  unfold Team.mapCv
  simp

theorem setTeam_id (s : State) (c sl : Nat) : s.setTeam c sl (fun tm => tm) = s := by
  have hkeep : s.teams.map (fun y => if y.core = c && y.slot = sl then y else y) = s.teams :=
    (List.map_congr_left fun _ _ => ite_self _).trans (List.map_id _)
  unfold State.setTeam
  rw [hkeep]

theorem mapCv_mapCv {f : CvInst → CvInst} (hf : KeepsName f) (tm : Team) (k q : Nat) (g : CvInst → CvInst) :
    (tm.mapCv k q f).mapCv k q g = tm.mapCv k q (g ∘ f) := by
  unfold Team.mapCv
  simp only [List.map_map]
  refine congrArg (fun l => { tm with cvs := l }) (List.map_congr_left fun y _ => ?_)
  obtain ⟨hcv, hqtr, hkind, -⟩ := hf y
  dsimp only [Function.comp_apply]
  by_cases hy : (y.cv = k && y.qtr = cvQtr y.kind q) = true
  · rw [if_pos hy, if_pos (by rw [hcv, hqtr, hkind]; exact hy), if_pos hy]
  · rw [if_neg hy, if_neg hy, if_neg hy]

theorem setTeam_mapCv (s : State) (c sl k q : Nat) {f : CvInst → CvInst} (hf : KeepsName f) (g : CvInst → CvInst) :
    (s.setTeam c sl (·.mapCv k q f)).setTeam c sl (·.mapCv k q g) = s.setTeam c sl (·.mapCv k q (g ∘ f)) := by
  unfold State.setTeam
  simp only [List.map_map]
  refine congrArg (fun l => { s with teams := l }) (List.map_congr_left fun y _ => ?_)
  dsimp only [Function.comp_apply]
  by_cases hy : (y.core = c && y.slot = sl) = true
  · rw [if_pos hy, if_pos (show ((y.mapCv k q f).core = c && (y.mapCv k q f).slot = sl) = true from hy), if_pos hy,
      mapCv_mapCv hf]
  · rw [if_neg hy, if_neg hy, if_neg hy]

theorem cvCount_latches {v : DWord} {opv : List Word} (ht : w.st.team? c sl = some tm) (hx : tm.cvInst? k q = some x)
    (ho : x.op = none ∨ x.op = some (v, opv)) (t : ThreadId) :
    ∃ f, KeepsName f ∧ f x = x.signedBy t (.op v opv) ∧
      cvCount c sl k q t (.op v opv) w = (true, { w with st := w.st.setTeam c sl (·.mapCv k q f) }) := by
  rcases ho with ho | ho
  · exact ⟨_, signedBy_keepsName t (.op v opv), rfl, cvCount_run ht hx ho t _⟩
  · refine ⟨fun y => { y with signed := y.signed + 1, signers := y.signers ++ [t], opThreads := y.opThreads ++ [t] },
      fun _ => ⟨rfl, rfl, rfl, rfl⟩, ?_, ?_⟩
    · unfold CvInst.signedBy
      dsimp only
      rw [ho]
    · unfold cvCount
      simp only [W.run_bind, W.run_getSt, ht, Option.bind_some, hx, ho, if_true]
      rfl

/-- A phase with a latched operation is complete once every thread of the set has signed, and waits for the operation. -/
theorem cvCheck_latched (ht : w.st.team? c sl = some tm) (hx : tm.cvInst? k q = some x) (h0 : 0 < x.signed)
    (ho : x.op.isSome = true) (hf : x.full = false) (fuel : Nat) :
    ∃ f, KeepsName f ∧ f x = { x with full := decide (x.signed = (w.st.cvSet c sl x).length) } ∧
      cvCheck c sl k q (fuel + 1) w = ((), { w with st := w.st.setTeam c sl (·.mapCv k q f) }) := by
  have hop : x.op.isNone = false := by rw [Option.isNone_eq_false_iff]; exact ho
  unfold cvCheck
  by_cases hn : x.signed = (w.st.cvSet c sl x).length
  · have hfull : w.st.cvFull c sl x = true := by simp [State.cvFull, h0, ← hn]
    refine ⟨fun y => { y with full := true }, fun _ => ⟨rfl, rfl, rfl, rfl⟩, by simp [hn], ?_⟩
    simp only [W.run_bind, W.run_getSt, ht, Option.bind_some, hx, hfull, hf, Bool.not_false, Bool.and_self, if_true, hop,
      Bool.false_eq_true, if_false]
    rfl
  · have hfull : w.st.cvFull c sl x = false := by simp [State.cvFull, hn]
    refine ⟨id, fun _ => ⟨rfl, rfl, rfl, rfl⟩, by simp [hn, ← hf], ?_⟩
    simp only [W.run_bind, W.run_getSt, ht, Option.bind_some, hx, hfull, Bool.false_and, Bool.false_eq_true, if_false, W.run_pure,
      mapCv_id, setTeam_id]

/-- The record of a thread whose command waits on cvk. -/
def Thread.latched (th : Thread) (i : Instr) (pc : DWord) (e : Entry) (k : Nat) : Thread :=
  { th.issued i pc with unf := th.unf ++ [{ e with parks := true }], wait := .cvw k }

/-- A thread that waits for cvk. -/
def Thread.inCvw (y : Thread) (k : Nat) : Thread := { y with wait := .cvw k }

/-- A command that a thread of the set signs is latched, and the thread waits. -/
theorem cvSign_latches {y : Thread} {v : DWord} {opv : List Word} (hy : w.st.Has y) (ht : w.st.team? y.tid.core y.slot = some tm)
    (hx : tm.cvInst? k y.tid.qtr = some x) (hmem : ((w.st.cvSet y.tid.core y.slot x).any fun t => t.tid = y.tid) = true)
    (hs : y.tid ∉ x.signers) (hf : x.full = false) (ho : x.op = none ∨ x.op = some (v, opv)) :
    ∃ f, KeepsName f ∧ f x = { x.signedBy y.tid (.op v opv) with
        full := decide (x.signed + 1 = (w.st.cvSet y.tid.core y.slot x).length) } ∧
      cvSign y k (.op v opv) w = (true, { w with st :=
        (w.st.setTeam y.tid.core y.slot (·.mapCv k y.tid.qtr f)).putThread (y.inCvw k) }) := by
  obtain ⟨f, hfk, hfx, hcount⟩ := cvCount_latches ht hx ho y.tid
  set s1 := (w.st.setTeam y.tid.core y.slot (·.mapCv k y.tid.qtr f)).putThread (y.inCvw k) with hs1
  have hpark : park y.tid (.cvw k) { w with st := w.st.setTeam y.tid.core y.slot (·.mapCv k y.tid.qtr f) } = ((), { w with st := s1 }) :=
    modThread_has (w := { w with st := w.st.setTeam y.tid.core y.slot (·.mapCv k y.tid.qtr f) }) hy _ rfl
  have hteam : s1.team? y.tid.core y.slot = some (tm.mapCv k y.tid.qtr f) := team?_mapCv (s := w.st) ht _ _ _
  have hinst : (tm.mapCv k y.tid.qtr f).cvInst? k y.tid.qtr = some (x.signedBy y.tid (.op v opv)) := by
    rw [cvInst?_mapCv hfk, hx, Option.map_some, hfx]
  have hset : (s1.cvSet y.tid.core y.slot (x.signedBy y.tid (.op v opv))).length = (w.st.cvSet y.tid.core y.slot x).length := by
    have htids := cvSet_tids (s := w.st.setTeam y.tid.core y.slot (·.mapCv k y.tid.qtr f)) (a := y.inCvw k) hy rfl
      rfl rfl rfl y.tid.core y.slot x
    rw [cvSet_congr (x := x) rfl rfl rfl, ← List.length_map (f := Thread.tid)]
    exact (congrArg List.length htids).trans (List.length_map ..)
  obtain ⟨g, hgk, hgx, hcheck⟩ := cvCheck_latched (w := { w with st := s1 }) hteam hinst (Nat.succ_pos _) rfl hf 3
  have hc : x.signers.contains y.tid = false := by simpa using hs
  refine ⟨g ∘ f, ?_, ?_, ?_⟩
  · intro z
    obtain ⟨h1, h2, h3, h4⟩ := hfk z
    obtain ⟨h5, h6, h7, h8⟩ := hgk (f z)
    exact ⟨h5.trans h1, h6.trans h2, h7.trans h3, h8.trans h4⟩
  · rw [Function.comp_apply, hfx, hgx, hset]
    rfl
  · unfold cvSign
    simp only [W.run_bind, W.run_getSt, ht, Option.bind_some, hx, hmem, Bool.not_true, Bool.false_eq_true, if_false, hc, hf,
      Bool.or_self, hcount, if_true, hpark, hcheck, W.run_pure]
    have hteams := setTeam_mapCv w.st y.tid.core y.slot k y.tid.qtr hfk g
    exact congrArg (fun st : State => (true, ({ w with st := st.putThread (y.inCvw k) } : Work))) hteams

/-! ### The statement on signatures -/

theorem plus_issued_keeps (i : Instr) (th : Thread) (pc : DWord) (e : Entry) :
    ((th.issued i pc).plus e).tid = th.tid ∧ ((th.issued i pc).plus e).slot = th.slot ∧
      ((th.issued i pc).plus e).role = th.role ∧ ((th.issued i pc).plus e).idle = th.idle := by
  simp only [Thread.plus, Thread.issued, and_self]

theorem entered_set (h : s.Has th) (i : Instr) (e : Entry) (qs : List Quarter) (c sl : Nat) (x : CvInst) :
    ((s.entered i th e qs).cvSet c sl x).map Thread.tid = (s.cvSet c sl x).map Thread.tid := by
  obtain ⟨ht, hs, hr, hi⟩ := plus_issued_keeps i th (s.cur.pc + 8) e
  exact cvSet_tids (s := s.putQuarters qs) h ht hs hr hi c sl x

theorem matrixSigns {a : MArgs} (h : Solo i s th) (ha : mArgs i = some a) (htm : s.team? th.tid.core th.slot = some tm)
    (hx : tm.cvInst? a.cv th.tid.qtr = some x) (hk : 3 ≤ x.kind) (hf : x.full = false) (hs : th.tid ∉ x.signers)
    (hop : th.tid ∉ x.opThreads)
    (ho : x.op = none ∨ x.op = some ((engEntry i s th).word, (engEntry i s th).opv))
    (hmem : ∃ y ∈ s.cvSet th.tid.core th.slot x, y.tid = th.tid) :
    ∃ t f, run (issueMatrix i) s = .next t ∧
      t.thread? th.tid = some (th.latched i (s.cur.pc + 8) (engEntry i s th) a.cv) ∧
      t.team? th.tid.core th.slot = some (tm.mapCv a.cv th.tid.qtr f) ∧ KeepsName f ∧
      f x = { x.signedBy th.tid (.op (engEntry i s th).word (engEntry i s th).opv) with
        full := decide (x.signed + 1 = (s.cvSet th.tid.core th.slot x).length) } ∧
      t.groups = s.groups ∧ OthersSame s t th.tid ∧ SameMemory s t ∧ SameEngines s t := by
  obtain ⟨qs, heng, he⟩ := issueMatrix_run h ha
  have hid : ∀ z ∈ th.unf, z.id ≠ (engEntry i s th).id := fun z hz => newEntry_id s i th _ hz
  generalize engEntry i s th = e at he hid ho ⊢
  have hent := h.entered_entry? hid qs
  have hhas := h.entered_has e qs
  have hth := h.entered_thread? e qs
  obtain ⟨ht, hsl, -, -⟩ := plus_issued_keeps i th (s.cur.pc + 8) e
  have hset := entered_set h.has i e qs th.tid.core th.slot x
  have hlen : ((s.entered i th e qs).cvSet th.tid.core th.slot x).length = (s.cvSet th.tid.core th.slot x).length := by
    rw [← List.length_map (f := Thread.tid), hset, List.length_map]
  have hany : ((s.entered i th e qs).cvSet th.tid.core th.slot x).any (fun t => t.tid = th.tid) = true := by
    obtain ⟨z, hz, hzt⟩ := hmem
    have hm : th.tid ∈ ((s.entered i th e qs).cvSet th.tid.core th.slot x).map Thread.tid := hset ▸ List.mem_map.2 ⟨z, hz, hzt⟩
    obtain ⟨u, hu, hut⟩ := List.mem_map.1 hm
    exact List.any_eq_true.2 ⟨u, hu, by simpa using hut⟩
  have hrec : { ((th.issued i (s.cur.pc + 8)).plus e).inCvw a.cv with
      unf := (((th.issued i (s.cur.pc + 8)).plus e).inCvw a.cv).unf.map fun z => if z.id = e.id then { z with parks := true } else z }
      = th.latched i (s.cur.pc + 8) e a.cv := by
    have hold : th.unf.map (fun z => if z.id = e.id then { z with parks := true } else z) = th.unf :=
      (List.map_congr_left fun z hz => if_neg (hid z hz)).trans (List.map_id _)
    simp only [Thread.latched, Thread.inCvw, Thread.plus, Thread.issued, List.map_append, hold, List.map_cons, List.map_nil, if_true]
  generalize hy : (th.issued i (s.cur.pc + 8)).plus e = y at hhas hth ht hsl hrec
  obtain ⟨f, hfk, hfx, hsign⟩ := cvSign_latches (w := { st := s.entered i th e qs }) (y := y) (k := a.cv) (v := e.word) (opv := e.opv)
    hhas (by rw [ht, hsl]; exact htm) (by rw [ht]; exact hx) (by rw [ht, hsl]; exact hany) (by rw [ht]; exact hs) hf ho
  rw [ht, hsl, hlen] at hfx
  rw [ht, hsl] at hsign
  have hwait : x.opThreads.contains th.tid = false := by simpa using hop
  have hperf : performSign a.cv th.tid e { st := s.entered i th e qs } = (.ok (),
      { st := ((s.entered i th e qs).setTeam th.tid.core th.slot (·.mapCv a.cv th.tid.qtr f)).putThread (y.inCvw a.cv) }) := by
    have htm' : (s.entered i th e qs).team? th.tid.core y.slot = some tm := by rw [hsl]; exact htm
    unfold performSign
    simp only [W.run_bind, W.run_getSt, hth, htm', Option.bind_some, hx, if_neg (not_lt.2 hk), hwait, Bool.false_and,
      Bool.false_eq_true, if_false, hsign, if_true, W.run_pure]
  have hmod := modThread_put (w := { st := (s.entered i th e qs).setTeam th.tid.core th.slot (·.mapCv a.cv th.tid.qtr f) }) (x := y) hhas
    (t := th.tid) ht.symm (a := y.inCvw a.cv)
    (f := fun z => { z with unf := z.unf.map fun z => if z.id = e.id then { z with parks := true } else z }) rfl hrec ht.symm
  have hbody : issueMatrix i { st := s } = ((), { st :=
      ((s.entered i th e qs).setTeam th.tid.core th.slot (·.mapCv a.cv th.tid.qtr f)).putThread (th.latched i (s.cur.pc + 8) e a.cv) }) := by
    rw [he]
    unfold attemptSign
    simp only [W.run_bind, W.run_getSt, hent, hperf]
    exact hmod
  have hfinal := State.Has.put (s := (s.entered i th e qs).setTeam th.tid.core th.slot (·.mapCv a.cv th.tid.qtr f)) hhas
    (a := th.latched i (s.cur.pc + 8) e a.cv) ht.symm
  refine ⟨_, f, run_quiet hbody rfl rfl, hfinal.thread?, team?_mapCv (s := s.entered i th e qs) htm _ _ _, hfk, hfx, rfl,
    fun v hv => ?_, fun _ => rfl, heng⟩
  refine (thread?_putThread_ne (s := (s.entered i th e qs).setTeam th.tid.core th.slot (·.mapCv a.cv th.tid.qtr f))
    (a := th.latched i (s.cur.pc + 8) e a.cv) hv).trans ?_
  exact thread?_putThread_ne (s := s) (a := (th.issued i (s.cur.pc + 8)).plus e) hv

/-! ### A cause that keeps the command in the replay queue -/

theorem unparked_new {y : Thread} (hw : y.wait = .ready) (hid : ∀ z ∈ y.unf, z.id ≠ e.id) (hp : e.parks = false) :
    (y.plus e).unparked e.id = y.plus e := by
  have hn : (y.plus e).unparks e.id = false := by
    unfold Thread.unparks Thread.plus
    simp only [hw]
  have he : { e with parks := false } = e := by rw [← hp]
  have hold : y.unf.map (fun z => if z.id = e.id then { z with parks := false } else z) = y.unf :=
    (List.map_congr_left fun z hz => if_neg (hid z hz)).trans (List.map_id _)
  unfold Thread.unparked
  simp only [hn, Bool.false_eq_true, if_false]
  unfold Thread.plus
  simp only [List.map_append, hold, List.map_cons, List.map_nil, if_true, he]

/-- The instruction of a lone thread that raises a cause which the replay queue keeps. -/
theorem settle_queued (h : Solo i s th) (hid : ∀ z ∈ th.unf, z.id ≠ e.id) (htag : e.tag = s.clock) (hp : e.parks = false)
    (hv : e.val = none) {c : Cause} (hq : e.queues c = true) (sub : Nat) (fa : DWord) (qs : List Quarter) :
    settleEntry th.tid e.id (.error (.cause c sub fa)) { st := s.entered i th e qs }
      = raise th.tid c true e.pc { st := s.entered i th (e.caused c sub fa) qs } := by
  have hun : unpark th.tid e.id { st := s.entered i th e qs } = ((), { st := s.entered i th e qs }) :=
    modThread_put (w := { st := s.putQuarters qs }) h.has rfl (a := (th.issued i (s.cur.pc + 8)).plus e)
      (f := fun z => z.unparked e.id) (by simp only [Thread.plus, Thread.issued]) (unparked_new h.ready hid hp)
      (by simp only [Thread.plus, Thread.issued])
  have hmod := modEntry_entered (i := i) h.has hid (fun e => e.caused c sub fa) qs
  have hent := h.entered_entry? hid qs
  have hth := h.entered_thread? e qs
  rw [hth, Option.bind_some] at hent
  have hshare := shareResults_skip (w := { st := s.entered i th (e.caused c sub fa) qs }) (tag := e.tag)
    (fun y hy z hz hzt => by
      rcases putThread_mem (s := s) hy with rfl | ⟨hy, -⟩
      · rcases List.mem_append.1 hz with hz | hz
        · exact absurd (hzt.trans htag) (h.fresh th h.has.mem z hz)
        · rw [List.mem_singleton.1 hz]
          exact hv
      · exact absurd (hzt.trans htag) (h.fresh y hy z hz)) ((th.issued i (s.cur.pc + 8)).plus e)
  unfold settleEntry
  simp only [W.run_bind, W.run_getSt, hth, hent, hun, hq, if_true]
  unfold Entry.caused at hmod
  rw [hmod]
  unfold Entry.caused at hshare
  rw [hshare]
  rfl

/-- A thread that raises a cause with an instruction in the replay queue enters its handler after the word. -/
theorem raise_queuedTakes (h : Trappable s th) (hm : th.handler = false) (hv : s.hasHandler th = true) (c : Cause) (tpc : DWord) :
    ∃ t z, raise th.tid c true tpc { st := s } = ((), { st := t }) ∧ t.thread? th.tid = some z ∧ z.handler = true ∧ z.tq = true ∧
      z.tpc = th.pc ∧ t.groups = s.maskedGroups th c.bit true ∧ OthersSame s t th.tid ∧ t.bare = s.bare := by
  have hraised := raised_has h.has c true tpc
  obtain ⟨qs, -, he⟩ := trapEnter_handler (w := { st := s.raised th c true tpc }) hraised rfl h.going hm h.live h.settled hv
  refine ⟨_, _, (raise_eq_trapEnter (w := { st := s }) h c true tpc).trans he,
    (hraised.put (a := (th.raising c true tpc).trapped _ _) rfl).thread?, rfl, rfl, rfl, rfl, fun v hne => ?_, rfl⟩
  exact (thread?_putThread_ne (s := s.raised th c true tpc) (a := (th.raising c true tpc).trapped _ _) hne).trans
    (thread?_putThread_ne (s := s.putGroups _) (a := th.raising c true tpc) hne)

theorem entered_trappable (h : Trappable s th) (hst : th.stepping = false) (hq : e.queued = true) (qs : List Quarter) :
    Trappable (s.entered i th e qs) ((th.issued i (s.cur.pc + 8)).plus e) where
  one := State.Has.put (s := s.putQuarters qs) h.has (a := (th.issued i (s.cur.pc + 8)).plus e) (plus_issued_keeps i th _ e).1
  calm := h.calm
  going := by
    simp only [Thread.plus, Thread.issued, hst, Bool.false_and, Bool.false_eq_true, if_false]
    exact h.going
  live := (plus_issued_keeps i th _ e).2.2.2.trans h.live
  settled := by
    have hset := h.settled
    unfold Thread.settled at *
    simp only [Thread.plus, Thread.issued, List.all_append, hset, List.all_cons, List.all_nil, hq, Bool.or_true, Bool.and_self]

/-- A command on a register that is not of kind quarter or qrole raises CONV and stays in the replay queue. -/
theorem matrixRaises {a : MArgs} (h : Solo i s th) (ha : mArgs i = some a) (htm : s.team? th.tid.core th.slot = some tm)
    (hx : tm.cvInst? a.cv th.tid.qtr = some x) (hk : x.kind < 3) (ht : Trappable s th) (hst : th.stepping = false)
    (hm : th.handler = false) (hv : s.hasHandler th = true) :
    ∃ t z, run (issueMatrix i) s = .next t ∧ t.thread? th.tid = some z ∧ z.handler = true ∧ z.tq = true ∧ z.tpc = s.cur.pc + 8 ∧
      t.groups = s.maskedGroups th 12 true ∧ t.teams = s.teams ∧ OthersSame s t th.tid ∧ SameMemory s t := by
  obtain ⟨qs, -, he⟩ := issueMatrix_run h ha
  have hid : ∀ z ∈ th.unf, z.id ≠ (engEntry i s th).id := fun z hz => newEntry_id s i th _ hz
  have hsettle := settle_queued h hid rfl rfl rfl (c := .conv) rfl 0 0 qs
  generalize engEntry i s th = e at he hid hsettle
  have hperf : performSign a.cv th.tid e { st := s.entered i th e qs } = (.error (.cause .conv 0 0), { st := s.entered i th e qs }) := by
    have hth := h.entered_thread? e qs
    have hslot := (plus_issued_keeps i th (s.cur.pc + 8) e).2.1
    generalize (th.issued i (s.cur.pc + 8)).plus e = y at hth hslot
    have htm' : (s.entered i th e qs).team? th.tid.core y.slot = some tm := by rw [hslot]; exact htm
    unfold performSign
    simp only [W.run_bind, W.run_getSt, hth, htm', Option.bind_some, hx, hk, if_true, W.run_pure]
  have hT := entered_trappable (i := i) (e := e.caused .conv 0 0) ht hst rfl qs
  have hother : OthersSame s (s.entered i th (e.caused .conv 0 0) qs) th.tid := fun v hne =>
    thread?_putThread_ne (s := s) (a := (th.issued i (s.cur.pc + 8)).plus (e.caused .conv 0 0)) hne
  have hmode : ((th.issued i (s.cur.pc + 8)).plus (e.caused .conv 0 0)).handler = false := by
    simp only [Thread.plus, Thread.issued, hm]
  have hpc : ((th.issued i (s.cur.pc + 8)).plus (e.caused .conv 0 0)).pc = s.cur.pc + 8 := by simp only [Thread.plus, Thread.issued]
  have hvec : (s.entered i th (e.caused .conv 0 0) qs).hasHandler ((th.issued i (s.cur.pc + 8)).plus (e.caused .conv 0 0)) = true := hv
  have hgroups : (s.entered i th (e.caused .conv 0 0) qs).maskedGroups ((th.issued i (s.cur.pc + 8)).plus (e.caused .conv 0 0)) 12 true
      = s.maskedGroups th 12 true := rfl
  have htid := (plus_issued_keeps i th (s.cur.pc + 8) (e.caused .conv 0 0)).1
  generalize (th.issued i (s.cur.pc + 8)).plus (e.caused .conv 0 0) = y at hT hmode hpc hvec hgroups htid
  obtain ⟨t, z, hraise, hz, hh, htq, htpc, hg, ho, hbare⟩ := raise_queuedTakes hT hmode hvec .conv e.pc
  rw [htid] at hraise hz ho
  have hbody : issueMatrix i { st := s } = ((), { st := t }) := by
    rw [he]
    unfold attemptSign
    simp only [W.run_bind, W.run_getSt, h.entered_entry? hid qs, hperf, hsettle, hraise]
  have hmem : t.mem = s.mem := (congrArg State.mem hbare :)
  have hkey : t.sec.keyGen = s.sec.keyGen := (congrArg (fun s => s.sec.keyGen) hbare :)
  refine ⟨t, z, run_quiet hbody hmem hkey, hz, hh, htq, htpc.trans hpc, hg.trans hgroups, (congrArg State.teams hbare :),
    fun v hne => (ho v hne).trans (hother v hne), fun b => ?_⟩
  unfold State.byte
  rw [hmem, hkey]

theorem exec_mArgs {a : MArgs} (ha : mArgs i = some a) (s : State) : exec i s = run (issueMatrix i) s := by
  cases i <;> cases ha <;> rfl

theorem matrixCommandsSign : Claims.MatrixCommandsSign := by
  intro i a s th tm x ha h htm hx
  have hone : tm.cvInst? a.cv th.tid.qtr = some x := find_one hx
  refine ⟨fun hk hf hs hop ho hmem => ?_, fun hk ht hst hm hv => ?_⟩
  · obtain ⟨t, f, hrun, hth, hteam, hfk, hfx, hg, hoth, hmemo, heng⟩ :=
      matrixSigns h ha (find_one htm) hone hk hf hs hop ho hmem
    have hinst : (tm.mapCv a.cv th.tid.qtr f).cvInst? a.cv th.tid.qtr = some (f x) := by
      rw [cvInst?_mapCv hfk, hone, Option.map_some]
    rw [hfx] at hinst
    exact ⟨t, _, _, (exec_mArgs ha s).trans hrun, hth, hteam, hinst, rfl, rfl, rfl, rfl, rfl, hg, hoth, hmemo, heng⟩
  · obtain ⟨t, z, hrun, hrest⟩ := matrixRaises h ha (find_one htm) hone hk ht hst hm hv
    exact ⟨t, z, (exec_mArgs ha s).trans hrun, hrest⟩

end Sys2Proof.Machine
end

section
/-!
The matrix queue (10 R363, R364): a complete command claims its tiles and its shadow and enters the queue, and starts once
its tiles have the version it expects.
-/
namespace Sys2Proof.Machine

variable {s : State} {th : Thread} {w w' : Work} {m : MCommand} {maps : List OMap} {x : Eng} {qtr : Nat} {q : Quarter}
  {rest : P Unit}

/-! ### The checks before the queue, each followed by what it lets through -/

/-- The operand map `k` of a team. -/
def State.mapOf (s : State) (x : Eng) (k : Nat) : Option OMap :=
  (s.team? x.core x.slot).bind fun tm => (tm.omaps[k]?).getD none

/-- The operand maps of a command. -/
def State.mapsOf (s : State) (x : Eng) (a : MArgs) : List OMap :=
  if a.onArray then [s.mapOf x a.amap, s.mapOf x a.bmap].filterMap id else []

/-- The maps are there and of their kinds, or PROT. -/
def checkMaps (s : State) (x : Eng) (a : MArgs) (rest : P Unit) : P Unit := do
  if a.onArray then
    match s.mapOf x a.amap, s.mapOf x a.bmap with
    | some ma, some mb => if ma.kind ≠ 0 || mb.kind ≠ 1 then raiseP .prot
    | _, _ => raiseP .prot
  rest

/-- No other team owns a tile of the command, or PROT. -/
def checkTiles (q : Quarter) (x : Eng) (a : MArgs) (rest : P Unit) : P Unit := do
  for t in a.named do
    if (q.tile t).owner.any fun o => o ≠ x.slot then raiseP .prot
  rest

/-- The scratchpad operands lie in the team's allocation, or PROT. -/
def checkOperands (x : Eng) (m : MCommand) (maps : List OMap) (rest : P Unit) : P Unit := do
  match m.oBytes with
  | some n => checkSpan x m.o n 64
  | none =>
    match maps with
    | [ma, mb] =>
      for y in [ma, mb] do
        match y.span (mmaBlocks m ma mb) with
        | some sp => checkSpan x sp.1 sp.2 1
        | none => pure ()
    | _ => pure ()
  rest

/-- The shadow of the command is bound, or can be. -/
def checkShadow (q : Quarter) (x : Eng) (m : MCommand) (rest : P Unit) : P Unit := do
  match m.args.kind with
  | .spcommit _ | .spdrop =>
    if (q.shadowOf (x.slot, m.args.t, m.tok)).isNone || (q.tile m.args.t).owner.isNone then raiseP .spec
  | .mmas => if (q.shadowOf (x.slot, m.args.t, m.tok)).isNone && q.freeShadow.isNone then throw .eng
  | _ => pure ()
  rest

/-- A quarter with the tiles `ts` that nobody owns given to a team. -/
def Quarter.claim (q : Quarter) (slot : Nat) (ts : List Nat) : Quarter :=
  ts.foldl (fun q t => if (q.tile t).owner.isNone then q.setTile { q.tile t with owner := some slot } else q) q

/-- A quarter with a shadow bound for a command that needs one and has none. -/
def Quarter.bindShadow (q : Quarter) (kind : MKind) (trip : Nat × Nat × BitVec 16) : Quarter :=
  match kind, q.shadowOf trip, q.freeShadow with
  | .mmas, none, some k => q.setShadow { idx := k, bound := some trip }
  | _, _, _ => q

/-- A quarter with a command at the end of its queue. -/
def Quarter.enqueue (q : Quarter) (x : Eng) (m : MCommand) (c : MCmd) : Quarter :=
  { (q.claim x.slot m.args.named).bindShadow m.args.kind (x.slot, m.args.t, m.tok) with
    mq := ((q.claim x.slot m.args.named).bindShadow m.args.kind (x.slot, m.args.t, m.tok)).mq ++ [c] }

/-- The lowest place of the queue that no command has. -/
def Quarter.freeIdx (q : Quarter) : Nat := ((List.range 8).find? fun k => !(q.mq.any fun c => c.idx = k)).getD 0

theorem enterQueue_eq (word : DWord) (opv : List Word) (threads : List ThreadId) :
    enterQueue x qtr word opv threads m = (do
      let s ← getSt
      if (s.quarter x.core qtr).mq.length ≥ 8 then throw .eng
      checkMaps s x m.args (checkTiles (s.quarter x.core qtr) x m.args (checkOperands x m (s.mapsOf x m.args)
        (checkShadow (s.quarter x.core qtr) x m (do
          registerRanges x.core x.slot (matrixRanges x m (s.mapsOf x m.args) (8 * qtr + (s.quarter x.core qtr).freeIdx))
          modQuarter x.core qtr (·.enqueue x m { idx := (s.quarter x.core qtr).freeIdx, word, opv, slot := x.slot, threads
                                                 maps := s.mapsOf x m.args })))))) := rfl

/-! ### What the checks let through -/

theorem mapsOf_ok (h : MatrixOk s x qtr m maps) : s.mapsOf x m.args = maps := by
  have hmaps := h.maps
  unfold State.mapsOf State.mapOf
  split at hmaps
  next ha =>
    obtain ⟨A, B, rfl, -, -, hA, hB, -⟩ := hmaps
    rw [if_pos ha, hA, hB]
    rfl
  next ha => rw [if_neg ha, hmaps]

theorem checkMaps_ok (h : MatrixOk s x qtr m maps) : (checkMaps s x m.args rest).run w = rest.run w := by
  have hmaps := h.maps
  unfold checkMaps State.mapOf
  split at hmaps
  next ha =>
    obtain ⟨A, B, -, hkA, hkB, hA, hB, -⟩ := hmaps
    rw [if_pos ha, hA, hB]
    exact (P.run_ite_skip fun hbad => by simp [hkA, hkB] at hbad)
  next ha => rw [if_neg ha]

theorem checkTiles_ok (h : MatrixOk s x qtr m maps) : (checkTiles (s.quarter x.core qtr) x m.args rest).run w = rest.run w := by
  refine P.run_bind_ok (P.forIn_skip _ _ _ fun t ht => ?_) _
  have hnone : (((s.quarter x.core qtr).tile t).owner.any fun o => decide (o ≠ x.slot)) = false := by
    rcases h.tiles t ht with h | h <;> simp [h]
  rw [hnone]
  rfl

theorem checkSpan_ok {off n align : Nat} (h : w.st.badSpan x off n align = false) : (checkSpan x off n align).run w = (.ok (), w) := by
  unfold checkSpan
  rw [P.run_getSt_bind, h]
  rfl

theorem checkOperands_ok (h : MatrixOk w.st x qtr m maps) : (checkOperands x m maps rest).run w = rest.run w := by
  unfold checkOperands
  split
  next n hn => exact P.run_bind_ok (checkSpan_ok (h.span n hn)) _
  next hn =>
    have hmaps := h.maps
    split at hmaps
    next ha =>
      obtain ⟨A, B, rfl, -, -, -, -, hsp⟩ := hmaps
      refine P.run_bind_ok (P.forIn_skip _ _ _ fun y hy => ?_) _
      cases hp : y.span (mmaBlocks m A B) with
      | none => rfl
      | some p => exact P.run_bind_ok (checkSpan_ok (hsp y hy p hp)) _
    next ha =>
      rw [hmaps]

theorem checkShadow_ok (h : MatrixOk s x qtr m maps) : (checkShadow (s.quarter x.core qtr) x m rest).run w = rest.run w := by
  have hbound : ∀ hk : m.args.kind = .spdrop ∨ ∃ r, m.args.kind = .spcommit r,
      (((s.quarter x.core qtr).shadowOf (x.slot, m.args.t, m.tok)).isNone || ((s.quarter x.core qtr).tile m.args.t).owner.isNone) = false := by
    intro hk
    obtain ⟨hsh, hown⟩ := h.spec hk
    simp [hown, Option.isNone_eq_false_iff.2 hsh]
  unfold checkShadow
  split
  next r hk => exact P.run_ite_skip fun hbad => by simp [hbound (.inr ⟨r, hk⟩)] at hbad
  next hk => exact P.run_ite_skip fun hbad => by simp [hbound (.inl hk)] at hbad
  next hk =>
    refine P.run_ite_skip fun hbad => ?_
    rcases h.free hk with hf | hf <;> simp [Option.isNone_eq_false_iff.2 hf] at hbad
  next => rfl

/-- Ranges enter an empty table that has room for them. -/
theorem registerRanges_run {core slot : Nat} {es : List RangeEntry} (hr : (w.st.core core).ranges = []) (hn : es.length ≤ 32) :
    (registerRanges core slot es).run w
      = (.ok (), { w with st := w.st.putCore core { w.st.core core with ranges := es } }) := by
  have hcheck : (checkRanges core slot es).run w = (.ok (), w) := by
    unfold checkRanges
    rw [P.run_getSt_bind, hr]
    refine (P.run_bind_ok (P.forIn_skip _ _ _ fun e _ => by rfl) _).trans ?_
    refine (P.run_bind_ok (P.forIn_skip _ _ _ fun e _ => by rfl) _).trans ?_
    rw [if_neg (by simpa using hn)]
    rfl
  unfold registerRanges
  rw [P.run_bind_ok hcheck, P.run_lift, modCore_run, hr]
  rfl

theorem length_matrixRanges (x : Eng) (m : MCommand) (maps : List OMap) (tag : Nat) : (matrixRanges x m maps tag).length ≤ 2 := by
  unfold matrixRanges
  split
  · simp
  · split
    · rw [List.length_map]
      exact List.length_filterMap_le ..
    · simp

/-- The state in which a command has entered an empty queue with its ranges. -/
def State.queueing (s : State) (x : Eng) (qtr : Nat) (m : MCommand) (maps : List OMap) (c : MCmd) : State :=
  (s.putCore x.core { s.core x.core with ranges := matrixRanges x m maps (8 * qtr) }).putQuarter x.core qtr
    ((s.quarter x.core qtr).enqueue x m c)

/-- A command that passes the checks enters an empty queue. -/
theorem enterQueue_run (word : DWord) (opv : List Word) (threads : List ThreadId) (h : MatrixOk w.st x qtr m maps)
    (hmq : (w.st.quarter x.core qtr).mq = []) (hr : (w.st.core x.core).ranges = []) :
    (enterQueue x qtr word opv threads m).run w = (.ok (),
      { w with st := w.st.queueing x qtr m maps { idx := 0, word, opv, slot := x.slot, threads, maps } }) := by
  have hidx : (w.st.quarter x.core qtr).freeIdx = 0 := by
    unfold Quarter.freeIdx
    rw [hmq]
    rfl
  rw [enterQueue_eq, P.run_getSt_bind]
  refine (P.run_ite_skip fun hfull => absurd hfull (by rw [hmq]; simp)).trans ?_
  rw [mapsOf_ok h, hidx, checkMaps_ok h, checkTiles_ok h, checkOperands_ok h, checkShadow_ok h,
    P.run_bind_ok (registerRanges_run hr ((length_matrixRanges ..).trans (by omega)))]
  rfl

/-! ### The quarter that has taken a command -/

theorem self_mem_upsert {α : Type} (same : α → Bool) (y : α) (ys : List α) : y ∈ upsert same y ys := by
  induction ys with
  | nil => exact List.mem_singleton.2 rfl
  | cons z zs ih =>
    unfold upsert
    split
    · exact List.mem_cons_self
    · exact List.mem_cons_of_mem _ ih

theorem tile_idx (q : Quarter) (t : Nat) : (q.tile t).idx = t := by
  unfold Quarter.tile
  cases h : q.acc.find? fun x => x.idx = t with
  | none => rfl
  | some y => exact of_decide_eq_true (List.find?_some (p := fun x : AccTile => decide (x.idx = t)) h)

theorem tile_setTile (q : Quarter) (y : AccTile) (k : Nat) : (q.setTile y).tile k = if y.idx = k then y else q.tile k := by
  unfold Quarter.setTile Quarter.tile
  dsimp only
  split
  next h =>
    subst h
    rw [find_upsert _ _ _ (by simp)]
    rfl
  next h => rw [find_upsert_ne _ _ _ _ (by simpa using h) (by intro z hz; simp at hz ⊢; omega)]

theorem claim_eq (q : Quarter) (slot : Nat) (ts : List Nat) : ∃ l, q.claim slot ts = { q with acc := l } := by
  unfold Quarter.claim
  induction ts generalizing q with
  | nil => exact ⟨q.acc, rfl⟩
  | cons t ts ih =>
    rw [List.foldl_cons]
    split
    · exact ih _
    · exact ih q

theorem bindShadow_eq (q : Quarter) (kind : MKind) (trip : Nat × Nat × BitVec 16) :
    ∃ l, q.bindShadow kind trip = { q with shadows := l } := by
  unfold Quarter.bindShadow
  split
  · exact ⟨_, rfl⟩
  · exact ⟨q.shadows, rfl⟩

/-- A tile that a team owns stays its own. -/
theorem claim_keeps (q : Quarter) (slot : Nat) (ts : List Nat) {k : Nat} (h : (q.tile k).owner = some slot) :
    ((q.claim slot ts).tile k).owner = some slot := by
  unfold Quarter.claim
  induction ts generalizing q with
  | nil => exact h
  | cons t ts ih =>
    rw [List.foldl_cons]
    refine ih _ ?_
    split
    next hn =>
      rw [tile_setTile]
      split
      · rfl
      · exact h
    next => exact h

theorem claim_owner {slot : Nat} {ts : List Nat} (h : ∀ t ∈ ts, (q.tile t).owner = none ∨ (q.tile t).owner = some slot) :
    ∀ t ∈ ts, ((q.claim slot ts).tile t).owner = some slot := by
  induction ts generalizing q with
  | nil => nofun
  | cons t ts ih =>
    have hstep : ∀ q' : Quarter, q' = (if (q.tile t).owner.isNone then q.setTile { q.tile t with owner := some slot } else q) →
        (q'.tile t).owner = some slot ∧ ∀ k, (q'.tile k).owner = (q.tile k).owner ∨ (q'.tile k).owner = some slot := by
      rintro _ rfl
      split
      next hn =>
        refine ⟨by rw [tile_setTile, if_pos (tile_idx q t)], fun k => ?_⟩
        rw [tile_setTile]
        split
        · exact .inr rfl
        · exact .inl rfl
      next hn =>
        refine ⟨(h t List.mem_cons_self).resolve_left fun e => hn (by rw [e]; rfl), fun k => .inl rfl⟩
    obtain ⟨hown, hkeep⟩ := hstep _ rfl
    intro k hk
    rcases List.mem_cons.1 hk with rfl | hk
    · exact claim_keeps _ slot ts hown
    · refine ih (fun u hu => ?_) k hk
      rcases hkeep u with hu' | hu'
      · rw [hu']
        exact h u (List.mem_cons_of_mem _ hu)
      · exact .inr hu'

/-- A command that needs a shadow has one once it is queued. -/
theorem bindShadow_bound {trip : Nat × Nat × BitVec 16} (h : (q.shadowOf trip).isSome = true ∨ q.freeShadow.isSome = true) :
    ((q.bindShadow .mmas trip).shadowOf trip).isSome = true := by
  unfold Quarter.bindShadow
  cases hsh : q.shadowOf trip with
  | some y =>
    dsimp only
    rw [hsh]
    rfl
  | none =>
    obtain ⟨k, hk⟩ := Option.isSome_iff_exists.1 (h.resolve_left (by simp [hsh]))
    rw [hk]
    exact List.find?_isSome.2 ⟨{ idx := k, bound := some trip }, self_mem_upsert _ _ _, by simp⟩

/-- The engine of a quarter that has taken a command is that of the quarter, with the command at the end of its queue. -/
theorem enqueue_eq (q : Quarter) (x : Eng) (m : MCommand) (c : MCmd) :
    ∃ a b, q.enqueue x m c = { q with acc := a, shadows := b, mq := q.mq ++ [c] } := by
  obtain ⟨a, ha⟩ := claim_eq q x.slot m.args.named
  obtain ⟨b, hb⟩ := bindShadow_eq (q.claim x.slot m.args.named) m.args.kind (x.slot, m.args.t, m.tok)
  refine ⟨a, b, ?_⟩
  unfold Quarter.enqueue
  rw [hb, ha]

/-- The tiles that a queued command names are its team's. -/
theorem enqueue_owner {c : MCmd}
    (h : ∀ t ∈ m.args.named, (q.tile t).owner = none ∨ (q.tile t).owner = some x.slot) {t : Nat} (ht : t ∈ m.args.named) :
    ((q.enqueue x m c).tile t).owner = some x.slot := by
  have hown := claim_owner h t ht
  obtain ⟨b, hb⟩ := bindShadow_eq (q.claim x.slot m.args.named) m.args.kind (x.slot, m.args.t, m.tok)
  unfold Quarter.enqueue
  rw [hb]
  exact hown

/-- An MMAS that is queued has its shadow. -/
theorem enqueue_shadow {c : MCmd} (hk : m.args.kind = .mmas)
    (h : (q.shadowOf (x.slot, m.args.t, m.tok)).isSome = true ∨ q.freeShadow.isSome = true) :
    ((q.enqueue x m c).shadowOf (x.slot, m.args.t, m.tok)).isSome = true := by
  obtain ⟨a, ha⟩ := claim_eq q x.slot m.args.named
  unfold Quarter.enqueue
  rw [hk, ha]
  exact bindShadow_bound (q := { q with acc := a }) h

/-! ### The state after MATRIX_QUEUE_ISSUE -/

theorem queueing_quarter {c : MCmd} (s : State) (x : Eng) (qtr : Nat) (m : MCommand) (maps : List OMap) :
    (s.queueing x qtr m maps c).quarter x.core qtr = (s.quarter x.core qtr).enqueue x m c := by
  obtain ⟨hc, hq⟩ := quarter_core s x.core qtr
  obtain ⟨a, b, h⟩ := enqueue_eq (s.quarter x.core qtr) x m c
  unfold State.queueing
  exact quarter_putQuarter _ (by rw [h]; exact hc) (by rw [h]; exact hq)

theorem queueing_ranges {c : MCmd} (s : State) (x : Eng) (qtr : Nat) (m : MCommand) (maps : List OMap) :
    ((s.queueing x qtr m maps c).core x.core).ranges = matrixRanges x m maps (8 * qtr) := by
  have hcore := core_putCore s (c := x.core) (x := { s.core x.core with ranges := matrixRanges x m maps (8 * qtr) })
    (core_id s x.core) x.core
  rw [if_pos rfl] at hcore
  exact congrArg CoreSt.ranges hcore

/-- The only entry of a thread that goes on finishes without a result. -/
theorem finishEntry_last {y : Thread} {e : Entry} (hy : w.st.Has y) (hu : y.unf = [e]) (hd : e.dst = []) (hr : y.wait = .ready)
    (hp : y.pending = none) :
    finishEntry y.tid e.id [] w = ((), { w with st := w.st.putThread { y with unf := [] } }) := by
  have hentry : y.entry? e.id = some e := by
    unfold Thread.entry?
    rw [hu, List.find?_cons, decide_eq_true rfl]
  have hunparks : y.unparks e.id = false := by
    unfold Thread.unparks
    rw [hr]
  have hunpark : unpark y.tid e.id w = ((), { w with st := w.st.putThread { y with unf := [{ e with parks := false }] } }) := by
    refine (modThread_has hy _ (by rfl)).trans ?_
    rw [hunparks, hu, List.map_cons, if_pos rfl]
    rfl
  unfold finishEntry
  simp only [W.run_bind, W.run_getSt, hy.thread?, hentry, hd, List.all_nil, if_true]
  rw [hunpark, modThread_put hy rfl (a := { y with unf := [{ e with parks := false }] })
    (b := { y with unf := [{ e with parks := false }] }) rfl rfl rfl]
  unfold dropEntry
  rw [modThread_put hy rfl (a := { y with unf := [{ e with parks := false }] }) (b := { y with unf := [] }) rfl (by simp) rfl,
    trapEnter_put hy rfl (a := { y with unf := [] }) rfl hp]

/-! ### MATRIX_QUEUE_ISSUE -/

/-- The hypotheses under which the command of a lone signer enters the queue: the register `x` of its team holds the
complete phase, and `e` is the thread's only entry. -/
structure Latched (s : State) (th : Thread) (tm : Team) (x : CvInst) (cv : Nat) (e : Entry) : Prop where
  has     : s.Has th
  team    : s.team? th.tid.core th.slot = some tm
  inst    : tm.cvInst? cv th.tid.qtr = some x
  qtr     : x.qtr = th.tid.qtr
  op      : x.op = some (e.word, e.opv)
  signers : x.signers = [th.tid]
  threads : x.opThreads = [th.tid]
  direct  : x.deferred = []
  full    : x.full = true
  waits   : th.wait = .cvw cv
  calm    : th.pending = none
  entry   : th.unf = [e]
  state   : e.st = 0
  empty   : e.dst = []

/-- The state in which the command is queued, its phase has ended and its signer has gone on. -/
def State.queueIssued (s : State) (en : Eng) (th : Thread) (cv : Nat) (m : MCommand) (maps : List OMap) (c : MCmd) : State :=
  (((s.queueing en th.tid.qtr m maps c).endWaits [th.tid] (.cvw cv)).setTeam th.tid.core th.slot
    (·.mapCv cv th.tid.qtr CvInst.next)).putThread { th.endWait (.cvw cv) with unf := [] }

theorem eng_place (s : State) (c sl : Nat) : (s.eng c sl).core = c ∧ (s.eng c sl).slot = sl := by
  unfold State.eng
  split <;> exact ⟨rfl, rfl⟩

/-- The command of a complete phase that passes the checks enters the queue, and its signer goes on. -/
theorem matrixQueueIssue_run {tm : Team} {x : CvInst} {cv : Nat} {e : Entry} (h : Latched s th tm x cv e)
    (hm : mCommand e.word e.opv = some m) (hok : MatrixOk s (s.eng th.tid.core th.slot) th.tid.qtr m maps)
    (hmq : (s.quarter th.tid.core th.tid.qtr).mq = []) (hr : (s.core th.tid.core).ranges = []) :
    exec (.matrixQueueIssue th.tid.core th.slot cv th.tid.qtr) s = .next (s.queueIssued (s.eng th.tid.core th.slot) th cv m maps
      { idx := 0, word := e.word, opv := e.opv, slot := th.slot, threads := [th.tid], maps }) := by
  obtain ⟨hcore, hslot⟩ := eng_place s th.tid.core th.slot
  have hqueue := enterQueue_run (w := { st := s }) e.word e.opv [th.tid] hok (by rw [hcore]; exact hmq) (by rw [hcore]; exact hr)
  rw [hslot] at hqueue
  refine run_quiet (t := State.queueIssued ..) ?_ rfl rfl
  unfold State.queueIssued
  generalize hc : ({ idx := 0, word := e.word, opv := e.opv, slot := th.slot, threads := [th.tid], maps } : MCmd) = c at *
  generalize hS : s.queueing (s.eng th.tid.core th.slot) th.tid.qtr m maps c = S at *
  have hteams : S.team? th.tid.core th.slot = some tm := by rw [← hS]; exact h.team
  have hhas : S.Has th := by rw [← hS]; exact h.has
  have hend := cvEnd_run (w := { st := S }) hteams h.inst h.direct
  have hgone : S.endWaits [th.tid] (.cvw cv) = S.putThread (th.endWait (.cvw cv)) := hhas.set _ rfl
  rw [h.signers, hgone] at hend
  have hentry : ((s.thread? th.tid).bind fun y => y.unf.find? fun y => y.word = e.word && y.st = 0) = some e := by
    rw [h.has.thread?, Option.bind_some, h.entry, List.find?_cons, h.state]
    simp
  have hfinish := finishEntry_last (e := e) (y := th.endWait (.cvw cv))
    (w := { st := (S.putThread (th.endWait (.cvw cv))).setTeam th.tid.core th.slot (·.mapCv cv th.tid.qtr CvInst.next) })
    (hhas.put rfl) h.entry h.empty (by simp [Thread.endWait, h.waits]) h.calm
  rw [hgone]
  simp only [W.run_bind, h.team, Option.bind_some, h.inst, h.op, h.full, Bool.not_true, Bool.false_eq_true, if_false, hm, h.qtr,
    h.signers, h.threads]
  rw [hqueue]
  dsimp only
  rw [W.run_bind, hend]
  simp only [W.run_bind, W.forIn_cons, W.forIn_nil, hentry, W.run_pure]
  exact congrArg (fun r : Unit × Work => ((), r.2)) hfinish

theorem matrixQueueIssue_queues {tm : Team} {x : CvInst} {cv : Nat} {e : Entry} (h : Latched s th tm x cv e)
    (hm : mCommand e.word e.opv = some m) (hok : MatrixOk s (s.eng th.tid.core th.slot) th.tid.qtr m maps)
    (hmq : (s.quarter th.tid.core th.tid.qtr).mq = []) (hr : (s.core th.tid.core).ranges = []) :
    ∃ t y z, exec (.matrixQueueIssue th.tid.core th.slot cv th.tid.qtr) s = .next t ∧
      (t.quarter th.tid.core th.tid.qtr).mq =
        [{ idx := 0, word := e.word, opv := e.opv, slot := th.slot, threads := [th.tid], maps }] ∧
      (∀ k ∈ m.args.named, ((t.quarter th.tid.core th.tid.qtr).tile k).owner = some th.slot) ∧
      (m.args.kind = .mmas → ((t.quarter th.tid.core th.tid.qtr).shadowOf (th.slot, m.args.t, m.tok)).isSome = true) ∧
      (t.core th.tid.core).ranges = matrixRanges (s.eng th.tid.core th.slot) m maps (8 * th.tid.qtr) ∧
      t.thread? th.tid = some { th.endWait (.cvw cv) with unf := [] } ∧
      t.team? th.tid.core th.slot = some y ∧ y.cvInst? cv th.tid.qtr = some z ∧ z.signed = 0 ∧ z.op = none ∧ z.full = false ∧
      z.gen = (x.gen + 1) % 2 ^ 15 ∧ OthersSame s t th.tid ∧ SameMemory s t := by
  have hrun := matrixQueueIssue_run h hm hok hmq hr
  obtain ⟨hcore, hslot⟩ := eng_place s th.tid.core th.slot
  have hmq' : ∀ c : MCmd, ((s.quarter th.tid.core th.tid.qtr).enqueue (s.eng th.tid.core th.slot) m c).mq = [c] := by
    intro c
    obtain ⟨a, b, heq⟩ := enqueue_eq (s.quarter th.tid.core th.tid.qtr) (s.eng th.tid.core th.slot) m c
    rw [heq]
    dsimp only
    rw [hmq, List.nil_append]
  generalize s.eng th.tid.core th.slot = en at *
  generalize hc : ({ idx := 0, word := e.word, opv := e.opv, slot := th.slot, threads := [th.tid], maps } : MCmd) = c at *
  have hquarter := queueing_quarter (c := c) s en th.tid.qtr m maps
  have hranges := queueing_ranges (c := c) s en th.tid.qtr m maps
  have htiles := hok.tiles
  have hfree := hok.free
  rw [hcore] at hquarter hranges htiles hfree
  have hq : (s.queueIssued en th cv m maps c).quarter th.tid.core th.tid.qtr = (s.quarter th.tid.core th.tid.qtr).enqueue en m c :=
    hquarter
  have hput : (s.queueing en th.tid.qtr m maps c).Has th := h.has
  have hgone : (s.queueing en th.tid.qtr m maps c).endWaits [th.tid] (.cvw cv)
      = (s.queueing en th.tid.qtr m maps c).putThread (th.endWait (.cvw cv)) := hput.set _ rfl
  have hthread : ((s.queueing en th.tid.qtr m maps c).endWaits [th.tid] (.cvw cv)).Has (th.endWait (.cvw cv)) := by
    rw [hgone]
    exact hput.put rfl
  refine ⟨_, tm.mapCv cv th.tid.qtr CvInst.next, x.next, hrun, ?_, ?_, ?_, hranges, ?_, ?_, ?_, rfl, rfl, rfl, rfl, ?_, fun _ => rfl⟩
  · rw [hq, hmq' c]
  · intro k hk
    rw [hq, ← hslot]
    exact enqueue_owner htiles hk
  · intro hk
    rw [hq, ← hslot]
    exact enqueue_shadow hk (hfree hk)
  · exact (State.Has.put (s := ((s.queueing en th.tid.qtr m maps c).endWaits [th.tid] (.cvw cv)).setTeam th.tid.core th.slot _)
      (a := { th.endWait (.cvw cv) with unf := [] }) hthread rfl).thread?
  · exact team?_mapCv (s := (s.queueing en th.tid.qtr m maps c).endWaits [th.tid] (.cvw cv)) h.team cv th.tid.qtr CvInst.next
  · rw [cvInst?_mapCv next_keepsName, h.inst]
    rfl
  · intro v hv
    have hother : ((s.queueing en th.tid.qtr m maps c).endWaits [th.tid] (.cvw cv)).thread? v = s.thread? v := by
      rw [hgone]
      exact thread?_putThread_ne (s := s.queueing en th.tid.qtr m maps c) hv
    exact (thread?_putThread_ne (by exact hv)).trans hother

/-! ### MATRIX_START -/

variable {core : Nat} {c : MCmd}

theorem unreadAccrd_none (hidle : ∀ th ∈ s.threads, th.unf = []) (core qtr slot t : Nat) (v : BitVec 16) :
    s.unreadAccrd core qtr slot t v = false := by
  unfold State.unreadAccrd
  refine List.any_eq_false.2 fun th hth => ?_
  rw [hidle th hth, List.any_nil, Bool.and_false]
  exact Bool.false_ne_true

/-- The only command of a quarter may start exactly when its tiles have the version it expects. -/
theorem mayStart_alone (hmq : (s.quarter core qtr).mq = [c]) (hrun : c.running = false) (hm : c.cmd? = some m)
    (hidle : ∀ th ∈ s.threads, th.unf = []) :
    s.mayStart core qtr c = m.args.tiles.all fun t => ((s.quarter core qtr).tile t).ver = m.v := by
  have hbusy : ∀ t, (s.quarter core qtr).busyTile t = false := by
    intro t
    unfold Quarter.busyTile
    simp [hmq, hrun]
  have hahead : (s.quarter core qtr).ahead c.idx = [] := by
    unfold Quarter.ahead
    simp [hmq]
  unfold State.mayStart
  simp only [hm, hrun, hbusy, hahead, unreadAccrd_none hidle, hmq, List.filter_cons, List.filter_nil, List.all_nil]
  simp

theorem nextStart_alone (hmq : (s.quarter core qtr).mq = [c]) :
    s.nextStart core qtr = if s.mayStart core qtr c then some c else none := by
  unfold State.nextStart
  rw [hmq, List.find?_cons, List.find?_nil]
  cases s.mayStart core qtr c <;> rfl

theorem exec_matrixStart_none (idx : Nat) (h : s.nextStart core qtr = none) : exec (.matrixStart core qtr idx) s = .next s := by
  refine run_quiet ?_ rfl rfl
  simp only [h]
  rfl

theorem exec_matrixStart_some (hmq : (s.quarter core qtr).mq = [c]) (h : s.nextStart core qtr = some c) :
    exec (.matrixStart core qtr c.idx) s
      = .next (s.putQuarter core qtr { s.quarter core qtr with mq := [{ c with running := true }] }) := by
  refine run_quiet ?_ rfl rfl
  simp only [h, if_true, modQuarter_run, hmq, List.map_cons, List.map_nil]

/-- The only command of a quarter starts once its tiles have the version it expects, and not before. -/
theorem matrixStart_starts (hmq : (s.quarter core qtr).mq = [c]) (hrun : c.running = false) (hm : c.cmd? = some m)
    (hidle : ∀ th ∈ s.threads, th.unf = []) :
    ((∀ k ∈ m.args.tiles, ((s.quarter core qtr).tile k).ver = m.v) →
      ∃ t, exec (.matrixStart core qtr c.idx) s = .next t ∧ (t.quarter core qtr).mq = [{ c with running := true }] ∧
        (t.quarter core qtr).acc = (s.quarter core qtr).acc ∧ t.threads = s.threads ∧ SameMemory s t) ∧
    ((∃ k ∈ m.args.tiles, ((s.quarter core qtr).tile k).ver ≠ m.v) → exec (.matrixStart core qtr c.idx) s = .next s) := by
  have hmay := mayStart_alone hmq hrun hm hidle
  have hnext := nextStart_alone hmq
  constructor
  · intro hver
    rw [hmay, if_pos (by simpa using hver)] at hnext
    obtain ⟨hc, hq⟩ := quarter_core s core qtr
    have hquarter := quarter_putQuarter s (c := core) (q := qtr)
      (x := { s.quarter core qtr with mq := [{ c with running := true }] }) hc hq
    exact ⟨_, exec_matrixStart_some hmq hnext, congrArg Quarter.mq hquarter,
      (congrArg Quarter.acc hquarter :), rfl, fun _ => rfl⟩
  · intro hver
    rw [hmay, if_neg (by simpa using hver)] at hnext
    exact exec_matrixStart_none _ hnext

/-! ### The statement -/

theorem matrixCommandsQueueAndStart : Claims.MatrixCommandsQueueAndStart := by
  refine ⟨fun s th tm x e m maps cv hth htm hcv hkind hop hsigners hthreads hdirect hfull hwait hpend hunf hst _ hdst hm => ?_,
    fun s core qtr c m hmq hrun hm hidle => matrixStart_starts hmq hrun hm hidle⟩
  have hqtr : x.qtr = th.tid.qtr := by
    have hfound := List.find?_some (find_one hcv)
    simp only [Bool.and_eq_true, decide_eq_true_eq, cvQtr, if_pos hkind] at hfound
    exact hfound.2
  exact fun hok hmq hr => matrixQueueIssue_queues
    ⟨hth, find_one htm, find_one hcv, hqtr, hop, hsigners, hthreads, hdirect, hfull, hwait, hpend, hunf, hst, hdst⟩ hm hok hmq hr

/-- Settles O32: a matrix instruction signs or raises CONV, a complete command enters the queue, and it starts once its
tiles have their version. -/
theorem matrixCommandsSignQueueAndStart : Obligations.MatrixCommandsSignQueueAndStart :=
  ⟨matrixCommandsSign, matrixCommandsQueueAndStart⟩

end Sys2Proof.Machine
end

section
/-!
What a host line's answer, a `rel` message at a full ring, and the end of a mirror's initial copy change besides what the
statements name (05 R211, R216, R222): a launch that waits for the line, the rows of KVAPPs that other dies may not see yet,
and the dirty words that the core's L1 holds of the range.
-/
namespace Sys2Proof.Machine

/-! ### A launch that waits for a host line -/

/-- A request of host line 0 is on its way, and the dispatcher's work for a launch waits on that line. -/
def launchAwaitsLine : State :=
  { State.reset with
    hlcReq := [{ line := 0, own := false }]
    launches := [{ Loader.launch with endLine := some 0 }] }

/-- Refutes O50, in the clause on CXL_CACHE_RESPONSE: a launch that waits for the line goes on with its answer (R216), so more
changes than the host-line cache and its requests. -/
theorem not_theHostReachesMemoryAndLines : ¬ Obligations.TheHostReachesMemoryAndLines := by
  unfold Obligations.TheHostReachesMemoryAndLines Claims.HostLinesAndInvalidations
  rintro ⟨-, -, hanswer, -⟩
  obtain ⟨hfill, -, -⟩ := hanswer launchAwaitsLine 0 false ⟨_, .head _, rfl⟩ rfl rfl rfl
  have hlaunches := congrArg State.launches (Host.Outcome.next.inj (hfill (by decide)))
  exact absurd hlaunches (by decide)

/-! ### A message at a full ring -/

/-- A message with `rel` that its ring has counted in HELD. -/
def heldMessage : Msg :=
  { dst := 0, ring := 0, payload := [], seq := 0, slot := 0, order := Loader.launch.order, counted := true, rel := true }

/-- Core 0 sends it to a ring of its own with one slot, whose TAIL is one ahead of its HEAD. A word of a row that a KVAPP of the
core has written may still be unseen on other dies (R434). -/
def relMessageAtFullRing : State :=
  { Loader.place State.reset 0 with
    mem := [(scratchBase 0, 1)]
    cores := [{ id := 0, rings := [{ idx := 0, slot := 0, off := 0, logn := 0 }], sendBuf := [heldMessage] }]
    lag := [{ addr := 0, old := 0, new := 1, core := 0, seq := 0 }] }

/-- Refutes O49, in the clause on a counted message whose ring is still full: one with `rel` makes its sender's release at dev
scope each time (R222), which shows the rows of the core's KVAPPs on every die (R434), so the state does not stay as it is. -/
theorem not_messagesReachTheirRings : ¬ Obligations.MessagesReachTheirRings := by
  unfold Obligations.MessagesReachTheirRings
  rintro ⟨-, -, hdeliver, -⟩
  obtain ⟨-, hring⟩ := hdeliver relMessageAtFullRing 0 0 heldMessage (by decide) (by decide) (by decide) (.inr (by decide))
  obtain ⟨-, -, hheld⟩ := hring _ rfl (by decide)
  have hlag := congrArg State.lag (Host.Outcome.next.inj (hheld (by decide) (by decide)))
  exact absurd hlag (by decide)

/-! ### A mirror of a line with a dirty word -/

/-- SUBSCR v2, v4, v6, v8, unguarded. -/
def plainSubscr : EWord := { la := 0, g := { gn := false, gp := 0 }, fl := false, o1 := 2, o2 := 4, o3 := 6, o4 := 8, o5 := 0 }

/-- The SUBSCR of the first 128 bytes of memory, accepted with handle 0. -/
def subscrEntry : Entry :=
  { word := (encode (.subscr plainSubscr)).getD 0, pc := 0, st := 0, opv := [0, 0, 128, 0, 0, 0, 0, 0], dst := [.v 2]
    parks := true, aux := [0] }

/-- The thread that waits for its mirror. -/
def awaitsMirror : Thread := { Loader.thread 0 with wait := .eng .entry, unf := [subscrEntry] }

/-- Its subscription, whose initial copy is still to be made. -/
def firstLineSub : Sub :=
  { handle := 0, slot := 0, pasid := 1, va := 0, parts := [{ pa := 0, off := 0, len := 128 }], len := 128, mirror := 0 }

/-- A core with that subscription whose L1 holds the range's first word, 7, dirty: a team restored on a core finds there what
other teams have written (R212, R304). -/
def dirtyWordCore : CoreSt :=
  { id := 0
    subs := [firstLineSub]
    l1 := [{ emptyLine 0 with
             data := 7 :: List.replicate 31 0
             valid := true :: List.replicate 31 false
             dirty := true :: List.replicate 31 false }] }

def mirrorOfDirtyWord : State :=
  { Loader.place State.reset 0 with mem := [], threads := [awaitsMirror], cores := [dirtyWordCore] }

theorem mirrorOfDirtyWord_parked : ParkedOn mirrorOfDirtyWord awaitsMirror subscrEntry (.subscr plainSubscr) where
  only := rfl
  one := rfl
  word := by decide
  open_ := by decide
  dst := by decide
  waits := rfl
  calm := rfl
  lone x hx _ := by
    rw [List.mem_singleton.1 hx]
    rfl

theorem mirrorOfDirtyWord_copiesBack :
    ∃ t, exec (.subscrMirrorComplete 0 0) mirrorOfDirtyWord = .next t ∧ t.byte 0 = 7 := ⟨_, rfl, by decide +kernel⟩

/-- Refutes O48, in the clause on SUBSCR_MIRROR_COMPLETE: the copy takes the dirty words of the core's L1 home first (R211), so
memory changes in the range as well as in the mirror. -/
theorem not_subscriptionsAndVault : ¬ Obligations.SubscriptionsAndVault := by
  unfold Obligations.SubscriptionsAndVault Claims.SubscriptionsMirrorTheirRange
  rintro ⟨⟨-, hmirror, -⟩, -⟩
  obtain ⟨t, ht, -, hmem, -⟩ := hmirror plainSubscr mirrorOfDirtyWord awaitsMirror subscrEntry dirtyWordCore firstLineSub 0
    mirrorOfDirtyWord_parked rfl rfl rfl rfl rfl rfl rfl rfl (by decide) rfl rfl (by decide)
  obtain ⟨t', ht', hseven⟩ := mirrorOfDirtyWord_copiesBack
  obtain rfl := Host.Outcome.next.inj (ht.symm.trans ht')
  exact absurd ((hmem 0 (.inl (by decide))).symm.trans hseven) (by decide)

end Sys2Proof.Machine
end

section
/-!
The one unfinished instruction of a device's one thread (08 R295, R302): how it is attempted anew, and the registers it writes
once it has been performed.
-/
namespace Sys2Proof.Machine

variable {i : Instr} {s : State} {w w' : Work} {y : Thread} {e : Entry} {a : Acc} {tg : Target}

/-! ### One thread, one instruction -/

/-- The state's one thread is `y`, and its one unfinished instruction `e`. -/
structure State.Lone (s : State) (y : Thread) (e : Entry) : Prop where
  only : s.threads = [y]
  one  : y.unf = [e]

theorem State.Lone.has (h : s.Lone y e) : s.Has y := by
  unfold State.Has
  rw [h.only, List.filter_cons_of_pos (by simp), List.filter_nil]

theorem State.Lone.thread? (h : s.Lone y e) : s.thread? y.tid = some y := h.has.thread?

theorem State.Lone.entry? (h : s.Lone y e) : y.entry? e.id = some e := by
  unfold Thread.entry?
  rw [h.one, List.find?_cons_of_pos (by simp)]

theorem State.Lone.find (h : s.Lone y e) : (s.thread? y.tid).bind (fun x => x.entry? e.id) = some e := by
  rw [h.thread?]
  exact h.entry?

theorem threads_putThread_only {x : Thread} (h : s.threads = [y]) (hx : x.tid = y.tid) : (s.putThread x).threads = [x] := by
  unfold State.putThread State.setThread
  dsimp only
  rw [h, List.map_singleton, if_pos hx.symm]

theorem State.Lone.put (h : s.Lone y e) {x : Thread} {e' : Entry} (hx : x.tid = y.tid) (hu : x.unf = [e']) :
    (s.putThread x).Lone x e' := ⟨threads_putThread_only h.only hx, hu⟩

/-- A change of the one instruction. -/
theorem State.Lone.modEntry (h : w.st.Lone y e) (f : Entry → Entry) :
    modEntry y.tid e.id f w = ((), { w with st := w.st.putThread { y with unf := [f e] } }) := by
  refine (modThread_has h.has _ (by rfl)).trans ?_
  rw [h.one, List.map_singleton, if_pos rfl]

/-! ### The instruction has been performed -/

/-- A thread's record once its one instruction has been performed. -/
def Thread.performed (y : Thread) (e : Entry) (vals : List Word) : Thread := { y with unf := [], v := writeRefs y.v e.dst vals }

theorem State.Lone.settle_ok (h : w.st.Lone y e) (hd : e.dst.all RegRef.isV = true) (hr : y.wait = .ready) (hp : y.pending = none)
    (vals : List Word) :
    settleEntry y.tid e.id (.ok vals) w = ((), { w with st := w.st.putThread (y.performed e vals) }) := by
  have honly : w.st.OnlyTag y e.id e.tag := by
    intro z hz e' he' _
    rw [h.only, List.mem_singleton] at hz
    rw [hz, h.one, List.mem_singleton] at he'
    exact ⟨hz ▸ rfl, he' ▸ rfl⟩
  have hnoq : ∀ k, RegRef.q k ∉ e.dst := fun k hk => Bool.noConfusion (List.all_eq_true.1 hd _ hk)
  have hun : y.unparks e.id = false := by
    unfold Thread.unparks
    rw [hr]
  have hrec : ((y.unparked e.id).without e.id).received e.dst vals = y.performed e vals := by
    unfold Thread.received Thread.without Thread.unparked Thread.performed
    simp only [h.one, hd, hun, List.map_cons, List.map_nil, List.filter_cons, List.filter_nil, if_true, ne_eq, not_true_eq_false,
      decide_false, Bool.false_eq_true, if_false]
  have hgroups : w.st.groupsWith y e.dst vals = w.st.groups := by
    unfold State.groupsWith
    rw [if_pos hd]
  unfold settleEntry
  simp only [W.run_bind, W.run_getSt, h.thread?, h.entry?]
  rw [finishEntry_solo h.has (by rw [h.one, List.filter_cons_of_pos (by simp), List.filter_nil]) hp honly hnoq, hrec, hgroups]
  rfl

/-- A step that ends with nothing logged ends in the state it has worked on. -/
theorem run_unlogged {b : W Unit} (hb : b { st := s } = ((), w)) (hl : w.log = []) (hr : w.rekey = false) (hm : w.st.mem = s.mem)
    (hk : w.st.sec = s.sec) : run b s = .next w.st := by
  unfold run
  rw [hb]
  exact congrArg _ (finish_quiet hl hr hm (congrArg Security.keyGen hk))

/-! ### A load -/

theorem attemptEntry_access (h : w.st.Lone y e) (hi : decodeWord e.word = .ok i) (ha : accOf i = some a) :
    attemptEntry y.tid e.id w = attempt (performOrdered i) y.tid e.id w := by
  have hinstr : e.instr? = some i := by
    unfold Entry.instr?
    rw [hi]
  unfold attemptEntry
  simp only [W.run_bind, W.run_getSt, h.find, hinstr, ha, Option.isSome_some, if_true]

/-- What stands in the way of no weak load of the core. -/
structure Work.MayLoad (w : Work) (c : Nat) : Prop where
  free : w.st.Undisturbed
  l1   : (w.st.core c).l1 = []
  log  : w.log = []

/-- A weak load that is attempted writes its registers with the bytes at its target (R142, R295). -/
theorem attemptEntry_loads (h : w.st.Lone y e) (hi : decodeWord e.word = .ok i) (ha : accOf i = some a) (hk : a.kind = .load)
    (ho : a.order = .weak) (hd : e.dst.all RegRef.isV = true) (hr : y.wait = .ready) (hp : y.pending = none)
    (hw : w.MayLoad y.tid.core) (htg : w.st.targetOf y a (e.d 0) = some tg) (hc : w.st.cleanSpan tg.pa a.size) :
    attemptEntry y.tid e.id w = ((), { w.as y.tid with
      st := w.st.putThread (y.performed e (extend a.ty (w.st.bytesAt tg.pa a.size))) }) := by
  obtain ⟨w1, -, hweak, hload⟩ := performMem_load hw.free hw.l1 hw.log ha hk h.thread? htg hc
  obtain rfl := hweak ho
  have hperf := (performOrdered_run ha (fun _ => by rw [hk]; exact nofun) h.thread? h.one).trans hload
  rw [attemptEntry_access h hi ha, attempt_run h.find hperf]
  exact State.Lone.settle_ok (w := w.as y.tid) h hd hr hp _

/-! ### A function-unit instruction -/

/-- A function-unit instruction behind no earlier one is performed (R235, R237). -/
theorem performFu_run (h : w.st.Lone y e) (i : Instr) :
    (performFu i y.tid e).run w = (.ok ((fuRes i (e.w 0) (e.w 2)).d.headD []),
      { w with st := w.st.putThread { y with fpx := y.fpx ||| (fuRes i (e.w 0) (e.w 2)).fl } }) := by
  have hqueue : (w.st.fuQueue y.tid.core y.tid.qtr).any (fun x => x.tag < e.tag) = false := by
    rw [List.any_eq_false]
    intro x hx
    obtain ⟨z, hz, hx⟩ := List.mem_flatMap.1 hx
    rw [h.only] at hz
    rw [List.mem_singleton.1 (List.mem_filter.1 hz).1, h.one] at hx
    rw [List.mem_singleton.1 (List.mem_filter.1 hx).1]
    simp
  unfold performFu
  rw [P.run_getSt_bind, hqueue]
  simp only [Bool.false_eq_true, if_false]
  rw [P.run_bind_ok (P.run_lift _ w), modThread_has h.has _ (by rfl)]
  rfl

theorem attemptEntry_fu (h : w.st.Lone y e) (hi : decodeWord e.word = .ok i) (ha : accOf i = none) (hf : classOf i = some 1)
    (hd : e.dst.all RegRef.isV = true) (hr : y.wait = .ready) (hp : y.pending = none) :
    ∃ x, attemptEntry y.tid e.id w = ((), { w with st := w.st.putThread x }) ∧ x.tid = y.tid ∧ x.unf = [] ∧ x.pc = y.pc ∧
      x.v = writeRefs y.v e.dst ((fuRes i (e.w 0) (e.w 2)).d.headD []) := by
  have hinstr : e.instr? = some i := by
    unfold Entry.instr?
    rw [hi]
  have hrun := attempt_run h.find (performFu_run h i)
  generalize hx : ({ y with fpx := y.fpx ||| (fuRes i (e.w 0) (e.w 2)).fl } : Thread) = x at hrun
  have hlone : (w.st.putThread x).Lone x e := h.put (by rw [← hx]) (by rw [← hx]; exact h.one)
  have hsettle := State.Lone.settle_ok (w := { w with st := w.st.putThread x }) hlone hd (by rw [← hx]; exact hr)
    (by rw [← hx]; exact hp) ((fuRes i (e.w 0) (e.w 2)).d.headD [])
  have htid : x.tid = y.tid := by rw [← hx]
  rw [htid] at hsettle
  refine ⟨x.performed e ((fuRes i (e.w 0) (e.w 2)).d.headD []), ?_, htid, rfl, by rw [← hx]; rfl, by rw [← hx]; rfl⟩
  unfold attemptEntry
  simp only [W.run_bind, W.run_getSt, h.find, hinstr, ha, Option.isSome_none, Bool.false_eq_true, if_false, hf, if_true]
  rw [hrun, hsettle, State.putThread_put (by rfl)]

/-! ### ACCESS_REPLY -/

/-- ACCESS_REPLY attempts an instruction that has left its core (R302). -/
theorem exec_accessReply (h : s.Lone y e) (hj : y.reinj = false) (hst : e.st = 0) (hq : e.queued = false) (hp : e.page = none)
    (hl : e.line = none) : exec (.accessReply y.tid e.id) s = run (attemptEntry y.tid e.id) s := by
  have hstay : y.resumesReplay = false := by
    unfold Thread.resumesReplay
    rw [hj]
    rfl
  show execAccessReply y.tid e.id s = _
  unfold execAccessReply
  simp only [h.thread?, hstay, h.entry?, hst, hq, hp, hl, Bool.false_eq_true, if_false, Option.isNone_none, decide_true, Bool.not_false,
    Bool.and_self, if_true]

end Sys2Proof.Machine
end

section
/-!
What an answer of the host tells to all that waits on a page (05 R225, R226, 08 R297), in a state in which one thread, or nothing,
waits.
-/
namespace Sys2Proof.Machine

variable {s : State} {w w' : Work} {y : Thread} {e : Entry} {n : PageNews} {pw : PageWait}

/-! ### Nothing but threads waits -/

/-- No copy command, launch, retired page, collective or saved team waits for an answer. -/
structure State.NoWaiters (s : State) : Prop where
  copies   : ∀ c ∈ s.cores, c.copy = []
  launches : ∀ l ∈ s.launches, l.endWait = none
  retire   : s.retire = []
  colls    : s.colls = []
  images   : s.images = []

theorem State.NoWaiters.of_empty (hcores : s.cores = []) (hlaunches : s.launches = []) (hretire : s.retire = []) (hcolls : s.colls = [])
    (himages : s.images = []) : s.NoWaiters :=
  ⟨by simp [hcores], by simp [hlaunches], hretire, hcolls, himages⟩

theorem advanceAll_none (h : w.st.colls = []) : advanceAll w = ((), w) := by
  unfold advanceAll
  simp only [W.run_bind, W.run_getSt, h, W.forIn_nil, W.run_pure]

theorem newsToCopies_none (h : w.st.NoWaiters) (n : PageNews) : newsToCopies n w = ((), w) := by
  unfold newsToCopies
  rw [W.run_bind, W.run_getSt, W.run_bind, forIn_skip _ _ _ fun c hc => ?_]
  · rfl
  · rw [h.copies c hc]
    rfl

theorem newsToOthers_none (h : w.st.NoWaiters) (n : PageNews) : newsToOthers n w = ((), w) := by
  unfold newsToOthers
  rw [W.run_bind, W.run_getSt, W.run_bind, forIn_skip _ _ _ fun l hl => ?_]
  · simp only [W.run_bind, W.run_getSt, h.retire, h.colls, W.forIn_nil, advanceAll_none h.colls]
  · rw [h.launches l hl]
    rfl

theorem newsToImages_none (h : w.st.NoWaiters) (n : PageNews) : newsToImages n w = ((), w) := by
  unfold newsToImages
  simp only [W.run_bind, W.run_getSt, h.images, W.forIn_nil, W.run_pure]

/-- An answer that only threads wait for is told to them alone. -/
theorem spread_threads (ht : newsToThreads n w = ((), w')) (h : w'.st.NoWaiters) : spread n w = ((), w') := by
  unfold spread
  simp only [W.run_bind, ht, newsToCopies_none h, newsToOthers_none h, newsToImages_none h]

/-- An answer that nothing waits for. -/
theorem spread_none (ht : w.st.threads = []) (h : w.st.NoWaiters) (n : PageNews) : spread n w = ((), w) := by
  refine spread_threads ?_ h
  unfold newsToThreads
  simp only [W.run_bind, W.run_getSt, ht, W.forIn_nil, W.run_pure]

/-! ### One thread waits, with one instruction -/

theorem failEntries_none (t : ThreadId) (c : Cause) (w : Work) : failEntries t c [] w = ((), w) := rfl

/-- An instruction that has been told the page that was answered with Success, if any (R226). -/
def Entry.told (e : Entry) (retry : Option Nat) : Entry := { e with retry := retry.getD e.retry }

/-- A thread's record when its one instruction has been told. -/
def Thread.told (y : Thread) (e : Entry) (retry : Option Nat) : Thread := { y with unf := [e.told retry] }

theorem State.Lone.told_none (h : s.Lone y e) : y.told e none = y := by
  unfold Thread.told Entry.told
  rw [Option.getD_none, ← h.one]

/-- The wait of the one instruction is over: it is performed anew. -/
theorem newsToThreads_goesOn (h : w.st.Lone y e) (hf : y.fetchWait = none) (hp : e.page = some pw) (hw : n.waits pw = true)
    (hfail : n.fail pw.key e.retry = none) (hgo : n.goOn pw.key e.retry = true) :
    newsToThreads n w = replayEntry y.tid e.id { w with st := w.st.putThread (y.told e n.retry) } := by
  unfold newsToThreads
  simp only [W.run_bind, W.run_getSt, h.only, h.one, hf, hp, hw, hfail, hgo, W.forIn_cons, W.forIn_nil, W.run_pure, if_true,
    List.filterMap_cons, List.filterMap_nil, Option.map_none, failEntries_none, ite_self]
  cases n.retry with
  | some v =>
    have hmark : modEntry y.tid e.id (fun e => { e with retry := v }) w = ((), { w with st := w.st.putThread (y.told e (some v)) }) :=
      h.modEntry _
    simp only [W.run_bind, hmark, W.run_pure]
    rfl
  | none =>
    simp only [h.told_none, h.has.putThread_self, W.run_bind, W.run_pure]
    rfl

/-- The wait of the one instruction has failed. -/
theorem newsToThreads_fails (h : w.st.Lone y e) (hf : y.fetchWait = none) (hp : e.page = some pw) (hw : n.waits pw = true)
    (hpf : e.isPrefetch = false) {sub : Nat} (hfail : n.fail pw.key e.retry = some sub) :
    newsToThreads n w = failEntries y.tid n.cause [(e.id, sub, e.fa)] w := by
  unfold newsToThreads
  simp only [W.run_bind, W.run_getSt, h.only, h.one, hf, hp, hw, hpf, hfail, W.forIn_cons, W.forIn_nil, W.run_pure, if_true,
    Bool.false_eq_true, if_false, List.filterMap_cons, List.filterMap_nil, Option.map_some, Bool.not_false, Bool.and_self]
  rfl

/-! ### The instruction is performed anew -/

/-- A waiting instruction of `y` when it leaves the replay queue. -/
def Entry.rearmed (e : Entry) (y : Thread) : Entry :=
  { e with st := 0, queued := false, page := none, parks := e.parks && y.wait != .fault }

/-- A thread's record when its one waiting instruction leaves the replay queue. -/
def Thread.rearmed (y : Thread) (e : Entry) : Thread := { y with unf := [e.rearmed y] }

/-- A thread's record when its one waiting instruction is attempted again: the thread leaves FAULT (R297). -/
def Thread.renewed (y : Thread) (e : Entry) : Thread := if y.wait = .fault then (y.rearmed e).goOn else y.rearmed e

theorem Thread.renewed_tid (y : Thread) (e : Entry) : (y.renewed e).tid = y.tid := by
  unfold Thread.renewed
  split <;> rfl

theorem replayEntry_lone (h : w.st.Lone y e) (hj : y.reinj = false) (hm : y.handler = false) :
    replayEntry y.tid e.id w = attemptEntry y.tid e.id { w with st := w.st.putThread (y.renewed e) } := by
  have hothers : (y.unf.any fun x => x.id ≠ e.id && x.parks && x.page.isSome) = false := by simp [h.one]
  have hmod : modEntry y.tid e.id
      (fun x => { x with st := 0, queued := false, page := none, parks := x.parks && y.wait != .fault }) w
        = ((), { w with st := w.st.putThread (y.rearmed e) }) := h.modEntry _
  have hgo : modThread y.tid Thread.goOn { w with st := w.st.putThread (y.rearmed e) }
      = ((), { w with st := w.st.putThread (y.rearmed e).goOn }) := modThread_put h.has rfl rfl rfl rfl
  unfold replayEntry Thread.renewed
  simp only [W.run_bind, W.run_getSt, h.thread?, hothers, hj, hm, Bool.false_eq_true, if_false, Bool.false_and, hmod, Bool.not_false,
    Bool.and_true, decide_eq_true_eq]
  split
  next => rw [hgo]
  next => rfl

theorem newsToThreads_attempts (h : w.st.Lone y e) (hf : y.fetchWait = none) (hp : e.page = some pw) (hw : n.waits pw = true)
    (hfail : n.fail pw.key e.retry = none) (hgo : n.goOn pw.key e.retry = true) (hj : y.reinj = false) (hm : y.handler = false)
    {z : Thread} (hz : (y.told e n.retry).renewed (e.told n.retry) = z) :
    newsToThreads n w = attemptEntry y.tid e.id { w with st := w.st.putThread z } := by
  have htold : (w.st.putThread (y.told e n.retry)).Lone (y.told e n.retry) (e.told n.retry) := h.put rfl rfl
  have htid : z.tid = (y.told e n.retry).tid := hz ▸ Thread.renewed_tid _ _
  refine (newsToThreads_goesOn h hf hp hw hfail hgo).trans
    ((replayEntry_lone (w := { w with st := w.st.putThread (y.told e n.retry) }) htold hj hm).trans ?_)
  rw [hz, State.putThread_put htid]
  rfl

/-! ### The instruction fails -/

/-- An instruction that stands in the replay queue with its cause (R226). -/
def Entry.failed (e : Entry) (c : Cause) (sub : Nat) : Entry :=
  { e with st := 2, cause := some c, sub, queued := true, page := none, line := none, parks := false }

/-- A thread's record when its one instruction has failed. -/
def Thread.failed (y : Thread) (e : Entry) (c : Cause) (sub : Nat) : Thread := { y.unparked e.id with unf := [e.failed c sub] }

theorem failEntries_lone (h : w.st.Lone y e) (hv : e.val = none) (c : Cause) (sub : Nat) :
    failEntries y.tid c [(e.id, sub, e.fa)] w
      = raise y.tid c true e.pc { w with st := w.st.putThread (y.failed e c sub) } := by
  have hun : unpark y.tid e.id w = ((), { w with st := w.st.putThread (y.unparked e.id) }) := modThread_has h.has _ (by rfl)
  have hmod : modEntry y.tid e.id
      (fun x => { x with st := 2, cause := some c, sub, fa := e.fa, queued := true, page := none, line := none })
      { w with st := w.st.putThread (y.unparked e.id) } = ((), { w with st := w.st.putThread (y.failed e c sub) }) := by
    refine modThread_put h.has rfl rfl ?_ rfl
    simp only [Thread.unparked, Thread.failed, Entry.failed, h.one, List.map_cons, List.map_nil, if_true]
  have hshare := shareResults_skip (tag := e.tag) (w := { w with st := w.st.putThread (y.failed e c sub) })
    (fun z hz x hx _ => by
      rw [threads_putThread_only (x := y.failed e c sub) h.only rfl, List.mem_singleton] at hz
      rw [hz] at hx
      rw [List.mem_singleton.1 hx]
      exact hv) y
  unfold failEntries
  simp only [W.run_bind, W.run_getSt, List.head?_cons, h.thread?, W.forIn_cons, W.forIn_nil, W.run_pure, hun, hmod, h.entry?, hshare,
    Option.map_some, Option.getD_some]

/-- From `s` to `t` the thread `y` raises `c` with an instruction in the replay queue and enters its handler, with the record `x`
(R286, R291). -/
structure Enters (s t : State) (y x : Thread) (c : Cause) : Prop where
  rest   : t.bare = s.bare
  groups : t.groups = s.maskedGroups y c.bit true
  found  : t.thread? y.tid = some x
  mode   : x.handler = true ∧ x.tq = true
  pcs    : x.tpc = y.pc ∧ x.pc = s.handlerPc y
  unf    : x.unf = y.unf

theorem raise_enters (h : Trappable w.st y) (hm : y.handler = false) (hv : w.st.hasHandler y = true) (c : Cause) (tpc : DWord) :
    ∃ t x, raise y.tid c true tpc w = ((), { w with st := t }) ∧ Enters w.st t y x c := by
  have hraised := raised_has h.has c true tpc
  obtain ⟨q, -, he⟩ := trapEnter_handler (w := { w with st := w.st.raised y c true tpc }) hraised rfl h.going hm h.live h.settled hv
  have hbare (a b : Thread) :
      ((((w.st.putGroups (w.st.maskedGroups y c.bit true)).putThread a).putThread b).putQuarters q).bare = w.st.bare := rfl
  exact ⟨_, _, (raise_eq_trapEnter h c true tpc).trans he, hbare _ _, rfl,
    (hraised.put (a := (y.raising c true tpc).trapped _ _) rfl).thread?, ⟨rfl, rfl⟩, ⟨rfl, rfl⟩, rfl⟩

/-- The failure of a thread's one instruction takes the thread into its handler (R226). -/
theorem failEntries_enters (h : w.st.Lone y e) (hv : e.val = none) (hp : y.pending = none) (hh : y.halt = none) (hi : y.idle = false)
    (hm : y.handler = false) (hhas : w.st.hasHandler y = true) (c : Cause) (sub : Nat) :
    ∃ t x, failEntries y.tid c [(e.id, sub, e.fa)] w = ((), { w with st := t }) ∧
      Enters (w.st.putThread (y.failed e c sub)) t (y.failed e c sub) x c := by
  have hT : Trappable (w.st.putThread (y.failed e c sub)) (y.failed e c sub) :=
    ⟨h.has.put (a := y.failed e c sub) rfl, hp, hh, hi, rfl⟩
  obtain ⟨t, x, hraise, hx⟩ := raise_enters (w := { w with st := w.st.putThread (y.failed e c sub) }) hT hm hhas c e.pc
  exact ⟨t, x, (failEntries_lone h hv c sub).trans hraise, hx⟩

end Sys2Proof.Machine
end

section
/-!
PAGE_RESPONSE and TRANSLATION_COMPLETION (05 R225, R226, 08 R297): what the answer itself changes, and whom it is told to.
-/
namespace Sys2Proof.Machine

variable {s : State} {w w' : Work} {y : Thread} {e : Entry} {key : PageKey} {pasid vpn : Nat}

/-! ### PAGE_RESPONSE -/

/-- The sub-code of PAGE that a response gives (R226). -/
def priSub (res : PriResult) : Option Nat := match res with | .success => none | .invalid => some 1 | .failure => some 2

/-- What a page response tells. -/
def priNews (key : PageKey) (sub : Option Nat) : PageNews where
  waits w  := !w.ats && w.key = key
  retry    := if sub.isNone then some (key.vpn + 1) else none
  fail _ _ := sub
  goOn _ _ := sub.isNone

/-- The state once its one page request has been answered. -/
def State.priAnswered (s : State) (key : PageKey) (sub : Option Nat) : State :=
  { s with pri := [], tlb := if sub.isNone then s.tlb.filter fun e => !e.covers key.pasid key.vpn else s.tlb }

theorem exec_pageResponse (h : s.pri = [key]) (res : PriResult)
    (hs : spread (priNews key (priSub res)) { st := s.priAnswered key (priSub res) } = ((), w)) (hl : w.log = []) (hr : w.rekey = false)
    (hm : w.st.mem = s.mem) (hk : w.st.sec = s.sec) : exec (.pageResponse key.pasid key.vpn key.intent res) s = .next w.st := by
  have hanswer : answerPage key { st := s } = ((), { st := { s with pri := [] } }) := by
    unfold answerPage
    simp [h]
  show execPageResponse key.pasid key.vpn key.intent res s = _
  unfold execPageResponse
  refine run_unlogged ?_ hl hr hm hk
  simp only [h, List.take_succ_cons, List.take_nil, List.contains_cons, BEq.rfl, Bool.true_or, Bool.not_true, Bool.false_eq_true, if_false,
    W.run_bind, hanswer, W.run_upd]
  exact hs

/-! ### TRANSLATION_COMPLETION -/

/-- What a translation completion tells. -/
def atsNews (pasid vpn : Nat) (res : Option Translation) : PageNews where
  waits w  := w.ats && w.key.pasid = pasid && w.key.vpn / (match res with | some tr => pagesIn tr.size | none => 1)
                = vpn / (match res with | some tr => pagesIn tr.size | none => 1)
  retry    := none
  fail k r := if res.isNone && r = k.vpn + 1 then some 3 else none
  goOn _ _ := res.isSome

/-- The state once its one translation request has been answered. -/
def State.atsAnswered (s : State) (pasid vpn : Nat) (res : Option Translation) : State :=
  { s with
    ats := []
    tlb := match res with
      | some tr => (s.atsTlbs pasid vpn).foldl (fun es t => fillTlb { tlb := t, pasid, vpn, tr } es) s.tlb
      | none => s.tlb }

theorem exec_translationCompletion {base : Nat} {ts : List Tlb} (h : s.ats = [{ pasid, vpn, base, tlbs := ts }]) (hb : base < 4)
    (res : Option Translation) (hs : spread (atsNews pasid vpn res) { st := s.atsAnswered pasid vpn res } = ((), w)) (hl : w.log = [])
    (hr : w.rekey = false) (hm : w.st.mem = s.mem) (hk : w.st.sec = s.sec) :
    exec (.translationCompletion pasid vpn res) s = .next w.st := by
  have hsent : s.atsSent pasid vpn = true := by
    unfold State.atsSent
    rw [List.any_eq_true]
    exact ⟨base, List.mem_range.2 hb, by simp [h, AtsRequest.isFor]⟩
  have hanswer : answerAts pasid vpn { st := s } = ((), { st := { s with ats := [] } }) := by
    unfold answerAts
    simp [h, AtsRequest.isFor]
  show execTranslationCompletion pasid vpn res s = _
  unfold execTranslationCompletion
  refine run_unlogged ?_ hl hr hm hk
  cases res with
  | none =>
    simp only [hsent, Bool.not_true, Bool.false_eq_true, if_false, W.run_bind, hanswer]
    exact hs
  | some tr =>
    simp only [hsent, Bool.not_true, Bool.false_eq_true, if_false, W.run_bind, hanswer, W.run_upd]
    exact hs

/-! ### The TLBs that an answer fills -/

theorem atsTlbs_core {base c : Nat} (h : s.ats = [{ pasid, vpn, base, tlbs := [.core c] }]) :
    s.atsTlbs pasid vpn = [.core c, .die (dieOf c)] := by
  unfold State.atsTlbs
  simp [h, AtsRequest.isFor, Tlb.dieNo, List.eraseDups_cons]

theorem fillTlb_filter_ne {x : TlbEntry} {u : Tlb} (h : u ≠ x.tlb) (es : List TlbEntry) :
    (fillTlb x es).filter (fun y => y.tlb = u) = es.filter (fun y => y.tlb = u) := by
  have hmine : ((es.filter fun y => y.tlb = x.tlb && !(y.pasid = x.pasid && y.vpn = x.vpn)).take (x.tlb.room - 1)).filter
      (fun y => y.tlb = u) = [] := by
    refine List.filter_eq_nil_iff.2 fun y hy hu => ?_
    have htlb := (List.mem_filter.1 (List.mem_of_mem_take hy)).2
    simp only [Bool.and_eq_true, decide_eq_true_eq] at htlb hu
    exact h (hu.symm.trans htlb.1)
  unfold fillTlb
  rw [List.cons_append, List.filter_cons_of_neg (by simpa using h.symm), List.filter_append, hmine, List.nil_append, List.filter_filter]
  refine List.filter_congr fun y _ => ?_
  by_cases hu : y.tlb = u
  · simp [hu, h]
  · simp [hu]

theorem fillTlb_filter_self (x : TlbEntry) (es : List TlbEntry) :
    ∃ xs, (fillTlb x es).filter (fun y => y.tlb = x.tlb) = x :: xs :=
  ⟨_, List.filter_cons_of_pos (by simp)⟩

theorem tlbEntry_of_filter {x : TlbEntry} {u : Tlb} {xs : List TlbEntry} (h : s.tlb.filter (fun x => x.tlb = u) = x :: xs)
    (hc : x.covers pasid vpn = true) : s.tlbEntry u pasid vpn = some x := by
  have hfind : s.tlb.find? (fun x => x.tlb = u && x.covers pasid vpn) = some x := by
    have hboth := List.filter_filter (p := fun x : TlbEntry => x.covers pasid vpn) (q := fun x => x.tlb = u) (l := s.tlb)
    simp only [Bool.and_comm] at hboth
    rw [← List.head?_filter, ← hboth, h, List.filter_cons, if_pos hc, List.head?_cons]
  unfold State.tlbEntry
  rw [hfind]

/-- The core that asked, and its die, hold the translation; the other TLBs are as before (R225). -/
theorem fillTlb_core_die (es : List TlbEntry) (c : Nat) (tr : Translation) (hs : s.tlb =
      fillTlb { tlb := .die (dieOf c), pasid, vpn, tr } (fillTlb { tlb := .core c, pasid, vpn, tr } es)) :
    (∀ u, u = Tlb.core c ∨ u = .die (dieOf c) → s.tlbEntry u pasid vpn = some { tlb := u, pasid, vpn, tr }) ∧
      ∀ u, u ≠ Tlb.core c → u ≠ .die (dieOf c) → s.tlb.filter (fun e => e.tlb = u) = es.filter (fun e => e.tlb = u) := by
  refine ⟨fun u hu => ?_, fun u hc hd => ?_⟩
  · rcases hu with rfl | rfl
    · obtain ⟨xs, hxs⟩ := fillTlb_filter_self { tlb := .core c, pasid, vpn, tr } es
      refine tlbEntry_of_filter (xs := xs) ?_ (by simp [TlbEntry.covers])
      rw [hs, fillTlb_filter_ne (by simp)]
      exact hxs
    · obtain ⟨xs, hxs⟩ := fillTlb_filter_self { tlb := .die (dieOf c), pasid, vpn, tr } (fillTlb { tlb := .core c, pasid, vpn, tr } es)
      refine tlbEntry_of_filter (xs := xs) ?_ (by simp [TlbEntry.covers])
      rw [hs]
      exact hxs
  · rw [hs, fillTlb_filter_ne hd, fillTlb_filter_ne hc]

/-! ### Answers that nothing waits for -/

theorem pageResponse_success {pasid vpn : Nat} {intent : Intent} (h : s.pri = [{ pasid, vpn, intent }]) (ht : s.threads = [])
    (hn : s.NoWaiters) :
    ∃ t, exec (.pageResponse pasid vpn intent .success) s = .next t ∧ t.pri = [] ∧
      t.tlb = s.tlb.filter (fun e => !e.covers pasid vpn) ∧ SameMemory s t :=
  ⟨_, exec_pageResponse (key := { pasid, vpn, intent }) h .success
      (spread_none ht ⟨hn.copies, hn.launches, hn.retire, hn.colls, hn.images⟩ _) rfl rfl rfl rfl,
    rfl, rfl, sameMemory_of_memPart rfl rfl⟩

theorem translationCompletion_fills {pasid vpn c : Nat} (tr : Translation) (hc : c < 512)
    (h : s.ats = [{ pasid, vpn, base := dieOf c / 4, tlbs := [.core c] }]) (ht : s.threads = []) (hn : s.NoWaiters) :
    (∃ t, exec (.translationCompletion pasid vpn (some tr)) s = .next t ∧ t.ats = [] ∧
      (∀ u, u = Tlb.core c ∨ u = .die (dieOf c) → t.tlbEntry u pasid vpn = some { tlb := u, pasid, vpn, tr }) ∧
      ∀ u, u ≠ Tlb.core c → u ≠ .die (dieOf c) → t.tlb.filter (fun e => e.tlb = u) = s.tlb.filter (fun e => e.tlb = u)) ∧
    (∃ t, exec (.translationCompletion pasid vpn none) s = .next t ∧ t.ats = [] ∧ t.tlb = s.tlb) := by
  have hbase : dieOf c / 4 < 4 := by unfold dieOf; omega
  have hrun : ∀ res, exec (.translationCompletion pasid vpn res) s = .next (s.atsAnswered pasid vpn res) := fun res =>
    exec_translationCompletion h hbase res (spread_none ht ⟨hn.copies, hn.launches, hn.retire, hn.colls, hn.images⟩ _) rfl rfl rfl rfl
  refine ⟨⟨_, hrun (some tr), rfl, fillTlb_core_die s.tlb c tr ?_⟩, _, hrun none, rfl, rfl⟩
  unfold State.atsAnswered
  rw [atsTlbs_core h]
  rfl

end Sys2Proof.Machine
end

section
/-!
The answers that one thread waits for (05 R225, R226, 08 R297, R302), and the theorem that settles O24.
-/
namespace Sys2Proof.Machine

variable {i : Instr} {s : State} {w w' : Work} {y th : Thread} {e : Entry} {a : Acc} {tg : Target} {key : PageKey}

/-! ### A load whose page no TLB holds -/

/-- The state once the translation of a page has been asked for (R225). -/
def State.asked (s : State) (t : Tlb) (pasid vpn : Nat) : State :=
  { s with ats := [{ pasid, vpn, base := t.dieNo / 4, tlbs := [t] }], hostOut := s.hostOut ++ [.ats pasid vpn] }

theorem requestAts_first (h : w.st.ats = []) (t : Tlb) (pasid vpn : Nat) :
    requestAts t pasid vpn w = ((), { w with st := w.st.asked t pasid vpn }) := by
  unfold requestAts
  simp only [W.run_bind, W.run_getSt, h, List.any_nil, Bool.false_eq_true, if_false, W.run_upd, List.filter_nil, List.length_nil,
    List.nil_append]
  rfl

theorem needPort0_up (h : w.st.portUp = [true, true]) (fa : DWord) : (needPort0 fa).run w = (.ok (), w) := by
  unfold needPort0
  rw [P.run_getSt_bind, h]
  rfl

theorem translate_miss {t : Tlb} {pasid : Nat} {va : DWord} {j : Intent} (h : w.st.trans t pasid va.toNat j = .miss)
    (hats : w.st.ats = []) (hport : w.st.portUp = [true, true]) (retry : Nat) :
    (translate t pasid va j retry).run w = (.error (.page { key := { pasid, vpn := va.toNat / 4096, intent := j }, ats := true } va),
      { w with st := w.st.asked t pasid (va.toNat / 4096) }) := by
  have h' : w.st.transWays (w.st.usableWays t.dieNo) t pasid va.toNat j = .miss := h
  unfold translate
  rw [P.run_getSt_bind]
  simp only [Bool.false_eq_true, if_false, h']
  rw [P.run_bind_ok (needPort0_up hport va), P.run_bind_ok (P.run_lift _ w), requestAts_first hats]
  rfl

theorem P.run_bind_error {α β : Type} {x : P α} {r : Stop} (h : x.run w = (.error r, w')) (f : α → P β) :
    (x >>= f).run w = (.error r, w') := by
  rw [P.run_bind, h]

/-- The page that a load reads first. -/
def State.pageOf (s : State) (y : Thread) (e : Entry) : PageKey :=
  { pasid := s.pasidOf y.lslot, vpn := (e.d 0).toNat / 4096, intent := .read }

/-- The one load of `y` is well placed, and no TLB holds its page. -/
structure State.Misses (s : State) (y : Thread) (e : Entry) (a : Acc) : Prop where
  load  : a.kind = .load ∧ a.space = 0
  canon : canonical (e.d 0).toNat = true
  align : (e.d 0).toNat % a.align = 0
  miss  : s.trans (.core y.tid.core) (s.pasidOf y.lslot) (e.d 0).toNat .read = .miss
  ats   : s.ats = []
  port  : s.portUp = [true, true]

theorem resolve_miss (h : w.st.Misses y e a) :
    (resolve y a e).run w = (.error (.page { key := w.st.pageOf y e, ats := true } (e.d 0)),
      { w with st := w.st.asked (.core y.tid.core) (w.st.pageOf y e).pasid (w.st.pageOf y e).vpn }) := by
  obtain ⟨hk, h0⟩ := h.load
  have hwr : a.writes = false := by unfold Acc.writes; rw [hk]
  unfold resolve
  rw [P.run_getSt_bind]
  simp only [h0, h.canon, h.align, hwr, Bool.not_true, Bool.false_eq_true, if_false, ne_eq, not_true_eq_false]
  exact P.run_bind_error (translate_miss h.miss h.ats h.port e.retry) _

/-- A load of a page that no TLB holds stops at its translation (R142). -/
theorem performMem_miss (h : w.st.Misses y e a) (ha : accOf i = some a) (hx : w.st.thread? y.tid = some y) :
    (performMem i y.tid e).run w = (.error (.page { key := w.st.pageOf y e, ats := true } (e.d 0)),
      { w.as y.tid with st := w.st.asked (.core y.tid.core) (w.st.pageOf y e).pasid (w.st.pageOf y e).vpn }) := by
  unfold performMem
  rw [P.run_bind_ok (P.run_modify _ w), P.run_getSt_bind, ha]
  simp only [hx, h.load.1]
  exact P.run_bind_error (resolve_miss (w := w.as y.tid) h) _

/-- An instruction that waits for an answer about its page. -/
def Entry.awaiting (e : Entry) (pw : PageWait) (fa : DWord) : Entry :=
  { e with page := some pw, fa, st := if pw.ats then 0 else 1, queued := !pw.ats }

theorem State.Lone.settle_page (h : w.st.Lone y e) (hr : y.wait = .ready) (pw : PageWait) (fa : DWord) :
    settleEntry y.tid e.id (.error (.page pw fa)) w
      = ((), { w with st := w.st.putThread { y with unf := [e.awaiting pw fa] } }) := by
  unfold settleEntry
  simp only [W.run_bind, W.run_getSt, h.thread?, h.entry?, h.modEntry, hr, W.run_pure]
  rfl

/-- A load of a page that no TLB holds asks for the translation, and waits for it (R225). -/
theorem attemptEntry_asks (h : w.st.Lone y e) (hi : decodeWord e.word = .ok i) (ha : accOf i = some a) (hr : y.wait = .ready)
    (hm : w.st.Misses y e a) :
    attemptEntry y.tid e.id w = ((), { w.as y.tid with
      st := (w.st.asked (.core y.tid.core) (w.st.pageOf y e).pasid (w.st.pageOf y e).vpn).putThread
        { y with unf := [e.awaiting { key := w.st.pageOf y e, ats := true } (e.d 0)] } }) := by
  have hperf := (performOrdered_run ha (fun _ => by rw [hm.load.1]; exact nofun) h.thread? h.one).trans (performMem_miss hm ha h.thread?)
  rw [attemptEntry_access h hi ha, attempt_run h.find hperf]
  exact State.Lone.settle_page
    (w := { w.as y.tid with st := w.st.asked (.core y.tid.core) (w.st.pageOf y e).pasid (w.st.pageOf y e).vpn }) ⟨h.only, h.one⟩ hr _ _

/-! ### What a lone load's hypotheses give -/

theorem LoneLoad.lone (h : LoneLoad s th e i a) : s.Lone th e := ⟨h.alone.1, h.alone.2.1⟩

theorem LoneLoad.noWaiters (h : LoneLoad s th e i a) : s.NoWaiters := by
  obtain ⟨hl, hr, hc, hi⟩ := h.others
  refine ⟨fun c hc => ?_, hl, hr, hc, hi⟩
  obtain ⟨-, -, -, -, hcopy⟩ := h.calm.1 c hc
  exact hcopy

theorem LoneLoad.undisturbed (h : LoneLoad s th e i a) : s.Undisturbed := by
  obtain ⟨hcores, hheld, hplain, hlag⟩ := h.calm
  refine ⟨fun c hc => ?_, hheld, hplain, hlag⟩
  obtain ⟨hred, hsubs, hranges, -, -⟩ := hcores c hc
  exact ⟨hred, hsubs, hranges⟩

theorem LoneLoad.l1 (h : LoneLoad s th e i a) (c : Nat) : (s.core c).l1 = [] := by
  unfold State.core
  cases hf : s.cores.find? fun x => x.id = c with
  | none => rfl
  | some x =>
    obtain ⟨-, -, -, hl1, -⟩ := h.calm.1 x (List.mem_of_find?_eq_some hf)
    exact hl1

theorem LoneLoad.mayLoad (h : LoneLoad s th e i a) (c : Nat) : Work.MayLoad { st := s } c := ⟨h.undisturbed, h.l1 c, rfl⟩

/-! ### ACCESS_REPLY -/

/-- A function-unit instruction that has left its core completes at its reply (R237, R302). -/
theorem accessReply_fu (h : s.Lone th e) (hst : e.st = 0) (hq : e.queued = false) (hp : e.page = none) (hl : e.line = none)
    (hd : e.dst.all RegRef.isV = true) (hr : th.wait = .ready) (hpend : th.pending = none) (hj : th.reinj = false)
    (hi : decodeWord e.word = .ok i) (ha : accOf i = none) (hf : classOf i = some 1) :
    ∃ t x, exec (.accessReply th.tid e.id) s = .next t ∧ t.thread? th.tid = some x ∧ x.unf = [] ∧
      x.v = writeRefs th.v e.dst ((fuRes i (e.w 0) (e.w 2)).d.headD []) ∧ x.pc = th.pc := by
  obtain ⟨x, hx, htid, hunf, hpc, hv⟩ := attemptEntry_fu (w := { st := s }) h hi ha hf hd hr hpend
  refine ⟨_, x, (exec_accessReply h hj hst hq hp hl).trans (run_unlogged hx rfl rfl rfl rfl), ?_, hunf, hv, hpc⟩
  rw [← htid]
  exact (h.has.put htid).thread?

/-- A load that has left its core completes at its reply (R302). -/
theorem accessReply_load (h : LoneLoad s th e i a) (hst : e.st = 0) (hq : e.queued = false) (hp : e.page = none) (hr : th.wait = .ready)
    (htg : s.targetOf th a (e.d 0) = some tg) (hc : s.cleanSpan tg.pa a.size) :
    ∃ t, exec (.accessReply th.tid e.id) s = .next t ∧ SameMemory s t ∧
      t.threads = [{ th with unf := [], v := writeRefs th.v e.dst (extend a.ty (s.bytesAt tg.pa a.size)) }] := by
  obtain ⟨ha, hk, -, ho⟩ := h.load
  obtain ⟨hl, -, -, hd⟩ := h.entry
  obtain ⟨hpend, -, -, hj, -⟩ := h.thread
  have hload := attemptEntry_loads (w := { st := s }) h.lone h.word ha hk ho hd hr hpend (h.mayLoad _) htg hc
  exact ⟨_, (exec_accessReply h.lone hj hst hq hp hl).trans (run_unlogged hload rfl rfl rfl rfl), sameMemory_of_memPart rfl rfl,
    threads_putThread_only h.lone.only rfl⟩

/-! ### PAGE_RESPONSE -/

/-- A failed page request: the instruction stands in the replay queue, and its thread enters the handler (R226). -/
theorem pageResponse_invalid (h : s.Lone th e) (hpri : s.pri = [key]) (hp : e.page = some { key, ats := false }) (hv : e.val = none)
    (hpf : e.isPrefetch = false) (hf : th.fetchWait = none) (hpend : th.pending = none) (hh : th.halt = none) (hi : th.idle = false)
    (hm : th.handler = false) (hhas : s.hasHandler th = true) (hn : s.NoWaiters) :
    ∃ t x, exec (.pageResponse key.pasid key.vpn key.intent .invalid) s = .next t ∧ t.pri = [] ∧ t.tlb = s.tlb ∧
      t.thread? th.tid = some x ∧ x.handler = true ∧ x.tq = true ∧ x.tpc = th.pc ∧ x.pc = s.handlerPc th ∧
      x.unf.map (fun y => (y.st, y.cause, y.sub, y.fa, y.queued)) = [(2, some .page, 1, e.fa, true)] ∧
      t.groups = s.maskedGroups th 6 true := by
  have hlone : (s.priAnswered key (some 1)).Lone th e := ⟨h.only, h.one⟩
  obtain ⟨t, x, hfail, hx⟩ := failEntries_enters (w := { st := s.priAnswered key (some 1) }) hlone hv hpend hh hi hm hhas .page 1
  have hnews := (newsToThreads_fails (n := priNews key (some 1)) (w := { st := s.priAnswered key (some 1) }) hlone hf hp
    (by simp [priNews]) hpf rfl).trans hfail
  have hrest {α : Type} (f : State → α) : f t.bare = f (s.priAnswered key (some 1)).bare := congrArg f hx.rest
  have hwait : t.NoWaiters := ⟨(hrest State.cores).symm ▸ hn.copies, (hrest State.launches).symm ▸ hn.launches,
    (hrest State.retire).trans hn.retire, (hrest State.colls).trans hn.colls, (hrest State.images).trans hn.images⟩
  refine ⟨t, x, exec_pageResponse hpri .invalid (spread_threads hnews hwait) rfl rfl (hrest State.mem) (hrest State.sec),
    hrest State.pri, hrest State.tlb, hx.found, hx.mode.1, hx.mode.2, hx.pcs.1, hx.pcs.2, ?_, hx.groups⟩
  rw [hx.unf]
  rfl

/-- A thread's record with its one instruction `e`, and no wait. -/
def Thread.readyWith (y : Thread) (e : Entry) : Thread := { y with unf := [e], wait := .ready, resume := .ready }

/-- A waiting instruction of `y` when it is attempted again after a Success response for the page of `key`. -/
def Entry.granted (e : Entry) (y : Thread) (key : PageKey) : Entry := (e.told (some (key.vpn + 1))).rearmed y

/-- A thread that is parked on its one instruction leaves FAULT when that is attempted again (R297). -/
theorem Thread.renewed_fault (hw : y.wait = .fault) (hr : y.resume = .ready) (key : PageKey) :
    (y.told e (some (key.vpn + 1))).renewed (e.told (some (key.vpn + 1))) = y.readyWith (e.granted y key) := by
  refine (if_pos hw).trans ?_
  show { (y.told e (some (key.vpn + 1))).rearmed (e.told (some (key.vpn + 1))) with wait := y.resume, resume := .ready } = _
  rw [hr]
  rfl

/-- A granted page: the load leaves FAULT, is translated again, and asks for the translation that the TLBs have dropped (R297). -/
theorem pageResponse_load (h : LoneLoad s th e i a) (hpri : s.pri = [key]) (hkey : key = s.pageOf th e)
    (hp : e.page = some { key, ats := false }) (hw : th.wait = .fault) (hr : th.resume = .ready)
    (hm : (s.priAnswered key none).Misses th e a) :
    ∃ t x, exec (.pageResponse key.pasid key.vpn key.intent .success) s = .next t ∧ t.pri = [] ∧ t.thread? th.tid = some x ∧
      t.ats.map (fun y => (y.pasid, y.vpn)) = [(key.pasid, key.vpn)] ∧ t.hostOut = s.hostOut ++ [.ats key.pasid key.vpn] ∧
      t.tlb = (s.priAnswered key none).tlb ∧ x.v = th.v ∧ x.wait = .ready ∧
      x.unf.map (fun y => (y.word, y.st, y.queued, y.page)) = [(e.word, 0, false, some { key, ats := true })] ∧
      SameMemory s t := by
  obtain ⟨ha, -, -, -⟩ := h.load
  obtain ⟨-, -, -, hj, hmode, -, hf⟩ := h.thread
  have hlone : (s.priAnswered key none).Lone th e := ⟨h.lone.only, h.lone.one⟩
  have hnews := newsToThreads_attempts (n := priNews key none) (w := { st := s.priAnswered key none }) hlone hf hp
    (by simp [priNews]) rfl rfl hj hmode (Thread.renewed_fault hw hr _)
  have hready : ((s.priAnswered key none).putThread (th.readyWith (e.granted th key))).Lone (th.readyWith (e.granted th key))
      (e.granted th key) := hlone.put (x := th.readyWith (e.granted th key)) rfl rfl
  have hask := attemptEntry_asks (w := { st := (s.priAnswered key none).putThread (th.readyWith (e.granted th key)) }) hready h.word ha rfl
    ⟨hm.load, hm.canon, hm.align, hm.miss, hm.ats, hm.port⟩
  have hpage : ((s.priAnswered key none).putThread (th.readyWith (e.granted th key))).pageOf (th.readyWith (e.granted th key))
      (e.granted th key) = key := hkey.symm
  rw [hpage] at hask
  have hx := (hready.has.put (a := th.readyWith ((e.granted th key).awaiting { key, ats := true } (e.d 0))) rfl).thread?
  have hn := h.noWaiters
  exact ⟨_, _, exec_pageResponse hpri .success
      (spread_threads (hnews.trans hask) ⟨hn.copies, hn.launches, hn.retire, hn.colls, hn.images⟩) rfl rfl rfl rfl,
    rfl, hx, rfl, rfl, rfl, rfl, rfl, rfl, sameMemory_of_memPart rfl rfl⟩

/-! ### TRANSLATION_COMPLETION -/

/-- A translation that comes: the load that waited for it writes its destination (R225). -/
theorem translationCompletion_load (h : LoneLoad s th e i a) (tr : Translation)
    (hats : s.ats = [{ pasid := key.pasid, vpn := key.vpn, base := dieOf th.tid.core / 4, tlbs := [.core th.tid.core] }])
    (hc : th.tid.core < 512) (hp : e.page = some { key, ats := true }) (hw : th.wait = .ready)
    (htg : (s.atsAnswered key.pasid key.vpn (some tr)).targetOf th a (e.d 0) = some tg) (hcl : s.cleanSpan tg.pa a.size) :
    ∃ t, exec (.translationCompletion key.pasid key.vpn (some tr)) s = .next t ∧ t.ats = [] ∧
      t.tlb = (s.atsAnswered key.pasid key.vpn (some tr)).tlb ∧ SameMemory s t ∧
      t.threads = [{ th with unf := [], v := writeRefs th.v e.dst (extend a.ty (s.bytesAt tg.pa a.size)) }] := by
  obtain ⟨ha, hk, -, ho⟩ := h.load
  obtain ⟨-, -, -, hd⟩ := h.entry
  obtain ⟨hpend, -, -, hj, hmode, -, hf⟩ := h.thread
  have hbase : dieOf th.tid.core / 4 < 4 := by unfold dieOf; omega
  have hlone : (s.atsAnswered key.pasid key.vpn (some tr)).Lone th e := ⟨h.lone.only, h.lone.one⟩
  have hz : (th.told e none).renewed (e.told none) = (th.told e none).rearmed (e.told none) := if_neg (by simp [Thread.told, hw])
  have hnews := newsToThreads_attempts (n := atsNews key.pasid key.vpn (some tr))
    (w := { st := s.atsAnswered key.pasid key.vpn (some tr) }) hlone hf hp (by simp [atsNews]) rfl rfl hj hmode hz
  have hu := h.undisturbed
  have hload := attemptEntry_loads
    (w := { st := (s.atsAnswered key.pasid key.vpn (some tr)).putThread ((th.told e none).rearmed (e.told none)) })
    (hlone.put (x := (th.told e none).rearmed (e.told none)) rfl rfl) h.word ha hk ho hd hw hpend (tg := tg)
    ⟨⟨hu.cores, hu.noHost, hu.plain, hu.noLag⟩, h.l1 _, rfl⟩ htg hcl
  have hn := h.noWaiters
  refine ⟨_, exec_translationCompletion hats hbase (some tr)
    (spread_threads (hnews.trans hload) ⟨hn.copies, hn.launches, hn.retire, hn.colls, hn.images⟩) rfl rfl rfl rfl, rfl, rfl,
    sameMemory_of_memPart rfl rfl, threads_putThread_only (threads_putThread_only hlone.only rfl) rfl⟩

/-- Settles O24, clause by clause: each answer is told to the one thread that waits for it, or to nothing, and the instruction that
waits is attempted again, or fails. -/
theorem hostAnswersEndTheWaits : Obligations.HostAnswersEndTheWaits := by
  unfold Obligations.HostAnswersEndTheWaits
  refine ⟨?_, ?_, ?_, ?_, ?_, ?_, ?_⟩
  · intro s pasid vpn intent hpri ht hcores hlaunches hretire hcolls himages
    exact pageResponse_success hpri ht (.of_empty hcores hlaunches hretire hcolls himages)
  · intro s pasid vpn intent th e fa hpri ht hu hp hfa _ _ hv hpf hf hpend hh hi hm hhas hcores hretire hcolls himages hlaunches _
    subst hfa
    exact pageResponse_invalid ⟨ht, hu⟩ hpri hp hv hpf hf hpend hh hi hm hhas
      ⟨by simp [hcores], hlaunches, hretire, hcolls, himages⟩
  · intro s pasid vpn tr c hc hats ht hcores hlaunches hretire hcolls himages
    exact translationCompletion_fills tr hc hats ht (.of_empty hcores hlaunches hretire hcolls himages)
  · intro s w th e ht hu hst hq hp hl hd hr hpend hj hwf he
    exact accessReply_fu ⟨ht, hu⟩ hst hq hp hl hd hr hpend hj (decodeWord_of_encode hwf he) rfl rfl
  · intro s i th e a tg h hst hq hp hr htg hc
    exact accessReply_load h hst hq hp hr htg hc
  · intro s i th e a key h hpri hpasid hvpn hintent hcan hal _ _ hp _ hw hr hats hport s' hmiss
    obtain ⟨pasid, vpn, intent⟩ := key
    obtain rfl : intent = .read := hintent
    obtain ⟨-, hk, h0, -⟩ := h.load
    exact pageResponse_load h hpri (by rw [State.pageOf, ← hpasid, ← hvpn]) hp hw hr
      ⟨⟨hk, h0⟩, hcan, hal, by rw [← hmiss, hpasid]; rfl, hats, hport⟩
  · intro s i th e a tg tr key h hats hc _ _ hp _ hw fill s' htg hcl
    exact translationCompletion_load h tr hats hc hp hw htg hcl

end Sys2Proof.Machine
end
